-- ==== Sys2Proof/Word.lean ====
section
/-! DEFINITION. The word types of the machine (R4: bit 0 is the least significant bit). -/
namespace Sys2Proof

/-- A byte of memory. -/
abbrev Byte := BitVec 8

/-- A 64-bit s register, special register or address. -/
abbrev Word := BitVec 64

/-- A v register, or one 64-byte line (R19, R121). -/
abbrev Line := BitVec 512

/-- A raw 96-bit instruction slot (R49). -/
abbrev Slot := BitVec 96

/-- The contents of a 64×64 bit tile (R252). -/
abbrev BitTile := BitVec 4096

/-- The contents of a tile (at most 4 KiB) or of an accumulator of 32×32 cells of 32 bits (R228). -/
abbrev Tile := BitVec 32768

end Sys2Proof
end

