-- ==== Sys2Proof/Machine/Bits.lean ====
section
/-! DEFINITION. Bit fields, sign extension, byte order and the bit functions of the scalar forms (R4, R58, R109). -/
namespace Sys2Proof.Bits

/-- `x[hi:lo]` of R4 on a natural number. -/
def fld (x hi lo : Nat) : Nat := (x >>> lo) % 2 ^ (hi + 1 - lo)

/-- Bit `i` of `x`. -/
def bit (x i : Nat) : Bool := (x >>> i) % 2 == 1

/-- A Bool as the number 0 or 1. -/
def b2n (b : Bool) : Nat := if b then 1 else 0

/-- The value of the low `n` bits of `x` read in two's complement. -/
def sx (n x : Nat) : Int :=
  let y := x % 2 ^ n
  if y < 2 ^ (n - 1) then (y : Int) else (y : Int) - (2 ^ n : Nat)

/-- `v` modulo 2^n, as a natural number. -/
def wrap (n : Nat) (v : Int) : Nat := (v % ((2 ^ n : Nat) : Int)).toNat

/-- A signed integer as a 64-bit word. -/
def word (v : Int) : Word := BitVec.ofInt 64 v

/-- The value of a word in two's complement. -/
def sw (w : Word) : Int := sx 64 w.toNat

/-- Replaces the `n` bits of `x` at bit `lo` by the low `n` bits of `v`. -/
def setFld (x n lo v : Nat) : Nat :=
  x - ((x >>> lo) % 2 ^ n) * 2 ^ lo + (v % 2 ^ n) * 2 ^ lo

/-- The number of one bits among the low `n` bits. -/
def popc : Nat → Nat → Nat
  | 0, _ => 0
  | n + 1, x => x % 2 + popc n (x / 2)

/-- The number of leading zero bits of the `n`-bit pattern; `n` when it is zero (R109 CLZ). -/
def clz (n x : Nat) : Nat :=
  let y := x % 2 ^ n
  if y = 0 then n else n - 1 - Nat.log2 y

/-- The number of trailing zero bits of the `n`-bit pattern; `n` when it is zero (R109 CTZ). -/
def ctz : Nat → Nat → Nat
  | 0, _ => 0
  | n + 1, x => if x % 2 = 1 then 0 else 1 + ctz n (x / 2)

/-- The `n`-bit pattern reversed end to end (R109 BREV). -/
def brev : Nat → Nat → Nat
  | 0, _ => 0
  | n + 1, x => (x % 2) * 2 ^ n + brev n (x / 2)

/-- The least set bit at or above `i` among `n` positions, or `i + n` (R258 BFIRST). -/
def firstSet : Nat → Nat → Nat → Nat
  | 0, i, _ => i
  | n + 1, i, x => if x % 2 = 1 then i else firstSet n (i + 1) (x / 2)

/-- Rounds `x` up to a multiple of `m`. -/
def roundUp (x m : Nat) : Nat := (x + m - 1) / m * m

/-- ⌈x / m⌉. -/
def ceilDiv (x m : Nat) : Nat := (x + m - 1) / m

/-- `n` bytes of `x`, lowest first (R4). -/
def bytesLE : Nat → Nat → List Byte
  | 0, _ => []
  | n + 1, x => BitVec.ofNat 8 x :: bytesLE n (x / 256)

/-- The little-endian value of a list of bytes (R4). -/
def ofBytesLE : List Byte → Nat
  | [] => 0
  | b :: bs => b.toNat + 256 * ofBytesLE bs

/-- The list 0, 1, …, n − 1. -/
def upto (n : Nat) : List Nat := List.range n

end Sys2Proof.Bits
end

