-- ==== Sys2Proof/Machine/Crc.lean ====
section
/-! DEFINITION. The two checksums: CRC-32 of packets and records (R45, R170, R171, R177) and CRC-32C of paired messages (R183). -/
namespace Sys2Proof.Crc

/-- Eight shifts of a reflected CRC register with its polynomial. -/
def shifts (poly : Nat) : Nat → Nat → Nat
  | 0, r => r
  | n + 1, r => shifts poly n (if r % 2 = 1 then r / 2 ^^^ poly else r / 2)

/-- A reflected CRC of 32 bits over bytes, first and last inverted. -/
def crc (poly : Nat) (bs : List Byte) : Nat :=
  bs.foldl (fun r b => shifts poly 8 (r ^^^ b.toNat)) 0xFFFFFFFF ^^^ 0xFFFFFFFF

/-- CRC-32. -/
def crc32 (bs : List Byte) : Nat := crc 0xEDB88320 bs

/-- CRC-32C. -/
def crc32c (bs : List Byte) : Nat := crc 0x82F63B78 bs

end Sys2Proof.Crc
end

