-- ==== Sys2Proof/Config.lean ====
section
/-! DEFINITION. What an implementation fixes, and the free values: constants without a body, so that no proof can lean on
a value the spec leaves open. `State.free` is the counter that gives each use its own value. -/
namespace Sys2Proof.Config

/-- LEASE of the ordering machine (R148). -/
def lease : Nat := 10

/-- R116: device memory of a package ends at this offset. -/
def deviceBytes : Nat := 384000000000

/-- R149, R151: whether a load that may be served by a lease copy is served by it. -/
opaque takeLease : Nat → Bool

/-- R1, R2: whether the reserve dies of the product may take a remap; a PXM960-LC-R has them fused off. All packages of a system are of one
product (log 29). -/
opaque reserveUsable : Bool

/-- R139: how many of the oldest entries of an accumulate table have been freed before the next arrival (free value). -/
opaque tableFreed : Nat → Nat

/-- R338, R343, R346: a rank for each part of a core block of a bank split: the parts stand in the block in the order of their ranks; the
spec gives no order (free value). -/
opaque blockOrder : Nat → Nat → Nat

/-- R354: whether a public key is the one whose hash the boot ROM holds. -/
opaque rootKey : Nat × Nat → Bool

/-- R347: what one logged line takes of the shadow log beyond its 64 bytes; the spec gives no layout (free value). -/
opaque logExtra : Nat

/-- R347: bytes of the shadow log that one logged line takes: the line and at most 64 bytes more (log 7). -/
def logEntryBytes : Nat := 64 + logExtra % 65

/-- R99, R181 leave the fate of an s result open when a later task runs in its context: whether it is still written. -/
opaque lateResult : Nat → Bool

/-- A value of 64 bits the spec does not state, one for each use. -/
opaque freeWord : Nat → Word

end Sys2Proof.Config
end

