-- ==== Sys2Proof/Syntax.lean ====
section
/-! DEFINITION. The instructions of the Prarax set and the other steps of the device: one constructor for each row of
the opcode table. Operands are those of R60 and R63; the modifiers of FN and IMM44 are pulled apart by name. -/
namespace Sys2Proof

/-- The type codes (R59). -/
inductive Ty where
  | i64 | n64 | i32 | n32 | i16 | n16 | i8 | n8 | f64 | f32 | f16 | bf16 | e4m3 | e5m2 | bfp | x
deriving DecidableEq, Repr

/-- The directions of links (R60). -/
inductive Dir where
  | north | east | south | west
deriving DecidableEq, Repr

/-- A link operand (R60): a near lane in a direction, or a far lane east or west. -/
inductive Link where
  | near (lane : Fin 4) (dir : Dir)
  | far (lane : Fin 4) (east : Bool)
deriving DecidableEq, Repr

/-- An operand specifier (R60). -/
inductive Opnd where
  | s (n : Fin 32)
  | v (n : Fin 32)
  | t (n : Fin 8)
  | a (n : Fin 8)
  | b (n : Fin 8)
  | p (n : Fin 8)
  | link (l : Link)
  | imm (i : BitVec 5)
  | none
deriving DecidableEq, Repr

/-- The guard (R34, R58): executes if predicate `p` is 1, or, with `neg`, if it is 0. -/
structure Guard where
  neg : Bool
  p : Fin 8
deriving DecidableEq, Repr

/-- A format M memory operand (R64): base, index, index shift and displacement. -/
structure Mem where
  base : Fin 32
  index : Option (Fin 32)
  shift : BitVec 4
  disp : BitVec 40
deriving DecidableEq, Repr

/-- A format J target (R65): signed line offset and slot. -/
structure Target where
  off : BitVec 41
  slot : Fin 5
deriving DecidableEq, Repr

/-- The conditions of CMP, VCMP and WAITE (R108). -/
inductive Cond where
  | eq | ne | lt | le | gt | ge
deriving DecidableEq, Repr

/-- The rounding codes (R80). -/
inductive Rc where
  | asr | rne | rtz | rup | rdn
deriving DecidableEq, Repr

/-- The scope of RFLUSH and FENCE (R143, R194). -/
inductive Reach where
  | all | local | other
deriving DecidableEq, Repr

/-- The functions of PLOG (R108). -/
inductive PlogFn where
  | and | or | xor | andn | nand | nor | xnor | not
deriving DecidableEq, Repr

/-- The access kinds of XLAT (R124). -/
inductive XlatKind where
  | read | write | exec
deriving DecidableEq, Repr

/-- The functions of AMO (R124). -/
inductive AmoFn where
  | swap | add | and | or | xor | min | max
deriving DecidableEq, Repr

/-- The functions of VRED and VSCAN (R210). -/
inductive RedFn where
  | sum | min | max | and | or | xor
deriving DecidableEq, Repr

/-- The special functions (R211). -/
inductive SfFn where
  | exp2 | log2 | rcp | rsqrt | exp | log | tanh | sigmoid | erf | sin | cos
deriving DecidableEq, Repr

/-- The epilogue functions of ADRAIN (R249, R250). -/
inductive EpiFn where
  | none | gelu | silu | tanh | sigmoid | dgelu | dsilu | dtanh | dsigmoid | mul
deriving DecidableEq, Repr

/-- The predicates of BCMP (R257). -/
inductive BPred where
  | lt | le | eq | ne | gt | ge | lti | gti
deriving DecidableEq, Repr

/-- The NaN modes of BCMP (R257). -/
inductive NanMode where
  | ord | tot | nlast
deriving DecidableEq, Repr

/-- The functions of BLOG (R254). -/
inductive BlogFn where
  | and | or | xor | andn | not
deriving DecidableEq, Repr

/-- The selectors of TQRY (R316). -/
inductive TqryFn where
  | ver | rows | cols | fmt | base | head
deriving DecidableEq, Repr

/-- The functions of GSWITCH (R342). -/
inductive GswFn where
  | out | in_ | cancel
deriving DecidableEq, Repr

/-- The field of EXT (R107): position and length in registers, or constants (`len` holds the length less one). -/
inductive ExtField where
  | regs (b c : Opnd)
  | const (pos len : BitVec 6)
deriving DecidableEq, Repr

/-- The value source of VSHAPE (R210). -/
inductive VshSrc where
  | imm (v : BitVec 28)
  | reg (n : Fin 32)
deriving DecidableEq, Repr

/-- The public key and the pair of numbers that an image is signed with (R354). -/
structure Signature where
  key : Nat × Nat
  pair : Nat × Nat
deriving DecidableEq, Repr

/-- A firmware image and its signature (R353, R354). -/
structure SignedImage where
  bytes : List Byte
  sign : Signature
deriving DecidableEq, Repr

/-- The parts of a saved core block that the Seroan service reaches (R140, R205, R338, R343, R356). -/
inductive SavedPart where
  | pad | tiles | accs | status | tsh | bits | residual | ring
  | context (c : Fin 4)
  | vregs (c : Fin 4)
  | chain (c : Fin 8)
  | scoreboard | sequencer | counters | queues | arrivals | waits | stamps
deriving DecidableEq, Repr

/-- One step of the device: an instruction of the opcode map (R67), or another row of the opcode table. A core is named
by package · 4,096 + core index, a slice by package · 512 + slice, a front end by package · 128 + number. A step without
operands that concerns one gang, front end, package, pair or quad finds its number in the state (`State.subject`). -/
inductive Instr where
  /-- NOP (R107). Does nothing; all 96 bits must be zero. -/
  | nop
  /-- ADD (R109). Writes the integer sum of A and B, wrapped to the type or saturated with .sat. -/
  | add (g : Guard) (t : Ty) (sat : Bool) (d : Opnd) (a : Opnd) (b : Opnd)
  /-- SUB (R109). Writes the integer difference of A and B, wrapped to the type or saturated with .sat. -/
  | sub (g : Guard) (t : Ty) (sat : Bool) (d : Opnd) (a : Opnd) (b : Opnd)
  /-- MUL (R109). Writes the integer product of A and B, wrapped to the type or saturated with .sat. -/
  | mul (g : Guard) (t : Ty) (sat : Bool) (d : Opnd) (a : Opnd) (b : Opnd)
  /-- MULH (R109). Writes the high half of the exact integer product. -/
  | mulh (g : Guard) (t : Ty) (d : Opnd) (a : Opnd) (b : Opnd)
  /-- DIV (R109). Writes the truncated quotient; a zero divisor gives 0 and sets DZ. -/
  | div (g : Guard) (t : Ty) (d : Opnd) (a : Opnd) (b : Opnd)
  /-- REM (R109). Writes the remainder, which takes the sign of the dividend. -/
  | rem (g : Guard) (t : Ty) (d : Opnd) (a : Opnd) (b : Opnd)
  /-- AND (R109). Writes the bitwise AND of the operands. -/
  | and (g : Guard) (t : Ty) (d : Opnd) (a : Opnd) (b : Opnd)
  /-- OR (R109). Writes the bitwise OR of the operands. -/
  | or (g : Guard) (t : Ty) (d : Opnd) (a : Opnd) (b : Opnd)
  /-- XOR (R109). Writes the bitwise XOR of the operands. -/
  | xor (g : Guard) (t : Ty) (d : Opnd) (a : Opnd) (b : Opnd)
  /-- ANDN (R109). Writes A AND NOT B. -/
  | andn (g : Guard) (t : Ty) (d : Opnd) (a : Opnd) (b : Opnd)
  /-- SHL (R109). Shifts A left by B modulo the width. -/
  | shl (g : Guard) (t : Ty) (d : Opnd) (a : Opnd) (b : Opnd)
  /-- SHR (R109). Shifts A right and fills with zeros. -/
  | shr (g : Guard) (t : Ty) (d : Opnd) (a : Opnd) (b : Opnd)
  /-- SHA (R109). Shifts A right and fills with the sign bit. -/
  | sha (g : Guard) (t : Ty) (d : Opnd) (a : Opnd) (b : Opnd)
  /-- ROT (R109). Rotates A left by B modulo the width. -/
  | rot (g : Guard) (t : Ty) (d : Opnd) (a : Opnd) (b : Opnd)
  /-- MIN (R110). Writes the lesser operand, as an integer or as a float under the IEEE rules. -/
  | min (g : Guard) (t : Ty) (d : Opnd) (a : Opnd) (b : Opnd)
  /-- MAX (R110). Writes the greater operand, as an integer or as a float under the IEEE rules. -/
  | max (g : Guard) (t : Ty) (d : Opnd) (a : Opnd) (b : Opnd)
  /-- CMP (R110). Compares A with B by a condition and writes the result to a predicate. -/
  | cmp (g : Guard) (t : Ty) (cc : Cond) (d : Fin 8) (a : Opnd) (b : Opnd)
  /-- SEL (R111). Selects A or B by a predicate. -/
  | sel (g : Guard) (d : Opnd) (a : Opnd) (b : Opnd) (c : Fin 8)
  /-- CLZ (R109). Counts the leading zero bits. -/
  | clz (g : Guard) (t : Ty) (d : Opnd) (a : Opnd)
  /-- CTZ (R109). Counts the trailing zero bits. -/
  | ctz (g : Guard) (t : Ty) (d : Opnd) (a : Opnd)
  /-- POPC (R109). Counts the one bits. -/
  | popc (g : Guard) (t : Ty) (d : Opnd) (a : Opnd)
  /-- BREV (R109). Reverses the bit pattern. -/
  | brev (g : Guard) (t : Ty) (d : Opnd) (a : Opnd)
  /-- EXT (R109). Extracts a bit field and extends it. -/
  | ext (g : Guard) (t : Ty) (d : Opnd) (a : Opnd) (x : ExtField)
  /-- INS (R109). Inserts the low bits of B into a field of A. -/
  | ins (g : Guard) (t : Ty) (d : Opnd) (a : Opnd) (b : Opnd) (pos : BitVec 6) (len : BitVec 6)
  /-- ADDI (R109). Adds a 44-bit signed immediate to A. -/
  | addi (g : Guard) (t : Ty) (d : Opnd) (a : Opnd) (imm : BitVec 44)
  /-- MOVI (R109). Writes a sign-extended 44-bit immediate. -/
  | movi (g : Guard) (t : Ty) (d : Opnd) (imm : BitVec 44)
  /-- MOVH (R109). Places a 20-bit immediate above the low 44 bits of A. -/
  | movh (g : Guard) (d : Opnd) (a : Option (Fin 32)) (imm : BitVec 20)
  /-- LEA (R109). Writes the effective address of a memory operand without any access. -/
  | lea (g : Guard) (d : Fin 32) (m : Mem)
  /-- MOV (R111). Copies a value between s registers, links and predicates. -/
  | mov (g : Guard) (d : Opnd) (a : Opnd)
  /-- PLOG (R111). Applies a logic function to predicates. -/
  | plog (g : Guard) (fn : PlogFn) (d : Fin 8) (a : Fin 8) (b : Option (Fin 8))
  /-- CHK (R111). Raises cause 0x1F unless B ≤ A < C. -/
  | chk (g : Guard) (t : Ty) (a : Opnd) (b : Opnd) (c : Opnd)
  /-- BR (R113). Branches to a J-format target. -/
  | br (g : Guard) (tg : Target)
  /-- BRX (R113). Branches to the code address held in s[A]. -/
  | brx (g : Guard) (a : Fin 32)
  /-- CALL (R113). Writes the return address to s30 and branches to the target. -/
  | call (g : Guard) (tg : Target)
  /-- CALLX (R113). Writes the return address to s30 and branches to s[A]. -/
  | callx (g : Guard) (a : Fin 32)
  /-- RET (R113). Branches to the code address in s30. -/
  | ret (g : Guard)
  /-- LOOP (R113). Decrements the counter and branches while it is nonzero. -/
  | loop (g : Guard) (a : Fin 32) (tg : Target)
  /-- YIELD (R96). Ends the running context's turn. -/
  | yield (g : Guard)
  /-- FOLLOW (R101). Makes the context a follower of a neighbour's forwarded stream. -/
  | follow (g : Guard) (dir : Dir) (a : Opnd)
  /-- DETACH (R114). Ends following and continues at the next group. -/
  | detach (g : Guard)
  /-- LEAD (R100). Starts or ends the forwarding of the context's groups to neighbours. -/
  | lead (g : Guard) (a : Opnd)
  /-- LD (R127). Loads 1 to 8 bytes into an s register or a link. -/
  | ld (g : Guard) (t : Ty) (d : Opnd) (m : Mem)
  /-- ST (R127). Stores 1 to 8 bytes from an s register or a link. -/
  | st (g : Guard) (t : Ty) (d : Opnd) (m : Mem)
  /-- LDV (R128). Loads a group of v registers, one 64-byte row per access. -/
  | ldv (g : Guard) (d : Fin 32) (m : Mem) (str : Option (Fin 32))
  /-- STV (R128). Stores a group of v registers, one 64-byte row per access. -/
  | stv (g : Guard) (d : Fin 32) (m : Mem) (str : Option (Fin 32))
  /-- LDL (R129). Loads a value and discards the line's dirty copies without writing them back. -/
  | ldl (g : Guard) (t : Ty) (d : Fin 32) (m : Mem)
  /-- PREF (R130). Requests a line into the L1 or into its home slice. -/
  | pref (g : Guard) (slice : Bool) (m : Mem)
  /-- WBL (R130). Writes a dirty L1 line back to its home and keeps or invalidates the copy. -/
  | wbl (g : Guard) (inv : Bool) (m : Mem)
  /-- DISC (R131). Marks or clears the discard bits of scratchpad lines. -/
  | disc (g : Guard) (clear : Bool) (c : Fin 32) (m : Mem)
  /-- XLAT (R132). Writes the physical address of an effective address, or the cause it would raise. -/
  | xlat (g : Guard) (kind : XlatKind) (d : Fin 32) (m : Mem)
  /-- AMO (R133). Performs an atomic read-modify-write at the line's home. -/
  | amo (g : Guard) (t : Ty) (fn : AmoFn) (d : Option (Fin 32)) (c : Opnd) (m : Mem)
  /-- CAS (R133). Performs an atomic compare-and-swap at the line's home. -/
  | cas (g : Guard) (t : Ty) (d : Fin 32) (c : Opnd) (m : Mem)
  /-- ACC (R137). Sends one refusable accumulate to the element at EA. -/
  | acc (g : Guard) (t : Ty) (exact : Bool) (d : Fin 32) (m : Mem)
  /-- ACCV (R137). Sends a refusable accumulate of 64 bytes to a line. -/
  | accv (g : Guard) (t : Ty) (exact : Bool) (d : Fin 32) (m : Mem)
  /-- RFLUSH (R143). Sends the residual entries in scope as insistent and waits for every answer. -/
  | rflush (g : Guard) (r : Reach)
  /-- RSTAT (R143). Writes the number of live residual entries. -/
  | rstat (g : Guard) (d : Fin 32)
  /-- XRD (R136). Reads an exact cell as f64. -/
  | xrd (g : Guard) (d : Fin 32) (m : Mem)
  /-- XCLR (R136). Clears an exact cell and sets its scale. -/
  | xclr (g : Guard) (c : Opnd) (m : Mem)
  /-- FLD (R135). Reads a future, or suspends the task on a deferred-read record. -/
  | fld (g : Guard) (d : Fin 32) (c : Option (Fin 32)) (m : Mem)
  /-- FST (R135). Fills a future and enqueues a continuation for each waiting reader. -/
  | fst (g : Guard) (d : Fin 32) (m : Mem)
  /-- FRST (R135). Resets a full future to empty. -/
  | frst (g : Guard) (m : Mem)
  /-- BAR (R186). Flushes, fences and arrives at a barrier of its scope. -/
  | bar (g : Guard) (scope : Fin 8)
  /-- SSTEP (R187). Flushes, fences and arrives at the gang-wide superstep barrier. -/
  | sstep (g : Guard)
  /-- SPAWN (R188). Checks a task packet and enqueues it. -/
  | spawn (g : Guard) (m : Mem)
  /-- DONE (R189). Decrements the successors' join counters and ends the task. -/
  | done (g : Guard)
  /-- JOIN (R190). Decrements one join counter and returns the new value. -/
  | join (g : Guard) (d : Option (Fin 32)) (m : Mem)
  /-- QPUT (R191). Puts a value into a program queue, waiting while it is full. -/
  | qput (g : Guard) (a : Fin 32) (b : Opnd) (lim : BitVec 24)
  /-- QGET (R191). Takes a value from a program queue, waiting while it is empty. -/
  | qget (g : Guard) (d : Fin 32) (a : Fin 32) (lim : BitVec 24)
  /-- WAITE (R192). Waits until a memory word satisfies a comparison. -/
  | waite (g : Guard) (t : Ty) (cc : Cond) (d : Option (Fin 32)) (a : Fin 32) (b : Opnd) (lim : BitVec 24)
  /-- FENCE (R194). Absorbs the accumulate answers and discards in its scope. -/
  | fence (g : Guard) (r : Reach)
  /-- LAUNCH (R195). Submits a launch record to the launch port. -/
  | launch (g : Guard) (d : Fin 32) (c : Option (Fin 32)) (m : Mem)
  /-- GTIME (R196). Writes the global time in nanoseconds. -/
  | gtime (g : Guard) (d : Fin 32)
  /-- VSHAPE (R213). Writes VSH. -/
  | vshape (g : Guard) (src : VshSrc)
  /-- VREP (R204). Opens a capture of the next vector forms, which then repeat over passes. -/
  | vrep (g : Guard) (count : BitVec 8) (span : BitVec 4) (stride : BitVec 3)
  /-- VMOV (R213). Copies whole v registers. -/
  | vmov (g : Guard) (d : Fin 32) (a : Fin 32)
  /-- VBCAST (R213). Broadcasts one value to every active element. -/
  | vbcast (g : Guard) (t : Ty) (d : Fin 32) (a : Opnd) (b : Opnd)
  /-- VEXT (R213). Extracts one element to an s register. -/
  | vext (g : Guard) (t : Ty) (d : Fin 32) (a : Fin 32) (b : Opnd)
  /-- VINS (R213). Inserts one value into one element. -/
  | vins (g : Guard) (t : Ty) (d : Fin 32) (a : Opnd) (b : Opnd)
  /-- VADD (R214). Adds element-wise. -/
  | vadd (g : Guard) (t : Ty) (rc : Rc) (sat : Bool) (d : Fin 32) (a : Fin 32) (b : Opnd)
  /-- VSUB (R214). Subtracts element-wise. -/
  | vsub (g : Guard) (t : Ty) (rc : Rc) (sat : Bool) (d : Fin 32) (a : Fin 32) (b : Opnd)
  /-- VMUL (R214). Multiplies element-wise. -/
  | vmul (g : Guard) (t : Ty) (rc : Rc) (sat : Bool) (d : Fin 32) (a : Fin 32) (b : Opnd)
  /-- VFMA (R214). Computes a fused multiply-add element-wise. -/
  | vfma (g : Guard) (t : Ty) (rc : Rc) (sat : Bool) (d : Fin 32) (a : Fin 32) (b : Opnd) (c : Opnd)
  /-- VFMS (R214). Computes a fused multiply-subtract element-wise. -/
  | vfms (g : Guard) (t : Ty) (rc : Rc) (sat : Bool) (d : Fin 32) (a : Fin 32) (b : Opnd) (c : Opnd)
  /-- VFNMA (R214). Computes a negated fused multiply-add element-wise. -/
  | vfnma (g : Guard) (t : Ty) (rc : Rc) (sat : Bool) (d : Fin 32) (a : Fin 32) (b : Opnd) (c : Opnd)
  /-- VDIV (R214). Divides element-wise. -/
  | vdiv (g : Guard) (t : Ty) (rc : Rc) (d : Fin 32) (a : Fin 32) (b : Opnd)
  /-- VSQRT (R214). Takes the square root element-wise. -/
  | vsqrt (g : Guard) (t : Ty) (rc : Rc) (d : Fin 32) (a : Fin 32)
  /-- VMIN (R215). Takes the minimum element-wise. -/
  | vmin (g : Guard) (t : Ty) (d : Fin 32) (a : Fin 32) (b : Opnd)
  /-- VMAX (R215). Takes the maximum element-wise. -/
  | vmax (g : Guard) (t : Ty) (d : Fin 32) (a : Fin 32) (b : Opnd)
  /-- VABS (R215). Takes the absolute value element-wise. -/
  | vabs (g : Guard) (t : Ty) (sat : Bool) (d : Fin 32) (a : Fin 32)
  /-- VNEG (R215). Negates element-wise. -/
  | vneg (g : Guard) (t : Ty) (sat : Bool) (d : Fin 32) (a : Fin 32)
  /-- VCMP (R216). Compares element-wise and writes all-ones or zero. -/
  | vcmp (g : Guard) (t : Ty) (cc : Cond) (tot : Bool) (d : Fin 32) (a : Fin 32) (b : Opnd)
  /-- VSEL (R216). Selects element-wise by a mask. -/
  | vsel (g : Guard) (t : Ty) (d : Fin 32) (a : Opnd) (b : Opnd) (c : Fin 32)
  /-- VAND (R216). Computes a bitwise AND element-wise. -/
  | vand (g : Guard) (t : Ty) (d : Fin 32) (a : Fin 32) (b : Opnd)
  /-- VOR (R216). Computes a bitwise OR element-wise. -/
  | vor (g : Guard) (t : Ty) (d : Fin 32) (a : Fin 32) (b : Opnd)
  /-- VXOR (R216). Computes a bitwise XOR element-wise. -/
  | vxor (g : Guard) (t : Ty) (d : Fin 32) (a : Fin 32) (b : Opnd)
  /-- VSHL (R216). Shifts left element-wise. -/
  | vshl (g : Guard) (t : Ty) (d : Fin 32) (a : Fin 32) (b : Opnd)
  /-- VSHR (R216). Shifts right element-wise, filling with zeros. -/
  | vshr (g : Guard) (t : Ty) (d : Fin 32) (a : Fin 32) (b : Opnd)
  /-- VSHA (R216). Shifts right element-wise, filling with the sign bit. -/
  | vsha (g : Guard) (t : Ty) (d : Fin 32) (a : Fin 32) (b : Opnd)
  /-- VCVT (R217). Converts elements between types. -/
  | vcvt (g : Guard) (t : Ty) (rc : Rc) (sat : Bool) (d : Fin 32) (a : Fin 32) (src : Ty)
  /-- VPACK (R218). Quantises elements into block floating point. -/
  | vpack (g : Guard) (d : Fin 32) (a : Fin 32) (src : Ty)
  /-- VUNPK (R218). Widens block floating point to an IEEE type. -/
  | vunpk (g : Guard) (t : Ty) (rc : Rc) (d : Fin 32) (a : Fin 32)
  /-- VRED (R219). Reduces a group by sum, minimum, maximum or a bitwise function. -/
  | vred (g : Guard) (t : Ty) (rc : Rc) (sat : Bool) (d : Opnd) (a : Fin 32) (fn : RedFn)
  /-- VSCAN (R219). Writes the running sum, minimum or maximum. -/
  | vscan (g : Guard) (t : Ty) (rc : Rc) (sat : Bool) (d : Fin 32) (a : Fin 32) (fn : RedFn)
  /-- VPERM (R220). Permutes elements by an index vector. -/
  | vperm (g : Guard) (t : Ty) (d : Fin 32) (a : Fin 32) (b : Fin 32)
  /-- VSLIDE (R220). Slides elements by an offset and fills the rest. -/
  | vslide (g : Guard) (t : Ty) (d : Fin 32) (a : Fin 32) (b : Opnd) (c : Option (Fin 32))
  /-- VGATH (R221). Gathers elements from memory by index. -/
  | vgath (g : Guard) (t : Ty) (sh : Fin 16) (d : Fin 32) (a : Fin 32) (b : Fin 32)
  /-- VSCAT (R221). Scatters elements to memory by index. -/
  | vscat (g : Guard) (t : Ty) (sh : Fin 16) (d : Fin 32) (a : Fin 32) (b : Fin 32)
  /-- VSF (R222). Computes a special function, correctly rounded. -/
  | vsf (g : Guard) (t : Ty) (rc : Rc) (d : Fin 32) (a : Fin 32) (fn : SfFn)
  /-- VMACW (R223). Multiplies narrow elements and accumulates into wide ones. -/
  | vmacw (g : Guard) (t : Ty) (rc : Rc) (sat : Bool) (d : Fin 32) (a : Fin 32) (b : Opnd)
  /-- VADDW (R223). Adds narrow elements to wide ones. -/
  | vaddw (g : Guard) (t : Ty) (rc : Rc) (sat : Bool) (d : Fin 32) (a : Fin 32) (b : Opnd)
  /-- VCLASS (R215). Writes the floating class code of each element. -/
  | vclass (g : Guard) (t : Ty) (d : Fin 32) (a : Fin 32)
  /-- VROUND (R215). Rounds elements to integral values. -/
  | vround (g : Guard) (t : Ty) (rc : Rc) (exact : Bool) (d : Fin 32) (a : Fin 32)
  /-- VTRN (R220). Transposes registers and elements. -/
  | vtrn (g : Guard) (t : Ty) (d : Fin 32) (a : Fin 32)
  /-- VDOT (R224). Writes the exactly summed dot product of each row, rounded once. -/
  | vdot (g : Guard) (t : Ty) (rc : Rc) (d : Fin 32) (a : Fin 32) (b : Fin 32) (c : Option (Fin 32))
  /-- MCLAIM (R234). Takes the matrix claim, waiting while another context holds it. -/
  | mclaim (g : Guard)
  /-- MRLS (R234). Waits for the core's matrix work to complete and frees the claim. -/
  | mrls (g : Guard)
  /-- TLD (R243). Loads a tile from a tensor. -/
  | tld (g : Guard) (tr : Bool) (d : Fin 8) (a : Opnd) (b : Opnd) (c : Opnd)
  /-- TST (R243). Stores a tile to a tensor. -/
  | tst (g : Guard) (tr : Bool) (d : Fin 8) (a : Opnd) (b : Opnd) (c : Opnd)
  /-- TZERO (R244). Zeroes a tile. -/
  | tzero (g : Guard) (d : Fin 8)
  /-- TMOV (R244). Copies a tile together with its shape. -/
  | tmov (g : Guard) (d : Fin 8) (a : Fin 8)
  /-- TCVT (R245). Converts a tile to another type. -/
  | tcvt (g : Guard) (t : Ty) (rc : Rc) (d : Fin 8) (a : Fin 8) (c : Option (Fin 8))
  /-- MMA (R246). Accumulates a tile product into an accumulator. -/
  | mma (g : Guard) (t : Ty) (rc : Rc) (d : Fin 8) (a : Fin 8) (b : Fin 8)
  /-- GMMA (R247). Joins a group of cores in a product that uses the leader's A tile. -/
  | gmma (g : Guard) (t : Ty) (rc : Rc) (d : Fin 8) (a : Fin 8) (b : Fin 8) (grp : BitVec 2)
  /-- MMAS (R248). Accumulates a product with a compacted sparse A tile. -/
  | mmas (g : Guard) (t : Ty) (rc : Rc) (d : Fin 8) (a : Fin 8) (b : Fin 8)
  /-- AZERO (R244). Zeroes an accumulator. -/
  | azero (g : Guard) (d : Fin 8)
  /-- ADRAIN (R249). Drains an accumulator through an epilogue to a tile or a tensor. -/
  | adrain (g : Guard) (t : Ty) (fn : EpiFn) (d : Opnd) (a : Fin 8) (b : Option (Fin 8)) (c : Option (Fin 8)) (scale : BitVec 32) (brow : Bool) (rc : Rc)
  /-- ASTAT (R244). Reads an accumulator status byte. -/
  | astat (g : Guard) (d : Fin 32) (a : Fin 8)
  /-- ACLR (R244). Clears an accumulator status byte. -/
  | aclr (g : Guard) (d : Fin 8)
  /-- BCMP (R257). Builds a relation tile by comparing every pair of elements. -/
  | bcmp (g : Guard) (t : Ty) (pr : BPred) (d : Fin 8) (a : Fin 32) (b : Fin 32) (m : BitVec 6) (n : BitVec 6) (nan : NanMode)
  /-- BPOPR (R258). Writes the row counts of a bit tile. -/
  | bpopr (g : Guard) (d : Fin 32) (a : Fin 8)
  /-- BPOPC (R258). Writes the column counts of a bit tile. -/
  | bpopc (g : Guard) (d : Fin 32) (a : Fin 8)
  /-- BFIRST (R258). Writes the first set column of each row. -/
  | bfirst (g : Guard) (d : Fin 32) (a : Fin 8)
  /-- BCLOS (R260). Computes the transitive closure of a bit tile. -/
  | bclos (g : Guard) (refl : Bool) (d : Fin 8) (a : Fin 8)
  /-- BCOMP (R260). Computes the Boolean composition of two bit tiles. -/
  | bcomp (g : Guard) (d : Fin 8) (a : Fin 8) (b : Fin 8)
  /-- BTRN (R260). Transposes a bit tile. -/
  | btrn (g : Guard) (d : Fin 8) (a : Fin 8)
  /-- BLOG (R260). Applies a logic function to bit tiles. -/
  | blog (g : Guard) (fn : BlogFn) (d : Fin 8) (a : Fin 8) (b : Option (Fin 8))
  /-- BLD (R261). Loads a bit tile from the own scratchpad. -/
  | bld (g : Guard) (d : Fin 8) (m : Mem)
  /-- BST (R261). Stores a bit tile to the own scratchpad. -/
  | bst (g : Guard) (d : Fin 8) (m : Mem)
  /-- BZERO (R260). Zeroes a bit tile. -/
  | bzero (g : Guard) (d : Fin 8)
  /-- BEYE (R260). Writes the identity relation into a bit tile. -/
  | beye (g : Guard) (d : Fin 8)
  /-- PHASE (R270). Arrives at the phase barrier and loads the phase lines. -/
  | phase (g : Guard) (scope : Fin 8)
  /-- XMIT (R274). Checks its stamp and writes a value on a lane. -/
  | xmit (g : Guard) (d : Link) (a : Opnd) (stamp : BitVec 16)
  /-- XRCV (R274). Checks its stamp and the latch's arrival, then reads the latch. -/
  | xrcv (g : Guard) (d : Fin 32) (a : Link) (stamp : BitVec 16) (count : BitVec 8)
  /-- XSEL (R275). Sets a pass-through from an incoming lane to an outgoing lane. -/
  | xsel (g : Guard) (d : Link) (a : Opnd) (stamp : BitVec 16) (count : BitVec 8)
  /-- XIDLE (R274). Checks its stamp and issues nothing for a count of cycles. -/
  | xidle (g : Guard) (stamp : BitVec 16) (count : BitVec 8)
  /-- PEND (R276). Ends the phase on its core. -/
  | pend (g : Guard)
  /-- CAPP (R296). Appends a command record to a chain. -/
  | capp (g : Guard) (d : Option (Fin 32)) (a : Fin 32) (b : Opnd) (nsb : Bool)
  /-- CWAIT (R296). Waits until a chain's completed sequence number reaches a value. -/
  | cwait (g : Guard) (a : Opnd) (b : Opnd) (lim : BitVec 24)
  /-- CSEQ (R296). Reads a chain's completed sequence number. -/
  | cseq (g : Guard) (d : Fin 32) (a : Opnd)
  /-- CFENCE (R296). Appends fence entries to a set of chains. -/
  | cfence (g : Guard) (mask : BitVec 8)
  /-- CSTAT (R296). Reads a chain fault word, and clears it with .clr. -/
  | cstat (g : Guard) (clear : Bool) (d : Fin 32) (a : Opnd)
  /-- TDEF (R306). Appends a tensor definition command to chain 4 or 5. -/
  | tdef (g : Guard) (c5 : Bool) (quiet : Bool) (d : Option (Fin 32)) (c : Opnd) (m : Mem)
  /-- TQRY (R316). Reads one field of a tensor-table entry, or its head word. -/
  | tqry (g : Guard) (fn : TqryFn) (d : Fin 32) (a : Opnd)
  /-- PISSUE (R306). Appends a promise issue command to chain 4 or 5. -/
  | pissue (g : Guard) (c5 : Bool) (quiet : Bool) (d : Option (Fin 32)) (c : Opnd) (m : Mem)
  /-- PREDEEM (R306). Appends a promise redemption command. -/
  | predeem (g : Guard) (c5 : Bool) (ntr : Bool) (quiet : Bool) (d : Option (Fin 32)) (m : Mem)
  /-- PEXPIRE (R306). Appends a promise expiry command. -/
  | pexpire (g : Guard) (c5 : Bool) (quiet : Bool) (d : Option (Fin 32)) (m : Mem)
  /-- PSTAT (R317). Reads the state, policy, k and flags of a promise record. -/
  | pstat (g : Guard) (d : Fin 32) (m : Mem)
  /-- TRAP (R333). Raises cause 0x4A after its group has completed. -/
  | trap (g : Guard) (code : BitVec 16)
  /-- RFT (R330). Returns from a trap to TPC. -/
  | rft (g : Guard)
  /-- MFS (R335). Reads a special register. -/
  | mfs (g : Guard) (d : Fin 32) (num : BitVec 12)
  /-- MTS (R335). Writes a special register. -/
  | mts (g : Guard) (a : Fin 32) (num : BitVec 12)
  /-- RDRING (R336). Reads one doubleword of a dispatch-ring entry. -/
  | rdring (g : Guard) (dw : Fin 8) (d : Fin 32) (a : Opnd)
  /-- SNAP (R340). Starts writing dirty scratchpad lines into the pending shadow slot. -/
  | snap (g : Guard)
  /-- XINV (R341). Invalidates the translations of a page or of the address space. -/
  | xinv (g : Guard) (all : Bool) (m : Mem)
  /-- SEED (R339). Arrives at a level-0 barrier that changes the seed of the home hash. -/
  | seed (g : Guard) (a : Fin 32)
  /-- HALT (R334). Ends the context. -/
  | halt (g : Guard)
  /-- DBRK (R333). Raises breakpoint cause 0x0F after its group has completed. -/
  | dbrk (g : Guard) (code : BitVec 16)
  /-- SAVE (R338). Writes the context image to memory. -/
  | save (g : Guard) (m : Mem)
  /-- GSWITCH (R342). Requests a gang switch out, a switch in, or a cancel at a given time. -/
  | gswitch (g : Guard) (fn : GswFn) (d : Option (Fin 32)) (a : Fin 32) (b : Fin 32)
  /-- PCNT (R337). Reads a performance counter, and clears it when bit 8 is set. -/
  | pcnt (g : Guard) (d : Fin 32) (ctr : BitVec 8) (clear : Bool)
  /-- CONTROL_REGISTER_WRITE (R324). A write to a control-space register that has no behaviour of its own. -/
  | controlRegisterWrite (pa : Nat) (v : Word)
  /-- EINJ_ARM (R358). A write to EINJ arms it to strike a chosen line. -/
  | einjArm (pkg : Nat) (die : Fin 8) (v : Word)
  /-- QUANTUM_EXPIRY (R96). The running context's quantum count reaches QUANT and a new context is selected. -/
  | quantumExpiry (k : Nat)
  /-- REMOTE_ANSWER (R94). An answer from off the core arrives and fills its destination register. -/
  | remoteAnswer (k : Nat) (n : Nat)
  /-- WRITE_BACK (R154). A dirty line is written back to its backing store. -/
  | writeBack (line : Nat)
  /-- ACCUMULATE_ARRIVAL (R139). A home slice accepts and adds an accumulate, or refuses it. -/
  | accumulateArrival (n : Nat)
  /-- ACCUMULATE_WINDOW_END (R138). A quota window ends, the per-source counts restart, and a new W takes effect. -/
  | accumulateWindowEnd (slice : Nat)
  /-- REFUSAL_RETURN (R141). A refused addend returns to the core and is combined into the residual tile. -/
  | refusalReturn (k : Nat) (n : Nat)
  /-- INSISTENT_ACK (R142). The acceptance of an insistent send is acknowledged to the core. -/
  | insistentAck (k : Nat) (n : Nat)
  /-- RESIDUAL_AGE_EXPIRY (R142). A residual entry's AGE reaches 65,536 and the entry is sent insistent. -/
  | residualAgeExpiry (k : Nat)
  /-- BARRIER_COMPLETE (R186). The last core of the unit arrives and the barrier releases its waiting contexts. -/
  | barrierComplete (k : Nat) (scope : Fin 8)
  /-- PHASE_BARRIER_COMPLETE (R270). The PHASE barrier completes and phase cycle 0 begins. -/
  | phaseBarrierComplete (k : Nat) (scope : Fin 8)
  /-- PCC_LIMIT (R277). The phase cycle count would pass 65,535 without PEND, and 0x6B is raised. -/
  | pccLimit (k : Nat)
  /-- TASK_POP (R180). An idle context pops a task packet, checks it and starts the task. -/
  | taskPop (k : Nat) (c : Fin 4)
  /-- TASK_AGING (R178). A queue head entry that has waited 65,536 cycles moves to the next higher priority. -/
  | taskAging (gang : Nat) (queue : Nat) (prio : Fin 4)
  /-- QUEUE_SLOT_RESUME (R179). A pop frees a slot, and a waiting DONE, JOIN or FST walk enqueues. -/
  | queueSlotResume (k : Nat) (c : Fin 4)
  /-- WAIT_LIMIT_EXPIRY (R193). A QPUT, QGET, WAITE or CWAIT wait reaches its cycle limit and raises its cause. -/
  | waitLimitExpiry (k : Nat) (c : Fin 4)
  /-- WAITE_REPORT (R192). The home reports a change of the watched word and it is compared. -/
  | waiteReport (k : Nat) (c : Fin 4)
  /-- QUEUE_RETRY (R191). A waiting QPUT or QGET finds room or an entry and performs. -/
  | queueRetry (k : Nat) (c : Fin 4)
  /-- CLAIM_HANDOVER (R234). A freed matrix claim passes to the next waiting context. -/
  | claimHandover (k : Nat)
  /-- FOLLOWER_MARKER (R101). An attach or end marker reaches a follower. -/
  | followerMarker (k : Nat)
  /-- FORWARDED_GROUP (R101). A follower executes a forwarded group and forwards it onward. -/
  | forwardedGroup (k : Nat)
  /-- VREP_PASS (R204). A capture closes and the sequencer runs the repetition passes. -/
  | vrepPass (k : Nat) (c : Fin 4)
  /-- DISPATCHED_COMPLETE (R205). A dispatched form completes, writes its results and frees its ring entry, or marks it faulted. -/
  | dispatchedComplete (k : Nat) (tseq : Nat)
  /-- ARRAY_FORM_START (R238). The array starts the core's next matrix or prism form once the previous one's occupancy has passed. -/
  | arrayFormStart (k : Nat)
  /-- GMMA_JOIN (R247). All cores of a group bring their matched GMMA to the head and the joint product runs. -/
  | gmmaJoin (k : Nat)
  /-- GMMA_JOIN_TIMEOUT (R247). A GMMA join does not complete within WLIMIT cycles and is withdrawn with 0x36. -/
  | gmmaJoinTimeout (k : Nat)
  /-- IMPRECISE_FAULT_DELIVERY (R206). A context takes a faulted dispatch entry at the start of its next group. -/
  | impreciseFaultDelivery (k : Nat) (c : Fin 4)
  /-- ENGINE_ERROR_DELIVERY (R292). A context takes the cause of an engine error completion. -/
  | engineErrorDelivery (k : Nat) (c : Fin 4)
  /-- COMMAND_BEGIN (R284). A command reaches the head of its chain and the engine reads and checks its record. -/
  | commandBegin (k : Nat) (ch : Fin 8)
  /-- CHAIN_FENCE_RELEASE (R159). Every named chain holds its fence entry at the head, and the entries leave together. -/
  | chainFenceRelease (k : Nat) (ch : Fin 8)
  /-- COPY (R286). Copies N bytes from the source to the destination. -/
  | copy (k : Nat) (ch : Fin 8)
  /-- COPYT (R286). Copies a tensor block, transposed in flight. -/
  | copyt (k : Nat) (ch : Fin 8)
  /-- GATH (R287). Gathers elements by an index list into a packed array. -/
  | gath (k : Nat) (ch : Fin 8)
  /-- SCAT (R287). Scatters a packed array by an index list. -/
  | scat (k : Nat) (ch : Fin 8)
  /-- FILL (R286). Fills a range with an 8-byte pattern. -/
  | fill (k : Nat) (ch : Fin 8)
  /-- CMD_SIGNAL (R286). Performs one ordinary store of a value. -/
  | cmdSignal (k : Nat) (ch : Fin 8)
  /-- STASH (R288). Appends a payload to the stash ring, or an elided header when there is no room. -/
  | stash (k : Nat) (ch : Fin 8)
  /-- UNSTASH (R288). Reads the stash entry at HEAD into the destination. -/
  | unstash (k : Nat) (ch : Fin 8)
  /-- NMU_SGD (R289). Performs an SGD update with fade, line by line, at the owner engine. -/
  | nmuSgd (k : Nat) (ch : Fin 8)
  /-- NMU_ADAMW (R289). Performs an AdamW update line by line. -/
  | nmuAdamw (k : Nat) (ch : Fin 8)
  /-- NMU_SCALE (R289). Scales a weight tensor. -/
  | nmuScale (k : Nat) (ch : Fin 8)
  /-- COLL_MATCH (R291). All P participants of a collective have begun, and the engine checks that they agree. -/
  | collMatch (id : Nat)
  /-- COLL_AG (R291). An all-gather. -/
  | collAg (id : Nat)
  /-- COLL_SHARD_ARRIVAL (R291). An all-gather shard arrives and its data, list word, flag and count are written. -/
  | collShardArrival (k : Nat) (q : Nat)
  /-- COLL_RS (R291). A reduce-scatter. -/
  | collRs (id : Nat)
  /-- COLL_AR (R291). An all-reduce. -/
  | collAr (id : Nat)
  /-- COLL_BC (R291). A broadcast from the root. -/
  | collBc (id : Nat)
  /-- COLL_XOR (R291). An XOR of the shards into the root's parity shard. -/
  | collXor (id : Nat)
  /-- TENSOR_DEFINE (R315). The owner engine stores a tensor-table entry from an image. -/
  | tensorDefine (k : Nat) (ch : Fin 8)
  /-- PROMISE_ISSUE (R309). The engine predicts the gradient, updates W and opens the promise. -/
  | promiseIssue (k : Nat) (ch : Fin 8)
  /-- PROMISE_REDEEM (R310). The engine corrects W by the faded difference, trains the predictor and closes the promise. -/
  | promiseRedeem (k : Nat) (ch : Fin 8)
  /-- PROMISE_EXPIRE (R313). The engine expires an open promise by its policy. -/
  | promiseExpire (k : Nat) (ch : Fin 8)
  /-- DIE_LOSS (R15). A compute die is lost and remapped to its row's reserve, or the gang is ended. -/
  | dieLoss (pkg : Nat) (die : Fin 8)
  /-- ROW_FAILURE (R14). A core row fails; a second failure on one die is treated as a die loss. -/
  | rowFailure (pkg : Nat) (die : Fin 8) (row : Fin 17)
  /-- HBM_CHANNEL_RETIRE (R349). An HBM channel is retired and its lines are remapped. -/
  | hbmChannelRetire (pkg : Nat) (stack : Fin 8) (channel : Fin 32)
  /-- CORRECTED_ERROR_THRESHOLD (R349). A unit's corrected-error count passes its threshold. -/
  | correctedErrorThreshold (pkg : Nat) (unit : Nat)
  /-- LINK_RETRAIN (R349). A Kryush link is retrained. -/
  | linkRetrain (pkg : Nat) (link : Fin 16)
  /-- PERMIT_AUDIT (R352). Every 2^AUDIT cycles a die quiesces its mesh and counts the link permits. -/
  | permitAudit (pkg : Nat) (die : Fin 8) (mismatch : Bool)
  /-- FIRMWARE_REPLACEMENT (R353). Firmware is replaced live, one unit at a time. -/
  | firmwareReplacement (pkg : Nat) (unit : Nat) (image : SignedImage)
  /-- HBM_RECALIBRATION (R353). An HBM channel is recalibrated for 2,048 cycles. -/
  | hbmRecalibration (pkg : Nat) (stack : Fin 8) (channel : Fin 32)
  /-- BOOT (R354). The port die A ROM verifies and starts the firmware images in order. -/
  | boot (pkg : Nat) (image : List Byte) (sign : Signature)
  /-- SEROAN_STATE_ACCESS (R356). The debug service reads or writes the saved state of a stopped gang. -/
  | seroanStateAccess (gang : Nat) (k : Nat) (part : SavedPart) (dw : Nat) (write : Option Word)
  /-- SEROAN_BREAKPOINT (R356). The debug service sets or clears an instruction breakpoint. -/
  | seroanBreakpoint (gang : Nat) (addr : Word) (set : Bool)
  /-- ACCEPTANCE_ANSWER (R160). The acceptance answer of an ordinary accumulate reaches the issuing core and adds its stamp to the answer set, which may complete a waiting RFLUSH or FENCE. -/
  | acceptanceAnswer (k : Nat) (n : Nat)
  /-- XINV_ACKNOWLEDGED (R341). The last translation cache and walker of the gang acknowledge an XINV, which then completes and releases the context's later accesses. -/
  | xinvAcknowledged (k : Nat) (c : Fin 4)
  /-- UNASSIGNED_OPCODE (R67). Execution reaches a slot whose major opcode is unassigned or 0xFF, which raises cause 0x01. -/
  | unassignedOpcode (w : Slot)
  /-- STREAM_NOP (R170). A stream packet with no effect. -/
  | streamNop
  /-- STREAM_LAUNCH (R170). A stream packet that submits a launch record. -/
  | streamLaunch
  /-- WAITS (R170). A stream packet that waits on a semaphore comparison. -/
  | waits
  /-- WAITS_SATISFIED (R170). A waiting WAITS packet finds the semaphore true and completes. -/
  | waitsSatisfied
  /-- STREAM_SIGNAL (R170). A stream packet that performs one store or one atomic add. -/
  | streamSignal
  /-- GSTAMP (R170). A stream packet that stores GTIME. -/
  | gstamp
  /-- CSCTL_CLR (R169). Writing 1 to CLR clears STOPPED and CAUSE. -/
  | csctlClr
  /-- LAUNCH_ACCEPT (R175). A front end or the launch port places a gang and prepares its cores, or refuses the launch. -/
  | launchAccept
  /-- GANG_COMPLETE (R175). The gang has no live context, no queued task, no busy chain and no live residual entry; the completion word is stored. -/
  | gangComplete
  /-- SUPERSTEP_COMMIT (R187). The last arrival at SSTEP triggers the shadow image, the SSN increment, the release of held stores and the promise sweep. -/
  | superstepCommit
  /-- SEED_COMPLETE (R339). All gang cores have arrived at SEED; chains drain, lines are written back and the seed changes. -/
  | seedComplete
  /-- PAIRED_COPY_START (R183). A suitable idle context is found and the second copy of a paired task starts. -/
  | pairedCopyStart
  /-- PAIRED_MESSAGE_COMPARE (R183). The comparing router compares both copies' messages of one ordinal and forwards one, or declares a mismatch. -/
  | pairedMessageCompare
  /-- PAIRED_MISMATCH_TIMEOUT (R183). The second message of an ordinal does not arrive within 65,536 cycles. -/
  | pairedMismatchTimeout
  /-- WIDE_UNIT_START (R199). The wide unit starts the next ready instruction in core rotation. -/
  | wideUnitStart
  /-- VSF_QUEUE_EXIT (R207). A special-function request leaves the queue after 16 cycles and writes its destination. -/
  | vsfQueueExit
  /-- GANG_SWITCH_STOP (R343). GTIME reaches T and every core of the gang stops, drains and saves. -/
  | gangSwitchStop
  /-- GANG_RESUME (R344). A switched-out gang is restored at T and its ejected packets are re-injected. -/
  | gangResume
  /-- STOP_TIMEOUT (R349). A stop is not reached within 2^20 cycles of T, and the gang is ended with 0x7A. -/
  | stopTimeout
  /-- POISON_CONSUMED (R357). A context consumes a poisoned line and its gang takes 0x70. -/
  | poisonConsumed
  /-- PACKAGE_LOSS (R349). A package is lost and replaced by the standby package, or the gang is ended. -/
  | packageLoss
  /-- POWER_THERMAL_LIMIT (R349). A power or thermal limit is reached and issue slows. -/
  | powerThermalLimit
  /-- INTERNAL_MACHINE_CHECK (R349). An internal machine check ends the gang. -/
  | internalMachineCheck
  /-- ATTESTATION (R355). An SPDM attestation request is answered with measurements. -/
  | attestation
  /-- SEROAN_ATTACH (R356). The debug service attaches to a gang and stops it. -/
  | seroanAttach
  /-- SEROAN_RESUME (R356). The debug service resumes a stopped gang. -/
  | seroanResume
deriving DecidableEq, Repr

end Sys2Proof
end

