-- ==== Sys2Proof/Machine/Forms.lean ====
section
/-! DEFINITION. The encoding tables of the spec: the fields of an instruction word (R58), the format, port, accepted types,
operand classes, FN values and IMM44 bits of each major opcode (R63, R67, R68, and the encoding table of each class
chapter), the checks made on them (R62, R69, R70), and the fields each instruction is encoded in. -/
namespace Sys2Proof

/-- The fields of an instruction word (R58); `g` holds GS and GP. -/
structure Fields where
  op : BitVec 8
  g : BitVec 4
  t : BitVec 4
  d : BitVec 8
  a : BitVec 8
  b : BitVec 8
  c : BitVec 8
  fn : BitVec 4
  imm : BitVec 44
deriving DecidableEq, Repr

/-- R58: the fields of a 96-bit slot. -/
def Fields.ofSlot (w : Slot) : Fields :=
  ⟨w.extractLsb' 88 8, w.extractLsb' 84 4, w.extractLsb' 80 4, w.extractLsb' 72 8, w.extractLsb' 64 8,
   w.extractLsb' 56 8, w.extractLsb' 48 8, w.extractLsb' 44 4, w.extractLsb' 0 44⟩

/-- R58: the 96-bit slot of the fields. -/
def Fields.slot (f : Fields) : Slot :=
  f.op ++ f.g ++ f.t ++ f.d ++ f.a ++ f.b ++ f.c ++ f.fn ++ f.imm

/-- Bits `lo + w − 1 : lo` of IMM44. -/
def immFld (imm : BitVec 44) (lo w : Nat) : BitVec w := BitVec.ofNat w (imm.toNat >>> lo)

/-- IMM44 with each value placed at its bit. -/
def immOf (fs : List (Nat × Nat)) : BitVec 44 :=
  BitVec.ofNat 44 (fs.foldr (fun p acc => p.2 * 2 ^ p.1 + acc) 0)

/-- Bit `i` of FN. -/
def bit4 (f : BitVec 4) (i : Nat) : Bool := f.getLsbD i

/-- FN with bit `i` set if `b`. -/
def flag4 (b : Bool) (i : Nat) : BitVec 4 := if b then BitVec.ofNat 4 (2 ^ i) else 0

/-- Bits 2:0 of FN as a number below 8. -/
def fin8 (f : BitVec 4) : Fin 8 := ⟨f.toNat % 8, Nat.mod_lt _ (by decide)⟩

/-- A number below 8 as FN. -/
def code8 (n : Fin 8) : BitVec 4 := BitVec.ofNat 4 n.val

/-- R59: the code of a type. -/
def Ty.code : Ty → BitVec 4
  | .i64 => 0 | .n64 => 1 | .i32 => 2 | .n32 => 3 | .i16 => 4 | .n16 => 5 | .i8 => 6 | .n8 => 7
  | .f64 => 8 | .f32 => 9 | .f16 => 10 | .bf16 => 11 | .e4m3 => 12 | .e5m2 => 13 | .bfp => 14 | .x => 15

/-- R59: the type of a code. -/
def Ty.ofCode (c : BitVec 4) : Ty :=
  match c.toNat with
  | 0 => .i64 | 1 => .n64 | 2 => .i32 | 3 => .n32 | 4 => .i16 | 5 => .n16 | 6 => .i8 | 7 => .n8
  | 8 => .f64 | 9 => .f32 | 10 => .f16 | 11 => .bf16 | 12 => .e4m3 | 13 => .e5m2 | 14 => .bfp | _ => .x

/-- R59, R200: the width of a type in bits, with 8 for bfp and 64 for untyped. -/
def Ty.bits : Ty → Nat
  | .i64 | .n64 | .f64 | .x => 64
  | .i32 | .n32 | .f32 => 32
  | .i16 | .n16 | .f16 | .bf16 => 16
  | .i8 | .n8 | .e4m3 | .e5m2 | .bfp => 8

/-- The signed integer types (R59). -/
def Ty.signed : Ty → Bool
  | .i64 | .i32 | .i16 | .i8 => true
  | _ => false

/-- The eight integer types (R107 INT). -/
def Ty.isInt (t : Ty) : Bool := t.code.toNat < 8

/-- The six floating types (R210 FLT). -/
def Ty.isFlt (t : Ty) : Bool := 8 ≤ t.code.toNat && t.code.toNat ≤ 13

/-- R124: FN of LD, ST and LDL is log2 of the byte width of T. -/
def sizeCode (t : Ty) : BitVec 4 := BitVec.ofNat 4 (Nat.log2 (t.bits / 8))

/-- R60: direction codes. -/
def Dir.code : Dir → BitVec 4
  | .north => 0 | .east => 1 | .south => 2 | .west => 3

/-- R60: direction of a code. -/
def Dir.ofCode (c : BitVec 4) : Dir :=
  match c.toNat with
  | 0 => .north | 1 => .east | 2 => .south | _ => .west

/-- R108: condition codes. -/
def Cond.code : Cond → BitVec 4
  | .eq => 0 | .ne => 1 | .lt => 2 | .le => 3 | .gt => 4 | .ge => 5

/-- R108: condition of a code. -/
def Cond.ofCode (c : BitVec 4) : Cond :=
  match c.toNat with
  | 0 => .eq | 1 => .ne | 2 => .lt | 3 => .le | 4 => .gt | _ => .ge

/-- R80: rounding codes. -/
def Rc.code : Rc → BitVec 4
  | .asr => 0 | .rne => 4 | .rtz => 5 | .rup => 6 | .rdn => 7

/-- R80: rounding of a code. -/
def Rc.ofCode (c : BitVec 4) : Rc :=
  match c.toNat with
  | 4 => .rne | 5 => .rtz | 6 => .rup | 7 => .rdn | _ => .asr

/-- R143: reach codes. -/
def Reach.code : Reach → BitVec 4
  | .all => 0 | .local => 1 | .other => 2

/-- R143: reach of a code. -/
def Reach.ofCode (c : BitVec 4) : Reach :=
  match c.toNat with
  | 0 => .all | 1 => .local | _ => .other

/-- R108: PLOG codes. -/
def PlogFn.code : PlogFn → BitVec 4
  | .and => 0 | .or => 1 | .xor => 2 | .andn => 3 | .nand => 4 | .nor => 5 | .xnor => 6 | .not => 7

/-- R108: PLOG function of a code. -/
def PlogFn.ofCode (c : BitVec 4) : PlogFn :=
  match c.toNat with
  | 0 => .and | 1 => .or | 2 => .xor | 3 => .andn | 4 => .nand | 5 => .nor | 6 => .xnor | _ => .not

/-- R124: XLAT codes. -/
def XlatKind.code : XlatKind → BitVec 4
  | .read => 0 | .write => 1 | .exec => 2

/-- R124: XLAT kind of a code. -/
def XlatKind.ofCode (c : BitVec 4) : XlatKind :=
  match c.toNat with
  | 0 => .read | 1 => .write | _ => .exec

/-- R124: AMO codes. -/
def AmoFn.code : AmoFn → BitVec 4
  | .swap => 0 | .add => 1 | .and => 2 | .or => 3 | .xor => 4 | .min => 5 | .max => 6

/-- R124: AMO function of a code. -/
def AmoFn.ofCode (c : BitVec 4) : AmoFn :=
  match c.toNat with
  | 0 => .swap | 1 => .add | 2 => .and | 3 => .or | 4 => .xor | 5 => .min | _ => .max

/-- R210: reduction codes. -/
def RedFn.code : RedFn → BitVec 3
  | .sum => 0 | .min => 1 | .max => 2 | .and => 3 | .or => 4 | .xor => 5

/-- R210: reduction of a code. -/
def RedFn.ofCode (c : BitVec 3) : RedFn :=
  match c.toNat with
  | 0 => .sum | 1 => .min | 2 => .max | 3 => .and | 4 => .or | _ => .xor

/-- R211: special-function codes. -/
def SfFn.code : SfFn → BitVec 4
  | .exp2 => 0 | .log2 => 1 | .rcp => 2 | .rsqrt => 3 | .exp => 4 | .log => 5 | .tanh => 6 | .sigmoid => 7
  | .erf => 8 | .sin => 9 | .cos => 10

/-- R211: special function of a code. -/
def SfFn.ofCode (c : BitVec 4) : SfFn :=
  match c.toNat with
  | 0 => .exp2 | 1 => .log2 | 2 => .rcp | 3 => .rsqrt | 4 => .exp | 5 => .log | 6 => .tanh | 7 => .sigmoid
  | 8 => .erf | 9 => .sin | _ => .cos

/-- R240: epilogue codes. -/
def EpiFn.code : EpiFn → BitVec 4
  | .none => 0 | .gelu => 1 | .silu => 2 | .tanh => 3 | .sigmoid => 4 | .dgelu => 5 | .dsilu => 6 | .dtanh => 7
  | .dsigmoid => 8 | .mul => 9

/-- R240: epilogue of a code. -/
def EpiFn.ofCode (c : BitVec 4) : EpiFn :=
  match c.toNat with
  | 0 => .none | 1 => .gelu | 2 => .silu | 3 => .tanh | 4 => .sigmoid | 5 => .dgelu | 6 => .dsilu | 7 => .dtanh
  | 8 => .dsigmoid | _ => .mul

/-- R257: BCMP predicate codes. -/
def BPred.code : BPred → BitVec 4
  | .lt => 0 | .le => 1 | .eq => 2 | .ne => 3 | .gt => 4 | .ge => 5 | .lti => 6 | .gti => 7

/-- R257: BCMP predicate of a code. -/
def BPred.ofCode (c : BitVec 4) : BPred :=
  match c.toNat with
  | 0 => .lt | 1 => .le | 2 => .eq | 3 => .ne | 4 => .gt | 5 => .ge | 6 => .lti | _ => .gti

/-- R255: NaN mode codes. -/
def NanMode.code : NanMode → BitVec 2
  | .ord => 0 | .tot => 1 | .nlast => 2

/-- R255: NaN mode of a code. -/
def NanMode.ofCode (c : BitVec 2) : NanMode :=
  match c.toNat with
  | 0 => .ord | 1 => .tot | _ => .nlast

/-- R254: BLOG codes. -/
def BlogFn.code : BlogFn → BitVec 4
  | .and => 0 | .or => 1 | .xor => 2 | .andn => 3 | .not => 4

/-- R254: BLOG function of a code. -/
def BlogFn.ofCode (c : BitVec 4) : BlogFn :=
  match c.toNat with
  | 0 => .and | 1 => .or | 2 => .xor | 3 => .andn | _ => .not

/-- R316: TQRY codes. -/
def TqryFn.code : TqryFn → BitVec 4
  | .ver => 0 | .rows => 1 | .cols => 2 | .fmt => 3 | .base => 4 | .head => 5

/-- R316: TQRY selector of a code. -/
def TqryFn.ofCode (c : BitVec 4) : TqryFn :=
  match c.toNat with
  | 0 => .ver | 1 => .rows | 2 => .cols | 3 => .fmt | 4 => .base | _ => .head

/-- R342: GSWITCH codes. -/
def GswFn.code : GswFn → BitVec 4
  | .out => 0 | .in_ => 1 | .cancel => 2

/-- R342: GSWITCH function of a code. -/
def GswFn.ofCode (c : BitVec 4) : GswFn :=
  match c.toNat with
  | 0 => .out | 1 => .in_ | _ => .cancel

/-- R58: GS and GP of a guard. -/
def Guard.code (g : Guard) : BitVec 4 := BitVec.ofNat 4 (8 * Bits.b2n g.neg + g.p.val)

/-- R58: the guard of GS and GP. -/
def Guard.ofFields (c : BitVec 4) : Guard := ⟨c.getLsbD 3, fin8 c⟩

/-- R60: the specifier of an s register. -/
def sSpec (n : Fin 32) : BitVec 8 := BitVec.ofNat 8 n.val

/-- R60: the specifier of a v register. -/
def vSpec (n : Fin 32) : BitVec 8 := BitVec.ofNat 8 (0x20 + n.val)

/-- R60: the specifier of a tile. -/
def tSpec (n : Fin 8) : BitVec 8 := BitVec.ofNat 8 (0x40 + n.val)

/-- R60: the specifier of an accumulator. -/
def aSpec (n : Fin 8) : BitVec 8 := BitVec.ofNat 8 (0x50 + n.val)

/-- R60: the specifier of a bit tile. -/
def bSpec (n : Fin 8) : BitVec 8 := BitVec.ofNat 8 (0x58 + n.val)

/-- R60: the specifier of a predicate. -/
def pSpec (n : Fin 8) : BitVec 8 := BitVec.ofNat 8 (0x60 + n.val)

/-- R60: the specifier of a link: lane in bits 4:3, far in bit 2, direction in bits 1:0. -/
def Link.spec : Link → BitVec 8
  | .near l d => BitVec.ofNat 8 (0x80 + 8 * l.val + d.code.toNat)
  | .far l e => BitVec.ofNat 8 (0x84 + 8 * l.val + (if e then 1 else 3))

/-- Bits 4:0 of a specifier: the number of an s or v register. -/
def sNum (x : BitVec 8) : Fin 32 := ⟨x.toNat % 32, Nat.mod_lt _ (by decide)⟩

/-- Bits 2:0 of a specifier: the number of a tile, accumulator, bit tile or predicate. -/
def tNum (x : BitVec 8) : Fin 8 := ⟨x.toNat % 8, Nat.mod_lt _ (by decide)⟩

/-- Bits 4:3 of a link specifier: its lane. -/
def laneNum (x : BitVec 8) : Fin 4 := ⟨x.toNat / 8 % 4, Nat.mod_lt _ (by decide)⟩

/-- The link of a link specifier (R60). -/
def linkOf (x : BitVec 8) : Link :=
  if x.getLsbD 2 then .far (laneNum x) (x.toNat % 4 == 1)
  else .near (laneNum x) (Dir.ofCode (BitVec.ofNat 4 (x.toNat % 4)))

/-- R60: the specifier of an operand. -/
def Opnd.spec : Opnd → BitVec 8
  | .s n => sSpec n
  | .v n => vSpec n
  | .t n => tSpec n
  | .a n => aSpec n
  | .b n => bSpec n
  | .p n => pSpec n
  | .link l => l.spec
  | .imm i => BitVec.ofNat 8 (0xA0 + i.toNat)
  | .none => 0xFF

/-- The classes of operand specifier (R60); `bad` for the values that are illegal everywhere. -/
inductive Cls where
  | s | v | t | a | b | p | l | i | n | bad
deriving DecidableEq, Repr

/-- R60: the class of a specifier. -/
def clsOf (x : BitVec 8) : Cls :=
  let n := x.toNat
  if n < 0x20 then .s
  else if n < 0x40 then .v
  else if n < 0x48 then .t
  else if n < 0x50 then .bad
  else if n < 0x58 then .a
  else if n < 0x60 then .b
  else if n < 0x68 then .p
  else if n < 0x80 then .bad
  else if n < 0xA0 then (if n / 4 % 2 = 1 ∧ n % 2 = 0 then .bad else .l)
  else if n < 0xC0 then .i
  else if n = 0xFF then .n
  else .bad

/-- R60: the operand of a specifier; the illegal values, which the checks refuse, read as absent. -/
def Opnd.ofSpec (x : BitVec 8) : Opnd :=
  match clsOf x with
  | .s => .s (sNum x)
  | .v => .v (sNum x)
  | .t => .t (tNum x)
  | .a => .a (tNum x)
  | .b => .b (tNum x)
  | .p => .p (tNum x)
  | .l => .link (linkOf x)
  | .i => .imm (BitVec.ofNat 5 x.toNat)
  | .n | .bad => .none

/-- An optional s register as a specifier. -/
def optS : Option (Fin 32) → BitVec 8
  | some n => sSpec n
  | none => 0xFF

/-- An optional v register as a specifier. -/
def optV : Option (Fin 32) → BitVec 8
  | some n => vSpec n
  | none => 0xFF

/-- An optional predicate as a specifier. -/
def optP : Option (Fin 8) → BitVec 8
  | some n => pSpec n
  | none => 0xFF

/-- An optional bit tile as a specifier. -/
def optB : Option (Fin 8) → BitVec 8
  | some n => bSpec n
  | none => 0xFF

/-- An optional accumulator as a specifier. -/
def optA : Option (Fin 8) → BitVec 8
  | some n => aSpec n
  | none => 0xFF

/-- An optional tile as a specifier. -/
def optT : Option (Fin 8) → BitVec 8
  | some n => tSpec n
  | none => 0xFF

/-- The optional s or v register of a specifier. -/
def sOpt (x : BitVec 8) : Option (Fin 32) := if x = 0xFF then none else some (sNum x)

/-- The optional v register of a specifier. -/
def vOpt (x : BitVec 8) : Option (Fin 32) := sOpt x

/-- The optional tile-class register or predicate of a specifier. -/
def tOpt (x : BitVec 8) : Option (Fin 8) := if x = 0xFF then none else some (tNum x)

/-- The optional predicate of a specifier. -/
def pOpt (x : BitVec 8) : Option (Fin 8) := tOpt x

/-- The optional bit tile of a specifier. -/
def bOpt (x : BitVec 8) : Option (Fin 8) := tOpt x

/-- The optional accumulator of a specifier. -/
def aOpt (x : BitVec 8) : Option (Fin 8) := tOpt x

/-- R35: the base specifier of a memory operand. -/
def Mem.aSpec (m : Mem) : BitVec 8 := sSpec m.base

/-- R35: the index specifier of a memory operand. -/
def Mem.bSpec (m : Mem) : BitVec 8 := optS m.index

/-- R64: IMM44 of a memory operand: the shift in bits 43:40, the displacement in bits 39:0. -/
def Mem.imm (m : Mem) : BitVec 44 := immOf [(0, m.disp.toNat), (40, m.shift.toNat)]

/-- R64: the memory operand of a format M word. -/
def Mem.ofFields (f : Fields) : Mem :=
  ⟨sNum f.a, sOpt f.b, immFld f.imm 40 4, immFld f.imm 0 40⟩

/-- R65: IMM44 of a J target. -/
def Target.imm (tg : Target) : BitVec 44 := immOf [(0, tg.slot.val), (3, tg.off.toNat)]

/-- R65: the J target of IMM44; slots 5 to 7, which the checks refuse, read as slot 0. -/
def Target.ofImm (imm : BitVec 44) : Target :=
  ⟨immFld imm 3 41, if h : imm.toNat % 8 < 5 then ⟨imm.toNat % 8, h⟩ else 0⟩

/-- R124: the stride register of LDV and STV, present when FN is 1. -/
def strideOf (f : Fields) : Option (Fin 32) := if f.fn = 1 then some (sNum f.c) else none

/-- R107: the specifier of B of EXT. -/
def ExtField.bSpec : ExtField → BitVec 8
  | .regs b _ => b.spec
  | .const _ _ => 0xFF

/-- R107: the specifier of C of EXT. -/
def ExtField.cSpec : ExtField → BitVec 8
  | .regs _ c => c.spec
  | .const _ _ => 0xFF

/-- R107: FN of EXT. -/
def ExtField.fn : ExtField → BitVec 4
  | .regs _ _ => 0
  | .const _ _ => 1

/-- R107: IMM44 of EXT: len − 1 in bits 11:6, pos in bits 5:0. -/
def ExtField.imm : ExtField → BitVec 44
  | .regs _ _ => 0
  | .const pos len => immOf [(0, pos.toNat), (6, len.toNat)]

/-- R107: the field of EXT from its word. -/
def ExtField.ofFields (f : Fields) : ExtField :=
  if f.fn = 1 then .const (immFld f.imm 0 6) (immFld f.imm 6 6) else .regs (Opnd.ofSpec f.b) (Opnd.ofSpec f.c)

/-- R210: the specifier of A of VSHAPE. -/
def VshSrc.aSpec : VshSrc → BitVec 8
  | .imm _ => 0xFF
  | .reg n => sSpec n

/-- R210: IMM44 of VSHAPE. -/
def VshSrc.immField : VshSrc → BitVec 44
  | .imm v => immOf [(0, v.toNat)]
  | .reg _ => 0

/-- R210: the source of VSHAPE from its word. -/
def VshSrc.ofFields (f : Fields) : VshSrc :=
  if f.a = 0xFF then .imm (immFld f.imm 0 28) else .reg (sNum f.a)

/-- The six formats (R63). -/
inductive Fmt where
  | k | i | m | j | x | e
deriving DecidableEq, Repr

/-- The issue ports (R55). -/
inductive Port where
  | alu | mem | dispatch | branch | none
deriving DecidableEq, Repr

/-- What a form does with an operand position: it does not use it (R62), or it accepts some classes (R60). -/
inductive Pos where
  | unused
  | uses (cs : List Cls)
deriving DecidableEq, Repr

/-- One row of an encoding table: format, port, accepted type codes, the four positions, the FN values and the IMM44 bits
that may be nonzero. -/
structure Form where
  fmt : Fmt
  port : Port
  types : List Nat
  d : Pos
  a : Pos
  b : Pos
  c : Pos
  fns : List Nat
  imm : Nat
deriving DecidableEq, Repr

/-- The integer type codes (R107 INT). -/
def tyInt : List Nat := [0, 1, 2, 3, 4, 5, 6, 7]

/-- The floating type codes (R210 FLT). -/
def tyFlt : List Nat := [8, 9, 10, 11, 12, 13]

/-- The integer and the floating type codes. -/
def tyIntFlt : List Nat := [0, 1, 2, 3, 4, 5, 6, 7, 8, 9, 10, 11, 12, 13]

/-- Every FN value. -/
def fnAny : List Nat := [0, 1, 2, 3, 4, 5, 6, 7, 8, 9, 10, 11, 12, 13, 14, 15]

/-- The encoding table of every assigned major opcode but NOP (R67, R107, R112, R124, R184, R210, R239, R254, R272, R295,
R304, R332). -/
def form (op : Nat) : Option Form :=
  match op with
  | 0x01 => some ⟨.k, .alu, tyInt, (.uses [.s, .l, .n]), (.uses [.s, .i, .l]), (.uses [.s, .i, .l]), .unused, [0, 1], 0⟩ -- ADD
  | 0x02 => some ⟨.k, .alu, tyInt, (.uses [.s, .l, .n]), (.uses [.s, .i, .l]), (.uses [.s, .i, .l]), .unused, [0, 1], 0⟩ -- SUB
  | 0x03 => some ⟨.k, .alu, tyInt, (.uses [.s, .l, .n]), (.uses [.s, .i, .l]), (.uses [.s, .i, .l]), .unused, [0, 1], 0⟩ -- MUL
  | 0x04 => some ⟨.k, .alu, tyInt, (.uses [.s, .l, .n]), (.uses [.s, .i, .l]), (.uses [.s, .i, .l]), .unused, [0], 0⟩ -- MULH
  | 0x05 => some ⟨.k, .alu, tyInt, (.uses [.s, .l, .n]), (.uses [.s, .i, .l]), (.uses [.s, .i, .l]), .unused, [0], 0⟩ -- DIV
  | 0x06 => some ⟨.k, .alu, tyInt, (.uses [.s, .l, .n]), (.uses [.s, .i, .l]), (.uses [.s, .i, .l]), .unused, [0], 0⟩ -- REM
  | 0x07 => some ⟨.k, .alu, [0, 1, 2, 3, 4, 5, 6, 7, 15], (.uses [.s, .l, .n]), (.uses [.s, .i, .l]), (.uses [.s, .i, .l]), .unused, [0], 0⟩ -- AND
  | 0x08 => some ⟨.k, .alu, [0, 1, 2, 3, 4, 5, 6, 7, 15], (.uses [.s, .l, .n]), (.uses [.s, .i, .l]), (.uses [.s, .i, .l]), .unused, [0], 0⟩ -- OR
  | 0x09 => some ⟨.k, .alu, [0, 1, 2, 3, 4, 5, 6, 7, 15], (.uses [.s, .l, .n]), (.uses [.s, .i, .l]), (.uses [.s, .i, .l]), .unused, [0], 0⟩ -- XOR
  | 0x0A => some ⟨.k, .alu, [0, 1, 2, 3, 4, 5, 6, 7, 15], (.uses [.s, .l, .n]), (.uses [.s, .i, .l]), (.uses [.s, .i, .l]), .unused, [0], 0⟩ -- ANDN
  | 0x0B => some ⟨.k, .alu, [0, 1, 2, 3, 4, 5, 6, 7, 15], (.uses [.s, .l, .n]), (.uses [.s, .i, .l]), (.uses [.s, .i, .l]), .unused, [0], 0⟩ -- SHL
  | 0x0C => some ⟨.k, .alu, [0, 1, 2, 3, 4, 5, 6, 7, 15], (.uses [.s, .l, .n]), (.uses [.s, .i, .l]), (.uses [.s, .i, .l]), .unused, [0], 0⟩ -- SHR
  | 0x0D => some ⟨.k, .alu, [0, 1, 2, 3, 4, 5, 6, 7, 15], (.uses [.s, .l, .n]), (.uses [.s, .i, .l]), (.uses [.s, .i, .l]), .unused, [0], 0⟩ -- SHA
  | 0x0E => some ⟨.k, .alu, [0, 1, 2, 3, 4, 5, 6, 7, 15], (.uses [.s, .l, .n]), (.uses [.s, .i, .l]), (.uses [.s, .i, .l]), .unused, [0], 0⟩ -- ROT
  | 0x0F => some ⟨.k, .alu, [0, 1, 2, 3, 4, 5, 6, 7, 8, 9], (.uses [.s, .l, .n]), (.uses [.s, .i, .l]), (.uses [.s, .i, .l]), .unused, [0], 0⟩ -- MIN
  | 0x10 => some ⟨.k, .alu, [0, 1, 2, 3, 4, 5, 6, 7, 8, 9], (.uses [.s, .l, .n]), (.uses [.s, .i, .l]), (.uses [.s, .i, .l]), .unused, [0], 0⟩ -- MAX
  | 0x11 => some ⟨.k, .alu, [0, 1, 2, 3, 4, 5, 6, 7, 8, 9], (.uses [.p]), (.uses [.s, .i, .l]), (.uses [.s, .i, .l]), .unused, [0, 1, 2, 3, 4, 5], 0⟩ -- CMP
  | 0x12 => some ⟨.k, .alu, [15], (.uses [.s, .l, .n]), (.uses [.s, .i, .l]), (.uses [.s, .i, .l]), (.uses [.p]), [0], 0⟩ -- SEL
  | 0x13 => some ⟨.k, .alu, [0, 1, 2, 3, 4, 5, 6, 7, 15], (.uses [.s, .l, .n]), (.uses [.s, .i, .l]), .unused, .unused, [0], 0⟩ -- CLZ
  | 0x14 => some ⟨.k, .alu, [0, 1, 2, 3, 4, 5, 6, 7, 15], (.uses [.s, .l, .n]), (.uses [.s, .i, .l]), .unused, .unused, [0], 0⟩ -- CTZ
  | 0x15 => some ⟨.k, .alu, [0, 1, 2, 3, 4, 5, 6, 7, 15], (.uses [.s, .l, .n]), (.uses [.s, .i, .l]), .unused, .unused, [0], 0⟩ -- POPC
  | 0x16 => some ⟨.k, .alu, [0, 1, 2, 3, 4, 5, 6, 7, 15], (.uses [.s, .l, .n]), (.uses [.s, .i, .l]), .unused, .unused, [0], 0⟩ -- BREV
  | 0x17 => some ⟨.k, .alu, [0, 1], (.uses [.s, .l, .n]), (.uses [.s, .i, .l]), (.uses [.s, .l, .i, .n]), (.uses [.s, .l, .i, .n]), [0, 1], 0xFFF⟩ -- EXT
  | 0x18 => some ⟨.k, .alu, [1, 15], (.uses [.s, .l, .n]), (.uses [.s, .i, .l]), (.uses [.s, .i, .l]), .unused, [1], 0xFFF⟩ -- INS
  | 0x19 => some ⟨.i, .alu, tyInt, (.uses [.s, .l, .n]), (.uses [.s, .l]), .unused, .unused, [0], 0xFFFFFFFFFFF⟩ -- ADDI
  | 0x1A => some ⟨.i, .alu, tyInt, (.uses [.s, .l, .n]), .unused, .unused, .unused, [0], 0xFFFFFFFFFFF⟩ -- MOVI
  | 0x1B => some ⟨.i, .alu, [15], (.uses [.s, .l, .n]), (.uses [.s, .n]), .unused, .unused, [0], 0xFFFFF⟩ -- MOVH
  | 0x1C => some ⟨.m, .alu, [15], (.uses [.s]), (.uses [.s]), (.uses [.s, .n]), .unused, [0], 0xFFFFFFFFFFF⟩ -- LEA
  | 0x1D => some ⟨.k, .alu, [15], (.uses [.s, .l, .n, .p]), (.uses [.s, .i, .l, .p]), .unused, .unused, [0], 0⟩ -- MOV
  | 0x1E => some ⟨.k, .alu, [15], (.uses [.p]), (.uses [.p]), (.uses [.p, .n]), .unused, [0, 1, 2, 3, 4, 5, 6, 7], 0⟩ -- PLOG
  | 0x1F => some ⟨.k, .alu, tyInt, .unused, (.uses [.s, .i, .l]), (.uses [.s, .i, .l]), (.uses [.s, .i, .l]), [0], 0⟩ -- CHK
  | 0x20 => some ⟨.j, .branch, [15], .unused, .unused, .unused, .unused, [0], 0xFFFFFFFFFFF⟩ -- BR
  | 0x21 => some ⟨.k, .branch, [15], .unused, (.uses [.s]), .unused, .unused, [0], 0⟩ -- BRX
  | 0x22 => some ⟨.j, .branch, [15], .unused, .unused, .unused, .unused, [0], 0xFFFFFFFFFFF⟩ -- CALL
  | 0x23 => some ⟨.k, .branch, [15], .unused, (.uses [.s]), .unused, .unused, [0], 0⟩ -- CALLX
  | 0x24 => some ⟨.k, .branch, [15], .unused, .unused, .unused, .unused, [0], 0⟩ -- RET
  | 0x25 => some ⟨.j, .branch, [15], .unused, (.uses [.s]), .unused, .unused, [0], 0xFFFFFFFFFFF⟩ -- LOOP
  | 0x26 => some ⟨.k, .branch, [15], .unused, .unused, .unused, .unused, [0], 0⟩ -- YIELD
  | 0x27 => some ⟨.k, .branch, [15], .unused, (.uses [.s, .i]), .unused, .unused, [0, 1, 2, 3], 0⟩ -- FOLLOW
  | 0x28 => some ⟨.k, .branch, [15], .unused, .unused, .unused, .unused, [0], 0⟩ -- DETACH
  | 0x29 => some ⟨.k, .branch, [15], .unused, (.uses [.s, .i]), .unused, .unused, [0], 0⟩ -- LEAD
  | 0x40 => some ⟨.m, .mem, tyInt, (.uses [.s, .l]), (.uses [.s]), (.uses [.s, .n]), .unused, [0, 1, 2, 3], 0xFFFFFFFFFFF⟩ -- LD
  | 0x41 => some ⟨.m, .mem, tyInt, (.uses [.s, .l]), (.uses [.s]), (.uses [.s, .n]), .unused, [0, 1, 2, 3], 0xFFFFFFFFFFF⟩ -- ST
  | 0x42 => some ⟨.m, .mem, [15], (.uses [.v]), (.uses [.s]), (.uses [.s, .n]), (.uses [.s, .n]), [0, 1], 0xFFFFFFFFFFF⟩ -- LDV
  | 0x43 => some ⟨.m, .mem, [15], (.uses [.v]), (.uses [.s]), (.uses [.s, .n]), (.uses [.s, .n]), [0, 1], 0xFFFFFFFFFFF⟩ -- STV
  | 0x44 => some ⟨.m, .mem, tyInt, (.uses [.s]), (.uses [.s]), (.uses [.s, .n]), .unused, [0, 1, 2, 3], 0xFFFFFFFFFFF⟩ -- LDL
  | 0x45 => some ⟨.m, .mem, [15], .unused, (.uses [.s]), (.uses [.s, .n]), .unused, [0, 1], 0xFFFFFFFFFFF⟩ -- PREF
  | 0x46 => some ⟨.m, .mem, [15], .unused, (.uses [.s]), (.uses [.s, .n]), .unused, [0, 1], 0xFFFFFFFFFFF⟩ -- WBL
  | 0x47 => some ⟨.m, .mem, [15], .unused, (.uses [.s]), (.uses [.s, .n]), (.uses [.s]), [0, 1], 0xFFFFFFFFFFF⟩ -- DISC
  | 0x48 => some ⟨.m, .mem, [15], (.uses [.s]), (.uses [.s]), (.uses [.s, .n]), .unused, [0, 1, 2], 0xFFFFFFFFFFF⟩ -- XLAT
  | 0x50 => some ⟨.m, .mem, [0, 1, 2, 3, 8, 9], (.uses [.s, .n]), (.uses [.s]), (.uses [.s, .n]), (.uses [.s, .i]), [0, 1, 2, 3, 4, 5, 6], 0xFFFFFFFFFFF⟩ -- AMO
  | 0x51 => some ⟨.m, .mem, [0, 1, 2, 3], (.uses [.s]), (.uses [.s]), (.uses [.s, .n]), (.uses [.s, .i]), [0], 0xFFFFFFFFFFF⟩ -- CAS
  | 0x52 => some ⟨.m, .mem, [0, 1, 8, 9], (.uses [.s]), (.uses [.s]), (.uses [.s, .n]), .unused, [0, 8], 0xFFFFFFFFFFF⟩ -- ACC
  | 0x53 => some ⟨.m, .mem, [0, 1, 8, 9], (.uses [.v]), (.uses [.s]), (.uses [.s, .n]), .unused, [0, 8], 0xFFFFFFFFFFF⟩ -- ACCV
  | 0x54 => some ⟨.k, .mem, [15], .unused, .unused, .unused, .unused, [0, 1, 2], 0⟩ -- RFLUSH
  | 0x55 => some ⟨.k, .mem, [15], (.uses [.s]), .unused, .unused, .unused, [0], 0⟩ -- RSTAT
  | 0x56 => some ⟨.m, .mem, [8], (.uses [.s]), (.uses [.s]), (.uses [.s, .n]), .unused, [0], 0xFFFFFFFFFFF⟩ -- XRD
  | 0x57 => some ⟨.m, .mem, [15], .unused, (.uses [.s]), (.uses [.s, .n]), (.uses [.s, .i]), [0], 0xFFFFFFFFFFF⟩ -- XCLR
  | 0x58 => some ⟨.m, .mem, [15], (.uses [.s]), (.uses [.s]), (.uses [.s, .n]), (.uses [.s, .n]), [0], 0xFFFFFFFFFFF⟩ -- FLD
  | 0x59 => some ⟨.m, .mem, [15], (.uses [.s]), (.uses [.s]), (.uses [.s, .n]), .unused, [0], 0xFFFFFFFFFFF⟩ -- FST
  | 0x5A => some ⟨.m, .mem, [15], .unused, (.uses [.s]), (.uses [.s, .n]), .unused, [0], 0xFFFFFFFFFFF⟩ -- FRST
  | 0x60 => some ⟨.k, .branch, [15], .unused, .unused, .unused, .unused, [2, 3, 4, 5, 6, 7], 0⟩ -- BAR
  | 0x61 => some ⟨.k, .branch, [15], .unused, .unused, .unused, .unused, [0], 0⟩ -- SSTEP
  | 0x62 => some ⟨.m, .mem, [15], .unused, (.uses [.s]), (.uses [.s, .n]), .unused, [0], 0xFFFFFFFFFFF⟩ -- SPAWN
  | 0x63 => some ⟨.k, .branch, [15], .unused, .unused, .unused, .unused, [0], 0⟩ -- DONE
  | 0x64 => some ⟨.m, .mem, [15], (.uses [.s, .n]), (.uses [.s]), (.uses [.s, .n]), .unused, [0], 0xFFFFFFFFFFF⟩ -- JOIN
  | 0x65 => some ⟨.k, .mem, [15], .unused, (.uses [.s]), (.uses [.s, .i]), .unused, [0], 0xFFFFFF⟩ -- QPUT
  | 0x66 => some ⟨.k, .mem, [15], (.uses [.s]), (.uses [.s]), .unused, .unused, [0], 0xFFFFFF⟩ -- QGET
  | 0x67 => some ⟨.k, .mem, [0, 1], (.uses [.s, .n]), (.uses [.s]), (.uses [.s, .i]), .unused, [0, 1, 2, 3, 4, 5], 0xFFFFFF⟩ -- WAITE
  | 0x68 => some ⟨.k, .mem, [15], .unused, .unused, .unused, .unused, [0, 1, 2], 0⟩ -- FENCE
  | 0x69 => some ⟨.m, .mem, [15], (.uses [.s]), (.uses [.s]), (.uses [.s, .n]), (.uses [.s, .n]), [0], 0xFFFFFFFFFFF⟩ -- LAUNCH
  | 0x6A => some ⟨.k, .alu, [15], (.uses [.s]), .unused, .unused, .unused, [0], 0⟩ -- GTIME
  | 0x70 => some ⟨.i, .dispatch, [15], .unused, (.uses [.s, .n]), .unused, .unused, [0], 0xFFFFFFF⟩ -- VSHAPE
  | 0x71 => some ⟨.i, .dispatch, [15], .unused, .unused, .unused, .unused, [0], 0x7FFF⟩ -- VREP
  | 0x72 => some ⟨.k, .dispatch, [15], (.uses [.v]), (.uses [.v]), .unused, .unused, [0], 0⟩ -- VMOV
  | 0x73 => some ⟨.k, .dispatch, tyIntFlt, (.uses [.v]), (.uses [.s, .i, .v]), (.uses [.s, .i, .n]), .unused, [0], 0⟩ -- VBCAST
  | 0x74 => some ⟨.k, .dispatch, tyIntFlt, (.uses [.s]), (.uses [.v]), (.uses [.s, .i]), .unused, [0], 0⟩ -- VEXT
  | 0x75 => some ⟨.k, .dispatch, tyIntFlt, (.uses [.v]), (.uses [.s, .i]), (.uses [.s, .i]), .unused, [0], 0⟩ -- VINS
  | 0x76 => some ⟨.k, .dispatch, tyIntFlt, (.uses [.v]), (.uses [.v]), (.uses [.v, .s, .i]), .unused, [0, 4, 5, 6, 7, 8], 0⟩ -- VADD
  | 0x77 => some ⟨.k, .dispatch, tyIntFlt, (.uses [.v]), (.uses [.v]), (.uses [.v, .s, .i]), .unused, [0, 4, 5, 6, 7, 8], 0⟩ -- VSUB
  | 0x78 => some ⟨.k, .dispatch, tyIntFlt, (.uses [.v]), (.uses [.v]), (.uses [.v, .s, .i]), .unused, [0, 4, 5, 6, 7, 8], 0⟩ -- VMUL
  | 0x79 => some ⟨.k, .dispatch, tyIntFlt, (.uses [.v]), (.uses [.v]), (.uses [.v, .s, .i]), (.uses [.v, .s, .i]), [0, 4, 5, 6, 7, 8], 0⟩ -- VFMA
  | 0x7A => some ⟨.k, .dispatch, tyIntFlt, (.uses [.v]), (.uses [.v]), (.uses [.v, .s, .i]), (.uses [.v, .s, .i]), [0, 4, 5, 6, 7, 8], 0⟩ -- VFMS
  | 0x7B => some ⟨.k, .dispatch, tyIntFlt, (.uses [.v]), (.uses [.v]), (.uses [.v, .s, .i]), (.uses [.v, .s, .i]), [0, 4, 5, 6, 7, 8], 0⟩ -- VFNMA
  | 0x7C => some ⟨.k, .dispatch, tyFlt, (.uses [.v]), (.uses [.v]), (.uses [.v, .s, .i]), .unused, [0, 4, 5, 6, 7], 0⟩ -- VDIV
  | 0x7D => some ⟨.k, .dispatch, tyFlt, (.uses [.v]), (.uses [.v]), .unused, .unused, [0, 4, 5, 6, 7], 0⟩ -- VSQRT
  | 0x7E => some ⟨.k, .dispatch, tyIntFlt, (.uses [.v]), (.uses [.v]), (.uses [.v, .s, .i]), .unused, [0], 0⟩ -- VMIN
  | 0x7F => some ⟨.k, .dispatch, tyIntFlt, (.uses [.v]), (.uses [.v]), (.uses [.v, .s, .i]), .unused, [0], 0⟩ -- VMAX
  | 0x80 => some ⟨.k, .dispatch, tyIntFlt, (.uses [.v]), (.uses [.v]), .unused, .unused, [0, 8], 0⟩ -- VABS
  | 0x81 => some ⟨.k, .dispatch, tyIntFlt, (.uses [.v]), (.uses [.v]), .unused, .unused, [0, 8], 0⟩ -- VNEG
  | 0x82 => some ⟨.k, .dispatch, tyIntFlt, (.uses [.v]), (.uses [.v]), (.uses [.v, .s, .i]), .unused, [0, 1, 2, 3, 4, 5, 8, 9, 10, 11, 12, 13], 0⟩ -- VCMP
  | 0x83 => some ⟨.k, .dispatch, tyIntFlt, (.uses [.v]), (.uses [.v, .s, .i]), (.uses [.v, .s, .i]), (.uses [.v]), [0], 0⟩ -- VSEL
  | 0x84 => some ⟨.k, .dispatch, [0, 1, 2, 3, 4, 5, 6, 7, 15], (.uses [.v]), (.uses [.v]), (.uses [.v, .s, .i]), .unused, [0], 0⟩ -- VAND
  | 0x85 => some ⟨.k, .dispatch, [0, 1, 2, 3, 4, 5, 6, 7, 15], (.uses [.v]), (.uses [.v]), (.uses [.v, .s, .i]), .unused, [0], 0⟩ -- VOR
  | 0x86 => some ⟨.k, .dispatch, [0, 1, 2, 3, 4, 5, 6, 7, 15], (.uses [.v]), (.uses [.v]), (.uses [.v, .s, .i]), .unused, [0], 0⟩ -- VXOR
  | 0x87 => some ⟨.k, .dispatch, tyInt, (.uses [.v]), (.uses [.v]), (.uses [.v, .s, .i]), .unused, [0], 0⟩ -- VSHL
  | 0x88 => some ⟨.k, .dispatch, tyInt, (.uses [.v]), (.uses [.v]), (.uses [.v, .s, .i]), .unused, [0], 0⟩ -- VSHR
  | 0x89 => some ⟨.k, .dispatch, tyInt, (.uses [.v]), (.uses [.v]), (.uses [.v, .s, .i]), .unused, [0], 0⟩ -- VSHA
  | 0x8A => some ⟨.k, .dispatch, tyIntFlt, (.uses [.v]), (.uses [.v]), .unused, .unused, [0, 4, 5, 6, 7, 8], 0xF⟩ -- VCVT
  | 0x8B => some ⟨.k, .dispatch, [14], (.uses [.v]), (.uses [.v]), .unused, .unused, [0], 0xF⟩ -- VPACK
  | 0x8C => some ⟨.k, .dispatch, [8, 9, 10, 11], (.uses [.v]), (.uses [.v]), .unused, .unused, [0, 4, 5, 6, 7], 0⟩ -- VUNPK
  | 0x8D => some ⟨.k, .dispatch, tyIntFlt, (.uses [.s, .v]), (.uses [.v]), .unused, .unused, [0, 4, 5, 6, 7, 8], 0x7⟩ -- VRED
  | 0x8E => some ⟨.k, .dispatch, tyIntFlt, (.uses [.v]), (.uses [.v]), .unused, .unused, [0, 4, 5, 6, 7, 8], 0x7⟩ -- VSCAN
  | 0x8F => some ⟨.k, .dispatch, tyIntFlt, (.uses [.v]), (.uses [.v]), (.uses [.v]), .unused, [0], 0⟩ -- VPERM
  | 0x90 => some ⟨.k, .dispatch, tyIntFlt, (.uses [.v]), (.uses [.v]), (.uses [.s, .i]), (.uses [.s, .n]), [0], 0⟩ -- VSLIDE
  | 0x91 => some ⟨.k, .dispatch, tyIntFlt, (.uses [.v]), (.uses [.s]), (.uses [.v]), .unused, fnAny, 0⟩ -- VGATH
  | 0x92 => some ⟨.k, .dispatch, tyIntFlt, (.uses [.v]), (.uses [.s]), (.uses [.v]), .unused, fnAny, 0⟩ -- VSCAT
  | 0x93 => some ⟨.k, .dispatch, [8, 9, 10, 11], (.uses [.v]), (.uses [.v]), .unused, .unused, [0, 4, 5, 6, 7], 0xF⟩ -- VSF
  | 0x94 => some ⟨.k, .dispatch, [4, 5, 6, 7, 9, 10, 11, 12, 13], (.uses [.v]), (.uses [.v]), (.uses [.v, .s, .i]), .unused, [0, 4, 5, 6, 7, 8], 0⟩ -- VMACW
  | 0x95 => some ⟨.k, .dispatch, [4, 5, 6, 7, 9, 10, 11, 12, 13], (.uses [.v]), (.uses [.v]), (.uses [.v, .s, .i]), .unused, [0, 4, 5, 6, 7, 8], 0⟩ -- VADDW
  | 0x96 => some ⟨.k, .dispatch, tyFlt, (.uses [.v]), (.uses [.v]), .unused, .unused, [0], 0⟩ -- VCLASS
  | 0x97 => some ⟨.k, .dispatch, tyFlt, (.uses [.v]), (.uses [.v]), .unused, .unused, [0, 4, 5, 6, 7, 8, 12, 13, 14, 15], 0⟩ -- VROUND
  | 0x98 => some ⟨.k, .dispatch, tyIntFlt, (.uses [.v]), (.uses [.v]), .unused, .unused, [0], 0⟩ -- VTRN
  | 0x99 => some ⟨.k, .dispatch, tyFlt, (.uses [.v]), (.uses [.v]), (.uses [.v]), (.uses [.v, .n]), [0, 4, 5, 6, 7], 0⟩ -- VDOT
  | 0xA0 => some ⟨.k, .dispatch, [15], .unused, .unused, .unused, .unused, [0], 0⟩ -- MCLAIM
  | 0xA1 => some ⟨.k, .dispatch, [15], .unused, .unused, .unused, .unused, [0], 0⟩ -- MRLS
  | 0xA2 => some ⟨.k, .dispatch, [15], (.uses [.t]), (.uses [.s, .i]), (.uses [.s, .i]), (.uses [.s, .i]), [0, 1], 0⟩ -- TLD
  | 0xA3 => some ⟨.k, .dispatch, [15], (.uses [.t]), (.uses [.s, .i]), (.uses [.s, .i]), (.uses [.s, .i]), [0, 1], 0⟩ -- TST
  | 0xA4 => some ⟨.k, .dispatch, [15], (.uses [.t]), .unused, .unused, .unused, [0], 0⟩ -- TZERO
  | 0xA5 => some ⟨.k, .dispatch, [15], (.uses [.t]), (.uses [.t]), .unused, .unused, [0], 0⟩ -- TMOV
  | 0xA6 => some ⟨.k, .dispatch, [8, 9, 10, 11, 14], (.uses [.t]), (.uses [.t]), .unused, (.uses [.a, .n]), [0, 4, 5, 6, 7], 0⟩ -- TCVT
  | 0xA7 => some ⟨.k, .dispatch, [8, 9, 10, 11, 14], (.uses [.a]), (.uses [.t]), (.uses [.t]), .unused, [0, 4, 5, 6, 7], 0⟩ -- MMA
  | 0xA8 => some ⟨.k, .dispatch, [8, 9, 10, 11, 14], (.uses [.a]), (.uses [.t]), (.uses [.t]), .unused, [0, 4, 5, 6, 7], 0x3⟩ -- GMMA
  | 0xA9 => some ⟨.k, .dispatch, [8, 9, 10, 11], (.uses [.a]), (.uses [.t]), (.uses [.t]), .unused, [0, 4, 5, 6, 7], 0⟩ -- MMAS
  | 0xAA => some ⟨.k, .dispatch, [15], (.uses [.a]), .unused, .unused, .unused, [0], 0⟩ -- AZERO
  | 0xAB => some ⟨.k, .dispatch, [8, 9], (.uses [.t, .s]), (.uses [.a]), (.uses [.t, .n]), (.uses [.t, .n]), [0, 1, 2, 3, 4, 5, 6, 7, 8, 9], 0xFFFFFFFFF⟩ -- ADRAIN
  | 0xAC => some ⟨.k, .dispatch, [15], (.uses [.s]), (.uses [.a]), .unused, .unused, [0], 0⟩ -- ASTAT
  | 0xAD => some ⟨.k, .dispatch, [15], (.uses [.a]), .unused, .unused, .unused, [0], 0⟩ -- ACLR
  | 0xB0 => some ⟨.k, .dispatch, [0, 1, 2, 3, 8, 9, 10, 11], (.uses [.b]), (.uses [.v]), (.uses [.v]), .unused, [0, 1, 2, 3, 4, 5, 6, 7], 0x3FFF⟩ -- BCMP
  | 0xB1 => some ⟨.k, .dispatch, [15], (.uses [.v]), (.uses [.b]), .unused, .unused, [0], 0⟩ -- BPOPR
  | 0xB2 => some ⟨.k, .dispatch, [15], (.uses [.v]), (.uses [.b]), .unused, .unused, [0], 0⟩ -- BPOPC
  | 0xB3 => some ⟨.k, .dispatch, [15], (.uses [.v]), (.uses [.b]), .unused, .unused, [0], 0⟩ -- BFIRST
  | 0xB4 => some ⟨.k, .dispatch, [15], (.uses [.b]), (.uses [.b]), .unused, .unused, [0, 1], 0⟩ -- BCLOS
  | 0xB5 => some ⟨.k, .dispatch, [15], (.uses [.b]), (.uses [.b]), (.uses [.b]), .unused, [0], 0⟩ -- BCOMP
  | 0xB6 => some ⟨.k, .dispatch, [15], (.uses [.b]), (.uses [.b]), .unused, .unused, [0], 0⟩ -- BTRN
  | 0xB7 => some ⟨.k, .dispatch, [15], (.uses [.b]), (.uses [.b]), (.uses [.b, .n]), .unused, [0, 1, 2, 3, 4], 0⟩ -- BLOG
  | 0xB8 => some ⟨.m, .dispatch, [15], (.uses [.b]), (.uses [.s]), (.uses [.s, .n]), .unused, [0], 0xFFFFFFFFFFF⟩ -- BLD
  | 0xB9 => some ⟨.m, .dispatch, [15], (.uses [.b]), (.uses [.s]), (.uses [.s, .n]), .unused, [0], 0xFFFFFFFFFFF⟩ -- BST
  | 0xBA => some ⟨.k, .dispatch, [15], (.uses [.b]), .unused, .unused, .unused, [0], 0⟩ -- BZERO
  | 0xBB => some ⟨.k, .dispatch, [15], (.uses [.b]), .unused, .unused, .unused, [0], 0⟩ -- BEYE
  | 0xC0 => some ⟨.k, .branch, [15], .unused, .unused, .unused, .unused, [3, 4, 5, 6], 0⟩ -- PHASE
  | 0xC1 => some ⟨.x, .mem, [15], (.uses [.l]), (.uses [.s, .i, .l]), .unused, .unused, [0], 0xFFFF⟩ -- XMIT
  | 0xC2 => some ⟨.x, .mem, [15], (.uses [.s]), (.uses [.l]), .unused, .unused, [0], 0xFFFFFF⟩ -- XRCV
  | 0xC3 => some ⟨.x, .mem, [15], (.uses [.l]), (.uses [.l, .n]), .unused, .unused, [0], 0xFFFFFF⟩ -- XSEL
  | 0xC4 => some ⟨.x, .mem, [15], .unused, .unused, .unused, .unused, [0], 0xFFFFFF⟩ -- XIDLE
  | 0xC5 => some ⟨.k, .branch, [15], .unused, .unused, .unused, .unused, [0], 0⟩ -- PEND
  | 0xD0 => some ⟨.e, .dispatch, [15], (.uses [.s, .n]), (.uses [.s]), (.uses [.i, .s]), .unused, [0], 1⟩ -- CAPP
  | 0xD1 => some ⟨.k, .dispatch, [15], .unused, (.uses [.i, .s]), (.uses [.s, .i]), .unused, [0], 0xFFFFFF⟩ -- CWAIT
  | 0xD2 => some ⟨.k, .dispatch, [15], (.uses [.s]), (.uses [.i, .s]), .unused, .unused, [0], 0⟩ -- CSEQ
  | 0xD3 => some ⟨.k, .dispatch, [15], .unused, .unused, .unused, .unused, [0], 0xFF⟩ -- CFENCE
  | 0xD4 => some ⟨.k, .dispatch, [15], (.uses [.s]), (.uses [.i, .s]), .unused, .unused, [0, 1], 0⟩ -- CSTAT
  | 0xE0 => some ⟨.m, .dispatch, [15], (.uses [.s, .n]), (.uses [.s]), (.uses [.s, .n]), (.uses [.s, .i]), [0, 1, 8, 9], 0xFFFFFFFFFFF⟩ -- TDEF
  | 0xE1 => some ⟨.k, .dispatch, [15], (.uses [.s]), (.uses [.s, .i]), .unused, .unused, [0, 1, 2, 3, 4, 5], 0⟩ -- TQRY
  | 0xE2 => some ⟨.m, .dispatch, [15], (.uses [.s, .n]), (.uses [.s]), (.uses [.s, .n]), (.uses [.s, .i, .n]), [0, 1, 8, 9], 0xFFFFFFFFFFF⟩ -- PISSUE
  | 0xE3 => some ⟨.m, .dispatch, [15], (.uses [.s, .n]), (.uses [.s]), (.uses [.s, .n]), .unused, [0, 1, 2, 3, 8, 9, 10, 11], 0xFFFFFFFFFFF⟩ -- PREDEEM
  | 0xE4 => some ⟨.m, .dispatch, [15], (.uses [.s, .n]), (.uses [.s]), (.uses [.s, .n]), .unused, [0, 1, 8, 9], 0xFFFFFFFFFFF⟩ -- PEXPIRE
  | 0xE5 => some ⟨.m, .dispatch, [15], (.uses [.s]), (.uses [.s]), (.uses [.s, .n]), .unused, [0], 0xFFFFFFFFFFF⟩ -- PSTAT
  | 0xF0 => some ⟨.i, .branch, [15], .unused, .unused, .unused, .unused, [0], 0xFFFF⟩ -- TRAP
  | 0xF1 => some ⟨.k, .branch, [15], .unused, .unused, .unused, .unused, [0], 0⟩ -- RFT
  | 0xF2 => some ⟨.i, .alu, [15], (.uses [.s]), .unused, .unused, .unused, [0], 0xFFF⟩ -- MFS
  | 0xF3 => some ⟨.i, .alu, [15], .unused, (.uses [.s]), .unused, .unused, [0], 0xFFF⟩ -- MTS
  | 0xF4 => some ⟨.k, .alu, [15], (.uses [.s]), (.uses [.s, .i]), .unused, .unused, [0, 1, 2, 3, 4, 5, 6, 7], 0⟩ -- RDRING
  | 0xF5 => some ⟨.k, .mem, [15], .unused, .unused, .unused, .unused, [0], 0⟩ -- SNAP
  | 0xF6 => some ⟨.m, .mem, [15], .unused, (.uses [.s]), (.uses [.s, .n]), .unused, [0, 1], 0xFFFFFFFFFFF⟩ -- XINV
  | 0xF7 => some ⟨.k, .mem, [15], .unused, (.uses [.s]), .unused, .unused, [0], 0⟩ -- SEED
  | 0xF8 => some ⟨.k, .branch, [15], .unused, .unused, .unused, .unused, [0], 0⟩ -- HALT
  | 0xF9 => some ⟨.i, .branch, [15], .unused, .unused, .unused, .unused, [0], 0xFFFF⟩ -- DBRK
  | 0xFA => some ⟨.m, .mem, [15], .unused, (.uses [.s]), (.uses [.s, .n]), .unused, [0], 0xFFFFFFFFFFF⟩ -- SAVE
  | 0xFB => some ⟨.k, .mem, [15], (.uses [.s, .n]), (.uses [.s]), (.uses [.s]), .unused, [0, 1, 2], 0⟩ -- GSWITCH
  | 0xFC => some ⟨.i, .alu, [15], (.uses [.s]), .unused, .unused, .unused, [0], 0x1FF⟩ -- PCNT
  | _ => none

/-- R67: the 171 assigned opcodes. -/
def assigned (op : BitVec 8) : Bool := op = 0 || (form op.toNat).isSome

/-- R62: an unused operand position must hold 0xFF. -/
def Pos.unusedOk : Pos → BitVec 8 → Bool
  | .unused, x => x = 0xFF
  | .uses _, _ => true

/-- R60: a used position must hold a specifier of an accepted class. -/
def Pos.classOk : Pos → BitVec 8 → Bool
  | .unused, _ => true
  | .uses cs, x => cs.contains (clsOf x)

/-- The signed value of a small immediate specifier (R61). -/
def immVal (x : BitVec 8) : Int := Bits.sx 5 x.toNat

/-- R210: FN of a form with a rounding code that also takes integer types. -/
def rcsOk (f : Fields) : Bool :=
  if f.t.toNat < 8 then f.fn.toNat = 0 || f.fn.toNat = 8 else f.fn.toNat ≠ 8

/-- R103: the special-register numbers below 0x800. -/
def specialLow (n : Nat) : Bool :=
  n ≤ 0x17 || (0x20 ≤ n && n ≤ 0x24) || (0x30 ≤ n && n ≤ 0x35) || n = 0x40

/-- R327: the supervisor special-register numbers. -/
def specialSup (n : Nat) : Bool := n = 0x800 || n = 0x801 || n = 0x802

/-- The reserved values of used fields that a single form names (cause 0x02); `sup` is the privilege level. -/
def extra02 (sup : Bool) (f : Fields) : Bool :=
  let imm := f.imm.toNat
  match f.op.toNat with
  | 0x17 | 0x18 => if f.fn = 1 then imm % 64 + imm / 64 % 64 + 1 ≤ 64 else imm = 0  -- R107 EXT, INS
  | 0x20 | 0x22 | 0x25 => imm % 8 < 5  -- R65 J slot
  | 0x1E => f.fn ≠ 7 || f.b = 0xFF  -- R107 PLOG.not has no B
  | 0x40 | 0x41 | 0x44 => f.fn = sizeCode (Ty.ofCode f.t)  -- R124
  | 0x42 | 0x43 => f.fn = 1 || f.c = 0xFF  -- R124
  | 0x70 => f.a = 0xFF || imm = 0  -- R210 VSHAPE
  | 0x73 => clsOf f.a = .v || f.b = 0xFF  -- R210 VBCAST
  | 0x76 | 0x77 | 0x78 | 0x79 | 0x7A | 0x7B | 0x94 | 0x95 => rcsOk f  -- R210
  | 0x80 | 0x81 => f.fn = 0 || f.t.toNat < 8  -- R210 .sat is for integer types
  | 0x82 => f.fn.toNat < 8 || 8 ≤ f.t.toNat  -- R210 .tot is for floating types
  | 0x8A => rcsOk f && imm ≤ 13  -- R210 source type INT or FLT
  | 0x8B => imm = 9 || imm = 10 || imm = 11  -- R210
  | 0x8D => rcsOk f && (imm ≤ 2 || (imm ≤ 5 && f.t.toNat < 8))  -- R210 VRED functions
  | 0x8E => rcsOk f && imm ≤ 2  -- R210 VSCAN functions
  | 0x93 => imm ≤ 10  -- R210 VSF functions
  | 0xAB => imm / 2 ^ 33 = 0 || 4 ≤ imm / 2 ^ 33  -- R239 rounding code of ADRAIN
  | 0xB0 => imm / 4096 ≤ 2 && (imm / 4096 = 0 || 4 ≤ f.t.toNat)  -- R254 NaN modes
  | 0xB7 => f.fn ≠ 4 || f.b = 0xFF  -- R254 BLOG.not has no B
  | 0xC1 => imm < 65536  -- R272 count 0
  | 0xC2 | 0xC4 => 1 ≤ imm / 65536  -- R272 count 1 to 255
  | 0xD3 => imm ≠ 0  -- R295 mask nonzero
  | 0xF2 | 0xF3 => if imm < 0x800 then specialLow imm else specialSup imm || !sup  -- R103, R327
  | 0xFC => imm % 256 ≤ 8  -- R337
  | _ => true

/-- The type code that a single function refuses (cause 0x04, R124). -/
def extra04 (f : Fields) : Bool :=
  f.op.toNat ≠ 0x50 || f.t.toNat < 8 || (f.fn.toNat ≠ 2 && f.fn.toNat ≠ 3 && f.fn.toNat ≠ 4)

/-- The operands that a single form refuses (cause 0x03), a MOV between a link and a predicate among them (R111; log 29). -/
def extra03 (f : Fields) : Bool :=
  match f.op.toNat with
  | 0x17 => if f.fn = 1 then f.b = 0xFF && f.c = 0xFF else f.b ≠ 0xFF && f.c ≠ 0xFF  -- R107 EXT
  | 0x1D => if clsOf f.a = .p then clsOf f.d ≠ .l else clsOf f.a ≠ .l || clsOf f.d ≠ .p  -- R111 MOV
  | 0x1E => f.fn = 7 || f.b ≠ 0xFF  -- R107 PLOG
  | 0x25 => f.a ≠ 0  -- R112 LOOP naming s0
  | 0x42 | 0x43 => f.fn ≠ 1 || f.c ≠ 0xFF  -- R124
  | 0x58 => f.d ≠ 0  -- R124 FLD with D = s0
  | 0x73 => clsOf f.a ≠ .v || f.b ≠ 0xFF  -- R210 VBCAST
  | 0xB7 => f.fn = 4 || f.b ≠ 0xFF  -- R254 BLOG
  | 0xD0 => clsOf f.b ≠ .i || (0 ≤ immVal f.b && immVal f.b ≤ 7)  -- R66, R295 chain
  | 0xD1 | 0xD2 | 0xD4 => clsOf f.a ≠ .i || (0 ≤ immVal f.a && immVal f.a ≤ 7)  -- R295 chain
  | 0xE0 | 0xE2 => clsOf f.c ≠ .i || 0 ≤ immVal f.c  -- R304
  | 0xE1 | 0xF4 => clsOf f.a ≠ .i || 0 ≤ immVal f.a  -- R304, R332
  | _ => true

/-- R70: the first decode check of a slot that fails, in the order 0x01, 0x02, 0x04, 0x03. -/
def check (sup : Bool) (f : Fields) : Option Nat :=
  if f.op = 0 then (if f = ⟨0, 0, 0, 0, 0, 0, 0, 0, 0⟩ then none else some 0x02)  -- R62 NOP
  else
    match form f.op.toNat with
    | none => some 0x01
    | some r =>
      if !(r.d.unusedOk f.d && r.a.unusedOk f.a && r.b.unusedOk f.b && r.c.unusedOk f.c
          && r.fns.contains f.fn.toNat && f.imm.toNat &&& (0xFFFFFFFFFFF - r.imm) = 0 && extra02 sup f) then some 0x02
      else if !(r.types.contains f.t.toNat && extra04 f) then some 0x04
      else if !(r.d.classOk f.d && r.a.classOk f.a && r.b.classOk f.b && r.c.classOk f.c && extra03 f) then some 0x03
      else none

/-- R60, R272: the slot needs a line with PH = 1 (a link operand, a format X word, or PEND). -/
def needsPhase (f : Fields) : Bool :=
  f.op = 0xC5 || (match form f.op.toNat with | some r => r.fmt = .x | none => false)
    || clsOf f.d = .l || clsOf f.a = .l || clsOf f.b = .l || clsOf f.c = .l

/-- R69, R323: the slot is a supervisor-only form. -/
def needsSup (f : Fields) : Bool :=
  f.op = 0xF6 || f.op = 0xFB || ((f.op = 0xF2 || f.op = 0xF3) && 0x800 ≤ f.imm.toNat % 4096)

/-- The fields an instruction is encoded in; none for the steps that no word names. -/
def Instr.fields : Instr → Option Fields
  | .nop => some ⟨0, 0, 0, 0, 0, 0, 0, 0, 0⟩
  | .add g t sat d a b => some ⟨0x01, g.code, t.code, d.spec, a.spec, b.spec, 0xFF, (flag4 sat 0), 0⟩
  | .sub g t sat d a b => some ⟨0x02, g.code, t.code, d.spec, a.spec, b.spec, 0xFF, (flag4 sat 0), 0⟩
  | .mul g t sat d a b => some ⟨0x03, g.code, t.code, d.spec, a.spec, b.spec, 0xFF, (flag4 sat 0), 0⟩
  | .mulh g t d a b => some ⟨0x04, g.code, t.code, d.spec, a.spec, b.spec, 0xFF, 0, 0⟩
  | .div g t d a b => some ⟨0x05, g.code, t.code, d.spec, a.spec, b.spec, 0xFF, 0, 0⟩
  | .rem g t d a b => some ⟨0x06, g.code, t.code, d.spec, a.spec, b.spec, 0xFF, 0, 0⟩
  | .and g t d a b => some ⟨0x07, g.code, t.code, d.spec, a.spec, b.spec, 0xFF, 0, 0⟩
  | .or g t d a b => some ⟨0x08, g.code, t.code, d.spec, a.spec, b.spec, 0xFF, 0, 0⟩
  | .xor g t d a b => some ⟨0x09, g.code, t.code, d.spec, a.spec, b.spec, 0xFF, 0, 0⟩
  | .andn g t d a b => some ⟨0x0A, g.code, t.code, d.spec, a.spec, b.spec, 0xFF, 0, 0⟩
  | .shl g t d a b => some ⟨0x0B, g.code, t.code, d.spec, a.spec, b.spec, 0xFF, 0, 0⟩
  | .shr g t d a b => some ⟨0x0C, g.code, t.code, d.spec, a.spec, b.spec, 0xFF, 0, 0⟩
  | .sha g t d a b => some ⟨0x0D, g.code, t.code, d.spec, a.spec, b.spec, 0xFF, 0, 0⟩
  | .rot g t d a b => some ⟨0x0E, g.code, t.code, d.spec, a.spec, b.spec, 0xFF, 0, 0⟩
  | .min g t d a b => some ⟨0x0F, g.code, t.code, d.spec, a.spec, b.spec, 0xFF, 0, 0⟩
  | .max g t d a b => some ⟨0x10, g.code, t.code, d.spec, a.spec, b.spec, 0xFF, 0, 0⟩
  | .cmp g t cc d a b => some ⟨0x11, g.code, t.code, (pSpec d), a.spec, b.spec, 0xFF, cc.code, 0⟩
  | .sel g d a b c => some ⟨0x12, g.code, 0xF, d.spec, a.spec, b.spec, (pSpec c), 0, 0⟩
  | .clz g t d a => some ⟨0x13, g.code, t.code, d.spec, a.spec, 0xFF, 0xFF, 0, 0⟩
  | .ctz g t d a => some ⟨0x14, g.code, t.code, d.spec, a.spec, 0xFF, 0xFF, 0, 0⟩
  | .popc g t d a => some ⟨0x15, g.code, t.code, d.spec, a.spec, 0xFF, 0xFF, 0, 0⟩
  | .brev g t d a => some ⟨0x16, g.code, t.code, d.spec, a.spec, 0xFF, 0xFF, 0, 0⟩
  | .ext g t d a x => some ⟨0x17, g.code, t.code, d.spec, a.spec, x.bSpec, x.cSpec, x.fn, x.imm⟩
  | .ins g t d a b pos len => some ⟨0x18, g.code, t.code, d.spec, a.spec, b.spec, 0xFF, 1, (immOf [(0, pos.toNat), (6, len.toNat)])⟩
  | .addi g t d a imm => some ⟨0x19, g.code, t.code, d.spec, a.spec, 0xFF, 0xFF, 0, imm⟩
  | .movi g t d imm => some ⟨0x1A, g.code, t.code, d.spec, 0xFF, 0xFF, 0xFF, 0, imm⟩
  | .movh g d a imm => some ⟨0x1B, g.code, 0xF, d.spec, (optS a), 0xFF, 0xFF, 0, (immOf [(0, imm.toNat)])⟩
  | .lea g d m => some ⟨0x1C, g.code, 0xF, (sSpec d), m.aSpec, m.bSpec, 0xFF, 0, m.imm⟩
  | .mov g d a => some ⟨0x1D, g.code, 0xF, d.spec, a.spec, 0xFF, 0xFF, 0, 0⟩
  | .plog g fn d a b => some ⟨0x1E, g.code, 0xF, (pSpec d), (pSpec a), (optP b), 0xFF, fn.code, 0⟩
  | .chk g t a b c => some ⟨0x1F, g.code, t.code, 0xFF, a.spec, b.spec, c.spec, 0, 0⟩
  | .br g tg => some ⟨0x20, g.code, 0xF, 0xFF, 0xFF, 0xFF, 0xFF, 0, tg.imm⟩
  | .brx g a => some ⟨0x21, g.code, 0xF, 0xFF, (sSpec a), 0xFF, 0xFF, 0, 0⟩
  | .call g tg => some ⟨0x22, g.code, 0xF, 0xFF, 0xFF, 0xFF, 0xFF, 0, tg.imm⟩
  | .callx g a => some ⟨0x23, g.code, 0xF, 0xFF, (sSpec a), 0xFF, 0xFF, 0, 0⟩
  | .ret g => some ⟨0x24, g.code, 0xF, 0xFF, 0xFF, 0xFF, 0xFF, 0, 0⟩
  | .loop g a tg => some ⟨0x25, g.code, 0xF, 0xFF, (sSpec a), 0xFF, 0xFF, 0, tg.imm⟩
  | .yield g => some ⟨0x26, g.code, 0xF, 0xFF, 0xFF, 0xFF, 0xFF, 0, 0⟩
  | .follow g dir a => some ⟨0x27, g.code, 0xF, 0xFF, a.spec, 0xFF, 0xFF, dir.code, 0⟩
  | .detach g => some ⟨0x28, g.code, 0xF, 0xFF, 0xFF, 0xFF, 0xFF, 0, 0⟩
  | .lead g a => some ⟨0x29, g.code, 0xF, 0xFF, a.spec, 0xFF, 0xFF, 0, 0⟩
  | .ld g t d m => some ⟨0x40, g.code, t.code, d.spec, m.aSpec, m.bSpec, 0xFF, (sizeCode t), m.imm⟩
  | .st g t d m => some ⟨0x41, g.code, t.code, d.spec, m.aSpec, m.bSpec, 0xFF, (sizeCode t), m.imm⟩
  | .ldv g d m str => some ⟨0x42, g.code, 0xF, (vSpec d), m.aSpec, m.bSpec, (optS str), (flag4 str.isSome 0), m.imm⟩
  | .stv g d m str => some ⟨0x43, g.code, 0xF, (vSpec d), m.aSpec, m.bSpec, (optS str), (flag4 str.isSome 0), m.imm⟩
  | .ldl g t d m => some ⟨0x44, g.code, t.code, (sSpec d), m.aSpec, m.bSpec, 0xFF, (sizeCode t), m.imm⟩
  | .pref g slice m => some ⟨0x45, g.code, 0xF, 0xFF, m.aSpec, m.bSpec, 0xFF, (flag4 slice 0), m.imm⟩
  | .wbl g inv m => some ⟨0x46, g.code, 0xF, 0xFF, m.aSpec, m.bSpec, 0xFF, (flag4 inv 0), m.imm⟩
  | .disc g clear c m => some ⟨0x47, g.code, 0xF, 0xFF, m.aSpec, m.bSpec, (sSpec c), (flag4 clear 0), m.imm⟩
  | .xlat g kind d m => some ⟨0x48, g.code, 0xF, (sSpec d), m.aSpec, m.bSpec, 0xFF, kind.code, m.imm⟩
  | .amo g t fn d c m => some ⟨0x50, g.code, t.code, (optS d), m.aSpec, m.bSpec, c.spec, fn.code, m.imm⟩
  | .cas g t d c m => some ⟨0x51, g.code, t.code, (sSpec d), m.aSpec, m.bSpec, c.spec, 0, m.imm⟩
  | .acc g t exact d m => some ⟨0x52, g.code, t.code, (sSpec d), m.aSpec, m.bSpec, 0xFF, (flag4 exact 3), m.imm⟩
  | .accv g t exact d m => some ⟨0x53, g.code, t.code, (vSpec d), m.aSpec, m.bSpec, 0xFF, (flag4 exact 3), m.imm⟩
  | .rflush g r => some ⟨0x54, g.code, 0xF, 0xFF, 0xFF, 0xFF, 0xFF, r.code, 0⟩
  | .rstat g d => some ⟨0x55, g.code, 0xF, (sSpec d), 0xFF, 0xFF, 0xFF, 0, 0⟩
  | .xrd g d m => some ⟨0x56, g.code, 0x8, (sSpec d), m.aSpec, m.bSpec, 0xFF, 0, m.imm⟩
  | .xclr g c m => some ⟨0x57, g.code, 0xF, 0xFF, m.aSpec, m.bSpec, c.spec, 0, m.imm⟩
  | .fld g d c m => some ⟨0x58, g.code, 0xF, (sSpec d), m.aSpec, m.bSpec, (optS c), 0, m.imm⟩
  | .fst g d m => some ⟨0x59, g.code, 0xF, (sSpec d), m.aSpec, m.bSpec, 0xFF, 0, m.imm⟩
  | .frst g m => some ⟨0x5A, g.code, 0xF, 0xFF, m.aSpec, m.bSpec, 0xFF, 0, m.imm⟩
  | .bar g scope => some ⟨0x60, g.code, 0xF, 0xFF, 0xFF, 0xFF, 0xFF, (code8 scope), 0⟩
  | .sstep g => some ⟨0x61, g.code, 0xF, 0xFF, 0xFF, 0xFF, 0xFF, 0, 0⟩
  | .spawn g m => some ⟨0x62, g.code, 0xF, 0xFF, m.aSpec, m.bSpec, 0xFF, 0, m.imm⟩
  | .done g => some ⟨0x63, g.code, 0xF, 0xFF, 0xFF, 0xFF, 0xFF, 0, 0⟩
  | .join g d m => some ⟨0x64, g.code, 0xF, (optS d), m.aSpec, m.bSpec, 0xFF, 0, m.imm⟩
  | .qput g a b lim => some ⟨0x65, g.code, 0xF, 0xFF, (sSpec a), b.spec, 0xFF, 0, (immOf [(0, lim.toNat)])⟩
  | .qget g d a lim => some ⟨0x66, g.code, 0xF, (sSpec d), (sSpec a), 0xFF, 0xFF, 0, (immOf [(0, lim.toNat)])⟩
  | .waite g t cc d a b lim => some ⟨0x67, g.code, t.code, (optS d), (sSpec a), b.spec, 0xFF, cc.code, (immOf [(0, lim.toNat)])⟩
  | .fence g r => some ⟨0x68, g.code, 0xF, 0xFF, 0xFF, 0xFF, 0xFF, r.code, 0⟩
  | .launch g d c m => some ⟨0x69, g.code, 0xF, (sSpec d), m.aSpec, m.bSpec, (optS c), 0, m.imm⟩
  | .gtime g d => some ⟨0x6A, g.code, 0xF, (sSpec d), 0xFF, 0xFF, 0xFF, 0, 0⟩
  | .vshape g src => some ⟨0x70, g.code, 0xF, 0xFF, src.aSpec, 0xFF, 0xFF, 0, src.immField⟩
  | .vrep g count span stride => some ⟨0x71, g.code, 0xF, 0xFF, 0xFF, 0xFF, 0xFF, 0, (immOf [(0, count.toNat), (8, span.toNat), (12, stride.toNat)])⟩
  | .vmov g d a => some ⟨0x72, g.code, 0xF, (vSpec d), (vSpec a), 0xFF, 0xFF, 0, 0⟩
  | .vbcast g t d a b => some ⟨0x73, g.code, t.code, (vSpec d), a.spec, b.spec, 0xFF, 0, 0⟩
  | .vext g t d a b => some ⟨0x74, g.code, t.code, (sSpec d), (vSpec a), b.spec, 0xFF, 0, 0⟩
  | .vins g t d a b => some ⟨0x75, g.code, t.code, (vSpec d), a.spec, b.spec, 0xFF, 0, 0⟩
  | .vadd g t rc sat d a b => some ⟨0x76, g.code, t.code, (vSpec d), (vSpec a), b.spec, 0xFF, (rc.code ||| flag4 sat 3), 0⟩
  | .vsub g t rc sat d a b => some ⟨0x77, g.code, t.code, (vSpec d), (vSpec a), b.spec, 0xFF, (rc.code ||| flag4 sat 3), 0⟩
  | .vmul g t rc sat d a b => some ⟨0x78, g.code, t.code, (vSpec d), (vSpec a), b.spec, 0xFF, (rc.code ||| flag4 sat 3), 0⟩
  | .vfma g t rc sat d a b c => some ⟨0x79, g.code, t.code, (vSpec d), (vSpec a), b.spec, c.spec, (rc.code ||| flag4 sat 3), 0⟩
  | .vfms g t rc sat d a b c => some ⟨0x7A, g.code, t.code, (vSpec d), (vSpec a), b.spec, c.spec, (rc.code ||| flag4 sat 3), 0⟩
  | .vfnma g t rc sat d a b c => some ⟨0x7B, g.code, t.code, (vSpec d), (vSpec a), b.spec, c.spec, (rc.code ||| flag4 sat 3), 0⟩
  | .vdiv g t rc d a b => some ⟨0x7C, g.code, t.code, (vSpec d), (vSpec a), b.spec, 0xFF, rc.code, 0⟩
  | .vsqrt g t rc d a => some ⟨0x7D, g.code, t.code, (vSpec d), (vSpec a), 0xFF, 0xFF, rc.code, 0⟩
  | .vmin g t d a b => some ⟨0x7E, g.code, t.code, (vSpec d), (vSpec a), b.spec, 0xFF, 0, 0⟩
  | .vmax g t d a b => some ⟨0x7F, g.code, t.code, (vSpec d), (vSpec a), b.spec, 0xFF, 0, 0⟩
  | .vabs g t sat d a => some ⟨0x80, g.code, t.code, (vSpec d), (vSpec a), 0xFF, 0xFF, (flag4 sat 3), 0⟩
  | .vneg g t sat d a => some ⟨0x81, g.code, t.code, (vSpec d), (vSpec a), 0xFF, 0xFF, (flag4 sat 3), 0⟩
  | .vcmp g t cc tot d a b => some ⟨0x82, g.code, t.code, (vSpec d), (vSpec a), b.spec, 0xFF, (cc.code ||| flag4 tot 3), 0⟩
  | .vsel g t d a b c => some ⟨0x83, g.code, t.code, (vSpec d), a.spec, b.spec, (vSpec c), 0, 0⟩
  | .vand g t d a b => some ⟨0x84, g.code, t.code, (vSpec d), (vSpec a), b.spec, 0xFF, 0, 0⟩
  | .vor g t d a b => some ⟨0x85, g.code, t.code, (vSpec d), (vSpec a), b.spec, 0xFF, 0, 0⟩
  | .vxor g t d a b => some ⟨0x86, g.code, t.code, (vSpec d), (vSpec a), b.spec, 0xFF, 0, 0⟩
  | .vshl g t d a b => some ⟨0x87, g.code, t.code, (vSpec d), (vSpec a), b.spec, 0xFF, 0, 0⟩
  | .vshr g t d a b => some ⟨0x88, g.code, t.code, (vSpec d), (vSpec a), b.spec, 0xFF, 0, 0⟩
  | .vsha g t d a b => some ⟨0x89, g.code, t.code, (vSpec d), (vSpec a), b.spec, 0xFF, 0, 0⟩
  | .vcvt g t rc sat d a src => some ⟨0x8A, g.code, t.code, (vSpec d), (vSpec a), 0xFF, 0xFF, (rc.code ||| flag4 sat 3), (immOf [(0, src.code.toNat)])⟩
  | .vpack g d a src => some ⟨0x8B, g.code, 0xE, (vSpec d), (vSpec a), 0xFF, 0xFF, 0, (immOf [(0, src.code.toNat)])⟩
  | .vunpk g t rc d a => some ⟨0x8C, g.code, t.code, (vSpec d), (vSpec a), 0xFF, 0xFF, rc.code, 0⟩
  | .vred g t rc sat d a fn => some ⟨0x8D, g.code, t.code, d.spec, (vSpec a), 0xFF, 0xFF, (rc.code ||| flag4 sat 3), (immOf [(0, fn.code.toNat)])⟩
  | .vscan g t rc sat d a fn => some ⟨0x8E, g.code, t.code, (vSpec d), (vSpec a), 0xFF, 0xFF, (rc.code ||| flag4 sat 3), (immOf [(0, fn.code.toNat)])⟩
  | .vperm g t d a b => some ⟨0x8F, g.code, t.code, (vSpec d), (vSpec a), (vSpec b), 0xFF, 0, 0⟩
  | .vslide g t d a b c => some ⟨0x90, g.code, t.code, (vSpec d), (vSpec a), b.spec, (optS c), 0, 0⟩
  | .vgath g t sh d a b => some ⟨0x91, g.code, t.code, (vSpec d), (sSpec a), (vSpec b), 0xFF, (BitVec.ofFin sh), 0⟩
  | .vscat g t sh d a b => some ⟨0x92, g.code, t.code, (vSpec d), (sSpec a), (vSpec b), 0xFF, (BitVec.ofFin sh), 0⟩
  | .vsf g t rc d a fn => some ⟨0x93, g.code, t.code, (vSpec d), (vSpec a), 0xFF, 0xFF, rc.code, (immOf [(0, fn.code.toNat)])⟩
  | .vmacw g t rc sat d a b => some ⟨0x94, g.code, t.code, (vSpec d), (vSpec a), b.spec, 0xFF, (rc.code ||| flag4 sat 3), 0⟩
  | .vaddw g t rc sat d a b => some ⟨0x95, g.code, t.code, (vSpec d), (vSpec a), b.spec, 0xFF, (rc.code ||| flag4 sat 3), 0⟩
  | .vclass g t d a => some ⟨0x96, g.code, t.code, (vSpec d), (vSpec a), 0xFF, 0xFF, 0, 0⟩
  | .vround g t rc exact d a => some ⟨0x97, g.code, t.code, (vSpec d), (vSpec a), 0xFF, 0xFF, (rc.code ||| flag4 exact 3), 0⟩
  | .vtrn g t d a => some ⟨0x98, g.code, t.code, (vSpec d), (vSpec a), 0xFF, 0xFF, 0, 0⟩
  | .vdot g t rc d a b c => some ⟨0x99, g.code, t.code, (vSpec d), (vSpec a), (vSpec b), (optV c), rc.code, 0⟩
  | .mclaim g => some ⟨0xA0, g.code, 0xF, 0xFF, 0xFF, 0xFF, 0xFF, 0, 0⟩
  | .mrls g => some ⟨0xA1, g.code, 0xF, 0xFF, 0xFF, 0xFF, 0xFF, 0, 0⟩
  | .tld g tr d a b c => some ⟨0xA2, g.code, 0xF, (tSpec d), a.spec, b.spec, c.spec, (flag4 tr 0), 0⟩
  | .tst g tr d a b c => some ⟨0xA3, g.code, 0xF, (tSpec d), a.spec, b.spec, c.spec, (flag4 tr 0), 0⟩
  | .tzero g d => some ⟨0xA4, g.code, 0xF, (tSpec d), 0xFF, 0xFF, 0xFF, 0, 0⟩
  | .tmov g d a => some ⟨0xA5, g.code, 0xF, (tSpec d), (tSpec a), 0xFF, 0xFF, 0, 0⟩
  | .tcvt g t rc d a c => some ⟨0xA6, g.code, t.code, (tSpec d), (tSpec a), 0xFF, (optA c), rc.code, 0⟩
  | .mma g t rc d a b => some ⟨0xA7, g.code, t.code, (aSpec d), (tSpec a), (tSpec b), 0xFF, rc.code, 0⟩
  | .gmma g t rc d a b grp => some ⟨0xA8, g.code, t.code, (aSpec d), (tSpec a), (tSpec b), 0xFF, rc.code, (immOf [(0, grp.toNat)])⟩
  | .mmas g t rc d a b => some ⟨0xA9, g.code, t.code, (aSpec d), (tSpec a), (tSpec b), 0xFF, rc.code, 0⟩
  | .azero g d => some ⟨0xAA, g.code, 0xF, (aSpec d), 0xFF, 0xFF, 0xFF, 0, 0⟩
  | .adrain g t fn d a b c scale brow rc => some ⟨0xAB, g.code, t.code, d.spec, (aSpec a), (optT b), (optT c), fn.code, (immOf [(0, scale.toNat), (32, Bits.b2n brow), (33, rc.code.toNat)])⟩
  | .astat g d a => some ⟨0xAC, g.code, 0xF, (sSpec d), (aSpec a), 0xFF, 0xFF, 0, 0⟩
  | .aclr g d => some ⟨0xAD, g.code, 0xF, (aSpec d), 0xFF, 0xFF, 0xFF, 0, 0⟩
  | .bcmp g t pr d a b m n nan => some ⟨0xB0, g.code, t.code, (bSpec d), (vSpec a), (vSpec b), 0xFF, pr.code, (immOf [(0, m.toNat), (6, n.toNat), (12, nan.code.toNat)])⟩
  | .bpopr g d a => some ⟨0xB1, g.code, 0xF, (vSpec d), (bSpec a), 0xFF, 0xFF, 0, 0⟩
  | .bpopc g d a => some ⟨0xB2, g.code, 0xF, (vSpec d), (bSpec a), 0xFF, 0xFF, 0, 0⟩
  | .bfirst g d a => some ⟨0xB3, g.code, 0xF, (vSpec d), (bSpec a), 0xFF, 0xFF, 0, 0⟩
  | .bclos g refl d a => some ⟨0xB4, g.code, 0xF, (bSpec d), (bSpec a), 0xFF, 0xFF, (flag4 refl 0), 0⟩
  | .bcomp g d a b => some ⟨0xB5, g.code, 0xF, (bSpec d), (bSpec a), (bSpec b), 0xFF, 0, 0⟩
  | .btrn g d a => some ⟨0xB6, g.code, 0xF, (bSpec d), (bSpec a), 0xFF, 0xFF, 0, 0⟩
  | .blog g fn d a b => some ⟨0xB7, g.code, 0xF, (bSpec d), (bSpec a), (optB b), 0xFF, fn.code, 0⟩
  | .bld g d m => some ⟨0xB8, g.code, 0xF, (bSpec d), m.aSpec, m.bSpec, 0xFF, 0, m.imm⟩
  | .bst g d m => some ⟨0xB9, g.code, 0xF, (bSpec d), m.aSpec, m.bSpec, 0xFF, 0, m.imm⟩
  | .bzero g d => some ⟨0xBA, g.code, 0xF, (bSpec d), 0xFF, 0xFF, 0xFF, 0, 0⟩
  | .beye g d => some ⟨0xBB, g.code, 0xF, (bSpec d), 0xFF, 0xFF, 0xFF, 0, 0⟩
  | .phase g scope => some ⟨0xC0, g.code, 0xF, 0xFF, 0xFF, 0xFF, 0xFF, (code8 scope), 0⟩
  | .xmit g d a stamp => some ⟨0xC1, g.code, 0xF, (Link.spec d), a.spec, 0xFF, 0xFF, 0, (immOf [(0, stamp.toNat)])⟩
  | .xrcv g d a stamp count => some ⟨0xC2, g.code, 0xF, (sSpec d), (Link.spec a), 0xFF, 0xFF, 0, (immOf [(0, stamp.toNat), (16, count.toNat)])⟩
  | .xsel g d a stamp count => some ⟨0xC3, g.code, 0xF, (Link.spec d), a.spec, 0xFF, 0xFF, 0, (immOf [(0, stamp.toNat), (16, count.toNat)])⟩
  | .xidle g stamp count => some ⟨0xC4, g.code, 0xF, 0xFF, 0xFF, 0xFF, 0xFF, 0, (immOf [(0, stamp.toNat), (16, count.toNat)])⟩
  | .pend g => some ⟨0xC5, g.code, 0xF, 0xFF, 0xFF, 0xFF, 0xFF, 0, 0⟩
  | .capp g d a b nsb => some ⟨0xD0, g.code, 0xF, (optS d), (sSpec a), b.spec, 0xFF, 0, (immOf [(0, Bits.b2n nsb)])⟩
  | .cwait g a b lim => some ⟨0xD1, g.code, 0xF, 0xFF, a.spec, b.spec, 0xFF, 0, (immOf [(0, lim.toNat)])⟩
  | .cseq g d a => some ⟨0xD2, g.code, 0xF, (sSpec d), a.spec, 0xFF, 0xFF, 0, 0⟩
  | .cfence g mask => some ⟨0xD3, g.code, 0xF, 0xFF, 0xFF, 0xFF, 0xFF, 0, (immOf [(0, mask.toNat)])⟩
  | .cstat g clear d a => some ⟨0xD4, g.code, 0xF, (sSpec d), a.spec, 0xFF, 0xFF, (flag4 clear 0), 0⟩
  | .tdef g c5 quiet d c m => some ⟨0xE0, g.code, 0xF, (optS d), m.aSpec, m.bSpec, c.spec, (flag4 c5 0 ||| flag4 quiet 3), m.imm⟩
  | .tqry g fn d a => some ⟨0xE1, g.code, 0xF, (sSpec d), a.spec, 0xFF, 0xFF, fn.code, 0⟩
  | .pissue g c5 quiet d c m => some ⟨0xE2, g.code, 0xF, (optS d), m.aSpec, m.bSpec, c.spec, (flag4 c5 0 ||| flag4 quiet 3), m.imm⟩
  | .predeem g c5 ntr quiet d m => some ⟨0xE3, g.code, 0xF, (optS d), m.aSpec, m.bSpec, 0xFF, (flag4 c5 0 ||| flag4 ntr 1 ||| flag4 quiet 3), m.imm⟩
  | .pexpire g c5 quiet d m => some ⟨0xE4, g.code, 0xF, (optS d), m.aSpec, m.bSpec, 0xFF, (flag4 c5 0 ||| flag4 quiet 3), m.imm⟩
  | .pstat g d m => some ⟨0xE5, g.code, 0xF, (sSpec d), m.aSpec, m.bSpec, 0xFF, 0, m.imm⟩
  | .trap g code => some ⟨0xF0, g.code, 0xF, 0xFF, 0xFF, 0xFF, 0xFF, 0, (immOf [(0, code.toNat)])⟩
  | .rft g => some ⟨0xF1, g.code, 0xF, 0xFF, 0xFF, 0xFF, 0xFF, 0, 0⟩
  | .mfs g d num => some ⟨0xF2, g.code, 0xF, (sSpec d), 0xFF, 0xFF, 0xFF, 0, (immOf [(0, num.toNat)])⟩
  | .mts g a num => some ⟨0xF3, g.code, 0xF, 0xFF, (sSpec a), 0xFF, 0xFF, 0, (immOf [(0, num.toNat)])⟩
  | .rdring g dw d a => some ⟨0xF4, g.code, 0xF, (sSpec d), a.spec, 0xFF, 0xFF, (code8 dw), 0⟩
  | .snap g => some ⟨0xF5, g.code, 0xF, 0xFF, 0xFF, 0xFF, 0xFF, 0, 0⟩
  | .xinv g all m => some ⟨0xF6, g.code, 0xF, 0xFF, m.aSpec, m.bSpec, 0xFF, (flag4 all 0), m.imm⟩
  | .seed g a => some ⟨0xF7, g.code, 0xF, 0xFF, (sSpec a), 0xFF, 0xFF, 0, 0⟩
  | .halt g => some ⟨0xF8, g.code, 0xF, 0xFF, 0xFF, 0xFF, 0xFF, 0, 0⟩
  | .dbrk g code => some ⟨0xF9, g.code, 0xF, 0xFF, 0xFF, 0xFF, 0xFF, 0, (immOf [(0, code.toNat)])⟩
  | .save g m => some ⟨0xFA, g.code, 0xF, 0xFF, m.aSpec, m.bSpec, 0xFF, 0, m.imm⟩
  | .gswitch g fn d a b => some ⟨0xFB, g.code, 0xF, (optS d), (sSpec a), (sSpec b), 0xFF, fn.code, 0⟩
  | .pcnt g d ctr clear => some ⟨0xFC, g.code, 0xF, (sSpec d), 0xFF, 0xFF, 0xFF, 0, (immOf [(0, ctr.toNat), (8, Bits.b2n clear)])⟩
  | .unassignedOpcode w => some (Fields.ofSlot w)
  | .controlRegisterWrite _ _ => none
  | .einjArm _ _ _ => none
  | .quantumExpiry _ => none
  | .remoteAnswer _ _ => none
  | .writeBack _ => none
  | .accumulateArrival _ => none
  | .accumulateWindowEnd _ => none
  | .refusalReturn _ _ => none
  | .insistentAck _ _ => none
  | .residualAgeExpiry _ => none
  | .barrierComplete _ _ => none
  | .phaseBarrierComplete _ _ => none
  | .pccLimit _ => none
  | .taskPop _ _ => none
  | .taskAging _ _ _ => none
  | .queueSlotResume _ _ => none
  | .waitLimitExpiry _ _ => none
  | .waiteReport _ _ => none
  | .queueRetry _ _ => none
  | .claimHandover _ => none
  | .followerMarker _ => none
  | .forwardedGroup _ => none
  | .vrepPass _ _ => none
  | .dispatchedComplete _ _ => none
  | .arrayFormStart _ => none
  | .gmmaJoin _ => none
  | .gmmaJoinTimeout _ => none
  | .impreciseFaultDelivery _ _ => none
  | .engineErrorDelivery _ _ => none
  | .commandBegin _ _ => none
  | .chainFenceRelease _ _ => none
  | .copy _ _ => none
  | .copyt _ _ => none
  | .gath _ _ => none
  | .scat _ _ => none
  | .fill _ _ => none
  | .cmdSignal _ _ => none
  | .stash _ _ => none
  | .unstash _ _ => none
  | .nmuSgd _ _ => none
  | .nmuAdamw _ _ => none
  | .nmuScale _ _ => none
  | .collMatch _ => none
  | .collAg _ => none
  | .collShardArrival _ _ => none
  | .collRs _ => none
  | .collAr _ => none
  | .collBc _ => none
  | .collXor _ => none
  | .tensorDefine _ _ => none
  | .promiseIssue _ _ => none
  | .promiseRedeem _ _ => none
  | .promiseExpire _ _ => none
  | .dieLoss _ _ => none
  | .rowFailure _ _ _ => none
  | .hbmChannelRetire _ _ _ => none
  | .correctedErrorThreshold _ _ => none
  | .linkRetrain _ _ => none
  | .permitAudit _ _ _ => none
  | .firmwareReplacement _ _ _ => none
  | .hbmRecalibration _ _ _ => none
  | .boot _ _ _ => none
  | .seroanStateAccess _ _ _ _ _ => none
  | .seroanBreakpoint _ _ _ => none
  | .acceptanceAnswer _ _ => none
  | .xinvAcknowledged _ _ => none
  | .streamNop  => none
  | .streamLaunch  => none
  | .waits  => none
  | .waitsSatisfied  => none
  | .streamSignal  => none
  | .gstamp  => none
  | .csctlClr  => none
  | .launchAccept  => none
  | .gangComplete  => none
  | .superstepCommit  => none
  | .seedComplete  => none
  | .pairedCopyStart  => none
  | .pairedMessageCompare  => none
  | .pairedMismatchTimeout  => none
  | .wideUnitStart  => none
  | .vsfQueueExit  => none
  | .gangSwitchStop  => none
  | .gangResume  => none
  | .stopTimeout  => none
  | .poisonConsumed  => none
  | .packageLoss  => none
  | .powerThermalLimit  => none
  | .internalMachineCheck  => none
  | .attestation  => none
  | .seroanAttach  => none
  | .seroanResume  => none

/-- R55, R68: the issue port of a word. -/
def portOf (f : Fields) : Port :=
  match form f.op.toNat with
  | some r => r.port
  | none => .none

end Sys2Proof
end

