-- ==== Sys2Proof/WellFormed.lean ====
section
/-! DEFINITION. Which instructions are well formed: those whose fields pass every check the spec makes on a word
(R62 unused and reserved fields, R59 types, R60 operand classes, and the rules of each form). -/
namespace Sys2Proof

/-- An instruction is well formed when its fields pass the decode checks of R69. A step that no word names is well formed;
the word of UNASSIGNED_OPCODE must name an unassigned opcode (R67). -/
def WellFormed (i : Instr) : Prop :=
  match i with
  | .unassignedOpcode w => assigned (Fields.ofSlot w).op = false
  | i => ∀ f, i.fields = some f → check true f = none

/-- The same as a Bool, for tests. -/
def wellFormed (i : Instr) : Bool :=
  match i with
  | .unassignedOpcode w => !assigned (Fields.ofSlot w).op
  | i => match i.fields with
    | some f => (check true f).isNone
    | none => true

end Sys2Proof
end

