-- ==== Sys2Proof/Decode.lean ====
section
/-! DEFINITION. The decoder: total on any 96 bits, refusing by name, and after it the encoder, both from the encoding
tables of the spec (R58 to R70). -/
namespace Sys2Proof

/-- Why a slot is not an instruction (R69). -/
inductive DecodeError where
  | unassigned | reserved | operand | type | link | supervisor
deriving DecidableEq, Repr

/-- R69: the cause a refused slot raises. -/
def DecodeError.cause : DecodeError → Nat
  | .unassigned => 0x01
  | .reserved => 0x02
  | .operand => 0x03
  | .type => 0x04
  | .link => 0x07
  | .supervisor => 0x0E

/-- The error of a cause of `check`. -/
def DecodeError.ofCause (c : Nat) : DecodeError :=
  match c with
  | 1 => .unassigned
  | 2 => .reserved
  | 4 => .type
  | _ => .operand

/-- The instruction of fields that passed every check (R58). -/
def build (f : Fields) : Instr :=
  match f.op.toNat with
  | 0x00 => .nop
  | 0x01 => .add (Guard.ofFields f.g) (Ty.ofCode f.t) (bit4 f.fn 0) (Opnd.ofSpec f.d) (Opnd.ofSpec f.a) (Opnd.ofSpec f.b)
  | 0x02 => .sub (Guard.ofFields f.g) (Ty.ofCode f.t) (bit4 f.fn 0) (Opnd.ofSpec f.d) (Opnd.ofSpec f.a) (Opnd.ofSpec f.b)
  | 0x03 => .mul (Guard.ofFields f.g) (Ty.ofCode f.t) (bit4 f.fn 0) (Opnd.ofSpec f.d) (Opnd.ofSpec f.a) (Opnd.ofSpec f.b)
  | 0x04 => .mulh (Guard.ofFields f.g) (Ty.ofCode f.t) (Opnd.ofSpec f.d) (Opnd.ofSpec f.a) (Opnd.ofSpec f.b)
  | 0x05 => .div (Guard.ofFields f.g) (Ty.ofCode f.t) (Opnd.ofSpec f.d) (Opnd.ofSpec f.a) (Opnd.ofSpec f.b)
  | 0x06 => .rem (Guard.ofFields f.g) (Ty.ofCode f.t) (Opnd.ofSpec f.d) (Opnd.ofSpec f.a) (Opnd.ofSpec f.b)
  | 0x07 => .and (Guard.ofFields f.g) (Ty.ofCode f.t) (Opnd.ofSpec f.d) (Opnd.ofSpec f.a) (Opnd.ofSpec f.b)
  | 0x08 => .or (Guard.ofFields f.g) (Ty.ofCode f.t) (Opnd.ofSpec f.d) (Opnd.ofSpec f.a) (Opnd.ofSpec f.b)
  | 0x09 => .xor (Guard.ofFields f.g) (Ty.ofCode f.t) (Opnd.ofSpec f.d) (Opnd.ofSpec f.a) (Opnd.ofSpec f.b)
  | 0x0A => .andn (Guard.ofFields f.g) (Ty.ofCode f.t) (Opnd.ofSpec f.d) (Opnd.ofSpec f.a) (Opnd.ofSpec f.b)
  | 0x0B => .shl (Guard.ofFields f.g) (Ty.ofCode f.t) (Opnd.ofSpec f.d) (Opnd.ofSpec f.a) (Opnd.ofSpec f.b)
  | 0x0C => .shr (Guard.ofFields f.g) (Ty.ofCode f.t) (Opnd.ofSpec f.d) (Opnd.ofSpec f.a) (Opnd.ofSpec f.b)
  | 0x0D => .sha (Guard.ofFields f.g) (Ty.ofCode f.t) (Opnd.ofSpec f.d) (Opnd.ofSpec f.a) (Opnd.ofSpec f.b)
  | 0x0E => .rot (Guard.ofFields f.g) (Ty.ofCode f.t) (Opnd.ofSpec f.d) (Opnd.ofSpec f.a) (Opnd.ofSpec f.b)
  | 0x0F => .min (Guard.ofFields f.g) (Ty.ofCode f.t) (Opnd.ofSpec f.d) (Opnd.ofSpec f.a) (Opnd.ofSpec f.b)
  | 0x10 => .max (Guard.ofFields f.g) (Ty.ofCode f.t) (Opnd.ofSpec f.d) (Opnd.ofSpec f.a) (Opnd.ofSpec f.b)
  | 0x11 => .cmp (Guard.ofFields f.g) (Ty.ofCode f.t) (Cond.ofCode f.fn) (tNum f.d) (Opnd.ofSpec f.a) (Opnd.ofSpec f.b)
  | 0x12 => .sel (Guard.ofFields f.g) (Opnd.ofSpec f.d) (Opnd.ofSpec f.a) (Opnd.ofSpec f.b) (tNum f.c)
  | 0x13 => .clz (Guard.ofFields f.g) (Ty.ofCode f.t) (Opnd.ofSpec f.d) (Opnd.ofSpec f.a)
  | 0x14 => .ctz (Guard.ofFields f.g) (Ty.ofCode f.t) (Opnd.ofSpec f.d) (Opnd.ofSpec f.a)
  | 0x15 => .popc (Guard.ofFields f.g) (Ty.ofCode f.t) (Opnd.ofSpec f.d) (Opnd.ofSpec f.a)
  | 0x16 => .brev (Guard.ofFields f.g) (Ty.ofCode f.t) (Opnd.ofSpec f.d) (Opnd.ofSpec f.a)
  | 0x17 => .ext (Guard.ofFields f.g) (Ty.ofCode f.t) (Opnd.ofSpec f.d) (Opnd.ofSpec f.a) (ExtField.ofFields f)
  | 0x18 => .ins (Guard.ofFields f.g) (Ty.ofCode f.t) (Opnd.ofSpec f.d) (Opnd.ofSpec f.a) (Opnd.ofSpec f.b) (immFld f.imm 0 6) (immFld f.imm 6 6)
  | 0x19 => .addi (Guard.ofFields f.g) (Ty.ofCode f.t) (Opnd.ofSpec f.d) (Opnd.ofSpec f.a) (f.imm)
  | 0x1A => .movi (Guard.ofFields f.g) (Ty.ofCode f.t) (Opnd.ofSpec f.d) (f.imm)
  | 0x1B => .movh (Guard.ofFields f.g) (Opnd.ofSpec f.d) (sOpt f.a) (immFld f.imm 0 20)
  | 0x1C => .lea (Guard.ofFields f.g) (sNum f.d) (Mem.ofFields f)
  | 0x1D => .mov (Guard.ofFields f.g) (Opnd.ofSpec f.d) (Opnd.ofSpec f.a)
  | 0x1E => .plog (Guard.ofFields f.g) (PlogFn.ofCode f.fn) (tNum f.d) (tNum f.a) (pOpt f.b)
  | 0x1F => .chk (Guard.ofFields f.g) (Ty.ofCode f.t) (Opnd.ofSpec f.a) (Opnd.ofSpec f.b) (Opnd.ofSpec f.c)
  | 0x20 => .br (Guard.ofFields f.g) (Target.ofImm f.imm)
  | 0x21 => .brx (Guard.ofFields f.g) (sNum f.a)
  | 0x22 => .call (Guard.ofFields f.g) (Target.ofImm f.imm)
  | 0x23 => .callx (Guard.ofFields f.g) (sNum f.a)
  | 0x24 => .ret (Guard.ofFields f.g)
  | 0x25 => .loop (Guard.ofFields f.g) (sNum f.a) (Target.ofImm f.imm)
  | 0x26 => .yield (Guard.ofFields f.g)
  | 0x27 => .follow (Guard.ofFields f.g) (Dir.ofCode f.fn) (Opnd.ofSpec f.a)
  | 0x28 => .detach (Guard.ofFields f.g)
  | 0x29 => .lead (Guard.ofFields f.g) (Opnd.ofSpec f.a)
  | 0x40 => .ld (Guard.ofFields f.g) (Ty.ofCode f.t) (Opnd.ofSpec f.d) (Mem.ofFields f)
  | 0x41 => .st (Guard.ofFields f.g) (Ty.ofCode f.t) (Opnd.ofSpec f.d) (Mem.ofFields f)
  | 0x42 => .ldv (Guard.ofFields f.g) (sNum f.d) (Mem.ofFields f) (strideOf f)
  | 0x43 => .stv (Guard.ofFields f.g) (sNum f.d) (Mem.ofFields f) (strideOf f)
  | 0x44 => .ldl (Guard.ofFields f.g) (Ty.ofCode f.t) (sNum f.d) (Mem.ofFields f)
  | 0x45 => .pref (Guard.ofFields f.g) (bit4 f.fn 0) (Mem.ofFields f)
  | 0x46 => .wbl (Guard.ofFields f.g) (bit4 f.fn 0) (Mem.ofFields f)
  | 0x47 => .disc (Guard.ofFields f.g) (bit4 f.fn 0) (sNum f.c) (Mem.ofFields f)
  | 0x48 => .xlat (Guard.ofFields f.g) (XlatKind.ofCode f.fn) (sNum f.d) (Mem.ofFields f)
  | 0x50 => .amo (Guard.ofFields f.g) (Ty.ofCode f.t) (AmoFn.ofCode f.fn) (sOpt f.d) (Opnd.ofSpec f.c) (Mem.ofFields f)
  | 0x51 => .cas (Guard.ofFields f.g) (Ty.ofCode f.t) (sNum f.d) (Opnd.ofSpec f.c) (Mem.ofFields f)
  | 0x52 => .acc (Guard.ofFields f.g) (Ty.ofCode f.t) (bit4 f.fn 3) (sNum f.d) (Mem.ofFields f)
  | 0x53 => .accv (Guard.ofFields f.g) (Ty.ofCode f.t) (bit4 f.fn 3) (sNum f.d) (Mem.ofFields f)
  | 0x54 => .rflush (Guard.ofFields f.g) (Reach.ofCode f.fn)
  | 0x55 => .rstat (Guard.ofFields f.g) (sNum f.d)
  | 0x56 => .xrd (Guard.ofFields f.g) (sNum f.d) (Mem.ofFields f)
  | 0x57 => .xclr (Guard.ofFields f.g) (Opnd.ofSpec f.c) (Mem.ofFields f)
  | 0x58 => .fld (Guard.ofFields f.g) (sNum f.d) (sOpt f.c) (Mem.ofFields f)
  | 0x59 => .fst (Guard.ofFields f.g) (sNum f.d) (Mem.ofFields f)
  | 0x5A => .frst (Guard.ofFields f.g) (Mem.ofFields f)
  | 0x60 => .bar (Guard.ofFields f.g) (fin8 f.fn)
  | 0x61 => .sstep (Guard.ofFields f.g)
  | 0x62 => .spawn (Guard.ofFields f.g) (Mem.ofFields f)
  | 0x63 => .done (Guard.ofFields f.g)
  | 0x64 => .join (Guard.ofFields f.g) (sOpt f.d) (Mem.ofFields f)
  | 0x65 => .qput (Guard.ofFields f.g) (sNum f.a) (Opnd.ofSpec f.b) (immFld f.imm 0 24)
  | 0x66 => .qget (Guard.ofFields f.g) (sNum f.d) (sNum f.a) (immFld f.imm 0 24)
  | 0x67 => .waite (Guard.ofFields f.g) (Ty.ofCode f.t) (Cond.ofCode f.fn) (sOpt f.d) (sNum f.a) (Opnd.ofSpec f.b) (immFld f.imm 0 24)
  | 0x68 => .fence (Guard.ofFields f.g) (Reach.ofCode f.fn)
  | 0x69 => .launch (Guard.ofFields f.g) (sNum f.d) (sOpt f.c) (Mem.ofFields f)
  | 0x6A => .gtime (Guard.ofFields f.g) (sNum f.d)
  | 0x70 => .vshape (Guard.ofFields f.g) (VshSrc.ofFields f)
  | 0x71 => .vrep (Guard.ofFields f.g) (immFld f.imm 0 8) (immFld f.imm 8 4) (immFld f.imm 12 3)
  | 0x72 => .vmov (Guard.ofFields f.g) (sNum f.d) (sNum f.a)
  | 0x73 => .vbcast (Guard.ofFields f.g) (Ty.ofCode f.t) (sNum f.d) (Opnd.ofSpec f.a) (Opnd.ofSpec f.b)
  | 0x74 => .vext (Guard.ofFields f.g) (Ty.ofCode f.t) (sNum f.d) (sNum f.a) (Opnd.ofSpec f.b)
  | 0x75 => .vins (Guard.ofFields f.g) (Ty.ofCode f.t) (sNum f.d) (Opnd.ofSpec f.a) (Opnd.ofSpec f.b)
  | 0x76 => .vadd (Guard.ofFields f.g) (Ty.ofCode f.t) (Rc.ofCode (f.fn &&& 7)) (bit4 f.fn 3) (sNum f.d) (sNum f.a) (Opnd.ofSpec f.b)
  | 0x77 => .vsub (Guard.ofFields f.g) (Ty.ofCode f.t) (Rc.ofCode (f.fn &&& 7)) (bit4 f.fn 3) (sNum f.d) (sNum f.a) (Opnd.ofSpec f.b)
  | 0x78 => .vmul (Guard.ofFields f.g) (Ty.ofCode f.t) (Rc.ofCode (f.fn &&& 7)) (bit4 f.fn 3) (sNum f.d) (sNum f.a) (Opnd.ofSpec f.b)
  | 0x79 => .vfma (Guard.ofFields f.g) (Ty.ofCode f.t) (Rc.ofCode (f.fn &&& 7)) (bit4 f.fn 3) (sNum f.d) (sNum f.a) (Opnd.ofSpec f.b) (Opnd.ofSpec f.c)
  | 0x7A => .vfms (Guard.ofFields f.g) (Ty.ofCode f.t) (Rc.ofCode (f.fn &&& 7)) (bit4 f.fn 3) (sNum f.d) (sNum f.a) (Opnd.ofSpec f.b) (Opnd.ofSpec f.c)
  | 0x7B => .vfnma (Guard.ofFields f.g) (Ty.ofCode f.t) (Rc.ofCode (f.fn &&& 7)) (bit4 f.fn 3) (sNum f.d) (sNum f.a) (Opnd.ofSpec f.b) (Opnd.ofSpec f.c)
  | 0x7C => .vdiv (Guard.ofFields f.g) (Ty.ofCode f.t) (Rc.ofCode f.fn) (sNum f.d) (sNum f.a) (Opnd.ofSpec f.b)
  | 0x7D => .vsqrt (Guard.ofFields f.g) (Ty.ofCode f.t) (Rc.ofCode f.fn) (sNum f.d) (sNum f.a)
  | 0x7E => .vmin (Guard.ofFields f.g) (Ty.ofCode f.t) (sNum f.d) (sNum f.a) (Opnd.ofSpec f.b)
  | 0x7F => .vmax (Guard.ofFields f.g) (Ty.ofCode f.t) (sNum f.d) (sNum f.a) (Opnd.ofSpec f.b)
  | 0x80 => .vabs (Guard.ofFields f.g) (Ty.ofCode f.t) (bit4 f.fn 3) (sNum f.d) (sNum f.a)
  | 0x81 => .vneg (Guard.ofFields f.g) (Ty.ofCode f.t) (bit4 f.fn 3) (sNum f.d) (sNum f.a)
  | 0x82 => .vcmp (Guard.ofFields f.g) (Ty.ofCode f.t) (Cond.ofCode (f.fn &&& 7)) (bit4 f.fn 3) (sNum f.d) (sNum f.a) (Opnd.ofSpec f.b)
  | 0x83 => .vsel (Guard.ofFields f.g) (Ty.ofCode f.t) (sNum f.d) (Opnd.ofSpec f.a) (Opnd.ofSpec f.b) (sNum f.c)
  | 0x84 => .vand (Guard.ofFields f.g) (Ty.ofCode f.t) (sNum f.d) (sNum f.a) (Opnd.ofSpec f.b)
  | 0x85 => .vor (Guard.ofFields f.g) (Ty.ofCode f.t) (sNum f.d) (sNum f.a) (Opnd.ofSpec f.b)
  | 0x86 => .vxor (Guard.ofFields f.g) (Ty.ofCode f.t) (sNum f.d) (sNum f.a) (Opnd.ofSpec f.b)
  | 0x87 => .vshl (Guard.ofFields f.g) (Ty.ofCode f.t) (sNum f.d) (sNum f.a) (Opnd.ofSpec f.b)
  | 0x88 => .vshr (Guard.ofFields f.g) (Ty.ofCode f.t) (sNum f.d) (sNum f.a) (Opnd.ofSpec f.b)
  | 0x89 => .vsha (Guard.ofFields f.g) (Ty.ofCode f.t) (sNum f.d) (sNum f.a) (Opnd.ofSpec f.b)
  | 0x8A => .vcvt (Guard.ofFields f.g) (Ty.ofCode f.t) (Rc.ofCode (f.fn &&& 7)) (bit4 f.fn 3) (sNum f.d) (sNum f.a) (Ty.ofCode (immFld f.imm 0 4))
  | 0x8B => .vpack (Guard.ofFields f.g) (sNum f.d) (sNum f.a) (Ty.ofCode (immFld f.imm 0 4))
  | 0x8C => .vunpk (Guard.ofFields f.g) (Ty.ofCode f.t) (Rc.ofCode f.fn) (sNum f.d) (sNum f.a)
  | 0x8D => .vred (Guard.ofFields f.g) (Ty.ofCode f.t) (Rc.ofCode (f.fn &&& 7)) (bit4 f.fn 3) (Opnd.ofSpec f.d) (sNum f.a) (RedFn.ofCode (immFld f.imm 0 3))
  | 0x8E => .vscan (Guard.ofFields f.g) (Ty.ofCode f.t) (Rc.ofCode (f.fn &&& 7)) (bit4 f.fn 3) (sNum f.d) (sNum f.a) (RedFn.ofCode (immFld f.imm 0 3))
  | 0x8F => .vperm (Guard.ofFields f.g) (Ty.ofCode f.t) (sNum f.d) (sNum f.a) (sNum f.b)
  | 0x90 => .vslide (Guard.ofFields f.g) (Ty.ofCode f.t) (sNum f.d) (sNum f.a) (Opnd.ofSpec f.b) (sOpt f.c)
  | 0x91 => .vgath (Guard.ofFields f.g) (Ty.ofCode f.t) (f.fn.toFin) (sNum f.d) (sNum f.a) (sNum f.b)
  | 0x92 => .vscat (Guard.ofFields f.g) (Ty.ofCode f.t) (f.fn.toFin) (sNum f.d) (sNum f.a) (sNum f.b)
  | 0x93 => .vsf (Guard.ofFields f.g) (Ty.ofCode f.t) (Rc.ofCode f.fn) (sNum f.d) (sNum f.a) (SfFn.ofCode (immFld f.imm 0 4))
  | 0x94 => .vmacw (Guard.ofFields f.g) (Ty.ofCode f.t) (Rc.ofCode (f.fn &&& 7)) (bit4 f.fn 3) (sNum f.d) (sNum f.a) (Opnd.ofSpec f.b)
  | 0x95 => .vaddw (Guard.ofFields f.g) (Ty.ofCode f.t) (Rc.ofCode (f.fn &&& 7)) (bit4 f.fn 3) (sNum f.d) (sNum f.a) (Opnd.ofSpec f.b)
  | 0x96 => .vclass (Guard.ofFields f.g) (Ty.ofCode f.t) (sNum f.d) (sNum f.a)
  | 0x97 => .vround (Guard.ofFields f.g) (Ty.ofCode f.t) (Rc.ofCode (f.fn &&& 7)) (bit4 f.fn 3) (sNum f.d) (sNum f.a)
  | 0x98 => .vtrn (Guard.ofFields f.g) (Ty.ofCode f.t) (sNum f.d) (sNum f.a)
  | 0x99 => .vdot (Guard.ofFields f.g) (Ty.ofCode f.t) (Rc.ofCode f.fn) (sNum f.d) (sNum f.a) (sNum f.b) (vOpt f.c)
  | 0xA0 => .mclaim (Guard.ofFields f.g)
  | 0xA1 => .mrls (Guard.ofFields f.g)
  | 0xA2 => .tld (Guard.ofFields f.g) (bit4 f.fn 0) (tNum f.d) (Opnd.ofSpec f.a) (Opnd.ofSpec f.b) (Opnd.ofSpec f.c)
  | 0xA3 => .tst (Guard.ofFields f.g) (bit4 f.fn 0) (tNum f.d) (Opnd.ofSpec f.a) (Opnd.ofSpec f.b) (Opnd.ofSpec f.c)
  | 0xA4 => .tzero (Guard.ofFields f.g) (tNum f.d)
  | 0xA5 => .tmov (Guard.ofFields f.g) (tNum f.d) (tNum f.a)
  | 0xA6 => .tcvt (Guard.ofFields f.g) (Ty.ofCode f.t) (Rc.ofCode f.fn) (tNum f.d) (tNum f.a) (aOpt f.c)
  | 0xA7 => .mma (Guard.ofFields f.g) (Ty.ofCode f.t) (Rc.ofCode f.fn) (tNum f.d) (tNum f.a) (tNum f.b)
  | 0xA8 => .gmma (Guard.ofFields f.g) (Ty.ofCode f.t) (Rc.ofCode f.fn) (tNum f.d) (tNum f.a) (tNum f.b) (immFld f.imm 0 2)
  | 0xA9 => .mmas (Guard.ofFields f.g) (Ty.ofCode f.t) (Rc.ofCode f.fn) (tNum f.d) (tNum f.a) (tNum f.b)
  | 0xAA => .azero (Guard.ofFields f.g) (tNum f.d)
  | 0xAB => .adrain (Guard.ofFields f.g) (Ty.ofCode f.t) (EpiFn.ofCode f.fn) (Opnd.ofSpec f.d) (tNum f.a) (tOpt f.b) (tOpt f.c) (immFld f.imm 0 32) ((immFld f.imm 32 1 : BitVec 1) == 1) (Rc.ofCode ((immFld f.imm 33 3 : BitVec 3).setWidth 4))
  | 0xAC => .astat (Guard.ofFields f.g) (sNum f.d) (tNum f.a)
  | 0xAD => .aclr (Guard.ofFields f.g) (tNum f.d)
  | 0xB0 => .bcmp (Guard.ofFields f.g) (Ty.ofCode f.t) (BPred.ofCode f.fn) (tNum f.d) (sNum f.a) (sNum f.b) (immFld f.imm 0 6) (immFld f.imm 6 6) (NanMode.ofCode (immFld f.imm 12 2))
  | 0xB1 => .bpopr (Guard.ofFields f.g) (sNum f.d) (tNum f.a)
  | 0xB2 => .bpopc (Guard.ofFields f.g) (sNum f.d) (tNum f.a)
  | 0xB3 => .bfirst (Guard.ofFields f.g) (sNum f.d) (tNum f.a)
  | 0xB4 => .bclos (Guard.ofFields f.g) (bit4 f.fn 0) (tNum f.d) (tNum f.a)
  | 0xB5 => .bcomp (Guard.ofFields f.g) (tNum f.d) (tNum f.a) (tNum f.b)
  | 0xB6 => .btrn (Guard.ofFields f.g) (tNum f.d) (tNum f.a)
  | 0xB7 => .blog (Guard.ofFields f.g) (BlogFn.ofCode f.fn) (tNum f.d) (tNum f.a) (bOpt f.b)
  | 0xB8 => .bld (Guard.ofFields f.g) (tNum f.d) (Mem.ofFields f)
  | 0xB9 => .bst (Guard.ofFields f.g) (tNum f.d) (Mem.ofFields f)
  | 0xBA => .bzero (Guard.ofFields f.g) (tNum f.d)
  | 0xBB => .beye (Guard.ofFields f.g) (tNum f.d)
  | 0xC0 => .phase (Guard.ofFields f.g) (fin8 f.fn)
  | 0xC1 => .xmit (Guard.ofFields f.g) (linkOf f.d) (Opnd.ofSpec f.a) (immFld f.imm 0 16)
  | 0xC2 => .xrcv (Guard.ofFields f.g) (sNum f.d) (linkOf f.a) (immFld f.imm 0 16) (immFld f.imm 16 8)
  | 0xC3 => .xsel (Guard.ofFields f.g) (linkOf f.d) (Opnd.ofSpec f.a) (immFld f.imm 0 16) (immFld f.imm 16 8)
  | 0xC4 => .xidle (Guard.ofFields f.g) (immFld f.imm 0 16) (immFld f.imm 16 8)
  | 0xC5 => .pend (Guard.ofFields f.g)
  | 0xD0 => .capp (Guard.ofFields f.g) (sOpt f.d) (sNum f.a) (Opnd.ofSpec f.b) ((immFld f.imm 0 1 : BitVec 1) == 1)
  | 0xD1 => .cwait (Guard.ofFields f.g) (Opnd.ofSpec f.a) (Opnd.ofSpec f.b) (immFld f.imm 0 24)
  | 0xD2 => .cseq (Guard.ofFields f.g) (sNum f.d) (Opnd.ofSpec f.a)
  | 0xD3 => .cfence (Guard.ofFields f.g) (immFld f.imm 0 8)
  | 0xD4 => .cstat (Guard.ofFields f.g) (bit4 f.fn 0) (sNum f.d) (Opnd.ofSpec f.a)
  | 0xE0 => .tdef (Guard.ofFields f.g) (bit4 f.fn 0) (bit4 f.fn 3) (sOpt f.d) (Opnd.ofSpec f.c) (Mem.ofFields f)
  | 0xE1 => .tqry (Guard.ofFields f.g) (TqryFn.ofCode f.fn) (sNum f.d) (Opnd.ofSpec f.a)
  | 0xE2 => .pissue (Guard.ofFields f.g) (bit4 f.fn 0) (bit4 f.fn 3) (sOpt f.d) (Opnd.ofSpec f.c) (Mem.ofFields f)
  | 0xE3 => .predeem (Guard.ofFields f.g) (bit4 f.fn 0) (bit4 f.fn 1) (bit4 f.fn 3) (sOpt f.d) (Mem.ofFields f)
  | 0xE4 => .pexpire (Guard.ofFields f.g) (bit4 f.fn 0) (bit4 f.fn 3) (sOpt f.d) (Mem.ofFields f)
  | 0xE5 => .pstat (Guard.ofFields f.g) (sNum f.d) (Mem.ofFields f)
  | 0xF0 => .trap (Guard.ofFields f.g) (immFld f.imm 0 16)
  | 0xF1 => .rft (Guard.ofFields f.g)
  | 0xF2 => .mfs (Guard.ofFields f.g) (sNum f.d) (immFld f.imm 0 12)
  | 0xF3 => .mts (Guard.ofFields f.g) (sNum f.a) (immFld f.imm 0 12)
  | 0xF4 => .rdring (Guard.ofFields f.g) (fin8 f.fn) (sNum f.d) (Opnd.ofSpec f.a)
  | 0xF5 => .snap (Guard.ofFields f.g)
  | 0xF6 => .xinv (Guard.ofFields f.g) (bit4 f.fn 0) (Mem.ofFields f)
  | 0xF7 => .seed (Guard.ofFields f.g) (sNum f.a)
  | 0xF8 => .halt (Guard.ofFields f.g)
  | 0xF9 => .dbrk (Guard.ofFields f.g) (immFld f.imm 0 16)
  | 0xFA => .save (Guard.ofFields f.g) (Mem.ofFields f)
  | 0xFB => .gswitch (Guard.ofFields f.g) (GswFn.ofCode f.fn) (sOpt f.d) (sNum f.a) (sNum f.b)
  | 0xFC => .pcnt (Guard.ofFields f.g) (sNum f.d) (immFld f.imm 0 8) ((immFld f.imm 8 1 : BitVec 1) == 1)
  | _ => .unassignedOpcode f.slot

/-- R70: decodes a slot at privilege `sup`, in a line whose PH bit is `ph`. An unassigned major opcode decodes to the
step that raises cause 0x01 (R67). -/
def decode (sup ph : Bool) (w : Slot) : Except DecodeError Instr :=
  let f := Fields.ofSlot w
  match check sup f with
  | some 1 => .ok (.unassignedOpcode w)
  | some c => .error (DecodeError.ofCause c)
  | none =>
    if needsPhase f && !ph then .error .link
    else if needsSup f && !sup then .error .supervisor
    else .ok (build f)

/-- The 96-bit word of an instruction; none for the steps that no word names. -/
def encode (i : Instr) : Option Slot :=
  match i with
  | .unassignedOpcode w => some w
  | i => i.fields.map Fields.slot

/-- Bits 63:0 and 95:64 of the word of an instruction (R71 TINFOA, TINFOB); zero for a step that no word names. -/
def slotOf (i : Instr) : Slot := (encode i).getD 0

/-- The instruction the decoder reads from a slot whose bits are `w`, bits above `nbits` zero. A link operand or a format X
word is an instruction only in a line of a communication phase, so the word is read as standing in such a line, and a
supervisor form as read at supervisor level. -/
def decodeTableWord (nbits w : Nat) : Option Instr :=
  match decode true true (BitVec.ofNat 96 (w % 2 ^ nbits)) with
  | .ok i => some i
  | .error _ => none

end Sys2Proof
end

