-- ==== Sys2Proof/Machine/Numbers.lean ====
section
/-! DEFINITION. Number formats and exact arithmetic (R72 to R91): a float is unpacked into an exact value, the result of an
operation is computed exactly, and one rounding function packs it. -/
namespace Sys2Proof.Num

/-- The rounding modes (R79 RM). -/
inductive Rm where
  | rne | rtz | rup | rdn
deriving DecidableEq, Repr

/-- R79: the mode of RM. -/
def Rm.ofCode (n : Nat) : Rm :=
  match n % 4 with
  | 0 => .rne | 1 => .rtz | 2 => .rup | _ => .rdn

/-- Exception flags in the order of ASR bits 8 to 13: NV, DZ, OF, UF, NX, SA. -/
abbrev Flg := BitVec 6

def NV : Flg := 1
def DZ : Flg := 2
def OF : Flg := 4
def UF : Flg := 8
def NX : Flg := 16
def SA : Flg := 32

/-- `f` if `b`, else no flag. -/
def flagIf (b : Bool) (f : Flg) : Flg := if b then f else 0

/-- A floating format: fraction bits, bias, exponent bits; `top` is the pattern of the largest finite number, and `sat` holds
for the formats that narrow by R78. -/
structure FFmt where
  fb : Nat
  eb : Nat
  sat : Bool
  top : Nat
deriving DecidableEq, Repr

/-- R73, R76: the layouts. -/
def f64 : FFmt := ⟨52, 11, false, 0x7FEFFFFFFFFFFFFF⟩
def f32 : FFmt := ⟨23, 8, false, 0x7F7FFFFF⟩
def f16 : FFmt := ⟨10, 5, false, 0x7BFF⟩
def bf16 : FFmt := ⟨7, 8, false, 0x7F7F⟩
def e4m3 : FFmt := ⟨3, 4, true, 0x7E⟩
def e5m2 : FFmt := ⟨2, 5, true, 0x7B⟩

/-- The format of a floating type code (R59). -/
def fmtOf : Ty → FFmt
  | .f32 => f32
  | .f16 => f16
  | .bf16 => bf16
  | .e4m3 => e4m3
  | .e5m2 => e5m2
  | _ => f64

/-- Width in bits. -/
def FFmt.width (f : FFmt) : Nat := f.fb + f.eb + 1

/-- The sign bit of a pattern. -/
def FFmt.signBit (f : FFmt) : Nat := 2 ^ (f.fb + f.eb)

/-- The exponent of the least significant bit of a subnormal. -/
def FFmt.qmin (f : FFmt) : Int := 2 - (2 ^ (f.eb - 1) : Nat) - f.fb

/-- The exponent of the smallest normal number. -/
def FFmt.emin (f : FFmt) : Int := 2 - (2 ^ (f.eb - 1) : Nat)

/-- The pattern of infinity (all-ones exponent, zero fraction). -/
def FFmt.infPat (f : FFmt) : Nat := (2 ^ f.eb - 1) * 2 ^ f.fb

/-- An unpacked value: a NaN with its sign, whether it signals and its fraction left-aligned to 52 bits; an infinity; or
(−1)^neg · mag · 2^exp, a signed zero when `mag` is 0. -/
inductive Val where
  | nan (neg sig : Bool) (frac : Nat)
  | inf (neg : Bool)
  | fin (neg : Bool) (mag : Nat) (exp : Int)
deriving DecidableEq, Repr

/-- R73: the default NaN. -/
def Val.defaultNaN : Val := .nan false false (2 ^ 51)

def Val.isNaN : Val → Bool
  | .nan _ _ _ => true
  | _ => false

/-- A signalling NaN (R73: a NaN whose fraction's most significant bit is 0). -/
def Val.isSNaN : Val → Bool
  | .nan _ s _ => s
  | _ => false

def Val.isInf : Val → Bool
  | .inf _ => true
  | _ => false

def Val.isZero : Val → Bool
  | .fin _ m _ => m == 0
  | _ => false

/-- The sign of a value. -/
def Val.neg : Val → Bool
  | .nan n _ _ => n
  | .inf n => n
  | .fin n _ _ => n

/-- R75: quieting sets the quiet bit and keeps the sign and the rest of the payload. -/
def Val.quiet : Val → Val
  | .nan n _ f => .nan n false (f ||| 2 ^ 51)
  | v => v

/-- The value with its sign flipped. -/
def Val.flip : Val → Val
  | .nan n s f => .nan n s f
  | .inf n => .inf (!n)
  | .fin n m e => .fin (!n) m e

/-- R73, R76: the value of a pattern. -/
def unpack (f : FFmt) (p : Nat) : Val :=
  let neg := p / f.signBit % 2 == 1
  let m := p % f.signBit
  let ex := m / 2 ^ f.fb
  let fr := m % 2 ^ f.fb
  if f.sat && f.eb = 4 && m = 0x7F then .nan neg false (2 ^ 51)
  else if ex = 2 ^ f.eb - 1 && !(f.sat && f.eb = 4) then
    if fr = 0 then .inf neg
    else if f.sat then .nan neg false (2 ^ 51)
    else .nan neg (fr < 2 ^ (f.fb - 1)) (fr * 2 ^ (52 - f.fb))
  else if ex = 0 then .fin neg fr f.qmin
  else .fin neg (2 ^ f.fb + fr) (f.qmin + ex - 1)

/-- Rounds `mag`·2^`exp` to an integral multiple of 2^`q`: the multiple, and whether it differs. -/
def roundAt (rm : Rm) (neg : Bool) (mag : Nat) (exp q : Int) : Nat × Bool :=
  if q ≤ exp then (mag <<< (exp - q).toNat, false)
  else
    let s := (q - exp).toNat
    let hi := mag >>> s
    let lo := mag % 2 ^ s
    let half := 2 ^ (s - 1)
    let up := match rm with
      | .rne => lo > half || (lo == half && hi % 2 == 1)
      | .rtz => false
      | .rup => !neg && lo ≠ 0
      | .rdn => neg && lo ≠ 0
    (if up then hi + 1 else hi, lo ≠ 0)

/-- The pattern of a NaN in a format: the high fraction bits are kept and the quiet bit set (R75); the one NaN of each sign
in a narrow format (R76, R78). -/
def packNaN (f : FFmt) (neg : Bool) (frac : Nat) : Nat :=
  (if neg then f.signBit else 0) +
  if f.sat then 0x7F else f.infPat + ((frac ||| 2 ^ 51) / 2 ^ (52 - f.fb))

/-- Rounds a value once into a format and reports the flags: R74 for the IEEE formats, R78 for the narrow ones. -/
def pack (f : FFmt) (rm : Rm) (v : Val) : Nat × Flg :=
  match v with
  | .nan n _ fr => (packNaN f n fr, 0)
  | .inf n => if f.sat then ((if n then f.signBit else 0) + f.top, SA) else ((if n then f.signBit else 0) + f.infPat, 0)
  | .fin n m e =>
    let sgn := if n then f.signBit else 0
    if m = 0 then (sgn, 0)
    else
      let e0 : Int := e + Nat.log2 m
      let qn : Int := e0 - f.fb
      let q := max qn f.qmin
      let (k, inexact) := roundAt rm n m e q
      let (kn, _) := roundAt rm n m e qn
      let pat := (q - f.qmin).toNat * 2 ^ f.fb + k
      if f.top < pat then
        if f.sat then (sgn + f.top, OF ||| SA ||| NX)
        else
          let toInf := match rm with
            | .rne => true | .rtz => false | .rup => !n | .rdn => n
          (sgn + (if toInf then f.infPat else f.top), OF ||| NX)
      else
        let tiny := e0 < f.emin && !(e0 == f.emin - 1 && kn == 2 ^ (f.fb + 1))
        (sgn + pat, flagIf inexact NX ||| flagIf (tiny && inexact) UF)

/-- The exact sum of finite terms as one integer over a common exponent. -/
def addFin : List Val → Int × Int
  | [] => (0, 0)
  | .fin n m e :: ts =>
    let (s, x) := addFin ts
    let v : Int := if n then -(m : Int) else m
    if m = 0 then (s, x)
    else if s = 0 then (v, e)
    else if e ≤ x then (v + s * 2 ^ (x - e).toNat, e)
    else (v * 2 ^ (e - x).toNat + s, x)
  | _ :: ts => addFin ts

/-- An integer times 2^`e` as a value; `zneg` is the sign of zero. -/
def ofInt (zneg : Bool) (v e : Int) : Val :=
  if v = 0 then .fin zneg 0 0 else .fin (v < 0) v.natAbs e

/-- The product of two values; 0·∞ gives none (R74). NaN operands do not reach here. -/
def prod (a b : Val) : Option Val :=
  let n := a.neg != b.neg
  match a, b with
  | .fin _ ma ea, .fin _ mb eb => some (.fin n (ma * mb) (ea + eb))
  | .inf _, .inf _ => some (.inf n)
  | .inf _, .fin _ m _ => if m = 0 then none else some (.inf n)
  | .fin _ m _, .inf _ => if m = 0 then none else some (.inf n)
  | _, _ => some .defaultNaN

/-- The exact sum of terms none of which is a NaN, and whether opposite infinities meet. An exact zero keeps the sign all terms
share, and else is −0 under RDN and +0 otherwise (R74, R89). -/
def sumTerms (rm : Rm) (ts : List Val) : Val × Bool :=
  let pinf := ts.any (fun t => t.isInf && !t.neg)
  let ninf := ts.any (fun t => t.isInf && t.neg)
  if pinf && ninf then (.defaultNaN, true)
  else if pinf then (.inf false, false)
  else if ninf then (.inf true, false)
  else
    let zneg := if ts.all (fun t => t.isZero && t.neg) then true
      else if ts.all (fun t => t.isZero && !t.neg) then false
      else rm == .rdn
    let (v, e) := addFin ts
    (ofInt zneg v e, false)

/-- R75: the first NaN of the operands in order, quieted. -/
def firstNaN (ops : List Val) : Option Val := (ops.find? Val.isNaN).map Val.quiet

/-- R75, R90: the exact sum of the products of `ps` and of the addends `as`, with the NaN chosen from the product operands in
order and then the addends, and the invalid flag. -/
def sumProducts (rm : Rm) (ps : List (Val × Val)) (as : List Val) : Val × Flg :=
  let ops := ps.flatMap (fun p => [p.1, p.2]) ++ as
  let clean := ps.filter (fun p => !p.1.isNaN && !p.2.isNaN)
  let prods := clean.map (fun p => prod p.1 p.2)
  let bad0 := prods.any Option.isNone
  let terms := prods.filterMap id ++ as.filter (fun a => !a.isNaN)
  let (sum, opp) := sumTerms rm terms
  let inv := bad0 || opp || ops.any Val.isSNaN
  match firstNaN ops with
  | some n => (n, flagIf inv NV)
  | none => (if bad0 then .defaultNaN else sum, flagIf inv NV)

/-- R74: A + B. -/
def addV (rm : Rm) (a b : Val) : Val × Flg := sumProducts rm [] [a, b]

/-- R74: A − B. -/
def subV (rm : Rm) (a b : Val) : Val × Flg := sumProducts rm [] [a, b.flip]

/-- R74: A · B; a zero product takes the sign of the product. -/
def mulV (a b : Val) : Val × Flg :=
  match firstNaN [a, b] with
  | some n => (n, flagIf (a.isSNaN || b.isSNaN) NV)
  | none =>
    match prod a b with
    | some p => (p, 0)
    | none => (.defaultNaN, NV)

/-- R74: A · B + C with one rounding. -/
def fmaV (rm : Rm) (a b c : Val) : Val × Flg := sumProducts rm [(a, b)] [c]

/-- The quotient of nonzero magnitudes to 120 bits with an odd last bit when it is inexact: it rounds as the exact quotient
does in every format. -/
def divMag (ma mb : Nat) : Nat × Int :=
  let s := 120 + Nat.log2 mb - min (Nat.log2 ma) (119 + Nat.log2 mb)
  let q := (ma <<< s) / mb
  let r := (ma <<< s) % mb
  (2 * q + (if r = 0 then 0 else 1), -((s : Int) + 1))

/-- R74: A / B. -/
def divV (a b : Val) : Val × Flg :=
  let n := a.neg != b.neg
  match firstNaN [a, b] with
  | some x => (x, flagIf (a.isSNaN || b.isSNaN) NV)
  | none =>
    match a, b with
    | .inf _, .inf _ => (.defaultNaN, NV)
    | .inf _, _ => (.inf n, 0)
    | _, .inf _ => (.fin n 0 0, 0)
    | .fin _ ma ea, .fin _ mb eb =>
      if mb = 0 then (if ma = 0 then (.defaultNaN, NV) else (.inf n, DZ))
      else if ma = 0 then (.fin n 0 0, 0)
      else
        let (q, e) := divMag ma mb
        (.fin n q (ea - eb + e), 0)
    | _, _ => (.defaultNaN, 0)

/-- The integer square root by Newton's iteration on fuel, from a start above the root. -/
def isqrtGo : Nat → Nat → Nat → Nat
  | 0, _, x => x
  | k + 1, n, x =>
    let y := (x + n / x) / 2
    if y < x then isqrtGo k n y else x

/-- ⌊√n⌋. -/
def isqrt (n : Nat) : Nat := if n = 0 then 0 else isqrtGo (Nat.log2 n + 8) n (2 ^ (Nat.log2 n / 2 + 1))

/-- The square root of a nonzero magnitude `m`·2^`e`, to at least `bits` bits, odd in the last bit when it is inexact. -/
def sqrtMag (bits m : Nat) (e : Int) : Nat × Int :=
  let s0 := 2 * bits
  let s := if (e - s0) % 2 = 0 then s0 else s0 + 1
  let x := m <<< s
  let r := isqrt x
  (2 * r + (if r * r = x then 0 else 1), (e - s) / 2 - 1)

/-- R74: √A. -/
def sqrtV (a : Val) : Val × Flg :=
  match a with
  | .nan _ s _ => (a.quiet, flagIf s NV)
  | .inf n => if n then (.defaultNaN, NV) else (a, 0)
  | .fin n m e =>
    if m = 0 then (a, 0)
    else if n then (.defaultNaN, NV)
    else
      let (r, x) := sqrtMag 70 m e
      (.fin false r x, 0)

/-- The order of two values that are not NaN, −0 below +0 when `zeros` holds. -/
def cmpV (zeros : Bool) (a b : Val) : Ordering :=
  let key (v : Val) : Int := match v with
    | .inf n => if n then -2 else 2
    | .fin n m _ => if m = 0 then 0 else if n then -1 else 1
    | .nan _ _ _ => 0
  if a.isZero && b.isZero then
    if zeros then (if a.neg == b.neg then .eq else if a.neg then .lt else .gt) else .eq
  else if key a ≠ key b then compare (key a) (key b)
  else
    match a, b with
    | .fin na ma ea, .fin nb mb eb =>
      let e := min ea eb
      let x : Int := (ma * 2 ^ (ea - e).toNat : Nat)
      let y : Int := (mb * 2 ^ (eb - e).toNat : Nat)
      compare (if na then -x else x) (if nb then -y else y)
    | _, _ => .eq

/-- R74: minimum (`max` false) and maximum: −0 below +0; a NaN operand gives the NaN of R75. -/
def minmaxV (mx : Bool) (a b : Val) : Val × Flg :=
  match firstNaN [a, b] with
  | some x => (x, flagIf (a.isSNaN || b.isSNaN) NV)
  | none =>
    match cmpV true a b with
    | .gt => (if mx then a else b, 0)
    | _ => (if mx then b else a, 0)

/-- Whether a condition holds of an order. -/
def condHolds (c : Cond) (o : Ordering) : Bool :=
  match c with
  | .eq => o == .eq
  | .ne => o != .eq
  | .lt => o == .lt
  | .le => o != .gt
  | .gt => o == .gt
  | .ge => o != .lt

/-- R75: the position of a pattern in total order, for a format whose sign bit weighs `sb`. -/
def totalKey (sb p : Nat) : Int :=
  let m : Int := (p % sb : Nat)
  if p / sb % 2 = 1 then -m - 1 else m

/-- R72: the range of an integer type. -/
def intMin (t : Ty) : Int := if t.signed then -(2 ^ (t.bits - 1) : Nat) else 0

def intMax (t : Ty) : Int := if t.signed then (2 ^ (t.bits - 1) : Nat) - 1 else (2 ^ t.bits : Nat) - 1

/-- R61: the value of an operand pattern read in an integer type. -/
def intVal (t : Ty) (p : Nat) : Int := if t.signed then Bits.sx t.bits p else ((p % 2 ^ t.bits : Nat) : Int)

/-- R72: clips a value to a type's range and reports SA when that changes it. -/
def clip (t : Ty) (v : Int) : Int × Flg :=
  if v < intMin t then (intMin t, SA)
  else if intMax t < v then (intMax t, SA)
  else (v, 0)

/-- R72: an exact integer into an integer type, wrapped or saturated: the pattern of `t.bits` bits and the flags. -/
def intResult (t : Ty) (sat : Bool) (v : Int) : Nat × Flg :=
  if sat then let (x, f) := clip t v; (Bits.wrap t.bits x, f) else (Bits.wrap t.bits v, 0)

/-- Rounds a finite value to an integer. -/
def toInteger (rm : Rm) (n : Bool) (m : Nat) (e : Int) : Int × Bool :=
  let (k, inexact) := roundAt rm n m e 0
  (if n then -(k : Int) else k, inexact)

/-- R72: a float into an integer type: rounded and then saturated. -/
def toInt (t : Ty) (rm : Rm) (v : Val) : Nat × Flg :=
  match v with
  | .nan _ _ _ => (0, NV)
  | .inf n => (Bits.wrap t.bits (if n then intMin t else intMax t), NV)
  | .fin n m e =>
    let (k, inexact) := toInteger rm n m e
    if k < intMin t then (Bits.wrap t.bits (intMin t), NV)
    else if intMax t < k then (Bits.wrap t.bits (intMax t), NV)
    else (Bits.wrap t.bits k, flagIf inexact NX)

/-- R72: an integer into a floating format, rounded once. -/
def ofInteger (f : FFmt) (rm : Rm) (v : Int) : Nat × Flg := pack f rm (ofInt false v 0)

/-- R72, R74, R75: a conversion between floating formats; a signalling NaN sets the invalid flag. -/
def convert (dst : FFmt) (rm : Rm) (v : Val) : Nat × Flg :=
  let (p, f) := pack dst rm v.quiet
  (p, f ||| flagIf v.isSNaN NV)

/-- Packs a computed value and joins its flags. -/
def packR (f : FFmt) (rm : Rm) (r : Val × Flg) : Nat × Flg :=
  let (p, fl) := pack f rm r.1
  (p, fl ||| r.2)

/-- One level of the pairwise tree of R91. -/
def treeLevel {α : Type} (op : α → α → α × Flg) : List α → List α × Flg
  | a :: b :: rest =>
    let (x, f) := op a b
    let (xs, g) := treeLevel op rest
    (x :: xs, f ||| g)
  | xs => (xs, 0)

/-- R91: the pairwise tree in index order; `fuel` bounds the number of levels. -/
def tree {α : Type} (op : α → α → α × Flg) : Nat → List α → List α × Flg
  | 0, xs => (xs, 0)
  | k + 1, xs =>
    match xs with
    | _ :: _ :: _ =>
      let (ys, f) := treeLevel op xs
      let (zs, g) := tree op k ys
      (zs, f ||| g)
    | _ => (xs, 0)

/-- R91: the running fold of VSCAN after its first element. -/
def scanGo {α : Type} (op : α → α → α × Flg) : α → List α → List α × Flg
  | _, [] => ([], 0)
  | acc, x :: xs =>
    let (y, f) := op acc x
    let (ys, g) := scanGo op y xs
    (y :: ys, f ||| g)

/-- R91: y(0) = x(0), y(i) = y(i−1) op x(i). -/
def scan {α : Type} (op : α → α → α × Flg) : List α → List α × Flg
  | [] => ([], 0)
  | x :: xs =>
    let (ys, f) := scanGo op x xs
    (x :: ys, f)

/-- R89: one block of the MMA order: the accumulator pattern and the products of the block, in increasing k; the new pattern
and the flags. -/
def mmaBlock (f : FFmt) (rm : Rm) (acc : Nat) (ps : List (Val × Val)) : Nat × Flg :=
  let a := unpack f acc
  let (s, inv) := sumProducts rm ps []
  if a.isNaN then ((pack f rm a.quiet).1, inv)
  else if s.isNaN then ((pack f rm s).1, inv)
  else
    let (r, opp) := sumTerms rm [a, s]
    packR f rm (r, inv ||| flagIf opp NV)

/-- Splits a list into pieces of `n` (the last may be shorter), on fuel. -/
def chunks {α : Type} (n : Nat) : Nat → List α → List (List α)
  | 0, _ => []
  | k + 1, xs => if xs.isEmpty then [] else xs.take n :: chunks n k (xs.drop n)

/-- R89: the accumulation of all products in blocks of L. -/
def mmaCell (f : FFmt) (rm : Rm) (L : Nat) (acc : Nat) (ps : List (Val × Val)) : Nat × Flg :=
  (chunks L ps.length ps).foldl
    (fun (st : Nat × Flg) blk => let (a, g) := mmaBlock f rm st.1 blk; (a, st.2 ||| g)) (acc, 0)

/-! ### Block floating point (R82 to R84) -/

/-- R82: the exponent of the unit of a block's mantissas. -/
def blockUnit (w : Nat) (s : Int) (e : Nat) : Int := (e : Int) - 127 + s - ((w : Int) - 1)

/-- R82: the value of an element of a block. -/
def blockVal (w : Nat) (s : Int) (e : Nat) (m : Int) : Val :=
  if e = 0 then .fin false 0 0
  else if e = 255 then .defaultNaN
  else ofInt false m (blockUnit w s e)

/-- The order of magnitude ⌊log2 |x|⌋ of a nonzero finite value. -/
def Val.log2 : Val → Int
  | .fin _ m e => e + Nat.log2 m
  | _ => 0

/-- R84: the mantissa of one element for block exponent `e`; `lowered` when E was lowered to 254. -/
def quantElem (w : Nat) (s : Int) (e : Nat) (lowered : Bool) (x : Val) : Int × Flg :=
  let hi : Int := (2 ^ (w - 1) : Nat) - 1
  let lo : Int := -(2 ^ (w - 1) : Nat)
  match x with
  | .inf n => (if n then lo else hi, SA)
  | .fin n m ex =>
    let (k, inexact) := roundAt .rne n m ex (blockUnit w s e)
    let q : Int := if n then -(k : Int) else k
    let c := max lo (min hi q)
    (c, flagIf (c ≠ q) (SA ||| flagIf lowered OF) ||| flagIf (inexact || c ≠ q) NX)
  | .nan _ _ _ => (0, 0)

/-- R84: quantises a block: E, the mantissas and the flags. -/
def quantise (w : Nat) (s : Int) (xs : List Val) : Nat × List Int × Flg :=
  if xs.any Val.isNaN then (255, xs.map (fun _ => 0), flagIf (xs.any Val.isSNaN) NV)
  else
    let nz := xs.filter (fun x => !x.isInf && !x.isZero)
    if nz.isEmpty && !xs.any Val.isInf then (0, xs.map (fun _ => 0), 0)
    else
      let e0 : Int := match nz with
        | [] => 254
        | x :: ys => ys.foldl (fun m y => max m y.log2) x.log2 + 128 - s
      let e : Nat := (max 1 (min 254 e0)).toNat
      let rs := xs.map (quantElem w s e (254 < e0))
      (e, rs.map Prod.fst, rs.foldl (fun f r => f ||| r.2) 0)

/-- R83: the mantissa integer of a block of w-bit mantissas. -/
def blockInt (w : Nat) : List Int → Nat
  | [] => 0
  | m :: ms => Bits.wrap w m + 2 ^ w * blockInt w ms

/-- R83: the 16 mantissas of a block's mantissa integer. -/
def blockMants (w : Nat) (x : Nat) : List Int := (List.range 16).map (fun i => Bits.sx w (x >>> (w * i)))

/-! ### The exact accumulate cell (R86 to R88) -/

/-- R87: the addend in units of 2^(e − 183); none for a NaN or an infinity. -/
def exactAddend (e : Nat) (x : Val) : Option Int :=
  match x with
  | .fin n m ex =>
    let (k, _) := roundAt .rne n m ex ((e : Int) - 183)
    some (if n then -(k : Int) else k)
  | _ => none

/-- R86: the integer of a cell. -/
def cellInt (c : Nat) : Int := Bits.sx 112 c

/-- R87: adds an addend (already in units of the cell, none for a NaN or infinity) to a cell of 128 bits. Reserved bits are
cleared. -/
def cellAdd (c : Nat) (a : Option Int) : Nat :=
  let e := Bits.fld c 127 120
  let inv := Bits.bit c 113
  let sat := Bits.bit c 112
  let mk (inv sat : Bool) (i : Int) : Nat :=
    e * 2 ^ 120 + Bits.b2n inv * 2 ^ 113 + Bits.b2n sat * 2 ^ 112 + Bits.wrap 112 i
  let i := cellInt c
  if inv || sat then mk inv sat i
  else
    match a with
    | none => mk true false i
    | some a =>
      let y := i + a
      let hi : Int := (2 ^ 111 : Nat) - 1
      let lo : Int := -(2 ^ 111 : Nat)
      if hi < y then mk false true hi else if y < lo then mk false true lo else mk false false y

/-- R88: the value of a cell as f64 and the flags. -/
def cellRead (c : Nat) : Nat × Flg :=
  if Bits.bit c 113 then (0x7FF8000000000000, 0)
  else
    let (p, f) := pack f64 .rne (ofInt false (cellInt c) ((Bits.fld c 127 120 : Int) - 183))
    (p, f &&& NX)

end Sys2Proof.Num
end

