-- ==== Sys2Proof/Machine/Maps.lean ====
section
/-! DEFINITION. Sparse maps by number, and memory: lists in one canonical form, keys strictly rising. -/
namespace Sys2Proof.Machine

/-- A sparse map from numbers, keys strictly rising. -/
abbrev SMap (α : Type) := List (Nat × α)

/-- The value at a key, if one is listed. -/
def mget? {α : Type} (k : Nat) : SMap α → Option α
  | [] => none
  | (j, x) :: m => if j = k then some x else mget? k m

/-- The value at a key, or a default. -/
def mget {α : Type} (d : α) (k : Nat) (m : SMap α) : α := (mget? k m).getD d

/-- Writes a key and keeps the keys rising. -/
def mset {α : Type} (k : Nat) (x : α) : SMap α → SMap α
  | [] => [(k, x)]
  | (j, y) :: m => if k < j then (k, x) :: (j, y) :: m else if k = j then (k, x) :: m else (j, y) :: mset k x m

/-- Removes a key. -/
def mdel {α : Type} (k : Nat) : SMap α → SMap α
  | [] => []
  | (j, y) :: m => if j = k then m else (j, y) :: mdel k m

/-- Memory: the bytes that differ from what an unlisted address reads as, addresses strictly rising. -/
abbrev Memory := List Host.Cell

/-- What a byte that nothing has written reads as. The spec gives no contents at power-up (DESIGN CHOICE, log 2). -/
def unlisted : Byte := 0

/-- The byte at an address. -/
def Memory.read (m : Memory) (a : Nat) : Byte := mget unlisted a m

/-- Writes one byte; the value an unlisted address reads as removes the entry. -/
def Memory.write (m : Memory) (a : Nat) (b : Byte) : Memory := if b = unlisted then mdel a m else mset a b m

/-- The canonical form, above a lower bound: addresses strictly rising and no entry that an unlisted address reads as. -/
def Memory.wfFrom : Nat → Memory → Bool
  | _, [] => true
  | lo, (a, b) :: m => decide (lo ≤ a) && b != unlisted && Memory.wfFrom (a + 1) m

/-- The canonical form of memory. -/
def Memory.wf (m : Memory) : Bool := Memory.wfFrom 0 m

/-- `n` bytes from address `a`, lowest first. -/
def Memory.bytes (m : Memory) (a : Nat) : Nat → List Byte
  | 0 => []
  | n + 1 => m.read a :: Memory.bytes m (a + 1) n

/-- The little-endian value of `n` bytes at `a` (R4). -/
def Memory.readLE (m : Memory) (a n : Nat) : Nat := Bits.ofBytesLE (m.bytes a n)

/-- Writes a list of bytes from address `a` up. -/
def Memory.writeBytes (m : Memory) (a : Nat) : List Byte → Memory
  | [] => m
  | b :: bs => Memory.writeBytes (m.write a b) (a + 1) bs

/-- Writes the `n` low bytes of `x` at `a` (R4). -/
def Memory.writeLE (m : Memory) (a n x : Nat) : Memory := m.writeBytes a (Bits.bytesLE n x)

end Sys2Proof.Machine
end

