-- ==== Sys2Proof/Machine/State.lean ====
section
/-! DEFINITION. The state of the device as plain data: everything the spec gives the machine, and a few fields of the model's
own (marked so). Timestamps are those of the ordering machine (R148). Core keys are package · 4,096 + core index (R16), context
keys core key · 4 + context. -/
namespace Sys2Proof.Machine

/-- Why a step stops the machine. -/
inductive Fault where
  /-- Raised by BOOT when an image fails its check: the boot stops at that stage (R354). Safe: the spec says it stops. -/
  | bootStopped (stage : Nat)
deriving DecidableEq, Repr

/-- Why the model refuses a step. -/
inductive Refusal where
  /-- Raised by `exec` for an instruction that has no meaning yet. Safe. -/
  | notModelled (mnemonic : String)
deriving DecidableEq, Repr

/-- What a context does when its flush and fence have finished (R143, R165). -/
inductive After where
  /-- RFLUSH: nothing further. -/
  | rflush
  /-- BAR of a scope (R186). -/
  | bar (scope : Fin 8)
  /-- SSTEP (R187). -/
  | sstep
  /-- PHASE of a scope (R270). -/
  | phase (scope : Fin 8)
  /-- SEED with its value (R339). -/
  | seed (v : Word)
  /-- BAR of an episode that the core's arrival has already completed (R186): nothing further. -/
  | joined
deriving DecidableEq, Repr

/-- What a waiting WAITE watches (R192): the word's address and physical address, the last value compared, the comparison, and the value
that made it true. -/
structure Watch where
  addr : Word
  pa : Nat
  last : Word
  ty : Ty
  cc : Cond
  rhs : Int
  hit : Option Word
deriving DecidableEq, Repr

/-- A home's report of a changed word to a waiting WAITE (R192): the context, the value, and the timestamp of its load if the value
compares true. -/
structure Report where
  key : Nat
  value : Word
  stamp : Option Nat
deriving DecidableEq, Repr

/-- The forms whose wait has a cycle limit (R193). -/
inductive Timed where
  | queue (desc : Word)
  | word (w : Watch)
  | chain (ch : Nat)
deriving DecidableEq, Repr

/-- A continuation that FST makes (R135): its record's core, its priority, and what it starts with. -/
structure Cont where
  core : Nat
  prio : Nat
  code : Word
  frame : Word
  dest : Fin 32
  value : Word
deriving DecidableEq, Repr

/-- Why a live context is not ready (R96). -/
inductive Wait where
  /-- Its group could not issue; it issues again when its condition holds (empty register, full ring, scoreboard). -/
  | retry
  /-- An access overlaps a destination of a command in flight: the command's chain and sequence number (R158). -/
  | overlap (chain : Fin 8) (seq : Nat)
  /-- A flush of the accumulates numbered below `bound` (R143), then what follows. -/
  | flush (r : Reach) (after : After) (bound : Nat)
  /-- FENCE over the context's accumulates numbered below `bound` (R194). -/
  | fence (r : Reach) (bound : Nat)
  /-- Arrived at a barrier of a scope (R186). -/
  | bar (scope : Fin 8)
  /-- Arrived at SSTEP (R187). -/
  | sstep
  /-- Arrived at PHASE of a scope, with the run of lines it has loaded (R270). -/
  | phase (scope : Fin 8) (run : List (Word × Line))
  /-- Arrived at SEED (R339). -/
  | seed (v : Word)
  /-- A wait with a limit: the form, the gang cycle at which it expires, and whether it has been told to look again (R193). -/
  | timed (t : Timed) (limit : Option Nat) (due : Bool)
  /-- DONE, JOIN or the walk of FST waits for a free queue slot (R179). -/
  | slot
  /-- MCLAIM waits for the claim (R234). -/
  | claim
  /-- MRLS waits for the core's matrix and prism forms (R234). -/
  | release
  /-- The forms that a waiting MRLS waited for have completed. -/
  | released
  /-- The first copy of a paired task without a second (R183). -/
  | partner
  /-- A copy whose message of the next ordinal has not been compared (R183). -/
  | message
  /-- The gang is stopped (R343, R356). -/
  | stopped
  /-- Between two accesses of its group, where the agenda lets other steps fall (R149, R150; MODEL'S OWN, log 3). -/
  | paused
deriving DecidableEq, Repr

/-- The current packet of a context (R181): its handle, priority and the successor handles kept at the pop, and the number of
successors a waiting DONE has already decremented (R179). -/
structure Packet where
  handle : Word
  prio : Nat
  succ : List Word
  done : Nat
deriving DecidableEq, Repr

/-- An engine error not yet taken (R292): cause, record address, TINFOB, and the cts of the command (R359). -/
structure EngErr where
  cause : Nat
  infoA : Word
  infoB : Word
  cts : Nat
deriving DecidableEq, Repr

/-- An open capture of VREP (R204). -/
structure Capture where
  /-- The code address of the group holding the VREP. -/
  start : Word
  /-- VREP IMM44 bits 14:0. -/
  rep : Nat
  /-- The TSEQ of the forms captured so far, in order. -/
  forms : List Nat
deriving DecidableEq, Repr

/-- The state of one context (R93). -/
structure Ctx where
  s : Vector Word 32
  /-- Full/empty bits (R94); bit n is 1 when s n is full. -/
  full : BitVec 32
  /-- p0 to p7. -/
  p : BitVec 8
  /-- R79. -/
  asr : Word
  /-- R200. -/
  vsh : Word
  /-- Code address of the next group (R51). -/
  pc : Word
  /-- Quantum count (R96). -/
  quantum : Nat
  /-- R106. -/
  lfs : Word
  v : Vector Line 32
  /-- R328. -/
  trapvec : Word
  tcause : Word
  tpc : Word
  tinfoa : Word
  tinfob : Word
  tseq : Word
  /-- LVL0 to LVL7 (R21). -/
  lvl : Vector Word 8
  /-- R96. -/
  live : Bool
  wait : Option Wait
  packet : Option Packet
  /-- Priority that a deferred-read record takes (R134). -/
  prio : Nat
  /-- Program timestamp (R148). -/
  pts : Nat
  /-- Discard set (R148): line number and stamp. -/
  discards : List (Nat × Nat)
  /-- Answer set (R148): line number and stamp. -/
  answers : List (Nat × Nat)
  /-- Engine errors not yet taken, in completion order (R292). -/
  errors : List EngErr
  /-- Access-table refusals not yet taken, oldest first: virtual and physical address, and whether an earlier one still stood
  when it came (R122). -/
  refusals : List (Word × Word × Bool)
  /-- PCNT 1 and 2 (R337). -/
  iss : Word
  rref : Word
  capture : Option Capture
  /-- The fetched line: its address and its 64 bytes (R53). -/
  lineBuf : Option (Word × Line)
  /-- The address of the group that issues once without instruction-breakpoint checks (R330). -/
  stepBrk : Option Word
  /-- An FST whose future is filled: the continuations still to enqueue, and their stamp (R135, R179). -/
  walking : Option (List Cont × Nat)
  /-- A flush that begins when the wait of the form paired with it has ended (R56, R143). -/
  behind : Option (Reach × After)
  /-- The answers to the messages (R183) and accesses (R149) that the group at the PC has already made. -/
  sent : List (Option Word × List Line)
  /-- The paired task that the context runs a copy of (R183). -/
  pair : Option Nat
  /-- An XINV of the context has not completed (R341). -/
  xinv : Bool
deriving DecidableEq, Repr

/-- R93, R181: a context with nothing in it. Registers the spec gives no reset value are zero (DESIGN CHOICE, log 1). -/
def Ctx.reset : Ctx where
  s := Vector.replicate 32 0
  full := 0xFFFFFFFF
  p := 1
  asr := 0
  vsh := 0x9101
  pc := 0
  quantum := 0
  lfs := 0
  v := Vector.replicate 32 0
  trapvec := 0
  tcause := 0
  tpc := 0
  tinfoa := 0
  tinfob := 0
  tseq := 0
  lvl := Vector.replicate 8 0
  live := false
  wait := none
  packet := none
  prio := 0
  pts := 0
  discards := []
  answers := []
  errors := []
  refusals := []
  iss := 0
  rref := 0
  capture := none
  lineBuf := none
  stepBrk := none
  walking := none
  behind := none
  sent := []
  pair := none
  xinv := false

/-- One entry of the translation cache (R119): ASID, level of the leaf, virtual page number at that level, leaf entry. -/
structure TlbEntry where
  asid : Nat
  level : Nat
  vpn : Nat
  pte : Word
deriving DecidableEq, Repr

/-- A lease copy (R148). -/
structure Lease where
  value : Line
  wts : Nat
  rts : Nat
deriving DecidableEq, Repr

/-- One entry of the dispatch ring (R205), with the fault it reports and what the form has yet to write. -/
structure RingEntry where
  insn : Slot
  tseq : Nat
  ctx : Fin 4
  pass : Nat
  /-- 0 free, 1 in flight, 2 complete, 3 faulted. -/
  state : Nat
  pc : Word
  opa : Word
  opb : Word
  opc : Word
  vshc : BitVec 28
  rm : BitVec 2
  rep : BitVec 15
  repv : Bool
  /-- The cause, TINFOA and TINFOB of a faulted entry (R206), and whether its context has entered the trap. -/
  cause : Nat
  infoA : Word
  infoB : Word
  taken : Bool
  /-- Flags to be ORed into ASR when the form completes (R81). -/
  flags : BitVec 6
  /-- The s register the form will write, and the value. -/
  dest : Option (Fin 32)
  result : Word
  /-- 0 in the sequencer or array queue, 1 started, 2 in the special-function queue (R198, R207). -/
  stage : Nat
  /-- The task that dispatched the form has ended (R206). -/
  orphan : Bool
deriving DecidableEq, Repr

/-- A free ring entry (R205: every field resets to 0). -/
def RingEntry.free : RingEntry :=
  ⟨0, 0, 0, 0, 0, 0, 0, 0, 0, 0, 0, 0, false, 0, 0, 0, false, 0, none, 0, 0, false⟩

/-- A matrix or prism form in the array queue (R236): its instruction, its TSEQ, the TSH values and the drain descriptor or
effective address that it captured, the v registers as its group read them where it reads some (R56, R253), the command whose destination its
accesses wait for (R158), and, for a GMMA, its count and the gang cycle at which it reached the head. -/
structure ArrayForm where
  instr : Instr
  tseq : Nat
  tsh : Vector Word 8
  word : Word
  vs : Option (Vector Line 32)
  held : Option (Fin 8 × Nat)
  n : Nat
  since : Nat
deriving DecidableEq, Repr

/-- One live entry of the residual tile (R140). -/
structure Residual where
  line : Nat
  exact : Bool
  ty : Ty
  mask : BitVec 16
  data : Line
  /-- The cycle of the oldest refusal held; AGE counts from it. -/
  born : Nat
  /-- The entry is to be sent insistent as soon as fewer than four are unanswered at its home (R139, R142): the context it is sent for,
  and its number among the accumulates of the core. -/
  sending : Option (Nat × Nat)
deriving DecidableEq, Repr

/-- One entry of the range scoreboard (R294): the physical byte ranges of a destination, the chain and sequence number. -/
structure SbEntry where
  ranges : List (Nat × Nat)
  chain : Fin 8
  seq : Nat
deriving DecidableEq, Repr

/-- A command or a fence waiting in a chain (R281, R306). -/
inductive ChainItem where
  /-- An appended record: its address, sequence number, appending context and stamp. -/
  | record (addr : Word) (seq : Nat) (ctx : Fin 4) (stamp : Nat)
  /-- A promise command: the instruction, its address, its C value, the SSN at the append, and the same. -/
  | promise (i : Instr) (addr c : Word) (ssn : Nat) (seq : Nat) (ctx : Fin 4) (stamp : Nat)
  /-- A fence entry with its chain mask (R159). -/
  | fence (mask : BitVec 8)
deriving DecidableEq, Repr

/-- One access of a long piece of work that has been made (MODEL'S OWN, log 3; R149, R156): the bytes it gave, or its cause with what
underlies it, the address and the poisoned line (R290, R293). -/
inductive Seen where
  | done (bytes : List Byte)
  | failed (cause under : Nat) (va : Word) (poison : Nat)
deriving DecidableEq, Repr

/-- The command an engine is performing (R284), the eight doublewords of its record as read at the start, and what it carries from one
piece to the next (R285). -/
structure Running where
  item : ChainItem
  body : List Word
  aux : List Word
deriving DecidableEq, Repr

/-- The state of one chain (R281, R148). -/
structure Chain where
  head : Word
  tail : Word
  acnt : Nat
  ccnt : Nat
  piece : Nat
  fault : Word
  ets : Nat
  cts : Nat
  fifo : List ChainItem
  run : Option Running
deriving DecidableEq, Repr

/-- R281: a chain at launch. -/
def Chain.reset : Chain := ⟨0, 0, 0, 0, 0, 0, 0, 0, [], none⟩

/-- An answer from off the core that has not arrived (R94): the context, its register, the value and the flags it sets. -/
structure Answer where
  ctx : Fin 4
  dest : Fin 32
  value : Word
  flags : BitVec 6
deriving DecidableEq, Repr

/-- A latch of an incoming lane (R269). -/
structure Latch where
  value : Word
  sent : BitVec 16
  pres : Bool
deriving DecidableEq, Repr

/-- A pass-through of XSEL (R275): outgoing lane, incoming lane (none ends it), first cycle and the cycle after the last. -/
structure Pass where
  out : Link
  src : Option Link
  first : Nat
  stop : Nat
deriving DecidableEq, Repr

/-- A value on its way on a lane (R269): the incoming lane, the cycle it lands for, the value and the cycle of its write. -/
structure InFlight where
  lane : Link
  cycle : Nat
  value : Word
  sent : BitVec 16
deriving DecidableEq, Repr

/-- A core in a communication phase (R269 to R277). -/
structure Phase where
  /-- The episode: the same number on every core that one completion of PHASE released. -/
  episode : Nat
  ctx : Fin 4
  pcc : Nat
  /-- The loaded run of lines: address and content (R270). -/
  run : List (Word × Line)
  latches : List (Link × Latch)
  inflight : List InFlight
  passes : List Pass
  /-- Lanes written in the current cycle (R271), with the stamp and count of the X form that wrote them. -/
  written : List (Link × Option (Nat × Nat))
  /-- Own-scratchpad loads not yet usable: register, value and the cycle from which it is full (R271). -/
  loads : List (Fin 32 × Word × Nat)
  /-- Forms that the wide unit or the array has started: TSEQ, and the phase cycle in which their results can be used (R199, R238, R262). -/
  due : List (Nat × Nat)
  /-- v registers, with the phase cycle from which the wide unit and the memory port can read them (R199, R262, R271). -/
  vdue : List (Nat × Nat)
  /-- Matrix and prism forms that the array has yet to start, with the cycles they take, and the phase cycle from which it is free
  (R238, R262). -/
  arrayDue : List (Nat × Nat)
  array : Nat
  /-- DMAP when the phase began (R268). -/
  dmap : Word
  /-- Cycles in which XIDLE still issues nothing (R274). -/
  idle : Nat
deriving DecidableEq, Repr

/-- What travels on the instruction-forwarding network (R100, R101). -/
inductive Forward where
  /-- An attach marker, with the code address after the leader's LEAD. -/
  | attach (next : Word)
  /-- An end marker, with the code address after the leader's LEAD. -/
  | stop (next : Word)
  /-- A group: its address, the address after it, its instructions, and where the leader branched, if it did. -/
  | group (addr next : Word) (instrs : List (Nat × Instr)) (went : Option Word)
deriving DecidableEq, Repr

/-- The state of one core. -/
structure Core where
  /-- The gang the core belongs to; 0 for none. -/
  gang : Nat
  /-- The running context, and whether the core idles: the next search then begins at the context after it (R96). -/
  running : Fin 4
  idling : Bool
  /-- Bank split of the last launch accepted on the core (R120, R116). -/
  split : Nat
  /-- QUANT (R105). -/
  quant : Nat
  /-- ROOT and AUDIT (R327). -/
  root : Word
  audit : Nat
  /-- Translation cache (R119), oldest first. -/
  tlb : List TlbEntry
  /-- Lease copies by line number (R148); the L1 (R121). -/
  leases : SMap Lease
  /-- Lines that the L1 holds dirty: those the core has stored to since their last write-back (R130, R147). -/
  stored : List Nat
  /-- Matrix side (R228). -/
  tiles : Vector Tile 8
  tsh : Vector Word 8
  accs : Vector Tile 8
  status : Vector Byte 8
  bits : Vector BitTile 8
  /-- Claim (R234): the holder, whether it is being released, and the address space of the last holder. -/
  claim : Option (Fin 4)
  releasing : Bool
  claimAsid : Option Nat
  /-- Dispatch counter and ring (R205); unlisted ring entries are free. -/
  tseq : Nat
  ring : SMap RingEntry
  /-- The vector sequencer: TSEQs in order (R198). -/
  seq : List Nat
  /-- The array queue behind a GMMA (R236, R247), and the GMMA count since launch. -/
  arrayQ : List ArrayForm
  gmma : Nat
  /-- The numbers of the GMMAs that were withdrawn with 0x36 (R247). -/
  withdrawn : List Nat
  /-- Accumulates the core has issued, and the greatest stamps that answers to them have carried, from homes on the own package
  and on others (R162). -/
  accNo : Nat
  accLocal : Nat
  accOther : Nat
  /-- Residual tile (R140). -/
  residual : List Residual
  /-- Range scoreboard (R294). -/
  scoreboard : List SbEntry
  chains : Vector Chain 8
  /-- Discard bits: the marked scratchpad lines (R131). -/
  discardBits : List Nat
  /-- Scratchpad lines dirtied since the last commit and not yet copied by SNAP (R340). -/
  snapLines : List Nat
  answers : List Answer
  phase : Option Phase
  /-- The follower's buffer of forwarded groups (R101). -/
  buffer : List Forward
  /-- PCNT counters (R337): the gang cycle CYC counts from, and REFU, INSI, DCHK, IDLE, WALK. -/
  cycBase : Nat
  refu : Word
  insi : Word
  dchk : Word
  idle : Word
  walk : Word
deriving DecidableEq, Repr

/-- R228, R229, R105, R327: a core after reset. -/
def Core.reset : Core where
  gang := 0
  running := 0
  idling := false
  split := 0
  quant := 16384
  root := 0
  audit := 20
  tlb := []
  leases := []
  stored := []
  tiles := Vector.replicate 8 0
  tsh := Vector.replicate 8 0x97DF
  accs := Vector.replicate 8 0
  status := Vector.replicate 8 0
  bits := Vector.replicate 8 0
  claim := none
  releasing := false
  claimAsid := none
  tseq := 0
  ring := []
  seq := []
  arrayQ := []
  gmma := 0
  withdrawn := []
  accNo := 0
  accLocal := 0
  accOther := 0
  residual := []
  scoreboard := []
  chains := Vector.replicate 8 Chain.reset
  discardBits := []
  snapLines := []
  answers := []
  phase := none
  buffer := []
  cycBase := 0
  refu := 0
  insi := 0
  dchk := 0
  idle := 0
  walk := 0

/-- A line at its home (R148): timestamps, the backing value while the line is dirty, the gang whose write made it so, and poison
(R357). Its value is the memory's. -/
structure LineMeta where
  wts : Nat
  rts : Nat
  dirty : Option Line
  writer : Nat
  poison : Bool
deriving DecidableEq, Repr

/-- R148: a line that nothing has touched. -/
def LineMeta.reset : LineMeta := ⟨0, 0, none, 0, false⟩

/-- The state of an accumulate between its issue and its answer's arrival (R160). -/
inductive AccState where
  /-- In the accept queue of its home. -/
  | sent
  /-- Accepted with this stamp; the answer travels. -/
  | accepted (stamp : Nat)
  /-- Refused; the addend travels back. -/
  | refused
deriving DecidableEq, Repr

/-- An accumulate in an accept queue, or its answer (R148, R160). -/
structure AccMsg where
  /-- Source context key. -/
  src : Nat
  gang : Nat
  /-- Line number of the line added to. -/
  line : Nat
  exact : Bool
  ty : Ty
  mask : BitVec 16
  data : Line
  insistent : Bool
  /-- Exact slots already converted to the integer a of R87 (a carrier's entry, or a returned addend). -/
  cells : BitVec 4
  /-- The cycle of the oldest refusal it carries. -/
  born : Option Nat
  st : AccState
  /-- Virtual address of the access and its offset in the line, for a refusal by an access table (R122). -/
  va : Word
  off : Nat
  /-- Its number among the accumulates of its core. -/
  seq : Nat
deriving DecidableEq, Repr

/-- The accumulate side of an L2 slice (R138, R139). -/
structure Slice where
  /-- Start of the window in progress and its length. -/
  start : Nat
  len : Nat
  /-- Accepted in this window, by source core. -/
  counts : SMap Nat
  /-- Lines that hold a table entry, oldest first. -/
  table : List Nat
deriving DecidableEq, Repr

/-- R138: a slice after reset. -/
def Slice.reset : Slice := ⟨0, 64, [], []⟩

/-- A wide unit (R199): the column last served, the special-function queue (R207) as core keys and TSEQs, and, in a phase, the phase
cycles from which the unit is free and the queue takes the next register. -/
structure Quad where
  last : Fin 4
  vsfq : List (Nat × Nat)
  busy : Nat
  sfBusy : Nat
deriving DecidableEq, Repr

/-- R199: after reset the rotation starts at column 4q. -/
def Quad.reset : Quad := ⟨3, [], 0, 0⟩

/-- One entry of a task queue (R178): its handle or continuation, the time it stands from, and the stamp it carries (R166). -/
structure TqEntry where
  handle : Word
  cont : Option Cont
  time : Nat
  stamp : Nat
deriving DecidableEq, Repr

/-- A task queue: four FIFOs, one per priority (R178). -/
abbrev TaskQueue := Vector (List TqEntry) 4

/-- A core block of a shadow image or of the save area (R343, R346): core, contexts, scratchpad bytes by offset, and the scratchpad's
lines at their home (R167). -/
structure CoreImage where
  key : Nat
  core : Core
  ctxs : List Ctx
  pad : List Host.Cell
  lines : List (Nat × LineMeta)
deriving DecidableEq, Repr

/-- A store kept back until the next commit (R348): address and bytes, the context that made it, and the chain of its core whose
command made it, if one did (R156). -/
structure Kept where
  pa : Nat
  bytes : List Byte
  src : Nat
  chain : Option (Fin 8)
deriving DecidableEq, Repr

/-- One copy's message of a paired task (R183): its ordinal and its CRC-32C, and when it arrived. -/
structure PairMsg where
  ordinal : Nat
  hash : BitVec 32
  time : Nat
deriving DecidableEq, Repr

/-- A paired task (R183): the gang, the two context keys, the handle, its priority, the messages waiting at the comparing
router, and the ordinal each copy may forward. -/
structure Pair where
  gang : Nat
  first : Nat
  second : Option Nat
  packet : Packet
  stamp : Nat
  /-- The queue that the packet came from, to which a mismatch returns it. -/
  queue : Nat
  msg1 : Option PairMsg
  msg2 : Option PairMsg
  /-- Ordinals of the next message of the first and of the second copy. -/
  ord1 : Nat
  ord2 : Nat
  /-- The messages of ordinal `ord1` agreed: the first copy forwards its message. -/
  agreed : Bool
  /-- The answer the second copy still has to take: an s value, v rows, and whether the form ended or continued. -/
  answer : Option (Option Word × List Line)
deriving DecidableEq, Repr

/-- A participant of a collective that has matched (R291): its core, its record's doublewords, the shards that have arrived in
order, and whether its command has completed. -/
structure Member where
  core : Nat
  body : List Word
  arrived : List Nat
  done : Bool
deriving DecidableEq, Repr

/-- Whether a gang runs. While it is committing it runs, and none of its own units takes a step (R187, log 25). -/
inductive GangState where
  | running | committing | switchedOut | complete | ended
deriving DecidableEq, Repr

/-- The gang's cycles count (R193). -/
def GangState.runs (x : GangState) : Bool := x == .running || x == .committing

/-- A gang (R171 to R176). -/
structure Gang where
  /-- The GANGID (R176). -/
  id : Nat
  asid : Nat
  sup : Bool
  resv : Nat
  /-- Level descriptors of the record, LEVEL0 first (R172). -/
  levels : List Word
  /-- The gang's cores, in increasing key. -/
  cores : List Nat
  seed : Nat
  tensors : Word
  trapvec : Word
  entry : Word
  frame : Word
  split : Nat
  shadow : Word
  stash : Word
  expiry : Nat
  wlimit : Nat
  lperm : Bool
  dchk : Bool
  cls : Nat
  /-- SSN (R187). -/
  ssn : Nat
  st : GangState
  /-- The switch time and the resume time (R342). -/
  outAt : Option Nat
  inAt : Option Nat
  /-- Task queues by unit key: domain · 2^24 + unit (R178). -/
  queues : SMap TaskQueue
  /-- Stores kept back for commit (R348). -/
  kept : List Kept
  /-- The shadow log: each line's value and backing value before its first write of the superstep (R347, R167), UNPROT and ROLL. -/
  log : SMap (Line × Option Line)
  unprot : Bool
  roll : Nat
  /-- Shadow slots 0 and 1 (R346), and the open bits and queues at the last commit. -/
  slot0 : List CoreImage
  slot1 : List CoreImage
  slotOpen : List Nat
  slotQueues : SMap TaskQueue
  /-- What was under way at the last commit: accumulates, collectives, paired tasks, and the cycles run. -/
  slotAccs : List AccMsg
  slotColls : SMap (List Member)
  slotPairs : SMap Pair
  slotReports : List Report
  slotRan : Nat
  /-- The save area of a gang switch (R343) and the accumulates ejected. -/
  saved : List CoreImage
  ejected : List AccMsg
  /-- The reports of WAITE on their way when it stopped (R192, R343). -/
  heldReports : List Report
  /-- The cycle in which it stopped, the rollback it owes when it resumes, with its cause if it has one, and the packages lost in the
  meantime with their replacements (R18, R344, R349). -/
  leftAt : Nat
  owed : Option (Option Nat)
  moved : List (Nat × Nat)
  /-- Open bits: the TIDs with promises open in the engines of each package (R301). -/
  openBits : List Nat
  /-- Where the completion value goes (R170, R195): address and value. -/
  completion : Option (Nat × Word)
  /-- Cycles in which the gang has run (R193, R337). -/
  ran : Nat
  /-- Attached by the Seroan service, and its instruction breakpoints (R333, R356). -/
  attached : Bool
  brks : List Word
  /-- The doubleword that the service last read in its saved state (R356). -/
  answer : Option Word
  /-- The step in which an uncorrectable error waits to be consumed (R357): line number, context key. -/
  consumed : Option (Nat × Nat)
deriving DecidableEq, Repr

/-- A launch waiting at a front end or launch port (R170, R195). -/
structure Launch where
  pkg : Nat
  /-- Physical addresses of the record's four lines. -/
  record : List Nat
  /-- The front end that submitted it, or the launching context and its register. -/
  fe : Option Nat
  src : Option (Nat × Fin 32)
  /-- The second copy of a launching paired task, which receives the answer too (R183). -/
  twin : Option Nat
  /-- The launching gang; 0 for a front end. -/
  gang : Nat
  sup : Bool
  completion : Option (Nat × Word)
  /-- The gang whose next commit releases the submission (R348). -/
  held : Option Nat
deriving DecidableEq, Repr

/-- A collective that has matched (R291): its participants by rank. -/
abbrev Coll := List Member

/-- What the service cores keep of one package (R15, R17, R349, R352 to R355). -/
structure Package where
  dmap : Word
  srow : Word
  lost : Bool
  /-- Retired HBM channels: stack · 32 + channel (R349 0x75). -/
  retired : List Nat
  /-- Cycle of the last recalibration of each channel (R353). -/
  recal : SMap Nat
  /-- Digests of the verified images, in the order of R354. -/
  digests : List Line
  /-- Boot stage: images verified so far; and the stage that a failed check reported through the management controller (R354). -/
  boot : Nat
  bootReport : Option Nat
  /-- Issue is slowed by a power or thermal limit (R349 0x7E). -/
  slowed : Bool
  /-- Rows that have failed, die · 32 + physical row (R14). -/
  failedRows : List Nat
  /-- Measurements answered to the last attestation (R355). -/
  attested : List Line
  /-- The cycle of each die's last permit audit (R352). -/
  audits : SMap Nat
deriving DecidableEq, Repr

/-- R17: a package after reset. -/
def Package.reset : Package :=
  ⟨0xCB984310, 0x8421084210, false, [], [], [], 0, none, false, [], [], []⟩

/-- A step that happens next, with the unit it concerns (MODEL'S OWN, log 3). -/
structure Happening where
  subject : Nat
  event : Instr
deriving DecidableEq, Repr

/-- A precise cause with its trap information; `tpc` replaces the code address of the group where a rule says so. -/
structure TrapInfo where
  cause : Nat
  a : Word
  b : Word
  tpc : Option Word
deriving DecidableEq, Repr

/-- What the group being issued needs to know (MODEL'S OWN): its first address, the address after it, the registers as they
stood before a pair (R56), the precise trap it took, whether it trapped or could not issue, where it branched, the slot being
executed, the instructions still to execute with their slots, all its instructions, the wait it comes from, whether it has been
forwarded, whether it ends the phase (R276), for a forwarded group where the leader branched, and how many messages it has sent (R183). -/
structure Group where
  todo : List (Nat × Instr)
  all : List (Nat × Instr)
  waited : Option Wait
  sent : Bool
  went : Option (Option Word)
  first : Word
  next : Word
  view : Option Ctx
  raised : Option TrapInfo
  trapped : Bool
  stalled : Bool
  target : Option Word
  pend : Bool
  slot : Nat
  remote : Bool
  yielded : Bool
  msg : Nat
deriving DecidableEq, Repr

/-- Nothing is being issued. -/
def Group.idle : Group := ⟨[], [], none, false, none, 0, 0, none, none, false, false, none, false, 0, false, false, 0⟩

/-- What the agenda puts next: a step of a unit, or the next group of a core, or how many accesses the step after it makes at most
(MODEL'S OWN, log 3). -/
inductive Turn where
  | event (h : Happening)
  | core (k : Nat)
  | limit (n : Nat)
deriving DecidableEq, Repr

/-- An entry of the service-core log (R351): cause, unit and GTIME. -/
structure LogEntry where
  cause : Nat
  unit : Nat
  time : Nat
deriving DecidableEq, Repr

/-- The whole system. -/
structure State where
  /-- Cycles since reset; GTIME (R196). -/
  now : Nat
  mem : Memory
  /-- Lines at their homes, by line number (R148). -/
  lines : SMap LineMeta
  /-- Registers of control space, by physical address (R324). -/
  ctrl : SMap Word
  cores : SMap Core
  ctxs : SMap Ctx
  quads : SMap Quad
  slices : SMap Slice
  gangs : SMap Gang
  /-- The last GANGID given (R176). -/
  lastGang : Nat
  packages : SMap Package
  /-- Accept queues and answers of accumulates (R148). -/
  accs : List AccMsg
  pairs : SMap Pair
  /-- By context: a pair whose first message has been forwarded and whose other form still waits for its own (R56, R183). -/
  halves : SMap Group
  /-- Reports of WAITE on their way (R192). -/
  reports : List Report
  launches : List Launch
  /-- The ASID of the last launch each front end submitted, by package · 128 + number (R326). -/
  feAsid : SMap Nat
  /-- The timestamp of each front end as a master of ordinary accesses (R148, R170). -/
  fePts : SMap Nat
  /-- Collectives under way, by gang · 2^32 + collective ID (R291). -/
  colls : SMap Coll
  log : List LogEntry
  /-- Address-space roots the device operating system holds on each package, by package · 65,536 + ASID (R118, R226, R327). -/
  roots : SMap Word
  /-- The context acting: core key · 4 + context (MODEL'S OWN). -/
  cur : Nat
  grp : Group
  /-- What happens next, before any group issues, and the unit it concerns (MODEL'S OWN, log 3). -/
  agenda : List Turn
  subject : Nat
  /-- How many accesses the present step may still make, where the agenda has set a limit (MODEL'S OWN, log 3). -/
  steps : Option Nat
  /-- The accesses that a long piece of work under way has made (a piece of a command, a shard, a promise command, a transfer of the array, a
  commit), by the work's own number, and the piece that the present step goes on with, with how many of its accesses it has gone over (MODEL'S OWN,
  log 3). -/
  scripts : SMap (List Seen)
  script : Option (Nat × Nat)
  /-- The counter that gives each free value its own (MODEL'S OWN, log 11), and the next phase episode. -/
  free : Nat
  episode : Nat
deriving DecidableEq, Repr

/-- The machine right after reset: nothing launched, memory listing nothing, every unlisted core, slice, quad and package at its
reset value. -/
def State.reset : State where
  now := 0
  mem := []
  lines := []
  ctrl := []
  cur := 0
  cores := []
  ctxs := []
  grp := Group.idle
  quads := []
  slices := []
  gangs := []
  lastGang := 0
  packages := []
  accs := []
  pairs := []
  halves := []
  subject := 0
  reports := []
  launches := []
  steps := none
  feAsid := []
  fePts := []
  colls := []
  script := none
  scripts := []
  agenda := []
  free := 0
  log := []
  roots := []
  episode := 0

end Sys2Proof.Machine
end

