-- ==== Sys2Proof/Machine/Topology.lean ====
section
/-! DEFINITION. Places on the package and the exact packet costs between them (R10 to R16, R23 to R28, R362), and the home
slice of a line (R28). The machine itself does not wait for these costs; they are the spec's figures, for statements. -/
namespace Sys2Proof.Topo
open Bits

/-- R17: the site row and site column of logical die d under a DMAP value. -/
def site (dmap d : Nat) : Nat × Nat := (fld dmap (4 * d + 3) (4 * d + 3), fld dmap (4 * d + 2) (4 * d))

/-- R17: the reset value of DMAP. -/
def dmapReset : Nat := 0xCB984310

/-- R17: the reset value of SROW: every DISn is 16. -/
def srowReset : Nat := (List.range 8).foldl (fun a i => a + 16 * 2 ^ (5 * i)) 0

/-- Whether a site holds a logical die, and so computes. -/
def computing (dmap r u : Nat) : Bool := (List.range 8).any (fun d => site dmap d == (r, u))

/-- R14: the physical row of logical row y when row f is disabled. -/
def physRow (f y : Nat) : Nat := if y < f then y else y + 1

/-- R13: the ring position of a site. -/
def ringSite (r u : Nat) : Nat :=
  if r = 0 then [1, 3, 4, 6, 8].getD u 0 else [16, 14, 13, 11, 9].getD u 0

/-- R13: the ring position of base die j. -/
def ringBase (j : Nat) : Nat := [0, 2, 5, 7, 17, 15, 12, 10].getD j 0

/-- R13: ring distance. -/
def ringDist (p q : Nat) : Nat := let d := max p q - min p q; min d (18 - d)

/-- R24: h(n), hops over n columns. -/
def h (n : Nat) : Nat := n / 4 + n % 4

/-- R25: the sites strictly between two site columns of a site row. -/
def between (dmap r u0 u1 : Nat) : Nat :=
  (List.range 5).foldl (fun c v =>
    if min u0 u1 < v && v < max u0 u1 then c + (if computing dmap r v then 10 else 2) else c) 0

/-- R24 to R26: the cost H = X + V of the route from (die, row, column) to (die, row, column), and `slice` further hops. -/
def route (dmap d0 y0 x0 d1 y1 x1 : Nat) : Nat :=
  let (r0, u0) := site dmap d0
  let (r1, u1) := site dmap d1
  let east := u0 < u1
  let out := h (if east then 31 - x0 else x0)
  let inn := h (if east then x1 else 31 - x1)
  let turnDead := r0 ≠ r1 && u0 ≠ u1 && !computing dmap r0 u1
  let x := if u0 = u1 then h (max x0 x1 - min x0 x1)
    else out + 5 * (max u0 u1 - min u0 u1) + between dmap r0 u0 u1 + (if turnDead then 0 else inn)
  let v := if r0 = r1 then max y0 y1 - min y0 y1
    else
      let leave := if turnDead then 2 else if r0 < r1 then 15 - y0 else y0
      leave + 5 + (if r0 < r1 then y1 else 15 - y1)
  x + v

/-- R27: the one-way packet cost between two cores. -/
def coreCost (dmap d0 y0 x0 d1 y1 x1 : Nat) : Nat := 1 + route dmap d0 y0 x0 d1 y1 x1 + 1

/-- R16, R26: the one-way packet cost to slice (die, edge, column): one hop beyond row 0 (top) or 15 (bottom). -/
def sliceCost (dmap d0 y0 x0 die edge col : Nat) : Nat :=
  1 + (route dmap d0 y0 x0 die (if edge = 0 then 0 else 15) col + 1) + 1

/-- R24: the cost of the reply from a slice: its ends exchanged. -/
def sliceReply (dmap d0 y0 x0 die edge col : Nat) : Nat :=
  1 + (1 + route dmap die (if edge = 0 then 0 else 15) col d0 y0 x0) + 1

/-- R362: the one-way packet cost to a unit of base die j. -/
def baseCost (dmap d y j : Nat) : Nat :=
  let (r, u) := site dmap d
  let v := (if j < 4 then y else 15 - y) + 1
  1 + v + 10 + 3 * (ringDist (ringSite r u) (ringBase j) - 1) + 1

/-- R362: the one-way packet cost to a unit of port die A (`b` false) or B. -/
def portCost (dmap d x : Nat) (b : Bool) : Nat :=
  let (r, u) := site dmap d
  let far := if b then 4 - u else u
  let mid := (List.range 5).foldl (fun c v =>
    if (if b then u < v else v < u) then c + (if computing dmap r v then 10 else 2) else c) 0
  1 + (h (if b then 31 - x else x) + 5 * (far + 1) + mid) + 1

/-- R28: the home slice of offset `a` under seed `s`, as die · 64 + edge · 32 + column. -/
def homeSlice (a s : Nat) : Nat :=
  let x := fld a 43 6 ^^^ fld s 37 0
  fld x 8 0 ^^^ fld x 17 9 ^^^ fld x 26 18 ^^^ fld x 35 27 ^^^ fld x 37 36

/-- R12: the stack of a physical offset. -/
def stackOf (a : Nat) : Nat := fld a 14 12

/-- R27: load latency on an L2 slice hit. -/
def sliceHit (dmap d y x a s : Nat) : Nat :=
  let k := homeSlice a s
  4 + sliceCost dmap d y x (k / 64) (k / 32 % 2) (k % 32) + sliceReply dmap d y x (k / 64) (k / 32 % 2) (k % 32) + 6

/-- R27: load latency on a base-die cache hit. -/
def baseHit (dmap d y x a s : Nat) : Nat :=
  let k := homeSlice a s
  let (r, u) := site dmap (k / 64)
  sliceHit dmap d y x a s + 22 + 3 * (ringDist (ringSite r u) (ringBase (stackOf a)) - 1)

/-- R27: load latency on an HBM page hit or miss. -/
def hbm (dmap d y x a s : Nat) (miss : Bool) : Nat := baseHit dmap d y x a s + (if miss then 70 else 40)

/-- R362: the latency of an LD of a control-space register of base die j. -/
def controlBase (dmap d y j : Nat) : Nat := 4 + 2 * baseCost dmap d y j + 6

/-- R16: the core index of (die, row, column). -/
def coreIndex (die y x : Nat) : Nat := die * 512 + y * 32 + x

end Sys2Proof.Topo
end

