-- ==== Sys2Proof/Machine/Ops.lean ====
section
/-! DEFINITION. The named operations over the state: reading and replacing its parts, control space, address translation and
checks, the steps of the ordering machine, trap entry and return. -/
namespace Sys2Proof.Machine

/-! ### Parts of the state -/

/-- A gang that does not exist: what an unlisted identifier reads as. -/
def Gang.blank : Gang where
  id := 0
  asid := 0
  sup := false
  resv := 0
  levels := []
  cores := []
  seed := 0
  tensors := 0
  trapvec := 0
  entry := 0
  frame := 0
  split := 0
  shadow := 0
  stash := 0
  expiry := 0
  wlimit := 0
  lperm := false
  dchk := false
  cls := 0
  ssn := 0
  st := .complete
  outAt := none
  inAt := none
  queues := []
  kept := []
  log := []
  unprot := false
  roll := 0
  slot0 := []
  slot1 := []
  slotOpen := []
  slotQueues := []
  slotAccs := []
  slotColls := []
  slotPairs := []
  slotReports := []
  slotRan := 0
  saved := []
  ejected := []
  heldReports := []
  leftAt := 0
  owed := none
  moved := []
  openBits := []
  completion := none
  ran := 0
  attached := false
  brks := []
  answer := none
  consumed := none

def State.getCtx (s : State) (key : Nat) : Ctx := mget Ctx.reset key s.ctxs
def State.setCtx (s : State) (key : Nat) (c : Ctx) : State := { s with ctxs := mset key c s.ctxs }
def State.getCore (s : State) (k : Nat) : Core := mget Core.reset k s.cores
def State.setCore (s : State) (k : Nat) (c : Core) : State := { s with cores := mset k c s.cores }
def State.getGang (s : State) (g : Nat) : Gang := mget Gang.blank g s.gangs
def State.setGang (s : State) (g : Nat) (x : Gang) : State := { s with gangs := mset g x s.gangs }
def State.getLine (s : State) (l : Nat) : LineMeta := mget LineMeta.reset l s.lines
def State.setLine (s : State) (l : Nat) (m : LineMeta) : State := { s with lines := mset l m s.lines }
def State.getPkg (s : State) (p : Nat) : Package := mget Package.reset p s.packages
def State.setPkg (s : State) (p : Nat) (x : Package) : State := { s with packages := mset p x s.packages }
def State.getSlice (s : State) (i : Nat) : Slice := mget Slice.reset i s.slices
def State.setSlice (s : State) (i : Nat) (x : Slice) : State := { s with slices := mset i x s.slices }
def State.getQuad (s : State) (q : Nat) : Quad := mget Quad.reset q s.quads
def State.setQuad (s : State) (q : Nat) (x : Quad) : State := { s with quads := mset q x s.quads }

/-- The acting context, its core and its gang. -/
def State.ctx (s : State) : Ctx := s.getCtx s.cur
def State.coreKey (s : State) : Nat := s.cur / 4
def State.ctxNo (s : State) : Fin 4 := ⟨s.cur % 4, Nat.mod_lt _ (by decide)⟩
def State.core (s : State) : Core := s.getCore s.coreKey
def State.pkg (s : State) : Nat := s.coreKey / 4096
def State.gangId (s : State) : Nat := s.core.gang
def State.gang (s : State) : Gang := s.getGang s.gangId

/-- Replaces the acting context, its core or its gang. -/
def State.upd (s : State) (f : Ctx → Ctx) : State := s.setCtx s.cur (f s.ctx)
def State.updCore (s : State) (f : Core → Core) : State := s.setCore s.coreKey (f s.core)
def State.updGang (s : State) (f : Gang → Gang) : State := s.setGang s.gangId (f s.gang)

/-- The registers that the acting group reads: those before the pair (R56). -/
def State.view (s : State) : Ctx := s.grp.view.getD s.ctx

/-- R323: the acting context runs at supervisor level. -/
def State.sup (s : State) : Bool := s.gang.sup

/-- The core key of package and core index (R16). -/
def coreKeyOf (pkg core : Nat) : Nat := pkg * 4096 + core

/-- Die, row and column of a core key. -/
def dieOf (k : Nat) : Nat := k % 4096 / 512
def rowOf (k : Nat) : Nat := k % 512 / 32
def colOf (k : Nat) : Nat := k % 32

/-! ### Registers -/

/-- R93: an s register as the group reads it; s0 reads zero. -/
def State.rs (s : State) (n : Fin 32) : Word := if n = 0 then 0 else s.view.s[n]

/-- R93: a predicate as the group reads it; p0 reads 1. -/
def State.rp (s : State) (n : Fin 8) : Bool := if n = 0 then true else s.view.p.getLsbD n

/-- A context with s register n written and made full (R93, R94); s0 discards writes. -/
def Ctx.putS (c : Ctx) (n : Fin 32) (x : Word) : Ctx :=
  if n = 0 then c else { c with s := c.s.set n x, full := c.full ||| (1#32 <<< n.val) }

/-- A context with s register n empty (R94); s0 is always full. -/
def Ctx.setEmpty (c : Ctx) (n : Fin 32) : Ctx :=
  if n = 0 then c else { c with full := c.full &&& ~~~(1#32 <<< n.val) }

/-- A context with predicate n written (R93); p0 discards writes. -/
def Ctx.putP (c : Ctx) (n : Fin 8) (b : Bool) : Ctx :=
  if n = 0 then c
  else { c with p := if b then c.p ||| (1#8 <<< n.val) else c.p &&& ~~~(1#8 <<< n.val) }

def State.putS (s : State) (n : Fin 32) (x : Word) : State := s.upd (fun c => c.putS n x)
def State.putP (s : State) (n : Fin 8) (b : Bool) : State := s.upd (fun c => c.putP n b)

/-! ### Traps and stops of a group -/

/-- Why a group does not take its effect: it traps, it traps with something done that stays (walks, R337; decrements, R189), or its
context waits in the state given. -/
inductive Stop where
  | trap (t : TrapInfo)
  | after (s : State) (t : TrapInfo)
  | wait (s : State)
deriving DecidableEq, Repr

abbrev Res (α : Type) := Except Stop α

/-- Raises a precise cause. -/
def raise {α : Type} (cause : Nat) (a b : Word) : Res α := .error (.trap ⟨cause, a, b, none⟩)

/-- Raises a precise cause of an access whose walk has been made (R119, R337). -/
def raiseFrom {α : Type} (s : State) (cause : Nat) (a b : Word) : Res α := .error (.after s ⟨cause, a, b, none⟩)

/-- The trap of a stop, changed. -/
def onTrap {α : Type} (f : TrapInfo → TrapInfo) (r : Res α) : Res α :=
  match r with
  | .error (.trap t) => .error (.trap (f t))
  | .error (.after s t) => .error (.after s (f t))
  | r => r

/-- The acting context cannot go on: it waits for the reason given. -/
def stall {α : Type} (s : State) (w : Wait) : Res α := .error (.wait (s.upd (fun c => { c with wait := some w })))

/-- R71: TINFOA and TINFOB of a slot fault. -/
def slotInfo (s : State) (i : Instr) : Word × Word :=
  ((slotOf i).extractLsb' 0 64, BitVec.ofNat 64 (((slotOf i).extractLsb' 64 32).toNat + s.grp.slot * 2 ^ 32))

/-- Raises a cause of R71 with the slot's bits. -/
def raiseSlot {α : Type} (s : State) (i : Instr) (cause : Nat) : Res α :=
  raise cause (slotInfo s i).1 (slotInfo s i).2

/-- R278: cause 0x6B with its subcode; for a prism form with the words of R71, as R264 has it (log 27). -/
def raisePhase {α : Type} (s : State) (i : Instr) (sub : Nat) : Res α :=
  let op := (slotOf i).toNat / 2 ^ 88
  raise 0x6B (slotInfo s i).1 (if 0xB0 ≤ op && op ≤ 0xBB then (slotInfo s i).2
    else BitVec.ofNat 64 (sub + (s.core.phase.elim 0 (·.pcc)) % 65536 * 2 ^ 32))

/-- The acting core is in a communication phase. -/
def State.inPhase (s : State) : Bool := s.core.phase.isSome

/-- R271: a group that would wait in a phase raises 0x6B. -/
def stallOr {α : Type} (s : State) (i : Instr) (w : Wait) : Res α :=
  if s.inPhase then raisePhase s i 1 else stall s w

/-! ### Control space (R324) -/

/-- A physical address from package, region and offset (R115). -/
def mkPa (pkg reg off : Nat) : Nat := pkg * 2 ^ 48 + reg * 2 ^ 44 + off

/-- Package, region and offset of a physical address (R115). -/
def paPkg (pa : Nat) : Nat := pa / 2 ^ 48 % 4096
def paReg (pa : Nat) : Nat := pa / 2 ^ 44 % 16
def paOff (pa : Nat) : Nat := pa % 2 ^ 44

/-- R324: the blocks of control space. -/
inductive Block where
  | slice (i : Nat) | base (j : Nat) | front (n : Nat) | core (c : Nat) | package | none
deriving DecidableEq, Repr

/-- R324: the block of an offset of region 2, and the offset in the block. -/
def blockOf (off : Nat) : Block × Nat :=
  let r := off % 2 ^ 32
  match off / 2 ^ 32 with
  | 0 => if r < 512 * 4096 then (.slice (r / 4096), r % 4096) else (.none, r)
  | 1 => if r < 8 * 4096 then (.base (r / 4096), r % 4096) else (.none, r)
  | 2 => if r < 128 * 64 then (.front (r / 64), r % 64) else (.none, r)
  | 3 => if r < 4096 * 4096 then (.core (r / 4096), r % 4096) else (.none, r)
  | 4 => if r < 0xA00 then (.package, r) else (.none, r)
  | _ => (.none, r)

/-- The physical address of a register of a block. -/
def blockPa (pkg : Nat) (b : Block) (r : Nat) : Nat :=
  mkPa pkg 2 (match b with
    | .slice i => 4096 * i + r
    | .base j => 2 ^ 32 + 4096 * j + r
    | .front n => 2 * 2 ^ 32 + 64 * n + r
    | .core c => 3 * 2 ^ 32 + 4096 * c + r
    | .package => 4 * 2 ^ 32 + r
    | .none => 15 * 2 ^ 32 + r)

/-- The stored word of a control register; a register not yet written holds its reset value (R138, R169). -/
def ctrlRaw (s : State) (pa : Nat) : Word :=
  let (b, r) := blockOf (paOff pa)
  mget (match b, r with
    | .slice _, 0x100 => 8
    | .slice _, 0x108 => 64
    | .front _, 0x08 => 12
    | _, _ => 0) pa s.ctrl

/-- The bits of a control register that a write reaches; none for an unlisted offset (R324). -/
def ctrlMask (b : Block) (r : Nat) : Option Nat :=
  let table := if 0x800 ≤ r && r < 0xA00 && r % 8 = 0 then some 0xFFFF000000000007 else none
  match b with
  | .slice _ => if r = 0x100 then some 0xFF else if r = 0x108 then some 0xFFFF else table
  | .base _ => if r = 0xA00 then some 0x0FFFFFFFFFFFFFC7 else table
  | .core _ => table
  | .front _ =>
    if r = 0x00 || r = 0x10 || r = 0x18 then some 0xFFFFFFFFFFFFFFE0
    else if r = 0x08 then some 0x1F else if r = 0x20 then some 1 else if r = 0x28 then some 0xFF03 else none
  | .package =>
    if r = 0 || r = 8 then some 0xFFFFFFFFFFFFFFFF
    else if 0x100 ≤ r && r < 0x500 && r % 16 = 0 then some 0xFFFF0003FFFFFFFF
    else if 0x100 ≤ r && r < 0x500 && r % 16 = 8 then some 0xFFFFFFFFFFFFFFFF
    else if 0x800 ≤ r && r < 0xA00 && r % 8 = 0 then some 0x3FFF else none
  | .none => none

/-- Stores a control register without a write's conditions. -/
def ctrlSet (s : State) (pa : Nat) (v : Word) : State := { s with ctrl := mset pa v s.ctrl }

/-- R324: what a load of a control register returns; SELF of a system map entry is computed (R325). -/
def ctrlRead (s : State) (pa : Nat) : Word :=
  let (b, r) := blockOf (paOff pa)
  match ctrlMask b r with
  | none => 0
  | some _ =>
    let v := ctrlRaw s pa
    if b = .package && 0x800 ≤ r && v.getLsbD 12 && v.toNat % 4096 = paPkg pa then v ||| 0x4000 else v

/-- R169: STOPPED and CAUSE of front end n are cleared. -/
def clearStop (s : State) (pkg n : Nat) : State :=
  let pa := blockPa pkg (.front n) 0x28
  ctrlSet s pa (ctrlRaw s pa &&& ~~~0xFF01#64)

/-- R138: the accumulate windows of a slice up to now: the one in progress ends, and whole windows of the W then in force follow. -/
def rollWindow (s : State) (i : Nat) : State :=
  let x := s.getSlice i
  let b := x.start + x.len
  if s.now < b then s
  else
    let w := max 16 (ctrlRaw s (blockPa (i / 512) (.slice (i % 512)) 0x108)).toNat
    s.setSlice i { x with start := b + (s.now - b) / w * w, len := w, counts := [] }

/-- The effect of a write to a control register (R138, R169, R324, R325, R358). -/
def ctrlWrite (s : State) (pa : Nat) (v : Word) : State :=
  let (b, r) := blockOf (paOff pa)
  match ctrlMask b r with
  | none => s
  | some m =>
    match b, r with
    | .slice _, 0x100 => ctrlSet s pa (BitVec.ofNat 64 (min v.toNat 255))
    | .slice i, 0x108 => ctrlSet (rollWindow s (paPkg pa * 512 + i)) pa (BitVec.ofNat 64 (max 16 (min v.toNat 65535)))
    | .front _, 0x08 => ctrlSet s pa (BitVec.ofNat 64 (max 12 (min v.toNat 24)))
    | .front n, 0x10 =>
      if (ctrlRaw s (blockPa (paPkg pa) (.front n) 0x20)).getLsbD 0 && !(ctrlRaw s (blockPa (paPkg pa) (.front n) 0x28)).getLsbD 0
      then s else ctrlSet s pa (v &&& BitVec.ofNat 64 m)
    | .front n, 0x20 =>
      ctrlSet (if v.getLsbD 1 then clearStop s (paPkg pa) n else s) pa (v &&& 1)
    | .front _, 0x28 => s
    | _, _ => ctrlSet s pa (v &&& BitVec.ofNat 64 m)

/-- R325: the system map of a package: package number and standby bit of each valid entry, in order, names once. -/
def sysMap (s : State) (pkg : Nat) : List (Nat × Bool) :=
  (List.range 64).foldl (fun acc i =>
    let e := ctrlRaw s (blockPa pkg .package (0x800 + 8 * i))
    let p := e.toNat % 4096
    if e.getLsbD 12 && !(acc.any (fun x => x.1 == p)) then acc ++ [(p, e.getLsbD 13)] else acc) []

/-- R116: a package number that an address may name from package `own`. -/
def listed (s : State) (own p : Nat) : Bool := (sysMap s own).any (fun x => x.1 == p)

/-- R326: whether the access table at the given block lets the address space read or write. -/
def tableAllows (s : State) (pkg : Nat) (b : Block) (asid : Nat) (rd wr : Bool) : Bool :=
  asid == 0 || (List.range 64).any (fun i =>
    let e := ctrlRaw s (blockPa pkg b (0x800 + 8 * i))
    e.getLsbD 0 && e.toNat / 2 ^ 48 == asid && (!rd || e.getLsbD 1) && (!wr || e.getLsbD 2))

/-! ### Translation (R115 to R119, R123) -/

/-- The kinds of access that a check is made for. -/
inductive Kind where
  | read | write | exec
deriving DecidableEq, Repr

/-- Index and shift of a level of the walk (R118). -/
def levelIndex (va level : Nat) : Nat :=
  match level with
  | 0 => Bits.fld va 56 39
  | 1 => Bits.fld va 38 30
  | 2 => Bits.fld va 29 21
  | _ => Bits.fld va 20 16

/-- log2 of the page of a leaf at a level (R118). -/
def pageShift (level : Nat) : Nat :=
  match level with
  | 1 => 30
  | 2 => 21
  | _ => 16

/-- R118: what an entry of a table of a level names: the next table, or (`some none`) a page; none where it is not valid. -/
def tableEntry (level e : Nat) : Option (Option Nat) :=
  let pa := Bits.fld e 59 8 * 256
  if !Bits.bit e 0 || Bits.fld e 63 60 ≠ 0 || Bits.fld e 7 6 ≠ 0 then none
  else if Bits.bit e 1 then
    if level = 0 || pa % 2 ^ pageShift level ≠ 0 then none else some none
  else if level = 3 || pa % (if level = 2 then 256 else 4096) ≠ 0 then none
  else some (some pa)

/-- R118: walks from `level` down with `fuel` levels left: the level and the entry of the leaf, or the level that failed. -/
def walk (m : Memory) (va : Nat) : Nat → Nat → Nat → Except Nat (Nat × Nat)
  | 0, level, _ => .error level
  | fuel + 1, level, base =>
    let e := m.readLE (base + 8 * levelIndex va level) 8
    match tableEntry level e with
    | none => .error level
    | some (some next) => walk m va fuel (level + 1) next
    | some none => .ok (level, e)

/-- R118: the same walk where each entry is read by `read`, which may change a state or stop. -/
def walkBy {σ ε : Type} (read : σ → Nat → Except ε (σ × Nat)) (va : Nat) : σ → Nat → Nat → Nat → Except ε (σ × Except Nat (Nat × Nat))
  | s, 0, level, _ => .ok (s, .error level)
  | s, fuel + 1, level, base =>
    match read s (base + 8 * levelIndex va level) with
    | .error x => .error x
    | .ok (s, e) =>
      match tableEntry level e with
      | none => .ok (s, .error level)
      | some (some next) => walkBy read va s fuel (level + 1) next
      | some none => .ok (s, .ok (level, e))

/-- The near window (R117). -/
def nearBase : Nat := 0xFFFFF00000000000

/-- R117: the offset in the near window of a virtual address. -/
def nearOff (va : Nat) : Option Nat := if nearBase ≤ va && va < nearBase + 0x40000 then some (va - nearBase) else none

/-- R120, R116: the scratchpad bytes of a core. -/
def padSize (s : State) (k : Nat) : Nat := 16384 * (s.getCore k).split

/-- A translation that succeeded: the physical address, and an entry for the translation cache when a walk was made. -/
structure Xlat where
  pa : Nat
  fill : Option TlbEntry
deriving DecidableEq, Repr

/-- R119: the cached translation of a virtual address. -/
def tlbHit (c : Core) (asid va : Nat) : Option TlbEntry :=
  c.tlb.find? (fun e => e.asid == asid && e.vpn == va / 2 ^ pageShift e.level)

/-- R119: an access of the gang on the core needs the walker: its address is in no window and no translation of it is cached. -/
def needsWalk (s : State) (k g va : Nat) : Bool :=
  !((nearOff va).isSome || 2 ^ 57 ≤ va || (tlbHit (s.getCore k) (s.getGang g).asid va).isSome)

/-- R123 steps 1 and 3 to 6 for one byte of `va`, as the gang g on core k sees it: cause, and what TINFOB holds. `miss` is what the walk
finds where no translation is cached. -/
def xlateWith (s : State) (k g : Nat) (va : Nat) (kind : Kind) (miss : Except Nat (Nat × Nat)) : Except (Nat × Nat) Xlat :=
  let gang := s.getGang g
  let own := k / 4096
  let bound (pa : Nat) (f : Option TlbEntry) (near : Bool) : Except (Nat × Nat) Xlat :=
    let off := paOff pa
    if 3 ≤ paReg pa || (!near && !listed s own (paPkg pa)) || (paReg pa = 0 && Config.deviceBytes ≤ off) || (paReg pa = 2 && !gang.sup) then
      .error (0x16, 0)
    else if paReg pa = 1 && (4096 ≤ off / 2 ^ 18 || padSize s (coreKeyOf (paPkg pa) (off / 2 ^ 18)) ≤ off % 2 ^ 18) then .error (0x15, 0)
    else .ok ⟨pa, f⟩
  match nearOff va with
  | some b => if kind = .exec then .error (0x0D, 0) else bound (mkPa own 1 (k % 4096 * 2 ^ 18 + b)) none true
  | none =>
    if 2 ^ 57 ≤ va then .error (0x14, 0)
    else
      let core := s.getCore k
      let hit := tlbHit core gang.asid va
      let found : Except Nat (Nat × Nat × Bool) := match hit with
        | some e => .ok (e.level, e.pte.toNat, false)
        | none => miss.map (fun x => (x.1, x.2, true))
      match found with
      | .error level => .error (0x10, level)
      | .ok (level, pte, walked) =>
        let permitted := match kind with
          | .read => Bits.bit pte 2
          | .write => Bits.bit pte 3
          | .exec => Bits.bit pte 4
        let lvl := !gang.sup && !Bits.bit pte 5
        if !permitted || lvl then
          if kind = .exec then .error (0x0D, 0)
          else .error (0x11, Bits.b2n (kind = .write) + 2 * Bits.b2n lvl)
        else
          let pa := Bits.fld pte 59 8 * 256 + va % 2 ^ pageShift level
          bound pa (if walked then some ⟨gang.asid, level, va / 2 ^ pageShift level, BitVec.ofNat 64 pte⟩ else none) false

/-- The same with the tables as memory holds them. -/
def xlate (s : State) (k g : Nat) (va : Nat) (kind : Kind) : Except (Nat × Nat) Xlat :=
  xlateWith s k g va kind (walk s.mem va 4 0 (s.getCore k).root.toNat)

/-- R119: puts a walked translation into the core's cache of 64 entries; the oldest makes room (log 14). -/
def fillTlb (s : State) (k : Nat) (x : Xlat) : State :=
  match x.fill with
  | none => s
  | some e =>
    let c := s.getCore k
    s.setCore k { c with tlb := (if c.tlb.length < 64 then c.tlb else c.tlb.drop 1) ++ [e] }

/-- R337: counts a page walk of a core. -/
def countWalk (s : State) (k : Nat) : State := s.setCore k { s.getCore k with walk := (s.getCore k).walk + 1 }

/-! ### Homes, access tables and poison -/

/-- The packages of a gang (R348). -/
def gangPkgs (g : Gang) : List Nat := (g.cores.map (· / 4096)).eraseDups

/-- R121: the seed that places a package's lines for a gang: its own where it has cores, else that of the gang on that package
(the one with the lowest core, log 29; 0 where none is). -/
def seedOn (s : State) (g : Gang) (p : Nat) : Nat :=
  if g.cores.isEmpty || (gangPkgs g).contains p then g.seed
  else
    match s.cores.find? (fun x => x.1 / 4096 = p && x.2.gang ≠ 0) with
    | some x => (s.getGang x.2.gang).seed
    | none => 0

/-- R28, R121: the slice that is home to a device-memory line, as a slice key (package · 512 + slice). -/
def sliceOf (s : State) (g : Gang) (pa : Nat) : Nat := paPkg pa * 512 + Topo.homeSlice (paOff pa) (seedOn s g (paPkg pa))

/-- The core whose scratchpad holds an address of region 1. -/
def padCore (pa : Nat) : Nat := coreKeyOf (paPkg pa) (paOff pa / 2 ^ 18)

/-- R122, R326: whether the target of a physical address lets an address space read or write it. A core's own scratchpad is
reached without its port. -/
def targetAllows (s : State) (k g : Nat) (asid : Nat) (pa : Nat) (rd wr : Bool) : Bool :=
  match paReg pa with
  | 0 => tableAllows s (paPkg pa) (.slice (sliceOf s (s.getGang g) pa % 512)) asid rd wr
  | 1 => padCore pa == k || tableAllows s (paPkg pa) (.core (padCore pa % 4096)) asid rd wr
  | _ =>
    match (blockOf (paOff pa)).1 with
    | .slice i => tableAllows s (paPkg pa) (.slice i) asid rd wr
    | .base j => tableAllows s (paPkg pa) (.base j) asid rd wr
    | .core c => tableAllows s (paPkg pa) (.core c) asid rd wr
    | _ => true

/-- Who reads a line, for EINJ (R358). -/
inductive Reader where
  | ctx | update | channel | other
deriving DecidableEq, Repr

/-- R358: a read of a device-memory line at its home fires an armed EINJ that names it: the line is poisoned and ARM cleared. -/
def homeRead (s : State) (who : Reader) (pa : Nat) : State :=
  let reg := blockPa (paPkg pa) (.base (Topo.stackOf (paOff pa))) 0xA00
  let e := ctrlRaw s reg
  let admits := match e.toNat / 2 % 4 with
    | 0 => true
    | 1 => who == .update
    | 2 => who == .channel
    | _ => who == .ctx
  if paReg pa = 0 && e.getLsbD 0 && e.toNat / 64 % 2 ^ 54 == pa / 64 && admits then
    ctrlSet (s.setLine (pa / 64) { s.getLine (pa / 64) with poison := true }) reg (e &&& ~~~1#64)
  else s

/-- R357: whether a device-memory line is poisoned. -/
def poisoned (s : State) (pa : Nat) : Bool := paReg pa = 0 && (s.getLine (pa / 64)).poison

/-! ### Writing memory -/

/-- Inserts a number into a rising list. -/
def insertNat (x : Nat) : List Nat → List Nat
  | [] => [x]
  | y :: ys => if x < y then x :: y :: ys else if x = y then y :: ys else y :: insertNat x ys

/-- The 64 bytes of a line as it stands at its home. -/
def lineVal (s : State) (l : Nat) : Line := BitVec.ofNat 512 (s.mem.readLE (l * 64) 64)

/-- Bytes that one core block takes (R345). -/
def coreBlockBytes (split : Nat) : Nat := 16384 * split + 88 * 1024

/-- R327, R343: the first core of a gang with the registers it has for the gang: of a gang that is switched out, those saved. -/
def rootedAt (s : State) (g : Nat) : State :=
  let x := s.getGang g
  match x.st, x.saved with
  | .switchedOut, img :: _ => s.setCore (x.cores.headD 0) img.core
  | _, _ => s

/-- A virtual address as the device operating system finds it in a gang's address space, on its first core. -/
def gangPa (s : State) (g : Nat) (va : Word) : Option Nat :=
  match xlate (rootedAt s g) ((s.getGang g).cores.headD 0) g va.toNat .read with
  | .ok x => some x.pa
  | .error _ => none

/-- R346: the physical address of a doubleword of the gang's fault record, when the gang has a shadow area (log 6). -/
def faultRec (s : State) (g : Nat) (dw : Nat) : Option Nat :=
  let gang := s.getGang g
  if gang.shadow = 0 then none else gangPa s g (gang.shadow + BitVec.ofNat 64 (8 * dw))

/-- R346: where the entry of the n-th logged line begins in the shadow area: the log follows the slots. -/
def logOffset (x : Gang) (n : Nat) : Nat :=
  0x1000 + 2 * (x.cores.length * coreBlockBytes x.split) + Config.logEntryBytes * n

/-- R346, R347: the physical addresses of the bytes of that entry. -/
def logEntry (s : State) (g n : Nat) : List Nat :=
  let x := s.getGang g
  (List.range Config.logEntryBytes).filterMap (fun j => gangPa s g (x.shadow + BitVec.ofNat 64 (logOffset x n + j)))

/-- R347: stores the entry of the n-th logged line; the spec gives its bytes no layout, so they are free values (log 7). -/
def putLogEntry (s : State) (g n : Nat) : State :=
  { s with
    mem := (logEntry s g n).zipIdx.foldl (fun m x => m.write x.1 ((Config.freeWord (s.free + x.2)).setWidth 8)) s.mem
    free := s.free + Config.logEntryBytes }

/-- R347, R348: records the value a line held before the first write of the superstep; when the area is full the gang goes on
unprotected. -/
def logLine (s : State) (g l : Nat) : State :=
  let gang := s.getGang g
  if g = 0 || (mget? l gang.log).isSome || gang.st ≠ .running then s
  else
    let log := mset l (lineVal s l, (s.getLine l).dirty) gang.log
    match faultRec s g 0, faultRec s g 1 with
    | some a, some u =>
      if s.mem.readLE a 8 < logOffset gang log.length then
        { s.setGang g { gang with unprot := true } with mem := s.mem.writeLE u 8 (s.mem.readLE u 8 ||| 1) }
      else (putLogEntry s g gang.log.length).setGang g { gang with log := log }
    | _, _ => s.setGang g { gang with log := log }

/-- R192: whether a word makes the comparison of a watch true. -/
def watchHolds (w : Watch) (v : Word) : Bool := Num.condHolds w.cc (compare (Num.intVal w.ty v.toNat) w.rhs)

/-- R192, R151: the reports that follow a write of `n` bytes at `pa`, given memory before it: one for each waiting WAITE whose word has
changed and has not yet compared true. -/
def reportsOf (s : State) (old : Memory) (pa n : Nat) : List Report :=
  s.ctxs.filterMap (fun x => match x.2.wait with
    | some (.timed (.word w) _ _) =>
      let v : Word := BitVec.ofNat 64 (s.mem.readLE w.pa 8)
      if w.hit.isSome || w.pa + 8 ≤ pa || pa + n ≤ w.pa || v.toNat = old.readLE w.pa 8 ||
          s.reports.any (fun r => r.key = x.1 && r.stamp.isSome) then none
      else some ⟨x.1, v, if watchHolds w v then some (max x.2.pts (s.getLine (pa / 64)).wts) else none⟩
    | _ => none)

/-- R192, R151: sends the reports of a write; the load that a true comparison makes leases the line as any load does. -/
def reportWrite (s : State) (old : Memory) (pa n : Nat) : State :=
  let news := reportsOf s old pa n
  let m := s.getLine (pa / 64)
  match news.filterMap (·.stamp) with
  | [] => { s with reports := s.reports ++ news }
  | ts => { s.setLine (pa / 64) { m with rts := ts.foldl (fun r t => max r (t + Config.lease)) m.rts } with reports := s.reports ++ news }

/-- Writes bytes within one line for gang g: the shadow log first, then memory, the backing value of a line that becomes dirty
(R148), the scratchpad lines that SNAP still has to copy, and the reports to waiting WAITEs (R192). -/
def putBytes (s : State) (g : Nat) (pa : Nat) (bs : List Byte) : State :=
  let l := pa / 64
  let s := logLine s g l
  let m := s.getLine l
  let s := if paReg pa = 0 then s.setLine l { m with dirty := some (m.dirty.getD (lineVal s l)), writer := g } else s
  let s := if paReg pa = 1 then
      let c := s.getCore (padCore pa)
      s.setCore (padCore pa) { c with snapLines := insertNat l c.snapLines }
    else s
  reportWrite { s with mem := s.mem.writeBytes pa bs } s.mem pa bs.length

/-! ### Steps of the ordering machine (R150 to R154, R160, R163) -/

/-- R151: LEASE and the timestamps of a load at the home by a master of timestamp `ts`: the new state and timestamp. -/
def loadHome (s : State) (l ts : Nat) : State × Nat :=
  let m := s.getLine l
  let ts := max ts m.wts
  (s.setLine l { m with rts := max m.rts (ts + Config.lease) }, ts)

/-- R152: the timestamps of a store. -/
def storeHome (s : State) (l ts : Nat) : State × Nat :=
  let m := s.getLine l
  let ts := max ts (m.rts + 1)
  (s.setLine l { m with wts := ts, rts := ts }, ts)

/-- R130, R154, R163: a line has become clean: no L1 holds it dirty any more. -/
def cleanL1 (s : State) (l : Nat) : State :=
  { s with cores := s.cores.map (fun x => (x.1, { x.2 with stored := x.2.stored.filter (fun y => y != l) })) }

/-- R154, R167: a write-back of a line: no L1 holds it dirty any more. The backing value it had goes to the shadow log of the
gang that wrote the line. -/
def writeBackLine (s : State) (l : Nat) : State :=
  let m := s.getLine l
  if m.dirty.isNone then s
  else cleanL1 ((logLine s m.writer l).setLine l { m with dirty := none }) l

/-- The value of a load of `n` bytes at `pa` in the control space or in memory. -/
def valueAt (s : State) (pa n : Nat) : List Byte :=
  if paReg pa = 2 then (Bits.bytesLE 8 (ctrlRead s (pa - pa % 8)).toNat).drop (pa % 8) |>.take n else s.mem.bytes pa n

/-- R120, R151: the core keeps no lease copy of the address: its own scratchpad, control space, or a core without an L1. -/
def uncopied (s : State) (k pa : Nat) : Bool := paReg pa = 2 || (paReg pa = 1 && padCore pa == k) || (s.getCore k).split = 12

/-- R151: a load of a context taken at the line's home: the timestamps, and the lease copy that its core then holds. -/
def homeLoad (s : State) (key pa : Nat) : State :=
  let k := key / 4
  let l := pa / 64
  let r := loadHome s l (s.getCtx key).pts
  let s := r.1.setCtx key { r.1.getCtx key with pts := r.2 }
  if uncopied s k pa then s
  else s.setCore k { s.getCore k with leases := mset l ⟨lineVal s l, (s.getLine l).wts, (s.getLine l).rts⟩ (s.getCore k).leases }

/-- R151: the lease copy that could serve a load of a context. -/
def usableCopy (s : State) (key pa : Nat) : Option Lease :=
  match mget? (pa / 64) (s.getCore (key / 4)).leases with
  | some x => if !uncopied s (key / 4) pa && (s.getCtx key).pts ≤ x.rts then some x else none
  | none => none

/-- R151: one load by a context, at the home or from its core's lease copy; which of the two is open and taken from a free value (log 10).
The state, the bytes, and whether a copy served it. -/
def loadFor (s : State) (key pa n : Nat) : State × List Byte × Bool :=
  match usableCopy s key pa with
  | none => (homeLoad s key pa, valueAt s pa n, false)
  | some x =>
    let t := { s with free := s.free + 1 }
    if Config.takeLease s.free then
      (t.setCtx key { t.getCtx key with pts := max (t.getCtx key).pts x.wts }, ((Bits.bytesLE 64 x.value.toNat).drop (pa % 64)).take n, true)
    else (homeLoad t key pa, valueAt t pa n, false)

/-- R151: one load by the acting context. -/
def loadStep (s : State) (pa n : Nat) : State × List Byte × Bool := loadFor s s.cur pa n

/-- R151: a load of the acting context that is taken at the home. -/
def loadAtHome (s : State) (pa n : Nat) : State × List Byte := (homeLoad s s.cur pa, s.mem.bytes pa n)

/-- R152: one store of the acting context at the line's home. -/
def homeStep (s : State) (pa : Nat) (bs : List Byte) : State :=
  let (s, ts) := storeHome s (pa / 64) s.ctx.pts
  putBytes (s.upd (fun c => { c with pts := ts })) s.gangId pa bs

/-- R152: one store by the acting context, whose L1, if it has one (R120), then holds the line dirty (R130). -/
def storeStep (s : State) (pa : Nat) (bs : List Byte) : State :=
  homeStep (if paReg pa = 0 && s.core.split ≠ 12 then s.updCore (fun c => { c with stored := insertNat (pa / 64) c.stored }) else s) pa bs

/-- R152: one read-modify-write by the acting context; the writer sees the old bytes. -/
def rmwStep (s : State) (pa n : Nat) (f : List Byte → List Byte) : State × List Byte :=
  let old := s.mem.bytes pa n
  (homeStep s pa (f old), old)

/-! ### Long pieces of work (MODEL'S OWN, log 3) -/

/-- The access that the present step comes to has been made already. -/
def replayed (s : State) : Option Seen := s.script.bind (fun x => (mget [] x.1 s.scripts)[x.2]?)

/-- The present step goes over an access that has been made. -/
def goOver (s : State) : State := { s with script := s.script.map (fun x => (x.1, x.2 + 1)) }

/-- An access has been made, and is kept where the agenda may let other steps fall after it (R149, R156). -/
def noteSeen (s : State) (x : Seen) : State :=
  match s.steps, s.script with
  | some _, some (key, _) => goOver { s with scripts := mset key (mget [] key s.scripts ++ [x]) s.scripts }
  | _, _ => s

/-- The present step makes no further access. -/
def spentOut (s : State) : Bool := s.steps == some 0

/-- One access less may be made. -/
def spend (s : State) : State := { s with steps := s.steps.map (· - 1) }

/-- The work of a number begins, or goes on where it was left. -/
def openScript (s : State) (key : Nat) : State := { s with script := some (key, 0) }

/-- The step ends, with the work left or done. -/
def closeScript (s : State) (done : Bool) : State :=
  { s with script := none
           scripts := if done then s.script.elim s.scripts (fun x => mdel x.1 s.scripts) else s.scripts }

/-- R357: a context consumes poison: its gang takes 0x70 and the access has no effect. -/
def consumeAt {α : Type} (s : State) (key pa : Nat) : Res α :=
  let g := (s.getCore (key / 4)).gang
  let t := s.setGang g { s.getGang g with consumed := some (pa / 64, key) }
  .error (.wait (t.setCtx key { t.getCtx key with wait := some .stopped }))

/-- R357: the acting context consumes poison. -/
def consume {α : Type} (s : State) (pa : Nat) : Res α := consumeAt s s.cur pa

/-- Two byte ranges overlap. -/
def overlaps (a n b m : Nat) : Bool := a < b + m && b < a + n

/-- R158: a command in flight of the core whose destination overlaps these bytes. -/
def overlapping (c : Core) (pa n : Nat) : Option SbEntry :=
  c.scoreboard.find? (fun e => e.ranges.any (fun r => overlaps pa n r.1 r.2))

/-- R119, R127, R158, R357: the walker's read of a table entry for a context, an ordinary load of it. -/
def walkLoad (key : Nat) (s : State) (a : Nat) : Res (State × Nat) :=
  match overlapping (s.getCore (key / 4)) a 8 with
  | some e => .error (.wait (s.setCtx key { s.getCtx key with wait := some (.overlap e.chain e.seq) }))
  | none =>
    let s := homeRead s .ctx a
    if poisoned s a then consumeAt s key a
    else
      let r := loadFor s key a 8
      .ok (r.1, Bits.ofBytesLE r.2.1)

/-- R119: the walk for an access of a context, where its translation is not cached: what it finds. -/
def walkStep (s : State) (key va : Nat) : Res (State × Except Nat (Nat × Nat)) :=
  let k := key / 4
  if needsWalk s k (s.getCore k).gang va then walkBy (walkLoad key) va (countWalk s k) 4 0 (s.getCore k).root.toNat
  else .ok (s, .error 0)

/-- R123: checks an access of the acting context aligned to `align`: the physical address and the state with its translation
cached. A failure raises its cause with TINFOA the address. -/
def checkEA (s : State) (ea : Word) (align : Nat) (kind : Kind) : Res (State × Nat) :=
  let va := ea.toNat
  if (nearOff va).isNone && 2 ^ 57 ≤ va then raise 0x14 ea 0
  else if va % align ≠ 0 then raise 0x13 ea 0
  else
    match walkStep s s.cur va with
    | .error e => .error e
    | .ok (s, found) =>
      match xlateWith s s.coreKey s.gangId va kind found with
      | .error (c, b) => raiseFrom s c ea (BitVec.ofNat 64 b)
      | .ok x => .ok (fillTlb s s.coreKey x, x.pa)

/-! ### The end of a context, fault records, trap entry and return -/

/-- R351: adds an event to the gang's fault record; the first one's details are kept. -/
def recordFault (s : State) (g : Nat) (cause : Nat) (key : Nat) (tpc a b : Word) : State :=
  match faultRec s g 2 with
  | none => s
  | some p =>
    let n := s.mem.readLE p 8
    let m := s.mem.writeLE p 8 (n + 1)
    let m := if n = 0 then
        ((((m.writeLE (p + 8) 8 (cause + 256 * (key % 4) + 1024 * (key / 4 % 4096))).writeLE (p + 16) 8 tpc.toNat).writeLE
          (p + 24) 8 a.toNat).writeLE (p + 32) 8 b.toNat).writeLE (p + 40) 8 s.now
      else m
    { s with mem := m }

/-- Matrix or prism forms that the core dispatched and that have not completed (R234). -/
def matrixBusy (c : Core) : Bool :=
  c.ring.any (fun e => e.2.state == 1 && 0xA0 ≤ e.2.insn.toNat / 2 ^ 88 && e.2.insn.toNat / 2 ^ 88 ≤ 0xBB)

/-- R234: the claim of a core goes to one of its contexts: the matrix state is zeroed when the address space is another one. -/
def takeClaim (s : State) (k : Nat) (n : Fin 4) : State :=
  let c := s.getCore k
  let asid := (s.getGang c.gang).asid
  let c := if c.claimAsid = some asid then c else { c with
    tiles := Core.reset.tiles, tsh := Core.reset.tsh, accs := Core.reset.accs, status := Core.reset.status, bits := Core.reset.bits }
  s.setCore k { c with claim := some n, releasing := false, claimAsid := some asid }

/-- R234: the first context that waits for the claim, in order after the releasing one. -/
def claimWaiter (s : State) (k : Nat) (h : Fin 4) : Option (Fin 4) :=
  ([1, 2, 3, 4].map (fun j => (⟨(h.val + j) % 4, Nat.mod_lt _ (by decide)⟩ : Fin 4))).find? (fun n =>
    (s.getCtx (4 * k + n.val)).live && (s.getCtx (4 * k + n.val)).wait == some .claim)

/-- R234: a claim that its holder gives up is free once the core's matrix and prism forms have completed: MRLS goes on, and a
waiting context takes the claim by CLAIM_HANDOVER, the next step. -/
def passClaim (s : State) (k : Nat) : State :=
  let c := s.getCore k
  match c.claim with
  | none => s
  | some h =>
    if !c.releasing || matrixBusy c then s
    else
      let x := s.getCtx (4 * k + h.val)
      let s := if x.wait = some .release then s.setCtx (4 * k + h.val) { x with wait := some .released } else s
      match claimWaiter s k h with
      | none => s.setCore k { c with claim := none, releasing := false }
      | some _ => { s with agenda := s.agenda ++ [.event ⟨k, .claimHandover k⟩] }

/-- R205: how long ago a sequence number was given; the greatest is the oldest. -/
def tseqAge (now n : Nat) : Nat := (now + 65535 - n) % 65535

/-- Puts a ring entry among others, oldest first (R206). -/
def insertEntry (now : Nat) (e : Nat × RingEntry) : List (Nat × RingEntry) → List (Nat × RingEntry)
  | [] => [e]
  | x :: xs => if tseqAge now x.2.tseq < tseqAge now e.2.tseq then e :: x :: xs else x :: insertEntry now e xs

/-- R206, R351: the faulted entries of a context that is no longer live go to the fault record, oldest first, and are freed. -/
def flushFaults (s : State) (key : Nat) : State :=
  let c := s.getCore (key / 4)
  (c.ring.foldr (insertEntry c.tseq) []).foldl (fun s e =>
    if e.2.state = 3 && !e.2.taken && e.2.ctx.val = key % 4 then
      let s := recordFault s c.gang e.2.cause key e.2.pc e.2.infoA e.2.infoB
      let c := s.getCore (key / 4)
      s.setCore (key / 4) { c with ring := mset e.1 { e.2 with state := 0 } c.ring }
    else s) s

/-- R206: the dispatched forms of a context that ends belong to no later task. -/
def disown (s : State) (key : Nat) : State :=
  let c := s.getCore (key / 4)
  s.setCore (key / 4) { c with ring := c.ring.map (fun e => (e.1,
    if e.2.ctx.val = key % 4 && e.2.state = 1 then { e.2 with orphan := true } else e.2)) }

/-- R183: a paired task is over when neither copy runs. -/
def dropPair (s : State) (pid : Nat) : State :=
  match mget? pid s.pairs with
  | none => s
  | some p =>
    let runs (key : Nat) : Bool := (s.getCtx key).pair == some pid
    if runs p.first || p.second.any runs then s else { s with pairs := mdel pid s.pairs }

/-- R96, R206, R234: a context stops being live: it gives up its claim, and its faults go to the fault record. -/
def endContext (s : State) (key : Nat) : State :=
  let pid := (s.getCtx key).pair
  let s := { s with halves := mdel key s.halves }.setCtx key { s.getCtx key with live := false, wait := none, packet := none, capture := none, lfs := 0, pair := none, errors := [], refusals := [], walking := none, behind := none, sent := [] }
  let s := match pid with
    | some p => dropPair s p
    | none => s
  let c := s.getCore (key / 4)
  let s := if c.claim.map Fin.val = some (key % 4) then s.setCore (key / 4) { c with releasing := true } else s
  passClaim (disown (flushFaults s key) key) (key / 4)

/-- R54: whether a slot is the first slot of a group under a pairing template. -/
def firstSlot (pt slot : Nat) : Bool :=
  match slot with
  | 0 => true
  | 1 => pt ≠ 1 && pt ≠ 5 && pt ≠ 6
  | 2 => pt ≠ 2 && pt ≠ 7
  | 3 => pt ≠ 3 && pt ≠ 5
  | _ => pt ≠ 4 && pt ≠ 6 && pt ≠ 7

/-- R54: whether the group at a slot is a pair. -/
def pairAt (pt slot : Nat) : Bool := slot < 4 && !firstSlot pt (slot + 1)

/-- R50: the line word of a line. -/
def lineWord (l : Line) : Nat := l.toNat / 2 ^ 480

/-- R49: slot j of a line. -/
def slotAt (l : Line) (j : Nat) : Slot := l.extractLsb' (96 * j) 96

/-- R51: a well-formed code address. -/
def codeAddrOk (a : Word) : Bool := Bits.fld a.toNat 5 3 = 0 && a.toNat % 8 < 5

/-- R118, R122, R324: the physical address of the line at a code address, of a translation that has been looked up; none where the page, the
region or the target's access table does not let it be fetched. -/
def fetchable (s : State) (key : Nat) (r : Except (Nat × Nat) Xlat) : Option Nat :=
  let k := key / 4
  let g := (s.getCore k).gang
  match r with
  | .ok x => if paReg x.pa = 2 || !targetAllows s k g (s.getGang g).asid x.pa true false then none else some x.pa
  | .error _ => none

/-- The same with the tables as memory holds them. -/
def fetchPa (s : State) (key : Nat) (a : Word) : Option Nat :=
  fetchable s key (xlate s (key / 4) (s.getCore (key / 4)).gang (a.toNat / 64 * 64) .exec)

/-- R119: the same for a fetch by a context, whose walk is made of loads and whose translation is then cached. -/
def fetchAt (s : State) (key : Nat) (a : Word) : Res (State × Option Nat) :=
  match walkStep s key (a.toNat / 64 * 64) with
  | .error e => .error e
  | .ok (s, found) =>
    let k := key / 4
    let r := xlateWith s k (s.getCore k).gang (a.toNat / 64 * 64) .exec found
    .ok (match r with
      | .ok x => fillTlb s k x
      | .error _ => s, fetchable s key r)

/-- The line that a context holds already: the one it has entered (R53), or one of the loaded run of its phase (R270). -/
def heldLine (s : State) (key : Nat) (a : Word) : Option Line :=
  let run := (s.getCore (key / 4)).phase.elim [] (fun p => if p.ctx.val = key % 4 then p.run else [])
  (((s.getCtx key).lineBuf.toList ++ run).find? (fun x => x.1 == (a &&& ~~~0x3F#64))).map (·.2)

/-- Whether a context could fetch the line at a code address (R329). -/
def reachable (s : State) (key : Nat) (a : Word) : Bool := (heldLine s key a).isSome || (fetchPa s key a).isSome

/-- The line a context would fetch at a code address; none when it cannot be fetched, or would be consumed as poison (R357). -/
def peekLine (s : State) (key : Nat) (a : Word) : Option Line :=
  (heldLine s key a).or ((fetchPa s key a).bind (fun pa => if poisoned s pa then none else some (lineVal s (pa / 64))))

/-- R57, R119, R357, R358: a branch to a code address reads the line of its target, if the context does not hold it: the walk's loads, and
the read at the line's home, which may consume poison. -/
def lookAhead (s : State) (key : Nat) (a : Word) : Res State :=
  if !codeAddrOk a || (heldLine s key a).isSome || (s.getCore (key / 4)).phase.isSome then .ok s
  else
    match fetchAt s key a with
    | .error e => .error e
    | .ok (s, none) => .ok s
    | .ok (s, some pa) =>
      let s := homeRead s .ctx pa
      if poisoned s pa then consumeAt s key pa else .ok s

/-- R57: the cause a target of a branch raises, `btm` when its BTM bit is checked; none for a target that passes. A line that
cannot be fetched raises its own cause when execution reaches it. -/
def targetCause (s : State) (key : Nat) (a : Word) (btm : Bool) : Option Nat :=
  if !codeAddrOk a then some 0x0B
  else
    match peekLine s key a with
    | none => none
    | some l =>
      let w := lineWord l
      let j := a.toNat % 8
      if !firstSlot (Bits.fld w 7 5) j then some (if btm then 0x06 else 0x0B)
      else if btm && !Bits.bit w j then some 0x06
      else none

/-- R277, R276: the phase ends on a core: latches, pass-throughs and values in flight are dropped. Loads that have not yet been used
are answered (R94). -/
def endPhase (s : State) (k : Nat) : State :=
  let c := s.getCore k
  match c.phase with
  | none => s
  | some p =>
    let key := 4 * k + p.ctx.val
    p.loads.foldl (fun s x => s.setCtx key ((s.getCtx key).putS x.1 x.2.1)) (s.setCore k { c with phase := none })

/-- R102, R106: a context's own fetch. -/
def ownFetch (c : Ctx) : Ctx := { c with lfs := 0 }

/-- R206: the s register that a dispatched form made empty is full again. -/
def refill (s : State) (key : Nat) (e : RingEntry) : State :=
  match e.dest with
  | none => s
  | some d => s.setCtx key { s.getCtx key with full := (s.getCtx key).full ||| (1#32 <<< d.val) }

/-- R204: discards the open capture of a context: its forms leave the ring and the sequencer, and what they made empty is full. -/
def dropCapture (s : State) (key : Nat) : State :=
  match (s.getCtx key).capture with
  | none => s
  | some cap =>
    let core := s.getCore (key / 4)
    let s := cap.forms.foldl (fun s q => refill s key (mget RingEntry.free (q % 64) core.ring)) s
    let s := s.setCore (key / 4) { core with
      ring := cap.forms.foldl (fun r q => mset (q % 64) { mget RingEntry.free (q % 64) r with state := 0 } r) core.ring
      seq := core.seq.filter (fun q => !cap.forms.contains q) }
    s.setCtx key { s.getCtx key with capture := none }

/-- R329: trap entry of a context: double trap, unhandled, or the handler. A trap in a phase ends it (R277), one taken while a
capture is open discards it (R204), and a follower that traps detaches (R102). In a gang that the Seroan service has attached, cause 0x0F
stops the gang as a gang switch does instead (R333). -/
def enterTrap (s : State) (key : Nat) (t : TrapInfo) (imp : Bool) (tseq : Nat) : State :=
  let k := key / 4
  let c := s.getCtx key
  let here : Word := match c.capture with
    | some cap => cap.start
    | none => c.pc
  let tpc := t.tpc.getD here
  let s := dropCapture s key
  let s := if (s.getCore k).phase.any (fun p => p.ctx.val = key % 4) then endPhase s k else s
  let c := s.getCtx key
  let c := { c with wait := none, lfs := if c.lfs.toNat % 4 ≥ 2 then 0 else c.lfs, lineBuf := none, sent := [], behind := none }
  let s := { s with halves := mdel key s.halves }.setCtx key c
  let g := (s.getCore k).gang
  if t.cause = 0x0F && (s.getGang g).attached then
    let x := s.getGang g
    { (s.setCtx key { c with pc := tpc, stepBrk := if t.b.getLsbD 0 then some tpc else c.stepBrk }).setGang g
        { x with outAt := some (x.outAt.elim s.now (min s.now)) } with agenda := s.agenda ++ [.event ⟨g, .gangSwitchStop⟩] }
  else if c.tcause.getLsbD 63 then endContext (recordFault s g 0x7D key tpc t.a t.b) key
  else if c.trapvec = 0 then endContext (recordFault s g t.cause key tpc t.a t.b) key
  else if (targetCause s key c.trapvec true).isSome || !reachable s key c.trapvec then
    endContext (recordFault s g 0x7D key tpc t.a t.b) key
  else
    s.setCtx key { c with
      tcause := BitVec.ofNat 64 (2 ^ 63 + 256 * Bits.b2n imp + t.cause), tpc := tpc, tinfoa := t.a, tinfob := t.b,
      tseq := BitVec.ofNat 64 tseq, pc := c.trapvec }

/-- What the rules leave unsaid of a precise cause at its own group is open (log 11): TINFOB where a rule names only TINFOA (R57, R70, R123, R135,
R188, R296, R316), and both where it names neither (R324, R330, R348). -/
def unsaid (s : State) (t : TrapInfo) : TrapInfo :=
  if t.tpc.isSome then t
  else if [0x19, 0x1A, 0x4B].contains t.cause then { t with a := Config.freeWord s.free, b := Config.freeWord (s.free + 1) }
  else if [0x06, 0x0B, 0x13, 0x14, 0x15, 0x16, 0x17, 0x18, 0x42, 0x44, 0x51, 0x68].contains t.cause then
    { t with b := Config.freeWord (s.free + 1) }
  else t

/-- A precise trap of the acting context at its group (R56, R70). -/
def takeTrap (s : State) (t : TrapInfo) : State :=
  let s1 := enterTrap (s.upd (fun c => { c with pc := s.grp.first })) s.cur (unsaid s t) false 0
  { s1 with free := s1.free + 2, grp := { s1.grp with trapped := true, raised := some t } }

/-- R56, R333: a trap of the acting context after its group, whose effects stand; a flush or fence of the group still holds it. -/
def trapAfter (s : State) (t : TrapInfo) : State :=
  let s1 := enterTrap s s.cur t false 0
  let held := s1.upd (fun c => { c with wait := if c.wait.isNone && c.live then s.ctx.wait else c.wait, behind := s.ctx.behind })
  { held with free := s1.free + 1 }

/-- What a meaning answers: its effect, the trap it takes, or its context waiting at its group. -/
def finish (s : State) (r : Res State) : Host.Outcome State Fault Refusal :=
  match r with
  | .ok t => .next t
  | .error (.trap t) => .next (takeTrap s t)
  | .error (.after s' t) => .next (takeTrap s' t)
  | .error (.wait t) => .next { t.upd (fun c => { c with pc := s.grp.first }) with grp := { t.grp with stalled := true } }

/-- R113: the acting context goes to a code address after its group. -/
def State.goto (s : State) (a : Word) : State :=
  { s.upd (fun c => { c with pc := a, lineBuf := none }) with grp := { s.grp with target := some a } }

/-- R57: a branch of the acting context to a target: its cause with TINFOA the target, or the branch. -/
def branchTo (s : State) (a : Word) (btm : Bool) : Res State :=
  match lookAhead s s.cur a with
  | .error e => .error e
  | .ok s =>
    match targetCause s s.cur a btm with
    | some c => raiseFrom s c a 0
    | none => .ok (s.goto a)

/-- R330: frees the ring entry that an imprecise trap reported. -/
def freeRing (s : State) (k tseq : Nat) : State :=
  let c := s.getCore k
  s.setCore k { c with ring := mset (tseq % 64) { mget RingEntry.free (tseq % 64) c.ring with state := 0 } c.ring }

/-- R330: the return from a trap, which reads the line of its target as a branch does (R57). -/
def returnTrap (s : State) : Res State :=
  let c := s.ctx
  if !c.tcause.getLsbD 63 then raise 0x4B 0 0
  else
    match lookAhead s s.cur c.tpc with
    | .error e => .error e
    | .ok s =>
      let s := if c.tcause.getLsbD 8 && c.tseq ≠ 0 then freeRing s s.coreKey (c.tseq.toNat % 65536) else s
      let brk := c.tcause.toNat % 256 = 0x0F && c.tinfob.getLsbD 0
      let s := s.upd (fun x => { x with tcause := x.tcause &&& ~~~(1#64 <<< 63), stepBrk := if brk then some c.tpc else x.stepBrk })
      match targetCause s s.cur c.tpc false with
      | some _ =>
        .ok { enterTrap (s.upd (fun x => { x with pc := s.grp.first })) s.cur (unsaid s ⟨0x0B, c.tpc, 0, none⟩) false 0 with
          grp := { s.grp with trapped := true }, free := s.free + 2 }
      | none => .ok (s.goto c.tpc)

/-- R94: an answer from off the core: the register is empty until it arrives, and the access is a remote reference (R96). -/
def sendAnswer (s : State) (d : Fin 32) (v : Word) (fl : BitVec 6) : State :=
  let s := s.upd (fun c => { c.setEmpty d with rref := c.rref + 1 })
  let s := s.updCore (fun k => { k with answers := k.answers ++ [⟨s.ctxNo, d, v, fl⟩] })
  { s with grp := { s.grp with remote := true } }

/-- R122: a context's access was refused by a target's access table. -/
def refuseAt (s : State) (key : Nat) (va : Word) (pa : Nat) : State :=
  let c := s.getCtx key
  s.setCtx key { c with refusals := c.refusals ++ [(va, BitVec.ofNat 64 pa, !c.refusals.isEmpty)] }

/-- R122: the acting context's access was refused. -/
def refuse (s : State) (va : Word) (pa : Nat) : State := refuseAt s s.cur va pa

end Sys2Proof.Machine
end

