-- ==== Sys2Proof/Machine/Elementary.lean ====
section
/-! DEFINITION. The special functions (R222) and the epilogue functions (R250), correctly rounded: each is enclosed in an
interval of growing precision until the interval lies strictly between two neighbouring 64-bit numbers; the number between
them, odd in its last bit, then rounds in every format and mode as the exact value does. -/
namespace Sys2Proof.Num

/-- An interval [lo, hi]·2^e. -/
structure Iv where
  lo : Int
  hi : Int
  e : Int
deriving DecidableEq, Repr

/-- ⌊x / 2^s⌋. -/
def shr (x : Int) (s : Nat) : Int := x / (2 ^ s : Nat)

/-- Outward rounding to about `p` bits. -/
def Iv.norm (p : Nat) (a : Iv) : Iv :=
  let b := max (Nat.log2 a.lo.natAbs) (Nat.log2 a.hi.natAbs)
  if b ≤ p then a else ⟨shr a.lo (b - p), -(shr (-a.hi) (b - p)), a.e + (b - p : Nat)⟩

/-- The point m·2^e. -/
def Iv.pt (m e : Int) : Iv := ⟨m, m, e⟩

def Iv.neg (a : Iv) : Iv := ⟨-a.hi, -a.lo, a.e⟩

def Iv.add (p : Nat) (a b : Iv) : Iv :=
  let e := min a.e b.e
  let x : Int := (2 ^ (a.e - e).toNat : Nat)
  let y : Int := (2 ^ (b.e - e).toNat : Nat)
  Iv.norm p ⟨a.lo * x + b.lo * y, a.hi * x + b.hi * y, e⟩

def Iv.sub (p : Nat) (a b : Iv) : Iv := a.add p b.neg

def Iv.mul (p : Nat) (a b : Iv) : Iv :=
  let w := a.lo * b.lo
  let x := a.lo * b.hi
  let y := a.hi * b.lo
  let z := a.hi * b.hi
  Iv.norm p ⟨min (min w x) (min y z), max (max w x) (max y z), a.e + b.e⟩

/-- Multiplies by 2^k. -/
def Iv.scale (a : Iv) (k : Int) : Iv := ⟨a.lo, a.hi, a.e + k⟩

/-- Divides by a positive natural number. -/
def Iv.divNat (p : Nat) (a : Iv) (n : Nat) : Iv :=
  let s := p + Nat.log2 n
  let f : Int := (2 ^ s : Nat)
  Iv.norm p ⟨(a.lo * f) / (n : Int), -((-(a.hi * f)) / (n : Int)), a.e - s⟩

/-- 1/a for a positive interval; an interval that is not positive is returned as it is. -/
def Iv.inv (p : Nat) (a : Iv) : Iv :=
  if a.lo ≤ 0 then a
  else
    let s := p + Nat.log2 a.hi.natAbs + 2
    let f : Int := (2 ^ s : Nat)
    Iv.norm p ⟨f / a.hi, f / a.lo + 1, -a.e - s⟩

/-- Widens by ±2^k. -/
def Iv.widen (p : Nat) (a : Iv) (k : Int) : Iv := a.add p ⟨-1, 1, k⟩

/-- The square root of a positive interval. -/
def Iv.sqrt (p : Nat) (a : Iv) : Iv :=
  let s : Nat := if (a.e - 2 * p) % 2 = 0 then 2 * p else 2 * p + 1
  let f := 2 ^ s
  Iv.norm p ⟨isqrt (a.lo.natAbs * f), (isqrt (a.hi.natAbs * f) : Int) + 1, (a.e - s) / 2⟩

/-- Σ of (±1)^j / (n^(2j+1)·(2j+1)) in units of 2^−q, each term rounded down; `t` is 2^q / n^(2j+1). -/
def invSeries (alt : Bool) (n2 : Nat) : Nat → Nat → Nat → Int → Int
  | 0, _, _, acc => acc
  | k + 1, t, j, acc =>
    let x : Int := (t / (2 * j + 1) : Nat)
    invSeries alt n2 k (t / n2) (j + 1) (if alt && j % 2 = 1 then acc - x else acc + x)

/-- atanh(1/n) (`alt` false) or atan(1/n) for n ≥ 5, to about `p` bits. -/
def invArc (alt : Bool) (p n : Nat) : Iv :=
  let q := p + 16
  let k := q / 4 + 2
  let s := invSeries alt (n * n) k (2 ^ q / n) 0 0
  ⟨s - (2 * k + 2 : Nat), s + (2 * k + 2 : Nat), -(q : Int)⟩

/-- The interval times an integer. -/
def Iv.smul (n : Int) (a : Iv) : Iv := if 0 ≤ n then ⟨n * a.lo, n * a.hi, a.e⟩ else ⟨n * a.hi, n * a.lo, a.e⟩

/-- ln 2 = 18 atanh(1/26) − 2 atanh(1/4801) + 8 atanh(1/8749). -/
def ivLn2 (p : Nat) : Iv :=
  ((Iv.smul 18 (invArc false p 26)).add (p + 16) (Iv.smul (-2) (invArc false p 4801))).add (p + 16)
    (Iv.smul 8 (invArc false p 8749))

/-- π = 16 atan(1/5) − 4 atan(1/239). -/
def ivPi (p : Nat) : Iv := (Iv.smul 16 (invArc true p 5)).add (p + 16) (Iv.smul (-4) (invArc true p 239))

/-- The midpoint of an interval as an integer, rounded down. -/
def Iv.floorMid (a : Iv) : Int :=
  let m := a.lo + a.hi
  let e := a.e - 1
  if 0 ≤ e then m * (2 ^ e.toNat : Nat) else shr m (-e).toNat

/-- Horner's rule for Σ r^j / j!, from the highest term down. -/
def expHorner (p : Nat) (r : Iv) : Nat → Iv → Iv
  | 0, acc => acc
  | k + 1, acc => expHorner p r k ((Iv.pt 1 0).add p ((r.mul p acc).divNat p (k + 1)))

def Iv.sq (p : Nat) (a : Iv) : Nat → Iv
  | 0 => a
  | k + 1 => Iv.sq p (a.mul p a) k

/-- e^x. -/
def Iv.exp (p : Nat) (x : Iv) : Iv :=
  let l := ivLn2 (p + 16)
  let k := (x.mul (p + 16) (l.inv (p + 16))).floorMid
  let r := (x.sub (p + 16) (Iv.smul k l)).scale (-8)
  let n := p / 7 + 3
  ((Iv.sq p ((expHorner p r n (Iv.pt 1 0)).widen p (-(7 * n : Nat))) 8).scale k)

/-- Horner's rule for Σ z2^j / (2j + 1). -/
def arcHorner (p : Nat) (z2 : Iv) : Nat → Iv → Iv
  | 0, acc => acc
  | k + 1, acc => arcHorner p z2 k (((Iv.pt 1 0).divNat p (2 * k + 1)).add p (z2.mul p acc))

/-- ln of the positive number m·2^e. -/
def ivLog (p m : Nat) (e : Int) : Iv :=
  let l := Nat.log2 m
  let big := 2 * m ≥ 3 * 2 ^ l
  let one : Nat := if big then 2 ^ (l + 1) else 2 ^ l
  let num : Int := (m : Int) - (one : Int)
  let s := p + l + 2
  let z : Iv := ⟨(num * (2 ^ s : Nat)) / ((m + one : Nat) : Int), (num * (2 ^ s : Nat)) / ((m + one : Nat) : Int) + 1, -(s : Int)⟩
  let z := Iv.norm p z
  let n := p / 4 + 3
  let z2 := z.mul p z
  let ser := ((arcHorner p z2 n (Iv.pt 0 0)).widen p (-(4 * n : Nat))).mul p z
  (ser.scale 1).add p (Iv.smul (e + l + (if big then 1 else 0)) (ivLn2 (p + 32)))

/-- Horner's rule for Σ (−1)^j t2^j / (2j + c)! with c 0 or 1. -/
def trigHorner (p : Nat) (t2 : Iv) (c : Nat) : Nat → Iv → Iv
  | 0, acc => acc
  | k + 1, acc =>
    trigHorner p t2 c k ((Iv.pt 1 0).sub p ((t2.mul p acc).divNat p ((2 * k + 1 + c) * (2 * k + 2 + c))))

/-- sin (`c` = 1) or cos (`c` = 0) of a reduced argument. -/
def trigCore (p : Nat) (t : Iv) (c : Nat) : Iv :=
  let ser := (trigHorner p (t.mul p t) c (p / 6 + 12) (Iv.pt 1 0)).widen p (-(p : Int))
  if c = 1 then t.mul p ser else ser

/-- sin or cos of x: reduced by a multiple k of π/2, then by k modulo 4. -/
def ivTrig (p : Nat) (x : Iv) (isSin : Bool) : Iv :=
  let q := p + 32 + (x.e + Nat.log2 x.lo.natAbs).toNat
  let h := (ivPi q).scale (-1)
  let k := ((x.mul q (h.inv q)).add (q + 4) (Iv.pt 1 (-1))).floorMid
  let t := (x.sub (q + 8) (Iv.smul k h)).norm (p + 8)
  let k4 := (k + (if isSin then 0 else 1)) % 4
  let v := trigCore p t (if k4 % 2 = 0 then 1 else 0)
  if k4 ≥ 2 then v.neg else v

/-- Σ u^n / (2n+1)!! from term `t` of index `n` on, stopping when the rest is below 2^−p. -/
def erfSeries (p : Nat) (u : Iv) (un : Nat) : Nat → Nat → Iv → Iv → Iv
  | 0, _, t, acc => acc.add p ⟨0, t.hi, t.e⟩
  | k + 1, n, t, acc =>
    if 2 * un < 2 * n + 1 && t.e + Nat.log2 t.hi.natAbs < -(p : Int) then acc.add p ⟨0, t.hi, t.e⟩
    else
      let t' := (t.mul p u).divNat p (2 * n + 3)
      erfSeries p u un k (n + 1) t' (acc.add p t')

/-- erf y for y > 0: (2/√π)·y·e^(−y²)·Σ (2y²)^n / (2n+1)!!. -/
def ivErf (p : Nat) (y : Iv) : Iv :=
  let y2 := y.mul p y
  let u := y2.scale 1
  let un := u.floorMid.toNat + 2
  let ser := erfSeries p u un (p + 16 * un + 64) 0 (Iv.pt 1 0) (Iv.pt 1 0)
  ((((ivPi p).sqrt p).inv p).scale 1).mul p (y.mul p ((y2.neg.exp p).mul p ser))

/-- σ(x) = 1/(1 + e^−x). -/
def ivSigmoid (p : Nat) (x : Iv) : Iv := ((Iv.pt 1 0).add p (x.neg.exp p)).inv p

/-- Φ(x) = (1 + erf(x/√2))/2. -/
def ivPhi (p : Nat) (neg : Bool) (ax : Iv) : Iv :=
  let r := ivErf p (ax.mul p (((Iv.pt 2 0).sqrt p).inv p))
  ((if neg then (Iv.pt 1 0).sub p r else (Iv.pt 1 0).add p r)).scale (-1)

/-- The functions of R222 and R250 that are not algebraic. -/
inductive Fun where
  | exp2 | log2 | exp | log | tanh | sigmoid | erf | sin | cos | gelu | silu | dgelu | dsilu | dtanh | dsigmoid
deriving DecidableEq, Repr

/-- An enclosure of the function at (−1)^n·m·2^e, m ≠ 0. -/
def enclose (f : Fun) (p : Nat) (n : Bool) (m : Nat) (e : Int) : Iv :=
  let ax := Iv.pt m e
  let x := if n then ax.neg else ax
  let one := Iv.pt 1 0
  match f with
  | .exp2 => (x.mul (p + 16) (ivLn2 (p + 16))).exp p
  | .exp => x.exp p
  | .log => ivLog p m e
  | .log2 => (ivLog p m e).mul p ((ivLn2 (p + 16)).inv p)
  | .tanh =>
    let t := (ax.scale 1).exp p
    let r := (t.sub p one).mul p ((t.add p one).inv p)
    if n then r.neg else r
  | .sigmoid => ivSigmoid p x
  | .erf => if n then (ivErf p ax).neg else ivErf p ax
  | .sin => if n then (ivTrig p ax true).neg else ivTrig p ax true
  | .cos => ivTrig p ax false
  | .gelu => x.mul p (ivPhi p n ax)
  | .silu => x.mul p (ivSigmoid p x)
  | .dgelu =>
    let dens := (((x.mul p x).scale (-1)).neg.exp p).mul p ((((ivPi p).scale 1).sqrt p).inv p)
    (ivPhi p n ax).add p (x.mul p dens)
  | .dsilu =>
    let s := ivSigmoid p x
    s.mul p (one.add p (x.mul p (one.sub p s)))
  | .dtanh =>
    let t := (ax.add p (Iv.pt 0 0)).exp p
    let c := (t.add p (t.inv p)).inv p
    (c.mul p c).scale 2
  | .dsigmoid =>
    let s := ivSigmoid p x
    s.mul p (one.sub p s)

/-- The number an enclosure determines to 64 bits, with an odd last bit; none while the enclosure is too wide. -/
def settle (a : Iv) : Option Val :=
  let go (n : Bool) (lo hi : Nat) : Option Val :=
    let s := Nat.log2 lo - 64
    if Nat.log2 lo < 64 then none
    else if lo >>> s = hi >>> s then some (.fin n (2 * (lo >>> s) + 1) (a.e + s - 1)) else none
  if 0 < a.lo then go false a.lo.natAbs a.hi.natAbs
  else if a.hi < 0 then go true a.hi.natAbs a.lo.natAbs
  else none

/-- Tries growing precisions. If none of them decides, the value at the last midpoint is taken. -/
def ziv (f : Fun) (n : Bool) (m : Nat) (e : Int) : Nat → Nat → Val
  | 0, p =>
    let a := enclose f p n m e
    ofInt false (a.lo + a.hi) (a.e - 1)
  | k + 1, p =>
    match settle (enclose f p n m e) with
    | some v => v
    | none => ziv f n m e k (2 * p)

/-- A value just above (`up`) or just below the magnitude of (−1)^n·m·2^e. -/
def nudge (up n : Bool) (m : Nat) (e : Int) : Val :=
  .fin n (if up then m * 2 ^ 300 + 1 else m * 2 ^ 300 - 1) (e - 300)

/-- A number of the sign `n` whose magnitude lies below every format's range. -/
def tinyV (n : Bool) : Val := .fin n 1 (-5000)

/-- Whether |m·2^e| < k. -/
def magLt (m : Nat) (e : Int) (k : Nat) : Bool :=
  if 0 ≤ e then m * 2 ^ e.toNat < k else m < k * 2 ^ (-e).toNat

/-- The value of the function at a nonzero finite number: arguments so small or so large that the result lies within 2^−64
of a simple number are taken apart first. -/
def evalFin (f : Fun) (n : Bool) (m : Nat) (e : Int) : Val :=
  let lg := e + Nat.log2 m
  let small := lg < -200
  let lt (k : Nat) := magLt m e k
  let go (_ : Unit) := ziv f n m e 6 128
  match f with
  | .exp2 =>
    if 0 ≤ e || m % 2 ^ (-e).toNat = 0 then
      let v : Nat := if 0 ≤ e then (if lt 6000 then m * 2 ^ e.toNat else 6000) else m >>> (-e).toNat
      let v := min v 6000
      .fin false 1 (if n then -(v : Int) else v)
    else if small then nudge (!n) false 1 0
    else if !lt 2000 then .fin false 1 (if n then -5000 else 5000)
    else go ()
  | .exp => if small then nudge (!n) false 1 0 else if !lt 2000 then .fin false 1 (if n then -5000 else 5000) else go ()
  | .log => if lg = 0 && m = 2 ^ (-e).toNat then .fin false 0 0 else go ()
  | .log2 => if m = 2 ^ Nat.log2 m then ofInt false lg 0 else go ()
  | .tanh => if small then nudge false n m e else if !lt 60 then nudge false n 1 0 else go ()
  | .sigmoid =>
    if small then nudge (!n) false 1 (-1)
    else if n then (if !lt 2000 then tinyV false else go ()) else (if !lt 100 then nudge false false 1 0 else go ())
  | .erf => if !lt 12 then nudge false n 1 0 else go ()
  | .sin => if small then nudge false n m e else go ()
  | .cos => if small then nudge false false 1 0 else go ()
  | .gelu =>
    if small then nudge (!n) n m (e - 1)
    else if n then (if !lt 60 then tinyV true else go ()) else (if !lt 16 then nudge false false m e else go ())
  | .silu =>
    if small then nudge (!n) n m (e - 1)
    else if n then (if !lt 2000 then tinyV true else go ()) else (if !lt 100 then nudge false false m e else go ())
  | .dgelu =>
    if small then nudge (!n) false 1 (-1)
    else if n then (if !lt 60 then tinyV true else go ()) else (if !lt 16 then nudge true false 1 0 else go ())
  | .dsilu =>
    if small then nudge (!n) false 1 (-1)
    else if n then (if !lt 2000 then tinyV true else go ()) else (if !lt 100 then nudge true false 1 0 else go ())
  | .dtanh => if small then nudge false false 1 0 else if !lt 1000 then tinyV false else go ()
  | .dsigmoid => if small then nudge false false 1 (-2) else if !lt 2000 then tinyV false else go ()

/-- R222, R250: the value at infinity of sign `n`. -/
def atInf (f : Fun) (n : Bool) : Val × Flg :=
  match f with
  | .exp2 | .exp => (if n then .fin false 0 0 else .inf false, 0)
  | .log2 | .log => if n then (.defaultNaN, NV) else (.inf false, 0)
  | .tanh | .erf => (.fin n 1 0, 0)
  | .sigmoid => (.fin false (if n then 0 else 1) 0, 0)
  | .sin | .cos => (.defaultNaN, NV)
  | .gelu | .silu => (if n then .fin true 0 0 else .inf false, 0)
  | .dgelu => (.fin false (if n then 0 else 1) 0, 0)
  | .dsilu => (if n then .fin true 0 0 else .fin false 1 0, 0)
  | .dtanh | .dsigmoid => (.fin false 0 0, 0)

/-- R222, R250: the value at a zero of sign `n`. -/
def atZero (f : Fun) (n : Bool) : Val × Flg :=
  match f with
  | .exp2 | .exp | .cos | .dtanh => (.fin false 1 0, 0)
  | .log2 | .log => (.inf true, DZ)
  | .tanh | .erf | .sin | .gelu | .silu => (.fin n 0 0, 0)
  | .sigmoid | .dgelu | .dsilu => (.fin false 1 (-1), 0)
  | .dsigmoid => (.fin false 1 (-2), 0)

/-- A function of R222 or R250 at a value, to be rounded once by `pack`. -/
def apply (f : Fun) (v : Val) : Val × Flg :=
  match v with
  | .nan _ s _ => (v.quiet, flagIf s NV)
  | .inf n => atInf f n
  | .fin n m e =>
    if m = 0 then atZero f n
    else if n && (f = .log || f = .log2) then (.defaultNaN, NV)
    else (evalFin f n m e, 0)

/-- R222: 1/x. -/
def rcpV (v : Val) : Val × Flg :=
  match v with
  | .fin n m _ => if m = 0 then (.inf n, DZ) else divV (.fin false 1 0) v
  | _ => divV (.fin false 1 0) v

/-- R222: 1/√x. -/
def rsqrtV (v : Val) : Val × Flg :=
  match v with
  | .nan _ s _ => (v.quiet, flagIf s NV)
  | .inf n => if n then (.defaultNaN, NV) else (.fin false 0 0, 0)
  | .fin n m e =>
    if m = 0 then (.inf n, DZ)
    else if n then (.defaultNaN, NV)
    else
      let t := 140 + Nat.log2 m
      let t := if (e - (2 * t : Nat)) % 2 = 0 then 2 * t else 2 * t + 1
      let r := isqrt (2 ^ t / m)
      (.fin false (2 * r + (if r * r * m = 2 ^ t then 0 else 1)) ((-(e + t)) / 2 - 1), 0)

/-- R222: a special function of a value. -/
def sfV (f : SfFn) (v : Val) : Val × Flg :=
  match f with
  | .exp2 => apply .exp2 v
  | .log2 => apply .log2 v
  | .rcp => rcpV v
  | .rsqrt => rsqrtV v
  | .exp => apply .exp v
  | .log => apply .log v
  | .tanh => apply .tanh v
  | .sigmoid => apply .sigmoid v
  | .erf => apply .erf v
  | .sin => apply .sin v
  | .cos => apply .cos v

end Sys2Proof.Num
end

