-- ==== Sys2Proof/Machine/VectorOps.lean ====
section
/-! DEFINITION. What one vector form computes on the v registers (R200 to R203, R212 to R224), given what it captured at issue:
the shape, the rounding mode, its scalar operands and the pass shift of a repetition (R204). -/
namespace Sys2Proof.Vec
open Num

/-- R200: the fields of VSH. -/
structure Shape where
  rows : Nat
  cols : Nat
  ty : Nat
  w : Nat
  scale : Int
deriving DecidableEq, Repr

/-- R200: the shape that a value of VSH denotes. -/
def Shape.ofWord (x : Nat) : Shape :=
  ⟨Bits.fld x 3 0, Bits.fld x 11 4, Bits.fld x 15 12, Bits.fld x 18 16 + 2, Bits.sx 8 (Bits.fld x 27 20)⟩

/-- R201: the width against which COLS is checked. -/
def widthOfCode (c : Nat) : Nat := (Ty.ofCode (BitVec.ofNat 4 c)).bits

/-- R201: a legal value of VSH. -/
def legalVsh (x : Nat) : Bool :=
  let s := Shape.ofWord x
  s.rows ≠ 0 && s.rows ≤ 8 && s.cols ≠ 0 && s.cols ≤ 64 && s.cols ≤ 512 / widthOfCode s.ty && s.w ≠ 9 &&
    x / 2 ^ 28 = 0 && !Bits.bit x 19

/-- R202: active elements per register for elements of `w` bits. -/
def Shape.n (s : Shape) (w : Nat) : Nat := min s.cols (512 / w)

/-- What a form captured at issue (R198), and the shift its pass adds to v fields (R204). -/
structure Cap where
  sh : Shape
  rm : Rm
  a : Word
  b : Word
  c : Word
  shift : Nat
deriving DecidableEq, Repr

/-- The v registers after a form, its s result and its flags. -/
structure Out where
  v : Vector Line 32
  res : Option Word
  fl : Flg
deriving DecidableEq, Repr

/-- A v register by number. -/
def reg (v : Vector Line 32) (r : Nat) : Line := v.toArray.getD r 0

/-- Writes a v register. -/
def setReg (v : Vector Line 32) (r : Nat) (x : Line) : Vector Line 32 := v.setIfInBounds r x

/-- R202: element k of the group at `r` with `n` elements of `w` bits per register. -/
def getE (w n : Nat) (v : Vector Line 32) (r k : Nat) : Nat :=
  (reg v (r + k / n)).toNat >>> (w * (k % n)) % 2 ^ w

/-- R202: writes element k of a group and leaves the others as they are. -/
def setE (w n : Nat) (v : Vector Line 32) (r k x : Nat) : Vector Line 32 :=
  setReg v (r + k / n) (BitVec.ofNat 512 (Bits.setFld (reg v (r + k / n)).toNat w (w * (k % n)) x))

/-- Computes elements 0 to m − 1 of a destination group, reading only the registers before the form (R198). -/
def mapGroup (w n m : Nat) (v : Vector Line 32) (d : Nat) (f : Nat → Nat × Flg) : Out :=
  (List.range m).foldl (fun o k => let r := f k; ⟨setE w n o.v d k r.1, o.res, o.fl ||| r.2⟩) ⟨v, none, 0⟩

/-- R202: the first register of a v field in this pass. -/
def Cap.at (c : Cap) (r : Fin 32) : Nat := r.val + c.shift

/-- R212: element k of a source as a bit pattern of `w` bits. -/
def srcPat (c : Cap) (w n : Nat) (v : Vector Line 32) (o : Opnd) (x : Word) (k : Nat) : Nat :=
  match o with
  | .v r => getE w n v (c.at r) k
  | .imm i => Bits.wrap w (Bits.sx 5 i.toNat)
  | _ => x.toNat % 2 ^ w

/-- R212: element k of a source as an integer of type t. -/
def srcInt (c : Cap) (t : Ty) (n : Nat) (v : Vector Line 32) (o : Opnd) (x : Word) (k : Nat) : Int :=
  intVal t (srcPat c t.bits n v o x k)

/-- R212, R61: element k of a source as a value of a floating type; a small immediate is its exact integer. -/
def srcVal (c : Cap) (t : Ty) (n : Nat) (v : Vector Line 32) (o : Opnd) (x : Word) (k : Nat) : Val :=
  match o with
  | .imm i => ofInt false (Bits.sx 5 i.toNat) 0
  | _ => unpack (fmtOf t) (srcPat c t.bits n v o x k)

/-- R80: the mode of a rounding code, given the captured RM. -/
def rmOf (rc : Rc) (rm : Rm) : Rm :=
  match rc with
  | .asr => rm | .rne => .rne | .rtz => .rtz | .rup => .rup | .rdn => .rdn

/-- R95, R213: how an element is written to an s register: extended for INT, zero-extended for FLT. -/
def extend (t : Ty) (p : Nat) : Word := if t.isInt then Bits.word (intVal t p) else BitVec.ofNat 64 p

/-- R213: the operand b of VBCAST, VEXT, VINS and VSLIDE: a signed 64-bit value. -/
def idxVal (o : Opnd) (x : Word) : Int :=
  match o with
  | .imm i => Bits.sx 5 i.toNat
  | _ => Bits.sw x

/-- An immediate converted to T (R213, R216), or the low bits of an s register. -/
def copyPat (t : Ty) (rm : Rm) (o : Opnd) (x : Word) : Nat × Flg :=
  match o with
  | .imm i => if t.isFlt then pack (fmtOf t) rm (ofInt false (Bits.sx 5 i.toNat) 0) else (Bits.wrap t.bits (Bits.sx 5 i.toNat), 0)
  | _ => (x.toNat % 2 ^ t.bits, 0)

/-- A binary or ternary element-wise form: `fi` on integers (wrapped or saturated, R212), `ff` on floats (rounded once). -/
def arith (c : Cap) (t : Ty) (rc : Rc) (sat : Bool) (v : Vector Line 32) (d a : Fin 32) (b cc : Opnd)
    (fi : Int → Int → Int → Int) (ff : Rm → Val → Val → Val → Val × Flg) : Out :=
  let n := c.sh.n t.bits
  let rm := rmOf rc c.rm
  mapGroup t.bits n (c.sh.rows * n) v (c.at d) (fun k =>
    if t.isInt then
      intResult t sat (fi (srcInt c t n v (.v a) 0 k) (srcInt c t n v b c.b k) (srcInt c t n v cc c.c k))
    else
      packR (fmtOf t) rm (ff rm (srcVal c t n v (.v a) 0 k) (srcVal c t n v b c.b k) (srcVal c t n v cc c.c k)))

/-- An element-wise form on bit patterns. -/
def pats (c : Cap) (t : Ty) (v : Vector Line 32) (d a : Fin 32) (b : Opnd) (f : Nat → Nat → Nat) : Out :=
  let n := c.sh.n t.bits
  mapGroup t.bits n (c.sh.rows * n) v (c.at d) (fun k =>
    (f (srcPat c t.bits n v (.v a) 0 k) (srcPat c t.bits n v b c.b k) % 2 ^ t.bits, 0))

/-- R215: the class code of a value. -/
def classOf (f : FFmt) (x : Val) : Nat :=
  match x with
  | .nan _ s _ => if s then 0 else 1
  | .inf n => if n then 2 else 9
  | .fin n m _ =>
    if m = 0 then (if n then 5 else 6)
    else if m < 2 ^ f.fb then (if n then 4 else 7) else (if n then 3 else 8)

/-- R215: VROUND of a value in its own format; an infinity of a narrow format saturates (R78) without a flag. -/
def roundV (f : FFmt) (rm : Rm) (exact : Bool) (x : Val) : Nat × Flg :=
  match x with
  | .fin n m e =>
    let (k, inexact) := roundAt rm n m e 0
    ((pack f rm (.fin n k 0)).1, flagIf (exact && inexact) NX)
  | .inf n => ((if n then f.signBit else 0) + (if f.sat then f.top else f.infPat), 0)
  | .nan n s fr => (packNaN f n fr, flagIf s NV)

/-- R75: total order; the NaN codes of e5m2 have one payload (R76; log 29). -/
def totalCmp (a b : Val) : Ordering :=
  let rank (x : Val) : Int := match x with
    | .nan n s _ => if n then (if s then -4 else -5) else (if s then 4 else 5)
    | .inf n => if n then -3 else 3
    | .fin n m _ => if m = 0 then (if n then -1 else 1) else (if n then -2 else 2)
  if rank a ≠ rank b then compare (rank a) (rank b)
  else
    match a, b with
    | .nan n _ f, .nan _ _ g => if n then compare g f else compare f g
    | _, _ => cmpV true a b

/-- R110: an IEEE quiet comparison and its flags. -/
def quietCmp (cc : Cond) (a b : Val) : Bool × Flg :=
  if a.isNaN || b.isNaN then (cc == .ne, flagIf (a.isSNaN || b.isSNaN) NV) else (condHolds cc (cmpV false a b), 0)

/-- R223: the wide type of a narrow type. -/
def wideOf : Ty → Ty
  | .f16 | .bf16 | .e4m3 | .e5m2 => .f32
  | .f32 => .f64
  | .i8 | .i16 => .i32
  | _ => .n32

/-- R217: converts a pattern between any two types of VCVT. -/
def cvt (dst src : Ty) (sat : Bool) (rm : Rm) (p : Nat) : Nat × Flg :=
  if src.isInt then
    if dst.isInt then intResult dst sat (intVal src p) else ofInteger (fmtOf dst) rm (intVal src p)
  else
    let x := unpack (fmtOf src) p
    if dst.isInt then toInt dst rm x else convert (fmtOf dst) rm x

/-- The elements of a group as a list. -/
def elems (c : Cap) (w n : Nat) (v : Vector Line 32) (a : Fin 32) : List Nat :=
  (List.range (c.sh.rows * n)).map (getE w n v (c.at a))

/-- The operation of one step of VRED and VSCAN on patterns of type t (min, max and floating sum). -/
def redStep (t : Ty) (rm : Rm) (fn : RedFn) (x y : Nat) : Nat × Flg :=
  if t.isInt then
    let i := intVal t x
    let j := intVal t y
    (match fn with
     | .sum => Bits.wrap t.bits (i + j)
     | .min => if j < i then y else x
     | .max => if i < j then y else x
     | .and => x &&& y
     | .or => x ||| y
     | .xor => x ^^^ y, 0)
  else
    let f := fmtOf t
    match fn with
    | .min => packR f rm (minmaxV false (unpack f x) (unpack f y))
    | .max => packR f rm (minmaxV true (unpack f x) (unpack f y))
    | _ => packR f rm (addV rm (unpack f x) (unpack f y))

/-- R219: the reduction of a list of elements. -/
def reduce (t : Ty) (rm : Rm) (sat : Bool) (fn : RedFn) (xs : List Nat) : Nat × Flg :=
  if fn = .sum then
    if t.isInt then intResult t sat ((xs.map (intVal t)).foldl (· + ·) 0)
    else
      let (ys, f) := tree (redStep t rm .sum) 10 xs
      (ys.headD 0, f)
  else
    match xs with
    | [] => (0, 0)
    | x :: xs => xs.foldl (fun st y => let r := redStep t rm fn st.1 y; (r.1, st.2 ||| r.2)) (x, 0)

/-- R219: exact prefix sums. -/
def prefixSums : Int → List Int → List Int
  | _, [] => []
  | s, x :: xs => (s + x) :: prefixSums (s + x) xs

/-- R219, R91: the running results of VSCAN. -/
def scanList (t : Ty) (rm : Rm) (sat : Bool) (fn : RedFn) (xs : List Nat) : List Nat × Flg :=
  if fn = .sum && t.isInt then
    let rs := (prefixSums 0 (xs.map (intVal t))).map (intResult t sat)
    (rs.map Prod.fst, rs.foldl (fun f r => f ||| r.2) 0)
  else scan (redStep t rm fn) xs

/-- R203: how many blocks a register holds. -/
def blocksPer (w : Nat) : Nat := 512 / (16 * w + 8)

/-- R203, R83: blocks in the layout of n of them: the mantissa bytes of the n blocks, then their exponent bytes; blocks not given are
zero. -/
def packBlocks (w n : Nat) (bs : List (Nat × List Int)) : Nat :=
  (bs.zipIdx).foldl (fun acc p => acc + blockInt w p.1.2 * 2 ^ (16 * w * p.2) + p.1.1 * 2 ^ (16 * w * n + 8 * p.2)) 0

/-- R203, R218: the elements of the first `nb` blocks of a register, which has room for j(w) of them. -/
def unpackBlocks (w : Nat) (s : Int) (nb x : Nat) : List Val :=
  (List.range nb).flatMap (fun j =>
    let e := x >>> (16 * w * blocksPer w + 8 * j) % 256
    (blockMants w (x >>> (16 * w * j))).map (blockVal w s e))

/-- R218: the number of elements of VPACK and VUNPK must fit one register of blocks. -/
def packShapeOk (sh : Shape) (w : Nat) : Bool :=
  let m := sh.rows * sh.n w
  m % 16 = 0 && m ≤ 16 * blocksPer sh.w && sh.ty = 14

/-- R217: VCVT; n uses the wider of the two types. -/
def vcvt (c : Cap) (t src : Ty) (sat : Bool) (rc : Rc) (v : Vector Line 32) (d a : Fin 32) : Out :=
  let n := c.sh.n (max t.bits src.bits)
  mapGroup t.bits n (c.sh.rows * n) v (c.at d) (fun k => cvt t src sat (rmOf rc c.rm) (getE src.bits n v (c.at a) k))

/-- R218: VPACK. -/
def vpack (c : Cap) (src : Ty) (v : Vector Line 32) (d a : Fin 32) : Out :=
  let n := c.sh.n src.bits
  let xs := (elems c src.bits n v a).map (unpack (fmtOf src))
  let bs := (chunks 16 xs.length xs).map (quantise c.sh.w c.sh.scale)
  ⟨setReg v (c.at d) (BitVec.ofNat 512 (packBlocks c.sh.w (blocksPer c.sh.w) (bs.map (fun b => (b.1, b.2.1))))), none,
    bs.foldl (fun f b => f ||| b.2.2) 0⟩

/-- R218: VUNPK. -/
def vunpk (c : Cap) (t : Ty) (rc : Rc) (v : Vector Line 32) (d a : Fin 32) : Out :=
  let n := c.sh.n t.bits
  let m := c.sh.rows * n
  let xs := unpackBlocks c.sh.w c.sh.scale (m / 16) (reg v (c.at a)).toNat
  mapGroup t.bits n m v (c.at d) (fun k => pack (fmtOf t) (rmOf rc c.rm) (xs.getD k .defaultNaN))

/-- R223: VMACW and VADDW. -/
def widen (c : Cap) (t : Ty) (rc : Rc) (sat mac : Bool) (v : Vector Line 32) (d a : Fin 32) (b : Opnd) : Out :=
  let wt := wideOf t
  let n := c.sh.n wt.bits
  let rm := rmOf rc c.rm
  mapGroup wt.bits n (c.sh.rows * n) v (c.at d) (fun k =>
    if t.isInt then
      let y := srcInt c t n v b c.b k
      intResult wt sat (if mac then srcInt c wt n v (.v d) 0 k + srcInt c t n v (.v a) 0 k * y
        else srcInt c wt n v (.v a) 0 k + y)
    else
      let y := srcVal c t n v b c.b k
      packR (fmtOf wt) rm (if mac then fmaV rm (srcVal c t n v (.v a) 0 k) y (srcVal c wt n v (.v d) 0 k)
        else addV rm (srcVal c wt n v (.v a) 0 k) y))

/-- R224: VDOT. -/
def vdot (c : Cap) (t : Ty) (rc : Rc) (v : Vector Line 32) (d a b : Fin 32) (cc : Option (Fin 32)) : Out :=
  let n := c.sh.n t.bits
  let wt : Ty := if t = .f64 then .f64 else .f32
  let rm := rmOf rc c.rm
  let f := fmtOf t
  mapGroup wt.bits (512 / wt.bits) c.sh.rows v (c.at d) (fun r =>
    packR (fmtOf wt) rm (sumProducts rm
      ((List.range n).map (fun i => (unpack f (getE t.bits n v (c.at a) (r * n + i)), unpack f (getE t.bits n v (c.at b) (r * n + i)))))
      (match cc with
       | some x => [unpack (fmtOf wt) (getE wt.bits (512 / wt.bits) v (c.at x) r)]
       | none => [])))

/-- R220: VTRN. -/
def vtrn (c : Cap) (t : Ty) (v : Vector Line 32) (d a : Fin 32) : Out :=
  let n := c.sh.n t.bits
  let full := 512 / t.bits
  (List.range n).foldl (fun o j =>
    let r := mapGroup t.bits full c.sh.rows o.v (c.at d + j) (fun i => (getE t.bits full v (c.at a + i) j, 0))
    ⟨r.v, none, 0⟩) ⟨v, none, 0⟩

/-- R213 to R224: what a vector form other than VSHAPE, VREP, VGATH and VSCAT computes. Any other step leaves the registers as
they are. An element of C selects in VSEL unless all its bits are zero, so that −0 selects A (R216 does not say: log 29). -/
def run (i : Instr) (c : Cap) (v : Vector Line 32) : Out :=
  let nOf (t : Ty) := c.sh.n t.bits
  let mOf (t : Ty) := c.sh.rows * c.sh.n t.bits
  match i with
  | .vmov _ d a => (List.range c.sh.rows).foldl (fun o r => ⟨setReg o.v (c.at d + r) (reg v (c.at a + r)), none, 0⟩) ⟨v, none, 0⟩
  | .vbcast _ t d a b =>
    let x := match a with
      | .v r => (getE t.bits (nOf t) v (c.at r) (idxVal b c.b % (mOf t : Int)).toNat, 0)
      | o => copyPat t c.rm o c.a
    let o := mapGroup t.bits (nOf t) (mOf t) v (c.at d) (fun _ => x)
    o
  | .vext _ t _ a b => ⟨v, some (extend t (getE t.bits (nOf t) v (c.at a) (idxVal b c.b % (mOf t : Int)).toNat)), 0⟩
  | .vins _ t d a b =>
    let x := copyPat t c.rm a c.a
    ⟨setE t.bits (nOf t) v (c.at d) (idxVal b c.b % (mOf t : Int)).toNat x.1, none, x.2⟩
  | .vadd _ t rc sat d a b => arith c t rc sat v d a b .none (fun x y _ => x + y) (fun rm x y _ => addV rm x y)
  | .vsub _ t rc sat d a b => arith c t rc sat v d a b .none (fun x y _ => x - y) (fun rm x y _ => subV rm x y)
  | .vmul _ t rc sat d a b => arith c t rc sat v d a b .none (fun x y _ => x * y) (fun _ x y _ => mulV x y)
  | .vfma _ t rc sat d a b cc => arith c t rc sat v d a b cc (fun x y z => x * y + z) (fun rm x y z => fmaV rm x y z)
  | .vfms _ t rc sat d a b cc => arith c t rc sat v d a b cc (fun x y z => x * y - z) (fun rm x y z => fmaV rm x y z.flip)
  | .vfnma _ t rc sat d a b cc => arith c t rc sat v d a b cc (fun x y z => -(x * y) + z) (fun rm x y z => fmaV rm x.flip y z)
  | .vdiv _ t rc d a b => arith c t rc false v d a b .none (fun x _ _ => x) (fun _ x y _ => divV x y)
  | .vsqrt _ t rc d a => arith c t rc false v d a .none .none (fun x _ _ => x) (fun _ x _ _ => sqrtV x)
  | .vmin _ t d a b =>
    arith c t .asr false v d a b .none (fun x y _ => if y < x then y else x) (fun _ x y _ => minmaxV false x y)
  | .vmax _ t d a b =>
    arith c t .asr false v d a b .none (fun x y _ => if x < y then y else x) (fun _ x y _ => minmaxV true x y)
  | .vabs _ t sat d a =>
    if t.isInt then arith c t .asr sat v d a .none .none (fun x _ _ => x.natAbs) (fun _ x _ _ => (x, 0))
    else pats c t v d a .none (fun x _ => x % 2 ^ (t.bits - 1))
  | .vneg _ t sat d a =>
    if t.isInt then arith c t .asr sat v d a .none .none (fun x _ _ => -x) (fun _ x _ _ => (x, 0))
    else pats c t v d a .none (fun x _ => x ^^^ 2 ^ (t.bits - 1))
  | .vcmp _ t cc tot d a b =>
    let n := nOf t
    mapGroup t.bits n (mOf t) v (c.at d) (fun k =>
      let r : Bool × Flg :=
        if t.isInt then (condHolds cc (compare (srcInt c t n v (.v a) 0 k) (srcInt c t n v b c.b k)), 0)
        else
          let x := srcVal c t n v (.v a) 0 k
          let y := srcVal c t n v b c.b k
          if tot then (condHolds cc (totalCmp x y), 0) else quietCmp cc x y
      (if r.1 then 2 ^ t.bits - 1 else 0, r.2))
  | .vsel _ t d a b cc =>
    let n := nOf t
    let pick (o : Opnd) (x : Word) (k : Nat) : Nat := match o with
      | .v r => getE t.bits n v (c.at r) k
      | o => (copyPat t c.rm o x).1
    mapGroup t.bits n (mOf t) v (c.at d) (fun k =>
      (if getE t.bits n v (c.at cc) k ≠ 0 then pick a c.a k else pick b c.b k, 0))
  | .vand _ t d a b => pats c t v d a b (· &&& ·)
  | .vor _ t d a b => pats c t v d a b (· ||| ·)
  | .vxor _ t d a b => pats c t v d a b (· ^^^ ·)
  | .vshl _ t d a b => pats c t v d a b (fun x y => x <<< (y % t.bits))
  | .vshr _ t d a b => pats c t v d a b (fun x y => x >>> (y % t.bits))
  | .vsha _ t d a b => pats c t v d a b (fun x y => Bits.wrap t.bits (Bits.sx t.bits x / (2 ^ (y % t.bits) : Nat)))
  | .vcvt _ t rc sat d a src => vcvt c t src sat rc v d a
  | .vpack _ d a src => vpack c src v d a
  | .vunpk _ t rc d a => vunpk c t rc v d a
  | .vred _ t rc sat d a fn =>
    let r := reduce t (rmOf rc c.rm) sat fn (elems c t.bits (nOf t) v a)
    match d with
    | .v dd => ⟨setE t.bits (512 / t.bits) v (c.at dd) 0 r.1, none, r.2⟩
    | _ => ⟨v, some (extend t r.1), r.2⟩
  | .vscan _ t rc sat d a fn =>
    let r := scanList t (rmOf rc c.rm) sat fn (elems c t.bits (nOf t) v a)
    let o := mapGroup t.bits (nOf t) (mOf t) v (c.at d) (fun k => (r.1.getD k 0, 0))
    ⟨o.v, none, r.2⟩
  | .vperm _ t d a b =>
    let n := nOf t
    mapGroup t.bits n (mOf t) v (c.at d) (fun k => (getE t.bits n v (c.at a) (getE t.bits n v (c.at b) k % mOf t), 0))
  | .vslide _ t d a b cc =>
    let n := nOf t
    let o := idxVal b c.b
    mapGroup t.bits n (mOf t) v (c.at d) (fun k =>
      let j : Int := k + o
      (if 0 ≤ j ∧ j < (mOf t : Int) then getE t.bits n v (c.at a) j.toNat
       else if cc.isSome then c.c.toNat % 2 ^ t.bits else 0, 0))
  | .vsf _ t rc d a fn => arith c t rc false v d a .none .none (fun x _ _ => x) (fun _ x _ _ => sfV fn x)
  | .vmacw _ t rc sat d a b => widen c t rc sat true v d a b
  | .vaddw _ t rc sat d a b => widen c t rc sat false v d a b
  | .vclass _ t d a => pats c t v d a .none (fun x _ => classOf (fmtOf t) (unpack (fmtOf t) x))
  | .vround _ t rc exact d a =>
    let n := nOf t
    mapGroup t.bits n (mOf t) v (c.at d) (fun k =>
      roundV (fmtOf t) (rmOf rc c.rm) exact (unpack (fmtOf t) (getE t.bits n v (c.at a) k)))
  | .vtrn _ t d a => vtrn c t v d a
  | .vdot _ t rc d a b cc => vdot c t rc v d a b cc
  | _ => ⟨v, none, 0⟩

end Sys2Proof.Vec
end

