-- ==== Sys2Proof/Machine/Flags.lean ====
section
/-! DEFINITION. The flags and the rounding mode of ASR (R79 to R81). -/
namespace Sys2Proof.Machine
open Num

/-- R79: the flags ORed into an ASR value; the six flags stand in bits 8 to 13. -/
def asrOr (asr : Word) (fl : Flg) : Word := asr ||| (fl.zeroExtend 64 <<< (8 : Nat))

/-- R79: the rounding mode of an ASR value. -/
def asrRm (asr : Word) : Rm := Rm.ofCode (asr.toNat % 4)

/-- R79: the bits of ASR that a write reaches. -/
def asrMask : Word := 0x3F03

/-- R200, R106, R328, R229: the bits of VSH, LFS, TCAUSE and a TSH that are not reserved. -/
def vshMask : Word := 0x0FF7FFFF
def lfsMask : Word := 0xFFF3
def tcauseMask : Word := 0x80000000000001FF
def tshMask : Word := 0xFFFFFFFF0FFFFFFF

/-- Sets sticky flags of the acting context (R95: at the end of the group). -/
def State.flag (s : State) (fl : Flg) : State := s.upd (fun c => { c with asr := asrOr c.asr fl })

/-- Sets sticky flags of a context by key (R81, R94). -/
def State.flagAt (s : State) (key : Nat) (fl : Flg) : State :=
  s.setCtx key { s.getCtx key with asr := asrOr (s.getCtx key).asr fl }

/-- The rounding mode a form captures at issue (R80, R81). -/
def State.rm (s : State) (rc : Rc) : Rm := Vec.rmOf rc (asrRm s.view.asr)

end Sys2Proof.Machine
end

