-- ==== Sys2Proof/Machine/Operands.lean ====
section
/-! DEFINITION. Operands: guards, effective addresses, sources, destinations, the lanes of the phase fabric, and the checks an
instruction makes before its effect (R58 to R65, R95, R268 to R271, R278). -/
namespace Sys2Proof.Machine
open Num

/-! ### Sources (R58, R60, R61, R64, R95) -/

/-- R58: whether a guard lets its instruction execute. -/
def State.guard (s : State) (g : Guard) : Bool := s.rp g.p != g.neg

/-- R64: the effective address of a memory operand. -/
def State.ea (s : State) (m : Mem) : Word :=
  s.rs m.base + (m.index.elim 0 s.rs <<< m.shift.toNat) + m.disp.signExtend 64

/-- A latch of an incoming lane that nothing has reached (R269). -/
def Latch.clear : Latch := ⟨0, 0, false⟩

/-- R269: the latch of an incoming lane of the acting core. -/
def State.latch (s : State) (l : Link) : Latch :=
  match s.core.phase with
  | none => Latch.clear
  | some p => ((p.latches.find? (fun x => x.1 == l)).map (·.2)).getD Latch.clear

/-- R60, R61: a source as a 64-bit value: a register, a sign-extended immediate, a predicate, a latch, or zero when absent. -/
def State.src (s : State) (o : Opnd) : Word :=
  match o with
  | .s n => s.rs n
  | .imm i => i.signExtend 64
  | .p n => if s.rp n then 1 else 0
  | .link l => (s.latch l).value
  | _ => 0

/-- R95: the type in whose width and signedness a scalar integer form works; code 0xF means n64. -/
def intTy (t : Ty) : Ty := if t.isInt then t else .n64

/-- R95: the N-bit pattern of a source. -/
def State.pat (s : State) (t : Ty) (o : Opnd) : Nat := (s.src o).toNat % 2 ^ (intTy t).bits

/-- R95: the value of a source in the type's signedness. -/
def State.int (s : State) (t : Ty) (o : Opnd) : Int := intVal (intTy t) (s.pat t o)

/-- R61, R110: a source as a value of a scalar floating type; an immediate enters as its exact integer. -/
def State.flt (s : State) (t : Ty) (o : Opnd) : Val :=
  match o with
  | .imm i => ofInt false (Bits.sx 5 i.toNat) 0
  | _ => unpack (fmtOf t) ((s.src o).toNat % 2 ^ t.bits)

/-! ### Lanes (R268, R269) -/

/-- R268: the name the receiver gives a lane. -/
def oppositeLane : Link → Link
  | .near n .north => .near n .south
  | .near n .south => .near n .north
  | .near n .east => .near n .west
  | .near n .west => .near n .east
  | .far n e => .far n (!e)

/-- The logical die at a site. -/
def dieAt (dmap r u : Nat) : Option Nat := (List.range 8).find? (fun d => Topo.site dmap d == (r, u))

/-- R268: the next computing site from column u in a direction, and the sites crossed on the way. -/
def nextSite (dmap r u : Nat) (east : Bool) : Option (Nat × Nat) :=
  let path := if east then (List.range 5).filter (fun v => u < v) else ((List.range 5).filter (fun v => v < u)).reverse
  (path.zipIdx.find? (fun x => (dieAt dmap r x.1).isSome)).bind (fun x => (dieAt dmap r x.1).map (fun d => (d, x.2)))

/-- R268: where an outgoing lane ends: the core index and the delay; none for a lane that leads nowhere. -/
def laneTarget (dmap core : Nat) (l : Link) : Option (Nat × Nat) :=
  let d := core / 512
  let y := core / 32 % 16
  let x := core % 32
  let (r, u) := Topo.site dmap d
  match l with
  | .near _ .north =>
    if 0 < y then some (core - 32, 1) else if r = 0 then none else (dieAt dmap 0 u).map (fun e => (Topo.coreIndex e 15 x, 4))
  | .near _ .south =>
    if y < 15 then some (core + 32, 1) else if r = 1 then none else (dieAt dmap 1 u).map (fun e => (Topo.coreIndex e 0 x, 4))
  | .near _ .east =>
    if x < 31 then some (core + 1, 1) else (nextSite dmap r u true).map (fun e => (Topo.coreIndex e.1 y 0, 4 + 2 * e.2))
  | .near _ .west =>
    if 0 < x then some (core - 1, 1) else (nextSite dmap r u false).map (fun e => (Topo.coreIndex e.1 y 31, 4 + 2 * e.2))
  | .far _ true => if x + 4 < 32 then some (core + 4, 1) else none
  | .far _ false => if 4 ≤ x then some (core - 4, 1) else none

/-- R278: the latch fields of a cause that concerns no latch: the spec states none (log 11). -/
def openLatch (s : State) : Latch :=
  let w := Config.freeWord s.free
  ⟨0, w.extractLsb' 32 16, w.getLsbD 48⟩

/-- R278: the stamp and count fields of a cause raised by a form that has no stamp: the spec states none (log 11). -/
def openStamp (s : State) : Nat × Nat :=
  let w := (Config.freeWord s.free).toNat
  (w % 65536, w / 65536 % 256)

/-- R278: cause 0x6A with its subcode, given stamp and count, link specifier and latch. -/
def raiseLane {α : Type} (pcc : Nat) (stamp : Nat × Nat) (spec : BitVec 8) (sub : Nat) (latch : Latch) : Res α :=
  raise 0x6A (BitVec.ofNat 64 (pcc % 65536 + stamp.1 % 65536 * 2 ^ 16 + stamp.2 % 256 * 2 ^ 32 + spec.toNat * 2 ^ 40))
    (BitVec.ofNat 64 (sub + latch.sent.toNat * 2 ^ 16 + Bits.b2n latch.pres * 2 ^ 32))

/-- Puts a value on a lane of core k at phase cycle c: it travels to the receiver if that core is in the same episode (R269).
None when the lane leads nowhere. -/
def laneSend (s : State) (k : Nat) (p : Phase) (l : Link) (v : Word) (sent : BitVec 16) : Option State :=
  match laneTarget p.dmap.toNat (k % 4096) l with
  | none => none
  | some (core, delay) =>
    let r := k / 4096 * 4096 + core
    let rc := s.getCore r
    match rc.phase with
    | some q =>
      if q.episode = p.episode then
        some (s.setCore r { rc with phase := some { q with inflight := q.inflight ++ [⟨oppositeLane l, p.pcc + delay, v, sent⟩] } })
      else some s
    | none => some s

/-- R271: a write of the acting group to an outgoing lane at its phase cycle; `stamp` and count are those of an X form. -/
def State.laneWrite (s : State) (l : Link) (v : Word) (stamp : Option (Nat × Nat)) : Res State :=
  match s.core.phase with
  | none => .ok s
  | some p =>
    let st := stamp.getD (openStamp s)
    match p.written.find? (fun x => x.1 == l) with
    | some x => raiseLane p.pcc (stamp.getD (x.2.getD (openStamp s))) l.spec 3 (openLatch s)
    | none =>
      match laneSend s s.coreKey p l v (BitVec.ofNat 16 p.pcc) with
      | none => raiseLane p.pcc st l.spec 4 (openLatch s)
      | some s => .ok (s.updCore (fun c => { c with phase := c.phase.map (fun q => { q with written := (l, stamp) :: q.written }) }))

/-- R60, R95: writes a destination: an s register or a link; a predicate takes whether the value is nonzero (R111); absent
discards. -/
def State.dst (s : State) (o : Opnd) (v : Word) : Res State :=
  match o with
  | .s n => .ok (s.putS n v)
  | .p n => .ok (s.putP n (v ≠ 0))
  | .link l => s.laneWrite l v none
  | _ => .ok s

/-- R95 put: an exact result wrapped to the type and extended. -/
def putWord (t : Ty) (p : Nat) : Word := Vec.extend (intTy t) (p % 2 ^ (intTy t).bits)

/-! ### Checks before the effect -/

/-- Opcodes that may not stand in a line with PH = 1 (R98, R126, R209, R237, R263, R295, R304, R332, R185). -/
def barred (op : Nat) : Bool :=
  (0x26 ≤ op && op ≤ 0x29) || (0x44 ≤ op && op ≤ 0x5A) || (0x60 ≤ op && op ≤ 0x69) || op = 0x91 || op = 0x92 || op = 0x93
    || op = 0xA0 || op = 0xA1 || op = 0xA2 || op = 0xA3 || op = 0xA8 || op = 0xAB || op = 0xAC || op = 0xB8 || op = 0xB9
    || (0xD0 ≤ op && op ≤ 0xE5) || op = 0xF0 || op = 0xF1 || (0xF5 ≤ op && op ≤ 0xFB)

/-- R185: the forms that raise 0x6B at decode, whatever their guard. -/
def barredAtDecode (op : Nat) : Bool := 0x60 ≤ op && op ≤ 0x69

/-- An instruction under its guard (R58): a false guard leaves the state as it is, but for the checks of R185; a form that may
not stand in a phase raises 0x6B there. -/
def guarded (s : State) (i : Instr) (g : Guard) (body : Res State) : Host.Outcome State Fault Refusal :=
  let op := (slotOf i).toNat / 2 ^ 88
  finish s (
    if s.inPhase && barredAtDecode op then raisePhase s i 2
    else if !s.guard g then .ok s
    else if s.inPhase && barred op then raisePhase s i 2
    else body)

end Sys2Proof.Machine
end

