-- ==== Sys2Proof/Machine/Delivery.lean ====
section
/-! DEFINITION. Faults that reach a context after the form that caused them: refused accesses (R122), faulted dispatch entries
(R206) and engine errors (R292, R359). -/
namespace Sys2Proof.Machine

/-- R205: the dispatch sequence number after n. -/
def nextTseq (n : Nat) : Nat := if n = 65535 then 1 else n + 1

/-- The ring entry of a sequence number (R205). -/
def Core.entry (c : Core) (q : Nat) : RingEntry := mget RingEntry.free (q % 64) c.ring

/-- R206: the oldest faulted entry of a context that it has not yet taken. -/
def oldestFault (c : Core) (ctx : Nat) : Option RingEntry :=
  c.ring.foldl (fun best e =>
    if e.2.state = 3 && !e.2.taken && e.2.ctx.val = ctx then
      match best with
      | none => some e.2
      | some b => if tseqAge c.tseq b.tseq < tseqAge c.tseq e.2.tseq then some e.2 else best
    else best) none

/-- R206, R271, R204: a context takes no fault between trap entry and RFT, in a phase, or while a capture is open. -/
def deliverable (s : State) (key : Nat) : Bool :=
  let c := s.getCtx key
  c.live && !c.tcause.getLsbD 63 && c.capture.isNone && !(s.getCore (key / 4)).phase.any (fun p => p.ctx.val = key % 4)

/-- A group that has waited with a limit, or has done some of its effects, is no next group: it first ends (the table of R361's run). -/
def begun (c : Ctx) : Bool :=
  c.walking.isSome || !c.sent.isEmpty || c.packet.any (fun p => p.done ≠ 0) || (match c.wait with
    | some (.timed ..) | some .release | some .released => true
    | _ => false)

/-- R206: a context takes its oldest faulted entry. -/
def deliverFault (s : State) (key : Nat) : State :=
  let k := key / 4
  match oldestFault (s.getCore k) (key % 4) with
  | none => s
  | some e =>
    let core := s.getCore k
    let s := s.setCore k { core with ring := mset (e.tseq % 64) { e with taken := true } core.ring }
    let s := enterTrap s key ⟨e.cause, e.infoA, e.infoB, none⟩ true e.tseq
    if (s.getCtx key).live then s else freeRing s k e.tseq

/-- R292, R359: a context takes its oldest engine error; its timestamp rises to that of the command. -/
def deliverError (s : State) (key : Nat) : State :=
  let c := s.getCtx key
  match c.errors with
  | [] => s
  | e :: rest =>
    enterTrap (s.setCtx key { c with errors := rest, pts := max c.pts e.cts }) key ⟨e.cause, e.infoA, e.infoB, none⟩ true 0

/-- R122: a context takes the refusal of its oldest refused access. -/
def deliverRefusal (s : State) (key : Nat) : State :=
  let c := s.getCtx key
  match c.refusals with
  | [] => s
  | (va, pa, _) :: rest => enterTrap (s.setCtx key { c with refusals := rest }) key ⟨0x12, va, pa, none⟩ false 0

/-- R122: a refusal is taken at the next group whatever that is; one that came while another still stood waits for the return from
that one's trap (log 27). -/
def refusalDue (s : State) (key : Nat) : Bool :=
  match (s.getCtx key).refusals with
  | [] => false
  | (_, _, late) :: _ => !late || deliverable s key

end Sys2Proof.Machine
end

