-- ==== Sys2Proof/Machine/Wide.lean ====
section
/-! DEFINITION. The wide unit: the completion of dispatched forms (R81, R205), which form it takes next, and its cycles in a communication
phase, where they can be told apart (R199, R271; log 8). -/
namespace Sys2Proof.Machine

/-- R81, R94, R99: writes an s result that arrives for a context. The spec leaves it open whether it is still written when a task
that has started in the context since has made the register full (log 11). -/
def lateAnswer (s : State) (key : Nat) (d : Fin 32) (v : Word) : State :=
  let c := s.getCtx key
  if c.full.getLsbD d.val then
    (if Config.lateResult s.free then { s.setCtx key (c.putS d v) with free := s.free + 1 } else { s with free := s.free + 1 })
  else s.setCtx key (c.putS d v)

/-- R81, R205: a dispatched form completes: its s result and flags are written and its entry is free. -/
def completeEntry (s : State) (k q : Nat) : State :=
  let c := s.getCore k
  let e := c.entry q
  let key := 4 * k + e.ctx.val
  let s := s.setCore k { c with ring := mset (q % 64) { e with state := 0 } c.ring, seq := c.seq.filter (fun x => x != q) }
  let s := if e.orphan then s else s.flagAt key e.flags
  match e.dest with
  | some d => lateAnswer s key d e.result
  | none => s

/-- R128, R202, R218, R220, R256, R258: the v groups that a form names, those of D first: their first registers and sizes. -/
def vGroups (f : Fields) (sh : Vec.Shape) : List (Nat × Nat) × List (Nat × Nat) :=
  let op := f.op.toNat
  let w := (Ty.ofCode f.t).bits
  let group (x : BitVec 8) (n : Nat) : List (Nat × Nat) := if clsOf x == .v then [(x.toNat % 32, n)] else []
  let items (o : Nat) : Nat := Bits.ceilDiv (f.imm.toNat / 2 ^ o % 64 + 1) (512 / w)
  if op = 0x42 || op = 0x43 || (0x72 ≤ op && op ≤ 0x99) then
    (group f.d (if op = 0x8B || op = 0x8D || op = 0x99 then 1 else if op = 0x98 then sh.n w else sh.rows),
      group f.a (if op = 0x8C then 1 else sh.rows) ++ group f.b sh.rows ++ group f.c (if op = 0x99 then 1 else sh.rows))
  else if op = 0xB0 then ([], group f.a (items 0) ++ group f.b (items 6))
  else if 0xB1 ≤ op && op ≤ 0xB3 then (group f.d 4, [])
  else ([], [])

/-- R69, R202, R204, R218, R220: the causes of decode that depend on VSH: 0x08 where a group would pass v31, for a captured form in its last
pass; and 0x22 for a shape that VPACK, VUNPK or VTRN does not accept. -/
def shapeCause (c : Ctx) (vsh : Word) (f : Fields) : Option Nat :=
  let op := f.op.toNat
  let sh := Vec.Shape.ofWord vsh.toNat
  let shift := if 0x72 ≤ op && op ≤ 0x99 then c.capture.elim 0 (fun c => c.rep % 256 * (c.rep / 4096 % 8)) else 0
  let gs := vGroups f sh
  if (gs.1 ++ gs.2).any (fun x => decide (32 < x.1 + shift + x.2)) then some 0x08
  else if (op = 0x8B && !Vec.packShapeOk sh (Ty.ofCode (f.imm.setWidth 4)).bits) || (op = 0x8C && !Vec.packShapeOk sh (Ty.ofCode f.t).bits) ||
      (op = 0x98 && 8 < sh.n (Ty.ofCode f.t).bits) then some 0x22
  else none

/-- The trap of such a cause at an instruction of the acting group, with the slot (R71). -/
def shapeTrap (s : State) (i : Instr) : Option TrapInfo :=
  (shapeCause s.view s.view.vsh (Fields.ofSlot (slotOf i))).map (fun c => ⟨c, (slotInfo s i).1, (slotInfo s i).2, none⟩)

/-- R198, R202, R204: the v registers that the form of a ring entry reads, and those that it writes, over all its passes. -/
def vUse (e : RingEntry) : List Nat × List Nat :=
  let f := Fields.ofSlot e.insn
  let op := f.op.toNat
  let gs := vGroups f (Vec.Shape.ofWord e.vshc.toNat)
  let passes := if e.repv then (List.range (e.rep.toNat % 256 + 1)).map (fun p => p * (e.rep.toNat / 4096 % 8)) else [0]
  let regs (xs : List (Nat × Nat)) : List Nat := xs.flatMap (fun x => passes.flatMap (fun p => (List.range x.2).map (fun j => x.1 + p + j)))
  if op = 0x43 || op = 0x92 then (regs (gs.1 ++ gs.2), [])
  else (regs (if op = 0x75 || op = 0x94 then gs.1 ++ gs.2 else gs.2), regs gs.1)

/-- R198: two forms of one context may not change their order. -/
def vClash (x y : List Nat × List Nat) : Bool :=
  x.2.any (fun r => y.1.contains r || y.2.contains r) || x.1.any (fun r => y.2.contains r)

/-- R199, R271: in a phase, a v register that a form reads is not yet usable in a phase cycle. -/
def vLate (s : State) (k cycle : Nat) (rs : List Nat) : Bool :=
  (s.getCore k).phase.any (fun p => p.vdue.any (fun x => decide (cycle < x.2) && rs.contains x.1))

/-- R198, R199, R271: in a phase cycle, a form of a core cannot start: a source is not yet usable, or an earlier form of its context that has
not started holds it back. -/
def heldBack (s : State) (k cycle t : Nat) : Bool :=
  let c := s.getCore k
  let e := c.entry t
  c.phase.any (fun p =>
    (p.ctx == e.ctx && vLate s k cycle (vUse e).1) ||
      (c.seq ++ p.arrayDue.map (·.1)).any (fun u =>
        tseqAge c.tseq t < tseqAge c.tseq u && (c.entry u).ctx == e.ctx && vClash (vUse (c.entry u)) (vUse e)))

/-- R198, R271: in a phase, an LDV or STV of the acting context would wait for its earlier forms on the same v registers. -/
def memLate (s : State) (use : List Nat × List Nat) : Bool :=
  let c := s.core
  c.phase.any (fun p => vLate s s.coreKey p.pcc (use.1 ++ use.2) ||
    (c.seq ++ p.arrayDue.map (·.1)).any (fun u => (c.entry u).ctx == p.ctx && vClash (vUse (c.entry u)) use))

/-- R198, R207: an earlier form of the same context that is in flight holds back a form that reads or writes its v registers. -/
def waitsFor (c : Core) (t : Nat) : Bool :=
  let e := c.entry t
  c.ring.any (fun u => u.2.state == 1 && u.2.ctx == e.ctx && decide (tseqAge c.tseq t < tseqAge c.tseq u.2.tseq) && vClash (vUse u.2) (vUse e))

/-- R198, R199, R204: the oldest form of a core's sequencer that is ready: those of an open capture are not, nor one that an earlier form
holds back. -/
def readyForm (s : State) (k : Nat) (cycle : Option Nat) : Option Nat :=
  (s.getCore k).seq.find? (fun t =>
    [0, 1, 2, 3].all (fun n => !(s.getCtx (4 * k + n)).capture.any (fun cap => cap.forms.contains t)) &&
      !cycle.elim (waitsFor (s.getCore k) t) (fun n => heldBack s k n t))

/-- R199: the first core of a quad in rotation, after the one last served, that has a ready form and passes `ok`. -/
def nextColumn (s : State) (q : Nat) (cycle : Option Nat) (ok : Nat → Bool) : Option (Nat × Nat) :=
  ([1, 2, 3, 4].map (fun j => 4 * q + ((s.getQuad q).last.val + j) % 4)).findSome? (fun k =>
    if ok k then (readyForm s k cycle).map (fun t => (k, t)) else none)

/-- The least n with m ≤ 2^n, up to 16. -/
def ceilLog2 (m : Nat) : Nat := ((List.range 16).find? (fun n => decide (m ≤ 2 ^ n))).getD 16

/-- R199: the occupancy and the latency of a form. -/
def unitTime (e : RingEntry) : Nat × Nat :=
  let op := e.insn.toNat / 2 ^ 88
  let sh := Vec.Shape.ofWord e.vshc.toNat
  let g := (sh.rows + 3) / 4
  let w := (Ty.ofCode (Fields.ofSlot e.insn).t).bits
  let passes := if e.repv then e.rep.toNat % 256 + 1 else 1
  let (occ, lat) : Nat × Nat :=
    if op = 0x7C || op = 0x7D then (if w = 64 then 8 * g else 4 * g, 12)
    else if op = 0x8D || op = 0x8E || op = 0x99 then (g, 8 + ceilLog2 (sh.rows * sh.n w))
    else if op = 0x8F || op = 0x90 || op = 0x98 || op = 0x8B || op = 0x8C then (2 * g, 4)
    else if op = 0x74 then (g, 6)
    else if (0x76 ≤ op && op ≤ 0x7B) || op = 0x7E || op = 0x7F || op = 0x8A || op = 0x94 || op = 0x95 || op = 0x97 then (g, 4)
    else (g, 2)
  (occ * passes, lat + occ * (passes - 1))

/-- R199, R271: a phase cycle of a quad's wide unit, once all its cores in the episode have ended theirs: it starts a form if it is
free. -/
def unitCycle (s : State) (q episode cycle : Nat) : State :=
  let within (k : Nat) : Bool := (s.getCore k).phase.any (fun p => p.episode = episode)
  if [0, 1, 2, 3].any (fun j => (s.getCore (4 * q + j)).phase.any (fun p => decide (p.episode = episode ∧ p.pcc ≤ cycle))) ||
      cycle < (s.getQuad q).busy then s
  else
    match nextColumn s q (some cycle) within with
    | none => s
    | some (k, t) =>
      let c := s.getCore k
      let quad := s.getQuad q
      let e := c.entry t
      let sf := e.insn.toNat / 2 ^ 88 = 0x93
      let rows := (Vec.Shape.ofWord e.vshc.toNat).rows
      let enters := max cycle quad.sfBusy
      let (occ, lat) := unitTime e
      let done := if sf then enters + rows - 1 + 16 else cycle + lat
      let s := s.setCore k { c with
        seq := c.seq.filter (fun x => x != t), ring := mset (t % 64) { e with stage := 1 } c.ring
        phase := c.phase.map (fun p => { p with
          due := p.due ++ [(t, done)], vdue := p.vdue ++ (if p.ctx = e.ctx then (vUse e).2.map (fun r => (r, done)) else []) }) }
      s.setQuad q { quad with
        last := ⟨k % 4, Nat.mod_lt _ (by decide)⟩, busy := cycle + occ, sfBusy := if sf then enters + rows else quad.sfBusy }

/-- R238, R262, R271: a phase cycle of a core's array: it starts its next form if it is free and the form is not held back. -/
def arrayCycle (s : State) (k cycle : Nat) : State :=
  let c := s.getCore k
  match c.phase with
  | none => s
  | some p =>
    match p.arrayDue with
    | [] => s
    | (t, n) :: rest =>
      if cycle < p.array || heldBack s k cycle t then s
      else
        let e := c.entry t
        s.setCore k { c with phase := some { p with
          arrayDue := rest, array := cycle + n, due := p.due ++ [(t, cycle + n)],
          vdue := p.vdue ++ (if p.ctx = e.ctx then (vUse e).2.map (fun r => (r, cycle + n + 2)) else []) } }

/-- R199: the forms of a core whose results can be used from a phase cycle on complete. -/
def completeDue (s : State) (k pcc : Nat) : State :=
  match (s.getCore k).phase with
  | none => s
  | some p => (p.due.filter (fun x => x.2 ≤ pcc)).foldl (fun s x => completeEntry s k x.1)
      (s.setCore k { s.getCore k with phase := some { p with
        due := p.due.filter (fun x => !(x.2 ≤ pcc : Bool)), vdue := p.vdue.filter (fun x => !(x.2 ≤ pcc : Bool)) } })

end Sys2Proof.Machine
end

