-- ==== Sys2Proof/Machine/Following.lean ====
section
/-! DEFINITION. Leaders and followers: LFS, the neighbours, the forwarding network and detaching (R100 to R102, R106). -/
namespace Sys2Proof.Machine

/-- The core of a die that stands next to a core (R100). -/
def neighbour (k : Nat) (d : Dir) : Option Nat :=
  match d with
  | .north => if rowOf k = 0 then none else some (k - 32)
  | .south => if rowOf k = 15 then none else some (k + 32)
  | .east => if colOf k = 31 then none else some (k + 1)
  | .west => if colOf k = 0 then none else some (k - 1)

/-- The directions of a mask (R100). -/
def dirsOf (m : Nat) : List Dir := [Dir.north, .east, .south, .west].filter (fun d => Bits.bit m (d.code.toNat))

/-- R106: LFS as fields. -/
def lfsMode (c : Ctx) : Nat := c.lfs.toNat % 4
def lfsDir (c : Ctx) : Dir := Dir.ofCode (BitVec.ofNat 4 (c.lfs.toNat / 16 % 4))
def lfsHops (c : Ctx) : Nat := c.lfs.toNat / 64 % 64
def lfsFwd (c : Ctx) : Nat := c.lfs.toNat / 4096 % 16
def mkLfs (fwd hops dir mode : Nat) : Word := BitVec.ofNat 64 (mode + 16 * dir + 64 * hops + 4096 * fwd)

/-- R100: the context of a core that follows, if one does. -/
def followerOf (s : State) (k : Nat) : Option Nat :=
  (List.range 4).find? (fun c => (s.getCtx (4 * k + c)).live && 2 ≤ lfsMode (s.getCtx (4 * k + c)))

/-- The neighbours of a core that follow it from its direction (R101). -/
def followersOf (s : State) (k fwd : Nat) : List Nat :=
  (dirsOf fwd).filterMap (fun d => (neighbour k d).bind (fun n =>
    (followerOf s n).bind (fun c =>
      if neighbour n (lfsDir (s.getCtx (4 * n + c))) == some k then some n else none)))

/-- Whether what travels is a group; only groups take room in a buffer (R101). -/
def Forward.isGroup : Forward → Bool
  | .group .. => true
  | _ => false

/-- R101: one more group would overfill some buffer downstream of a core, once the `carried` groups that the buffers on the way
still hold have passed on. -/
def downstreamFull (s : State) : Nat → Nat → Nat → Nat → Bool
  | 0, _, _, _ => false
  | fuel + 1, k, fwd, carried => (followersOf s k fwd).any (fun n =>
      let held := carried + ((s.getCore n).buffer.filter Forward.isGroup).length
      64 ≤ held ||
        (match followerOf s n with
          | some c => downstreamFull s fuel n (lfsFwd (s.getCtx (4 * n + c))) held
          | none => false))

/-- R101: a follower takes a group that comes after its attach marker. -/
def takesGroup (s : State) (n : Nat) : Bool :=
  (followerOf s n).any (fun c => lfsMode (s.getCtx (4 * n + c)) = 3) || (s.getCore n).buffer.any (fun f => match f with
    | .attach _ => true
    | _ => false)

/-- Puts what a core forwards into the buffers of its followers (R100, R101). -/
def forwardTo (s : State) (k fwd : Nat) (f : Forward) : State :=
  (followersOf s k fwd).foldl (fun s n =>
    if f.isGroup && !takesGroup s n then s else s.setCore n { s.getCore n with buffer := (s.getCore n).buffer ++ [f] }) s

/-- R102: a following context detaches: it ends following and goes on from its own PC with its own fetch. -/
def detach (s : State) (key : Nat) : State :=
  let s := s.setCtx key { s.getCtx key with lfs := 0, lineBuf := none }
  s.setCore (key / 4) { s.getCore (key / 4) with buffer := [] }

/-- The opposite direction. -/
def backDir : Dir → Dir
  | .north => .south
  | .south => .north
  | .east => .west
  | .west => .east

/-- R101: the context of core n that forwards in direction d, if one does; one that still waits for its own marker does not (log 29). -/
def forwarder (s : State) (n : Nat) (d : Dir) : Option Nat :=
  (List.range 4).find? (fun c =>
    let x := s.getCtx (4 * n + c)
    x.live && lfsMode x ≠ 0 && lfsMode x ≠ 2 && Bits.bit (lfsFwd x) d.code.toNat)

end Sys2Proof.Machine
end

