-- ==== Sys2Proof/Machine/Issue.lean ====
section
/-! DEFINITION. Issue: fetching and checking a line (R49 to R53, R71), decoding a group (R54 to R56, R70), when a group may issue
(R94, R96, R101, R204, R271), what follows it (R96, R100, R271), and one step of the whole system, given the meanings of the
instructions. -/
namespace Sys2Proof.Machine
open Num

/-! ### The line (R49 to R53, R71) -/

/-- The 0x0D, and any trap the spec leaves without information, with open TINFOA and TINFOB (log 11). -/
def openInfo (s : State) (cause : Nat) : TrapInfo :=
  ⟨cause, Config.freeWord s.free, Config.freeWord (s.free + 1), none⟩

/-- R50: the XOR of the sixty payload bytes. -/
def lineParity (l : Line) : Nat := (Bits.bytesLE 60 l.toNat).foldl (fun a b => a ^^^ b.toNat) 0

/-- R52, R71: the line check that fails on entry at code address `a`. -/
def lineFault (a : Word) (l : Line) (ph : Bool) : Option TrapInfo :=
  let w := lineWord l
  let la := a &&& ~~~0x3F#64
  let par := lineParity l ^^^ Bits.fld w 23 16
  if par ≠ 0 then some ⟨0x05, la, BitVec.ofNat 64 (a.toNat % 8 * 2 ^ 32 + par * 2 ^ 40), none⟩
  else if Bits.fld w 15 9 ≠ 0 || Bits.fld w 31 24 ≠ 0 then some ⟨0x0A, la, BitVec.ofNat 64 w, none⟩
  else if Bits.bit w 8 != ph then some ⟨0x0C, la, BitVec.ofNat 64 w, none⟩
  else none

/-- R53, R70, R121, R122, R324, R357: reads the line of a code address for the acting context: the page's permission, the region,
the target's access table and poison come first. -/
def readLine (s : State) (a : Word) : Res (State × Line) := do
  let la := a &&& ~~~0x3F#64
  let (s, found) ← walkStep s s.cur la.toNat
  match xlateWith s s.coreKey s.gangId la.toNat .exec found with
  | .error (0x0D, _) => .error (.after s (openInfo s 0x0D))
  | .error (c, b) => raiseFrom s c la (BitVec.ofNat 64 b)
  | .ok x =>
    if paReg x.pa = 2 then raiseFrom s 0x1A la 0
    else
      let s := fillTlb s s.coreKey x
      if !targetAllows s s.coreKey s.gangId s.gang.asid x.pa true false then raiseFrom s 0x12 la (BitVec.ofNat 64 x.pa)
      else
        let s := homeRead s .ctx x.pa
        if poisoned s x.pa then consume s x.pa else .ok (s, lineVal s (x.pa / 64))

/-- R119, R270, R357, R358: a context loads the run of consecutive lines with PH = 1 from a line address, at most `fuel` of them: each, and
the one that ends the run, is read at its home, and a poisoned one is consumed. -/
def loadRun (s : State) (key : Nat) : Nat → Word → Res (State × List (Word × Line))
  | 0, _ => .ok (s, [])
  | fuel + 1, la =>
    match fetchAt s key la with
    | .error e => .error e
    | .ok (s, none) => .ok (s, [])
    | .ok (s, some pa) =>
      let s := homeRead s .ctx pa
      if poisoned s pa then consumeAt s key pa
      else
        let l := lineVal s (pa / 64)
        if !Bits.bit (lineWord l) 8 then .ok (s, [])
        else
          match loadRun s key fuel (la + 64) with
          | .error e => .error e
          | .ok (s, run) => .ok (s, (la, l) :: run)

/-- R271, R278: cause 0x6B at a slot that is not decoded. -/
def phaseSlot {α : Type} (s : State) (w : Slot) (sub : Nat) : Res α :=
  raise 0x6B (w.extractLsb' 0 64) (BitVec.ofNat 64 (sub + (s.core.phase.elim 0 (·.pcc)) % 65536 * 2 ^ 32))

/-- The line of the acting context's next group: the one it has entered, or, on entering another, that line fetched and
checked (R52). In a phase it comes from the loaded run; a line outside it is checked as well before it raises 0x6B (R270, R271). -/
def enterLine (s : State) : Res (State × Line) :=
  let c := s.ctx
  let a := c.pc
  let la := a &&& ~~~0x3F#64
  let held := match c.lineBuf with
    | some (b, l) => if b = la then some l else none
    | none => none
  match held with
  | some l => .ok (s, l)
  | none =>
    if !codeAddrOk a then raise 0x0B a 0
    else
      let enter (s : State) (l : Line) : Res (State × Line) :=
        match lineFault a l s.inPhase with
        | some t => .error (.trap t)
        | none => .ok (s.upd (fun c => { c with lineBuf := some (la, l) }), l)
      match s.core.phase with
      | none => match readLine s a with
        | .ok (s, l) => enter s l
        | .error e => .error e
      | some p =>
        match p.run.find? (fun x => x.1 == la) with
        | some x => enter s x.2
        | none => match readLine s a with
          | .ok (s, l) => match enter s l with
            | .ok (s, l) => phaseSlot s (slotAt l (a.toNat % 8)) 1
            | .error e => .error e
          | .error e => .error e

/-! ### The group (R54 to R56, R70, R71, R94) -/

/-- R71: the trap of a slot fault. -/
def slotTrap (cause : Nat) (w : Slot) (j : Nat) : TrapInfo :=
  ⟨cause, w.extractLsb' 0 64, BitVec.ofNat 64 ((w.extractLsb' 64 32).toNat + j * 2 ^ 32), none⟩

/-- The specifier of the register a word names as destination; `none` where it has none, or names s0, p0 or absent (R55). -/
def destSpec (f : Fields) : Option (BitVec 8) :=
  let op := f.op.toNat
  if op = 0x22 || op = 0x23 then some 30
  else if op = 0x25 then some f.a
  else if op = 0x41 || op = 0x43 || op = 0x52 || op = 0x53 || op = 0x59 || op = 0x92 || op = 0xA3 || op = 0xB9 then none
  else if op = 0xAB && clsOf f.d = .s then none
  else if f.d = 0xFF || f.d = 0 || f.d = 0x60 || clsOf f.d = .l then none
  else some f.d

/-- R55: the two words may not form a pair. -/
def pairConflict (f g : Fields) : Bool :=
  let p := portOf f
  (p ≠ .none && p == portOf g) || (match destSpec f, destSpec g with
    | some x, some y => x == y
    | _, _ => false)

/-- R94, R135, R338: the s registers a word reads or writes, as a mask. An MFS of FEM waits for its own destination and for no other (R103;
log 29). -/
def sMask (f : Fields) : BitVec 32 :=
  let one (x : BitVec 8) : BitVec 32 := if f.op ≠ 0 && x.toNat < 32 then 1#32 <<< x.toNat else 0
  let op := f.op.toNat
  one f.d ||| one f.a ||| one f.b ||| one f.c |||
    (if op = 0x22 || op = 0x23 || op = 0x24 then 1#32 <<< 30 else if op = 0xFA then 0xFFFFFFFF
     else if op = 0x58 && f.c ≠ 0xFF then 2 else 0)

/-- R70: the instructions of the group at slot j of a line, with their slots, or the trap of its first decode failure. A slot
with an unassigned opcode stands alone: executing it raises 0x01. -/
def decodeGroup (sup ph : Bool) (l : Line) (j : Nat) : Except TrapInfo (List (Nat × Instr)) :=
  let pt := Bits.fld (lineWord l) 7 5
  let w1 := slotAt l j
  match decode sup ph w1 with
  | .error e => .error (slotTrap e.cause w1 j)
  | .ok (.unassignedOpcode w) => .ok [(j, .unassignedOpcode w)]
  | .ok i1 =>
    if !pairAt pt j then .ok [(j, i1)]
    else
      let w2 := slotAt l (j + 1)
      match decode sup ph w2 with
      | .error e => .error (slotTrap e.cause w2 (j + 1))
      | .ok (.unassignedOpcode w) => .ok [(j + 1, .unassignedOpcode w)]
      | .ok i2 =>
        if pairConflict (Fields.ofSlot w1) (Fields.ofSlot w2) then .error (slotTrap 0x09 w2 (j + 1))
        else .ok [(j, i1), (j + 1, i2)]

/-- R51: the code address after the group at `a` that ends in slot j. -/
def nextAddr (a : Word) (j : Nat) : Word :=
  let la := a &&& ~~~0x3F#64
  if j = 4 then la + 64 else la + BitVec.ofNat 64 (j + 1)

/-- R204: whether a form may issue while a capture is open. -/
def mayCapture (i : Instr) : Bool :=
  let op := (slotOf i).toNat / 2 ^ 88
  i == .nop || (0x72 ≤ op && op ≤ 0x99)

/-- R150, R242, R261: the forms that access memory for their context: those of the memory port, gathers and scatters, DONE, CAPP and
the promise forms. -/
def memoryForm (f : Fields) : Bool :=
  let op := f.op.toNat
  portOf f == .mem || op = 0x91 || op = 0x92 || op = 0x63 || op = 0xD0 || (0xE0 ≤ op && op ≤ 0xE5)

/-- R242, R261: a tile transfer, a drain to a tensor, or a bit-tile transfer, by opcode and D. -/
def transferForm (op d : Nat) : Bool := op = 0xA2 || op = 0xA3 || op = 0xB8 || op = 0xB9 || (op = 0xAB && d < 32)

/-- R242, R253, R261: a form of the context waits in the array queue that this form has to follow: a transfer holds back memory
forms, and a form on v registers holds back the forms on v registers. -/
def arrayHolds (c : Core) (ctx : Nat) (f : Fields) : Bool :=
  let op := f.op.toNat
  let vector := (0x70 ≤ op && op ≤ 0x99) || (portOf f == .mem && (clsOf f.d == .v))
  c.arrayQ.any (fun x =>
    let e := mget RingEntry.free (x.tseq % 64) c.ring
    let q := e.insn.toNat / 2 ^ 88
    e.ctx.val = ctx && ((memoryForm f && transferForm q (e.insn.toNat / 2 ^ 72 % 256)) || (vector && 0xB0 ≤ q && q ≤ 0xB3)))

/-! ### Whether a context may issue -/

/-- What becomes of a context whose turn it is. -/
inductive Prep where
  /-- It cannot issue. -/
  | blocked
  /-- It took a trap, or went into a wait. -/
  | done (s : State)
  /-- Its group stands in `grp.todo`. -/
  | group (s : State)

/-- R96: a context that follows has a forwarded group to execute. -/
def streamReady (s : State) (key : Nat) : Bool :=
  lfsMode (s.getCtx key) = 3 && ((s.getCore (key / 4)).buffer.head?.any Forward.isGroup)

/-- R339, R343: every core of a gang has arrived at SEED. -/
def seedRunning (s : State) (g : Gang) : Bool :=
  !g.cores.isEmpty && g.cores.all (fun k => [0, 1, 2, 3].any (fun n => (s.getCtx (4 * k + n)).live && (match (s.getCtx (4 * k + n)).wait with
    | some (.seed _) => true
    | _ => false)))

/-- R343: T of the gang of a core has come: the core stops, unless it is in a communication phase or a SEED is under way. -/
def stopping (s : State) (k : Nat) : Bool :=
  let g := s.getGang (s.getCore k).gang
  g.outAt.any (fun t => t ≤ s.now) && (s.getCore k).phase.isNone && !seedRunning s g

/-- A context stands between two accesses of its group, or between the messages of a pair, and so at no instruction boundary (R149, R183). -/
def within (s : State) (key : Nat) : Bool := (s.getCtx key).wait == some .paused || (mget? key s.halves).isSome

/-- R96: a context that is live and waits for nothing but its own group's needs. -/
def awake (s : State) (key : Nat) : Bool :=
  let c := s.getCtx key
  let g := s.getGang (s.getCore (key / 4)).gang
  c.live && g.st == .running && g.consumed.isNone && (match c.wait with
      | none => true
      | some .retry => true
      | some .paused => true
      | some .released => true
      | some (.timed _ _ due) => due
      | _ => false) && (lfsMode c < 2 || streamReady s key) && !c.xinv && (!stopping s (key / 4) || within s key)

/-- R333, R330: the group's instructions stand at an instruction breakpoint that is to be checked. -/
def atBreakpoint (s : State) (a : Word) (is : List (Nat × Instr)) : Bool :=
  s.ctx.stepBrk ≠ some a && is.any (fun x => s.gang.brks.contains ((a &&& ~~~0x3F#64) + BitVec.ofNat 64 x.1))

/-- A slot with an unassigned opcode, which only raises 0x01. -/
def unassigned (x : Nat × Instr) : Bool :=
  match x.2 with
  | .unassignedOpcode _ => true
  | _ => false

/-- The acting context's trap at one of its slots. -/
def trapAt (s : State) (r : Res Unit) : Prep :=
  match r with
  | .error (.trap t) => .done (takeTrap s t)
  | _ => .blocked

/-- A group that has been fetched or forwarded, given its address, the address after it and its instructions. What decoding finds
comes first (R70, R185, R202, R218), then what may not stand in a capture (R204); then it issues if its registers are full and nothing else
holds it (R94, R242, R271, R333). In a phase a group that would wait reports its first slot, whichever of its forms waits, and subcode 1
before subcode 2 of a form that may not stand there (R278 gives neither: log 29). `went` is where a leader branched with it (R102). -/
def readyGroup (s : State) (a next : Word) (is : List (Nat × Instr)) (went : Option (Option Word)) : Prep :=
  let c := s.ctx
  let fields (x : Nat × Instr) : Fields := Fields.ofSlot (slotOf x.2)
  let masks := is.foldl (fun m x => m ||| sMask (fields x)) 0
  let issue : Prep := .group { s.upd (fun c => { c with
      pc := next, wait := none, stepBrk := if c.stepBrk = some a then none else c.stepBrk }) with
    grp := { Group.idle with todo := is, all := is, waited := c.wait, first := a, next := next, went := went } }
  let at_ (x : Nat × Instr) : State := { s with grp := { s.grp with slot := x.1 } }
  if is.any unassigned then issue
  else
    match is.findSome? (fun x => shapeTrap (at_ x) x.2) with
    | some t => .done (takeTrap s t)
    | none =>
      match (if s.inPhase then is.find? (fun x => barredAtDecode (fields x).op.toNat) else none) with
      | some x => trapAt s (raisePhase (at_ x) x.2 2)
      | none =>
        match (if c.capture.isSome then is.find? (fun x => !mayCapture x.2) else none) with
        | some x => .done (takeTrap s (slotTrap 0x20 (slotOf x.2) x.1))
        | none =>
          if masks &&& ~~~c.full &&& ~~~1#32 ≠ 0 || is.any (fun x => arrayHolds s.core (s.cur % 4) (fields x)) then
            (if s.inPhase then trapAt s (phaseSlot s (slotOf (is.headD (0, .nop)).2) 1) else .blocked)
          else if atBreakpoint s a is then .done (takeTrap s ⟨0x0F, 0, 1, none⟩)
          else issue

/-- Whether a context's capture has all its forms, and waits for VREP_PASS (R204). -/
def captureFull (c : Ctx) : Bool := c.capture.any (fun cap => cap.rep / 256 % 16 < cap.forms.length)

/-- R204: a capture is open: its context keeps the core. -/
def capturing (c : Ctx) : Bool := c.capture.isSome && !captureFull c

/-- A context stands before its next group, of which nothing has been done. -/
def atGroup (s : State) (key : Nat) : Bool := !begun (s.getCtx key) && (mget? key s.halves).isNone

/-- What a context takes before its next group: a refusal, a faulted entry or an engine error (R122, R206, R292). -/
def pendingTrap (s : State) (key : Nat) : Option State :=
  if !atGroup s key then none
  else if refusalDue s key then some (deliverRefusal s key)
  else if deliverable s key && (oldestFault (s.getCore (key / 4)) (key % 4)).isSome then some (deliverFault s key)
  else if deliverable s key && !(s.getCtx key).errors.isEmpty then some (deliverError s key)
  else none

/-- The group that the acting context fetches itself (R52, R54, R70). -/
def fetchGroup (s : State) : Prep :=
  let a := s.ctx.pc
  match enterLine s with
  | .error (.trap t) => .done (takeTrap s t)
  | .error (.after s t) => .done (takeTrap s t)
  | .error (.wait t) => .done t
  | .ok (s, l) =>
    let j := a.toNat % 8
    if !firstSlot (Bits.fld (lineWord l) 7 5) j then .done (takeTrap s ⟨0x0B, a, 0, none⟩)
    else
      match decodeGroup s.sup s.inPhase l j with
      | .error t => .done (takeTrap s t)
      | .ok is => readyGroup s a (nextAddr a (is.getLastD (j, .nop)).1) is none

/-- Brings a context to its next group, fetched or forwarded (R70, R94, R96, R101, R122, R204, R206, R271, R292, R333). -/
def prepare (s0 : State) (key : Nat) : Prep :=
  if !awake s0 key || captureFull (s0.getCtx key) then .blocked
  else
    let s := { s0 with cur := key, grp := { Group.idle with first := (s0.getCtx key).pc, next := (s0.getCtx key).pc } }
    match pendingTrap s key, mget? key s.halves with
    | some t, _ => .done t
    | none, some g => .group { s.upd (fun c => { c with pc := g.target.getD g.next, wait := none }) with grp := g }
    | none, none =>
      if lfsMode s.ctx = 3 then
        match s.core.buffer with
        | .group a next is went :: _ => readyGroup { s with grp := { s.grp with first := a, next := next } } a next is (some went)
        | _ => .blocked
      else if lfsMode s.ctx = 1 && downstreamFull s 32 s.coreKey (lfsFwd s.ctx) 0 then .blocked
      else fetchGroup s

/-! ### Executing a group (R56) -/

/-- R56, R81, R198, R333: the order in which the effects of a pair are put in the state. What reads special registers goes first, with what waits
for the vector forms dispatched before the pair; what writes the registers that such a form reads goes after it; and a form of the branch port goes
last. -/
def lateness (i : Instr) : Nat :=
  match i with
  | .mfs .. => 0
  | .mts _ _ n => if n = 0x002 then 0 else 3
  | .tmov .. | .tcvt .. | .mclaim .. | .mrls .. => 3
  | i =>
    match portOf (Fields.ofSlot (slotOf i)) with
    | .mem => 1
    | .branch => 4
    | _ => 2

/-- Executes the instructions that stand in `grp.todo`, as one unit (R56): each is first tried on the registers as they stand before
the pair, and if either traps, or else must wait, that is what the group does. A trap that only both together raise leaves nothing
done; a wait that only the first one's effect causes is none, and the other goes first. Where both raise a precise cause the first slot's is
reported (log 29). In a copy of a paired task a second message waits for its own comparison, and the first form stands (R183). -/
def runTodo (ex : Instr → State → Host.Outcome State Fault Refusal) (s : State) : Host.Outcome State Fault Refusal :=
  match s.grp.todo with
  | [] => .next s
  | [(j, i)] => ex i { s with grp := { s.grp with slot := j, todo := [] } }
  | (j, i) :: (m, h) :: _ =>
    let base := { s with grp := { s.grp with view := some s.ctx, todo := [] } }
    let run (x : Nat × Instr) (s : State) := ex x.2 { s with grp := { s.grp with slot := x.1 } }
    let is (p : Group → Bool) (o : Host.Outcome State Fault Refusal) : Bool := match o with
      | .next r => p r.grp
      | _ => false
    let alone := [run (j, i) base, run (m, h) base]
    let both (a b : Nat × Instr) : Host.Outcome State Fault Refusal :=
      match run a base with
      | .next r =>
        (match run b r with
         | .next t => .next (match t.grp.trapped, t.grp.raised with
           | true, some x => takeTrap base x
           | _, _ => if t.grp.stalled && t.ctx.wait == some .message then
               { t with halves := mset t.cur { r.grp with todo := [b] } t.halves } else t)
         | o => o)
      | o => o
    match alone.find? (is Group.trapped), alone.find? (is Group.stalled) with
    | some o, _ => o
    | none, some o => o
    | none, none =>
      let (a, b) := if lateness h < lateness i then ((m, h), (j, i)) else ((j, i), (m, h))
      let split (o : Host.Outcome State Fault Refusal) : Bool := match o with
        | .next r => (mget? r.cur r.halves).isSome
        | _ => false
      match [both a b, both b a].find? (fun o => !is Group.stalled o || split o) with
      | some o => o
      | none => finish base (stallOr base i .retry)

/-! ### After a group -/

/-- R271, R275: the end of the acting core's phase cycle: values that arrived for it pass through; the trap of a collision or of a
lane that leads nowhere. -/
def passOn (s : State) (k : Nat) : Res State :=
  match (s.getCore k).phase with
  | none => .ok s
  | some p =>
    (p.inflight.filter (fun x => x.cycle = p.pcc)).foldl (fun (r : Res State) x =>
      p.passes.foldl (fun r q =>
        if q.src = some x.lane && q.first ≤ p.pcc && p.pcc < q.stop then
          match r with
          | .error e => .error e
          | .ok s =>
            match p.written.find? (fun y => y.1 == q.out) with
            | some y => raiseLane p.pcc (y.2.getD (openStamp s)) q.out.spec 3 (openLatch s)
            | none =>
              match laneSend s k p q.out x.value x.sent with
              | none => raiseLane p.pcc (openStamp s) q.out.spec 4 (openLatch s)
              | some s => .ok s
        else r) r) (.ok s)

/-- R271: the next phase cycle of a core. -/
def nextCycle (s : State) (k : Nat) : State :=
  let c := s.getCore k
  match c.phase with
  | none => s
  | some p =>
    unitCycle (arrayCycle (s.setCore k { c with phase := some { p with
      pcc := p.pcc + 1, inflight := p.inflight.filter (fun x => x.cycle ≠ p.pcc), written := [], idle := p.idle - 1 } }) k p.pcc)
      (k / 4) p.episode p.pcc

/-- R269, R271: the start of a phase cycle: arrivals reach their latches, and loads their registers. -/
def startCycle (s : State) (k : Nat) : State :=
  let c := s.getCore k
  match c.phase with
  | none => s
  | some p =>
    let latches := (p.inflight.filter (fun x => x.cycle = p.pcc)).foldl (fun ls x =>
      (x.lane, (⟨x.value, x.sent, true⟩ : Latch)) :: ls.filter (fun y => y.1 != x.lane)) p.latches
    let key := 4 * k + p.ctx.val
    let s := completeDue (s.setCore k { c with phase := some { p with latches := latches, loads := p.loads.filter (fun x => p.pcc < x.2.2) } }) k p.pcc
    p.loads.foldl (fun s x => if x.2.2 ≤ p.pcc then s.setCtx key ((s.getCtx key).putS x.1 x.2.1) else s) s

/-- R96: a context is ready: its next group, or what it takes before it, can come now. `issues` says so of a group that is prepared. -/
def ready (issues : State → Bool) (s : State) (key : Nat) : Bool :=
  match prepare s key with
  | .blocked => false
  | .done _ => true
  | .group t => issues t

/-- R96: a group whose execution does not leave its context not ready (R94, R198, R209, R236). -/
def groupIssues (ex : Instr → State → Host.Outcome State Fault Refusal) (t : State) : Bool :=
  match runTodo ex t with
  | .next r => !(r.grp.stalled && (r.getCtx t.cur).wait == some .retry)
  | _ => true

/-- R96: context n of a core becomes its running context, with its quantum count at 0, also when the rotation comes back to the same context
(log 29). -/
def switchTo (s : State) (k n : Nat) : State :=
  (s.setCtx (4 * k + n) { s.getCtx (4 * k + n) with quantum := 0 }).setCore k
    { s.getCore k with running := ⟨n % 4, Nat.mod_lt _ (by decide)⟩, idling := false }

/-- R96: the running context gives way to the first ready one in rotation; with none, the core idles, and the search goes on from the same
context. -/
def selectCtx (issues : State → Bool) (s : State) (k : Nat) : State :=
  match ([1, 2, 3, 4].map (fun j => ((s.getCore k).running.val + j) % 4)).find? (fun n => ready issues s (4 * k + n)) with
  | none => s.setCore k { s.getCore k with idling := true }
  | some n => switchTo s k n

/-- R96: instructions that count: a NOP does not, one with a false guard does. -/
def countOf (is : List (Nat × Instr)) : Nat := (is.filter (fun x => x.2 != .nop)).length

/-- R100, R102: forwarding of a group that has issued, and a follower's own outcome beside its leader's. -/
def followGroup (s0 : State) (is : List (Nat × Instr)) (s : State) : State :=
  let key := s0.cur
  let k := key / 4
  let c0 := s0.getCtx key
  let s := if (lfsMode c0 = 1 && !s.grp.sent) || lfsMode c0 = 3 then
      forwardTo s k (lfsFwd c0) (.group s0.grp.first s0.grp.next is s.grp.target) else s
  match s0.grp.went with
  | none => s
  | some w =>
    let s := s.setCore k { s.getCore k with buffer := (s.getCore k).buffer.drop 1 }
    if lfsMode (s.getCtx key) = 3 && s.grp.target ≠ w then detach s key else s

/-- What follows a group of the acting context that has run: counting (R96, R337), forwarding (R100), the cycle's end in a phase
(R271, R276), and the choice of the next running context. `s0` stands before the group, `is` are its instructions. None if the group
could not issue and nothing has changed. -/
def conclude (ex : Instr → State → Host.Outcome State Fault Refusal) (s0 : State) (is : List (Nat × Instr)) (s : State) : Option State :=
  let key := s0.cur
  let k := key / 4
  let clear (s : State) : State := { s with grp := Group.idle }
  if s.grp.stalled then
    (if (s.getCtx key).wait = some .retry then none
     else some (if (s0.getCore k).phase.isNone && (s.getCtx key).capture.isNone && (s.getCtx key).wait ≠ some .paused then
         selectCtx (groupIssues ex) (clear s) k else clear s))
  else if s.grp.trapped then
    some (clear (if (s0.getCore k).phase.isNone || (s.getCore k).phase.isNone then s else nextCycle s k))
  else
    let n := countOf is
    let c := s.getCtx key
    let s1 := followGroup s0 is ({ s with halves := mdel key s.halves }.setCtx key
      { c with iss := c.iss + BitVec.ofNat 64 n, quantum := c.quantum + n, sent := [] })
    match passOn s1 k with
    | .error (.trap t) => some (clear (takeTrap s0 t))
    | .error (.after s t) => some (clear (takeTrap s t))
    | .error (.wait t) => some (clear t)
    | .ok s2 =>
      if (s0.getCore k).phase.isSome && !s1.grp.pend then some (clear (nextCycle s2 k))
      else
        let s2 := match (s2.getCore k).phase with
          | none => s2
          | some p => unitCycle (endPhase (arrayCycle s2 k p.pcc) k) (k / 4) p.episode p.pcc
        let c := s2.getCtx key
        let switch := s1.grp.remote || s1.grp.yielded || decide ((s2.getCore k).quant ≤ c.quantum) || !awake s2 key
        some (if switch && !capturing c then selectCtx (groupIssues ex) (clear s2) k else clear s2)

/-- One group of one context, if it may issue. -/
def issueCtx (ex : Instr → State → Host.Outcome State Fault Refusal) (s : State) (key : Nat) :
    Option (Host.Outcome State Fault Refusal) :=
  match prepare s key with
  | .blocked => none
  | .done t => some (.next { t with grp := Group.idle })
  | .group t =>
    match runTodo ex t with
    | .next r => (conclude ex t t.grp.all r).map .next
    | o => some o

/-- R271, R277: one phase cycle of a core in a phase, when every core of its episode has reached it. -/
def issuePhase (ex : Instr → State → Host.Outcome State Fault Refusal) (s : State) (k : Nat) (p : Phase) :
    Option (Host.Outcome State Fault Refusal) :=
  let key := 4 * k + p.ctx.val
  let behind := s.cores.any (fun x => x.2.phase.any (fun q => q.episode = p.episode && q.pcc < p.pcc))
  if behind || (s.getGang (s.getCore k).gang).st ≠ .running then none
  else
    let s := startCycle s k
    if 65535 < p.pcc then some (ex (.pccLimit k) { s with grp := Group.idle })
    else if 0 < p.idle then
      match passOn s k with
      | .ok s => some (.next (nextCycle s k))
      | .error (.trap t) => some (.next { takeTrap { s with cur := key, grp := { Group.idle with first := (s.getCtx key).pc } } t with
          grp := Group.idle })
      | .error (.after t i) => some (.next { takeTrap t i with grp := Group.idle })
      | .error (.wait t) => some (.next t)
    else issueCtx ex s key

/-- R96, R98, R204: one group of one core, if any of its contexts may issue. -/
def issueCore (ex : Instr → State → Host.Outcome State Fault Refusal) (s : State) (k : Nat) :
    Option (Host.Outcome State Fault Refusal) :=
  let c := s.getCore k
  match c.phase with
  | some p => issuePhase ex s k p
  | none =>
    let r := 4 * k + c.running.val
    let others (js : List Nat) : Option (Host.Outcome State Fault Refusal) :=
      (js.map (fun j => (c.running.val + j) % 4)).findSome? (fun n => issueCtx ex (switchTo s k n) (4 * k + n))
    if (s.getCtx r).live && capturing (s.getCtx r) then issueCtx ex s r
    else if c.idling then others [1, 2, 3, 4]
    else (issueCtx ex s r).or (others [1, 2, 3])

/-- R337: no context of a core is ready (R96). -/
def idleCore (issues : State → Bool) (s : State) (k : Nat) : Bool :=
  ([0, 1, 2, 3] : List Nat).all (fun n => !ready issues s (4 * k + n))

/-- One cycle passes for every running gang and every core (R96, R193, R196, R337): a core without a ready context idles. -/
def tick (issues : State → Bool) (s : State) : State :=
  { s with
    now := s.now + 1
    gangs := s.gangs.map (fun x => (x.1, if x.2.st.runs then { x.2 with ran := x.2.ran + 1 } else x.2))
    cores := s.cores.map (fun x => (x.1, if x.2.gang ≠ 0 && idleCore issues s x.1 then
        { x.2 with idle := x.2.idle + 1, idling := x.2.idling || x.2.phase.isNone } else x.2)) }

/-- The cores of the running gangs, from the one after the core that acted last (log 3). -/
def turnOrder (s : State) : List Nat :=
  let ks := s.cores.filterMap (fun x => if x.2.gang = 0 then none else some x.1)
  ks.filter (fun k => s.cur / 4 < k) ++ ks.filter (fun k => k ≤ s.cur / 4)

/-- One step of the system, given the meanings and the choice `pick` of a step that is not a group's: what the agenda says, a step of
a unit or a group of one core (R149); else one group of the first core in turn that can issue, else what `pick` gives, else a cycle passes. In every eighth cycle `pick` comes
before the groups, so that neither waits for ever; and the agenda may say how many accesses the step after it makes at most (log 3). -/
def stepWith (ex : Instr → State → Host.Outcome State Fault Refusal) (pick : State → Option Happening) (s : State) :
    Host.Outcome State Fault Refusal :=
  let perform (h : Happening) (s : State) : Host.Outcome State Fault Refusal :=
    match ex h.event { s with subject := h.subject, grp := Group.idle } with
    | .next t => .next { t with grp := Group.idle }
    | o => o
  let unlimited (o : Host.Outcome State Fault Refusal) : Host.Outcome State Fault Refusal := match o with
    | .next t => .next { t with steps := none }
    | o => o
  match s.agenda with
  | .event h :: rest => unlimited (perform h { s with agenda := rest })
  | .core k :: rest => unlimited ((issueCore ex { s with agenda := rest } k).getD (.next { s with agenda := rest }))
  | .limit n :: rest => .next { s with agenda := rest, steps := some n }
  | [] =>
    let s := tick (groupIssues ex) { s with steps := none }
    let early := if s.now % 8 = 0 then pick s else none
    match early with
    | some h => perform h s
    | none =>
      match (turnOrder s).findSome? (issueCore ex s) with
      | some o => o
      | none =>
        match pick s with
        | some h => perform h s
        | none => .next s

end Sys2Proof.Machine
end

