-- ==== Sys2Proof/Machine/Access.lean ====
section
/-! DEFINITION. Accesses of a context, from the check of an address to the answer: the checks of R123, control space (R324), kept
stores (R348), the range scoreboard (R158), access tables (R122), poison (R357), paired messages (R183), and the answer (R94). -/
namespace Sys2Proof.Machine
open Num

/-! ### Checks (R116, R122, R123, R126, R158, R324, R348, R357) -/

/-- What an access does to memory. -/
inductive Mode where
  | read | write | rmw
deriving DecidableEq, Repr

/-- An access that may be performed: the state with its translation cached, the physical address, and whether the target's
table refuses it. -/
structure Grant where
  s : State
  pa : Nat
  refused : Bool

/-- R348: a store to this physical address leaves the gang. -/
def leavesGang (g : Gang) (pa : Nat) : Bool := paReg pa = 2 || !(gangPkgs g).contains (paPkg pa)

/-- R348: a store kept back for commit covers some of these bytes. -/
def coveredByKept (g : Gang) (pa n : Nat) : Bool := g.kept.any (fun k => overlaps pa n k.pa k.bytes.length)

/-- R123, R126: the address checks of an access by the acting context, for each permission it needs. -/
def checkMode (s : State) (i : Instr) (ea : Word) (align : Nat) (m : Mode) : Res (State × Nat) :=
  if s.inPhase && (nearOff ea.toNat).isNone then raisePhase s i 2
  else
    match m with
    | .read => checkEA s ea align .read
    | .write => checkEA s ea align .write
    | .rmw =>
      match checkEA s ea align .write with
      | .ok (s, _) => checkEA s ea align .read
      | .error e => .error e

/-- The access of `n` bytes at an effective address that has passed its checks, or the cause, or the wait. `word` says that the
form is an LD or ST of 8 bytes, the only forms of control space (R324); `check` says which permissions are checked. -/
def grantAs (s : State) (i : Instr) (ea : Word) (align n : Nat) (check m : Mode) (word : Bool) : Res Grant :=
  match checkMode s i ea align check with
  | .error e => .error e
  | .ok (s, pa) =>
    let rd := m ≠ .write
    let wr := m ≠ .read
    if paReg pa = 2 && !word then raiseFrom s 0x1A ea 0
    else if rd && coveredByKept s.gang pa n then raiseFrom s 0x19 ea 0
    else
      match overlapping s.core pa n with
      | some e => stallOr s i (.overlap e.chain e.seq)
      | none =>
        if !targetAllows s s.coreKey s.gangId s.gang.asid pa rd wr then .ok ⟨refuse s ea pa, pa, true⟩
        else
          let s := if rd then homeRead s .ctx pa else s
          if poisoned s pa && (rd || n < 64) then consume s pa else .ok ⟨s, pa, false⟩

/-- The same, checked for what the access does. -/
def grant (s : State) (i : Instr) (ea : Word) (align n : Nat) (m : Mode) (word : Bool) : Res Grant := grantAs s i ea align n m m word

/-! ### Paired messages (R183) -/

/-- What a paired copy does with its message: it is not paired, it forwards, or it takes the answer. -/
inductive Role where
  | solo
  | first (pid : Nat)
  | second (pid : Nat) (answer : Option Word × List Line)

/-- R183: the hash of a message, over its kind, address and data. -/
def messageHash (kind : Nat) (addr : Nat) (data : List Byte) : BitVec 32 :=
  BitVec.ofNat 32 (Crc.crc32c (Bits.bytesLE 8 kind ++ Bits.bytesLE 8 addr ++ data))

/-- R183: the acting context's next message: a copy waits until both copies' messages agree. -/
def message (s : State) (hash : BitVec 32) : Res Role :=
  match s.ctx.pair with
  | none => .ok .solo
  | some pid =>
    match mget? pid s.pairs with
    | none => .ok .solo
    | some p =>
      if p.first = s.cur then
        if p.agreed then .ok (.first pid)
        else
          let p := if p.msg1.isNone then { p with msg1 := some ⟨p.ord1, hash, s.now⟩ } else p
          stall { s with pairs := mset pid p s.pairs } .message
      else
        match p.answer with
        | some a => .ok (.second pid a)
        | none =>
          let p := if p.msg2.isNone then { p with msg2 := some ⟨p.ord2, hash, s.now⟩ } else p
          stall { s with pairs := mset pid p s.pairs } .message

/-- R149, R183: the answer to an access or message that the group had already made before it waited for a later one. -/
def repeated (s : State) : Option (Option Word × List Line) := s.ctx.sent[s.grp.msg]?

/-- R149, R183: the group has made one more access or message, with this answer. -/
def noteSent (s : State) (a : Option Word × List Line) : State :=
  { s.upd (fun c => { c with sent := c.sent ++ [a] }) with grp := { s.grp with msg := s.grp.msg + 1 } }

/-- R183: the first copy's message has been forwarded; its answer also goes to the second copy. -/
def forwarded (s : State) (pid : Nat) (a : Option Word × List Line) : State :=
  match mget? pid s.pairs with
  | none => s
  | some p =>
    let s := { s with pairs := mset pid { p with agreed := false, answer := some a, msg1 := none, ord1 := p.ord1 + 1 } s.pairs }
    match p.second with
    | none => s
    | some key => s.setCtx key { s.getCtx key with wait := none }

/-- R183: the second copy has taken its answer. -/
def taken (s : State) (pid : Nat) : State :=
  match mget? pid s.pairs with
  | none => s
  | some p => { s with pairs := mset pid { p with answer := none, msg2 := none, ord2 := p.ord2 + 1 } s.pairs }

/-- R149, R150: performs one access of a group. Where the group may be left between two of them, its answer is kept; and when the agenda's
limit is reached, the context pauses before it (log 3). -/
def performOnce (s : State) (perform : State → State × (Option Word × List Line)) : Res (State × (Option Word × List Line)) :=
  if s.inPhase || (s.steps.isNone && s.ctx.sent.isEmpty && s.ctx.pair.isNone) then .ok (perform s)
  else if s.steps = some 0 then stall s .paused
  else
    let r := perform { s with steps := s.steps.map (· - 1) }
    .ok (noteSent r.1 r.2, r.2)

/-- R183: sends a message of the acting context and gives its answer: it is performed once for an unpaired context or a first copy,
whose answer is also kept for the second; a second copy only takes the answer. -/
def exchange (s : State) (kind addr : Nat) (data : List Byte) (perform : State → State × (Option Word × List Line)) :
    Res (State × (Option Word × List Line)) :=
  match repeated s with
  | some a => .ok ({ s with grp := { s.grp with msg := s.grp.msg + 1 } }, a)
  | none =>
    match message s (messageHash kind addr data) with
    | .error e => .error e
    | .ok .solo => performOnce s perform
    | .ok (.first pid) => let r := perform s
      .ok (noteSent (forwarded r.1 pid r.2) r.2, r.2)
    | .ok (.second pid a) => .ok (noteSent (taken s pid) a, a)

/-- Sends a message and then uses its answer. -/
def asMessage (s : State) (kind addr : Nat) (data : List Byte) (perform : State → State × (Option Word × List Line))
    (take : State → Option Word × List Line → State) : Res State :=
  match exchange s kind addr data perform with
  | .error e => .error e
  | .ok (s, a) => .ok (take s a)

/-- R183: an access at a physical address is a message only when it leaves the core. -/
def exchangeAt (s : State) (kind pa : Nat) (data : List Byte) (perform : State → State × (Option Word × List Line)) :
    Res (State × (Option Word × List Line)) :=
  if paReg pa = 1 && padCore pa == s.coreKey then
    (match repeated s with
     | some a => .ok ({ s with grp := { s.grp with msg := s.grp.msg + 1 } }, a)
     | none => performOnce s perform)
  else exchange s kind pa data perform

/-- The same for an access at a physical address, which is a message only when it leaves the core. -/
def accessMessage (s : State) (kind pa : Nat) (data : List Byte) (perform : State → State × (Option Word × List Line))
    (take : State → Option Word × List Line → State) : Res State :=
  match exchangeAt s kind pa data perform with
  | .error e => .error e
  | .ok (s, a) => .ok (take s a)

/-! ### Answers (R94, R96) -/

/-- R96: an access whose answer comes from off the core. -/
def offCore (s : State) (pa : Nat) : Bool := !(paReg pa = 1 && padCore pa == s.coreKey)

/-- Writes an s destination with the answer of an access: at once from the own scratchpad or a lease copy, else later (R94). -/
def answerS (s : State) (d : Fin 32) (v : Word) (fl : BitVec 6) (remote : Bool) : State :=
  if remote then sendAnswer s d v fl else (s.putS d v).flag fl

/-- R94, R122: the zero that a refused access writes to its destination. -/
def answerZero (s : State) (d : Option (Fin 32)) : State :=
  match d with
  | some d => s.putS d 0
  | none => s

/-- Marks the group as having issued a remote reference (R96, R337). -/
def countRemote (s : State) : State :=
  { s.upd (fun c => { c with rref := c.rref + 1 }) with grp := { s.grp with remote := true } }

/-! ### Stores -/

/-- R152, R357, R348: one store of the acting context: kept back when it leaves the gang, else taken at the home, which clears
poison when it writes all 64 bytes. Control registers take their own effect (R324). -/
def storeAt (s : State) (pa : Nat) (bs : List Byte) : State :=
  let gang := s.gang
  if s.gangId ≠ 0 && leavesGang gang pa then
    s.updGang (fun g => { g with kept := g.kept ++ [⟨pa, bs, s.cur, none⟩] })
  else
    let s := if bs.length = 64 && poisoned s pa then s.setLine (pa / 64) { s.getLine (pa / 64) with poison := false } else s
    storeStep s pa bs

/-- R150 to R152, R156, R348, R357: a kept store takes its step (R187 step 3), with the timestamp of the context or of the chain that
made it. -/
def releaseStore (s : State) (k : Kept) : State :=
  if paReg k.pa = 2 then ctrlWrite { s with cur := k.src } k.pa (BitVec.ofNat 64 (Bits.ofBytesLE k.bytes))
  else
    let s := if k.bytes.length = 64 && poisoned s k.pa then s.setLine (k.pa / 64) { s.getLine (k.pa / 64) with poison := false } else s
    match k.chain with
    | none => storeStep { s with cur := k.src } k.pa k.bytes
    | some ch =>
      let c := s.getCore (k.src / 4)
      let (s, ts) := storeHome s (k.pa / 64) c.chains[ch].ets
      putBytes (s.setCore (k.src / 4) { c with chains := c.chains.set ch { c.chains[ch] with ets := ts } }) c.gang k.pa k.bytes

/-! ### Task queues (R178, R179) -/

/-- R178: the key of the queue of a domain's unit that contains a core. -/
def queueKey (domain core : Nat) : Nat :=
  domain * 2 ^ 24 + (match domain with
    | 4 => core / 32
    | 5 => core / 512
    | 6 => core / 4096
    | _ => core)

/-- An empty task queue. -/
def TaskQueue.empty : TaskQueue := Vector.replicate 4 []

/-- R178: a task queue of a gang. -/
def getQueue (s : State) (g q : Nat) : TaskQueue := mget TaskQueue.empty q (s.getGang g).queues

/-- R179: handles a queue holds, reservations included. -/
def queueSize (q : TaskQueue) : Nat := q.toList.foldl (fun n f => n + f.length) 0

/-- R179: a queue has no free slot. -/
def queueFull (s : State) (g q : Nat) : Bool := 65536 ≤ queueSize (getQueue s g q)

/-- R178: appends an entry to the FIFO of its priority. -/
def enqueue (s : State) (g q prio : Nat) (e : TqEntry) : State :=
  let gang := s.getGang g
  let tq := getQueue s g q
  s.setGang g { gang with queues := mset q (tq.setIfInBounds (prio % 4) ((tq.toArray.getD (prio % 4) []) ++ [e])) gang.queues }

/-! ### Accumulates (R137 to R146, R160, R162) -/

/-- R143, R194: whether a scope covers a line's home. -/
def covers (r : Reach) (own line : Nat) : Bool :=
  match r with
  | .all => true
  | .local => paPkg (line * 64) == own
  | .other => paPkg (line * 64) != own

/-- R141: combines two exact slots: the second as an addend to the first as a cell. -/
def slotAdd (c a : Nat) : Nat :=
  if Bits.bit a 113 then cellAdd c none
  else if Bits.bit a 112 then
    (if Bits.bit c 113 || Bits.bit c 112 then c
     else Bits.fld c 127 120 * 2 ^ 120 + 2 ^ 112 + Bits.fld a 111 0)
  else cellAdd c (some (cellInt a))

/-- R87, R141: an addend x of a type into an exact slot. -/
def slotAddVal (ty : Ty) (c x : Nat) : Nat :=
  let v := if ty.isInt then ofInt false (intVal ty x) 0 else unpack (fmtOf ty) x
  cellAdd c (exactAddend (Bits.fld c 127 120) v)

/-- A slot of zero with the scale of a cell. -/
def slotZero (c : Nat) : Nat := Bits.fld c 127 120 * 2 ^ 120

/-- R137: element plus addend in a type, as patterns. -/
def elemAdd (ty : Ty) (x y : Nat) : Nat :=
  if ty.isInt then (x + y) % 2 ^ ty.bits
  else (packR (fmtOf ty) .rne (addV .rne (unpack (fmtOf ty) x) (unpack (fmtOf ty) y))).1

/-- The addresses of the elements of a width in a line that a mask of 4-byte words names. -/
def maskElems (w : Nat) (mask : BitVec 16) : List Nat := (List.range (512 / w)).filter (fun k => mask.getLsbD (k * w / 32))

/-- R137: adds an addend line into a line, element by element where the mask is set. -/
def lineAdd (ty : Ty) (mask : BitVec 16) (x y : Nat) : Nat :=
  (maskElems ty.bits mask).foldl (fun x k =>
    Bits.setFld x ty.bits (k * ty.bits) (elemAdd ty (x >>> (k * ty.bits) % 2 ^ ty.bits) (y >>> (k * ty.bits) % 2 ^ ty.bits))) x

/-- R137: adds an exact addend line into a line of cells; `cells` names the slots that already hold integers. -/
def exactAdd (ty : Ty) (cells : BitVec 4) (mask : BitVec 16) (x y : Nat) : Nat :=
  (maskElems 128 mask).foldl (fun x k =>
    let c := x >>> (128 * k) % 2 ^ 128
    let a := y >>> (128 * k) % 2 ^ 128
    Bits.setFld x 128 (128 * k) (if cells.getLsbD k then slotAdd c a else slotAddVal ty c (a % 2 ^ ty.bits))) x

/-- R139: a refused exact addend as slots: the integer of R87 with the cell's e. -/
def toSlots (ty : Ty) (cells : BitVec 4) (mask : BitVec 16) (line y : Nat) : Nat :=
  (maskElems 128 mask).foldl (fun z k =>
    let a := y >>> (128 * k) % 2 ^ 128
    Bits.setFld z 128 (128 * k)
      (if cells.getLsbD k then a else slotAddVal ty (slotZero (line >>> (128 * k) % 2 ^ 128)) (a % 2 ^ ty.bits))) 0

/-- R141: an exact carrier: its own addend is converted with the e of the entry's slot; a slot the entry does not hold stays an
addend. -/
def carry (ty : Ty) (emask : BitVec 16) (entry : Nat) (mask : BitVec 16) (y : Nat) : Nat :=
  (maskElems 128 mask).foldl (fun z k =>
    let a := y >>> (128 * k) % 2 ^ 128
    Bits.setFld z 128 (128 * k) (if emask.getLsbD (4 * k) then slotAddVal ty (z >>> (128 * k) % 2 ^ 128) (a % 2 ^ ty.bits) else a)) entry

/-- The exact slots that a mask names. -/
def slotBits (mask : BitVec 16) : BitVec 4 := (List.range 4).foldl (fun m k => if mask.getLsbD (4 * k) then m ||| (1#4 <<< k) else m) 0

/-- R141: combines addends of one line, type and class: where both masks are set they are added, else the one that is set stands. -/
def combine (ty : Ty) (exact : Bool) (m1 : BitVec 16) (x : Nat) (m2 : BitVec 16) (y : Nat) : Nat :=
  let w := if exact then 128 else ty.bits
  (maskElems w m2).foldl (fun z k =>
    let a := x >>> (w * k) % 2 ^ w
    let b := y >>> (w * k) % 2 ^ w
    Bits.setFld z w (w * k) (if m1.getLsbD (k * w / 32) then (if exact then slotAdd a b else elemAdd ty a b) else b)) x

/-- R139: the home of an accumulate to a line: a slice, or the core of a scratchpad. -/
def accHome (s : State) (gang line : Nat) : Nat :=
  let pa := line * 64
  if paReg pa = 1 then 2 ^ 32 + padCore pa else sliceOf s (s.getGang gang) pa

/-- R139: four insistent accumulates of a core are unanswered at the home of a line. -/
def insistentFull (s : State) (k line : Nat) : Bool :=
  let g := (s.getCore k).gang
  4 ≤ (s.accs.filter (fun x => x.insistent && x.src / 4 == k && accHome s x.gang x.line == accHome s g line)).length

/-- Sends an accumulate of a core into the accept queue of its home, numbered next. -/
def sendAcc (s : State) (k : Nat) (m : AccMsg) : State :=
  let c := s.getCore k
  { s.setCore k { c with accNo := c.accNo + 1 } with accs := s.accs ++ [{ m with seq := c.accNo }] }

/-- An insistent accumulate that carries a residual entry (R142). It has no virtual address of its own: what a refusal of it by an
access table would report is left open (log 22). -/
def insistentOf (s : State) (k : Nat) (e : Residual) (src seq : Nat) : AccMsg :=
  ⟨src, (s.getCore k).gang, e.line, e.exact, e.ty, e.mask, e.data, true, 15, some e.born, .sent, Config.freeWord s.free, 0, seq⟩

/-- R142: the insistent send of a live entry starts, numbered `seq`: it carries the whole entry, and frees it. -/
def startSend (s : State) (k : Nat) (e : Residual) (src seq : Nat) : State :=
  let c := s.getCore k
  { s.setCore k { c with residual := c.residual.filter (fun x => x != e), insi := c.insi + 1 } with
    accs := s.accs ++ [insistentOf s k e src seq], free := s.free + 1 }

/-- R139, R142: an entry is to be sent insistent under a number: its send starts, or waits in the core, with the entry still live, while four
are unanswered at its home. -/
def sendAs (s : State) (k : Nat) (e : Residual) (src seq : Nat) : State :=
  if insistentFull s k e.line then
    let c := s.getCore k
    s.setCore k { c with residual := c.residual.map (fun x => if x = e then { e with sending := some (src, seq) } else x) }
  else startSend s k e src seq

/-- R142: sends a live entry insistent under the next number; one that already waits to be sent keeps its own. -/
def sendInsistent (s : State) (k : Nat) (e : Residual) (src : Nat) : State :=
  if e.sending.isSome then s
  else
    let c := s.getCore k
    sendAs (s.setCore k { c with accNo := c.accNo + 1 }) k e src c.accNo

/-- R139: insistent sends that waited in a core start, in order, as answers come. -/
def sendWaiting (s : State) (k : Nat) : State :=
  (s.getCore k).residual.foldl (fun s e => match e.sending with
    | some (src, seq) => if insistentFull s k e.line then s else startSend s k e src seq
    | none => s) s

/-- R142: sends every live entry in scope insistent. -/
def sendResidual (s : State) (k : Nat) (r : Reach) (src : Nat) : State :=
  ((s.getCore k).residual.filter (fun e => covers r (k / 4096) e.line)).foldl (fun s e => sendInsistent s k e src) s

/-- R160, R141: issues an addend of the acting context: as a carrier when an entry of the line, type and class is live; an entry
of another type or class is sent insistent first. A carrier of an entry that waits to be sent takes the number of that send, for which a flush
waits (R142, R143). -/
def issueAcc (s : State) (pa : Nat) (va : Word) (exact : Bool) (ty : Ty) (mask : BitVec 16) (data : Nat) : State :=
  let k := s.coreKey
  let line := pa / 64
  let msg : AccMsg := ⟨s.cur, s.gangId, line, exact, ty, mask, BitVec.ofNat 512 data, false, 0, none, .sent, va, pa % 64, 0⟩
  match s.core.residual.find? (fun e => e.line = line) with
  | none => sendAcc s k msg
  | some e =>
    if e.ty = ty && e.exact == exact then
      let joint := if exact then carry ty e.mask e.data.toNat mask data else combine ty false e.mask e.data.toNat mask data
      let s := s.updCore (fun c => { c with residual := c.residual.filter (fun x => x != e) })
      let msg := { msg with mask := e.mask ||| mask, data := BitVec.ofNat 512 joint, cells := slotBits e.mask, born := some e.born }
      match e.sending with
      | none => sendAcc s k msg
      | some (_, seq) => { s with accs := s.accs ++ [{ msg with seq := seq }] }
    else sendAcc (sendInsistent s k e s.cur) k msg

/-- R162: raises a context's timestamp to the answers in scope, and empties that part of its answer set: those of its own
accumulates, and with `whole` those of every accumulate of the core. -/
def absorbAnswers (s : State) (key : Nat) (r : Reach) (whole : Bool) : State :=
  let own := key / 4 / 4096
  let c := s.getCtx key
  let k := s.getCore (key / 4)
  let mine := (c.answers.filter (fun a => covers r own a.1)).foldl (fun t a => max t a.2) c.pts
  let pts := if whole then max mine (max (if r = .other then 0 else k.accLocal) (if r = .local then 0 else k.accOther)) else mine
  s.setCtx key { c with pts := pts, answers := c.answers.filter (fun a => !covers r own a.1) }

/-- R164: raises a context's timestamp to its discards in scope and drops them. -/
def absorbDiscards (s : State) (key : Nat) (r : Reach) : State :=
  let c := s.getCtx key
  let own := key / 4 / 4096
  s.setCtx key { c with
    pts := (c.discards.filter (fun d => covers r own d.1)).foldl (fun t d => max t d.2) c.pts
    discards := c.discards.filter (fun d => !covers r own d.1) }

/-- R143: the flush of a context is done: every accumulate of the core that it waits for has been answered. -/
def flushDone (s : State) (k bound : Nat) : Bool :=
  !s.accs.any (fun m => m.src / 4 = k && m.seq < bound) &&
    !(s.getCore k).residual.any (fun e => e.sending.any (fun x => decide (x.2 < bound)))

/-- R162, R194: the fence of a context is done. -/
def fenceDone (s : State) (key : Nat) (r : Reach) (bound : Nat) : Bool :=
  !s.accs.any (fun m => m.src = key && !m.insistent && m.seq < bound && covers r (key / 4 / 4096) m.line)

/-- What a context that has flushed and fenced waits for next (R165, R186, R187, R270, R339); PHASE with the lines it has loaded. -/
def afterFlush (run : List (Word × Line)) : After → Option Wait
  | .rflush => none
  | .bar sc => some (.bar sc)
  | .sstep => some .sstep
  | .phase sc => some (.phase sc run)
  | .seed v => some (.seed v)
  | .joined => none

/-- R270: a context that waits at PHASE of a scope loads its run of lines; where it cannot go on, what it waits for comes first. -/
def loadPhase (s : State) (key : Nat) (r : Reach) (sc : Fin 8) : State :=
  match loadRun s key 512 ((s.getCtx key).pc &&& ~~~0x3F#64) with
  | .ok (s, run) => s.setCtx key { s.getCtx key with wait := some (.phase sc run) }
  | .error (.wait t) =>
    if (t.getCtx key).wait = some .stopped then t else t.setCtx key { t.getCtx key with behind := some (r, .phase sc) }
  | .error _ => s

/-- R143, R164, R165: the answers a flush of a context waits for have come: it absorbs them, and waits for what follows; PHASE then
loads its lines (R270). -/
def endFlush (s : State) (key : Nat) (r : Reach) (after : After) : State :=
  let s := absorbAnswers s key r true
  let s := if after = .rflush then s else absorbDiscards s key r
  match after with
  | .phase sc => loadPhase s key r sc
  | a => s.setCtx key { s.getCtx key with wait := afterFlush [] a }

/-- R143: a flush of a context over a scope begins: its residual entries are sent insistent. -/
def beginFlush (s : State) (key : Nat) (r : Reach) (after : After) : State :=
  let s := sendResidual s (key / 4) r key
  let bound := (s.getCore (key / 4)).accNo
  if flushDone s (key / 4) bound then endFlush s key r after
  else s.setCtx key { s.getCtx key with wait := some (.flush r after bound) }

/-- A wait of a context has ended: a flush that was behind it begins. -/
def nextFlush (s : State) (key : Nat) : State :=
  let c := s.getCtx key
  match c.wait, c.behind with
  | none, some (r, after) => beginFlush (s.setCtx key { c with behind := none }) key r after
  | _, _ => s

/-- R143, R162, R164, R165: completes a context's flush or fence if its answers have arrived. -/
def tryFlush (s : State) (key : Nat) : State :=
  match (s.getCtx key).wait with
  | some (.flush r after bound) => if flushDone s (key / 4) bound then nextFlush (endFlush s key r after) key else s
  | some (.fence r bound) =>
    if fenceDone s key r bound then
      let s := absorbDiscards (absorbAnswers s key r false) key r
      nextFlush (s.setCtx key { s.getCtx key with wait := none }) key
    else s
  | _ => s

/-- Completes the flushes and fences of a core's contexts (R143). -/
def tryFlushes (s : State) (k : Nat) : State := (List.range 4).foldl (fun s n => tryFlush s (4 * k + n)) s

/-- R143, R165: the acting context flushes over a scope, then waits for what follows. Beside a form of the pair that already waits, the
flush begins when that wait has ended (R56). -/
def startFlush (s : State) (r : Reach) (after : After) : State :=
  if s.ctx.wait.isNone then beginFlush s s.cur r after else s.upd (fun c => { c with behind := some (r, after) })

end Sys2Proof.Machine
end

