-- ==== Sys2Proof/Machine/Scalar.lean ====
section
/-! DEFINITION. The scalar integer forms (R107 to R111). -/
namespace Sys2Proof.Machine
open Num

abbrev Out := Host.Outcome State Fault Refusal

/-- R109: the exact result of ADD, SUB or MUL put to the destination, saturated with .sat. -/
def putArith (s : State) (t : Ty) (sat : Bool) (d : Opnd) (v : Int) : Res State := do
  let (p, fl) := intResult t sat v
  let s ← s.dst d (putWord t p)
  return s.flag fl

/-- R95 put of a pattern, with the flags of the form. -/
def putPat (s : State) (t : Ty) (d : Opnd) (p : Nat) (fl : Flg) : Res State := do
  let s ← s.dst d (putWord t p)
  return s.flag fl

/-- R95 put of an exact integer. -/
def putInt (s : State) (t : Ty) (d : Opnd) (v : Int) (fl : Flg) : Res State := putPat s t d (Bits.wrap (intTy t).bits v) fl

/-- R109: N, and the shift count k. -/
def shiftBy (s : State) (t : Ty) (b : Opnd) : Nat := s.pat t b % (intTy t).bits

/-- R109: the field of EXT, as position and length. -/
def extField (s : State) (x : ExtField) : Nat × Nat :=
  match x with
  | .const p l => (p.toNat, l.toNat + 1)
  | .regs b c => ((s.src b).toNat % 64, min ((s.src c).toNat % 128) (64 - (s.src b).toNat % 64))

/-- R110: MIN or MAX of an integer or floating type. -/
def minMax (s : State) (t : Ty) (mx : Bool) (d a b : Opnd) : Res State :=
  if t.isInt then
    let x := s.int t a
    let y := s.int t b
    putInt s t d (if (x < y) != mx then x else y) 0
  else do
    let (p, fl) := packR (fmtOf t) .rne (minmaxV mx (s.flt t a) (s.flt t b))
    let s ← s.dst d (BitVec.ofNat 64 p)
    return s.flag fl

/-- R110: the truth of a comparison and its flags. -/
def compare_ (s : State) (t : Ty) (cc : Cond) (a b : Opnd) : Bool × Flg :=
  if t.isInt then (condHolds cc (compare (s.int t a) (s.int t b)), 0)
  else Vec.quietCmp cc (s.flt t a) (s.flt t b)

/-- R108, R111: the functions of PLOG. -/
def plogFn (f : PlogFn) (a b : Bool) : Bool :=
  match f with
  | .and => a && b
  | .or => a || b
  | .xor => a != b
  | .andn => a && !b
  | .nand => !(a && b)
  | .nor => !(a || b)
  | .xnor => a == b
  | .not => !a

/-- NOP (R107): no effect. -/
def execNop (s : State) : Out := .next s

/-- ADD (R109). -/
def execAdd (g : Guard) (t : Ty) (sat : Bool) (d a b : Opnd) (s : State) : Out :=
  guarded s (.add g t sat d a b) g (putArith s t sat d (s.int t a + s.int t b))

/-- SUB (R109). -/
def execSub (g : Guard) (t : Ty) (sat : Bool) (d a b : Opnd) (s : State) : Out :=
  guarded s (.sub g t sat d a b) g (putArith s t sat d (s.int t a - s.int t b))

/-- MUL (R109). -/
def execMul (g : Guard) (t : Ty) (sat : Bool) (d a b : Opnd) (s : State) : Out :=
  guarded s (.mul g t sat d a b) g (putArith s t sat d (s.int t a * s.int t b))

/-- MULH (R109): the high half of the exact product. -/
def execMulh (g : Guard) (t : Ty) (d a b : Opnd) (s : State) : Out :=
  guarded s (.mulh g t d a b) g (putInt s t d ((s.int t a * s.int t b) / (2 ^ t.bits : Nat)) 0)

/-- DIV (R109): a zero divisor gives 0 and DZ; the quotient outside the range gives OF and wraps to itself. -/
def execDiv (g : Guard) (t : Ty) (d a b : Opnd) (s : State) : Out :=
  let x := s.int t a
  let y := s.int t b
  guarded s (.div g t d a b) g (
    if y = 0 then putInt s t d 0 DZ
    else putInt s t d (x.tdiv y) (flagIf (intMax t < x.tdiv y) OF))

/-- REM (R109): the remainder has the sign of the dividend; a zero divisor gives the dividend and DZ. -/
def execRem (g : Guard) (t : Ty) (d a b : Opnd) (s : State) : Out :=
  let x := s.int t a
  let y := s.int t b
  guarded s (.rem g t d a b) g (if y = 0 then putInt s t d x DZ else putInt s t d (x.tmod y) 0)

/-- AND (R109). -/
def execAnd (g : Guard) (t : Ty) (d a b : Opnd) (s : State) : Out :=
  guarded s (.and g t d a b) g (putPat s t d (s.pat t a &&& s.pat t b) 0)

/-- OR (R109). -/
def execOr (g : Guard) (t : Ty) (d a b : Opnd) (s : State) : Out :=
  guarded s (.or g t d a b) g (putPat s t d (s.pat t a ||| s.pat t b) 0)

/-- XOR (R109). -/
def execXor (g : Guard) (t : Ty) (d a b : Opnd) (s : State) : Out :=
  guarded s (.xor g t d a b) g (putPat s t d (s.pat t a ^^^ s.pat t b) 0)

/-- ANDN (R109): A AND NOT B. -/
def execAndn (g : Guard) (t : Ty) (d a b : Opnd) (s : State) : Out :=
  guarded s (.andn g t d a b) g (putPat s t d (s.pat t a ^^^ (s.pat t a &&& s.pat t b)) 0)

/-- SHL (R109). -/
def execShl (g : Guard) (t : Ty) (d a b : Opnd) (s : State) : Out :=
  guarded s (.shl g t d a b) g (putPat s t d (s.pat t a * 2 ^ shiftBy s t b) 0)

/-- SHR (R109): fills with zeros. -/
def execShr (g : Guard) (t : Ty) (d a b : Opnd) (s : State) : Out :=
  guarded s (.shr g t d a b) g (putPat s t d (s.pat t a / 2 ^ shiftBy s t b) 0)

/-- SHA (R109): fills with bit N − 1. -/
def execSha (g : Guard) (t : Ty) (d a b : Opnd) (s : State) : Out :=
  guarded s (.sha g t d a b) g (putInt s t d (Bits.sx (intTy t).bits (s.pat t a) / (2 ^ shiftBy s t b : Nat)) 0)

/-- ROT (R109): rotates left. -/
def execRot (g : Guard) (t : Ty) (d a b : Opnd) (s : State) : Out :=
  let n := (intTy t).bits
  let k := shiftBy s t b
  guarded s (.rot g t d a b) g (putPat s t d (s.pat t a * 2 ^ k + s.pat t a / 2 ^ (n - k)) 0)

/-- MIN (R109, R110). -/
def execMin (g : Guard) (t : Ty) (d a b : Opnd) (s : State) : Out := guarded s (.min g t d a b) g (minMax s t false d a b)

/-- MAX (R109, R110). -/
def execMax (g : Guard) (t : Ty) (d a b : Opnd) (s : State) : Out := guarded s (.max g t d a b) g (minMax s t true d a b)

/-- CMP (R110): writes the truth of the comparison to the predicate. -/
def execCmp (g : Guard) (t : Ty) (cc : Cond) (d : Fin 8) (a b : Opnd) (s : State) : Out :=
  guarded s (.cmp g t cc d a b) g (
    let (r, fl) := compare_ s t cc a b
    .ok ((s.putP d r).flag fl))

/-- SEL (R111). -/
def execSel (g : Guard) (d a b : Opnd) (c : Fin 8) (s : State) : Out :=
  guarded s (.sel g d a b c) g (s.dst d (if s.rp c then s.src a else s.src b))

/-- CLZ (R109). -/
def execClz (g : Guard) (t : Ty) (d a : Opnd) (s : State) : Out :=
  guarded s (.clz g t d a) g (putPat s t d (Bits.clz (intTy t).bits (s.pat t a)) 0)

/-- CTZ (R109). -/
def execCtz (g : Guard) (t : Ty) (d a : Opnd) (s : State) : Out :=
  guarded s (.ctz g t d a) g (putPat s t d (Bits.ctz (intTy t).bits (s.pat t a)) 0)

/-- POPC (R109). -/
def execPopc (g : Guard) (t : Ty) (d a : Opnd) (s : State) : Out :=
  guarded s (.popc g t d a) g (putPat s t d (Bits.popc (intTy t).bits (s.pat t a)) 0)

/-- BREV (R109). -/
def execBrev (g : Guard) (t : Ty) (d a : Opnd) (s : State) : Out :=
  guarded s (.brev g t d a) g (putPat s t d (Bits.brev (intTy t).bits (s.pat t a)) 0)

/-- EXT (R109): a field of A, extended by the type; a length of 0 gives 0. -/
def execExt (g : Guard) (t : Ty) (d a : Opnd) (x : ExtField) (s : State) : Out :=
  let (pos, len) := extField s x
  let f := (s.src a).toNat / 2 ^ pos % 2 ^ len
  guarded s (.ext g t d a x) g (putInt s t d (if len = 0 then 0 else if t.signed then Bits.sx len f else f) 0)

/-- INS (R109): A with a field replaced by the low bits of B; `len` holds the length less one. -/
def execIns (g : Guard) (t : Ty) (d a b : Opnd) (pos len : BitVec 6) (s : State) : Out :=
  guarded s (.ins g t d a b pos len) g
    (putPat s t d (Bits.setFld (s.src a).toNat (len.toNat + 1) pos.toNat (s.src b).toNat) 0)

/-- ADDI (R109). -/
def execAddi (g : Guard) (t : Ty) (d a : Opnd) (imm : BitVec 44) (s : State) : Out :=
  guarded s (.addi g t d a imm) g (putInt s t d (s.int t a + Bits.sx 44 imm.toNat) 0)

/-- MOVI (R109). -/
def execMovi (g : Guard) (t : Ty) (d : Opnd) (imm : BitVec 44) (s : State) : Out :=
  guarded s (.movi g t d imm) g (putInt s t d (Bits.sx 44 imm.toNat) 0)

/-- MOVH (R109): twenty bits above the low 44 bits of A; an absent A gives 0. -/
def execMovh (g : Guard) (d : Opnd) (a : Option (Fin 32)) (imm : BitVec 20) (s : State) : Out :=
  guarded s (.movh g d a imm) g
    (s.dst d (BitVec.ofNat 64 (imm.toNat * 2 ^ 44 + (a.elim 0 s.rs).toNat % 2 ^ 44)))

/-- LEA (R109): the effective address, without any access. -/
def execLea (g : Guard) (d : Fin 32) (m : Mem) (s : State) : Out :=
  guarded s (.lea g d m) g (.ok (s.putS d (s.ea m)))

/-- MOV (R111). -/
def execMov (g : Guard) (d a : Opnd) (s : State) : Out := guarded s (.mov g d a) g (s.dst d (s.src a))

/-- PLOG (R111). -/
def execPlog (g : Guard) (fn : PlogFn) (d a : Fin 8) (b : Option (Fin 8)) (s : State) : Out :=
  guarded s (.plog g fn d a b) g (.ok (s.putP d (plogFn fn (s.rp a) (b.elim false s.rp))))

/-- CHK (R111): raises 0x1F unless B ≤ A < C. -/
def execChk (g : Guard) (t : Ty) (a b c : Opnd) (s : State) : Out :=
  guarded s (.chk g t a b c) g (
    if s.int t b ≤ s.int t a ∧ s.int t a < s.int t c then .ok s
    else raise 0x1F (putWord t (s.pat t a)) (putWord t (s.pat t c)))

end Sys2Proof.Machine
end

