-- ==== Sys2Proof/Machine/Control.lean ====
section
/-! DEFINITION. The control forms (R112 to R114). -/
namespace Sys2Proof.Machine

/-- R65: the code address of a J-format target of the acting group. -/
def State.target (s : State) (tg : Target) : Word :=
  (s.grp.first &&& ~~~0x3F#64) + (tg.off.signExtend 64 <<< (6 : Nat)) + BitVec.ofNat 64 tg.slot.val

/-- The code address of the slot being executed. -/
def State.here (s : State) : Word := (s.grp.first &&& ~~~0x3F#64) + BitVec.ofNat 64 s.grp.slot

/-- A trap to which the spec gives no information: TINFOA and TINFOB are open (log 11). -/
def raiseOpen {α : Type} (s : State) (cause : Nat) : Res α := .error (.trap (openInfo s cause))

/-- The same after an access whose walk has been made. -/
def raiseOpenFrom {α : Type} (s : State) (cause : Nat) : Res α := .error (.after s (openInfo s cause))

/-- BR (R113). -/
def execBr (g : Guard) (tg : Target) (s : State) : Out := guarded s (.br g tg) g (branchTo s (s.target tg) true)

/-- BRX (R113). -/
def execBrx (g : Guard) (a : Fin 32) (s : State) : Out := guarded s (.brx g a) g (branchTo s (s.rs a) true)

/-- CALL (R113): s30 takes the address after the group, unless the target is rejected. -/
def execCall (g : Guard) (tg : Target) (s : State) : Out :=
  guarded s (.call g tg) g (do
    let t ← branchTo s (s.target tg) true
    return t.putS 30 s.grp.next)

/-- CALLX (R113): the target is read before s30 is written. -/
def execCallx (g : Guard) (a : Fin 32) (s : State) : Out :=
  guarded s (.callx g a) g (do
    let t ← branchTo s (s.rs a) true
    return t.putS 30 s.grp.next)

/-- RET (R113, R57): the BTM bit of its target is not checked. -/
def execRet (g : Guard) (s : State) : Out := guarded s (.ret g) g (branchTo s (s.rs 30) false)

/-- LOOP (R113): decrements, and branches while the counter is nonzero; a rejected target leaves the counter. -/
def execLoop (g : Guard) (a : Fin 32) (tg : Target) (s : State) : Out :=
  let n := s.rs a - 1
  guarded s (.loop g a tg) g (
    if n = 0 then .ok (s.putS a n)
    else do
      let t ← branchTo s (s.target tg) true
      return t.putS a n)

/-- YIELD (R96, R113): the running turn ends. -/
def execYield (g : Guard) (s : State) : Out :=
  guarded s (.yield g) g (.ok { s with grp := { s.grp with yielded := true } })

/-- R101: FOLLOW is refused. -/
def followRefused (s : State) (dir : Dir) (mask : Nat) : Bool :=
  let k := s.coreKey
  match neighbour k dir with
  | none => true
  | some n =>
    match forwarder s n (backDir dir) with
    | none => true
    | some c =>
      let others := (List.range 4).filter (fun x => x ≠ s.ctxNo.val)
      others.any (fun x => (s.getCtx (4 * k + x)).live && 2 ≤ lfsMode (s.getCtx (4 * k + x)))
        || (mask ≠ 0 && others.any (fun x => (s.getCtx (4 * k + x)).live && lfsMode (s.getCtx (4 * k + x)) = 1))
        || 15 < mask || 32 < lfsHops (s.getCtx (4 * n + c)) + 1

/-- FOLLOW (R101, R114): the context waits for the next attach marker of the neighbour's stream. A leader that issues it stops leading with no
end marker, so that its followers detach at the first group not forwarded (the spec gives no rule: log 29). -/
def execFollow (g : Guard) (dir : Dir) (a : Opnd) (s : State) : Out :=
  let mask := (s.src a).toNat
  guarded s (.follow g dir a) g (
    if followRefused s dir mask then raiseOpen s 0x6C
    else
      let hops := (neighbour s.coreKey dir).elim 0 (fun n =>
        (forwarder s n (backDir dir)).elim 0 (fun c => lfsHops (s.getCtx (4 * n + c)))) + 1
      .ok ((s.upd (fun c => { c with lfs := mkLfs mask hops dir.code.toNat 2 })).updCore (fun c => { c with buffer := [] })))

/-- DETACH (R102, R114): ends following and goes on at the next group; it must be a branch target of its line. -/
def execDetach (g : Guard) (s : State) : Out :=
  guarded s (.detach g) g (do
    let t ← lookAhead s s.cur s.here
    match targetCause t t.cur s.here true with
    | some _ => raiseFrom t 0x06 s.here 0
    | none => return if 2 ≤ lfsMode t.ctx then detach t t.cur else t)

/-- LEAD (R100, R114): starts or ends forwarding; a follower treats the leader's LEAD as a NOP. A negative small immediate is a mask above 15, and
a direction that a second LEAD drops gets no marker (log 29). -/
def execLead (g : Guard) (a : Opnd) (s : State) : Out :=
  let mask := (s.src a).toNat
  let k := s.coreKey
  let others := (List.range 4).filter (fun x => x ≠ s.ctxNo.val)
  guarded s (.lead g a) g (
    if lfsMode s.ctx = 3 then .ok s
    else if 15 < mask || others.any (fun x =>
        let c := s.getCtx (4 * k + x)
        c.live && (lfsMode c = 1 || (2 ≤ lfsMode c && lfsFwd c ≠ 0))) then raiseOpen s 0x6C
    else
      let fwd := lfsFwd s.ctx
      let led := lfsMode s.ctx = 1
      let s := if led then forwardTo s k fwd (.group s.grp.first s.grp.next s.grp.all none) else s
      let s := { s with grp := { s.grp with sent := true } }
      if mask = 0 then
        .ok ((if led then forwardTo s k fwd (.stop s.grp.next) else s).upd (fun c => { c with lfs := 0 }))
      else .ok ((forwardTo s k mask (.attach s.grp.next)).upd (fun c => { c with lfs := mkLfs mask 0 0 1 })))

end Sys2Proof.Machine
end

