-- ==== Sys2Proof/Machine/Memory.lean ====
section
/-! DEFINITION. Loads, stores, line operations and atomics (R124 to R133). -/
namespace Sys2Proof.Machine
open Num

/-- A load of `n` bytes that the acting context performs: the state, the bytes, and whether the answer came from off the core. -/
def loadBytes (s : State) (pa n : Nat) : State × List Byte × Bool :=
  let r := loadStep s pa n
  (r.1, r.2.1, offCore s pa && !r.2.2)

/-- R271: an own-scratchpad load in a phase reaches its register for the third cycle after its own. -/
def answerPhase (s : State) (d : Fin 32) (v : Word) : State :=
  (s.upd (fun c => c.setEmpty d)).updCore (fun k => { k with
    phase := k.phase.map (fun p => { p with loads := p.loads ++ [(d, v, p.pcc + 3)] }) })

/-- R127: the value of a load in a type. -/
def loadedWord (t : Ty) (bs : List Byte) : Word := putWord t (Bits.ofBytesLE bs)

/-- R183: a message that reads `n` bytes, and whether the answer comes from off the core. -/
def loadMessage (s : State) (kind pa n : Nat) (load : State → State × List Byte × Bool) : Res (State × List Byte × Bool) :=
  match s.ctx.pair with
  | none => .ok (load s)
  | some _ =>
    match exchangeAt s kind pa [] (fun s => let r := load s
        (r.1, (some (BitVec.ofNat 64 (Bits.b2n r.2.2)), [BitVec.ofNat 512 (Bits.ofBytesLE r.2.1)]))) with
    | .error e => .error e
    | .ok (s, a) => .ok (s, Bits.bytesLE n (a.2.headD 0).toNat, a.1 ≠ some 0)

/-- R127, R129: LD with `load := loadBytes`, or the load of LDL with its discard. -/
def loadForm (s : State) (i : Instr) (t : Ty) (d : Opnd) (m : Mem) (load : State → Nat → Nat → State × List Byte × Bool)
    (word : Bool) : Res State := do
  let ea := s.ea m
  let n := t.bits / 8
  let g ← grant s i ea n n .read (word && n = 8)
  if g.refused then (if offCore s g.pa then countRemote g.s else g.s).dst d 0
  else
    let (s, bs, remote) ← loadMessage g.s 0 g.pa n (fun s => load s g.pa n)
    let v := loadedWord t bs
    match d with
    | .s r => return (if s.inPhase then answerPhase s r v else answerS s r v 0 remote)
    | _ => s.dst d v

/-- LD (R127). -/
def execLd (g : Guard) (t : Ty) (d : Opnd) (m : Mem) (s : State) : Out :=
  guarded s (.ld g t d m) g (loadForm s (.ld g t d m) t d m loadBytes true)

/-- ST (R127): stores the low bytes of D. -/
def execSt (g : Guard) (t : Ty) (d : Opnd) (m : Mem) (s : State) : Out :=
  let n := t.bits / 8
  let bs := Bits.bytesLE n (s.src d).toNat
  guarded s (.st g t d m) g (do
    let r ← grant s (.st g t d m) (s.ea m) n n .write (n = 8)
    if r.refused then return r.s
    else accessMessage r.s 1 r.pa bs (fun s => (storeAt s r.pa bs, (none, []))) (fun s _ => s))

/-- An instruction that names v groups: its checks at decode come first, whatever its guard (R58, R202, R218). -/
def guardedShape (s : State) (i : Instr) (g : Guard) (body : Res State) : Out :=
  match shapeTrap s i with
  | some t => finish s (.error (.trap t))
  | none => guarded s i g body

/-- R128: the rows of LDV or STV with their addresses, once the step is a multiple of 64. -/
def rowAddrs (s : State) (m : Mem) (str : Option (Fin 32)) (rows : Nat) : Res (List Word) :=
  let step := str.elim 64 s.rs
  if step.toNat % 64 ≠ 0 then raise 0x13 (s.ea m) 0
  else .ok ((List.range rows).map (fun i => s.ea m + BitVec.ofNat 64 i * step))

/-- R123, R128: checks every row before any is accessed: the physical addresses and which rows are refused. -/
def checkRows (i : Instr) (m : Mode) : State → List Word → Res (State × List (Word × Nat))
  | s, [] => .ok (s, [])
  | s, ea :: rest => do
    let (s, pa) ← checkMode s i ea 64 m
    if paReg pa = 2 then raiseFrom s 0x1A ea 0
    else
      let (s, ps) ← checkRows i m s rest
      return (s, (ea, pa) :: ps)

/-- Accesses every row in order, each a step and a message of its own (R150, R183); a refused row ends the form (R128). -/
def overRows (i : Instr) (m : Mode) (kind : Nat) (data : Nat → List Byte) (f : State → Nat → Nat → State × (Option Word × List Line)) :
    State → List (Word × Nat) → Nat → Res (State × List (Option (Option Word × List Line)))
  | s, [], _ => .ok (s, [])
  | s, (ea, _) :: rest, r =>
    match repeated s with
    | some a => do
      let (s, as) ← overRows i m kind data f { s with grp := { s.grp with msg := s.grp.msg + 1 } } rest (r + 1)
      return (s, some a :: as)
    | none => do
      let g ← grant s i ea 64 64 m false
      if g.refused then return (g.s, [none])
      else
        let (s, a) ← exchangeAt g.s kind g.pa (data r) (fun s => f s g.pa r)
        let (s, as) ← overRows i m kind data f s rest (r + 1)
        return (s, some a :: as)

/-- R357, R158, R348: no row waits or consumes poison once the first has been performed: the whole form waits first. A refused row ends
the form, so none after it is accessed (R128). -/
def rowsReady (i : Instr) (m : Mode) (s : State) : List (Word × Nat) → Res Unit
  | [] => .ok ()
  | (ea, _) :: rest => do
    let g ← grant s i ea 64 64 m false
    if g.refused then .ok () else rowsReady i m s rest

/-- R271: a form that would wait in a phase raises 0x6B. -/
def phaseFree (s : State) (i : Instr) (late : Bool) : Res Unit := if late then raisePhase s i 1 else .ok ()

/-- LDV (R128): VSH.rows registers, one access each, in order. -/
def execLdv (g : Guard) (d : Fin 32) (m : Mem) (str : Option (Fin 32)) (s : State) : Out :=
  let i : Instr := .ldv g d m str
  let rows := (Vec.Shape.ofWord s.view.vsh.toNat).rows
  let regs := (List.range rows).map (fun r => d.val + r)
  guardedShape s i g (do
    phaseFree s i (memLate s ([], regs))
    let eas ← rowAddrs s m str rows
    let (s, ps) ← checkRows i .read s eas
    rowsReady i .read s (ps.drop (s.ctx.sent.length - s.grp.msg))
    let (s, rows) ← overRows i .read 2 (fun _ => []) (fun s pa _ =>
      let (s, bs, remote) := loadBytes s pa 64
      (s, (some (BitVec.ofNat 64 (Bits.b2n remote)), [BitVec.ofNat 512 (Bits.ofBytesLE bs)]))) s ps 0
    let s := s.upd (fun c => { c with v := rows.zipIdx.foldl (fun v x => Vec.setReg v (d.val + x.2) (x.1.elim 0 (fun a => a.2.headD 0))) c.v })
    let s := s.updCore (fun c => { c with
      phase := c.phase.map (fun p => { p with vdue := p.vdue ++ regs.map (fun r => (r, p.pcc + 3)) }) })
    return (if rows.any (fun a => a.any (fun x => x.1 ≠ some 0)) || (rows.contains none && ps.any (fun p => offCore s p.2)) then countRemote s
      else s))

/-- STV (R128). -/
def execStv (g : Guard) (d : Fin 32) (m : Mem) (str : Option (Fin 32)) (s : State) : Out :=
  let i : Instr := .stv g d m str
  let rows := (Vec.Shape.ofWord s.view.vsh.toNat).rows
  let row (s : State) (r : Nat) : List Byte := Bits.bytesLE 64 (Vec.reg s.view.v (d.val + r)).toNat
  guardedShape s i g (do
    phaseFree s i (memLate s ((List.range rows).map (fun r => d.val + r), []))
    let eas ← rowAddrs s m str rows
    let (s, ps) ← checkRows i .write s eas
    rowsReady i .write s (ps.drop (s.ctx.sent.length - s.grp.msg))
    let (s, _) ← overRows i .write 3 (row s) (fun s pa r => (storeAt s pa (row s r), (none, []))) s ps 0
    return s)

/-- R163: the discard of a last-use load, at the home: in discard-check mode a dirty line is written back and counted; else its
value becomes the backing value, and no L1 holds it dirty any more. -/
def discardLine (s : State) (pa : Nat) : State :=
  let l := pa / 64
  if !offCore s pa then s
  else
    let x := s.getLine l
    if s.gang.dchk && x.dirty.isSome then (writeBackLine s l).updCore (fun c => { c with dchk := c.dchk + 1 })
    else
      let wts := max x.wts (x.rts + 1)
      let s := match x.dirty with
        | some b =>
          let s := logLine s s.gangId l
          reportWrite { s with mem := s.mem.writeBytes (l * 64) (Bits.bytesLE 64 b.toNat) } s.mem (l * 64) 64
        | none => s
      let s := s.setLine l { s.getLine l with wts := wts, rts := max wts (s.getLine l).rts, dirty := none }
      ((cleanL1 s l).updCore (fun c => { c with leases := mdel l c.leases })).upd (fun c => { c with discards := c.discards ++ [(l, wts)] })

/-- LDL (R129, R163): its load is one step with the discard, at the home. -/
def execLdl (g : Guard) (t : Ty) (d : Fin 32) (m : Mem) (s : State) : Out :=
  guarded s (.ldl g t d m) g (loadForm s (.ldl g t d m) t (.s d) m
    (fun s pa n => let r := loadAtHome s pa n; (discardLine r.1 pa, r.2, offCore s pa)) false)

/-- PREF (R130, R150): a request for a line; it takes no step, writes nothing and raises nothing. -/
def execPref (g : Guard) (slice : Bool) (m : Mem) (s : State) : Out := guarded s (.pref g slice m) g (.ok s)

/-- WBL (R130, R154): writes back the line of EA if the core's L1 holds it dirty; the core keeps a clean copy, or none with .inv. A line
that the core has not stored to since its last write-back is clean or absent there. -/
def execWbl (g : Guard) (inv : Bool) (m : Mem) (s : State) : Out :=
  guarded s (.wbl g inv m) g (do
    let (s, pa) ← checkEA s (s.ea m) 1 .read
    let l := pa / 64
    if !offCore s pa || !s.core.stored.contains l || (s.getLine l).dirty.isNone then return s
    else
      let s := writeBackLine s l
      return if inv then s.updCore (fun c => { c with leases := mdel l c.leases }) else s)

/-- DISC (R131): marks or clears the discard bits of the lines from EA. A length of 0 does nothing. -/
def execDisc (g : Guard) (clear : Bool) (c : Fin 32) (m : Mem) (s : State) : Out :=
  let ea := s.ea m
  let len := (s.rs c).toNat
  guarded s (.disc g clear c m) g (
    if len = 0 then .ok s
    else
      match nearOff ea.toNat with
      | none => raise 0x13 ea 0
      | some b =>
        if b % 64 ≠ 0 || len % 64 ≠ 0 then raise 0x13 ea 0
        else if padSize s s.coreKey < b + len then raise 0x15 ea 0
        else
          let lines := (List.range (len / 64)).map (fun j => b / 64 + j)
          let mark (ds : List Nat) : List Nat :=
            if clear then ds.filter (fun x => !(b / 64 ≤ x && x < b / 64 + len / 64))
            else lines.foldl (fun ds x => insertNat x ds) ds
          .ok (s.updCore (fun k => { k with discardBits := mark k.discardBits })))

/-- R124: the access kind that XLAT checks. -/
def kindOf : XlatKind → Kind
  | .read => .read
  | .write => .write
  | .exec => .exec

/-- XLAT (R132): the physical address, or 0x8000_0000_0000_0000 with the cause. The rule names no size for the check: it is made as of one byte, so
that 0x13 is never its answer (log 29). -/
def execXlat (g : Guard) (kind : XlatKind) (d : Fin 32) (m : Mem) (s : State) : Out :=
  guarded s (.xlat g kind d m) g (
    match checkEA s (s.ea m) 1 (kindOf kind) with
    | .ok (s, pa) => .ok (countRemote (s.putS d (BitVec.ofNat 64 pa)))
    | .error (.trap t) => .ok (countRemote (s.putS d (BitVec.ofNat 64 (2 ^ 63 + t.cause))))
    | .error (.after s t) => .ok (countRemote (s.putS d (BitVec.ofNat 64 (2 ^ 63 + t.cause))))
    | .error e => .error e)

/-- R61, R133: the operand of an atomic as a pattern of its width; an immediate of a floating type is its exact value. -/
def atomPat (s : State) (t : Ty) (c : Opnd) : Nat :=
  match c with
  | .imm i => if t.isFlt then (pack (fmtOf t) .rne (ofInt false (Bits.sx 5 i.toNat) 0)).1 else (i.signExtend 64).toNat % 2 ^ t.bits
  | _ => (s.src c).toNat % 2 ^ t.bits

/-- R133: the new value of an AMO. -/
def amoFn (t : Ty) (fn : AmoFn) (old c : Nat) : Nat :=
  let lt (x y : Nat) : Bool :=
    if t.isInt then intVal t x < intVal t y else totalKey (fmtOf t).signBit x < totalKey (fmtOf t).signBit y
  match fn with
  | .swap => c
  | .add => elemAdd t old c
  | .and => old &&& c
  | .or => old ||| c
  | .xor => old ^^^ c
  | .min => if lt c old then c else old
  | .max => if lt old c then c else old

/-- R133, R152: an atomic at the home: the old value goes to D, extended as LD extends. -/
def atomicForm (s : State) (i : Instr) (t : Ty) (d : Option (Fin 32)) (m : Mem) (data : List Byte) (new : Nat → Nat) : Res State := do
  let n := t.bits / 8
  let g ← grant s i (s.ea m) n n .rmw false
  if g.refused then return answerZero (if d.isSome && offCore s g.pa then countRemote g.s else g.s) d
  else
    accessMessage g.s 4 g.pa data
      (fun s =>
        let (s, old) := rmwStep s g.pa n (fun bs => Bits.bytesLE n (new (Bits.ofBytesLE bs)))
        (s, (some (putWordX t (Bits.ofBytesLE old)), [])))
      (fun s a => match d with
        | some r => answerS s r (a.1.getD 0) 0 (offCore s g.pa)
        | none => s)
where
  /-- The old value extended: by the type's sign for integers, with zeros for floats. -/
  putWordX (t : Ty) (p : Nat) : Word := Vec.extend t p

/-- AMO (R133). -/
def execAmo (g : Guard) (t : Ty) (fn : AmoFn) (d : Option (Fin 32)) (c : Opnd) (m : Mem) (s : State) : Out :=
  let x := atomPat s t c
  guarded s (.amo g t fn d c m) g (atomicForm s (.amo g t fn d c m) t d m (Bits.bytesLE 8 x) (fun old => amoFn t fn old x))

/-- CAS (R133): stores the operand if the old pattern is that of D. -/
def execCas (g : Guard) (t : Ty) (d : Fin 32) (c : Opnd) (m : Mem) (s : State) : Out :=
  let x := atomPat s t c
  let want := (s.rs d).toNat % 2 ^ t.bits
  guarded s (.cas g t d c m) g
    (atomicForm s (.cas g t d c m) t (some d) m (Bits.bytesLE 8 x ++ Bits.bytesLE 8 want) (fun old => if old = want then x else old))

end Sys2Proof.Machine
end

