-- ==== Sys2Proof/Machine/Accum.lean ====
section
/-! DEFINITION. Accumulates and their flush, exact cells, and futures (R134 to R146). -/
namespace Sys2Proof.Machine
open Num

/-- R136: an exact form whose address is in region 1 raises 0x16, within the scratchpad or beyond it. -/
def checkCell (s : State) (i : Instr) (ea : Word) (align : Nat) (m : Mode) (exact : Bool) : Res (State × Nat) :=
  onTrap (fun t => if exact && t.cause = 0x15 then ⟨0x16, ea, 0, none⟩ else t) (checkMode s i ea align m)

/-- R136: exact cells exist only in device memory. -/
def cellSpace {α : Type} (s : State) (ea : Word) (pa : Nat) (exact : Bool) (r : Res α) : Res α :=
  if exact && paReg pa ≠ 0 then raiseFrom s 0x16 ea 0 else r

/-- R137, R123, R160: issues an accumulate of `n` bytes at EA; `line` places the addend in its line, given the offset. -/
def accForm (s : State) (i : Instr) (t : Ty) (exact : Bool) (m : Mem) (n : Nat) (line : Nat → Nat) : Res State := do
  let ea := s.ea m
  let (s, pa) ← checkCell s i ea n .rmw exact
  let off := pa % 64
  let mask : BitVec 16 := BitVec.ofNat 16 ((2 ^ (n / 4) - 1) * 2 ^ (off / 4))
  cellSpace s ea pa exact (
    if paReg pa = 2 then raiseFrom s 0x1A ea 0
    else accessMessage s 5 pa (Bits.bytesLE 64 (line off)) (fun s => (issueAcc s pa ea exact t mask (line off), (none, [])))
      (fun s _ => s))

/-- ACC (R137): one addend, at the width of T or into an exact cell. -/
def execAcc (g : Guard) (t : Ty) (exact : Bool) (d : Fin 32) (m : Mem) (s : State) : Out :=
  let x := (s.rs d).toNat % 2 ^ t.bits
  guarded s (.acc g t exact d m) g
    (accForm s (.acc g t exact d m) t exact m (if exact then 16 else t.bits / 8) (fun off => x * 2 ^ (8 * off)))

/-- ACCV (R137): 64 bytes, or elements 0 to 3 into the four cells of a line. -/
def execAccv (g : Guard) (t : Ty) (exact : Bool) (d : Fin 32) (m : Mem) (s : State) : Out :=
  let v := (Vec.reg s.view.v d.val).toNat
  let cells := (List.range 4).foldl (fun l k => l + (v >>> (t.bits * k) % 2 ^ t.bits) * 2 ^ (128 * k)) 0
  guarded s (.accv g t exact d m) g
    (accForm s (.accv g t exact d m) t exact m 64 (fun _ => if exact then cells else v))

/-- RFLUSH (R143). -/
def execRflush (g : Guard) (r : Reach) (s : State) : Out := guarded s (.rflush g r) g (.ok (startFlush s r .rflush))

/-- RSTAT (R143): the number of live residual entries. -/
def execRstat (g : Guard) (d : Fin 32) (s : State) : Out :=
  guarded s (.rstat g d) g (.ok (countRemote (s.putS d (BitVec.ofNat 64 s.core.residual.length))))

/-- XRD (R136): the value of an exact cell as f64; NX goes to the context's ASR with the answer. -/
def execXrd (g : Guard) (d : Fin 32) (m : Mem) (s : State) : Out :=
  let i : Instr := .xrd g d m
  let ea := s.ea m
  guarded s i g (do
    let (s1, pa) ← checkCell s i ea 16 .read true
    cellSpace s1 ea pa true (do
      let g ← grant s i ea 16 16 .read false
      if g.refused then return (countRemote g.s).putS d 0
      else
        let (s, bs, r) ← loadMessage g.s 6 g.pa 16 (fun s => loadBytes s g.pa 16)
        let (p, fl) := cellRead (Bits.ofBytesLE bs)
        return answerS s d (BitVec.ofNat 64 p) fl r))

/-- XCLR (R136): stores a cell of zero with the scale of the operand. -/
def execXclr (g : Guard) (c : Opnd) (m : Mem) (s : State) : Out :=
  let i : Instr := .xclr g c m
  let ea := s.ea m
  let bs := Bits.bytesLE 16 ((s.src c).toNat % 256 * 2 ^ 120)
  guarded s i g (do
    let (s1, pa) ← checkCell s i ea 16 .rmw true
    cellSpace s1 ea pa true (do
      let g ← grant s i ea 16 16 .rmw false
      if g.refused then return g.s
      else accessMessage g.s 7 g.pa bs (fun s => ((rmwStep s g.pa 16 (fun _ => bs)).1, (none, []))) (fun s _ => s)))

/-! ### Futures (R134, R135) -/

/-- R134: FULL and HEAD of a future's 16 bytes; HEAD as an address. -/
def futureFull (f : Nat) : Bool := Bits.bit f 64
def futureHead (f : Nat) : Nat := Bits.fld f 127 69 * 32

/-- R134: the priority a deferred-read record takes. -/
def recordPrio (c : Ctx) : Nat :=
  match c.packet with
  | some p => p.prio
  | none => c.prio

/-- R134: a deferred-read record. -/
def recordBytes (s : State) (next : Nat) (d : Fin 32) : List Byte :=
  Bits.bytesLE 8 s.grp.next.toNat ++ Bits.bytesLE 8 (s.rs 1).toNat ++ Bits.bytesLE 8 next ++
    [BitVec.ofNat 8 d.val, BitVec.ofNat 8 (recordPrio s.ctx % 4)] ++ Bits.bytesLE 2 (s.coreKey % 4096) ++ Bits.bytesLE 2 s.pkg ++ [0, 0]

/-- R135: the acting context's task is suspended: the context stops being live, and no join counter changes. -/
def suspend (s : State) : State := endContext s s.cur

/-- R135, R151: a lease copy that shows a future empty cannot supply its value. -/
def dropEmptyCopy (s : State) (pa : Nat) : State :=
  match mget? (pa / 64) s.core.leases with
  | some x => if futureFull (x.value.toNat >>> (8 * (pa % 64)) % 2 ^ 128) then s
    else s.updCore (fun c => { c with leases := mdel (pa / 64) c.leases })
  | none => s

/-- FLD (R135): the value of a full future, or a deferred-read record on an empty one, or 0x17. The group of an FLD without a record
ends only when the home has answered. With a record, EA and the tables are checked for reading and writing, also where the future turns out to be
full (the rule names no permission: log 29). -/
def execFld (g : Guard) (d : Fin 32) (c : Option (Fin 32)) (m : Mem) (s : State) : Out :=
  let i : Instr := .fld g d c m
  let ea := s.ea m
  let mode : Mode := if c.isSome then .rmw else .read
  guarded s i g (do
    let (s, _) ← checkMode s i ea 16 mode
    let (s, rec?) ← (match c with
      | none => Except.ok (s, none)
      | some r => do
        let (s, pa) ← checkMode s i (s.rs r) 32 .write
        if paReg pa = 2 then raiseFrom s 0x1A (s.rs r) 0 else Except.ok (s, some (s.rs r, pa)))
    let g ← grant s i ea 16 16 mode false
    if g.refused then return (if offCore s g.pa then countRemote g.s else g.s).putS d 0
    else
      let s := g.s
      let f := s.mem.readLE g.pa 16
      if futureFull f then
        let (s, bs, r) ← loadMessage s 8 g.pa 16 (fun s => loadBytes (dropEmptyCopy s g.pa) g.pa 16)
        let v := BitVec.ofNat 64 (Bits.ofBytesLE bs % 2 ^ 64)
        return (if c.isSome then answerS s d v 0 r else if r then countRemote (s.putS d v) else s.putS d v)
      else
        match rec? with
        | none => raiseFrom s 0x17 ea 0
        | some (va, a) =>
          match overlapping s.core a 32 with
          | some e => stallOr s i (.overlap e.chain e.seq)
          | none =>
          if !targetAllows s s.coreKey s.gangId s.gang.asid a false true then
            return (refuse (if offCore s a then countRemote s else s) va a).putS d 0
          else if poisoned s a then consume s a
          else
            let store (s : State) : State :=
              let s := storeStep s a (recordBytes s (futureHead f) d)
              (rmwStep s g.pa 16 (fun _ => Bits.bytesLE 16 (f % 2 ^ 64 + a / 32 * 2 ^ 69))).1
            accessMessage s 8 g.pa (Bits.bytesLE 8 a) (fun s => (store s, (none, []))) (fun s _ => suspend s))

/-- R134, R135: the continuation of a deferred-read record. -/
def recordCont (m : Memory) (value : Word) (a : Nat) : Cont :=
  let rd (o n : Nat) := m.readLE (a + o) n
  ⟨coreKeyOf (rd 28 2 % 4096) (rd 26 2 % 4096), rd 25 1 % 4, BitVec.ofNat 64 (rd 0 8), BitVec.ofNat 64 (rd 8 8),
    ⟨rd 24 1 % 32, Nat.mod_lt _ (by decide)⟩, value⟩

/-- R134, R135, R357, R358: the continuations of a list of deferred-read records, in order, at most `fuel`: each record is read at its home, and
a poisoned one is consumed. -/
def recordList (s : State) (value : Word) : Nat → Nat → Res (State × List Cont)
  | 0, _ => .ok (s, [])
  | fuel + 1, a =>
    if a = 0 then .ok (s, [])
    else
      let s := homeRead s .ctx a
      if poisoned s a then consume s a
      else
        match recordList s value fuel (s.mem.readLE (a + 16) 8) with
        | .error e => .error e
        | .ok (t, cs) => .ok (t, recordCont s.mem value a :: cs)

/-- R135, R178, R179: enqueues continuations on the core-level queues of their records' cores while there are slots; the rest. -/
def walkList (stamp : Nat) : State → List Cont → State × List Cont
  | s, [] => (s, [])
  | s, c :: rest =>
    let g := (s.getCore c.core).gang
    let q := queueKey 1 c.core
    if queueFull s g q then (s, c :: rest)
    else walkList stamp (enqueue s g q c.prio ⟨0, some c, s.now, stamp⟩) rest

/-- R183: the acting context is a second copy whose answer is ready. -/
def replaying (s : State) : Bool :=
  match s.ctx.pair.bind (fun p => mget? p s.pairs) with
  | some p => p.first ≠ s.cur && p.answer.isSome
  | none => false

/-- R135: fills a future, and walks its records as far as there are slots; what is left stays with the context. -/
def fillFuture (s : State) (pa : Nat) (v : Word) (list : List Cont) : State :=
  let s := (rmwStep s pa 16 (fun _ => Bits.bytesLE 16 (v.toNat + 2 ^ 64))).1
  let stamp := s.ctx.pts
  let r := walkList stamp s list
  if r.2.isEmpty then r.1 else r.1.upd (fun c => { c with walking := some (r.2, stamp) })

/-- R135, R179: the answer of a FST comes when its walk has ended. -/
def awaitWalk (s : State) : Res State :=
  match s.ctx.walking with
  | none => .ok s
  | some ([], _) => .ok (s.upd (fun c => { c with walking := none }))
  | some _ => stall s .slot

/-- FST (R135): fills the future in one step, then enqueues a continuation for each record; its group ends when that is done. -/
def execFst (g : Guard) (d : Fin 32) (m : Mem) (s : State) : Out :=
  let i : Instr := .fst g d m
  let ea := s.ea m
  let v := s.rs d
  guarded s i g (
    if s.ctx.walking.isSome then awaitWalk s
    else do
      let g ← grant s i ea 16 16 .rmw false
      if g.refused then return g.s
      else
        let f := g.s.mem.readLE g.pa 16
        if futureFull f && !replaying g.s then raiseFrom g.s 0x17 ea 0
        else
          let (s, list) ← recordList g.s v (g.s.mem.length + 1) (if replaying g.s then 0 else futureHead f)
          awaitWalk (← accessMessage s 9 g.pa (Bits.bytesLE 8 v.toNat) (fun s => (fillFuture s g.pa v list, (none, []))) (fun s _ => s)))

/-- FRST (R135): resets a full future; one that has waiters raises 0x18. -/
def execFrst (g : Guard) (m : Mem) (s : State) : Out :=
  let i : Instr := .frst g m
  let ea := s.ea m
  guarded s i g (do
    let g ← grant s i ea 16 16 .rmw false
    if g.refused then return g.s
    else
      let f := g.s.mem.readLE g.pa 16
      if !futureFull f && futureHead f ≠ 0 then raiseFrom g.s 0x18 ea 0
      else
        let reset (s : State) := (rmwStep s g.pa 16 (fun bs => if futureFull f then Bits.bytesLE 16 0 else bs)).1
        accessMessage g.s 10 g.pa [] (fun s => (reset s, (none, []))) (fun s _ => s))

end Sys2Proof.Machine
end

