-- ==== Sys2Proof/Machine/Tasks.lean ====
section
/-! DEFINITION. Barriers, tasks, queues, waits, launches and time (R177 to R196). -/
namespace Sys2Proof.Machine

/-! ### Units (R20, R172, R186) -/

/-- The unit of a domain or scope code that contains a core, by number. -/
def unitOf (scope core : Nat) : Nat :=
  match scope with
  | 2 => core / 4
  | 3 => core / 8
  | 4 => core / 32
  | 5 => core / 512
  | 6 => core / 4096
  | 7 => 0
  | _ => core

/-- The cores of a gang in the unit of a scope that contains core k. -/
def gangUnit (g : Gang) (scope k : Nat) : List Nat := g.cores.filter (fun c => unitOf scope c == unitOf scope k)

/-- R172: the domain of the gang's level 0. -/
def level0 (g : Gang) : Nat := (g.levels.headD 0).toNat % 8

/-- R165: the homes that a barrier's flush covers. -/
def barrierReach (scope : Nat) : Reach := if scope = 7 then .all else .local

/-- BAR (R165, R186): flushes, fences and arrives; a scope wider than the gang's level 0 raises 0x48. -/
def execBar (g : Guard) (scope : Fin 8) (s : State) : Out :=
  guarded s (.bar g scope) g (
    if level0 s.gang < scope.val then raiseOpen s 0x48
    else .ok (startFlush s (barrierReach scope.val) (.bar scope)))

/-- SSTEP (R165, R187). -/
def execSstep (g : Guard) (s : State) : Out :=
  guarded s (.sstep g) g (.ok (startFlush s (barrierReach (level0 s.gang)) .sstep))

/-- R339: every core of the acting gang has arrived at SEED: appends wait until the seed has changed. -/
def seedHolds (s : State) : Bool :=
  s.gang.cores.all (fun k => [0, 1, 2, 3].any (fun n => match (s.getCtx (4 * k + n)).wait with
    | some (.seed _) => true
    | _ => false)) && !s.gang.cores.isEmpty

/-! ### Task packets (R177) -/

/-- R177: the fields of a task packet's first 32 bytes. -/
structure Pkt where
  len : Nat
  nsucc : Nat
  pair : Bool
  prio : Nat
  target : Nat
  code : Word
  frame : Word
  join : Nat
deriving DecidableEq, Repr

/-- R177: the first 32 bytes of a packet, read as a little-endian number. -/
def Pkt.ofHead (h : Nat) : Pkt :=
  ⟨Bits.fld h 7 0, Bits.fld h 10 8, Bits.bit h 11, Bits.fld h 13 12, Bits.fld h 18 16, BitVec.ofNat 64 (Bits.fld h 127 64),
    BitVec.ofNat 64 (Bits.fld h 191 128), Bits.fld h 223 192⟩

/-- R177: a legal TARGET. -/
def targetOk (t : Nat) : Bool := t = 1 || t = 4 || t = 5 || t = 6

/-- R177: the header's reserved bits are zero. -/
def headReservedOk (h : Nat) : Bool := Bits.fld h 15 14 = 0 && Bits.fld h 31 19 = 0 && Bits.fld h 255 224 = 0

/-- R177, R180: what is wrong with the bytes of a packet of LEN · 16 bytes: 0x42 for its CRC, 0x44 for anything else. -/
def packetFault (bs : List Byte) : Option Nat :=
  let h := Bits.ofBytesLE (bs.take 32)
  let p := Pkt.ofHead h
  if p.len < 2 || 16 < p.len then some 0x44
  else if Crc.crc32 (bs.take 4 ++ [0, 0, 0, 0] ++ bs.drop 8) ≠ Bits.fld h 63 32 then some 0x42
  else if p.len * 16 < 32 + 8 * p.nsucc || !targetOk p.target || !headReservedOk h then some 0x44
  else none

/-- R177: the successor handles, in the last bytes. -/
def successors (bs : List Byte) : List Word :=
  let p := Pkt.ofHead (Bits.ofBytesLE (bs.take 32))
  (List.range p.nsucc).map (fun i => BitVec.ofNat 64 (Bits.ofBytesLE ((bs.drop (p.len * 16 - 8 * p.nsucc + 8 * i)).take 8)))

/-- R151, R188, R183: reads a line of a packet as a load and a message of its own. -/
def loadLine (s : State) (pa : Nat) : Res (State × Line) :=
  match exchangeAt s 19 pa [] (fun s => let r := loadStep s (pa / 64 * 64) 64
      (r.1, (none, [BitVec.ofNat 512 (Bits.ofBytesLE r.2.1)]))) with
  | .error e => .error e
  | .ok (s, a) => .ok (s, a.2.headD 0)

/-- R188: reads the lines of a packet after the first, each checked as a read of the packet's bytes in it and loaded; whether one was
refused. -/
def readLines (i : Instr) : State → List (Word × Nat) → Res (State × List Line × Bool)
  | s, [] => .ok (s, [], false)
  | s, (a, n) :: rest => do
    let g ← grant s i a 1 n .read false
    if g.refused then return (g.s, [], true)
    else
      let (s, l) ← loadLine g.s g.pa
      let (s, ls, r) ← readLines i s rest
      return (s, l :: ls, r)

/-- R188: the lines of a packet of `n` bytes at EA after its first line, with the packet's bytes in each. -/
def laterLines (ea : Word) (n : Nat) : List (Word × Nat) :=
  let first := ea.toNat / 64
  let last := (ea.toNat + n - 1) / 64
  (List.range (last - first)).map (fun j => (BitVec.ofNat 64 ((first + 1 + j) * 64), min 64 (ea.toNat + n - (first + 1 + j) * 64)))

/-- The bytes of a packet of n bytes that begins at an offset of its first line. -/
def packetBytes (off n : Nat) (lines : List Line) : List Byte := ((lines.flatMap (fun l => Bits.bytesLE 64 l.toNat)).drop off).take n

/-- R158, R188: reads the packet at an address: the state, its bytes, and whether a read was refused. The first line is read once no byte of
the packet in it overlaps a command's destination. -/
def readWhole (s : State) (i : Instr) (ea : Word) : Res (State × List Byte × Bool) := do
  let r ← grant s i ea 16 16 .read false
  if r.refused then return (r.s, [], true)
  else
    let (s, first) ← loadLine r.s r.pa
    let n := 16 * (first.toNat >>> (8 * (r.pa % 64)) % 256)
    match overlapping r.s.core r.pa (min n (64 - r.pa % 64)) with
    | some e => stallOr r.s i (.overlap e.chain e.seq)
    | none =>
    let (s, lines, refused) ← readLines i s (if n = 0 then [] else laterLines ea n)
    return (s, packetBytes (r.pa % 64) (max n 16) (first :: lines), refused)

/-- SPAWN (R188): checks the packet and enqueues its address. -/
def execSpawn (g : Guard) (m : Mem) (s : State) : Out :=
  let i : Instr := .spawn g m
  let ea := s.ea m
  guarded s i g (do
    let (s, bs, refused) ← readWhole s i ea
    if refused then return s
    else
      match packetFault bs with
      | some c => raiseFrom s c ea 0
      | none =>
        let p := Pkt.ofHead (Bits.ofBytesLE (bs.take 32))
        let q := queueKey p.target s.coreKey
        if p.join ≠ 0 then raiseFrom s 0x44 ea 0
        else if queueFull s s.gangId q && !replaying s then raiseFrom s 0x4D ea (BitVec.ofNat 64 p.target)
        else asMessage s 11 ea.toNat [] (fun s => (enqueue s s.gangId q p.prio ⟨ea, none, s.now, s.ctx.pts⟩, (none, []))) (fun s _ => s))

/-! ### Join counters (R179, R189, R190) -/

/-- What a decrement does. -/
inductive Dec where
  /-- It was made: the new counter, and whether the answer comes from off the core. -/
  | made (s : State) (count : Word) (remote : Bool)
  /-- It raises a cause and makes no store; the walks it made stay made. -/
  | cause (s : State) (t : TrapInfo)
  /-- The context waits. -/
  | waits (s : State)

/-- R189: the queue and priority of the handle whose header is `h`. -/
def handleQueue (s : State) (h : Nat) : Nat × Nat :=
  let p := Pkt.ofHead h
  (queueKey (if targetOk p.target && headReservedOk h then p.target else 1) s.coreKey, p.prio)

/-- R177, R189: the CRC field of a packet of LEN `len` after its JOIN goes from c to c − 1: a right CRC stays right and a wrong one
wrong, as the pop of the chapter's worked example needs (DEDUCED, log 28). -/
def crcAfter (len crc c : Nat) : Nat :=
  let body (j : Nat) : List Byte := List.replicate 24 0 ++ Bits.bytesLE 4 j ++ List.replicate (16 * len - 28) 0
  if 2 ≤ len && len ≤ 16 then crc ^^^ Crc.crc32 (body c) ^^^ Crc.crc32 (body (c - 1)) else crc

/-- R123: the physical address of a packet's JOIN, given its handle and the packet's own; the packet may cross a page. -/
def joinPa (s : State) (h : Word) (pa : Nat) : Res (State × Nat) :=
  if pa % 4096 = 4080 then checkEA s (h + 24) 4 .write else .ok (s, pa + 24)

/-- R189, R190: one decrement of the join counter of the packet at a handle, the i-th of its form. -/
def decrement (s : State) (h : Word) (i : Nat) : Dec :=
  match (do
      let (s, pa) ← checkEA s h 16 .write
      let (s, jpa) ← joinPa s h pa
      return (s, pa, jpa) : Res (State × Nat × Nat)) with
  | .error (.trap t) => .cause s t
  | .error (.after s t) => .cause s t
  | .error (.wait t) => .waits t
  | .ok (s, pa, jpa) =>
    let stop (r : Res Unit) : Dec :=
      match r with
      | .error (.trap t) => .cause s t
      | .error (.after s t) => .cause s t
      | .error (.wait t) => .waits t
      | .ok _ => .waits s
    if paReg pa = 2 then .cause s ⟨0x1A, h, 0, none⟩
    else if coveredByKept s.gang pa 32 then .cause s ⟨0x19, h, 0, none⟩
    else
      match overlapping s.core jpa 4 with
      | some e => stop (stall s (.overlap e.chain e.seq))
      | none =>
        if !targetAllows s s.coreKey s.gangId s.gang.asid pa true true || !targetAllows s s.coreKey s.gangId s.gang.asid jpa true true then .cause s ⟨0x12, h, BitVec.ofNat 64 i, none⟩
        else
          let s := homeRead (homeRead s .ctx pa) .ctx jpa
          if poisoned s pa then stop (consume s pa)
          else if poisoned s jpa then stop (consume s jpa)
          else
            let head := s.mem.readLE pa 16
            let c := s.mem.readLE jpa 4
            let (q, prio) := handleQueue s head
            if queueFull s s.gangId q && !replaying s then stop (stall s .slot)
            else if c = 0 && !replaying s then .cause s ⟨0x46, h, BitVec.ofNat 64 i, none⟩
            else
              match exchangeAt s 12 pa []
                (fun s =>
                  let s := (rmwStep s jpa 4 (fun _ => Bits.bytesLE 4 (c - 1))).1
                  let s := homeStep s (pa + 4) (Bits.bytesLE 4 (crcAfter (head % 256) (Bits.fld head 63 32) c))
                  (if c = 1 then enqueue s s.gangId q prio ⟨h, none, s.now, s.ctx.pts⟩ else s, (some (BitVec.ofNat 64 (c - 1)), []))) with
              | .ok (s, a) => .made s (a.1.getD 0) (offCore s pa)
              | .error (.trap t) => .cause s t
              | .error (.after s t) => .cause s t
              | .error (.wait t) => .waits t

/-- R189: decrements the successors from the i-th on, in order. What stays done stays when one raises a cause, and a context
that waits goes on from there. -/
def doneLoop : State → List Word → Nat → Res State
  | s, [], _ => .ok s
  | s, h :: rest, i =>
    let at_ (n : Nat) (s : State) : State := s.upd (fun c => { c with packet := c.packet.map (fun p => { p with done := n }) })
    match decrement s h i with
    | .made s _ _ => doneLoop s rest (i + 1)
    | .cause s t => .error (.after (at_ 0 s) t)
    | .waits s => .error (.wait (at_ i s))

/-- R189: checks every successor handle before any change. -/
def checkHandles : State → List Word → Res State
  | s, [] => .ok s
  | s, h :: rest => do
    let (s, pa) ← checkEA s h 16 .write
    let (s, _) ← joinPa s h pa
    checkHandles s rest

/-- DONE (R189): decrements the successors' counters and ends the task. -/
def execDone (g : Guard) (s : State) : Out :=
  let i : Instr := .done g
  guarded s i g (
    match s.ctx.packet with
    | none => .ok (endContext s s.cur)
    | some p => do
      let s ← checkHandles s p.succ
      let s ← doneLoop { s with grp := { s.grp with msg := if p.done = 0 then s.grp.msg else s.ctx.sent.length } } (p.succ.drop p.done) p.done
      return endContext s s.cur)

/-- JOIN (R190): one decrement; the new counter goes to D. -/
def execJoin (g : Guard) (d : Option (Fin 32)) (m : Mem) (s : State) : Out :=
  let i : Instr := .join g d m
  guarded s i g (
    match decrement s (s.ea m) 0 with
    | .made s n remote => .ok (match d with
        | some r => answerS s r n 0 remote
        | none => s)
    | .cause s t => .error (.after s t)
    | .waits s => .error (.wait s))

/-! ### Waits with a limit (R191 to R193) -/

/-- R193: the gang cycle at which a wait of the acting context expires: the one it already has, or L cycles from now. -/
def limitFor (s : State) (same : Timed → Bool) (lim : Nat) : Option Nat :=
  let l := if lim = 0 then s.gang.wlimit else lim
  match s.grp.waited with
  | some (.timed t limit _) => if same t then limit else if l = 0 then none else some (s.gang.ran + l)
  | _ => if l = 0 then none else some (s.gang.ran + l)

/-- R182: the fields of a queue descriptor. -/
structure Desc where
  base : Word
  capl : Nat
  head : Nat
  tail : Nat
deriving DecidableEq, Repr

/-- R182: the descriptor at a physical address; none when it is malformed. -/
def descAt (m : Memory) (pa : Nat) : Option Desc :=
  let d : Desc := ⟨BitVec.ofNat 64 (m.readLE pa 8), m.readLE (pa + 8) 8, m.readLE (pa + 16) 8, m.readLE (pa + 24) 8⟩
  if d.capl < 3 || 24 < d.capl || m.readLE (pa + 32) 32 ≠ 0 || 2 ^ d.capl < (d.tail + 2 ^ 64 - d.head) % 2 ^ 64 then none else some d

/-- Entries of a queue. -/
def Desc.count (d : Desc) : Nat := (d.tail + 2 ^ 64 - d.head) % 2 ^ 64

/-- R182: the address of entry i. -/
def Desc.entry (d : Desc) (i : Nat) : Word := d.base + BitVec.ofNat 64 (16 * (i % 2 ^ d.capl))

/-- R191: the check of an entry's address, with the descriptor's in TINFOB. -/
def entryGrant (s : State) (i : Instr) (ea : Word) (m : Mode) (desc : Word) : Res Grant :=
  onTrap (fun t => { t with b := desc, tpc := some s.grp.first }) (grant s i ea 16 16 m false)

/-- R191, R152: one step over several lines takes one timestamp, which no line of it lies above. -/
def raisePts (s : State) (n : Nat) : State := s.upd (fun c => { c with pts := max c.pts n })

/-- R191, R193: QPUT when `put`, else QGET: waits for room or an entry, then one step over the descriptor and the entry. -/
def queueForm (s : State) (i : Instr) (desc : Word) (put : Option Word) (d : Fin 32) (lim : Nat) : Res State := do
  let g ← grant s i desc 64 64 .rmw false
  if g.refused then return (if put.isSome then g.s else (if offCore g.s g.pa then countRemote g.s else g.s).putS d 0)
  else
    let s := g.s
    match descAt s.mem g.pa with
    | none => raiseOpenFrom s 0x45
    | some q =>
      let blocked := match put with
        | some _ => q.count = 2 ^ q.capl
        | none => q.count = 0
      if blocked && !replaying s then
        stall s (.timed (.queue desc) (limitFor s (fun t => t == .queue desc) lim) false)
      else
        let e ← entryGrant s i (q.entry (if put.isSome then q.tail else q.head)) (if put.isSome then .write else .read) desc
        if e.refused then return (if put.isSome then e.s else (if offCore e.s e.pa then countRemote e.s else e.s).putS d 0)
        else
          match put with
          | some v =>
            accessMessage e.s 13 g.pa (Bits.bytesLE 8 v.toNat)
              (fun s =>
                let s := raisePts s (max ((s.getLine (g.pa / 64)).rts + 1) ((s.getLine (e.pa / 64)).rts + 1))
                let s := homeStep s e.pa (Bits.bytesLE 8 v.toNat ++ Bits.bytesLE 8 s.now)
                ((rmwStep s (g.pa + 24) 8 (fun _ => Bits.bytesLE 8 (q.tail + 1))).1, (none, []))) (fun s _ => s)
          | none =>
            accessMessage e.s 14 g.pa []
              (fun s =>
                let v := BitVec.ofNat 64 (s.mem.readLE e.pa 8)
                let s := raisePts s (max ((s.getLine (g.pa / 64)).rts + 1) (s.getLine (e.pa / 64)).wts)
                let s := (loadAtHome s e.pa 16).1
                ((rmwStep s (g.pa + 16) 8 (fun _ => Bits.bytesLE 8 (q.head + 1))).1, (some v, [])))
              (fun s a => answerS s d (a.1.getD 0) 0 (offCore s g.pa))

/-- QPUT (R191). -/
def execQput (g : Guard) (a : Fin 32) (b : Opnd) (lim : BitVec 24) (s : State) : Out :=
  guarded s (.qput g a b lim) g (queueForm s (.qput g a b lim) (s.rs a) (some (s.src b)) 0 lim.toNat)

/-- QGET (R191). -/
def execQget (g : Guard) (d a : Fin 32) (lim : BitVec 24) (s : State) : Out :=
  guarded s (.qget g d a lim) g (queueForm s (.qget g d a lim) (s.rs a) none d lim.toNat)

/-- R193: the same watch waits on. -/
def sameWatch (addr : Word) : Timed → Bool
  | .word w => w.addr == addr
  | _ => false

/-- R192: the value with which a waiting WAITE of the acting context has compared true. -/
def watchHit (s : State) (addr : Word) : Option Word :=
  match s.grp.waited with
  | some (.timed (.word w) _ _) => if w.addr = addr then w.hit else none
  | _ => none

/-- WAITE (R151, R192, R193): waits until the word compares true, then that read is its load. A lease copy may serve the first read; where its
value does not compare true, the home's is read. -/
def execWaite (g : Guard) (t : Ty) (cc : Cond) (d : Option (Fin 32)) (a : Fin 32) (b : Opnd) (lim : BitVec 24) (s : State) : Out :=
  let i : Instr := .waite g t cc d a b lim
  let addr := s.rs a
  guarded s i g (do
    let g ← grant s i addr 8 8 .read false
    if g.refused then return answerZero (if d.isSome && offCore g.s g.pa then countRemote g.s else g.s) d
    else
      let s := g.s
      let v := BitVec.ofNat 64 (s.mem.readLE g.pa 8)
      let w : Watch := ⟨addr, g.pa, v, t, cc, s.int t b, none⟩
      let hit := watchHit s addr
      let read (s : State) : State × Word × Bool := let r := loadStep s g.pa 8; (r.1, BitVec.ofNat 64 (Bits.ofBytesLE r.2.1), r.2.2)
      if hit.isNone && !watchHolds w v && !watchHolds w (read s).2.1 && !replaying s then
        stall { s with reports := s.reports.filter (fun r => r.key != s.cur) }
          (.timed (.word w) (limitFor s (sameWatch addr) lim.toNat) false)
      else
        accessMessage s 15 g.pa []
          (fun s => match hit with
            | some x => (s, (some x, []))
            | none =>
              let r := read s
              if watchHolds w r.2.1 then (r.1, (some r.2.1, if r.2.2 then [0] else [])) else ((loadAtHome s g.pa 8).1, (some v, [])))
          (fun s a => match d with
            | some r => answerS s r (a.1.getD 0) 0 (offCore s g.pa && a.2.isEmpty)
            | none => s))

/-! ### Fence, launch and time -/

/-- FENCE (R162, R164, R194). -/
def execFence (g : Guard) (r : Reach) (s : State) : Out :=
  guarded s (.fence g r) g (.ok (tryFlush (s.upd (fun c => { c with wait := some (.fence r s.core.accNo) })) s.cur))

/-- R123, R195: checks the lines of the launch record at EA, each as a read: their physical addresses. -/
def recordLines (i : Instr) (ea : Word) : State → List Word → Res (State × List Nat)
  | s, [] => .ok (s, [])
  | s, a :: rest => do
    let (s, pa) ← onTrap (fun t => { t with a := ea }) (checkMode s i a 64 .read)
    if paReg pa = 2 then raiseFrom s 0x1A ea 0
    else if coveredByKept s.gang pa 64 then raiseFrom s 0x19 ea 0
    else
      let (s, ps) ← recordLines i ea s rest
      return (s, pa :: ps)

/-- LAUNCH (R195, R348): submits the record to the launch port at the gang's next commit; D is empty until the answer. -/
def execLaunch (g : Guard) (d : Fin 32) (c : Option (Fin 32)) (m : Mem) (s : State) : Out :=
  let i : Instr := .launch g d c m
  let ea := s.ea m
  guarded s i g (
    if !s.gang.lperm then raiseOpen s 0x49
    else do
      let (s, lines) ← recordLines i ea s [ea, ea + 64, ea + 128, ea + 192]
      let (s, word) ← (match c with
        | none => Except.ok (s, none)
        | some r => do
          let (s, pa) ← checkMode s i (s.rs r) 8 .write
          if paReg pa = 2 then raiseFrom s 0x1A (s.rs r) 0 else return (s, some (pa, (1 : Word))))
      asMessage s 16 (lines.headD 0) []
        (fun s =>
          let twin := (s.ctx.pair.bind (mget? · s.pairs)).bind (·.second)
          let l : Launch := ⟨s.pkg, lines, none, some (s.cur, d), twin, s.gangId, s.sup, word, some s.gangId⟩
          ({ s with launches := s.launches ++ [l] }, (none, [])))
        (fun s _ => countRemote (s.upd (fun c => c.setEmpty d))))

/-- GTIME (R196). -/
def execGtime (g : Guard) (d : Fin 32) (s : State) : Out :=
  guarded s (.gtime g d) g (.ok (s.putS d (BitVec.ofNat 64 s.now)))

end Sys2Proof.Machine
end

