-- ==== Sys2Proof/Machine/Vector.lean ====
section
/-! DEFINITION. The dispatch ring and the vector forms (R198 to R225). A vector form takes its effect on the v registers and
memory when it is dispatched, in the order R198 gives; its s result, its flags and its ring entry wait for its completion
(log 9). -/
namespace Sys2Proof.Machine
open Num

/-! ### Dispatch (R198, R205, R206) -/

/-- R205, R206, R209: the TSEQ of the form that the acting context dispatches, once its ring slot is free. In a phase a slot that the context's own
faulted entry holds raises 0x6B as any occupied slot does, not 0x23 (R206 and R209 both speak of it: log 29). -/
def ringSlot (s : State) (i : Instr) : Res Nat :=
  let q := nextTseq s.core.tseq
  let e := s.core.entry q
  if e.state = 1 || e.state = 2 then stallOr s i .retry
  else if e.state = 3 then
    if e.ctx = s.ctxNo && !s.inPhase then raise 0x23 (BitVec.ofNat 64 e.tseq) 0 else stallOr s i .retry
  else .ok q

/-- R205: what a ring entry captures at issue. -/
def entryFor (s : State) (i : Instr) (q : Nat) : RingEntry :=
  let f := Fields.ofSlot (slotOf i)
  let val (x : BitVec 8) : Word := if x.toNat < 32 then s.rs ⟨x.toNat % 32, Nat.mod_lt _ (by decide)⟩ else 0
  { RingEntry.free with
    insn := slotOf i, tseq := q, ctx := s.ctxNo, state := 1, pc := s.grp.first, opa := val f.a, opb := val f.b, opc := val f.c
    vshc := s.view.vsh.extractLsb' 0 28, rm := s.view.asr.extractLsb' 0 2
    rep := BitVec.ofNat 15 ((s.ctx.capture.map (·.rep)).getD 0), repv := s.ctx.capture.isSome }

/-- R205: enters a form in the ring of the acting core under its TSEQ. -/
def enterRing (s : State) (q : Nat) (e : RingEntry) : State :=
  s.updCore (fun c => { c with tseq := q, ring := mset (q % 64) e c.ring })

/-- R205: a dispatch-port form that is complete at issue: it takes a TSEQ and its entry is free again. -/
def dispatchNow (s : State) (i : Instr) : Res State :=
  match ringSlot s i with
  | .error e => .error e
  | .ok q => .ok (enterRing s q { entryFor s i q with state := 0 })

/-- R198: a vector form needs a sequencer entry. -/
def seqFree (s : State) (i : Instr) : Res Unit := if 16 ≤ s.core.seq.length then stallOr s i .retry else .ok ()

/-- R206, R351: a faulted entry whose context no longer runs the task that dispatched it goes to the fault record and is freed. -/
def recordEntry (s : State) (k q : Nat) : State :=
  let e := (s.getCore k).entry q
  let s := recordFault s (s.getCore k).gang e.cause (4 * k + e.ctx.val) e.pc e.infoA e.infoB
  s.setCore k { s.getCore k with ring := mset (q % 64) { e with state := 0 } (s.getCore k).ring }

/-- R206: a form faults: its entry keeps the cause, and the register it made empty is full again. -/
def faultEntry (s : State) (key q : Nat) (pass cause : Nat) (a b : Word) : State :=
  let k := key / 4
  let c := s.getCore k
  let e := c.entry q
  let s := if e.orphan then s else refill s key e
  let s := s.setCore k { s.getCore k with
    ring := mset (q % 64) { e with state := 3, pass := pass, cause := cause, infoA := a, infoB := b, taken := false } c.ring
    seq := c.seq.filter (fun x => x != q) }
  passClaim (if e.orphan || !(s.getCtx key).live then recordEntry s k q else s) k

/-! ### Effects of one pass (R204, R213 to R224) -/

/-- What one pass of a form does. -/
inductive Perf where
  /-- It is done: the state, the s result and the flags. -/
  | ok (s : State) (res : Option Word) (fl : Flg)
  /-- It faults; the state holds the elements performed before (R206, R221). -/
  | fault (s : State) (cause : Nat) (a b : Word)
  /-- It cannot be performed yet, or consumes poison. -/
  | stop (e : Stop)

/-- The registers a form reads, and what becomes of those it writes: both forms of a pair read those before it (R56). -/
def mergeV (before after now : Vector Line 32) : Vector Line 32 :=
  (List.range 32).foldl (fun v r => if Vec.reg after r = Vec.reg before r then v else Vec.setReg v r (Vec.reg after r)) now

/-- R198, R204: what a form captured, in one pass. -/
def capOf (e : RingEntry) (shift : Nat) : Vec.Cap :=
  ⟨Vec.Shape.ofWord e.vshc.toNat, Rm.ofCode e.rm.toNat, e.opa, e.opb, e.opc, shift⟩

/-- R221: the addresses of the elements. -/
def elemAddrs (c : Vec.Cap) (t : Ty) (sh : Fin 16) (v : Vector Line 32) (b : Fin 32) : List Word :=
  let n := c.sh.n t.bits
  (List.range (c.sh.rows * n)).map (fun k =>
    c.a + (Bits.word (Bits.sx t.bits (Vec.getE t.bits n v (c.at b) k)) <<< sh.val))

/-- R221: cause 0x21 of an element: the cause of its access, its address and its number. -/
def elemFault (s : State) (cause : Nat) (ea : Word) (k : Nat) : Perf := .fault s 0x21 ea (BitVec.ofNat 64 (cause + 256 * k))

/-- R221, R123: checks every element address before any element is accessed. -/
def checkElems (m : Mode) (w : Nat) : State → List Word → Nat → Except Perf (State × List Nat)
  | s, [], _ => .ok (s, [])
  | s, ea :: rest, k =>
    match checkEA s ea w (if m = .write then .write else .read) with
    | .error (.trap t) => .error (elemFault s t.cause ea k)
    | .error (.after s t) => .error (elemFault s t.cause ea k)
    | .error (.wait s) => .error (.stop (.wait s))
    | .ok (s, pa) =>
      if paReg pa = 2 then .error (elemFault s 0x1A ea k)
      else if m = .read && coveredByKept s.gang pa w then .error (elemFault s 0x19 ea k)
      else
        match checkElems m w s rest (k + 1) with
        | .error e => .error e
        | .ok (s, ps) => .ok (s, pa :: ps)

/-- R221, R122, R150, R183, R357: accesses the elements in order until one is refused: the state, the answers, and which was refused. Each is
a step and a message of its own; `data` is what element k stores. -/
def eachElem (kind : Nat) (m : Mode) (data : Nat → List Byte) (f : State → Nat → Nat → State × (Option Word × List Line)) :
    State → List Nat → Nat → Res (State × List (Option Word × List Line) × Option Nat)
  | s, [], _ => .ok (s, [], none)
  | s, pa :: rest, k =>
    if (repeated s).isNone && !targetAllows s s.coreKey s.gangId s.gang.asid pa (m = .read) (m = .write) then .ok (s, [], some k)
    else
      let s := if m = .read && (repeated s).isNone then homeRead s .ctx pa else s
      if (repeated s).isNone && poisoned s pa then consume s pa
      else
        match exchangeAt s kind pa (data k) (fun s => f s pa k) with
        | .error e => .error e
        | .ok (s, a) =>
          match eachElem kind m data f s rest (k + 1) with
          | .error e => .error e
          | .ok (s, as, r) => .ok (s, a :: as, r)

/-- R221: VGATH when `load`, else VSCAT, in one pass. -/
def gather (s : State) (c : Vec.Cap) (t : Ty) (sh : Fin 16) (d b : Fin 32) (load : Bool) : Perf :=
  let w := t.bits
  let n := c.sh.n w
  let v := s.view.v
  let eas := elemAddrs c t sh v b
  let m : Mode := if load then .read else .write
  let data (k : Nat) : List Byte := if load then [] else Bits.bytesLE (w / 8) (Vec.getE w n v (c.at d) k)
  match checkElems m (w / 8) s eas 0 with
  | .error p => p
  | .ok (s, pas) =>
    match (pas.drop (s.ctx.sent.length - s.grp.msg)).findSome? (fun pa => overlapping s.core pa (w / 8)) with
    | some e => .stop (.wait (s.upd (fun x => { x with wait := some (.overlap e.chain e.seq) })))
    | none =>
      match eachElem (if load then 17 else 18) m data (fun s pa k =>
          if load then
            let r := loadBytes s pa (w / 8)
            (r.1, (none, [BitVec.ofNat 512 (Bits.ofBytesLE r.2.1)]))
          else (storeAt s pa (data k), (none, []))) s pas 0 with
      | .error e => .stop e
      | .ok (s, as, refused) =>
        let s := if load then s.upd (fun x => { x with v := as.zipIdx.foldl (fun v y =>
            Vec.setE w n v (c.at d) y.2 ((y.1.2.headD 0).toNat % 2 ^ w)) x.v }) else s
        match refused with
        | none => .ok s none 0
        | some k => elemFault s 0x12 (eas.getD k 0) k

/-- One pass of a vector form by the acting context, given its ring entry. -/
def performVec (s : State) (i : Instr) (e : RingEntry) (shift : Nat) : Perf :=
  let c := capOf e shift
  match i with
  | .vgath _ t sh d _ b => gather s c t sh d b true
  | .vscat _ t sh d _ b => gather s c t sh d b false
  | i =>
    let o := Vec.run i c s.view.v
    .ok (s.upd (fun x => { x with v := mergeV s.view.v o.v x.v })) o.res o.fl

/-- The s register that a vector form writes. -/
def vecDest (i : Instr) : Option (Fin 32) :=
  match i with
  | .vext _ _ d _ _ => some d
  | .vred _ _ _ _ (.s d) _ _ => some d
  | _ => none

/-- R206, R198: enters a form that has been performed, or has faulted, in the ring; its s destination is empty. -/
def enterPerformed (i : Instr) (q : Nat) (e : RingEntry) (p : Perf) : Res State :=
  match p with
  | .stop x => .error x
  | .fault s cause a b => .ok (faultEntry (enterRing s q e) s.cur q 0 cause a b)
  | .ok s res fl =>
    let e := { e with flags := fl, dest := vecDest i, result := res.getD 0 }
    let s := match vecDest i with
      | some d => s.upd (fun c => c.setEmpty d)
      | none => s
    .ok ((enterRing s q e).updCore (fun c => { c with seq := c.seq ++ [q] }))

/-- R204: a form issued while a capture is open: it takes its entries and waits for the capture to close, which its last form
does. -/
def captureForm (s : State) (i : Instr) (cap : Capture) (q : Nat) (e : RingEntry) : State :=
  let s := match vecDest i with
    | some d => s.upd (fun c => c.setEmpty d)
    | none => s
  let s := (enterRing s q { e with dest := vecDest i }).updCore (fun c => { c with seq := c.seq ++ [q] })
  let s := s.upd (fun c => { c with capture := some { cap with forms := cap.forms ++ [q] } })
  if cap.rep / 256 % 16 ≤ cap.forms.length then
    { s with agenda := s.agenda ++ [.event ⟨s.coreKey, .vrepPass s.coreKey s.ctxNo⟩] }
  else s

/-- R198, R204, R205: dispatches a vector form of the acting context. -/
def dispatchVec (s : State) (i : Instr) : Res State := do
  let q ← ringSlot s i
  let _ ← seqFree s i
  let e := entryFor s i q
  match s.ctx.capture with
  | some cap => return captureForm s i cap q e
  | none => enterPerformed i q e (performVec s i e 0)

/-- A vector form: its checks at decode (R202, R204, R218, R220), then its dispatch under its guard. -/
def vecForm (s : State) (i : Instr) (g : Guard) : Out := guardedShape s i g (dispatchVec s i)

/-! ### The forms -/

/-- VSHAPE (R201, R213): writes VSH, or raises 0x22. -/
def execVshape (g : Guard) (src : VshSrc) (s : State) : Out :=
  let i : Instr := .vshape g src
  let v : Word := match src with
    | .imm v => v.zeroExtend 64
    | .reg n => s.rs n
  guarded s i g (
    if !Vec.legalVsh v.toNat then raise 0x22 v (slotInfo s i).2
    else do
      let _ ← seqFree s i
      let s ← dispatchNow s i
      return s.upd (fun c => { c with vsh := v }))

/-- VREP (R204): opens a capture. -/
def execVrep (g : Guard) (count : BitVec 8) (span : BitVec 4) (stride : BitVec 3) (s : State) : Out :=
  let i : Instr := .vrep g count span stride
  guarded s i g (do
    let _ ← seqFree s i
    let s ← dispatchNow s i
    return s.upd (fun c => { c with
      capture := some ⟨s.grp.first, count.toNat + 256 * span.toNat + 4096 * stride.toNat, []⟩ }))

/-- VMOV (R213). -/
def execVmov (g : Guard) (d a : Fin 32) (s : State) : Out := vecForm s (.vmov g d a) g

/-- VBCAST (R213). -/
def execVbcast (g : Guard) (t : Ty) (d : Fin 32) (a b : Opnd) (s : State) : Out :=
  vecForm s (.vbcast g t d a b) g

/-- VEXT (R213). -/
def execVext (g : Guard) (t : Ty) (d a : Fin 32) (b : Opnd) (s : State) : Out := vecForm s (.vext g t d a b) g

/-- VINS (R213). -/
def execVins (g : Guard) (t : Ty) (d : Fin 32) (a b : Opnd) (s : State) : Out := vecForm s (.vins g t d a b) g

/-- VADD (R214). -/
def execVadd (g : Guard) (t : Ty) (rc : Rc) (sat : Bool) (d a : Fin 32) (b : Opnd) (s : State) : Out :=
  vecForm s (.vadd g t rc sat d a b) g

/-- VSUB (R214). -/
def execVsub (g : Guard) (t : Ty) (rc : Rc) (sat : Bool) (d a : Fin 32) (b : Opnd) (s : State) : Out :=
  vecForm s (.vsub g t rc sat d a b) g

/-- VMUL (R214). -/
def execVmul (g : Guard) (t : Ty) (rc : Rc) (sat : Bool) (d a : Fin 32) (b : Opnd) (s : State) : Out :=
  vecForm s (.vmul g t rc sat d a b) g

/-- VFMA (R214). -/
def execVfma (g : Guard) (t : Ty) (rc : Rc) (sat : Bool) (d a : Fin 32) (b c : Opnd) (s : State) : Out :=
  vecForm s (.vfma g t rc sat d a b c) g

/-- VFMS (R214). -/
def execVfms (g : Guard) (t : Ty) (rc : Rc) (sat : Bool) (d a : Fin 32) (b c : Opnd) (s : State) : Out :=
  vecForm s (.vfms g t rc sat d a b c) g

/-- VFNMA (R214). -/
def execVfnma (g : Guard) (t : Ty) (rc : Rc) (sat : Bool) (d a : Fin 32) (b c : Opnd) (s : State) : Out :=
  vecForm s (.vfnma g t rc sat d a b c) g

/-- VDIV (R214). -/
def execVdiv (g : Guard) (t : Ty) (rc : Rc) (d a : Fin 32) (b : Opnd) (s : State) : Out :=
  vecForm s (.vdiv g t rc d a b) g

/-- VSQRT (R214). -/
def execVsqrt (g : Guard) (t : Ty) (rc : Rc) (d a : Fin 32) (s : State) : Out := vecForm s (.vsqrt g t rc d a) g

/-- VMIN (R215). -/
def execVmin (g : Guard) (t : Ty) (d a : Fin 32) (b : Opnd) (s : State) : Out :=
  vecForm s (.vmin g t d a b) g

/-- VMAX (R215). -/
def execVmax (g : Guard) (t : Ty) (d a : Fin 32) (b : Opnd) (s : State) : Out :=
  vecForm s (.vmax g t d a b) g

/-- VABS (R215). -/
def execVabs (g : Guard) (t : Ty) (sat : Bool) (d a : Fin 32) (s : State) : Out := vecForm s (.vabs g t sat d a) g

/-- VNEG (R215). -/
def execVneg (g : Guard) (t : Ty) (sat : Bool) (d a : Fin 32) (s : State) : Out := vecForm s (.vneg g t sat d a) g

/-- VCMP (R216). -/
def execVcmp (g : Guard) (t : Ty) (cc : Cond) (tot : Bool) (d a : Fin 32) (b : Opnd) (s : State) : Out :=
  vecForm s (.vcmp g t cc tot d a b) g

/-- VSEL (R216). -/
def execVsel (g : Guard) (t : Ty) (d : Fin 32) (a b : Opnd) (c : Fin 32) (s : State) : Out :=
  vecForm s (.vsel g t d a b c) g

/-- VAND (R216). -/
def execVand (g : Guard) (t : Ty) (d a : Fin 32) (b : Opnd) (s : State) : Out :=
  vecForm s (.vand g t d a b) g

/-- VOR (R216). -/
def execVor (g : Guard) (t : Ty) (d a : Fin 32) (b : Opnd) (s : State) : Out :=
  vecForm s (.vor g t d a b) g

/-- VXOR (R216). -/
def execVxor (g : Guard) (t : Ty) (d a : Fin 32) (b : Opnd) (s : State) : Out :=
  vecForm s (.vxor g t d a b) g

/-- VSHL (R216). -/
def execVshl (g : Guard) (t : Ty) (d a : Fin 32) (b : Opnd) (s : State) : Out :=
  vecForm s (.vshl g t d a b) g

/-- VSHR (R216). -/
def execVshr (g : Guard) (t : Ty) (d a : Fin 32) (b : Opnd) (s : State) : Out :=
  vecForm s (.vshr g t d a b) g

/-- VSHA (R216). -/
def execVsha (g : Guard) (t : Ty) (d a : Fin 32) (b : Opnd) (s : State) : Out :=
  vecForm s (.vsha g t d a b) g

/-- VCVT (R217). -/
def execVcvt (g : Guard) (t : Ty) (rc : Rc) (sat : Bool) (d a : Fin 32) (src : Ty) (s : State) : Out :=
  vecForm s (.vcvt g t rc sat d a src) g

/-- VPACK (R218). -/
def execVpack (g : Guard) (d a : Fin 32) (src : Ty) (s : State) : Out :=
  vecForm s (.vpack g d a src) g

/-- VUNPK (R218). -/
def execVunpk (g : Guard) (t : Ty) (rc : Rc) (d a : Fin 32) (s : State) : Out :=
  vecForm s (.vunpk g t rc d a) g

/-- VRED (R219). -/
def execVred (g : Guard) (t : Ty) (rc : Rc) (sat : Bool) (d : Opnd) (a : Fin 32) (fn : RedFn) (s : State) : Out :=
  vecForm s (.vred g t rc sat d a fn) g

/-- VSCAN (R219). -/
def execVscan (g : Guard) (t : Ty) (rc : Rc) (sat : Bool) (d a : Fin 32) (fn : RedFn) (s : State) : Out :=
  vecForm s (.vscan g t rc sat d a fn) g

/-- VPERM (R220). -/
def execVperm (g : Guard) (t : Ty) (d a b : Fin 32) (s : State) : Out := vecForm s (.vperm g t d a b) g

/-- VSLIDE (R220). -/
def execVslide (g : Guard) (t : Ty) (d a : Fin 32) (b : Opnd) (c : Option (Fin 32)) (s : State) : Out :=
  vecForm s (.vslide g t d a b c) g

/-- VGATH (R221). -/
def execVgath (g : Guard) (t : Ty) (sh : Fin 16) (d a b : Fin 32) (s : State) : Out :=
  vecForm s (.vgath g t sh d a b) g

/-- VSCAT (R221). -/
def execVscat (g : Guard) (t : Ty) (sh : Fin 16) (d a b : Fin 32) (s : State) : Out :=
  vecForm s (.vscat g t sh d a b) g

/-- VSF (R222). -/
def execVsf (g : Guard) (t : Ty) (rc : Rc) (d a : Fin 32) (fn : SfFn) (s : State) : Out :=
  vecForm s (.vsf g t rc d a fn) g

/-- VMACW (R223). -/
def execVmacw (g : Guard) (t : Ty) (rc : Rc) (sat : Bool) (d a : Fin 32) (b : Opnd) (s : State) : Out :=
  vecForm s (.vmacw g t rc sat d a b) g

/-- VADDW (R223). -/
def execVaddw (g : Guard) (t : Ty) (rc : Rc) (sat : Bool) (d a : Fin 32) (b : Opnd) (s : State) : Out :=
  vecForm s (.vaddw g t rc sat d a b) g

/-- VCLASS (R215). -/
def execVclass (g : Guard) (t : Ty) (d a : Fin 32) (s : State) : Out := vecForm s (.vclass g t d a) g

/-- VROUND (R215). -/
def execVround (g : Guard) (t : Ty) (rc : Rc) (exact : Bool) (d a : Fin 32) (s : State) : Out :=
  vecForm s (.vround g t rc exact d a) g

/-- VTRN (R220): its destination is a group of n registers, at most 8. -/
def execVtrn (g : Guard) (t : Ty) (d a : Fin 32) (s : State) : Out :=
  vecForm s (.vtrn g t d a) g

/-- VDOT (R224). -/
def execVdot (g : Guard) (t : Ty) (rc : Rc) (d a b : Fin 32) (c : Option (Fin 32)) (s : State) : Out :=
  vecForm s (.vdot g t rc d a b c) g

/-! ### The steps of the sequencer, the wide unit and the special-function queue -/

/-- R205: the form of a ring entry. -/
def ringInstr (e : RingEntry) : Instr :=
  match decode true true e.insn with
  | .ok i => i
  | .error _ => .nop

/-- R204: what a repetition still has to do: the pass, the form's TSEQ and its shift. -/
def passList (cap : Capture) : List (Nat × Nat × Nat) :=
  (List.range (cap.rep % 256 + 1)).flatMap (fun p => cap.forms.map (fun q => (p, q, p * (cap.rep / 4096 % 8))))

/-- R204: frees the entries of the captured forms `qs` after a fault of another; what those in `done` have performed stands. -/
def freeForms (s : State) (key : Nat) (done qs : List Nat) : State :=
  qs.foldl (fun s q =>
    if done.contains q then completeEntry s (key / 4) q
    else
      let s := refill s key ((s.getCore (key / 4)).entry q)
      let c := s.getCore (key / 4)
      s.setCore (key / 4) { c with
        ring := mset (q % 64) { c.entry q with state := 0 } c.ring, seq := c.seq.filter (fun x => x != q) }) s

/-- R204: a fault of form q in pass p of the acting context's repetition. -/
def faultPass (s : State) (cap : Capture) (p q cause : Nat) (a b : Word) : State :=
  let done := if p = 0 then cap.forms.takeWhile (fun x => x != q) else cap.forms
  freeForms (faultEntry s s.cur q p cause a b) s.cur done (cap.forms.filter (fun x => x != q))

/-- R204: the passes of the acting context's repetition, in order; a fault ends it. Where an element must wait, the state that it waits
in. -/
def runPasses (cap : Capture) : State → List (Nat × Nat × Nat) → Except State State
  | s, [] => .ok s
  | s, (p, q, shift) :: rest =>
    let e := s.core.entry q
    match performVec s (ringInstr e) e shift with
    | .stop (.wait t) => if t.gang.consumed.isSome then .ok t else .error t
    | .stop _ => .error s
    | .fault s cause a b => .ok (faultPass s cap p q cause a b)
    | .ok s res fl =>
      let s := s.updCore (fun c => { c with
        ring := mset (q % 64) { e with flags := e.flags ||| fl, result := res.getD e.result } c.ring })
      runPasses cap s rest

/-- VREP_PASS (R204): a capture that has all its forms closes, and the sequencer runs its passes. -/
def execVrepPass (k : Nat) (c : Fin 4) (s : State) : Out :=
  let key := 4 * k + c.val
  match (s.getCtx key).capture with
  | none => .next s
  | some cap =>
    if cap.forms.length ≤ cap.rep / 256 % 16 then .next s
    else
      let t := { s with cur := key, grp := Group.idle }
      match runPasses cap t (passList cap) with
      | .error r =>
        if r.ctx.wait = some .message || r.ctx.wait = some .paused then
          .next { (r.updCore (fun k => { k with ring := (s.getCore (key / 4)).ring })).upd (fun x =>
              { s.getCtx key with sent := x.sent, pts := x.pts }) with
            cur := s.cur, grp := s.grp }
        else .next s
      | .ok t => .next { t.upd (fun x => { x with capture := none, sent := [] }) with cur := s.cur, grp := s.grp }

/-- WIDE_UNIT_START (R199): the wide unit of the subject quad starts the oldest ready form of the next core in rotation; a VSF goes
into the special-function queue. Cores in a phase are served by their phase cycles. -/
def execWideUnitStart (s : State) : Out :=
  let q := s.subject
  let quad := s.getQuad q
  match nextColumn s q none (fun k => (s.getCore k).phase.isNone) with
  | none => .next s
  | some (k, t) =>
    let c := s.getCore k
    let e := c.entry t
    let sf := e.insn.toNat / 2 ^ 88 = 0x93
    let s := s.setCore k { c with
      seq := c.seq.filter (fun x => x != t), ring := mset (t % 64) { e with stage := if sf then 2 else 1 } c.ring }
    .next (s.setQuad q { quad with last := ⟨k % 4, Nat.mod_lt _ (by decide)⟩, vsfq := if sf then quad.vsfq ++ [(k, t)] else quad.vsfq })

/-- DISPATCHED_COMPLETE (R198, R205): a form that the wide unit or the array has started completes, after those whose v registers it uses. In a
phase those that the phase's cycles have started complete with them. -/
def execDispatchedComplete (k : Nat) (tseq : Nat) (s : State) : Out :=
  let c := s.getCore k
  let e := c.entry tseq
  if e.state = 1 && e.stage = 1 && e.tseq = tseq && !waitsFor c tseq &&
      !c.phase.any (fun p => (p.due ++ p.arrayDue).any (fun x => x.1 = tseq)) then .next (passClaim (completeEntry s k tseq) k)
  else .next s

/-- VSF_QUEUE_EXIT (R207): the oldest request of the subject quad's special-function queue leaves it. -/
def execVsfQueueExit (s : State) : Out :=
  let quad := s.getQuad s.subject
  match quad.vsfq with
  | [] => .next s
  | (k, q) :: rest => .next (completeEntry (s.setQuad s.subject { quad with vsfq := rest }) k q)

/-- R81: whether a vector form of a context is in flight. -/
def vecBusy (c : Core) (ctx : Nat) : Bool :=
  c.ring.any (fun e => e.2.state == 1 && e.2.ctx.val == ctx && 0x70 ≤ e.2.insn.toNat / 2 ^ 88 && e.2.insn.toNat / 2 ^ 88 ≤ 0x99)

end Sys2Proof.Machine
end

