-- ==== Sys2Proof/Machine/Tensors.lean ====
section
/-! DEFINITION. The tensor table (R299) and the accesses that a tile transfer makes (R242, R261). -/
namespace Sys2Proof.Machine
open Num

/-- R299: an entry of the tensor table. -/
structure Tensor where
  base : Word
  rows : Nat
  cols : Nat
  ty : Nat
  w : Nat
  layout : Bool
  scale : Int
  stride : Nat
  version : Nat
  /-- The 32 bytes as a number. -/
  word : Nat
deriving DecidableEq, Repr

/-- R299: the fields of an entry's 32 bytes. -/
def Tensor.ofNat (x : Nat) : Tensor :=
  ⟨BitVec.ofNat 64 (Bits.fld x 63 0), Bits.fld x 87 64, Bits.fld x 111 88, Bits.fld x 115 112, Bits.fld x 118 116 + 2,
    Bits.bit x 119, Bits.sx 8 (Bits.fld x 127 120), Bits.fld x 167 128, Bits.fld x 223 192, x % 2 ^ 256⟩

/-- R299: the entry's address. -/
def tensorAddr (tensors : Word) (tid : Nat) : Word := tensors + BitVec.ofNat 64 (32 * tid)

/-- R301: the address of a head word. -/
def headAddr (tensors : Word) (tid : Nat) : Word := tensors + 0x20000 + BitVec.ofNat 64 (8 * tid)

/-- The bytes of one step, within one line: address, physical address and length, and a second run of `more` bytes that follows after
`gap` bytes, where a row has one there (R242). -/
structure Piece where
  ea : Word
  pa : Nat
  len : Nat
  gap : Nat
  more : Nat
deriving DecidableEq, Repr

/-- Cuts a run of bytes at the lines it crosses (R242); `fuel` bounds the number of pieces. -/
def cutLines : Nat → Word → Nat → List (Word × Nat)
  | 0, _, _ => []
  | fuel + 1, a, n =>
    if n = 0 then []
    else
      let m := min n (64 - a.toNat % 64)
      (a, m) :: cutLines fuel (a + BitVec.ofNat 64 m) (n - m)

/-- R242, R261: a cause of a transfer at an address, with what underlies it. -/
def pieceFault (s : State) (cause under : Nat) (ea : Word) : Perf := .fault s cause ea (BitVec.ofNat 64 under)

/-- R242, R261: the pieces of the segments of a transfer, each checked by R123; a failure raises `cause` at its address. -/
def checkPieces (cause : Nat) (m : Mode) (align : Nat) : State → List (Word × Nat) → Except Perf (State × List Piece)
  | s, [] => .ok (s, [])
  | s, (ea, n) :: rest =>
    match checkEA s ea align (if m = .write then .write else .read) with
    | .error (.trap t) => .error (pieceFault s cause t.cause ea)
    | .error (.after s t) => .error (pieceFault s cause t.cause ea)
    | .error (.wait s) => .error (.stop (.wait s))
    | .ok (s, pa) =>
      if paReg pa = 2 then .error (pieceFault s cause 0x1A ea)
      else if m = .read && coveredByKept s.gang pa n then .error (pieceFault s cause 0x19 ea)
      else
        match checkPieces cause m align s rest with
        | .error e => .error e
        | .ok (s, ps) => .ok (s, ⟨ea, pa, n, 0, 0⟩ :: ps)

/-- R242: the runs of one row that lie in one 64-byte line take one step. -/
def joinRuns (ps : List Piece) : List Piece :=
  ps.foldr (fun p acc => match acc with
    | [] => [p]
    | q :: rest =>
      if q.pa / 64 ≠ p.pa / 64 || q.pa < p.pa + p.len then p :: acc
      else if q.pa = p.pa + p.len then { q with ea := p.ea, pa := p.pa, len := p.len + q.len } :: rest
      else { p with gap := q.pa - (p.pa + p.len), more := q.len } :: rest) []

/-- R158: the command whose destination a piece overlaps. -/
def pieceOverlap (s : State) (p : Piece) : Option SbEntry :=
  (overlapping s.core p.pa p.len) <|> (if p.more = 0 then none else overlapping s.core (p.pa + p.len + p.gap) p.more)

/-- R158, R357: no piece overlaps a command's destination or touches a poisoned line. A transfer that is taken up again has been through
this. -/
def piecesReady (m : Mode) : State → List Piece → Res State
  | s, [] => .ok s
  | s, p :: rest =>
    if (replayed s).isSome then .ok s
    else match pieceOverlap s p with
    | some e => stall s (.overlap e.chain e.seq)
    | none =>
      let s := if m = .read then homeRead s .ctx p.pa else s
      if poisoned s p.pa && (m = .read || p.len < 64) then consume s p.pa else piecesReady m s rest

/-- R149, R242, R261: the step of one piece, taken now, or gone over where the transfer is taken up again; a refusal by an access table
raises `cause`. -/
def pieceOnce (s : State) (cause : Nat) (p : Piece) (rd wr : Bool) (act : State → State × List Byte) : Except Perf (State × List Byte) :=
  match replayed s with
  | some (.done bs) => .ok (goOver s, bs)
  | some (.failed ..) => .ok (goOver s, [])
  | none =>
    if spentOut s then .error (.stop (.wait (s.upd (fun c => { c with wait := some .paused }))))
    else if !targetAllows s s.coreKey s.gangId s.gang.asid p.pa rd wr then .error (pieceFault s cause 0x12 p.ea)
    else
      match pieceOverlap s p with
      | some e => .error (.stop (.wait (s.upd (fun c => { c with wait := some (.overlap e.chain e.seq) }))))
      | none =>
        let r := act (spend s)
        .ok (noteSeen r.1 (.done r.2), r.2)

/-- R242: reads the pieces in order. -/
def readPieces (cause : Nat) : State → List Piece → List Byte → Except Perf (State × List Byte)
  | s, [], acc => .ok (s, acc)
  | s, p :: rest, acc =>
    match pieceOnce s cause p true false (fun s => let r := loadBytes s p.pa (p.len + p.gap + p.more); (r.1, r.2.1)) with
    | .error e => .error e
    | .ok (s, bs) => readPieces cause s rest (acc ++ bs.take p.len ++ bs.drop (p.len + p.gap))

/-- R242: the store step of a piece. -/
def storePiece (s : State) (p : Piece) (bs : List Byte) : State :=
  let t := storeAt s p.pa (bs.take p.len)
  let more := (bs.drop p.len).take p.more
  if p.more = 0 then t
  else if s.gangId ≠ 0 && leavesGang s.gang p.pa then
    t.updGang (fun g => { g with kept := g.kept ++ [⟨p.pa + p.len + p.gap, more, s.cur, none⟩] })
  else putBytes t t.gangId (p.pa + p.len + p.gap) more

/-- R242: writes the pieces in order. -/
def writePieces (cause : Nat) : State → List Piece → List Byte → Except Perf State
  | s, [], _ => .ok s
  | s, p :: rest, bs =>
    match pieceOnce s cause p false true (fun s => (storePiece s p bs, [])) with
    | .error e => .error e
    | .ok (s, _) => writePieces cause s rest (bs.drop (p.len + p.more))

/-- R242, R83: the byte segments of a block of a tensor: rows r0 to r0 + nr − 1, columns c0 to c0 + nc − 1, by rows. -/
def blockSegments (t : Tensor) (r0 c0 nr nc : Nat) : List (List (Word × Nat)) :=
  (List.range nr).map (fun i =>
    let row := t.base + BitVec.ofNat 64 ((r0 + i) * t.stride)
    if t.ty = 14 then
      [(row + BitVec.ofNat 64 (c0 / 16 * (2 * t.w)), nc / 16 * (2 * t.w)),
        (row + BitVec.ofNat 64 (t.cols / 16 * (2 * t.w) + c0 / 16), nc / 16)]
    else
      let b := (Ty.ofCode (BitVec.ofNat 4 t.ty)).bits / 8
      [(row + BitVec.ofNat 64 (c0 * b), nc * b)])

/-- R123, R242: the alignment of the accesses to a tensor's elements. -/
def Tensor.align (t : Tensor) : Nat := if t.ty = 14 then 1 else (Ty.ofCode (BitVec.ofNat 4 t.ty)).bits / 8

end Sys2Proof.Machine
end

