-- ==== Sys2Proof/Machine/Chains.lean ====
section
/-! DEFINITION. Chains: the accesses of engines (R156, R284, R357), the beginning and the completion of a command (R284, R292),
the fence entries (R159), the range scoreboard (R294) and the engine forms (R295, R296). -/
namespace Sys2Proof.Machine

/-! ### Chain state -/

def State.getChain (s : State) (k : Nat) (ch : Fin 8) : Chain := (s.getCore k).chains[ch]
def State.setChain (s : State) (k : Nat) (ch : Fin 8) (x : Chain) : State :=
  s.setCore k { s.getCore k with chains := (s.getCore k).chains.set ch x }

/-- A doubleword of a record. -/
def dw (body : List Word) (n : Nat) : Nat := (body.getD n 0).toNat

/-- The doublewords of a record's 64 bytes. -/
def wordsOf (bs : List Byte) : List Word := (List.range 8).map (fun n => BitVec.ofNat 64 (Bits.ofBytesLE ((bs.drop (8 * n)).take 8)))

/-- R280: the kinds a chain accepts. -/
def kindOk (ch : Fin 8) (kind : Nat) : Bool :=
  kind = 6 ||
    (if ch.val ≤ 3 then kind = 1 || kind = 2 || kind = 5 || kind = 7 || kind = 8
     else if ch.val ≤ 5 then kind = 0x10 || kind = 0x11 || kind = 0x12
     else if ch.val = 6 then 0x20 ≤ kind && kind ≤ 0x24
     else kind = 3 || kind = 4)

/-! ### Accesses of an engine (R156, R284, R357, R358) -/

/-- Why a command stops: the state with the accesses already performed, the cause, what underlies it, the address at which it
stopped, and the physical address of the poisoned line (R284, R290, R293). Cause 0 says that the step ends here and the command goes on in a
later one (log 3). -/
structure EngStop where
  s : State
  cause : Nat
  under : Nat
  va : Word
  poison : Nat

abbrev Eng (α : Type) := Except EngStop α

/-- R280, R358: which reader the engine of a chain is. -/
def readerOf (ch : Fin 8) : Reader :=
  if ch.val = 4 || ch.val = 5 then .update else if ch.val = 6 then .other else .channel

/-- R149, R156: a part of a command's work that is done once: done now, or gone over where the command is taken up again. -/
def engOnce (s : State) (act : State → Eng (State × List Byte)) : Eng (State × List Byte) :=
  match replayed s with
  | some (.done bs) => .ok (goOver s, bs)
  | some (.failed cause under va poison) => .error ⟨goOver s, cause, under, va, poison⟩
  | none =>
    if spentOut s then .error ⟨s, 0, 0, 0, 0⟩
    else
      match act s with
      | .ok (s, bs) => .ok (noteSeen s (.done bs), bs)
      | .error e => .error { e with s := noteSeen e.s (.failed e.cause e.under e.va e.poison) }

/-- R289: accesses that are one atomic step. -/
def engAlone {α : Type} (s : State) (act : State → Eng (State × α)) : Eng (State × α) :=
  let back (t : State) : State := { t with steps := (spend s).steps, script := s.script }
  match act { s with steps := none, script := none } with
  | .ok (t, x) => .ok (back t, x)
  | .error e => .error { e with s := back e.s }

/-- A change that a command makes once, without an access. -/
def engDo (s : State) (f : State → State) : Eng State := (engOnce s (fun s => .ok (f s, []))).map (·.1)

/-- R151, R156, R357, R358: one load step of the engine of a chain, within one line. -/
def loadOf (s : State) (k : Nat) (ch : Fin 8) (va : Word) (pa n : Nat) : Eng (State × List Byte) :=
  let s := homeRead (spend s) (readerOf ch) pa
  if poisoned s pa then .error ⟨s, 0x56, 0, va, pa / 64 * 64⟩
  else
    let bs := s.mem.bytes pa n
    let r := loadHome s (pa / 64) (s.getChain k ch).ets
    .ok (r.1.setChain k ch { r.1.getChain k ch with ets := r.2 }, bs)

/-- R119: the walk for an access of the engine of a chain: each table entry is a load of the engine. -/
def engWalk (s : State) (k : Nat) (ch : Fin 8) (va : Word) : Eng (State × Except Nat (Nat × Nat)) :=
  if needsWalk s k (s.getCore k).gang va.toNat then
    walkBy (fun s a => (loadOf s k ch va a 8).map (fun r => (r.1, Bits.ofBytesLE r.2))) va.toNat (countWalk s k) 4 0 (s.getCore k).root.toNat
  else .ok (s, .error 0)

/-- R119, R284, R293: the address checks of an engine's access of `n` bytes, in the address space of the appending core's gang. -/
def engCheck (s : State) (k : Nat) (ch : Fin 8) (va : Word) (n align : Nat) (kind : Kind) : Eng (State × Nat) :=
  let g := (s.getCore k).gang
  let bad (s : State) (c : Nat) : Eng (State × Nat) := .error ⟨s, 0x54, c, va, 0⟩
  if (nearOff va.toNat).isNone && 2 ^ 57 ≤ va.toNat then bad s 0x14
  else if va.toNat % align ≠ 0 then bad s 0x13
  else
    match engWalk s k ch va with
    | .error e => .error e
    | .ok (s, found) =>
      match xlateWith s k g va.toNat kind found with
      | .error (c, _) => bad s c
      | .ok x =>
        let s := fillTlb s k x
        if paReg x.pa = 2 then bad s 0x1A
        else if kind = .read && coveredByKept (s.getGang g) x.pa n then bad s 0x19
        else if !targetAllows s k g (s.getGang g).asid x.pa (kind = .read) (kind = .write) then .error ⟨s, 0x55, 0, va, 0⟩
        else .ok (s, x.pa)

/-- The physical address of an engine's access, found once. -/
def engAddr (s : State) (k : Nat) (ch : Fin 8) (va : Word) (n align : Nat) (kind : Kind) : Eng (State × Nat) :=
  (engOnce s (fun s => (engCheck s k ch va n align kind).map (fun r => (r.1, Bits.bytesLE 8 r.2)))).map (fun r => (r.1, Bits.ofBytesLE r.2))

/-- R151, R156: one load of a command. -/
def engLoad (s : State) (k : Nat) (ch : Fin 8) (va : Word) (pa n : Nat) : Eng (State × List Byte) :=
  engOnce s (fun s => loadOf s k ch va pa n)

/-- R152, R156, R357: one store step of the engine of a chain at the home of a line; `writes` are its byte runs. -/
def homeStoreOf (s : State) (k : Nat) (ch : Fin 8) (pa : Nat) (writes : List (Nat × List Byte)) : State :=
  let l := pa / 64
  let whole := writes.any (fun w => w.2.length = 64)
  let s := if whole then s.setLine l { s.getLine l with poison := false } else s
  let r := storeHome s l (s.getChain k ch).ets
  let s := r.1.setChain k ch { r.1.getChain k ch with ets := r.2 }
  writes.foldl (fun s w => putBytes s (s.getCore k).gang (pa + w.1) w.2) s

/-- R156, R348: one store of the engine of a chain, within one line. A store that leaves the gang is kept until the next commit. -/
def storeOf (s : State) (k : Nat) (ch : Fin 8) (pa : Nat) (writes : List (Nat × List Byte)) : State :=
  let g := (s.getCore k).gang
  if leavesGang (s.getGang g) pa then
    s.setGang g { s.getGang g with kept := (s.getGang g).kept ++ writes.map (fun w => ⟨pa + w.1, w.2, 4 * k, some ch⟩) }
  else homeStoreOf s k ch pa writes

/-- R152, R156: one store of a command. -/
def engStore (s : State) (k : Nat) (ch : Fin 8) (pa : Nat) (writes : List (Nat × List Byte)) : Eng State :=
  engDo s (fun s => storeOf (spend s) k ch pa writes)

/-- R152, R156: one read-modify-write step of a command within one line: the byte runs that it writes come from the `n` bytes it reads. -/
def engUpdate (s : State) (k : Nat) (ch : Fin 8) (va : Word) (pa : Nat) (f : List Byte → List (Nat × List Byte)) (n : Nat) : Eng State :=
  (engOnce s (fun s =>
    let s := homeRead (spend s) (readerOf ch) pa
    if poisoned s pa then .error ⟨s, 0x56, 0, va, pa / 64 * 64⟩
    else .ok (homeStoreOf s k ch pa (f (s.mem.bytes pa n)), []))).map (·.1)

/-- Reads byte runs, each within one line, in order. -/
def engReads (k : Nat) (ch : Fin 8) (align : Nat) : State → List (Word × Nat) → List Byte → Eng (State × List Byte)
  | s, [], acc => .ok (s, acc)
  | s, (va, n) :: rest, acc => do
    let (s, pa) ← engAddr s k ch va n align .read
    let (s, bs) ← engLoad s k ch va pa n
    engReads k ch align s rest (acc ++ bs)

/-- The same, as far as it goes: the bytes read before a stop, and the stop. -/
def engReadsTo (k : Nat) (ch : Fin 8) : State → List (Word × Nat) → List Byte → State × List Byte × Option EngStop
  | s, [], acc => (s, acc, none)
  | s, (va, n) :: rest, acc =>
    match engReads k ch 1 s [(va, n)] [] with
    | .error e => (e.s, acc, some e)
    | .ok (s, bs) => engReadsTo k ch s rest (acc ++ bs)

/-- Writes byte runs, each within one line, in order. -/
def engWrites (k : Nat) (ch : Fin 8) (align : Nat) : State → List (Word × Nat) → List Byte → Eng State
  | s, [], _ => .ok s
  | s, (va, n) :: rest, bs =>
    match engAddr s k ch va n align .write with
    | .error e => .error e
    | .ok (s, pa) =>
      match engStore s k ch pa [(0, bs.take n)] with
      | .error e => .error e
      | .ok s => engWrites k ch align s rest (bs.drop n)

/-- The byte runs of a range, cut at its lines. -/
def runs (va : Word) (n : Nat) : List (Word × Nat) := cutLines (n / 64 + 2) va n

/-- Reads `n` bytes line by line. -/
def engRead (s : State) (k : Nat) (ch : Fin 8) (va : Word) (n align : Nat) : Eng (State × List Byte) :=
  if va.toNat % align ≠ 0 && ((nearOff va.toNat).isSome || va.toNat < 2 ^ 57) then .error ⟨s, 0x54, 0x13, va, 0⟩
  else engReads k ch 1 s (runs va n) []

/-- Writes bytes line by line. -/
def engWrite (s : State) (k : Nat) (ch : Fin 8) (va : Word) (bs : List Byte) : Eng State := engWrites k ch 1 s (runs va bs.length) bs

/-- A step that ends here, its command to go on later. -/
def EngStop.paused (e : EngStop) : Bool := e.cause == 0

/-- R284, R285, R357: moves the bytes of some runs to others; where a read stops, the bytes before it have been moved. -/
def engMove (s : State) (k : Nat) (ch : Fin 8) (src dst : List (Word × Nat)) : Eng State :=
  match engReadsTo k ch s src [] with
  | (s, bs, stop) =>
    if stop.any EngStop.paused then .error ⟨s, 0, 0, 0, 0⟩
    else match engWrites k ch 1 s (dst.foldl (fun (acc : List (Word × Nat) × Nat) x =>
        if acc.2 = 0 then acc else (acc.1 ++ [(x.1, min x.2 acc.2)], acc.2 - min x.2 acc.2)) ([], bs.length)).1 bs with
    | .error e => .error e
    | .ok s => match stop with
      | none => .ok s
      | some e => .error { e with s := s }

/-! ### Completion (R156, R158, R284, R292, R359) -/

/-- The appending context, sequence number and address of a command. -/
def itemCtx : ChainItem → Fin 4
  | .record _ _ c _ => c
  | .promise _ _ _ _ _ c _ => c
  | .fence _ => 0
def itemSeq : ChainItem → Nat
  | .record _ q _ _ => q
  | .promise _ _ _ _ q _ _ => q
  | .fence _ => 0
def itemAddr : ChainItem → Word
  | .record a _ _ _ => a
  | .promise _ a _ _ _ _ _ => a
  | .fence _ => 0
def itemStamp : ChainItem → Nat
  | .record _ _ _ t => t
  | .promise _ _ _ _ _ _ t => t
  | .fence _ => 0

/-- A fence entry. -/
def isFence : ChainItem → Bool
  | .fence _ => true
  | _ => false

/-- R283, R304: QUIET of a command. -/
def itemQuiet (r : Running) : Bool :=
  match r.item with
  | .promise i .. =>
    match i with
    | .tdef _ _ q _ _ _ => q
    | .pissue _ _ q _ _ _ => q
    | .predeem _ _ _ q _ _ => q
    | .pexpire _ _ q _ _ => q
    | _ => false
  | _ => Bits.bit (dw r.body 0) 8

/-- R281: HEAD and TAIL of what is left in a chain. -/
def relink (c : Chain) (fifo : List ChainItem) : Chain :=
  { c with fifo := fifo, head := ((fifo.find? (fun x => !isFence x)).map itemAddr).getD 0
           tail := if fifo.any (fun x => !isFence x) then c.tail else 0 }

/-- R292: the fault word after an error completion. -/
def faultWord (old : Word) (seq cause : Nat) : Word :=
  let n := Bits.fld old.toNat 31 16
  if n = 0 then BitVec.ofNat 64 (seq % 2 ^ 32 * 2 ^ 32 + 2 ^ 16 + cause)
  else BitVec.ofNat 64 (old.toNat / 2 ^ 32 * 2 ^ 32 + min 65535 (n + 1) * 2 ^ 16 + old.toNat % 2 ^ 16)

/-- R292: an error is recorded in the chain's fault word and, unless quiet, posted to the appending context if it is live. -/
def postError (s : State) (k : Nat) (ch : Fin 8) (r : Running) (cause under : Nat) : State :=
  let c := s.getChain k ch
  let seq := itemSeq r.item
  let s := s.setChain k ch { c with fault := faultWord c.fault seq cause }
  let key := 4 * k + (itemCtx r.item).val
  let x := s.getCtx key
  if itemQuiet r || !x.live then s
  else s.setCtx key { x with errors := x.errors ++
    [⟨cause, itemAddr r.item, BitVec.ofNat 64 (seq % 2 ^ 48 + ch.val * 2 ^ 48 + under % 256 * 2 ^ 56), c.cts⟩] }

/-- R158, R294, R157, R193: what a completion sets free: the scoreboard entry, the accesses that waited on it, and the CWAITs, which
look again. -/
def wakeChain (s : State) (k : Nat) (ch : Fin 8) (seq : Nat) : State :=
  let c := s.getCore k
  let cts := (s.getChain k ch).cts
  let s := s.setCore k { c with scoreboard := c.scoreboard.filter (fun e => !(e.chain == ch && e.seq == seq)) }
  [0, 1, 2, 3].foldl (fun s n =>
    let x := s.getCtx (4 * k + n)
    match x.wait with
    | some (.overlap h q) => if h = ch && q = seq then s.setCtx (4 * k + n) { x with wait := none, pts := max x.pts cts } else s
    | some (.timed (.chain h) lim _) => if h = ch.val then s.setCtx (4 * k + n) { x with wait := some (.timed (.chain h) lim true) } else s
    | _ => s) s

/-- R156, R284: the last access and the completion step of the running command: its status with its results in one store, then the
sequence number. `st` is the STATE it ends in. -/
def completeCmd (s : State) (k : Nat) (ch : Fin 8) (r : Running) (st cause under : Nat) (results : List (Nat × List Byte)) : State :=
  let s := match r.item with
    | .record a _ _ _ =>
      match engCheck s k ch a 1 1 .write with
      | .ok (s, pa) => storeOf s k ch pa ((2, [BitVec.ofNat 8 st, BitVec.ofNat 8 cause]) :: results)
      | .error e => e.s
    | _ => s
  let c := s.getChain k ch
  let seq := itemSeq r.item
  let s := s.setChain k ch { relink c (c.fifo.drop 1) with ets := c.ets + 1, cts := c.ets + 1, ccnt := seq, run := none, piece := 0 }
  let s := if cause ≠ 0 then postError s k ch r cause under else s
  wakeChain s k ch seq

/-- The same, in a later step where the present one makes no further access. -/
def engEnd (s : State) (k : Nat) (ch : Fin 8) (r : Running) (st cause : Nat) (results : List (Nat × List Byte)) : Eng State :=
  if spentOut s then .error ⟨s, 0, 0, 0, 0⟩ else .ok (completeCmd s k ch r st cause 0 results)

/-- The number of an engine's work (log 3). -/
def engScript (k : Nat) (ch : Fin 8) : Nat := 4 * (8 * k + ch.val)

/-- A piece of work of engines in one step: what it does, or its failure, or where the step ends with the work to go on later. -/
def engStep (s : State) (key : Nat) (body : State → Eng State) (fail : EngStop → State) : State :=
  match body (openScript s key) with
  | .ok t => closeScript t true
  | .error e => if e.paused || spentOut e.s then closeScript e.s false else closeScript (fail e) true

/-- An engine's piece of work has been begun and not finished. -/
def underWay (s : State) (k : Nat) (ch : Fin 8) : Bool := (mget? (engScript k ch) s.scripts).isSome

/-- R284, R290, R357: a command stops at an access: the lines it has done and the poisoned line are reported with 0x56. -/
def stopCmd (e : EngStop) (k : Nat) (ch : Fin 8) (r : Running) (lines nans : Nat) : State :=
  completeCmd e.s k ch r 4 e.cause e.under
    (if e.cause = 0x56 then [(40, Bits.bytesLE 8 (lines % 2 ^ 32 + nans * 2 ^ 32)), (48, Bits.bytesLE 8 e.poison)] else [])

/-! ### The beginning of a command (R156, R284, R286 to R291) -/

/-- The bits of a doubleword that must be zero. -/
def zeroBits (body : List Word) (n hi lo : Nat) : Bool := Bits.fld (dw body n) hi lo = 0

/-- R284, R286 to R291: the reserved header and body fields of a record are zero, and its kind is one of the chain's. -/
def bodyOk (ch : Fin 8) (b : List Word) : Bool :=
  let h := dw b 0
  let kind := h % 256
  let unused (n : Nat) := dw b n = 0
  Bits.fld h 63 32 = 0 && Bits.fld h 23 20 = 0 && Bits.fld h 15 9 = 0 && kindOk ch kind &&
    (match kind with
     | 1 => zeroBits b 4 63 40 && unused 5 && unused 6 && unused 7
     | 2 => zeroBits b 2 63 60 && zeroBits b 4 63 40 && Bits.fld (dw b 5) 23 0 ≠ 0 && unused 6 && unused 7
     | 3 => zeroBits b 4 63 40 && zeroBits b 4 35 34 && unused 6 && unused 7
     | 4 => zeroBits b 4 63 40 && zeroBits b 4 35 34 && unused 6 && unused 7
     | 5 => zeroBits b 3 63 40 && unused 5 && unused 6 && unused 7
     | 6 => unused 4 && unused 5 && unused 6 && unused 7
     | 7 => unused 6 && unused 7
     | 8 => unused 6 && unused 7
     | 0x10 => zeroBits b 2 63 24
     | 0x11 => zeroBits b 2 63 48
     | 0x12 => zeroBits b 2 63 12 && zeroBits b 3 63 32
     | _ =>
       let p := Bits.fld (dw b 4) 47 40
       zeroBits b 4 63 60 && zeroBits b 6 63 32 && (kind = 0x20 || unused 7) && Bits.fld (dw b 4) 39 0 % 64 = 0 && 2 ≤ p && p ≤ 64 &&
         ((kind ≠ 0x21 && kind ≠ 0x22) ||
           (let t := Bits.fld (dw b 4) 59 56
            t = 0 || t = 1 || t = 8 || t = 9)))

/-- COMMAND_BEGIN (R156, R284): the command at the head of a chain begins: the engine reads its record, stores STATE 2 and checks the
header and body. A promise command's record is read by its own step. -/
def execCommandBegin (k : Nat) (ch : Fin 8) (s : State) : Out :=
  let c := s.getChain k ch
  if c.run.isSome || (s.getGang (s.getCore k).gang).st ≠ .running then .next s
  else
    match c.fifo with
    | [] => .next s
    | item :: _ =>
      let s1 := s.setChain k ch { c with ets := max c.ets (itemStamp item) }
      match item with
      | .fence _ => .next s
      | .promise .. => .next (s1.setChain k ch { s1.getChain k ch with run := some ⟨item, [], []⟩ })
      | .record a _ _ _ => .next (engStep s1 (engScript k ch) (fun s => do
          let (s, bs) ← engRead s k ch a 64 64
          let r : Running := ⟨item, wordsOf bs, []⟩
          let s ← match engAddr s k ch a 1 1 .write with
            | .ok (s, pa) => engStore s k ch pa [(2, [2, 0])]
            | .error e => if e.paused then .error e else .ok e.s
          if bodyOk ch r.body then return s.setChain k ch { s.getChain k ch with run := some r } else engEnd s k ch r 4 0x51 [])
        (fun e => stopCmd e k ch ⟨item, [], []⟩ 0 0))

/-- The fence mask at the head of a chain. -/
def headFence (c : Chain) : Option (BitVec 8) :=
  match c.fifo with
  | .fence m :: _ => some m
  | _ => none

/-- The chains of a mask. -/
def chainsOf (m : BitVec 8) : List (Fin 8) := [0, 1, 2, 3, 4, 5, 6, 7].filter (fun (ch : Fin 8) => m.getLsbD ch.val)

/-- CHAIN_FENCE_RELEASE (R159): every chain of the mask has its fence entry at its head, and the entries leave together. -/
def execChainFenceRelease (k : Nat) (ch : Fin 8) (s : State) : Out :=
  match headFence (s.getChain k ch) with
  | none => .next s
  | some m =>
    let chs := chainsOf m
    if chs.any (fun h => headFence (s.getChain k h) ≠ some m) then .next s
    else
      let top := chs.foldl (fun t h => max t (s.getChain k h).ets) 0
      .next (chs.foldl (fun s h =>
        let c := s.getChain k h
        s.setChain k h { relink c (c.fifo.drop 1) with ets := top }) s)

/-! ### Appends and the scoreboard (R281, R294, R296) -/

/-- R294, R299: the bytes of an element of the tensor that a COPYT names, for its destination range: the entry is read by a load of the
appending context (log 27). -/
def copytBytes (s : State) (b : List Word) : Res (State × Nat) :=
  if dw b 0 % 256 ≠ 2 then .ok (s, 1)
  else
    let a := tensorAddr s.gang.tensors (dw b 2 % 4096)
    match walkStep s s.cur a.toNat with
    | .error e => .error e
    | .ok (s, found) =>
      match xlateWith s s.coreKey s.gangId a.toNat .read found with
      | .error _ => .ok (s, 1)
      | .ok x =>
        let s := homeRead (fillTlb s s.coreKey x) .ctx x.pa
        if poisoned s x.pa then consume s x.pa
        else
          match exchangeAt s 23 x.pa [] (fun s => let r := loadAtHome s x.pa 32
              (r.1, (none, [BitVec.ofNat 512 (Bits.ofBytesLE r.2)]))) with
          | .error e => .error e
          | .ok (s, r) => .ok (s, (Ty.ofCode (BitVec.ofNat 4 (Tensor.ofNat (r.2.headD 0).toNat).ty)).bits / 8)

/-- R294: the destination range of a command, if its kind takes a scoreboard entry; `w` is the bytes of an element of a COPYT. -/
def sbRange (b : List Word) (w : Nat) : Option (Word × Nat) :=
  let a (n : Nat) : Word := b.getD n 0
  let r := match dw b 0 % 256 with
    | 1 => some (a 3, Bits.fld (dw b 4) 39 0)
    | 2 =>
      let n := Bits.fld (dw b 4) 39 0
      let gr := Bits.fld (dw b 5) 23 0 * w
      if n = 0 || gr = 0 then some (a 3, n) else some (a 3, (n - 1) / gr * Bits.fld (dw b 5) 63 24 + (n - 1) % gr + 1)
    | 3 => some (a 5, Bits.fld (dw b 4) 31 0 * 2 ^ Bits.fld (dw b 4) 33 32)
    | 5 => some (a 2, Bits.fld (dw b 3) 39 0)
    | 8 => some (a 2, dw b 3)
    | _ => none
  r.filter (fun x => x.2 ≠ 0)

/-- R294: the physical byte ranges of a destination, page by page. -/
def rangePas (s : State) (k : Nat) : Nat → Word → Nat → List (Nat × Nat)
  | 0, _, _ => []
  | fuel + 1, va, n =>
    if n = 0 then []
    else
      let m := min n (65536 - va.toNat % 65536)
      let rest := rangePas s k fuel (va + BitVec.ofNat 64 m) (n - m)
      match xlate s k (s.getCore k).gang va.toNat .write with
      | .ok x => (x.pa, m) :: rest
      | .error _ => rest

/-- R281: appends a command at the end of a chain. -/
def appendItem (s : State) (k : Nat) (ch : Fin 8) (item : ChainItem) : State :=
  let c := s.getChain k ch
  s.setChain k ch { c with
    fifo := c.fifo ++ [item], acnt := itemSeq item, tail := itemAddr item, head := if c.head = 0 then itemAddr item else c.head }

/-- R158, R296: the physical address of the link in the record before, which no promise command has (R307), once it may be written. -/
def linkBefore (s : State) (i : Instr) (c : Chain) : Res (State × Option Nat) :=
  match (c.fifo.filter (fun x => !isFence x)).getLast? with
  | some (.record t _ _ _) =>
    match walkStep s s.cur t.toNat with
    | .error e => .error e
    | .ok (s, found) =>
      match xlateWith s s.coreKey s.gangId t.toNat .write found with
      | .error _ => .ok (s, none)
      | .ok x =>
        let s := fillTlb s s.coreKey x
        match overlapping s.core (x.pa + 8) 8 with
        | some e => stallOr s i (.overlap e.chain e.seq)
        | none => if poisoned s x.pa then consume s x.pa else .ok (s, some (x.pa + 8))
  | _ => .ok (s, none)

/-- R293: a chain operand; cause 0x52 with TINFOB 1 outside 0 to 7. -/
def chainOf (s : State) (o : Opnd) : Res (Fin 8) :=
  let n := (s.src o).toNat
  if h : n < 8 then .ok ⟨n, h⟩ else raise 0x52 (Config.freeWord s.free) 1

/-- CAPP (R296): checks the record, stores NEXT and STATE, links it and appends it. -/
def execCapp (g : Guard) (d : Option (Fin 32)) (a : Fin 32) (b : Opnd) (nsb : Bool) (s : State) : Out :=
  let i : Instr := .capp g d a b nsb
  let ea := s.rs a
  guarded s i g (do
    let ch ← chainOf s b
    let r ← onTrap (fun t => if t.cause = 0x13 then { t with cause := 0x51 } else t) (grantAs s i ea 64 16 .write .rmw false)
    let s := r.s
    if r.refused then return answerZero s d
    else
      let body := wordsOf (s.mem.bytes r.pa 64)
      let state := Bits.fld (dw body 0) 19 16
      if (!kindOk ch (dw body 0 % 256) || state = 1 || state = 2) && !replaying s then raiseOpenFrom s 0x51
      else
        let ranged := !nsb && (sbRange body 1).isSome
        if (ranged && 16 ≤ s.core.scoreboard.length) || seedHolds s then stall s .retry
        else do
          let (s, w) ← if ranged then copytBytes s body else pure (s, 1)
          let range := if ranged then sbRange body w else none
          let (s, link) ← linkBefore s i (s.getChain s.coreKey ch)
          let _ ← dispatchNow s i
          let t ← asMessage s 20 r.pa (Bits.bytesLE 1 ch.val) (fun s =>
              let k := s.coreKey
              let c := s.getChain k ch
              let st := Bits.setFld (Bits.ofBytesLE (s.mem.bytes (r.pa + 2) 1)) 4 0 1
              let s := storePiece s ⟨ea, r.pa + 2, 1, 5, 8⟩ (Bits.bytesLE 1 st ++ Bits.bytesLE 8 0)
              let s := link.elim s (fun a => storeAt s a (Bits.bytesLE 8 ea.toNat))
              let s := appendItem s k ch (.record ea (c.acnt + 1) s.ctxNo s.ctx.pts)
              let s := match range with
                | none => s
                | some (va, n) => s.updCore (fun x => { x with
                    scoreboard := x.scoreboard ++ [⟨rangePas s k (n / 65536 + 2) va n, ch, c.acnt + 1⟩] })
              (s, (some (BitVec.ofNat 64 (c.acnt + 1)), [])))
            (fun s a => match d with
              | some r => s.putS r (a.1.getD 0)
              | none => s)
          dispatchNow t i)

/-- R157: the acting context has read a completed sequence number. -/
def seeChain (s : State) (c : Chain) : State := s.upd (fun x => { x with pts := max x.pts c.cts })

/-- CWAIT (R157, R193, R296). -/
def execCwait (g : Guard) (a b : Opnd) (lim : BitVec 24) (s : State) : Out :=
  let i : Instr := .cwait g a b lim
  guarded s i g (do
    let ch ← chainOf s a
    let c := s.getChain s.coreKey ch
    let v := (s.src b).toNat
    if c.acnt < v then raise 0x52 (Config.freeWord s.free) 2
    else if c.ccnt < v then
      stall s (.timed (.chain ch.val) (limitFor s (fun t => t == .chain ch.val) lim.toNat) false)
    else do
      let s ← dispatchNow s i
      return seeChain s c)

/-- CSEQ (R157, R296). -/
def execCseq (g : Guard) (d : Fin 32) (a : Opnd) (s : State) : Out :=
  let i : Instr := .cseq g d a
  guarded s i g (do
    let ch ← chainOf s a
    let c := s.getChain s.coreKey ch
    let s ← dispatchNow s i
    return (seeChain s c).putS d (BitVec.ofNat 64 c.ccnt))

/-- CFENCE (R159, R296): one fence entry on every chain of the mask. -/
def execCfence (g : Guard) (mask : BitVec 8) (s : State) : Out :=
  let i : Instr := .cfence g mask
  guarded s i g (do
    let _ ← dispatchNow s i
    let t ← asMessage s 21 mask.toNat [] (fun s =>
        ((chainsOf mask).foldl (fun s ch =>
          let c := s.getChain s.coreKey ch
          s.setChain s.coreKey ch { c with fifo := c.fifo ++ [.fence mask] }) s, (none, [])))
      (fun s _ => s)
    dispatchNow t i)

/-- CSTAT (R292, R296): the chain fault word, cleared in the same step with .clr. -/
def execCstat (g : Guard) (clear : Bool) (d : Fin 32) (a : Opnd) (s : State) : Out :=
  let i : Instr := .cstat g clear d a
  guarded s i g (do
    let ch ← chainOf s a
    let c := s.getChain s.coreKey ch
    let s ← dispatchNow s i
    return (if clear then s.setChain s.coreKey ch { c with fault := 0 } else s).putS d c.fault)

end Sys2Proof.Machine
end

