-- ==== Sys2Proof/Machine/Copies.lean ====
section
/-! DEFINITION. The copy-class commands (R285 to R288): COPY, COPYT, GATH, SCAT, FILL, SIGNAL, STASH and UNSTASH. A command moves one
64 KiB piece in each step (R285), or, where the agenda limits a step's accesses, a part of one (log 3). -/
namespace Sys2Proof.Machine
open Num

/-! ### Performing a command -/

/-- An error completion with no access behind it. -/
def engFail {α : Type} (s : State) (cause : Nat) : Eng α := .error ⟨s, cause, 0, 0, 0⟩

/-- The command that the engine of a chain is performing for a running gang. -/
def performing (s : State) (k : Nat) (ch : Fin 8) : Option Running :=
  if (s.getGang (s.getCore k).gang).st = .running then (s.getChain k ch).run else none

/-- The same, if it is a record of a kind. -/
def runningKind (s : State) (k : Nat) (ch : Fin 8) (kind : Nat) : Option Running :=
  (performing s k ch).filter (fun r => (match r.item with
    | .record .. => true
    | _ => false) && dw r.body 0 % 256 = kind)

/-- R357, R290: a copy stops. Where it reports 0x56, `lines` gives the lines it has done; where the spec gives the command no such count
it is open (log 11). -/
def stopCopy (e : EngStop) (k : Nat) (ch : Fin 8) (r : Running) (lines : Option Nat) : State :=
  match lines with
  | some n => stopCmd e k ch r n 0
  | none => stopCmd { e with s := { e.s with free := e.s.free + 1 } } k ch r (Config.freeWord e.s.free).toNat 0

/-- R290, R357: the lines of a source range before the one at which a command stopped. -/
def linesBefore (a n : Nat) (e : EngStop) : Option Nat :=
  if a ≤ e.va.toNat && e.va.toNat < a + n then some (e.va.toNat / 64 - a / 64) else some 0

/-- One step of a command: its effect, or its stop with the lines it has done. -/
def performStep (s : State) (k : Nat) (ch : Fin 8) (kind : Nat) (body : State → Running → Eng State)
    (lines : Running → EngStop → Option Nat) : Host.Outcome State Fault Refusal :=
  match runningKind s k ch kind with
  | none => .next s
  | some r => .next (engStep s (engScript k ch) (body · r)
      (fun e => stopCopy e k ch (((e.s.getChain k ch).run).getD r) (lines (((e.s.getChain k ch).run).getD r) e)))

/-- R285: what a command carries to its next pieces. -/
def carryOn (s : State) (k : Nat) (ch : Fin 8) (r : Running) (aux : List Word) : State :=
  s.setChain k ch { s.getChain k ch with run := some { r with aux := aux } }

/-- R285: a piece is done: the next one, or the completion when `more` is false. -/
def pieceDone (s : State) (k : Nat) (ch : Fin 8) (r : Running) (more : Bool) : Eng State :=
  let c := s.getChain k ch
  if more then .ok (s.setChain k ch { c with piece := c.piece + 1 }) else engEnd s k ch r 3 0 []

/-- R285: bytes of a piece. -/
def pieceBytes : Nat := 65536

/-! ### COPY, FILL and SIGNAL (R286) -/

/-- COPY (R286): one piece: its source lines, then its destination bytes. -/
def execCopy (k : Nat) (ch : Fin 8) (s : State) : Out :=
  performStep s k ch 1 (fun s r => do
    let src : Word := r.body.getD 2 0
    let dst : Word := r.body.getD 3 0
    let n := Bits.fld (dw r.body 4) 39 0
    let off := (s.getChain k ch).piece * pieceBytes
    if n = 0 then engEnd s k ch r 3 0 []
    else if src.toNat < dst.toNat + n && dst.toNat < src.toNat + n then engFail s 0x59
    else
      let m := min pieceBytes (n - off)
      let s ← engMove s k ch (runs (src + BitVec.ofNat 64 off) m) (runs (dst + BitVec.ofNat 64 off) m)
      pieceDone s k ch r (off + m < n)) (fun r e => linesBefore (dw r.body 2) (Bits.fld (dw r.body 4) 39 0) e)

/-- FILL (R286): one piece; byte i of the range is byte i mod 8 of the pattern. -/
def execFill (k : Nat) (ch : Fin 8) (s : State) : Out :=
  performStep s k ch 5 (fun s r => do
    let dst : Word := r.body.getD 2 0
    let n := Bits.fld (dw r.body 3) 39 0
    let off := (s.getChain k ch).piece * pieceBytes
    if n = 0 then engEnd s k ch r 3 0 []
    else
      let m := min pieceBytes (n - off)
      let bs : List Byte := (List.range m).map (fun j => BitVec.ofNat 8 (dw r.body 4 >>> (8 * (j % 8))))
      let s ← engWrite s k ch (dst + BitVec.ofNat 64 off) bs
      pieceDone s k ch r (off + m < n)) (fun _ _ => some 0)

/-- CMD_SIGNAL (R286): one ordinary store of the value. -/
def execCmdSignal (k : Nat) (ch : Fin 8) (s : State) : Out :=
  performStep s k ch 6 (fun s r => do
    let (s, pa) ← engAddr s k ch (r.body.getD 2 0) 8 8 .write
    engEnd (← engStore s k ch pa [(0, Bits.bytesLE 8 (dw r.body 3))]) k ch r 3 0 []) (fun _ _ => some 0)

/-! ### COPYT (R286) -/

/-- R299: the entry of a TID as an engine reads it, with the address of the entry; 0x68 when it is undefined. -/
def engTensor (s : State) (k : Nat) (ch : Fin 8) (tid : Nat) : Eng (State × Tensor) := do
  let a := tensorAddr (s.getGang (s.getCore k).gang).tensors tid
  let (s, pa) ← engAddr s k ch a 32 32 .read
  let (s, bs) ← engLoad s k ch a pa 32
  let t := Tensor.ofNat (Bits.ofBytesLE bs)
  if t.rows = 0 || t.cols = 0 then engFail s 0x68 else return (s, t)

/-- Bytes of an element of a tensor that is not block floating point. -/
def Tensor.elemBytes (t : Tensor) : Nat := (Ty.ofCode (BitVec.ofNat 4 t.ty)).bits / 8

/-- The address of an element of a tensor (R299). -/
def Tensor.elemAt (t : Tensor) (row col : Nat) : Word := t.base + BitVec.ofNat 64 (row * t.stride + col * t.elemBytes)

/-- R286, R242: the tensor of a COPYT, read and checked once, before any data moves; none with N = 0. -/
def copytTensor (s : State) (k : Nat) (ch : Fin 8) (r : Running) : Eng (State × Tensor) :=
  if (s.getChain k ch).piece ≠ 0 then .ok (s, Tensor.ofNat (Bits.ofBytesLE (r.aux.flatMap (fun w => Bits.bytesLE 8 w.toNat))))
  else do
    let (s, t) ← engTensor s k ch (Bits.fld (dw r.body 2) 11 0)
    let n := Bits.fld (dw r.body 4) 39 0
    let rr := Bits.fld (dw r.body 5) 23 0
    if t.layout || t.ty = 14 || t.ty = 15 then engFail s 0x34
    else if n % (rr * t.elemBytes) ≠ 0 then engFail s 0x53
    else if t.rows < Bits.fld (dw r.body 2) 35 12 + rr || t.cols < Bits.fld (dw r.body 2) 59 36 + n / (rr * t.elemBytes) then engFail s 0x34
    else return (s, t)

/-- Reads elements in order, each under its key, as far as it goes. -/
def readElems (k : Nat) (ch : Fin 8) (at_ : Nat → Nat → Word) (key : Nat → Nat → Nat) (b : Nat) :
    State → List (Nat × Nat) → SMap (List Byte) → State × SMap (List Byte) × Option EngStop
  | s, [], acc => (s, acc, none)
  | s, (x, c) :: rest, acc =>
    match engRead s k ch (at_ x c) b 1 with
    | .error e => (e.s, acc, some e)
    | .ok (s, bs) => readElems k ch at_ key b s rest (mset (key x c) bs acc)

/-- COPYT (R286): one piece of a transposing copy: the elements of the piece are read in tensor order, then written column after
column. -/
def execCopyt (k : Nat) (ch : Fin 8) (s : State) : Out :=
  performStep s k ch 2 (fun s r => do
    let d2 := dw r.body 2
    let dst : Word := r.body.getD 3 0
    let n := Bits.fld (dw r.body 4) 39 0
    let rr := Bits.fld (dw r.body 5) 23 0
    let stride := Bits.fld (dw r.body 5) 63 24
    if n = 0 then engEnd s k ch r 3 0 []
    else do
      let (s, t) ← copytTensor s k ch r
      let s := carryOn s k ch r (wordsOf (Bits.bytesLE 32 t.word))
      let b := t.elemBytes
      let off := (s.getChain k ch).piece * (pieceBytes / b)
      let m := min (pieceBytes / b) (n / b - off)
      let cols := (List.range ((off + m - 1) / rr - off / rr + 1)).map (fun j => off / rr + j)
      let has (x c : Nat) : Bool := off ≤ c * rr + x && c * rr + x < off + m
      let order := (List.range rr).flatMap (fun x => (cols.filter (has x)).map (fun c => (x, c)))
      let (s, elems, stop) := readElems k ch (fun x c => t.elemAt (Bits.fld d2 35 12 + x) (Bits.fld d2 59 36 + c)) (fun x c => c * rr + x) b s order []
      if stop.any EngStop.paused then .error ⟨s, 0, 0, 0, 0⟩
      let s ← cols.foldlM (fun s c =>
        let xs := (List.range rr).filter (fun x => has x c && (mget? (c * rr + x) elems).isSome)
        engWrite s k ch (dst + BitVec.ofNat 64 (c * stride + xs.headD 0 * b)) (xs.flatMap (fun x => mget [] (c * rr + x) elems))) s
      match stop with
      | some e => .error { e with s := s }
      | none => pieceDone s k ch r (off + m < n / b)) (fun _ _ => none)

/-! ### GATH and SCAT (R287) -/

/-- R287: an element's access, its address aligned to its size. -/
def elemRun (s : State) (k : Nat) (ch : Fin 8) (va : Word) (z : Nat) (kind : Kind) : Eng (State × Nat) :=
  engAddr s k ch va (2 ^ z) (2 ^ z) kind

/-- R287: the elements of one piece in order; `one` moves element number j between its address and its packed place. -/
def gatherPiece (s : State) (k : Nat) (ch : Fin 8) (r : Running) (one : State → Word → Word → Nat → Eng State) : Eng State := do
  let base : Word := r.body.getD 2 0
  let list : Word := r.body.getD 3 0
  let n := Bits.fld (dw r.body 4) 31 0
  let z := Bits.fld (dw r.body 4) 33 32
  let h := Bits.fld (dw r.body 4) 39 36
  let packed : Word := r.body.getD 5 0
  let off := (s.getChain k ch).piece * (pieceBytes / 2 ^ z)
  let m := min (pieceBytes / 2 ^ z) (n - off)
  let s ← (List.range m).foldlM (fun s j => do
    let ia := list + BitVec.ofNat 64 (4 * (off + j))
    let (s, pa) ← engAddr s k ch ia 4 4 .read
    let (s, bs) ← engLoad s k ch ia pa 4
    let a := base + (BitVec.ofInt 64 (Bits.sx 32 (Bits.ofBytesLE bs)) <<< h)
    one s a (packed + BitVec.ofNat 64 ((off + j) * 2 ^ z)) z) s
  pieceDone s k ch r (off + m < n)

/-- GATH (R287). -/
def execGath (k : Nat) (ch : Fin 8) (s : State) : Out :=
  performStep s k ch 3 (fun s r => gatherPiece s k ch r (fun s a p z => do
    let (s, pa) ← elemRun s k ch a z .read
    let (s, bs) ← engLoad s k ch a pa (2 ^ z)
    engWrite s k ch p bs)) (fun _ _ => none)

/-- SCAT (R287). -/
def execScat (k : Nat) (ch : Fin 8) (s : State) : Out :=
  performStep s k ch 4 (fun s r => gatherPiece s k ch r (fun s a p z => do
    let (s, bs) ← engRead s k ch p (2 ^ z) 1
    let (s, pa) ← elemRun s k ch a z .write
    engStore s k ch pa [(0, bs)])) (fun _ _ => none)

/-! ### STASH and UNSTASH (R288) -/

/-- R288: a stash ring's descriptor. -/
structure Ring where
  base : Word
  size : Nat
  head : Nat
  tail : Nat
deriving DecidableEq, Repr

/-- R288: reads and checks the descriptor that a command names: its address and its fields. -/
def stashRing (s : State) (k : Nat) (ch : Fin 8) (r : Running) : Eng (State × Word × Ring) := do
  let d5 : Word := r.body.getD 5 0
  let a := if d5 = 0 then (s.getGang (s.getCore k).gang).stash else d5
  let (s, pa) ← engAddr s k ch a 64 64 .read
  let (s, bs) ← engLoad s k ch a pa 64
  let w := wordsOf bs
  let ring : Ring := ⟨w.getD 0 0, dw w 1, dw w 2, dw w 3⟩
  if ring.base.toNat % 64 ≠ 0 || ring.size % 64 ≠ 0 || ring.size < 128 || dw w 4 ≠ 0 || dw w 5 ≠ 0 || dw w 6 ≠ 0 || dw w 7 ≠ 0 then
    engFail s 0x58
  else return (s, a, ring)

/-- R288: the runs of `n` bytes of the ring from a count of bytes, which wraps at its end. -/
def ringRuns (g : Ring) (at_ n : Nat) : List (Word × Nat) :=
  let o := at_ % g.size
  let m := min n (g.size - o)
  runs (g.base + BitVec.ofNat 64 o) m ++ (if m < n then runs g.base (n - m) else [])

/-- R288: the descriptor's update, one read-modify-write step after the data: `by_` bytes are added to its doubleword at `off`. It is no
store that R348 would keep (log 27). -/
def ringUpdate (s : State) (k : Nat) (ch : Fin 8) (a : Word) (off by_ : Nat) : Eng State := do
  let (s, _) ← engAddr s k ch a 64 64 .read
  let (s, pa) ← engAddr s k ch a 64 64 .write
  engUpdate s k ch a pa (fun bs => [(off, Bits.bytesLE 8 (Bits.ofBytesLE ((bs.drop off).take 8) + by_))]) 64

/-- R288: an entry's header. -/
def stashHeader (tag : Word) (len : Nat) (elided : Bool) : List Byte :=
  Bits.bytesLE 8 tag.toNat ++ Bits.bytesLE 8 len ++ Bits.bytesLE 48 (Bits.b2n elided)

/-- R288, R285: the ring of a command of several pieces, read once, and the length of its entry: base, size, head, tail, the descriptor's
address, the length. -/
def ringAux (a : Word) (g : Ring) (len : Nat) : List Word :=
  [g.base, BitVec.ofNat 64 g.size, BitVec.ofNat 64 g.head, BitVec.ofNat 64 g.tail, a, BitVec.ofNat 64 len]

/-- The same, from what the command carries. -/
def auxRing (x : List Word) : Word × Ring × Nat := (x.getD 4 0, ⟨x.getD 0 0, dw x 1, dw x 2, dw x 3⟩, dw x 5)

/-- STASH (R288): appends an entry to the ring piece by piece, or an elided header when only that fits, or fails. -/
def execStash (k : Nat) (ch : Fin 8) (s : State) : Out :=
  performStep s k ch 7 (fun s r => do
    let n := dw r.body 3
    let tag : Word := r.body.getD 4 0
    let off := (s.getChain k ch).piece * pieceBytes
    let need := 64 + Bits.ceilDiv n 64 * 64
    let data (s : State) (a : Word) (g : Ring) : Eng State := do
      let m := min pieceBytes (n - off)
      let s ← engMove s k ch (runs (r.body.getD 2 0 + BitVec.ofNat 64 off) m) (ringRuns g (g.tail + 64 + off) m)
      if off + m < n then pieceDone s k ch r true
      else engEnd (← ringUpdate s k ch a 24 need) k ch r 3 0 []
    if off ≠ 0 then data s (auxRing r.aux).1 (auxRing r.aux).2.1
    else do
      let (s, a, g) ← stashRing s k ch r
      let free := g.size - (BitVec.ofNat 64 g.tail - BitVec.ofNat 64 g.head).toNat
      if need ≤ free then
        let s ← engWrites k ch 1 s (ringRuns g g.tail 64) (stashHeader tag n false)
        data (carryOn s k ch r (ringAux a g n)) a g
      else if 64 ≤ free then
        let s ← engWrites k ch 1 s (ringRuns g g.tail 64) (stashHeader tag 0 true)
        engEnd (← ringUpdate s k ch a 24 64) k ch r 5 0 []
      else engFail s 0x58) (fun r e => linesBefore (dw r.body 2) (dw r.body 3) e)

/-- R290, R357: the lines of a stash entry before the address at which an UNSTASH stopped. -/
def entryLines (r : Running) (e : EngStop) : Option Nat :=
  let x := auxRing r.aux
  let g := x.2.1
  if g.base.toNat ≤ e.va.toNat && e.va.toNat < g.base.toNat + g.size then
    let o := (e.va.toNat - g.base.toNat + g.size - (g.head + 64) % g.size) % g.size
    some (if o < x.2.2 then o / 64 else 0)
  else some 0

/-- UNSTASH (R288): reads the entry at HEAD into the destination, piece by piece. -/
def execUnstash (k : Nat) (ch : Fin 8) (s : State) : Out :=
  performStep s k ch 8 (fun s r => do
    let off := (s.getChain k ch).piece * pieceBytes
    let data (s : State) (a : Word) (g : Ring) (len : Nat) : Eng State := do
      let m := min pieceBytes (len - off)
      let s ← engMove s k ch (ringRuns g (g.head + 64 + off) m) (runs (r.body.getD 2 0 + BitVec.ofNat 64 off) m)
      if off + m < len then pieceDone s k ch r true
      else engEnd (← ringUpdate s k ch a 16 (64 + Bits.ceilDiv len 64 * 64)) k ch r 3 0 []
    if off ≠ 0 then data s (auxRing r.aux).1 (auxRing r.aux).2.1 (auxRing r.aux).2.2
    else do
      let (s, a, g) ← stashRing s k ch r
      if g.head = g.tail then engFail s 0x58
      else
        let (s, hd) ← engReads k ch 1 s (ringRuns g g.head 64) []
        let w := wordsOf hd
        let len := dw w 1
        let elided := Bits.bit (dw w 2) 0
        if w.getD 0 0 ≠ r.body.getD 4 0 || dw r.body 3 < len then engFail s 0x58
        else if elided then engEnd (← ringUpdate s k ch a 16 64) k ch r 5 0 []
        else data (carryOn s k ch r (ringAux a g len)) a g len) entryLines

end Sys2Proof.Machine
end

