-- ==== Sys2Proof/Machine/Updates.lean ====
section
/-! DEFINITION. The near-memory updates NMU.SGD, NMU.ADAMW and NMU.SCALE (R289, R290). A step performs one 64 KiB piece (R285), line by
line in increasing order (log 3). -/
namespace Sys2Proof.Machine
open Num

/-! ### Tensors in device memory (R289, R307) -/

/-- R289, R307: the format of the elements of an updated tensor: f64 or f32. -/
def Tensor.fmt (t : Tensor) : FFmt := if t.ty = 8 then f64 else f32

/-- The number of elements. -/
def Tensor.count (t : Tensor) : Nat := t.rows * t.cols

/-- The region of a virtual address of a core's gang, whatever its page permits; none where it is not mapped. -/
def engRegion (s : State) (k : Nat) (va : Word) : Option Nat :=
  [Kind.read, .write, .exec].findSome? (fun kind => match xlate s k (s.getCore k).gang va.toNat kind with
    | .ok x => some (paReg x.pa)
    | .error _ => none)

/-- R289, R307: a tensor is contiguous and row-major, and its base lies in device memory. An address that is not mapped fails when its
line is reached (R284). -/
def contiguous (s : State) (k : Nat) (t : Tensor) : Bool :=
  !t.layout && t.stride = t.cols * t.elemBytes && ((engRegion s k t.base).getD 0 = 0)

/-- The byte runs of elements lo to lo + n − 1 of a contiguous tensor. -/
def elemRuns (t : Tensor) (lo n : Nat) : List (Word × Nat) := runs (t.base + BitVec.ofNat 64 (lo * t.elemBytes)) (n * t.elemBytes)

/-- Elements lo to lo + n − 1 of a contiguous tensor, as patterns. -/
def elemRead (s : State) (k : Nat) (ch : Fin 8) (t : Tensor) (lo n : Nat) : Eng (State × List Nat) := do
  let b := t.elemBytes
  let (s, bs) ← engReads k ch b s (elemRuns t lo n) []
  return (s, (List.range n).map (fun j => Bits.ofBytesLE ((bs.drop (b * j)).take b)))

/-- Stores elements from lo on. -/
def elemWrite (s : State) (k : Nat) (ch : Fin 8) (t : Tensor) (lo : Nat) (ps : List Nat) : Eng State :=
  engWrites k ch t.elemBytes s (elemRuns t lo ps.length) (ps.flatMap (Bits.bytesLE t.elemBytes))

/-- A tensor's elements may be written. -/
def elemWritable (s : State) (k : Nat) (ch : Fin 8) (t : Tensor) (lo n : Nat) : Eng State :=
  (elemRuns t lo n).foldlM (fun s x => (engAddr s k ch x.1 x.2 t.elemBytes .write).map (·.1)) s

/-- R290: the line that is not updated is left poisoned. -/
def poisonElems (s : State) (k : Nat) (ch : Fin 8) (t : Tensor) (lo n : Nat) : State :=
  (elemRuns t lo n).foldl (fun s x =>
    match engCheck s k ch x.1 x.2 1 .read with
    | .ok (s, pa) => if paReg pa = 0 then s.setLine (pa / 64) { s.getLine (pa / 64) with poison := true } else s
    | .error _ => s) s

/-- Elements in one line of a tensor (R289). -/
def Tensor.perLine (t : Tensor) : Nat := 64 / t.elemBytes

/-- R300: adds one to VERSION of an entry. -/
def bumpVersion (s : State) (k : Nat) (ch : Fin 8) (tid : Nat) : Eng State := do
  let a := tensorAddr (s.getGang (s.getCore k).gang).tensors tid + 24
  let (s, _) ← engAddr s k ch a 4 4 .write
  let (s, pa) ← engAddr s k ch a 4 4 .read
  engUpdate s k ch a pa (fun bs => [(0, Bits.bytesLE 4 (Bits.ofBytesLE bs + 1))]) 4

/-! ### The order of a tensor (R289, R306) -/

/-- R299: the physical address of a tensor's entry in the table of a core's gang, if it can be reached. -/
def entryPa (s : State) (k tid : Nat) : Option Nat :=
  let g := (s.getCore k).gang
  match xlate s k g (tensorAddr (s.getGang g).tensors tid).toNat .read with
  | .ok x => some x.pa
  | .error _ => none

/-- R289, R306: the entries of the tensors that a running command updates or defines: W, with NMU.ADAMW also M and V; the W that a promise's
record names; the tensor of TDEF. -/
def heldEntries (s : State) (k : Nat) (r : Running) : List Nat :=
  let tids := match r.item with
    | .record .. =>
      (match dw r.body 0 % 256 with
       | 0x10 | 0x12 => [Bits.fld (dw r.body 2) 11 0]
       | 0x11 => [Bits.fld (dw r.body 2) 11 0, Bits.fld (dw r.body 2) 35 24, Bits.fld (dw r.body 2) 47 36]
       | _ => [])
    | .promise i ea c _ _ _ _ =>
      (match i with
       | .tdef .. => if c.toNat < 4096 then [c.toNat] else []
       | _ => match xlate s k (s.getCore k).gang ea.toNat .read with
         | .ok x => [Bits.fld (s.mem.readLE x.pa 8) 19 8]
         | .error _ => [])
    | .fence _ => []
  tids.filterMap (entryPa s k)

/-- An update on a chain other than the given one has done some of its pieces, and not all, on a tensor of some entries. -/
def midUpdate (s : State) (except : Option (Nat × Fin 8)) (pas : List Nat) : Bool :=
  s.cores.any (fun c => ([4, 5] : List (Fin 8)).any (fun ch => except != some (c.1, ch) &&
    (performing s c.1 ch).any (fun r => (!r.aux.isEmpty || underWay s c.1 ch) && (heldEntries s c.1 r).any pas.contains)))

/-- R289, R306: a command that has not begun its pieces waits for one that has, on a tensor that both update: they are applied line by line in
the order in which they reach the engine. -/
def tensorHeld (s : State) (k : Nat) (ch : Fin 8) (r : Running) : Bool :=
  r.aux.isEmpty && !underWay s k ch && midUpdate s (some (k, ch)) (heldEntries s k r)

/-! ### The arithmetic of one element -/

/-- A value rounded to nearest even in a format, as an engine rounds (R289): the pattern. -/
def eRound (f : FFmt) (v : Val) : Nat := (pack f .rne v).1

/-- RN of an exact value, as a value. -/
def eRn (f : FFmt) (v : Val × Flg) : Val := unpack f (packR f .rne v).1

/-- R289: W := RN(fade·W − RN(η·g)), as a pattern. -/
def sgdElem (f : FFmt) (eta fade w g : Val) : Nat :=
  let t := eRn f (mulV eta g)
  (packR f .rne (sumProducts .rne [(fade, w)] [t.flip])).1

/-- R289: one AdamW element: the new W, m and v as patterns, whether v was clamped; none when a NaN arises. -/
def adamElem (eta fade b1 b2 c1 c2 bc1 bc2 eps w g m v : Val) : Option (Nat × Nat × Nat) × Bool :=
  let m' := eRn f32 (sumProducts .rne [(b1, m)] [eRn f32 (mulV c1 g)])
  let raw := eRn f32 (sumProducts .rne [(b2, v)] [eRn f32 (mulV c2 (eRn f32 (mulV g g)))])
  let clamp := !raw.isNaN && !raw.isZero && raw.neg
  let v' := if clamp then .fin false 0 0 else raw
  let denom := eRn f32 (addV .rne (eRn f32 (sqrtV (eRn f32 (mulV v' bc2)))) eps)
  let u := eRn f32 (divV (eRn f32 (mulV m' bc1)) denom)
  let step := eRn f32 (mulV eta u)
  let w' := eRn f32 (sumProducts .rne [(fade, w)] [step.flip])
  (if [m', raw, denom, u, step, w'].any Val.isNaN then none else some (eRound f32 w', eRound f32 m', eRound f32 v'), clamp)

/-! ### A command, line by line -/

/-- What a line's step leaves: the state, the NaNs it counts, and whether it clamped. -/
abbrev LineStep := State → Nat → Nat → Eng (State × Nat × Bool)

/-- What a command has done: lines, NaN count, clamped, and where it stopped. -/
structure Done where
  s : State
  lines : Nat
  nans : Nat
  clamp : Bool
  stop : Option EngStop

/-- Takes the lines in order until one stops. -/
def lineLoop (per total : Nat) (f : LineStep) : Done → List Nat → Done
  | d, [] => d
  | d, q :: rest =>
    match f d.s (q * per) (min ((q + 1) * per) total - q * per) with
    | .ok (s, n, c) => lineLoop per total f { d with s := s, lines := d.lines + 1, nans := d.nans + n, clamp := d.clamp || c } rest
    | .error e => { d with s := e.s, stop := some e }

/-- R289: the lines a command names, within the tensor. -/
def namedLines (w : Tensor) (d4 : Nat) : List Nat :=
  let total := Bits.ceilDiv w.count w.perLine
  let q0 := Bits.fld d4 31 0
  let n := Bits.fld d4 63 32
  let stop := if n = 0 then total else min total (q0 + n)
  (List.range (stop - q0)).map (fun j => q0 + j)

/-- R289, R290: a line is one atomic step, done once; an uncorrectable error in a line that it reads leaves the W line poisoned. -/
def guardLine (k : Nat) (ch : Fin 8) (w : Tensor) (f : LineStep) : LineStep := fun s lo n =>
  let step (s : State) : Eng (State × List Byte) := engAlone s (fun s =>
    match f s lo n with
    | .ok (s, nans, clamp) => .ok (s, [BitVec.ofNat 8 nans, BitVec.ofNat 8 (Bits.b2n clamp)])
    | .error e => .error (if e.cause = 0x56 then { e with s := poisonElems e.s k ch w lo n } else e))
  (engOnce s step).map (fun x => (x.1, (x.2.getD 0 0).toNat, x.2.getD 1 0 != 0))

/-- R289, R290: what the written record reports. -/
def updateResults (r : Running) (d : Done) (stop : Option EngStop) : List (Nat × List Byte) :=
  let poison := stop.elim 0 (fun e => if e.cause = 0x56 then e.poison else 0)
  [(40, Bits.bytesLE 8 (d.lines % 2 ^ 32 + d.nans % 2 ^ 32 * 2 ^ 32)), (48, Bits.bytesLE 8 poison)] ++
    (if d.clamp then [(56, Bits.bytesLE 8 (dw r.body 7 ||| 1))] else [])

/-- R284, R289, R290: completes an update: VERSION after the last line, then the status with the results. -/
def updateDone (k : Nat) (ch : Fin 8) (r : Running) (version : Option Nat) (d : Done) : Eng State :=
  let counted : Eng (State × Option EngStop) := match version with
    | some tid =>
      if d.lines = 0 then .ok (d.s, d.stop)
      else match bumpVersion d.s k ch tid with
        | .ok s => .ok (s, d.stop)
        | .error e => if e.paused then .error e else .ok (e.s, d.stop <|> some e)
    | none => .ok (d.s, d.stop)
  match counted with
  | .error e => .error e
  | .ok (s, none) => engEnd s k ch r 3 0 (updateResults r d none)
  | .ok (s, some e) =>
    if spentOut s then .error ⟨s, 0, 0, 0, 0⟩ else .ok (completeCmd s k ch r 4 e.cause e.under (updateResults r d (some e)))

/-- R285: lines of W in a piece of 64 KiB. -/
def pieceLines : Nat := 1024

/-- R289: the tensors that an update carries to its next pieces, and its parameters. -/
def auxTensors (x : List Word) (n : Nat) : List Tensor :=
  (List.range n).map (fun j => Tensor.ofNat (Bits.ofBytesLE (((x.drop (3 + 4 * j)).take 4).flatMap (fun w => Bits.bytesLE 8 w.toNat))))

/-- One piece of an update command with n tensors, W first. `plan`, made once, checks the tensors and reads the parameters; `line` is the
step of a line. -/
def updateCmd (k : Nat) (ch : Fin 8) (kind n : Nat) (s : State) (version : Bool)
    (plan : State → Running → Eng (State × List Tensor × List Word)) (line : Running → List Tensor → List Word → LineStep) : Host.Outcome State Fault Refusal :=
  match runningKind s k ch kind with
  | none => .next s
  | some r =>
    if tensorHeld s k ch r then .next s
    else .next (engStep s (engScript k ch) (fun s => do
      let (s, r) ← if !r.aux.isEmpty then pure (s, r)
        else do
          let (s, ts, ps) ← plan s r
          pure (s, { r with aux := [0, 0, 0] ++ ts.flatMap (fun t => (wordsOf (Bits.bytesLE 32 t.word)).take 4) ++ ps })
      let ts := auxTensors r.aux n
      let w := ts.getD 0 (Tensor.ofNat 0)
      let lines := namedLines w (dw r.body 4)
      let piece := (s.getChain k ch).piece
      let d := lineLoop w.perLine w.count (guardLine k ch w (line r ts (r.aux.drop (3 + 4 * n))))
        ⟨s, dw r.aux 0, dw r.aux 1, dw r.aux 2 ≠ 0, none⟩ ((lines.drop (pieceLines * piece)).take pieceLines)
      if d.stop.any EngStop.paused then .error ⟨d.s, 0, 0, 0, 0⟩
      else if d.stop.isNone && pieceLines * (piece + 1) < lines.length then
        pieceDone (carryOn d.s k ch r ([BitVec.ofNat 64 d.lines, BitVec.ofNat 64 d.nans, BitVec.ofNat 64 (Bits.b2n d.clamp)] ++ r.aux.drop 3))
          k ch r true
      else updateDone k ch r (if version then some (dw r.body 2 % 4096) else none) d)
      (fun e => completeCmd e.s k ch r 4 e.cause e.under (updateResults r ⟨e.s, 0, 0, false, none⟩ (some e))))

/-- R289: reads the entries of the tensors of an update and checks them against W's. -/
def updateTensors (s : State) (k : Nat) (ch : Fin 8) (types : List Nat) (tids : List Nat) : Eng (State × List Tensor) := do
  let (s, ts) ← tids.foldlM (fun (acc : State × List Tensor) tid => do
    let (s, t) ← engTensor acc.1 k ch tid
    return (s, acc.2 ++ [t])) (s, [])
  let fits (w t : Tensor) : Bool := types.contains w.ty && t.ty = w.ty && t.rows = w.rows && t.cols = w.cols && contiguous s k t
  if ts.all (fun t => fits (ts.headD t) t) then return (s, ts) else engFail s 0x34

/-- The low and the high f32 of a doubleword, as values. -/
def loF (w : Nat) : Val := unpack f32 (w % 2 ^ 32)
def hiF (w : Nat) : Val := unpack f32 (w / 2 ^ 32 % 2 ^ 32)

/-- R75: the NaN results among patterns. -/
def countNaN (f : FFmt) (ps : List Nat) : Nat := (ps.filter (fun p => (unpack f p).isNaN)).length

/-- The tensors of an update by place. -/
def tensorAt (ts : List Tensor) (n : Nat) : Tensor := ts.getD n (Tensor.ofNat 0)

/-- NMU.SGD (R289). -/
def execNmuSgd (k : Nat) (ch : Fin 8) (s : State) : Out :=
  updateCmd k ch 0x10 2 s true (fun s r => do
    let (s, ts) ← updateTensors s k ch [8, 9] [Bits.fld (dw r.body 2) 11 0, Bits.fld (dw r.body 2) 23 12]
    return (s, ts, [])) (fun r ts _ s lo n => do
      let w := tensorAt ts 0
      let s ← elemWritable s k ch w lo n
      let (s, ws) ← elemRead s k ch w lo n
      let (s, gs) ← elemRead s k ch (tensorAt ts 1) lo n
      let out := (ws.zip gs).map (fun x => sgdElem w.fmt (loF (dw r.body 3)) (hiF (dw r.body 3)) (unpack w.fmt x.1) (unpack w.fmt x.2))
      return (← elemWrite s k ch w lo out, countNaN w.fmt out, false))

/-- NMU.SCALE (R289). -/
def execNmuScale (k : Nat) (ch : Fin 8) (s : State) : Out :=
  updateCmd k ch 0x12 1 s false (fun s r => do
    let (s, ts) ← updateTensors s k ch [8, 9] [Bits.fld (dw r.body 2) 11 0]
    return (s, ts, [])) (fun r ts _ s lo n => do
      let w := tensorAt ts 0
      let s ← elemWritable s k ch w lo n
      let (s, ws) ← elemRead s k ch w lo n
      let out := ws.map (fun x => (packR w.fmt .rne (mulV (loF (dw r.body 3)) (unpack w.fmt x))).1)
      return (← elemWrite s k ch w lo out, countNaN w.fmt out, false))

/-- NMU.ADAMW (R289): its parameter block is read with the checks. -/
def execNmuAdamw (k : Nat) (ch : Fin 8) (s : State) : Out :=
  updateCmd k ch 0x11 4 s true (fun s r => do
    let d2 := dw r.body 2
    let (s, ts) ← updateTensors s k ch [9] [Bits.fld d2 11 0, Bits.fld d2 23 12, Bits.fld d2 35 24, Bits.fld d2 47 36]
    let a : Word := r.body.getD 3 0
    let (s, pa) ← engAddr s k ch a 64 64 .read
    let (s, bs) ← engLoad s k ch a pa 64
    return (s, ts, wordsOf bs)) (fun _ ts ps s lo n => do
      let w := tensorAt ts 0
      let m := tensorAt ts 2
      let v := tensorAt ts 3
      let par (j : Nat) : Val := if j % 2 = 0 then loF (dw ps (j / 2)) else hiF (dw ps (j / 2))
      let s ← elemWritable s k ch w lo n
      let s ← elemWritable s k ch m lo n
      let s ← elemWritable s k ch v lo n
      let (s, ws) ← elemRead s k ch w lo n
      let (s, gs) ← elemRead s k ch (tensorAt ts 1) lo n
      let (s, ms) ← elemRead s k ch m lo n
      let (s, vs) ← elemRead s k ch v lo n
      let u (p : Nat) : Val := unpack f32 p
      let out := (List.range n).map (fun j =>
        let w0 := ws.getD j 0
        let m0 := ms.getD j 0
        let v0 := vs.getD j 0
        let e := adamElem (par 0) (par 1) (par 2) (par 3) (par 4) (par 5) (par 6) (par 7) (par 8) (u w0) (u (gs.getD j 0)) (u m0) (u v0)
        (e.1.getD (w0, m0, v0), e.1.isNone, e.2))
      let s ← elemWrite s k ch w lo (out.map (fun x => x.1.1))
      let s ← elemWrite s k ch m lo (out.map (fun x => x.1.2.1))
      let s ← elemWrite s k ch v lo (out.map (fun x => x.1.2.2))
      return (s, (out.filter (fun x => x.2.1)).length, out.any (fun x => x.2.2)))

end Sys2Proof.Machine
end

