-- ==== Sys2Proof/Machine/Collectives.lean ====
section
/-! DEFINITION. Collectives (R291): matching the participants, and the five kinds. A participant whose shards cannot be read or
written stops with the access's cause; the others go on (log 22). -/
namespace Sys2Proof.Machine
open Num

/-- The chain of collectives. -/
def collChain : Fin 8 := 6

/-- The gang of a collective's number. -/
def collGang (id : Nat) : Nat := id / 2 ^ 32

/-- The number of the collective that a core's running command belongs to. -/
def collOf (s : State) (k : Nat) (r : Running) : Nat := (s.getCore k).gang * 2 ^ 32 + Bits.fld (dw r.body 6) 31 0

/-- A core's running collective command. -/
def collRunning (s : State) (k : Nat) : Option Running :=
  (performing s k collChain).filter (fun r => 0x20 ≤ dw r.body 0 % 256 && dw r.body 0 % 256 ≤ 0x24)

/-- Fields of a collective's body (R291). -/
def shardSize (b : List Word) : Nat := Bits.fld (dw b 4) 39 0
def ranks (b : List Word) : Nat := Bits.fld (dw b 4) 47 40
def rootRank (b : List Word) : Nat := Bits.fld (dw b 4) 55 48
def collTy (b : List Word) : Ty := Ty.ofCode (BitVec.ofNat 4 (Bits.fld (dw b 4) 59 56))

/-- The cores whose command of this collective has begun and is not matched yet. -/
def starters (s : State) (id : Nat) : List (Nat × Running) :=
  (s.getGang (collGang id)).cores.filterMap (fun k =>
    match collRunning s k with
    | some r => if collOf s k r = id then some (k, r) else none
    | none => none)

/-- The numbers of the work on a collective, and of the arrival of a shard at a core (log 3). -/
def collScript (id : Nat) : Nat := 4 * id + 1
def arrivalScript (k q : Nat) : Nat := 4 * (2 ^ 40 + 64 * k + q)

/-- R291: a group list as core keys, rank by rank. -/
def groupList (s : State) (k : Nat) (b : List Word) : Eng (State × List Nat) := do
  let n := ranks b
  let (s, bs) ← engRead s k collChain (b.getD 5 0) (4 * n) 4
  return (s, (List.range n).map (fun r =>
    let w := Bits.ofBytesLE ((bs.drop (4 * r)).take 4)
    coreKeyOf (Bits.fld w 23 12) (Bits.fld w 11 0)))

/-- The group lists of the participants: those read, and the participants whose list could not be read. -/
def groupLists (s : State) (ps : List (Nat × Running)) : Eng (State × List (List Nat) × List (EngStop × Nat × Running)) :=
  ps.foldlM (fun acc p =>
    match groupList acc.1 p.1 p.2.body with
    | .ok (s, l) => .ok (s, acc.2.1 ++ [l], acc.2.2)
    | .error e => if e.paused then .error e else .ok (e.s, acc.2.1, acc.2.2 ++ [(e, p)])) (s, [], [])

/-- R291: whether every participant that waits for this collective has begun: as many as the smallest P among them (log 22). -/
def collReady (s : State) (id : Nat) : Bool :=
  (mget? id s.colls).isNone && (starters s id).any (fun x => ranks x.2.body ≤ (starters s id).length)

/-- R291: the participants agree in kind, S, P, root, type and list, and every one is in the list. -/
def agreed (ps : List (Nat × Running)) (lists : List (List Nat)) : Bool :=
  let list := lists.headD []
  let key (b : List Word) := (dw b 0 % 256, dw b 4)
  let first := (ps.head?.map (fun p => p.2.body)).getD []
  let kind := dw first 0 % 256
  ps.all (fun p => key p.2.body == key first && list.contains p.1) && lists.all (fun l => l == list) &&
    (kind ≠ 0x23 && kind ≠ 0x24 || rootRank first < list.length)

/-- COLL_MATCH (R291): all participants have begun: they agree, or every one of them completes with 0x57. -/
def execCollMatch (id : Nat) (s : State) : Out :=
  if !collReady s id then .next s
  else
    let ps := starters s id
    .next (engStep s (collScript id) (fun s => do
      let (s, lists, failed) ← groupLists s ps
      if !failed.isEmpty then
        if spentOut s then .error ⟨s, 0, 0, 0, 0⟩
        else return failed.foldl (fun s x => stopCopy { x.1 with s := s } x.2.1 collChain x.2.2 none) s
      else if !agreed ps lists then
        if spentOut s then .error ⟨s, 0, 0, 0, 0⟩ else return ps.foldl (fun s p => completeCmd s p.1 collChain p.2 4 0x57 0 []) s
      else
        let members := (lists.headD []).filterMap (fun k => (ps.find? (fun p => p.1 = k)).map (fun p => (⟨k, p.2.body, [], false⟩ : Member)))
        return { s with colls := mset id members s.colls }) EngStop.s)

/-- The kind of a matched collective. -/
def collKind (c : Coll) : Nat := (c.head?.map (fun m => dw m.body 0 % 256)).getD 0

/-- A matched collective of a kind whose gang runs. -/
def matched (s : State) (id kind : Nat) : Option Coll :=
  (mget? id s.colls).filter (fun c => collKind c = kind && (s.getGang (collGang id)).st = .running)

/-- Bytes that were read, as far as a failure let them be (R357). -/
abbrev ReadTo := Eng (State × List Byte × Option EngStop)

/-- R291, R357: bytes of the send buffer of a rank from an offset, read in that rank's address space, as far as it goes. -/
def sendBytes (s : State) (c : Coll) (q off n : Nat) : ReadTo :=
  match (c)[q]? with
  | none => .ok (s, [], some ⟨s, 0x57, 0, 0, 0⟩)
  | some m =>
    match engReadsTo m.core collChain s (runs (m.body.getD 2 0 + BitVec.ofNat 64 off) n) [] with
    | (s, bs, stop) => if stop.any EngStop.paused then .error ⟨s, 0, 0, 0, 0⟩ else .ok (s, bs, stop)

/-- R357: the bytes of one rank after another, combined as far as every one of them could be read. -/
def joinSends (f : List Byte → List Byte → List Byte) (next : State → Nat → ReadTo) (ranks : List Nat)
    (first : State × List Byte × Option EngStop) : ReadTo :=
  ranks.foldlM (fun acc q => do
    let (s, bs, stop) ← next acc.1 q
    let m := min acc.2.1.length bs.length
    return (s, f (acc.2.1.take m) (bs.take m), acc.2.2 <|> stop)) first

/-- A member's command ends in an access failure. -/
def stopMember (s : State) (m : Member) (e : EngStop) : State :=
  match collRunning s m.core with
  | some r => stopCopy { e with s := s } m.core collChain r none
  | none => s

/-- A member's command completes. -/
def endMember (s : State) (m : Member) : State :=
  match collRunning s m.core with
  | some r => completeCmd s m.core collChain r 3 0 0 []
  | none => s

/-- R156, R291: the receivers' timestamps rise to those of the senders whose bytes they take. -/
def receive (s : State) (c : Coll) (senders : List Nat) (m : Member) : State :=
  let from_ := senders.foldl (fun t q => max t (((c)[q]?.map (fun x => (s.getChain x.core collChain).ets)).getD 0)) 0
  let ch := s.getChain m.core collChain
  s.setChain m.core collChain { ch with ets := max ch.ets from_ }

/-- R285, R291: the members that failed in a transfer stop, and the shard counts as transferred. -/
def settle (s : State) (c : Coll) (fails : List (Nat × EngStop)) : State × Coll :=
  fails.foldl (fun acc x => match (acc.2)[x.1]? with
    | some m => if m.done then acc else (stopMember acc.1 m x.2, acc.2.set x.1 { m with done := true })
    | none => acc) (s, c)

/-- R291, R357: writes a shard, as far as it could be read, at its receivers, by rank and offset: the members that fail. -/
def landAt (s : State) (c : Coll) (senders : List Nat) (bs : List Byte) (stop : Option EngStop) (places : List (Nat × Nat)) :
    Eng (State × List (Nat × EngStop)) :=
  places.foldlM (fun acc x => match (c)[x.1]? with
    | none => .ok acc
    | some m =>
      if m.done then .ok acc
      else
        match engWrite (receive acc.1 c senders m) m.core collChain (m.body.getD 3 0 + BitVec.ofNat 64 x.2) bs with
        | .ok s => .ok (s, acc.2 ++ (stop.map (x.1, ·)).toList)
        | .error e => if e.paused then .error e else .ok (e.s, acc.2 ++ [(x.1, e)])) (s, [])

/-- R285, R291: the next shard transfer of a collective of `units` transfers: unit u is formed from the senders' buffers and written at
each of its receivers, by rank and offset; after the last one every command completes. A member whose part fails stops. -/
def performColl (id kind : Nat) (s : State) (units : Coll → Nat) (senders : Coll → List Nat) (form : State → Coll → Nat → ReadTo)
    (receivers : Coll → Nat → List (Nat × Nat)) : Host.Outcome State Fault Refusal :=
  match matched s id kind with
  | none => .next s
  | some c => .next (engStep s (collScript id) (fun s => do
      let u := (c.head?.map (fun m => m.arrived.length)).getD 0
      let (s, bs, stop) ← form s c u
      let (s, fails) ← landAt s c (senders c) bs stop (receivers c u)
      if spentOut s then .error ⟨s, 0, 0, 0, 0⟩
      else
        let (s, c) := settle s c fails
        let c := c.map (fun m => { m with arrived := m.arrived ++ [u] })
        if u + 1 < units c then return { s with colls := mset id c s.colls }
        else return { c.foldl (fun s m => if m.done then s else endMember s m) s with colls := mdel id s.colls }) EngStop.s)

/-- The ranks of a collective. -/
def allRanks (c : Coll) : List Nat := List.range c.length

/-- R291: adds two shards element by element, rounding to nearest even or wrapping. -/
def addShards (ty : Ty) (x y : List Byte) : List Byte :=
  let b := ty.bits / 8
  (List.range (x.length / b)).flatMap (fun j =>
    Bits.bytesLE b (elemAdd ty (Bits.ofBytesLE ((x.drop (b * j)).take b)) (Bits.ofBytesLE ((y.drop (b * j)).take b))))

/-- R291: R(r), the sum of shard r over the ranks in order. -/
def reduceShard (s : State) (c : Coll) (r n : Nat) (ty : Ty) : ReadTo := do
  let first ← sendBytes s c 0 (r * n) n
  joinSends (addShards ty) (fun s q => sendBytes s c (q + 1) (r * n) n) (List.range (c.length - 1)) first

/-- The body that the members share. -/
def collBody (c : Coll) : List Word := (c.head?.map Member.body).getD []

/-- COLL_RS (R291): a reduce-scatter, rank by rank. -/
def execCollRs (id : Nat) (s : State) : Out :=
  performColl id 0x21 s List.length allRanks (fun s c r => reduceShard s c r (shardSize (collBody c)) (collTy (collBody c)))
    (fun _ r => [(r, 0)])

/-- COLL_AR (R291): an all-reduce, shard by shard. -/
def execCollAr (id : Nat) (s : State) : Out :=
  performColl id 0x22 s List.length allRanks (fun s c r => reduceShard s c r (shardSize (collBody c)) (collTy (collBody c)))
    (fun c r => (allRanks c).map (fun q => (q, r * shardSize (collBody c))))

/-- COLL_BC (R291): a broadcast from the root. -/
def execCollBc (id : Nat) (s : State) : Out :=
  performColl id 0x23 s (fun _ => 1) (fun c => [rootRank (collBody c)])
    (fun s c _ => sendBytes s c (rootRank (collBody c)) 0 (shardSize (collBody c))) (fun c _ => (allRanks c).map (fun q => (q, 0)))

/-- R291: the ranks other than the root. -/
def otherRanks (c : Coll) : List Nat := (allRanks c).filter (fun q => q ≠ rootRank (collBody c))

/-- COLL_XOR (R291): the XOR of the other ranks' shards at the root; the others receive nothing. -/
def execCollXor (id : Nat) (s : State) : Out :=
  performColl id 0x24 s (fun _ => 1) otherRanks
    (fun s c _ => joinSends (fun x y => (x.zip y).map (fun b => b.1 ^^^ b.2)) (fun s q => sendBytes s c q 0 (shardSize (collBody c)))
      (otherRanks c) (s, List.replicate (shardSize (collBody c)) 0, none))
    (fun c _ => [(rootRank (collBody c), 0)])

/-! ### COLL.AG -/

/-- R291, R357: shard q lands at a member as its o-th: data, as far as it could be read, list word, flag word, count word. -/
def landShard (s : State) (c : Coll) (m : Member) (q : Nat) : Eng State := do
  let n := shardSize m.body
  let p := c.length
  let o := m.arrived.length + 1
  let flags : Word := m.body.getD 7 0
  let put (s : State) (off v : Nat) : Eng State := do
    let (s, pa) ← engAddr s m.core collChain (flags + BitVec.ofNat 64 off) 8 8 .write
    engStore s m.core collChain pa [(0, Bits.bytesLE 8 v)]
  let (s, bs, stop) ← sendBytes s c q 0 n
  let s := receive s c [q] m
  let s ← engWrite s m.core collChain (m.body.getD 3 0 + BitVec.ofNat 64 (q * n)) bs
  match stop with
  | some e => .error { e with s := s }
  | none =>
    let s ← put s (8 * p + 8 * (o - 1)) q
    let s ← put s (8 * q) o
    put s (16 * p) o

/-- R291: a shard arrives at a member; what stops the member's command. -/
def arrive (s : State) (c : Coll) (r q : Nat) : Eng (State × List (Nat × EngStop)) :=
  match (c)[r]? with
  | none => .ok (s, [])
  | some m =>
    match landShard s c m q with
    | .ok s => .ok (s, [])
    | .error e => if e.paused then .error e else .ok (e.s, [(r, e)])

/-- R291: the ordinal of a shard that has arrived at a member which goes on. -/
def arrivedAt (c : Coll) (r q : Nat) : Coll :=
  match (c)[r]? with
  | some m => if m.done then c else c.set r { m with arrived := m.arrived ++ [q] }
  | none => c

/-- R291: completes an all-gather once every member has all its shards. -/
def gathered (s : State) (id : Nat) (c : Coll) : State :=
  if c.all (fun m => m.done || c.length ≤ m.arrived.length) then
    { c.foldl (fun s m => if m.done then s else endMember s m) s with colls := mdel id s.colls }
  else { s with colls := mset id c s.colls }

/-- COLL_AG (R291): an all-gather begins with every member's own shard, which is ordinal 1. -/
def execCollAg (id : Nat) (s : State) : Out :=
  match matched s id 0x20 with
  | none => .next s
  | some c =>
    if c.any (fun m => m.done || !m.arrived.isEmpty) then .next s
    else .next (engStep s (collScript id) (fun s => do
      let (s, fails) ← (List.range c.length).foldlM (fun (acc : State × List (Nat × EngStop)) r => do
        let (s, f) ← arrive acc.1 c r r
        return (s, acc.2 ++ f)) (s, [])
      if spentOut s then .error ⟨s, 0, 0, 0, 0⟩
      else
        let (s, c) := settle s c fails
        return gathered s id ((List.range c.length).foldl (fun c r => arrivedAt c r r) c)) EngStop.s)

/-- Another shard is in the middle of its arrival at a core. -/
def arriving (s : State) (k q : Nat) : Bool := (List.range 64).any (fun j => j ≠ q && (mget? (arrivalScript k j) s.scripts).isSome)

/-- COLL_SHARD_ARRIVAL (R291): shard q arrives at core k. -/
def execCollShardArrival (k : Nat) (q : Nat) (s : State) : Out :=
  match collRunning s k with
  | none => .next s
  | some r =>
    let id := collOf s k r
    match matched s id 0x20 with
    | none => .next s
    | some c =>
      match c.findIdx? (fun m => m.core = k) with
      | none => .next s
      | some rank =>
        let m := c.getD rank ⟨k, [], [], true⟩
        if m.done || m.arrived.isEmpty || m.arrived.contains q || c.length ≤ q || arriving s k q then .next s
        else .next (engStep s (arrivalScript k q) (fun s => do
          let (s, fails) ← arrive s c rank q
          if spentOut s then .error ⟨s, 0, 0, 0, 0⟩
          else
            let (s, c) := settle s c fails
            return gathered s id (arrivedAt c rank q)) EngStop.s)

/-- The gang whose work has a number. -/
def scriptGang (s : State) (key : Nat) : Nat :=
  let n := key / 4
  match key % 4 with
  | 0 => (s.getCore (if n < 2 ^ 40 then n / 8 else (n - 2 ^ 40) / 64)).gang
  | 1 => collGang n
  | 2 => n
  | _ => (s.getCore n).gang

/-- R285: a gang has a piece of work under way: it finishes it before the gang stops or commits (log 3). -/
def workUnderWay (s : State) (g : Nat) : Bool := s.scripts.any (fun x => scriptGang s x.1 == g)

/-- The work of a gang that is abandoned. -/
def dropScripts (s : State) (g : Nat) : State := { s with scripts := s.scripts.filter (fun x => scriptGang s x.1 != g) }

end Sys2Proof.Machine
end

