-- ==== Sys2Proof/Machine/Fabric.lean ====
section
/-! DEFINITION. The forms of a communication phase (R268 to R278). -/
namespace Sys2Proof.Machine

/-- R278: cause 0x69 with its subcode. -/
def raisePhaseEntry {α : Type} (s : State) (i : Instr) (sub : Nat) : Res α := raise 0x69 (slotInfo s i).1 (BitVec.ofNat 64 sub)

/-- R172, R270: a level of the gang in phase mode has the scope as its domain. -/
def phaseLevel (g : Gang) (scope : Nat) : Bool := g.levels.any (fun l => l.getLsbD 6 && l.toNat % 8 == scope)

/-- R270: a context that waits at PHASE, or flushes before it. -/
def atPhase (c : Ctx) : Bool :=
  match c.wait with
  | some (.phase _ _) => true
  | some (.flush _ (.phase _) _) => true
  | _ => false

/-- R270: the run of lines that PHASE would load exceeds 512, as it stands when PHASE issues (log 8). -/
def runTooLong (s : State) (next : Word) : Bool :=
  match loadRun s s.cur 513 next with
  | .ok (_, run) => decide (512 < run.length)
  | .error _ => false

/-- PHASE (R270): flushes, fences, loads its lines and arrives; execution goes on at the next line. -/
def execPhase (g : Guard) (scope : Fin 8) (s : State) : Out :=
  let i : Instr := .phase g scope
  let next := (s.grp.first &&& ~~~0x3F#64) + 64
  guarded s i g (
    if s.inPhase then raisePhase s i 4
    else if !phaseLevel s.gang scope.val then raisePhaseEntry s i 1
    else if [0, 1, 2, 3].any (fun n => n ≠ s.ctxNo.val && atPhase (s.getCtx (4 * s.coreKey + n))) then raisePhaseEntry s i 2
    else if lfsMode s.ctx ≠ 0 then raisePhaseEntry s i 3
    else if runTooLong s next then raisePhaseEntry s i 4
    else .ok (startFlush (s.goto next) (barrierReach scope.val) (.phase scope)))

/-- R274: the stamp check of an X form; `spec` and `latch` are those that its cause reports. -/
def checkStamp (p : Phase) (stamp count : Nat) (spec : BitVec 8) (latch : Latch) : Res Unit :=
  if p.pcc ≠ stamp then raiseLane p.pcc (stamp, count) spec 1 latch else .ok ()

/-- An X form in its phase; outside one the line's PH bit has already refused it (R272). -/
def xForm (s : State) (i : Instr) (g : Guard) (body : Phase → Res State) : Out :=
  guarded s i g (
    match s.core.phase with
    | none => raiseSlot s i 0x07
    | some p => body p)

/-- XMIT (R274). -/
def execXmit (g : Guard) (d : Link) (a : Opnd) (stamp : BitVec 16) (s : State) : Out :=
  xForm s (.xmit g d a stamp) g (fun p => do
    checkStamp p stamp.toNat 0 d.spec (openLatch s)
    s.laneWrite d (s.src a) (some (stamp.toNat, 0)))

/-- XRCV (R274). -/
def execXrcv (g : Guard) (d : Fin 32) (a : Link) (stamp : BitVec 16) (count : BitVec 8) (s : State) : Out :=
  let l := s.latch a
  xForm s (.xrcv g d a stamp count) g (fun p => do
    checkStamp p stamp.toNat count.toNat a.spec l
    if !l.pres || l.sent.toNat + count.toNat ≠ stamp.toNat then raiseLane p.pcc (stamp.toNat, count.toNat) a.spec 2 l
    else return s.putS d l.value)

/-- XSEL (R275): a pass-through on lane D from this cycle on, or the end of one. A stamp error reports lane D (R278 does not say which lane:
log 11); so does one of XMIT. -/
def execXsel (g : Guard) (d : Link) (a : Opnd) (stamp : BitVec 16) (count : BitVec 8) (s : State) : Out :=
  xForm s (.xsel g d a stamp count) g (fun p => do
    checkStamp p stamp.toNat count.toNat d.spec (openLatch s)
    let others := p.passes.filter (fun x => x.out != d)
    let passes := match a with
      | .link l => others ++ [⟨d, some l, p.pcc, if count = 0 then 65536 else p.pcc + count.toNat⟩]
      | _ => others
    return s.updCore (fun c => { c with phase := some { p with passes := passes } }))

/-- XIDLE (R274): nothing issues for count cycles, its own included. It names no lane, so the link specifier of its stamp error is a free
value (log 11). -/
def execXidle (g : Guard) (stamp : BitVec 16) (count : BitVec 8) (s : State) : Out :=
  xForm s (.xidle g stamp count) g (fun p => do
    checkStamp p stamp.toNat count.toNat ((Config.freeWord s.free).extractLsb' 56 8) (openLatch s)
    return s.updCore (fun c => { c with phase := some { p with idle := count.toNat } }))

/-- PEND (R276): the core leaves the phase; execution goes on at the next line. -/
def execPend (g : Guard) (s : State) : Out :=
  xForm s (.pend g) g (fun _ =>
    let t := s.goto ((s.grp.first &&& ~~~0x3F#64) + 64)
    .ok { t with grp := { t.grp with pend := true } })

/-- R270: the contexts of the gang's cores in a unit that wait at PHASE of a scope. -/
def phaseArrivals (s : State) (ks : List Nat) (scope : Nat) : List (Nat × List (Word × Line)) :=
  ks.filterMap (fun k => ([0, 1, 2, 3].map (fun n => 4 * k + n)).findSome? (fun key =>
    match (s.getCtx key).wait with
    | some (.phase sc run) => if sc.val = scope && (s.getCtx key).live then some (key, run) else none
    | _ => none))

/-- R165: every member's timestamp becomes the greatest of them. -/
def joinPts (s : State) (keys : List Nat) : State :=
  let top := keys.foldl (fun t k => max t (s.getCtx k).pts) 0
  keys.foldl (fun s k => s.setCtx k { s.getCtx k with pts := top }) s

/-- R270, R269, R98: phase cycle 0 of one core: its context runs, and its latches are clear. -/
def beginPhase (s : State) (episode : Nat) (key : Nat) (run : List (Word × Line)) : State :=
  let k := key / 4
  let n : Fin 4 := ⟨key % 4, Nat.mod_lt _ (by decide)⟩
  let c := s.getCore k
  let x := s.getCtx key
  let x := { x with wait := none, lineBuf := none, quantum := if c.running = n then x.quantum else 0 }
  (s.setCtx key x).setCore k { c with
    running := n
    phase := some ⟨episode, n, 0, run, [], [], [], [], [], [], [], [], 0, (s.getPkg (k / 4096)).dmap, 0⟩ }

/-- PHASE_BARRIER_COMPLETE (R343, R270): the last core of the unit of core k has arrived. -/
def execPhaseBarrierComplete (k : Nat) (scope : Fin 8) (s : State) : Out :=
  let g := s.getGang (s.getCore k).gang
  let ks := gangUnit g scope.val k
  let arrived := phaseArrivals s ks scope.val
  if g.st ≠ .running || ks.isEmpty || arrived.length ≠ ks.length || g.outAt.any (fun t => t ≤ s.now) then .next s
  else
    let s := ks.foldl (fun s k => s.setQuad (k / 4) { s.getQuad (k / 4) with busy := 0, sfBusy := 0 }) s
    let s := joinPts { s with episode := s.episode + 1 } (arrived.map (·.1))
    .next (arrived.foldl (fun s x => beginPhase s s.episode x.1 x.2) s)

/-- PCC_LIMIT (R277): a phase cycle count past 65,535 raises 0x6B, subcode 3, at the group concerned: the group due at cycle 65,536, and
during XIDLE the one after it; the PCC field of TINFOB, of 16 bits, then reads 0 (the spec leaves these open: log 29). -/
def execPccLimit (k : Nat) (s : State) : Out :=
  match (s.getCore k).phase with
  | none => .next s
  | some p =>
    if p.pcc ≤ 65535 then .next s
    else
      let key := 4 * k + p.ctx.val
      let a := (s.getCtx key).pc
      let word := match p.run.find? (fun x => x.1 == a &&& ~~~0x3F#64) with
        | some x => slotAt x.2 (a.toNat % 8)
        | none => 0
      let t := { s with cur := key, grp := { Group.idle with first := a, next := a } }
      match phaseSlot (α := State) t word 3 with
      | .error (.trap i) => .next { takeTrap t i with cur := s.cur, grp := s.grp }
      | _ => .next s

end Sys2Proof.Machine
end

