-- ==== Sys2Proof/Machine/Image.lean ====
section
/-! DEFINITION. Core blocks (R140, R205, R338, R343, R345, R346): what a shadow image and a save area hold of a core, and the bytes of a
block in the shadow area. -/
namespace Sys2Proof.Machine

/-- Physical address of a core's scratchpad. -/
def padBase (k : Nat) : Nat := mkPa (k / 4096) 1 (k % 4096 * 2 ^ 18)

/-- R343, R346: the block of a core: its scratchpad without the marked lines (R131), its core state and its contexts. -/
def coreImage (s : State) (k : Nat) : CoreImage :=
  let c := s.getCore k
  let base := padBase k
  let within (a : Nat) : Bool := base ≤ a && a < base + padSize s k
  ⟨k, { c with leases := [], tlb := [] }, [0, 1, 2, 3].map (fun n => s.getCtx (4 * k + n)),
    (s.mem.filter (fun x => within x.1 && !c.discardBits.contains ((x.1 - base) / 64))).map (fun x => (x.1 - base, x.2)),
    (s.lines.filter (fun x => within (x.1 * 64))).map (fun x => (x.1 - base / 64, x.2))⟩

/-! ### Layouts -/

/-- R338: the context image, given the PC it holds. -/
def contextImage (c : Ctx) (pc : Word) : List Byte :=
  (List.range 32).flatMap (fun n => Bits.bytesLE 8 ((c.s.toArray.getD n 0).toNat)) ++
    ([c.full.zeroExtend 64, pc, c.p.zeroExtend 64, c.asr, c.vsh, c.lfs, BitVec.ofNat 64 (c.quantum % 2 ^ 24),
      c.tcause, c.tpc, c.tinfoa, c.tinfob, c.tseq, c.trapvec] : List Word).flatMap (fun w => Bits.bytesLE 8 w.toNat) ++
    List.replicate 24 0

/-- R205: a dispatch ring entry as 512 bits. -/
def ringWord (e : RingEntry) : Nat :=
  e.insn.toNat + e.tseq % 2 ^ 16 * 2 ^ 96 + e.ctx.val * 2 ^ 112 + e.pass % 2 ^ 8 * 2 ^ 114 + e.state % 4 * 2 ^ 122 +
    e.pc.toNat * 2 ^ 128 + e.opa.toNat * 2 ^ 192 + e.opb.toNat * 2 ^ 256 + e.opc.toNat * 2 ^ 320 +
    e.vshc.toNat * 2 ^ 384 + e.rm.toNat * 2 ^ 412 + e.rep.toNat * 2 ^ 448 + Bits.b2n e.repv * 2 ^ 463

/-- R140: a live entry of the residual tile as 640 bits, in a cycle. -/
def residualWord (now : Nat) (e : Residual) : Nat :=
  e.data.toNat + e.line % 2 ^ 54 * 2 ^ 512 + e.ty.code.toNat * 2 ^ 572 + e.mask.toNat * 2 ^ 576 + Bits.b2n e.exact * 2 ^ 592 + 2 ^ 593 +
    min 65536 (now - e.born) * 2 ^ 594

/-- R140: the residual tile: 32 entries of 80 bytes, the free ones zero. -/
def residualBytes (now : Nat) (es : List Residual) : List Byte :=
  (List.range 32).flatMap (fun n => Bits.bytesLE 80 (((es)[n]?.map (residualWord now)).getD 0))

/-- R343: the parts of a block whose bytes the spec lays out, numbered, without the scratchpad, which is part 0. -/
def blockParts (now : Nat) (i : CoreImage) : List (Nat × List Byte) :=
  let c := i.core
  [(1, c.tiles.toList.flatMap (fun t => Bits.bytesLE 4096 t.toNat)), (2, c.accs.toList.flatMap (fun t => Bits.bytesLE 4096 t.toNat)),
    (3, c.status.toList), (4, c.tsh.toList.flatMap (fun w => Bits.bytesLE 8 w.toNat)), (5, c.bits.toList.flatMap (fun t => Bits.bytesLE 512 t.toNat)),
    (6, residualBytes now c.residual), (7, (List.range 64).flatMap (fun q => Bits.bytesLE 64 (ringWord (mget RingEntry.free q c.ring))))] ++
    i.ctxs.zipIdx.flatMap (fun x =>
      [(8 + x.2, contextImage x.1 x.1.pc), (12 + x.2, x.1.v.toList.flatMap (fun l => Bits.bytesLE 64 l.toNat))])

/-- R343: bytes of a block beside those parts: the sequencer, the scoreboard, the chains, the counters, the queue pointers, the arrivals,
the wait counts and the timestamps, in a form the spec leaves open. -/
def openBytes : Nat := 4024

/-- R120, R343, R345: the bytes of each part of a core block of a bank split; part 16 holds those of the open form. -/
def partBytes (split part : Nat) : Nat :=
  match part with
  | 0 => 16384 * split
  | 1 | 2 => 8 * 4096
  | 3 => 8
  | 4 => 8 * 8
  | 5 => 8 * 512
  | 6 => 32 * 80
  | 7 => 64 * 64
  | 16 => openBytes
  | n => if n < 12 then 384 else 32 * 64

/-- R343, R345: where a part begins in the block: after the parts that stand before it in an order the spec leaves open (log 7). -/
def blockPart (split part : Nat) : Nat :=
  let rank := Config.blockOrder split
  ((List.range 17).filter (fun m => rank m < rank part || (rank m = rank part && m < part))).foldl (fun n m => n + partBytes split m) 0

/-! ### The shadow area (R346) -/

/-- R346: the virtual address of the block of a core of a gang in a slot. -/
def blockVa (g : Gang) (slot k : Nat) : Word :=
  g.shadow + BitVec.ofNat 64 (0x1000 + (slot * g.cores.length + g.cores.idxOf k) * coreBlockBytes g.split)

/-- Writes bytes of a gang's shadow area at a virtual address. -/
def shadowPut (s : State) (g : Nat) (va : Word) (bs : List Byte) : State :=
  bs.zipIdx.foldl (fun s b => match gangPa s g (va + BitVec.ofNat 64 b.2) with
    | some pa => { s with mem := s.mem.write pa b.1 }
    | none => s) s

/-- R131, R346: writes a scratchpad line of a core into its block in a slot; a marked line is skipped. -/
def shadowLine (s : State) (g slot k l : Nat) : State :=
  let x := s.getGang g
  if (s.getCore k).discardBits.contains l then s
  else shadowPut s g (blockVa x slot k + BitVec.ofNat 64 (blockPart x.split 0 + 64 * l)) (s.mem.bytes (padBase k + 64 * l) 64)

/-- R346: writes the block of a core in a slot. -/
def shadowBlock (s : State) (g slot : Nat) (i : CoreImage) : State :=
  let x := s.getGang g
  let at_ (n : Nat) : Word := blockVa x slot i.key + BitVec.ofNat 64 (blockPart x.split n)
  let s := (List.range (256 * x.split)).foldl (fun s l => shadowLine s g slot i.key l) s
  let s := (blockParts s.now i).foldl (fun s p => shadowPut s g (at_ p.1) p.2) s
  let rest := (List.range openBytes).map (fun j => BitVec.ofNat 8 (Config.freeWord (s.free + j)).toNat)
  { shadowPut s g (at_ 16) rest with free := s.free + openBytes }

/-- R346: the lines of some bytes of a gang's shadow area. -/
def shadowLines (s : State) (g first n : Nat) : List Nat :=
  (List.range ((n + 63) / 64)).filterMap (fun j => (gangPa s g ((s.getGang g).shadow + BitVec.ofNat 64 (first + 64 * j))).map (· / 64))

/-- R346, R347: writes the blocks of a gang into a slot; a line that is written whole is no longer poisoned (R357). -/
def writeSlot (s : State) (g slot : Nat) (imgs : List CoreImage) : State :=
  let x := s.getGang g
  if x.shadow = 0 then s
  else
    let size := x.cores.length * coreBlockBytes x.split
    let s := imgs.foldl (fun s i => shadowBlock s g slot i) s
    (shadowLines s g (0x1000 + slot * size) size).foldl (fun s l => s.setLine l { s.getLine l with poison := false }) s

/-- R349, R350: an uncorrectable error stands in the slot that a rollback of a gang reads, or in its shadow log. -/
def shadowBad (s : State) (g : Nat) : Bool :=
  let x := s.getGang g
  let size := x.cores.length * coreBlockBytes x.split
  x.shadow ≠ 0 && ((shadowLines s g (0x1000 + x.ssn % 2 * size) size ++
    shadowLines s g (0x1000 + 2 * size) (Config.logEntryBytes * x.log.length)).any (fun l => poisoned s (l * 64)))

end Sys2Proof.Machine
end

