-- ==== Sys2Proof/Machine/MatrixOps.lean ====
section
/-! DEFINITION. What the matrix and prism forms compute on tiles, accumulators and bit tiles (R229 to R260). A tile is held as
the row-major little-endian integer of its bytes, an accumulator as 1,024 cells of 32 bits, row by row (R232), a bit tile as
64 rows of 64 bits (R252). -/
namespace Sys2Proof.Mat
open Num

/-- R229: the fields of TSH. -/
structure TShape where
  rows : Nat
  cols : Nat
  ty : Ty
  w : Nat
  scale : Int
  tr : Bool
  seed : Nat
  dens : Nat
deriving DecidableEq, Repr

/-- R229: the shape that a value of TSH denotes. -/
def TShape.ofWord (x : Nat) : TShape :=
  ⟨Bits.fld x 5 0 + 1, Bits.fld x 11 6 + 1, Ty.ofCode (BitVec.ofNat 4 (Bits.fld x 15 12)), Bits.fld x 18 16 + 2,
   Bits.sx 8 (Bits.fld x 27 20), Bits.bit x 19, Bits.fld x 59 32, Bits.fld x 63 60⟩

/-- The bytes of one stored row of `cols` elements (R83, R229). -/
def rowBytes (ty : Ty) (w cols : Nat) : Nat :=
  if ty = .bfp then cols * w / 8 + cols / 16 else cols * (ty.bits / 8)

/-- R229: the bytes a tile occupies. -/
def TShape.bytes (s : TShape) : Nat := s.rows * rowBytes s.ty s.w s.cols

/-- R230: a value that MTS may write to a TSH. -/
def legalTsh (x : Nat) : Bool :=
  let s := TShape.ofWord x
  Bits.fld x 31 28 = 0 && (s.ty = .f64 || s.ty = .f32 || s.ty = .f16 || s.ty = .bf16 || s.ty = .bfp) &&
    s.w ≠ 9 && s.dens ≤ 3 && s.bytes ≤ 4096 && (s.ty ≠ .bfp || s.cols % 16 = 0)

/-- The value of stored element (i, j) of a tile. -/
def tileVal (s : TShape) (t i j : Nat) : Val :=
  let row := 8 * i * rowBytes s.ty s.w s.cols
  if s.ty = .bfp then
    let m := Bits.sx s.w (t >>> (row + s.w * j))
    let e := t >>> (row + s.cols * s.w + 8 * (j / 16)) % 256
    blockVal s.w s.scale e m
  else unpack (fmtOf s.ty) (t >>> (row + s.ty.bits * j) % 2 ^ s.ty.bits)

/-- R231: element (i, j) of the effective tile. -/
def effVal (s : TShape) (t i j : Nat) : Val := if s.tr then tileVal s t j i else tileVal s t i j

/-- R231: effective rows and columns. -/
def TShape.effRows (s : TShape) : Nat := if s.tr then s.cols else s.rows
def TShape.effCols (s : TShape) : Nat := if s.tr then s.rows else s.cols

/-- The little-endian integer of fields of `b` bits. -/
def catBits (b : Nat) : List Nat → Nat
  | [] => 0
  | x :: xs => x % 2 ^ b + 2 ^ b * catBits b xs

/-- One row of values in a stored format, and the flags of narrowing them (R245, R249): IEEE elements each rounded once, or
blocks of 16 quantised by R84 in the row layout of R83. -/
def storeRow (ty : Ty) (w : Nat) (s : Int) (rm : Rm) (xs : List Val) : Nat × Flg :=
  if ty = .bfp then
    let bs := (chunks 16 xs.length xs).map (quantise w s)
    (Vec.packBlocks w bs.length (bs.map (fun b => (b.1, b.2.1))), bs.foldl (fun f b => f ||| b.2.2) 0)
  else
    let rs := xs.map (convert (fmtOf ty) rm)
    (catBits ty.bits (rs.map Prod.fst), rs.foldl (fun f r => f ||| r.2) 0)

/-- A tile of `rows` rows from a function of its elements. -/
def buildTile (s : TShape) (rm : Rm) (f : Nat → Nat → Val) : Nat × Flg :=
  let rs := (List.range s.rows).map (fun i => storeRow s.ty s.w s.scale rm ((List.range s.cols).map (f i)))
  (catBits (8 * rowBytes s.ty s.w s.cols) (rs.map Prod.fst), rs.foldl (fun g r => g ||| r.2) 0)

/-- R245: TCVT of a tile. -/
def tcvt (src dst : TShape) (rm : Rm) (t : Nat) : Nat × Flg := buildTile dst rm (tileVal src t)

/-- R233: the flags of a status byte; a tiny result records nothing beyond NX. -/
def statusOf (f : Flg) : Nat :=
  Bits.b2n (f &&& NX ≠ 0) + 2 * Bits.b2n (f &&& NV ≠ 0) + 4 * Bits.b2n (f &&& OF ≠ 0) + 8 * Bits.b2n (f &&& SA ≠ 0)

/-- R89: the block length L. -/
def blockLen : Ty → Nat
  | .f64 => 8
  | .f16 | .bf16 => 32
  | _ => 16

/-- R241: Kmax. -/
def kMax : Ty → Nat
  | .f64 => 16
  | .f32 => 32
  | _ => 64

/-- R232: the pattern of cell `x` of an accumulator, or of a pair for f64. -/
def cell (wide : Bool) (lo hi x : Nat) : Nat :=
  let l := lo >>> (32 * x) % 2 ^ 32
  if wide then l + 2 ^ 32 * (hi >>> (32 * x) % 2 ^ 32) else l

/-- R232: an accumulator, or a pair of them, from 1,024 cell patterns. -/
def ofCells (wide : Bool) (hi : Nat) (cs : List Nat) : Nat × Nat :=
  if wide then (catBits 32 cs, catBits 32 (cs.map (· / 2 ^ 32))) else (catBits 32 cs, hi)

/-- R89, R246, R248: the accumulators after a product of K whose operands are A(i, k) and B(k, j); a k for which row i has no A
contributes nothing. -/
def product (ty : Ty) (rm : Rm) (lo hi K : Nat) (a : Nat → Nat → Option Val) (b : Nat → Nat → Val) : (Nat × Nat) × Flg :=
  let wide := ty = .f64
  let f := if wide then f64 else f32
  let L := blockLen ty
  let rs := (List.range 1024).map (fun x =>
    let i := x / 32
    let j := x % 32
    (List.range (Bits.ceilDiv K L)).foldl (fun (st : Nat × Flg) q =>
      let r := mmaBlock f rm st.1 ((List.range (min K ((q + 1) * L) - q * L)).filterMap (fun k =>
        (a i (q * L + k)).map (fun x => (x, b (q * L + k) j))))
      (r.1, st.2 ||| r.2)) (cell wide lo hi x, 0))
  (ofCells wide hi (rs.map Prod.fst), rs.foldl (fun g r => g ||| r.2) 0)

/-- R246: MMA; K is the effective column count of A. -/
def mma (ty : Ty) (rm : Rm) (sa sb : TShape) (ta tb lo hi : Nat) : (Nat × Nat) × Flg :=
  product ty rm lo hi sa.effCols (fun i k => some (effVal sa ta i k)) (effVal sb tb)

/-- R248: how many of every 16 are kept. -/
def keepCount (dens : Nat) : Nat :=
  match dens with
  | 1 => 8 | 2 => 4 | _ => 2

/-- R248: the offset o of row i and group q. -/
def keepOff (seed dens i q : Nat) : Nat :=
  let z := (seed + 53 * i + 31 * q) % 2 ^ 28
  (z ^^^ (z >>> 7) ^^^ (z >>> 14) ^^^ (z >>> 21)) % (16 / keepCount dens)

/-- R248: whether a row keeps k. -/
def keeps (seed dens i k : Nat) : Bool := k % 16 % (16 / keepCount dens) = keepOff seed dens i (k / 16)

/-- R248: the stored column of a kept k. -/
def keptCol (dens k : Nat) : Nat := keepCount dens * (k / 16) + (k % 16) / (16 / keepCount dens)

/-- R241: the logical K of a sparse tile. -/
def logicalK (s : TShape) : Nat := s.effCols * 16 / keepCount s.dens

/-- R248, R89: MMAS: A(i, k) is the stored element of a kept k; every other k contributes nothing. -/
def mmas (ty : Ty) (rm : Rm) (sa sb : TShape) (ta tb lo hi : Nat) : (Nat × Nat) × Flg :=
  product ty rm lo hi (logicalK sa)
    (fun i k => if keeps sa.seed sa.dens i k then some (effVal sa ta i (keptCol sa.dens k)) else none) (effVal sb tb)

/-- R250: the function of an epilogue code 1 to 8. -/
def epiFun : EpiFn → Option Fun
  | .gelu => some .gelu
  | .silu => some .silu
  | .tanh => some .tanh
  | .sigmoid => some .sigmoid
  | .dgelu => some .dgelu
  | .dsilu => some .dsilu
  | .dtanh => some .dtanh
  | .dsigmoid => some .dsigmoid
  | _ => none

/-- R249: one element of ADRAIN in format F: its pattern and flags. -/
def drainElem (f : FFmt) (rm : Rm) (fn : EpiFn) (x scale : Val) (beta c : Option Val) : Nat × Flg :=
  let y := packR f rm (match beta with
    | some b => fmaV rm x scale b
    | none => mulV x scale)
  let yv := unpack f y.1
  let then' (r : Nat × Flg) : Nat × Flg := (r.1, r.2 ||| y.2)
  match fn with
  | .none => y
  | .gelu | .silu | .tanh | .sigmoid =>
    match epiFun fn with
    | some g => then' (packR f rm (apply g yv))
    | none => y
  | .mul => then' (packR f rm (mulV (c.getD .defaultNaN) yv))
  | _ =>
    match epiFun fn with
    | some g =>
      let d := packR f rm (apply g (c.getD .defaultNaN))
      let r := packR f rm (mulV (unpack f d.1) yv)
      (r.1, r.2 ||| d.2 ||| y.2)
    | none => y

/-! ### Bit tiles (R252 to R260) -/

/-- R252: bit (i, j). -/
def bget (t i j : Nat) : Bool := Bits.bit t (64 * i + j)

/-- Row i as a 64-bit number. -/
def brow (t i : Nat) : Nat := t >>> (64 * i) % 2 ^ 64

/-- A bit tile from its rows. -/
def ofRows (f : Nat → Nat) : Nat := catBits 64 ((List.range 64).map f)

/-- A row from its bits. -/
def rowOf (f : Nat → Bool) : Nat := catBits 1 ((List.range 64).map (fun j => Bits.b2n (f j)))

/-- R256: element k of a BCMP operand. -/
def bcmpElem (w : Nat) (v : Vector Line 32) (r k : Nat) : Nat := Vec.getE w (512 / w) v r k

/-- R257: the order of two elements; none when they are unordered. -/
def bcmpOrder (t : Ty) (m : NanMode) (x y : Nat) : Option Ordering :=
  if t.isInt then some (compare (intVal t x) (intVal t y))
  else
    let a := unpack (fmtOf t) x
    let b := unpack (fmtOf t) y
    match m with
    | .ord => if a.isNaN || b.isNaN then none else some (cmpV false a b)
    | .tot => some (Vec.totalCmp a b)
    | .nlast =>
      if a.isNaN then (if b.isNaN then some .eq else some .gt)
      else if b.isNaN then some .lt else some (cmpV false a b)

/-- R257: the predicate P. -/
def bpred (p : BPred) (o : Option Ordering) (i j : Nat) : Bool :=
  match p with
  | .lt => o == some .lt
  | .le => o == some .lt || o == some .eq
  | .eq => o == some .eq
  | .ne => o != some .eq
  | .gt => o == some .gt
  | .ge => o == some .gt || o == some .eq
  | .lti => o == some .lt || (o == some .eq && j < i)
  | .gti => o == some .gt || (o == some .eq && j < i)

/-- R257: BCMP. -/
def bcmp (t : Ty) (p : BPred) (nm : NanMode) (m n : Nat) (v : Vector Line 32) (a b : Nat) : Nat :=
  ofRows (fun i => if i < m then rowOf (fun j =>
    j < n && bpred p (bcmpOrder t nm (bcmpElem t.bits v a i) (bcmpElem t.bits v b j)) i j) else 0)

/-- R258: the four registers of counts from a function of k. -/
def countRegs (v : Vector Line 32) (d : Nat) (f : Nat → Nat) : Vector Line 32 :=
  (List.range 4).foldl (fun v r =>
    Vec.setReg v (d + r) (BitVec.ofNat 512 (catBits 32 ((List.range 16).map (fun i => f (16 * r + i)))))) v

/-- R258: BPOPR of row k. -/
def bpopr (t k : Nat) : Nat := Bits.popc 64 (brow t k)

/-- R260: BTRN. -/
def btrn (t : Nat) : Nat := ofRows (fun i => rowOf (fun j => bget t j i))

/-- R258: BPOPC of column k. -/
def bpopc (t k : Nat) : Nat := (List.range 64).foldl (fun n i => n + Bits.b2n (bget t i k)) 0

/-- R258: BFIRST of row k. -/
def bfirst (t k : Nat) : Nat := Bits.firstSet 64 0 (brow t k)

/-- R260: BCOMP. -/
def bcomp (a b : Nat) : Nat :=
  ofRows (fun i => (List.range 64).foldl (fun r k => if bget a i k then r ||| brow b k else r) 0)

/-- R260: the identity relation. -/
def beye : Nat := ofRows (fun i => 2 ^ i)

/-- R260: the transitive closure, one intermediate node after another. -/
def bclos (refl : Bool) (a : Nat) : Nat :=
  let c := (List.range 64).foldl (fun t k =>
    let rk := brow t k
    ofRows (fun i => if bget t i k then brow t i ||| rk else brow t i)) a
  if refl then c ||| beye else c

/-- R260: BLOG. -/
def blog (f : BlogFn) (a b : Nat) : Nat :=
  match f with
  | .and => a &&& b
  | .or => a ||| b
  | .xor => a ^^^ b
  | .andn => a &&& ((2 ^ 4096 - 1) ^^^ b)
  | .not => (2 ^ 4096 - 1) ^^^ a

end Sys2Proof.Mat
end

