-- ==== Sys2Proof/Machine/Matrix.lean ====
section
/-! DEFINITION. The matrix forms and the array queue (R228 to R251). A form takes its effect when it is dispatched, in the order
R236 gives, unless an earlier form of the core is still in the array queue (log 9). -/
namespace Sys2Proof.Machine
open Num Mat

/-! ### The claim and the checks at issue (R234, R241) -/

/-- R234: the acting context holds the claim. -/
def holdsClaim (s : State) : Bool := s.core.claim == some s.ctxNo && !s.core.releasing

/-- The shape a TSH value denotes. -/
def shapeAt (tsh : Vector Word 8) (n : Fin 8) : TShape := TShape.ofWord tsh[n].toNat

/-- R241: the shapes of a product of K columns. -/
def productOk (t : Ty) (d : Fin 8) (a b : TShape) (k : Nat) : Bool :=
  a.ty = t && b.ty = t && b.dens = 0 && a.effRows = 32 && b.effRows = k && b.effCols = 32 && 1 ≤ k && k ≤ kMax t &&
    (t ≠ .f64 || d.val % 2 = 0) &&
    (t ≠ .bfp || (a.w = b.w && a.scale = b.scale && !a.tr && b.tr && k % 16 = 0))

/-- R245: the TSH of TCVT's destination. -/
def tcvtTsh (t : Ty) (d a : Word) : Word :=
  (a &&& 0xFFFFFFFF00080FFF) ||| (d &&& 0x0FF70000) ||| BitVec.ofNat 64 (t.code.toNat * 4096)

/-- R241: the shape checks of a matrix form, with the TSH values at its issue. -/
def shapeOk (tsh : Vector Word 8) (i : Instr) : Bool :=
  match i with
  | .tld _ tr d _ _ _ => !(tr && (shapeAt tsh d).ty = .bfp)
  | .tst _ tr d _ _ _ => !(tr && (shapeAt tsh d).ty = .bfp)
  | .tcvt _ t _ d a _ =>
    let x := shapeAt tsh a
    let y := TShape.ofWord (tcvtTsh t tsh[d] tsh[a]).toNat
    y.bytes ≤ 4096 && ((t ≠ .bfp && x.ty ≠ .bfp) || x.cols % 16 = 0)
  | .mma _ t _ d a b => (shapeAt tsh a).dens = 0 && productOk t d (shapeAt tsh a) (shapeAt tsh b) (shapeAt tsh a).effCols
  | .gmma _ t _ d a b _ => (shapeAt tsh a).dens = 0 && productOk t d (shapeAt tsh a) (shapeAt tsh b) (shapeAt tsh a).effCols
  | .mmas _ t _ d a b =>
    let x := shapeAt tsh a
    x.dens ≠ 0 && logicalK x % 16 = 0 && productOk t d x (shapeAt tsh b) (logicalK x)
  | .adrain _ t fn d a b c _ _ _ =>
    (t ≠ .f64 || a.val % 2 = 0) &&
      (match d with
       | .t n => (shapeAt tsh n).rows = 32 && (shapeAt tsh n).cols = 32
       | _ => true) &&
      (match b with
       | some n => (shapeAt tsh n).ty = t && 32 ≤ (shapeAt tsh n).cols
       | none => true) &&
      (match c with
       | some n => (shapeAt tsh n).rows = 32 && (shapeAt tsh n).cols = 32 && (shapeAt tsh n).ty ≠ .bfp
       | none => !(fn = .dgelu || fn = .dsilu || fn = .dtanh || fn = .dsigmoid || fn = .mul))
  | _ => true

/-! ### Effects (R242 to R250) -/

/-- Replaces the first bytes of a tile. -/
def fillTile (old : Tile) (bytes x : Nat) : Tile := BitVec.ofNat 32768 (old.toNat / 2 ^ (8 * bytes) * 2 ^ (8 * bytes) + x % 2 ^ (8 * bytes))

/-- R233: ORs flags into a status byte. -/
def orStatus (c : Core) (n : Fin 8) (fl : Flg) : Core := { c with status := c.status.set n (c.status[n] ||| BitVec.ofNat 8 (statusOf fl)) }

/-- R213-style operands of a transfer: a captured register or a small immediate. -/
def opWord (o : Opnd) (x : Word) : Word :=
  match o with
  | .imm i => i.signExtend 64
  | _ => x

/-- R183, R242: the load of a tensor-table entry for a transfer, a message of a paired context where it leaves the core. -/
def readEntry (s : State) (ps : List Piece) : Except Perf (State × List Byte) :=
  let pa := (ps.head?.map (·.pa)).getD 0
  if s.ctx.pair.isNone || !targetAllows s s.coreKey s.gangId s.gang.asid pa true false then readPieces 0x37 s ps []
  else
    match exchangeAt s 20 pa [] (fun s => let r := loadBytes s pa 32
        (r.1, (none, [BitVec.ofNat 512 (Bits.ofBytesLE r.2.1)]))) with
    | .error e => .error (.stop e)
    | .ok (s, a) => .ok (s, Bits.bytesLE 32 (a.2.headD 0).toNat)

/-- R242: the first five checks of a tile transfer: the entry of a TID, or what the form does instead. -/
def tensorFor (s : State) (tid : Word) (ok : Tensor → Bool) : Except Perf (State × Tensor) :=
  let ea := tensorAddr s.gang.tensors tid.toNat
  if 4096 ≤ tid.toNat then .error (.fault s 0x68 tid ea)
  else
    match checkPieces 0x37 .read 32 s [(ea, 32)] with
    | .error p => .error p
    | .ok (s, ps) =>
      match piecesReady .read s ps with
      | .error e => .error (.stop e)
      | .ok s =>
        match readEntry s ps with
        | .error p => .error p
        | .ok (s, bs) =>
          let t := Tensor.ofNat (Bits.ofBytesLE bs)
          if t.rows = 0 || t.cols = 0 then .error (.fault s 0x68 tid ea)
          else if !ok t then .error (.fault s 0x34 tid ea)
          else if (nearOff t.base.toNat).isNone then .error (.fault s 0x33 tid t.base)
          else .ok (s, t)

/-- R242: the pieces of the rows of a block, each checked by R123. -/
def rowPieces (m : Mode) (align : Nat) : State → List (List (Word × Nat)) → List Piece → Except Perf (State × List Piece)
  | s, [], acc => .ok (s, acc)
  | s, row :: rest, acc =>
    match checkPieces 0x37 m align s (row.flatMap (fun x => cutLines (x.2 / 64 + 2) x.1 x.2)) with
    | .error e => .error e
    | .ok (s, ps) => rowPieces m align s rest (acc ++ joinRuns ps)

/-- R242: the checked pieces of a block of a tensor. -/
def blockPieces (s : State) (t : Tensor) (m : Mode) (r0 c0 nr nc : Nat) : Except Perf (State × List Piece) :=
  match rowPieces m t.align s (blockSegments t r0 c0 nr nc) [] with
  | .error p => .error p
  | .ok (s, ps) =>
    match piecesReady m s ps with
    | .error e => .error (.stop e)
    | .ok s => .ok (s, ps)

/-- R242: the block lies within the tensor, and its columns on block bounds for bfp. -/
def blockIn (t : Tensor) (r0 c0 nr nc : Nat) : Bool :=
  !t.layout && r0 + nr ≤ t.rows && c0 + nc ≤ t.cols && (t.ty ≠ 14 || (c0 % 16 = 0 && nc % 16 = 0))

/-- Elements of `b` bits of a block of `nr` rows of `nc`, read by columns. -/
def flipBlock (b nr nc x : Nat) : Nat :=
  catBits b ((List.range (nr * nc)).map (fun k => x >>> (b * (k % nr * nc + k / nr)) % 2 ^ b))

/-- R243: TLD, or TST when `store`. -/
def tileTransfer (s : State) (f : ArrayForm) (e : RingEntry) (store tr : Bool) (d : Fin 8) (a b c : Opnd) : Perf :=
  let sh := shapeAt f.tsh d
  let r0 := (opWord b e.opb).toNat
  let c0 := (opWord c e.opc).toNat
  let nr := if tr then sh.cols else sh.rows
  let nc := if tr then sh.rows else sh.cols
  let w := sh.ty.bits
  let usable (t : Tensor) : Bool :=
    t.ty = sh.ty.code.toNat && (sh.ty ≠ .bfp || (t.w = sh.w && t.scale = sh.scale)) && blockIn t r0 c0 nr nc
  match tensorFor s (opWord a e.opa) usable with
  | .error p => p
  | .ok (s, t) =>
    match blockPieces s t (if store then .write else .read) r0 c0 nr nc with
    | .error p => p
    | .ok (s, ps) =>
      let old := s.core.tiles[d]
      if store then
        let x := old.toNat % 2 ^ (8 * sh.bytes)
        let bs := Bits.bytesLE sh.bytes (if tr then flipBlock w sh.rows sh.cols x else x)
        match writePieces 0x37 s ps bs with
        | .error p => p
        | .ok s => .ok s none 0
      else
        match readPieces 0x37 s ps [] with
        | .error p => p
        | .ok (s, bs) =>
          let x := Bits.ofBytesLE bs
          .ok (s.updCore (fun k => { k with tiles := k.tiles.set d (fillTile old sh.bytes (if tr then flipBlock w nr nc x else x)) })) none 0

/-- The accumulator pair that a form of type t names (R232). -/
def accPair (c : Core) (d : Fin 8) : Nat × Nat := (c.accs[d].toNat, (c.accs.toArray.getD (d.val + 1) 0).toNat)

/-- Writes an accumulator, or the pair for f64. -/
def setAcc (c : Core) (t : Ty) (d : Fin 8) (x : Nat × Nat) : Core :=
  let accs := c.accs.set d (BitVec.ofNat 32768 x.1)
  { c with accs := if t = .f64 then accs.setIfInBounds (d.val + 1) (BitVec.ofNat 32768 x.2) else accs }

/-- R246 to R248: a core's accumulator after a product. -/
def addProduct (c : Core) (t : Ty) (d : Fin 8) (r : (Nat × Nat) × Flg) : Core := orStatus (setAcc c t d r.1) d r.2

/-- R249: what ADRAIN computes before narrowing: the values of row i in format F, and the flags. -/
def drainRow (c : Core) (f : ArrayForm) (t : Ty) (rm : Rm) (fn : EpiFn) (a : Fin 8) (b cc : Option (Fin 8)) (scale : BitVec 32)
    (brow : Bool) (i : Nat) : List Val × Flg :=
  let wide := t = .f64
  let ff := fmtOf t
  let acc := accPair c a
  let sigma := unpack f32 scale.toNat
  let rs := (List.range 32).map (fun j => drainElem ff rm fn (unpack ff (cell wide acc.1 acc.2 (32 * i + j))) sigma
    (b.map (fun n => tileVal (shapeAt f.tsh n) c.tiles[n].toNat 0 (if brow then i else j)))
    (cc.map (fun n => tileVal (shapeAt f.tsh n) c.tiles[n].toNat i j)))
  (rs.map (fun r => unpack ff r.1), rs.foldl (fun g r => g ||| r.2) 0)

/-- R249: the 32 drained rows in a destination's format, and the flags. -/
def drainRows (c : Core) (f : ArrayForm) (t : Ty) (rm : Rm) (fn : EpiFn) (a : Fin 8) (b cc : Option (Fin 8)) (scale : BitVec 32)
    (brow : Bool) (ty : Ty) (w : Nat) (sc : Int) : List Nat × Flg :=
  let rs := (List.range 32).map (fun i =>
    let r := drainRow c f t rm fn a b cc scale brow i
    let x := storeRow ty w sc rm r.1
    (x.1, r.2 ||| x.2))
  (rs.map Prod.fst, rs.foldl (fun g r => g ||| r.2) 0)

/-- R242, R249: an entry type that ADRAIN accepts. A bfp entry with BW = 7, whose width no block has, is refused (the spec names only the
type: log 29). -/
def drainType (t : Tensor) : Bool := t.ty = 8 || t.ty = 9 || t.ty = 10 || t.ty = 11 || (t.ty = 14 && t.w ≠ 9)

/-- R249: ADRAIN to a tile or, by a drain descriptor, to a tensor. A descriptor with a nonzero bit in 63:60 takes its 0x34 before the checks of
R242, with TINFO as that cause has it there (the spec gives neither: log 29). -/
def drain (s : State) (f : ArrayForm) (e : RingEntry) (t : Ty) (fn : EpiFn) (d : Opnd) (a : Fin 8) (b c : Option (Fin 8))
    (scale : BitVec 32) (brow : Bool) (rc : Rc) : Perf :=
  let rm := Vec.rmOf rc (Rm.ofCode e.rm.toNat)
  match d with
  | .t n =>
    let sh := shapeAt f.tsh n
    let r := drainRows s.core f t rm fn a b c scale brow sh.ty sh.w sh.scale
    let tile := fillTile s.core.tiles[n] sh.bytes (catBits (8 * rowBytes sh.ty sh.w 32) r.1)
    .ok (s.updCore (fun k => orStatus { k with tiles := k.tiles.set n tile } a r.2)) none 0
  | _ =>
    let x := f.word.toNat
    let tid := BitVec.ofNat 64 (Bits.fld x 11 0)
    let r0 := Bits.fld x 35 12
    let c0 := Bits.fld x 59 36
    if Bits.fld x 63 60 ≠ 0 then .fault s 0x34 tid (tensorAddr s.gang.tensors tid.toNat)
    else
      match tensorFor s tid (fun t => drainType t && blockIn t r0 c0 32 32) with
      | .error p => p
      | .ok (s, te) =>
        match blockPieces s te .write r0 c0 32 32 with
        | .error p => p
        | .ok (s, ps) =>
          let ty := Ty.ofCode (BitVec.ofNat 4 te.ty)
          let r := drainRows s.core f t rm fn a b c scale brow ty te.w te.scale
          match writePieces 0x37 s ps (r.1.flatMap (Bits.bytesLE (rowBytes ty te.w 32))) with
          | .error p => p
          | .ok s => .ok (s.updCore (fun k => orStatus k a r.2)) none 0

/-- What a matrix form other than GMMA does, for the context that dispatched it. -/
def runMatrix (s : State) (f : ArrayForm) (e : RingEntry) : Perf :=
  let c := s.core
  let rmOf (rc : Rc) : Rm := Vec.rmOf rc (Rm.ofCode e.rm.toNat)
  match f.instr with
  | .tld _ tr d a b cc => tileTransfer s f e false tr d a b cc
  | .tst _ tr d a b cc => tileTransfer s f e true tr d a b cc
  | .tzero _ d => .ok (s.updCore (fun k => { k with tiles := k.tiles.set d (fillTile c.tiles[d] (shapeAt f.tsh d).bytes 0) })) none 0
  | .tmov _ d a => .ok (s.updCore (fun k => { k with tiles := k.tiles.set d c.tiles[a] })) none 0
  | .tcvt _ t rc d a cc =>
    let y := TShape.ofWord (tcvtTsh t f.tsh[d] f.tsh[a]).toNat
    let r := Mat.tcvt (shapeAt f.tsh a) y (rmOf rc) c.tiles[a].toNat
    let k := { c with tiles := c.tiles.set d (fillTile c.tiles[d] y.bytes r.1) }
    .ok (s.updCore (fun _ => match cc with
      | some n => orStatus k n r.2
      | none => k)) none 0
  | .mma _ t rc d a b =>
    .ok (s.updCore (fun k => addProduct k t d (Mat.mma t (rmOf rc) (shapeAt f.tsh a) (shapeAt f.tsh b) c.tiles[a].toNat c.tiles[b].toNat
      (accPair c d).1 (accPair c d).2))) none 0
  | .mmas _ t rc d a b =>
    .ok (s.updCore (fun k => addProduct k t d (Mat.mmas t (rmOf rc) (shapeAt f.tsh a) (shapeAt f.tsh b) c.tiles[a].toNat
      c.tiles[b].toNat (accPair c d).1 (accPair c d).2))) none 0
  | .azero _ d => .ok (s.updCore (fun k => { k with accs := k.accs.set d 0 })) none 0
  | .adrain _ t fn d a b cc scale brow rc => drain s f e t fn d a b cc scale brow rc
  | .astat _ _ a => .ok s (some (c.status[a].zeroExtend 64)) 0
  | .aclr _ d => .ok (s.updCore (fun k => { k with status := k.status.set d 0 })) none 0
  | _ => .ok s none 0

/-! ### The array queue (R236, R238) -/

/-- R246: the cycles of a product of K columns. -/
def productTime (t : Ty) (w k : Nat) : Nat :=
  match t with
  | .f32 => 4 * k
  | .f64 => 16 * k
  | .bfp => w * k / 16
  | _ => k

/-- R238, R262: the cycles for which a form occupies the array (C is R246's: R238 names R244, log 29). -/
def arrayTime (f : ArrayForm) : Nat :=
  let sh (n : Fin 8) : TShape := shapeAt f.tsh n
  match f.instr with
  | .tld _ _ d _ _ _ | .tst _ _ d _ _ _ => 2 + Bits.ceilDiv (sh d).bytes 128
  | .tmov _ _ a => Bits.ceilDiv (sh a).bytes 128
  | .tcvt .. => 32
  | .mma _ t _ _ a _ => productTime t (sh a).w (sh a).effCols
  | .mmas _ t _ _ a _ => productTime t (sh a).w (logicalK (sh a)) * (sh a).effCols / logicalK (sh a)
  | .adrain _ _ fn .. => if fn = .none then 32 else 40
  | .bcmp .. => 4
  | .bpopr .. | .bpopc .. | .bfirst .. | .btrn .. => 2
  | .bclos .. => 64
  | .bcomp .. => 8
  | .bld .. | .bst .. => 6
  | _ => 1

/-- R236, R205: what a dispatched form that has been performed, or has faulted, leaves in its ring entry: it completes by
DISPATCHED_COMPLETE, or in a phase with the cycles that it takes (R271). -/
def finishArray (f : ArrayForm) (p : Perf) : Res State :=
  match p with
  | .stop x => .error x
  | .fault s cause a b => .ok (faultEntry s s.cur f.tseq 0 cause a b)
  | .ok s res _ => .ok (s.updCore (fun c => { c with
      ring := mset (f.tseq % 64) { c.entry f.tseq with result := res.getD 0, stage := 1 } c.ring
      phase := c.phase.map (fun p => { p with arrayDue := p.arrayDue ++ [(f.tseq, arrayTime f)] }) }))

/-- The guard in the fields of an instruction lets it execute (R58). -/
def fieldsGuard (s : State) (f : Fields) : Bool :=
  s.rp ⟨f.g.toNat % 8, Nat.mod_lt _ (by decide)⟩ != f.g.getLsbD 3

/-- The other instructions of the acting group whose guards let them execute, with their slots. -/
def partners (s : State) : List (Nat × Fields) :=
  (s.grp.all.filter (fun x => x.1 ≠ s.grp.slot)).map (fun x => (x.1, Fields.ofSlot (slotOf x.2))) |>.filter (fun x => fieldsGuard s x.2)

/-- R183, R242, R261: a transfer that may not wait in the array queue: a later memory form of its pair would go before it, or its message could
not be compared with that of the other copy. -/
def unqueued (s : State) (f : Fields) : Bool :=
  transferForm f.op.toNat f.d.toNat && (s.ctx.pair.isSome || (partners s).any (fun x => decide (s.grp.slot < x.1) && memoryForm x.2))

/-- R56, R253: a form that writes v registers may not be queued beside one that does so at once. -/
def vBeside (s : State) (f : Fields) : Bool :=
  0xB1 ≤ f.op.toNat && f.op.toNat ≤ 0xB3 && (partners s).any (fun x => portOf x.2 == .mem && clsOf x.2.d == .v && x.2.op ≠ 0x43)

/-- R253: a form of the acting context that waits in the array queue writes v registers. -/
def vQueued (s : State) : Bool :=
  s.core.arrayQ.any (fun x => let e := s.core.entry x.tseq
    e.ctx == s.ctxNo && decide (0xB1 ≤ e.insn.toNat / 2 ^ 88) && decide (e.insn.toNat / 2 ^ 88 ≤ 0xB3))

/-- R205, R236: a matrix or prism form enters the ring, its s destination is empty, and the shapes are those after its issue. -/
def enterArray (s : State) (q : Nat) (e : RingEntry) (tsh : Vector Word 8 → Vector Word 8) : State :=
  let s := match e.dest with
    | some d => s.upd (fun c => c.setEmpty d)
    | none => s
  (enterRing s q e).updCore (fun c => { c with tsh := tsh c.tsh })

/-- R236: a form enters the array queue. -/
def queueArray (s : State) (f : ArrayForm) : State := s.updCore (fun c => { c with arrayQ := c.arrayQ ++ [f] })

/-- R158: the command for which a context waits, after an access that overlaps its destination. -/
def heldFor (s : State) : Option (Fin 8 × Nat) :=
  match s.ctx.wait with
  | some (.overlap ch seq) => some (ch, seq)
  | _ => none

/-- R205, R236: dispatches a matrix or prism form of the acting context: performed at once when the array queue is empty and it is
no GMMA, else queued. A transfer that must wait waits in the queue, unless its pair or its other copy forbids that; so does one between whose
accesses the agenda may let other steps fall (log 3). -/
def arrayIssue (run : State → ArrayForm → RingEntry → Perf) (s : State) (i : Instr) (word : Word) (dest : Option (Fin 32))
    (tsh : Vector Word 8 → Vector Word 8) : Res State := do
  let q ← ringSlot s i
  let e := { entryFor s i q with dest := dest }
  let fs := Fields.ofSlot e.insn
  let vs := if fs.op = 0xB0 && !vQueued s then some s.view.v else none
  let f : ArrayForm := ⟨i, q, s.core.tsh, word, vs, none, 0, s.gang.ran⟩
  let waits := unqueued s fs || vBeside s fs
  if !s.core.arrayQ.isEmpty || (s.steps.isSome && transferForm fs.op.toNat fs.d.toNat && !waits) then
    if waits then stallOr s i .retry else return queueArray (enterArray s q e tsh) f
  else
    match run { s with steps := none } f e with
    | .stop (.wait t) =>
      if t.gang.consumed.isSome || t.ctx.wait = some .message || unqueued s fs then .error (.wait t)
      else return queueArray (enterArray (t.upd (fun c => { c with wait := s.ctx.wait })) q e tsh) { f with held := heldFor t }
    | .stop x => .error x
    | .fault t cause a b => finishArray f (.fault (enterArray t q e tsh) cause a b)
    | .ok t res fl => finishArray f (.ok (enterArray t q e tsh) res fl)

/-- A matrix form: it needs the claim and the shapes of R241. -/
def matrixForm (s : State) (i : Instr) (g : Guard) (word : Word) (dest : Option (Fin 32)) (tsh : Vector Word 8 → Vector Word 8) : Out :=
  guarded s i g (
    if !holdsClaim s then raiseOpen s 0x30
    else if !shapeOk s.core.tsh i then raiseOpen s 0x31
    else arrayIssue runMatrix s i word dest tsh)

/-! ### The forms -/

/-- MCLAIM (R234). -/
def execMclaim (g : Guard) (s : State) : Out :=
  guarded s (.mclaim g) g (
    match s.core.claim with
    | none => do
      let s ← dispatchNow s (.mclaim g)
      return takeClaim s s.coreKey s.ctxNo
    | some _ => if holdsClaim s then dispatchNow s (.mclaim g) else stall s .claim)

/-- MRLS (R234): the context waits until the core's matrix and prism forms have completed; then the claim is free. -/
def execMrls (g : Guard) (s : State) : Out :=
  guarded s (.mrls g) g (
    if s.grp.waited = some .released then .ok s
    else if !holdsClaim s then raiseOpen s 0x30
    else do
      let s ← dispatchNow s (.mrls g)
      let s := s.updCore (fun c => { c with releasing := true })
      if matrixBusy s.core then stallOr s (.mrls g) .release else return passClaim s s.coreKey)

/-- TLD (R242, R243). -/
def execTld (g : Guard) (tr : Bool) (d : Fin 8) (a b c : Opnd) (s : State) : Out := matrixForm s (.tld g tr d a b c) g 0 none id

/-- TST (R242, R243). -/
def execTst (g : Guard) (tr : Bool) (d : Fin 8) (a b c : Opnd) (s : State) : Out := matrixForm s (.tst g tr d a b c) g 0 none id

/-- TZERO (R244). -/
def execTzero (g : Guard) (d : Fin 8) (s : State) : Out := matrixForm s (.tzero g d) g 0 none id

/-- TMOV (R244): the shape is copied at issue. -/
def execTmov (g : Guard) (d a : Fin 8) (s : State) : Out := matrixForm s (.tmov g d a) g 0 none (fun x => x.set d x[a])

/-- TCVT (R245): the shape of the destination is written at issue. -/
def execTcvt (g : Guard) (t : Ty) (rc : Rc) (d a : Fin 8) (c : Option (Fin 8)) (s : State) : Out :=
  matrixForm s (.tcvt g t rc d a c) g 0 none (fun x => x.set d (tcvtTsh t x[d] x[a]))

/-- MMA (R246). -/
def execMma (g : Guard) (t : Ty) (rc : Rc) (d a b : Fin 8) (s : State) : Out := matrixForm s (.mma g t rc d a b) g 0 none id

/-- R247: the cores of the group that a GMMA of core k names. -/
def gmmaGroup (k : Nat) (code : BitVec 2) : List Nat :=
  let g := 4 * 2 ^ code.toNat
  (List.range g).map (fun j => k - k % 32 + g * (k % 32 / g) + j)

/-- GMMA (R247): it waits in the array queue for its join; a group with a core outside the gang faults at once. -/
def execGmma (g : Guard) (t : Ty) (rc : Rc) (d a b : Fin 8) (grp : BitVec 2) (s : State) : Out :=
  let i : Instr := .gmma g t rc d a b grp
  guarded s i g (
    if !holdsClaim s then raiseOpen s 0x30
    else if !shapeOk s.core.tsh i then raiseOpen s 0x31
    else do
      let q ← ringSlot s i
      let n := s.core.gmma + 1
      let s := (enterRing s q (entryFor s i q)).updCore (fun c => { c with gmma := n })
      if (gmmaGroup s.coreKey grp).any (fun k => (s.getCore k).gang ≠ s.gangId) then
        return faultEntry s s.cur q 0 0x35 (BitVec.ofNat 64 (4 * 2 ^ grp.toNat)) (BitVec.ofNat 64 n)
      else return s.updCore (fun c => { c with arrayQ := c.arrayQ ++ [⟨i, q, c.tsh, 0, none, none, n, s.gang.ran⟩] }))

/-- MMAS (R248). -/
def execMmas (g : Guard) (t : Ty) (rc : Rc) (d a b : Fin 8) (s : State) : Out := matrixForm s (.mmas g t rc d a b) g 0 none id

/-- AZERO (R244). -/
def execAzero (g : Guard) (d : Fin 8) (s : State) : Out := matrixForm s (.azero g d) g 0 none id

/-- ADRAIN (R249): an s register in D is the drain descriptor, captured at issue. -/
def execAdrain (g : Guard) (t : Ty) (fn : EpiFn) (d : Opnd) (a : Fin 8) (b c : Option (Fin 8)) (scale : BitVec 32) (brow : Bool) (rc : Rc)
    (s : State) : Out :=
  matrixForm s (.adrain g t fn d a b c scale brow rc) g (s.src d) none id

/-- ASTAT (R244): s[D] is empty until the status byte arrives. -/
def execAstat (g : Guard) (d : Fin 32) (a : Fin 8) (s : State) : Out := matrixForm s (.astat g d a) g 0 (some d) id

/-- ACLR (R244). -/
def execAclr (g : Guard) (d : Fin 8) (s : State) : Out := matrixForm s (.aclr g d) g 0 none id

/-! ### The joint product (R247) -/

/-- The GMMA at the head of a core's array queue, with its number. -/
def headGmma (c : Core) : Option ArrayForm :=
  match c.arrayQ with
  | f :: _ =>
    match f.instr with
    | .gmma .. => some f
    | _ => none
  | [] => none

/-- What GMMAs must agree on (R247): g, T, RC, K and the accumulator format. -/
def gmmaKey (f : ArrayForm) : BitVec 2 × Ty × Rc × Nat :=
  match f.instr with
  | .gmma _ t rc _ a _ grp => (grp, t, rc, (shapeAt f.tsh a).effCols)
  | _ => (0, .x, .asr, 0)

/-- R247: a core's GMMA numbered n, once it has brought it to the head of its queue. -/
def nthGmma (s : State) (n k : Nat) : Option ArrayForm := (headGmma (s.getCore k)).filter (fun f => f.n = n)

/-- R247: the code of the largest group that GMMAs numbered n at the heads of the row of core k name, of those that meet the group of k
of code `code`. -/
def gmmaSpan (s : State) (k n : Nat) : Nat → BitVec 2 → BitVec 2
  | 0, code => code
  | fuel + 1, code =>
    let top := (gmmaGroup k 3).foldl (fun (m : BitVec 2) y =>
      match nthGmma s n y with
      | some f => if m < (gmmaKey f).1 && (gmmaGroup y (gmmaKey f).1).any (fun x => (gmmaGroup k code).contains x) then (gmmaKey f).1 else m
      | none => m) code
    if top = code then code else gmmaSpan s k n fuel top

/-- Takes the head of a core's array queue; the next GMMA reaches the head now (R247). -/
def popArray (s : State) (k : Nat) : State :=
  let c := s.getCore k
  let ran := (s.getGang c.gang).ran
  s.setCore k { c with arrayQ := match c.arrayQ with
    | _ :: f :: rest => { f with since := ran } :: rest
    | _ => [] }

/-- R247, R251: the GMMA at the head of a core is withdrawn with a cause. -/
def failGmma (s : State) (k cause : Nat) : State :=
  match headGmma (s.getCore k) with
  | none => s
  | some f =>
    let c := s.getCore k
    let e := c.entry f.tseq
    let s := if cause = 0x36 then s.setCore k { c with withdrawn := f.n :: c.withdrawn } else s
    faultEntry (popArray s k) (4 * k + e.ctx.val) f.tseq 0 cause
      (BitVec.ofNat 64 (4 * 2 ^ (gmmaKey f).1.toNat)) (BitVec.ofNat 64 f.n)

/-- R247: one core's share of a joint product: its own aD += the leader's A · its own B. -/
def joinGmma (s : State) (k : Nat) (ta : Nat) (sa : TShape) : State :=
  let c := s.getCore k
  match headGmma c with
  | none => s
  | some f =>
    match f.instr with
    | .gmma _ t rc d _ b _ =>
      let e := c.entry f.tseq
      let r := Mat.mma t (Vec.rmOf rc (Rm.ofCode e.rm.toNat)) sa (shapeAt f.tsh b) ta c.tiles[b].toNat (accPair c d).1 (accPair c d).2
      let c := addProduct { c with ring := mset (f.tseq % 64) { e with stage := 1 } c.ring } t d r
      popArray (s.setCore k c) k
    | _ => s

/-- R247: what becomes of a GMMA whose partner has already left its n-th GMMA behind: withdrawn like one that was withdrawn, else 0x35,
since that one was matched in another group. -/
def gmmaMissed (s : State) (k : Nat) (f : ArrayForm) : Option Nat :=
  let ks := gmmaGroup k (gmmaKey f).1
  if ks.any (fun y => (s.getCore y).withdrawn.contains f.n) then some 0x36
  else if ks.any (fun y => f.n ≤ (s.getCore y).gmma && !(s.getCore y).arrayQ.any (fun x => x.n = f.n)) then some 0x35
  else none

/-- GMMA_JOIN (R247): GMMAs of one number that meet and differ fail on every core that has brought its own; else, once every core of
the group has, they join. -/
def execGmmaJoin (k : Nat) (s : State) : Out :=
  match headGmma (s.getCore k) with
  | none => .next s
  | some f =>
    let ks := gmmaGroup k (gmmaSpan s k f.n 4 (gmmaKey f).1)
    let forms := ks.map (nthGmma s f.n)
    if forms.any (fun x => x.any (fun h => gmmaKey h ≠ gmmaKey f)) then
      .next (ks.foldl (fun s y => if (nthGmma s f.n y).isSome then failGmma s y 0x35 else s) s)
    else if forms.any (·.isNone) then .next s
    else
      let leader := s.getCore (ks.headD k)
      match forms.headD none with
      | none => .next s
      | some lf =>
        match lf.instr with
        | .gmma _ _ _ _ a _ _ => .next (ks.foldl (fun s y => joinGmma s y leader.tiles[a].toNat (shapeAt lf.tsh a)) s)
        | _ => .next s

/-- GMMA_JOIN_TIMEOUT (R247): the join has not completed WLIMIT cycles after the GMMA reached the head, cause 0x36; or it cannot complete,
because a partner has left its own behind. -/
def execGmmaJoinTimeout (k : Nat) (s : State) : Out :=
  let c := s.getCore k
  let g := s.getGang c.gang
  match headGmma c with
  | none => .next s
  | some f =>
    match gmmaMissed s k f with
    | some cause => .next (failGmma s k cause)
    | none => if g.wlimit ≠ 0 && f.since + g.wlimit ≤ g.ran then .next (failGmma s k 0x36) else .next s

end Sys2Proof.Machine
end

