-- ==== Sys2Proof/Machine/Promise.lean ====
section
/-! DEFINITION. The tensor and promise forms and the promise commands (R299 to R317). A promise command is performed in one step,
or, where the agenda limits a step's accesses, in several (log 3). -/
namespace Sys2Proof.Machine
open Num

/-! ### The record (R302, R303) -/

/-- Fields of a record. -/
def recState (x : Nat) : Nat := Bits.fld x 1 0
def recPolicy (x : Nat) : Nat := Bits.fld x 3 2
def recTidW (x : Nat) : Nat := Bits.fld x 19 8
def recTidP (x : Nat) : Nat := Bits.fld x 31 20
def recTidF (x : Nat) : Nat := Bits.fld x 43 32
def recTidG (x : Nat) : Nat := Bits.fld x 55 44
def recIssue (x : Nat) : Nat := Bits.fld x 95 64
def recExp (x : Nat) : Nat := Bits.fld x 127 96
def recEta (x : Nat) : Val := unpack f32 (Bits.fld x 159 128)
def recFade (x : Nat) : Val := unpack f32 (Bits.fld x 191 160)
def recMu (x : Nat) : Val := unpack f32 (Bits.fld x 223 192)
def recCrc (x : Nat) : Nat := Bits.fld x 255 224
def recFlags (x : Nat) : Nat := Bits.fld x 319 304
def recGrad (x : Nat) : Word := BitVec.ofNat 64 (Bits.fld x 383 320)
def recNext (x : Nat) : Word := BitVec.ofNat 64 (Bits.fld x 447 384)
def recSeq (x : Nat) : Nat := Bits.fld x 511 448

/-- R302, R303: every reserved bit is zero. -/
def recClean (x : Nat) : Bool := Bits.fld x 7 4 = 0 && Bits.fld x 63 56 = 0 && Bits.fld x 319 312 = 0 && Bits.fld x 511 505 = 0

/-- R303: the flags, bit 48 first. -/
def flTrained : Nat := 1
def flCrcMis : Nat := 2
def flKover : Nat := 4
def flNaN : Nat := 8
def flPoison : Nat := 16
def flRevert : Nat := 32
def flSwept : Nat := 64
def flTrap : Nat := 128

/-- A record with a new STATE and FLAGS. -/
def recSet (x state flags : Nat) : Nat := Bits.setFld (Bits.setFld x 2 0 state) 16 304 flags
def recSetK (x k cscale : Nat) : Nat := Bits.setFld (Bits.setFld x 16 288 k) 32 256 cscale
def recSetGrad (x pa : Nat) : Nat := Bits.setFld x 64 320 pa
def recSetNext (x : Nat) (a : Word) : Nat := Bits.setFld x 64 384 a.toNat

/-- The command that is being performed: core, chain, and the record's address. -/
structure PCmd where
  k : Nat
  ch : Fin 8
  ea : Word

/-- Reads a record. -/
def recRead (s : State) (p : PCmd) (ea : Word) : Eng (State × Nat) := do
  let (s, pa) ← engAddr s p.k p.ch ea 64 64 .read
  let (s, bs) ← engLoad s p.k p.ch ea pa 64
  return (s, Bits.ofBytesLE bs)

/-- Stores a record in one step. -/
def recWrite (s : State) (p : PCmd) (ea : Word) (x : Nat) : Eng State := do
  let (s, pa) ← engAddr s p.k p.ch ea 64 64 .write
  engStore s p.k p.ch pa [(0, Bits.bytesLE 64 x)]

/-- A doubleword read or written by an engine. -/
def wordRead (s : State) (p : PCmd) (va : Word) : Eng (State × Word) := do
  let (s, pa) ← engAddr s p.k p.ch va 8 8 .read
  let (s, bs) ← engLoad s p.k p.ch va pa 8
  return (s, BitVec.ofNat 64 (Bits.ofBytesLE bs))
def wordWrite (s : State) (p : PCmd) (va v : Word) : Eng State := do
  let (s, pa) ← engAddr s p.k p.ch va 8 8 .write
  engStore s p.k p.ch pa [(0, Bits.bytesLE 8 v.toNat)]

/-- R301: the head word of a tensor of the command's gang. -/
def headOf (s : State) (p : PCmd) (tid : Nat) : Word := headAddr (s.getGang (s.getCore p.k).gang).tensors tid

/-- R301: the open bit of a tensor in the engines of a package. -/
def openBit (pkg tid : Nat) : Nat := pkg * 4096 + tid
def setOpen (s : State) (p : PCmd) (tid : Nat) (b : Bool) : State :=
  let g := (s.getCore p.k).gang
  let x := s.getGang g
  let n := openBit (p.k / 4096) tid
  s.setGang g { x with openBits := if b then insertNat n x.openBits else x.openBits.filter (fun t => t ≠ n) }

/-- R301: the addresses and contents of the records of an open list, at most `fuel`. -/
def openList (p : PCmd) : Nat → State → Word → List (Word × Nat) → Eng (State × List (Word × Nat))
  | 0, s, _, acc => .ok (s, acc)
  | fuel + 1, s, a, acc =>
    if a = 0 || acc.any (fun x => x.1 = a) then .ok (s, acc)
    else
      match recRead s p a with
      | .error e => .error e
      | .ok (s, x) => openList p fuel s (recNext x) (acc ++ [(a, x)])

/-- The open list of a tensor. -/
def listOf (s : State) (p : PCmd) (tid : Nat) : Eng (State × List (Word × Nat)) := do
  let (s, a) ← wordRead s p (headOf s p tid)
  openList p 1048576 s a []

/-- The records of an open list before the first that cannot be read. -/
def openListTo (p : PCmd) : Nat → State → Word → List (Word × Nat) → State × List (Word × Nat)
  | 0, s, _, acc => (s, acc)
  | fuel + 1, s, a, acc =>
    if a = 0 || acc.any (fun x => x.1 = a) then (s, acc)
    else
      match recRead s p a with
      | .error e => (e.s, acc)
      | .ok (s, x) => openListTo p fuel s (recNext x) (acc ++ [(a, x)])

/-- R310: walks an open list from a record to the one whose NEXT names the command's record, and replaces that NEXT. -/
def unlinkFrom (p : PCmd) (next : Word) : Nat → State → Word → List Word → Eng State
  | 0, s, _, _ => .ok s
  | fuel + 1, s, a, gone =>
    if a = 0 || gone.contains a then .ok s
    else
      match recRead s p a with
      | .error e => .error e
      | .ok (s, y) => if recNext y = p.ea then wordWrite s p (a + 48) next else unlinkFrom p next fuel s (recNext y) (a :: gone)

/-- R310: takes a record off the open list of its tensor. -/
def unlink (s : State) (p : PCmd) (x : Nat) : Eng State := do
  let tid := recTidW x
  let head := headOf s p tid
  let (s, first) ← wordRead s p head
  if first = p.ea then
    let s ← wordWrite s p head (recNext x)
    return if recNext x = 0 then setOpen s p tid false else s
  else unlinkFrom p (recNext x) 1048576 s first []

/-! ### The tensors and the arithmetic (R307, R310) -/

/-- W, P, F and G of a promise. -/
structure PTensors where
  w : Tensor
  p : Tensor
  f : Tensor
  g : Tensor

/-- R307: the checks of the tensors of a promise. -/
def promiseTensors (s : State) (p : PCmd) (x : Nat) : Eng (State × PTensors) := do
  let (s, w) ← engTensor s p.k p.ch (recTidW x)
  let (s, pr) ← engTensor s p.k p.ch (recTidP x)
  let (s, f) ← engTensor s p.k p.ch (recTidF x)
  let (s, g) ← engTensor s p.k p.ch (recTidG x)
  let all := [w, pr, f, g]
  if !(w.ty = 8 || w.ty = 9) || !all.all (fun t => t.ty = w.ty) then engFail s 0x66
  else
    if !all.all (contiguous s p.k) || pr.rows ≠ w.count || pr.cols ≠ f.count || g.count ≠ w.count then engFail s 0x66
    else return (s, ⟨w, pr, f, g⟩)

/-- What a pass over lines has stored: the state, the patterns so far, NaN stored, and whether a line was written. -/
structure Pass1 where
  s : State
  out : List Nat
  nan : Bool
  wrote : Bool

/-- A pass over the lines of a tensor in increasing order: `f` gives the new patterns of its elements lo to lo + n − 1 with what is
to be kept. A line is one step, as R289 has it for the same engine (log 23). A stop keeps what stands. -/
def linePass (p : PCmd) (t : Tensor) (f : State → Nat → Nat → Eng (State × List Nat × List Nat)) :
    Pass1 → List Nat → Pass1 × Option EngStop
  | d, [] => (d, none)
  | d, q :: rest =>
    let lo := q * t.perLine
    let n := min ((q + 1) * t.perLine) t.count - lo
    match engOnce d.s (engAlone · (fun s => do
        let (s, new, keep) ← f s lo n
        let s ← elemWrite s p.k p.ch t lo new
        return (s, BitVec.ofNat 8 (countNaN t.fmt new) :: keep.flatMap (Bits.bytesLE 8)))) with
    | .error e => ({ d with s := e.s }, some e)
    | .ok (s, bs) =>
      let keep := (List.range (bs.length / 8)).map (fun j => Bits.ofBytesLE ((bs.drop (1 + 8 * j)).take 8))
      linePass p t f ⟨s, d.out ++ keep, d.nan || bs.getD 0 0 != 0, true⟩ rest

/-- The lines of a tensor. -/
def allLines (t : Tensor) : List Nat := List.range (Bits.ceilDiv t.count t.perLine)

/-- R310: c := fade^k, rounded at each step, and h := RN(η·c), as values. -/
def fadePower (f : FFmt) (fade eta : Val) (k : Nat) : Val × Val :=
  let c := (List.range k).foldl (fun c _ => eRn f (mulV c fade)) (.fin false 1 0)
  (c, eRn f (mulV eta c))

/-- Elements of gt, contiguous at an address, in W's type. -/
def Tensor.moved (t : Tensor) (base : Word) : Tensor := { t with base := base }

/-- How a promise command ends: the state, its cause (0 for none), and what underlies it. -/
structure PEnd where
  s : State
  cause : Nat
  under : Nat

/-- R308: a stop; with 0x56 the record, as it stands with its NaN flag, is stored with POISON, the poisoned line and a STATE; a record
that cannot be taken off its list keeps its NEXT. -/
def poisonEnd (p : PCmd) (e : EngStop) (x state flags : Nat) (open_ : Bool) : Eng PEnd :=
  if e.paused then .error e
  else if e.cause ≠ 0x56 then .ok ⟨e.s, e.cause, e.under⟩
  else do
    let (s, x) ← if open_ then (match unlink e.s p x with
      | .ok s => .ok (s, recSetNext x 0)
      | .error e2 => if e2.paused then .error e2 else .ok (e2.s, x)) else pure (e.s, x)
    match recWrite s p p.ea (recSetGrad (recSet x state (flags ||| flPoison)) e.poison) with
    | .ok s => .ok ⟨s, 0x56, e.under⟩
    | .error e2 => if e2.paused then .error e2 else .ok ⟨e2.s, 0x56, e.under⟩

/-- R308: goes on with what an access gives, or ends in its stop. -/
def orPoison {α : Type} (p : PCmd) (x state flags : Nat) (open_ : Bool) (r : Eng α) (next : α → Eng PEnd) : Eng PEnd :=
  match r with
  | .ok a => next a
  | .error e => poisonEnd p e x state flags open_

/-- An end by a stop that leaves the record as it is. -/
def stopEnd (e : EngStop) : PEnd := ⟨e.s, e.cause, e.under⟩

/-- The end of an effect that may stop. -/
def endOf (r : Eng PEnd) : PEnd :=
  match r with
  | .ok x => x
  | .error e => stopEnd e

/-! ### Issue (R309) -/

/-- R309: SSEXP of an issue at SSN with expiry E. -/
def expiryOf (ssn e : Nat) : Nat :=
  if e = 0 then 0xFFFFFFFF
  else if (ssn + e) % 2 ^ 32 = 0xFFFFFFFF then 0 else (ssn + e) % 2 ^ 32

/-- R302: PSEQ. -/
def pseqOf (p : PCmd) (seq ctx : Nat) : Nat := seq % 2 ^ 40 + p.ch.val * 2 ^ 40 + p.k % 4096 * 2 ^ 43 + ctx * 2 ^ 55

/-- R309: the G pass and the W pass. -/
def issuePasses (s : State) (p : PCmd) (x : Nat) (t : PTensors) (fv : List Nat) : Pass1 × Option EngStop :=
  let fm := t.w.fmt
  let n := t.f.count
  let gpass := linePass p t.g (fun s lo m => do
    let (s, rows) ← elemRead s p.k p.ch t.p (lo * n) (m * n)
    let out := (List.range m).map (fun j =>
      (packR fm .rne (sumProducts .rne (((rows.drop (j * n)).take n).zip fv |>.map (fun y => (unpack fm y.1, unpack fm y.2))) [])).1)
    return (s, out, out)) ⟨s, [], false, false⟩ (allLines t.g)
  match gpass.2 with
  | some e => ({ gpass.1 with wrote := false }, some e)
  | none =>
    let r := linePass p t.w (fun s lo m => do
      let (s, ws) ← elemRead s p.k p.ch t.w lo m
      let out := (List.range m).map (fun j =>
        sgdElem fm (recEta x) (recFade x) (unpack fm (ws.getD j 0)) (unpack fm (gpass.1.out.getD (lo + j) 0)))
      return (s, out, [])) ⟨gpass.1.s, [], false, false⟩ (allLines t.w)
    ({ r.1 with nan := r.1.nan || gpass.1.nan }, r.2)

/-- R309: PISSUE's effect. -/
def issueEffect (s : State) (p : PCmd) (e ssn seq ctx : Nat) : Eng PEnd := do
  let (s, x) ← recRead s p p.ea
  let expiry := if e = 0 then (s.getGang (s.getCore p.k).gang).expiry else e
  if !recClean x || recPolicy x = 3 || recState x = 1 || 2 ^ 31 ≤ expiry then engFail s 0x60
  else
    let tid := recTidW x
    orPoison p x 3 0 false (promiseTensors s p x) (fun (s, t) =>
      orPoison p x 3 0 false (listOf s p tid) (fun (s, l) =>
        if l.any (fun y => recTidG y.2 = recTidG x && y.1 ≠ p.ea) then engFail s 0x60
        else
          orPoison p x 3 0 false (elemRead s p.k p.ch t.f 0 t.f.count) (fun (s, fv) =>
            let (d, stop) := issuePasses s p x t fv
            let flags := if d.nan then flNaN else 0
            match stop with
            | some e => do
              let e' ← if d.wrote && e.cause = 0x56 then (match bumpVersion e.s p.k p.ch tid with
                | .ok s => .ok { e with s := s }
                | .error e2 => if e2.paused then .error e2 else .ok { e with s := e2.s }) else pure e
              poisonEnd p e' x 3 flags false
            | none => orPoison p x 3 flags false (do
                let s ← bumpVersion d.s p.k p.ch tid
                let (s, w) ← engTensor s p.k p.ch tid
                let (s, head) ← wordRead s p (headOf s p tid)
                return (s, w, head)) (fun (s, w, head) => do
              let crc := Crc.crc32 (fv.flatMap (Bits.bytesLE t.f.elemBytes))
              let y := recSet x 1 flags
              let y := Bits.setFld (Bits.setFld (Bits.setFld y 32 64 w.version) 32 224 crc) 32 96 (expiryOf ssn expiry)
              let y := Bits.setFld (recSetNext (recSetK y 0 0) head) 64 448 (pseqOf p seq ctx)
              let s ← recWrite s p p.ea y
              let s ← wordWrite s p (headOf s p tid) p.ea
              return ⟨setOpen s p tid true, 0, 0⟩))))

/-! ### Redemption and expiry (R310 to R313) -/

/-- R310: k, or none above 65,535. -/
def agesOf (w : Tensor) (x : Nat) : Option Nat :=
  let k := (w.version + 2 ^ 32 - recIssue x) % 2 ^ 32
  if 65535 < k then none else some k

/-- R310, R312: the case of k above 65,535; `state` is the STATE that poison would leave. -/
def kover (s : State) (p : PCmd) (x flags state : Nat) : Eng PEnd :=
  orPoison p x state flags true (unlink s p x) (fun s => do
    let y := Bits.setFld (recSet (recSetNext x 0) 3 (flags ||| flKover)) 16 288 65535
    let s ← recWrite s p p.ea y
    return ⟨s, 0x64, 0⟩)

/-- R310: c narrowed to f32. -/
def cscaleOf (c : Val) : Nat := (convert f32 .rne c).1

/-- R310: trains the predictor: the pass over P. -/
def trainPass (s : State) (p : PCmd) (x : Nat) (t : PTensors) (fv ds : List Nat) : Pass1 × Option EngStop :=
  let fm := t.w.fmt
  let n := t.f.count
  linePass p t.p (fun s lo m => do
    let (s, ps) ← elemRead s p.k p.ch t.p lo m
    let out := (List.range m).map (fun j =>
      let e := lo + j
      let r := eRn fm (mulV (recMu x) (unpack fm (ds.getD (e / n) 0)))
      (packR fm .rne (sumProducts .rne [(r.flip, unpack fm (fv.getD (e % n) 0))] [unpack fm (ps.getD j 0)])).1)
    return (s, out, [])) ⟨s, [], false, false⟩ (allLines t.p)

/-- R310: PREDEEM's effect. -/
def redeemEffect (s : State) (p : PCmd) (ntr : Bool) : Eng PEnd := do
  let (s, x) ← recRead s p p.ea
  if !recClean x || recPolicy x = 3 || recState x = 0 then engFail s 0x60
  else if recState x = 2 then engFail s 0x62
  else if recState x = 3 then engFail s 0x61
  else
    orPoison p x 2 (recFlags x) true (promiseTensors s p x) (fun (s, t) =>
      match agesOf t.w x with
      | none => kover s p x (recFlags x) 2
      | some k =>
        let fm := t.w.fmt
        let (c, h) := fadePower fm (recFade x) (recEta x) k
        let flagsOf (nan : Bool) := recFlags x ||| (if nan then flNaN else 0)
        let (d, stop) := linePass p t.w (fun s lo m => do
          let (s, gp) ← elemRead s p.k p.ch t.g lo m
          let (s, gt) ← elemRead s p.k p.ch (t.w.moved (recGrad x)) lo m
          let (s, ws) ← elemRead s p.k p.ch t.w lo m
          let ds := (List.range m).map (fun j => (packR fm .rne (subV .rne (unpack fm (gp.getD j 0)) (unpack fm (gt.getD j 0)))).1)
          let out := (List.range m).map (fun j =>
            (packR fm .rne (addV .rne (unpack fm (ws.getD j 0)) (eRn fm (mulV h (unpack fm (ds.getD j 0)))))).1)
          return (s, out, ds)) ⟨s, [], false, false⟩ (allLines t.w)
        match stop with
        | some e => poisonEnd p e x 2 (flagsOf d.nan) true
        | none =>
          let finish (s : State) (flags cause : Nat) : Eng PEnd := orPoison p x 2 flags true (unlink s p x) (fun s => do
            let s ← recWrite s p p.ea (recSetK (recSet (recSetNext x 0) 2 flags) k (cscaleOf c))
            return ⟨s, cause, 0⟩)
          if ntr then finish d.s (flagsOf d.nan) 0
          else
            orPoison p x 2 (flagsOf d.nan) true (elemRead d.s p.k p.ch t.f 0 t.f.count) (fun (s, fv) =>
              if Crc.crc32 (fv.flatMap (Bits.bytesLE t.f.elemBytes)) ≠ recCrc x then finish s (flagsOf d.nan ||| flCrcMis) 0x63
              else
                let (d2, stop2) := trainPass s p x t fv d.out
                match stop2 with
                | some e => poisonEnd p e x 2 (flagsOf (d.nan || d2.nan)) true
                | none => finish d2.s (flagsOf (d.nan || d2.nan) ||| flTrained) 0))

/-- R312: the expiry of an open record by its policy. -/
def expireEffect (s : State) (p : PCmd) (x : Nat) (swept : Bool) : Eng PEnd :=
  let flags := recFlags x ||| (if swept then flSwept else 0)
  let close (s : State) (y flags cause : Nat) : Eng PEnd := orPoison p y 3 flags true (unlink s p x) (fun s => do
    let s ← recWrite s p p.ea (recSet (recSetNext y 0) 3 flags)
    return ⟨s, cause, 0⟩)
  if recPolicy x = 2 then close s x (flags ||| flTrap) 0x65
  else if recPolicy x ≠ 1 then close s x flags 0
  else
    orPoison p x 3 flags true (promiseTensors s p x) (fun (s, t) =>
      match agesOf t.w x with
      | none => kover s p x flags 3
      | some k =>
        let fm := t.w.fmt
        let (c, h) := fadePower fm (recFade x) (recEta x) k
        let (d, stop) := linePass p t.w (fun s lo m => do
          let (s, gp) ← elemRead s p.k p.ch t.g lo m
          let (s, ws) ← elemRead s p.k p.ch t.w lo m
          let out := (List.range m).map (fun j =>
            (packR fm .rne (addV .rne (unpack fm (ws.getD j 0)) (eRn fm (mulV h (unpack fm (gp.getD j 0)))))).1)
          return (s, out, [])) ⟨s, [], false, false⟩ (allLines t.w)
        let nan := if d.nan then flNaN else 0
        match stop with
        | some e => poisonEnd p e x 3 (flags ||| nan) true
        | none => close d.s (recSetK x k (cscaleOf c)) (flags ||| nan ||| flRevert) 0)

/-- R313: PEXPIRE's effect. -/
def pexpireEffect (s : State) (p : PCmd) : Eng PEnd := do
  let (s, x) ← recRead s p p.ea
  if recState x = 0 || !recClean x || recPolicy x = 3 then
    if recState x = 2 || recState x = 3 then return ⟨s, 0, 0⟩ else engFail s 0x60
  else if recState x ≠ 1 then return ⟨s, 0, 0⟩
  else expireEffect s p x false

/-! ### TDEF (R315) -/

/-- R315: the entry that an image defines as tensor t. -/
def definedEntry (img t : Nat) : Nat := Bits.setFld (Bits.setFld img 32 192 0) 3 224 (t % 8)

/-- R315: TDEF's effect. -/
def defineEffect (s : State) (p : PCmd) (t : Word) : Eng PEnd := do
  if 4096 ≤ t.toNat then engFail s 0x68
  else
    let (s, pa) ← engAddr s p.k p.ch p.ea 32 32 .read
    let (s, bs) ← engLoad s p.k p.ch p.ea pa 32
    let img := Bits.ofBytesLE bs
    let (s, head) ← wordRead s p (headOf s p t.toNat)
    if Bits.fld img 255 227 ≠ 0 || Bits.fld img 191 176 ≠ 0 || Bits.fld img 175 172 ≠ 0 || Bits.fld img 115 112 = 15 || head ≠ 0 then
      engFail s 0x67
    else
      let a := tensorAddr (s.getGang (s.getCore p.k).gang).tensors t.toNat
      let (s, pa) ← engAddr s p.k p.ch a 32 32 .write
      return ⟨← engStore s p.k p.ch pa [(0, Bits.bytesLE 32 (definedEntry img t.toNat))], 0, 0⟩

/-! ### The commands -/

/-- R307: performs a promise command of a chain and completes it. -/
def promiseCmd (s : State) (k : Nat) (ch : Fin 8) (effect : Instr → Option (State → PCmd → Word → Nat → Nat → Nat → Eng PEnd)) :
    Host.Outcome State Fault Refusal :=
  match performing s k ch with
  | some r =>
    match r.item with
    | .promise i ea c ssn seq ctx _ =>
      if tensorHeld s k ch r then .next s
      else match effect i with
      | none => .next s
      | some f => .next (engStep s (engScript k ch) (fun s => do
          let d ← f s ⟨k, ch, ea⟩ c ssn seq ctx.val
          if spentOut d.s then .error ⟨d.s, 0, 0, 0, 0⟩
          else return completeCmd d.s k ch r (if d.cause = 0 then 3 else 4) d.cause d.under [])
        (fun e => completeCmd e.s k ch r 4 e.cause e.under []))
    | _ => .next s
  | none => .next s

/-- TENSOR_DEFINE (R315). -/
def execTensorDefine (k : Nat) (ch : Fin 8) (s : State) : Out :=
  promiseCmd s k ch (fun i => match i with
    | .tdef .. => some (fun s p c _ _ _ => defineEffect s p c)
    | _ => none)

/-- PROMISE_ISSUE (R309). -/
def execPromiseIssue (k : Nat) (ch : Fin 8) (s : State) : Out :=
  promiseCmd s k ch (fun i => match i with
    | .pissue .. => some (fun s p c ssn seq ctx => issueEffect s p (c.toNat % 2 ^ 32) ssn seq ctx)
    | _ => none)

/-- PROMISE_REDEEM (R310). -/
def execPromiseRedeem (k : Nat) (ch : Fin 8) (s : State) : Out :=
  promiseCmd s k ch (fun i => match i with
    | .predeem _ _ ntr _ _ _ => some (fun s p _ _ _ _ => redeemEffect s p ntr)
    | _ => none)

/-- PROMISE_EXPIRE (R313). -/
def execPromiseExpire (k : Nat) (ch : Fin 8) (s : State) : Out :=
  promiseCmd s k ch (fun i => match i with
    | .pexpire .. => some (fun s p _ _ _ _ => pexpireEffect s p)
    | _ => none)

/-! ### The sweep (R311, R312) -/

/-- R312, R292: the cause of a swept record goes to the context of its PSEQ, on the package of core `by_`, or to the lowest live one of
that core, or to the chain's fault word alone. -/
def sweepCause (s : State) (g by_ : Nat) (x : Nat) (ea : Word) (cause under stamp : Nat) : State :=
  let q := recSeq x
  match ((s.getGang g).cores.find? (fun k => k / 4096 = by_ / 4096 && k % 4096 = Bits.fld q 54 43)) with
  | none => s
  | some k =>
    let ch : Fin 8 := ⟨Bits.fld q 42 40 % 8, Nat.mod_lt _ (by decide)⟩
    let c := s.getChain k ch
    let s := s.setChain k ch { c with fault := faultWord c.fault (Bits.fld q 39 0) cause }
    let live (n : Nat) : Bool := (s.getCtx (4 * k + n)).live
    let own := Bits.fld q 56 55
    match (if live own then some own else (List.range 4).find? live) with
    | none => s
    | some n =>
      let y := s.getCtx (4 * k + n)
      s.setCtx (4 * k + n) { y with errors := y.errors ++
        [⟨cause, ea, BitVec.ofNat 64 (Bits.fld q 39 0 + ch.val * 2 ^ 48 + under % 256 * 2 ^ 56), stamp⟩] }

/-- R311: expires the records of one open list whose SSEXP is the new SSN. -/
def sweepList (s : State) (g k : Nat) (ch : Fin 8) (ssn : Nat) (l : List (Word × Nat)) : State :=
  l.foldl (fun s y =>
    if recExp y.2 ≠ ssn % 2 ^ 32 || recExp y.2 = 0xFFFFFFFF then s
    else
      let p : PCmd := ⟨k, ch, y.1⟩
      match recRead s p y.1 with
      | .error e => sweepCause e.s g k y.2 y.1 e.cause e.under (e.s.getChain k ch).ets
      | .ok (s, x) =>
        let d := endOf (expireEffect s p x true)
        if d.cause = 0 then d.s else sweepCause d.s g k x y.1 d.cause d.under (d.s.getChain k ch).ets) s

/-- A core of a gang on the package of an open bit. -/
def sweeper (s : State) (g bit : Nat) : Nat := ((s.getGang g).cores.find? (fun k => k / 4096 = bit / 4096)).getD 0

/-- R311: the sweep of the open list of one TID on one package, as far as the list can be read. -/
def sweepBit (s : State) (g ssn stamp bit : Nat) : State :=
  let k := sweeper s g bit
  let ch : Fin 8 := 4
  let p : PCmd := ⟨k, ch, 0⟩
  let ets := (s.getChain k ch).ets
  let s := s.setChain k ch { s.getChain k ch with ets := stamp }
  let s := match wordRead s p (headOf s p (bit % 4096)) with
    | .ok (s, a) =>
      let r := openListTo p 1048576 s a []
      sweepList r.1 g k ch ssn r.2
    | .error e => e.s
  s.setChain k ch { s.getChain k ch with ets := ets }

/-- R311: the sweep of a gang at the commit of superstep `ssn`, on each package in increasing TID, the list of a TID in one step. The accesses
carry stamps from `stamp` on; no chain's own timestamp changes. -/
def sweep (s : State) (g ssn stamp : Nat) : Eng State := do
  let (s, bits) ← engOnce s (fun s => .ok (s, (s.getGang g).openBits.flatMap (Bits.bytesLE 8)))
  (List.range (bits.length / 8)).foldlM (fun s j =>
    (engOnce s (engAlone · (fun s => .ok (sweepBit s g ssn stamp (Bits.ofBytesLE ((bits.drop (8 * j)).take 8)), [])))).map (·.1)) s

/-- R311: the sweep of a tensor stands after the commands that have reached its engine: a commit waits for one that has done some of its
pieces on a tensor with open promises. -/
def sweepHeld (s : State) (g : Nat) : Bool :=
  midUpdate s none ((s.getGang g).openBits.filterMap (fun b => entryPa s (sweeper s g b) (b % 4096)))

/-! ### The forms (R304, R306, R316, R317) -/

/-- R306: a promise command is checked, appended to chain 4 or 5, and gives its sequence number. -/
def promiseForm (s : State) (i : Instr) (c5 : Bool) (d : Option (Fin 32)) (c : Opnd) (m : Mem) (n : Nat) (mode : Mode) : Res State := do
  let ea := s.ea m
  let (s, pa) ← checkMode s i ea n mode
  if paReg pa = 2 then raiseFrom s 0x1A ea 0
  else if 16 ≤ s.core.scoreboard.length || seedHolds s then stall s .retry
  else
    let ch : Fin 8 := if c5 then 5 else 4
    let v := s.src c
    let _ ← dispatchNow s i
    let t ← asMessage s 22 pa (Bits.bytesLE 1 ch.val ++ Bits.bytesLE 8 v.toNat) (fun s =>
        let seq := (s.getChain s.coreKey ch).acnt + 1
        (appendItem s s.coreKey ch (.promise i ea v s.gang.ssn seq s.ctxNo s.ctx.pts), (some (BitVec.ofNat 64 seq), [])))
      (fun s a => match d with
        | some r => s.putS r (a.1.getD 0)
        | none => s)
    dispatchNow t i

/-- TDEF (R306, R315). -/
def execTdef (g : Guard) (c5 quiet : Bool) (d : Option (Fin 32)) (c : Opnd) (m : Mem) (s : State) : Out :=
  guarded s (.tdef g c5 quiet d c m) g (promiseForm s (.tdef g c5 quiet d c m) c5 d c m 32 .read)

/-- PISSUE (R306, R309). -/
def execPissue (g : Guard) (c5 quiet : Bool) (d : Option (Fin 32)) (c : Opnd) (m : Mem) (s : State) : Out :=
  guarded s (.pissue g c5 quiet d c m) g (promiseForm s (.pissue g c5 quiet d c m) c5 d c m 64 .write)

/-- PREDEEM (R306, R310). -/
def execPredeem (g : Guard) (c5 ntr quiet : Bool) (d : Option (Fin 32)) (m : Mem) (s : State) : Out :=
  guarded s (.predeem g c5 ntr quiet d m) g (promiseForm s (.predeem g c5 ntr quiet d m) c5 d Opnd.none m 64 .write)

/-- PEXPIRE (R306, R313). -/
def execPexpire (g : Guard) (c5 quiet : Bool) (d : Option (Fin 32)) (m : Mem) (s : State) : Out :=
  guarded s (.pexpire g c5 quiet d m) g (promiseForm s (.pexpire g c5 quiet d m) c5 d Opnd.none m 64 .write)

/-- One ordinary load whose value becomes an s result (R316, R317). -/
def queryLoad (s : State) (i : Instr) (d : Fin 32) (ea : Word) (n : Nat) (f : Nat → Nat) : Res State := do
  let g ← grant s i ea n n .read false
  if g.refused then return (if offCore g.s g.pa then countRemote g.s else g.s).putS d 0
  else
    let (s, bs, remote) ← loadMessage g.s 0 g.pa n (fun s => loadBytes s g.pa n)
    return answerS s d (BitVec.ofNat 64 (f (Bits.ofBytesLE bs))) 0 remote

/-- R316: what a selector takes from an entry; the head word as it is. -/
def tqryField (fn : TqryFn) (x : Nat) : Nat :=
  match fn with
  | .ver => Bits.fld x 223 192
  | .rows => Bits.fld x 87 64
  | .cols => Bits.fld x 111 88
  | .fmt => Bits.fld x 127 112
  | .base => Bits.fld x 63 0
  | .head => Bits.fld x 63 0

/-- TQRY (R316). -/
def execTqry (g : Guard) (fn : TqryFn) (d : Fin 32) (a : Opnd) (s : State) : Out :=
  let i : Instr := .tqry g fn d a
  guarded s i g (do
    let tid := s.src a
    if 4096 ≤ tid.toNat then raise 0x68 tid 0
    else
      let _ ← dispatchNow s i
      let t ← (if fn = .head then queryLoad s i d (headAddr s.gang.tensors tid.toNat) 8 (tqryField fn)
        else queryLoad s i d (tensorAddr s.gang.tensors tid.toNat) 32 (tqryField fn))
      dispatchNow t i)

/-- R317: what PSTAT writes of a record. -/
def pstatWord (x : Nat) : Nat := Bits.fld x 3 0 + Bits.fld x 303 288 * 2 ^ 32 + Bits.fld x 319 304 * 2 ^ 48

/-- PSTAT (R317). -/
def execPstat (g : Guard) (d : Fin 32) (m : Mem) (s : State) : Out :=
  let i : Instr := .pstat g d m
  guarded s i g (do
    let _ ← dispatchNow s i
    let t ← queryLoad s i d (s.ea m) 64 pstatWord
    dispatchNow t i)

end Sys2Proof.Machine
end

