-- ==== Sys2Proof/Machine/System.lean ====
section
/-! DEFINITION. The system forms (R103 to R106, R327 to R342) . -/
namespace Sys2Proof.Machine
open Num

/-! ### Traps and ends (R330, R333, R334) -/

/-- TRAP (R333): cause 0x4A after the group, with its code. -/
def execTrap (g : Guard) (code : BitVec 16) (s : State) : Out :=
  guarded s (.trap g code) g (.ok (trapAfter s ⟨0x4A, code.zeroExtend 64, 0, some s.ctx.pc⟩))

/-- DBRK (R333): cause 0x0F after the group, with its code. -/
def execDbrk (g : Guard) (code : BitVec 16) (s : State) : Out :=
  guarded s (.dbrk g code) g (.ok (trapAfter s ⟨0x0F, code.zeroExtend 64, 0, some s.ctx.pc⟩))

/-- RFT (R330). -/
def execRft (g : Guard) (s : State) : Out := guarded s (.rft g) g (returnTrap s)

/-- HALT (R334): the context ends with its group. -/
def execHalt (g : Guard) (s : State) : Out := guarded s (.halt g) g (.ok (endContext s s.cur))

/-! ### Special registers (R103 to R106, R327, R335) -/

/-- R235: CLAIM. -/
def claimWord (c : Core) : Word :=
  match c.claim with
  | some n => BitVec.ofNat 64 (4 + n.val)
  | none => 0

/-- R104: CTXID. -/
def ctxId (s : State) : Word := BitVec.ofNat 64 (s.coreKey % 4096 * 4 + s.cur % 4)

/-- R103, R327: the value of a special register as the group reads it. -/
def specialValue (s : State) (num : Nat) : Word :=
  let c := s.view
  let k := s.core
  if 0x008 ≤ num && num ≤ 0x00F then c.lvl[num % 8]'(Nat.mod_lt _ (by decide))
  else if 0x010 ≤ num && num ≤ 0x017 then k.tsh[num % 8]'(Nat.mod_lt _ (by decide))
  else
    match num with
    | 0x000 => ctxId s
    | 0x001 => BitVec.ofNat 64 s.gang.id
    | 0x002 => c.asr
    | 0x003 => c.vsh
    | 0x004 => BitVec.ofNat 64 s.now
    | 0x005 => BitVec.ofNat 64 s.gang.ssn
    | 0x006 => (s.getPkg s.pkg).dmap
    | 0x007 => (s.getPkg s.pkg).srow
    | 0x020 => claimWord k
    | 0x021 => BitVec.ofNat 64 k.residual.length
    | 0x022 => BitVec.ofNat 64 k.quant
    | 0x023 => c.lfs
    | 0x024 => c.full.zeroExtend 64
    | 0x030 => c.trapvec
    | 0x031 => c.tcause
    | 0x032 => c.tpc
    | 0x033 => c.tinfoa
    | 0x034 => c.tinfob
    | 0x035 => c.tseq
    | 0x040 => if s.sup then 1 else 0
    | 0x800 => k.root
    | 0x801 => BitVec.ofNat 64 s.gang.asid
    | 0x802 => BitVec.ofNat 64 k.audit
    | _ => 0

/-- R103, R327: the cause of a number that names no register the acting context may use. -/
def specialCause (s : State) (num : Nat) : Option Nat :=
  if num < 0x800 then (if specialLow num then none else some 0x02)
  else if !s.sup then some 0x0E
  else if specialSup num then none else some 0x02

/-- A form on a special register: the cause of its number, the wait of R81 for ASR, or its effect. -/
def specialForm (s : State) (i : Instr) (num : Nat) (body : Res State) : Res State :=
  match specialCause s num with
  | some c => raiseSlot s i c
  | none =>
    if num = 0x002 && vecBusy s.core (s.cur % 4) then stallOr s i .retry else body

/-- MFS (R335). -/
def execMfs (g : Guard) (d : Fin 32) (num : BitVec 12) (s : State) : Out :=
  guarded s (.mfs g d num) g (specialForm s (.mfs g d num) num.toNat (.ok (s.putS d (specialValue s num.toNat))))

/-- R118, R327: the bits of ROOT. -/
def rootMask : Word := 0x0FFFFFFFFFE00000

/-- R105: QUANT after a write. -/
def quantOf (v : Word) : Nat := max 256 (v.toNat % 2 ^ 24)

/-- R327: AUDIT after a write. -/
def auditOf (v : Word) : Nat := max 16 (min 30 (v.toNat % 32))

/-- R103, R201, R230, R327, R328, R335: the effect of writing a special register; a read-only one keeps its value. -/
def specialWrite (s : State) (i : Instr) (num : Nat) (v : Word) : Res State :=
  if 0x010 ≤ num && num ≤ 0x017 then
    if !(s.core.claim == some s.ctxNo && !s.core.releasing) then raiseOpen s 0x30
    else if !Mat.legalTsh v.toNat then raiseOpen s 0x32
    else .ok (s.updCore (fun k => { k with tsh := k.tsh.set (num % 8) v (Nat.mod_lt _ (by decide)) }))
  else
    match num with
    | 0x002 => .ok (s.upd (fun c => { c with asr := v &&& asrMask }))
    | 0x003 => if !Vec.legalVsh v.toNat then raise 0x22 v (slotInfo s i).2 else .ok (s.upd (fun c => { c with vsh := v }))
    | 0x022 => .ok (if s.sup then s.updCore (fun k => { k with quant := quantOf v }) else s)
    | 0x030 => .ok (s.upd (fun c => { c with trapvec := v }))
    | 0x031 => .ok (s.upd (fun c => { c with tcause := v &&& tcauseMask }))
    | 0x032 => .ok (s.upd (fun c => { c with tpc := v }))
    | 0x033 => .ok (s.upd (fun c => { c with tinfoa := v }))
    | 0x034 => .ok (s.upd (fun c => { c with tinfob := v }))
    | 0x035 => .ok (s.upd (fun c => { c with tseq := v &&& 0xFFFF }))
    | 0x800 => .ok (s.updCore (fun k => { k with root := v &&& rootMask, tlb := [] }))
    | 0x802 => .ok (s.updCore (fun k => { k with audit := auditOf v }))
    | _ => .ok s

/-- MTS (R335). -/
def execMts (g : Guard) (a : Fin 32) (num : BitVec 12) (s : State) : Out :=
  let i : Instr := .mts g a num
  guarded s i g (specialForm s i num.toNat (specialWrite s i num.toNat (s.rs a)))

/-! ### Ring and counters (R336, R337) -/

/-- RDRING (R336). -/
def execRdring (g : Guard) (dw : Fin 8) (d : Fin 32) (a : Opnd) (s : State) : Out :=
  let e := s.core.entry (s.src a).toNat
  guarded s (.rdring g dw d a) g (.ok (s.putS d (BitVec.ofNat 64 (ringWord e >>> (64 * dw.val)))))

/-- R337: a performance counter. -/
def counter (s : State) (n : Nat) : Word :=
  let k := s.core
  match n with
  | 0 => BitVec.ofNat 64 (s.gang.ran - k.cycBase)
  | 1 => s.ctx.iss
  | 2 => s.ctx.rref
  | 3 => k.refu
  | 4 => k.insi
  | 5 => k.dchk
  | 6 => k.idle
  | 7 => k.walk
  | _ => BitVec.ofNat 64 s.gang.roll

/-- R337: clears a counter, except ROLL. -/
def clearCounter (s : State) (n : Nat) : State :=
  match n with
  | 0 => s.updCore (fun k => { k with cycBase := s.gang.ran })
  | 1 => s.upd (fun c => { c with iss := 0 })
  | 2 => s.upd (fun c => { c with rref := 0 })
  | 3 => s.updCore (fun k => { k with refu := 0 })
  | 4 => s.updCore (fun k => { k with insi := 0 })
  | 5 => s.updCore (fun k => { k with dchk := 0 })
  | 6 => s.updCore (fun k => { k with idle := 0 })
  | 7 => s.updCore (fun k => { k with walk := 0 })
  | _ => s

/-- PCNT (R337). -/
def execPcnt (g : Guard) (d : Fin 32) (ctr : BitVec 8) (clear : Bool) (s : State) : Out :=
  let i : Instr := .pcnt g d ctr clear
  guarded s i g (
    if 9 ≤ ctr.toNat then raiseSlot s i 0x02
    else .ok (let t := s.putS d (counter s ctr.toNat); if clear then clearCounter t ctr.toNat else t))

/-! ### SAVE, SNAP, SEED, XINV and GSWITCH (R338 to R342) -/

/-- The image of the acting context as its group reads it; s0 reads zero. -/
def imageNow (s : State) : List Byte := contextImage { s.view with s := s.view.s.set 0 0 } s.grp.next

/-- SAVE (R338): six store steps, after all six lines have passed their checks. -/
def execSave (g : Guard) (m : Mem) (s : State) : Out :=
  let i : Instr := .save g m
  let ea := s.ea m
  let img := imageNow s
  guarded s i g (do
    let (s, ps) ← checkRows i .write s ((List.range 6).map (fun j => ea + BitVec.ofNat 64 (64 * j)))
    rowsReady i .write s ps
    let (s, _) ← overRows i .write 24 (fun r => (img.drop (64 * r)).take 64)
      (fun s pa r => (storeAt s pa ((img.drop (64 * r)).take 64), (none, []))) s ps 0
    return s)

/-- SNAP (R340): the lines dirtied since the last commit are copied into the pending slot (R346); no commit and no rollback point
changes. -/
def execSnap (g : Guard) (s : State) : Out :=
  guarded s (.snap g) g (.ok (
    let k := s.coreKey
    let copied := if s.gang.shadow = 0 then s
      else s.core.snapLines.foldl (fun s l => shadowLine s s.gangId ((s.gang.ssn + 1) % 2) k (l - padBase k / 64)) s
    copied.updCore (fun c => { c with snapLines := [] })))

/-- SEED (R339): a barrier of the gang's level-0 scope. -/
def execSeed (g : Guard) (a : Fin 32) (s : State) : Out :=
  guarded s (.seed g a) g (.ok (startFlush s (barrierReach (level0 s.gang)) (.seed (s.rs a))))

/-- R341: removes translations from every cache of the packages of a gang. -/
def dropTranslations (s : State) (g : Gang) (drop : TlbEntry → Bool) : State :=
  { s with cores := s.cores.map (fun x => (x.1, if (gangPkgs g).contains (x.1 / 4096) then
      { x.2 with tlb := x.2.tlb.filter (fun e => !drop e) } else x.2)) }

/-- XINV (R341): the translations go; the context's later accesses wait for the acknowledgements. -/
def execXinv (g : Guard) (all : Bool) (m : Mem) (s : State) : Out :=
  let i : Instr := .xinv g all m
  let ea := s.ea m
  guarded s i g (
    if !s.sup then raiseSlot s i 0x0E
    else if !all && (nearOff ea.toNat).isNone && 2 ^ 57 ≤ ea.toNat then raise 0x14 ea 0
    else
      let drop (e : TlbEntry) : Bool := e.asid == s.gang.asid && (all || e.vpn == ea.toNat / 2 ^ pageShift e.level)
      asMessage s 23 ea.toNat [] (fun s => (dropTranslations s s.gang drop, (none, [])))
        (fun s _ => s.upd (fun c => { c with xinv := true })))

/-- R342: an answer with a refusal code. -/
def switchRefusal (code : Nat) : Word := BitVec.ofNat 64 (2 ^ 63 + code)

/-- R342: a gang that exists: it has neither completed nor been ended. -/
def gangExists (s : State) (g : Nat) : Bool :=
  match mget? g s.gangs with
  | some x => x.st != .complete && x.st != .ended
  | none => false

/-- R349: the core that stands for a core of a gang, given the packages replaced while it was switched out. -/
def movedTo (moved : List (Nat × Nat)) (k : Nat) : Nat :=
  moved.foldl (fun k m => if k / 4096 = m.1 then m.2 * 4096 + k % 4096 else k) k

/-- R342: a core is occupied at a time: the gang on it does not leave by then, or another one has been called in by then. -/
def occupiedAt (s : State) (g t k : Nat) : Bool :=
  let c := (s.getCore k).gang
  (c ≠ 0 && !(s.getGang c).outAt.any (fun u => u ≤ max t s.now)) ||
    s.gangs.any (fun x => x.1 ≠ g && x.2.st == .switchedOut && x.2.inAt.any (fun u => u ≤ max t s.now) && (x.2.cores.map (movedTo x.2.moved)).contains k)

/-- R342: GSWITCH on a gang at a time: the answer and the request recorded. A time that has passed takes effect at once. -/
def switchRequest (s : State) (fn : GswFn) (g t : Nat) : State × Word :=
  let x := s.getGang g
  if !gangExists s g then (s, switchRefusal 1)
  else
    match fn with
    | .out =>
      if x.cls = 1 then (s, switchRefusal 2)
      else if !x.st.runs then (s, switchRefusal 3)
      else (s.setGang g { x with outAt := some (max t s.now) }, 0)
    | .in_ =>
      if x.st = .switchedOut then
        (if (x.cores.map (movedTo x.moved)).any (occupiedAt s g t) then (s, switchRefusal 4) else (s.setGang g { x with inAt := some (max t s.now) }, 0))
      else (s, switchRefusal 5)
    | .cancel =>
      if x.outAt.isNone && x.inAt.isNone then (s, switchRefusal 6)
      else (s.setGang g { x with outAt := none, inAt := none }, 0)

/-- GSWITCH (R342). -/
def execGswitch (g : Guard) (fn : GswFn) (d : Option (Fin 32)) (a b : Fin 32) (s : State) : Out :=
  let i : Instr := .gswitch g fn d a b
  let gang := (s.rs a).toNat
  let t := (s.rs b).toNat
  guarded s i g (
    if !s.sup then raiseSlot s i 0x0E
    else asMessage s 25 gang (Bits.bytesLE 8 t)
      (fun s => let r := switchRequest s fn gang t; (r.1, (some r.2, [])))
      (fun s a => match d with
        | some r => sendAnswer s r (a.1.getD 0) 0
        | none => s))

end Sys2Proof.Machine
end

