-- ==== Sys2Proof/Machine/Events.lean ====
section
/-! DEFINITION. The steps of the cores' own units and of the homes that no instruction names: answers, accumulates, barriers, waits,
followers, late faults and opcodes that no form has (R67, R94 to R102, R138 to R146, R154, R160, R178 to R193, R206, R292, R341).
A step whose condition does not hold leaves the state as it is (log 4). -/
namespace Sys2Proof.Machine
open Num

/-- The gang of a core runs. -/
def runsOn (s : State) (k : Nat) : Bool := (s.getGang (s.getCore k).gang).st == .running

/-! ### Groups and answers (R67, R94, R96) -/

/-- UNASSIGNED_OPCODE (R67): cause 0x01 with the slot. -/
def execUnassignedOpcode (w : Slot) (s : State) : Out := finish s (raiseSlot s (.unassignedOpcode w) 0x01)

/-- QUANTUM_EXPIRY (R96, R204): the running context's count has reached QUANT and no capture is open: the next context that waits for nothing
is selected (log 29). -/
def execQuantumExpiry (k : Nat) (s : State) : Out :=
  let c := s.getCore k
  let x := s.getCtx (4 * k + c.running.val)
  if c.phase.isNone && x.capture.isNone && c.quant ≤ x.quantum then .next (selectCtx (fun _ => true) s k) else .next s

/-- REMOTE_ANSWER (R94): the i-th answer under way to core k arrives. -/
def execRemoteAnswer (k : Nat) (i : Nat) (s : State) : Out :=
  let c := s.getCore k
  match c.answers[i]? with
  | none => .next s
  | some a =>
    let key := 4 * k + a.ctx.val
    let s := s.setCore k { c with answers := c.answers.eraseIdx i }
    .next (lateAnswer (s.flagAt key a.flags) key a.dest a.value)

/-- WRITE_BACK (R154): a dirty line of device memory is written back. -/
def execWriteBack (line : Nat) (s : State) : Out :=
  if (s.getLine line).dirty.isSome then .next (writeBackLine s line) else .next s

/-- XINV_ACKNOWLEDGED (R341). -/
def execXinvAcknowledged (k : Nat) (c : Fin 4) (s : State) : Out :=
  .next (s.setCtx (4 * k + c.val) { s.getCtx (4 * k + c.val) with xinv := false })

/-! ### Accumulates (R137 to R143, R160) -/

/-- R138: the quota and the window length that a slice's registers hold. -/
def sliceQuota (s : State) (i : Nat) : Nat := (ctrlRaw s (blockPa (i / 512) (.slice (i % 512)) 0x100)).toNat
def sliceWindow (s : State) (i : Nat) : Nat := (ctrlRaw s (blockPa (i / 512) (.slice (i % 512)) 0x108)).toNat

/-- R139: whether a slice refuses an ordinary accumulate of a core to a line, given the lines that hold table entries. -/
def sliceRefuses (s : State) (i : Nat) (x : Slice) (table : List Nat) (src line : Nat) : Bool :=
  let q := sliceQuota s i
  (q ≠ 0 && q ≤ mget 0 src x.counts) || (!table.contains line && 32 ≤ table.length)

/-- R137, R160: an accepted accumulate is added into its line in one step. -/
def acceptAcc (s : State) (m : AccMsg) : State × Nat :=
  let y := (s.mem.readLE (m.line * 64) 64)
  let z := if m.exact then exactAdd m.ty m.cells m.mask y m.data.toNat else lineAdd m.ty m.mask y m.data.toNat
  let x := s.getLine m.line
  let ts := max x.wts (x.rts + 1)
  let s := s.setLine m.line { x with wts := ts, rts := ts }
  (putBytes s m.gang (m.line * 64) (Bits.bytesLE 64 z), ts)

/-- Replaces the i-th accumulate under way. -/
def putAcc (s : State) (i : Nat) (m : AccMsg) : State := { s with accs := s.accs.set i m }

/-- Removes the i-th accumulate under way. -/
def dropAcc (s : State) (i : Nat) : State := { s with accs := s.accs.eraseIdx i }

/-- ACCUMULATE_ARRIVAL (R139, R160, R122, R357): the i-th accumulate under way reaches its home, which adds it, refuses it, or finds
that its access table or poison forbids it. -/
def execAccumulateArrival (i : Nat) (s : State) : Out :=
  match s.accs[i]? with
  | none => .next s
  | some m =>
    let pa := m.line * 64
    let k := m.src / 4
    if m.st ≠ .sent || (s.getGang m.gang).st ≠ .running then .next s
    else if !targetAllows s k m.gang (s.getGang m.gang).asid pa true true then
      let t := dropAcc s i
      .next (tryFlushes (sendWaiting (if (s.getCtx m.src).live then refuseAt t m.src m.va (pa + m.off) else t) k) k)
    else
      let slice := sliceOf s (s.getGang m.gang) pa
      let s := if paReg pa = 0 then rollWindow s slice else s
      let x := s.getSlice slice
      let table := x.table.drop (Config.tableFreed s.free)
      let refused := !m.insistent && paReg pa = 0 && sliceRefuses s slice x table k m.line
      let s := if paReg pa = 0 && !m.insistent then
          let x := if refused then { x with table := table }
            else { x with table := if table.contains m.line then table else table ++ [m.line]
                          counts := mset k (mget 0 k x.counts + 1) x.counts }
          { s.setSlice slice x with free := s.free + 1 }
        else s
      if refused then
        let data := if m.exact then BitVec.ofNat 512 (toSlots m.ty m.cells m.mask (s.mem.readLE pa 64) m.data.toNat) else m.data
        .next (putAcc s i { m with st := .refused, data := data, cells := if m.exact then 15 else m.cells })
      else
        let s := homeRead s .ctx pa
        if poisoned s pa then
          .next (sendWaiting (dropAcc (s.setGang m.gang { s.getGang m.gang with consumed := some (m.line, m.src) }) i) k)
        else
          let (s, ts) := acceptAcc s m
          .next (putAcc s i { m with st := .accepted ts })

/-- ACCUMULATE_WINDOW_END (R138): the window of a slice has ended: the counts start again in the next. -/
def execAccumulateWindowEnd (slice : Nat) (s : State) : Out := .next (rollWindow s slice)

/-- R162: the stamp of an answer is the core's to absorb, by the package of its home. -/
def noteStamp (c : Core) (own line stamp : Nat) : Core :=
  if covers .local own line then { c with accLocal := max c.accLocal stamp } else { c with accOther := max c.accOther stamp }

/-- R160, R143: the answer of an accepted accumulate reaches its core. -/
def acceptAnswer (s : State) (k i : Nat) (insistent : Bool) : State :=
  match s.accs[i]? with
  | none => s
  | some m =>
    match m.st with
    | .accepted stamp =>
      if m.src / 4 = k && m.insistent == insistent && runsOn s k then
        let x := s.getCtx m.src
        let s := (dropAcc s i).setCtx m.src { x with answers := x.answers ++ [(m.line, stamp)] }
        tryFlushes (sendWaiting (s.setCore k (noteStamp (s.getCore k) (k / 4096) m.line stamp)) k) k
      else s
    | _ => s

/-- ACCEPTANCE_ANSWER (R160). -/
def execAcceptanceAnswer (k : Nat) (i : Nat) (s : State) : Out := .next (acceptAnswer s k i false)

/-- INSISTENT_ACK (R142, R143). -/
def execInsistentAck (k : Nat) (i : Nat) (s : State) : Out := .next (acceptAnswer s k i true)

/-- R143: a flush of the core that waits for this accumulate and covers its line. -/
def flushAwaits (s : State) (k : Nat) (m : AccMsg) : Bool :=
  (List.range 4).any (fun n => match (s.getCtx (4 * k + n)).wait with
    | some (.flush r _ bound) => decide (m.seq < bound) && covers r (k / 4096) m.line
    | _ => false)

/-- The live entry with the greatest AGE. -/
def oldestResidual (c : Core) : Option Residual :=
  c.residual.foldl (fun b e => match b with
    | none => some e
    | some x => if e.born < x.born then some e else b) none

/-- R141, R142: an entry is sent insistent and freed, under the number it waits with if it does. -/
def sendNow (s : State) (k : Nat) (e : Residual) (src : Nat) : State :=
  match e.sending with
  | some (a, seq) => startSend s k e a seq
  | none => sendInsistent s k e src

/-- R139, R141: the entry that must be sent before a returned addend can enter the tile may be sent now. -/
def residualTakes (s : State) (k : Nat) (m : AccMsg) : Bool :=
  let c := s.getCore k
  match c.residual.find? (fun e => e.line = m.line) with
  | some e => (e.ty = m.ty && e.exact == m.exact) || !insistentFull s k e.line
  | none => c.residual.length < 32 || (oldestResidual c).all (fun e => !insistentFull s k e.line)

/-- R141: a returned addend is combined into the residual tile: the entry it stands in. -/
def intoResidual (s : State) (k : Nat) (m : AccMsg) : State × Residual :=
  let c := s.getCore k
  let fresh : Residual := ⟨m.line, m.exact, m.ty, m.mask, m.data, m.born.getD s.now, none⟩
  let add (s : State) (e : Residual) : State × Residual :=
    (s.setCore k { s.getCore k with residual := (s.getCore k).residual ++ [e] }, e)
  match c.residual.find? (fun e => e.line = m.line) with
  | some e =>
    if e.ty = m.ty && e.exact == m.exact then
      let e' := { e with
        mask := e.mask ||| m.mask, data := BitVec.ofNat 512 (combine m.ty m.exact e.mask e.data.toNat m.mask m.data.toNat)
        born := min e.born (m.born.getD s.now) }
      (s.setCore k { c with residual := c.residual.map (fun x => if x = e then e' else x) }, e')
    else add (sendNow s k e m.src) fresh
  | none =>
    let s := if 32 ≤ c.residual.length then (match oldestResidual c with
        | some e => sendNow s k e m.src
        | none => s) else s
    add s fresh

/-- REFUSAL_RETURN (R141, R143): a refused addend is back at its core; a flush that waits for it sends it insistent. -/
def execRefusalReturn (k : Nat) (i : Nat) (s : State) : Out :=
  match s.accs[i]? with
  | none => .next s
  | some m =>
    if m.st ≠ .refused || m.src / 4 ≠ k || !runsOn s k || !residualTakes s k m then .next s
    else
      let s := dropAcc s i
      let s := s.setCore k { s.getCore k with refu := (s.getCore k).refu + 1 }
      let (s, e) := intoResidual s k m
      if flushAwaits s k m then .next (sendAs s k e m.src (e.sending.elim m.seq (fun x => min m.seq x.2)))
      else .next (tryFlushes s k)

/-- RESIDUAL_AGE_EXPIRY (R142): an entry whose AGE has reached 65,536 is sent insistent. -/
def execResidualAgeExpiry (k : Nat) (s : State) : Out :=
  match (s.getCore k).residual.find? (fun e => e.sending.isNone && decide (e.born + 65536 ≤ s.now)) with
  | some e => if runsOn s k then .next (sendInsistent s k e (4 * k + (s.getCore k).running.val)) else .next s
  | none => .next s

/-! ### Barriers (R165, R186) -/

/-- The contexts of cores that wait at BAR of a scope. -/
def barWaiters (s : State) (ks : List Nat) (scope : Fin 8) : List Nat :=
  ks.flatMap (fun k => ([0, 1, 2, 3].map (fun n => 4 * k + n)).filter (fun key =>
    (s.getCtx key).live && (s.getCtx key).wait == some (.bar scope)))

/-- Contexts that have waited go on. -/
def releaseWaits (s : State) (keys : List Nat) : State :=
  keys.foldl (fun s k => nextFlush (s.setCtx k { s.getCtx k with wait := none }) k) s

/-- R186, R187: a context that has issued BAR of a scope or SSTEP and still flushes joins the arrival that its core has made. -/
def joinArrival (a : After) (c : Ctx) : Ctx :=
  match c.wait, c.behind with
  | some (.flush r b bound), _ => if b = a then { c with wait := some (.flush r .joined bound) } else c
  | _, some (r, b) => if b = a then { c with behind := some (r, .joined) } else c
  | _, _ => c

/-- The contexts of cores. -/
def ctxsOf (ks : List Nat) : List Nat := ks.flatMap (fun k => [0, 1, 2, 3].map (fun n => 4 * k + n))

/-- The contexts of cores that join an arrival without having come to it. -/
def joiners (s : State) (a : After) (ks : List Nat) : List Nat :=
  (ctxsOf ks).filter (fun key => (s.getCtx key).live && joinArrival a (s.getCtx key) != s.getCtx key)

/-- They join it. -/
def joinAll (s : State) (a : After) (keys : List Nat) : State := keys.foldl (fun s key => s.setCtx key (joinArrival a (s.getCtx key))) s

/-- R53: the cores' fetch sees every line afresh; a context that waits at PHASE loads its run again. -/
def refetch (s : State) (ks : List Nat) : State :=
  (ctxsOf ks).foldl (fun s key =>
    if !(s.getCtx key).live then s
    else
      let s := s.setCtx key { s.getCtx key with lineBuf := none }
      match (s.getCtx key).wait with
      | some (.phase sc _) => loadPhase s key (barrierReach sc.val) sc
      | _ => s) s

/-- BARRIER_COMPLETE (R186, R165, R53): every gang core of the unit of core k has arrived. -/
def execBarrierComplete (k : Nat) (scope : Fin 8) (s : State) : Out :=
  let g := s.getGang (s.getCore k).gang
  let ks := gangUnit g scope.val k
  let keys := barWaiters s ks scope
  if g.st ≠ .running || ks.isEmpty || ks.any (fun c => !keys.any (fun key => key / 4 = c)) then .next s
  else
    let joining := joiners s (.bar scope) ks
    let s := joinAll (joinPts s (keys ++ joining)) (.bar scope) joining
    .next (releaseWaits (refetch s ks) keys)

/-! ### Tasks (R178 to R181) -/

/-- R178: the time from which an entry stands at the head of its FIFO. -/
def standNow (now : Nat) : List TqEntry → List TqEntry
  | [] => []
  | e :: rest => { e with time := now } :: rest

/-- The FIFO of a priority. -/
def fifoAt (q : TaskQueue) (p : Nat) : List TqEntry := q.toArray.getD p []

/-- Replaces a FIFO of a queue of a gang. -/
def setFifo (s : State) (g q p : Nat) (l : List TqEntry) : State :=
  let gang := s.getGang g
  s.setGang g { gang with queues := mset q ((getQueue s g q).setIfInBounds p l) gang.queues }

/-- R180: the highest nonempty priority of a queue, with its head and the rest. -/
def headOfQueue (s : State) (g q : Nat) : Option (Nat × TqEntry × List TqEntry) :=
  [3, 2, 1, 0].findSome? (fun p => match fifoAt (getQueue s g q) p with
    | [] => none
    | e :: rest => some (p, e, rest))

/-- R180: the entry that an idle context of core k pops: the queue, its priority, the entry and the rest of the FIFO. -/
def nextTask (s : State) (k : Nat) : Option (Nat × Nat × TqEntry × List TqEntry) :=
  [1, 4, 5, 6].findSome? (fun d => (headOfQueue s (s.getCore k).gang (queueKey d k)).map (fun x => (queueKey d k, x)))

/-- R181: the state a task starts with; `frame` is s1 and `handle` s2. -/
def freshTask (c : Ctx) (code frame handle : Word) : Ctx :=
  { c with
    s := (((Vector.replicate 32 0 : Vector Word 32).set 1 frame).set 2 handle)
    full := 0xFFFFFFFF, p := 1, asr := 0, vsh := Ctx.reset.vsh, lfs := 0, pc := code, live := true, wait := none, packet := none
    lineBuf := none, capture := none, pair := none, stepBrk := none, walking := none, behind := none, sent := [] }

/-- R180, R181: a pop that starts no task: the context enters its handler with TPC 0. -/
def popFault (s : State) (key : Nat) (cause : Nat) (a b : Word) : State :=
  enterTrap (s.setCtx key { s.getCtx key with live := true, wait := none, packet := none, pair := none }) key ⟨cause, a, b, some 0⟩ false 0

/-- R181, R57, R166: a task starts at its code, or its context enters its handler. -/
def startTask (s : State) (key : Nat) (code frame handle shown : Word) (packet : Option Packet) (prio stamp : Nat) : State :=
  let c := s.getCtx key
  let s := s.setCtx key { c with lineBuf := none, pts := max c.pts stamp }
  match targetCause s key code true with
  | some cause => popFault s key cause code shown
  | none => s.setCtx key { freshTask (s.getCtx key) code frame handle with packet := packet, prio := prio }

/-- R135: a continuation starts: s1 is its frame, and its destination takes the value; s2, a packet's handle, is 0 (log 29). -/
def startCont (s : State) (key : Nat) (c : Cont) (stamp : Nat) : State :=
  let x := s.getCtx key
  let s := s.setCtx key { x with lineBuf := none, pts := max x.pts stamp }
  match targetCause s key c.code true with
  | some cause => popFault s key cause c.code 0
  | none => s.setCtx key { (freshTask (s.getCtx key) c.code c.frame 0).putS c.dest c.value with prio := c.prio }

/-- What the dispatcher finds when it reads a packet. -/
inductive PopRead where
  /-- Its bytes, well formed or not. -/
  | bytes (s : State) (bs : List Byte)
  /-- The cause that the read meets. -/
  | cause (s : State) (c : Nat)
  /-- The read waits, or has consumed poison. -/
  | held (s : State)

/-- R180, R188: reads the packet at a handle for the context that pops it. It is the dispatcher's read: no phase of the core bears on it. -/
def readPacket (s : State) (handle : Word) : PopRead :=
  let back (t : State) : State := t.updCore (fun c => { c with phase := s.core.phase })
  match readWhole (s.updCore (fun c => { c with phase := none })) .nop handle with
  | .ok (s, bs, false) => .bytes (back s) bs
  | .ok (s, _, true) => .cause (back (s.upd (fun c => { c with refusals := [] }))) 0x12
  | .error (.trap t) => .cause s t.cause
  | .error (.after s t) => .cause (back s) t.cause
  | .error (.wait t) => .held (back t)

/-- R180: whether context c is the idle context of a running gang's core that pops next. -/
def mayPop (s : State) (k : Nat) (c : Fin 4) : Bool :=
  let g := s.getGang (s.getCore k).gang
  (s.getCore k).gang ≠ 0 && g.st == .running && g.consumed.isNone &&
    (List.range 4).find? (fun n => !(s.getCtx (4 * k + n)).live) == some c.val

/-- TASK_POP (R180, R181, R183): an idle context takes a queue's head and starts it. A packet with PAIR starts its first copy, which
waits for a second. -/
def execTaskPop (k : Nat) (c : Fin 4) (s : State) : Out :=
  if !mayPop s k c then .next s
  else
    match nextTask s k with
    | none => .next s
    | some (q, p, e, rest) =>
      let g := (s.getCore k).gang
      let key := 4 * k + c.val
      let popped (s : State) : State := setFifo s g q p (standNow s.now rest)
      match e.cont with
      | some x => .next (startCont (popped s) key x e.stamp)
      | none =>
        match readPacket { s with cur := key } e.handle with
        | .held t =>
          if (t.getGang g).consumed.isSome then .next { t.setCtx key (s.getCtx key) with cur := s.cur, grp := s.grp } else .next s
        | .cause t cause => .next (popFault (popped { t with cur := s.cur }) key cause e.handle 0)
        | .bytes t bs =>
          let t := popped { t with cur := s.cur }
          match packetFault bs with
          | some cause => .next (popFault t key cause e.handle (BitVec.ofNat 64 (Bits.ofBytesLE (bs.take 8))))
          | none =>
            let pk := Pkt.ofHead (Bits.ofBytesLE (bs.take 32))
            let packet : Packet := ⟨e.handle, pk.prio, successors bs, 0⟩
            let t := startTask t key pk.code pk.frame e.handle e.handle (some packet) pk.prio e.stamp
            if pk.pair && (t.getCtx key).packet.isSome then
              let pid := t.free
              let t := t.setCtx key { t.getCtx key with wait := some .partner, pair := some pid }
              .next { t with
                free := t.free + 1
                pairs := mset pid ⟨g, key, none, packet, e.stamp, q, none, none, 0, 0, false, none⟩ t.pairs }
            else .next t

/-- TASK_AGING (R178): a head that has stood for 65,536 cycles moves to the tail of the next higher priority. -/
def execTaskAging (gang : Nat) (queue : Nat) (prio : Fin 4) (s : State) : Out :=
  let p := prio.val
  match fifoAt (getQueue s gang queue) p with
  | [] => .next s
  | e :: rest =>
    if p = 3 || s.now < e.time + 65536 || (s.getGang gang).st ≠ .running then .next s
    else
      let s := setFifo s gang queue p (standNow s.now rest)
      .next (setFifo s gang queue (p + 1) (fifoAt (getQueue s gang queue) (p + 1) ++ [{ e with time := s.now }]))

/-- QUEUE_SLOT_RESUME (R179): a waiting DONE or JOIN tries again, and an FST walk goes on. -/
def execQueueSlotResume (k : Nat) (c : Fin 4) (s : State) : Out :=
  let key := 4 * k + c.val
  let x := s.getCtx key
  if !runsOn s k then .next s
  else
    match x.wait with
    | some .slot =>
      match x.walking with
      | none => .next (s.setCtx key { x with wait := none })
      | some (rest, stamp) =>
        let r := walkList stamp s rest
        .next (r.1.setCtx key { r.1.getCtx key with walking := some (r.2, stamp), wait := if r.2.isEmpty then none else x.wait })
    | _ => .next s

/-! ### Waits with a limit (R191 to R193) -/

/-- The physical address of a word as core k's gang reads it. -/
def wordPa (s : State) (k : Nat) (va : Word) : Option Nat :=
  match xlate s k (s.getCore k).gang va.toNat .read with
  | .ok x => some x.pa
  | .error _ => none

/-- R193: the cause of an expired wait. -/
def limitTrap (s : State) (k : Nat) (t : Timed) : TrapInfo :=
  match t with
  | .queue d =>
    match wordPa s k d with
    | some pa => ⟨0x40, d, BitVec.ofNat 64 (s.mem.readLE (pa + 16) 4 + s.mem.readLE (pa + 24) 4 * 2 ^ 32), none⟩
    | none => ⟨0x40, d, Config.freeWord s.free, none⟩
  | .word w => ⟨0x41, w.addr, w.last, none⟩
  | .chain ch => ⟨0x50, BitVec.ofNat 64 ch, BitVec.ofNat 64 (s.getChain k ⟨ch % 8, Nat.mod_lt _ (by decide)⟩).ccnt, none⟩

/-- R192: a WAITE whose word has compared true waits no longer. -/
def hasHit : Timed → Bool
  | .word w => w.hit.isSome
  | _ => false

/-- WAIT_LIMIT_EXPIRY (R193): a wait has lasted its limit in cycles of the gang: its cause is raised at the form. -/
def execWaitLimitExpiry (k : Nat) (c : Fin 4) (s : State) : Out :=
  let key := 4 * k + c.val
  match (s.getCtx key).wait with
  | some (.timed t (some limit) _) =>
    if runsOn s k && limit ≤ (s.getGang (s.getCore k).gang).ran && !hasHit t then
      .next { enterTrap s key (limitTrap s k t) false 0 with free := s.free + 1 }
    else .next s
  | _ => .next s

/-- WAITE_REPORT (R192): the oldest report to a waiting WAITE arrives and is compared. -/
def execWaiteReport (k : Nat) (c : Fin 4) (s : State) : Out :=
  let key := 4 * k + c.val
  let x := s.getCtx key
  if !runsOn s k then .next s
  else
    match s.reports.find? (fun r => r.key = key) with
    | none => .next s
    | some r =>
      let s := { s with reports := s.reports.erase r }
      match x.wait with
      | some (.timed (.word w) limit _) =>
        match r.stamp with
        | none => .next (s.setCtx key { x with wait := some (.timed (.word { w with last := r.value }) limit false) })
        | some ts => .next (s.setCtx key { x with
            pts := max x.pts ts, wait := some (.timed (.word { w with last := r.value, hit := some r.value }) limit true) })
      | _ => .next s

/-- QUEUE_RETRY (R191): a waiting QPUT or QGET looks again. -/
def execQueueRetry (k : Nat) (c : Fin 4) (s : State) : Out :=
  let key := 4 * k + c.val
  let x := s.getCtx key
  match x.wait with
  | some (.timed (.queue d) limit _) =>
    if runsOn s k then .next (s.setCtx key { x with wait := some (.timed (.queue d) limit true) }) else .next s
  | _ => .next s

/-- CLAIM_HANDOVER (R234): a claim given up passes to the first waiting context. -/
def execClaimHandover (k : Nat) (s : State) : Out :=
  let c := s.getCore k
  match c.claim with
  | none => .next s
  | some h =>
    if !c.releasing || matrixBusy c then .next s
    else
      match claimWaiter s k h with
      | none => .next (passClaim s k)
      | some n =>
        let s := takeClaim s k n
        .next (s.setCtx (4 * k + n.val) { s.getCtx (4 * k + n.val) with wait := none })

/-! ### Followers (R100 to R102) -/

/-- R102: the stream of a follower has ended without a marker: nothing is buffered and its neighbour forwards no longer. -/
def streamLost (s : State) (key : Nat) : Bool :=
  (s.getCore (key / 4)).buffer.isEmpty &&
    ((neighbour (key / 4) (lfsDir (s.getCtx key))).bind (fun n => forwarder s n (backDir (lfsDir (s.getCtx key))))).isNone

/-- FOLLOWER_MARKER (R101, R102): a marker at the head of a follower's buffer takes effect and goes onward. A follower that waits for a
marker passes over groups, and one whose stream has ended detaches. -/
def execFollowerMarker (k : Nat) (s : State) : Out :=
  match followerOf s k with
  | none => .next s
  | some n =>
    let key := 4 * k + n
    let x := s.getCtx key
    let c := s.getCore k
    if !runsOn s k then .next s
    else
      match c.buffer with
      | [] => if streamLost s key then .next (detach s key) else .next s
      | f :: rest =>
        let popped := s.setCore k { c with buffer := rest }
        match f with
        | .attach next =>
          let s := forwardTo popped k (lfsFwd x) f
          if lfsMode x = 2 then
            .next (s.setCtx key { x with lfs := mkLfs (lfsFwd x) (lfsHops x) (lfsDir x).code.toNat 3, pc := next, lineBuf := none })
          else .next s
        | .stop next =>
          let s := forwardTo popped k (lfsFwd x) f
          .next ((detach s key).setCtx key { x with lfs := 0, pc := next, lineBuf := none })
        | .group .. => if lfsMode x = 2 then .next popped else .next s

/-- FORWARDED_GROUP (R101, R102): the running context of the core, a follower, is brought to the group at the head of its buffer. -/
def execForwardedGroup (k : Nat) (s : State) : Out :=
  let key := 4 * k + (s.getCore k).running.val
  if followerOf s k ≠ some (s.getCore k).running.val || (s.getCore k).phase.isSome || !runsOn s k then .next s
  else
    match prepare s key with
    | .blocked => .next s
    | .done t => .next { t with grp := Group.idle }
    | .group t => .next t

/-! ### Late faults (R206, R292) -/

/-- IMPRECISE_FAULT_DELIVERY (R206): a context takes its oldest faulted entry before its next group. -/
def execImpreciseFaultDelivery (k : Nat) (c : Fin 4) (s : State) : Out :=
  let key := 4 * k + c.val
  if awake s key && atGroup s key && deliverable s key && (oldestFault (s.getCore k) c.val).isSome then .next (deliverFault s key) else .next s

/-- ENGINE_ERROR_DELIVERY (R292): a context takes its oldest engine error before its next group. -/
def execEngineErrorDelivery (k : Nat) (c : Fin 4) (s : State) : Out :=
  let key := 4 * k + c.val
  if awake s key && atGroup s key && deliverable s key && (oldestFault (s.getCore k) c.val).isNone && !(s.getCtx key).errors.isEmpty then
    .next (deliverError s key)
  else .next s

/-! ### Paired tasks (R183) -/

/-- R183: the core on which a second copy starts: the nearest on the die by packet cost H of at least 3, lower index first, that has an
idle context. -/
def partnerCore (s : State) (g : Gang) (k : Nat) : Option Nat :=
  let dmap := (s.getPkg (k / 4096)).dmap.toNat
  let cost (j : Nat) : Nat := Topo.route dmap (dieOf k) (rowOf k) (colOf k) (dieOf j) (rowOf j) (colOf j)
  let idle (j : Nat) : Bool := (List.range 4).any (fun n => !(s.getCtx (4 * j + n)).live)
  (g.cores.filter (fun j => j / 512 = k / 512 && 3 ≤ cost j && idle j)).foldl (fun b j =>
    match b with
    | none => some j
    | some i => if cost j < cost i then some j else b) none

/-- PAIRED_COPY_START (R183): the second copy of the subject pair starts, and the first goes on. -/
def execPairedCopyStart (s : State) : Out :=
  match mget? s.subject s.pairs with
  | none => .next s
  | some p =>
    let g := s.getGang p.gang
    if p.second.isSome || g.st ≠ .running || (s.getCtx p.first).pair ≠ some s.subject then .next s
    else
      match partnerCore s g (p.first / 4) with
      | none => .next s
      | some j =>
        match (List.range 4).find? (fun n => !(s.getCtx (4 * j + n)).live) with
        | none => .next s
        | some n =>
          let key := 4 * j + n
          let one := s.getCtx p.first
          let c := s.getCtx key
          let two := { freshTask c one.pc (one.s.toArray.getD 1 0) p.packet.handle with
            packet := some p.packet, prio := p.packet.prio, pair := some s.subject, pts := max c.pts p.stamp }
          .next { (s.setCtx key two).setCtx p.first { one with wait := none } with
            pairs := mset s.subject { p with second := some key } s.pairs }

/-- R183: a mismatch: the second copy's context is idle, the packet is queued again, and the first copy takes 0x74. -/
def mismatch (s : State) (pid : Nat) (p : Pair) : State :=
  let s := { s with pairs := mdel pid s.pairs }
  let runs (key : Nat) : Bool := (s.getCtx key).pair == some pid
  let ord := BitVec.ofNat 64 p.ord1
  let s := match p.second with
    | some key => if runs key then endContext s key else s
    | none => s
  let stamp := max p.stamp (s.getCtx p.first).pts
  let s := enqueue s p.gang p.queue p.packet.prio ⟨p.packet.handle, none, s.now, stamp⟩
  if (s.getCtx p.first).pair == some pid then
    enterTrap (s.setCtx p.first { s.getCtx p.first with packet := none, pair := none }) p.first ⟨0x74, p.packet.handle, ord, none⟩ false 0
  else s

/-- PAIRED_MESSAGE_COMPARE (R183): both messages of an ordinal have arrived: they agree and the first copy forwards, or mismatch. -/
def execPairedMessageCompare (s : State) : Out :=
  match mget? s.subject s.pairs with
  | none => .next s
  | some p =>
    match p.msg1, p.msg2 with
    | some a, some b =>
      if a.ordinal ≠ b.ordinal || p.agreed || p.answer.isSome || (s.getGang p.gang).st ≠ .running then .next s
      else if a.hash = b.hash then
        .next { s.setCtx p.first { s.getCtx p.first with wait := none } with pairs := mset s.subject { p with agreed := true } s.pairs }
      else .next (mismatch s s.subject p)
    | _, _ => .next s

/-- PAIRED_MISMATCH_TIMEOUT (R183): the other message of an ordinal has not arrived within 65,536 cycles. -/
def execPairedMismatchTimeout (s : State) : Out :=
  match mget? s.subject s.pairs with
  | none => .next s
  | some p =>
    let late (m : Option PairMsg) (other : Option PairMsg) : Bool :=
      m.any (fun a => decide (a.time + 65536 ≤ s.now) && !other.any (fun b => b.ordinal = a.ordinal))
    if (s.getGang p.gang).st = .running && !p.agreed && p.answer.isNone && (late p.msg1 p.msg2 || late p.msg2 p.msg1) then
      .next (mismatch s s.subject p)
    else .next s

end Sys2Proof.Machine
end

