-- ==== Sys2Proof/Machine/Prism.lean ====
section
/-! DEFINITION. The prism forms and the start of the array's next form (R252 to R264, R238). -/
namespace Sys2Proof.Machine
open Num Mat

/-- The bit tile of a core as a number. -/
def bitTile (s : State) (n : Fin 8) : Nat := s.core.bits[n].toNat

/-- Writes a bit tile. -/
def putBits (s : State) (n : Fin 8) (x : Nat) : State := s.updCore (fun c => { c with bits := c.bits.set n (BitVec.ofNat 4096 x) })

/-- R258: writes the four registers of counts. -/
def putCounts (s : State) (d : Fin 32) (f : Nat → Nat) : State :=
  s.upd (fun x => { x with v := mergeV s.view.v (countRegs s.view.v d.val f) x.v })

/-- R261: what is wrong with the effective address of a BLD or BST. -/
def bitAddrFault (s : State) (ea : Word) : Option Nat :=
  match nearOff ea.toNat with
  | none => some 0x33
  | some b => if b % 64 ≠ 0 then some 0x13 else if padSize s s.coreKey < b + 512 then some 0x15 else none

/-- R261: BLD, or BST when `store`. -/
def bitTransfer (s : State) (ea : Word) (d : Fin 8) (store : Bool) : Perf :=
  match bitAddrFault s ea with
  | some c => .fault s 0x38 ea (BitVec.ofNat 64 c)
  | none =>
    let m : Mode := if store then .write else .read
    match checkPieces 0x38 m 64 s (cutLines 10 ea 512) with
    | .error p => p
    | .ok (s, ps) =>
      match piecesReady m s ps with
      | .error e => .stop e
      | .ok s =>
        if store then
          match writePieces 0x38 s ps (Bits.bytesLE 512 (bitTile s d)) with
          | .error p => p
          | .ok s => .ok s none 0
        else
          match readPieces 0x38 s ps [] with
          | .error p => p
          | .ok (s, bs) => .ok (putBits s d (Bits.ofBytesLE bs)) none 0

/-- What a prism form does, for the context that dispatched it. -/
def runPrism (s : State) (f : ArrayForm) : Perf :=
  match f.instr with
  | .bcmp _ t pr d a b m n nan => .ok (putBits s d (Mat.bcmp t pr nan (m.toNat + 1) (n.toNat + 1) (f.vs.getD s.view.v) a.val b.val)) none 0
  | .bpopr _ d a => .ok (putCounts s d (Mat.bpopr (bitTile s a))) none 0
  | .bpopc _ d a => .ok (putCounts s d (Mat.bpopc (bitTile s a))) none 0
  | .bfirst _ d a => .ok (putCounts s d (Mat.bfirst (bitTile s a))) none 0
  | .bclos _ refl d a => .ok (putBits s d (Mat.bclos refl (bitTile s a))) none 0
  | .bcomp _ d a b => .ok (putBits s d (Mat.bcomp (bitTile s a) (bitTile s b))) none 0
  | .btrn _ d a => .ok (putBits s d (Mat.btrn (bitTile s a))) none 0
  | .blog _ fn d a b => .ok (putBits s d (Mat.blog fn (bitTile s a) (b.elim 0 (bitTile s)))) none 0
  | .bld _ d _ => bitTransfer s f.word d false
  | .bst _ d _ => bitTransfer s f.word d true
  | .bzero _ d => .ok (putBits s d 0) none 0
  | .beye _ d => .ok (putBits s d Mat.beye) none 0
  | _ => .ok s none 0

/-- A matrix or prism form from the array queue. -/
def runArray (s : State) (f : ArrayForm) (e : RingEntry) : Perf :=
  if 0xB0 ≤ e.insn.toNat / 2 ^ 88 then runPrism s f else runMatrix s f e

/-- A prism form (R253, R256, R258): its v groups, its claim, and its dispatch. -/
def prismForm (s : State) (i : Instr) (g : Guard) (word : Word) : Out :=
  guardedShape s i g (
    if !holdsClaim s then raiseSlot s i 0x30 else arrayIssue runArray s i word none id)

/-- BCMP (R256, R257). -/
def execBcmp (g : Guard) (t : Ty) (pr : BPred) (d : Fin 8) (a b : Fin 32) (m n : BitVec 6) (nan : NanMode) (s : State) : Out :=
  prismForm s (.bcmp g t pr d a b m n nan) g 0

/-- BPOPR (R258). -/
def execBpopr (g : Guard) (d : Fin 32) (a : Fin 8) (s : State) : Out := prismForm s (.bpopr g d a) g 0

/-- BPOPC (R258). -/
def execBpopc (g : Guard) (d : Fin 32) (a : Fin 8) (s : State) : Out := prismForm s (.bpopc g d a) g 0

/-- BFIRST (R258). -/
def execBfirst (g : Guard) (d : Fin 32) (a : Fin 8) (s : State) : Out := prismForm s (.bfirst g d a) g 0

/-- BCLOS (R260). -/
def execBclos (g : Guard) (refl : Bool) (d a : Fin 8) (s : State) : Out := prismForm s (.bclos g refl d a) g 0

/-- BCOMP (R260). -/
def execBcomp (g : Guard) (d a b : Fin 8) (s : State) : Out := prismForm s (.bcomp g d a b) g 0

/-- BTRN (R260). -/
def execBtrn (g : Guard) (d a : Fin 8) (s : State) : Out := prismForm s (.btrn g d a) g 0

/-- BLOG (R260). -/
def execBlog (g : Guard) (fn : BlogFn) (d a : Fin 8) (b : Option (Fin 8)) (s : State) : Out := prismForm s (.blog g fn d a b) g 0

/-- BLD (R261). -/
def execBld (g : Guard) (d : Fin 8) (m : Mem) (s : State) : Out := prismForm s (.bld g d m) g (s.ea m)

/-- BST (R261). -/
def execBst (g : Guard) (d : Fin 8) (m : Mem) (s : State) : Out := prismForm s (.bst g d m) g (s.ea m)

/-- BZERO (R260). -/
def execBzero (g : Guard) (d : Fin 8) (s : State) : Out := prismForm s (.bzero g d) g 0

/-- BEYE (R260). -/
def execBeye (g : Guard) (d : Fin 8) (s : State) : Out := prismForm s (.beye g d) g 0

/-- The number of the transfer of a core's array (log 3). -/
def arrayScript (k : Nat) : Nat := 4 * k + 3

/-- ARRAY_FORM_START (R236, R238): the core's next matrix or prism form takes its effect; a GMMA waits for its join. -/
def execArrayFormStart (k : Nat) (s : State) : Out :=
  let c := s.getCore k
  match c.arrayQ with
  | [] => .next s
  | f :: _ =>
    if (headGmma c).isSome then .next s
    else
      let e := c.entry f.tseq
      let key := 4 * k + e.ctx.val
      let t := openScript { s with cur := key, grp := Group.idle } (arrayScript k)
      match finishArray f (runArray t f e) with
      | .ok t => .next { closeScript (popArray t k) true with cur := s.cur }
      | .error (.wait t) =>
        if t.gang.consumed.isSome then .next { closeScript t true with cur := s.cur }
        else
          let held := heldFor t
          let t := { closeScript (t.setCtx key { t.getCtx key with wait := (s.getCtx key).wait }) false with cur := s.cur }
          .next (t.setCore k { t.getCore k with arrayQ := { f with held := held } :: (t.getCore k).arrayQ.drop 1 })
      | .error _ => .next s

end Sys2Proof.Machine
end

