-- ==== Sys2Proof/Machine/Streams.lean ====
section
/-! DEFINITION. Command streams, launches and the end of a gang (R169 to R176, R195, R324 to R326, R347). A front end's number is
package · 128 + n. -/
namespace Sys2Proof.Machine
open Num

/-! ### Control registers (R169, R324, R358) -/

/-- CONTROL_REGISTER_WRITE (R324): the host port writes a register of region 2, if the table of its block lets master 0xFFFF (R326). -/
def execControlRegisterWrite (pa : Nat) (v : Word) (s : State) : Out :=
  if paReg pa = 2 && targetAllows s 0 0 0xFFFF pa false true then .next (ctrlWrite s pa v) else .next s

/-- EINJ_ARM (R358): the same, to EINJ of a base die. -/
def execEinjArm (pkg : Nat) (die : Fin 8) (v : Word) (s : State) : Out :=
  let pa := blockPa pkg (.base die.val) 0xA00
  if targetAllows s 0 0 0xFFFF pa false true then .next (ctrlWrite s pa v) else .next s

/-- A register of a front end (R169). -/
def feReg (s : State) (id off : Nat) : Nat := (ctrlRaw s (blockPa (id / 128) (.front (id % 128)) off)).toNat
def feSet (s : State) (id off v : Nat) : State := ctrlSet s (blockPa (id / 128) (.front (id % 128)) off) (BitVec.ofNat 64 v)

/-- CSCTL_CLR (R169): STOPPED and CAUSE of the subject front end are cleared. -/
def execCsctlClr (s : State) : Out := .next (clearStop s (s.subject / 128) (s.subject % 128))

/-- R170: a front end stops at the packet at CSHEAD. -/
def feStop (s : State) (id cause : Nat) : State := feSet s id 0x28 (cause * 256 + 1)

/-- R169: ring size and head. -/
def feSize (s : State) (id : Nat) : Nat := 2 ^ feReg s id 0x08
def feHead (s : State) (id : Nat) : Nat := feReg s id 0x10 % feSize s id

/-- R169, R170: a front end is to read its next packet: it is enabled and not stopped, the ring is not empty and no launch of its own
is pending. -/
def feReady (s : State) (id : Nat) : Bool :=
  Bits.bit (feReg s id 0x20) 0 && !Bits.bit (feReg s id 0x28) 0 && feHead s id ≠ feReg s id 0x18 % feSize s id &&
    !s.launches.any (fun l => l.fe == some id)

/-- R170: a packet has been completed: CSHEAD moves past it. -/
def feAdvance (s : State) (id len : Nat) : State :=
  feSet (feSet s id 0x10 ((feHead s id + 32 * len) % feSize s id)) id 0x28 (feReg s id 0x28 / 4 * 4)

/-! ### Accesses of a front end (R127, R170, R326) -/

/-- The ASID that a front end's accesses carry (R326). -/
def feMaster (s : State) (id : Nat) : Nat := mget 0 id s.feAsid

/-- R326: whether the home of a device-memory address lets a front end read or write. -/
def feAllowed (s : State) (asid pa : Nat) (rd wr : Bool) : Bool := targetAllows s 0 0 asid pa rd wr

/-- R116, R170: an address that a stream packet may name. -/
def feAddrOk (s : State) (id pa align : Nat) : Bool :=
  pa % align = 0 && pa < 2 ^ 60 && paReg pa = 0 && paOff pa < Config.deviceBytes && listed s (id / 128) (paPkg pa)

/-- R127, R151: a front end's load steps, one for each line of a list. -/
def feLoads (s : State) (id : Nat) (lines : List Nat) : State :=
  lines.foldl (fun s l =>
    let r := loadHome (homeRead s .other (l * 64)) l (mget 0 id s.fePts)
    { r.1 with fePts := mset id r.2 r.1.fePts }) s

/-- R127, R152: a front end's store step. -/
def feStore (s : State) (id pa : Nat) (bs : List Byte) : State :=
  let r := storeHome s (pa / 64) (mget 0 id s.fePts)
  putBytes { r.1 with fePts := mset id r.2 r.1.fePts } 0 pa bs

/-! ### Packets (R170) -/

/-- What a front end finds at CSHEAD. -/
inductive StreamRead where
  /-- Nothing to do. -/
  | idle
  /-- A packet that it stops at. -/
  | bad (s : State) (cause : Nat)
  /-- A packet that has passed every check. -/
  | packet (s : State) (bs : List Byte)

/-- Physical addresses of the first n bytes at CSHEAD; the packet may wrap (R169). -/
def ringAddrs (s : State) (id n : Nat) : List Nat :=
  (List.range n).map (fun i => feReg s id 0x00 + (feHead s id + i) % feSize s id)

/-- The kind byte at CSHEAD. -/
def feKind (s : State) (id : Nat) : Nat := (s.mem.read (feReg s id 0x00 + feHead s id)).toNat

/-- A field of a packet or record. -/
def fieldAt (bs : List Byte) (lo n : Nat) : Nat := Bits.ofBytesLE ((bs.drop lo).take n)

/-- R170: bytes of a packet up to the end of its kind's body; none for an unknown kind. -/
def bodyEnd (kind : Nat) : Option Nat :=
  match kind with
  | 0 => some 8
  | 1 => some 32
  | 2 => some 25
  | 3 => some 25
  | 4 => some 16
  | _ => none

/-- R170: the body's fields are legal: addresses aligned and in region 0, condition and operation known. -/
def streamBodyOk (s : State) (id kind : Nat) (bs : List Byte) : Bool :=
  let a := fieldAt bs 8 8
  let w := fieldAt bs 16 8
  match kind with
  | 1 => feAddrOk s id a 64 && (w = 0 || feAddrOk s id w 8)
  | 2 => feAddrOk s id a 8 && fieldAt bs 24 1 ≤ 2
  | 3 => feAddrOk s id a 8 && fieldAt bs 24 1 ≤ 1
  | 4 => feAddrOk s id a 8
  | _ => true

/-- R170: what is wrong with a packet's bytes, if anything. -/
def streamFault (s : State) (id : Nat) (bs : List Byte) : Option Nat :=
  if Crc.crc32 (bs.take 4 ++ [0, 0, 0, 0] ++ bs.drop 8) ≠ fieldAt bs 4 4 then some 0x42
  else
    match bodyEnd (fieldAt bs 0 1) with
    | none => some 0x47
    | some n =>
      if bs.length < n || fieldAt bs 2 2 ≠ 0 || (bs.drop n).any (· ≠ 0) || !streamBodyOk s id (fieldAt bs 0 1) bs then some 0x47
      else none

/-- R169, R170: reads the packet at CSHEAD with its checks, in their order. -/
def readStream (s : State) (id : Nat) : StreamRead :=
  if !feReady s id then .idle
  else
    let len := (s.mem.read (feReg s id 0x00 + (feHead s id + 1) % feSize s id)).toNat
    let addrs := ringAddrs s id (32 * (if len = 0 || 8 < len then 1 else len))
    let lines := (addrs.map (· / 64)).eraseDups
    if lines.any (fun l => !feAllowed s (feMaster s id) (l * 64) true false) then .bad s 0x12
    else
      let t := feLoads s id lines
      if lines.any (fun l => poisoned t (l * 64)) then .bad t 0x42
      else if len = 0 || 8 < len then .bad t 0x47
      else
        let bs := addrs.map t.mem.read
        match streamFault t id bs with
        | some c => .bad t c
        | none => .packet t bs

/-- R170: performs the subject front end's packet of one kind: it stops at a bad one. -/
def streamStep (s : State) (mine : Nat → Bool) (effect : State → Nat → List Byte → State) : Out :=
  let id := s.subject
  if !mine (feKind s id) then .next s
  else
    match readStream s id with
    | .idle => .next s
    | .bad t c => .next (feStop t id c)
    | .packet t bs => .next (effect t id bs)

/-- The packet's length in 32-byte units. -/
def lenOf (bs : List Byte) : Nat := bs.length / 32

/-- STREAM_NOP (R170). A packet of unknown kind stops its front end here. -/
def execStreamNop (s : State) : Out :=
  streamStep s (fun k => k = 0 || 4 < k) (fun s id bs => feAdvance s id (lenOf bs))

/-- STREAM_LAUNCH (R170): the launch is submitted; the packet completes when it has been accepted or refused. -/
def execStreamLaunch (s : State) : Out :=
  streamStep s (· = 1) (fun s id bs =>
    let a := fieldAt bs 8 8
    let w := fieldAt bs 16 8
    let n := id % 128
    let sup := (ctrlRaw s (blockPa (id / 128) .package (8 * (n / 64)))).getLsbD (n % 64)
    { s with launches := s.launches ++ [{
        pkg := id / 128, record := [a, a + 64, a + 128, a + 192], fe := some id, src := none, twin := none, gang := 0, sup := sup
        completion := if w = 0 then none else some (w, BitVec.ofNat 64 (fieldAt bs 24 8)), held := none }] })

/-- R170: the comparison of WAITS. -/
def waitsHolds (cond v x : Nat) : Bool :=
  match cond with
  | 0 => v ≤ x
  | 1 => x = v
  | _ => x ≠ v

/-- R170: one read of the semaphore of a WAITS packet: the front end stops when the access is refused, goes on when the comparison
is true, and waits otherwise. -/
def waitsRead (s : State) (id : Nat) (bs : List Byte) : State :=
  let pa := fieldAt bs 8 8
  if !feAllowed s (feMaster s id) pa true false then feStop s id 0x12
  else
    let s := homeRead s .other pa
    if !poisoned s pa && waitsHolds (fieldAt bs 24 1) (fieldAt bs 16 8) (s.mem.readLE pa 8) then
      feAdvance (feLoads s id [pa / 64]) id (lenOf bs)
    else feSet s id 0x28 (feReg s id 0x28 ||| 2)

/-- WAITS (R170): the first read of its semaphore. -/
def execWaits (s : State) : Out :=
  if Bits.bit (feReg s s.subject 0x28) 1 then .next s else streamStep s (· = 2) waitsRead

/-- WAITS_SATISFIED (R170): a waiting WAITS reads its semaphore again. -/
def execWaitsSatisfied (s : State) : Out :=
  if Bits.bit (feReg s s.subject 0x28) 1 then streamStep s (· = 2) waitsRead else .next s

/-- STREAM_SIGNAL (R170): one store or one atomic add. -/
def execStreamSignal (s : State) : Out :=
  streamStep s (· = 3) (fun s id bs =>
    let pa := fieldAt bs 8 8
    let add := fieldAt bs 24 1 = 1
    if !feAllowed s (feMaster s id) pa add true then feStop s id 0x12
    else
      let s := if add then homeRead s .other pa else s
      let v := if add then (s.mem.readLE pa 8 + fieldAt bs 16 8) % 2 ^ 64 else fieldAt bs 16 8
      feAdvance (if poisoned s pa then s else feStore s id pa (Bits.bytesLE 8 v)) id (lenOf bs))

/-- GSTAMP (R170): stores GTIME. -/
def execGstamp (s : State) : Out :=
  streamStep s (· = 4) (fun s id bs =>
    let pa := fieldAt bs 8 8
    if !feAllowed s (feMaster s id) pa false true then feStop s id 0x12
    else
      feAdvance (if poisoned s pa then s else feStore s id pa (Bits.bytesLE 8 s.now)) id (lenOf bs))

/-! ### The launch record (R171 to R174) -/

/-- The fields of a launch record (R171). -/
structure LaunchRec where
  entry : Word
  frame : Word
  levels : List Word
  resv : Nat
  asid : Nat
  seed : Nat
  tensors : Word
  trapvec : Word
  split : Nat
  shadow : Word
  stash : Word
  expiry : Nat
  policy : Nat
deriving DecidableEq, Repr

def LaunchRec.of (bs : List Byte) : LaunchRec where
  entry := BitVec.ofNat 64 (fieldAt bs 0 8)
  frame := BitVec.ofNat 64 (fieldAt bs 8 8)
  levels := (List.range 8).map (fun i => BitVec.ofNat 64 (fieldAt bs (16 + 8 * i) 8))
  resv := fieldAt bs 80 4
  asid := fieldAt bs 84 2
  seed := fieldAt bs 88 8
  tensors := BitVec.ofNat 64 (fieldAt bs 96 8)
  trapvec := BitVec.ofNat 64 (fieldAt bs 104 8)
  split := fieldAt bs 112 8
  shadow := BitVec.ofNat 64 (fieldAt bs 120 8)
  stash := BitVec.ofNat 64 (fieldAt bs 128 8)
  expiry := fieldAt bs 136 8
  policy := fieldAt bs 144 8

/-- R171, R173: the record's CRC is right and its reserved fields are zero. -/
def recordClean (bs : List Byte) : Bool :=
  let r := LaunchRec.of bs
  Crc.crc32 (bs.take 252) = fieldAt bs 252 4 && fieldAt bs 86 2 = 0 && fieldAt bs 152 100 = 0 && r.seed < 2 ^ 38 && r.split < 16 &&
    r.expiry < 2 ^ 32 && Bits.fld r.policy 63 56 = 0 && Bits.fld r.policy 31 10 = 0 && Bits.fld r.policy 7 2 = 0 &&
    r.policy % 4 < 2 && r.levels.all (fun l => Bits.fld l.toNat 63 32 = 0 && !Bits.bit l.toNat 7)

/-- The fields of a level descriptor (R172). -/
def lvlDomain (l : Word) : Nat := l.toNat % 8
def lvlScope (l : Word) : Nat := Bits.fld l.toNat 5 3
def lvlPhase (l : Word) : Bool := Bits.bit l.toNat 6
def lvlExtent (l : Word) : Nat := Bits.fld l.toNat 31 8

/-- R172: contexts in a unit of a domain. A unit of the system level is one package of the gang (R21). -/
def unitContexts (d : Nat) : Nat :=
  match d with
  | 0 => 1
  | 1 => 4
  | 2 => 16
  | 3 => 32
  | 4 => 128
  | 5 => 2048
  | _ => 16384

/-- Cores in a unit of a domain. -/
def unitCores (d : Nat) : Nat := max 1 (unitContexts d / 4)

/-- R172: the declared levels: those before the first of extent 0. -/
def declared (ls : List Word) : List Word := ls.takeWhile (fun l => lvlExtent l ≠ 0)

/-- R20, R172: each deeper level names a strictly narrower domain, and its extent fits a unit of the level above. -/
def deeperOk : List Word → Bool
  | a :: b :: rest =>
    lvlDomain b < lvlDomain a && lvlExtent b * unitContexts (lvlDomain b) ≤ unitContexts (lvlDomain a) && deeperOk (b :: rest)
  | _ => true

/-- Inserts a package number into a rising list. -/
def risingPkgs (ps : List Nat) : List Nat := ps.foldl (fun acc p => insertNat p acc) []

/-- R325: the first n active packages of a system map from one package upward, in rising number. -/
def activeRun (s : State) (pkg n : Nat) : List Nat :=
  if (sysMap s pkg).any (fun x => x.1 == pkg && !x.2) then
    (risingPkgs (((sysMap s pkg).filter (fun x => !x.2 && pkg ≤ x.1)).map (·.1))).take n
  else []

/-- R20, R172, R325: the declared levels of a launch submitted on a package are legal. -/
def levelsOk (s : State) (pkg : Nat) (ls : List Word) : Bool :=
  let ds := declared ls
  match ds with
  | [] => false
  | l :: _ =>
    (ls.drop ds.length).all (fun x => lvlExtent x = 0) && deeperOk ds &&
      ds.all (fun x => lvlDomain x ≤ lvlScope x && (!lvlPhase x || lvlDomain x ≤ 6)) &&
      (if lvlDomain l = 7 then lvlExtent l ≤ 64 && (activeRun s pkg (lvlExtent l)).length = lvlExtent l
       else lvlExtent l * unitContexts (lvlDomain l) ≤ 16384)

/-- A reservation (R324): first core and count. -/
structure Resv where
  first : Nat
  count : Nat
  cls : Nat
deriving DecidableEq, Repr

/-- R174, R324: the reservation of an identifier and address space on a package. -/
def reservation (s : State) (pkg id asid : Nat) : Option Resv :=
  (List.range 64).findSome? (fun i =>
    let a := (ctrlRaw s (blockPa pkg .package (0x100 + 16 * i))).toNat
    let b := (ctrlRaw s (blockPa pkg .package (0x108 + 16 * i))).toNat
    if Bits.fld a 31 0 = id && Bits.fld a 63 48 = asid then some ⟨Bits.fld b 31 0, Bits.fld b 63 32, Bits.fld a 33 32⟩ else none)

/-! ### Placement (R21, R172, R175) -/

/-- A unit of a level: its first core, its number of cores, and its index at each level so far (R21). -/
structure LvlUnit where
  base : Nat
  cores : Nat
  lvl : List Nat
deriving DecidableEq, Repr

/-- R172: the units of the levels of domain core or wider below a unit. -/
def unitsBelow : List Word → List LvlUnit → List LvlUnit
  | [], us => us
  | l :: rest, us =>
    if lvlDomain l = 0 then us
    else unitsBelow rest (us.flatMap (fun u => (List.range (lvlExtent l)).map (fun j =>
      ⟨u.base + j * unitCores (lvlDomain l), unitCores (lvlDomain l), u.lvl ++ [j]⟩)))

/-- R172: the extent of the context level, if one is declared. -/
def ctxExtent (ds : List Word) : Option Nat := (ds.find? (fun l => lvlDomain l = 0)).map lvlExtent

/-- R172, R175: the innermost units of core or wider domain of a gang whose level 0 begins at the given core keys. A gang of one
context level covers the cores that hold its entry contexts. -/
def gangUnits (ds : List Word) (bases : List Nat) : List LvlUnit :=
  match ds with
  | [] => []
  | l :: rest =>
    if lvlDomain l = 0 then [⟨bases.headD 0, (lvlExtent l + 3) / 4, []⟩]
    else unitsBelow rest (bases.zipIdx.map (fun b => ⟨b.1, unitCores (lvlDomain l), [b.2]⟩))

/-- The cores of units, each with its indices. -/
def unitCoresOf (us : List LvlUnit) : List (Nat × List Nat) :=
  us.flatMap (fun u => (List.range u.cores).map (fun j => (u.base + j, u.lvl)))

/-- Cores that the level-0 units take. -/
def level0Cores (l : Word) : Nat :=
  if lvlDomain l = 0 then (lvlExtent l + 3) / 4 else lvlExtent l * unitCores (lvlDomain l)

/-- n consecutive cores from a key belong to no gang. -/
def freeRun (s : State) : Nat → Nat → Bool
  | 0, _ => true
  | n + 1, k => (s.getCore k).gang = 0 && freeRun s n (k + 1)

/-- R175: the first place from core `i` of a package on, in steps of a unit, at which n cores are free. -/
def findPlace (s : State) (pkg n step : Nat) : Nat → Nat → Option Nat
  | 0, _ => none
  | fuel + 1, i =>
    if 4096 < i + n then none
    else if freeRun s n (pkg * 4096 + i) then some (pkg * 4096 + i)
    else findPlace s pkg n step fuel (i + step)

/-- R175: the first cores of the level-0 units, when the place is free: at a reservation's first unit, on consecutive packages for a
system level, else at the lowest core index. -/
def placeGangAt (s : State) (pkg : Nat) (l : Word) (resv : Option Resv) : Option (List Nat) :=
  let step := unitCores (lvlDomain l)
  let n := level0Cores l
  let spread (b : Nat) : List Nat := if lvlDomain l = 0 then [b] else (List.range (lvlExtent l)).map (fun j => b + j * step)
  if lvlDomain l = 7 then
    let ps := activeRun s pkg (lvlExtent l)
    if ps.all (fun p => freeRun s 4096 (p * 4096)) then some (ps.map (· * 4096)) else none
  else
    match resv with
    | some r =>
      let b := pkg * 4096 + (r.first + step - 1) / step * step
      if freeRun s n b then some (spread b) else none
    | none => (findPlace s pkg n step 4097 0).map spread

/-- R174: the gang fits in the cores of its reservation. -/
def fitsResv (l : Word) (r : Resv) : Bool :=
  let step := unitCores (lvlDomain l)
  let n := if lvlDomain l = 7 then 4096 else level0Cores l
  (r.first + step - 1) / step * step + n ≤ min 4096 (r.first + r.count)

/-! ### Acceptance (R174 to R176, R347) -/

/-- R176: the next GANGID: the count goes on, skips 0, and skips a gang that is live. -/
def nextGangId (s : State) : Nat → Nat → Nat
  | 0, n => n % (2 ^ 32 - 1) + 1
  | fuel + 1, n =>
    let m := n % (2 ^ 32 - 1) + 1
    if gangExists s m then nextGangId s fuel m else m

/-- R171: a gang as its record declares it. -/
def gangOf (r : LaunchRec) (id : Nat) (sup : Bool) (cores : List Nat) (completion : Option (Nat × Word)) : Gang :=
  { Gang.blank with
    id := id, asid := r.asid, sup := sup, resv := r.resv, levels := declared r.levels, cores := cores, seed := r.seed
    tensors := r.tensors, trapvec := r.trapvec, entry := r.entry, frame := r.frame, split := r.split, shadow := r.shadow
    stash := r.stash, expiry := r.expiry, wlimit := Bits.fld r.policy 55 32, lperm := Bits.bit r.policy 9, dchk := Bits.bit r.policy 8
    cls := r.policy % 4, st := .running, completion := completion }

/-- R120, R175, R205, R341: a core as a launch prepares it. -/
def launchCore (c : Core) (id split asid : Nat) (root : Word) : Core :=
  { c with
    gang := id, running := 0, idling := false, split := split, quant := Core.reset.quant, root := root
    tlb := c.tlb.filter (fun e => e.asid = asid), leases := [], claim := none, releasing := false, tseq := 0, ring := [], seq := []
    arrayQ := [], gmma := 0, withdrawn := [], accNo := 0, accLocal := 0, accOther := 0, stored := [], residual := [], scoreboard := [], chains := Core.reset.chains, discardBits := []
    snapLines := [], answers := [], phase := none, buffer := [], cycBase := 0, refu := 0, insi := 0, dchk := 0, idle := 0, walk := 0 }

/-- R21, R175: a context as a launch prepares it, given its level registers and, for an entry context, ENTRY and FRAME. -/
def launchCtx (trapvec : Word) (lvl : List Nat) (entry : Option (Word × Word)) : Ctx :=
  let c := { Ctx.reset with
    trapvec := trapvec, lvl := Vector.ofFn (fun (i : Fin 8) => BitVec.ofNat 64 (lvl.getD i.val 0)) }
  match entry with
  | none => c
  | some (a, f) => { c with pc := a, live := true, s := c.s.set 1 f }

/-- R172: the entry contexts of the gang's units: context key and level indices. -/
def entryContexts (ds : List Word) (us : List LvlUnit) : List (Nat × List Nat) :=
  match ctxExtent ds with
  | none => (unitCoresOf us).map (fun c => (4 * c.1, c.2))
  | some n => us.flatMap (fun u => (List.range n).map (fun k => (4 * (u.base + k / 4) + k % 4, u.lvl ++ [k])))

/-- R118, R226: the root that the device operating system holds for an address space on a package. -/
def rootOn (s : State) (pkg asid : Nat) : Word := mget 0 (pkg * 65536 + asid) s.roots

/-- R175: prepares one core and its contexts; the level registers of a context that is no entry context read its core's indices, and 0 for a
context level (log 29). -/
def prepareCore (s : State) (r : LaunchRec) (id : Nat) (entries : List (Nat × List Nat)) (k : Nat × List Nat) : State :=
  let s := s.setCore k.1 (launchCore (s.getCore k.1) id r.split r.asid (rootOn s (k.1 / 4096) r.asid))
  [0, 1, 2, 3].foldl (fun s n =>
    s.setCtx (4 * k.1 + n) (match entries.find? (fun e => e.1 = 4 * k.1 + n) with
      | some e => launchCtx r.trapvec e.2 (some (r.entry, r.frame))
      | none => launchCtx r.trapvec k.2 none)) s

/-- R148, R175: the timestamps of the lines of the launched cores and of their packages' device memory become 0; device memory on which
another gang lives keeps its own (log 20). -/
def freshLines (s : State) (id : Nat) (ks : List Nat) : State :=
  let alone (p : Nat) : Bool := ks.any (fun k => k / 4096 = p) &&
    !s.gangs.any (fun x => x.1 ≠ id && x.2.st != .complete && x.2.st != .ended && (gangPkgs x.2).contains p)
  { s with lines := s.lines.map (fun x =>
      (x.1, if (paReg (x.1 * 64) = 1 && ks.contains (padCore (x.1 * 64))) || (paReg (x.1 * 64) = 0 && alone (paPkg (x.1 * 64))) then
        { x.2 with wts := 0, rts := 0 } else x.2)) }

/-- R175, R347: prepares every core of a gang placed at the given first cores, and commits its launch state as commit 0. -/
def acceptGang (s : State) (r : LaunchRec) (id : Nat) (sup : Bool) (bases : List Nat) (completion : Option (Nat × Word)) : State :=
  let ds := declared r.levels
  let us := gangUnits ds bases
  let ks := unitCoresOf us
  let s := s.setGang id (gangOf r id sup (ks.map (·.1)) completion)
  let entries := entryContexts ds us
  let s := freshLines (ks.foldl (fun s k => prepareCore s r id entries k) s) id (ks.map (·.1))
  let imgs := (ks.map (·.1)).map (coreImage s)
  { writeSlot (s.setGang id { s.getGang id with slot0 := imgs }) id 0 imgs with lastGang := id }

/-- R174: ENTRY is a code address whose slot begins a group and has its BTM bit set, as the gang's first core would find it. -/
def entryOk (s : State) (pkg : Nat) (r : LaunchRec) (sup : Bool) : Bool :=
  let k := pkg * 4096
  let id := 2 ^ 32
  let t := (s.setGang id (gangOf r id sup [k] none)).setCore k (launchCore (s.getCore k) id r.split r.asid (rootOn s pkg r.asid))
  let t := t.setCtx (4 * k) Ctx.reset
  (peekLine t (4 * k) r.entry).isSome && (targetCause t (4 * k) r.entry true).isNone

/-- R174: what refuses a launch, if anything. -/
def launchRefused (s : State) (l : Launch) (bs : List Byte) : Bool :=
  let r := LaunchRec.of bs
  let lv := (declared r.levels).headD 0
  !recordClean bs || !levelsOk s l.pkg r.levels || 12 < r.split || !entryOk s l.pkg r l.sup ||
    (match reservation s l.pkg r.resv r.asid with
     | some x => r.resv ≠ 0 && (!fitsResv lv x || (r.policy % 4 = 1 && x.cls ≠ 1))
     | none => r.resv ≠ 0) || (r.policy % 4 = 1 && r.resv = 0)

/-- R195: the register of a launching context receives the launch's answer; a shadow image in which the register waits for it
receives it as well. -/
def launchAnswer (s : State) (gang key : Nat) (d : Fin 32) (v : Word) : State :=
  let n : Fin 4 := ⟨key % 4, Nat.mod_lt _ (by decide)⟩
  let into (i : CoreImage) : CoreImage :=
    if i.key = key / 4 && !((i.ctxs.getD (key % 4) Ctx.reset).full.getLsbD d.val) then
      { i with core := { i.core with answers := i.core.answers ++ [⟨n, d, v, 0⟩] } }
    else i
  let g := s.getGang gang
  let s := s.setGang gang { g with slot0 := g.slot0.map into, slot1 := g.slot1.map into }
  lateAnswer s key d v

/-- R183, R195: the same for the launching context and, of a paired task, for the second copy. -/
def launchAnswers (s : State) (l : Launch) (v : Word) : State :=
  match l.src with
  | none => s
  | some (key, d) => (key :: l.twin.toList).foldl (fun s key =>
      if (s.getCore (key / 4)).gang = l.gang then launchAnswer s l.gang key d v else s) s

/-- R170, R195: a launch is refused: its front end stops, or the launching context gets the cause. -/
def refuseLaunch (s : State) (i : Nat) (l : Launch) (cause : Nat) : State :=
  let s := { s with launches := s.launches.eraseIdx i }
  match l.fe with
  | some id => feStop s id cause
  | none => launchAnswers s l (BitVec.ofNat 64 (2 ^ 63 + cause))

/-- R170, R195: a launch has been accepted. -/
def acceptLaunch (s : State) (i : Nat) (l : Launch) (r : LaunchRec) (id : Nat) (bases : List Nat) : State :=
  let s := acceptGang { s with launches := s.launches.eraseIdx i } r id l.sup bases l.completion
  match l.fe with
  | some fe =>
    let len := (s.mem.read (feReg s fe 0x00 + (feHead s fe + 1) % feSize s fe)).toNat
    feAdvance { s with feAsid := mset fe r.asid s.feAsid } fe len
  | none => launchAnswers s l (BitVec.ofNat 64 id)

/-- R195: whether a launch is the next that its port takes: none of the same port stands before it, it is not held for a commit,
its gang is not switched out, and the second copy of a launching task has issued it too. -/
def launchTurn (s : State) (i : Nat) (l : Launch) : Bool :=
  l.held.isNone && (l.fe.isSome || !(s.launches.take i).any (fun x => x.fe.isNone && x.pkg = l.pkg && x.held.isNone)) &&
    (l.gang = 0 || !gangExists s l.gang || (s.getGang l.gang).st.runs) &&
    l.twin.all (fun key => ((s.getCtx key).pair.bind (mget? · s.pairs)).all (·.answer.isNone))

/-- R127, R150, R195: the steps that read a launch record. -/
def readRecord (s : State) (l : Launch) : State :=
  match l.fe, l.src with
  | some id, _ => feLoads s id (l.record.map (· / 64))
  | none, some (key, _) =>
    l.record.foldl (fun s pa =>
      let r := loadHome (homeRead s .other pa) (pa / 64) (s.getCtx key).pts
      if (s.getCore (key / 4)).gang = l.gang then r.1.setCtx key { r.1.getCtx key with pts := r.2 } else r.1) s
  | none, none => s

/-- LAUNCH_ACCEPT (R174, R175, R195): the subject launch is refused, or accepted once its place is free. -/
def execLaunchAccept (s : State) : Out :=
  let i := s.subject
  match s.launches[i]? with
  | none => .next s
  | some l =>
    if !launchTurn s i l then .next s
    else
      let t := readRecord s l
      let bs := l.record.flatMap (fun pa => t.mem.bytes pa 64)
      let r := LaunchRec.of bs
      if l.record.any (fun pa => !feAllowed t r.asid pa true false) then .next (refuseLaunch t i l 0x12)
      else if l.record.any (poisoned t) || launchRefused t l bs then .next (refuseLaunch t i l 0x43)
      else
        let resv := if r.resv = 0 then none else reservation t l.pkg r.resv r.asid
        match placeGangAt t l.pkg ((declared r.levels).headD 0) resv with
        | none => .next s
        | some bases => .next (acceptLaunch t i l r (nextGangId t t.gangs.length t.lastGang) bases)

/-! ### The end of a gang (R175, R187, R349) -/

/-- R175, R195: the completion word of a gang, or a control register in its place (R324), receives a value. -/
def storeCompletion (s : State) (g : Nat) (v : Option Word) : State :=
  let x := s.getGang g
  match x.completion with
  | none => s
  | some (pa, w) =>
    if targetAllows s (x.cores.headD 0) g x.asid pa false true then
      let r := storeHome s (pa / 64) 0
      if paReg pa = 2 then ctrlWrite s pa (v.getD w)
      else if poisoned s pa then s
      else putBytes r.1 0 pa (Bits.bytesLE 8 (v.getD w).toNat)
    else s

/-- R206: the faulted entries of a saved core that no context has taken go to the fault record, oldest first in each context. -/
def flushImage (s : State) (g : Nat) (i : CoreImage) : State :=
  let es := i.core.ring.foldr (insertEntry i.core.tseq) []
  (List.range 4).foldl (fun s n => es.foldl (fun s e =>
    if e.2.state = 3 && !e.2.taken && e.2.ctx.val = n then recordFault s g e.2.cause (4 * i.key + n) e.2.pc e.2.infoA e.2.infoB else s) s) s

/-- R206: the faulted entries of the cores of a gang that no context has taken go to the fault record; those of a gang that is switched out
stand in its save area. -/
def flushGang (s : State) (g : Nat) : State :=
  let s := (s.getGang g).saved.foldl (fun s i => flushImage s g i) s
  (s.getGang g).cores.foldl (fun s k =>
    if (s.getCore k).gang = g then (List.range 4).foldl (fun s n => flushFaults s (4 * k + n)) s else s) s

/-- The cores of a gang belong to none. Chains keep their counts until the next launch (R281). -/
def freeCores (s : State) (g : Nat) : State :=
  let cores := (s.getGang g).cores.filter (fun k => (s.getCore k).gang = g)
  let s := { s with quads := s.quads.map (fun q => (q.1, { q.2 with vsfq := q.2.vsfq.filter (fun x => !cores.contains x.1) })) }
  cores.foldl (fun s k =>
    let c := s.getCore k
    s.setCore k { c with
      gang := 0, chains := c.chains.map (fun ch => { ch with head := 0, tail := 0, piece := 0, fifo := [], run := none })
      residual := [], scoreboard := [], arrayQ := [], seq := [], ring := [], answers := []
      phase := none, buffer := [], claim := none, releasing := false, leases := [] }) s

/-- R187 step 3, R348: the stores and launches kept back are released, one step each. -/
def releaseKept (g : Nat) : Nat → State → Eng State
  | 0, s => .ok { s with launches := s.launches.map (fun l => if l.held = some g then { l with held := none } else l) }
  | n + 1, s =>
    let x := s.getGang g
    match x.kept with
    | [] => releaseKept g n s
    | k :: rest =>
      if spentOut s then .error ⟨s, 0, 0, 0, 0⟩
      else releaseKept g n { releaseStore (spend (s.setGang g { x with kept := rest })) k with cur := s.cur }

/-- The same in one step. -/
def releaseAll (s : State) (g : Nat) : State :=
  match releaseKept g (s.getGang g).kept.length { s with steps := none } with
  | .ok s => s
  | .error e => e.s

/-- The contexts of the cores that a gang has. -/
def heldBy (s : State) (g key : Nat) : Bool := (s.getCore (key / 4)).gang == g

/-- Everything of a gang that is under way is dropped. -/
def dropWork (s : State) (g : Nat) : State :=
  { dropScripts s g with
    reports := s.reports.filter (fun r => !heldBy s g r.key), halves := s.halves.filter (fun x => !heldBy s g x.1)
    accs := s.accs.filter (fun m => m.gang ≠ g), pairs := s.pairs.filter (fun p => p.2.gang ≠ g)
    colls := s.colls.filter (fun c => c.1 / 2 ^ 32 ≠ g), launches := s.launches.filter (fun l => l.held ≠ some g) }

/-- A gang's record is left with its name, its outcome and what PCNT and the fault record need. -/
def retired (x : Gang) (st : GangState) : Gang :=
  { x with st := st, queues := [], kept := [], log := [], slot0 := [], slot1 := [], slotOpen := [], slotQueues := [], saved := []
           slotReports := [], heldReports := [], ejected := [], owed := none, moved := [], openBits := [], outAt := none, inAt := none, consumed := none, completion := none }

/-- R175: all that a gang waits for before it completes: live contexts, queued tasks, chains, residual entries, and the dispatched
forms and accumulates that may still become such. -/
def gangBusy (s : State) (g : Nat) : Bool :=
  let x := s.getGang g
  x.queues.any (fun q => queueSize q.2 ≠ 0) || s.accs.any (fun m => m.gang = g) ||
    x.cores.any (fun k =>
      let c := s.getCore k
      [0, 1, 2, 3].any (fun n => (s.getCtx (4 * k + n)).live) || c.chains.toList.any (fun ch => !ch.fifo.isEmpty || ch.run.isSome) ||
        !c.residual.isEmpty || !c.answers.isEmpty || !c.arrayQ.isEmpty || c.ring.any (fun e => e.2.state = 1))

/-- GANG_COMPLETE (R175): nothing of the subject gang is left: what it kept back is released and its completion word is stored. -/
def execGangComplete (s : State) : Out :=
  let g := s.subject
  let x := s.getGang g
  if x.st ≠ .running || !gangExists s g || gangBusy s g then .next s
  else
    let s := storeCompletion (releaseAll s g) g none
    let s := freeCores (dropWork (flushGang s g) g) g
    .next (s.setGang g (retired (s.getGang g) .complete))

/-- R349: a gang is ended with a cause: its contexts stop being live and its completion word receives the cause. -/
def endGang (s : State) (g cause : Nat) : State :=
  let s := storeCompletion s g (some (BitVec.ofNat 64 (2 ^ 63 + cause)))
  let on (k : Nat) : Bool := (s.getCore k).gang = g
  let keys := ((s.getGang g).cores.filter on).flatMap (fun k => [4 * k, 4 * k + 1, 4 * k + 2, 4 * k + 3])
  let s := keys.foldl (fun s key => s.setCtx key { s.getCtx key with
    live := false, wait := none, packet := none, capture := none, pair := none, errors := [], refusals := [], lfs := 0, walking := none
    behind := none, sent := [] }) s
  let s := freeCores (dropWork (flushGang s g) g) g
  s.setGang g (retired (s.getGang g) .ended)

end Sys2Proof.Machine
end

