-- ==== Sys2Proof/Machine/Recovery.lean ====
section
/-! DEFINITION. Superstep commits, seed changes, gang switches, rollbacks and the machine-check causes (R14, R15, R18, R167, R187,
R339, R342 to R352, R357). -/
namespace Sys2Proof.Machine
open Num

/-! ### Stopping a gang at its instruction boundaries (R102, R204, R208, R236, R343) -/

/-- The context keys of a gang's cores. -/
def gangKeys (g : Gang) : List Nat := g.cores.flatMap (fun k => [4 * k, 4 * k + 1, 4 * k + 2, 4 * k + 3])

/-- R343: a trap entry due at a context's boundary completes; that the gang is to stop does not hold it back. -/
def dueTrap (s : State) (key : Nat) : State :=
  let g := (s.getCore (key / 4)).gang
  if awake (s.setGang g { s.getGang g with outAt := none }) key then (pendingTrap { s with cur := key } key).getD s else s

/-- R204: a context stops while its capture is open: nothing from the VREP on has taken effect. -/
def closeCapture (s : State) (key : Nat) : State :=
  match (s.getCtx key).capture with
  | none => s
  | some cap =>
    let s := dropCapture s key
    s.setCtx key { s.getCtx key with pc := cap.start, lineBuf := none }

/-- R102: a saved context leads and follows no longer. -/
def endFollowing (s : State) (key : Nat) : State :=
  if lfsMode (s.getCtx key) = 0 then s else detach s key

/-- R236: the array of a core performs the forms in its queue up to a GMMA whose join has not completed. -/
def drainArray : Nat → State → Nat → State
  | 0, s, _ => s
  | fuel + 1, s, k =>
    match execArrayFormStart k s with
    | .next t => if (t.getCore k).arrayQ.length < (s.getCore k).arrayQ.length then drainArray fuel t k else s
    | _ => s

/-- R208: the forms that a core has dispatched complete, except those in the array queue. -/
def drainRing (s : State) (k : Nat) : State :=
  let c := s.getCore k
  let held := c.arrayQ.map (·.tseq)
  let s := c.ring.foldl (fun s e => if e.2.state = 1 && !held.contains e.2.tseq then completeEntry s k e.2.tseq else s) s
  let s := s.setCore k { s.getCore k with seq := [] }
  { passClaim s k with quads := (passClaim s k).quads.map (fun q => (q.1, { q.2 with vsfq := q.2.vsfq.filter (fun x => x.1 ≠ k) })) }

/-- R343: a core comes to a stop. -/
def stopCore (s : State) (k : Nat) : State :=
  let keys := [4 * k, 4 * k + 1, 4 * k + 2, 4 * k + 3]
  let s := keys.foldl dueTrap s
  let s := keys.foldl closeCapture s
  let s := keys.foldl endFollowing s
  let s := drainRing (drainArray 64 s k) k
  sendResidual s k .all (4 * k + (s.getCore k).running.val)

/-- Every core of a gang comes to a stop. -/
def stopGang (s : State) (g : Nat) : State :=
  let cur := s.cur
  { (s.getGang g).cores.foldl stopCore s with cur := cur }

/-- R236, R285, R343: a gang can stop: no context stands within its group, no piece of work is under way, and every array performs what is in
its queue up to a GMMA that is not joined. -/
def canStop (s : State) (g : Nat) : Bool :=
  let t := stopGang s g
  !workUnderWay s g && !(gangKeys (s.getGang g)).any (within s) &&
    (s.getGang g).cores.all (fun k => (t.getCore k).arrayQ.isEmpty || (headGmma (t.getCore k)).isSome)

/-- A gang with a core in a communication phase. -/
def gangInPhase (s : State) (g : Nat) : Bool := (s.getGang g).cores.any (fun k => (s.getCore k).phase.isSome)

/-! ### Commit (R187, R346, R347) -/

/-- R187 step 1, R346, R347: the gang's blocks go into the slot of the superstep number that the commit makes. -/
def writeImages (s : State) (g : Nat) : State :=
  let x := s.getGang g
  let imgs := x.cores.map (coreImage s)
  let slot := (x.ssn + 1) % 2
  let s := writeSlot s g slot imgs
  let y := s.getGang g
  s.setGang g { (if slot = 0 then { y with slot0 := imgs } else { y with slot1 := imgs }) with
    slotAccs := s.accs.filter (fun m => m.gang = g), slotColls := s.colls.filter (fun c => c.1 / 2 ^ 32 = g)
    slotPairs := s.pairs.filter (fun p => p.2.gang = g), slotReports := s.reports.filter (fun r => heldBy s g r.key), slotRan := x.ran }

/-- R347: the commit is complete, and the homes log from here on. -/
def restartLog (s : State) (g : Nat) : State :=
  let x := s.getGang g
  s.setGang g { x with log := [], slotOpen := x.openBits, slotQueues := x.queues }

/-- The contexts of a gang that wait at SSTEP. -/
def sstepWaiters (s : State) (g : Nat) : List Nat :=
  (gangKeys (s.getGang g)).filter (fun key => (s.getCtx key).live && (s.getCtx key).wait == some .sstep)

/-- R165, R187: every core of a gang has arrived at SSTEP, and the gang can commit. -/
def mayCommit (s : State) (g : Nat) : Bool :=
  let x := s.getGang g
  let keys := sstepWaiters s g
  x.st == .running && !x.cores.isEmpty && x.consumed.isNone && !gangInPhase s g && !sweepHeld s g &&
    x.cores.all (fun k => keys.any (fun key => key / 4 = k)) && canStop s g

/-- R165, R187 steps 1 and 2: the waiting contexts, and those that still flush before SSTEP, are joined; the cores stop, the images are
written, and SSN counts. -/
def beginCommit (s : State) (g : Nat) : State :=
  let x := s.getGang g
  let keys := sstepWaiters s g
  let joining := joiners s .sstep x.cores
  let s := joinAll (joinPts s (keys ++ joining)) .sstep joining
  let s := stopGang (releaseWaits s keys) g
  let s := x.cores.foldl (fun s k => s.setCore k { s.getCore k with snapLines := [] }) s
  let s := writeImages s g
  s.setGang g { s.getGang g with ssn := x.ssn + 1, st := .committing }

/-! ### SEED (R339) -/

/-- The contexts of a gang that wait at SEED, with their values. -/
def seedWaiters (s : State) (g : Nat) : List (Nat × Word) :=
  (gangKeys (s.getGang g)).filterMap (fun key => match (s.getCtx key).wait with
    | some (.seed v) => if (s.getCtx key).live then some (key, v) else none
    | _ => none)

/-- R339: every chain of a gang stands idle. -/
def chainsIdle (s : State) (g : Nat) : Bool :=
  (s.getGang g).cores.all (fun k => (s.getCore k).chains.toList.all (fun c => c.fifo.isEmpty && c.run.isNone))

/-- SEED_COMPLETE (R339): every core of the subject gang has arrived at SEED. With one value, and the chains idle, the lines are
written back, copies are dropped and the seed changes; else every waiting context takes 0x4C. -/
def execSeedComplete (s : State) : Out :=
  let g := s.subject
  let x := s.getGang g
  let ws := seedWaiters s g
  let seed := (ws.headD (0, 0)).2.toNat % 2 ^ 38
  if x.st ≠ .running || x.cores.isEmpty || x.consumed.isSome || x.cores.any (fun k => !ws.any (fun w => w.1 / 4 = k)) then .next s
  else if ws.any (fun w => w.2.toNat % 2 ^ 38 ≠ seed) then
    let info := openInfo s 0x4C
    .next { ws.foldl (fun s w => enterTrap s w.1 info false 0) s with free := s.free + 2 }
  else if !chainsIdle s g then .next s
  else
    let keys := ws.map (·.1)
    let s := releaseWaits (joinPts s keys) keys
    let homed (l : Nat) : Bool := paReg (l * 64) = 0 && (gangPkgs x).contains (paPkg (l * 64))
    let s := (s.lines.filter (fun l => homed l.1 && l.2.dirty.isSome)).foldl (fun s l => writeBackLine s l.1) s
    let s := { s with cores := s.cores.map (fun (c : Nat × Core) => (c.1, { c.2 with
      leases := c.2.leases.filter (fun l => !homed l.1), stored := c.2.stored.filter (fun l => !homed l) })) }
    .next (s.setGang g { s.getGang g with seed := seed })

/-! ### Restoring (R131, R167, R344, R350) -/

/-- R131: the fill word 0x7FA0_0000 of a marked line. -/
def discardFill : List Byte := (List.range 16).flatMap (fun _ => Bits.bytesLE 4 0x7FA00000)

/-- How a core is restored: the cycles of its gang that its waits have missed, the cycles that have passed, and whether it is a rollback,
in which no timestamp falls (R167). -/
structure Restore where
  shift : Nat
  passed : Nat
  back : Bool

/-- R131, R167: the scratchpad of a restored core: its saved bytes and order values, and the fill in its marked lines by one store step
each. -/
def restorePad (s : State) (r : Restore) (img : CoreImage) : State :=
  let base := padBase img.key
  let within (a : Nat) : Bool := base ≤ a && a < base + 16384 * img.core.split
  let s := { s with
    mem := img.pad.foldl (fun m c => Memory.write m (base + c.1) c.2) (s.mem.filter (fun x => !within x.1))
    lines := if r.back then s.lines else s.lines.filter (fun x => !within (x.1 * 64)) }
  let s := img.lines.foldl (fun s x =>
    let l := base / 64 + x.1
    let m := s.getLine l
    s.setLine l { x.2 with wts := max m.wts x.2.wts, rts := max m.rts x.2.rts }) s
  img.core.discardBits.foldl (fun s l =>
    let s := (storeHome s (base / 64 + l) 0).1
    { s with mem := s.mem.writeBytes (base + l * 64) discardFill }) s

/-- A wait whose limit counts `shift` more cycles of the gang (R193); a context that a stop or a consumed error held is free of it. -/
def shiftWait (shift : Nat) : Wait → Option Wait
  | .timed t limit due => some (.timed t (limit.map (· + shift)) due)
  | .stopped => none
  | w => some w

/-- R167: a context as it resumes. -/
def restoreCtx (s : State) (r : Restore) (key : Nat) (c : Ctx) : State :=
  s.setCtx key { c with pts := if r.back then max c.pts (s.getCtx key).pts else c.pts, wait := c.wait.bind (shiftWait r.shift) }

/-- R167, R199, R344, R350: a core as it resumes; the rotation of its wide unit starts again. -/
def restoreCore (s : State) (r : Restore) (img : CoreImage) : State :=
  let now := s.getCore img.key
  let floor (old new : Nat) : Nat := if r.back then max old new else old
  let chains : Vector Chain 8 := Vector.ofFn (fun i => { img.core.chains[i] with
    ets := floor img.core.chains[i].ets now.chains[i].ets, cts := floor img.core.chains[i].cts now.chains[i].cts })
  let s := s.setCore img.key { img.core with
    chains := chains, cycBase := img.core.cycBase + r.shift, arrayQ := img.core.arrayQ.map (fun f => { f with since := f.since + r.shift })
    residual := img.core.residual.map (fun e => { e with born := e.born + r.passed }) }
  let s := s.setQuad (img.key / 4) { s.getQuad (img.key / 4) with last := Quad.reset.last }
  restorePad ((img.ctxs.zipIdx).foldl (fun s c => restoreCtx s r (4 * img.key + c.2) c.1) s) r img

/-! ### Machine checks (R349, R351) -/

/-- R351: a machine check goes to the gang's fault record; what it holds besides the cause and the time is open (log 11). -/
def machineCheck (s : State) (g cause key : Nat) : State :=
  let s := recordFault s g cause key (s.getCtx key).pc (Config.freeWord s.free) (Config.freeWord (s.free + 1))
  { s with free := s.free + 2 }

/-- The first context of a gang, to which a machine check of no context is put down. -/
def firstKey (s : State) (g : Nat) : Nat := 4 * (s.getGang g).cores.headD 0

/-- R349: a gang is ended by a machine check. -/
def endByCheck (s : State) (g cause : Nat) : State := endGang (machineCheck s g cause (firstKey s g)) g cause

/-- R350 step 3: the homes write the logged values back. A line of which all bytes are written is no longer poisoned (R357). -/
def writeLogBack (s : State) (log : SMap (Line × Option Line)) : State :=
  log.foldl (fun s e =>
    let s := s.setLine e.1 { s.getLine e.1 with dirty := e.2.2, poison := false }
    { s with mem := s.mem.writeBytes (e.1 * 64) (Bits.bytesLE 64 e.2.1.toNat) }) s

/-- R183, R344: the messages of paired tasks of a gang, as though the cycles in which it stood still had not passed. -/
def shiftPair (d : Nat) (p : Pair) : Pair :=
  let later (m : PairMsg) : PairMsg := { m with time := m.time + d }
  { p with msg1 := p.msg1.map later, msg2 := p.msg2.map later }

/-- R192, R344: the home reports the word of a restored WAITE that has changed since it was last reported. -/
def rereadWatch (s : State) (key : Nat) : State :=
  match (s.getCtx key).wait with
  | some (.timed (.word w) _ _) =>
    let mine := s.reports.filter (fun r => r.key = key)
    let v : Word := BitVec.ofNat 64 (s.mem.readLE w.pa 8)
    if w.hit.isSome || mine.any (·.stamp.isSome) || v = (mine.getLast?.map (·.value)).getD w.last then s
    else if watchHolds w v then
      let m := s.getLine (w.pa / 64)
      let ts := max (s.getCtx key).pts m.wts
      { s.setLine (w.pa / 64) { m with rts := max m.rts (ts + Config.lease) } with reports := s.reports ++ [⟨key, v, some ts⟩] }
    else { s with reports := s.reports ++ [⟨key, v, none⟩] }
  | _ => s

/-- The same for the contexts of a gang. -/
def rereadWatches (s : State) (g : Nat) : State := (gangKeys (s.getGang g)).foldl rereadWatch s

/-- R350: the gang's committed state is restored and it resumes. -/
def restoreGang (s : State) (g : Nat) : State :=
  let x := s.getGang g
  let shift := x.ran - x.slotRan
  let tlbs := x.cores.map (fun k => (k, (s.getCore k).tlb))
  let s := writeLogBack (dropWork s g) x.log
  let s := (if x.ssn % 2 = 0 then x.slot0 else x.slot1).foldl (fun s i => restoreCore s ⟨shift, shift, true⟩ i) s
  let s := tlbs.foldl (fun s t => s.setCore t.1 { s.getCore t.1 with tlb := t.2, residual := [], leases := [], phase := none }) s
  let s := x.cores.foldl (fun s k =>
    { s with quads := s.quads.map (fun q => (q.1, { q.2 with vsfq := q.2.vsfq.filter (fun v => v.1 ≠ k) })) }) s
  let s := s.setGang g { x with
    kept := [], ejected := [], log := [], openBits := x.slotOpen, queues := x.slotQueues, roll := x.roll + 1, consumed := none }
  rereadWatches { s with
    cores := s.cores.map (fun (c : Nat × Core) => (c.1, { c.2 with leases := c.2.leases.filter (fun l => !(gangPkgs x).contains (paPkg (l.1 * 64))) }))
    reports := s.reports ++ x.slotReports, accs := s.accs ++ x.slotAccs, colls := x.slotColls.foldl (fun m c => mset c.1 c.2 m) s.colls
    pairs := x.slotPairs.foldl (fun m p => mset p.1 (shiftPair shift p.2) m) s.pairs } g

/-- R349, R350, R357: a rollback of a gang, put down to a context, for a cause if R349 has one. It is impossible when the gang is
unprotected, when an uncorrectable error stands in what it reads, or when the superstep has not written a consumed line: the gang is then
ended with 0x72. -/
def rollback (s : State) (g : Nat) (cause : Option Nat) (key : Nat) (line : Option Nat) : State :=
  let x := s.getGang g
  if x.unprot || shadowBad s g || line.any (fun l => (mget? l x.log).isNone) then endGang (machineCheck s g 0x72 key) g 0x72
  else
    match cause with
    | some c => machineCheck (restoreGang s g) g c key
    | none => restoreGang s g

/-- The gangs of which a core passes a test. -/
def gangsWith (s : State) (p : Nat → Bool) : List Nat := (s.gangs.filter (fun x => gangExists s x.1 && x.2.cores.any p)).map (·.1)

/-- R18, R350: rolls back every gang of which a core passes a test; one that is switched out owes the rollback, and takes it when it
resumes. -/
def rollbackAll (s : State) (p : Nat → Bool) (cause : Option Nat) : State :=
  (gangsWith s p).foldl (fun s g =>
    let x := s.getGang g
    if x.st = .running then rollback s g cause (firstKey s g) none else s.setGang g { x with owed := some (x.owed.getD cause) }) s

/-- POISON_CONSUMED (R357, R349 0x70): a context of the subject gang has consumed poison. -/
def execPoisonConsumed (s : State) : Out :=
  match (s.getGang s.subject).consumed with
  | none => .next s
  | some (line, key) =>
    if (s.getGang s.subject).st ≠ .running then .next s else .next (rollback s s.subject (some 0x70) key (some line))

/-- STOP_TIMEOUT (R349 0x7A): the subject gang has not stopped within 2^20 cycles of T. -/
def execStopTimeout (s : State) : Out :=
  let x := s.getGang s.subject
  match x.outAt with
  | none => .next s
  | some t => if x.st = .running && t + 2 ^ 20 ≤ s.now then .next (endByCheck s s.subject 0x7A) else .next s

/-- INTERNAL_MACHINE_CHECK (R349 0x7F): the subject gang is ended. -/
def execInternalMachineCheck (s : State) : Out :=
  if gangExists s s.subject then .next (endByCheck s s.subject 0x7F) else .next s

/-- POWER_THERMAL_LIMIT (R349 0x7E): issue on the subject package slows; the gangs' fault records hold it. -/
def execPowerThermalLimit (s : State) : Out :=
  let p := s.subject
  let s := s.setPkg p { s.getPkg p with slowed := true }
  .next ((gangsWith s (fun k => k / 4096 = p)).foldl (fun s g => machineCheck s g 0x7E (firstKey s g)) s)

/-- R352, R327: the audit of a die is due: 2^AUDIT cycles of its first core have passed since the last one. -/
def auditDue (s : State) (pkg die : Nat) : Bool :=
  mget 0 die (s.getPkg pkg).audits + 2 ^ (s.getCore (pkg * 4096 + die * 512)).audit ≤ s.now

/-- PERMIT_AUDIT (R352): the audit of a die; a mismatch rolls back every gang with a core on it. -/
def execPermitAudit (pkg : Nat) (die : Fin 8) (mismatch : Bool) (s : State) : Out :=
  if !auditDue s pkg die.val then .next s
  else
    let s := s.setPkg pkg { s.getPkg pkg with audits := mset die.val s.now (s.getPkg pkg).audits }
    if mismatch then .next (rollbackAll s (fun k => k / 512 = pkg * 8 + die.val) (some 0x7B)) else .next s

/-- HBM_CHANNEL_RETIRE (R349 0x75): the channel's lines move to spare rows, and the gangs of the package roll back. -/
def execHbmChannelRetire (pkg : Nat) (stack : Fin 8) (channel : Fin 32) (s : State) : Out :=
  let x := s.getPkg pkg
  let s := s.setPkg pkg { x with retired := insertNat (stack.val * 32 + channel.val) x.retired }
  .next (rollbackAll s (fun k => k / 4096 = pkg) (some 0x75))

/-! ### Lost dies, rows and packages (R14, R15, R17, R18, R349) -/

/-- R15, R17: the site of the reserve die of a site row, as the reset DMAP leaves it free. -/
def reserveSite (r : Nat) : Option Nat := (List.range 5).find? (fun u => !Topo.computing Topo.dmapReset r u)

/-- R15: the site column of the reserve die that can take over a logical die of a package. -/
def reserveFor (s : State) (pkg die : Nat) : Option Nat :=
  let dmap := (s.getPkg pkg).dmap.toNat
  let r := (Topo.site dmap die).1
  if Config.reserveUsable then (reserveSite r).filter (fun u => !Topo.computing dmap r u) else none

/-- R15, R17: DMAP after logical die `die` has moved to column u of its site row. -/
def remapDie (dmap die u : Nat) : Nat := Bits.setFld dmap 4 (4 * die) ((Topo.site dmap die).1 * 8 + u)

/-- R14, R15, R349: a die of a package is lost: its row's reserve takes over its number and the gangs of the package roll back; with no
reserve left, the gangs with a core on it are ended, and nothing else changes (log 29). -/
def loseDie (s : State) (pkg die : Nat) (cause : Option Nat) : State :=
  let x := s.getPkg pkg
  match reserveFor s pkg die with
  | none => (gangsWith s (fun k => k / 512 = pkg * 8 + die)).foldl (fun s g => endByCheck s g 0x71) s
  | some u =>
    let s := s.setPkg pkg { x with
      dmap := BitVec.ofNat 64 (remapDie x.dmap.toNat die u), srow := BitVec.ofNat 64 (Bits.setFld x.srow.toNat 5 (5 * die) 16)
      failedRows := x.failedRows.filter (fun f => f / 32 ≠ die) }
    rollbackAll s (fun k => k / 4096 = pkg) cause

/-- DIE_LOSS (R15). -/
def execDieLoss (pkg : Nat) (die : Fin 8) (s : State) : Out := .next (loseDie s pkg die.val none)

/-- ROW_FAILURE (R14, R349 0x73): the first failed row of a die becomes its disabled row; a second one makes the die lost. -/
def execRowFailure (pkg : Nat) (die : Fin 8) (row : Fin 17) (s : State) : Out :=
  let x := s.getPkg pkg
  let f := die.val * 32 + row.val
  if x.failedRows.contains f then .next s
  else if x.failedRows.any (fun r => r / 32 = die.val) then .next (loseDie s pkg die.val (some 0x73))
  else
    let s := s.setPkg pkg { x with
      srow := BitVec.ofNat 64 (Bits.setFld x.srow.toNat 5 (5 * die.val) row.val), failedRows := insertNat f x.failedRows }
    .next (if row.val = 16 then s else rollbackAll s (fun k => k / 4096 = pkg) none)

/-- R325: the standby package that replaces a lost one: the lowest-numbered of a system map that no gang uses. -/
def standbyFor (s : State) (pkg : Nat) : Option Nat :=
  ((sysMap s pkg).filter (fun x => x.2 && freeRun s 4096 (x.1 * 4096))).foldl (fun b x =>
    match b with
    | none => some x.1
    | some y => some (min y x.1)) none

/-- R325: SB of a package becomes 0 in a system map. -/
def takeStandby (s : State) (pkg q : Nat) : State :=
  (List.range 64).foldl (fun s i =>
    let pa := blockPa pkg .package (0x800 + 8 * i)
    let e := ctrlRaw s pa
    if e.getLsbD 12 && e.toNat % 4096 = q then ctrlSet s pa (e &&& ~~~0x2000#64) else s) s

/-- The record fields with which a gang's replacement cores are prepared (R350). -/
def recordOf (g : Gang) : LaunchRec :=
  ⟨g.entry, g.frame, g.levels, g.resv, g.asid, g.seed, g.tensors, g.trapvec, g.split, g.shadow, g.stash, g.expiry, 0⟩

/-- R172: the first cores of a gang's level-0 units. -/
def gangBases (g : Gang) : List Nat :=
  let l := g.levels.headD 0
  let first := g.cores.headD 0
  if lvlDomain l = 7 then (gangPkgs g).map (· * 4096)
  else if lvlDomain l = 0 then [first]
  else (List.range (lvlExtent l)).map (fun j => first + j * unitCores (lvlDomain l))

/-- R349 0x76, R350: package q stands in for the lost package p in a gang that has rolled back: its cores start from the launch state,
and every entry context of theirs takes 0x76. -/
def replacePackage (s : State) (g p q : Nat) : State :=
  let x := s.getGang g
  let move (k : Nat) : Nat := if k / 4096 = p then q * 4096 + k % 4096 else k
  let us := gangUnits x.levels ((gangBases x).map move)
  let ks := (unitCoresOf us).filter (fun k => k.1 / 4096 = q)
  let entries := entryContexts x.levels us
  let onP (key : Nat) : Bool := (x.cores.filter (fun k => k / 4096 = p)).any (fun k =>
    [1, 4, 5, 6].any (fun d => queueKey d k = key))
  let others (l : List CoreImage) : List CoreImage := l.filter (fun i => i.key / 4096 ≠ p)
  let s := (x.cores.filter (fun k => k / 4096 = p)).foldl (fun s k => s.setCore k { s.getCore k with gang := 0 }) s
  let s := ks.foldl (fun s k => prepareCore s (recordOf x) g entries k) s
  let imgs := ks.map (fun k => coreImage s k.1)
  let s := s.setGang g { s.getGang g with
    cores := x.cores.map move, queues := x.queues.filter (fun e => !onP e.1), slotQueues := x.slotQueues.filter (fun e => !onP e.1)
    openBits := x.openBits.filter (fun b => b / 4096 ≠ p), slotOpen := x.slotOpen.filter (fun b => b / 4096 ≠ p)
    slot0 := others x.slot0 ++ imgs, slot1 := others x.slot1 ++ imgs }
  (entries.filter (fun e => e.1 / 4 / 4096 = q)).foldl (fun s e =>
    let info := openInfo s 0x76
    { enterTrap s e.1 info false 0 with free := s.free + 2 }) s

/-- R349 0x76, 0x77: a gang has lost a package; one that is switched out rolls back and takes its replacement when it resumes. -/
def losePackage (s : State) (p g : Nat) : State :=
  let own := ((gangPkgs (s.getGang g)).filter (· ≠ p)).headD p
  match standbyFor s own with
  | none => endByCheck s g 0x77
  | some q =>
    let s := (p :: q :: gangPkgs (s.getGang g)).eraseDups.foldl (fun s m => takeStandby s m q) s
    let x := s.getGang g
    if x.st ≠ .running then s.setGang g { x with owed := some (some 0x76), moved := x.moved ++ [(p, q)] }
    else
      let s := rollback s g (some 0x76) (firstKey s g) none
      if gangExists s g then replacePackage s g p q else s

/-- PACKAGE_LOSS (R349): the subject package is lost; each gang on it goes on with a standby package, or is ended. -/
def execPackageLoss (s : State) : Out :=
  let p := s.subject
  let s := s.setPkg p { s.getPkg p with lost := true }
  let s := { s with launches := s.launches.filter (fun l => l.pkg ≠ p) }
  .next ((gangsWith s (fun k => k / 4096 = p)).foldl (fun s g => losePackage s p g) s)

/-! ### Gang switch (R145, R342 to R344) -/

/-- GANG_SWITCH_STOP (R343): T of the subject gang has come: its cores stop, and its state and the packets in flight are saved. -/
def execGangSwitchStop (s : State) : Out :=
  let g := s.subject
  let x := s.getGang g
  match x.outAt with
  | none => .next s
  | some t =>
    if x.st ≠ .running || s.now < t || x.consumed.isSome || gangInPhase s g || seedRunning s x || !canStop s g then .next s
    else
      let s := stopGang s g
      let y := s.getGang g
      let s := s.setGang g { y with
        st := .switchedOut, outAt := none, saved := y.cores.map (coreImage s), ejected := s.accs.filter (fun m => m.gang = g)
        heldReports := s.reports.filter (fun r => heldBy s g r.key), leftAt := s.now }
      let s := { s with accs := s.accs.filter (fun m => m.gang ≠ g), reports := s.reports.filter (fun r => !heldBy s g r.key) }
      let s := (gangKeys y).foldl (fun s key => s.setCtx key { s.getCtx key with live := false, wait := none }) s
      .next (freeCores s g)

/-- R344: the saved state of a gang is restored and its packets go on. -/
def resumeGang (s : State) (g : Nat) : State :=
  let x := s.getGang g
  let passed := s.now - x.leftAt
  let s := x.saved.foldl (fun s i => restoreCore s ⟨0, passed, false⟩ i) s
  let s := s.setGang g { x with st := .running, inAt := none, saved := [], ejected := [], heldReports := [] }
  rereadWatches { s with
    reports := s.reports ++ x.heldReports
    accs := s.accs ++ x.ejected.map (fun m => { m with born := m.born.map (· + passed) })
    pairs := s.pairs.map (fun p => (p.1, if p.2.gang = g then shiftPair passed p.2 else p.2)) } g

/-- R18, R349: a gang that runs again takes the rollback that it owes, with the packages that replace lost ones. -/
def settleOwed (s : State) (g : Nat) : State :=
  let x := s.getGang g
  match x.owed with
  | none => s
  | some cause =>
    let s := rollback (s.setGang g { x with owed := none, moved := [] }) g cause (firstKey s g) none
    x.moved.foldl (fun s m => if gangExists s g then replacePackage s g m.1 m.2 else s) s

/-- GANG_RESUME (R344): T of the switched-out subject gang has come and its cores are free: its state is restored and the packets go
on. A rollback that it owes follows at once, with the packages that replace lost ones (R18, R349). -/
def execGangResume (s : State) : Out :=
  let g := s.subject
  let x := s.getGang g
  match x.inAt with
  | none => .next s
  | some t =>
    if x.st ≠ .switchedOut || s.now < t || (x.cores.map (movedTo x.moved)).any (fun k => (s.getCore k).gang ≠ 0) then .next s
    else .next (settleOwed (resumeGang s g) g)

/-! ### The rest of a commit (R187 steps 3 and 4) -/

/-- The number of a gang's commit (log 3). -/
def commitScript (g : Nat) : Nat := 4 * g + 2

/-- R187, R53: the commit is complete: the gang goes on, its cores' fetch sees every line afresh, and what came for it meanwhile is taken. -/
def endCommit (s : State) (g : Nat) : State :=
  let s := restartLog (s.setGang g { s.getGang g with st := .running }) g
  settleOwed (refetch s (s.getGang g).cores) g

/-- R187 steps 3 and 4: kept stores are released and the sweep runs, whose accesses carry stamps above those of the gang's contexts. -/
def goOnCommit (s : State) (g : Nat) : State :=
  engStep s (commitScript g) (fun s => do
    let x := s.getGang g
    let s ← releaseKept g x.kept.length s
    let stamp := (gangKeys x).foldl (fun t key => max t (s.getCtx key).pts) 0
    let s ← sweep s g x.ssn stamp
    return endCommit s g) EngStop.s

/-- SUPERSTEP_COMMIT (R187, R165): every core of the subject gang has arrived at SSTEP; or a commit that has been left between two accesses goes
on. -/
def execSuperstepCommit (s : State) : Out :=
  let g := s.subject
  if (s.getGang g).st = .committing then .next (goOnCommit s g)
  else if mayCommit s g then .next (goOnCommit (beginCommit s g) g)
  else .next s

end Sys2Proof.Machine
end

