-- ==== Sys2Proof/Machine/Crypto.lean ====
section
/-! DEFINITION. The checks of boot and attestation (R353 to R355): SHA-512, and ECDSA on P-521 over it. Both standards and the curve come
from outside the spec, which names them (log 26). -/
namespace Sys2Proof.Crypto

/-! ### SHA-512 -/

/-- The greatest n below 2^bits with n^k ≤ x. -/
def root (k bits x : Nat) : Nat :=
  (List.range bits).foldl (fun r j => let t := r + 2 ^ (bits - 1 - j); if t ^ k ≤ x then t else r) 0

/-- The first 80 primes. -/
def primes : List Nat :=
  [2, 3, 5, 7, 11, 13, 17, 19, 23, 29, 31, 37, 41, 43, 47, 53, 59, 61, 67, 71] ++
    [73, 79, 83, 89, 97, 101, 103, 107, 109, 113, 127, 131, 137, 139, 149, 151, 157, 163, 167, 173] ++
    [179, 181, 191, 193, 197, 199, 211, 223, 227, 229, 233, 239, 241, 251, 257, 263, 269, 271, 277, 281] ++
    [283, 293, 307, 311, 313, 317, 331, 337, 347, 349, 353, 359, 367, 373, 379, 383, 389, 397, 401, 409]

/-- The round constants: 64 bits of the fractional parts of the cube roots of the primes. -/
def roundConstants : List Word := primes.map (fun p => BitVec.ofNat 64 (root 3 68 (p * 2 ^ 192)))

/-- The initial value: 64 bits of the fractional parts of the square roots of the first eight primes. -/
def initial : List Word := (primes.take 8).map (fun p => BitVec.ofNat 64 (root 2 70 (p * 2 ^ 128)))

/-- The message with its padding and its length, in whole blocks of 128 bytes. -/
def padded (m : List Byte) : List Byte :=
  m ++ [0x80] ++ List.replicate ((239 - m.length % 128) % 128) 0 ++ (Bits.bytesLE 16 (8 * m.length)).reverse

/-- The big-endian value of bytes. -/
def ofBE (bs : List Byte) : Nat := Bits.ofBytesLE bs.reverse

/-- The message schedule of a block: 80 words. -/
def schedule (block : List Byte) : List Word :=
  let first : Array Word := ((List.range 16).map (fun j => BitVec.ofNat 64 (ofBE ((block.drop (8 * j)).take 8)))).toArray
  let w (a : Array Word) (j : Nat) : Word := a.getD j 0
  ((List.range 64).foldl (fun a j =>
    let t := j + 16
    let x := w a (t - 15)
    let y := w a (t - 2)
    a.push (w a (t - 16) + (x.rotateRight 1 ^^^ x.rotateRight 8 ^^^ (x >>> 7)) + w a (t - 7) +
      (y.rotateRight 19 ^^^ y.rotateRight 61 ^^^ (y >>> 6)))) first).toList

/-- One round on the eight working words. -/
def round (v : List Word) (kw : Word) : List Word :=
  match v with
  | [a, b, c, d, e, f, g, h] =>
    let t1 := h + (e.rotateRight 14 ^^^ e.rotateRight 18 ^^^ e.rotateRight 41) + ((e &&& f) ^^^ (~~~e &&& g)) + kw
    let t2 := (a.rotateRight 28 ^^^ a.rotateRight 34 ^^^ a.rotateRight 39) + ((a &&& b) ^^^ (a &&& c) ^^^ (b &&& c))
    [t1 + t2, a, b, c, d + t1, e, f, g]
  | v => v

/-- The hash state after one block. -/
def compress (h : List Word) (block : List Byte) : List Word :=
  let v := ((schedule block).zip roundConstants).foldl (fun v x => round v (x.1 + x.2)) h
  (h.zip v).map (fun x => x.1 + x.2)

/-- SHA-512 of a message, as a number whose most significant bytes come first in the digest. -/
def sha512 (m : List Byte) : Nat :=
  let p := padded m
  let h := (List.range (p.length / 128)).foldl (fun h j => compress h ((p.drop (128 * j)).take 128)) initial
  h.foldl (fun x w => x * 2 ^ 64 + w.toNat) 0

/-- The digest as 64 bytes, the first byte lowest. -/
def digest (m : List Byte) : Line := BitVec.ofNat 512 (Bits.ofBytesLE (Bits.bytesLE 64 (sha512 m)).reverse)

/-! ### ECDSA on P-521 -/

/-- The field's prime, the order of the base point, and the coefficient b (a is −3). -/
def p521 : Nat := 2 ^ 521 - 1
def order : Nat :=
  0x01FFFFFFFFFFFFFFFFFFFFFFFFFFFFFFFFFFFFFFFFFFFFFFFFFFFFFFFFFFFFFFFFFA51868783BF2F966B7FCC0148F709A5D03BB5C9B8899C47AEBB6FB71E91386409
def coeffB : Nat :=
  0x0051953EB9618E1C9A1F929A21A0B68540EEA2DA725B99B315F3B8B489918EF109E156193951EC7E937B1652C0BD3BB1BF073573DF883D2C34F1EF451FD46B503F00

/-- A point: none is the point at infinity. -/
abbrev Point := Option (Nat × Nat)

/-- The base point. -/
def base : Point :=
  some (0x00C6858E06B70404E9CD9E3ECB662395B4429C648139053FB521F828AF606B4D3DBAA14B5E77EFE75928FE1DC127A2FFA8DE3348B3C1856A429BF97E7E31C2E5BD66,
    0x011839296A789A3BC0045C8A5FB42C7D1BD998F54449579B446817AFBD17273E662C97EE72995EF42640C550B9013FAD0761353C7086A272C24088BE94769FD16650)

/-- x^e modulo m, for exponents below 2^521. -/
def powMod (m x e : Nat) : Nat :=
  (List.range 521).foldl (fun r j => let s := r * r % m; if Bits.bit e (520 - j) then s * x % m else s) 1

/-- The inverse modulo a prime. -/
def inverse (m x : Nat) : Nat := powMod m x (m - 2)

/-- A difference modulo the field's prime. -/
def sub (a b : Nat) : Nat := (a + p521 - b % p521) % p521

/-- The point from a slope. -/
def fromSlope (l x1 y1 x2 : Nat) : Point :=
  let x3 := sub (sub (l * l) x1) x2
  some (x3, sub (l * sub x1 x3) y1)

/-- The sum of two points. -/
def add : Point → Point → Point
  | none, q => q
  | q, none => q
  | some (x1, y1), some (x2, y2) =>
    if x1 ≠ x2 then fromSlope (sub y2 y1 * inverse p521 (sub x2 x1) % p521) x1 y1 x2
    else if y1 ≠ y2 || y1 = 0 then none
    else fromSlope (sub (3 * x1 * x1) 3 * inverse p521 (2 * y1 % p521) % p521) x1 y1 x1

/-- A multiple of a point. -/
def times (n : Nat) (q : Point) : Point :=
  (List.range 521).foldl (fun r j => let d := add r r; if Bits.bit n (520 - j) then add d q else d) none

/-- A pair of coordinates is a point of the curve. -/
def onCurve (q : Nat × Nat) : Bool :=
  q.1 < p521 && q.2 < p521 && q.2 * q.2 % p521 = (sub (q.1 * q.1 * q.1) (3 * q.1) + coeffB) % p521

/-- ECDSA: whether (r, s) signs a message under a public key. -/
def verify (key : Nat × Nat) (m : List Byte) (sig : Nat × Nat) : Bool :=
  0 < sig.1 && sig.1 < order && 0 < sig.2 && sig.2 < order && onCurve key &&
    (let w := inverse order sig.2
     match add (times (sha512 m * w % order) base) (times (sig.1 * w % order) (some key)) with
     | none => false
     | some q => q.1 % order = sig.1)

/-- R354: an image passes its check: the key is the root key and the signature verifies. -/
def imageOk (image : List Byte) (sign : Signature) : Bool := Config.rootKey sign.key && verify sign.key image sign.pair

end Sys2Proof.Crypto
end

