-- ==== Sys2Proof/Machine/Service.lean ====
section
/-! DEFINITION. The service cores: logged events, live service, boot, attestation and the Seroan debug service (R349, R351, R353 to
R356). -/
namespace Sys2Proof.Machine

/-- R351: an event of the service-core log. -/
def logEvent (s : State) (cause unit : Nat) : State := { s with log := s.log ++ [⟨cause, unit, s.now⟩] }

/-- CORRECTED_ERROR_THRESHOLD (R349 0x78). -/
def execCorrectedErrorThreshold (pkg : Nat) (unit : Nat) (s : State) : Out := .next (logEvent s 0x78 (pkg * 2 ^ 32 + unit))

/-- LINK_RETRAIN (R349 0x79). -/
def execLinkRetrain (pkg : Nat) (link : Fin 16) (s : State) : Out := .next (logEvent s 0x79 (pkg * 2 ^ 32 + link.val))

/-- FIRMWARE_REPLACEMENT (R353, R349 0x7C): a unit's image, once verified by R354, is replaced, 0 the service cores' and 1 + j that of
base die j; its measurement is the new image's. An image that fails its check replaces nothing. -/
def execFirmwareReplacement (pkg : Nat) (unit : Nat) (image : SignedImage) (s : State) : Out :=
  let x := s.getPkg pkg
  if Crypto.imageOk image.bytes image.sign then
    .next (logEvent (s.setPkg pkg { x with digests := x.digests.set (min unit 1) (Crypto.digest image.bytes) }) 0x7C (pkg * 2 ^ 32 + unit))
  else .next s

/-- R353: the cycles between two calibrations of one stack, and those that one takes. -/
def recalGap : Nat := 65536
def recalTime : Nat := 2048

/-- HBM_RECALIBRATION (R353): a channel's calibration starts, when no other is under way and none of its stack has started within 65,536
cycles. -/
def execHbmRecalibration (pkg : Nat) (stack : Fin 8) (channel : Fin 32) (s : State) : Out :=
  let x := s.getPkg pkg
  if x.recal.any (fun c => s.now < c.2 + recalTime || (c.1 / 32 = stack.val && s.now < c.2 + recalGap)) then .next s
  else .next (s.setPkg pkg { x with recal := mset (stack.val * 32 + channel.val) s.now x.recal })

/-- BOOT (R354): the next image of a package is verified and started; a failed check stops the boot at its stage and is reported through
the management controller. -/
def execBoot (pkg : Nat) (image : List Byte) (sign : Signature) (s : State) : Out :=
  let x := s.getPkg pkg
  match x.bootReport with
  | some stage => .fault (.bootStopped stage)
  | none =>
    if 3 ≤ x.boot then .next s
    else if Crypto.imageOk image sign then .next (s.setPkg pkg { x with boot := x.boot + 1, digests := x.digests ++ [Crypto.digest image] })
    else .next (s.setPkg pkg { x with bootReport := some x.boot })

/-- ATTESTATION (R355): the subject package answers with its measurements. -/
def execAttestation (s : State) : Out :=
  let x := s.getPkg s.subject
  .next (s.setPkg s.subject { x with attested := x.digests })

/-- SEROAN_ATTACH (R356): the service attaches to the subject gang and stops it through GSWITCH (R342). -/
def execSeroanAttach (s : State) : Out :=
  if !gangExists s s.subject then .next s
  else
    let s := s.setGang s.subject { s.getGang s.subject with attached := true }
    .next (switchRequest s .out s.subject s.now).1

/-- SEROAN_RESUME (R356): an attached gang that has stopped is called in again. -/
def execSeroanResume (s : State) : Out :=
  if (s.getGang s.subject).attached then .next (switchRequest s .in_ s.subject s.now).1 else .next s

/-- SEROAN_BREAKPOINT (R333, R356): sets or clears an instruction breakpoint of an attached gang. -/
def execSeroanBreakpoint (gang : Nat) (addr : Word) (set : Bool) (s : State) : Out :=
  let x := s.getGang gang
  let rest := x.brks.filter (fun a => a != addr)
  if !x.attached || !gangExists s gang then .next s
  else .next (s.setGang gang { x with brks := if set then rest ++ [addr] else rest })

/-! ### The saved state of a stopped gang (R338, R343, R356) -/

/-- A doubleword of bytes. -/
def dwAt (bs : List Byte) (n : Nat) : Word := BitVec.ofNat 64 (Bits.ofBytesLE ((bs.drop (8 * n)).take 8))

/-- A bit vector with one of its doublewords replaced. -/
def putDw {w : Nat} (x : BitVec w) (n : Nat) (v : Word) : BitVec w := BitVec.ofNat w (Bits.setFld x.toNat 64 (64 * n) v.toNat)

/-! The parts whose layout the spec gives (R140, R205, R338). Reserved fields read as zero whatever is written to them (R6). -/

/-- R338: a context with doubleword n of its image replaced. -/
def putContext (c : Ctx) (n : Nat) (v : Word) : Ctx :=
  if h : n < 32 then (if n = 0 then c else { c with s := c.s.set n v })
  else
    match n with
    | 32 => { c with full := v.setWidth 32 ||| 1 }
    | 33 => { c with pc := v }
    | 34 => { c with p := v.setWidth 8 ||| 1 }
    | 35 => { c with asr := v &&& asrMask }
    | 36 => { c with vsh := v &&& vshMask }
    | 37 => { c with lfs := v &&& lfsMask }
    | 38 => { c with quantum := v.toNat % 2 ^ 24 }
    | 39 => { c with tcause := v &&& tcauseMask }
    | 40 => { c with tpc := v }
    | 41 => { c with tinfoa := v }
    | 42 => { c with tinfob := v }
    | 43 => { c with tseq := v &&& 0xFFFF }
    | 44 => { c with trapvec := v }
    | _ => c

/-- R205: a ring entry with the fields of the 512 bits given. -/
def putRing (e : RingEntry) (x : Nat) : RingEntry :=
  { e with insn := BitVec.ofNat 96 x, tseq := Bits.fld x 111 96, ctx := ⟨Bits.fld x 113 112 % 4, Nat.mod_lt _ (by decide)⟩,
           pass := Bits.fld x 121 114, state := Bits.fld x 123 122, pc := BitVec.ofNat 64 (x >>> 128), opa := BitVec.ofNat 64 (x >>> 192),
           opb := BitVec.ofNat 64 (x >>> 256), opc := BitVec.ofNat 64 (x >>> 320), vshc := BitVec.ofNat 28 (x >>> 384),
           rm := BitVec.ofNat 2 (x >>> 412), rep := BitVec.ofNat 15 (x >>> 448), repv := Bits.bit x 463 }

/-- R140: an entry of the residual tile with the fields of the 640 bits given, AGE counted back from the cycle of the stop; none when
it is not live. -/
def putResidual (left : Nat) (e : Option Residual) (x : Nat) : Option Residual :=
  if Bits.bit x 593 then
    some ⟨Bits.fld x 565 512, Bits.bit x 592, Ty.ofCode (BitVec.ofNat 4 (x >>> 572)), BitVec.ofNat 16 (x >>> 576), BitVec.ofNat 512 x,
      left - Bits.fld x 610 594, e.bind (·.sending)⟩
  else none

/-! The parts whose layout the spec leaves open, as doublewords in an order of the model's (log 26); a doubleword past the last reads
zero, and one written there changes nothing. -/

/-- Doubleword n of a list of them. -/
def dwIn (ws : List Word) (n : Nat) : Word := ws.getD n 0

/-- R281, R306: what a chain's queue holds of an item. -/
def itemWords : ChainItem → List Word
  | .record a q _ ts => [a, BitVec.ofNat 64 q, BitVec.ofNat 64 ts, 0, 0]
  | .promise _ a c ssn q _ ts => [a, BitVec.ofNat 64 q, BitVec.ofNat 64 ts, c, BitVec.ofNat 64 ssn]
  | .fence m => [m.setWidth 64, 0, 0, 0, 0]

/-- An item with those doublewords. -/
def putItem (i : ChainItem) (ws : List Word) : ChainItem :=
  let n (j : Nat) : Nat := (dwIn ws j).toNat
  match i with
  | .record _ _ c _ => .record (dwIn ws 0) (n 1) c (n 2)
  | .promise i _ _ _ _ c _ => .promise i (dwIn ws 0) (dwIn ws 3) (n 4) (n 1) c (n 2)
  | .fence _ => .fence ((dwIn ws 0).setWidth 8)

/-- R281, R285: a chain: its registers and timestamps, its queue, and the record of the command that it has stopped in. -/
def chainWords (c : Chain) : List Word :=
  [c.head, c.tail, BitVec.ofNat 64 c.acnt, BitVec.ofNat 64 c.ccnt, BitVec.ofNat 64 c.piece, c.fault, BitVec.ofNat 64 c.ets,
    BitVec.ofNat 64 c.cts] ++ c.fifo.flatMap itemWords ++ c.run.elim [] (fun r => itemWords r.item ++ r.body)

/-- A chain with those doublewords. -/
def putChain (c : Chain) (ws : List Word) : Chain :=
  let n (j : Nat) : Nat := (dwIn ws j).toNat
  let at_ (j : Nat) : List Word := ws.drop (8 + 5 * j)
  { c with head := dwIn ws 0, tail := dwIn ws 1, acnt := n 2, ccnt := n 3, piece := n 4, fault := dwIn ws 5, ets := n 6, cts := n 7,
           fifo := c.fifo.zipIdx.map (fun x => putItem x.1 (at_ x.2)),
           run := c.run.map (fun r => { r with item := putItem r.item (at_ c.fifo.length), body := at_ (c.fifo.length + 1) }) }

/-- R294: the range scoreboard. -/
def boardWords (es : List SbEntry) : List Word :=
  es.flatMap (fun e => BitVec.ofNat 64 e.chain.val :: BitVec.ofNat 64 e.seq ::
    e.ranges.flatMap (fun r => [BitVec.ofNat 64 r.1, BitVec.ofNat 64 r.2]))

/-- A scoreboard with those doublewords. -/
def putBoard : List SbEntry → List Word → List SbEntry
  | [], _ => []
  | e :: es, ws =>
    let n (j : Nat) : Nat := (dwIn ws j).toNat
    ⟨e.ranges.zipIdx.map (fun x => (n (2 + 2 * x.2), n (3 + 2 * x.2))), ⟨n 0 % 8, Nat.mod_lt _ (by decide)⟩, n 1⟩ ::
      putBoard es (ws.drop (2 + 2 * e.ranges.length))

/-- R198, R205: the dispatch counter and the forms in the sequencer. -/
def sequencerWords (c : Core) : List Word := (c.tseq :: c.seq).map (BitVec.ofNat 64)

/-- R337: the counters of a core, CYC as the gang's cycles stand, and those of its contexts. -/
def counterWords (ran : Nat) (i : CoreImage) : List Word :=
  let c := i.core
  [BitVec.ofNat 64 (ran - c.cycBase), c.refu, c.insi, c.dchk, c.idle, c.walk] ++ i.ctxs.flatMap (fun x => [x.iss, x.rref])

/-- A block with those counters. -/
def putCounters (ran : Nat) (i : CoreImage) (ws : List Word) : CoreImage :=
  { i with core := { i.core with cycBase := ran - (dwIn ws 0).toNat, refu := dwIn ws 1, insi := dwIn ws 2, dchk := dwIn ws 3,
                                 idle := dwIn ws 4, walk := dwIn ws 5 },
           ctxs := i.ctxs.zipIdx.map (fun x => { x.1 with iss := dwIn ws (6 + 2 * x.2), rref := dwIn ws (7 + 2 * x.2) }) }

/-- R178: a task queue: of each priority how many handles it holds, then the handles. -/
def queueWords (q : TaskQueue) : List Word :=
  q.toList.flatMap (fun f => BitVec.ofNat 64 f.length :: f.map (·.handle))

/-- A task queue with those doublewords; a smaller count drops the newest. -/
def putQueue (q : TaskQueue) (ws : List Word) : TaskQueue :=
  let start (p : Nat) : Nat := (q.toList.take p).foldl (fun n f => n + f.length + 1) 0
  Vector.ofFn (fun (p : Fin 4) =>
    (q[p].zipIdx.map (fun e => { e.1 with handle := dwIn ws (start p.val + 1 + e.2) })).take (dwIn ws (start p.val)).toNat)

/-- R186, R187, R270, R339: what a context has arrived at: 1 a bar, 2 a superstep's end, 3 a phase, 4 SEED, with the scope in bits 15:8. -/
def arrivalWord (c : Ctx) : Word :=
  match c.wait with
  | some (.bar sc) => BitVec.ofNat 64 (1 + 256 * sc.val)
  | some .sstep => 2
  | some (.phase sc _) => BitVec.ofNat 64 (3 + 256 * sc.val)
  | some (.seed _) => 4
  | _ => 0

/-- A context that has arrived as that word says; 0 takes its arrival away. -/
def putArrival (c : Ctx) (w : Word) : Ctx :=
  let sc : Fin 8 := ⟨w.toNat / 256 % 8, Nat.mod_lt _ (by decide)⟩
  if w = arrivalWord c then c
  else
    match w.toNat % 256 with
    | 0 => if arrivalWord c = 0 then c else { c with wait := none }
    | 1 => { c with wait := some (.bar sc) }
    | 2 => { c with wait := some .sstep }
    | 3 => { c with wait := some (.phase sc (match c.wait with | some (.phase _ run) => run | _ => [])) }
    | 4 => { c with wait := some (.seed 0) }
    | _ => c

/-- R339: the value of a context at SEED. -/
def seedWord (c : Ctx) : Word := match c.wait with | some (.seed v) => v | _ => 0

/-- The same with a value of SEED. -/
def putSeed (c : Ctx) (w : Word) : Ctx := match c.wait with | some (.seed _) => { c with wait := some (.seed w) } | _ => c

/-- R186, R247: the GMMAs a core has arrived at, the contexts' arrivals, and the numbers of the GMMAs withdrawn. -/
def arrivalWords (i : CoreImage) : List Word :=
  BitVec.ofNat 64 i.core.gmma :: i.ctxs.flatMap (fun c => [arrivalWord c, seedWord c]) ++ i.core.withdrawn.map (BitVec.ofNat 64)

/-- A block with those doublewords. -/
def putArrivals (i : CoreImage) (ws : List Word) : CoreImage :=
  { i with core := { i.core with gmma := (dwIn ws 0).toNat,
                                 withdrawn := i.core.withdrawn.zipIdx.map (fun x => (dwIn ws (1 + 2 * i.ctxs.length + x.2)).toNat) },
           ctxs := i.ctxs.zipIdx.map (fun x => putSeed (putArrival x.1 (dwIn ws (1 + 2 * x.2))) (dwIn ws (2 + 2 * x.2))) }

/-- R193: the cycles of the gang that a context's wait has left; all ones without a limit. -/
def waitWord (ran : Nat) (c : Ctx) : Word :=
  match c.wait with
  | some (.timed _ (some l) _) => BitVec.ofNat 64 (l - ran)
  | _ => BitVec.allOnes 64

/-- A context whose wait has so many left. -/
def putWait (ran : Nat) (c : Ctx) (w : Word) : Ctx :=
  match c.wait with
  | some (.timed t _ due) => { c with wait := some (.timed t (if w = BitVec.allOnes 64 then none else some (ran + w.toNat)) due) }
  | _ => c

/-- R148, R162, R167: the timestamps of a block: of the accumulates' answers, of the contexts, of their sets, and of the scratchpad's
lines; the chains' stand with the chains. -/
def stampWords (i : CoreImage) : List Word :=
  let pair (x : Nat × Nat) : List Word := [BitVec.ofNat 64 x.1, BitVec.ofNat 64 x.2]
  pair (i.core.accLocal, i.core.accOther) ++ i.ctxs.map (fun c => BitVec.ofNat 64 c.pts) ++
    i.ctxs.flatMap (fun c => (c.answers ++ c.discards).flatMap pair) ++ i.lines.flatMap (fun l => pair (l.2.wts, l.2.rts))

/-- Pairs with the doublewords given, and those that follow them. -/
def putPairs : List (Nat × Nat) → List Word → List (Nat × Nat) × List Word
  | [], ws => ([], ws)
  | _ :: ps, ws =>
    let r := putPairs ps (ws.drop 2)
    (((dwIn ws 0).toNat, (dwIn ws 1).toNat) :: r.1, r.2)

/-- Contexts with the sets given, and the doublewords that follow. -/
def putSets : List Ctx → List Word → List Ctx × List Word
  | [], ws => ([], ws)
  | c :: cs, ws =>
    let a := putPairs c.answers ws
    let d := putPairs c.discards a.2
    let r := putSets cs d.2
    ({ c with answers := a.1, discards := d.1 } :: r.1, r.2)

/-- A block with those timestamps. -/
def putStamps (i : CoreImage) (ws : List Word) : CoreImage :=
  let n (j : Nat) : Nat := (dwIn ws j).toNat
  let cs := putSets (i.ctxs.zipIdx.map (fun x => { x.1 with pts := n (2 + x.2) })) (ws.drop (2 + i.ctxs.length))
  { i with core := { i.core with accLocal := n 0, accOther := n 1 }, ctxs := cs.1,
           lines := i.lines.zipIdx.map (fun x => (x.1.1, { x.1.2 with wts := (dwIn cs.2 (2 * x.2)).toNat, rts := (dwIn cs.2 (2 * x.2 + 1)).toNat })) }

/-- R356: a doubleword of a part of a saved core block of a gang. -/
def savedRead (x : Gang) (i : CoreImage) (part : SavedPart) (n : Nat) : Word :=
  let of (p : Nat) : Word := dwAt (((blockParts x.leftAt i).find? (fun y => y.1 = p)).elim [] (·.2)) n
  match part with
  | .pad => BitVec.ofNat 64 (Memory.readLE i.pad (8 * n) 8)
  | .tiles => of 1
  | .accs => of 2
  | .status => of 3
  | .tsh => of 4
  | .bits => of 5
  | .residual => of 6
  | .ring => of 7
  | .context c => of (8 + c.val)
  | .vregs c => of (12 + c.val)
  | .chain c => dwIn (chainWords i.core.chains[c]) n
  | .scoreboard => dwIn (boardWords i.core.scoreboard) n
  | .sequencer => dwIn (sequencerWords i.core) n
  | .counters => dwIn (counterWords x.ran i) n
  | .queues => dwIn (queueWords (mget TaskQueue.empty (queueKey 1 i.key) x.queues)) n
  | .arrivals => dwIn (arrivalWords i) n
  | .waits => dwIn (i.ctxs.map (waitWord x.ran)) n
  | .stamps => dwIn (stampWords i) n

/-- R356: a saved core block of a gang with a doubleword of a part replaced. -/
def savedWrite (x : Gang) (i : CoreImage) (part : SavedPart) (n : Nat) (v : Word) : CoreImage :=
  let core := i.core
  match part with
  | .pad => if 8 * n + 8 ≤ 16384 * core.split then { i with pad := Memory.writeLE i.pad (8 * n) 8 v.toNat } else i
  | .tiles => if h : n / 512 < 8 then { i with core := { core with tiles := core.tiles.set (n / 512) (putDw core.tiles[n / 512] (n % 512) v) } } else i
  | .accs => if h : n / 512 < 8 then { i with core := { core with accs := core.accs.set (n / 512) (putDw core.accs[n / 512] (n % 512) v) } } else i
  | .status =>
    if n = 0 then { i with core := { core with status := Vector.ofFn (fun (j : Fin 8) => BitVec.ofNat 8 (v.toNat >>> (8 * j.val)) &&& 0x0F) } } else i
  | .tsh => if h : n < 8 then { i with core := { core with tsh := core.tsh.set n (v &&& tshMask) } } else i
  | .bits => if h : n / 64 < 8 then { i with core := { core with bits := core.bits.set (n / 64) (putDw core.bits[n / 64] (n % 64) v) } } else i
  | .residual =>
    let old := core.residual[n / 10]?
    let e := putResidual x.leftAt old (Bits.setFld ((old.map (residualWord x.leftAt)).getD 0) 64 (64 * (n % 10)) v.toNat)
    { i with core := { core with residual := core.residual.take (n / 10) ++ e.toList ++ core.residual.drop (n / 10 + 1) } }
  | .ring =>
    if n < 512 then
      let old := mget RingEntry.free (n / 8) core.ring
      { i with core := { core with ring := mset (n / 8) (putRing old (Bits.setFld (ringWord old) 64 (64 * (n % 8)) v.toNat)) core.ring } }
    else i
  | .context c => { i with ctxs := i.ctxs.modify c.val (fun x => putContext x n v) }
  | .vregs c => { i with ctxs := i.ctxs.modify c.val (fun x =>
      if h : n / 8 < 32 then { x with v := x.v.set (n / 8) (putDw x.v[n / 8] (n % 8) v) } else x) }
  | .chain c => { i with core := { core with chains := core.chains.set c (putChain core.chains[c] ((chainWords core.chains[c]).set n v)) } }
  | .scoreboard => { i with core := { core with scoreboard := putBoard core.scoreboard ((boardWords core.scoreboard).set n v) } }
  | .sequencer =>
    match ((sequencerWords core).set n v).map (fun w => w.toNat % 65536) with
    | [] => i
    | t :: q => { i with core := { core with tseq := t, seq := q } }
  | .counters => putCounters x.ran i ((counterWords x.ran i).set n v)
  | .queues => i
  | .arrivals => putArrivals i ((arrivalWords i).set n v)
  | .waits => { i with ctxs := i.ctxs.modify n (fun c => putWait x.ran c v) }
  | .stamps => putStamps i ((stampWords i).set n v)

/-- R356: a gang whose saved state has a doubleword of a part of a core's block replaced; the queue of a core is its gang's. -/
def savedPut (x : Gang) (k : Nat) (part : SavedPart) (n : Nat) (v : Word) : Gang :=
  let q := mget TaskQueue.empty (queueKey 1 k) x.queues
  match part with
  | .queues => { x with queues := mset (queueKey 1 k) (putQueue q ((queueWords q).set n v)) x.queues }
  | _ => { x with saved := x.saved.map (fun j => if j.key = k then savedWrite x j part n v else j) }

/-- SEROAN_STATE_ACCESS (R356): the service reads or writes a doubleword of the saved state of a core of a stopped gang that it has
attached; it never reads a running gang. -/
def execSeroanStateAccess (gang : Nat) (k : Nat) (part : SavedPart) (dw : Nat) (write : Option Word) (s : State) : Out :=
  let x := s.getGang gang
  if !x.attached || x.st ≠ .switchedOut then .next s
  else
    match x.saved.find? (fun i => i.key = k) with
    | none => .next s
    | some i =>
      match write with
      | none => .next (s.setGang gang { x with answer := some (savedRead x i part dw) })
      | some v => .next (s.setGang gang (savedPut x k part dw v))

end Sys2Proof.Machine
end

