-- ==== Sys2Proof/Machine/Dispatch.lean ====
section
/-! DEFINITION. One arm per instruction: each calls its meaning. -/
namespace Sys2Proof.Machine

def exec (i : Instr) (s : State) : Host.Outcome State Fault Refusal :=
  match i with
  | .nop => Sys2Proof.Machine.execNop s
  | .add g t sat d a b => Sys2Proof.Machine.execAdd g t sat d a b s
  | .sub g t sat d a b => Sys2Proof.Machine.execSub g t sat d a b s
  | .mul g t sat d a b => Sys2Proof.Machine.execMul g t sat d a b s
  | .mulh g t d a b => Sys2Proof.Machine.execMulh g t d a b s
  | .div g t d a b => Sys2Proof.Machine.execDiv g t d a b s
  | .rem g t d a b => Sys2Proof.Machine.execRem g t d a b s
  | .and g t d a b => Sys2Proof.Machine.execAnd g t d a b s
  | .or g t d a b => Sys2Proof.Machine.execOr g t d a b s
  | .xor g t d a b => Sys2Proof.Machine.execXor g t d a b s
  | .andn g t d a b => Sys2Proof.Machine.execAndn g t d a b s
  | .shl g t d a b => Sys2Proof.Machine.execShl g t d a b s
  | .shr g t d a b => Sys2Proof.Machine.execShr g t d a b s
  | .sha g t d a b => Sys2Proof.Machine.execSha g t d a b s
  | .rot g t d a b => Sys2Proof.Machine.execRot g t d a b s
  | .min g t d a b => Sys2Proof.Machine.execMin g t d a b s
  | .max g t d a b => Sys2Proof.Machine.execMax g t d a b s
  | .cmp g t cc d a b => Sys2Proof.Machine.execCmp g t cc d a b s
  | .sel g d a b c => Sys2Proof.Machine.execSel g d a b c s
  | .clz g t d a => Sys2Proof.Machine.execClz g t d a s
  | .ctz g t d a => Sys2Proof.Machine.execCtz g t d a s
  | .popc g t d a => Sys2Proof.Machine.execPopc g t d a s
  | .brev g t d a => Sys2Proof.Machine.execBrev g t d a s
  | .ext g t d a x => Sys2Proof.Machine.execExt g t d a x s
  | .ins g t d a b pos len => Sys2Proof.Machine.execIns g t d a b pos len s
  | .addi g t d a imm => Sys2Proof.Machine.execAddi g t d a imm s
  | .movi g t d imm => Sys2Proof.Machine.execMovi g t d imm s
  | .movh g d a imm => Sys2Proof.Machine.execMovh g d a imm s
  | .lea g d m => Sys2Proof.Machine.execLea g d m s
  | .mov g d a => Sys2Proof.Machine.execMov g d a s
  | .plog g fn d a b => Sys2Proof.Machine.execPlog g fn d a b s
  | .chk g t a b c => Sys2Proof.Machine.execChk g t a b c s
  | .br g tg => Sys2Proof.Machine.execBr g tg s
  | .brx g a => Sys2Proof.Machine.execBrx g a s
  | .call g tg => Sys2Proof.Machine.execCall g tg s
  | .callx g a => Sys2Proof.Machine.execCallx g a s
  | .ret g => Sys2Proof.Machine.execRet g s
  | .loop g a tg => Sys2Proof.Machine.execLoop g a tg s
  | .yield g => Sys2Proof.Machine.execYield g s
  | .follow g dir a => Sys2Proof.Machine.execFollow g dir a s
  | .detach g => Sys2Proof.Machine.execDetach g s
  | .lead g a => Sys2Proof.Machine.execLead g a s
  | .ld g t d m => Sys2Proof.Machine.execLd g t d m s
  | .st g t d m => Sys2Proof.Machine.execSt g t d m s
  | .ldv g d m str => Sys2Proof.Machine.execLdv g d m str s
  | .stv g d m str => Sys2Proof.Machine.execStv g d m str s
  | .ldl g t d m => Sys2Proof.Machine.execLdl g t d m s
  | .pref g slice m => Sys2Proof.Machine.execPref g slice m s
  | .wbl g inv m => Sys2Proof.Machine.execWbl g inv m s
  | .disc g clear c m => Sys2Proof.Machine.execDisc g clear c m s
  | .xlat g kind d m => Sys2Proof.Machine.execXlat g kind d m s
  | .amo g t fn d c m => Sys2Proof.Machine.execAmo g t fn d c m s
  | .cas g t d c m => Sys2Proof.Machine.execCas g t d c m s
  | .acc g t exact d m => Sys2Proof.Machine.execAcc g t exact d m s
  | .accv g t exact d m => Sys2Proof.Machine.execAccv g t exact d m s
  | .rflush g r => Sys2Proof.Machine.execRflush g r s
  | .rstat g d => Sys2Proof.Machine.execRstat g d s
  | .xrd g d m => Sys2Proof.Machine.execXrd g d m s
  | .xclr g c m => Sys2Proof.Machine.execXclr g c m s
  | .fld g d c m => Sys2Proof.Machine.execFld g d c m s
  | .fst g d m => Sys2Proof.Machine.execFst g d m s
  | .frst g m => Sys2Proof.Machine.execFrst g m s
  | .bar g scope => Sys2Proof.Machine.execBar g scope s
  | .sstep g => Sys2Proof.Machine.execSstep g s
  | .spawn g m => Sys2Proof.Machine.execSpawn g m s
  | .done g => Sys2Proof.Machine.execDone g s
  | .join g d m => Sys2Proof.Machine.execJoin g d m s
  | .qput g a b lim => Sys2Proof.Machine.execQput g a b lim s
  | .qget g d a lim => Sys2Proof.Machine.execQget g d a lim s
  | .waite g t cc d a b lim => Sys2Proof.Machine.execWaite g t cc d a b lim s
  | .fence g r => Sys2Proof.Machine.execFence g r s
  | .launch g d c m => Sys2Proof.Machine.execLaunch g d c m s
  | .gtime g d => Sys2Proof.Machine.execGtime g d s
  | .vshape g src => Sys2Proof.Machine.execVshape g src s
  | .vrep g count span stride => Sys2Proof.Machine.execVrep g count span stride s
  | .vmov g d a => Sys2Proof.Machine.execVmov g d a s
  | .vbcast g t d a b => Sys2Proof.Machine.execVbcast g t d a b s
  | .vext g t d a b => Sys2Proof.Machine.execVext g t d a b s
  | .vins g t d a b => Sys2Proof.Machine.execVins g t d a b s
  | .vadd g t rc sat d a b => Sys2Proof.Machine.execVadd g t rc sat d a b s
  | .vsub g t rc sat d a b => Sys2Proof.Machine.execVsub g t rc sat d a b s
  | .vmul g t rc sat d a b => Sys2Proof.Machine.execVmul g t rc sat d a b s
  | .vfma g t rc sat d a b c => Sys2Proof.Machine.execVfma g t rc sat d a b c s
  | .vfms g t rc sat d a b c => Sys2Proof.Machine.execVfms g t rc sat d a b c s
  | .vfnma g t rc sat d a b c => Sys2Proof.Machine.execVfnma g t rc sat d a b c s
  | .vdiv g t rc d a b => Sys2Proof.Machine.execVdiv g t rc d a b s
  | .vsqrt g t rc d a => Sys2Proof.Machine.execVsqrt g t rc d a s
  | .vmin g t d a b => Sys2Proof.Machine.execVmin g t d a b s
  | .vmax g t d a b => Sys2Proof.Machine.execVmax g t d a b s
  | .vabs g t sat d a => Sys2Proof.Machine.execVabs g t sat d a s
  | .vneg g t sat d a => Sys2Proof.Machine.execVneg g t sat d a s
  | .vcmp g t cc tot d a b => Sys2Proof.Machine.execVcmp g t cc tot d a b s
  | .vsel g t d a b c => Sys2Proof.Machine.execVsel g t d a b c s
  | .vand g t d a b => Sys2Proof.Machine.execVand g t d a b s
  | .vor g t d a b => Sys2Proof.Machine.execVor g t d a b s
  | .vxor g t d a b => Sys2Proof.Machine.execVxor g t d a b s
  | .vshl g t d a b => Sys2Proof.Machine.execVshl g t d a b s
  | .vshr g t d a b => Sys2Proof.Machine.execVshr g t d a b s
  | .vsha g t d a b => Sys2Proof.Machine.execVsha g t d a b s
  | .vcvt g t rc sat d a src => Sys2Proof.Machine.execVcvt g t rc sat d a src s
  | .vpack g d a src => Sys2Proof.Machine.execVpack g d a src s
  | .vunpk g t rc d a => Sys2Proof.Machine.execVunpk g t rc d a s
  | .vred g t rc sat d a fn => Sys2Proof.Machine.execVred g t rc sat d a fn s
  | .vscan g t rc sat d a fn => Sys2Proof.Machine.execVscan g t rc sat d a fn s
  | .vperm g t d a b => Sys2Proof.Machine.execVperm g t d a b s
  | .vslide g t d a b c => Sys2Proof.Machine.execVslide g t d a b c s
  | .vgath g t sh d a b => Sys2Proof.Machine.execVgath g t sh d a b s
  | .vscat g t sh d a b => Sys2Proof.Machine.execVscat g t sh d a b s
  | .vsf g t rc d a fn => Sys2Proof.Machine.execVsf g t rc d a fn s
  | .vmacw g t rc sat d a b => Sys2Proof.Machine.execVmacw g t rc sat d a b s
  | .vaddw g t rc sat d a b => Sys2Proof.Machine.execVaddw g t rc sat d a b s
  | .vclass g t d a => Sys2Proof.Machine.execVclass g t d a s
  | .vround g t rc exact d a => Sys2Proof.Machine.execVround g t rc exact d a s
  | .vtrn g t d a => Sys2Proof.Machine.execVtrn g t d a s
  | .vdot g t rc d a b c => Sys2Proof.Machine.execVdot g t rc d a b c s
  | .mclaim g => Sys2Proof.Machine.execMclaim g s
  | .mrls g => Sys2Proof.Machine.execMrls g s
  | .tld g tr d a b c => Sys2Proof.Machine.execTld g tr d a b c s
  | .tst g tr d a b c => Sys2Proof.Machine.execTst g tr d a b c s
  | .tzero g d => Sys2Proof.Machine.execTzero g d s
  | .tmov g d a => Sys2Proof.Machine.execTmov g d a s
  | .tcvt g t rc d a c => Sys2Proof.Machine.execTcvt g t rc d a c s
  | .mma g t rc d a b => Sys2Proof.Machine.execMma g t rc d a b s
  | .gmma g t rc d a b grp => Sys2Proof.Machine.execGmma g t rc d a b grp s
  | .mmas g t rc d a b => Sys2Proof.Machine.execMmas g t rc d a b s
  | .azero g d => Sys2Proof.Machine.execAzero g d s
  | .adrain g t fn d a b c scale brow rc => Sys2Proof.Machine.execAdrain g t fn d a b c scale brow rc s
  | .astat g d a => Sys2Proof.Machine.execAstat g d a s
  | .aclr g d => Sys2Proof.Machine.execAclr g d s
  | .bcmp g t pr d a b m n nan => Sys2Proof.Machine.execBcmp g t pr d a b m n nan s
  | .bpopr g d a => Sys2Proof.Machine.execBpopr g d a s
  | .bpopc g d a => Sys2Proof.Machine.execBpopc g d a s
  | .bfirst g d a => Sys2Proof.Machine.execBfirst g d a s
  | .bclos g refl d a => Sys2Proof.Machine.execBclos g refl d a s
  | .bcomp g d a b => Sys2Proof.Machine.execBcomp g d a b s
  | .btrn g d a => Sys2Proof.Machine.execBtrn g d a s
  | .blog g fn d a b => Sys2Proof.Machine.execBlog g fn d a b s
  | .bld g d m => Sys2Proof.Machine.execBld g d m s
  | .bst g d m => Sys2Proof.Machine.execBst g d m s
  | .bzero g d => Sys2Proof.Machine.execBzero g d s
  | .beye g d => Sys2Proof.Machine.execBeye g d s
  | .phase g scope => Sys2Proof.Machine.execPhase g scope s
  | .xmit g d a stamp => Sys2Proof.Machine.execXmit g d a stamp s
  | .xrcv g d a stamp count => Sys2Proof.Machine.execXrcv g d a stamp count s
  | .xsel g d a stamp count => Sys2Proof.Machine.execXsel g d a stamp count s
  | .xidle g stamp count => Sys2Proof.Machine.execXidle g stamp count s
  | .pend g => Sys2Proof.Machine.execPend g s
  | .capp g d a b nsb => Sys2Proof.Machine.execCapp g d a b nsb s
  | .cwait g a b lim => Sys2Proof.Machine.execCwait g a b lim s
  | .cseq g d a => Sys2Proof.Machine.execCseq g d a s
  | .cfence g mask => Sys2Proof.Machine.execCfence g mask s
  | .cstat g clear d a => Sys2Proof.Machine.execCstat g clear d a s
  | .tdef g c5 quiet d c m => Sys2Proof.Machine.execTdef g c5 quiet d c m s
  | .tqry g fn d a => Sys2Proof.Machine.execTqry g fn d a s
  | .pissue g c5 quiet d c m => Sys2Proof.Machine.execPissue g c5 quiet d c m s
  | .predeem g c5 ntr quiet d m => Sys2Proof.Machine.execPredeem g c5 ntr quiet d m s
  | .pexpire g c5 quiet d m => Sys2Proof.Machine.execPexpire g c5 quiet d m s
  | .pstat g d m => Sys2Proof.Machine.execPstat g d m s
  | .trap g code => Sys2Proof.Machine.execTrap g code s
  | .rft g => Sys2Proof.Machine.execRft g s
  | .mfs g d num => Sys2Proof.Machine.execMfs g d num s
  | .mts g a num => Sys2Proof.Machine.execMts g a num s
  | .rdring g dw d a => Sys2Proof.Machine.execRdring g dw d a s
  | .snap g => Sys2Proof.Machine.execSnap g s
  | .xinv g all m => Sys2Proof.Machine.execXinv g all m s
  | .seed g a => Sys2Proof.Machine.execSeed g a s
  | .halt g => Sys2Proof.Machine.execHalt g s
  | .dbrk g code => Sys2Proof.Machine.execDbrk g code s
  | .save g m => Sys2Proof.Machine.execSave g m s
  | .gswitch g fn d a b => Sys2Proof.Machine.execGswitch g fn d a b s
  | .pcnt g d ctr clear => Sys2Proof.Machine.execPcnt g d ctr clear s
  | .controlRegisterWrite pa v => Sys2Proof.Machine.execControlRegisterWrite pa v s
  | .einjArm pkg die v => Sys2Proof.Machine.execEinjArm pkg die v s
  | .quantumExpiry k => Sys2Proof.Machine.execQuantumExpiry k s
  | .remoteAnswer k n => Sys2Proof.Machine.execRemoteAnswer k n s
  | .writeBack line => Sys2Proof.Machine.execWriteBack line s
  | .accumulateArrival n => Sys2Proof.Machine.execAccumulateArrival n s
  | .accumulateWindowEnd slice => Sys2Proof.Machine.execAccumulateWindowEnd slice s
  | .refusalReturn k n => Sys2Proof.Machine.execRefusalReturn k n s
  | .insistentAck k n => Sys2Proof.Machine.execInsistentAck k n s
  | .residualAgeExpiry k => Sys2Proof.Machine.execResidualAgeExpiry k s
  | .barrierComplete k scope => Sys2Proof.Machine.execBarrierComplete k scope s
  | .phaseBarrierComplete k scope => Sys2Proof.Machine.execPhaseBarrierComplete k scope s
  | .pccLimit k => Sys2Proof.Machine.execPccLimit k s
  | .taskPop k c => Sys2Proof.Machine.execTaskPop k c s
  | .taskAging gang queue prio => Sys2Proof.Machine.execTaskAging gang queue prio s
  | .queueSlotResume k c => Sys2Proof.Machine.execQueueSlotResume k c s
  | .waitLimitExpiry k c => Sys2Proof.Machine.execWaitLimitExpiry k c s
  | .waiteReport k c => Sys2Proof.Machine.execWaiteReport k c s
  | .queueRetry k c => Sys2Proof.Machine.execQueueRetry k c s
  | .claimHandover k => Sys2Proof.Machine.execClaimHandover k s
  | .followerMarker k => Sys2Proof.Machine.execFollowerMarker k s
  | .forwardedGroup k => Sys2Proof.Machine.execForwardedGroup k s
  | .vrepPass k c => Sys2Proof.Machine.execVrepPass k c s
  | .dispatchedComplete k tseq => Sys2Proof.Machine.execDispatchedComplete k tseq s
  | .arrayFormStart k => Sys2Proof.Machine.execArrayFormStart k s
  | .gmmaJoin k => Sys2Proof.Machine.execGmmaJoin k s
  | .gmmaJoinTimeout k => Sys2Proof.Machine.execGmmaJoinTimeout k s
  | .impreciseFaultDelivery k c => Sys2Proof.Machine.execImpreciseFaultDelivery k c s
  | .engineErrorDelivery k c => Sys2Proof.Machine.execEngineErrorDelivery k c s
  | .commandBegin k ch => Sys2Proof.Machine.execCommandBegin k ch s
  | .chainFenceRelease k ch => Sys2Proof.Machine.execChainFenceRelease k ch s
  | .copy k ch => Sys2Proof.Machine.execCopy k ch s
  | .copyt k ch => Sys2Proof.Machine.execCopyt k ch s
  | .gath k ch => Sys2Proof.Machine.execGath k ch s
  | .scat k ch => Sys2Proof.Machine.execScat k ch s
  | .fill k ch => Sys2Proof.Machine.execFill k ch s
  | .cmdSignal k ch => Sys2Proof.Machine.execCmdSignal k ch s
  | .stash k ch => Sys2Proof.Machine.execStash k ch s
  | .unstash k ch => Sys2Proof.Machine.execUnstash k ch s
  | .nmuSgd k ch => Sys2Proof.Machine.execNmuSgd k ch s
  | .nmuAdamw k ch => Sys2Proof.Machine.execNmuAdamw k ch s
  | .nmuScale k ch => Sys2Proof.Machine.execNmuScale k ch s
  | .collMatch id => Sys2Proof.Machine.execCollMatch id s
  | .collAg id => Sys2Proof.Machine.execCollAg id s
  | .collShardArrival k q => Sys2Proof.Machine.execCollShardArrival k q s
  | .collRs id => Sys2Proof.Machine.execCollRs id s
  | .collAr id => Sys2Proof.Machine.execCollAr id s
  | .collBc id => Sys2Proof.Machine.execCollBc id s
  | .collXor id => Sys2Proof.Machine.execCollXor id s
  | .tensorDefine k ch => Sys2Proof.Machine.execTensorDefine k ch s
  | .promiseIssue k ch => Sys2Proof.Machine.execPromiseIssue k ch s
  | .promiseRedeem k ch => Sys2Proof.Machine.execPromiseRedeem k ch s
  | .promiseExpire k ch => Sys2Proof.Machine.execPromiseExpire k ch s
  | .dieLoss pkg die => Sys2Proof.Machine.execDieLoss pkg die s
  | .rowFailure pkg die row => Sys2Proof.Machine.execRowFailure pkg die row s
  | .hbmChannelRetire pkg stack channel => Sys2Proof.Machine.execHbmChannelRetire pkg stack channel s
  | .correctedErrorThreshold pkg unit => Sys2Proof.Machine.execCorrectedErrorThreshold pkg unit s
  | .linkRetrain pkg link => Sys2Proof.Machine.execLinkRetrain pkg link s
  | .permitAudit pkg die mismatch => Sys2Proof.Machine.execPermitAudit pkg die mismatch s
  | .firmwareReplacement pkg unit image => Sys2Proof.Machine.execFirmwareReplacement pkg unit image s
  | .hbmRecalibration pkg stack channel => Sys2Proof.Machine.execHbmRecalibration pkg stack channel s
  | .boot pkg image sign => Sys2Proof.Machine.execBoot pkg image sign s
  | .seroanStateAccess gang k part dw write => Sys2Proof.Machine.execSeroanStateAccess gang k part dw write s
  | .seroanBreakpoint gang addr set => Sys2Proof.Machine.execSeroanBreakpoint gang addr set s
  | .acceptanceAnswer k n => Sys2Proof.Machine.execAcceptanceAnswer k n s
  | .xinvAcknowledged k c => Sys2Proof.Machine.execXinvAcknowledged k c s
  | .unassignedOpcode w => Sys2Proof.Machine.execUnassignedOpcode w s
  | .streamNop => Sys2Proof.Machine.execStreamNop s
  | .streamLaunch => Sys2Proof.Machine.execStreamLaunch s
  | .waits => Sys2Proof.Machine.execWaits s
  | .waitsSatisfied => Sys2Proof.Machine.execWaitsSatisfied s
  | .streamSignal => Sys2Proof.Machine.execStreamSignal s
  | .gstamp => Sys2Proof.Machine.execGstamp s
  | .csctlClr => Sys2Proof.Machine.execCsctlClr s
  | .launchAccept => Sys2Proof.Machine.execLaunchAccept s
  | .gangComplete => Sys2Proof.Machine.execGangComplete s
  | .superstepCommit => Sys2Proof.Machine.execSuperstepCommit s
  | .seedComplete => Sys2Proof.Machine.execSeedComplete s
  | .pairedCopyStart => Sys2Proof.Machine.execPairedCopyStart s
  | .pairedMessageCompare => Sys2Proof.Machine.execPairedMessageCompare s
  | .pairedMismatchTimeout => Sys2Proof.Machine.execPairedMismatchTimeout s
  | .wideUnitStart => Sys2Proof.Machine.execWideUnitStart s
  | .vsfQueueExit => Sys2Proof.Machine.execVsfQueueExit s
  | .gangSwitchStop => Sys2Proof.Machine.execGangSwitchStop s
  | .gangResume => Sys2Proof.Machine.execGangResume s
  | .stopTimeout => Sys2Proof.Machine.execStopTimeout s
  | .poisonConsumed => Sys2Proof.Machine.execPoisonConsumed s
  | .packageLoss => Sys2Proof.Machine.execPackageLoss s
  | .powerThermalLimit => Sys2Proof.Machine.execPowerThermalLimit s
  | .internalMachineCheck => Sys2Proof.Machine.execInternalMachineCheck s
  | .attestation => Sys2Proof.Machine.execAttestation s
  | .seroanAttach => Sys2Proof.Machine.execSeroanAttach s
  | .seroanResume => Sys2Proof.Machine.execSeroanResume s

end Sys2Proof.Machine
end

