-- ==== Sys2Proof/Machine/Place.lean ====
section
/-! DEFINITION. A state in which the next step fetches and runs one given instruction: what a launch of one core leaves, with the
instruction in slot 0 of the entry line (log 5). -/
namespace Sys2Proof.Machine

/-- Physical addresses of the level-0 table, the level-1 table and the 1 GiB page that holds the code, and the code's offset. -/
def placeRoot : Nat := 0x200000
def placeTable : Nat := 0x400000
def placePage : Nat := 0x40000000
def placeCode : Nat := 0x1000

/-- A line word whose parity fits the payload (R50), slot 0 open to branches, with the PH bit given. -/
def placeLine (w : Nat) (ph : Bool) : Nat :=
  let par := lineParity (BitVec.ofNat 512 w)
  w + (par * 2 ^ 16 + Bits.b2n ph * 2 ^ 8 + 1) * 2 ^ 480

/-- Whether a word is an instruction only in a line with PH = 1 (R60). -/
def placePh (w : Nat) : Bool := needsPhase (Fields.ofSlot (BitVec.ofNat 96 w))

/-- The gang of one core at supervisor level that runs the placed instruction. -/
def placeGang : Gang := { Gang.blank with
  id := 1, sup := true, levels := [0x105], cores := [0], split := 4, lperm := true, st := .running }

/-- A phase begun on core 0, with the placed line loaded (R270). -/
def placePhase (l : Nat) : Phase := ⟨1, 0, 0, [(BitVec.ofNat 64 placeCode, BitVec.ofNat 512 l)], [], [], [], [], [], [],
  [], [], 0, BitVec.ofNat 64 Topo.dmapReset, 0⟩

/-- A state with a word placed where the next step fetches: page tables that map the code, its line, the package
in its system map (R116), a gang of one core and its one live context at the line. -/
def place (s : State) (nbits w : Nat) : State :=
  let w := w % 2 ^ nbits % 2 ^ 96
  let ph := placePh w
  let l := placeLine w ph
  let m := s.mem.writeLE placeRoot 8 (placeTable + 1)
  let m := m.writeLE placeTable 8 (placePage + 0x3F)
  let m := m.writeLE (placePage + placeCode) 64 l
  let core := { Core.reset with
    gang := 1, split := 4, root := BitVec.ofNat 64 placeRoot, phase := if ph then some (placePhase l) else none }
  let ctx := { Ctx.reset with pc := BitVec.ofNat 64 placeCode, live := true }
  { ctrlSet (((s.setGang 1 placeGang).setCore 0 core).setCtx 0 ctx) (blockPa 0 .package 0x800) 0x1000 with mem := m, lastGang := 1 }

end Sys2Proof.Machine
end

