-- ==== Sys2Proof/Machine/Schedule.lean ====
section
/-! DEFINITION. The step that happens when the schedule turns to the units outside the cores: one that is enabled now, chosen in
rotation (MODEL'S OWN, log 3). What comes from outside the machine never happens here: it comes from the agenda. -/
namespace Sys2Proof.Machine

/-- A step of the unit it names. -/
def stepIf (b : Bool) (e : Instr) (subject : Nat := 0) : List Happening := if b then [⟨subject, e⟩] else []

/-- Every core of the unit of core k has a context whose wait passes a test; asked at the unit's first core only. -/
def unitWaits (s : State) (k : Nat) (scope : Nat) (p : Wait → Bool) : Bool :=
  let ks := gangUnit (s.getGang (s.getCore k).gang) scope k
  ks.headD k = k && ks.all (fun j => [0, 1, 2, 3].any (fun n => (s.getCtx (4 * j + n)).live && (s.getCtx (4 * j + n)).wait.any p))

/-- What the wait of a context lets happen. -/
def waitSteps (s : State) (k : Nat) (c : Fin 4) (w : Wait) : List Happening :=
  match w with
  | .slot => [⟨0, .queueSlotResume k c⟩]
  | .bar scope => stepIf (unitWaits s k scope.val (· == .bar scope)) (.barrierComplete k scope)
  | .phase scope _ =>
    stepIf (unitWaits s k scope.val (fun x => match x with
      | .phase sc _ => sc = scope
      | _ => false)) (.phaseBarrierComplete k scope)
  | .timed t limit due =>
    stepIf (limit.any (fun l => l ≤ (s.getGang (s.getCore k).gang).ran) && !hasHit t) (.waitLimitExpiry k c) ++
      (match t with
       | .word _ => stepIf (s.reports.any (fun r => r.key = 4 * k + c.val)) (.waiteReport k c)
       | .queue _ => stepIf (!due) (.queueRetry k c)
       | .chain _ => [])
  | _ => []

/-- What a context lets happen. -/
def ctxSteps (s : State) (k : Nat) (c : Fin 4) : List Happening :=
  let x := s.getCtx (4 * k + c.val)
  stepIf (mayPop s k c && (nextTask s k).isSome) (.taskPop k c) ++ stepIf (x.live && captureFull x) (.vrepPass k c) ++
    stepIf x.xinv (.xinvAcknowledged k c) ++ (if x.live then (x.wait.map (waitSteps s k c)).getD [] else [])

/-- What a chain lets happen. -/
def chainSteps (s : State) (k : Nat) (ch : Fin 8) : List Happening :=
  let c := s.getChain k ch
  match c.run with
  | none =>
    (match c.fifo with
     | [] => []
     | .fence m :: _ => stepIf ((chainsOf m).all (fun h => headFence (s.getChain k h) == some m)) (.chainFenceRelease k ch)
     | _ => [⟨0, .commandBegin k ch⟩])
  | some r =>
    match r.item with
    | .promise i .. =>
      if tensorHeld s k ch r then []
      else (match i with
       | .tdef .. => [⟨0, .tensorDefine k ch⟩]
       | .pissue .. => [⟨0, .promiseIssue k ch⟩]
       | .predeem .. => [⟨0, .promiseRedeem k ch⟩]
       | _ => [⟨0, .promiseExpire k ch⟩])
    | _ =>
      let id := collOf s k r
      let coll (e : Instr) : List Happening := if (mget? id s.colls).isSome then [⟨0, e⟩] else stepIf (collReady s id) (.collMatch id)
      match dw r.body 0 % 256 with
      | 1 => [⟨0, .copy k ch⟩]
      | 2 => [⟨0, .copyt k ch⟩]
      | 3 => [⟨0, .gath k ch⟩]
      | 4 => [⟨0, .scat k ch⟩]
      | 5 => [⟨0, .fill k ch⟩]
      | 6 => [⟨0, .cmdSignal k ch⟩]
      | 7 => [⟨0, .stash k ch⟩]
      | 8 => [⟨0, .unstash k ch⟩]
      | 0x10 => stepIf (!tensorHeld s k ch r) (.nmuSgd k ch)
      | 0x11 => stepIf (!tensorHeld s k ch r) (.nmuAdamw k ch)
      | 0x12 => stepIf (!tensorHeld s k ch r) (.nmuScale k ch)
      | 0x20 =>
        (match mget? id s.colls with
         | none => stepIf (collReady s id) (.collMatch id)
         | some c =>
           match c.find? (fun m => m.core = k) with
           | none => []
           | some m =>
             if m.done then []
             else if m.arrived.isEmpty then [⟨0, .collAg id⟩]
             else
               match (List.range c.length).find? (fun q => !m.arrived.contains q && !arriving s k q) with
               | some q => [⟨0, .collShardArrival k q⟩]
               | none => [])
      | 0x21 => coll (.collRs id)
      | 0x22 => coll (.collAr id)
      | 0x23 => coll (.collBc id)
      | 0x24 => coll (.collXor id)
      | _ => []

/-- What the buffer of a following core lets happen (R101). -/
def followSteps (s : State) (k : Nat) : List Happening :=
  match followerOf s k with
  | none => []
  | some n =>
    match (s.getCore k).buffer with
    | [] => stepIf (streamLost s (4 * k + n)) (.followerMarker k)
    | .group .. :: _ => stepIf (lfsMode (s.getCtx (4 * k + n)) ≠ 3) (.followerMarker k)
    | _ => [⟨0, .followerMarker k⟩]

/-- R247: a GMMA has met others that differ from it, or has all its partners. -/
def gmmaMeets (s : State) (k : Nat) (f : ArrayForm) : Bool :=
  let forms := (gmmaGroup k (gmmaSpan s k f.n 4 (gmmaKey f).1)).map (nthGmma s f.n)
  forms.any (fun x => x.any (fun h => gmmaKey h ≠ gmmaKey f)) || forms.all (·.isSome)

/-- What a core lets happen. -/
def coreSteps (s : State) (k : Nat) : List Happening :=
  let c := s.getCore k
  let g := s.getGang c.gang
  if g.st ≠ .running then []
  else
    ([0, 1, 2, 3] : List (Fin 4)).flatMap (ctxSteps s k) ++ ([0, 1, 2, 3, 4, 5, 6, 7] : List (Fin 8)).flatMap (chainSteps s k) ++
      followSteps s k ++ stepIf (!c.answers.isEmpty) (.remoteAnswer k 0) ++
      stepIf (c.residual.any (fun e => e.sending.isNone && e.born + 65536 ≤ s.now)) (.residualAgeExpiry k) ++
      stepIf (c.releasing && !matrixBusy c) (.claimHandover k) ++
      stepIf (!c.arrayQ.isEmpty && (headGmma c).isNone) (.arrayFormStart k) ++
      (match headGmma c with
       | none => []
       | some f =>
         stepIf (gmmaMeets s k f) (.gmmaJoin k) ++ stepIf ((gmmaMissed s k f).isSome || (g.wlimit ≠ 0 && f.since + g.wlimit ≤ g.ran)) (.gmmaJoinTimeout k)) ++
      stepIf (c.phase.isNone && (readyForm s k none).isSome) .wideUnitStart (k / 4) ++
      (c.ring.flatMap (fun e => stepIf (e.2.state = 1 && e.2.stage = 1) (.dispatchedComplete k e.2.tseq)))

/-- What an accumulate under way lets happen. -/
def accSteps (s : State) (m : AccMsg × Nat) : List Happening :=
  let k := m.1.src / 4
  match m.1.st with
  | .sent => [⟨0, .accumulateArrival m.2⟩]
  | .accepted _ => [⟨0, if m.1.insistent then .insistentAck k m.2 else .acceptanceAnswer k m.2⟩]
  | .refused => stepIf (runsOn s k && residualTakes s k m.1) (.refusalReturn k m.2)

/-- What a paired task lets happen (R183). -/
def pairSteps (s : State) (p : Nat × Pair) : List Happening :=
  stepIf p.2.second.isNone .pairedCopyStart p.1 ++
    stepIf (p.2.msg1.isSome && p.2.msg2.isSome && !p.2.agreed) .pairedMessageCompare p.1 ++
    stepIf ([p.2.msg1, p.2.msg2].any (fun m => m.any (fun a => a.time + 65536 ≤ s.now))) .pairedMismatchTimeout p.1

/-- What a gang lets happen. -/
def gangSteps (s : State) (e : Nat × Gang) : List Happening :=
  let g := e.2
  let every (p : Wait → Bool) : Bool :=
    !g.cores.isEmpty && g.cores.all (fun k => [0, 1, 2, 3].any (fun n => (s.getCtx (4 * k + n)).live && (s.getCtx (4 * k + n)).wait.any p))
  match g.st with
  | .running =>
    stepIf g.consumed.isSome .poisonConsumed e.1 ++ stepIf (!gangBusy s e.1) .gangComplete e.1 ++
      stepIf (mayCommit s e.1) .superstepCommit e.1 ++
      stepIf (every (fun w => match w with
        | .seed _ => true
        | _ => false)) .seedComplete e.1 ++
      stepIf (g.outAt.any (· ≤ s.now) && !gangInPhase s e.1 && !seedRunning s g && canStop s e.1) .gangSwitchStop e.1 ++ stepIf (g.outAt.any (fun t => t + 2 ^ 20 ≤ s.now)) .stopTimeout e.1 ++
      g.queues.flatMap (fun q => ([0, 1, 2] : List (Fin 4)).flatMap (fun p => match fifoAt q.2 p.val with
        | x :: _ => stepIf (x.time + 65536 ≤ s.now) (.taskAging e.1 q.1 p)
        | [] => [])) ++
      (g.cores.map (· / 512)).eraseDups.flatMap (fun d =>
        stepIf (auditDue s (d / 8) (d % 8)) (.permitAudit (d / 8) ⟨d % 8, Nat.mod_lt _ (by decide)⟩ false))
  | .committing => [⟨e.1, .superstepCommit⟩]
  | .switchedOut => stepIf (g.inAt.any (· ≤ s.now)) .gangResume e.1
  | _ => []

/-- What a front end lets happen (R169, R170), given the address of a listed control register. -/
def frontSteps (s : State) (pa : Nat) : List Happening :=
  match blockOf (paOff pa) with
  | (.front n, 0x20) =>
    let id := paPkg pa * 128 + n
    if !feReady s id then []
    else
      match feKind s id with
      | 1 => [⟨id, .streamLaunch⟩]
      | 2 => [⟨id, if Bits.bit (feReg s id 0x28) 1 then .waitsSatisfied else .waits⟩]
      | 3 => [⟨id, .streamSignal⟩]
      | 4 => [⟨id, .gstamp⟩]
      | _ => [⟨id, .streamNop⟩]
  | _ => []

/-- Every step of the units that is enabled now. -/
def enabledSteps (s : State) : List Happening :=
  s.gangs.flatMap (gangSteps s) ++ (turnOrder s).flatMap (coreSteps s) ++ s.accs.zipIdx.flatMap (accSteps s) ++
    s.quads.flatMap (fun q => stepIf (!q.2.vsfq.isEmpty) .vsfQueueExit q.1) ++
    s.slices.flatMap (fun x => stepIf (!x.2.counts.isEmpty && x.2.start + x.2.len ≤ s.now) (.accumulateWindowEnd x.1)) ++
    s.pairs.flatMap (pairSteps s) ++ s.ctrl.flatMap (fun r => frontSteps s r.1) ++
    s.launches.zipIdx.flatMap (fun l => stepIf (launchTurn s l.2 l.1) .launchAccept l.2)

/-- The enabled step whose turn it is. -/
def pickStep (s : State) : Option Happening :=
  let l := enabledSteps s
  l[s.now / 8 % l.length]?

end Sys2Proof.Machine
end

