-- ==== Sys2Proof/Machine/Step.lean ====
section
/-! DEFINITION. One step of the machine, and a state in which the next step runs a given instruction. -/
namespace Sys2Proof.Machine

/-- One step: what the agenda, the cores in turn and the enabled steps of the other units give. -/
def step (s : State) : Host.Outcome State Fault Refusal := stepWith exec pickStep s

/-- The state with the instruction `w` of `nbits` bits stored where the next step fetches. -/
def State.withFetchWord (s : State) (nbits w : Nat) : State := place s nbits w

end Sys2Proof.Machine
end

