-- ==== Sys2Proof/Safety.lean ====
section
/-! DEFINITION. What counts as a safe run, and the terms in which claims are stated. -/
namespace Sys2Proof.Num

/-- R73: whether a value is a finite number, and that number. -/
def Val.isFin : Val → Bool
  | .fin _ _ _ => true
  | _ => false
def Val.rat : Val → ℚ
  | .fin n m e => (if n then -1 else 1) * m * (2 : ℚ) ^ e
  | _ => 0

/-- R74: p is the pattern of a rational number rounded once, to nearest even, into a format. -/
def rnTo (f : FFmt) (q : ℚ) (p : Nat) : Prop := ∃ n m e, (Val.fin n m e).rat = q ∧ p = (pack f .rne (.fin n m e)).1

end Sys2Proof.Num

namespace Sys2Proof.Machine

/-- The states that runs from a state reach. -/
inductive Reaches (s : State) : State → Prop where
  | here : Reaches s s
  | next {t u : State} : Reaches s t → step t = .next u → Reaches s u

/-- A safe run: no state it reaches stops the machine in a fault or a refusal. -/
def SafeFrom (s : State) : Prop := ∀ t, Reaches s t → ∃ u, step t = .next u

/-- The context runs an instruction under its guard, outside a communication phase. -/
def Runs (s : State) (g : Guard) : Prop := s.guard g = true ∧ s.inPhase = false

/-- Every byte of memory reads as before. -/
def SameMemory (s t : State) : Prop := ∀ a, t.mem.read a = s.mem.read a

/-- Every byte of memory outside the n bytes at address pa reads as before. -/
def SameMemoryBut (s t : State) (pa n : Nat) : Prop := ∀ a, a < pa ∨ pa + n ≤ a → t.mem.read a = s.mem.read a

/-- The parts of the state outside the contexts, the cores, the group being issued and the counter of free values are as before:
time, memory and its lines, control space, quads, slices, gangs, packages, and what is under way between them. -/
def SameOutside (s t : State) : Prop :=
  t = { s with ctxs := t.ctxs, cores := t.cores, grp := t.grp, free := t.free }

/-- Every context but the acting one, and every core, is as before. -/
def SameOthers (s t : State) : Prop := (∀ k, k ≠ s.cur → t.getCtx k = s.getCtx k) ∧ t.cores = s.cores

/-- The trap registers, the vector base, the special registers of a context, and its v registers are as before. -/
def SameSpecial (c d : Ctx) : Prop :=
  d = { c with
    s := d.s, full := d.full, p := d.p, asr := d.asr, pc := d.pc
    quantum := d.quantum, wait := d.wait, discards := d.discards, answers := d.answers, errors := d.errors, refusals := d.refusals
    iss := d.iss, rref := d.rref, capture := d.capture, lineBuf := d.lineBuf, stepBrk := d.stepBrk
    walking := d.walking, behind := d.behind, sent := d.sent, pair := d.pair, xinv := d.xinv }

/-- R61, R95: the value of a 64-bit source in an integer type: its low N bits, signed for i types and unsigned for n types. -/
def tyVal (t : Ty) (w : Word) : Int := if t.signed then (w.setWidth t.bits).toInt else (w.setWidth t.bits).toNat

/-- R95: what a form of an integer type writes for an exact result: its low N bits, extended to 64 by the type. -/
def tyPut (t : Ty) (v : Int) : Word :=
  if t.signed then (BitVec.ofInt t.bits v).signExtend 64 else (BitVec.ofInt t.bits v).setWidth 64

/-- The state after a destination outside a phase takes a value (R60, R93, R111): an s register, or a predicate that takes whether
the value is nonzero; nothing else is written. -/
def State.written (s : State) (d : Opnd) (v : Word) : State :=
  match d with
  | .s n => s.putS n v
  | .p n => s.putP n (v ≠ 0)
  | _ => s

/-- The same, with flags ORed into ASR (R79, R95). -/
def State.result (s : State) (d : Opnd) (v : Word) (fl : Num.Flg) : State := (s.written d v).flag fl

/-- R108: a condition on two integers. -/
def intCond (cc : Cond) (x y : Int) : Bool :=
  match cc with
  | .eq => x = y
  | .ne => x ≠ y
  | .lt => x < y
  | .le => x ≤ y
  | .gt => y < x
  | .ge => y ≤ x

/-- The access of `n` bytes at `ea` by the acting context, which is no paired copy, has passed every check (R123, R158, R324, R348, R357)
and its target's access table lets it in (R122): r holds the physical address, and the state with its translation cached. -/
def Granted (s : State) (i : Instr) (ea : Word) (align n : Nat) (m : Mode) (word : Bool) (r : Grant) : Prop :=
  grant s i ea align n m word = .ok r ∧ r.refused = false ∧ r.s.ctx.pair = none

/-- The acting context's group makes all its accesses in this step, and has made none before it (R149, log 3). -/
def Whole (s : State) : Prop := s.ctx.sent = [] ∧ s.steps = none

/-- R118: the addresses of the entries that a walk of a table reads. -/
def walkReads (m : Memory) (va : Nat) : Nat → Nat → Nat → List Nat
  | 0, _, _ => []
  | fuel + 1, level, base =>
    let a := base + 8 * levelIndex va level
    a :: (match tableEntry level (m.readLE a 8) with
      | some (some next) => walkReads m va fuel (level + 1) next
      | _ => [])

/-- R357, R358: a read of a line at its home finds no poison, and none is armed for a line of its stack. -/
def Sound (s : State) (pa : Nat) : Prop :=
  poisoned s pa = false ∧ (ctrlRaw s (blockPa (paPkg pa) (.base (Topo.stackOf (paOff pa))) 0xA00)).getLsbD 0 = false

/-- R119, R127, R151, R158, R357, R358: the walker of core k reads the entry at an address as memory holds it: it is aligned and in memory, not poisoned
nor armed to be, in no command's destination, and no older copy of it is leased. -/
def WalkReadable (s : State) (k a : Nat) : Prop :=
  a % 8 = 0 ∧ paReg a ≠ 2 ∧ Sound s a ∧ overlapping (s.getCore k) a 8 = none ∧
  ∀ x, mget? (a / 64) (s.getCore k).leases = some x → x.value = lineVal s (a / 64)

/-- The little-endian number that n bytes at a physical address hold. -/
def State.numAt (s : State) (pa n : Nat) : Nat := Bits.ofBytesLE (s.mem.bytes pa n)

/-- R198, R205: the acting context may dispatch a form: no capture is open, and the ring entry of the next TSEQ is free. -/
def DispatchReady (s : State) : Prop :=
  s.ctx.capture = none ∧ (s.core.entry (nextTseq s.core.tseq)).state = 0

/-- R205: the next TSEQ has been given to a form of the acting context, whose ring entry holds its word and is in the given state. -/
def Dispatched (s t : State) (i : Instr) (state : Nat) : Prop :=
  let q := nextTseq s.core.tseq
  t.core.tseq = q ∧ (t.core.entry q).insn = slotOf i ∧ (t.core.entry q).tseq = q ∧ (t.core.entry q).ctx = s.ctxNo ∧
  (t.core.entry q).state = state ∧ (t.core.entry q).pc = s.grp.first

/-- The v registers among the operands given. -/
def vOpnds (os : List Opnd) : List (Fin 32) := os.filterMap (fun o => match o with
  | .v r => some r
  | _ => none)

/-- R202, R210: the guard of a vector form on v registers, and the groups of v registers it names with their sizes, under a shape. -/
def vectorGroups (sh : Vec.Shape) (i : Instr) : Option (Guard × List (Fin 32 × Nat)) :=
  let r := sh.rows
  let whole (xs : List (Fin 32)) : List (Fin 32 × Nat) := xs.map (fun x => (x, r))
  match i with
  | .vmov g d a => some (g, whole [d, a])
  | .vbcast g _ d a _ => some (g, whole (d :: vOpnds [a]))
  | .vext g _ _ a _ => some (g, whole [a])
  | .vins g _ d _ _ => some (g, whole [d])
  | .vadd g _ _ _ d a b => some (g, whole (d :: a :: vOpnds [b]))
  | .vsub g _ _ _ d a b => some (g, whole (d :: a :: vOpnds [b]))
  | .vmul g _ _ _ d a b => some (g, whole (d :: a :: vOpnds [b]))
  | .vfma g _ _ _ d a b c => some (g, whole (d :: a :: vOpnds [b, c]))
  | .vfms g _ _ _ d a b c => some (g, whole (d :: a :: vOpnds [b, c]))
  | .vfnma g _ _ _ d a b c => some (g, whole (d :: a :: vOpnds [b, c]))
  | .vdiv g _ _ d a b => some (g, whole (d :: a :: vOpnds [b]))
  | .vsqrt g _ _ d a => some (g, whole [d, a])
  | .vmin g _ d a b => some (g, whole (d :: a :: vOpnds [b]))
  | .vmax g _ d a b => some (g, whole (d :: a :: vOpnds [b]))
  | .vabs g _ _ d a => some (g, whole [d, a])
  | .vneg g _ _ d a => some (g, whole [d, a])
  | .vcmp g _ _ _ d a b => some (g, whole (d :: a :: vOpnds [b]))
  | .vsel g _ d a b c => some (g, whole (d :: c :: vOpnds [a, b]))
  | .vand g _ d a b => some (g, whole (d :: a :: vOpnds [b]))
  | .vor g _ d a b => some (g, whole (d :: a :: vOpnds [b]))
  | .vxor g _ d a b => some (g, whole (d :: a :: vOpnds [b]))
  | .vshl g _ d a b => some (g, whole (d :: a :: vOpnds [b]))
  | .vshr g _ d a b => some (g, whole (d :: a :: vOpnds [b]))
  | .vsha g _ d a b => some (g, whole (d :: a :: vOpnds [b]))
  | .vcvt g _ _ _ d a _ => some (g, whole [d, a])
  | .vpack g d a src => if Vec.packShapeOk sh src.bits then some (g, whole [a] ++ [(d, 1)]) else none
  | .vunpk g t _ d a => if Vec.packShapeOk sh t.bits then some (g, whole [d] ++ [(a, 1)]) else none
  | .vred g _ _ _ d a _ => some (g, whole [a] ++ (vOpnds [d]).map (fun x => (x, 1)))
  | .vscan g _ _ _ d a _ => some (g, whole [d, a])
  | .vperm g _ d a b => some (g, whole [d, a, b])
  | .vslide g _ d a _ _ => some (g, whole [d, a])
  | .vsf g _ _ d a _ => some (g, whole [d, a])
  | .vmacw g _ _ _ d a b => some (g, whole (d :: a :: vOpnds [b]))
  | .vaddw g _ _ _ d a b => some (g, whole (d :: a :: vOpnds [b]))
  | .vclass g _ d a => some (g, whole [d, a])
  | .vround g _ _ _ d a => some (g, whole [d, a])
  | .vtrn g t d a => if sh.n t.bits ≤ 8 then some (g, whole [a] ++ [(d, sh.n t.bits)]) else none
  | .vdot g _ _ d a b c => some (g, whole [a, b] ++ ((d, 1) :: c.toList.map (fun x => (x, 1))))
  | _ => none

/-- A number or an s register: the integer sources of R61. -/
def intSrc (o : Opnd) : Bool :=
  match o with
  | .s _ | .imm _ => true
  | _ => false

/-- The physical address of an offset in the acting core's own scratchpad (R115, R117). -/
def State.padAt (s : State) (off : Nat) : Nat := mkPa s.pkg 1 (s.coreKey % 4096 * 2 ^ 18 + off)

/-- R116, R123, R158, R348: n bytes at an offset of the own scratchpad, aligned, that neither a command in flight nor a kept store touches. -/
def nearReady (s : State) (off align n : Nat) : Prop :=
  off % align = 0 ∧ off + n ≤ padSize s s.coreKey ∧ off + n ≤ 0x40000 ∧ s.core.scoreboard = [] ∧ s.gang.kept = [] ∧ s.pkg < 4096

/-- R242, R299: the entry of a TID stands in the own scratchpad and describes a tensor of an IEEE type at offset b0 there, whose block of nr
rows and nc columns from (r0, c0) lies in it. -/
def nearTensor (s : State) (tid : Word) (T : Tensor) (b0 r0 c0 nr nc : Nat) : Prop :=
  let b := (Ty.ofCode (BitVec.ofNat 4 T.ty)).bits / 8
  tid.toNat < 4096 ∧
  (∃ e0, nearOff (tensorAddr s.gang.tensors tid.toNat).toNat = some e0 ∧ nearReady s e0 32 32 ∧ T = Tensor.ofNat (s.numAt (s.padAt e0) 32)) ∧
  T.ty ∈ [8, 9, 10, 11] ∧ T.layout = false ∧ T.rows ≠ 0 ∧ T.cols ≠ 0 ∧ r0 + nr ≤ T.rows ∧ c0 + nc ≤ T.cols ∧
  nearOff T.base.toNat = some b0 ∧ b0 % b = 0 ∧ T.stride % b = 0 ∧
  nearReady s b0 b ((r0 + nr) * T.stride + T.cols * b)

/-- R202: the groups of v registers that a vector form writes, with their sizes. -/
def vecWrites (sh : Vec.Shape) (i : Instr) : List (Fin 32 × Nat) :=
  match i with
  | .vmov _ d _ | .vsqrt _ _ _ d _ | .vabs _ _ _ d _ | .vneg _ _ _ d _ | .vcvt _ _ _ _ d _ _ | .vscan _ _ _ _ d _ _ | .vperm _ _ d _ _ |
    .vslide _ _ d _ _ _ | .vsf _ _ _ d _ _ | .vclass _ _ d _ | .vround _ _ _ _ d _ | .vunpk _ _ _ d _ | .vbcast _ _ d _ _ |
    .vins _ _ d _ _ | .vadd _ _ _ _ d _ _ | .vsub _ _ _ _ d _ _ | .vmul _ _ _ _ d _ _ | .vfma _ _ _ _ d _ _ _ | .vfms _ _ _ _ d _ _ _ |
    .vfnma _ _ _ _ d _ _ _ | .vdiv _ _ _ d _ _ | .vmin _ _ d _ _ | .vmax _ _ d _ _ | .vcmp _ _ _ _ d _ _ | .vsel _ _ d _ _ _ |
    .vand _ _ d _ _ | .vor _ _ d _ _ | .vxor _ _ d _ _ | .vshl _ _ d _ _ | .vshr _ _ d _ _ | .vsha _ _ d _ _ | .vmacw _ _ _ _ d _ _ |
    .vaddw _ _ _ _ d _ _ => [(d, sh.rows)]
  | .vpack _ d _ _ | .vdot _ _ _ d _ _ _ => [(d, 1)]
  | .vred _ _ _ _ d _ _ => (vOpnds [d]).map (fun x => (x, 1))
  | .vtrn _ t d _ => [(d, sh.n t.bits)]
  | _ => []

/-- R234, R236: the acting context holds the claim, no form waits in the array queue, and a ring entry is free. -/
def ArrayReady (s : State) : Prop :=
  holdsClaim s = true ∧ s.core.arrayQ = [] ∧ (s.core.entry (nextTseq s.core.tseq)).state = 0

/-- A transfer of the acting context makes all its accesses in this step: it is no paired copy, the agenda sets no limit, and nothing is taken up
again (R183, log 3). -/
def Undivided (s : State) : Prop := s.ctx.pair = none ∧ s.steps = none ∧ s.script = none

/-- A piece of work with a number is done in one step from its beginning: the agenda sets no limit, and none of it has been done (log 3). -/
def Unbroken (s : State) (key : Nat) : Prop := s.steps = none ∧ mget? key s.scripts = none

/-- Bit (i, j) of a bit tile (R252). -/
def bitAt (x : BitTile) (i j : Nat) : Bool := x.getLsbD (64 * i + j)

/-- R306: a promise command of the acting context stands at the end of chain 4 or 5, and D holds its sequence number. -/
def AppendedPromise (s t : State) (i : Instr) (c5 : Bool) (d : Option (Fin 32)) (ea v : Word) : Prop :=
  let ch : Fin 8 := if c5 then 5 else 4
  let c := s.getChain s.coreKey ch
  (t.getChain s.coreKey ch).acnt = c.acnt + 1 ∧ (t.getChain s.coreKey ch).tail = ea ∧
  (∃ stamp, (t.getChain s.coreKey ch).fifo = c.fifo ++ [.promise i ea v s.gang.ssn (c.acnt + 1) s.ctxNo stamp]) ∧
  ∀ q, d = some q → q ≠ 0 → t.ctx.s[q] = BitVec.ofNat 64 (c.acnt + 1)

/-- R94: an s register takes a value at once, or is empty and the value is on its way as the core's last answer. -/
def Answered (t : State) (d : Fin 32) (v : Word) (remote : Bool) : Prop :=
  (remote = true → (d ≠ 0 → t.ctx.full.getLsbD d.val = false) ∧ t.core.answers.getLast? = some ⟨t.ctxNo, d, v, 0⟩) ∧
  (remote = false → d ≠ 0 → t.ctx.s[d] = v)

/-- R302, R303: every bit of two records agrees outside STATE, bits 319:256 (CSCALE, K, FLAGS) and NEXT. -/
def SameRecord (x y : Nat) : Prop := ∀ b, 2 ≤ b → (b < 256 ∨ 320 ≤ b) → (b < 384 ∨ 448 ≤ b) → y.testBit b = x.testBit b

/-- R302, R303: STATE, K, CSCALE, FLAGS and NEXT of a record. -/
def RecordIs (y state k cscale flags : Nat) (next : Word) : Prop :=
  y % 4 = state ∧ y / 2 ^ 288 % 2 ^ 16 = k ∧ y / 2 ^ 256 % 2 ^ 32 = cscale ∧ y / 2 ^ 304 % 2 ^ 16 = flags ∧ y / 2 ^ 384 % 2 ^ 64 = next.toNat

end Sys2Proof.Machine
end

