-- ==== Sys2Proof/Certificates/Slice0/Obligations.lean ====
section
/-! DEFINITION. The statements for the provers. A statement about the model's own choice says so and names the log entry. -/
open Sys2Proof Sys2Proof.Machine

/-! ### Encoding -/

/-- R58 to R70: the word of a well-formed instruction decodes, in a line of a communication phase and at supervisor level, to that
instruction, with every operand at every value. -/
def Obligations.DecodeEncode : Prop :=
  ∀ (i : Instr) (w : Slot), WellFormed i → encode i = some w → decode true true w = .ok i

/-- Words of the spec's worked examples (after R71, R250, R264) decode to the instructions written beside them. -/
def Obligations.DecodeWords : Prop :=
  decode false false 0x1A0006FFFFFF000000000003 = .ok (.movi ⟨false, 0⟩ .i64 (.s 6) 3) ∧
  decode false false 0x02000606A1FF000000000000 = .ok (.sub ⟨false, 0⟩ .i64 false (.s 6) (.s 6) (.imm 1)) ∧
  decode false false 0x11006106A0FF400000000000 = .ok (.cmp ⟨false, 0⟩ .i64 .gt 1 (.s 6) (.imm 0)) ∧
  decode false false 0x201FFFFFFFFF0FFFFFFFFFFA = .ok (.br ⟨false, 1⟩ ⟨-1, 2⟩) ∧
  decode false false 0xF80FFFFFFFFF000000000000 = .ok (.halt ⟨false, 0⟩) ∧
  decode false false 0xA20F42A0A0A0000000000000 = .ok (.tld ⟨false, 0⟩ false 2 (.imm 0) (.imm 0) (.imm 0)) ∧
  decode false false 0xA70B504243FF000000000000 = .ok (.mma ⟨false, 0⟩ .bf16 .asr 0 2 3) ∧
  decode false false 0xB009582020FF700000002104 = .ok (.bcmp ⟨false, 0⟩ .f32 .gti 0 0 0 4 4 .nlast)

/-- R67, R69: a slot whose major opcode is unassigned is the step that raises cause 0x01, and executing it takes that trap with the
slot's bits; the effect of UNASSIGNED_OPCODE is this trap. R69, R323: a supervisor form is refused with cause 0x0E below supervisor level. -/
def Obligations.DecodeRefusals : Prop :=
  (∀ (sup ph : Bool) (w : Slot) (s : State), assigned (Fields.ofSlot w).op = false →
      decode sup ph w = .ok (.unassignedOpcode w) ∧
      exec (.unassignedOpcode w) s = .next (takeTrap s
        ⟨0x01, w.extractLsb' 0 64, BitVec.ofNat 64 ((w.extractLsb' 64 32).toNat + s.grp.slot * 2 ^ 32), none⟩)) ∧
  (∀ (i : Instr) (w : Slot), WellFormed i → encode i = some w →
      (match i with
        | .xinv .. | .gswitch .. => True
        | .mfs _ _ n | .mts _ _ n => 0x800 ≤ n.toNat
        | _ => False) →
      decode false true w = .error .supervisor ∧ DecodeError.supervisor.cause = 0x0E)

/-! ### The step and reset -/

/-- R51, R53, R70, R94, R96: outside a phase, with nothing on the agenda, the running context of the first core in turn, or where that core
idles the next context in rotation, runs the instruction that its line decodes to; `enterLine`, `decode`, `shapeTrap`, `sMask` and `conclude` are
what the step adds around it: the line is fetched or held, the registers are full, and the group's end counts it and may choose another context.
Which core is first in turn, and that the other units come first in every eighth cycle, is the model's own schedule (log 3); that the rules name
no other order is log 8. -/
def Obligations.StepRunsDecoded : Prop :=
  ∀ (s : State) (k : Nat) (rest : List Nat) (s1 : State) (l : Line) (i : Instr),
    let s' := tick (groupIssues exec) { s with steps := none }
    let run := (s'.getCore k).running.val
    let idle := (s'.getCore k).idling
    let n := if idle then (run + 1) % 4 else run
    let s0 := if idle then switchTo s' k n else s'
    let key := 4 * k + n
    let c := s0.getCtx key
    let at_ : State := { s0 with cur := key, grp := { Group.idle with first := c.pc, next := c.pc } }
    let j := c.pc.toNat % 8
    let w := slotAt l j
    s.agenda = [] → s'.now % 8 ≠ 0 → turnOrder s' = k :: rest → (s'.getCore k).phase = none →
    (idle = true → capturing (s'.getCtx (4 * k + run)) = false) →
    awake s0 key = true → captureFull c = false → pendingTrap at_ key = none → mget? key s0.halves = none → lfsMode c = 0 →
    enterLine at_ = .ok (s1, l) → firstSlot (Bits.fld (lineWord l) 7 5) j = true → pairAt (Bits.fld (lineWord l) 7 5) j = false →
    decode s1.sup false w = .ok i → s1.inPhase = false → shapeTrap { s1 with grp := { s1.grp with slot := j } } i = none →
    sMask (Fields.ofSlot (slotOf i)) &&& ~~~s1.ctx.full &&& ~~~1#32 = 0 → arrayHolds s1.core (s1.cur % 4) (Fields.ofSlot (slotOf i)) = false →
    s1.ctx.capture = none → atBreakpoint s1 c.pc [(j, i)] = false →
    let t : State := { s1.upd (fun x => { x with
        pc := nextAddr c.pc j, wait := none, stepBrk := if x.stepBrk = some c.pc then none else x.stepBrk }) with
      grp := { Group.idle with todo := [(j, i)], all := [(j, i)], waited := s1.ctx.wait, first := c.pc, next := nextAddr c.pc j } }
    let o := exec i { t with grp := { t.grp with slot := j, todo := [] } }
    (∀ r u, o = .next r → conclude exec t [(j, i)] r = some u → step s = .next u) ∧ (∀ f, o = .fault f → step s = .fault f)

/-- The agenda comes first (the model's own choice, log 3): a step of a unit is executed with the unit it concerns as subject, a core
named there issues a group or, where it cannot, nothing happens, and a number there limits the accesses of the next step, which is then made
up to that many accesses: a granted ST that may make none of them waits at its group. R56: of a pair, both instructions read the registers as
they stood before it: when neither stops the pair, the second one in the order of effects runs on what the first has left, with the view of
before. When one of them alone traps, that is what the pair does; where both do, the first slot's cause is reported (the model's choice, log 29). -/
def Obligations.StepOrder : Prop :=
  (∀ (s : State) (h : Happening) (rest : List Turn) (t : State), s.agenda = .event h :: rest →
      exec h.event { s with agenda := rest, subject := h.subject, grp := Group.idle } = .next t →
      step s = .next { t with grp := Group.idle, steps := none }) ∧
  (∀ (s : State) (k : Nat) (rest : List Turn), s.agenda = .core k :: rest →
      let a : State := { s with agenda := rest }
      (∀ u, issueCore exec a k = some (.next u) → step s = .next { u with steps := none }) ∧
      (∀ f, issueCore exec a k = some (.fault f) → step s = .fault f) ∧
      (issueCore exec a k = none → step s = .next { a with steps := none })) ∧
  (∀ (s : State) (n : Nat) (rest : List Turn), s.agenda = .limit n :: rest → step s = .next { s with agenda := rest, steps := some n }) ∧
  (∀ (g : Guard) (t : Ty) (d : Opnd) (m : Mem) (s : State) (r : Grant), Runs s g →
      Granted s (.st g t d m) (s.ea m) (t.bits / 8) (t.bits / 8) .write (decide (t.bits / 8 = 8)) r →
      r.s.steps = some 0 → r.s.ctx.sent = [] →
      ∃ u, exec (.st g t d m) s = .next u ∧ u.grp.stalled = true ∧ u.ctx.wait = some .paused ∧ u.ctx.pc = s.grp.first ∧ u.mem = r.s.mem) ∧
  (∀ (s : State) (j m : Nat) (i h : Instr), s.grp.todo = [(j, i), (m, h)] →
      let base : State := { s with grp := { s.grp with view := some s.ctx, todo := [] } }
      let run (n : Nat) (x : Instr) (u : State) := exec x { u with grp := { u.grp with slot := n } }
      let clean (u : State) : Prop := u.grp.trapped = false ∧ u.grp.stalled = false
      (∀ r q t : State, lateness i ≤ lateness h → run j i base = .next r → clean r → run m h base = .next q → clean q →
        run m h r = .next t → clean t → runTodo exec s = .next t) ∧
      (∀ r q t : State, lateness h < lateness i → run m h base = .next r → clean r → run j i base = .next q → clean q →
        run j i r = .next t → clean t → runTodo exec s = .next t) ∧
      (∀ r, run j i base = .next r → r.grp.trapped = true → runTodo exec s = .next r) ∧
      (∀ r q, run j i base = .next r → r.grp.trapped = false → run m h base = .next q → q.grp.trapped = true → runTodo exec s = .next q))

/-- Memory stays in its canonical form under every step, from every state in which it is (the model's own invariant, log 2). -/
def Obligations.StepKeepsMemoryCanonical : Prop :=
  ∀ s t : State, s.mem.wf = true → step s = .next t → t.mem.wf = true

/-- R148 (the canonical form, and that a byte nothing has written reads 0, are the model's own, log 2): reset memory is in canonical form, and every byte of it reads 0. -/
def Obligations.ResetMemoryCanonical : Prop := State.reset.mem.wf = true ∧ ∀ a, State.reset.mem.read a = 0

/-- R93, R181, R105, R229, R327, R17, R138, R169: what reset leaves in a context, a core, a package, a slice and a front end: p0
reads 1 and the other predicates 0, s0 reads 0, every register is full, VSH 0x9101, QUANT 16,384, AUDIT 20, TSH 0x97DF, DMAP
and SROW, Q 8 and W 64, and RINGLEN 12. That a context's registers are full and hold the values of R181 before any launch is the model's choice (log 1). -/
def Obligations.ResetRegisters : Prop :=
  (∀ key, (State.reset.getCtx key).p = 1 ∧ (State.reset.getCtx key).s[0] = 0 ∧ (State.reset.getCtx key).full = 0xFFFFFFFF ∧
    (State.reset.getCtx key).vsh = 0x9101 ∧ (State.reset.getCtx key).live = false) ∧
  (∀ k, (State.reset.getCore k).quant = 16384 ∧ (State.reset.getCore k).audit = 20 ∧ ∀ n : Fin 8, (State.reset.getCore k).tsh[n] = 0x97DF) ∧
  (∀ p, (State.reset.getPkg p).dmap = 0xCB984310 ∧ (State.reset.getPkg p).srow = 0x8421084210) ∧
  (∀ p i : Nat, i < 512 → p < 4096 → ctrlRaw State.reset (blockPa p (.slice i) 0x100) = 8 ∧ ctrlRaw State.reset (blockPa p (.slice i) 0x108) = 64) ∧
  (∀ p n : Nat, n < 128 → p < 4096 → ctrlRaw State.reset (blockPa p (.front n) 0x08) = 12) ∧
  State.reset.now = 0 ∧ State.reset.gangs = []

/-! ### Traps -/

/-- R329: trap entry of a context that is not in a phase, captures nothing, does not follow, and (for 0x0F) is not attached: a double
trap or an unhandled one ends the context with a fault record of 0x7D or of the cause; a TRAPVEC that fails R57 is a double trap, and so is one whose line
cannot be fetched (log 27, DEDUCED); else the trap registers are written and the pc is TRAPVEC, and no other register changes. R333: in a gang
that the Seroan service has attached, cause 0x0F stops the gang at the trap's address instead, and nothing is lost; that the stop is that of a gang switch, at once whatever
T was set before, is log 25. R56, R69: a precise trap of the acting context is entered at its group's first address, and no step of the group follows; where the rules leave
TINFOA or TINFOB unsaid it is a free value (`unsaid`, log 11). R333: TRAP and DBRK raise 0x4A and 0x0F with TPC where the context goes on after its group, and the immediate in TINFOA. -/
def Obligations.TrapEntry : Prop :=
  (∀ (s : State) (key : Nat) (t : TrapInfo) (imp : Bool) (tseq : Nat),
      let k := key / 4
      let c := s.getCtx key
      let g := (s.getCore k).gang
      let tpc := t.tpc.getD c.pc
      let c1 : Ctx := { c with wait := none, lineBuf := none, sent := [], behind := none }
      let s1 := { s with halves := mdel key s.halves }.setCtx key c1
      c.capture = none → (s.getCore k).phase = none → c.lfs.toNat % 4 < 2 →
      (t.cause = 0x0F → (s.getGang g).attached = true → ∃ u, enterTrap s key t imp tseq = u ∧ u.getCtx key = { c1 with
          pc := tpc, stepBrk := if t.b.getLsbD 0 then some tpc else c.stepBrk } ∧
        (u.getGang g).outAt = some ((s.getGang g).outAt.elim s.now (min s.now)) ∧ .event ⟨g, .gangSwitchStop⟩ ∈ u.agenda ∧ u.mem = s.mem) ∧
      ((t.cause = 0x0F → (s.getGang g).attached = false) →
      (c.tcause.getLsbD 63 = true → enterTrap s key t imp tseq = endContext (recordFault s1 g 0x7D key tpc t.a t.b) key) ∧
      (c.tcause.getLsbD 63 = false → c.trapvec = 0 →
        enterTrap s key t imp tseq = endContext (recordFault s1 g t.cause key tpc t.a t.b) key) ∧
      (c.tcause.getLsbD 63 = false → c.trapvec ≠ 0 →
        ((targetCause s1 key c.trapvec true).isSome ∨ reachable s1 key c.trapvec = false) →
        enterTrap s key t imp tseq = endContext (recordFault s1 g 0x7D key tpc t.a t.b) key) ∧
      (c.tcause.getLsbD 63 = false → c.trapvec ≠ 0 → targetCause s1 key c.trapvec true = none → reachable s1 key c.trapvec = true →
        enterTrap s key t imp tseq = s1.setCtx key { c1 with
          tcause := BitVec.ofNat 64 (2 ^ 63 + (if imp then 256 else 0) + t.cause), tpc := tpc, tinfoa := t.a, tinfob := t.b,
          tseq := BitVec.ofNat 64 tseq, pc := c.trapvec }))) ∧
  (∀ (s : State) (t : TrapInfo),
      (takeTrap s t).grp.trapped = true ∧
      ∀ k, (takeTrap s t).getCtx k = (enterTrap (s.upd (fun c => { c with pc := s.grp.first })) s.cur (unsaid s t) false 0).getCtx k) ∧
  (∀ (g : Guard) (code : BitVec 16) (s : State), Runs s g → s.ctx.wait = none → s.ctx.behind = none →
      let enters (i : Instr) (cause : Nat) : Prop := ∃ t, exec i s = .next t ∧
        let u := enterTrap s s.cur ⟨cause, code.setWidth 64, 0, some s.ctx.pc⟩ false 0
        t.mem = u.mem ∧ t.gangs = u.gangs ∧ t.cores = u.cores ∧ ∀ k, t.getCtx k = u.getCtx k
      enters (.trap g code) 0x4A ∧ enters (.dbrk g code) 0x0F)

/-- R330: RFT raises 0x4B precisely when ACT = 0. Otherwise the ring entry of an imprecise trap with a TSEQ is freed, a return from
an instruction breakpoint issues the group at TPC once without breakpoint checks, ACT becomes 0 and the pc TPC; a TPC that
fails its check raises 0x0B with ACT already 0. A faulted entry or an engine error held since the entry is taken at the first group after it, one at a
time, the faulted entry first (log 27, DEDUCED). TINFOA and TINFOB of 0x4B, which no rule gives, are free values (`unsaid`, log 11). The check reads the line of TPC as a branch does (R57); where that read cannot go on, RFT waits or traps with the trap still held. -/
def Obligations.TrapReturn : Prop :=
  ∀ (g : Guard) (s : State), Runs s g →
    let c := s.ctx
    let enters (u v : State) (cause : Nat) (x y : Word) : Prop := v.grp.trapped = true ∧
      ∀ k, v.getCtx k = (enterTrap (u.upd (fun p => { p with pc := u.grp.first })) u.cur ⟨cause, x, y, none⟩ false 0).getCtx k
    (c.tcause.getLsbD 63 = false → ∃ v x y, exec (.rft g) s = .next v ∧ enters s v 0x4B x y) ∧
    (∀ e, c.tcause.getLsbD 63 = true → lookAhead s s.cur c.tpc = .error e → exec (.rft g) s = finish s (.error e)) ∧
    (∀ s0, c.tcause.getLsbD 63 = true → lookAhead s s.cur c.tpc = .ok s0 →
      let s1 := if c.tcause.getLsbD 8 && c.tseq ≠ 0 then freeRing s0 s0.coreKey (c.tseq.toNat % 65536) else s0
      let brk := c.tcause.toNat % 256 = 0x0F ∧ c.tinfob.getLsbD 0 = true
      let s2 := s1.upd (fun x => { x with
        tcause := x.tcause &&& ~~~(1#64 <<< 63)
        stepBrk := if brk then some c.tpc else x.stepBrk })
      let t := s2.goto c.tpc
      (targetCause s2 s2.cur c.tpc false = none → exec (.rft g) s = .next t ∧ (brk → ∀ is, atBreakpoint t c.tpc is = false)) ∧
      ((targetCause s2 s2.cur c.tpc false).isSome → ∃ v y, exec (.rft g) s = .next v ∧ enters s2 v 0x0B c.tpc y) ∧
      (t.ctx.live = true → t.ctx.capture = none → t.core.phase = none → t.ctx.refusals = [] → t.ctx.wait = none → t.ctx.walking = none →
        t.ctx.sent = [] → (∀ p, t.ctx.packet = some p → p.done = 0) → mget? t.cur t.halves = none →
        (oldestFault t.core (t.cur % 4)).isSome ∨ t.ctx.errors ≠ [] →
        ∃ u, pendingTrap t t.cur = some u ∧ (u = deliverFault t t.cur ∨ u = deliverError t t.cur)))

/-- R58, R107: NOP does nothing, and outside a phase an instruction whose guard is false does nothing, whatever its form, once it has passed decode: a form
that names v registers first passes the checks of decode that depend on VSH, whatever its guard (R202, R218; that they come before the guard is log 12). -/
def Obligations.FalseGuard : Prop :=
  (∀ s : State, exec .nop s = .next s) ∧
  ∀ (i : Instr) (w : Slot) (s : State), encode i = some w → (∀ x, i ≠ .unassignedOpcode x) → s.inPhase = false →
    (shapeTrap s i = none → s.guard (Guard.ofFields (Fields.ofSlot w).g) = false → exec i s = .next s) ∧
    (∀ t, shapeTrap s i = some t → exec i s = .next (takeTrap s t))

/-! ### Scalar forms -/

/-- R95, R109: ADD, SUB, MUL, MULH, DIV and REM compute exactly in the type's signedness; without .sat the result is put, with .sat it is
clipped to the type's range with SA if that changed it; DIV by zero gives 0 and DZ, DIV of the least number by −1 gives the
least number and OF; REM by zero gives the dividend and DZ. -/
def Obligations.ScalarArithmetic : Prop :=
  ∀ (g : Guard) (t : Ty) (d a b : Opnd) (s : State), Runs s g → t.isInt = true →
    let x := tyVal t (s.src a)
    let y := tyVal t (s.src b)
    let sat (v : Int) : Int := if v < Num.intMin t then Num.intMin t else if Num.intMax t < v then Num.intMax t else v
    let fl (v : Int) : Num.Flg := if sat v = v then 0 else Num.SA
    exec (.add g t false d a b) s = .next (s.result d (tyPut t (x + y)) 0) ∧
    exec (.sub g t false d a b) s = .next (s.result d (tyPut t (x - y)) 0) ∧
    exec (.mul g t false d a b) s = .next (s.result d (tyPut t (x * y)) 0) ∧
    exec (.add g t true d a b) s = .next (s.result d (tyPut t (sat (x + y))) (fl (x + y))) ∧
    exec (.sub g t true d a b) s = .next (s.result d (tyPut t (sat (x - y))) (fl (x - y))) ∧
    exec (.mul g t true d a b) s = .next (s.result d (tyPut t (sat (x * y))) (fl (x * y))) ∧
    exec (.mulh g t d a b) s = .next (s.result d (tyPut t ((x * y) / (2 ^ t.bits : Nat))) 0) ∧
    (y = 0 → exec (.div g t d a b) s = .next (s.result d (tyPut t 0) Num.DZ)) ∧
    (y ≠ 0 → (y = -1 ∧ x = Num.intMin t) →
      exec (.div g t d a b) s = .next (s.result d (tyPut t x) Num.OF)) ∧
    (y ≠ 0 → ¬ (y = -1 ∧ x = Num.intMin t) →
      exec (.div g t d a b) s = .next (s.result d (tyPut t (x.tdiv y)) 0)) ∧
    (y = 0 → exec (.rem g t d a b) s = .next (s.result d (tyPut t x) Num.DZ)) ∧
    (y ≠ 0 → exec (.rem g t d a b) s = .next (s.result d (tyPut t (x - y * x.tdiv y)) 0))

/-- R95, R109: the logic and shift forms work on the low N bits; the count is B modulo N; type code 0xF means n64. R109: CLZ, CTZ, POPC and BREV of the low N bits. -/
def Obligations.ScalarLogic : Prop :=
  (∀ (g : Guard) (t : Ty) (d a b : Opnd) (s : State), Runs s g →
      let u := intTy t
      let x := (s.src a).setWidth u.bits
      let y := (s.src b).setWidth u.bits
      let k := (s.src b).toNat % u.bits
      exec (.and g t d a b) s = .next (s.result d (tyPut u ((x &&& y).toNat : Nat)) 0) ∧
      exec (.or g t d a b) s = .next (s.result d (tyPut u ((x ||| y).toNat : Nat)) 0) ∧
      exec (.xor g t d a b) s = .next (s.result d (tyPut u ((x ^^^ y).toNat : Nat)) 0) ∧
      exec (.andn g t d a b) s = .next (s.result d (tyPut u ((x &&& ~~~y).toNat : Nat)) 0) ∧
      exec (.shl g t d a b) s = .next (s.result d (tyPut u ((x <<< k).toNat : Nat)) 0) ∧
      exec (.shr g t d a b) s = .next (s.result d (tyPut u ((x >>> k).toNat : Nat)) 0) ∧
      exec (.sha g t d a b) s = .next (s.result d (tyPut u ((x.sshiftRight k).toNat : Nat)) 0) ∧
      exec (.rot g t d a b) s = .next (s.result d (tyPut u ((x.rotateLeft k).toNat : Nat)) 0)) ∧
  (∀ (g : Guard) (t : Ty) (d a : Opnd) (s : State), Runs s g →
      let u := intTy t
      let x := ((s.src a).setWidth u.bits).toNat
      (∃ n : Nat, exec (.clz g t d a) s = .next (s.result d (tyPut u n) 0) ∧ n ≤ u.bits ∧ x < 2 ^ (u.bits - n) ∧
        (n < u.bits → 2 ^ (u.bits - n - 1) ≤ x)) ∧
      (∃ n : Nat, exec (.ctz g t d a) s = .next (s.result d (tyPut u n) 0) ∧ n ≤ u.bits ∧ 2 ^ n ∣ x ∧ (n < u.bits → ¬ 2 ^ (n + 1) ∣ x)) ∧
      exec (.popc g t d a) s = .next (s.result d (tyPut u ((List.range u.bits).countP (fun i => x.testBit i) : Nat)) 0) ∧
      (∃ n : Nat, exec (.brev g t d a) s = .next (s.result d (tyPut u n) 0) ∧ n < 2 ^ u.bits ∧
        ∀ i, i < u.bits → n.testBit i = x.testBit (u.bits - 1 - i)))

/-- R109: EXT and INS on fields, and the immediate forms ADDI, MOVI, MOVH and LEA. -/
def Obligations.ScalarFields : Prop :=
  ∀ (g : Guard) (t : Ty) (d a b : Opnd) (s : State), Runs s g →
    (∀ (pos len : BitVec 6),
      let f := ((s.src a) >>> pos.toNat).setWidth (len.toNat + 1)
      exec (.ext g .i64 d a (.const pos len)) s = .next (s.result d (f.signExtend 64) 0) ∧
      exec (.ext g .n64 d a (.const pos len)) s = .next (s.result d (f.setWidth 64) 0)) ∧
    (∀ c : Opnd,
      let pos := (s.src b).toNat % 64
      let len := min ((s.src c).toNat % 128) (64 - pos)
      let f := ((s.src a) >>> pos).setWidth len
      exec (.ext g .i64 d a (.regs b c)) s = .next (s.result d (f.signExtend 64) 0) ∧
      exec (.ext g .n64 d a (.regs b c)) s = .next (s.result d (f.setWidth 64) 0)) ∧
    (∀ (pos len : BitVec 6), pos.toNat + len.toNat < 64 →
      ∃ r : Word, exec (.ins g .n64 d a b pos len) s = .next (s.result d r 0) ∧
        ∀ i, i < 64 → r.getLsbD i =
          if pos.toNat ≤ i ∧ i ≤ pos.toNat + len.toNat then (s.src b).getLsbD (i - pos.toNat) else (s.src a).getLsbD i) ∧
    (∀ imm : BitVec 44, t.isInt = true →
      exec (.addi g t d a imm) s = .next (s.result d (tyPut t (tyVal t (s.src a) + imm.toInt)) 0) ∧
      exec (.movi g t d imm) s = .next (s.result d (tyPut t imm.toInt) 0)) ∧
    (∀ (imm : BitVec 20) (r : Fin 32),
      exec (.movh g d (some r) imm) s = .next (s.written d ((imm.setWidth 64 <<< 44) ||| ((s.rs r).setWidth 44).setWidth 64)) ∧
      exec (.movh g d none imm) s = .next (s.written d (imm.setWidth 64 <<< 44))) ∧
    (∀ (r : Fin 32) (m : Mem), exec (.lea g r m) s = .next (s.putS r (s.ea m)))

/-- R110, R111: MIN and MAX of integers, CMP of integers, SEL, MOV, PLOG, and CHK on both sides of its bound. R74, R75, R110: MIN, MAX and
CMP of f64 and f32, a register by its low bits and an immediate as the pattern of its exact integer: −0 lies below +0 for MIN and MAX and equals it for CMP; a NaN operand gives the first one quieted, every comparison but ne is false,
and NV is set for a signalling one only. -/
def Obligations.ScalarCompare : Prop :=
  (∀ (g : Guard) (t : Ty) (d a b c : Opnd) (s : State), Runs s g →
      let x := tyVal t (s.src a)
      let y := tyVal t (s.src b)
      let z := tyVal t (s.src c)
      (t.isInt = true →
        exec (.min g t d a b) s = .next (s.result d (tyPut t (min x y)) 0) ∧
        exec (.max g t d a b) s = .next (s.result d (tyPut t (max x y)) 0) ∧
        (∀ cc p, exec (.cmp g t cc p a b) s = .next ((s.putP p (intCond cc x y)).flag 0)) ∧
        (y ≤ x ∧ x < z → exec (.chk g t a b c) s = .next s) ∧
        (¬ (y ≤ x ∧ x < z) → exec (.chk g t a b c) s = .next (takeTrap s ⟨0x1F, tyPut t x, tyPut t z, none⟩))) ∧
      (∀ p : Fin 8, exec (.sel g d a b p) s = .next (s.written d (if s.rp p then s.src a else s.src b))) ∧
      exec (.mov g d a) s = .next (s.written d (s.src a)) ∧
      (∀ (fn : PlogFn) (p q r : Fin 8),
        exec (.plog g fn p q (some r)) s = .next (s.putP p (match fn with
          | .and => s.rp q && s.rp r
          | .or => s.rp q || s.rp r
          | .xor => s.rp q ^^ s.rp r
          | .andn => s.rp q && !s.rp r
          | .nand => !(s.rp q && s.rp r)
          | .nor => !(s.rp q || s.rp r)
          | .xnor => !(s.rp q ^^ s.rp r)
          | .not => !s.rp q))) ∧
      (∀ p q : Fin 8, exec (.plog g .not p q none) s = .next (s.putP p (!s.rp q)))) ∧
  (∀ (g : Guard) (t : Ty) (d a b : Opnd) (s : State), Runs s g → t = .f64 ∨ t = .f32 →
      let n := t.bits
      let fb := if t = .f64 then 52 else 23
      let pat (o : Opnd) : Nat := match o with
        | .imm i => (Num.ofInteger (Num.fmtOf t) .rne i.toInt).1
        | _ => (s.src o).toNat % 2 ^ n
      let x := pat a
      let y := pat b
      let mag (z : Nat) : Nat := z % 2 ^ (n - 1)
      let inf := 2 ^ (n - 1) - 2 ^ fb
      let nan (z : Nat) : Prop := inf < mag z
      let sig (z : Nat) : Prop := inf < mag z ∧ mag z < inf + 2 ^ (fb - 1)
      let key (z : Nat) : Int := if 2 ^ (n - 1) ≤ z then -(mag z : Int) - 1 else mag z
      let num (z : Nat) : Int := if mag z = 0 then 0 else key z
      let fl : Num.Flg := if sig x ∨ sig y then Num.NV else 0
      let quiet (z : Nat) : Word := BitVec.ofNat 64 (z ||| 2 ^ (fb - 1))
      (¬ nan x → ¬ nan y →
        exec (.min g t d a b) s = .next (s.result d (BitVec.ofNat 64 (if key x < key y then x else y)) 0) ∧
        exec (.max g t d a b) s = .next (s.result d (BitVec.ofNat 64 (if key x < key y then y else x)) 0) ∧
        ∀ cc p, exec (.cmp g t cc p a b) s = .next ((s.putP p (intCond cc (num x) (num y))).flag 0)) ∧
      (nan x ∨ nan y →
        (∀ i ∈ ([.min g t d a b, .max g t d a b] : List Instr),
          exec i s = .next (s.result d (if nan x then quiet x else quiet y) fl)) ∧
        ∀ cc p, exec (.cmp g t cc p a b) s = .next ((s.putP p (decide (cc = .ne))).flag fl)))

/-- R93: s0 reads zero and discards writes, p0 reads 1 and discards writes; another register reads what was written to it, full, and
no other register of the context changes. R93, R95: the frame of the results above: a scalar result leaves every other s register, the v registers, the special, trap and
chain registers, the pc, every other context, every core, and all of memory as they were; ASR gains only the flags given. -/
def Obligations.RegisterFrame : Prop :=
  (∀ (s : State), s.grp.view = none →
      s.rs 0 = 0 ∧ s.rp 0 = true ∧
      (∀ x, (s.putS 0 x).ctx = s.ctx) ∧ (∀ b, (s.putP 0 b).ctx = s.ctx) ∧
      (∀ n x, n ≠ 0 → (s.putS n x).rs n = x ∧ (s.putS n x).ctx.full.getLsbD n.val = true) ∧
      (∀ n m x, m ≠ n → (s.putS n x).rs m = s.rs m ∧ (s.putS n x).ctx.full.getLsbD m.val = s.ctx.full.getLsbD m.val) ∧
      (∀ n b, n ≠ 0 → (s.putP n b).rp n = b) ∧ (∀ n m b, m ≠ n → (s.putP n b).rp m = s.rp m)) ∧
  (∀ (s : State) (d : Opnd) (v : Word) (fl : Num.Flg),
      let t := s.result d v fl
      SameOutside s t ∧ SameOthers s t ∧ SameMemory s t ∧ SameSpecial s.ctx t.ctx ∧ t.grp = s.grp ∧ t.ctx.pc = s.ctx.pc ∧
      t.ctx.asr = s.ctx.asr ||| (fl.setWidth 64 <<< 8) ∧
      (∀ n : Fin 32, d ≠ .s n → t.ctx.s[n] = s.ctx.s[n]) ∧
      (∀ n : Fin 8, d ≠ .p n → t.ctx.p.getLsbD n.val = s.ctx.p.getLsbD n.val))

/-! ### Control -/

/-- R57, R113: branches to a target that passes its checks: BR, BRX, CALL, CALLX, RET and LOOP; s30 takes the address after the group,
and CALLX and LOOP read their register before they write. u is the state after the line of the target has been read. -/
def Obligations.Branches : Prop :=
  ∀ (g : Guard) (tg : Target) (r : Fin 32) (s u : State), Runs s g →
    let passes (a : Word) (btm : Bool) : Prop := lookAhead s s.cur a = .ok u ∧ targetCause u u.cur a btm = none
    (passes (s.target tg) true →
      exec (.br g tg) s = .next (u.goto (s.target tg)) ∧
      exec (.call g tg) s = .next ((u.goto (s.target tg)).putS 30 s.grp.next)) ∧
    (passes (s.rs r) true →
      exec (.brx g r) s = .next (u.goto (s.rs r)) ∧
      exec (.callx g r) s = .next ((u.goto (s.rs r)).putS 30 s.grp.next)) ∧
    (passes (s.rs 30) false → exec (.ret g) s = .next (u.goto (s.rs 30))) ∧
    (s.rs r = 1 → exec (.loop g r tg) s = .next (s.putS r 0)) ∧
    (s.rs r ≠ 1 → passes (s.target tg) true →
      exec (.loop g r tg) s = .next ((u.goto (s.target tg)).putS r (s.rs r - 1))) ∧
    exec (.yield g) s = .next { s with grp := { s.grp with yielded := true } }

/-- R57, R113: a branch whose target fails its check traps at the branch with TINFOA the target, and writes nothing: CALL and CALLX do not
write s30, LOOP has not decremented. R57, R51: what a target must be: a malformed code address gives 0x0B whether or not BTM is asked; a slot that is not the first of a
group gives 0x06 for a branch and 0x0B for a return; a first slot with its BTM bit clear gives 0x06 for a branch only. R119, R357: the line of a target is read
before, if the context does not hold it: that changes no memory, and a poisoned line is consumed. -/
def Obligations.BranchTargets : Prop :=
  (∀ (g : Guard) (tg : Target) (r : Fin 32) (s u : State) (c : Nat), Runs s g →
      let fails (a : Word) (btm : Bool) : Prop := lookAhead s s.cur a = .ok u ∧ targetCause u u.cur a btm = some c
      let traps (a : Word) : Host.Outcome State Fault Refusal := .next (takeTrap u ⟨c, a, 0, none⟩)
      (fails (s.target tg) true →
        exec (.br g tg) s = traps (s.target tg) ∧ exec (.call g tg) s = traps (s.target tg) ∧
        (s.rs r ≠ 1 → exec (.loop g r tg) s = traps (s.target tg))) ∧
      (fails (s.rs r) true → exec (.brx g r) s = traps (s.rs r) ∧ exec (.callx g r) s = traps (s.rs r)) ∧
      (fails (s.rs 30) false → exec (.ret g) s = traps (s.rs 30))) ∧
  (∀ (s : State) (key : Nat) (a : Word) (l : Line),
      (5 ≤ a.toNat % 8 ∨ a.toNat / 8 % 8 ≠ 0 → lookAhead s key a = .ok s ∧ ∀ btm, targetCause s key a btm = some 0x0B) ∧
      (a.toNat % 8 < 5 → a.toNat / 8 % 8 = 0 → peekLine s key a = some l →
        (firstSlot (Bits.fld (lineWord l) 7 5) (a.toNat % 8) = false →
          targetCause s key a true = some 0x06 ∧ targetCause s key a false = some 0x0B) ∧
        (firstSlot (Bits.fld (lineWord l) 7 5) (a.toNat % 8) = true → Bits.bit (lineWord l) (a.toNat % 8) = false →
          targetCause s key a true = some 0x06 ∧ targetCause s key a false = none) ∧
        (firstSlot (Bits.fld (lineWord l) 7 5) (a.toNat % 8) = true → Bits.bit (lineWord l) (a.toNat % 8) = true →
          targetCause s key a true = none ∧ targetCause s key a false = none)) ∧
      (heldLine s key a = some l → lookAhead s key a = .ok s ∧ peekLine s key a = some l) ∧
      (∀ u, lookAhead s key a = .ok u → u.mem = s.mem) ∧
      (∀ t pa, codeAddrOk a = true → heldLine s key a = none → (s.getCore (key / 4)).phase = none → fetchAt s key a = .ok (t, some pa) →
        (poisoned (homeRead t .ctx pa) pa = false → lookAhead s key a = .ok (homeRead t .ctx pa)) ∧
        (poisoned (homeRead t .ctx pa) pa = true → ∃ u, lookAhead s key a = .error (.wait u) ∧ (u.getCtx key).wait = some .stopped ∧
          (u.getGang ((t.getCore (key / 4)).gang)).consumed = some (pa / 64, key) ∧ u.mem = s.mem)))

/-- R100 to R102, R106, R114: LEAD with a mask makes the context the leader and sends an attach marker to every neighbour that follows it; with mask
0 it ends leading: the group with the LEAD is forwarded and an end marker after it. FOLLOW makes it a follower that waits, with its direction
and one hop more than its neighbour; DETACH ends following. R101, R102: a marker at the head of a follower's buffer: an attach marker makes a waiting follower follow from the address in it, an end marker
detaches it there. The group at the head of a follower's buffer is brought to execution with the
leader's way noted, and one that has gone another way detaches it. -/
def Obligations.LeadFollow : Prop :=
  (∀ (g : Guard) (a : Opnd) (dir : Dir) (s : State), Runs s g → s.grp.view = none →
      let k := s.coreKey
      let mask := (s.src a).toNat
      let alone := ∀ x, x < 4 → x ≠ s.ctxNo.val → (s.getCtx (4 * k + x)).live = false
      let sends (t : State) (mk : Nat) (f : Nat → List Forward) : Prop :=
        ∀ n, (t.getCore n).buffer = (s.getCore n).buffer ++ (if n ∈ followersOf s k mk then f n else [])
      (lfsMode s.ctx = 0 → 1 ≤ mask → mask ≤ 15 → alone →
        ∃ t, exec (.lead g a) s = .next t ∧ t.ctx.lfs.toNat = 1 + 4096 * mask ∧ sends t mask (fun _ => [.attach s.grp.next]) ∧ t.mem = s.mem) ∧
      (lfsMode s.ctx = 1 → mask = 0 → alone →
        ∃ t, exec (.lead g a) s = .next t ∧ t.ctx.lfs = 0 ∧ t.mem = s.mem ∧ sends t (lfsFwd s.ctx) (fun n =>
          (if takesGroup s n then [.group s.grp.first s.grp.next s.grp.all none] else []) ++ [.stop s.grp.next])) ∧
      (lfsMode s.ctx = 3 → exec (.lead g a) s = .next s) ∧
      (followRefused s dir mask = false →
        ∃ t, exec (.follow g dir a) s = .next t ∧ t.core.buffer = [] ∧ ∀ n c, neighbour k dir = some n → forwarder s n (backDir dir) = some c →
          t.ctx.lfs.toNat = 2 + 16 * dir.code.toNat + 64 * (lfsHops (s.getCtx (4 * n + c)) + 1) + 4096 * mask) ∧
      (followRefused s dir mask = true → ∃ x y, exec (.follow g dir a) s = .next (takeTrap s ⟨0x6C, x, y, none⟩)) ∧
      (∀ u, lookAhead s s.cur s.here = .ok u →
        (targetCause u u.cur s.here true = none → 2 ≤ lfsMode u.ctx →
          ∃ t, exec (.detach g) s = .next t ∧ t.ctx.lfs = 0 ∧ t.core.buffer = [] ∧ t.mem = s.mem) ∧
        (targetCause u u.cur s.here true = none → lfsMode u.ctx < 2 → exec (.detach g) s = .next u) ∧
        ((targetCause u u.cur s.here true).isSome → exec (.detach g) s = .next (takeTrap u ⟨0x06, s.here, 0, none⟩)))) ∧
  (∀ (k n : Nat) (s : State), followerOf s k = some n → runsOn s k = true →
      let key := 4 * k + n
      let x := s.getCtx key
      (∀ next rest, (s.getCore k).buffer = .attach next :: rest → lfsMode x = 2 →
        ∃ t, exec (.followerMarker k) s = .next t ∧ (t.getCtx key).pc = next ∧ lfsMode (t.getCtx key) = 3 ∧ (t.getCore k).buffer = rest ∧
          SameMemory s t) ∧
      (∀ next rest, (s.getCore k).buffer = .stop next :: rest →
        ∃ t, exec (.followerMarker k) s = .next t ∧ (t.getCtx key).pc = next ∧ (t.getCtx key).lfs = 0 ∧ (t.getCore k).buffer = [] ∧
          SameMemory s t) ∧
      ((s.getCore k).buffer = [] → streamLost s key = true → exec (.followerMarker k) s = .next (detach s key)) ∧
      (∀ addr next is went rest, (s.getCore k).buffer = .group addr next is went :: rest → lfsMode x = 3 → (s.getCore k).running.val = n →
        (s.getCore k).phase = none → awake s key = true → captureFull x = false →
        let at_ (first next : Word) : State := { s with cur := key, grp := { Group.idle with first := first, next := next } }
        ∀ r, pendingTrap (at_ x.pc x.pc) key = none → readyGroup (at_ addr next) addr next is (some went) = .group r →
          exec (.forwardedGroup k) s = .next r ∧ r.grp.todo = is ∧ r.grp.went = some went)) ∧
  (∀ (s0 s : State) (is : List (Nat × Instr)) (way : Option Word), s0.grp.went = some way →
      let key := s0.cur
      let popped := s.setCore (key / 4) { s.getCore (key / 4) with buffer := (s.getCore (key / 4)).buffer.drop 1 }
      lfsMode (s0.getCtx key) = 3 → lfsFwd (s0.getCtx key) = 0 → lfsMode (s.getCtx key) = 3 →
      (s.grp.target = way → followGroup s0 is s = popped) ∧ (s.grp.target ≠ way → followGroup s0 is s = detach popped key))

/-! ### Memory -/

/-- R117, R123: the order of the first checks of an access, and what each raises with TINFOA the address: a non-canonical address
0x14, then a misaligned one 0x13, then what the translation gives after the walk's own reads. R118: the walk of the four levels: an entry that is not valid,
or has a reserved bit set, a leaf at level 0 or misplaced, and a table misplaced or below level 3, fail with their level; a leaf is the translation.
R119, R127, R158, R357, R358: where the entries that the walk reads are
readable (in memory, neither poisoned nor armed, in no command's destination) and no older copy of them is leased, what it finds is the walk of memory as it stands; the walk is counted. R118, R119, R123: a failed walk gives 0x10 with its level; a leaf without the permission gives 0x11 with the write and the level bit, or 0x0D for a fetch; a cached
translation is used whatever memory holds now, and a new one is cached with at most 64 kept. R324: an access of control space by a form that is no 8-byte LD or ST raises 0x1A. R116, R117, R120, R123: an access of the near window inside the acting core's scratchpad is granted, at the core's own bytes, when it
is aligned, no kept store covers it, and it overlaps no command in flight; one past the split raises 0x15. R94, R121, R151: a load from the own scratchpad gives the bytes that memory holds, and its answer does not come from off the core. -/
def Obligations.AccessChecks : Prop :=
  (∀ (s : State) (ea : Word) (align : Nat) (kind : Kind), 0 < align →
      (nearOff ea.toNat = none → 2 ^ 57 ≤ ea.toNat → checkEA s ea align kind = raise 0x14 ea 0) ∧
      ((nearOff ea.toNat).isSome ∨ ea.toNat < 2 ^ 57 → ea.toNat % align ≠ 0 → checkEA s ea align kind = raise 0x13 ea 0) ∧
      ((nearOff ea.toNat).isSome ∨ ea.toNat < 2 ^ 57 → ea.toNat % align = 0 →
        (∀ e, walkStep s s.cur ea.toNat = .error e → checkEA s ea align kind = .error e) ∧
        ∀ s1 found, walkStep s s.cur ea.toNat = .ok (s1, found) →
          let r := xlateWith s1 s1.coreKey s1.gangId ea.toNat kind found
          (∀ c b, r = .error (c, b) → checkEA s ea align kind = .error (.after s1 ⟨c, ea, BitVec.ofNat 64 b, none⟩)) ∧
          (∀ x, r = .ok x → checkEA s ea align kind = .ok (fillTlb s1 s1.coreKey x, x.pa)))) ∧
  (∀ (s : State) (key va : Nat),
      let k := key / 4
      let c := s.getCore k
      (needsWalk s k c.gang va = false → walkStep s key va = .ok (s, .error 0)) ∧
      (needsWalk s k c.gang va = true → (∀ a ∈ walkReads s.mem va 4 0 c.root.toNat, WalkReadable s k a) →
        ∃ t, walkStep s key va = .ok (t, walk s.mem va 4 0 c.root.toNat) ∧ t.mem = s.mem ∧ (t.getCore k).walk = c.walk + 1)) ∧
  (∀ (m : Memory) (va level base fuel : Nat), level < 4 →
      let at_ : Nat := [va / 2 ^ 39 % 2 ^ 18, va / 2 ^ 30 % 512, va / 2 ^ 21 % 512, va / 2 ^ 16 % 32].getD level 0
      let e : BitVec 64 := BitVec.ofNat 64 (m.readLE (base + 8 * at_) 8)
      let pa := (e.extractLsb' 8 52).toNat * 256
      let bad := e.getLsbD 0 = false ∨ e.extractLsb' 60 4 ≠ 0 ∨ e.extractLsb' 6 2 ≠ 0
      let page := [1, 2 ^ 30, 2 ^ 21, 2 ^ 16].getD level 1
      (bad → walk m va (fuel + 1) level base = .error level) ∧
      (¬ bad → e.getLsbD 1 = true → (level = 0 ∨ pa % page ≠ 0) → walk m va (fuel + 1) level base = .error level) ∧
      (¬ bad → e.getLsbD 1 = true → level ≠ 0 → pa % page = 0 → walk m va (fuel + 1) level base = .ok (level, e.toNat)) ∧
      (¬ bad → e.getLsbD 1 = false → (level = 3 ∨ pa % (if level = 2 then 256 else 4096) ≠ 0) → walk m va (fuel + 1) level base = .error level) ∧
      (¬ bad → e.getLsbD 1 = false → level ≠ 3 → pa % (if level = 2 then 256 else 4096) = 0 →
        walk m va (fuel + 1) level base = walk m va fuel (level + 1) pa)) ∧
  (∀ (s : State) (k g va : Nat) (kind : Kind), nearOff va = none → va < 2 ^ 57 →
      let c := s.getCore k
      let x := s.getGang g
      let needs (pte : Nat) : Bool := pte.testBit (match kind with
        | .read => 2
        | .write => 3
        | .exec => 4)
      let low (pte : Nat) : Bool := !x.sup && !pte.testBit 5
      (∀ level, tlbHit c x.asid va = none → walk s.mem va 4 0 c.root.toNat = .error level → xlate s k g va kind = .error (0x10, level)) ∧
      (∀ level pte, (tlbHit c x.asid va = none ∧ walk s.mem va 4 0 c.root.toNat = .ok (level, pte)) ∨
          (∃ e, tlbHit c x.asid va = some e ∧ e.level = level ∧ e.pte.toNat = pte) →
        (needs pte = false ∨ low pte = true → xlate s k g va kind = .error (if kind = .exec then (0x0D, 0) else
          (0x11, (if kind = .write then 1 else 0) + (if low pte then 2 else 0)))) ∧
        (needs pte = true → low pte = false → ∀ y, xlate s k g va kind = .ok y →
          y.pa = pte / 2 ^ 8 % 2 ^ 52 * 256 + va % 2 ^ pageShift level)) ∧
      (∀ e m, tlbHit c x.asid va = some e → xlate { s with mem := m } k g va kind = xlate s k g va kind)) ∧
  (∀ (s : State) (k : Nat) (x : Xlat) (e : TlbEntry), x.fill = some e → (s.getCore k).tlb.length ≤ 64 →
      let t := fillTlb s k x
      e ∈ (t.getCore k).tlb ∧ (t.getCore k).tlb.length ≤ 64 ∧ t.mem = s.mem) ∧
  (∀ (s s1 : State) (i : Instr) (ea : Word) (align n pa : Nat) (m : Mode), checkMode s i ea align m = .ok (s1, pa) → paReg pa = 2 →
      grant s i ea align n m false = .error (.after s1 ⟨0x1A, ea, 0, none⟩)) ∧
  (∀ (s : State) (i : Instr) (ea : Word) (b align n : Nat) (m : Mode) (word : Bool),
      let pa := mkPa s.pkg 1 (s.coreKey % 4096 * 2 ^ 18 + b)
      s.pkg < 4096 → nearOff ea.toNat = some b → 0 < align → ea.toNat % align = 0 →
      (b < padSize s s.coreKey → (∀ k ∈ s.gang.kept, overlaps pa n k.pa k.bytes.length = false) → overlapping s.core pa n = none →
        grant s i ea align n m word = .ok ⟨s, pa, false⟩) ∧
      (padSize s s.coreKey ≤ b → grant s i ea align n m word = .error (.after s ⟨0x15, ea, 0, none⟩))) ∧
  (∀ (s : State) (pa n : Nat), paReg pa = 1 → padCore pa = s.coreKey →
      (loadBytes s pa n).2.1 = s.mem.bytes pa n ∧ (loadBytes s pa n).2.2 = false ∧
      (loadBytes s pa n).1.mem = s.mem ∧ (loadBytes s pa n).1.inPhase = s.inPhase ∧
      ∀ r : Fin 32, (loadBytes s pa n).1.ctx.s[r] = s.ctx.s[r])

/-- R127, R151, R94: LD of an access that is granted puts the extended value of its bytes in D, at once or as an answer that is on its way; a
refused one writes zero. R129, R163: LDL is one step at the line's home: it answers the value there and discards the line: outside discard-check mode the bytes of a dirty line return to its backing
value and the line is clean, and the context's discard set gains the line; in that mode a dirty line is written back instead and counted. No other byte changes. -/
def Obligations.Loads : Prop :=
  (∀ (g : Guard) (t : Ty) (d : Fin 32) (m : Mem) (s : State) (r : Grant), Runs s g →
      let n := t.bits / 8
      let i : Instr := .ld g t (.s d) m
      (Granted s i (s.ea m) n n .read (decide (n = 8)) r → r.s.inPhase = false →
        let x := loadBytes r.s r.pa n
        let y : State := (if x.2.2 then sendAnswer x.1 d (loadedWord t x.2.1) 0 else (x.1.putS d (loadedWord t x.2.1)).flag 0)
        x.1.inPhase = false → exec i s = .next y) ∧
      (grant s i (s.ea m) n n .read (decide (n = 8)) = .ok r → r.refused = true →
        exec i s = .next ((if offCore s r.pa then countRemote r.s else r.s).putS d 0))) ∧
  (∀ (g : Guard) (t : Ty) (d : Fin 32) (m : Mem) (s : State) (r : Grant), Runs s g →
      let n := t.bits / 8
      let i : Instr := .ldl g t d m
      Granted s i (s.ea m) n n .read false r → r.s.inPhase = false →
      let x := loadAtHome r.s r.pa n
      let y := discardLine x.1 r.pa
      let l := r.pa / 64
      let dirty := (r.s.getLine l).dirty
      x.2 = r.s.mem.bytes r.pa n ∧ (y.inPhase = false → exec i s = .next (answerS y d (loadedWord t x.2) 0 (offCore r.s r.pa))) ∧
      (offCore r.s r.pa = true →
        (y.getLine l).dirty = none ∧
        (r.s.gang.dchk = false ∨ dirty = none →
          (∃ w, y.ctx.discards = r.s.ctx.discards ++ [(l, w)]) ∧ (dirty = none → SameMemory r.s y) ∧
          (r.s.mem.wf = true → r.s.gang.shadow = 0 → SameMemoryBut r.s y (l * 64) 64 ∧ ∀ b, dirty = some b → y.numAt (l * 64) 64 = b.toNat)) ∧
        (dirty ≠ none → r.s.gang.dchk = true → (r.s.getGang (r.s.getLine l).writer).shadow = 0 →
          SameMemory r.s y ∧ y.core.dchk = r.s.core.dchk + 1)))

/-- R127, R152: ST of an access that is granted performs one store of the low bytes of its source; one refused stores nothing. R152, R324, R347, R348: one store at pa: a store that leaves the gang is kept for the commit and changes no byte; another one puts its
bytes at pa, and every byte outside them, and outside the UNPROT word and the next log entry of the gang's shadow area, reads as before. R151, R152: a load at the home after a store to the same bytes gives the bytes stored, and its timestamp is not below the store's. -/
def Obligations.Stores : Prop :=
  (∀ (g : Guard) (t : Ty) (d : Opnd) (m : Mem) (s : State) (r : Grant), Runs s g →
      let n := t.bits / 8
      let i : Instr := .st g t d m
      (Granted s i (s.ea m) n n .write (decide (n = 8)) r → Whole r.s → exec i s = .next (storeAt r.s r.pa (Bits.bytesLE n (s.src d).toNat))) ∧
      (grant s i (s.ea m) n n .write (decide (n = 8)) = .ok r → r.refused = true → exec i s = .next r.s)) ∧
  (∀ (s : State) (pa : Nat) (bs : List Byte),
      (s.gangId ≠ 0 → leavesGang s.gang pa = true →
        SameMemory s (storeAt s pa bs) ∧ (storeAt s pa bs).gang.kept = s.gang.kept ++ [⟨pa, bs, s.cur, none⟩]) ∧
      (s.gangId = 0 ∨ leavesGang s.gang pa = false →
        (s.mem.wf = true → (storeAt s pa bs).mem.bytes pa bs.length = bs) ∧
        (∀ a, a < pa ∨ pa + bs.length ≤ a → (∀ u, faultRec s s.gangId 1 = some u → a < u ∨ u + 8 ≤ a) →
          a ∉ logEntry s s.gangId s.gang.log.length → (storeAt s pa bs).mem.read a = s.mem.read a) ∧
        (∀ k, k ≠ s.cur → (storeAt s pa bs).getCtx k = s.getCtx k) ∧
        (∀ r : Fin 32, (storeAt s pa bs).ctx.s[r] = s.ctx.s[r]) ∧ (storeAt s pa bs).ctx.v = s.ctx.v ∧
        (storeAt s pa bs).ctx.p = s.ctx.p ∧ (storeAt s pa bs).ctx.asr = s.ctx.asr ∧ (storeAt s pa bs).ctx.pc = s.ctx.pc)) ∧
  (∀ (s : State) (pa : Nat) (bs : List Byte), s.mem.wf = true → s.gangId = 0 ∨ s.gang.shadow = 0 →
      let t := storeStep s pa bs
      (loadAtHome t pa bs.length).2 = bs ∧ t.ctx.pts ≤ (loadAtHome t pa bs.length).1.ctx.pts ∧ s.ctx.pts ≤ t.ctx.pts ∧
      (s.getLine (pa / 64)).rts < t.ctx.pts)

/-- R128: LDV and STV of any number of rows in the own scratchpad, with a stride that is a multiple of 64 (64 without one): row i moves between register d + i and the 64 bytes at
EA + i · stride, in order; LDV changes no byte of memory and no other v register. One whose group would pass v31 raises 0x08, and a step that is no
multiple of 64 raises 0x13. -/
def Obligations.RowForms : Prop :=
  ∀ (g : Guard) (d : Fin 32) (m : Mem) (str : Option (Fin 32)) (s : State), Runs s g →
    let rows := (Vec.Shape.ofWord s.view.vsh.toNat).rows
    let step := str.elim 64 s.rs
    (32 < d.val + rows →
      exec (.ldv g d m str) s = .next (takeTrap s ⟨0x08, (slotInfo s (.ldv g d m str)).1, (slotInfo s (.ldv g d m str)).2, none⟩) ∧
      exec (.stv g d m str) s = .next (takeTrap s ⟨0x08, (slotInfo s (.stv g d m str)).1, (slotInfo s (.stv g d m str)).2, none⟩)) ∧
    (d.val + rows ≤ 32 → step.toNat % 64 ≠ 0 →
      exec (.ldv g d m str) s = .next (takeTrap s ⟨0x13, s.ea m, 0, none⟩) ∧
      exec (.stv g d m str) s = .next (takeTrap s ⟨0x13, s.ea m, 0, none⟩)) ∧
    (d.val + rows ≤ 32 → step.toNat % 64 = 0 → ∀ b : Nat → Nat,
      (∀ i, i < rows → nearOff (s.ea m + BitVec.ofNat 64 i * step).toNat = some (b i) ∧ b i % 64 = 0 ∧ b i < padSize s s.coreKey) →
      s.pkg < 4096 → s.gang.kept = [] → s.core.scoreboard = [] → s.ctx.pair = none → Whole s →
        let pa (i : Nat) : Nat := mkPa s.pkg 1 (s.coreKey % 4096 * 2 ^ 18 + b i)
        exec (.stv g d m str) s = .next ((List.range rows).foldl (fun t i =>
          storeAt t (pa i) (Bits.bytesLE 64 (Vec.reg s.view.v (d.val + i)).toNat)) s) ∧
        ∃ t, exec (.ldv g d m str) s = .next t ∧ t.mem = s.mem ∧
          (∀ i, i < rows → Vec.reg t.ctx.v (d.val + i) = BitVec.ofNat 512 (s.numAt (pa i) 64)) ∧
          (∀ r, r < 32 → r < d.val ∨ d.val + rows ≤ r → Vec.reg t.ctx.v r = Vec.reg s.ctx.v r) ∧ ∀ x : Fin 32, t.ctx.s[x] = s.ctx.s[x])

/-- R130 to R132, R96: PREF changes nothing, and a WBL of a line that the core's L1 does not hold dirty nothing but the cached translation; WBL writes a line it holds dirty back; DISC marks or
clears the discard bits of its lines, XLAT writes the physical address or the cause with bit 63 set, unless the walk's own reads make it wait; that it checks one byte, so that 0x13 is
never its answer, is log 29. -/
def Obligations.LineForms : Prop :=
  ∀ (g : Guard) (m : Mem) (s : State), Runs s g →
    (∀ slice, exec (.pref g slice m) s = .next s) ∧
    (∀ inv s1 pa, checkEA s (s.ea m) 1 .read = .ok (s1, pa) →
      (offCore s1 pa = false ∨ pa / 64 ∉ s1.core.stored ∨ (s1.getLine (pa / 64)).dirty = none → exec (.wbl g inv m) s = .next s1) ∧
      (offCore s1 pa = true → pa / 64 ∈ s1.core.stored → (s1.getLine (pa / 64)).dirty ≠ none →
        ∃ t, exec (.wbl g inv m) s = .next t ∧ (t.getLine (pa / 64)).dirty = none ∧ pa / 64 ∉ t.core.stored ∧
          t.core.leases = (if inv then mdel (pa / 64) s1.core.leases else s1.core.leases) ∧
          let w := (s1.getLine (pa / 64)).writer
          ∀ a, (∀ u, faultRec s1 w 1 = some u → a < u ∨ u + 8 ≤ a) → a ∉ logEntry s1 w (s1.getGang w).log.length →
            t.mem.read a = s1.mem.read a)) ∧
    (∀ (clear : Bool) (c : Fin 32) (b : Nat), nearOff (s.ea m).toNat = some b → b % 64 = 0 → (s.rs c).toNat % 64 = 0 →
      b + (s.rs c).toNat ≤ padSize s s.coreKey → 0 < (s.rs c).toNat →
      ∃ t, exec (.disc g clear c m) s = .next t ∧ t.mem = s.mem ∧
        ∀ x, x ∈ t.core.discardBits ↔
          if b / 64 ≤ x ∧ x < b / 64 + (s.rs c).toNat / 64 then clear = false else x ∈ s.core.discardBits) ∧
    (∀ kind d s1 pa, checkEA s (s.ea m) 1 (kindOf kind) = .ok (s1, pa) →
      exec (.xlat g kind d m) s = .next (countRemote (s1.putS d (BitVec.ofNat 64 pa)))) ∧
    (∀ kind d t, checkEA s (s.ea m) 1 (kindOf kind) = .error (.trap t) →
      exec (.xlat g kind d m) s = .next (countRemote (s.putS d (BitVec.ofNat 64 (2 ^ 63 + t.cause))))) ∧
    (∀ kind d s1 t, checkEA s (s.ea m) 1 (kindOf kind) = .error (.after s1 t) →
      exec (.xlat g kind d m) s = .next (countRemote (s1.putS d (BitVec.ofNat 64 (2 ^ 63 + t.cause))))) ∧
    (∀ kind d t, checkEA s (s.ea m) 1 (kindOf kind) = .error (.wait t) → exec (.xlat g kind d m) s = finish s (.error (.wait t))) ∧
    (∀ (kind : XlatKind) d b, kind ≠ .exec → nearOff (s.ea m).toNat = some b → b < padSize s s.coreKey → s.pkg < 4096 →
      exec (.xlat g kind d m) s = .next (countRemote (s.putS d (BitVec.ofNat 64 (mkPa s.pkg 1 (s.coreKey % 4096 * 2 ^ 18 + b))))))

/-- R133, R152: AMO and CAS that are granted perform one read-modify-write at the home; the old value, extended as LD extends, goes to D unless D is
absent. `amoFn` is the model's function of floating types; those of integers are written out. R88, R136: XRD of a granted cell in device memory answers the cell's value as f64 with its flag; XCLR stores a zero cell whose scale byte is the
low byte of its source; any address in region 1, within its scratchpad or beyond it, raises 0x16. -/
def Obligations.Atomics : Prop :=
  (∀ (g : Guard) (t : Ty) (fn : AmoFn) (d : Option (Fin 32)) (e : Fin 32) (c : Opnd) (m : Mem) (s : State) (r : Grant), Runs s g →
      let n := t.bits / 8
      let x := if t.isInt then ((s.src c).setWidth t.bits).toNat else atomPat s t c
      let old := r.s.numAt r.pa n
      (Granted s (.amo g t fn d c m) (s.ea m) n n .rmw false r → Whole r.s →
        let new : Nat := if t.isInt then
            (match fn with
              | .swap => x
              | .add => (old + x) % 2 ^ t.bits
              | .and => old &&& x
              | .or => old ||| x
              | .xor => old ^^^ x
              | .min => if Num.intVal t x < Num.intVal t old then x else old
              | .max => if Num.intVal t old < Num.intVal t x then x else old)
          else amoFn t fn old x
        let y := homeStep r.s r.pa (Bits.bytesLE n new)
        exec (.amo g t fn d c m) s = .next (match d with
          | some q => answerS y q (Vec.extend t old) 0 (offCore r.s r.pa)
          | none => y)) ∧
      (Granted s (.cas g t e c m) (s.ea m) n n .rmw false r → Whole r.s →
        let new := if old = ((s.rs e).setWidth t.bits).toNat then x else old
        exec (.cas g t e c m) s = .next
          (answerS (homeStep r.s r.pa (Bits.bytesLE n new)) e (Vec.extend t old) 0 (offCore r.s r.pa)))) ∧
  (∀ (g : Guard) (d : Fin 32) (c : Opnd) (m : Mem) (s s1 : State) (pa : Nat) (r : Grant), Runs s g →
      (checkMode s (.xrd g d m) (s.ea m) 16 .read = .ok (s1, pa) → paReg pa = 0 → Granted s (.xrd g d m) (s.ea m) 16 16 .read false r →
        let x := loadBytes r.s r.pa 16
        let v := Num.cellRead (Bits.ofBytesLE x.2.1)
        exec (.xrd g d m) s = .next (answerS x.1 d (BitVec.ofNat 64 v.1) v.2 x.2.2)) ∧
      (checkMode s (.xclr g c m) (s.ea m) 16 .rmw = .ok (s1, pa) → paReg pa = 0 → Granted s (.xclr g c m) (s.ea m) 16 16 .rmw false r → Whole r.s →
        exec (.xclr g c m) s = .next (homeStep r.s r.pa (Bits.bytesLE 16 ((s.src c).toNat % 256 * 2 ^ 120)))) ∧
      (∀ i mode, (i = .xrd g d m ∧ mode = .read) ∨ (i = .xclr g c m ∧ mode = .rmw) →
        (∀ t, checkMode s i (s.ea m) 16 mode = .error (.after s1 t) → t.cause = 0x15 → exec i s = .next (takeTrap s1 ⟨0x16, s.ea m, 0, none⟩)) ∧
        (checkMode s i (s.ea m) 16 mode = .ok (s1, pa) → paReg pa ≠ 0 → exec i s = .next (takeTrap s1 ⟨0x16, s.ea m, 0, none⟩))))

/-- The forms below store nothing: when one answers a next state in which it did not trap, every byte of memory reads as before; so do WBL
and SNAP where no gang has a shadow area. -/
def Obligations.NoStoreForms : Prop :=
  ∀ (s t : State) (i : Instr),
    (match i with
      | .ld .. | .ldv .. | .pref .. | .disc .. | .xlat .. | .rstat .. | .xrd .. | .waite .. | .gtime .. | .tdef .. | .pissue .. | .predeem .. | .pexpire .. | .tqry .. | .pstat ..
      | .cwait .. | .cseq .. | .cfence .. | .cstat .. | .mfs .. | .mts .. | .rdring .. | .pcnt .. | .xinv .. => True
      | .wbl .. => ∀ g, (s.getGang g).shadow = 0
      | .snap .. => s.gang.shadow = 0
      | _ => False) →
    exec i s = .next t → t.grp.trapped = false → s.grp.trapped = false → SameMemory s t

/-- R137, R141, R160: ACC and ACCV whose address passes its checks send one accumulate to the line's home, with the addend at its place and the words it covers as mask, and no byte of memory changes
yet. R141: with a live residual entry of the line, type and class it carries the entry, element by element: where both stand they are added; an entry of another type or class is sent insistent before it, or waits in the core, still
live, to be sent while four of the core's are unanswered at its home.
RSTAT gives the number of live residual entries; RFLUSH with none to send and no answer to wait for goes on. R142, R143: RFLUSH sends every live residual entry in scope insistent, or has it wait to be sent so, and waits while one of these has no answer. -/
def Obligations.Accumulates : Prop :=
  (∀ (g : Guard) (t : Ty) (exact : Bool) (d : Fin 32) (m : Mem) (s s1 : State) (pa : Nat), Runs s g →
      let one := (s.rs d).toNat % 2 ^ t.bits
      let v := (Vec.reg s.view.v d.val).toNat
      let cells := (List.range 4).foldl (fun l k => l + v / 2 ^ (t.bits * k) % 2 ^ t.bits * 2 ^ (128 * k)) 0
      let sends (i : Instr) (n : Nat) (x : Nat) : Prop :=
        checkMode s i (s.ea m) n .rmw = .ok (s1, pa) → (exact = true → paReg pa = 0) → paReg pa ≠ 2 →
        s1.ctx.pair = none → Whole s1 →
        let off := pa % 64
        let mask : BitVec 16 := BitVec.ofNat 16 ((2 ^ (n / 4) - 1) * 2 ^ (off / 4))
        let sent (u : State) (before : List AccMsg) (mask : BitVec 16) (data : Line) : Prop := SameMemory s1 u ∧
          ∃ a, u.accs = s1.accs ++ before ++ [a] ∧ a.src = s1.cur ∧ a.gang = s1.gangId ∧ a.line = pa / 64 ∧ a.ty = t ∧ a.exact = exact ∧
            a.mask = mask ∧ a.data = data ∧ a.insistent = false ∧ a.st = .sent ∧ a.va = s.ea m ∧ a.off = off
        (s1.core.residual.find? (fun e => e.line = pa / 64) = none →
          ∃ u, exec i s = .next u ∧ sent u [] mask (BitVec.ofNat 512 x) ∧ u.core.residual = s1.core.residual) ∧
        (∀ e, s1.core.residual.find? (fun e => e.line = pa / 64) = some e → e.ty = t → e.exact = exact →
          ∃ u data, exec i s = .next u ∧ sent u [] (e.mask ||| mask) data ∧ u.core.residual = s1.core.residual.filter (fun y => y != e) ∧
            (exact = false → t.isInt = true → 8 ≤ t.bits → ∀ k, k < 512 / t.bits →
              let w := t.bits
              let old := e.data.toNat / 2 ^ (w * k) % 2 ^ w
              let new := x % 2 ^ 512 / 2 ^ (w * k) % 2 ^ w
              mask.getLsbD (k * w / 32) = true →
                data.toNat / 2 ^ (w * k) % 2 ^ w = if e.mask.getLsbD (k * w / 32) then (old + new) % 2 ^ w else new)) ∧
        (∀ e, s1.core.residual.find? (fun e => e.line = pa / 64) = some e → e.ty ≠ t ∨ e.exact ≠ exact →
          (e.sending = none → insistentFull s1 s1.coreKey e.line = false →
            ∃ u b, exec i s = .next u ∧ sent u [b] mask (BitVec.ofNat 512 x) ∧ b.insistent = true ∧ b.line = e.line ∧ b.mask = e.mask ∧
              b.data = e.data ∧ b.ty = e.ty ∧ b.exact = e.exact) ∧
          (e.sending.isSome ∨ insistentFull s1 s1.coreKey e.line = true →
            ∃ u e', exec i s = .next u ∧ sent u [] mask (BitVec.ofNat 512 x) ∧ e' ∈ u.core.residual ∧ e'.sending.isSome ∧ e'.line = e.line ∧
              e'.mask = e.mask ∧ e'.data = e.data))
      sends (.acc g t exact d m) (if exact then 16 else t.bits / 8) (one * 2 ^ (8 * (pa % 64))) ∧
      sends (.accv g t exact d m) 64 (if exact then cells else v) ∧
      exec (.rstat g d) s = .next (countRemote (s.putS d (BitVec.ofNat 64 s.core.residual.length))) ∧
      (∀ r, s.ctx.wait = none → s.core.residual = [] → (∀ a ∈ s.accs, a.src / 4 ≠ s.coreKey) →
        ∃ u, exec (.rflush g r) s = .next u ∧ u.ctx.wait = none ∧ u.mem = s.mem)) ∧
  (∀ (g : Guard) (s : State), Runs s g → s.ctx.wait = none → s.core.residual ≠ [] → (∀ e ∈ s.core.residual, e.sending = none) →
      ∃ u b, exec (.rflush g .all) s = .next u ∧ u.ctx.wait = some (.flush .all .rflush b) ∧ u.mem = s.mem ∧
        (∀ m ∈ u.accs.drop s.accs.length, m.insistent = true ∧ m.seq < b) ∧
        ∀ e ∈ s.core.residual, (∃ m ∈ u.accs.drop s.accs.length, m.line = e.line ∧ m.mask = e.mask ∧ m.data = e.data) ∨
          ∃ q, { e with sending := some q } ∈ u.core.residual ∧ q.2 < b)

/-- R137 to R143, R160, R162: the steps of an accumulate: at its home it is accepted, and its line holds the sum in the element type or the exact sum (the sum of integers is written out), or it is
refused and no byte changes; the answer of an accepted one reaches the context's answer set, and the core keeps its stamp for a later flush; the addend of a refused one becomes a live entry
of the residual tile and REFU counts it, after an entry there of another type or class has been sent insistent; an entry whose AGE has reached 65,536 is sent insistent, or waits
in the core, still live, while four of the core's are unanswered at its home, and is freed when its send starts, as an answer comes; when a window has ended, whole windows of the W then in force follow it and the counts are clear. -/
def Obligations.AccumulateSteps : Prop :=
  (∀ (i : Nat) (m : AccMsg) (s : State), s.accs[i]? = some m → m.st = .sent → (s.getGang m.gang).st = .running →
    let pa := m.line * 64
    let k := m.src / 4
    let slice := sliceOf s (s.getGang m.gang) pa
    let s1 := if paReg pa = 0 then rollWindow s slice else s
    let x := s1.getSlice slice
    let table := x.table.drop (Config.tableFreed s.free)
    let q := ctrlRaw s (blockPa (slice / 512) (.slice (slice % 512)) 0x100)
    let full := (q ≠ 0 ∧ q.toNat ≤ mget 0 k x.counts) ∨ (m.line ∉ table ∧ 32 ≤ table.length)
    let refused := m.insistent = false ∧ paReg pa = 0 ∧ full
    targetAllows s k m.gang (s.getGang m.gang).asid pa true true = true →
    (¬ refused → poisoned (homeRead s .ctx pa) pa = false → s.mem.wf = true → m.gang = 0 ∨ (s.getGang m.gang).shadow = 0 →
      let y := s.numAt pa 64
      let z := if m.exact then exactAdd m.ty m.cells m.mask y m.data.toNat else lineAdd m.ty m.mask y m.data.toNat
      ∃ t stamp, exec (.accumulateArrival i) s = .next t ∧ t.accs[i]? = some { m with st := .accepted stamp } ∧
        t.numAt pa 64 = z % 2 ^ 512 ∧ SameMemoryBut s t pa 64 ∧ (s.getLine m.line).rts < stamp ∧
        (m.exact = false → m.ty.isInt = true → 8 ≤ m.ty.bits → ∀ j, j < 512 / m.ty.bits →
          let w := m.ty.bits
          let old := y / 2 ^ (w * j) % 2 ^ w
          t.numAt pa 64 / 2 ^ (w * j) % 2 ^ w =
            if m.mask.getLsbD (j * w / 32) then (old + m.data.toNat / 2 ^ (w * j) % 2 ^ w) % 2 ^ w else old)) ∧
    (refused → ∃ t n, exec (.accumulateArrival i) s = .next t ∧ t.accs[i]? = some n ∧ n.st = .refused ∧ n.line = m.line ∧ t.mem = s.mem)) ∧
  (∀ (k i : Nat) (m : AccMsg) (s : State), s.accs[i]? = some m → m.src / 4 = k → runsOn s k = true →
    (∀ n, n < 4 → (s.getCtx (4 * k + n)).wait = none) → (∀ e ∈ (s.getCore k).residual, e.sending = none) →
    (∀ stamp, m.st = .accepted stamp →
      let e : Instr := if m.insistent then .insistentAck k i else .acceptanceAnswer k i
      ∃ t, exec e s = .next t ∧ t.accs = s.accs.eraseIdx i ∧ (t.getCtx m.src).answers = (s.getCtx m.src).answers ++ [(m.line, stamp)] ∧ t.mem = s.mem ∧
        (if paPkg (m.line * 64) = k / 4096 then stamp ≤ (t.getCore k).accLocal else stamp ≤ (t.getCore k).accOther)) ∧
    (m.st = .refused → (s.getCore k).residual.length < 32 →
      ((s.getCore k).residual.find? (fun e => e.line = m.line) = none →
        ∃ t, exec (.refusalReturn k i) s = .next t ∧ t.accs = s.accs.eraseIdx i ∧ (t.getCore k).refu = (s.getCore k).refu + 1 ∧ t.mem = s.mem ∧
          (t.getCore k).residual = (s.getCore k).residual ++ [⟨m.line, m.exact, m.ty, m.mask, m.data, m.born.getD s.now, none⟩]) ∧
      (∀ e, (s.getCore k).residual.find? (fun e => e.line = m.line) = some e → e.ty = m.ty → e.exact = m.exact →
        ∃ t e', exec (.refusalReturn k i) s = .next t ∧ e' ∈ (t.getCore k).residual ∧ e'.line = m.line ∧ e'.mask = e.mask ||| m.mask ∧
          e'.data = BitVec.ofNat 512 (combine m.ty m.exact e.mask e.data.toNat m.mask m.data.toNat) ∧ t.accs = s.accs.eraseIdx i) ∧
      (∀ e, (s.getCore k).residual.find? (fun e => e.line = m.line) = some e → e.ty ≠ m.ty ∨ e.exact ≠ m.exact →
        (insistentFull s k e.line = false → ∃ t b, exec (.refusalReturn k i) s = .next t ∧ t.accs = s.accs.eraseIdx i ++ [b] ∧ b.insistent = true ∧
          b.line = e.line ∧ b.mask = e.mask ∧ b.data = e.data ∧ t.mem = s.mem ∧
          (t.getCore k).residual = (s.getCore k).residual.filter (fun x => x != e) ++ [⟨m.line, m.exact, m.ty, m.mask, m.data, m.born.getD s.now, none⟩]) ∧
        (insistentFull s k e.line = true → exec (.refusalReturn k i) s = .next s)))) ∧
  (∀ (k i : Nat) (m : AccMsg) (s : State) (stamp src seq : Nat) (e : Residual), s.accs[i]? = some m → m.src / 4 = k → runsOn s k = true →
    m.st = .accepted stamp → (∀ n, n < 4 → (s.getCtx (4 * k + n)).wait = none) → (s.getCore k).residual.Nodup → e ∈ (s.getCore k).residual →
    e.sending = some (src, seq) → (∀ x ∈ (s.getCore k).residual, x ≠ e → x.sending = none) →
    insistentFull { s with accs := s.accs.eraseIdx i } k e.line = false →
    let ev : Instr := if m.insistent then .insistentAck k i else .acceptanceAnswer k i
    ∃ t b, exec ev s = .next t ∧ t.accs = s.accs.eraseIdx i ++ [b] ∧ b.insistent = true ∧ b.line = e.line ∧ b.mask = e.mask ∧ b.data = e.data ∧
      b.seq = seq ∧ (t.getCore k).residual = (s.getCore k).residual.filter (fun x => x != e) ∧ t.mem = s.mem) ∧
  (∀ (k : Nat) (e : Residual) (s : State), runsOn s k = true →
    (s.getCore k).residual.find? (fun e => e.sending.isNone && decide (e.born + 65536 ≤ s.now)) = some e →
    (insistentFull s k e.line = false →
      ∃ t m, exec (.residualAgeExpiry k) s = .next t ∧ (t.getCore k).residual = (s.getCore k).residual.filter (fun x => x != e) ∧
        t.accs = s.accs ++ [m] ∧ m.insistent = true ∧ m.line = e.line ∧ m.data = e.data ∧ m.mask = e.mask ∧ m.st = .sent ∧ t.mem = s.mem ∧
        (t.getCore k).insi = (s.getCore k).insi + 1) ∧
    (insistentFull s k e.line = true →
      ∃ t q, exec (.residualAgeExpiry k) s = .next t ∧ { e with sending := some q } ∈ (t.getCore k).residual ∧ t.accs = s.accs ∧ t.mem = s.mem ∧
        (t.getCore k).insi = (s.getCore k).insi)) ∧
  (∀ (i : Nat) (s : State),
    let x := s.getSlice i
    let b := x.start + x.len
    let w := max 16 (ctrlRaw s (blockPa (i / 512) (.slice (i % 512)) 0x108)).toNat
    (s.now < b → exec (.accumulateWindowEnd i) s = .next s) ∧
    (b ≤ s.now → exec (.accumulateWindowEnd i) s = .next (s.setSlice i { x with start := b + (s.now - b) / w * w, len := w, counts := [] })))

/-- R134, R135: FLD without a record of a full future has its value in its register when its group ends; on an empty one it raises 0x17, and one with a record writes the record, which holds where its task
goes on, puts it at the future's HEAD before the earlier ones, and suspends its task; FST fills an empty future and queues a continuation for each record in the list's order (shown for none and for
two), and on a full one raises 0x17; FRST of a full future makes it empty, and of one with waiters raises 0x18. -/
def Obligations.Futures : Prop :=
  ∀ (g : Guard) (d : Fin 32) (m : Mem) (s s1 : State) (pa : Nat) (r : Grant), Runs s g →
    (checkMode s (.fld g d none m) (s.ea m) 16 .read = .ok (s1, pa) → Granted s1 (.fld g d none m) (s.ea m) 16 16 .read false r →
      let f := r.s.mem.readLE r.pa 16
      (futureFull f = true →
        let x := loadBytes (dropEmptyCopy r.s r.pa) r.pa 16
        let v : Word := BitVec.ofNat 64 (Bits.ofBytesLE x.2.1 % 2 ^ 64)
        exec (.fld g d none m) s = .next (if x.2.2 then countRemote (x.1.putS d v) else x.1.putS d v) ∧
          (paReg r.pa = 1 → padCore r.pa = r.s.coreKey → Bits.ofBytesLE x.2.1 = f ∧ x.2.2 = false)) ∧
      (futureFull f = false → exec (.fld g d none m) s = .next (takeTrap r.s ⟨0x17, s.ea m, 0, none⟩))) ∧
    (∀ (c : Fin 32) (s2 : State) (a : Nat), checkMode s (.fld g d (some c) m) (s.ea m) 16 .rmw = .ok (s1, pa) →
      checkMode s1 (.fld g d (some c) m) (s.rs c) 32 .write = .ok (s2, a) → paReg a ≠ 2 →
      Granted s2 (.fld g d (some c) m) (s.ea m) 16 16 .rmw false r → futureFull (r.s.mem.readLE r.pa 16) = false →
      targetAllows r.s r.s.coreKey r.s.gangId r.s.gang.asid a false true = true → poisoned r.s a = false →
      overlapping r.s.core a 32 = none → Whole r.s →
      ∃ u, exec (.fld g d (some c) m) s = .next u ∧ (u.getCtx r.s.cur).live = false ∧
        (r.s.mem.wf = true → r.s.gang.shadow = 0 → (a + 32 ≤ r.pa ∨ r.pa + 16 ≤ a) →
          let f := r.s.mem.readLE r.pa 16
          u.mem.readLE r.pa 16 = f % 2 ^ 64 + a / 32 % 2 ^ 59 * 2 ^ 69 ∧
          u.mem.bytes a 32 = Bits.bytesLE 8 s.grp.next.toNat ++ Bits.bytesLE 8 (s.rs 1).toNat ++ Bits.bytesLE 8 (f / 2 ^ 69 * 32) ++
            [BitVec.ofNat 8 d.val, BitVec.ofNat 8 ((s.ctx.packet.map (·.prio)).getD s.ctx.prio % 4)] ++ Bits.bytesLE 2 (s.coreKey % 4096) ++
            Bits.bytesLE 2 s.pkg ++ [0, 0] ∧
          ∀ x, (x < r.pa ∨ r.pa + 16 ≤ x) → (x < a ∨ a + 32 ≤ x) → u.mem.read x = s.mem.read x)) ∧
    (s.ctx.walking = none → Granted s (.fst g d m) (s.ea m) 16 16 .rmw false r → Whole r.s →
      let f := r.s.mem.readLE r.pa 16
      let filled := homeStep r.s r.pa (Bits.bytesLE 16 ((s.rs d).toNat + 2 ^ 64))
      let rd (x o n : Nat) : Nat := r.s.mem.readLE (x + o) n
      let cont (x : Nat) : Cont := ⟨coreKeyOf (rd x 28 2 % 4096) (rd x 26 2 % 4096), rd x 25 1 % 4, BitVec.ofNat 64 (rd x 0 8), BitVec.ofNat 64 (rd x 8 8),
        Fin.ofNat 32 (rd x 24 1), s.rs d⟩
      let queued (u : State) (x : Nat) : State :=
        enqueue u (u.getCore (cont x).core).gang (queueKey 1 (cont x).core) (cont x).prio ⟨0, some (cont x), u.now, filled.ctx.pts⟩
      let room (u : State) (x : Nat) : Prop := queueFull u (u.getCore (cont x).core).gang (queueKey 1 (cont x).core) = false
      (futureFull f = false → futureHead f = 0 → exec (.fst g d m) s = .next filled) ∧
      (∀ b, futureFull f = false → futureHead f ≠ 0 → rd (futureHead f) 16 8 = b → b ≠ 0 → rd b 16 8 = 0 →
        Sound r.s (futureHead f) → Sound r.s b → room filled (futureHead f) →
        room (queued filled (futureHead f)) b → exec (.fst g d m) s = .next (queued (queued filled (futureHead f)) b)) ∧
      (futureFull f = true → exec (.fst g d m) s = .next (takeTrap r.s ⟨0x17, s.ea m, 0, none⟩))) ∧
    (Granted s (.frst g m) (s.ea m) 16 16 .rmw false r → Whole r.s →
      let f := r.s.mem.readLE r.pa 16
      (futureFull f = true → exec (.frst g m) s = .next (homeStep r.s r.pa (Bits.bytesLE 16 0))) ∧
      (futureFull f = false → futureHead f ≠ 0 → exec (.frst g m) s = .next (takeTrap r.s ⟨0x18, s.ea m, 0, none⟩)))

/-! ### Vector forms -/

/-- R198, R202, R204, R205, R213 to R224: a vector form on v registers whose groups stay in v0 to v31 and whose shape it accepts is dispatched: the
v registers take its result (those of a pair of vector forms each their own, R56), it has the next ring entry and sequencer entry, an s destination is
empty until it completes, and no memory, predicate or other context changes. That the v registers take the result at the dispatch is the model's choice (log 9). R71, R202: a vector form whose group would pass v31 raises 0x08, whatever its guard. The forms are those that `vectorGroups` names:
VMOV, VBCAST, VEXT, VINS, VADD, VSUB, VMUL, VFMA, VFMS, VFNMA, VDIV, VSQRT, VMIN, VMAX, VABS, VNEG, VCMP, VSEL,
VAND, VOR, VXOR, VSHL, VSHR, VSHA, VCVT, VPACK, VUNPK, VRED, VSCAN, VPERM, VSLIDE, VSF, VMACW, VADDW, VCLASS, VROUND, VTRN and VDOT. -/
def Obligations.VectorForms : Prop :=
  (∀ (s : State) (i : Instr) (g : Guard) (gs : List (Fin 32 × Nat)),
      WellFormed i → s.view.capture = none →
      vectorGroups (Vec.Shape.ofWord s.view.vsh.toNat) i = some (g, gs) → Runs s g → (∀ x ∈ gs, x.1.val + x.2 ≤ 32) →
      DispatchReady s → s.core.seq.length < 16 →
      let q := nextTseq s.core.tseq
      let o := Vec.run i (capOf (entryFor s i q) 0) s.view.v
      ∃ t, exec i s = .next t ∧ Dispatched s t i 1 ∧ t.ctx.v = mergeV s.view.v o.v s.ctx.v ∧ t.core.seq = s.core.seq ++ [q] ∧
        (t.core.entry q).flags = o.fl ∧ (t.core.entry q).result = o.res.getD 0 ∧ (t.core.entry q).dest = vecDest i ∧
        (∀ d, vecDest i = some d → d ≠ 0 → t.ctx.full.getLsbD d.val = false) ∧ SameMemory s t ∧ t.ctx.p = s.ctx.p ∧ t.ctx.s = s.ctx.s ∧
        ∀ k, k ≠ s.cur → t.getCtx k = s.getCtx k) ∧
  (∀ (s : State) (i : Instr) (g : Guard) (gs : List (Fin 32 × Nat)),
      WellFormed i → s.view.capture = none →
      vectorGroups (Vec.Shape.ofWord s.view.vsh.toNat) i = some (g, gs) → (∃ x ∈ gs, 32 < x.1.val + x.2) →
      exec i s = .next (takeTrap s ⟨0x08, (slotInfo s i).1, (slotInfo s i).2, none⟩))

/-- R61, R72, R213 to R216, R220, R223: what active element k of a destination group holds after a form, from the elements k of its sources: the
logic and shift forms and the selections; the integer forms modulo 2^w, or clipped with .sat; the widening ones in the wide type; the floating sum, difference, product, quotient, root
and fused forms, exact and rounded once. Of every vector form, each register outside the destination group (`vecWrites`) is as before. -/
def Obligations.VectorElements : Prop :=
  (∀ (c : Vec.Cap) (g : Guard) (rc : Rc) (cc : Cond) (t : Ty) (v : Vector Line 32) (d a b e : Fin 32) (k : Nat),
    let w := t.bits
    let n := c.sh.n w
    let m := c.sh.rows * n
    let x := Vec.getE w n v (a.val + c.shift) k
    let y := Vec.getE w n v (b.val + c.shift) k
    let z := Vec.getE w n v (e.val + c.shift) k
    let int (q : Nat) : Int := if t.signed then (BitVec.ofNat w q).toInt else q
    let at_ (i : Instr) : Nat := Vec.getE w n (Vec.run i c v).v (d.val + c.shift) k
    k < m → 0 < n → d.val + c.shift + c.sh.rows ≤ 32 →
    at_ (.vmov g d a) = x ∧
    at_ (.vand g t d a (.v b)) = x &&& y ∧ at_ (.vor g t d a (.v b)) = x ||| y ∧ at_ (.vxor g t d a (.v b)) = x ^^^ y ∧
    at_ (.vshl g t d a (.v b)) = x * 2 ^ (y % w) % 2 ^ w ∧ at_ (.vshr g t d a (.v b)) = x / 2 ^ (y % w) ∧
    at_ (.vsha g t d a (.v b)) = ((BitVec.ofNat w x).sshiftRight (y % w)).toNat ∧
    at_ (.vsel g t d (.v a) (.v b) e) = (if z ≠ 0 then x else y) ∧
    at_ (.vperm g t d a b) = Vec.getE w n v (a.val + c.shift) (y % m) ∧
    (t.isInt = true →
      at_ (.vadd g t rc false d a (.v b)) = (x + y) % 2 ^ w ∧
      at_ (.vsub g t rc false d a (.v b)) = (x + (2 ^ w - y)) % 2 ^ w ∧
      at_ (.vmul g t rc false d a (.v b)) = (x * y) % 2 ^ w ∧
      at_ (.vfma g t rc false d a (.v b) (.v e)) = (x * y + z) % 2 ^ w ∧
      at_ (.vfms g t rc false d a (.v b) (.v e)) = (x * y + (2 ^ w - z)) % 2 ^ w ∧
      at_ (.vfnma g t rc false d a (.v b) (.v e)) = (z + (2 ^ w - x * y % 2 ^ w)) % 2 ^ w ∧
      int (at_ (.vadd g t rc true d a (.v b))) = max (Num.intMin t) (min (Num.intMax t) (int x + int y)) ∧
      int (at_ (.vsub g t rc true d a (.v b))) = max (Num.intMin t) (min (Num.intMax t) (int x - int y)) ∧
      at_ (.vmin g t d a (.v b)) = (if int y < int x then y else x) ∧
      at_ (.vmax g t d a (.v b)) = (if int x < int y then y else x) ∧
      at_ (.vabs g t false d a) = (int x).natAbs % 2 ^ w ∧
      at_ (.vneg g t false d a) = (2 ^ w - x) % 2 ^ w ∧
      at_ (.vcmp g t cc false d a (.v b)) = (if intCond cc (int x) (int y) then 2 ^ w - 1 else 0)) ∧
    (t.isFlt = true →
      let f := Num.fmtOf t
      let rm := Vec.rmOf rc c.rm
      let r (q : Num.Val × Num.Flg) : Nat := (Num.packR f rm q).1 % 2 ^ w
      let X := Num.unpack f x
      let Y := Num.unpack f y
      let Z := Num.unpack f z
      at_ (.vadd g t rc false d a (.v b)) = r (Num.addV rm X Y) ∧
      at_ (.vsub g t rc false d a (.v b)) = r (Num.subV rm X Y) ∧
      at_ (.vmul g t rc false d a (.v b)) = r (Num.mulV X Y) ∧
      at_ (.vdiv g t rc d a (.v b)) = r (Num.divV X Y) ∧
      at_ (.vsqrt g t rc d a) = r (Num.sqrtV X) ∧
      at_ (.vfma g t rc false d a (.v b) (.v e)) = r (Num.fmaV rm X Y Z) ∧
      at_ (.vfms g t rc false d a (.v b) (.v e)) = r (Num.fmaV rm X Y Z.flip) ∧
      at_ (.vfnma g t rc false d a (.v b) (.v e)) = r (Num.fmaV rm X.flip Y Z) ∧
      at_ (.vabs g t false d a) = x % 2 ^ (w - 1) ∧
      at_ (.vneg g t false d a) = x ^^^ 2 ^ (w - 1))) ∧
  (∀ (c : Vec.Cap) (g : Guard) (rc : Rc) (t : Ty) (v : Vector Line 32) (d a b : Fin 32) (k : Nat),
    let wide := Vec.wideOf t
    let n := c.sh.n wide.bits
    let int (u : Ty) (r : Fin 32) : Int := Num.intVal u (Vec.getE u.bits n v (r.val + c.shift) k)
    let at_ (i : Instr) : Nat := Vec.getE wide.bits n (Vec.run i c v).v (d.val + c.shift) k
    k < c.sh.rows * n → 0 < n → d.val + c.shift + c.sh.rows ≤ 32 → t.isInt = true →
    at_ (.vmacw g t rc false d a (.v b)) = (BitVec.ofInt wide.bits (int wide d + int t a * int t b)).toNat ∧
    at_ (.vaddw g t rc false d a (.v b)) = (BitVec.ofInt wide.bits (int wide a + int t b)).toNat) ∧
  (∀ (c : Vec.Cap) (i : Instr) (v : Vector Line 32) (r : Nat), 0 < c.sh.rows → c.sh.rows ≤ 8 → r < 32 →
    (∀ x ∈ vecWrites c.sh i, r < x.1.val + c.shift ∨ x.1.val + c.shift + x.2 ≤ r) → Vec.reg (Vec.run i c v).v r = Vec.reg v r)

/-- R201, R204, R213: VSHAPE writes a legal shape and raises 0x22 on another; VREP opens a capture of its count, span and stride at its group; both
take a TSEQ whose entry is free at once. -/
def Obligations.VectorControl : Prop :=
  ∀ (g : Guard) (src : VshSrc) (count : BitVec 8) (span : BitVec 4) (stride : BitVec 3) (s : State), Runs s g →
    DispatchReady s → s.core.seq.length < 16 →
    let x : Word := match src with
      | .imm v => v.setWidth 64
      | .reg n => s.rs n
    (Vec.legalVsh x.toNat = true → ∃ t, exec (.vshape g src) s = .next t ∧ t.ctx.vsh = x ∧ Dispatched s t (.vshape g src) 0 ∧ SameMemory s t ∧
      t.ctx.v = s.ctx.v ∧ t.ctx.s = s.ctx.s) ∧
    (Vec.legalVsh x.toNat = false → exec (.vshape g src) s = .next (takeTrap s ⟨0x22, x, (slotInfo s (.vshape g src)).2, none⟩)) ∧
    (∃ t, exec (.vrep g count span stride) s = .next t ∧ Dispatched s t (.vrep g count span stride) 0 ∧ SameMemory s t ∧
      t.ctx.capture = some ⟨s.grp.first, count.toNat + 256 * span.toNat + 4096 * stride.toNat, []⟩ ∧ t.ctx.v = s.ctx.v)

/-- R221: VGATH and VSCAT with one active element in the own scratchpad whose address passes its checks: VGATH writes the element and no
memory, VSCAT stores it. An address that fails gives the imprecise cause 0x21 in the ring entry, with the element number. That they take their
effect in the step that dispatches them is the model's choice (log 9). -/
def Obligations.GatherScatter : Prop :=
  ∀ (s s1 : State) (g : Guard) (t : Ty) (sh : Fin 16) (d a b : Fin 32) (pa : Nat) (load : Bool), Runs s g → DispatchReady s →
    let i : Instr := if load then .vgath g t sh d a b else .vscat g t sh d a b
    let q := nextTseq s.core.tseq
    let c := capOf (entryFor s i q) 0
    let n := c.sh.n t.bits
    let w := t.bits / 8
    s.core.seq.length < 16 → d.val + c.sh.rows ≤ 32 → b.val + c.sh.rows ≤ 32 → c.sh.rows * n = 1 → s.ctx.pair = none → s.ctx.live = true →
    s.view.capture = none →
    (∀ ea, elemAddrs c t sh s.view.v b = [ea] → checkEA s ea w (if load then .read else .write) = .ok (s1, pa) →
      paReg pa = 1 → padCore pa = s.coreKey → s1.gang.kept = [] → s1.core.scoreboard = [] → Whole s1 →
      ∃ u, exec i s = .next u ∧ Dispatched s u i 1 ∧
        (load = true → u.mem = s1.mem ∧ u.ctx.v = Vec.setE t.bits n s1.ctx.v d.val 0 (s1.numAt pa w)) ∧
        (load = false → u.mem = (storeAt s1 pa (Bits.bytesLE w (Vec.getE t.bits n s.view.v d.val 0))).mem)) ∧
    (∀ ea x, elemAddrs c t sh s.view.v b = [ea] → checkEA s ea w (if load then .read else .write) = .error (.trap x) ∨ checkEA s ea w (if load then .read else .write) = .error (.after s1 x) →
      ∃ u, exec i s = .next u ∧ Dispatched s u i 3 ∧ (u.core.entry q).cause = 0x21 ∧ (u.core.entry q).infoA = ea ∧
        (u.core.entry q).infoB = BitVec.ofNat 64 x.cause ∧ SameMemory s u)

/-- R199, R204 to R207, R236, R292: the steps of dispatched forms: the wide unit starts the oldest form, outside the open captures and not held back by an earlier form of its context on its v registers (R198), of the first core
in rotation that has one and is in no phase, and a VSF goes into the special-function queue; a form that completes outside a phase frees its entry, ORs its flags into ASR (R206: not into that of a later task) and writes its s result; a full capture runs its
passes and closes; the head of the array queue that is no GMMA takes its effect; a faulted entry and an engine error are taken as imprecise traps by a context whose group has not begun, with TSEQ
the entry's number and 0. -/
def Obligations.DispatchedSteps : Prop :=
  (∀ (s : State) (j t : Nat) (pre rest : List Nat),
    let q := s.subject
    let at_ (i : Nat) : Nat := 4 * q + ((s.getQuad q).last.val + 1 + i) % 4
    let k := at_ j
    let held (y x : Nat) : Prop := (∃ n cap, n < 4 ∧ (s.getCtx (4 * y + n)).capture = some cap ∧ x ∈ cap.forms) ∨ waitsFor (s.getCore y) x = true
    let sf := decide (((s.getCore k).entry t).insn.toNat / 2 ^ 88 = 0x93)
    j < 4 → (∀ i, i < j → (s.getCore (at_ i)).phase = none → ∀ x ∈ (s.getCore (at_ i)).seq, held (at_ i) x) →
    (s.getCore k).phase = none → (s.getCore k).seq = pre ++ t :: rest → (∀ x ∈ pre, held k x) → ¬ held k t →
    ∃ u, exec .wideUnitStart s = .next u ∧ (u.getCore k).seq = (s.getCore k).seq.filter (fun x => x != t) ∧
      ((u.getCore k).entry t).stage = (if sf then 2 else 1) ∧ 4 * q + (u.getQuad q).last.val = k ∧
      (u.getQuad q).vsfq = (s.getQuad q).vsfq ++ (if sf then [(k, t)] else []) ∧ u.mem = s.mem) ∧
  (∀ (s : State) (k q : Nat),
    let e := (s.getCore k).entry q
    let key := 4 * k + e.ctx.val
    let done (i : Instr) : Prop := ∃ t, exec i s = .next t ∧ ((t.getCore k).entry q).state = 0 ∧ t.mem = s.mem ∧
      (t.getCtx key).asr = (if e.orphan then (s.getCtx key).asr else (s.getCtx key).asr ||| (e.flags.setWidth 64 <<< 8)) ∧
      (∀ d, e.dest = some d → d ≠ 0 → (s.getCtx key).full.getLsbD d.val = false →
        (t.getCtx key).s[d] = e.result ∧ (t.getCtx key).full.getLsbD d.val = true)
    (e.state = 1 → e.stage = 1 → e.tseq = q → (s.getCore k).phase = none → waitsFor (s.getCore k) q = false → done (.dispatchedComplete k q)) ∧
    (∀ rest, (s.getQuad s.subject).vsfq = (k, q) :: rest → done .vsfQueueExit)) ∧
  (∀ (s u : State) (k : Nat) (c : Fin 4) (cap : Capture),
    let key := 4 * k + c.val
    (s.getCtx key).capture = some cap → cap.rep / 256 % 16 < cap.forms.length →
    runPasses cap { s with cur := key, grp := Group.idle } (passList cap) = .ok u → u.cur = key →
    ∃ t, exec (.vrepPass k c) s = .next t ∧ (t.getCtx key).capture = none ∧ t.mem = u.mem ∧ (t.getCtx key).v = (u.getCtx key).v) ∧
  (∀ (s u : State) (k : Nat) (f : ArrayForm) (rest : List ArrayForm), (s.getCore k).arrayQ = f :: rest → headGmma (s.getCore k) = none →
    let e := (s.getCore k).entry f.tseq
    finishArray f (runArray (openScript { s with cur := 4 * k + e.ctx.val, grp := Group.idle } (arrayScript k)) f e) = .ok u →
    exec (.arrayFormStart k) s = .next { closeScript (popArray u k) true with cur := s.cur }) ∧
  (∀ (s : State) (k : Nat) (c : Fin 4),
    let key := 4 * k + c.val
    awake s key = true → atGroup s key = true → deliverable s key = true →
    (∀ e, oldestFault (s.getCore k) c.val = some e →
      let s1 := s.setCore k { s.getCore k with ring := mset (e.tseq % 64) { e with taken := true } (s.getCore k).ring }
      ∃ t, exec (.impreciseFaultDelivery k c) s = .next t ∧
        ∀ x, t.getCtx x = (enterTrap s1 key ⟨e.cause, e.infoA, e.infoB, none⟩ true e.tseq).getCtx x) ∧
    (∀ e rest, oldestFault (s.getCore k) c.val = none → (s.getCtx key).errors = e :: rest →
      exec (.engineErrorDelivery k c) s = .next (enterTrap
        (s.setCtx key { s.getCtx key with errors := rest, pts := max (s.getCtx key).pts e.cts }) key ⟨e.cause, e.infoA, e.infoB, none⟩ true 0)))

/-! ### Matrix and prism forms -/

/-- R234: MCLAIM takes a free claim; MRLS by the holder, with no matrix or prism form in flight and no context waiting, frees it, and an MRLS whose wait has ended goes on; without the claim it
raises 0x30. R234: a claim that its holder has given up passes to the first waiting context once no matrix or prism form is in flight. -/
def Obligations.MatrixClaim : Prop :=
  (∀ (g : Guard) (s : State), Runs s g → s.grp.waited = some .released → exec (.mrls g) s = .next s) ∧
  (∀ (g : Guard) (s : State), Runs s g → (s.core.entry (nextTseq s.core.tseq)).state = 0 → s.grp.waited ≠ some .released →
      (s.core.claim = none → ∃ t, exec (.mclaim g) s = .next t ∧ t.core.claim = some s.ctxNo ∧ t.core.releasing = false ∧ t.mem = s.mem) ∧
      (holdsClaim s = true → matrixBusy s.core = false → claimWaiter s s.coreKey s.ctxNo = none → s.ctx.wait = none →
        ∃ t, exec (.mrls g) s = .next t ∧ t.core.claim = none ∧ t.ctx.wait = none ∧ t.mem = s.mem) ∧
      (holdsClaim s = false → ∃ a b, exec (.mrls g) s = .next (takeTrap s ⟨0x30, a, b, none⟩))) ∧
  (∀ (s : State) (k : Nat) (h n : Fin 4), (s.getCore k).claim = some h → (s.getCore k).releasing = true → matrixBusy (s.getCore k) = false →
      claimWaiter s k h = some n →
      ∃ t, exec (.claimHandover k) s = .next t ∧ (t.getCore k).claim = some n ∧ (t.getCore k).releasing = false ∧
        (t.getCtx (4 * k + n.val)).wait = none ∧ t.mem = s.mem)

/-- R241, R247: a GMMA whose group lies in the gang waits in the array queue under the next count; a group with a core outside the gang faults at
once with the imprecise cause 0x35. R247: a join: every core of the group takes the product of the leader's A and its own B into its own accumulator, and its GMMA leaves the head; where two GMMAs of the number
that meet differ, every core of the largest group among them that has brought its own takes 0x35 and no accumulator changes; one that has waited
WLIMIT cycles at the head leaves with cause 0x36. -/
def Obligations.GroupProducts : Prop :=
  (∀ (g : Guard) (t : Ty) (rc : Rc) (d a b : Fin 8) (grp : BitVec 2) (s : State), Runs s g → ArrayReady s →
      let i : Instr := .gmma g t rc d a b grp
      let q := nextTseq s.core.tseq
      shapeOk s.core.tsh i = true → s.ctx.live = true →
      ((∀ k ∈ gmmaGroup s.coreKey grp, (s.getCore k).gang = s.gangId) →
        ∃ u, exec i s = .next u ∧ Dispatched s u i 1 ∧ u.core.gmma = s.core.gmma + 1 ∧
          u.core.arrayQ.map (fun f => (f.instr, f.tseq, f.n)) = [(i, q, s.core.gmma + 1)]) ∧
      ((∃ k ∈ gmmaGroup s.coreKey grp, (s.getCore k).gang ≠ s.gangId) →
        ∃ u, exec i s = .next u ∧ Dispatched s u i 3 ∧ (u.core.entry q).cause = 0x35)) ∧
  (∀ (s : State) (k : Nat) (f : ArrayForm), headGmma (s.getCore k) = some f →
      let ks := gmmaGroup k (gmmaSpan s k f.n 4 (gmmaKey f).1)
      (∀ (lf : ArrayForm) (lg : Guard) (lt : Ty) (lrc : Rc) (ld la lb : Fin 8) (lgrp : BitVec 2),
        (∀ y ∈ ks, (nthGmma s f.n y).map gmmaKey = some (gmmaKey f)) →
        headGmma (s.getCore (ks.headD k)) = some lf → lf.instr = .gmma lg lt lrc ld la lb lgrp →
        ∃ t, exec (.gmmaJoin k) s = .next t ∧ t.mem = s.mem ∧
          ∀ y ∈ ks, ∀ fy g ty rc d a b grp, headGmma (s.getCore y) = some fy → fy.instr = .gmma g ty rc d a b grp →
            let c := s.getCore y
            let leader := s.getCore (ks.headD k)
            (t.getCore y).arrayQ.length + 1 = c.arrayQ.length ∧ (t.getCore y).tiles = c.tiles ∧
            (t.getCore y).accs = (addProduct c ty d (Mat.mma ty (Vec.rmOf rc (Num.Rm.ofCode (c.entry fy.tseq).rm.toNat)) (shapeAt lf.tsh la) (shapeAt fy.tsh b)
              leader.tiles[la].toNat c.tiles[b].toNat (accPair c d).1 (accPair c d).2)).accs ∧
            ((t.getCore y).entry fy.tseq).stage = 1) ∧
      (∀ y fy, y ∈ ks → nthGmma s f.n y = some fy → gmmaKey fy ≠ gmmaKey f →
        (∀ x ∈ ks, ∀ fx, nthGmma s f.n x = some fx → (s.getCore x).releasing = false ∧
          (s.getCtx (4 * x + ((s.getCore x).entry fx.tseq).ctx.val)).live = true ∧ ((s.getCore x).entry fx.tseq).orphan = false) →
        ∃ t, exec (.gmmaJoin k) s = .next t ∧ ∀ x ∈ ks, (t.getCore x).accs = (s.getCore x).accs ∧
          ∀ fx, nthGmma s f.n x = some fx → ((t.getCore x).entry fx.tseq).state = 3 ∧ ((t.getCore x).entry fx.tseq).cause = 0x35) ∧
      (let g := s.getGang (s.getCore k).gang
       let e := (s.getCore k).entry f.tseq
       gmmaMissed s k f = none → g.wlimit ≠ 0 → f.since + g.wlimit ≤ g.ran → (s.getCtx (4 * k + e.ctx.val)).live = true → e.orphan = false →
        ∃ t, exec (.gmmaJoinTimeout k) s = .next t ∧ ((t.getCore k).entry f.tseq).state = 3 ∧ ((t.getCore k).entry f.tseq).cause = 0x36 ∧
          (t.getCore k).arrayQ.length + 1 = (s.getCore k).arrayQ.length))

/-- R89, R233, R244 to R246, R248: the matrix forms on tiles and accumulators, by the holder of the claim, with the shapes of R241: what each writes; the other
tiles and accumulators are as before. TCVT converts each element of an IEEE tile. MMA and MMAS: where the K products of a cell make one block and they and the cell are finite, and their exact sum is not
zero, the cell is that sum rounded once, and its flags are in the status byte, which keeps all it held; a K that MMAS drops is no product. That a form takes its effect at its dispatch is the model's choice (log 9). -/
def Obligations.MatrixForms : Prop :=
  ∀ (g : Guard) (t : Ty) (rc : Rc) (d a b : Fin 8) (r : Fin 32) (s : State), Runs s g → ArrayReady s →
    let rm := Vec.rmOf rc (Num.Rm.ofCode (s.view.asr.extractLsb' 0 2).toNat)
    let c := s.core
    let sa := shapeAt c.tsh a
    let wide : Bool := t = .f64
    let ff := if wide then Num.f64 else Num.f32
    let cellOf (x : Core) (i j : Nat) : Nat := Mat.cell wide (accPair x d).1 (accPair x d).2 (32 * i + j)
    let rounded (x : Core) (i j : Nat) (q : ℚ) : Prop := ∃ n m e, (Num.Val.fin n m e).rat = q ∧
      cellOf x i j = (Num.pack ff rm (.fin n m e)).1 % 2 ^ ff.width ∧
      x.status[d] ||| BitVec.ofNat 8 (Mat.statusOf (Num.pack ff rm (.fin n m e)).2) = x.status[d]
    let sums (x : Core) (K : Nat) (kept : Nat → Nat → Bool) (A : Nat → Nat → Num.Val) : Prop := K ≤ Mat.blockLen t →
      ∀ i j, i < 32 → j < 32 →
        let B (k : Nat) : Num.Val := Mat.effVal (shapeAt c.tsh b) c.tiles[b].toNat k j
        let acc := Num.unpack ff (cellOf c i j)
        let q := acc.rat + ∑ k ∈ (Finset.range K).filter (fun k => kept i k = true), (A i k).rat * (B k).rat
        acc.isFin = true → (∀ k, k < K → kept i k = true → (A i k).isFin = true ∧ (B k).isFin = true) → q ≠ 0 → rounded x i j q
    (∃ u, exec (.tzero g d) s = .next u ∧ Dispatched s u (.tzero g d) 1 ∧ u.core.tsh = c.tsh ∧
      u.core.tiles[d].toNat % 2 ^ (8 * (shapeAt c.tsh d).bytes) = 0 ∧ ∀ e, e ≠ d → u.core.tiles[e] = c.tiles[e]) ∧
    (∃ u, exec (.tmov g d a) s = .next u ∧ u.core.tiles[d] = c.tiles[a] ∧ u.core.tsh[d] = c.tsh[a] ∧
      ∀ e, e ≠ d → u.core.tiles[e] = c.tiles[e] ∧ u.core.tsh[e] = c.tsh[e]) ∧
    (∀ cc, shapeOk c.tsh (.tcvt g t rc d a cc) = true →
      let y := Mat.TShape.ofWord (tcvtTsh t c.tsh[d] c.tsh[a]).toNat
      ∃ u, exec (.tcvt g t rc d a cc) s = .next u ∧ u.core.tsh[d] = tcvtTsh t c.tsh[d] c.tsh[a] ∧
        u.core.tiles[d] = fillTile c.tiles[d] y.bytes (Mat.tcvt sa y rm c.tiles[a].toNat).1 ∧
        (t.isFlt = true → ∀ i j, i < y.rows → j < y.cols →
          u.core.tiles[d].toNat / 2 ^ (t.bits * (i * y.cols + j)) % 2 ^ t.bits =
            (Num.convert (Num.fmtOf t) rm (Mat.tileVal sa c.tiles[a].toNat i j)).1 % 2 ^ t.bits) ∧
        ∀ e, e ≠ d → u.core.tiles[e] = c.tiles[e]) ∧
    (shapeOk c.tsh (.mma g t rc d a b) = true →
      ∃ u, exec (.mma g t rc d a b) s = .next u ∧ u.core.tiles = c.tiles ∧
        u.core.accs = (addProduct c t d (Mat.mma t rm sa (shapeAt c.tsh b) c.tiles[a].toNat c.tiles[b].toNat (accPair c d).1 (accPair c d).2)).accs ∧
        sums u.core sa.effCols (fun _ _ => true) (Mat.effVal sa c.tiles[a].toNat) ∧
        c.status[d] ||| u.core.status[d] = u.core.status[d] ∧ ∀ e, e ≠ d → u.core.status[e] = c.status[e]) ∧
    (shapeOk c.tsh (.mmas g t rc d a b) = true →
      ∃ u, exec (.mmas g t rc d a b) s = .next u ∧ u.core.tiles = c.tiles ∧
        u.core.accs = (addProduct c t d (Mat.mmas t rm sa (shapeAt c.tsh b) c.tiles[a].toNat c.tiles[b].toNat (accPair c d).1 (accPair c d).2)).accs ∧
        sums u.core (Mat.logicalK sa) (Mat.keeps sa.seed sa.dens)
          (fun i k => Mat.effVal sa c.tiles[a].toNat i (Mat.keptCol sa.dens k)) ∧
        c.status[d] ||| u.core.status[d] = u.core.status[d] ∧ ∀ e, e ≠ d → u.core.status[e] = c.status[e]) ∧
    (∃ u, exec (.azero g d) s = .next u ∧ u.core.accs[d] = 0 ∧ u.core.status = c.status ∧ ∀ e, e ≠ d → u.core.accs[e] = c.accs[e]) ∧
    (∃ u, exec (.astat g r a) s = .next u ∧ Dispatched s u (.astat g r a) 1 ∧ (u.core.entry (nextTseq c.tseq)).dest = some r ∧
      (u.core.entry (nextTseq c.tseq)).result = c.status[a].setWidth 64 ∧ (r ≠ 0 → u.ctx.full.getLsbD r.val = false)) ∧
    (∃ u, exec (.aclr g d) s = .next u ∧ u.core.status[d] = 0 ∧ u.core.accs = c.accs ∧ ∀ e, e ≠ d → u.core.status[e] = c.status[e])

/-- R242, R243: TLD and TST by the holder of the claim, of a tensor in the own scratchpad whose entry stands there too: element (i, j) of the tile is loaded from, or
stored to, base + row · stride + column · b, with row and column exchanged for .t; TLD changes no other tile and no memory, TST no other byte. R249: ADRAIN with FN 0 or 9 to an IEEE
tile, and to a tensor by its drain descriptor: x · σ or x · σ + β rounded once, times c rounded once, converted to the type of the destination. R242: a TID above 4,095, an entry outside the table's own
access, rows or columns of zero, a wrong type or bounds, and a base outside the near window leave the imprecise causes 0x68, 0x37, 0x34 and 0x33, and a nonzero bit 63:60 of a drain
descriptor 0x34 (before every other check, and with the TID: log 29, as is that ADRAIN refuses a bfp entry with BW = 7). That the effect is taken at the dispatch is the model's choice (log 9). -/
def Obligations.MatrixTransfers : Prop :=
  (∀ (s : State) (g : Guard) (tr : Bool) (d : Fin 8) (a b c : Opnd) (T : Tensor) (b0 : Nat), Runs s g → ArrayReady s → Undivided s → intSrc a = true →
    intSrc b = true → intSrc c = true →
    let sh := shapeAt s.core.tsh d
    let e := sh.ty.bits / 8
    let r0 := (s.src b).toNat
    let c0 := (s.src c).toNat
    let pa (i j : Nat) : Nat := s.padAt (b0 + (r0 + (if tr then j else i)) * T.stride + (c0 + (if tr then i else j)) * e)
    let elem (x : Tile) (i j : Nat) : Nat := x.toNat / 2 ^ (8 * e * (i * sh.cols + j)) % 2 ^ (8 * e)
    sh.ty.code.toNat = T.ty → nearTensor s (s.src a) T b0 r0 c0 (if tr then sh.cols else sh.rows) (if tr then sh.rows else sh.cols) →
      sh.bytes ≤ 4096 →
      (∃ u, exec (.tld g tr d a b c) s = .next u ∧ Dispatched s u (.tld g tr d a b c) 1 ∧ SameMemory s u ∧
        (∀ i j, i < sh.rows → j < sh.cols → elem u.core.tiles[d] i j = s.numAt (pa i j) e) ∧ ∀ x, x ≠ d → u.core.tiles[x] = s.core.tiles[x]) ∧
      (s.mem.wf = true → s.gangId = 0 ∨ (s.gang.shadow = 0 ∧ (gangPkgs s.gang).contains s.pkg = true) → T.cols * e ≤ T.stride →
        ∃ u, exec (.tst g tr d a b c) s = .next u ∧ Dispatched s u (.tst g tr d a b c) 1 ∧ u.core.tiles = s.core.tiles ∧
          (∀ i j, i < sh.rows → j < sh.cols → u.numAt (pa i j) e = elem s.core.tiles[d] i j) ∧
          ∀ x, (∀ i j, i < sh.rows → j < sh.cols → x < pa i j ∨ pa i j + e ≤ x) → u.mem.read x = s.mem.read x)) ∧
  (∀ (s : State) (g : Guard) (t : Ty) (mul : Bool) (n : Fin 8) (dr : Fin 32) (a : Fin 8) (bb cc : Option (Fin 8)) (sc : BitVec 32) (br : Bool)
      (rc : Rc), Runs s g → ArrayReady s → Undivided s → t = .f32 ∨ t = .f64 →
    let fn : EpiFn := if mul then .mul else .none
    let i (d : Opnd) : Instr := .adrain g t fn d a bb cc sc br rc
    let rm := Vec.rmOf rc (Num.Rm.ofCode (s.view.asr.extractLsb' 0 2).toNat)
    let ff := Num.fmtOf t
    let tile (x : Fin 8) (p q : Nat) : Num.Val := Mat.tileVal (shapeAt s.core.tsh x) s.core.tiles[x].toNat p q
    let x (p q : Nat) : Num.Val := Num.unpack ff (Mat.cell (t = .f64) (accPair s.core a).1 (accPair s.core a).2 (32 * p + q))
    let y (p q : Nat) : Num.Val := Num.unpack ff (Num.packR ff rm (match bb with
      | some m => Num.fmaV rm (x p q) (Num.unpack Num.f32 sc.toNat) (tile m 0 (if br then p else q))
      | none => Num.mulV (x p q) (Num.unpack Num.f32 sc.toNat))).1
    let out (ty : Ty) (p q : Nat) : Nat := (Num.convert (Num.fmtOf ty) rm
      (if mul then Num.unpack ff (Num.packR ff rm (Num.mulV (tile (cc.getD 0) p q) (y p q))).1 else y p q)).1 % 2 ^ ty.bits
    (shapeOk s.core.tsh (i (.t n)) = true →
      let ty := (shapeAt s.core.tsh n).ty
      ty.isFlt = true → (shapeAt s.core.tsh n).bytes ≤ 4096 →
      ∃ u, exec (i (.t n)) s = .next u ∧ Dispatched s u (i (.t n)) 1 ∧ SameMemory s u ∧ u.core.accs = s.core.accs ∧
        (∀ p q, p < 32 → q < 32 → u.core.tiles[n].toNat / 2 ^ (ty.bits * (32 * p + q)) % 2 ^ ty.bits = out ty p q) ∧
        ∀ m, m ≠ n → u.core.tiles[m] = s.core.tiles[m]) ∧
    (shapeOk s.core.tsh (i (.s dr)) = true →
      let w := (s.rs dr).toNat
      let r0 := w / 2 ^ 12 % 2 ^ 24
      let c0 := w / 2 ^ 36 % 2 ^ 24
      ∀ (T : Tensor) (b0 : Nat),
      let ty := Ty.ofCode (BitVec.ofNat 4 T.ty)
      let e := ty.bits / 8
      let pa (p q : Nat) : Nat := s.padAt (b0 + (r0 + p) * T.stride + (c0 + q) * e)
      w / 2 ^ 60 = 0 → nearTensor s (BitVec.ofNat 64 (w % 4096)) T b0 r0 c0 32 32 → T.cols * e ≤ T.stride →
      s.mem.wf = true → s.gangId = 0 ∨ (s.gang.shadow = 0 ∧ (gangPkgs s.gang).contains s.pkg = true) →
      ∃ u, exec (i (.s dr)) s = .next u ∧ Dispatched s u (i (.s dr)) 1 ∧ u.core.accs = s.core.accs ∧ u.core.tiles = s.core.tiles ∧
        (∀ p q, p < 32 → q < 32 → u.numAt (pa p q) e = out ty p q) ∧
        ∀ x, (∀ p q, p < 32 → q < 32 → x < pa p q ∨ pa p q + e ≤ x) → u.mem.read x = s.mem.read x)) ∧
  (∀ (s : State) (g : Guard) (i : Instr) (tid r0 c0 : Word) (nr nc : Nat) (ok : Tensor → Prop), Runs s g → ArrayReady s → Undivided s → shapeOk s.core.tsh i = true →
    s.ctx.live = true →
    ((∃ tr d a b c, (i = .tld g tr d a b c ∨ i = .tst g tr d a b c) ∧ intSrc a = true ∧ intSrc b = true ∧ intSrc c = true ∧ tid = s.src a ∧
        r0 = s.src b ∧ c0 = s.src c ∧
        let sh := shapeAt s.core.tsh d
        nr = (if tr then sh.cols else sh.rows) ∧ nc = (if tr then sh.rows else sh.cols) ∧
        ok = fun T => T.ty = sh.ty.code.toNat ∧ (sh.ty = .bfp → T.w = sh.w ∧ T.scale = sh.scale)) ∨
      (∃ t fn n a b c sc br rc, i = .adrain g t fn (.s n) a b c sc br rc ∧ (s.rs n).toNat / 2 ^ 60 = 0 ∧
        tid = BitVec.ofNat 64 ((s.rs n).toNat % 4096) ∧ r0 = BitVec.ofNat 64 ((s.rs n).toNat / 2 ^ 12 % 2 ^ 24) ∧
        c0 = BitVec.ofNat 64 ((s.rs n).toNat / 2 ^ 36 % 2 ^ 24) ∧ nr = 32 ∧ nc = 32 ∧ ok = fun T => T.ty ∈ [8, 9, 10, 11, 14] ∧ (T.ty = 14 → T.w ≠ 9))) →
    let q := nextTseq s.core.tseq
    let ea := tensorAddr s.gang.tensors tid.toNat
    let fails (cause : Nat) (x y : Word) : Prop := ∃ u, exec i s = .next u ∧ (u.core.entry q).state = 3 ∧ (u.core.entry q).cause = cause ∧
      (u.core.entry q).infoA = x ∧ (u.core.entry q).infoB = y ∧ SameMemory s u ∧ u.core.tiles = s.core.tiles
    (4096 ≤ tid.toNat → fails 0x68 tid ea) ∧
    (tid.toNat < 4096 → ∀ n, nearOff ea.toNat = some n → n % 32 = 0 → padSize s s.coreKey ≤ n → s.pkg < 4096 → fails 0x37 ea 0x15) ∧
    (tid.toNat < 4096 → ∀ n, nearOff ea.toNat = some n → nearReady s n 32 32 →
      let T := Tensor.ofNat (s.numAt (s.padAt n) 32)
      (T.rows = 0 ∨ T.cols = 0 → fails 0x68 tid ea) ∧
      (T.rows ≠ 0 → T.cols ≠ 0 →
        let good : Prop := ok T ∧ T.layout = false ∧ r0.toNat + nr ≤ T.rows ∧ c0.toNat + nc ≤ T.cols ∧ (T.ty = 14 → c0.toNat % 16 = 0 ∧ nc % 16 = 0)
        (¬ good → fails 0x34 tid ea) ∧
        (good → nearOff T.base.toNat = none → fails 0x33 tid T.base)))) ∧
  (∀ (s : State) (g : Guard) (t : Ty) (fn : EpiFn) (n : Fin 32) (a : Fin 8) (b c : Option (Fin 8)) (sc : BitVec 32) (br : Bool) (rc : Rc), Runs s g →
    ArrayReady s → Undivided s → s.ctx.live = true →
    let i : Instr := .adrain g t fn (.s n) a b c sc br rc
    let q := nextTseq s.core.tseq
    shapeOk s.core.tsh i = true → (s.rs n).toNat / 2 ^ 60 ≠ 0 →
      ∃ u, exec i s = .next u ∧ (u.core.entry q).state = 3 ∧ (u.core.entry q).cause = 0x34 ∧
        (u.core.entry q).infoA = BitVec.ofNat 64 ((s.rs n).toNat % 4096) ∧ SameMemory s u)

/-- R252, R257, R258, R260: the prism forms on bit tiles by the holder of the claim: every bit that each writes (at the dispatch, the model's choice, log 9). R260: BCLOS gives the transitive closure of the whole tile's relation, and with .refl also the diagonal. -/
def Obligations.PrismForms : Prop :=
  (∀ (g : Guard) (d a b : Fin 8) (s : State), Runs s g → ArrayReady s →
      let x (e : Fin 8) := s.core.bits[e]
      let after (i : Instr) (f : Nat → Nat → Bool) : Prop := ∃ u, exec i s = .next u ∧ Dispatched s u i 1 ∧
        (∀ p q, p < 64 → q < 64 → bitAt u.core.bits[d] p q = f p q) ∧ (∀ e, e ≠ d → u.core.bits[e] = x e) ∧ SameMemory s u
      after (.bzero g d) (fun _ _ => false) ∧
      after (.beye g d) (fun p q => p = q) ∧
      after (.btrn g d a) (fun p q => bitAt (x a) q p) ∧
      after (.bcomp g d a b) (fun p q => (List.range 64).any (fun k => bitAt (x a) p k && bitAt (x b) k q)) ∧
      after (.blog g .and d a (some b)) (fun p q => bitAt (x a) p q && bitAt (x b) p q) ∧
      after (.blog g .or d a (some b)) (fun p q => bitAt (x a) p q || bitAt (x b) p q) ∧
      after (.blog g .xor d a (some b)) (fun p q => bitAt (x a) p q ^^ bitAt (x b) p q) ∧
      after (.blog g .andn d a (some b)) (fun p q => bitAt (x a) p q && !bitAt (x b) p q) ∧
      after (.blog g .not d a none) (fun p q => !bitAt (x a) p q)) ∧
  (∀ (g : Guard) (d a : Fin 8) (s : State), Runs s g → ArrayReady s →
      let r (p q : Nat) : Prop := p < 64 ∧ q < 64 ∧ bitAt s.core.bits[a] p q = true
      ∃ u v, exec (.bclos g false d a) s = .next u ∧ exec (.bclos g true d a) s = .next v ∧
        ∀ p q, p < 64 → q < 64 →
          (bitAt u.core.bits[d] p q = true ↔ Relation.TransGen r p q) ∧
          (bitAt v.core.bits[d] p q = true ↔ Relation.TransGen r p q ∨ p = q))

/-- R257, R258: BCMP writes the relation of elements 0 to m of A and 0 to n of B, and zero elsewhere: the predicate of the two, which for integers compares in T's
signedness, and for floating types by IEEE, by the total order of the patterns, or with all NaNs last and equal, as the NaN mode says; BPOPR, BPOPC and BFIRST write 64 counts of 32 bits to four v
registers: row counts, column counts, and the first set column of each row or 64; a first register above v28 raises 0x08. The effect at the dispatch is the model's choice (log 9). -/
def Obligations.RelationForms : Prop :=
  ∀ (g : Guard) (d a : Fin 8) (r x y : Fin 32) (m n : BitVec 6) (t : Ty) (pr : BPred) (nan : NanMode) (s : State), Runs s g → ArrayReady s →
    s.grp.view = none →
    let order (p q : Nat) : Bool × Bool :=
      let v (r : Fin 32) (k : Nat) : Nat := Vec.getE t.bits (512 / t.bits) s.ctx.v r.val k
      let X := Num.unpack (Num.fmtOf t) (v x p)
      let Y := Num.unpack (Num.fmtOf t) (v y q)
      let num : Bool × Bool := (Num.cmpV false X Y == .lt, Num.cmpV false X Y == .eq)
      let sx (k : Nat) : Int := if t.signed then (BitVec.ofNat t.bits k).toInt else k
      let pos (k : Nat) : Int := if k < 2 ^ (t.bits - 1) then k else (2 : Int) ^ (t.bits - 1) - k - 1
      if t.isInt then (decide (sx (v x p) < sx (v y q)), decide (sx (v x p) = sx (v y q)))
      else match nan with
        | .ord => (!X.isNaN && !Y.isNaN && num.1, !X.isNaN && !Y.isNaN && num.2)
        | .tot => (decide (pos (v x p) < pos (v y q)), decide (v x p = v y q))
        | .nlast => (!X.isNaN && (Y.isNaN || num.1), (X.isNaN && Y.isNaN) || (!X.isNaN && !Y.isNaN && num.2))
    let gt (p q : Nat) : Bool := !(order p q).1 && !(order p q).2 && !(!t.isInt && decide (nan = .ord) &&
      ((Num.unpack (Num.fmtOf t) (Vec.getE t.bits (512 / t.bits) s.ctx.v x.val p)).isNaN ||
        (Num.unpack (Num.fmtOf t) (Vec.getE t.bits (512 / t.bits) s.ctx.v y.val q)).isNaN))
    let holds (p q : Nat) : Bool := match pr with
      | .lt => (order p q).1
      | .le => (order p q).1 || (order p q).2
      | .eq => (order p q).2
      | .ne => !(order p q).2
      | .gt => gt p q
      | .ge => gt p q || (order p q).2
      | .lti => (order p q).1 || ((order p q).2 && decide (q < p))
      | .gti => gt p q || ((order p q).2 && decide (q < p))
    (t.isInt = true ∨ t ∈ ([.f64, .f32, .f16, .bf16] : List Ty) →
      x.val + Bits.ceilDiv (m.toNat + 1) (512 / t.bits) ≤ 32 → y.val + Bits.ceilDiv (n.toNat + 1) (512 / t.bits) ≤ 32 →
      ∃ u, exec (.bcmp g t pr d x y m n nan) s = .next u ∧
        (∀ p q, p < 64 → q < 64 → bitAt u.core.bits[d] p q =
          (decide (p ≤ m.toNat) && decide (q ≤ n.toNat) && holds p q)) ∧
        ∀ e, e ≠ d → u.core.bits[e] = s.core.bits[e]) ∧
    (r.val + 4 ≤ 32 →
      (∃ u, exec (.bpopr g r a) s = .next u ∧ ∀ k, k < 64 → Vec.getE 32 16 u.ctx.v r.val k =
        (List.range 64).countP (fun j => bitAt s.core.bits[a] k j)) ∧
      (∃ u, exec (.bpopc g r a) s = .next u ∧ ∀ k, k < 64 → Vec.getE 32 16 u.ctx.v r.val k =
        (List.range 64).countP (fun j => bitAt s.core.bits[a] j k)) ∧
      (∃ u, exec (.bfirst g r a) s = .next u ∧ ∀ k, k < 64 → Vec.getE 32 16 u.ctx.v r.val k =
        ((List.range 64).find? (fun j => bitAt s.core.bits[a] k j)).getD 64)) ∧
    (28 < r.val → ∀ i ∈ ([.bpopr g r a, .bpopc g r a, .bfirst g r a] : List Instr),
      exec i s = .next (takeTrap s ⟨0x08, (slotInfo s i).1, (slotInfo s i).2, none⟩))

/-- R261: BLD and BST of 512 bytes of the own scratchpad at a multiple of 64: BST stores the tile, row by row, and BLD of what is there gives it; an address
outside the near window leaves the imprecise cause 0x38 with 0x33. That they take their effect in the step that dispatches them is the model's choice (log 9). -/
def Obligations.BitTileTransfers : Prop :=
  ∀ (g : Guard) (d : Fin 8) (m : Mem) (s : State), Runs s g → ArrayReady s → Undivided s →
    let q := nextTseq s.core.tseq
    (∀ b, nearOff (s.ea m).toNat = some b → b % 64 = 0 → b + 512 ≤ padSize s s.coreKey → b + 512 ≤ 0x40000 → s.core.scoreboard = [] → s.gang.kept = [] →
      s.pkg < 4096 →
      let pa := mkPa s.pkg 1 (s.coreKey % 4096 * 2 ^ 18 + b)
      (∃ u, exec (.bld g d m) s = .next u ∧ u.core.bits[d] = BitVec.ofNat 4096 (s.numAt pa 512) ∧ SameMemory s u) ∧
      (s.mem.wf = true → s.gangId = 0 ∨ (s.gang.shadow = 0 ∧ (gangPkgs s.gang).contains s.pkg = true) →
        ∃ u, exec (.bst g d m) s = .next u ∧ u.numAt pa 512 = s.core.bits[d].toNat ∧ SameMemoryBut s u pa 512 ∧ u.core.bits = s.core.bits)) ∧
    (nearOff (s.ea m).toNat = none → s.ctx.live = true →
      ∃ u v, exec (.bld g d m) s = .next u ∧ exec (.bst g d m) s = .next v ∧ (u.core.entry q).state = 3 ∧ (u.core.entry q).cause = 0x38 ∧
        (u.core.entry q).infoB = 0x33 ∧ (v.core.entry q).cause = 0x38 ∧ (v.core.entry q).infoB = 0x33 ∧ SameMemory s u ∧ SameMemory s v)

/-! ### Barriers, tasks, queues, waits and launches -/

/-- R165, R186, R187, R194, R339: with no residual entry and no accumulate of its core under way, BAR within the gang's level 0, SSTEP and SEED arrive at
once and wait at their barrier, and FENCE goes on; BAR of a wider scope raises 0x48. R53, R165, R186, R339: a barrier of a unit completes once a context of every gang core in it waits there: every waiting context goes on with the greatest of the
timestamps, one that has issued the same BAR and still flushes joins with it, the live contexts of those cores fetch afresh (one that waits at PHASE loads its run again, R270), and no context
of another core changes. SEED completes with one value in all contexts and idle chains: the seed is its low 38 bits (that the contexts' values are compared by these bits, whatever
stands above them, is log 24), the gang's lines are written
back, and no core holds a copy of one of them. -/
def Obligations.Barriers : Prop :=
  (∀ (g : Guard) (scope : Fin 8) (r : Reach) (a : Fin 32) (s : State), Runs s g →
      (s.core.residual = [] → (∀ m ∈ s.accs, m.src / 4 ≠ s.coreKey) → s.ctx.wait = none →
        (scope.val ≤ level0 s.gang → ∃ t, exec (.bar g scope) s = .next t ∧ t.ctx.wait = some (.bar scope) ∧ t.mem = s.mem ∧ t.ctx.s = s.ctx.s) ∧
        (∃ t, exec (.sstep g) s = .next t ∧ t.ctx.wait = some .sstep ∧ t.mem = s.mem ∧ t.ctx.s = s.ctx.s) ∧
        (∃ t, exec (.seed g a) s = .next t ∧ t.ctx.wait = some (.seed (s.rs a)) ∧ t.mem = s.mem ∧ t.ctx.s = s.ctx.s)) ∧
      (level0 s.gang < scope.val → ∃ x y, exec (.bar g scope) s = .next (takeTrap s ⟨0x48, x, y, none⟩)) ∧
      ((∀ m ∈ s.accs, m.src ≠ s.cur) → s.ctx.behind = none →
        ∃ t, exec (.fence g r) s = .next t ∧ t.ctx.wait = none ∧ t.mem = s.mem ∧ t.ctx.s = s.ctx.s ∧
          ∀ x ∈ t.ctx.answers, x ∈ s.ctx.answers ∧ covers r (s.coreKey / 4096) x.1 = false)) ∧
  ((∀ (s : State) (k : Nat) (scope : Fin 8),
      let g := s.getGang (s.getCore k).gang
      let ks := gangUnit g scope.val k
      let keys := barWaiters s ks scope
      g.st = .running → ks ≠ [] → (∀ c ∈ ks, ∃ key ∈ keys, key / 4 = c) → (∀ key ∈ keys, (s.getCtx key).behind = none) →
      ∃ t, exec (.barrierComplete k scope) s = .next t ∧ t.mem = s.mem ∧
        (∀ key ∈ keys, (t.getCtx key).wait = none ∧ (t.getCtx key).lineBuf = none ∧ (s.getCtx key).pts ≤ (t.getCtx key).pts ∧
          ∀ j ∈ keys, (t.getCtx j).pts = (t.getCtx key).pts) ∧
        (∀ key, key / 4 ∉ ks → t.getCtx key = s.getCtx key) ∧
        ∀ key, key / 4 ∈ ks → key ∉ keys → (s.getCtx key).live = true →
          (joinArrival (.bar scope) (s.getCtx key) = s.getCtx key → (∀ sc run, (s.getCtx key).wait ≠ some (.phase sc run)) →
            t.getCtx key = { s.getCtx key with lineBuf := none }) ∧
          (∀ r b, (s.getCtx key).wait = some (.flush r (.bar scope) b) →
            (t.getCtx key).wait = some (.flush r .joined b) ∧ (s.getCtx key).pts ≤ (t.getCtx key).pts)) ∧
    (∀ (s : State) (v : Word),
      let g := s.subject
      let x := s.getGang g
      let ws := seedWaiters s g
      let homed (l : Nat) : Prop := paReg (l * 64) = 0 ∧ (gangPkgs x).contains (paPkg (l * 64)) = true
      x.st = .running → x.cores ≠ [] → x.consumed = none → (∀ k ∈ x.cores, ∃ w ∈ ws, w.1 / 4 = k) → (∀ w ∈ ws, w.2.toNat % 2 ^ 38 = v.toNat % 2 ^ 38) →
      chainsIdle s g = true → (∀ w ∈ ws, (s.getCtx w.1).behind = none) →
      ∃ t, exec .seedComplete s = .next t ∧ (t.getGang g).seed = v.toNat % 2 ^ 38 ∧
        ((∀ y, (s.getGang y).shadow = 0) ∨ (∀ l, homed l → (s.getLine l).dirty = none) → t.mem = s.mem) ∧
        (∀ w ∈ ws, (t.getCtx w.1).wait = none) ∧
        ∀ l, homed l → (t.getLine l).dirty = none ∧ ∀ k, mget? l (t.getCore k).leases = none))

/-- R187, R346, R347: a superstep commits once a context of every gang core waits at SSTEP, no update is between two of its pieces on a tensor with open promises (R311) and the cores can
stop: the slot of the new SSN holds one block for each core of the gang, SSN counts it, the gang runs on and the shadow log starts again; that what steps 3 and 4 write is not logged, and that the commit
waits for a piece of work under way, is log 25. The blocks are records in State as well as bytes (log 7). The commit is one step where the agenda sets no limit, and one that has been left between two
accesses goes on (log 3); this one has not begun to make them again. -/
def Obligations.SuperstepCommit : Prop :=
  ∀ (s : State),
    let g := s.subject
    let x := s.getGang g
    s.steps = none → mget? (commitScript g) s.scripts = none → x.owed = none →
    (x.st = .running → x.cores ≠ [] → x.consumed = none → gangInPhase s g = false → sweepHeld s g = false →
      (∀ k ∈ x.cores, ∃ key ∈ sstepWaiters s g, key / 4 = k) → canStop s g = true →
      ∃ t, exec .superstepCommit s = .next t ∧ (t.getGang g).ssn = x.ssn + 1 ∧ (t.getGang g).log = [] ∧ (t.getGang g).st = .running ∧
        (if (x.ssn + 1) % 2 = 0 then (t.getGang g).slot0 else (t.getGang g).slot1).map (·.key) = x.cores) ∧
    (x.st = .committing →
      ∃ t, exec .superstepCommit s = .next t ∧ (t.getGang g).ssn = x.ssn ∧ (t.getGang g).log = [] ∧ (t.getGang g).st = .running ∧
        (t.getGang g).slot0 = x.slot0 ∧ (t.getGang g).slot1 = x.slot1)

/-- R151, R177, R178, R188: SPAWN of a packet whose lines can be read (each by a load), whose CRC and fields are good, whose JOIN is 0 and whose queue has room puts its address
at the end of the queue of its target and priority; a bad packet raises 0x42 or 0x44, a nonzero JOIN 0x44, and a full queue 0x4D. R178, R179: an entry put on a queue is the last one of its priority, and no other priority of the queue, no other queue and no byte of memory changes. R178 to R181: an idle context pops the head of the first nonempty queue in the order of R180: a well-formed packet without PAIR starts its task, with s1 its frame and
s2 its handle; a malformed one enters the handler with its cause; a continuation starts with s1 its frame and its value in its destination. A head that has stood 65,536
cycles moves to the tail of the next priority. -/
def Obligations.Tasks : Prop :=
  (∀ (g : Guard) (m : Mem) (s : State) (r : Grant) (s2 : State) (ls : List Line), Runs s g →
      let i : Instr := .spawn g m
      let ea := s.ea m
      let x0 := loadStep r.s (r.pa / 64 * 64) 64
      let s1 := x0.1
      let l0 : Line := BitVec.ofNat 512 (Bits.ofBytesLE x0.2.1)
      let n := 16 * (l0.toNat / 2 ^ (8 * (r.pa % 64)) % 256)
      let bs := packetBytes (r.pa % 64) (max n 16) (l0 :: ls)
      let p := Pkt.ofHead (Bits.ofBytesLE (bs.take 32))
      let q := queueKey p.target s2.coreKey
      Granted s i ea 16 16 .read false r → Whole r.s → overlapping r.s.core r.pa (min n (64 - r.pa % 64)) = none →
      readLines i s1 (if n = 0 then [] else laterLines ea n) = .ok (s2, ls, false) → s2.ctx.pair = none → Whole s2 →
      (packetFault bs = none → p.join = 0 → queueFull s2 s2.gangId q = false →
        exec i s = .next (enqueue s2 s2.gangId q p.prio ⟨ea, none, s2.now, s2.ctx.pts⟩)) ∧
      (∀ c, packetFault bs = some c → exec i s = .next (takeTrap s2 ⟨c, ea, 0, none⟩)) ∧
      (packetFault bs = none → p.join ≠ 0 → exec i s = .next (takeTrap s2 ⟨0x44, ea, 0, none⟩)) ∧
      (packetFault bs = none → p.join = 0 → queueFull s2 s2.gangId q = true →
        exec i s = .next (takeTrap s2 ⟨0x4D, ea, BitVec.ofNat 64 p.target, none⟩))) ∧
  (∀ (s : State) (g q prio : Nat) (e : TqEntry),
      let fifo (s : State) (q p : Nat) : List TqEntry := (getQueue s g q).toArray.getD p []
      let t := enqueue s g q prio e
      fifo t q (prio % 4) = fifo s q (prio % 4) ++ [e] ∧ (∀ p, p < 4 → p ≠ prio % 4 → fifo t q p = fifo s q p) ∧
      (∀ r p, r ≠ q → fifo t r p = fifo s r p) ∧ SameMemory s t ∧ t.ctxs = s.ctxs ∧ t.cores = s.cores) ∧
  ((∀ (s : State) (k : Nat) (c : Fin 4) (q p : Nat) (e : TqEntry) (rest : List TqEntry), mayPop s k c = true → nextTask s k = some (q, p, e, rest) →
      let key := 4 * k + c.val
      let popped (u : State) : State := setFifo u (s.getCore k).gang q p (standNow s.now rest)
      let ready (u : State) : State := u.setCtx key { u.getCtx key with lineBuf := none, pts := max (u.getCtx key).pts e.stamp }
      (∀ x, e.cont = some x → targetCause (ready (popped s)) key x.code true = none →
        ∃ t, exec (.taskPop k c) s = .next t ∧ (t.getCtx key).live = true ∧ (t.getCtx key).pc = x.code ∧ (t.getCtx key).packet = none ∧
          (x.dest ≠ 0 → (t.getCtx key).s[x.dest] = x.value) ∧ (x.dest ≠ 1 → (t.getCtx key).s[1] = x.frame) ∧ (t.getCtx key).full = 0xFFFFFFFF) ∧
      (∀ u bs, e.cont = none → readPacket { s with cur := key } e.handle = .bytes u bs →
        let v := popped { u with cur := s.cur }
        let pk := Pkt.ofHead (Bits.ofBytesLE (bs.take 32))
        (packetFault bs = none → pk.pair = false → targetCause (ready v) key pk.code true = none →
          ∃ t, exec (.taskPop k c) s = .next t ∧ (t.getCtx key).live = true ∧ (t.getCtx key).pc = pk.code ∧
            (t.getCtx key).s[1] = pk.frame ∧ (t.getCtx key).s[2] = e.handle ∧ (t.getCtx key).p = 1 ∧ (t.getCtx key).vsh = 0x9101 ∧
            (t.getCtx key).packet = some ⟨e.handle, pk.prio, successors bs, 0⟩ ∧ (t.getCtx key).wait = none) ∧
        (∀ cause, packetFault bs = some cause → exec (.taskPop k c) s = .next
          (popFault v key cause e.handle (BitVec.ofNat 64 (Bits.ofBytesLE (bs.take 8))))))) ∧
    (∀ (s : State) (g q : Nat) (p : Fin 4) (e : TqEntry) (rest : List TqEntry), p.val < 3 → fifoAt (getQueue s g q) p.val = e :: rest →
      e.time + 65536 ≤ s.now → (s.getGang g).st = .running →
      ∃ t, exec (.taskAging g q p) s = .next t ∧ fifoAt (getQueue t g q) p.val = standNow s.now rest ∧
        fifoAt (getQueue t g q) (p.val + 1) = fifoAt (getQueue s g q) (p.val + 1) ++ [{ e with time := s.now }]))

/-- R96, R189, R334: DONE of a context without a packet, or whose successors have all been decremented, and HALT end the context: it is no longer live and has no
packet and no wait. R94, R189, R190: JOIN answers what a decrement leaves: the new counter, a cause, or a wait; the answer of a packet in the own scratchpad is written at once. R123, R166, R177, R179, R189: a decrement of a packet in the own scratchpad within one page: while the
queue of the packet is full it waits for a slot; else the counter c goes to c − 1 and the CRC field with it (log 28), and no other byte changes; a counter of 0 raises 0x46; one that
reaches 0 puts the handle on its queue. R179: a context that waits for a queue slot tries its form again; a walk of FST puts its next continuations on their queues, and ends when none is left. -/
def Obligations.JoinCounters : Prop :=
  (∀ (g : Guard) (s : State), Runs s g →
      (s.ctx.packet = none → exec (.done g) s = .next (endContext s s.cur)) ∧
      (∀ p s1 s2, s.ctx.packet = some p → s.ctx.pair = none → checkHandles s p.succ = .ok s1 →
        doneLoop { s1 with grp := { s1.grp with msg := if p.done = 0 then s1.grp.msg else s1.ctx.sent.length } } (p.succ.drop p.done) p.done = .ok s2 →
        exec (.done g) s = .next (endContext s2 s2.cur)) ∧
      exec (.halt g) s = .next (endContext s s.cur) ∧
      (∀ key, ((endContext s key).getCtx key).live = false ∧ ((endContext s key).getCtx key).packet = none ∧
        ((endContext s key).getCtx key).wait = none)) ∧
  (∀ (g : Guard) (d : Option (Fin 32)) (m : Mem) (s : State), Runs s g →
      (∀ s1 n remote, decrement s (s.ea m) 0 = .made s1 n remote → exec (.join g d m) s = .next (match d with
        | some r => if remote then sendAnswer s1 r n 0 else (s1.putS r n).flag 0
        | none => s1)) ∧
      (∀ s1 t, decrement s (s.ea m) 0 = .cause s1 t → exec (.join g d m) s = .next (takeTrap s1 t))) ∧
  (∀ (s : State) (h : Word) (b i : Nat), nearOff h.toNat = some b → b % 16 = 0 → b % 4096 ≠ 4080 → b + 32 ≤ padSize s s.coreKey → s.pkg < 4096 →
      s.gang.kept = [] → s.core.scoreboard = [] → s.ctx.pair = none → Whole s → s.mem.wf = true →
      s.gangId = 0 ∨ (s.gang.shadow = 0 ∧ (gangPkgs s.gang).contains s.pkg = true) →
      let pa := s.padAt b
      let c := s.mem.readLE (pa + 24) 4
      let head := s.mem.readLE pa 16
      let q := (handleQueue s head).1
      let decremented (t : State) : Prop := t.mem.readLE (pa + 24) 4 = c - 1 ∧
        t.mem.readLE (pa + 4) 4 = crcAfter (head % 256) (head / 2 ^ 32 % 2 ^ 32) c % 2 ^ 32 ∧
        ∀ a, a < pa + 4 ∨ pa + 8 ≤ a → a < pa + 24 ∨ pa + 28 ≤ a → t.mem.read a = s.mem.read a
      (queueFull s s.gangId q = true → ∃ t, decrement s h i = .waits t ∧ t.ctx.wait = some .slot ∧ t.mem = s.mem) ∧
      (queueFull s s.gangId q = false →
        (c = 0 → ∃ t, decrement s h i = .cause t ⟨0x46, h, BitVec.ofNat 64 i, none⟩ ∧ t.mem = s.mem) ∧
        (1 < c → ∃ t, decrement s h i = .made t (BitVec.ofNat 64 (c - 1)) false ∧ decremented t ∧ ∀ x, getQueue t s.gangId x = getQueue s s.gangId x) ∧
        (c = 1 → ∃ t, decrement s h i = .made t 0 false ∧ decremented t ∧
          ∃ e, e.handle = h ∧ e ∈ (getQueue t s.gangId q).toArray.getD ((handleQueue s head).2 % 4) []))) ∧
  (∀ (s : State) (k : Nat) (c : Fin 4), runsOn s k = true →
      let key := 4 * k + c.val
      (s.getCtx key).wait = some .slot →
        ((s.getCtx key).walking = none → exec (.queueSlotResume k c) s = .next (s.setCtx key { s.getCtx key with wait := none })) ∧
        (∀ rest stamp u, (s.getCtx key).walking = some (rest, stamp) → walkList stamp s rest = (u, []) →
          exec (.queueSlotResume k c) s = .next (u.setCtx key { u.getCtx key with walking := some ([], stamp), wait := none })))

/-- R182, R191, R193: QPUT with room stores the value and the time in the entry at TAIL and TAIL + 1 in one step, with one timestamp over both lines; QGET with an entry answers
the value at HEAD and stores HEAD + 1, in one step;
without, each waits with its limit: IMM44 bits 23:0 of cycles of the gang from now, or WLIMIT where they are 0, and none where both are. R192, R193, R196: WAITE of a word that compares true, in a lease copy that may serve its load (log 10) or at the home, answers it as a load does; else the context waits at it; GTIME writes the time. R191 to R193: a waiting QPUT or QGET looks again; the
report of a changed word is compared, and one that holds ends the wait; and a wait that has lasted its limit in cycles of the gang, and whose word has not compared true,
raises 0x40, 0x41 or 0x50 with what it waited on in TINFOA and TINFOB. -/
def Obligations.Queues : Prop :=
  (∀ (g : Guard) (a d : Fin 32) (b : Opnd) (lim : BitVec 24) (s : State) (r e : Grant) (q : Desc), Runs s g →
      let desc := s.rs a
      let limit : Option Nat := if lim ≠ 0 then some (r.s.gang.ran + lim.toNat) else if r.s.gang.wlimit = 0 then none else some (r.s.gang.ran + r.s.gang.wlimit)
      let waits (i : Instr) : Prop := ∃ t, exec i s = .next t ∧ t.grp.stalled = true ∧ t.mem = r.s.mem ∧
        t.getCtx r.s.cur = { r.s.ctx with wait := some (.timed (.queue desc) limit false), pc := s.grp.first }
      descAt r.s.mem r.pa = some q →
      (Granted s (.qput g a b lim) desc 64 64 .rmw false r →
        (q.count ≠ 2 ^ q.capl → entryGrant r.s (.qput g a b lim) (q.entry q.tail) .write desc = .ok e → e.refused = false → e.s.ctx.pair = none → Whole e.s →
          let y := raisePts e.s (max ((e.s.getLine (r.pa / 64)).rts + 1) ((e.s.getLine (e.pa / 64)).rts + 1))
          exec (.qput g a b lim) s = .next (homeStep (homeStep y e.pa (Bits.bytesLE 8 (s.src b).toNat ++ Bits.bytesLE 8 e.s.now))
            (r.pa + 24) (Bits.bytesLE 8 (q.tail + 1)))) ∧
        (q.count = 2 ^ q.capl → r.s.grp.waited = none → waits (.qput g a b lim))) ∧
      (Granted s (.qget g d a lim) desc 64 64 .rmw false r →
        (q.count ≠ 0 → entryGrant r.s (.qget g d a lim) (q.entry q.head) .read desc = .ok e → e.refused = false → e.s.ctx.pair = none → Whole e.s →
          let y := raisePts e.s (max ((e.s.getLine (r.pa / 64)).rts + 1) (e.s.getLine (e.pa / 64)).wts)
          exec (.qget g d a lim) s = .next (answerS (homeStep (loadAtHome y e.pa 16).1 (r.pa + 16) (Bits.bytesLE 8 (q.head + 1))) d
            (BitVec.ofNat 64 (e.s.mem.readLE e.pa 8)) 0 (offCore e.s r.pa))) ∧
        (q.count = 0 → r.s.grp.waited = none → waits (.qget g d a lim)))) ∧
  (∀ (g : Guard) (t : Ty) (cc : Cond) (d : Option (Fin 32)) (e a : Fin 32) (b : Opnd) (lim : BitVec 24) (s : State) (r : Grant), Runs s g →
      let i : Instr := .waite g t cc d a b lim
      let limit : Option Nat := if lim ≠ 0 then some (r.s.gang.ran + lim.toNat) else if r.s.gang.wlimit = 0 then none else some (r.s.gang.ran + r.s.gang.wlimit)
      (Granted s i (s.rs a) 8 8 .read false r → t.isInt = true → r.s.grp.waited = none → Whole r.s →
        let v := BitVec.ofNat 64 (r.s.mem.readLE r.pa 8)
        let y := (loadAtHome r.s r.pa 8).1
        let x := loadBytes r.s r.pa 8
        let first := BitVec.ofNat 64 (Bits.ofBytesLE x.2.1)
        let holds (v : Word) : Bool := intCond cc (tyVal t v) (tyVal t (r.s.src b))
        (holds first = true → exec i s = .next (match d with
          | some q => answerS x.1 q first 0 x.2.2
          | none => x.1)) ∧
        (holds first = false → holds v = true → exec i s = .next (match d with
          | some q => answerS y q v 0 (offCore r.s r.pa)
          | none => y)) ∧
        (holds first = false → holds v = false → ∃ u, exec i s = .next u ∧ u.grp.stalled = true ∧ SameMemory s u ∧ u.getCtx r.s.cur =
          { r.s.ctx with wait := some (.timed (.word ⟨s.rs a, r.pa, v, t, cc, r.s.int t b, none⟩) limit false), pc := s.grp.first })) ∧
      exec (.gtime g e) s = .next (s.putS e (BitVec.ofNat 64 s.now))) ∧
  (∀ (s : State) (k : Nat) (c : Fin 4) (l : Option Nat) (due : Bool), runsOn s k = true →
      let key := 4 * k + c.val
      let x := s.getCtx key
      (∀ d, x.wait = some (.timed (.queue d) l due) →
        exec (.queueRetry k c) s = .next (s.setCtx key { x with wait := some (.timed (.queue d) l true) })) ∧
      (∀ w r, x.wait = some (.timed (.word w) l due) → s.reports.find? (fun r => r.key = key) = some r →
        ∃ t, exec (.waiteReport k c) s = .next t ∧ t.reports = s.reports.erase r ∧ SameMemory s t ∧
          (r.stamp = none → t.getCtx key = { x with wait := some (.timed (.word { w with last := r.value }) l false) }) ∧
          (∀ ts, r.stamp = some ts → t.getCtx key =
            { x with pts := max x.pts ts, wait := some (.timed (.word { w with last := r.value, hit := some r.value }) l true) })) ∧
      (∀ t limit, x.wait = some (.timed t l due) → l = some limit → hasHit t = false → limit ≤ (s.getGang (s.getCore k).gang).ran →
        ∃ u i, exec (.waitLimitExpiry k c) s = .next u ∧ (∀ j, u.getCtx j = (enterTrap s key i false 0).getCtx j) ∧ i.tpc = none ∧
          (match t with
            | .queue d => i.cause = 0x40 ∧ i.a = d ∧ ∀ pa, wordPa s k d = some pa →
                i.b = BitVec.ofNat 64 (s.mem.readLE (pa + 16) 4 + s.mem.readLE (pa + 24) 4 * 2 ^ 32)
            | .word w => i.cause = 0x41 ∧ i.a = w.addr ∧ i.b = w.last
            | .chain ch => i.cause = 0x50 ∧ i.a = BitVec.ofNat 64 ch ∧
                i.b = BitVec.ofNat 64 (s.getChain k ⟨ch % 8, Nat.mod_lt _ (by decide)⟩).ccnt)))

/-- R195, R324, R348: LAUNCH by a gang with LPERM whose record lines can be read, and whose completion word, if one is named, can be written and is no control register, submits the record with
that word and the value 1 at the gang's next commit, and D is empty until the answer; without LPERM it raises 0x49. R174 to R176, R195: a launch whose turn it is: a record that can be read and passes its checks is accepted at the place found for it: its cores belong to the new gang, and
the launch leaves the port; one that fails is refused with 0x43. A gang of which nothing is left completes and its cores are free. -/
def Obligations.Launches : Prop :=
  (∀ (g : Guard) (d : Fin 32) (c : Option (Fin 32)) (m : Mem) (s s1 s2 : State) (lines : List Nat) (word : Option (Nat × Word)), Runs s g →
      let i : Instr := .launch g d c m
      let ea := s.ea m
      (s.gang.lperm = true → recordLines i ea s [ea, ea + 64, ea + 128, ea + 192] = .ok (s1, lines) →
        (match c with
          | none => s2 = s1 ∧ word = none
          | some r => ∃ pa, checkMode s1 i (s1.rs r) 8 .write = .ok (s2, pa) ∧ paReg pa ≠ 2 ∧ word = some (pa, 1)) →
        s2.ctx.pair = none → Whole s2 → ∃ t, exec i s = .next t ∧ SameMemory s t ∧
          (∃ l, t.launches = s2.launches ++ [l] ∧ l.record = lines ∧ l.src = some (s2.cur, d) ∧ l.gang = s2.gangId ∧ l.completion = word ∧
            l.held = some s2.gangId) ∧
          (d ≠ 0 → (t.getCtx s2.cur).full.getLsbD d.val = false)) ∧
      (s.gang.lperm = false → ∃ x y, exec i s = .next (takeTrap s ⟨0x49, x, y, none⟩))) ∧
  ((∀ (s : State) (l : Launch), s.launches[s.subject]? = some l → launchTurn s s.subject l = true →
      let t := readRecord s l
      let bs := l.record.flatMap (fun pa => t.mem.bytes pa 64)
      let r := LaunchRec.of bs
      (∀ pa ∈ l.record, feAllowed t r.asid pa true false = true) →
      ((∀ pa ∈ l.record, poisoned t pa = false) → launchRefused t l bs = false →
        ∀ bases, placeGangAt t l.pkg ((declared r.levels).headD 0) (if r.resv = 0 then none else reservation t l.pkg r.resv r.asid) = some bases →
        let id := nextGangId t t.gangs.length t.lastGang
        ∃ u, exec .launchAccept s = .next u ∧ u.launches = s.launches.eraseIdx s.subject ∧ u.lastGang = id ∧ (u.getGang id).st = .running ∧
          (u.getGang id).asid = r.asid ∧ ∀ k ∈ (u.getGang id).cores, (u.getCore k).gang = id ∧ (u.getCore k).split = r.split) ∧
      (launchRefused t l bs = true → exec .launchAccept s = .next (refuseLaunch t s.subject l 0x43))) ∧
    (∀ (s : State), let g := s.subject
      g ≠ 0 → (s.getGang g).st = .running → gangExists s g = true → gangBusy s g = false →
      ∃ t, exec .gangComplete s = .next t ∧ (t.getGang g).st = .complete ∧ (∀ k ∈ (t.getGang g).cores, (t.getCore k).gang ≠ g) ∧
        ∀ m ∈ t.accs, m.gang ≠ g))

/-! ### Communication phases -/

/-- R270: PHASE of a scope that is a phase level of the gang, outside a phase, arrives once flushed: the context waits there with the run of lines it has loaded, and goes on at the
next line; a loaded run is the lines from an address on, in order, each with PH = 1. That the run is judged when PHASE issues and loaded after its flush is log 8. R274 to R276: in a phase and at its stamp, XSEL sets a pass-through from this cycle on for count cycles (without end when count is 0) or ends the lane's, XIDLE lets nothing issue for count
cycles; PEND goes on at the next line and ends the phase with its group: where nothing passes through the core in this cycle, it is then in no phase. R270, R277: PHASE completes once every gang core of the unit has arrived: each begins phase cycle 0 with the lines it loaded, clear latches and one common episode. A phase cycle
count past 65,535 raises 0x6B with subcode 3. -/
def Obligations.PhaseBoundaries : Prop :=
  (∀ (g : Guard) (scope : Fin 8) (s : State), Runs s g → phaseLevel s.gang scope.val = true →
      (∀ n, n < 4 → n ≠ s.ctxNo.val → atPhase (s.getCtx (4 * s.coreKey + n)) = false) → lfsMode s.ctx = 0 →
      let next := (s.grp.first &&& ~~~0x3F#64) + 64
      let r := barrierReach scope.val
      let flushed := absorbDiscards (absorbAnswers (s.goto next) s.cur r true) s.cur r
      runTooLong s next = false → s.core.residual = [] → (∀ m ∈ s.accs, m.src / 4 ≠ s.coreKey) → s.ctx.wait = none →
      ∀ u run, loadRun flushed s.cur 512 next = .ok (u, run) →
      ∃ t, exec (.phase g scope) s = .next t ∧ t = u.setCtx s.cur { u.getCtx s.cur with wait := some (.phase scope run) } ∧ t.ctx.pc = next ∧
        SameMemory s t) ∧
  (∀ (s t : State) (key n : Nat) (la : Word) (run : List (Word × Line)), loadRun s key n la = .ok (t, run) → run.length ≤ n ∧
      ∀ j x, run[j]? = some x → x.1 = la + BitVec.ofNat 64 (64 * j) ∧ Bits.bit (lineWord x.2) 8 = true) ∧
  (∀ (g : Guard) (l i : Link) (stamp : BitVec 16) (count : BitVec 8) (s : State) (p : Phase), s.guard g = true → s.core.phase = some p →
      (p.pcc = stamp.toNat →
        (∃ t, exec (.xsel g l (.link i) stamp count) s = .next t ∧ t.mem = s.mem ∧ t.ctxs = s.ctxs ∧
          (t.core.phase.map (·.passes)) = some (p.passes.filter (fun x => x.out != l) ++
            [⟨l, some i, p.pcc, if count = 0 then 65536 else p.pcc + count.toNat⟩])) ∧
        (∃ t, exec (.xsel g l .none stamp count) s = .next t ∧ t.mem = s.mem ∧ t.ctxs = s.ctxs ∧
          (t.core.phase.map (·.passes)) = some (p.passes.filter (fun x => x.out != l))) ∧
        (∃ t, exec (.xidle g stamp count) s = .next t ∧ t.mem = s.mem ∧ t.ctxs = s.ctxs ∧
          t.core.phase = some { p with idle := count.toNat })) ∧
      (∃ t, exec (.pend g) s = .next t ∧ t.grp.pend = true ∧ t.core.phase = some p ∧ t.mem = s.mem ∧ t.ctx.pc = (s.grp.first &&& ~~~0x3F#64) + 64)) ∧
  (∀ (s0 s : State) (is : List (Nat × Instr)) (p : Phase), (s.getCore (s0.cur / 4)).phase = some p → p.passes = [] → s.grp.pend = true →
      s.grp.stalled = false → s.grp.trapped = false → s0.grp.went = none → lfsMode (s0.getCtx s0.cur) = 0 →
      ∃ t, conclude exec s0 is s = some t ∧ (t.getCore (s0.cur / 4)).phase = none ∧ t.mem = s.mem ∧ (t.getCtx s0.cur).pc = (s.getCtx s0.cur).pc) ∧
  ((∀ (s : State) (k : Nat) (scope : Fin 8),
      let g := s.getGang (s.getCore k).gang
      let ks := gangUnit g scope.val k
      let arrived := phaseArrivals s ks scope.val
      g.st = .running → ks ≠ [] → arrived.length = ks.length → (∀ u, g.outAt = some u → s.now < u) →
      ∃ t, exec (.phaseBarrierComplete k scope) s = .next t ∧ t.mem = s.mem ∧
        ∀ x ∈ arrived, (t.getCtx x.1).wait = none ∧ ∃ p, (t.getCore (x.1 / 4)).phase = some p ∧ p.pcc = 0 ∧ p.run = x.2 ∧ p.latches = [] ∧ p.passes = [] ∧
          p.ctx.val = x.1 % 4 ∧ p.episode = s.episode + 1) ∧
    (∀ (s : State) (k : Nat) (p : Phase), (s.getCore k).phase = some p → 65535 < p.pcc →
      let key := 4 * k + p.ctx.val
      let at_ : State := { s with cur := key, grp := { Group.idle with first := (s.getCtx key).pc, next := (s.getCtx key).pc } }
      ∃ t x y, exec (.pccLimit k) s = .next t ∧ (∀ j, t.getCtx j = (takeTrap at_ ⟨0x6B, x, y, none⟩).getCtx j) ∧ y.toNat % 2 ^ 32 = 3))

/-- R269, R271, R274: in a phase and at its stamp, XMIT puts its value on a lane that nothing has written in this cycle; it is under way to the receiver of the same episode. XRCV of a
latch whose value was sent count cycles before its stamp writes the value. Another stamp, a second write and a lane that leads nowhere raise 0x6A. R271, R126: in a phase a load from the own scratchpad leaves its register empty, and the value is there from the third cycle after its own; a form that has no place in a
phase raises 0x6B with subcode 2. -/
def Obligations.PhaseForms : Prop :=
  (∀ (g : Guard) (l : Link) (a : Opnd) (d : Fin 32) (stamp : BitVec 16) (count : BitVec 8) (s : State) (p : Phase), s.guard g = true →
      s.core.phase = some p →
      (p.pcc = stamp.toNat → (∀ x ∈ p.written, x.1 ≠ l) → ∀ s1, laneSend s s.coreKey p l (s.src a) (BitVec.ofNat 16 p.pcc) = some s1 →
        ∃ t, exec (.xmit g l a stamp) s = .next t ∧ SameMemory s t ∧ t.ctx.s = s.ctx.s ∧
          t = s1.updCore (fun c => { c with phase := c.phase.map (fun q => { q with written := (l, some (stamp.toNat, 0)) :: q.written }) })) ∧
      (p.pcc = stamp.toNat → (s.latch l).pres = true → (s.latch l).sent.toNat + count.toNat = stamp.toNat →
        exec (.xrcv g d l stamp count) s = .next (s.putS d (s.latch l).value)) ∧
      (p.pcc ≠ stamp.toNat →
        (∃ x y, exec (.xrcv g d l stamp count) s = .next (takeTrap s ⟨0x6A, x, y, none⟩) ∧ y.toNat % 256 = 1) ∧
        (∃ x y, exec (.xmit g l a stamp) s = .next (takeTrap s ⟨0x6A, x, y, none⟩) ∧ y.toNat % 256 = 1)) ∧
      (p.pcc = stamp.toNat → (∃ x ∈ p.written, x.1 = l) →
        ∃ x y, exec (.xmit g l a stamp) s = .next (takeTrap s ⟨0x6A, x, y, none⟩) ∧ y.toNat % 256 = 3) ∧
      (p.pcc = stamp.toNat → (∀ x ∈ p.written, x.1 ≠ l) → laneTarget p.dmap.toNat (s.coreKey % 4096) l = none →
        ∃ x y, exec (.xmit g l a stamp) s = .next (takeTrap s ⟨0x6A, x, y, none⟩) ∧ y.toNat % 256 = 4) ∧
      (p.pcc = stamp.toNat → ((s.latch l).pres = false ∨ (s.latch l).sent.toNat + count.toNat ≠ stamp.toNat) →
        ∃ x y, exec (.xrcv g d l stamp count) s = .next (takeTrap s ⟨0x6A, x, y, none⟩) ∧ y.toNat % 256 = 2)) ∧
  (∀ (g : Guard) (t : Ty) (d : Fin 32) (m : Mem) (s : State) (p : Phase) (r : Grant), s.guard g = true → s.core.phase = some p →
      let n := t.bits / 8
      (Granted s (.ld g t (.s d) m) (s.ea m) n n .read (decide (n = 8)) r → paReg r.pa = 1 → padCore r.pa = r.s.coreKey → r.s = s →
        ∃ u, exec (.ld g t (.s d) m) s = .next u ∧ (d ≠ 0 → u.ctx.full.getLsbD d.val = false) ∧ u.mem = s.mem ∧
          (u.core.phase.map (·.loads)) = some (p.loads ++ [(d, loadedWord t (s.mem.bytes r.pa n), p.pcc + 3)])) ∧
      (∃ x y, exec (.mclaim g) s = .next (takeTrap s ⟨0x6B, x, y, none⟩) ∧ y.toNat % 256 = 2) ∧
      (∀ fn c, ∃ x y, exec (.amo g t fn (some d) c m) s = .next (takeTrap s ⟨0x6B, x, y, none⟩) ∧ y.toNat % 256 = 2) ∧
      (∃ x y, exec (.halt g) s = .next (takeTrap s ⟨0x6B, x, y, none⟩) ∧ y.toNat % 256 = 2))

/-! ### Engines and promises -/

/-- R157, R159, R281, R292 to R296: the engine forms of a chain 0 to 7 with their ring entry free: CSEQ and CSTAT write the completed sequence number and the fault word, CWAIT of a
completed number goes on and of one still to come waits, until LIMIT cycles of its gang have passed, or WLIMIT where LIMIT is 0 (R193), CFENCE puts one entry on every chain of its mask, CAPP appends its record, once the entry of a COPYT's tensor is read (log 27) and the link in the record before may be written. A chain operand above 7 raises 0x52 with
TINFOB 1, a number never appended 0x52 with TINFOB 2, a record of a wrong kind or state, or misaligned, 0x51. -/
def Obligations.EngineForms : Prop :=
  ∀ (g : Guard) (d : Fin 32) (o : Option (Fin 32)) (a b : Opnd) (e : Fin 32) (lim : BitVec 24) (mask : BitVec 8) (clear nsb : Bool) (s : State), Runs s g →
    (s.core.entry (nextTseq s.core.tseq)).state = 0 → s.ctx.pair = none →
    (7 < (s.src a).toNat →
      (∃ x, exec (.cseq g d a) s = .next (takeTrap s ⟨0x52, x, 1, none⟩)) ∧
      (∃ x, exec (.cstat g clear d a) s = .next (takeTrap s ⟨0x52, x, 1, none⟩)) ∧
      (∃ x, exec (.cwait g a b lim) s = .next (takeTrap s ⟨0x52, x, 1, none⟩)) ∧
      (∃ x, exec (.capp g o e a nsb) s = .next (takeTrap s ⟨0x52, x, 1, none⟩))) ∧
    (∀ ch : Fin 8, (s.src a).toNat = ch.val →
      let c := s.getChain s.coreKey ch
      let v := (s.src b).toNat
      (∃ t, exec (.cseq g d a) s = .next t ∧ Dispatched s t (.cseq g d a) 0 ∧ (d ≠ 0 → t.ctx.s[d] = BitVec.ofNat 64 c.ccnt) ∧
        t.ctx.pts = max s.ctx.pts c.cts ∧ SameMemory s t) ∧
      (∃ t, exec (.cstat g clear d a) s = .next t ∧ Dispatched s t (.cstat g clear d a) 0 ∧ (d ≠ 0 → t.ctx.s[d] = c.fault) ∧
        (t.getChain s.coreKey ch).fault = (if clear then 0 else c.fault) ∧ SameMemory s t) ∧
      (v ≤ c.acnt → v ≤ c.ccnt → ∃ t, exec (.cwait g a b lim) s = .next t ∧ Dispatched s t (.cwait g a b lim) 0 ∧ t.ctx.pts = max s.ctx.pts c.cts ∧
        SameMemory s t) ∧
      (v ≤ c.acnt → c.ccnt < v → s.grp.waited = none →
        let limit : Option Nat := if lim ≠ 0 then some (s.gang.ran + lim.toNat) else if s.gang.wlimit = 0 then none else some (s.gang.ran + s.gang.wlimit)
        ∃ t, exec (.cwait g a b lim) s = .next t ∧ t.ctx.wait = some (.timed (.chain ch.val) limit false) ∧ t.grp.stalled = true ∧ SameMemory s t) ∧
      (c.acnt < v → ∃ x, exec (.cwait g a b lim) s = .next (takeTrap s ⟨0x52, x, 2, none⟩)) ∧
      (∀ r, grantAs s (.capp g o e a nsb) (s.rs e) 64 16 .write .rmw false = .ok r → r.refused = false → r.s.ctx.pair = none →
        let body := wordsOf (r.s.mem.bytes r.pa 64)
        let ranged := !nsb && (sbRange body 1).isSome
        let state := Bits.fld (dw body 0) 19 16
        (∀ x w u link, kindOk ch (dw body 0 % 256) = true → state ≠ 1 → state ≠ 2 → (ranged = false ∨ r.s.core.scoreboard.length < 16) →
          seedHolds r.s = false → (if ranged then copytBytes r.s body else .ok (r.s, 1)) = .ok (x, w) →
          linkBefore x (.capp g o e a nsb) (x.getChain x.coreKey ch) = .ok (u, link) → u.ctx.pair = none → Whole u →
          (u.core.entry (nextTseq u.core.tseq)).state = 0 →
          let range := if ranged then sbRange body w else none
          let k := u.coreKey
          let c := u.getChain k ch
          ∃ t, exec (.capp g o e a nsb) s = .next t ∧ (t.getChain k ch).acnt = c.acnt + 1 ∧ (t.getChain k ch).tail = s.rs e ∧
            (∃ stamp, (t.getChain k ch).fifo = c.fifo ++ [.record (s.rs e) (c.acnt + 1) u.ctxNo stamp]) ∧
            (∀ q, o = some q → q ≠ 0 → t.ctx.s[q] = BitVec.ofNat 64 (c.acnt + 1)) ∧
            t.core.scoreboard.length = u.core.scoreboard.length + (if range.isSome then 1 else 0) ∧
            t.core.tseq = nextTseq u.core.tseq ∧
            (c.fifo = [] → s.mem.wf = true → s.gangId = 0 ∨ (s.gang.shadow = 0 ∧ leavesGang s.gang r.pa = false) →
              t.numAt r.pa 8 = Bits.setFld (r.s.numAt r.pa 8) 4 16 1 ∧ t.numAt (r.pa + 8) 8 = 0 ∧ SameMemoryBut s t r.pa 16)) ∧
        ((kindOk ch (dw body 0 % 256) = false ∨ state = 1 ∨ state = 2) →
          ∃ x y, exec (.capp g o e a nsb) s = .next (takeTrap r.s ⟨0x51, x, y, none⟩))) ∧
      (∀ x, grantAs s (.capp g o e a nsb) (s.rs e) 64 16 .write .rmw false = .error (.trap x) → x.cause = 0x13 →
        exec (.capp g o e a nsb) s = .next (takeTrap s { x with cause := 0x51 }))) ∧
    (Whole s → ∃ t, exec (.cfence g mask) s = .next t ∧ Dispatched s t (.cfence g mask) 0 ∧ SameMemory s t ∧
      ∀ ch : Fin 8, (t.getChain s.coreKey ch).fifo = (s.getChain s.coreKey ch).fifo ++ (if mask.getLsbD ch.val then [.fence mask] else []))

/-- R304, R306, R316, R317: TDEF, PISSUE, PREDEEM and PEXPIRE whose address passes its checks, with the scoreboard not full, append one promise command and store nothing; TQRY and PSTAT
answer fields of the entry, head word or record, each with a TSEQ of its own; a TID above 4,095 raises 0x68. -/
def Obligations.PromiseForms : Prop :=
  ∀ (g : Guard) (c5 quiet ntr : Bool) (d : Option (Fin 32)) (e : Fin 32) (c : Opnd) (m : Mem) (s s1 : State) (pa : Nat), Runs s g →
    s.ctx.pair = none → (s.core.entry (nextTseq s.core.tseq)).state = 0 →
    let appends (i : Instr) (n : Nat) (mode : Mode) (v : Word) : Prop :=
      checkMode s i (s.ea m) n mode = .ok (s1, pa) → paReg pa ≠ 2 → Whole s1 → s1.core.scoreboard.length < 16 → seedHolds s1 = false →
      ∃ t, exec i s = .next t ∧ AppendedPromise s t i c5 d (s.ea m) v ∧ t.core.tseq = nextTseq s.core.tseq ∧ SameMemory s t
    appends (.tdef g c5 quiet d c m) 32 .read (s.src c) ∧
    appends (.pissue g c5 quiet d c m) 64 .write (s.src c) ∧
    appends (.predeem g c5 ntr quiet d m) 64 .write 0 ∧
    appends (.pexpire g c5 quiet d m) 64 .write 0 ∧
    (∀ (fn : TqryFn) (r : Grant),
      let tid := (s.src c).toNat
      let ea := if fn = .head then headAddr s.gang.tensors tid else tensorAddr s.gang.tensors tid
      let n := if fn = .head then 8 else 32
      (4096 ≤ tid → exec (.tqry g fn e c) s = .next (takeTrap s ⟨0x68, s.src c, 0, none⟩)) ∧
      (tid < 4096 → Granted s (.tqry g fn e c) ea n n .read false r →
        let x := loadBytes r.s r.pa n
        let w := Bits.ofBytesLE x.2.1
        let v : Nat := match fn with
          | .ver => w / 2 ^ 192 % 2 ^ 32
          | .rows => w / 2 ^ 64 % 2 ^ 24
          | .cols => w / 2 ^ 88 % 2 ^ 24
          | .fmt => w / 2 ^ 112 % 2 ^ 16
          | .base => w % 2 ^ 64
          | .head => w % 2 ^ 64
        ∃ t, exec (.tqry g fn e c) s = .next t ∧ Answered t e (BitVec.ofNat 64 v) x.2.2 ∧ t.core.tseq = nextTseq s.core.tseq ∧ SameMemory s t)) ∧
    (∀ r : Grant, Granted s (.pstat g e m) (s.ea m) 64 64 .read false r →
      let x := loadBytes r.s r.pa 64
      let w := Bits.ofBytesLE x.2.1
      ∃ t, exec (.pstat g e m) s = .next t ∧ t.core.tseq = nextTseq s.core.tseq ∧ SameMemory s t ∧
        Answered t e (BitVec.ofNat 64 (w % 16 + w / 2 ^ 288 % 2 ^ 16 * 2 ^ 32 + w / 2 ^ 304 % 2 ^ 16 * 2 ^ 48)) x.2.2)

/-- R156, R158, R284, R292: the completion of a command: it leaves its chain, its sequence number is the completed one, ETS and CTS are one value, its scoreboard entry
goes, an error is counted in the chain fault word, and unless quiet it is posted to the appending context if that is live. R156, R159, R284 to R288: the steps of commands whose accesses all pass: the beginning reads the record and checks it; the entries of a fence leave together; COPY and FILL move one
piece, COPYT, GATH and SCAT one element (shown for one element), SIGNAL stores its value, STASH and UNSTASH move an entry (shown for one of a single piece) or an elided header, and
the ring's descriptor counts on by one read-modify-write. That one step makes all the accesses of a piece of 64 KiB, where the agenda sets no limit, is the model's choice (log 3). -/
def Obligations.CommandSteps : Prop :=
  (∀ (s : State) (k : Nat) (ch : Fin 8) (r : Running) (st cause under : Nat) (results : List (Nat × List Byte)),
      let t := completeCmd s k ch r st cause under results
      let c := s.getChain k ch
      let key := 4 * k + (itemCtx r.item).val
      (t.getChain k ch).ccnt = itemSeq r.item ∧ (t.getChain k ch).run = none ∧ (t.getChain k ch).piece = 0 ∧ (t.getChain k ch).fifo = c.fifo.drop 1 ∧
      (t.getChain k ch).cts = (t.getChain k ch).ets ∧ (t.getChain k ch).acnt = c.acnt ∧ c.ets < (t.getChain k ch).ets ∧
      (∀ x ∈ (t.getCore k).scoreboard, ¬ (x.chain = ch ∧ x.seq = itemSeq r.item)) ∧
      (cause = 0 → (t.getChain k ch).fault = c.fault ∧ (t.getCtx key).errors = (s.getCtx key).errors) ∧
      (cause ≠ 0 → (t.getChain k ch).fault = faultWord c.fault (itemSeq r.item) cause ∧
        (itemQuiet r = false → (s.getCtx key).live = true →
          ∃ x, (t.getCtx key).errors = (s.getCtx key).errors ++ [x] ∧ x.cause = cause ∧ x.infoA = itemAddr r.item ∧ x.cts = (t.getChain k ch).cts) ∧
        (itemQuiet r = true → (t.getCtx key).errors = (s.getCtx key).errors)) ∧
      ∀ h, h ≠ ch → t.getChain k h = s.getChain k h) ∧
  ((∀ (s : State) (k : Nat) (ch : Fin 8) (rest : List ChainItem), (s.getChain k ch).run = none → (s.getGang (s.getCore k).gang).st = .running →
      (∀ (a : Word) (q stamp : Nat) (x : Fin 4) (s1 : State) (bs : List Byte), (s.getChain k ch).fifo = .record a q x stamp :: rest →
        Unbroken s (engScript k ch) →
        engRead (openScript (s.setChain k ch { s.getChain k ch with ets := max (s.getChain k ch).ets stamp }) (engScript k ch)) k ch a 64 64 = .ok (s1, bs) →
        (bodyOk ch (wordsOf bs) = true →
          ∃ t, exec (.commandBegin k ch) s = .next t ∧ (t.getChain k ch).run = some ⟨.record a q x stamp, wordsOf bs, []⟩ ∧
            (t.getChain k ch).fifo = (s1.getChain k ch).fifo) ∧
        (bodyOk ch (wordsOf bs) = false →
          ∃ t, exec (.commandBegin k ch) s = .next t ∧ (t.getChain k ch).run = none ∧ (t.getChain k ch).ccnt = q ∧
            (t.getChain k ch).fault = faultWord (s1.getChain k ch).fault q 0x51)) ∧
      (∀ i a c ssn q x stamp, (s.getChain k ch).fifo = .promise i a c ssn q x stamp :: rest →
        ∃ t, exec (.commandBegin k ch) s = .next t ∧ (t.getChain k ch).run = some ⟨.promise i a c ssn q x stamp, [], []⟩ ∧ t.mem = s.mem)) ∧
    (∀ (s : State) (k : Nat) (ch : Fin 8) (m : BitVec 8), headFence (s.getChain k ch) = some m →
      (∀ h : Fin 8, m.getLsbD h.val = true → headFence (s.getChain k h) = some m) →
      ∃ t top, exec (.chainFenceRelease k ch) s = .next t ∧ t.mem = s.mem ∧
        ∀ h : Fin 8, if m.getLsbD h.val then (t.getChain k h).fifo = (s.getChain k h).fifo.drop 1 ∧ (t.getChain k h).ets = top ∧ (s.getChain k h).ets ≤ top
          else t.getChain k h = s.getChain k h) ∧
    (∀ (s t s1 s2 : State) (k : Nat) (ch : Fin 8) (a : Word) (off n x pa : Nat), s.steps = none → s.script = none → s.mem.wf = true →
      (s.getGang (s.getCore k).gang).shadow = 0 → off + 8 ≤ 64 → pa % 64 = 0 → engAddr s k ch a 64 64 .read = .ok (s1, x) →
      engAddr s1 k ch a 64 64 .write = .ok (s2, pa) → ringUpdate s k ch a off n = .ok t →
      t.numAt (pa + off) 8 = (s.numAt (pa + off) 8 + n) % 2 ^ 64 ∧ SameMemoryBut s t (pa + off) 8) ∧
    (∀ (s : State) (k : Nat) (ch : Fin 8) (r : Running), Unbroken s (engScript k ch) →
      let w (n : Nat) : Word := r.body.getD n 0
      let d (n : Nat) : Nat := dw r.body n
      let off := (s.getChain k ch).piece * 65536
      let s0 := openScript s (engScript k ch)
      let carry (u : State) (x : List Word) : State := u.setChain k ch { u.getChain k ch with run := some { r with aux := x } }
      let ends (u : State) (st : Nat) : State := closeScript (completeCmd u k ch r st 0 0 []) true
      let go (u : State) (more : Bool) : State :=
        if more then closeScript (u.setChain k ch { u.getChain k ch with piece := (u.getChain k ch).piece + 1 }) true else ends u 3
      (runningKind s k ch 1 = some r →
        let n := d 4 % 2 ^ 40
        let m := min 65536 (n - off)
        (n = 0 → exec (.copy k ch) s = .next (ends s0 3)) ∧
        (n ≠ 0 → ¬ ((w 2).toNat < (w 3).toNat + n ∧ (w 3).toNat < (w 2).toNat + n) → ∀ s1 bs s2,
          engRead s0 k ch (w 2 + BitVec.ofNat 64 off) m 1 = .ok (s1, bs) → engWrite s1 k ch (w 3 + BitVec.ofNat 64 off) bs = .ok s2 →
          exec (.copy k ch) s = .next (go s2 (decide (off + m < n)))) ∧
        (n ≠ 0 → (w 2).toNat < (w 3).toNat + n → (w 3).toNat < (w 2).toNat + n →
          ∃ t, exec (.copy k ch) s = .next t ∧ (t.getChain k ch).ccnt = itemSeq r.item ∧
            (t.getChain k ch).fault = faultWord (s.getChain k ch).fault (itemSeq r.item) 0x59)) ∧
      (runningKind s k ch 5 = some r →
        let n := d 3 % 2 ^ 40
        let m := min 65536 (n - off)
        (n = 0 → exec (.fill k ch) s = .next (ends s0 3)) ∧
        (n ≠ 0 → ∀ s1,
          engWrite s0 k ch (w 2 + BitVec.ofNat 64 off) ((List.range m).map (fun j => ((w 4) >>> (8 * (j % 8))).setWidth 8)) = .ok s1 →
          exec (.fill k ch) s = .next (go s1 (decide (off + m < n))))) ∧
      (runningKind s k ch 6 = some r → ∀ s1 pa s2, engAddr s0 k ch (w 2) 8 8 .write = .ok (s1, pa) →
        engStore s1 k ch pa [(0, Bits.bytesLE 8 (d 3))] = .ok s2 → exec (.cmdSignal k ch) s = .next (ends s2 3)) ∧
      (runningKind s k ch 2 = some r →
        let n := d 4 % 2 ^ 40
        (n = 0 → exec (.copyt k ch) s = .next (ends s0 3)) ∧
        ∀ s1 t s2 bs s3, engTensor s0 k ch (d 2 % 4096) = .ok (s1, t) → t.layout = false → t.ty ≠ 14 → t.ty ≠ 15 → n = t.elemBytes → n ≠ 0 →
          d 5 % 2 ^ 24 = 1 → (s.getChain k ch).piece = 0 → (s1.getChain k ch).piece = 0 →
          let row := d 2 / 2 ^ 12 % 2 ^ 24
          let col := d 2 / 2 ^ 36 % 2 ^ 24
          row < t.rows → col < t.cols → engRead (carry s1 (wordsOf (Bits.bytesLE 32 t.word))) k ch (t.base + BitVec.ofNat 64 (row * t.stride + col * n)) n 1 = .ok (s2, bs) →
          engWrite s2 k ch (w 3) bs = .ok s3 → exec (.copyt k ch) s = .next (ends s3 3)) ∧
      (∀ (p q : Nat) (s1 s2 s3 s4 s5 : State) (ib bs : List Byte), d 4 % 2 ^ 32 = 1 → (s.getChain k ch).piece = 0 →
        let z := d 4 / 2 ^ 32 % 4
        let a : Word := w 2 + ((BitVec.ofNat 32 (Bits.ofBytesLE ib)).signExtend 64 <<< (d 4 / 2 ^ 36 % 16))
        engAddr s0 k ch (w 3) 4 4 .read = .ok (s1, p) → engLoad s1 k ch (w 3) p 4 = .ok (s2, ib) →
        (runningKind s k ch 3 = some r → engAddr s2 k ch a (2 ^ z) (2 ^ z) .read = .ok (s3, q) → engLoad s3 k ch a q (2 ^ z) = .ok (s4, bs) →
          engWrite s4 k ch (w 5) bs = .ok s5 → exec (.gath k ch) s = .next (ends s5 3)) ∧
        (runningKind s k ch 4 = some r → engRead s2 k ch (w 5) (2 ^ z) 1 = .ok (s3, bs) → engAddr s3 k ch a (2 ^ z) (2 ^ z) .write = .ok (s4, q) →
          engStore s4 k ch q [(0, bs)] = .ok s5 → exec (.scat k ch) s = .next (ends s5 3))) ∧
      (∀ (s1 s2 s3 s4 s5 : State) (a : Word) (x : Ring) (hd bs : List Byte), (s.getChain k ch).piece = 0 → stashRing s0 k ch r = .ok (s1, a, x) →
        let ring (len : Nat) : List Word := [x.base, BitVec.ofNat 64 x.size, BitVec.ofNat 64 x.head, BitVec.ofNat 64 x.tail, a, BitVec.ofNat 64 len]
        (runningKind s k ch 7 = some r →
          let n := d 3
          let free := x.size - (BitVec.ofNat 64 x.tail - BitVec.ofNat 64 x.head).toNat
          let need := 64 + Bits.ceilDiv n 64 * 64
          (need ≤ free → n ≤ 65536 → engWrites k ch 1 s1 (ringRuns x x.tail 64) (Bits.bytesLE 8 (w 4).toNat ++ Bits.bytesLE 8 n ++ Bits.bytesLE 48 0) = .ok s2 →
            engRead (carry s2 (ring n)) k ch (w 2) n 1 = .ok (s3, bs) → engWrites k ch 1 s3 (ringRuns x (x.tail + 64) n) bs = .ok s4 →
            ringUpdate s4 k ch a 24 need = .ok s5 → exec (.stash k ch) s = .next (ends s5 3)) ∧
          (free < need → 64 ≤ free → engWrites k ch 1 s1 (ringRuns x x.tail 64) (Bits.bytesLE 8 (w 4).toNat ++ Bits.bytesLE 8 0 ++ Bits.bytesLE 48 1) = .ok s3 →
            ringUpdate s3 k ch a 24 64 = .ok s4 → exec (.stash k ch) s = .next (ends s4 5))) ∧
        (runningKind s k ch 8 = some r → x.head ≠ x.tail → engReads k ch 1 s1 (ringRuns x x.head 64) [] = .ok (s2, hd) →
          let h := wordsOf hd
          let len := dw h 1
          h.getD 0 0 = w 4 → len ≤ d 3 →
          (Bits.bit (dw h 2) 0 = true → ringUpdate s2 k ch a 16 64 = .ok s3 → exec (.unstash k ch) s = .next (ends s3 5)) ∧
          (Bits.bit (dw h 2) 0 = false → len ≤ 65536 → engReads k ch 1 (carry s2 (ring len)) (ringRuns x (x.head + 64) len) [] = .ok (s3, bs) →
            engWrite s3 k ch (w 2) bs = .ok s4 → ringUpdate s4 k ch a 16 (64 + Bits.ceilDiv len 64 * 64) = .ok s5 →
            exec (.unstash k ch) s = .next (ends s5 3))))))

/-- R289: the near-memory updates on tensors of one line, when no other update of a tensor of theirs is between two of its pieces and their accesses pass: W takes fade·W − η·g (SGD), the AdamW step with its moments, or the scaled value, where RN rounds to nearest even: SGD writes RN(fade·W − RN(η·g)); SGD and AdamW count in
W's VERSION, and the completion reports one line and the NaNs. That one step makes all of it, where the agenda sets no limit, is the model's choice (log 3). -/
def Obligations.UpdateSteps : Prop :=
  ∀ (s s1 : State) (k : Nat) (ch : Fin 8) (r : Running) (w g m v : Tensor), 0 < w.count → w.count ≤ w.perLine → dw r.body 4 = 0 →
    (s.getChain k ch).piece = 0 → r.aux = [] → tensorHeld s k ch r = false → Unbroken s (engScript k ch) →
    let s0 := openScript s (engScript k ch)
    let alone (u : State) : State := { u with script := none }
    let back (u : State) : State := { u with script := some (engScript k ch, 0) }
    let ends (u : State) (x : List (Nat × List Byte)) : State := closeScript (completeCmd u k ch r 3 0 0 x) true
    let d (n : Nat) : Nat := dw r.body n
    let n := w.count
    let f := w.fmt
    let report (nans : Nat) : List (Nat × List Byte) := [(40, Bits.bytesLE 8 (1 + nans % 2 ^ 32 * 2 ^ 32)), (48, Bits.bytesLE 8 0)]
    (runningKind s k ch 0x10 = some r → updateTensors s0 k ch [8, 9] [d 2 % 4096, d 2 / 4096 % 4096] = .ok (s1, [w, g]) →
      ∀ x s2 ws s3 gs s4 s5, elemWritable (alone s1) k ch w 0 n = .ok x → elemRead x k ch w 0 n = .ok (s2, ws) → elemRead s2 k ch g 0 n = .ok (s3, gs) →
        let out := (ws.zip gs).map (fun x => sgdElem f (loF (d 3)) (hiF (d 3)) (Num.unpack f x.1) (Num.unpack f x.2))
        elemWrite s3 k ch w 0 out = .ok s4 → bumpVersion (back s4) k ch (d 2 % 4096) = .ok s5 →
        exec (.nmuSgd k ch) s = .next (ends s5 (report (countNaN f out))) ∧
        out.length = n ∧
        ∀ j, j < n →
          let eta := Num.unpack Num.f32 (d 3 % 2 ^ 32)
          let fade := Num.unpack Num.f32 (d 3 / 2 ^ 32 % 2 ^ 32)
          let wj := Num.unpack f (ws.getD j 0)
          let gj := Num.unpack f (gs.getD j 0)
          eta.isFin = true → fade.isFin = true → wj.isFin = true → gj.isFin = true →
          ∃ t, Num.rnTo f (eta.rat * gj.rat) t ∧ ((Num.unpack f t).isFin = true →
            Num.rnTo f (fade.rat * wj.rat - (Num.unpack f t).rat) (out.getD j 0))) ∧
    (runningKind s k ch 0x12 = some r → updateTensors s0 k ch [8, 9] [d 2 % 4096] = .ok (s1, [w]) →
      ∀ x s2 ws s3, elemWritable (alone s1) k ch w 0 n = .ok x → elemRead x k ch w 0 n = .ok (s2, ws) →
        let out := ws.map (fun x => (Num.packR f .rne (Num.mulV (loF (d 3)) (Num.unpack f x))).1)
        elemWrite s2 k ch w 0 out = .ok s3 → exec (.nmuScale k ch) s = .next (ends (back s3) (report (countNaN f out)))) ∧
    (runningKind s k ch 0x11 = some r →
      updateTensors s0 k ch [9] [d 2 % 4096, d 2 / 4096 % 4096, d 2 / 2 ^ 24 % 4096, d 2 / 2 ^ 36 % 4096] = .ok (s1, [w, g, m, v]) →
      ∀ pa y s2 bs y1 y2 y3 s3 ws s4 gs s5 ms s6 vs s7 s8 s9 s10, engAddr s1 k ch (r.body.getD 3 0) 64 64 .read = .ok (y, pa) →
        engLoad y k ch (r.body.getD 3 0) pa 64 = .ok (s2, bs) →
        elemWritable (alone s2) k ch w 0 n = .ok y1 → elemWritable y1 k ch m 0 n = .ok y2 → elemWritable y2 k ch v 0 n = .ok y3 →
        elemRead y3 k ch w 0 n = .ok (s3, ws) → elemRead s3 k ch g 0 n = .ok (s4, gs) → elemRead s4 k ch m 0 n = .ok (s5, ms) →
        elemRead s5 k ch v 0 n = .ok (s6, vs) →
        let par (j : Nat) : Num.Val := Num.unpack Num.f32 (Bits.ofBytesLE ((bs.drop (4 * j)).take 4))
        let u (l : List Nat) (j : Nat) : Num.Val := Num.unpack Num.f32 (l.getD j 0)
        let one (j : Nat) := adamElem (par 0) (par 1) (par 2) (par 3) (par 4) (par 5) (par 6) (par 7) (par 8) (u ws j) (u gs j) (u ms j) (u vs j)
        let new (j : Nat) : Nat × Nat × Nat := (one j).1.getD (ws.getD j 0, ms.getD j 0, vs.getD j 0)
        (∀ j, j < n → (one j).2 = false) →
        elemWrite s6 k ch w 0 ((List.range n).map (fun j => (new j).1)) = .ok s7 → elemWrite s7 k ch m 0 ((List.range n).map (fun j => (new j).2.1)) = .ok s8 →
        elemWrite s8 k ch v 0 ((List.range n).map (fun j => (new j).2.2)) = .ok s9 → bumpVersion (back s9) k ch (d 2 % 4096) = .ok s10 →
        exec (.nmuAdamw k ch) s = .next (ends s10 (report ((List.range n).countP (fun j => (one j).1.isNone)))))

/-- R291: collectives of two participants whose accesses pass: they match when both have begun with one record and list, and complete with 0x57 when they differ (participants that differ in P are judged with the smallest: log 22, DESIGN CHOICE) or a broadcast or XOR names a root that is no rank (log 22, DEDUCED); an all-gather begins with each
member's own shard, and the other's arrival is entered as its next ordinal: the data, the list word, the flag word and the count word, in this order; reduce-scatter and all-reduce
form one shard in each step and write it where it is received, broadcast and XOR write their one result, and the commands complete with the last. An integer sum wraps. That a shard transfer is
one step is the model's choice (log 3). -/
def Obligations.CollectiveSteps : Prop :=
  (∀ (s s1 s2 : State) (id k1 k2 : Nat) (r1 r2 : Running) (l1 l2 : List Nat), starters s id = [(k1, r1), (k2, r2)] → mget? id s.colls = none →
    ranks r1.body = 2 → k1 ≠ k2 → Unbroken s (collScript id) → groupList (openScript s (collScript id)) k1 r1.body = .ok (s1, l1) → groupList s1 k2 r2.body = .ok (s2, l2) →
    let kind := dw r1.body 0 % 256
    (l1 = [k1, k2] → l2 = l1 → dw r2.body 0 % 256 = kind → dw r2.body 4 = dw r1.body 4 → kind ≠ 0x23 ∧ kind ≠ 0x24 ∨ rootRank r1.body < 2 →
      exec (.collMatch id) s = .next (closeScript { s2 with colls := mset id [⟨k1, r1.body, [], false⟩, ⟨k2, r2.body, [], false⟩] s2.colls } true)) ∧
    (l2 ≠ l1 ∨ dw r2.body 4 ≠ dw r1.body 4 ∨ dw r2.body 0 % 256 ≠ kind ∨ (l1 = [k1, k2] ∧ (kind = 0x23 ∨ kind = 0x24) ∧ 2 ≤ rootRank r1.body) →
      exec (.collMatch id) s = .next (closeScript (completeCmd (completeCmd s2 k1 collChain r1 4 0x57 0 []) k2 collChain r2 4 0x57 0 []) true))) ∧
  (∀ (s : State) (id : Nat) (m0 m1 : Member),
    let c : Coll := [m0, m1]
    let n := shardSize m0.body
    let ty := collTy m0.body
    let put (u : State) (from_ : List Nat) (m : Member) (off : Nat) (bs : List Byte) : Eng State :=
      engWrite (receive u c from_ m) m.core collChain (m.body.getD 3 0 + BitVec.ofNat 64 off) bs
    let ended (u : State) : State := closeScript { endMember (endMember u m0) m1 with colls := mdel id u.colls } true
    let s0 := openScript s (collScript id)
    let unit := m0.arrived.length
    let next (u : State) : State := if unit = 1 then ended u
      else closeScript { u with colls := mset id [{ m0 with arrived := m0.arrived ++ [unit] }, { m1 with arrived := m1.arrived ++ [unit] }] u.colls } true
    m0.done = false → m1.done = false → Unbroken s (collScript id) →
    (matched s id 0x20 = some c → m0.arrived = [] → m1.arrived = [] → ∀ s1 s2,
      landShard s0 c m0 0 = .ok s1 → landShard s1 c m1 1 = .ok s2 →
      exec (.collAg id) s = .next (closeScript { s2 with colls := mset id [{ m0 with arrived := [0] }, { m1 with arrived := [1] }] s2.colls } true)) ∧
    (∀ r s1, collRunning s m0.core = some r → collOf s m0.core r = id → matched s id 0x20 = some c → m0.arrived = [0] →
      (∀ j, j < 64 → mget? (arrivalScript m0.core j) s.scripts = none) → landShard (openScript s (arrivalScript m0.core 1)) c m0 1 = .ok s1 →
      exec (.collShardArrival m0.core 1) s = .next (closeScript (gathered s1 id [{ m0 with arrived := [0, 1] }, m1]) true)) ∧
    (∀ q s1 bs s2 p1 p2 p3 x1 x2 x3 s3 s4 s5, sendBytes s c q 0 n = .ok (s1, bs, none) → put s1 [q] m0 (q * n) bs = .ok s2 →
      let o := m0.arrived.length + 1
      let flags : Word := m0.body.getD 7 0
      let at_ (u : State) (off : Nat) : Eng (State × Nat) := engAddr u m0.core collChain (flags + BitVec.ofNat 64 off) 8 8 .write
      let word (u : State) (pa v : Nat) : Eng State := engStore u m0.core collChain pa [(0, Bits.bytesLE 8 v)]
      at_ s2 (16 + 8 * (o - 1)) = .ok (x1, p1) → word x1 p1 q = .ok s3 → at_ s3 (8 * q) = .ok (x2, p2) → word x2 p2 o = .ok s4 →
      at_ s4 32 = .ok (x3, p3) → word x3 p3 o = .ok s5 → landShard s c m0 q = .ok s5) ∧
    (∀ s1 b, unit < 2 → reduceShard s0 c unit n ty = .ok (s1, b, none) →
      (matched s id 0x21 = some c → ∀ s2, put s1 [0, 1] (if unit = 0 then m0 else m1) 0 b = .ok s2 → exec (.collRs id) s = .next (next s2)) ∧
      (matched s id 0x22 = some c → ∀ s2 s3, put s1 [0, 1] m0 (unit * n) b = .ok s2 → put s2 [0, 1] m1 (unit * n) b = .ok s3 →
        exec (.collAr id) s = .next (next s3))) ∧
    (∀ s1 b s2 s3, matched s id 0x23 = some c → sendBytes s0 c (rootRank m0.body) 0 n = .ok (s1, b, none) →
      put s1 [rootRank m0.body] m0 0 b = .ok s2 → put s2 [rootRank m0.body] m1 0 b = .ok s3 → exec (.collBc id) s = .next (ended s3)) ∧
    (∀ s1 b s2, matched s id 0x24 = some c → rootRank m0.body = 0 → sendBytes s0 c 1 0 n = .ok (s1, b, none) → b.length = n →
      put s1 [1] m0 0 b = .ok s2 → exec (.collXor id) s = .next (ended s2)) ∧
    (∀ s1 s2 q x y, sendBytes s c 0 (q * n) n = .ok (s1, x, none) → sendBytes s1 c 1 (q * n) n = .ok (s2, y, none) → x.length = y.length →
      reduceShard s c q n ty = .ok (s2, addShards ty x y, none))) ∧
  (∀ (ty : Ty) (x y : List Byte) (j : Nat),
    let b := ty.bits / 8
    let elem (l : List Byte) : Nat := Bits.ofBytesLE ((l.drop (b * j)).take b)
    ty.isInt = true → 8 ≤ ty.bits → j < x.length / b → elem (addShards ty x y) = (elem x + elem y) % 2 ^ ty.bits)

/-- R299 to R315: the promise commands that a chain is performing, none of whose tensors another command is updating and whose accesses pass, shown for tensors of one element. TDEF of an image, entry and head word in the own scratchpad stores
the entry with VERSION 0 and the TID's low bits, and no other byte. PISSUE writes G = RN(P · F) and W = RN(fade·W − RN(η·G)), counts W's VERSION, and writes the open record, with that VERSION, the CRC of F, its
expiry, its place at the head of the open list, and PSEQ; the head word names it. PREDEEM writes W = RN(W + RN(h·RN(G' − G))) with c = fade^k and h = RN(η·c) rounded step by step, closes the record with K
and CSCALE, and, unless .ntr, trains P = RN(P − RN(μ·d)·F) where the CRC of F still holds, or ends with 0x63. Expiry by policy 0 closes the record, by policy 1 writes W = RN(W + RN(h·G)), and by policy 2 ends with 0x65; k above
65,535 ends with 0x64. A record that is not the first of its open list is unlinked by the NEXT before it. Issuing an open record ends with 0x60, redeeming a redeemed one with 0x62 and an expired one with 0x61; expiring a closed one changes nothing,
whatever its reserved bits and POLICY (log 23, DEDUCED). That one step makes a whole command, where the agenda sets no limit, and that a line's accesses are one step are the model's choice (logs 3 and 23). -/
def Obligations.PromiseSteps : Prop :=
  ∀ (s : State) (k : Nat) (ch : Fin 8) (r : Running) (ea c : Word) (ssn seq stamp : Nat) (ctx : Fin 4) (g : Guard) (c5 quiet ntr : Bool) (d : Option (Fin 32)) (o : Opnd) (m : Mem),
    performing s k ch = some r → tensorHeld s k ch r = false → Unbroken s (engScript k ch) →
    let p : PCmd := ⟨k, ch, ea⟩
    let s0 := openScript s (engScript k ch)
    let alone (u : State) : State := { u with steps := none, script := none }
    let back (u : State) : State := { u with steps := none, script := some (engScript k ch, 0) }
    let ends (u : State) (cause under : Nat) : State := closeScript (completeCmd u k ch r (if cause = 0 then 3 else 4) cause under []) true
    let gang := s.getGang (s.getCore k).gang
    (r.item = .promise (.tdef g c5 quiet d o m) ea c ssn seq ctx stamp → c.toNat < 4096 →
      let pad (off : Nat) : Nat := mkPa (k / 4096) 1 (k % 4096 * 2 ^ 18 + off)
      let near (va : Word) (n off : Nat) : Prop := nearOff va.toNat = some off ∧ off % n = 0 ∧ off + n ≤ padSize s k
      ∀ b0 e0 h0, near ea 32 b0 → near (tensorAddr gang.tensors c.toNat) 32 e0 → near (headAddr gang.tensors c.toNat) 8 h0 →
        k < 4096 * 4096 → gang.kept = [] → (gangPkgs gang).contains (k / 4096) = true → gang.shadow = 0 → s.mem.wf = true →
        let img := s.numAt (pad b0) 32
        img / 2 ^ 227 = 0 → img / 2 ^ 176 % 2 ^ 16 = 0 → img / 2 ^ 172 % 16 = 0 → img / 2 ^ 112 % 16 ≠ 15 → s.numAt (pad h0) 8 = 0 →
        ∃ t, exec (.tensorDefine k ch) s = .next t ∧ t.numAt (pad e0) 32 = Bits.setFld (Bits.setFld img 32 192 0) 3 224 (c.toNat % 8) ∧
          SameMemoryBut s t (pad e0) 32 ∧ (t.getChain k ch).ccnt = seq ∧ (t.getChain k ch).run = none ∧
          (t.getChain k ch).fault = (s.getChain k ch).fault) ∧
    (∀ s1 x, recRead s0 p ea = .ok (s1, x) →
      let tid := recTidW x
      let f (t : PTensors) : Num.FFmt := t.w.fmt
      let val (t : PTensors) (w : Nat) : Num.Val := Num.unpack (f t) w
      let one (t : PTensors) : Prop := t.w.count = 1 ∧ t.f.count = 1 ∧ t.p.count = 1 ∧ t.g.count = 1
      let nan (t : PTensors) (l : List Nat) : Nat := if l.any (fun w => (val t w).isNaN) then 8 else 0
      let clean := recClean x = true ∧ recPolicy x ≠ 3
      let flags := x / 2 ^ 304 % 2 ^ 16
      let ages (t : PTensors) : Nat := (t.w.version + 2 ^ 32 - x / 2 ^ 64 % 2 ^ 32) % 2 ^ 32
      let factors (t : PTensors) : Num.Val × Num.Val := fadePower (f t) (recFade x) (recEta x) (ages t)
      let crc (t : PTensors) (w : Nat) : Nat := Crc.crc32 (Bits.bytesLE t.f.elemBytes w)
      (r.item = .promise (.pissue g c5 quiet d o m) ea c ssn seq ctx stamp →
        (recState x = 1 → exec (.promiseIssue k ch) s = .next (ends s1 0x60 0)) ∧
        ∀ s2 t s3 l s4 fv s5 pv s6 s7 wv s8 s9 s10 w s11 h,
          let e := if c.toNat % 2 ^ 32 = 0 then gang.expiry else c.toNat % 2 ^ 32
          let gv := (Num.packR (f t) .rne (Num.sumProducts .rne [(val t pv, val t fv)] [])).1
          let w1 := sgdElem (f t) (recEta x) (recFade x) (val t wv) (val t gv)
          clean → recState x ≠ 1 → e < 2 ^ 31 → promiseTensors s1 p x = .ok (s2, t) → one t →
          listOf s2 p tid = .ok (s3, l) → (∀ y ∈ l, recTidG y.2 = recTidG x → y.1 = ea) →
          elemRead s3 k ch t.f 0 1 = .ok (s4, [fv]) → elemRead (alone s4) k ch t.p 0 1 = .ok (s5, [pv]) → elemWrite s5 k ch t.g 0 [gv] = .ok s6 →
          elemRead (alone (back s6)) k ch t.w 0 1 = .ok (s7, [wv]) → elemWrite s7 k ch t.w 0 [w1] = .ok s8 → bumpVersion (back s8) k ch tid = .ok s9 →
          engTensor s9 k ch tid = .ok (s10, w) → wordRead s10 p (headOf s10 p tid) = .ok (s11, h) →
          (∃ y, RecordIs y 1 0 0 (nan t [gv, w1]) h ∧ y / 2 ^ 64 % 2 ^ 32 = w.version ∧ y / 2 ^ 224 % 2 ^ 32 = crc t fv % 2 ^ 32 ∧
            y / 2 ^ 96 % 2 ^ 32 = (if e = 0 then 0xFFFFFFFF else if (ssn + e) % 2 ^ 32 = 0xFFFFFFFF then 0 else (ssn + e) % 2 ^ 32) ∧
            y / 2 ^ 448 = seq % 2 ^ 40 + ch.val * 2 ^ 40 + k % 4096 * 2 ^ 43 + ctx.val * 2 ^ 55 ∧
            (∀ b, 2 ≤ b → b < 64 ∨ 128 ≤ b ∧ b < 224 ∨ 320 ≤ b ∧ b < 384 → y.testBit b = x.testBit b) ∧
            ∀ s12 s13, recWrite s11 p ea y = .ok s12 → wordWrite s12 p (headOf s12 p tid) ea = .ok s13 →
              exec (.promiseIssue k ch) s = .next (ends (setOpen s13 p tid true) 0 0)) ∧
          ((val t pv).isFin = true → (val t fv).isFin = true → Num.rnTo (f t) ((val t pv).rat * (val t fv).rat) gv) ∧
          ((recEta x).isFin = true → (recFade x).isFin = true → (val t wv).isFin = true → (val t gv).isFin = true →
            ∃ v, Num.rnTo (f t) ((recEta x).rat * (val t gv).rat) v ∧
              ((val t v).isFin = true → Num.rnTo (f t) ((recFade x).rat * (val t wv).rat - (val t v).rat) w1))) ∧
      (r.item = .promise (.predeem g c5 ntr quiet d m) ea c ssn seq ctx stamp → clean →
        (recState x = 0 → exec (.promiseRedeem k ch) s = .next (ends s1 0x60 0)) ∧
        (recState x = 2 → exec (.promiseRedeem k ch) s = .next (ends s1 0x62 0)) ∧
        (recState x = 3 → exec (.promiseRedeem k ch) s = .next (ends s1 0x61 0)) ∧
        (recState x = 1 → ∀ s2 t, promiseTensors s1 p x = .ok (s2, t) → one t →
          (65535 < ages t → ∃ y, RecordIs y 3 65535 (x / 2 ^ 256 % 2 ^ 32) (flags ||| 4) 0 ∧ SameRecord x y ∧
            ∀ s3 s4, unlink s2 p x = .ok s3 → recWrite s3 p ea y = .ok s4 → exec (.promiseRedeem k ch) s = .next (ends s4 0x64 0)) ∧
          (ages t ≤ 65535 → ∀ s3 gp s4 gt s5 wv s6,
            let dv := (Num.packR (f t) .rne (Num.subV .rne (val t gp) (val t gt))).1
            let hd := (Num.packR (f t) .rne (Num.mulV (factors t).2 (val t dv))).1
            let w1 := (Num.packR (f t) .rne (Num.addV .rne (val t wv) (val t hd))).1
            let scale := (Num.convert Num.f32 .rne (factors t).1).1 % 2 ^ 32
            elemRead (alone s2) k ch t.g 0 1 = .ok (s3, [gp]) → elemRead s3 k ch { t.w with base := BitVec.ofNat 64 (x / 2 ^ 320) } 0 1 = .ok (s4, [gt]) →
            elemRead s4 k ch t.w 0 1 = .ok (s5, [wv]) → elemWrite s5 k ch t.w 0 [w1] = .ok s6 →
            (ntr = true → ∃ y, RecordIs y 2 (ages t) scale (flags ||| nan t [w1]) 0 ∧ SameRecord x y ∧
              ∀ s7 s8, unlink (back s6) p x = .ok s7 → recWrite s7 p ea y = .ok s8 → exec (.promiseRedeem k ch) s = .next (ends s8 0 0)) ∧
            (ntr = false → ∀ s7 fv, elemRead (back s6) k ch t.f 0 1 = .ok (s7, [fv]) →
              (crc t fv ≠ x / 2 ^ 224 % 2 ^ 32 → ∃ y, RecordIs y 2 (ages t) scale (flags ||| nan t [w1] ||| 2) 0 ∧ SameRecord x y ∧
                ∀ s8 s9, unlink s7 p x = .ok s8 → recWrite s8 p ea y = .ok s9 → exec (.promiseRedeem k ch) s = .next (ends s9 0x63 0)) ∧
              (crc t fv = x / 2 ^ 224 % 2 ^ 32 → ∀ s8 pv,
                let rv := (Num.packR (f t) .rne (Num.mulV (recMu x) (val t dv))).1
                let p1 := (Num.packR (f t) .rne (Num.sumProducts .rne [((val t rv).flip, val t fv)] [val t pv])).1
                elemRead (alone s7) k ch t.p 0 1 = .ok (s8, [pv]) →
                (∃ y, RecordIs y 2 (ages t) scale (flags ||| nan t [w1, p1] ||| 1) 0 ∧ SameRecord x y ∧
                  ∀ s9 s10 s11, elemWrite s8 k ch t.p 0 [p1] = .ok s9 → unlink (back s9) p x = .ok s10 → recWrite s10 p ea y = .ok s11 →
                    exec (.promiseRedeem k ch) s = .next (ends s11 0 0)) ∧
                ((val t rv).isFin = true → (val t fv).isFin = true → (val t pv).isFin = true →
                  Num.rnTo (f t) ((val t pv).rat - (val t rv).rat * (val t fv).rat) p1))) ∧
            ((val t gp).isFin = true → (val t gt).isFin = true → Num.rnTo (f t) ((val t gp).rat - (val t gt).rat) dv) ∧
            ((factors t).2.isFin = true → (val t dv).isFin = true → Num.rnTo (f t) ((factors t).2.rat * (val t dv).rat) hd) ∧
            ((val t wv).isFin = true → (val t hd).isFin = true → Num.rnTo (f t) ((val t wv).rat + (val t hd).rat) w1)))) ∧
      (r.item = .promise (.pexpire g c5 quiet d m) ea c ssn seq ctx stamp →
        (recState x = 2 ∨ recState x = 3 → exec (.promiseExpire k ch) s = .next (ends s1 0 0)) ∧
        (recState x = 1 → clean →
          (recPolicy x = 0 → ∃ y, RecordIs y 3 (x / 2 ^ 288 % 2 ^ 16) (x / 2 ^ 256 % 2 ^ 32) flags 0 ∧ SameRecord x y ∧
            ∀ s2 s3, unlink s1 p x = .ok s2 → recWrite s2 p ea y = .ok s3 → exec (.promiseExpire k ch) s = .next (ends s3 0 0)) ∧
          (recPolicy x = 2 → ∃ y, RecordIs y 3 (x / 2 ^ 288 % 2 ^ 16) (x / 2 ^ 256 % 2 ^ 32) (flags ||| 128) 0 ∧ SameRecord x y ∧
            ∀ s2 s3, unlink s1 p x = .ok s2 → recWrite s2 p ea y = .ok s3 → exec (.promiseExpire k ch) s = .next (ends s3 0x65 0)) ∧
          (recPolicy x = 1 → ∀ s2 t, promiseTensors s1 p x = .ok (s2, t) → one t → ages t ≤ 65535 → ∀ s3 gp s4 wv,
            let hg := (Num.packR (f t) .rne (Num.mulV (factors t).2 (val t gp))).1
            let w1 := (Num.packR (f t) .rne (Num.addV .rne (val t wv) (val t hg))).1
            elemRead (alone s2) k ch t.g 0 1 = .ok (s3, [gp]) → elemRead s3 k ch t.w 0 1 = .ok (s4, [wv]) →
            ∃ y, RecordIs y 3 (ages t) ((Num.convert Num.f32 .rne (factors t).1).1 % 2 ^ 32) (flags ||| nan t [w1] ||| 32) 0 ∧ SameRecord x y ∧
              ∀ s5 s6 s7, elemWrite s4 k ch t.w 0 [w1] = .ok s5 → unlink (back s5) p x = .ok s6 → recWrite s6 p ea y = .ok s7 →
                exec (.promiseExpire k ch) s = .next (ends s7 0 0)))) ∧
      (∀ u u1 u2, wordRead u p (headOf u p tid) = .ok (u1, ea) → wordWrite u1 p (headOf u p tid) (recNext x) = .ok u2 →
        unlink u p x = .ok (if recNext x = 0 then setOpen u2 p tid false else u2)) ∧
      (∀ u u1 first u2 y, wordRead u p (headOf u p tid) = .ok (u1, first) → first ≠ ea → first ≠ 0 → recRead u1 p first = .ok (u2, y) → recNext y = ea →
        unlink u p x = wordWrite u2 p (first + 48) (recNext x)) ∧
      (∀ (t : PTensors) (n : Nat),
        let one : Num.Val := .fin false 1 0
        (fadePower (f t) (recFade x) (recEta x) 0).1 = one ∧
        (fadePower (f t) (recFade x) (recEta x) (n + 1)).1 =
          val t (Num.packR (f t) .rne (Num.mulV (fadePower (f t) (recFade x) (recEta x) n).1 (recFade x))).1 ∧
        (fadePower (f t) (recFade x) (recEta x) n).2 =
          val t (Num.packR (f t) .rne (Num.mulV (recEta x) (fadePower (f t) (recFade x) (recEta x) n).1)).1))

/-! ### System forms and the other units -/

/-- R79, R103 to R106, R201, R229, R230, R327, R328, R335 to R337: MFS puts the value of every special register in D; a number that names none raises 0x02, and a
supervisor register at user level 0x0E, at their slot. MTS writes the bits of each writable register that the spec lets a write reach, and leaves a read-only
one; ASR waits for the vector forms of its context; an illegal VSH raises 0x22, a TSH without the claim 0x30, and an illegal one 0x32. RDRING gives a doubleword of a ring entry. PCNT gives a counter, and .clr
zeroes all but ROLL. That a write of AUDIT takes the low five bits and clips them is log 24 (DEDUCED). -/
def Obligations.SpecialRegisters : Prop :=
  (∀ (g : Guard) (d : Fin 32) (n : BitVec 12) (s : State), Runs s g →
    let i : Instr := .mfs g d n
    let reads (num : Nat) (v : Word) : Prop := n.toNat = num → exec i s = .next (s.putS d v)
    (n.toNat = 0x002 → vecBusy s.core (s.cur % 4) = true →
      ∃ t, exec i s = .next t ∧ t.ctx = { s.ctx with wait := some .retry, pc := s.grp.first } ∧ t.grp.stalled = true) ∧
    reads 0x000 (BitVec.ofNat 64 (s.coreKey % 4096 * 4 + s.cur % 4)) ∧ reads 0x001 (BitVec.ofNat 64 s.gang.id) ∧
    (vecBusy s.core (s.cur % 4) = false → reads 0x002 s.view.asr) ∧ reads 0x003 s.view.vsh ∧ reads 0x004 (BitVec.ofNat 64 s.now) ∧
    reads 0x005 (BitVec.ofNat 64 s.gang.ssn) ∧ reads 0x006 (s.getPkg s.pkg).dmap ∧ reads 0x007 (s.getPkg s.pkg).srow ∧
    (∀ j : Fin 8, reads (0x008 + j.val) s.view.lvl[j] ∧ reads (0x010 + j.val) s.core.tsh[j]) ∧
    reads 0x020 (match s.core.claim with
      | some h => BitVec.ofNat 64 (4 + h.val)
      | none => 0) ∧
    reads 0x021 (BitVec.ofNat 64 s.core.residual.length) ∧ reads 0x022 (BitVec.ofNat 64 s.core.quant) ∧ reads 0x023 s.view.lfs ∧
    reads 0x024 (s.view.full.setWidth 64) ∧ reads 0x030 s.view.trapvec ∧ reads 0x031 s.view.tcause ∧ reads 0x032 s.view.tpc ∧
    reads 0x033 s.view.tinfoa ∧ reads 0x034 s.view.tinfob ∧ reads 0x035 s.view.tseq ∧ reads 0x040 (if s.sup then 1 else 0) ∧
    (s.sup = true → reads 0x800 s.core.root ∧ reads 0x801 (BitVec.ofNat 64 s.gang.asid) ∧ reads 0x802 (BitVec.ofNat 64 s.core.audit)) ∧
    (0x800 ≤ n.toNat → s.sup = false → exec i s = .next (takeTrap s ⟨0x0E, (slotInfo s i).1, (slotInfo s i).2, none⟩)) ∧
    ((0x018 ≤ n.toNat ∧ n.toNat < 0x020) ∨ (0x025 ≤ n.toNat ∧ n.toNat < 0x030) ∨ (0x036 ≤ n.toNat ∧ n.toNat < 0x040) ∨
      (0x041 ≤ n.toNat ∧ n.toNat < 0x800) ∨ (0x803 ≤ n.toNat ∧ s.sup = true) →
      exec i s = .next (takeTrap s ⟨0x02, (slotInfo s i).1, (slotInfo s i).2, none⟩))) ∧
  (∀ (g : Guard) (a : Fin 32) (n : BitVec 12) (s : State), Runs s g →
    let i : Instr := .mts g a n
    let v := s.rs a
    let writes (num : Nat) (t : State) : Prop := n.toNat = num → exec i s = .next t
    (n.toNat = 0x002 → vecBusy s.core (s.cur % 4) = true →
      ∃ t, exec i s = .next t ∧ t.ctx = { s.ctx with wait := some .retry, pc := s.grp.first } ∧ t.grp.stalled = true) ∧
    (vecBusy s.core (s.cur % 4) = false → writes 0x002 (s.upd (fun c => { c with asr := v &&& 0x3F03 }))) ∧
    (Vec.legalVsh v.toNat = true → writes 0x003 (s.upd (fun c => { c with vsh := v }))) ∧
    (Vec.legalVsh v.toNat = false → writes 0x003 (takeTrap s ⟨0x22, v, (slotInfo s i).2, none⟩)) ∧
    (∀ j : Fin 8,
      (s.core.claim = some s.ctxNo → s.core.releasing = false → Mat.legalTsh v.toNat = true →
        writes (0x010 + j.val) (s.updCore (fun k => { k with tsh := k.tsh.set j v }))) ∧
      (s.core.claim ≠ some s.ctxNo → n.toNat = 0x010 + j.val → ∃ x y, exec i s = .next (takeTrap s ⟨0x30, x, y, none⟩)) ∧
      (s.core.claim = some s.ctxNo → s.core.releasing = false → Mat.legalTsh v.toNat = false → n.toNat = 0x010 + j.val →
        ∃ x y, exec i s = .next (takeTrap s ⟨0x32, x, y, none⟩))) ∧
    writes 0x022 (if s.sup then s.updCore (fun k => { k with quant := max 256 (v.toNat % 2 ^ 24) }) else s) ∧
    writes 0x030 (s.upd (fun c => { c with trapvec := v })) ∧ writes 0x031 (s.upd (fun c => { c with tcause := v &&& 0x80000000000001FF })) ∧
    writes 0x032 (s.upd (fun c => { c with tpc := v })) ∧ writes 0x033 (s.upd (fun c => { c with tinfoa := v })) ∧
    writes 0x034 (s.upd (fun c => { c with tinfob := v })) ∧ writes 0x035 (s.upd (fun c => { c with tseq := v &&& 0xFFFF })) ∧
    (s.sup = true → writes 0x800 (s.updCore (fun k => { k with root := v &&& 0x0FFFFFFFFFE00000, tlb := [] })) ∧ writes 0x801 s ∧
      writes 0x802 (s.updCore (fun k => { k with audit := max 16 (min 30 (v.toNat % 32)) }))) ∧
    (n.toNat ≤ 0x001 ∨ (0x004 ≤ n.toNat ∧ n.toNat ≤ 0x00F) ∨ n.toNat = 0x020 ∨ n.toNat = 0x021 ∨ n.toNat = 0x023 ∨ n.toNat = 0x024 ∨
      n.toNat = 0x040 → exec i s = .next s)) ∧
  (∀ (g : Guard) (dw : Fin 8) (d : Fin 32) (a : Opnd) (s : State), Runs s g →
    let e := s.core.entry (s.src a).toNat
    let gives (j : Nat) (v : Word) : Prop := dw.val = j → exec (.rdring g dw d a) s = .next (s.putS d v)
    gives 0 (e.insn.setWidth 64) ∧
    gives 1 (BitVec.ofNat 64 (e.insn.toNat / 2 ^ 64 + e.tseq % 2 ^ 16 * 2 ^ 32 + e.ctx.val * 2 ^ 48 + e.pass % 2 ^ 8 * 2 ^ 50 + e.state % 4 * 2 ^ 58)) ∧
    gives 2 e.pc ∧ gives 3 e.opa ∧ gives 4 e.opb ∧ gives 5 e.opc ∧ gives 6 (BitVec.ofNat 64 (e.vshc.toNat + e.rm.toNat * 2 ^ 28)) ∧
    gives 7 (BitVec.ofNat 64 (e.rep.toNat + (if e.repv then 2 ^ 15 else 0)))) ∧
  (∀ (g : Guard) (d : Fin 32) (ctr : BitVec 8) (clr : Bool) (s : State), Runs s g →
    let i : Instr := .pcnt g d ctr clr
    let counts (num : Nat) (v : Word) (zero : State → State) : Prop :=
      ctr.toNat = num → exec i s = .next (if clr then zero (s.putS d v) else s.putS d v)
    counts 0 (BitVec.ofNat 64 (s.gang.ran - s.core.cycBase)) (fun t => t.updCore (fun k => { k with cycBase := s.gang.ran })) ∧
    counts 1 s.ctx.iss (fun t => t.upd (fun c => { c with iss := 0 })) ∧ counts 2 s.ctx.rref (fun t => t.upd (fun c => { c with rref := 0 })) ∧
    counts 3 s.core.refu (fun t => t.updCore (fun k => { k with refu := 0 })) ∧
    counts 4 s.core.insi (fun t => t.updCore (fun k => { k with insi := 0 })) ∧
    counts 5 s.core.dchk (fun t => t.updCore (fun k => { k with dchk := 0 })) ∧
    counts 6 s.core.idle (fun t => t.updCore (fun k => { k with idle := 0 })) ∧
    counts 7 s.core.walk (fun t => t.updCore (fun k => { k with walk := 0 })) ∧ counts 8 (BitVec.ofNat 64 s.gang.roll) (fun t => t) ∧
    (9 ≤ ctr.toNat → exec i s = .next (takeTrap s ⟨0x02, (slotInfo s i).1, (slotInfo s i).2, none⟩)))

/-- R338, R340 to R342, R346: SNAP copies the scratchpad lines dirtied since the commit, but those whose discard bit is set (R131), into the blocks of the pending slot, where the gang has a shadow area; where in a
block the scratchpad stands is the model's free choice (log 7), and that SNAP copies in its issuing step is log 24 (DEDUCED). XINV at supervisor level removes the translations of its gang's
address space, of the named page or of all pages, from every core of the gang's packages, and its context waits for the acknowledgements; at user level it raises
0x0E, and on a noncanonical address 0x14. SAVE of the acting context into its own scratchpad stores the 384-byte image. GSWITCH records its request, for the present cycle where T has passed, or refuses it with
a code, code 4 by the cores as the switches requested leave them at T, and D takes the answer. That XINV removes the translations when it issues and then waits, and that code 4 is
judged at T, are log 24 (DEDUCED). -/
def Obligations.SystemForms : Prop :=
  (∀ (g : Guard) (s : State), Runs s g →
    let slot := (s.gang.ssn + 1) % 2
    let done (t : State) : State := t.updCore (fun k => { k with snapLines := [] })
    (s.gang.shadow = 0 → exec (.snap g) s = .next (done s)) ∧
    (s.gang.shadow ≠ 0 → exec (.snap g) s =
      .next (done (s.core.snapLines.foldl (fun t l => shadowLine t s.gangId slot s.coreKey (l - padBase s.coreKey / 64)) s)))) ∧
  (∀ (s : State) (g slot k l a : Nat),
    let x := s.getGang g
    let va : Word := x.shadow + BitVec.ofNat 64 (0x1000 + (slot * x.cores.length + x.cores.idxOf k) * coreBlockBytes x.split) +
      BitVec.ofNat 64 (blockPart x.split 0 + 64 * l)
    (l ∈ (s.getCore k).discardBits → shadowLine s g slot k l = s) ∧
    (l ∉ (s.getCore k).discardBits → s.mem.wf = true →
      (∀ (m : Memory) (j : Nat), (∀ b, b < a ∨ a + 64 ≤ b → m.read b = s.mem.read b) → j < 64 →
        gangPa { s with mem := m } g (va + BitVec.ofNat 64 j) = some (a + j)) →
      (shadowLine s g slot k l).mem.bytes a 64 = s.mem.bytes (mkPa (k / 4096) 1 (k % 4096 * 2 ^ 18) + 64 * l) 64 ∧
        SameMemoryBut s (shadowLine s g slot k l) a 64)) ∧
  (∀ (g : Guard) (all : Bool) (m : Mem) (s : State), Runs s g →
    let i : Instr := .xinv g all m
    let ea := s.ea m
    (s.sup = false → exec i s = .next (takeTrap s ⟨0x0E, (slotInfo s i).1, (slotInfo s i).2, none⟩)) ∧
    (s.sup = true → all = false → nearOff ea.toNat = none → 2 ^ 57 ≤ ea.toNat → exec i s = .next (takeTrap s ⟨0x14, ea, 0, none⟩)) ∧
    (s.sup = true → s.ctx.pair = none → Whole s → all = true ∨ (nearOff ea.toNat).isSome ∨ ea.toNat < 2 ^ 57 →
      ∃ t, exec i s = .next t ∧ t.ctx = { s.ctx with xinv := true } ∧ SameMemory s t ∧ (∀ k, k ≠ s.cur → t.getCtx k = s.getCtx k) ∧
        ∀ k, t.getCore k =
          if k / 4096 ∈ gangPkgs s.gang then { s.getCore k with tlb := (s.getCore k).tlb.filter (fun e =>
            !(e.asid == s.gang.asid && (all || e.vpn == ea.toNat / 2 ^ pageShift e.level))) } else s.getCore k)) ∧
  (∀ (g : Guard) (m : Mem) (s : State) (b : Nat), Runs s g →
    let pa := mkPa s.pkg 1 (s.coreKey % 4096 * 2 ^ 18 + b)
    let c := s.view
    s.pkg < 4096 → nearOff (s.ea m).toNat = some b → b % 64 = 0 → b + 384 ≤ padSize s s.coreKey → b + 384 ≤ 0x40000 → s.core.scoreboard = [] →
    s.gangId = 0 ∨ (s.gang.shadow = 0 ∧ s.pkg ∈ gangPkgs s.gang) → s.mem.wf = true → Whole s →
    ∃ t, exec (.save g m) s = .next t ∧ SameMemoryBut s t pa 384 ∧
      t.mem.bytes pa 384 = (List.finRange 32).flatMap (fun n => Bits.bytesLE 8 (s.rs n).toNat) ++
        ([c.full.setWidth 64, s.grp.next, c.p.setWidth 64, c.asr, c.vsh, c.lfs, BitVec.ofNat 64 (c.quantum % 2 ^ 24), c.tcause, c.tpc, c.tinfoa, c.tinfob,
          c.tseq, c.trapvec] : List Word).flatMap (fun w => Bits.bytesLE 8 w.toNat) ++ List.replicate 24 0) ∧
  (∀ (g : Guard) (fn : GswFn) (d : Option (Fin 32)) (a b : Fin 32) (s : State), Runs s g →
    let i : Instr := .gswitch g fn d a b
    let n := (s.rs a).toNat
    let time := (s.rs b).toNat
    let x := s.getGang n
    let answers (t : State) (v : Word) : Prop := exec i s = .next (match d with
      | some r => sendAnswer t r v 0
      | none => t)
    let refuses (code : Nat) : Prop := answers s (BitVec.ofNat 64 (2 ^ 63 + code))
    (s.sup = false → exec i s = .next (takeTrap s ⟨0x0E, (slotInfo s i).1, (slotInfo s i).2, none⟩)) ∧
    (s.sup = true → s.ctx.pair = none → Whole s →
      (gangExists s n = false → refuses 1) ∧
      (gangExists s n = true →
        (fn = .out → (x.cls = 1 → refuses 2) ∧ (x.cls ≠ 1 → x.st.runs = false → refuses 3) ∧
          (x.cls ≠ 1 → x.st.runs = true → answers (s.setGang n { x with outAt := some (max time s.now) }) 0)) ∧
        (fn = .in_ →
          let soon (y : Option Nat) : Prop := ∃ u, y = some u ∧ u ≤ max time s.now
          let busy (k : Nat) : Prop := ((s.getCore k).gang ≠ 0 ∧ ¬ soon (s.getGang (s.getCore k).gang).outAt) ∨
            ∃ y ∈ s.gangs, y.1 ≠ n ∧ y.2.st = .switchedOut ∧ soon y.2.inAt ∧ k ∈ y.2.cores.map (movedTo y.2.moved)
          (x.st = .switchedOut → (∃ k ∈ x.cores, busy (movedTo x.moved k)) → refuses 4) ∧
          (x.st = .switchedOut → (∀ k ∈ x.cores, ¬ busy (movedTo x.moved k)) → answers (s.setGang n { x with inAt := some (max time s.now) }) 0) ∧
          (x.st ≠ .switchedOut → refuses 5)) ∧
        (fn = .cancel → (x.outAt = none → x.inAt = none → refuses 6) ∧
          (x.outAt ≠ none ∨ x.inAt ≠ none → answers (s.setGang n { x with outAt := none, inAt := none }) 0)))))

/-- R138, R169, R170, R324, R326, R358: a write to a control register by the host port, if the table of its block lets master 0xFFFF, stores the bits that the spec gives it, clamped for a quota, a window and a ring size; CSHEAD is
read-only while its front end runs, CSCTL's CLR clears the stop, and a write to an unlisted offset changes nothing. A packet that passes its checks is performed by
the step of its kind: a NOP, a submitted launch, a comparison that goes on or waits, an atomic add or a store, and a store of GTIME; one that fails stops its front end
with its cause. That a poisoned semaphore keeps WAITS waiting and SIGNAL and GSTAMP from storing, that a poisoned packet stops with 0x42, and that STREAM_NOP is the step that stops at an unknown
kind are log 19; that no table guards the registers of front ends and the package block is log 16. -/
def Obligations.StreamSteps : Prop :=
  (∀ (s : State) (pa : Nat) (v : Word),
    (paReg pa ≠ 2 → exec (.controlRegisterWrite pa v) s = .next s) ∧
    (ctrlMask (blockOf (paOff pa)).1 (blockOf (paOff pa)).2 = none → exec (.controlRegisterWrite pa v) s = .next s)) ∧
  (∀ (s : State) (pkg : Nat) (v : Word), pkg < 4096 →
    let at_ (b : Block) (r : Nat) : Nat := blockPa pkg b r
    let writes (b : Block) (r : Nat) (x : Word) : Prop := exec (.controlRegisterWrite (at_ b r) v) s = .next (ctrlSet s (blockPa pkg b r) x)
    let lets (b : Block) : Bool := tableAllows s pkg b 0xFFFF false true
    (∀ i, i < 512 →
      (lets (.slice i) = true → writes (.slice i) 0x100 (BitVec.ofNat 64 (min v.toNat 255)) ∧
        exec (.controlRegisterWrite (at_ (.slice i) 0x108) v) s =
          .next (ctrlSet (rollWindow s (pkg * 512 + i)) (blockPa pkg (.slice i) 0x108) (BitVec.ofNat 64 (max 16 (min v.toNat 65535))))) ∧
      (lets (.slice i) = false → ∀ r, r < 4096 → exec (.controlRegisterWrite (at_ (.slice i) r) v) s = .next s)) ∧
    (∀ n, n < 128 →
      let running := (ctrlRaw s (blockPa pkg (.front n) 0x20)).getLsbD 0 && !(ctrlRaw s (blockPa pkg (.front n) 0x28)).getLsbD 0
      writes (.front n) 0x00 (v &&& 0xFFFFFFFFFFFFFFE0) ∧ writes (.front n) 0x08 (BitVec.ofNat 64 (max 12 (min v.toNat 24))) ∧
      writes (.front n) 0x18 (v &&& 0xFFFFFFFFFFFFFFE0) ∧ (running = false → writes (.front n) 0x10 (v &&& 0xFFFFFFFFFFFFFFE0)) ∧
      (running = true → exec (.controlRegisterWrite (at_ (.front n) 0x10) v) s = .next s) ∧
      (v.getLsbD 1 = false → writes (.front n) 0x20 (v &&& 1)) ∧
      (v.getLsbD 1 = true → exec (.controlRegisterWrite (at_ (.front n) 0x20) v) s = .next (ctrlSet (ctrlSet s (blockPa pkg (.front n) 0x28)
        (ctrlRaw s (blockPa pkg (.front n) 0x28) &&& ~~~0xFF01#64)) (blockPa pkg (.front n) 0x20) (v &&& 1))) ∧
      exec (.controlRegisterWrite (at_ (.front n) 0x28) v) s = .next s) ∧
    (∀ i, i < 64 → (∀ c, c < 4096 → lets (.core c) = true → writes (.core c) (0x800 + 8 * i) (v &&& 0xFFFF000000000007)) ∧
      writes .package (0x100 + 16 * i) (v &&& 0xFFFF0003FFFFFFFF) ∧ writes .package (0x108 + 16 * i) v ∧
      writes .package (0x800 + 8 * i) (v &&& 0x3FFF)) ∧
    ∀ die : Fin 8, (lets (.base die.val) = true →
        exec (.einjArm pkg die v) s = .next (ctrlSet s (blockPa pkg (.base die.val) 0xA00) (v &&& 0x0FFFFFFFFFFFFFC7))) ∧
      (lets (.base die.val) = false → exec (.einjArm pkg die v) s = .next s)) ∧
  (∀ s : State, let pa := blockPa (s.subject / 128) (.front (s.subject % 128)) 0x28
    exec .csctlClr s = .next (ctrlSet s pa (ctrlRaw s pa &&& ~~~0xFF01#64))) ∧
  (∀ (s t : State) (bs : List Byte), readStream s s.subject = .packet t bs →
    let id := s.subject
    let kind := fieldAt bs 0 1
    let pa := fieldAt bs 8 8
    let w := fieldAt bs 16 8
    let fn := fieldAt bs 24 1
    let len := bs.length / 32
    let u := if kind = 2 ∨ (kind = 3 ∧ fn = 1) then homeRead t .other pa else t
    let x := u.mem.readLE pa 8
    let waiting := Bits.bit (feReg s id 0x28) 1
    let allowed (wr : Bool) : Bool := feAllowed t (feMaster t id) pa (kind = 2 || fn = 1 && kind = 3) wr
    Crc.crc32 (bs.take 4 ++ [0, 0, 0, 0] ++ bs.drop 8) = fieldAt bs 4 4 ∧ kind ≤ 4 ∧ fieldAt bs 2 2 = 0 ∧ t.mem = s.mem ∧
    bs.length = 32 * fieldAt bs 1 1 ∧ 1 ≤ fieldAt bs 1 1 ∧ fieldAt bs 1 1 ≤ 8 ∧
    (kind = 0 → exec .streamNop s = .next (feAdvance t id len)) ∧
    (kind = 1 → ∃ l, exec .streamLaunch s = .next { t with launches := t.launches ++ [l] } ∧ l.fe = some id ∧ l.pkg = id / 128 ∧
      l.record = [pa, pa + 64, pa + 128, pa + 192] ∧ l.held = none ∧ l.src = none ∧
      l.completion = (if w = 0 then none else some (w, BitVec.ofNat 64 (fieldAt bs 24 8))) ∧
      l.sup = (ctrlRaw t (blockPa (id / 128) .package (8 * (id % 128 / 64)))).getLsbD (id % 128 % 64)) ∧
    (kind = 2 →
      let e : Instr := if waiting then .waitsSatisfied else .waits
      let holds := (fn = 0 ∧ w ≤ x) ∨ (fn = 1 ∧ x = w) ∨ (fn = 2 ∧ x ≠ w)
      (allowed false = false → exec e s = .next (feStop t id 0x12)) ∧
      (allowed false = true → poisoned u pa = false → holds → exec e s = .next (feAdvance (feLoads u id [pa / 64]) id len)) ∧
      (allowed false = true → poisoned u pa = true ∨ ¬ holds → exec e s = .next (feSet u id 0x28 (feReg u id 0x28 ||| 2)))) ∧
    (kind = 3 ∨ kind = 4 →
      let e : Instr := if kind = 3 then .streamSignal else .gstamp
      let v := if kind = 4 then t.now else if fn = 1 then (x + w) % 2 ^ 64 else w
      (allowed true = false → exec e s = .next (feStop t id 0x12)) ∧
      (allowed true = true → poisoned u pa = true → exec e s = .next (feAdvance u id len)) ∧
      (allowed true = true → poisoned u pa = false → s.mem.wf = true →
        ∃ r, exec e s = .next (feAdvance r id len) ∧ r.numAt pa 8 = v % 2 ^ 64 ∧ SameMemoryBut s r pa 8))) ∧
  (∀ (s t : State) (c : Nat), readStream s s.subject = .bad t c →
    let id := s.subject
    let kind := feKind s id
    let stops (e : Instr) : Prop := exec e s = .next (feStop t id c)
    (c = 0x12 ∨ c = 0x42 ∨ c = 0x47) ∧ t.mem = s.mem ∧ (kind = 0 ∨ 4 < kind → stops .streamNop) ∧ (kind = 1 → stops .streamLaunch) ∧
    (kind = 2 → stops (if Bits.bit (feReg s id 0x28) 1 then .waitsSatisfied else .waits)) ∧ (kind = 3 → stops .streamSignal) ∧
    (kind = 4 → stops .gstamp)) ∧
  (∀ (s : State) (id n : Nat), feReg s id 0x08 ≤ 24 →
    feReg (feAdvance s id n) id 0x10 = (feHead s id + 32 * n) % feSize s id ∧ Bits.bit (feReg (feAdvance s id n) id 0x28) 1 = false ∧
    (n < 256 → feReg (feStop s id n) id 0x28 = n * 256 + 1) ∧ feReg (feStop s id n) id 0x10 = feReg s id 0x10)

/-- R14, R15, R17, R342 to R344, R347, R349 to R352, R357: a lost die's number moves to its row's reserve, a first failed row becomes the disabled one and a retired
channel is listed, where no gang uses the package. A matching audit changes nothing and a mismatch rolls its gang back. A rollback writes the logged values back,
restores the saved contexts and cores, and counts in ROLL; consumed poison rolls back a protected gang and ends another. A gang ends with each machine check that
ends it. A switch saves the gang and frees its cores, and a resume restores it. The fault record counts every event and keeps the first. R333, R349, R351, R353 to R356: the service cores log a corrected-error threshold, a retrained link and a replaced image with cause, unit and GTIME, and a replaced
image's digest takes its place. A channel is calibrated unless another is under way (2,048 cycles) or one of its stack has been within 65,536 cycles. An image whose signature holds starts the next boot stage, and a failed
one stops the boot, which then stays stopped. An attestation answers with the digests. The Seroan service stops a gang, resumes it, sets its breakpoints and reads and writes
the saved state of a stopped gang, never that of a running one. What the rules leave open of these is read as logged: rollbacks and machine checks in log 25; the boot's stop, the
index of a digest, what attaching stops, the interval of audits and the masks of saved doublewords in log 26; a lost die without a reserve in log 29. The hash and the signature are the published standards' (PRESUMED, log 26). -/
def Obligations.RecoverySteps : Prop :=
  ((∀ (s : State) (pkg : Nat) (die : Fin 8), gangsWith s (fun k => k / 4096 = pkg) = [] →
      let x := s.getPkg pkg
      let r := (Topo.site x.dmap.toNat die.val).1
      let lost (s : State) : State := match reserveFor s pkg die.val with
        | none => s
        | some u => s.setPkg pkg { x with
            dmap := BitVec.ofNat 64 (Bits.setFld x.dmap.toNat 4 (4 * die.val) (r * 8 + u)), srow := BitVec.ofNat 64 (Bits.setFld x.srow.toNat 5 (5 * die.val) 16)
            failedRows := x.failedRows.filter (fun f => f / 32 ≠ die.val) }
      (∀ u, reserveFor s pkg die.val = some u → Config.reserveUsable = true ∧ Topo.computing x.dmap.toNat r u = false) ∧
      exec (.dieLoss pkg die) s = .next (lost s) ∧
      (∀ row : Fin 17,
        (die.val * 32 + row.val ∈ x.failedRows → exec (.rowFailure pkg die row) s = .next s) ∧
        (die.val * 32 + row.val ∉ x.failedRows → (∃ f ∈ x.failedRows, f / 32 = die.val) → exec (.rowFailure pkg die row) s = .next (lost s)) ∧
        ((∀ f ∈ x.failedRows, f / 32 ≠ die.val) → exec (.rowFailure pkg die row) s = .next (s.setPkg pkg { x with
          srow := BitVec.ofNat 64 (Bits.setFld x.srow.toNat 5 (5 * die.val) row.val), failedRows := insertNat (die.val * 32 + row.val) x.failedRows }))) ∧
      (∀ stack ch, exec (.hbmChannelRetire pkg stack ch) s = .next (s.setPkg pkg { x with retired := insertNat (stack.val * 32 + ch.val) x.retired })) ∧
      (s.subject = pkg →
        exec .packageLoss s = .next { s.setPkg pkg { x with lost := true } with launches := s.launches.filter (fun l => l.pkg ≠ pkg) } ∧
        exec .powerThermalLimit s = .next (s.setPkg pkg { x with slowed := true }))) ∧
    (∀ (s : State) (pkg : Nat) (die : Fin 8),
      let at_ := mget 0 die.val (s.getPkg pkg).audits + 2 ^ (s.getCore (pkg * 4096 + die.val * 512)).audit
      let t := s.setPkg pkg { s.getPkg pkg with audits := mset die.val s.now (s.getPkg pkg).audits }
      (s.now < at_ → ∀ b, exec (.permitAudit pkg die b) s = .next s) ∧
      (at_ ≤ s.now → exec (.permitAudit pkg die false) s = .next t ∧
        ∀ g, gangsWith t (fun k => k / 512 = pkg * 8 + die.val) = [g] →
          ((s.getGang g).st = .running → exec (.permitAudit pkg die true) s = .next (rollback t g (some 0x7B) (firstKey t g) none)) ∧
          ((s.getGang g).st ≠ .running → (s.getGang g).owed = none →
            exec (.permitAudit pkg die true) s = .next (t.setGang g { s.getGang g with owed := some (some 0x7B) })))) ∧
    (∀ (s : State) (line key : Nat),
      let g := s.subject
      let x := s.getGang g
      x.consumed = some (line, key) → x.st = .running →
      (x.unprot = false → shadowBad s g = false → (mget? line x.log).isSome → exec .poisonConsumed s = .next (machineCheck (restoreGang s g) g 0x70 key)) ∧
      (x.unprot = true ∨ shadowBad s g = true ∨ mget? line x.log = none → ∃ t, exec .poisonConsumed s = .next t ∧ (t.getGang g).st = .ended)) ∧
    (∀ (s : State) (g : Nat),
      let x := s.getGang g
      let t := restoreGang s g
      let slot := if x.ssn % 2 = 0 then x.slot0 else x.slot1
      t.getGang g = { x with kept := [], ejected := [], log := [], openBits := x.slotOpen, queues := x.slotQueues, roll := x.roll + 1, consumed := none } ∧
      t.accs = s.accs.filter (fun m => m.gang ≠ g) ++ x.slotAccs ∧
      ((slot.map (·.key)).Nodup → (∀ i ∈ slot, i.ctxs.length = 4) → ∀ i ∈ slot,
        (t.getCore i.key).tiles = i.core.tiles ∧ (t.getCore i.key).accs = i.core.accs ∧ (t.getCore i.key).tsh = i.core.tsh ∧
        (t.getCore i.key).bits = i.core.bits ∧ (t.getCore i.key).claim = i.core.claim ∧
        ∀ n c, i.ctxs[n]? = some c →
          let d := t.getCtx (4 * i.key + n)
          SameSpecial c { d with pts := c.pts } ∧ d.s = c.s ∧ d.full = c.full ∧ d.p = c.p ∧ d.asr = c.asr ∧ d.pc = c.pc ∧ c.pts ≤ d.pts ∧
          (s.getCtx (4 * i.key + n)).pts ≤ d.pts)) ∧
    (∀ (s : State) (log : SMap (Line × Option Line)), (log.map Prod.fst).Nodup → s.mem.wf = true →
      (∀ e ∈ log, (writeLogBack s log).numAt (e.1 * 64) 64 = e.2.1.toNat ∧ ((writeLogBack s log).getLine e.1).dirty = e.2.2) ∧
      (∀ a, (∀ e ∈ log, a / 64 ≠ e.1) → (writeLogBack s log).mem.read a = s.mem.read a)) ∧
    (∀ s : State,
      let g := s.subject
      let x := s.getGang g
      let ends (e : Instr) : Prop := ∃ t, exec e s = .next t ∧ (t.getGang g).st = .ended ∧
        ∀ k ∈ x.cores, (s.getCore k).gang = g → ∀ n, n < 4 → (t.getCtx (4 * k + n)).live = false
      (gangExists s g = true → ends .internalMachineCheck) ∧
      (∀ time, x.outAt = some time → x.st = .running → time + 2 ^ 20 ≤ s.now → ends .stopTimeout) ∧
      (∀ time, x.outAt = some time → x.st = .running → time ≤ s.now → x.consumed = none → gangInPhase s g = false → seedRunning s x = false → canStop s g = true → g ≠ 0 →
        let y := stopGang s g
        ∃ t, exec .gangSwitchStop s = .next t ∧ (t.getGang g).st = .switchedOut ∧ (t.getGang g).outAt = none ∧
          (t.getGang g).leftAt = y.now ∧
          (t.getGang g).saved = (y.getGang g).cores.map (coreImage y) ∧ (t.getGang g).ejected = y.accs.filter (fun m => m.gang = g) ∧
          t.accs = y.accs.filter (fun m => m.gang ≠ g) ∧ ∀ k ∈ (y.getGang g).cores, (t.getCore k).gang ≠ g) ∧
      (∀ time, x.inAt = some time → x.st = .switchedOut → time ≤ s.now → (∀ k ∈ x.cores, (s.getCore (movedTo x.moved k)).gang = 0) →
        let passed := s.now - x.leftAt
        let r := resumeGang s g
        (x.owed = none → exec .gangResume s = .next r) ∧
        (∀ cause, x.owed = some cause → x.moved = [] → exec .gangResume s =
          .next (rollback (r.setGang g { r.getGang g with owed := none, moved := [] }) g cause (firstKey r g) none)) ∧
        (r.getGang g).st = .running ∧ (r.getGang g).inAt = none ∧ (r.getGang g).saved = [] ∧
        r.accs = s.accs ++ x.ejected.map (fun m => { m with born := m.born.map (fun b => b + passed) }) ∧
        ((x.saved.map (·.key)).Nodup → (∀ i ∈ x.saved, i.ctxs.length = 4) → ∀ i ∈ x.saved,
          (r.getCore i.key).residual = i.core.residual.map (fun e => { e with born := e.born + passed }) ∧
          ∀ n c, i.ctxs[n]? = some c →
            let d := r.getCtx (4 * i.key + n)
            SameSpecial c d ∧ d.s = c.s ∧ d.full = c.full ∧ d.p = c.p ∧ d.asr = c.asr ∧ d.pc = c.pc))) ∧
    (∀ (s : State) (g c key : Nat) (tpc a b : Word) (p : Nat), faultRec s g 2 = some p → s.mem.wf = true →
      let n := s.numAt p 8
      let t := recordFault s g c key tpc a b
      SameMemoryBut s t p 48 ∧ t.numAt p 8 = (n + 1) % 2 ^ 64 ∧
      (n = 0 → t.numAt (p + 8) 8 = (c + 256 * (key % 4) + 1024 * (key / 4 % 4096)) % 2 ^ 64 ∧ t.numAt (p + 16) 8 = tpc.toNat ∧
        t.numAt (p + 24) 8 = a.toNat ∧ t.numAt (p + 32) 8 = b.toNat ∧ t.numAt (p + 40) 8 = s.now % 2 ^ 64) ∧
      (n ≠ 0 → SameMemoryBut s t p 8))) ∧
  ((∀ (s : State) (pkg unit : Nat) (link : Fin 16) (image : List Byte) (sign : Signature),
      let x := s.getPkg pkg
      let logged (t : State) (cause u : Nat) : State := { t with log := s.log ++ [⟨cause, pkg * 2 ^ 32 + u, s.now⟩] }
      exec (.correctedErrorThreshold pkg unit) s = .next (logged s 0x78 unit) ∧
      exec (.linkRetrain pkg link) s = .next (logged s 0x79 link.val) ∧
      (Crypto.imageOk image sign = true → exec (.firmwareReplacement pkg unit ⟨image, sign⟩) s =
        .next (logged (s.setPkg pkg { x with digests := x.digests.set (min unit 1) (Crypto.digest image) }) 0x7C unit)) ∧
      (Crypto.imageOk image sign = false → exec (.firmwareReplacement pkg unit ⟨image, sign⟩) s = .next s)) ∧
    (∀ (s : State) (pkg : Nat) (stack : Fin 8) (ch : Fin 32),
      let x := s.getPkg pkg
      let i : Instr := .hbmRecalibration pkg stack ch
      ((∃ c ∈ x.recal, s.now < c.2 + 2048 ∨ (c.1 / 32 = stack.val ∧ s.now < c.2 + 65536)) → exec i s = .next s) ∧
      ((∀ c ∈ x.recal, c.2 + 2048 ≤ s.now ∧ (c.1 / 32 = stack.val → c.2 + 65536 ≤ s.now)) →
        exec i s = .next (s.setPkg pkg { x with recal := mset (stack.val * 32 + ch.val) s.now x.recal }))) ∧
    (∀ (s : State) (pkg : Nat) (image : List Byte) (sign : Signature),
      let x := s.getPkg pkg
      (x.bootReport = none → x.boot < 3 →
        (Crypto.imageOk image sign = true → exec (.boot pkg image sign) s =
          .next (s.setPkg pkg { x with boot := x.boot + 1, digests := x.digests ++ [Crypto.digest image] })) ∧
        (Crypto.imageOk image sign = false → exec (.boot pkg image sign) s = .next (s.setPkg pkg { x with bootReport := some x.boot }))) ∧
      (∀ stage, x.bootReport = some stage → exec (.boot pkg image sign) s = .fault (.bootStopped stage))) ∧
    (∀ s : State, exec .attestation s = .next (s.setPkg s.subject { s.getPkg s.subject with attested := (s.getPkg s.subject).digests })) ∧
    (∀ (s : State) (g : Nat), gangExists s g = true →
      let x := s.getGang g
      let attached : Gang := { x with attached := true }
      (s.subject = g → x.st.runs = true → x.cls ≠ 1 → exec .seroanAttach s = .next (s.setGang g { attached with outAt := some s.now })) ∧
      (s.subject = g → x.st.runs = false ∨ x.cls = 1 → exec .seroanAttach s = .next (s.setGang g attached)) ∧
      (s.subject = g → x.attached = true → x.st = .switchedOut → (∀ k ∈ x.cores, occupiedAt s g s.now (movedTo x.moved k) = false) →
        exec .seroanResume s = .next (s.setGang g { x with inAt := some s.now })) ∧
      (∀ addr, x.attached = true →
        (∃ t, exec (.seroanBreakpoint g addr true) s = .next t ∧ t = s.setGang g (t.getGang g) ∧
          ∀ a, a ∈ (t.getGang g).brks ↔ a = addr ∨ a ∈ x.brks) ∧
        (∃ t, exec (.seroanBreakpoint g addr false) s = .next t ∧ t = s.setGang g (t.getGang g) ∧
          ∀ a, a ∈ (t.getGang g).brks ↔ a ≠ addr ∧ a ∈ x.brks)) ∧
      (∀ (k dw : Nat) (part : SavedPart) (w : Option Word),
        let e : Instr := .seroanStateAccess g k part dw w
        (x.st ≠ .switchedOut ∨ x.attached = false → exec e s = .next s) ∧
        (x.st = .switchedOut → x.attached = true → ∀ i, x.saved.find? (fun i => i.key = k) = some i →
          (w = none → ∃ v, exec e s = .next (s.setGang g { x with answer := some v }) ∧
            (∀ c n y, part = .context c → dw = n → 1 ≤ n → i.ctxs[c.val]? = some y → ∀ h : n < 32, v = y.s[n]) ∧
            (∀ c y, part = .context c → i.ctxs[c.val]? = some y → (dw = 33 → v = y.pc) ∧ (dw = 35 → v = y.asr) ∧ (dw = 36 → v = y.vsh)) ∧
            (∀ h : dw < 8, part = .tsh → v = i.core.tsh[dw])) ∧
          (∀ v, w = some v → part = .queues → ∃ q, exec e s = .next (s.setGang g { x with queues := mset (queueKey 1 k) q x.queues })) ∧
          (∀ v, w = some v → part ≠ .queues → ∃ j : CoreImage → CoreImage, exec e s = .next (s.setGang g { x with saved := x.saved.map (fun y => if y.key = k then j y else y) }) ∧
            (∀ c n, part = .context c → dw = n → 1 ≤ n → ∀ (h : n < 32) y, i.ctxs[c.val]? = some y →
              (j i).ctxs[c.val]? = some { y with s := y.s.set n v } ∧ (j i).core = i.core) ∧
            (∀ c y, part = .context c → dw = 36 → i.ctxs[c.val]? = some y → (j i).ctxs[c.val]? = some { y with vsh := v &&& vshMask }) ∧
            (∀ h : dw < 8, part = .tsh → (j i).core = { i.core with tsh := i.core.tsh.set dw (v &&& tshMask) } ∧ (j i).ctxs = i.ctxs))))))

/-- R94, R96, R154, R183, R204, R341: steps of contexts. A running context whose count has reached QUANT gives way to the next one in rotation
whose next group is prepared; the rotation may come back to the same context, whose count is then 0 again (both are readings of the model, log 29). An answer
that arrives writes its register and makes it full. A dirty line is written back, and the backing value it had goes to the log of the gang that wrote it (R167). XINV's acknowledgements end its wait. The second copy of a paired task starts with
the first copy's code, frame and handle; messages that agree let the first copy forward, and a mismatch, or 65,536 cycles without the other message, gives the first copy
0x74 and puts the packet back. -/
def Obligations.ContextSteps : Prop :=
  (∀ (s : State) (k : Nat) (j : Fin 4),
    let c := s.getCore k
    let x := s.getCtx (4 * k + c.running.val)
    let n := (c.running.val + 1 + j.val) % 4
    c.phase = none → x.capture = none →
    (x.quantum < c.quant → exec (.quantumExpiry k) s = .next s) ∧
    (c.quant ≤ x.quantum → ready (fun _ => true) s (4 * k + n) = true →
      (∀ i, i < j.val → ready (fun _ => true) s (4 * k + (c.running.val + 1 + i) % 4) = false) →
      ∃ t, exec (.quantumExpiry k) s = .next t ∧ (t.getCore k).running.val = n ∧ t.getCtx (4 * k + n) = { s.getCtx (4 * k + n) with quantum := 0 } ∧
        (∀ key, key ≠ 4 * k + n → t.getCtx key = s.getCtx key) ∧ t.mem = s.mem)) ∧
  (∀ (s : State) (k i : Nat) (a : Answer), (s.getCore k).answers[i]? = some a →
    let key := 4 * k + a.ctx.val
    (s.getCtx key).full.getLsbD a.dest.val = false → a.dest ≠ 0 →
    ∃ t, exec (.remoteAnswer k i) s = .next t ∧ (t.getCore k).answers = (s.getCore k).answers.eraseIdx i ∧ (t.getCtx key).s = (s.getCtx key).s.set a.dest a.value ∧
      (t.getCtx key).full.getLsbD a.dest.val = true ∧ (t.getCtx key).asr = (s.getCtx key).asr ||| (a.flags.setWidth 64 <<< 8) ∧ t.mem = s.mem ∧
      ∀ j, j ≠ key → t.getCtx j = s.getCtx j) ∧
  (∀ (s : State) (line : Nat),
    ((s.getLine line).dirty = none → exec (.writeBack line) s = .next s) ∧
    (∀ b, (s.getLine line).dirty = some b →
      let g := (s.getLine line).writer
      ∃ t, exec (.writeBack line) s = .next t ∧ t.getLine line = { s.getLine line with dirty := none } ∧ t.ctxs = s.ctxs ∧
        (∀ l, l ≠ line → t.getLine l = s.getLine l) ∧
        (∀ k, t.getCore k = { s.getCore k with stored := (s.getCore k).stored.filter (fun y => y != line) }) ∧
        (g = 0 ∨ (s.getGang g).shadow = 0 → SameMemory s t) ∧
        (g ≠ 0 → (s.getGang g).st = .running → (s.getGang g).shadow = 0 → mget? line (s.getGang g).log = none →
          mget? line (t.getGang g).log = some (lineVal s line, some b)))) ∧
  (∀ (s : State) (k : Nat) (c : Fin 4),
    exec (.xinvAcknowledged k c) s = .next (s.setCtx (4 * k + c.val) { s.getCtx (4 * k + c.val) with xinv := false })) ∧
  (∀ (s : State) (p : Pair), mget? s.subject s.pairs = some p → (s.getGang p.gang).st = .running →
    (∀ (j n : Nat), p.second = none → (s.getCtx p.first).pair = some s.subject → partnerCore s (s.getGang p.gang) (p.first / 4) = some j →
      (List.range 4).find? (fun n => !(s.getCtx (4 * j + n)).live) = some n → 4 * j + n ≠ p.first →
      ∃ t, exec .pairedCopyStart s = .next t ∧ t.getCtx p.first = { s.getCtx p.first with wait := none } ∧
        mget? s.subject t.pairs = some { p with second := some (4 * j + n) } ∧
        let two := t.getCtx (4 * j + n)
        two.live = true ∧ two.pc = (s.getCtx p.first).pc ∧ two.s[1] = (s.getCtx p.first).s[1] ∧ two.s[2] = p.packet.handle ∧
          two.packet = some p.packet ∧ two.pair = some s.subject ∧ p.stamp ≤ two.pts) ∧
    (∀ a b, p.msg1 = some a → p.msg2 = some b → a.ordinal = b.ordinal → p.agreed = false → p.answer = none →
      (a.hash = b.hash → exec .pairedMessageCompare s =
        .next { s.setCtx p.first { s.getCtx p.first with wait := none } with pairs := mset s.subject { p with agreed := true } s.pairs }) ∧
      (a.hash ≠ b.hash → exec .pairedMessageCompare s = .next (mismatch s s.subject p))) ∧
    (∀ a, p.msg1 = some a → p.msg2 = none → a.time + 65536 ≤ s.now → p.agreed = false → p.answer = none →
      exec .pairedMismatchTimeout s = .next (mismatch s s.subject p)) ∧
    ((s.getCtx p.first).pair = some s.subject → p.second ≠ some p.first →
      ∃ s1, mismatch s s.subject p = enterTrap s1 p.first ⟨0x74, p.packet.handle, BitVec.ofNat 64 p.ord1, none⟩ false 0 ∧
        (s1.getCtx p.first).packet = none ∧ (s1.getCtx p.first).pc = (s.getCtx p.first).pc ∧
        (p.packet.prio < 4 → ∃ e ∈ (getQueue s1 p.gang p.queue).toArray.getD p.packet.prio [], e.handle = p.packet.handle ∧ e.cont = none) ∧
        ∀ key, p.second = some key → key ≠ p.first → (s.getCtx key).pair = some s.subject → (s1.getCtx key).live = false))
end

