-- ==== Sys2Proof/Laws/Encoding.lean ====
section
/-! SUPPORT. The codes of the encoding tables read back: each decoding function undoes its code (R58 to R65). -/
namespace Sys2Proof

@[simp] theorem guard_of_code (g : Guard) : Guard.ofFields g.code = g := by
  rcases g with ⟨n, p⟩; revert n p; decide

@[simp] theorem ty_of_code (t : Ty) : Ty.ofCode t.code = t := by cases t <;> rfl

@[simp] theorem dir_of_code (d : Dir) : Dir.ofCode d.code = d := by cases d <;> rfl

@[simp] theorem cond_of_code (c : Cond) : Cond.ofCode c.code = c := by cases c <;> rfl

@[simp] theorem rc_of_code (c : Rc) : Rc.ofCode c.code = c := by cases c <;> rfl

@[simp] theorem reach_of_code (r : Reach) : Reach.ofCode r.code = r := by cases r <;> rfl

@[simp] theorem plog_of_code (f : PlogFn) : PlogFn.ofCode f.code = f := by cases f <;> rfl

@[simp] theorem xlat_of_code (f : XlatKind) : XlatKind.ofCode f.code = f := by cases f <;> rfl

@[simp] theorem amo_of_code (f : AmoFn) : AmoFn.ofCode f.code = f := by cases f <;> rfl

@[simp] theorem red_of_code (f : RedFn) : RedFn.ofCode f.code = f := by cases f <;> rfl

@[simp] theorem sf_of_code (f : SfFn) : SfFn.ofCode f.code = f := by cases f <;> rfl

@[simp] theorem epi_of_code (f : EpiFn) : EpiFn.ofCode f.code = f := by cases f <;> rfl

@[simp] theorem bpred_of_code (f : BPred) : BPred.ofCode f.code = f := by cases f <;> rfl

@[simp] theorem nan_of_code (f : NanMode) : NanMode.ofCode f.code = f := by cases f <;> rfl

@[simp] theorem blog_of_code (f : BlogFn) : BlogFn.ofCode f.code = f := by cases f <;> rfl

@[simp] theorem tqry_of_code (f : TqryFn) : TqryFn.ofCode f.code = f := by cases f <;> rfl

@[simp] theorem gsw_of_code (f : GswFn) : GswFn.ofCode f.code = f := by cases f <;> rfl

@[simp] theorem sNum_sSpec (n : Fin 32) : sNum (sSpec n) = n := by revert n; decide

@[simp] theorem sNum_vSpec (n : Fin 32) : sNum (vSpec n) = n := by revert n; decide

@[simp] theorem tNum_tSpec (n : Fin 8) : tNum (tSpec n) = n := by revert n; decide

@[simp] theorem tNum_aSpec (n : Fin 8) : tNum (aSpec n) = n := by revert n; decide

@[simp] theorem tNum_bSpec (n : Fin 8) : tNum (bSpec n) = n := by revert n; decide

@[simp] theorem tNum_pSpec (n : Fin 8) : tNum (pSpec n) = n := by revert n; decide

@[simp] theorem sOpt_optS (o : Option (Fin 32)) : sOpt (optS o) = o := by
  cases o with
  | none => rfl
  | some n => revert n; decide

@[simp] theorem vOpt_optV (o : Option (Fin 32)) : vOpt (optV o) = o := by
  cases o with
  | none => rfl
  | some n => revert n; decide

@[simp] theorem pOpt_optP (o : Option (Fin 8)) : pOpt (optP o) = o := by
  cases o with
  | none => rfl
  | some n => revert n; decide

@[simp] theorem bOpt_optB (o : Option (Fin 8)) : bOpt (optB o) = o := by
  cases o with
  | none => rfl
  | some n => revert n; decide

@[simp] theorem aOpt_optA (o : Option (Fin 8)) : aOpt (optA o) = o := by
  cases o with
  | none => rfl
  | some n => revert n; decide

@[simp] theorem tOpt_optT (o : Option (Fin 8)) : tOpt (optT o) = o := by
  cases o with
  | none => rfl
  | some n => revert n; decide

@[simp] theorem linkOf_spec (l : Link) : linkOf l.spec = l := by
  cases l with
  | near l d => revert l; cases d <;> decide
  | far l e => revert l e; decide

@[simp] theorem opnd_of_spec (o : Opnd) : Opnd.ofSpec o.spec = o := by
  cases o with
  | s n => revert n; decide
  | v n => revert n; decide
  | t n => revert n; decide
  | a n => revert n; decide
  | b n => revert n; decide
  | p n => revert n; decide
  | link l => cases l with
    | near l d => revert l; cases d <;> decide
    | far l e => revert l e; decide
  | imm i => revert i; decide
  | none => decide

@[simp] theorem fin8_code8 (n : Fin 8) : fin8 (code8 n) = n := by revert n; decide

@[simp] theorem toFin_code (n : Fin 16) : (BitVec.ofNat 4 n.val).toFin = n := by revert n; decide

@[simp] theorem bit0_flag (b : Bool) : bit4 (flag4 b 0) 0 = b := by cases b <;> rfl

@[simp] theorem bit3_flag (b : Bool) : bit4 (flag4 b 3) 3 = b := by cases b <;> rfl

/-- A value alone in IMM44. -/
theorem immFld_one (w : Nat) (h : w ≤ 44) (x : BitVec w) : immFld (immOf [(0, x.toNat)]) 0 w = x := by
  have h1 : x.toNat % 2 ^ 44 = x.toNat :=
    Nat.mod_eq_of_lt (Nat.lt_of_lt_of_le x.isLt (Nat.pow_le_pow_right (by omega) h))
  apply BitVec.eq_of_toNat_eq
  have h2 : x.toNat % 17592186044416 % 2 ^ w = x.toNat := by
    rw [show (17592186044416 : Nat) = 2 ^ 44 from rfl, h1, Nat.mod_eq_of_lt x.isLt]
  simpa [immFld, immOf] using h2

/-- Two values in IMM44, as a number. -/
theorem immOf_two (a b x y : Nat) (hx : x < 2 ^ a) (hy : y < 2 ^ b) (h : a + b ≤ 44) :
    (immOf [(0, x), (a, y)]).toNat = y * 2 ^ a + x := by
  have h1 : (y + 1) * 2 ^ a ≤ 2 ^ b * 2 ^ a := Nat.mul_le_mul_right _ hy
  have h2 : (2 : Nat) ^ (b + a) ≤ 2 ^ 44 := Nat.pow_le_pow_right (by omega) (by omega)
  rw [Nat.pow_add] at h2
  rw [Nat.add_mul] at h1
  simp [immOf]
  omega

/-- The lower of two values in IMM44. -/
theorem immFld_low (a b : Nat) (h : a + b ≤ 44) (x : BitVec a) (y : BitVec b) :
    immFld (immOf [(0, x.toNat), (a, y.toNat)]) 0 a = x := by
  apply BitVec.eq_of_toNat_eq
  simp [immFld, immOf_two a b _ _ x.isLt y.isLt h, Nat.mod_eq_of_lt x.isLt]

/-- The upper of two values in IMM44. -/
theorem immFld_high (a b : Nat) (h : a + b ≤ 44) (x : BitVec a) (y : BitVec b) :
    immFld (immOf [(0, x.toNat), (a, y.toNat)]) a b = y := by
  apply BitVec.eq_of_toNat_eq
  have hp : 0 < 2 ^ a := Nat.pow_pos (by omega)
  simp only [immFld, immOf_two a b _ _ x.isLt y.isLt h, Nat.shiftRight_eq_div_pow, BitVec.toNat_ofNat]
  rw [Nat.mul_comm, Nat.mul_add_div hp, Nat.div_eq_of_lt x.isLt, Nat.add_zero, Nat.mod_eq_of_lt y.isLt]

/-- Three values in IMM44, as a number. -/
theorem immOf_three (a b c x y z : Nat) (hx : x < 2 ^ a) (hy : y < 2 ^ b) (hz : z < 2 ^ c) (h : a + b + c ≤ 44) :
    (immOf [(0, x), (a, y), (a + b, z)]).toNat = z * 2 ^ (a + b) + (y * 2 ^ a + x) := by
  have h0 : (y + 1) * 2 ^ a ≤ 2 ^ b * 2 ^ a := Nat.mul_le_mul_right _ hy
  have h1 : (z + 1) * (2 ^ b * 2 ^ a) ≤ 2 ^ c * (2 ^ b * 2 ^ a) := Nat.mul_le_mul_right _ hz
  have h2 : (2 : Nat) ^ (c + (b + a)) ≤ 2 ^ 44 := Nat.pow_le_pow_right (by omega) (by omega)
  rw [Nat.pow_add, Nat.pow_add] at h2
  rw [Nat.add_mul] at h0 h1
  have h3 : (2 : Nat) ^ (a + b) = 2 ^ b * 2 ^ a := by rw [Nat.add_comm, Nat.pow_add]
  simp [immOf, h3]
  omega

/-- The lowest of three values in IMM44. -/
theorem immFld_first (a b c : Nat) (h : a + b + c ≤ 44) (x : BitVec a) (y : BitVec b) (z : BitVec c) :
    immFld (immOf [(0, x.toNat), (a, y.toNat), (a + b, z.toNat)]) 0 a = x := by
  apply BitVec.eq_of_toNat_eq
  simp only [immFld, immOf_three a b c _ _ _ x.isLt y.isLt z.isLt h, Nat.shiftRight_eq_div_pow, BitVec.toNat_ofNat]
  rw [Nat.pow_add, ← Nat.add_assoc, Nat.mul_comm (2 ^ a), ← Nat.mul_assoc, ← Nat.add_mul]
  simp [Nat.add_mod, Nat.mod_eq_of_lt x.isLt]

/-- The middle of three values in IMM44. -/
theorem immFld_second (a b c : Nat) (h : a + b + c ≤ 44) (x : BitVec a) (y : BitVec b) (z : BitVec c) :
    immFld (immOf [(0, x.toNat), (a, y.toNat), (a + b, z.toNat)]) a b = y := by
  apply BitVec.eq_of_toNat_eq
  have hp : 0 < 2 ^ a := Nat.pow_pos (by omega)
  simp only [immFld, immOf_three a b c _ _ _ x.isLt y.isLt z.isLt h, Nat.shiftRight_eq_div_pow, BitVec.toNat_ofNat]
  rw [Nat.pow_add, ← Nat.add_assoc, Nat.mul_comm (2 ^ a), ← Nat.mul_assoc, ← Nat.add_mul, Nat.mul_comm _ (2 ^ a),
    Nat.mul_add_div hp, Nat.div_eq_of_lt x.isLt, Nat.add_zero]
  simp [Nat.add_mod, Nat.mod_eq_of_lt y.isLt]

/-- The highest of three values in IMM44. -/
theorem immFld_third (a b c : Nat) (h : a + b + c ≤ 44) (x : BitVec a) (y : BitVec b) (z : BitVec c) :
    immFld (immOf [(0, x.toNat), (a, y.toNat), (a + b, z.toNat)]) (a + b) c = z := by
  apply BitVec.eq_of_toNat_eq
  have hp : 0 < 2 ^ (a + b) := Nat.pow_pos (by omega)
  have h0 : (y.toNat + 1) * 2 ^ a ≤ 2 ^ b * 2 ^ a := Nat.mul_le_mul_right _ y.isLt
  have hx := x.isLt
  rw [Nat.add_mul] at h0
  have h1 : y.toNat * 2 ^ a + x.toNat < 2 ^ (a + b) := by rw [Nat.add_comm a, Nat.pow_add]; omega
  simp only [immFld, immOf_three a b c _ _ _ x.isLt y.isLt z.isLt h, Nat.shiftRight_eq_div_pow, BitVec.toNat_ofNat]
  rw [Nat.mul_comm, Nat.mul_add_div hp, Nat.div_eq_of_lt h1, Nat.add_zero, Nat.mod_eq_of_lt z.isLt]

@[simp] theorem mem_of_fields (op : BitVec 8) (g t : BitVec 4) (d c : BitVec 8) (fn : BitVec 4) (m : Mem) :
    Mem.ofFields ⟨op, g, t, d, m.aSpec, m.bSpec, c, fn, m.imm⟩ = m := by
  rcases m with ⟨base, index, shift, disp⟩
  simp [Mem.ofFields, Mem.aSpec, Mem.bSpec, Mem.imm, immFld_low 40 4 (by decide), immFld_high 40 4 (by decide)]

@[simp] theorem target_of_imm (tg : Target) : Target.ofImm tg.imm = tg := by
  rcases tg with ⟨off, slot⟩
  have hs : slot.val < 2 ^ 3 := by omega
  have h : (immOf [(0, slot.val), (3, off.toNat)]).toNat = off.toNat * 2 ^ 3 + slot.val := immOf_two 3 41 _ _ hs off.isLt (by decide)
  have h1 : immFld (immOf [(0, slot.val), (3, off.toNat)]) 3 41 = off := by
    apply BitVec.eq_of_toNat_eq
    have := off.isLt
    simp only [immFld, h, Nat.shiftRight_eq_div_pow, BitVec.toNat_ofNat]
    omega
  have h2 : (immOf [(0, slot.val), (3, off.toNat)]).toNat % 8 = slot.val := by rw [h]; omega
  have h3 : slot.val < 5 := slot.isLt
  unfold Target.ofImm Target.imm
  rw [h1]
  congr 1
  apply Fin.ext
  rw [dif_pos (by rw [h2]; exact h3)]
  exact h2

@[simp] theorem ext_of_fields (op : BitVec 8) (g t : BitVec 4) (d a : BitVec 8) (x : ExtField) :
    ExtField.ofFields ⟨op, g, t, d, a, x.bSpec, x.cSpec, x.fn, x.imm⟩ = x := by
  cases x with
  | regs b c => simp [ExtField.ofFields, ExtField.fn, ExtField.bSpec, ExtField.cSpec]
  | const pos len =>
    simp [ExtField.ofFields, ExtField.fn, ExtField.imm, immFld_low 6 6 (by decide), immFld_high 6 6 (by decide)]

@[simp] theorem vsh_of_fields (op : BitVec 8) (g t : BitVec 4) (d b c : BitVec 8) (fn : BitVec 4) (x : VshSrc) :
    VshSrc.ofFields ⟨op, g, t, d, x.aSpec, b, c, fn, x.immField⟩ = x := by
  cases x with
  | imm v => simp [VshSrc.ofFields, VshSrc.aSpec, VshSrc.immField, immFld_one 28 (by decide)]
  | reg n =>
    have : ¬sSpec n = 0xFF#8 := by revert n; decide
    simp [VshSrc.ofFields, VshSrc.aSpec, this]

@[simp] theorem stride_of_fields (op : BitVec 8) (g t : BitVec 4) (d a b : BitVec 8) (o : Option (Fin 32)) (imm : BitVec 44) :
    strideOf ⟨op, g, t, d, a, b, optS o, flag4 o.isSome 0, imm⟩ = o := by
  cases o with
  | none => rfl
  | some n => simp [strideOf, flag4, optS]

@[simp] theorem rc_of_fn (rc : Rc) (b : Bool) : Rc.ofCode ((rc.code ||| flag4 b 3) &&& 7#4) = rc := by
  cases rc <;> cases b <;> rfl

@[simp] theorem sat_of_fn (rc : Rc) (b : Bool) : bit4 (rc.code ||| flag4 b 3) 3 = b := by
  cases rc <;> cases b <;> rfl

@[simp] theorem cond_of_fn (c : Cond) (b : Bool) : Cond.ofCode ((c.code ||| flag4 b 3) &&& 7#4) = c := by
  cases c <;> cases b <;> rfl

@[simp] theorem tot_of_fn (c : Cond) (b : Bool) : bit4 (c.code ||| flag4 b 3) 3 = b := by
  cases c <;> cases b <;> rfl

@[simp] theorem bit0_of_two (a b : Bool) : bit4 (flag4 a 0 ||| flag4 b 3) 0 = a := by cases a <;> cases b <;> rfl

@[simp] theorem bit3_of_two (a b : Bool) : bit4 (flag4 a 0 ||| flag4 b 3) 3 = b := by cases a <;> cases b <;> rfl

@[simp] theorem bit0_of_three (a b c : Bool) : bit4 (flag4 a 0 ||| flag4 b 1 ||| flag4 c 3) 0 = a := by
  cases a <;> cases b <;> cases c <;> rfl

@[simp] theorem bit1_of_three (a b c : Bool) : bit4 (flag4 a 0 ||| flag4 b 1 ||| flag4 c 3) 1 = b := by
  cases a <;> cases b <;> cases c <;> rfl

@[simp] theorem bit3_of_three (a b c : Bool) : bit4 (flag4 a 0 ||| flag4 b 1 ||| flag4 c 3) 3 = c := by
  cases a <;> cases b <;> cases c <;> rfl

/-- R58: the fields of a slot made from fields are those fields. -/
theorem ofSlot_slot (f : Fields) : Fields.ofSlot f.slot = f := by
  rcases f with ⟨op, g, t, d, a, b, c, fn, imm⟩
  simp only [Fields.ofSlot, Fields.slot, Fields.mk.injEq]
  refine ⟨?_, ?_, ?_, ?_, ?_, ?_, ?_, ?_, ?_⟩ <;>
    (ext i hi
     rw [← BitVec.getLsbD_eq_getElem, ← BitVec.getLsbD_eq_getElem, BitVec.getLsbD_extractLsb']
     change (_ && BitVec.getLsbD (w := 8 + 4 + 4 + 8 + 8 + 8 + 8 + 4 + 44) _ _) = _
     simp only [BitVec.getLsbD_append, decide_eq_true hi, Bool.true_and]
     repeat (first | rw [if_neg (by omega)] | rw [if_pos (by omega)])
     congr 1
     omega)

/-- R58: the slot made from the fields of a slot is that slot. -/
theorem slot_ofSlot (w : Slot) : (Fields.ofSlot w).slot = w := by
  apply BitVec.eq_of_getLsbD_eq
  intro i hi
  simp only [Fields.slot, Fields.ofSlot]
  change BitVec.getLsbD (w := 8 + 4 + 4 + 8 + 8 + 8 + 8 + 4 + 44) _ _ = _
  simp only [BitVec.getLsbD_append, BitVec.getLsbD_extractLsb']
  repeat' split
  all_goals (rw [decide_eq_true (by omega), Bool.true_and]; congr 1; omega)

/-- A flag alone in IMM44. -/
theorem immFld_flag (b : Bool) : ((immFld (immOf [(0, Bits.b2n b)]) 0 1 : BitVec 1) == 1#1) = b := by cases b <;> rfl

/-- The counter of PCNT in IMM44. -/
theorem immFld_ctr (x : BitVec 8) (b : Bool) : immFld (immOf [(0, x.toNat), (8, Bits.b2n b)]) 0 8 = x := by
  cases b
  · exact immFld_low 8 1 (by decide) x 0
  · exact immFld_low 8 1 (by decide) x 1

/-- The flag of PCNT in IMM44. -/
theorem immFld_clr (x : BitVec 8) (b : Bool) : ((immFld (immOf [(0, x.toNat), (8, Bits.b2n b)]) 8 1 : BitVec 1) == 1#1) = b := by
  cases b
  · exact congrArg (· == 1#1) (immFld_high 8 1 (by decide) x 0)
  · exact congrArg (· == 1#1) (immFld_high 8 1 (by decide) x 1)

/-- The bits of ADRAIN's IMM44: scale, brow and the rounding code (R240). -/
theorem immFld_adrain (x : BitVec 32) (b : Bool) (rc : Rc) :
    immFld (immOf [(0, x.toNat), (32, Bits.b2n b), (33, rc.code.toNat)]) 0 32 = x ∧
    ((immFld (immOf [(0, x.toNat), (32, Bits.b2n b), (33, rc.code.toNat)]) 32 1 : BitVec 1) == 1#1) = b ∧
    Rc.ofCode ((immFld (immOf [(0, x.toNat), (32, Bits.b2n b), (33, rc.code.toNat)]) 33 3 : BitVec 3).setWidth 4) = rc := by
  have hb : Bits.b2n b = (BitVec.ofBool b).toNat := by cases b <;> rfl
  have hr : rc.code.toNat = (rc.code.setWidth 3).toNat := by cases rc <;> rfl
  rw [hb, hr]
  refine ⟨immFld_first 32 1 3 (by decide) _ _ _, ?_, ?_⟩
  · rw [immFld_second 32 1 3 (by decide)]; cases b <;> rfl
  · rw [immFld_third 32 1 3 (by decide)]; cases rc <;> rfl

/-- The major opcodes that the encoding tables leave unassigned. -/
def unassignedOps : List (BitVec 8) :=
  [0x2a, 0x2b, 0x2c, 0x2d, 0x2e, 0x2f, 0x30, 0x31, 0x32, 0x33, 0x34, 0x35, 0x36, 0x37, 0x38, 0x39, 0x3a, 0x3b,
    0x3c, 0x3d, 0x3e, 0x3f, 0x49, 0x4a, 0x4b, 0x4c, 0x4d, 0x4e, 0x4f, 0x5b, 0x5c, 0x5d, 0x5e, 0x5f, 0x6b, 0x6c,
    0x6d, 0x6e, 0x6f, 0x9a, 0x9b, 0x9c, 0x9d, 0x9e, 0x9f, 0xae, 0xaf, 0xbc, 0xbd, 0xbe, 0xbf, 0xc6, 0xc7, 0xc8,
    0xc9, 0xca, 0xcb, 0xcc, 0xcd, 0xce, 0xcf, 0xd5, 0xd6, 0xd7, 0xd8, 0xd9, 0xda, 0xdb, 0xdc, 0xdd, 0xde, 0xdf,
    0xe6, 0xe7, 0xe8, 0xe9, 0xea, 0xeb, 0xec, 0xed, 0xee, 0xef, 0xfd, 0xfe, 0xff]

theorem unassigned_listed : ∀ op : BitVec 8, assigned op = false → op ∈ unassignedOps := by decide

/-- R67: the fields of an unassigned major opcode build the step that raises 0x01. -/
theorem build_unassigned (f : Fields) (h : assigned f.op = false) : build f = .unassignedOpcode f.slot := by
  rcases f with ⟨op, g, t, d, a, b, c, fn, imm⟩
  have hm : op ∈ unassignedOps := unassigned_listed op h
  simp only [unassignedOps, List.mem_cons, List.not_mem_nil, or_false] at hm
  repeat' (rcases hm with rfl | hm)
  all_goals rfl

end Sys2Proof
end

