-- ==== Sys2Proof/Laws/Maps.lean ====
section
/-! SUPPORT. The laws of sparse maps and of memory: reading after a write, and that every memory operation keeps the canonical
form. -/
namespace Sys2Proof.Machine

theorem mget?_mset_same {α : Type} (k : Nat) (x : α) (m : SMap α) : mget? k (mset k x m) = some x := by
  induction m with
  | nil => simp [mset, mget?]
  | cons e m ih =>
    rcases e with ⟨j, y⟩
    unfold mset
    split
    · simp [mget?]
    · split
      · simp [mget?]
      · rename_i h1 h2
        simp [mget?, Ne.symm h2, ih]

theorem mget?_mset_ne {α : Type} (j k : Nat) (x : α) (m : SMap α) (h : j ≠ k) : mget? j (mset k x m) = mget? j m := by
  induction m with
  | nil => simp [mset, mget?, Ne.symm h]
  | cons e m ih =>
    rcases e with ⟨i, y⟩
    unfold mset
    split
    · simp [mget?, Ne.symm h]
    · split
      · rename_i h1 h2
        subst h2
        simp [mget?, Ne.symm h]
      · simp only [mget?, ih]

theorem mget_mset_same {α : Type} (d : α) (k : Nat) (x : α) (m : SMap α) : mget d k (mset k x m) = x := by
  simp [mget, mget?_mset_same]

theorem mget_mset_ne {α : Type} (d : α) (j k : Nat) (x : α) (m : SMap α) (h : j ≠ k) : mget d j (mset k x m) = mget d j m := by
  simp [mget, mget?_mset_ne _ _ _ _ h]

theorem mget?_mdel_ne {α : Type} (j k : Nat) (m : SMap α) (h : j ≠ k) : mget? j (mdel k m) = mget? j m := by
  induction m with
  | nil => rfl
  | cons e m ih =>
    rcases e with ⟨i, y⟩
    unfold mdel
    split
    · rename_i h1
      subst h1
      simp [mget?, Ne.symm h]
    · simp only [mget?, ih]

/-! ### Memory -/

theorem Memory.wfFrom_mono {lo lo' : Nat} (h : lo ≤ lo') {m : Memory} (w : Memory.wfFrom lo' m) : Memory.wfFrom lo m := by
  cases m with
  | nil => rfl
  | cons e m =>
    simp only [Memory.wfFrom, Bool.and_eq_true, decide_eq_true_eq] at w ⊢
    exact ⟨⟨by omega, w.1.2⟩, w.2⟩

theorem Memory.mget?_below {lo a : Nat} {m : Memory} (w : Memory.wfFrom lo m) (h : a < lo) : mget? a m = none := by
  induction m generalizing lo with
  | nil => rfl
  | cons e m ih =>
    rcases e with ⟨j, y⟩
    simp only [Memory.wfFrom, Bool.and_eq_true, decide_eq_true_eq] at w
    have : j ≠ a := by omega
    simp only [mget?, this, if_false]
    exact ih w.2 (by omega)

theorem Memory.wfFrom_mset {lo a : Nat} {b : Byte} {m : Memory} (w : Memory.wfFrom lo m) (h : lo ≤ a) (hb : b ≠ unlisted) :
    Memory.wfFrom lo (mset a b m) := by
  induction m generalizing lo with
  | nil => simp [mset, Memory.wfFrom, h, hb]
  | cons e m ih =>
    rcases e with ⟨j, y⟩
    simp only [Memory.wfFrom, Bool.and_eq_true, decide_eq_true_eq] at w
    unfold mset
    split
    · simp only [Memory.wfFrom, Bool.and_eq_true, decide_eq_true_eq, bne_iff_ne]
      exact ⟨⟨h, hb⟩, ⟨⟨by omega, by simpa using w.1.2⟩, w.2⟩⟩
    · split
      · rename_i h1 h2
        subst h2
        simp only [Memory.wfFrom, Bool.and_eq_true, decide_eq_true_eq, bne_iff_ne]
        exact ⟨⟨h, hb⟩, w.2⟩
      · simp only [Memory.wfFrom, Bool.and_eq_true, decide_eq_true_eq]
        exact ⟨w.1, ih w.2 (by omega)⟩

theorem Memory.wfFrom_mdel {lo a : Nat} {m : Memory} (w : Memory.wfFrom lo m) : Memory.wfFrom lo (mdel a m) := by
  induction m generalizing lo with
  | nil => rfl
  | cons e m ih =>
    rcases e with ⟨j, y⟩
    simp only [Memory.wfFrom, Bool.and_eq_true, decide_eq_true_eq] at w
    unfold mdel
    split
    · exact Memory.wfFrom_mono (by omega) w.2
    · simp only [Memory.wfFrom, Bool.and_eq_true, decide_eq_true_eq]
      exact ⟨w.1, ih w.2⟩

/-- Writing one byte keeps the canonical form. -/
theorem Memory.wf_write {m : Memory} (w : m.wf) (a : Nat) (b : Byte) : (m.write a b).wf := by
  unfold Memory.write Memory.wf
  split
  · exact Memory.wfFrom_mdel w
  · exact Memory.wfFrom_mset w (Nat.zero_le a) ‹_›

/-- Writing bytes keeps the canonical form. -/
theorem Memory.wf_writeBytes {m : Memory} (w : m.wf) (a : Nat) (bs : List Byte) : (m.writeBytes a bs).wf := by
  induction bs generalizing m a with
  | nil => exact w
  | cons b bs ih => exact ih (Memory.wf_write w a b) (a + 1)

/-- Writing a number keeps the canonical form. -/
theorem Memory.wf_writeLE {m : Memory} (w : m.wf) (a n x : Nat) : (m.writeLE a n x).wf := Memory.wf_writeBytes w a _

theorem Memory.mget?_mdel_same {lo a : Nat} {m : Memory} (w : Memory.wfFrom lo m) : mget? a (mdel a m) = none := by
  induction m generalizing lo with
  | nil => rfl
  | cons e m ih =>
    rcases e with ⟨j, y⟩
    simp only [Memory.wfFrom, Bool.and_eq_true, decide_eq_true_eq] at w
    unfold mdel
    split
    · rename_i h
      subst h
      exact Memory.mget?_below w.2 (by omega)
    · rename_i h
      simp only [mget?, h, if_false]
      exact ih w.2

/-- The byte written reads back. -/
theorem Memory.read_write_same {m : Memory} (w : m.wf) (a : Nat) (b : Byte) : (m.write a b).read a = b := by
  unfold Memory.write Memory.read
  split
  · rename_i h
    rw [mget, Memory.mget?_mdel_same w, h]
    rfl
  · exact mget_mset_same _ _ _ _

/-- Every other byte reads as before. -/
theorem Memory.read_write_ne (m : Memory) (a c : Nat) (b : Byte) (h : c ≠ a) : (m.write a b).read c = m.read c := by
  unfold Memory.write Memory.read
  split
  · rw [mget, mget?_mdel_ne _ _ _ h]
    rfl
  · exact mget_mset_ne _ _ _ _ _ h

/-- Bytes outside a write read as before. -/
theorem Memory.read_writeBytes_out (m : Memory) (a c : Nat) (bs : List Byte) (h : c < a ∨ a + bs.length ≤ c) :
    (m.writeBytes a bs).read c = m.read c := by
  induction bs generalizing m a with
  | nil => rfl
  | cons b bs ih =>
    simp only [List.length_cons] at h
    rw [Memory.writeBytes, ih (m.write a b) (a + 1) (by omega), Memory.read_write_ne _ _ _ _ (by omega)]

/-- The bytes written read back. -/
theorem Memory.bytes_writeBytes {m : Memory} (w : m.wf) (a : Nat) (bs : List Byte) : (m.writeBytes a bs).bytes a bs.length = bs := by
  induction bs generalizing m a with
  | nil => rfl
  | cons b bs ih =>
    simp only [List.length_cons, Memory.bytes, Memory.writeBytes]
    rw [ih (Memory.wf_write w a b) (a + 1), Memory.read_writeBytes_out _ _ _ _ (by omega), Memory.read_write_same w]

theorem Bits.length_bytesLE (n x : Nat) : (Bits.bytesLE n x).length = n := by
  induction n generalizing x with
  | zero => rfl
  | succ n ih => simp [Bits.bytesLE, ih]

end Sys2Proof.Machine
end

