-- ==== Sys2Proof/Laws/State.lean ====
section
/-! SUPPORT. What each update of the state leaves in each field, so that no proof unfolds a record update. -/
namespace Sys2Proof.Machine

@[simp] theorem State.setCtx_now (s : State) (k : Nat) (x : Ctx) : (s.setCtx k x).now = s.now := rfl
@[simp] theorem State.setCtx_mem (s : State) (k : Nat) (x : Ctx) : (s.setCtx k x).mem = s.mem := rfl
@[simp] theorem State.setCtx_lines (s : State) (k : Nat) (x : Ctx) : (s.setCtx k x).lines = s.lines := rfl
@[simp] theorem State.setCtx_ctrl (s : State) (k : Nat) (x : Ctx) : (s.setCtx k x).ctrl = s.ctrl := rfl
@[simp] theorem State.setCtx_cores (s : State) (k : Nat) (x : Ctx) : (s.setCtx k x).cores = s.cores := rfl
@[simp] theorem State.setCtx_quads (s : State) (k : Nat) (x : Ctx) : (s.setCtx k x).quads = s.quads := rfl
@[simp] theorem State.setCtx_slices (s : State) (k : Nat) (x : Ctx) : (s.setCtx k x).slices = s.slices := rfl
@[simp] theorem State.setCtx_gangs (s : State) (k : Nat) (x : Ctx) : (s.setCtx k x).gangs = s.gangs := rfl
@[simp] theorem State.setCtx_lastGang (s : State) (k : Nat) (x : Ctx) : (s.setCtx k x).lastGang = s.lastGang := rfl
@[simp] theorem State.setCtx_packages (s : State) (k : Nat) (x : Ctx) : (s.setCtx k x).packages = s.packages := rfl
@[simp] theorem State.setCtx_accs (s : State) (k : Nat) (x : Ctx) : (s.setCtx k x).accs = s.accs := rfl
@[simp] theorem State.setCtx_pairs (s : State) (k : Nat) (x : Ctx) : (s.setCtx k x).pairs = s.pairs := rfl
@[simp] theorem State.setCtx_halves (s : State) (k : Nat) (x : Ctx) : (s.setCtx k x).halves = s.halves := rfl
@[simp] theorem State.setCtx_reports (s : State) (k : Nat) (x : Ctx) : (s.setCtx k x).reports = s.reports := rfl
@[simp] theorem State.setCtx_launches (s : State) (k : Nat) (x : Ctx) : (s.setCtx k x).launches = s.launches := rfl
@[simp] theorem State.setCtx_feAsid (s : State) (k : Nat) (x : Ctx) : (s.setCtx k x).feAsid = s.feAsid := rfl
@[simp] theorem State.setCtx_fePts (s : State) (k : Nat) (x : Ctx) : (s.setCtx k x).fePts = s.fePts := rfl
@[simp] theorem State.setCtx_colls (s : State) (k : Nat) (x : Ctx) : (s.setCtx k x).colls = s.colls := rfl
@[simp] theorem State.setCtx_log (s : State) (k : Nat) (x : Ctx) : (s.setCtx k x).log = s.log := rfl
@[simp] theorem State.setCtx_roots (s : State) (k : Nat) (x : Ctx) : (s.setCtx k x).roots = s.roots := rfl
@[simp] theorem State.setCtx_cur (s : State) (k : Nat) (x : Ctx) : (s.setCtx k x).cur = s.cur := rfl
@[simp] theorem State.setCtx_grp (s : State) (k : Nat) (x : Ctx) : (s.setCtx k x).grp = s.grp := rfl
@[simp] theorem State.setCtx_agenda (s : State) (k : Nat) (x : Ctx) : (s.setCtx k x).agenda = s.agenda := rfl
@[simp] theorem State.setCtx_subject (s : State) (k : Nat) (x : Ctx) : (s.setCtx k x).subject = s.subject := rfl
@[simp] theorem State.setCtx_steps (s : State) (k : Nat) (x : Ctx) : (s.setCtx k x).steps = s.steps := rfl
@[simp] theorem State.setCtx_scripts (s : State) (k : Nat) (x : Ctx) : (s.setCtx k x).scripts = s.scripts := rfl
@[simp] theorem State.setCtx_script (s : State) (k : Nat) (x : Ctx) : (s.setCtx k x).script = s.script := rfl
@[simp] theorem State.setCtx_free (s : State) (k : Nat) (x : Ctx) : (s.setCtx k x).free = s.free := rfl
@[simp] theorem State.setCtx_episode (s : State) (k : Nat) (x : Ctx) : (s.setCtx k x).episode = s.episode := rfl

@[simp] theorem State.setCore_now (s : State) (k : Nat) (x : Core) : (s.setCore k x).now = s.now := rfl
@[simp] theorem State.setCore_mem (s : State) (k : Nat) (x : Core) : (s.setCore k x).mem = s.mem := rfl
@[simp] theorem State.setCore_lines (s : State) (k : Nat) (x : Core) : (s.setCore k x).lines = s.lines := rfl
@[simp] theorem State.setCore_ctrl (s : State) (k : Nat) (x : Core) : (s.setCore k x).ctrl = s.ctrl := rfl
@[simp] theorem State.setCore_ctxs (s : State) (k : Nat) (x : Core) : (s.setCore k x).ctxs = s.ctxs := rfl
@[simp] theorem State.setCore_quads (s : State) (k : Nat) (x : Core) : (s.setCore k x).quads = s.quads := rfl
@[simp] theorem State.setCore_slices (s : State) (k : Nat) (x : Core) : (s.setCore k x).slices = s.slices := rfl
@[simp] theorem State.setCore_gangs (s : State) (k : Nat) (x : Core) : (s.setCore k x).gangs = s.gangs := rfl
@[simp] theorem State.setCore_lastGang (s : State) (k : Nat) (x : Core) : (s.setCore k x).lastGang = s.lastGang := rfl
@[simp] theorem State.setCore_packages (s : State) (k : Nat) (x : Core) : (s.setCore k x).packages = s.packages := rfl
@[simp] theorem State.setCore_accs (s : State) (k : Nat) (x : Core) : (s.setCore k x).accs = s.accs := rfl
@[simp] theorem State.setCore_pairs (s : State) (k : Nat) (x : Core) : (s.setCore k x).pairs = s.pairs := rfl
@[simp] theorem State.setCore_halves (s : State) (k : Nat) (x : Core) : (s.setCore k x).halves = s.halves := rfl
@[simp] theorem State.setCore_reports (s : State) (k : Nat) (x : Core) : (s.setCore k x).reports = s.reports := rfl
@[simp] theorem State.setCore_launches (s : State) (k : Nat) (x : Core) : (s.setCore k x).launches = s.launches := rfl
@[simp] theorem State.setCore_feAsid (s : State) (k : Nat) (x : Core) : (s.setCore k x).feAsid = s.feAsid := rfl
@[simp] theorem State.setCore_fePts (s : State) (k : Nat) (x : Core) : (s.setCore k x).fePts = s.fePts := rfl
@[simp] theorem State.setCore_colls (s : State) (k : Nat) (x : Core) : (s.setCore k x).colls = s.colls := rfl
@[simp] theorem State.setCore_log (s : State) (k : Nat) (x : Core) : (s.setCore k x).log = s.log := rfl
@[simp] theorem State.setCore_roots (s : State) (k : Nat) (x : Core) : (s.setCore k x).roots = s.roots := rfl
@[simp] theorem State.setCore_cur (s : State) (k : Nat) (x : Core) : (s.setCore k x).cur = s.cur := rfl
@[simp] theorem State.setCore_grp (s : State) (k : Nat) (x : Core) : (s.setCore k x).grp = s.grp := rfl
@[simp] theorem State.setCore_agenda (s : State) (k : Nat) (x : Core) : (s.setCore k x).agenda = s.agenda := rfl
@[simp] theorem State.setCore_subject (s : State) (k : Nat) (x : Core) : (s.setCore k x).subject = s.subject := rfl
@[simp] theorem State.setCore_steps (s : State) (k : Nat) (x : Core) : (s.setCore k x).steps = s.steps := rfl
@[simp] theorem State.setCore_scripts (s : State) (k : Nat) (x : Core) : (s.setCore k x).scripts = s.scripts := rfl
@[simp] theorem State.setCore_script (s : State) (k : Nat) (x : Core) : (s.setCore k x).script = s.script := rfl
@[simp] theorem State.setCore_free (s : State) (k : Nat) (x : Core) : (s.setCore k x).free = s.free := rfl
@[simp] theorem State.setCore_episode (s : State) (k : Nat) (x : Core) : (s.setCore k x).episode = s.episode := rfl

@[simp] theorem State.setGang_now (s : State) (k : Nat) (x : Gang) : (s.setGang k x).now = s.now := rfl
@[simp] theorem State.setGang_mem (s : State) (k : Nat) (x : Gang) : (s.setGang k x).mem = s.mem := rfl
@[simp] theorem State.setGang_lines (s : State) (k : Nat) (x : Gang) : (s.setGang k x).lines = s.lines := rfl
@[simp] theorem State.setGang_ctrl (s : State) (k : Nat) (x : Gang) : (s.setGang k x).ctrl = s.ctrl := rfl
@[simp] theorem State.setGang_cores (s : State) (k : Nat) (x : Gang) : (s.setGang k x).cores = s.cores := rfl
@[simp] theorem State.setGang_ctxs (s : State) (k : Nat) (x : Gang) : (s.setGang k x).ctxs = s.ctxs := rfl
@[simp] theorem State.setGang_quads (s : State) (k : Nat) (x : Gang) : (s.setGang k x).quads = s.quads := rfl
@[simp] theorem State.setGang_slices (s : State) (k : Nat) (x : Gang) : (s.setGang k x).slices = s.slices := rfl
@[simp] theorem State.setGang_lastGang (s : State) (k : Nat) (x : Gang) : (s.setGang k x).lastGang = s.lastGang := rfl
@[simp] theorem State.setGang_packages (s : State) (k : Nat) (x : Gang) : (s.setGang k x).packages = s.packages := rfl
@[simp] theorem State.setGang_accs (s : State) (k : Nat) (x : Gang) : (s.setGang k x).accs = s.accs := rfl
@[simp] theorem State.setGang_pairs (s : State) (k : Nat) (x : Gang) : (s.setGang k x).pairs = s.pairs := rfl
@[simp] theorem State.setGang_halves (s : State) (k : Nat) (x : Gang) : (s.setGang k x).halves = s.halves := rfl
@[simp] theorem State.setGang_reports (s : State) (k : Nat) (x : Gang) : (s.setGang k x).reports = s.reports := rfl
@[simp] theorem State.setGang_launches (s : State) (k : Nat) (x : Gang) : (s.setGang k x).launches = s.launches := rfl
@[simp] theorem State.setGang_feAsid (s : State) (k : Nat) (x : Gang) : (s.setGang k x).feAsid = s.feAsid := rfl
@[simp] theorem State.setGang_fePts (s : State) (k : Nat) (x : Gang) : (s.setGang k x).fePts = s.fePts := rfl
@[simp] theorem State.setGang_colls (s : State) (k : Nat) (x : Gang) : (s.setGang k x).colls = s.colls := rfl
@[simp] theorem State.setGang_log (s : State) (k : Nat) (x : Gang) : (s.setGang k x).log = s.log := rfl
@[simp] theorem State.setGang_roots (s : State) (k : Nat) (x : Gang) : (s.setGang k x).roots = s.roots := rfl
@[simp] theorem State.setGang_cur (s : State) (k : Nat) (x : Gang) : (s.setGang k x).cur = s.cur := rfl
@[simp] theorem State.setGang_grp (s : State) (k : Nat) (x : Gang) : (s.setGang k x).grp = s.grp := rfl
@[simp] theorem State.setGang_agenda (s : State) (k : Nat) (x : Gang) : (s.setGang k x).agenda = s.agenda := rfl
@[simp] theorem State.setGang_subject (s : State) (k : Nat) (x : Gang) : (s.setGang k x).subject = s.subject := rfl
@[simp] theorem State.setGang_steps (s : State) (k : Nat) (x : Gang) : (s.setGang k x).steps = s.steps := rfl
@[simp] theorem State.setGang_scripts (s : State) (k : Nat) (x : Gang) : (s.setGang k x).scripts = s.scripts := rfl
@[simp] theorem State.setGang_script (s : State) (k : Nat) (x : Gang) : (s.setGang k x).script = s.script := rfl
@[simp] theorem State.setGang_free (s : State) (k : Nat) (x : Gang) : (s.setGang k x).free = s.free := rfl
@[simp] theorem State.setGang_episode (s : State) (k : Nat) (x : Gang) : (s.setGang k x).episode = s.episode := rfl

@[simp] theorem State.setLine_now (s : State) (k : Nat) (x : LineMeta) : (s.setLine k x).now = s.now := rfl
@[simp] theorem State.setLine_mem (s : State) (k : Nat) (x : LineMeta) : (s.setLine k x).mem = s.mem := rfl
@[simp] theorem State.setLine_ctrl (s : State) (k : Nat) (x : LineMeta) : (s.setLine k x).ctrl = s.ctrl := rfl
@[simp] theorem State.setLine_cores (s : State) (k : Nat) (x : LineMeta) : (s.setLine k x).cores = s.cores := rfl
@[simp] theorem State.setLine_ctxs (s : State) (k : Nat) (x : LineMeta) : (s.setLine k x).ctxs = s.ctxs := rfl
@[simp] theorem State.setLine_quads (s : State) (k : Nat) (x : LineMeta) : (s.setLine k x).quads = s.quads := rfl
@[simp] theorem State.setLine_slices (s : State) (k : Nat) (x : LineMeta) : (s.setLine k x).slices = s.slices := rfl
@[simp] theorem State.setLine_gangs (s : State) (k : Nat) (x : LineMeta) : (s.setLine k x).gangs = s.gangs := rfl
@[simp] theorem State.setLine_lastGang (s : State) (k : Nat) (x : LineMeta) : (s.setLine k x).lastGang = s.lastGang := rfl
@[simp] theorem State.setLine_packages (s : State) (k : Nat) (x : LineMeta) : (s.setLine k x).packages = s.packages := rfl
@[simp] theorem State.setLine_accs (s : State) (k : Nat) (x : LineMeta) : (s.setLine k x).accs = s.accs := rfl
@[simp] theorem State.setLine_pairs (s : State) (k : Nat) (x : LineMeta) : (s.setLine k x).pairs = s.pairs := rfl
@[simp] theorem State.setLine_halves (s : State) (k : Nat) (x : LineMeta) : (s.setLine k x).halves = s.halves := rfl
@[simp] theorem State.setLine_reports (s : State) (k : Nat) (x : LineMeta) : (s.setLine k x).reports = s.reports := rfl
@[simp] theorem State.setLine_launches (s : State) (k : Nat) (x : LineMeta) : (s.setLine k x).launches = s.launches := rfl
@[simp] theorem State.setLine_feAsid (s : State) (k : Nat) (x : LineMeta) : (s.setLine k x).feAsid = s.feAsid := rfl
@[simp] theorem State.setLine_fePts (s : State) (k : Nat) (x : LineMeta) : (s.setLine k x).fePts = s.fePts := rfl
@[simp] theorem State.setLine_colls (s : State) (k : Nat) (x : LineMeta) : (s.setLine k x).colls = s.colls := rfl
@[simp] theorem State.setLine_log (s : State) (k : Nat) (x : LineMeta) : (s.setLine k x).log = s.log := rfl
@[simp] theorem State.setLine_roots (s : State) (k : Nat) (x : LineMeta) : (s.setLine k x).roots = s.roots := rfl
@[simp] theorem State.setLine_cur (s : State) (k : Nat) (x : LineMeta) : (s.setLine k x).cur = s.cur := rfl
@[simp] theorem State.setLine_grp (s : State) (k : Nat) (x : LineMeta) : (s.setLine k x).grp = s.grp := rfl
@[simp] theorem State.setLine_agenda (s : State) (k : Nat) (x : LineMeta) : (s.setLine k x).agenda = s.agenda := rfl
@[simp] theorem State.setLine_subject (s : State) (k : Nat) (x : LineMeta) : (s.setLine k x).subject = s.subject := rfl
@[simp] theorem State.setLine_steps (s : State) (k : Nat) (x : LineMeta) : (s.setLine k x).steps = s.steps := rfl
@[simp] theorem State.setLine_scripts (s : State) (k : Nat) (x : LineMeta) : (s.setLine k x).scripts = s.scripts := rfl
@[simp] theorem State.setLine_script (s : State) (k : Nat) (x : LineMeta) : (s.setLine k x).script = s.script := rfl
@[simp] theorem State.setLine_free (s : State) (k : Nat) (x : LineMeta) : (s.setLine k x).free = s.free := rfl
@[simp] theorem State.setLine_episode (s : State) (k : Nat) (x : LineMeta) : (s.setLine k x).episode = s.episode := rfl

@[simp] theorem State.setPkg_now (s : State) (k : Nat) (x : Package) : (s.setPkg k x).now = s.now := rfl
@[simp] theorem State.setPkg_mem (s : State) (k : Nat) (x : Package) : (s.setPkg k x).mem = s.mem := rfl
@[simp] theorem State.setPkg_lines (s : State) (k : Nat) (x : Package) : (s.setPkg k x).lines = s.lines := rfl
@[simp] theorem State.setPkg_ctrl (s : State) (k : Nat) (x : Package) : (s.setPkg k x).ctrl = s.ctrl := rfl
@[simp] theorem State.setPkg_cores (s : State) (k : Nat) (x : Package) : (s.setPkg k x).cores = s.cores := rfl
@[simp] theorem State.setPkg_ctxs (s : State) (k : Nat) (x : Package) : (s.setPkg k x).ctxs = s.ctxs := rfl
@[simp] theorem State.setPkg_quads (s : State) (k : Nat) (x : Package) : (s.setPkg k x).quads = s.quads := rfl
@[simp] theorem State.setPkg_slices (s : State) (k : Nat) (x : Package) : (s.setPkg k x).slices = s.slices := rfl
@[simp] theorem State.setPkg_gangs (s : State) (k : Nat) (x : Package) : (s.setPkg k x).gangs = s.gangs := rfl
@[simp] theorem State.setPkg_lastGang (s : State) (k : Nat) (x : Package) : (s.setPkg k x).lastGang = s.lastGang := rfl
@[simp] theorem State.setPkg_accs (s : State) (k : Nat) (x : Package) : (s.setPkg k x).accs = s.accs := rfl
@[simp] theorem State.setPkg_pairs (s : State) (k : Nat) (x : Package) : (s.setPkg k x).pairs = s.pairs := rfl
@[simp] theorem State.setPkg_halves (s : State) (k : Nat) (x : Package) : (s.setPkg k x).halves = s.halves := rfl
@[simp] theorem State.setPkg_reports (s : State) (k : Nat) (x : Package) : (s.setPkg k x).reports = s.reports := rfl
@[simp] theorem State.setPkg_launches (s : State) (k : Nat) (x : Package) : (s.setPkg k x).launches = s.launches := rfl
@[simp] theorem State.setPkg_feAsid (s : State) (k : Nat) (x : Package) : (s.setPkg k x).feAsid = s.feAsid := rfl
@[simp] theorem State.setPkg_fePts (s : State) (k : Nat) (x : Package) : (s.setPkg k x).fePts = s.fePts := rfl
@[simp] theorem State.setPkg_colls (s : State) (k : Nat) (x : Package) : (s.setPkg k x).colls = s.colls := rfl
@[simp] theorem State.setPkg_log (s : State) (k : Nat) (x : Package) : (s.setPkg k x).log = s.log := rfl
@[simp] theorem State.setPkg_roots (s : State) (k : Nat) (x : Package) : (s.setPkg k x).roots = s.roots := rfl
@[simp] theorem State.setPkg_cur (s : State) (k : Nat) (x : Package) : (s.setPkg k x).cur = s.cur := rfl
@[simp] theorem State.setPkg_grp (s : State) (k : Nat) (x : Package) : (s.setPkg k x).grp = s.grp := rfl
@[simp] theorem State.setPkg_agenda (s : State) (k : Nat) (x : Package) : (s.setPkg k x).agenda = s.agenda := rfl
@[simp] theorem State.setPkg_subject (s : State) (k : Nat) (x : Package) : (s.setPkg k x).subject = s.subject := rfl
@[simp] theorem State.setPkg_steps (s : State) (k : Nat) (x : Package) : (s.setPkg k x).steps = s.steps := rfl
@[simp] theorem State.setPkg_scripts (s : State) (k : Nat) (x : Package) : (s.setPkg k x).scripts = s.scripts := rfl
@[simp] theorem State.setPkg_script (s : State) (k : Nat) (x : Package) : (s.setPkg k x).script = s.script := rfl
@[simp] theorem State.setPkg_free (s : State) (k : Nat) (x : Package) : (s.setPkg k x).free = s.free := rfl
@[simp] theorem State.setPkg_episode (s : State) (k : Nat) (x : Package) : (s.setPkg k x).episode = s.episode := rfl

@[simp] theorem State.setSlice_now (s : State) (k : Nat) (x : Slice) : (s.setSlice k x).now = s.now := rfl
@[simp] theorem State.setSlice_mem (s : State) (k : Nat) (x : Slice) : (s.setSlice k x).mem = s.mem := rfl
@[simp] theorem State.setSlice_lines (s : State) (k : Nat) (x : Slice) : (s.setSlice k x).lines = s.lines := rfl
@[simp] theorem State.setSlice_ctrl (s : State) (k : Nat) (x : Slice) : (s.setSlice k x).ctrl = s.ctrl := rfl
@[simp] theorem State.setSlice_cores (s : State) (k : Nat) (x : Slice) : (s.setSlice k x).cores = s.cores := rfl
@[simp] theorem State.setSlice_ctxs (s : State) (k : Nat) (x : Slice) : (s.setSlice k x).ctxs = s.ctxs := rfl
@[simp] theorem State.setSlice_quads (s : State) (k : Nat) (x : Slice) : (s.setSlice k x).quads = s.quads := rfl
@[simp] theorem State.setSlice_gangs (s : State) (k : Nat) (x : Slice) : (s.setSlice k x).gangs = s.gangs := rfl
@[simp] theorem State.setSlice_lastGang (s : State) (k : Nat) (x : Slice) : (s.setSlice k x).lastGang = s.lastGang := rfl
@[simp] theorem State.setSlice_packages (s : State) (k : Nat) (x : Slice) : (s.setSlice k x).packages = s.packages := rfl
@[simp] theorem State.setSlice_accs (s : State) (k : Nat) (x : Slice) : (s.setSlice k x).accs = s.accs := rfl
@[simp] theorem State.setSlice_pairs (s : State) (k : Nat) (x : Slice) : (s.setSlice k x).pairs = s.pairs := rfl
@[simp] theorem State.setSlice_halves (s : State) (k : Nat) (x : Slice) : (s.setSlice k x).halves = s.halves := rfl
@[simp] theorem State.setSlice_reports (s : State) (k : Nat) (x : Slice) : (s.setSlice k x).reports = s.reports := rfl
@[simp] theorem State.setSlice_launches (s : State) (k : Nat) (x : Slice) : (s.setSlice k x).launches = s.launches := rfl
@[simp] theorem State.setSlice_feAsid (s : State) (k : Nat) (x : Slice) : (s.setSlice k x).feAsid = s.feAsid := rfl
@[simp] theorem State.setSlice_fePts (s : State) (k : Nat) (x : Slice) : (s.setSlice k x).fePts = s.fePts := rfl
@[simp] theorem State.setSlice_colls (s : State) (k : Nat) (x : Slice) : (s.setSlice k x).colls = s.colls := rfl
@[simp] theorem State.setSlice_log (s : State) (k : Nat) (x : Slice) : (s.setSlice k x).log = s.log := rfl
@[simp] theorem State.setSlice_roots (s : State) (k : Nat) (x : Slice) : (s.setSlice k x).roots = s.roots := rfl
@[simp] theorem State.setSlice_cur (s : State) (k : Nat) (x : Slice) : (s.setSlice k x).cur = s.cur := rfl
@[simp] theorem State.setSlice_grp (s : State) (k : Nat) (x : Slice) : (s.setSlice k x).grp = s.grp := rfl
@[simp] theorem State.setSlice_agenda (s : State) (k : Nat) (x : Slice) : (s.setSlice k x).agenda = s.agenda := rfl
@[simp] theorem State.setSlice_subject (s : State) (k : Nat) (x : Slice) : (s.setSlice k x).subject = s.subject := rfl
@[simp] theorem State.setSlice_steps (s : State) (k : Nat) (x : Slice) : (s.setSlice k x).steps = s.steps := rfl
@[simp] theorem State.setSlice_scripts (s : State) (k : Nat) (x : Slice) : (s.setSlice k x).scripts = s.scripts := rfl
@[simp] theorem State.setSlice_script (s : State) (k : Nat) (x : Slice) : (s.setSlice k x).script = s.script := rfl
@[simp] theorem State.setSlice_free (s : State) (k : Nat) (x : Slice) : (s.setSlice k x).free = s.free := rfl
@[simp] theorem State.setSlice_episode (s : State) (k : Nat) (x : Slice) : (s.setSlice k x).episode = s.episode := rfl

@[simp] theorem State.setQuad_now (s : State) (k : Nat) (x : Quad) : (s.setQuad k x).now = s.now := rfl
@[simp] theorem State.setQuad_mem (s : State) (k : Nat) (x : Quad) : (s.setQuad k x).mem = s.mem := rfl
@[simp] theorem State.setQuad_lines (s : State) (k : Nat) (x : Quad) : (s.setQuad k x).lines = s.lines := rfl
@[simp] theorem State.setQuad_ctrl (s : State) (k : Nat) (x : Quad) : (s.setQuad k x).ctrl = s.ctrl := rfl
@[simp] theorem State.setQuad_cores (s : State) (k : Nat) (x : Quad) : (s.setQuad k x).cores = s.cores := rfl
@[simp] theorem State.setQuad_ctxs (s : State) (k : Nat) (x : Quad) : (s.setQuad k x).ctxs = s.ctxs := rfl
@[simp] theorem State.setQuad_slices (s : State) (k : Nat) (x : Quad) : (s.setQuad k x).slices = s.slices := rfl
@[simp] theorem State.setQuad_gangs (s : State) (k : Nat) (x : Quad) : (s.setQuad k x).gangs = s.gangs := rfl
@[simp] theorem State.setQuad_lastGang (s : State) (k : Nat) (x : Quad) : (s.setQuad k x).lastGang = s.lastGang := rfl
@[simp] theorem State.setQuad_packages (s : State) (k : Nat) (x : Quad) : (s.setQuad k x).packages = s.packages := rfl
@[simp] theorem State.setQuad_accs (s : State) (k : Nat) (x : Quad) : (s.setQuad k x).accs = s.accs := rfl
@[simp] theorem State.setQuad_pairs (s : State) (k : Nat) (x : Quad) : (s.setQuad k x).pairs = s.pairs := rfl
@[simp] theorem State.setQuad_halves (s : State) (k : Nat) (x : Quad) : (s.setQuad k x).halves = s.halves := rfl
@[simp] theorem State.setQuad_reports (s : State) (k : Nat) (x : Quad) : (s.setQuad k x).reports = s.reports := rfl
@[simp] theorem State.setQuad_launches (s : State) (k : Nat) (x : Quad) : (s.setQuad k x).launches = s.launches := rfl
@[simp] theorem State.setQuad_feAsid (s : State) (k : Nat) (x : Quad) : (s.setQuad k x).feAsid = s.feAsid := rfl
@[simp] theorem State.setQuad_fePts (s : State) (k : Nat) (x : Quad) : (s.setQuad k x).fePts = s.fePts := rfl
@[simp] theorem State.setQuad_colls (s : State) (k : Nat) (x : Quad) : (s.setQuad k x).colls = s.colls := rfl
@[simp] theorem State.setQuad_log (s : State) (k : Nat) (x : Quad) : (s.setQuad k x).log = s.log := rfl
@[simp] theorem State.setQuad_roots (s : State) (k : Nat) (x : Quad) : (s.setQuad k x).roots = s.roots := rfl
@[simp] theorem State.setQuad_cur (s : State) (k : Nat) (x : Quad) : (s.setQuad k x).cur = s.cur := rfl
@[simp] theorem State.setQuad_grp (s : State) (k : Nat) (x : Quad) : (s.setQuad k x).grp = s.grp := rfl
@[simp] theorem State.setQuad_agenda (s : State) (k : Nat) (x : Quad) : (s.setQuad k x).agenda = s.agenda := rfl
@[simp] theorem State.setQuad_subject (s : State) (k : Nat) (x : Quad) : (s.setQuad k x).subject = s.subject := rfl
@[simp] theorem State.setQuad_steps (s : State) (k : Nat) (x : Quad) : (s.setQuad k x).steps = s.steps := rfl
@[simp] theorem State.setQuad_scripts (s : State) (k : Nat) (x : Quad) : (s.setQuad k x).scripts = s.scripts := rfl
@[simp] theorem State.setQuad_script (s : State) (k : Nat) (x : Quad) : (s.setQuad k x).script = s.script := rfl
@[simp] theorem State.setQuad_free (s : State) (k : Nat) (x : Quad) : (s.setQuad k x).free = s.free := rfl
@[simp] theorem State.setQuad_episode (s : State) (k : Nat) (x : Quad) : (s.setQuad k x).episode = s.episode := rfl

@[simp] theorem State.upd_now (s : State) (f : Ctx → Ctx) : (s.upd f).now = s.now := rfl
@[simp] theorem State.upd_mem (s : State) (f : Ctx → Ctx) : (s.upd f).mem = s.mem := rfl
@[simp] theorem State.upd_lines (s : State) (f : Ctx → Ctx) : (s.upd f).lines = s.lines := rfl
@[simp] theorem State.upd_ctrl (s : State) (f : Ctx → Ctx) : (s.upd f).ctrl = s.ctrl := rfl
@[simp] theorem State.upd_cores (s : State) (f : Ctx → Ctx) : (s.upd f).cores = s.cores := rfl
@[simp] theorem State.upd_quads (s : State) (f : Ctx → Ctx) : (s.upd f).quads = s.quads := rfl
@[simp] theorem State.upd_slices (s : State) (f : Ctx → Ctx) : (s.upd f).slices = s.slices := rfl
@[simp] theorem State.upd_gangs (s : State) (f : Ctx → Ctx) : (s.upd f).gangs = s.gangs := rfl
@[simp] theorem State.upd_lastGang (s : State) (f : Ctx → Ctx) : (s.upd f).lastGang = s.lastGang := rfl
@[simp] theorem State.upd_packages (s : State) (f : Ctx → Ctx) : (s.upd f).packages = s.packages := rfl
@[simp] theorem State.upd_accs (s : State) (f : Ctx → Ctx) : (s.upd f).accs = s.accs := rfl
@[simp] theorem State.upd_pairs (s : State) (f : Ctx → Ctx) : (s.upd f).pairs = s.pairs := rfl
@[simp] theorem State.upd_halves (s : State) (f : Ctx → Ctx) : (s.upd f).halves = s.halves := rfl
@[simp] theorem State.upd_reports (s : State) (f : Ctx → Ctx) : (s.upd f).reports = s.reports := rfl
@[simp] theorem State.upd_launches (s : State) (f : Ctx → Ctx) : (s.upd f).launches = s.launches := rfl
@[simp] theorem State.upd_feAsid (s : State) (f : Ctx → Ctx) : (s.upd f).feAsid = s.feAsid := rfl
@[simp] theorem State.upd_fePts (s : State) (f : Ctx → Ctx) : (s.upd f).fePts = s.fePts := rfl
@[simp] theorem State.upd_colls (s : State) (f : Ctx → Ctx) : (s.upd f).colls = s.colls := rfl
@[simp] theorem State.upd_log (s : State) (f : Ctx → Ctx) : (s.upd f).log = s.log := rfl
@[simp] theorem State.upd_roots (s : State) (f : Ctx → Ctx) : (s.upd f).roots = s.roots := rfl
@[simp] theorem State.upd_cur (s : State) (f : Ctx → Ctx) : (s.upd f).cur = s.cur := rfl
@[simp] theorem State.upd_grp (s : State) (f : Ctx → Ctx) : (s.upd f).grp = s.grp := rfl
@[simp] theorem State.upd_agenda (s : State) (f : Ctx → Ctx) : (s.upd f).agenda = s.agenda := rfl
@[simp] theorem State.upd_subject (s : State) (f : Ctx → Ctx) : (s.upd f).subject = s.subject := rfl
@[simp] theorem State.upd_steps (s : State) (f : Ctx → Ctx) : (s.upd f).steps = s.steps := rfl
@[simp] theorem State.upd_scripts (s : State) (f : Ctx → Ctx) : (s.upd f).scripts = s.scripts := rfl
@[simp] theorem State.upd_script (s : State) (f : Ctx → Ctx) : (s.upd f).script = s.script := rfl
@[simp] theorem State.upd_free (s : State) (f : Ctx → Ctx) : (s.upd f).free = s.free := rfl
@[simp] theorem State.upd_episode (s : State) (f : Ctx → Ctx) : (s.upd f).episode = s.episode := rfl

@[simp] theorem State.updCore_now (s : State) (f : Core → Core) : (s.updCore f).now = s.now := rfl
@[simp] theorem State.updCore_mem (s : State) (f : Core → Core) : (s.updCore f).mem = s.mem := rfl
@[simp] theorem State.updCore_lines (s : State) (f : Core → Core) : (s.updCore f).lines = s.lines := rfl
@[simp] theorem State.updCore_ctrl (s : State) (f : Core → Core) : (s.updCore f).ctrl = s.ctrl := rfl
@[simp] theorem State.updCore_ctxs (s : State) (f : Core → Core) : (s.updCore f).ctxs = s.ctxs := rfl
@[simp] theorem State.updCore_quads (s : State) (f : Core → Core) : (s.updCore f).quads = s.quads := rfl
@[simp] theorem State.updCore_slices (s : State) (f : Core → Core) : (s.updCore f).slices = s.slices := rfl
@[simp] theorem State.updCore_gangs (s : State) (f : Core → Core) : (s.updCore f).gangs = s.gangs := rfl
@[simp] theorem State.updCore_lastGang (s : State) (f : Core → Core) : (s.updCore f).lastGang = s.lastGang := rfl
@[simp] theorem State.updCore_packages (s : State) (f : Core → Core) : (s.updCore f).packages = s.packages := rfl
@[simp] theorem State.updCore_accs (s : State) (f : Core → Core) : (s.updCore f).accs = s.accs := rfl
@[simp] theorem State.updCore_pairs (s : State) (f : Core → Core) : (s.updCore f).pairs = s.pairs := rfl
@[simp] theorem State.updCore_halves (s : State) (f : Core → Core) : (s.updCore f).halves = s.halves := rfl
@[simp] theorem State.updCore_reports (s : State) (f : Core → Core) : (s.updCore f).reports = s.reports := rfl
@[simp] theorem State.updCore_launches (s : State) (f : Core → Core) : (s.updCore f).launches = s.launches := rfl
@[simp] theorem State.updCore_feAsid (s : State) (f : Core → Core) : (s.updCore f).feAsid = s.feAsid := rfl
@[simp] theorem State.updCore_fePts (s : State) (f : Core → Core) : (s.updCore f).fePts = s.fePts := rfl
@[simp] theorem State.updCore_colls (s : State) (f : Core → Core) : (s.updCore f).colls = s.colls := rfl
@[simp] theorem State.updCore_log (s : State) (f : Core → Core) : (s.updCore f).log = s.log := rfl
@[simp] theorem State.updCore_roots (s : State) (f : Core → Core) : (s.updCore f).roots = s.roots := rfl
@[simp] theorem State.updCore_cur (s : State) (f : Core → Core) : (s.updCore f).cur = s.cur := rfl
@[simp] theorem State.updCore_grp (s : State) (f : Core → Core) : (s.updCore f).grp = s.grp := rfl
@[simp] theorem State.updCore_agenda (s : State) (f : Core → Core) : (s.updCore f).agenda = s.agenda := rfl
@[simp] theorem State.updCore_subject (s : State) (f : Core → Core) : (s.updCore f).subject = s.subject := rfl
@[simp] theorem State.updCore_steps (s : State) (f : Core → Core) : (s.updCore f).steps = s.steps := rfl
@[simp] theorem State.updCore_scripts (s : State) (f : Core → Core) : (s.updCore f).scripts = s.scripts := rfl
@[simp] theorem State.updCore_script (s : State) (f : Core → Core) : (s.updCore f).script = s.script := rfl
@[simp] theorem State.updCore_free (s : State) (f : Core → Core) : (s.updCore f).free = s.free := rfl
@[simp] theorem State.updCore_episode (s : State) (f : Core → Core) : (s.updCore f).episode = s.episode := rfl

@[simp] theorem State.updGang_now (s : State) (f : Gang → Gang) : (s.updGang f).now = s.now := rfl
@[simp] theorem State.updGang_mem (s : State) (f : Gang → Gang) : (s.updGang f).mem = s.mem := rfl
@[simp] theorem State.updGang_lines (s : State) (f : Gang → Gang) : (s.updGang f).lines = s.lines := rfl
@[simp] theorem State.updGang_ctrl (s : State) (f : Gang → Gang) : (s.updGang f).ctrl = s.ctrl := rfl
@[simp] theorem State.updGang_cores (s : State) (f : Gang → Gang) : (s.updGang f).cores = s.cores := rfl
@[simp] theorem State.updGang_ctxs (s : State) (f : Gang → Gang) : (s.updGang f).ctxs = s.ctxs := rfl
@[simp] theorem State.updGang_quads (s : State) (f : Gang → Gang) : (s.updGang f).quads = s.quads := rfl
@[simp] theorem State.updGang_slices (s : State) (f : Gang → Gang) : (s.updGang f).slices = s.slices := rfl
@[simp] theorem State.updGang_lastGang (s : State) (f : Gang → Gang) : (s.updGang f).lastGang = s.lastGang := rfl
@[simp] theorem State.updGang_packages (s : State) (f : Gang → Gang) : (s.updGang f).packages = s.packages := rfl
@[simp] theorem State.updGang_accs (s : State) (f : Gang → Gang) : (s.updGang f).accs = s.accs := rfl
@[simp] theorem State.updGang_pairs (s : State) (f : Gang → Gang) : (s.updGang f).pairs = s.pairs := rfl
@[simp] theorem State.updGang_halves (s : State) (f : Gang → Gang) : (s.updGang f).halves = s.halves := rfl
@[simp] theorem State.updGang_reports (s : State) (f : Gang → Gang) : (s.updGang f).reports = s.reports := rfl
@[simp] theorem State.updGang_launches (s : State) (f : Gang → Gang) : (s.updGang f).launches = s.launches := rfl
@[simp] theorem State.updGang_feAsid (s : State) (f : Gang → Gang) : (s.updGang f).feAsid = s.feAsid := rfl
@[simp] theorem State.updGang_fePts (s : State) (f : Gang → Gang) : (s.updGang f).fePts = s.fePts := rfl
@[simp] theorem State.updGang_colls (s : State) (f : Gang → Gang) : (s.updGang f).colls = s.colls := rfl
@[simp] theorem State.updGang_log (s : State) (f : Gang → Gang) : (s.updGang f).log = s.log := rfl
@[simp] theorem State.updGang_roots (s : State) (f : Gang → Gang) : (s.updGang f).roots = s.roots := rfl
@[simp] theorem State.updGang_cur (s : State) (f : Gang → Gang) : (s.updGang f).cur = s.cur := rfl
@[simp] theorem State.updGang_grp (s : State) (f : Gang → Gang) : (s.updGang f).grp = s.grp := rfl
@[simp] theorem State.updGang_agenda (s : State) (f : Gang → Gang) : (s.updGang f).agenda = s.agenda := rfl
@[simp] theorem State.updGang_subject (s : State) (f : Gang → Gang) : (s.updGang f).subject = s.subject := rfl
@[simp] theorem State.updGang_steps (s : State) (f : Gang → Gang) : (s.updGang f).steps = s.steps := rfl
@[simp] theorem State.updGang_scripts (s : State) (f : Gang → Gang) : (s.updGang f).scripts = s.scripts := rfl
@[simp] theorem State.updGang_script (s : State) (f : Gang → Gang) : (s.updGang f).script = s.script := rfl
@[simp] theorem State.updGang_free (s : State) (f : Gang → Gang) : (s.updGang f).free = s.free := rfl
@[simp] theorem State.updGang_episode (s : State) (f : Gang → Gang) : (s.updGang f).episode = s.episode := rfl

@[simp] theorem State.putS_now (s : State) (n : Fin 32) (x : Word) : (s.putS n x).now = s.now := rfl
@[simp] theorem State.putS_mem (s : State) (n : Fin 32) (x : Word) : (s.putS n x).mem = s.mem := rfl
@[simp] theorem State.putS_lines (s : State) (n : Fin 32) (x : Word) : (s.putS n x).lines = s.lines := rfl
@[simp] theorem State.putS_ctrl (s : State) (n : Fin 32) (x : Word) : (s.putS n x).ctrl = s.ctrl := rfl
@[simp] theorem State.putS_cores (s : State) (n : Fin 32) (x : Word) : (s.putS n x).cores = s.cores := rfl
@[simp] theorem State.putS_quads (s : State) (n : Fin 32) (x : Word) : (s.putS n x).quads = s.quads := rfl
@[simp] theorem State.putS_slices (s : State) (n : Fin 32) (x : Word) : (s.putS n x).slices = s.slices := rfl
@[simp] theorem State.putS_gangs (s : State) (n : Fin 32) (x : Word) : (s.putS n x).gangs = s.gangs := rfl
@[simp] theorem State.putS_lastGang (s : State) (n : Fin 32) (x : Word) : (s.putS n x).lastGang = s.lastGang := rfl
@[simp] theorem State.putS_packages (s : State) (n : Fin 32) (x : Word) : (s.putS n x).packages = s.packages := rfl
@[simp] theorem State.putS_accs (s : State) (n : Fin 32) (x : Word) : (s.putS n x).accs = s.accs := rfl
@[simp] theorem State.putS_pairs (s : State) (n : Fin 32) (x : Word) : (s.putS n x).pairs = s.pairs := rfl
@[simp] theorem State.putS_halves (s : State) (n : Fin 32) (x : Word) : (s.putS n x).halves = s.halves := rfl
@[simp] theorem State.putS_reports (s : State) (n : Fin 32) (x : Word) : (s.putS n x).reports = s.reports := rfl
@[simp] theorem State.putS_launches (s : State) (n : Fin 32) (x : Word) : (s.putS n x).launches = s.launches := rfl
@[simp] theorem State.putS_feAsid (s : State) (n : Fin 32) (x : Word) : (s.putS n x).feAsid = s.feAsid := rfl
@[simp] theorem State.putS_fePts (s : State) (n : Fin 32) (x : Word) : (s.putS n x).fePts = s.fePts := rfl
@[simp] theorem State.putS_colls (s : State) (n : Fin 32) (x : Word) : (s.putS n x).colls = s.colls := rfl
@[simp] theorem State.putS_log (s : State) (n : Fin 32) (x : Word) : (s.putS n x).log = s.log := rfl
@[simp] theorem State.putS_roots (s : State) (n : Fin 32) (x : Word) : (s.putS n x).roots = s.roots := rfl
@[simp] theorem State.putS_cur (s : State) (n : Fin 32) (x : Word) : (s.putS n x).cur = s.cur := rfl
@[simp] theorem State.putS_grp (s : State) (n : Fin 32) (x : Word) : (s.putS n x).grp = s.grp := rfl
@[simp] theorem State.putS_agenda (s : State) (n : Fin 32) (x : Word) : (s.putS n x).agenda = s.agenda := rfl
@[simp] theorem State.putS_subject (s : State) (n : Fin 32) (x : Word) : (s.putS n x).subject = s.subject := rfl
@[simp] theorem State.putS_steps (s : State) (n : Fin 32) (x : Word) : (s.putS n x).steps = s.steps := rfl
@[simp] theorem State.putS_scripts (s : State) (n : Fin 32) (x : Word) : (s.putS n x).scripts = s.scripts := rfl
@[simp] theorem State.putS_script (s : State) (n : Fin 32) (x : Word) : (s.putS n x).script = s.script := rfl
@[simp] theorem State.putS_free (s : State) (n : Fin 32) (x : Word) : (s.putS n x).free = s.free := rfl
@[simp] theorem State.putS_episode (s : State) (n : Fin 32) (x : Word) : (s.putS n x).episode = s.episode := rfl

@[simp] theorem State.putP_now (s : State) (n : Fin 8) (x : Bool) : (s.putP n x).now = s.now := rfl
@[simp] theorem State.putP_mem (s : State) (n : Fin 8) (x : Bool) : (s.putP n x).mem = s.mem := rfl
@[simp] theorem State.putP_lines (s : State) (n : Fin 8) (x : Bool) : (s.putP n x).lines = s.lines := rfl
@[simp] theorem State.putP_ctrl (s : State) (n : Fin 8) (x : Bool) : (s.putP n x).ctrl = s.ctrl := rfl
@[simp] theorem State.putP_cores (s : State) (n : Fin 8) (x : Bool) : (s.putP n x).cores = s.cores := rfl
@[simp] theorem State.putP_quads (s : State) (n : Fin 8) (x : Bool) : (s.putP n x).quads = s.quads := rfl
@[simp] theorem State.putP_slices (s : State) (n : Fin 8) (x : Bool) : (s.putP n x).slices = s.slices := rfl
@[simp] theorem State.putP_gangs (s : State) (n : Fin 8) (x : Bool) : (s.putP n x).gangs = s.gangs := rfl
@[simp] theorem State.putP_lastGang (s : State) (n : Fin 8) (x : Bool) : (s.putP n x).lastGang = s.lastGang := rfl
@[simp] theorem State.putP_packages (s : State) (n : Fin 8) (x : Bool) : (s.putP n x).packages = s.packages := rfl
@[simp] theorem State.putP_accs (s : State) (n : Fin 8) (x : Bool) : (s.putP n x).accs = s.accs := rfl
@[simp] theorem State.putP_pairs (s : State) (n : Fin 8) (x : Bool) : (s.putP n x).pairs = s.pairs := rfl
@[simp] theorem State.putP_halves (s : State) (n : Fin 8) (x : Bool) : (s.putP n x).halves = s.halves := rfl
@[simp] theorem State.putP_reports (s : State) (n : Fin 8) (x : Bool) : (s.putP n x).reports = s.reports := rfl
@[simp] theorem State.putP_launches (s : State) (n : Fin 8) (x : Bool) : (s.putP n x).launches = s.launches := rfl
@[simp] theorem State.putP_feAsid (s : State) (n : Fin 8) (x : Bool) : (s.putP n x).feAsid = s.feAsid := rfl
@[simp] theorem State.putP_fePts (s : State) (n : Fin 8) (x : Bool) : (s.putP n x).fePts = s.fePts := rfl
@[simp] theorem State.putP_colls (s : State) (n : Fin 8) (x : Bool) : (s.putP n x).colls = s.colls := rfl
@[simp] theorem State.putP_log (s : State) (n : Fin 8) (x : Bool) : (s.putP n x).log = s.log := rfl
@[simp] theorem State.putP_roots (s : State) (n : Fin 8) (x : Bool) : (s.putP n x).roots = s.roots := rfl
@[simp] theorem State.putP_cur (s : State) (n : Fin 8) (x : Bool) : (s.putP n x).cur = s.cur := rfl
@[simp] theorem State.putP_grp (s : State) (n : Fin 8) (x : Bool) : (s.putP n x).grp = s.grp := rfl
@[simp] theorem State.putP_agenda (s : State) (n : Fin 8) (x : Bool) : (s.putP n x).agenda = s.agenda := rfl
@[simp] theorem State.putP_subject (s : State) (n : Fin 8) (x : Bool) : (s.putP n x).subject = s.subject := rfl
@[simp] theorem State.putP_steps (s : State) (n : Fin 8) (x : Bool) : (s.putP n x).steps = s.steps := rfl
@[simp] theorem State.putP_scripts (s : State) (n : Fin 8) (x : Bool) : (s.putP n x).scripts = s.scripts := rfl
@[simp] theorem State.putP_script (s : State) (n : Fin 8) (x : Bool) : (s.putP n x).script = s.script := rfl
@[simp] theorem State.putP_free (s : State) (n : Fin 8) (x : Bool) : (s.putP n x).free = s.free := rfl
@[simp] theorem State.putP_episode (s : State) (n : Fin 8) (x : Bool) : (s.putP n x).episode = s.episode := rfl

@[simp] theorem State.flag_now (s : State) (f : Num.Flg) : (s.flag f).now = s.now := rfl
@[simp] theorem State.flag_mem (s : State) (f : Num.Flg) : (s.flag f).mem = s.mem := rfl
@[simp] theorem State.flag_lines (s : State) (f : Num.Flg) : (s.flag f).lines = s.lines := rfl
@[simp] theorem State.flag_ctrl (s : State) (f : Num.Flg) : (s.flag f).ctrl = s.ctrl := rfl
@[simp] theorem State.flag_cores (s : State) (f : Num.Flg) : (s.flag f).cores = s.cores := rfl
@[simp] theorem State.flag_quads (s : State) (f : Num.Flg) : (s.flag f).quads = s.quads := rfl
@[simp] theorem State.flag_slices (s : State) (f : Num.Flg) : (s.flag f).slices = s.slices := rfl
@[simp] theorem State.flag_gangs (s : State) (f : Num.Flg) : (s.flag f).gangs = s.gangs := rfl
@[simp] theorem State.flag_lastGang (s : State) (f : Num.Flg) : (s.flag f).lastGang = s.lastGang := rfl
@[simp] theorem State.flag_packages (s : State) (f : Num.Flg) : (s.flag f).packages = s.packages := rfl
@[simp] theorem State.flag_accs (s : State) (f : Num.Flg) : (s.flag f).accs = s.accs := rfl
@[simp] theorem State.flag_pairs (s : State) (f : Num.Flg) : (s.flag f).pairs = s.pairs := rfl
@[simp] theorem State.flag_halves (s : State) (f : Num.Flg) : (s.flag f).halves = s.halves := rfl
@[simp] theorem State.flag_reports (s : State) (f : Num.Flg) : (s.flag f).reports = s.reports := rfl
@[simp] theorem State.flag_launches (s : State) (f : Num.Flg) : (s.flag f).launches = s.launches := rfl
@[simp] theorem State.flag_feAsid (s : State) (f : Num.Flg) : (s.flag f).feAsid = s.feAsid := rfl
@[simp] theorem State.flag_fePts (s : State) (f : Num.Flg) : (s.flag f).fePts = s.fePts := rfl
@[simp] theorem State.flag_colls (s : State) (f : Num.Flg) : (s.flag f).colls = s.colls := rfl
@[simp] theorem State.flag_log (s : State) (f : Num.Flg) : (s.flag f).log = s.log := rfl
@[simp] theorem State.flag_roots (s : State) (f : Num.Flg) : (s.flag f).roots = s.roots := rfl
@[simp] theorem State.flag_cur (s : State) (f : Num.Flg) : (s.flag f).cur = s.cur := rfl
@[simp] theorem State.flag_grp (s : State) (f : Num.Flg) : (s.flag f).grp = s.grp := rfl
@[simp] theorem State.flag_agenda (s : State) (f : Num.Flg) : (s.flag f).agenda = s.agenda := rfl
@[simp] theorem State.flag_subject (s : State) (f : Num.Flg) : (s.flag f).subject = s.subject := rfl
@[simp] theorem State.flag_steps (s : State) (f : Num.Flg) : (s.flag f).steps = s.steps := rfl
@[simp] theorem State.flag_scripts (s : State) (f : Num.Flg) : (s.flag f).scripts = s.scripts := rfl
@[simp] theorem State.flag_script (s : State) (f : Num.Flg) : (s.flag f).script = s.script := rfl
@[simp] theorem State.flag_free (s : State) (f : Num.Flg) : (s.flag f).free = s.free := rfl
@[simp] theorem State.flag_episode (s : State) (f : Num.Flg) : (s.flag f).episode = s.episode := rfl

@[simp] theorem State.setCtx_getCore (s : State) (k : Nat) (x : Ctx) (j : Nat) : (s.setCtx k x).getCore j = s.getCore j := rfl
@[simp] theorem State.setCtx_getGang (s : State) (k : Nat) (x : Ctx) (j : Nat) : (s.setCtx k x).getGang j = s.getGang j := rfl
@[simp] theorem State.setCtx_getLine (s : State) (k : Nat) (x : Ctx) (j : Nat) : (s.setCtx k x).getLine j = s.getLine j := rfl
@[simp] theorem State.setCtx_getPkg (s : State) (k : Nat) (x : Ctx) (j : Nat) : (s.setCtx k x).getPkg j = s.getPkg j := rfl
@[simp] theorem State.setCtx_getSlice (s : State) (k : Nat) (x : Ctx) (j : Nat) : (s.setCtx k x).getSlice j = s.getSlice j := rfl
@[simp] theorem State.setCtx_getQuad (s : State) (k : Nat) (x : Ctx) (j : Nat) : (s.setCtx k x).getQuad j = s.getQuad j := rfl

@[simp] theorem State.setCore_getCtx (s : State) (k : Nat) (x : Core) (j : Nat) : (s.setCore k x).getCtx j = s.getCtx j := rfl
@[simp] theorem State.setCore_getGang (s : State) (k : Nat) (x : Core) (j : Nat) : (s.setCore k x).getGang j = s.getGang j := rfl
@[simp] theorem State.setCore_getLine (s : State) (k : Nat) (x : Core) (j : Nat) : (s.setCore k x).getLine j = s.getLine j := rfl
@[simp] theorem State.setCore_getPkg (s : State) (k : Nat) (x : Core) (j : Nat) : (s.setCore k x).getPkg j = s.getPkg j := rfl
@[simp] theorem State.setCore_getSlice (s : State) (k : Nat) (x : Core) (j : Nat) : (s.setCore k x).getSlice j = s.getSlice j := rfl
@[simp] theorem State.setCore_getQuad (s : State) (k : Nat) (x : Core) (j : Nat) : (s.setCore k x).getQuad j = s.getQuad j := rfl

@[simp] theorem State.setGang_getCtx (s : State) (k : Nat) (x : Gang) (j : Nat) : (s.setGang k x).getCtx j = s.getCtx j := rfl
@[simp] theorem State.setGang_getCore (s : State) (k : Nat) (x : Gang) (j : Nat) : (s.setGang k x).getCore j = s.getCore j := rfl
@[simp] theorem State.setGang_getLine (s : State) (k : Nat) (x : Gang) (j : Nat) : (s.setGang k x).getLine j = s.getLine j := rfl
@[simp] theorem State.setGang_getPkg (s : State) (k : Nat) (x : Gang) (j : Nat) : (s.setGang k x).getPkg j = s.getPkg j := rfl
@[simp] theorem State.setGang_getSlice (s : State) (k : Nat) (x : Gang) (j : Nat) : (s.setGang k x).getSlice j = s.getSlice j := rfl
@[simp] theorem State.setGang_getQuad (s : State) (k : Nat) (x : Gang) (j : Nat) : (s.setGang k x).getQuad j = s.getQuad j := rfl

@[simp] theorem State.setLine_getCtx (s : State) (k : Nat) (x : LineMeta) (j : Nat) : (s.setLine k x).getCtx j = s.getCtx j := rfl
@[simp] theorem State.setLine_getCore (s : State) (k : Nat) (x : LineMeta) (j : Nat) : (s.setLine k x).getCore j = s.getCore j := rfl
@[simp] theorem State.setLine_getGang (s : State) (k : Nat) (x : LineMeta) (j : Nat) : (s.setLine k x).getGang j = s.getGang j := rfl
@[simp] theorem State.setLine_getPkg (s : State) (k : Nat) (x : LineMeta) (j : Nat) : (s.setLine k x).getPkg j = s.getPkg j := rfl
@[simp] theorem State.setLine_getSlice (s : State) (k : Nat) (x : LineMeta) (j : Nat) : (s.setLine k x).getSlice j = s.getSlice j := rfl
@[simp] theorem State.setLine_getQuad (s : State) (k : Nat) (x : LineMeta) (j : Nat) : (s.setLine k x).getQuad j = s.getQuad j := rfl

@[simp] theorem State.setPkg_getCtx (s : State) (k : Nat) (x : Package) (j : Nat) : (s.setPkg k x).getCtx j = s.getCtx j := rfl
@[simp] theorem State.setPkg_getCore (s : State) (k : Nat) (x : Package) (j : Nat) : (s.setPkg k x).getCore j = s.getCore j := rfl
@[simp] theorem State.setPkg_getGang (s : State) (k : Nat) (x : Package) (j : Nat) : (s.setPkg k x).getGang j = s.getGang j := rfl
@[simp] theorem State.setPkg_getLine (s : State) (k : Nat) (x : Package) (j : Nat) : (s.setPkg k x).getLine j = s.getLine j := rfl
@[simp] theorem State.setPkg_getSlice (s : State) (k : Nat) (x : Package) (j : Nat) : (s.setPkg k x).getSlice j = s.getSlice j := rfl
@[simp] theorem State.setPkg_getQuad (s : State) (k : Nat) (x : Package) (j : Nat) : (s.setPkg k x).getQuad j = s.getQuad j := rfl

@[simp] theorem State.setSlice_getCtx (s : State) (k : Nat) (x : Slice) (j : Nat) : (s.setSlice k x).getCtx j = s.getCtx j := rfl
@[simp] theorem State.setSlice_getCore (s : State) (k : Nat) (x : Slice) (j : Nat) : (s.setSlice k x).getCore j = s.getCore j := rfl
@[simp] theorem State.setSlice_getGang (s : State) (k : Nat) (x : Slice) (j : Nat) : (s.setSlice k x).getGang j = s.getGang j := rfl
@[simp] theorem State.setSlice_getLine (s : State) (k : Nat) (x : Slice) (j : Nat) : (s.setSlice k x).getLine j = s.getLine j := rfl
@[simp] theorem State.setSlice_getPkg (s : State) (k : Nat) (x : Slice) (j : Nat) : (s.setSlice k x).getPkg j = s.getPkg j := rfl
@[simp] theorem State.setSlice_getQuad (s : State) (k : Nat) (x : Slice) (j : Nat) : (s.setSlice k x).getQuad j = s.getQuad j := rfl

@[simp] theorem State.setQuad_getCtx (s : State) (k : Nat) (x : Quad) (j : Nat) : (s.setQuad k x).getCtx j = s.getCtx j := rfl
@[simp] theorem State.setQuad_getCore (s : State) (k : Nat) (x : Quad) (j : Nat) : (s.setQuad k x).getCore j = s.getCore j := rfl
@[simp] theorem State.setQuad_getGang (s : State) (k : Nat) (x : Quad) (j : Nat) : (s.setQuad k x).getGang j = s.getGang j := rfl
@[simp] theorem State.setQuad_getLine (s : State) (k : Nat) (x : Quad) (j : Nat) : (s.setQuad k x).getLine j = s.getLine j := rfl
@[simp] theorem State.setQuad_getPkg (s : State) (k : Nat) (x : Quad) (j : Nat) : (s.setQuad k x).getPkg j = s.getPkg j := rfl
@[simp] theorem State.setQuad_getSlice (s : State) (k : Nat) (x : Quad) (j : Nat) : (s.setQuad k x).getSlice j = s.getSlice j := rfl

@[simp] theorem State.upd_getCore (s : State) (f : Ctx → Ctx) (j : Nat) : (s.upd f).getCore j = s.getCore j := rfl
@[simp] theorem State.upd_getGang (s : State) (f : Ctx → Ctx) (j : Nat) : (s.upd f).getGang j = s.getGang j := rfl
@[simp] theorem State.upd_getLine (s : State) (f : Ctx → Ctx) (j : Nat) : (s.upd f).getLine j = s.getLine j := rfl
@[simp] theorem State.upd_getPkg (s : State) (f : Ctx → Ctx) (j : Nat) : (s.upd f).getPkg j = s.getPkg j := rfl
@[simp] theorem State.upd_getSlice (s : State) (f : Ctx → Ctx) (j : Nat) : (s.upd f).getSlice j = s.getSlice j := rfl
@[simp] theorem State.upd_getQuad (s : State) (f : Ctx → Ctx) (j : Nat) : (s.upd f).getQuad j = s.getQuad j := rfl

@[simp] theorem State.updCore_getCtx (s : State) (f : Core → Core) (j : Nat) : (s.updCore f).getCtx j = s.getCtx j := rfl
@[simp] theorem State.updCore_getGang (s : State) (f : Core → Core) (j : Nat) : (s.updCore f).getGang j = s.getGang j := rfl
@[simp] theorem State.updCore_getLine (s : State) (f : Core → Core) (j : Nat) : (s.updCore f).getLine j = s.getLine j := rfl
@[simp] theorem State.updCore_getPkg (s : State) (f : Core → Core) (j : Nat) : (s.updCore f).getPkg j = s.getPkg j := rfl
@[simp] theorem State.updCore_getSlice (s : State) (f : Core → Core) (j : Nat) : (s.updCore f).getSlice j = s.getSlice j := rfl
@[simp] theorem State.updCore_getQuad (s : State) (f : Core → Core) (j : Nat) : (s.updCore f).getQuad j = s.getQuad j := rfl

@[simp] theorem State.updGang_getCtx (s : State) (f : Gang → Gang) (j : Nat) : (s.updGang f).getCtx j = s.getCtx j := rfl
@[simp] theorem State.updGang_getCore (s : State) (f : Gang → Gang) (j : Nat) : (s.updGang f).getCore j = s.getCore j := rfl
@[simp] theorem State.updGang_getLine (s : State) (f : Gang → Gang) (j : Nat) : (s.updGang f).getLine j = s.getLine j := rfl
@[simp] theorem State.updGang_getPkg (s : State) (f : Gang → Gang) (j : Nat) : (s.updGang f).getPkg j = s.getPkg j := rfl
@[simp] theorem State.updGang_getSlice (s : State) (f : Gang → Gang) (j : Nat) : (s.updGang f).getSlice j = s.getSlice j := rfl
@[simp] theorem State.updGang_getQuad (s : State) (f : Gang → Gang) (j : Nat) : (s.updGang f).getQuad j = s.getQuad j := rfl

@[simp] theorem State.putS_getCore (s : State) (n : Fin 32) (x : Word) (j : Nat) : (s.putS n x).getCore j = s.getCore j := rfl
@[simp] theorem State.putS_getGang (s : State) (n : Fin 32) (x : Word) (j : Nat) : (s.putS n x).getGang j = s.getGang j := rfl
@[simp] theorem State.putS_getLine (s : State) (n : Fin 32) (x : Word) (j : Nat) : (s.putS n x).getLine j = s.getLine j := rfl
@[simp] theorem State.putS_getPkg (s : State) (n : Fin 32) (x : Word) (j : Nat) : (s.putS n x).getPkg j = s.getPkg j := rfl
@[simp] theorem State.putS_getSlice (s : State) (n : Fin 32) (x : Word) (j : Nat) : (s.putS n x).getSlice j = s.getSlice j := rfl
@[simp] theorem State.putS_getQuad (s : State) (n : Fin 32) (x : Word) (j : Nat) : (s.putS n x).getQuad j = s.getQuad j := rfl

@[simp] theorem State.putP_getCore (s : State) (n : Fin 8) (x : Bool) (j : Nat) : (s.putP n x).getCore j = s.getCore j := rfl
@[simp] theorem State.putP_getGang (s : State) (n : Fin 8) (x : Bool) (j : Nat) : (s.putP n x).getGang j = s.getGang j := rfl
@[simp] theorem State.putP_getLine (s : State) (n : Fin 8) (x : Bool) (j : Nat) : (s.putP n x).getLine j = s.getLine j := rfl
@[simp] theorem State.putP_getPkg (s : State) (n : Fin 8) (x : Bool) (j : Nat) : (s.putP n x).getPkg j = s.getPkg j := rfl
@[simp] theorem State.putP_getSlice (s : State) (n : Fin 8) (x : Bool) (j : Nat) : (s.putP n x).getSlice j = s.getSlice j := rfl
@[simp] theorem State.putP_getQuad (s : State) (n : Fin 8) (x : Bool) (j : Nat) : (s.putP n x).getQuad j = s.getQuad j := rfl

@[simp] theorem State.flag_getCore (s : State) (f : Num.Flg) (j : Nat) : (s.flag f).getCore j = s.getCore j := rfl
@[simp] theorem State.flag_getGang (s : State) (f : Num.Flg) (j : Nat) : (s.flag f).getGang j = s.getGang j := rfl
@[simp] theorem State.flag_getLine (s : State) (f : Num.Flg) (j : Nat) : (s.flag f).getLine j = s.getLine j := rfl
@[simp] theorem State.flag_getPkg (s : State) (f : Num.Flg) (j : Nat) : (s.flag f).getPkg j = s.getPkg j := rfl
@[simp] theorem State.flag_getSlice (s : State) (f : Num.Flg) (j : Nat) : (s.flag f).getSlice j = s.getSlice j := rfl
@[simp] theorem State.flag_getQuad (s : State) (f : Num.Flg) (j : Nat) : (s.flag f).getQuad j = s.getQuad j := rfl

/-- Reading what was set. -/
@[simp] theorem State.getCtx_setCtx_same (s : State) (k : Nat) (x : Ctx) : (s.setCtx k x).getCtx k = x := mget_mset_same _ _ _ _

/-- Reading another key. -/
theorem State.getCtx_setCtx_ne (s : State) (j k : Nat) (x : Ctx) (h : j ≠ k) : (s.setCtx k x).getCtx j = s.getCtx j :=
  mget_mset_ne _ _ _ _ _ h

/-- Reading what was set. -/
@[simp] theorem State.getCore_setCore_same (s : State) (k : Nat) (x : Core) : (s.setCore k x).getCore k = x := mget_mset_same _ _ _ _

/-- Reading another key. -/
theorem State.getCore_setCore_ne (s : State) (j k : Nat) (x : Core) (h : j ≠ k) : (s.setCore k x).getCore j = s.getCore j :=
  mget_mset_ne _ _ _ _ _ h

/-- Reading what was set. -/
@[simp] theorem State.getGang_setGang_same (s : State) (k : Nat) (x : Gang) : (s.setGang k x).getGang k = x := mget_mset_same _ _ _ _

/-- Reading another key. -/
theorem State.getGang_setGang_ne (s : State) (j k : Nat) (x : Gang) (h : j ≠ k) : (s.setGang k x).getGang j = s.getGang j :=
  mget_mset_ne _ _ _ _ _ h

/-- Reading what was set. -/
@[simp] theorem State.getLine_setLine_same (s : State) (k : Nat) (x : LineMeta) : (s.setLine k x).getLine k = x := mget_mset_same _ _ _ _

/-- Reading another key. -/
theorem State.getLine_setLine_ne (s : State) (j k : Nat) (x : LineMeta) (h : j ≠ k) : (s.setLine k x).getLine j = s.getLine j :=
  mget_mset_ne _ _ _ _ _ h

/-- Reading what was set. -/
@[simp] theorem State.getPkg_setPkg_same (s : State) (k : Nat) (x : Package) : (s.setPkg k x).getPkg k = x := mget_mset_same _ _ _ _

/-- Reading another key. -/
theorem State.getPkg_setPkg_ne (s : State) (j k : Nat) (x : Package) (h : j ≠ k) : (s.setPkg k x).getPkg j = s.getPkg j :=
  mget_mset_ne _ _ _ _ _ h

/-- Reading what was set. -/
@[simp] theorem State.getSlice_setSlice_same (s : State) (k : Nat) (x : Slice) : (s.setSlice k x).getSlice k = x := mget_mset_same _ _ _ _

/-- Reading another key. -/
theorem State.getSlice_setSlice_ne (s : State) (j k : Nat) (x : Slice) (h : j ≠ k) : (s.setSlice k x).getSlice j = s.getSlice j :=
  mget_mset_ne _ _ _ _ _ h

/-- Reading what was set. -/
@[simp] theorem State.getQuad_setQuad_same (s : State) (k : Nat) (x : Quad) : (s.setQuad k x).getQuad k = x := mget_mset_same _ _ _ _

/-- Reading another key. -/
theorem State.getQuad_setQuad_ne (s : State) (j k : Nat) (x : Quad) (h : j ≠ k) : (s.setQuad k x).getQuad j = s.getQuad j :=
  mget_mset_ne _ _ _ _ _ h

/-- The acting context after its update. -/
@[simp] theorem State.ctx_upd (s : State) (f : Ctx → Ctx) : (s.upd f).ctx = f s.ctx := State.getCtx_setCtx_same _ _ _

@[simp] theorem State.core_upd (s : State) (f : Ctx → Ctx) : (s.upd f).core = s.core := rfl

@[simp] theorem State.gang_upd (s : State) (f : Ctx → Ctx) : (s.upd f).gang = s.gang := rfl

@[simp] theorem State.core_updCore (s : State) (f : Core → Core) : (s.updCore f).core = f s.core := State.getCore_setCore_same _ _ _

@[simp] theorem State.ctx_updCore (s : State) (f : Core → Core) : (s.updCore f).ctx = s.ctx := rfl

@[simp] theorem State.ctx_putS (s : State) (n : Fin 32) (x : Word) : (s.putS n x).ctx = s.ctx.putS n x := State.getCtx_setCtx_same _ _ _

@[simp] theorem State.ctx_putP (s : State) (n : Fin 8) (b : Bool) : (s.putP n b).ctx = s.ctx.putP n b := State.getCtx_setCtx_same _ _ _

@[simp] theorem State.ctx_flag (s : State) (f : Num.Flg) : (s.flag f).ctx = { s.ctx with asr := asrOr s.ctx.asr f } :=
  State.getCtx_setCtx_same _ _ _

/-- A context other than the acting one. -/
theorem State.getCtx_upd_ne (s : State) (f : Ctx → Ctx) (k : Nat) (h : k ≠ s.cur) : (s.upd f).getCtx k = s.getCtx k :=
  State.getCtx_setCtx_ne _ _ _ _ h

/-- R93: writing s0 changes nothing. -/
@[simp] theorem Ctx.putS_zero (c : Ctx) (x : Word) : c.putS 0 x = c := rfl

/-- The register written by putS. -/
theorem Ctx.putS_same (c : Ctx) (n : Fin 32) (x : Word) (h : n ≠ 0) : (c.putS n x).s[n] = x := by
  simp [Ctx.putS, h]

/-- Every other register. -/
theorem Ctx.putS_ne (c : Ctx) (n m : Fin 32) (x : Word) (h : n ≠ m) : (c.putS n x).s[m] = c.s[m] := by
  unfold Ctx.putS
  split
  · rfl
  · have : (n : Nat) ≠ m := fun e => h (Fin.ext e)
    simp [this]

@[simp] theorem Ctx.putP_zero (c : Ctx) (b : Bool) : c.putP 0 b = c := rfl

@[simp] theorem Ctx.putP_s (c : Ctx) (n : Fin 8) (b : Bool) : (c.putP n b).s = c.s := by unfold Ctx.putP; split <;> rfl

@[simp] theorem Ctx.putP_full (c : Ctx) (n : Fin 8) (b : Bool) : (c.putP n b).full = c.full := by unfold Ctx.putP; split <;> rfl

@[simp] theorem Ctx.putS_p (c : Ctx) (n : Fin 32) (x : Word) : (c.putS n x).p = c.p := by unfold Ctx.putS; split <;> rfl

@[simp] theorem Ctx.putS_asr (c : Ctx) (n : Fin 32) (x : Word) : (c.putS n x).asr = c.asr := by unfold Ctx.putS; split <;> rfl

@[simp] theorem Ctx.putP_asr (c : Ctx) (n : Fin 8) (b : Bool) : (c.putP n b).asr = c.asr := by unfold Ctx.putP; split <;> rfl

@[simp] theorem Ctx.putS_vsh (c : Ctx) (n : Fin 32) (x : Word) : (c.putS n x).vsh = c.vsh := by unfold Ctx.putS; split <;> rfl

@[simp] theorem Ctx.putP_vsh (c : Ctx) (n : Fin 8) (b : Bool) : (c.putP n b).vsh = c.vsh := by unfold Ctx.putP; split <;> rfl

@[simp] theorem Ctx.putS_pc (c : Ctx) (n : Fin 32) (x : Word) : (c.putS n x).pc = c.pc := by unfold Ctx.putS; split <;> rfl

@[simp] theorem Ctx.putP_pc (c : Ctx) (n : Fin 8) (b : Bool) : (c.putP n b).pc = c.pc := by unfold Ctx.putP; split <;> rfl

@[simp] theorem Ctx.putS_quantum (c : Ctx) (n : Fin 32) (x : Word) : (c.putS n x).quantum = c.quantum := by unfold Ctx.putS; split <;> rfl

@[simp] theorem Ctx.putP_quantum (c : Ctx) (n : Fin 8) (b : Bool) : (c.putP n b).quantum = c.quantum := by unfold Ctx.putP; split <;> rfl

@[simp] theorem Ctx.putS_lfs (c : Ctx) (n : Fin 32) (x : Word) : (c.putS n x).lfs = c.lfs := by unfold Ctx.putS; split <;> rfl

@[simp] theorem Ctx.putP_lfs (c : Ctx) (n : Fin 8) (b : Bool) : (c.putP n b).lfs = c.lfs := by unfold Ctx.putP; split <;> rfl

@[simp] theorem Ctx.putS_v (c : Ctx) (n : Fin 32) (x : Word) : (c.putS n x).v = c.v := by unfold Ctx.putS; split <;> rfl

@[simp] theorem Ctx.putP_v (c : Ctx) (n : Fin 8) (b : Bool) : (c.putP n b).v = c.v := by unfold Ctx.putP; split <;> rfl

@[simp] theorem Ctx.putS_trapvec (c : Ctx) (n : Fin 32) (x : Word) : (c.putS n x).trapvec = c.trapvec := by unfold Ctx.putS; split <;> rfl

@[simp] theorem Ctx.putP_trapvec (c : Ctx) (n : Fin 8) (b : Bool) : (c.putP n b).trapvec = c.trapvec := by unfold Ctx.putP; split <;> rfl

@[simp] theorem Ctx.putS_tcause (c : Ctx) (n : Fin 32) (x : Word) : (c.putS n x).tcause = c.tcause := by unfold Ctx.putS; split <;> rfl

@[simp] theorem Ctx.putP_tcause (c : Ctx) (n : Fin 8) (b : Bool) : (c.putP n b).tcause = c.tcause := by unfold Ctx.putP; split <;> rfl

@[simp] theorem Ctx.putS_tpc (c : Ctx) (n : Fin 32) (x : Word) : (c.putS n x).tpc = c.tpc := by unfold Ctx.putS; split <;> rfl

@[simp] theorem Ctx.putP_tpc (c : Ctx) (n : Fin 8) (b : Bool) : (c.putP n b).tpc = c.tpc := by unfold Ctx.putP; split <;> rfl

@[simp] theorem Ctx.putS_tinfoa (c : Ctx) (n : Fin 32) (x : Word) : (c.putS n x).tinfoa = c.tinfoa := by unfold Ctx.putS; split <;> rfl

@[simp] theorem Ctx.putP_tinfoa (c : Ctx) (n : Fin 8) (b : Bool) : (c.putP n b).tinfoa = c.tinfoa := by unfold Ctx.putP; split <;> rfl

@[simp] theorem Ctx.putS_tinfob (c : Ctx) (n : Fin 32) (x : Word) : (c.putS n x).tinfob = c.tinfob := by unfold Ctx.putS; split <;> rfl

@[simp] theorem Ctx.putP_tinfob (c : Ctx) (n : Fin 8) (b : Bool) : (c.putP n b).tinfob = c.tinfob := by unfold Ctx.putP; split <;> rfl

@[simp] theorem Ctx.putS_tseq (c : Ctx) (n : Fin 32) (x : Word) : (c.putS n x).tseq = c.tseq := by unfold Ctx.putS; split <;> rfl

@[simp] theorem Ctx.putP_tseq (c : Ctx) (n : Fin 8) (b : Bool) : (c.putP n b).tseq = c.tseq := by unfold Ctx.putP; split <;> rfl

@[simp] theorem Ctx.putS_lvl (c : Ctx) (n : Fin 32) (x : Word) : (c.putS n x).lvl = c.lvl := by unfold Ctx.putS; split <;> rfl

@[simp] theorem Ctx.putP_lvl (c : Ctx) (n : Fin 8) (b : Bool) : (c.putP n b).lvl = c.lvl := by unfold Ctx.putP; split <;> rfl

@[simp] theorem Ctx.putS_live (c : Ctx) (n : Fin 32) (x : Word) : (c.putS n x).live = c.live := by unfold Ctx.putS; split <;> rfl

@[simp] theorem Ctx.putP_live (c : Ctx) (n : Fin 8) (b : Bool) : (c.putP n b).live = c.live := by unfold Ctx.putP; split <;> rfl

@[simp] theorem Ctx.putS_wait (c : Ctx) (n : Fin 32) (x : Word) : (c.putS n x).wait = c.wait := by unfold Ctx.putS; split <;> rfl

@[simp] theorem Ctx.putP_wait (c : Ctx) (n : Fin 8) (b : Bool) : (c.putP n b).wait = c.wait := by unfold Ctx.putP; split <;> rfl

@[simp] theorem Ctx.putS_packet (c : Ctx) (n : Fin 32) (x : Word) : (c.putS n x).packet = c.packet := by unfold Ctx.putS; split <;> rfl

@[simp] theorem Ctx.putP_packet (c : Ctx) (n : Fin 8) (b : Bool) : (c.putP n b).packet = c.packet := by unfold Ctx.putP; split <;> rfl

@[simp] theorem Ctx.putS_prio (c : Ctx) (n : Fin 32) (x : Word) : (c.putS n x).prio = c.prio := by unfold Ctx.putS; split <;> rfl

@[simp] theorem Ctx.putP_prio (c : Ctx) (n : Fin 8) (b : Bool) : (c.putP n b).prio = c.prio := by unfold Ctx.putP; split <;> rfl

@[simp] theorem Ctx.putS_pts (c : Ctx) (n : Fin 32) (x : Word) : (c.putS n x).pts = c.pts := by unfold Ctx.putS; split <;> rfl

@[simp] theorem Ctx.putP_pts (c : Ctx) (n : Fin 8) (b : Bool) : (c.putP n b).pts = c.pts := by unfold Ctx.putP; split <;> rfl

@[simp] theorem Ctx.putS_discards (c : Ctx) (n : Fin 32) (x : Word) : (c.putS n x).discards = c.discards := by unfold Ctx.putS; split <;> rfl

@[simp] theorem Ctx.putP_discards (c : Ctx) (n : Fin 8) (b : Bool) : (c.putP n b).discards = c.discards := by unfold Ctx.putP; split <;> rfl

@[simp] theorem Ctx.putS_answers (c : Ctx) (n : Fin 32) (x : Word) : (c.putS n x).answers = c.answers := by unfold Ctx.putS; split <;> rfl

@[simp] theorem Ctx.putP_answers (c : Ctx) (n : Fin 8) (b : Bool) : (c.putP n b).answers = c.answers := by unfold Ctx.putP; split <;> rfl

@[simp] theorem Ctx.putS_errors (c : Ctx) (n : Fin 32) (x : Word) : (c.putS n x).errors = c.errors := by unfold Ctx.putS; split <;> rfl

@[simp] theorem Ctx.putP_errors (c : Ctx) (n : Fin 8) (b : Bool) : (c.putP n b).errors = c.errors := by unfold Ctx.putP; split <;> rfl

@[simp] theorem Ctx.putS_refusals (c : Ctx) (n : Fin 32) (x : Word) : (c.putS n x).refusals = c.refusals := by unfold Ctx.putS; split <;> rfl

@[simp] theorem Ctx.putP_refusals (c : Ctx) (n : Fin 8) (b : Bool) : (c.putP n b).refusals = c.refusals := by unfold Ctx.putP; split <;> rfl

@[simp] theorem Ctx.putS_iss (c : Ctx) (n : Fin 32) (x : Word) : (c.putS n x).iss = c.iss := by unfold Ctx.putS; split <;> rfl

@[simp] theorem Ctx.putP_iss (c : Ctx) (n : Fin 8) (b : Bool) : (c.putP n b).iss = c.iss := by unfold Ctx.putP; split <;> rfl

@[simp] theorem Ctx.putS_rref (c : Ctx) (n : Fin 32) (x : Word) : (c.putS n x).rref = c.rref := by unfold Ctx.putS; split <;> rfl

@[simp] theorem Ctx.putP_rref (c : Ctx) (n : Fin 8) (b : Bool) : (c.putP n b).rref = c.rref := by unfold Ctx.putP; split <;> rfl

@[simp] theorem Ctx.putS_capture (c : Ctx) (n : Fin 32) (x : Word) : (c.putS n x).capture = c.capture := by unfold Ctx.putS; split <;> rfl

@[simp] theorem Ctx.putP_capture (c : Ctx) (n : Fin 8) (b : Bool) : (c.putP n b).capture = c.capture := by unfold Ctx.putP; split <;> rfl

@[simp] theorem Ctx.putS_lineBuf (c : Ctx) (n : Fin 32) (x : Word) : (c.putS n x).lineBuf = c.lineBuf := by unfold Ctx.putS; split <;> rfl

@[simp] theorem Ctx.putP_lineBuf (c : Ctx) (n : Fin 8) (b : Bool) : (c.putP n b).lineBuf = c.lineBuf := by unfold Ctx.putP; split <;> rfl

@[simp] theorem Ctx.putS_stepBrk (c : Ctx) (n : Fin 32) (x : Word) : (c.putS n x).stepBrk = c.stepBrk := by unfold Ctx.putS; split <;> rfl

@[simp] theorem Ctx.putP_stepBrk (c : Ctx) (n : Fin 8) (b : Bool) : (c.putP n b).stepBrk = c.stepBrk := by unfold Ctx.putP; split <;> rfl

@[simp] theorem Ctx.putS_walking (c : Ctx) (n : Fin 32) (x : Word) : (c.putS n x).walking = c.walking := by unfold Ctx.putS; split <;> rfl

@[simp] theorem Ctx.putP_walking (c : Ctx) (n : Fin 8) (b : Bool) : (c.putP n b).walking = c.walking := by unfold Ctx.putP; split <;> rfl

@[simp] theorem Ctx.putS_behind (c : Ctx) (n : Fin 32) (x : Word) : (c.putS n x).behind = c.behind := by unfold Ctx.putS; split <;> rfl

@[simp] theorem Ctx.putP_behind (c : Ctx) (n : Fin 8) (b : Bool) : (c.putP n b).behind = c.behind := by unfold Ctx.putP; split <;> rfl

@[simp] theorem Ctx.putS_sent (c : Ctx) (n : Fin 32) (x : Word) : (c.putS n x).sent = c.sent := by unfold Ctx.putS; split <;> rfl

@[simp] theorem Ctx.putP_sent (c : Ctx) (n : Fin 8) (b : Bool) : (c.putP n b).sent = c.sent := by unfold Ctx.putP; split <;> rfl

@[simp] theorem Ctx.putS_pair (c : Ctx) (n : Fin 32) (x : Word) : (c.putS n x).pair = c.pair := by unfold Ctx.putS; split <;> rfl

@[simp] theorem Ctx.putP_pair (c : Ctx) (n : Fin 8) (b : Bool) : (c.putP n b).pair = c.pair := by unfold Ctx.putP; split <;> rfl

@[simp] theorem Ctx.putS_xinv (c : Ctx) (n : Fin 32) (x : Word) : (c.putS n x).xinv = c.xinv := by unfold Ctx.putS; split <;> rfl

@[simp] theorem Ctx.putP_xinv (c : Ctx) (n : Fin 8) (b : Bool) : (c.putP n b).xinv = c.xinv := by unfold Ctx.putP; split <;> rfl

end Sys2Proof.Machine
end

