-- ==== Sys2Proof/Laws/Memory.lean ====
section
/-! SUPPORT. What each shared operation does to memory: those that leave it, those that write it, and that every one keeps the
canonical form. -/
namespace Sys2Proof.Machine

/-! ### Memory as a filter and a fold of writes -/

theorem Memory.wfFrom_filter {lo : Nat} {m : Memory} (w : Memory.wfFrom lo m) (f : Nat × Byte → Bool) :
    Memory.wfFrom lo (m.filter f) := by
  induction m generalizing lo with
  | nil => rfl
  | cons e m ih =>
    simp only [Memory.wfFrom, Bool.and_eq_true, decide_eq_true_eq] at w
    rw [List.filter_cons]
    split
    · simp only [Memory.wfFrom, Bool.and_eq_true, decide_eq_true_eq]
      exact ⟨w.1, ih w.2⟩
    · exact Memory.wfFrom_mono (by omega) (ih w.2)

/-- Leaving out listed bytes keeps the canonical form. -/
theorem Memory.wf_filter {m : Memory} (w : m.wf) (f : Nat × Byte → Bool) : Memory.wf (m.filter f) := Memory.wfFrom_filter w f

/-- Writing a list of bytes one by one keeps the canonical form. -/
theorem Memory.wf_foldl_write {α : Type} (xs : List α) (a : α → Nat) (b : α → Byte) {m : Memory} (w : m.wf) :
    Memory.wf (xs.foldl (fun m x => Memory.write m (a x) (b x)) m) := by
  induction xs generalizing m with
  | nil => exact w
  | cons x xs ih => exact ih (Memory.wf_write w _ _)

/-- A fold of operations on the state that each keep the canonical form keeps it. -/
theorem wf_foldl {α : Type} (f : State → α → State) (hf : ∀ s x, s.mem.wf → (f s x).mem.wf) (xs : List α) {s : State}
    (w : s.mem.wf) : (xs.foldl f s).mem.wf := by
  induction xs generalizing s with
  | nil => exact w
  | cons x xs ih => exact ih (hf s x w)

/-- A fold of operations that each leave memory leaves it. -/
theorem mem_foldl {α : Type} (f : State → α → State) (hf : ∀ s x, (f s x).mem = s.mem) (xs : List α) (s : State) :
    (xs.foldl f s).mem = s.mem := by
  induction xs generalizing s with
  | nil => rfl
  | cons x xs ih => simp [ih, hf]

/-! ### Operations that leave memory -/

@[simp] theorem fillTlb_mem (s : State) (k : Nat) (x : Xlat) : (fillTlb s k x).mem = s.mem := by
  unfold fillTlb; split <;> rfl

@[simp] theorem ctrlSet_mem (s : State) (pa : Nat) (v : Word) : (ctrlSet s pa v).mem = s.mem := rfl

@[simp] theorem clearStop_mem (s : State) (p n : Nat) : (clearStop s p n).mem = s.mem := rfl

/-- R138: a slice's window leaves memory. -/
@[simp] theorem rollWindow_mem (s : State) (i : Nat) : (rollWindow s i).mem = s.mem := by
  unfold rollWindow; dsimp only; split <;> rfl

/-- R324: a write of a control register changes control space and accumulate windows only. -/
@[simp] theorem ctrlWrite_mem (s : State) (pa : Nat) (v : Word) : (ctrlWrite s pa v).mem = s.mem := by
  unfold ctrlWrite
  repeat' (first | rfl | exact rollWindow_mem _ _ | split)

/-- R358: a read at the home may poison a line, and leaves memory. -/
@[simp] theorem homeRead_mem (s : State) (who : Reader) (pa : Nat) : (homeRead s who pa).mem = s.mem := by
  simp [homeRead, apply_ite State.mem, ctrlSet]

@[simp] theorem loadHome_mem (s : State) (l ts : Nat) : (loadHome s l ts).1.mem = s.mem := rfl
@[simp] theorem storeHome_mem (s : State) (l ts : Nat) : (storeHome s l ts).1.mem = s.mem := rfl
@[simp] theorem homeLoad_mem (s : State) (key pa : Nat) : (homeLoad s key pa).mem = s.mem := by
  unfold homeLoad
  dsimp only
  split <;> rfl
@[simp] theorem loadAtHome_mem (s : State) (pa n : Nat) : (loadAtHome s pa n).1.mem = s.mem := homeLoad_mem s s.cur pa
@[simp] theorem goto_mem (s : State) (a : Word) : (s.goto a).mem = s.mem := rfl
@[simp] theorem refuse_mem (s : State) (va : Word) (pa : Nat) : (refuse s va pa).mem = s.mem := rfl
@[simp] theorem freeRing_mem (s : State) (k q : Nat) : (freeRing s k q).mem = s.mem := rfl
@[simp] theorem sendAnswer_mem (s : State) (d : Fin 32) (v : Word) (fl : BitVec 6) : (sendAnswer s d v fl).mem = s.mem := rfl
@[simp] theorem countRemote_mem (s : State) : (countRemote s).mem = s.mem := rfl
@[simp] theorem countWalk_mem (s : State) (k : Nat) : (countWalk s k).mem = s.mem := rfl
@[simp] theorem reportWrite_mem (s : State) (old : Memory) (pa n : Nat) : (reportWrite s old pa n).mem = s.mem := by
  unfold reportWrite; dsimp only; split <;> rfl
@[simp] theorem refuseAt_mem (s : State) (k : Nat) (va : Word) (pa : Nat) : (refuseAt s k va pa).mem = s.mem := rfl
@[simp] theorem takeClaim_mem (s : State) (k : Nat) (n : Fin 4) : (takeClaim s k n).mem = s.mem := rfl
@[simp] theorem sendAcc_mem (s : State) (k : Nat) (m : AccMsg) : (sendAcc s k m).mem = s.mem := rfl
@[simp] theorem startSend_mem (s : State) (k : Nat) (e : Residual) (src seq : Nat) : (startSend s k e src seq).mem = s.mem := rfl
@[simp] theorem sendAs_mem (s : State) (k : Nat) (e : Residual) (src seq : Nat) : (sendAs s k e src seq).mem = s.mem := by
  unfold sendAs; split <;> rfl
@[simp] theorem sendInsistent_mem (s : State) (k : Nat) (e : Residual) (src : Nat) : (sendInsistent s k e src).mem = s.mem := by
  unfold sendInsistent; split <;> simp
@[simp] theorem enqueue_mem (s : State) (g q p : Nat) (e : TqEntry) : (enqueue s g q p e).mem = s.mem := rfl

@[simp] theorem answerS_mem (s : State) (d : Fin 32) (v : Word) (fl : BitVec 6) (r : Bool) : (answerS s d v fl r).mem = s.mem := by
  cases r <;> rfl

@[simp] theorem answerZero_mem (s : State) (d : Option (Fin 32)) : (answerZero s d).mem = s.mem := by cases d <;> rfl

@[simp] theorem answerPhase_mem (s : State) (d : Fin 32) (v : Word) : (answerPhase s d v).mem = s.mem := rfl

/-- R151: a load leaves memory. -/
@[simp] theorem loadFor_mem (s : State) (key pa n : Nat) : (loadFor s key pa n).1.mem = s.mem := by
  unfold loadFor
  split
  · simp
  · dsimp only; split <;> simp

@[simp] theorem loadStep_mem (s : State) (pa n : Nat) : (loadStep s pa n).1.mem = s.mem := loadFor_mem s s.cur pa n

@[simp] theorem loadBytes_mem (s : State) (pa n : Nat) : (loadBytes s pa n).1.mem = s.mem := loadStep_mem s pa n

/-! ### Walks and fetches (R119, R270) -/

/-- Memory is as given where a result goes on, and in what a stop leaves. -/
def Keeps {α : Type} (m : Memory) (f : α → State) : Res α → Prop
  | .ok a => (f a).mem = m
  | .error (.trap _) => True
  | .error (.after s _) => s.mem = m
  | .error (.wait s) => s.mem = m

theorem Keeps.ok {α : Type} {m : Memory} {f : α → State} {r : Res α} {a : α} (h : Keeps m f r) (e : r = .ok a) : (f a).mem = m := by
  rwa [e] at h

/-- A stop that keeps memory is one whatever the result would have been. -/
theorem Keeps.stop {α β : Type} {m : Memory} {f : α → State} {g : β → State} {r : Res α} {e : Stop} (h : Keeps m f r) (x : r = .error e) :
    Keeps m g (.error e) := by
  rw [x] at h; cases e <;> exact h

theorem consumeAt_keeps {α : Type} (s : State) (f : α → State) (key pa : Nat) : Keeps s.mem f (consumeAt s key pa) := rfl

theorem walkLoad_keeps (key : Nat) (s : State) (a : Nat) : Keeps s.mem Prod.fst (walkLoad key s a) := by
  unfold walkLoad
  split
  · rfl
  · dsimp only
    split
    · exact homeRead_mem s .ctx a
    · simp [Keeps]

/-- R118: a walk keeps memory where each of its reads does. -/
theorem walkBy_keeps (read : State → Nat → Res (State × Nat)) (h : ∀ s a, Keeps s.mem Prod.fst (read s a)) (va : Nat) (s : State)
    (fuel level base : Nat) : Keeps s.mem Prod.fst (walkBy read va s fuel level base) := by
  induction fuel generalizing s level base with
  | zero => rfl
  | succ n ih =>
    unfold walkBy
    have hr := h s (base + 8 * levelIndex va level)
    split
    · exact hr.stop ‹_›
    · have hm := hr.ok ‹_›
      split
      · exact hm
      · rw [← hm]; exact ih _ _ _
      · exact hm

theorem walkStep_keeps (s : State) (key va : Nat) : Keeps s.mem Prod.fst (walkStep s key va) := by
  unfold walkStep
  dsimp only
  split
  · exact walkBy_keeps _ (walkLoad_keeps key) _ _ _ _ _
  · rfl

theorem fetchAt_keeps (s : State) (key : Nat) (a : Word) : Keeps s.mem Prod.fst (fetchAt s key a) := by
  have h := walkStep_keeps s key (a.toNat / 64 * 64)
  unfold fetchAt
  split
  · exact h.stop ‹_›
  · have hm := h.ok ‹_›
    dsimp only
    split <;> simpa [Keeps] using hm

/-- R57: looking at the line of a branch's target leaves memory. -/
theorem lookAhead_keeps (s : State) (key : Nat) (a : Word) : Keeps s.mem id (lookAhead s key a) := by
  have h := fetchAt_keeps s key a
  unfold lookAhead
  split
  · rfl
  · split
    · exact h.stop ‹_›
    · exact h.ok ‹_›
    · have hm := h.ok ‹_›
      dsimp only
      split
      · exact (homeRead_mem _ _ _).trans hm
      · exact (homeRead_mem _ _ _).trans hm

/-- R270: loading a run of lines leaves memory. -/
theorem loadRun_keeps (s : State) (key fuel : Nat) (a : Word) : Keeps s.mem Prod.fst (loadRun s key fuel a) := by
  induction fuel generalizing s a with
  | zero => rfl
  | succ n ih =>
    have h := fetchAt_keeps s key a
    unfold loadRun
    split
    · exact h.stop ‹_›
    · exact h.ok ‹_›
    · rename_i s1 pa e1
      have hm := (homeRead_mem s1 .ctx pa).trans (h.ok e1)
      dsimp only
      split
      · exact hm
      · split
        · exact hm
        · split
          · have := ih (homeRead s1 .ctx pa) (a + 64); rw [hm] at this; exact this.stop ‹_›
          · rename_i e2; have := ih (homeRead s1 .ctx pa) (a + 64); rw [hm] at this; have q := this.ok e2; exact q

/-- R123: the checks of an address leave memory. -/
theorem checkEA_keeps (s : State) (ea : Word) (al : Nat) (k : Kind) : Keeps s.mem Prod.fst (checkEA s ea al k) := by
  have h := walkStep_keeps s s.cur ea.toNat
  unfold checkEA
  dsimp only
  split
  · trivial
  · split
    · trivial
    · split
      · exact h.stop ‹_›
      · have hm := h.ok ‹_›
        split
        · exact hm
        · exact (fillTlb_mem _ _ _).trans hm

@[simp] theorem refill_mem (s : State) (key : Nat) (e : RingEntry) : (refill s key e).mem = s.mem := by
  unfold refill; split <;> rfl

@[simp] theorem dropCapture_mem (s : State) (key : Nat) : (dropCapture s key).mem = s.mem := by
  unfold dropCapture
  split
  · rfl
  · simp only [State.setCtx_mem, State.setCore_mem]
    exact mem_foldl _ (fun _ _ => refill_mem _ _ _) _ _

@[simp] theorem endPhase_mem (s : State) (k : Nat) : (endPhase s k).mem = s.mem := by
  unfold endPhase
  dsimp only
  split
  · rfl
  · refine (mem_foldl _ ?_ _ _).trans rfl
    intro s x
    rfl

@[simp] theorem dropPair_mem (s : State) (pid : Nat) : (dropPair s pid).mem = s.mem := by
  unfold dropPair
  split
  · rfl
  · dsimp only; split <;> rfl

@[simp] theorem passClaim_mem (s : State) (k : Nat) : (passClaim s k).mem = s.mem := by
  unfold passClaim
  dsimp only
  split
  · rfl
  · split
    · rfl
    · split <;> split <;> rfl

@[simp] theorem sendResidual_mem (s : State) (k : Nat) (r : Reach) (src : Nat) : (sendResidual s k r src).mem = s.mem := by
  unfold sendResidual
  exact mem_foldl _ (fun _ _ => sendInsistent_mem _ _ _ _) _ _

@[simp] theorem issueAcc_mem (s : State) (pa : Nat) (va : Word) (ex : Bool) (ty : Ty) (m : BitVec 16) (d : Nat) :
    (issueAcc s pa va ex ty m d).mem = s.mem := by
  unfold issueAcc
  dsimp only
  split
  · rfl
  · split
    · split <;> rfl
    · simp

@[simp] theorem absorbAnswers_mem (s : State) (key : Nat) (r : Reach) (w : Bool) : (absorbAnswers s key r w).mem = s.mem := rfl
@[simp] theorem absorbDiscards_mem (s : State) (key : Nat) (r : Reach) : (absorbDiscards s key r).mem = s.mem := rfl

/-- R143: the end and the beginning of a flush leave memory. -/
@[simp] theorem endFlush_mem (s : State) (key : Nat) (r : Reach) (a : After) : (endFlush s key r a).mem = s.mem := by
  have hp (t : State) (sc : Fin 8) : (loadPhase t key r sc).mem = t.mem := by
    have h := loadRun_keeps t key 512 ((t.getCtx key).pc &&& ~~~0x3F#64)
    unfold loadPhase
    split
    · exact h.ok ‹_›
    · have hm : Keeps t.mem Prod.fst (.error (.wait _) : Res (State × List (Word × Line))) := h.stop ‹_›
      split <;> exact hm
    · rfl
  unfold endFlush
  cases a <;> simp [hp]

@[simp] theorem beginFlush_mem (s : State) (key : Nat) (r : Reach) (a : After) : (beginFlush s key r a).mem = s.mem := by
  unfold beginFlush
  dsimp only
  split <;> simp

@[simp] theorem nextFlush_mem (s : State) (key : Nat) : (nextFlush s key).mem = s.mem := by
  unfold nextFlush
  dsimp only
  split <;> simp

/-- R143, R162: completing a flush or a fence leaves memory. -/
@[simp] theorem tryFlush_mem (s : State) (key : Nat) : (tryFlush s key).mem = s.mem := by
  unfold tryFlush
  split
  · split <;> simp
  · split <;> simp
  · rfl

@[simp] theorem tryFlushes_mem (s : State) (k : Nat) : (tryFlushes s k).mem = s.mem := mem_foldl _ (fun _ _ => tryFlush_mem _ _) _ _

@[simp] theorem startFlush_mem (s : State) (r : Reach) (a : After) : (startFlush s r a).mem = s.mem := by
  unfold startFlush
  split <;> simp

@[simp] theorem forwarded_mem (s : State) (pid : Nat) (a : Option Word × List Line) : (forwarded s pid a).mem = s.mem := by
  unfold forwarded
  split
  · rfl
  · dsimp only; split <;> rfl

@[simp] theorem taken_mem (s : State) (pid : Nat) : (taken s pid).mem = s.mem := by
  unfold taken; split <;> rfl

/-- R123: the checks of an address leave memory. -/
theorem checkEA_mem {s t : State} {ea : Word} {al pa : Nat} {k : Kind} (h : checkEA s ea al k = .ok (t, pa)) : t.mem = s.mem :=
  (checkEA_keeps s ea al k).ok h

theorem checkMode_mem {s t : State} {i : Instr} {ea : Word} {al pa : Nat} {m : Mode} (h : checkMode s i ea al m = .ok (t, pa)) :
    t.mem = s.mem := by
  unfold checkMode at h
  split at h
  · simp [raisePhase, raise] at h
  · cases m with
    | read => exact checkEA_mem h
    | write => exact checkEA_mem h
    | rmw =>
      dsimp only at h
      split at h
      · rename_i h1
        rw [checkEA_mem h, checkEA_mem h1]
      · simp at h

/-- R122, R123: an access that is granted or refused by the target leaves memory as it was. -/
theorem grantAs_mem {s : State} {i : Instr} {ea : Word} {al n : Nat} {c m : Mode} {w : Bool} {r : Grant}
    (h : grantAs s i ea al n c m w = .ok r) : r.s.mem = s.mem := by
  unfold grantAs at h
  split at h
  · simp at h
  · rename_i s1 pa h1
    rw [← checkMode_mem h1]
    extract_lets rd wr s2 at h
    have e : s2.mem = s1.mem := by simp [s2, apply_ite State.mem]
    clear_value s2
    split at h
    · simp [raiseFrom] at h
    · split at h
      · simp [raiseFrom] at h
      · split at h
        · simp only [stallOr] at h
          split at h <;> simp [raisePhase, raise, stall] at h
        · split at h
          · simp only [Except.ok.injEq] at h
            rw [← h, refuse_mem]
          · split at h
            · simp [consume, consumeAt] at h
            · simp only [Except.ok.injEq] at h
              rw [← h, e]

theorem grant_mem {s : State} {i : Instr} {ea : Word} {al n : Nat} {m : Mode} {w : Bool} {r : Grant}
    (h : grant s i ea al n m w = .ok r) : r.s.mem = s.mem := grantAs_mem h

/-! ### Operations that write memory -/

/-- R347: storing an entry of the log keeps the canonical form. -/
theorem putLogEntry_wf {s : State} (w : s.mem.wf) (g n : Nat) : (putLogEntry s g n).mem.wf := Memory.wf_foldl_write _ _ _ w

/-- R347: the log keeps the canonical form. -/
theorem logLine_wf {s : State} (w : s.mem.wf) (g l : Nat) : (logLine s g l).mem.wf := by
  unfold logLine
  dsimp only
  split
  · exact w
  · split
    · split
      · exact Memory.wf_writeLE w _ _ _
      · exact putLogEntry_wf w _ _
    · exact w

theorem putBytes_wf {s : State} (w : s.mem.wf) (g pa : Nat) (bs : List Byte) : (putBytes s g pa bs).mem.wf := by
  unfold putBytes
  dsimp only
  rw [reportWrite_mem]
  apply Memory.wf_writeBytes
  have h := logLine_wf w g (pa / 64)
  split <;> split <;> exact h

/-- R154, R167: a write-back keeps the canonical form. -/
theorem writeBackLine_wf {s : State} (w : s.mem.wf) (l : Nat) : (writeBackLine s l).mem.wf := by
  unfold writeBackLine
  dsimp only
  split
  · exact w
  · exact logLine_wf w _ _

theorem homeStep_wf {s : State} (w : s.mem.wf) (pa : Nat) (bs : List Byte) : (homeStep s pa bs).mem.wf :=
  putBytes_wf (s := ((storeHome s (pa / 64) s.ctx.pts).1.upd _)) w _ _ _

theorem storeStep_wf {s : State} (w : s.mem.wf) (pa : Nat) (bs : List Byte) : (storeStep s pa bs).mem.wf := by
  unfold storeStep
  apply homeStep_wf
  split <;> exact w

theorem rmwStep_wf {s : State} (w : s.mem.wf) (pa n : Nat) (f : List Byte → List Byte) : (rmwStep s pa n f).1.mem.wf :=
  homeStep_wf w _ _

theorem storeAt_wf {s : State} (w : s.mem.wf) (pa : Nat) (bs : List Byte) : (storeAt s pa bs).mem.wf := by
  unfold storeAt
  dsimp only
  split
  · exact w
  · apply storeStep_wf
    simp only [apply_ite State.mem, State.setLine_mem, ite_self, w]

theorem releaseStore_wf {s : State} (w : s.mem.wf) (k : Kept) : (releaseStore s k).mem.wf := by
  unfold releaseStore
  split
  · rw [ctrlWrite_mem]; exact w
  · extract_lets x s1
    have h : s1.mem.wf := by simp only [s1, apply_ite State.mem, State.setLine_mem, ite_self, w]
    clear_value s1 x
    split
    · exact storeStep_wf (s := { s1 with cur := k.src }) h _ _
    · exact putBytes_wf (s := (storeHome s1 (k.pa / 64) _).1.setCore _ _) h _ _ _

/-- R163: the discard of a line keeps the canonical form. -/
theorem discardLine_wf {s : State} (w : s.mem.wf) (pa : Nat) : (discardLine s pa).mem.wf := by
  unfold discardLine
  split
  · exact w
  · extract_lets l x wts s0 s1 y s2
    have h : s1.mem.wf := by
      simp only [s1]
      split
      · rw [reportWrite_mem]
        exact Memory.wf_writeBytes (logLine_wf w _ _) _ _
      · exact w
    clear_value s1 y
    split
    · exact writeBackLine_wf w l
    · exact h

theorem recordFault_wf {s : State} (w : s.mem.wf) (g c key : Nat) (tpc a b : Word) : (recordFault s g c key tpc a b).mem.wf := by
  unfold recordFault
  split
  · exact w
  · dsimp only
    split
    · exact Memory.wf_writeLE (Memory.wf_writeLE (Memory.wf_writeLE (Memory.wf_writeLE (Memory.wf_writeLE
        (Memory.wf_writeLE w _ _ _) _ _ _) _ _ _) _ _ _) _ _ _) _ _ _
    · exact Memory.wf_writeLE w _ _ _

theorem flushFaults_wf {s : State} (w : s.mem.wf) (key : Nat) : (flushFaults s key).mem.wf := by
  unfold flushFaults
  refine wf_foldl _ (fun s x h => ?_) _ w
  dsimp only
  split
  · exact recordFault_wf h _ _ _ _ _ _
  · exact h

theorem endContext_wf {s : State} (w : s.mem.wf) (key : Nat) : (endContext s key).mem.wf := by
  unfold endContext
  dsimp only
  rw [passClaim_mem]
  apply flushFaults_wf
  split <;> split <;> simpa using w

theorem enterTrap_wf {s : State} (w : s.mem.wf) (key : Nat) (t : TrapInfo) (imp : Bool) (q : Nat) :
    (enterTrap s key t imp q).mem.wf := by
  unfold enterTrap
  extract_lets k c here tpc s1 s2 c1 c2 s3 g
  have h : s3.mem.wf := by simp [s3, s2, s1, apply_ite State.mem, w]
  clear_value g s3 c2
  split
  · exact h
  · split
    · exact endContext_wf (recordFault_wf h _ _ _ _ _ _) _
    · split
      · exact endContext_wf (recordFault_wf h _ _ _ _ _ _) _
      · split
        · exact endContext_wf (recordFault_wf h _ _ _ _ _ _) _
        · exact h

theorem takeTrap_wf {s : State} (w : s.mem.wf) (t : TrapInfo) : (takeTrap s t).mem.wf :=
  enterTrap_wf (s := s.upd _) w _ _ _ _

theorem branchTo_mem {s t : State} {a : Word} {b : Bool} (h : branchTo s a b = .ok t) : t.mem = s.mem := by
  have hm := lookAhead_keeps s s.cur a
  unfold branchTo at h
  split at h
  · simp at h
  · have := hm.ok ‹_›
    split at h
    · simp [raiseFrom] at h
    · simp only [Except.ok.injEq] at h
      rw [← h, goto_mem]; exact this

/-- The state of a stop that leaves some effects done, or that waits, has a canonical memory. -/
def Stop.Wf : Stop → Prop
  | .trap _ => True
  | .after s _ => s.mem.wf
  | .wait s => s.mem.wf

/-- What a meaning answers keeps the canonical form when its effect, or what its stop leaves, has it. -/
theorem finish_wf {s t : State} {r : Res State} (w : s.mem.wf) (hok : ∀ u, r = .ok u → u.mem.wf) (hst : ∀ e, r = .error e → e.Wf)
    (h : finish s r = .next t) : t.mem.wf := by
  unfold finish at h
  split at h <;> simp only [Host.Outcome.next.injEq] at h <;> subst h
  · exact hok _ rfl
  · exact takeTrap_wf w _
  · exact takeTrap_wf (hst _ rfl) _
  · exact hst _ rfl

/-- R131, R167: restoring a scratchpad keeps the canonical form. -/
theorem restorePad_wf {s : State} (w : s.mem.wf) (r : Restore) (img : CoreImage) : (restorePad s r img).mem.wf := by
  unfold restorePad
  extract_lets base within s1 s2
  have h : s1.mem.wf := Memory.wf_foldl_write _ _ _ (Memory.wf_filter w _)
  have h2 : s2.mem.wf := wf_foldl (fun s x => s.setLine _ _) (fun _ _ h => h) _ h
  clear_value s1 s2
  refine wf_foldl _ ?_ _ h2
  intro s x h
  simpa only [storeHome_mem] using Memory.wf_writeBytes h (base + x * 64) discardFill

/-- R350: writing the log back keeps the canonical form. -/
theorem writeLogBack_wf {s : State} (w : s.mem.wf) (log : SMap (Line × Option Line)) : (writeLogBack s log).mem.wf :=
  wf_foldl _ (fun _ _ h => Memory.wf_writeBytes h _ _) _ w

theorem place_wf {s : State} (w : s.mem.wf) (nbits x : Nat) : (place s nbits x).mem.wf :=
  Memory.wf_writeLE (Memory.wf_writeLE (Memory.wf_writeLE w _ _ _) _ _ _) _ _ _

/-! ### What a store does -/

theorem Memory.read_foldl_write {α : Type} (xs : List α) (f : α → Nat) (b : α → Byte) (m : Memory) {a : Nat} (h : ∀ x ∈ xs, f x ≠ a) :
    (xs.foldl (fun m x => m.write (f x) (b x)) m).read a = m.read a := by
  induction xs generalizing m with
  | nil => rfl
  | cons x xs ih =>
    rw [List.foldl_cons, ih _ (fun y hy => h y (List.mem_cons_of_mem _ hy)), Memory.read_write_ne _ _ _ _ (Ne.symm (h x List.mem_cons_self))]

/-- R347: storing an entry of the log writes its bytes only. -/
theorem putLogEntry_read (s : State) (g n a : Nat) (h : a ∉ logEntry s g n) : (putLogEntry s g n).mem.read a = s.mem.read a :=
  Memory.read_foldl_write _ _ _ _ (fun _ hx e => h (e ▸ List.fst_mem_of_mem_zipIdx hx))

/-- R347: the log writes at most the UNPROT word of the gang's fault record and the bytes of its next entry. -/
theorem logLine_read (s : State) (g l a : Nat)
    (h : ∀ u, faultRec s g 1 = some u → a < u ∨ u + 8 ≤ a) (hl : a ∉ logEntry s g (s.getGang g).log.length) :
    (logLine s g l).mem.read a = s.mem.read a := by
  unfold logLine
  dsimp only
  split
  · rfl
  · split
    · rename_i h1 h2
      split
      · exact Memory.read_writeBytes_out _ _ _ _ (by rw [Bits.length_bytesLE]; exact h _ h2)
      · exact putLogEntry_read s g _ a hl
    · rfl

/-- R148: bytes put at pa read back. -/
theorem putBytes_bytes {s : State} (w : s.mem.wf) (g pa : Nat) (bs : List Byte) : (putBytes s g pa bs).mem.bytes pa bs.length = bs := by
  unfold putBytes
  dsimp only
  rw [reportWrite_mem]
  apply Memory.bytes_writeBytes
  have h := logLine_wf w g (pa / 64)
  split <;> split <;> exact h

/-- R148, R347: every byte outside those put, the UNPROT word and the log's next entry reads as before. -/
theorem putBytes_read (s : State) (g pa a : Nat) (bs : List Byte) (ha : a < pa ∨ pa + bs.length ≤ a)
    (h : ∀ u, faultRec s g 1 = some u → a < u ∨ u + 8 ≤ a) (hl : a ∉ logEntry s g (s.getGang g).log.length) :
    (putBytes s g pa bs).mem.read a = s.mem.read a := by
  rw [← logLine_read s g (pa / 64) a h hl]
  unfold putBytes
  dsimp only
  rw [reportWrite_mem]
  dsimp only
  rw [Memory.read_writeBytes_out _ _ _ _ ha]
  split <;> split <;> rfl

/-- R348: a store that leaves the gang is kept for the commit. -/
theorem storeAt_kept {s : State} {pa : Nat} (bs : List Byte) (h : s.gangId ≠ 0) (l : leavesGang s.gang pa = true) :
    storeAt s pa bs = s.updGang (fun g => { g with kept := g.kept ++ [⟨pa, bs, s.cur, none⟩] }) := by
  simp [storeAt, h, l]

/-- R152: a store that stays in the gang writes its bytes. -/
theorem storeAt_bytes {s : State} (w : s.mem.wf) {pa : Nat} (bs : List Byte) (h : s.gangId = 0 ∨ leavesGang s.gang pa = false) :
    (storeAt s pa bs).mem.bytes pa bs.length = bs := by
  unfold storeAt
  extract_lets gang m s1
  rw [if_neg (by rcases h with h | h <;> simp [gang, h])]
  have h1 : s1.mem.wf := by simp [s1, apply_ite State.mem, w]
  clear_value s1
  unfold storeStep
  refine putBytes_bytes (s := (storeHome _ _ _).1.upd _) ?_ _ _ _
  split <;> exact h1

end Sys2Proof.Machine
end

