-- ==== Sys2Proof/Laws/Ops.lean ====
section
/-! SUPPORT. What each shared operation of a context can do, said once: branches, checks of an address, granted accesses, messages,
answers, and what a meaning answers. -/
namespace Sys2Proof.Machine

/-- R57: a branch that succeeds has read the line of its target, has passed its checks, and goes there. -/
theorem branchTo_ok_iff {s t : State} {a : Word} {b : Bool} :
    branchTo s a b = .ok t ↔ ∃ u, lookAhead s s.cur a = .ok u ∧ targetCause u u.cur a b = none ∧ t = u.goto a := by
  unfold branchTo
  split
  · simp [*]
  · rename_i u h
    split <;> rename_i h1 <;> simp [h, h1, raiseFrom, eq_comm]

theorem branchTo_raise {s u : State} {a : Word} {b : Bool} {c : Nat} (l : lookAhead s s.cur a = .ok u) (h : targetCause u u.cur a b = some c) :
    branchTo s a b = raiseFrom u c a 0 := by simp [branchTo, l, h]

theorem branchTo_goto {s u : State} {a : Word} {b : Bool} (l : lookAhead s s.cur a = .ok u) (h : targetCause u u.cur a b = none) :
    branchTo s a b = .ok (u.goto a) := by
  simp [branchTo, l, h]

/-- R117, R119, R123: an address that passes its checks is in reach, is aligned, and has been walked and translated. -/
theorem checkEA_ok_iff {s t : State} {ea : Word} {al pa : Nat} {k : Kind} :
    checkEA s ea al k = .ok (t, pa) ↔
      ((nearOff ea.toNat).isSome ∨ ea.toNat < 2 ^ 57) ∧ ea.toNat % al = 0 ∧
      ∃ u found x, walkStep s s.cur ea.toNat = .ok (u, found) ∧ xlateWith u u.coreKey u.gangId ea.toNat k found = .ok x ∧
        t = fillTlb u u.coreKey x ∧ pa = x.pa := by
  unfold checkEA
  extract_lets va
  by_cases h1 : ((nearOff va).isNone && decide (2 ^ 57 ≤ va)) = true
  · have : ¬ ((nearOff va).isSome ∨ va < 2 ^ 57) := by
      simp only [Bool.and_eq_true, Option.isNone_iff_eq_none, decide_eq_true_eq] at h1
      simp [h1.1]; omega
    rw [if_pos h1]
    simp only [raise, reduceCtorEq, false_iff]
    exact fun h => this h.1
  · have : (nearOff va).isSome ∨ va < 2 ^ 57 := by
      cases h : nearOff va <;> simp_all
    rw [if_neg h1]
    by_cases h2 : va % al = 0
    · rw [if_neg (by simpa using h2)]
      rcases h3 : walkStep s s.cur va with e | ⟨u, found⟩
      · simp
      · dsimp only
        cases h4 : xlateWith u u.coreKey u.gangId va k found with
        | error e =>
          simp only [raiseFrom, reduceCtorEq, false_iff]
          rintro ⟨-, -, v, f, x, hv, hx, -⟩
          cases hv
          rw [h4] at hx
          cases hx
        | ok x =>
          simp only [Except.ok.injEq, Prod.mk.injEq]
          constructor
          · rintro ⟨rfl, rfl⟩; exact ⟨this, h2, u, found, x, ⟨rfl, rfl⟩, h4, rfl, rfl⟩
          · rintro ⟨-, -, v, f, y, ⟨rfl, rfl⟩, hy, rfl, rfl⟩
            rw [h4] at hy
            cases hy
            exact ⟨rfl, rfl⟩
    · rw [if_pos h2]
      simp only [raise, reduceCtorEq, false_iff]
      exact fun h => h2 h.2.1

/-- R122, R324, R348, R357: an access that is granted has passed its checks; a refusal is noted in the context, and a read at the home
may have poisoned the line. -/
theorem grantAs_ok {s : State} {i : Instr} {ea : Word} {al n : Nat} {c m : Mode} {w : Bool} {r : Grant}
    (h : grantAs s i ea al n c m w = .ok r) :
    ∃ u, checkMode s i ea al c = .ok (u, r.pa) ∧ (paReg r.pa = 2 → w = true) ∧ overlapping u.core r.pa n = none ∧
      ((m ≠ .write → coveredByKept u.gang r.pa n = false)) ∧
      (r.refused = true → r.s = refuse u ea r.pa) ∧
      (r.refused = false → r.s = if m ≠ .write then homeRead u .ctx r.pa else u) := by
  unfold grantAs at h
  split at h
  · simp at h
  · rename_i s1 pa h1
    extract_lets rd wr s2 at h
    split at h
    · simp [raiseFrom] at h
    · rename_i h2
      split at h
      · simp [raiseFrom] at h
      · rename_i h3
        split at h
        · simp only [stallOr] at h
          split at h <;> simp [raisePhase, raise, stall] at h
        · rename_i h4
          have hw : paReg pa = 2 → w = true := by intro hp; simpa [hp] using h2
          have hk : m ≠ .write → coveredByKept s1.gang pa n = false := by intro hm; simpa [rd, hm] using h3
          split at h
          · simp only [Except.ok.injEq] at h
            subst h
            exact ⟨s1, h1, hw, h4, hk, fun _ => rfl, by simp⟩
          · split at h
            · simp [consume, consumeAt] at h
            · simp only [Except.ok.injEq] at h
              subst h
              refine ⟨s1, h1, hw, h4, hk, by simp, fun _ => ?_⟩
              simp only [s2, rd]

/-- R183: a context that is no paired copy performs its messages itself. -/
theorem message_solo {s : State} (h : s.ctx.pair = none) (x : BitVec 32) : message s x = .ok .solo := by simp [message, h]

/-- The acting group's accesses are all made in the present step: no paired copy, no access made before, and no limit of the agenda. -/
theorem performOnce_whole {s : State} (h : s.ctx.pair = none) (hs : s.ctx.sent = []) (hn : s.steps = none)
    (perform : State → State × (Option Word × List Line)) : performOnce s perform = .ok (perform s) := by
  simp [performOnce, h, hs, hn]

theorem exchange_solo {s : State} (h : s.ctx.pair = none) (hs : s.ctx.sent = []) (hn : s.steps = none) (kind addr : Nat) (data : List Byte)
    (perform : State → State × (Option Word × List Line)) : exchange s kind addr data perform = .ok (perform s) := by
  simp [exchange, repeated, message, performOnce_whole h hs hn, h, hs]

theorem exchangeAt_solo {s : State} (h : s.ctx.pair = none) (hs : s.ctx.sent = []) (hn : s.steps = none) (kind pa : Nat) (data : List Byte)
    (perform : State → State × (Option Word × List Line)) : exchangeAt s kind pa data perform = .ok (perform s) := by
  unfold exchangeAt
  split
  · simp [repeated, hs, performOnce_whole h hs hn]
  · exact exchange_solo h hs hn _ _ _ _

theorem asMessage_solo {s : State} (h : s.ctx.pair = none) (hs : s.ctx.sent = []) (hn : s.steps = none) (kind addr : Nat) (data : List Byte)
    (perform : State → State × (Option Word × List Line)) (take : State → Option Word × List Line → State) :
    asMessage s kind addr data perform take = .ok (take (perform s).1 (perform s).2) := by
  simp only [asMessage, exchange_solo h hs hn]

theorem accessMessage_solo {s : State} (h : s.ctx.pair = none) (hs : s.ctx.sent = []) (hn : s.steps = none) (kind pa : Nat)
    (data : List Byte) (perform : State → State × (Option Word × List Line)) (take : State → Option Word × List Line → State) :
    accessMessage s kind pa data perform take = .ok (take (perform s).1 (perform s).2) := by
  simp only [accessMessage, exchangeAt_solo h hs hn]

/-- R94: an answer is either written at once, or sent and its register empty. -/
theorem answerS_eq (s : State) (d : Fin 32) (v : Word) (fl : BitVec 6) (r : Bool) :
    answerS s d v fl r = if r then sendAnswer s d v fl else (s.putS d v).flag fl := by cases r <;> rfl

/-- What a meaning answers is a next state: it never faults and never refuses. -/
theorem finish_next (s : State) (r : Res State) : ∃ t, finish s r = .next t := by
  unfold finish; split <;> exact ⟨_, rfl⟩

/-- R329: a trap of the acting context marks its group, takes two free values, and is otherwise its entry. -/
theorem takeTrap_ctxs (s : State) (t : TrapInfo) :
    (takeTrap s t).ctxs = (enterTrap (s.upd (fun c => { c with pc := s.grp.first })) s.cur (unsaid s t) false 0).ctxs ∧
    (takeTrap s t).grp.trapped = true := ⟨rfl, rfl⟩

/-- R330: a return from a trap without an active one raises 0x4B. -/
theorem returnTrap_inactive {s : State} (h : s.ctx.tcause.getLsbD 63 = false) : returnTrap s = raise 0x4B 0 0 := by
  unfold returnTrap
  rw [if_pos (by rw [h]; rfl)]

/-- R151: the timestamps after a load at the home. -/
theorem loadHome_line (s : State) (l ts : Nat) :
    (loadHome s l ts).2 = max ts (s.getLine l).wts ∧
    (loadHome s l ts).1.getLine l = { s.getLine l with rts := max (s.getLine l).rts (max ts (s.getLine l).wts + Config.lease) } := by
  simp [loadHome, State.getLine, State.setLine, mget_mset_same]

/-- R152: the timestamps after a store. -/
theorem storeHome_line (s : State) (l ts : Nat) :
    let x := max ts ((s.getLine l).rts + 1)
    (storeHome s l ts).2 = x ∧ (storeHome s l ts).1.getLine l = { s.getLine l with wts := x, rts := x } := by
  simp [storeHome, State.getLine, State.setLine, mget_mset_same]

end Sys2Proof.Machine
end

