-- ==== Sys2Proof/Laws/PerInstr.lean ====
section
/-! SUPPORT. For every instruction: the fields it is encoded in build it again. -/
namespace Sys2Proof.Laws.Built

/-- The fields that the encoding tables give an instruction build that instruction (R58, and the encoding table of each class). -/
def Statement (i : Instr) : Prop := WellFormed i → ∀ f, i.fields = some f → build f = i

theorem nop : Statement (.nop) := by
  intro _ f h; cases h; rfl

theorem add (g : Guard) (t : Ty) (sat : Bool) (d : Opnd) (a : Opnd) (b : Opnd) : Statement (.add g t sat d a b) := by
  intro _ f h; cases h
  show Instr.add _ _ _ _ _ _ = _
  simp

theorem sub (g : Guard) (t : Ty) (sat : Bool) (d : Opnd) (a : Opnd) (b : Opnd) : Statement (.sub g t sat d a b) := by
  intro _ f h; cases h
  show Instr.sub _ _ _ _ _ _ = _
  simp

theorem mul (g : Guard) (t : Ty) (sat : Bool) (d : Opnd) (a : Opnd) (b : Opnd) : Statement (.mul g t sat d a b) := by
  intro _ f h; cases h
  show Instr.mul _ _ _ _ _ _ = _
  simp

theorem mulh (g : Guard) (t : Ty) (d : Opnd) (a : Opnd) (b : Opnd) : Statement (.mulh g t d a b) := by
  intro _ f h; cases h
  show Instr.mulh _ _ _ _ _ = _
  simp

theorem div (g : Guard) (t : Ty) (d : Opnd) (a : Opnd) (b : Opnd) : Statement (.div g t d a b) := by
  intro _ f h; cases h
  show Instr.div _ _ _ _ _ = _
  simp

theorem rem (g : Guard) (t : Ty) (d : Opnd) (a : Opnd) (b : Opnd) : Statement (.rem g t d a b) := by
  intro _ f h; cases h
  show Instr.rem _ _ _ _ _ = _
  simp

theorem and (g : Guard) (t : Ty) (d : Opnd) (a : Opnd) (b : Opnd) : Statement (.and g t d a b) := by
  intro _ f h; cases h
  show Instr.and _ _ _ _ _ = _
  simp

theorem or (g : Guard) (t : Ty) (d : Opnd) (a : Opnd) (b : Opnd) : Statement (.or g t d a b) := by
  intro _ f h; cases h
  show Instr.or _ _ _ _ _ = _
  simp

theorem xor (g : Guard) (t : Ty) (d : Opnd) (a : Opnd) (b : Opnd) : Statement (.xor g t d a b) := by
  intro _ f h; cases h
  show Instr.xor _ _ _ _ _ = _
  simp

theorem andn (g : Guard) (t : Ty) (d : Opnd) (a : Opnd) (b : Opnd) : Statement (.andn g t d a b) := by
  intro _ f h; cases h
  show Instr.andn _ _ _ _ _ = _
  simp

theorem shl (g : Guard) (t : Ty) (d : Opnd) (a : Opnd) (b : Opnd) : Statement (.shl g t d a b) := by
  intro _ f h; cases h
  show Instr.shl _ _ _ _ _ = _
  simp

theorem shr (g : Guard) (t : Ty) (d : Opnd) (a : Opnd) (b : Opnd) : Statement (.shr g t d a b) := by
  intro _ f h; cases h
  show Instr.shr _ _ _ _ _ = _
  simp

theorem sha (g : Guard) (t : Ty) (d : Opnd) (a : Opnd) (b : Opnd) : Statement (.sha g t d a b) := by
  intro _ f h; cases h
  show Instr.sha _ _ _ _ _ = _
  simp

theorem rot (g : Guard) (t : Ty) (d : Opnd) (a : Opnd) (b : Opnd) : Statement (.rot g t d a b) := by
  intro _ f h; cases h
  show Instr.rot _ _ _ _ _ = _
  simp

theorem min (g : Guard) (t : Ty) (d : Opnd) (a : Opnd) (b : Opnd) : Statement (.min g t d a b) := by
  intro _ f h; cases h
  show Instr.min _ _ _ _ _ = _
  simp

theorem max (g : Guard) (t : Ty) (d : Opnd) (a : Opnd) (b : Opnd) : Statement (.max g t d a b) := by
  intro _ f h; cases h
  show Instr.max _ _ _ _ _ = _
  simp

theorem cmp (g : Guard) (t : Ty) (cc : Cond) (d : Fin 8) (a : Opnd) (b : Opnd) : Statement (.cmp g t cc d a b) := by
  intro _ f h; cases h
  show Instr.cmp _ _ _ _ _ _ = _
  simp

theorem sel (g : Guard) (d : Opnd) (a : Opnd) (b : Opnd) (c : Fin 8) : Statement (.sel g d a b c) := by
  intro _ f h; cases h
  show Instr.sel _ _ _ _ _ = _
  simp

theorem clz (g : Guard) (t : Ty) (d : Opnd) (a : Opnd) : Statement (.clz g t d a) := by
  intro _ f h; cases h
  show Instr.clz _ _ _ _ = _
  simp

theorem ctz (g : Guard) (t : Ty) (d : Opnd) (a : Opnd) : Statement (.ctz g t d a) := by
  intro _ f h; cases h
  show Instr.ctz _ _ _ _ = _
  simp

theorem popc (g : Guard) (t : Ty) (d : Opnd) (a : Opnd) : Statement (.popc g t d a) := by
  intro _ f h; cases h
  show Instr.popc _ _ _ _ = _
  simp

theorem brev (g : Guard) (t : Ty) (d : Opnd) (a : Opnd) : Statement (.brev g t d a) := by
  intro _ f h; cases h
  show Instr.brev _ _ _ _ = _
  simp

theorem ext (g : Guard) (t : Ty) (d : Opnd) (a : Opnd) (x : ExtField) : Statement (.ext g t d a x) := by
  intro _ f h; cases h
  show Instr.ext _ _ _ _ _ = _
  simp

theorem ins (g : Guard) (t : Ty) (d : Opnd) (a : Opnd) (b : Opnd) (pos : BitVec 6) (len : BitVec 6) : Statement (.ins g t d a b pos len) := by
  intro _ f h; cases h
  show Instr.ins _ _ _ _ _ _ _ = _
  simp [immFld_low 6 6 (by decide), immFld_high 6 6 (by decide)]

theorem addi (g : Guard) (t : Ty) (d : Opnd) (a : Opnd) (imm : BitVec 44) : Statement (.addi g t d a imm) := by
  intro _ f h; cases h
  show Instr.addi _ _ _ _ _ = _
  simp

theorem movi (g : Guard) (t : Ty) (d : Opnd) (imm : BitVec 44) : Statement (.movi g t d imm) := by
  intro _ f h; cases h
  show Instr.movi _ _ _ _ = _
  simp

theorem movh (g : Guard) (d : Opnd) (a : Option (Fin 32)) (imm : BitVec 20) : Statement (.movh g d a imm) := by
  intro _ f h; cases h
  show Instr.movh _ _ _ _ = _
  simp [immFld_one]

theorem lea (g : Guard) (d : Fin 32) (m : Mem) : Statement (.lea g d m) := by
  intro _ f h; cases h
  show Instr.lea _ _ _ = _
  simp

theorem mov (g : Guard) (d : Opnd) (a : Opnd) : Statement (.mov g d a) := by
  intro _ f h; cases h
  show Instr.mov _ _ _ = _
  simp

theorem plog (g : Guard) (fn : PlogFn) (d : Fin 8) (a : Fin 8) (b : Option (Fin 8)) : Statement (.plog g fn d a b) := by
  intro _ f h; cases h
  show Instr.plog _ _ _ _ _ = _
  simp

theorem chk (g : Guard) (t : Ty) (a : Opnd) (b : Opnd) (c : Opnd) : Statement (.chk g t a b c) := by
  intro _ f h; cases h
  show Instr.chk _ _ _ _ _ = _
  simp

theorem br (g : Guard) (tg : Target) : Statement (.br g tg) := by
  intro _ f h; cases h
  show Instr.br _ _ = _
  simp

theorem brx (g : Guard) (a : Fin 32) : Statement (.brx g a) := by
  intro _ f h; cases h
  show Instr.brx _ _ = _
  simp

theorem call (g : Guard) (tg : Target) : Statement (.call g tg) := by
  intro _ f h; cases h
  show Instr.call _ _ = _
  simp

theorem callx (g : Guard) (a : Fin 32) : Statement (.callx g a) := by
  intro _ f h; cases h
  show Instr.callx _ _ = _
  simp

theorem ret (g : Guard) : Statement (.ret g) := by
  intro _ f h; cases h
  show Instr.ret _ = _
  simp

theorem loop (g : Guard) (a : Fin 32) (tg : Target) : Statement (.loop g a tg) := by
  intro _ f h; cases h
  show Instr.loop _ _ _ = _
  simp

theorem yield (g : Guard) : Statement (.yield g) := by
  intro _ f h; cases h
  show Instr.yield _ = _
  simp

theorem follow (g : Guard) (dir : Dir) (a : Opnd) : Statement (.follow g dir a) := by
  intro _ f h; cases h
  show Instr.follow _ _ _ = _
  simp

theorem detach (g : Guard) : Statement (.detach g) := by
  intro _ f h; cases h
  show Instr.detach _ = _
  simp

theorem lead (g : Guard) (a : Opnd) : Statement (.lead g a) := by
  intro _ f h; cases h
  show Instr.lead _ _ = _
  simp

theorem ld (g : Guard) (t : Ty) (d : Opnd) (m : Mem) : Statement (.ld g t d m) := by
  intro _ f h; cases h
  show Instr.ld _ _ _ _ = _
  simp

theorem st (g : Guard) (t : Ty) (d : Opnd) (m : Mem) : Statement (.st g t d m) := by
  intro _ f h; cases h
  show Instr.st _ _ _ _ = _
  simp

theorem ldv (g : Guard) (d : Fin 32) (m : Mem) (str : Option (Fin 32)) : Statement (.ldv g d m str) := by
  intro _ f h; cases h
  show Instr.ldv _ _ _ _ = _
  simp

theorem stv (g : Guard) (d : Fin 32) (m : Mem) (str : Option (Fin 32)) : Statement (.stv g d m str) := by
  intro _ f h; cases h
  show Instr.stv _ _ _ _ = _
  simp

theorem ldl (g : Guard) (t : Ty) (d : Fin 32) (m : Mem) : Statement (.ldl g t d m) := by
  intro _ f h; cases h
  show Instr.ldl _ _ _ _ = _
  simp

theorem pref (g : Guard) (slice : Bool) (m : Mem) : Statement (.pref g slice m) := by
  intro _ f h; cases h
  show Instr.pref _ _ _ = _
  simp

theorem wbl (g : Guard) (inv : Bool) (m : Mem) : Statement (.wbl g inv m) := by
  intro _ f h; cases h
  show Instr.wbl _ _ _ = _
  simp

theorem disc (g : Guard) (clear : Bool) (c : Fin 32) (m : Mem) : Statement (.disc g clear c m) := by
  intro _ f h; cases h
  show Instr.disc _ _ _ _ = _
  simp

theorem xlat (g : Guard) (kind : XlatKind) (d : Fin 32) (m : Mem) : Statement (.xlat g kind d m) := by
  intro _ f h; cases h
  show Instr.xlat _ _ _ _ = _
  simp

theorem amo (g : Guard) (t : Ty) (fn : AmoFn) (d : Option (Fin 32)) (c : Opnd) (m : Mem) : Statement (.amo g t fn d c m) := by
  intro _ f h; cases h
  show Instr.amo _ _ _ _ _ _ = _
  simp

theorem cas (g : Guard) (t : Ty) (d : Fin 32) (c : Opnd) (m : Mem) : Statement (.cas g t d c m) := by
  intro _ f h; cases h
  show Instr.cas _ _ _ _ _ = _
  simp

theorem acc (g : Guard) (t : Ty) (exact : Bool) (d : Fin 32) (m : Mem) : Statement (.acc g t exact d m) := by
  intro _ f h; cases h
  show Instr.acc _ _ _ _ _ = _
  simp

theorem accv (g : Guard) (t : Ty) (exact : Bool) (d : Fin 32) (m : Mem) : Statement (.accv g t exact d m) := by
  intro _ f h; cases h
  show Instr.accv _ _ _ _ _ = _
  simp

theorem rflush (g : Guard) (r : Reach) : Statement (.rflush g r) := by
  intro _ f h; cases h
  show Instr.rflush _ _ = _
  simp

theorem rstat (g : Guard) (d : Fin 32) : Statement (.rstat g d) := by
  intro _ f h; cases h
  show Instr.rstat _ _ = _
  simp

theorem xrd (g : Guard) (d : Fin 32) (m : Mem) : Statement (.xrd g d m) := by
  intro _ f h; cases h
  show Instr.xrd _ _ _ = _
  simp

theorem xclr (g : Guard) (c : Opnd) (m : Mem) : Statement (.xclr g c m) := by
  intro _ f h; cases h
  show Instr.xclr _ _ _ = _
  simp

theorem fld (g : Guard) (d : Fin 32) (c : Option (Fin 32)) (m : Mem) : Statement (.fld g d c m) := by
  intro _ f h; cases h
  show Instr.fld _ _ _ _ = _
  simp

theorem fst (g : Guard) (d : Fin 32) (m : Mem) : Statement (.fst g d m) := by
  intro _ f h; cases h
  show Instr.fst _ _ _ = _
  simp

theorem frst (g : Guard) (m : Mem) : Statement (.frst g m) := by
  intro _ f h; cases h
  show Instr.frst _ _ = _
  simp

theorem bar (g : Guard) (scope : Fin 8) : Statement (.bar g scope) := by
  intro _ f h; cases h
  show Instr.bar _ _ = _
  simp

theorem sstep (g : Guard) : Statement (.sstep g) := by
  intro _ f h; cases h
  show Instr.sstep _ = _
  simp

theorem spawn (g : Guard) (m : Mem) : Statement (.spawn g m) := by
  intro _ f h; cases h
  show Instr.spawn _ _ = _
  simp

theorem done (g : Guard) : Statement (.done g) := by
  intro _ f h; cases h
  show Instr.done _ = _
  simp

theorem join (g : Guard) (d : Option (Fin 32)) (m : Mem) : Statement (.join g d m) := by
  intro _ f h; cases h
  show Instr.join _ _ _ = _
  simp

theorem qput (g : Guard) (a : Fin 32) (b : Opnd) (lim : BitVec 24) : Statement (.qput g a b lim) := by
  intro _ f h; cases h
  show Instr.qput _ _ _ _ = _
  simp [immFld_one]

theorem qget (g : Guard) (d : Fin 32) (a : Fin 32) (lim : BitVec 24) : Statement (.qget g d a lim) := by
  intro _ f h; cases h
  show Instr.qget _ _ _ _ = _
  simp [immFld_one]

theorem waite (g : Guard) (t : Ty) (cc : Cond) (d : Option (Fin 32)) (a : Fin 32) (b : Opnd) (lim : BitVec 24) : Statement (.waite g t cc d a b lim) := by
  intro _ f h; cases h
  show Instr.waite _ _ _ _ _ _ _ = _
  simp [immFld_one]

theorem fence (g : Guard) (r : Reach) : Statement (.fence g r) := by
  intro _ f h; cases h
  show Instr.fence _ _ = _
  simp

theorem launch (g : Guard) (d : Fin 32) (c : Option (Fin 32)) (m : Mem) : Statement (.launch g d c m) := by
  intro _ f h; cases h
  show Instr.launch _ _ _ _ = _
  simp

theorem gtime (g : Guard) (d : Fin 32) : Statement (.gtime g d) := by
  intro _ f h; cases h
  show Instr.gtime _ _ = _
  simp

theorem vshape (g : Guard) (src : VshSrc) : Statement (.vshape g src) := by
  intro _ f h; cases h
  show Instr.vshape _ _ = _
  simp

theorem vrep (g : Guard) (count : BitVec 8) (span : BitVec 4) (stride : BitVec 3) : Statement (.vrep g count span stride) := by
  intro _ f h; cases h
  show Instr.vrep _ _ _ _ = _
  simp [immFld_first 8 4 3 (by decide), immFld_second 8 4 3 (by decide), immFld_third 8 4 3 (by decide)]

theorem vmov (g : Guard) (d : Fin 32) (a : Fin 32) : Statement (.vmov g d a) := by
  intro _ f h; cases h
  show Instr.vmov _ _ _ = _
  simp

theorem vbcast (g : Guard) (t : Ty) (d : Fin 32) (a : Opnd) (b : Opnd) : Statement (.vbcast g t d a b) := by
  intro _ f h; cases h
  show Instr.vbcast _ _ _ _ _ = _
  simp

theorem vext (g : Guard) (t : Ty) (d : Fin 32) (a : Fin 32) (b : Opnd) : Statement (.vext g t d a b) := by
  intro _ f h; cases h
  show Instr.vext _ _ _ _ _ = _
  simp

theorem vins (g : Guard) (t : Ty) (d : Fin 32) (a : Opnd) (b : Opnd) : Statement (.vins g t d a b) := by
  intro _ f h; cases h
  show Instr.vins _ _ _ _ _ = _
  simp

theorem vadd (g : Guard) (t : Ty) (rc : Rc) (sat : Bool) (d : Fin 32) (a : Fin 32) (b : Opnd) : Statement (.vadd g t rc sat d a b) := by
  intro _ f h; cases h
  show Instr.vadd _ _ _ _ _ _ _ = _
  simp

theorem vsub (g : Guard) (t : Ty) (rc : Rc) (sat : Bool) (d : Fin 32) (a : Fin 32) (b : Opnd) : Statement (.vsub g t rc sat d a b) := by
  intro _ f h; cases h
  show Instr.vsub _ _ _ _ _ _ _ = _
  simp

theorem vmul (g : Guard) (t : Ty) (rc : Rc) (sat : Bool) (d : Fin 32) (a : Fin 32) (b : Opnd) : Statement (.vmul g t rc sat d a b) := by
  intro _ f h; cases h
  show Instr.vmul _ _ _ _ _ _ _ = _
  simp

theorem vfma (g : Guard) (t : Ty) (rc : Rc) (sat : Bool) (d : Fin 32) (a : Fin 32) (b : Opnd) (c : Opnd) : Statement (.vfma g t rc sat d a b c) := by
  intro _ f h; cases h
  show Instr.vfma _ _ _ _ _ _ _ _ = _
  simp

theorem vfms (g : Guard) (t : Ty) (rc : Rc) (sat : Bool) (d : Fin 32) (a : Fin 32) (b : Opnd) (c : Opnd) : Statement (.vfms g t rc sat d a b c) := by
  intro _ f h; cases h
  show Instr.vfms _ _ _ _ _ _ _ _ = _
  simp

theorem vfnma (g : Guard) (t : Ty) (rc : Rc) (sat : Bool) (d : Fin 32) (a : Fin 32) (b : Opnd) (c : Opnd) : Statement (.vfnma g t rc sat d a b c) := by
  intro _ f h; cases h
  show Instr.vfnma _ _ _ _ _ _ _ _ = _
  simp

theorem vdiv (g : Guard) (t : Ty) (rc : Rc) (d : Fin 32) (a : Fin 32) (b : Opnd) : Statement (.vdiv g t rc d a b) := by
  intro _ f h; cases h
  show Instr.vdiv _ _ _ _ _ _ = _
  simp

theorem vsqrt (g : Guard) (t : Ty) (rc : Rc) (d : Fin 32) (a : Fin 32) : Statement (.vsqrt g t rc d a) := by
  intro _ f h; cases h
  show Instr.vsqrt _ _ _ _ _ = _
  simp

theorem vmin (g : Guard) (t : Ty) (d : Fin 32) (a : Fin 32) (b : Opnd) : Statement (.vmin g t d a b) := by
  intro _ f h; cases h
  show Instr.vmin _ _ _ _ _ = _
  simp

theorem vmax (g : Guard) (t : Ty) (d : Fin 32) (a : Fin 32) (b : Opnd) : Statement (.vmax g t d a b) := by
  intro _ f h; cases h
  show Instr.vmax _ _ _ _ _ = _
  simp

theorem vabs (g : Guard) (t : Ty) (sat : Bool) (d : Fin 32) (a : Fin 32) : Statement (.vabs g t sat d a) := by
  intro _ f h; cases h
  show Instr.vabs _ _ _ _ _ = _
  simp

theorem vneg (g : Guard) (t : Ty) (sat : Bool) (d : Fin 32) (a : Fin 32) : Statement (.vneg g t sat d a) := by
  intro _ f h; cases h
  show Instr.vneg _ _ _ _ _ = _
  simp

theorem vcmp (g : Guard) (t : Ty) (cc : Cond) (tot : Bool) (d : Fin 32) (a : Fin 32) (b : Opnd) : Statement (.vcmp g t cc tot d a b) := by
  intro _ f h; cases h
  show Instr.vcmp _ _ _ _ _ _ _ = _
  simp

theorem vsel (g : Guard) (t : Ty) (d : Fin 32) (a : Opnd) (b : Opnd) (c : Fin 32) : Statement (.vsel g t d a b c) := by
  intro _ f h; cases h
  show Instr.vsel _ _ _ _ _ _ = _
  simp

theorem vand (g : Guard) (t : Ty) (d : Fin 32) (a : Fin 32) (b : Opnd) : Statement (.vand g t d a b) := by
  intro _ f h; cases h
  show Instr.vand _ _ _ _ _ = _
  simp

theorem vor (g : Guard) (t : Ty) (d : Fin 32) (a : Fin 32) (b : Opnd) : Statement (.vor g t d a b) := by
  intro _ f h; cases h
  show Instr.vor _ _ _ _ _ = _
  simp

theorem vxor (g : Guard) (t : Ty) (d : Fin 32) (a : Fin 32) (b : Opnd) : Statement (.vxor g t d a b) := by
  intro _ f h; cases h
  show Instr.vxor _ _ _ _ _ = _
  simp

theorem vshl (g : Guard) (t : Ty) (d : Fin 32) (a : Fin 32) (b : Opnd) : Statement (.vshl g t d a b) := by
  intro _ f h; cases h
  show Instr.vshl _ _ _ _ _ = _
  simp

theorem vshr (g : Guard) (t : Ty) (d : Fin 32) (a : Fin 32) (b : Opnd) : Statement (.vshr g t d a b) := by
  intro _ f h; cases h
  show Instr.vshr _ _ _ _ _ = _
  simp

theorem vsha (g : Guard) (t : Ty) (d : Fin 32) (a : Fin 32) (b : Opnd) : Statement (.vsha g t d a b) := by
  intro _ f h; cases h
  show Instr.vsha _ _ _ _ _ = _
  simp

theorem vcvt (g : Guard) (t : Ty) (rc : Rc) (sat : Bool) (d : Fin 32) (a : Fin 32) (src : Ty) : Statement (.vcvt g t rc sat d a src) := by
  intro _ f h; cases h
  show Instr.vcvt _ _ _ _ _ _ _ = _
  simp [immFld_one]

theorem vpack (g : Guard) (d : Fin 32) (a : Fin 32) (src : Ty) : Statement (.vpack g d a src) := by
  intro _ f h; cases h
  show Instr.vpack _ _ _ _ = _
  simp [immFld_one]

theorem vunpk (g : Guard) (t : Ty) (rc : Rc) (d : Fin 32) (a : Fin 32) : Statement (.vunpk g t rc d a) := by
  intro _ f h; cases h
  show Instr.vunpk _ _ _ _ _ = _
  simp

theorem vred (g : Guard) (t : Ty) (rc : Rc) (sat : Bool) (d : Opnd) (a : Fin 32) (fn : RedFn) : Statement (.vred g t rc sat d a fn) := by
  intro _ f h; cases h
  show Instr.vred _ _ _ _ _ _ _ = _
  simp [immFld_one]

theorem vscan (g : Guard) (t : Ty) (rc : Rc) (sat : Bool) (d : Fin 32) (a : Fin 32) (fn : RedFn) : Statement (.vscan g t rc sat d a fn) := by
  intro _ f h; cases h
  show Instr.vscan _ _ _ _ _ _ _ = _
  simp [immFld_one]

theorem vperm (g : Guard) (t : Ty) (d : Fin 32) (a : Fin 32) (b : Fin 32) : Statement (.vperm g t d a b) := by
  intro _ f h; cases h
  show Instr.vperm _ _ _ _ _ = _
  simp

theorem vslide (g : Guard) (t : Ty) (d : Fin 32) (a : Fin 32) (b : Opnd) (c : Option (Fin 32)) : Statement (.vslide g t d a b c) := by
  intro _ f h; cases h
  show Instr.vslide _ _ _ _ _ _ = _
  simp

theorem vgath (g : Guard) (t : Ty) (sh : Fin 16) (d : Fin 32) (a : Fin 32) (b : Fin 32) : Statement (.vgath g t sh d a b) := by
  intro _ f h; cases h
  show Instr.vgath _ _ _ _ _ _ = _
  simp

theorem vscat (g : Guard) (t : Ty) (sh : Fin 16) (d : Fin 32) (a : Fin 32) (b : Fin 32) : Statement (.vscat g t sh d a b) := by
  intro _ f h; cases h
  show Instr.vscat _ _ _ _ _ _ = _
  simp

theorem vsf (g : Guard) (t : Ty) (rc : Rc) (d : Fin 32) (a : Fin 32) (fn : SfFn) : Statement (.vsf g t rc d a fn) := by
  intro _ f h; cases h
  show Instr.vsf _ _ _ _ _ _ = _
  simp [immFld_one]

theorem vmacw (g : Guard) (t : Ty) (rc : Rc) (sat : Bool) (d : Fin 32) (a : Fin 32) (b : Opnd) : Statement (.vmacw g t rc sat d a b) := by
  intro _ f h; cases h
  show Instr.vmacw _ _ _ _ _ _ _ = _
  simp

theorem vaddw (g : Guard) (t : Ty) (rc : Rc) (sat : Bool) (d : Fin 32) (a : Fin 32) (b : Opnd) : Statement (.vaddw g t rc sat d a b) := by
  intro _ f h; cases h
  show Instr.vaddw _ _ _ _ _ _ _ = _
  simp

theorem vclass (g : Guard) (t : Ty) (d : Fin 32) (a : Fin 32) : Statement (.vclass g t d a) := by
  intro _ f h; cases h
  show Instr.vclass _ _ _ _ = _
  simp

theorem vround (g : Guard) (t : Ty) (rc : Rc) (exact : Bool) (d : Fin 32) (a : Fin 32) : Statement (.vround g t rc exact d a) := by
  intro _ f h; cases h
  show Instr.vround _ _ _ _ _ _ = _
  simp

theorem vtrn (g : Guard) (t : Ty) (d : Fin 32) (a : Fin 32) : Statement (.vtrn g t d a) := by
  intro _ f h; cases h
  show Instr.vtrn _ _ _ _ = _
  simp

theorem vdot (g : Guard) (t : Ty) (rc : Rc) (d : Fin 32) (a : Fin 32) (b : Fin 32) (c : Option (Fin 32)) : Statement (.vdot g t rc d a b c) := by
  intro _ f h; cases h
  show Instr.vdot _ _ _ _ _ _ _ = _
  simp

theorem mclaim (g : Guard) : Statement (.mclaim g) := by
  intro _ f h; cases h
  show Instr.mclaim _ = _
  simp

theorem mrls (g : Guard) : Statement (.mrls g) := by
  intro _ f h; cases h
  show Instr.mrls _ = _
  simp

theorem tld (g : Guard) (tr : Bool) (d : Fin 8) (a : Opnd) (b : Opnd) (c : Opnd) : Statement (.tld g tr d a b c) := by
  intro _ f h; cases h
  show Instr.tld _ _ _ _ _ _ = _
  simp

theorem tst (g : Guard) (tr : Bool) (d : Fin 8) (a : Opnd) (b : Opnd) (c : Opnd) : Statement (.tst g tr d a b c) := by
  intro _ f h; cases h
  show Instr.tst _ _ _ _ _ _ = _
  simp

theorem tzero (g : Guard) (d : Fin 8) : Statement (.tzero g d) := by
  intro _ f h; cases h
  show Instr.tzero _ _ = _
  simp

theorem tmov (g : Guard) (d : Fin 8) (a : Fin 8) : Statement (.tmov g d a) := by
  intro _ f h; cases h
  show Instr.tmov _ _ _ = _
  simp

theorem tcvt (g : Guard) (t : Ty) (rc : Rc) (d : Fin 8) (a : Fin 8) (c : Option (Fin 8)) : Statement (.tcvt g t rc d a c) := by
  intro _ f h; cases h
  show Instr.tcvt _ _ _ _ _ _ = _
  simp

theorem mma (g : Guard) (t : Ty) (rc : Rc) (d : Fin 8) (a : Fin 8) (b : Fin 8) : Statement (.mma g t rc d a b) := by
  intro _ f h; cases h
  show Instr.mma _ _ _ _ _ _ = _
  simp

theorem gmma (g : Guard) (t : Ty) (rc : Rc) (d : Fin 8) (a : Fin 8) (b : Fin 8) (grp : BitVec 2) : Statement (.gmma g t rc d a b grp) := by
  intro _ f h; cases h
  show Instr.gmma _ _ _ _ _ _ _ = _
  simp [immFld_one]

theorem mmas (g : Guard) (t : Ty) (rc : Rc) (d : Fin 8) (a : Fin 8) (b : Fin 8) : Statement (.mmas g t rc d a b) := by
  intro _ f h; cases h
  show Instr.mmas _ _ _ _ _ _ = _
  simp

theorem azero (g : Guard) (d : Fin 8) : Statement (.azero g d) := by
  intro _ f h; cases h
  show Instr.azero _ _ = _
  simp

theorem adrain (g : Guard) (t : Ty) (fn : EpiFn) (d : Opnd) (a : Fin 8) (b : Option (Fin 8)) (c : Option (Fin 8)) (scale : BitVec 32) (brow : Bool) (rc : Rc) : Statement (.adrain g t fn d a b c scale brow rc) := by
  intro _ f h; cases h
  show Instr.adrain _ _ _ _ _ _ _ _ _ _ = _
  simp [(immFld_adrain scale brow rc).1, (immFld_adrain scale brow rc).2]

theorem astat (g : Guard) (d : Fin 32) (a : Fin 8) : Statement (.astat g d a) := by
  intro _ f h; cases h
  show Instr.astat _ _ _ = _
  simp

theorem aclr (g : Guard) (d : Fin 8) : Statement (.aclr g d) := by
  intro _ f h; cases h
  show Instr.aclr _ _ = _
  simp

theorem bcmp (g : Guard) (t : Ty) (pr : BPred) (d : Fin 8) (a : Fin 32) (b : Fin 32) (m : BitVec 6) (n : BitVec 6) (nan : NanMode) : Statement (.bcmp g t pr d a b m n nan) := by
  intro _ f h; cases h
  show Instr.bcmp _ _ _ _ _ _ _ _ _ = _
  simp [immFld_first 6 6 2 (by decide), immFld_second 6 6 2 (by decide), immFld_third 6 6 2 (by decide)]

theorem bpopr (g : Guard) (d : Fin 32) (a : Fin 8) : Statement (.bpopr g d a) := by
  intro _ f h; cases h
  show Instr.bpopr _ _ _ = _
  simp

theorem bpopc (g : Guard) (d : Fin 32) (a : Fin 8) : Statement (.bpopc g d a) := by
  intro _ f h; cases h
  show Instr.bpopc _ _ _ = _
  simp

theorem bfirst (g : Guard) (d : Fin 32) (a : Fin 8) : Statement (.bfirst g d a) := by
  intro _ f h; cases h
  show Instr.bfirst _ _ _ = _
  simp

theorem bclos (g : Guard) (refl : Bool) (d : Fin 8) (a : Fin 8) : Statement (.bclos g refl d a) := by
  intro _ f h; cases h
  show Instr.bclos _ _ _ _ = _
  simp

theorem bcomp (g : Guard) (d : Fin 8) (a : Fin 8) (b : Fin 8) : Statement (.bcomp g d a b) := by
  intro _ f h; cases h
  show Instr.bcomp _ _ _ _ = _
  simp

theorem btrn (g : Guard) (d : Fin 8) (a : Fin 8) : Statement (.btrn g d a) := by
  intro _ f h; cases h
  show Instr.btrn _ _ _ = _
  simp

theorem blog (g : Guard) (fn : BlogFn) (d : Fin 8) (a : Fin 8) (b : Option (Fin 8)) : Statement (.blog g fn d a b) := by
  intro _ f h; cases h
  show Instr.blog _ _ _ _ _ = _
  simp

theorem bld (g : Guard) (d : Fin 8) (m : Mem) : Statement (.bld g d m) := by
  intro _ f h; cases h
  show Instr.bld _ _ _ = _
  simp

theorem bst (g : Guard) (d : Fin 8) (m : Mem) : Statement (.bst g d m) := by
  intro _ f h; cases h
  show Instr.bst _ _ _ = _
  simp

theorem bzero (g : Guard) (d : Fin 8) : Statement (.bzero g d) := by
  intro _ f h; cases h
  show Instr.bzero _ _ = _
  simp

theorem beye (g : Guard) (d : Fin 8) : Statement (.beye g d) := by
  intro _ f h; cases h
  show Instr.beye _ _ = _
  simp

theorem phase (g : Guard) (scope : Fin 8) : Statement (.phase g scope) := by
  intro _ f h; cases h
  show Instr.phase _ _ = _
  simp

theorem xmit (g : Guard) (d : Link) (a : Opnd) (stamp : BitVec 16) : Statement (.xmit g d a stamp) := by
  intro _ f h; cases h
  show Instr.xmit _ _ _ _ = _
  simp [immFld_one]

theorem xrcv (g : Guard) (d : Fin 32) (a : Link) (stamp : BitVec 16) (count : BitVec 8) : Statement (.xrcv g d a stamp count) := by
  intro _ f h; cases h
  show Instr.xrcv _ _ _ _ _ = _
  simp [immFld_low 16 8 (by decide), immFld_high 16 8 (by decide)]

theorem xsel (g : Guard) (d : Link) (a : Opnd) (stamp : BitVec 16) (count : BitVec 8) : Statement (.xsel g d a stamp count) := by
  intro _ f h; cases h
  show Instr.xsel _ _ _ _ _ = _
  simp [immFld_low 16 8 (by decide), immFld_high 16 8 (by decide)]

theorem xidle (g : Guard) (stamp : BitVec 16) (count : BitVec 8) : Statement (.xidle g stamp count) := by
  intro _ f h; cases h
  show Instr.xidle _ _ _ = _
  simp [immFld_low 16 8 (by decide), immFld_high 16 8 (by decide)]

theorem pend (g : Guard) : Statement (.pend g) := by
  intro _ f h; cases h
  show Instr.pend _ = _
  simp

theorem capp (g : Guard) (d : Option (Fin 32)) (a : Fin 32) (b : Opnd) (nsb : Bool) : Statement (.capp g d a b nsb) := by
  intro _ f h; cases h
  show Instr.capp _ _ _ _ _ = _
  simp [immFld_flag]

theorem cwait (g : Guard) (a : Opnd) (b : Opnd) (lim : BitVec 24) : Statement (.cwait g a b lim) := by
  intro _ f h; cases h
  show Instr.cwait _ _ _ _ = _
  simp [immFld_one]

theorem cseq (g : Guard) (d : Fin 32) (a : Opnd) : Statement (.cseq g d a) := by
  intro _ f h; cases h
  show Instr.cseq _ _ _ = _
  simp

theorem cfence (g : Guard) (mask : BitVec 8) : Statement (.cfence g mask) := by
  intro _ f h; cases h
  show Instr.cfence _ _ = _
  simp [immFld_one]

theorem cstat (g : Guard) (clear : Bool) (d : Fin 32) (a : Opnd) : Statement (.cstat g clear d a) := by
  intro _ f h; cases h
  show Instr.cstat _ _ _ _ = _
  simp

theorem tdef (g : Guard) (c5 : Bool) (quiet : Bool) (d : Option (Fin 32)) (c : Opnd) (m : Mem) : Statement (.tdef g c5 quiet d c m) := by
  intro _ f h; cases h
  show Instr.tdef _ _ _ _ _ _ = _
  simp

theorem tqry (g : Guard) (fn : TqryFn) (d : Fin 32) (a : Opnd) : Statement (.tqry g fn d a) := by
  intro _ f h; cases h
  show Instr.tqry _ _ _ _ = _
  simp

theorem pissue (g : Guard) (c5 : Bool) (quiet : Bool) (d : Option (Fin 32)) (c : Opnd) (m : Mem) : Statement (.pissue g c5 quiet d c m) := by
  intro _ f h; cases h
  show Instr.pissue _ _ _ _ _ _ = _
  simp

theorem predeem (g : Guard) (c5 : Bool) (ntr : Bool) (quiet : Bool) (d : Option (Fin 32)) (m : Mem) : Statement (.predeem g c5 ntr quiet d m) := by
  intro _ f h; cases h
  show Instr.predeem _ _ _ _ _ _ = _
  simp

theorem pexpire (g : Guard) (c5 : Bool) (quiet : Bool) (d : Option (Fin 32)) (m : Mem) : Statement (.pexpire g c5 quiet d m) := by
  intro _ f h; cases h
  show Instr.pexpire _ _ _ _ _ = _
  simp

theorem pstat (g : Guard) (d : Fin 32) (m : Mem) : Statement (.pstat g d m) := by
  intro _ f h; cases h
  show Instr.pstat _ _ _ = _
  simp

theorem trap (g : Guard) (code : BitVec 16) : Statement (.trap g code) := by
  intro _ f h; cases h
  show Instr.trap _ _ = _
  simp [immFld_one]

theorem rft (g : Guard) : Statement (.rft g) := by
  intro _ f h; cases h
  show Instr.rft _ = _
  simp

theorem mfs (g : Guard) (d : Fin 32) (num : BitVec 12) : Statement (.mfs g d num) := by
  intro _ f h; cases h
  show Instr.mfs _ _ _ = _
  simp [immFld_one]

theorem mts (g : Guard) (a : Fin 32) (num : BitVec 12) : Statement (.mts g a num) := by
  intro _ f h; cases h
  show Instr.mts _ _ _ = _
  simp [immFld_one]

theorem rdring (g : Guard) (dw : Fin 8) (d : Fin 32) (a : Opnd) : Statement (.rdring g dw d a) := by
  intro _ f h; cases h
  show Instr.rdring _ _ _ _ = _
  simp

theorem snap (g : Guard) : Statement (.snap g) := by
  intro _ f h; cases h
  show Instr.snap _ = _
  simp

theorem xinv (g : Guard) (all : Bool) (m : Mem) : Statement (.xinv g all m) := by
  intro _ f h; cases h
  show Instr.xinv _ _ _ = _
  simp

theorem seed (g : Guard) (a : Fin 32) : Statement (.seed g a) := by
  intro _ f h; cases h
  show Instr.seed _ _ = _
  simp

theorem halt (g : Guard) : Statement (.halt g) := by
  intro _ f h; cases h
  show Instr.halt _ = _
  simp

theorem dbrk (g : Guard) (code : BitVec 16) : Statement (.dbrk g code) := by
  intro _ f h; cases h
  show Instr.dbrk _ _ = _
  simp [immFld_one]

theorem save (g : Guard) (m : Mem) : Statement (.save g m) := by
  intro _ f h; cases h
  show Instr.save _ _ = _
  simp

theorem gswitch (g : Guard) (fn : GswFn) (d : Option (Fin 32)) (a : Fin 32) (b : Fin 32) : Statement (.gswitch g fn d a b) := by
  intro _ f h; cases h
  show Instr.gswitch _ _ _ _ _ = _
  simp

theorem pcnt (g : Guard) (d : Fin 32) (ctr : BitVec 8) (clear : Bool) : Statement (.pcnt g d ctr clear) := by
  intro _ f h; cases h
  show Instr.pcnt _ _ _ _ = _
  simp [immFld_ctr, immFld_clr]

theorem controlRegisterWrite (pa : Nat) (v : Word) : Statement (.controlRegisterWrite pa v) := by
  intro _ f h; cases h

theorem einjArm (pkg : Nat) (die : Fin 8) (v : Word) : Statement (.einjArm pkg die v) := by
  intro _ f h; cases h

theorem quantumExpiry (k : Nat) : Statement (.quantumExpiry k) := by
  intro _ f h; cases h

theorem remoteAnswer (k : Nat) (n : Nat) : Statement (.remoteAnswer k n) := by
  intro _ f h; cases h

theorem writeBack (line : Nat) : Statement (.writeBack line) := by
  intro _ f h; cases h

theorem accumulateArrival (n : Nat) : Statement (.accumulateArrival n) := by
  intro _ f h; cases h

theorem accumulateWindowEnd (slice : Nat) : Statement (.accumulateWindowEnd slice) := by
  intro _ f h; cases h

theorem refusalReturn (k : Nat) (n : Nat) : Statement (.refusalReturn k n) := by
  intro _ f h; cases h

theorem insistentAck (k : Nat) (n : Nat) : Statement (.insistentAck k n) := by
  intro _ f h; cases h

theorem residualAgeExpiry (k : Nat) : Statement (.residualAgeExpiry k) := by
  intro _ f h; cases h

theorem barrierComplete (k : Nat) (scope : Fin 8) : Statement (.barrierComplete k scope) := by
  intro _ f h; cases h

theorem phaseBarrierComplete (k : Nat) (scope : Fin 8) : Statement (.phaseBarrierComplete k scope) := by
  intro _ f h; cases h

theorem pccLimit (k : Nat) : Statement (.pccLimit k) := by
  intro _ f h; cases h

theorem taskPop (k : Nat) (c : Fin 4) : Statement (.taskPop k c) := by
  intro _ f h; cases h

theorem taskAging (gang : Nat) (queue : Nat) (prio : Fin 4) : Statement (.taskAging gang queue prio) := by
  intro _ f h; cases h

theorem queueSlotResume (k : Nat) (c : Fin 4) : Statement (.queueSlotResume k c) := by
  intro _ f h; cases h

theorem waitLimitExpiry (k : Nat) (c : Fin 4) : Statement (.waitLimitExpiry k c) := by
  intro _ f h; cases h

theorem waiteReport (k : Nat) (c : Fin 4) : Statement (.waiteReport k c) := by
  intro _ f h; cases h

theorem queueRetry (k : Nat) (c : Fin 4) : Statement (.queueRetry k c) := by
  intro _ f h; cases h

theorem claimHandover (k : Nat) : Statement (.claimHandover k) := by
  intro _ f h; cases h

theorem followerMarker (k : Nat) : Statement (.followerMarker k) := by
  intro _ f h; cases h

theorem forwardedGroup (k : Nat) : Statement (.forwardedGroup k) := by
  intro _ f h; cases h

theorem vrepPass (k : Nat) (c : Fin 4) : Statement (.vrepPass k c) := by
  intro _ f h; cases h

theorem dispatchedComplete (k : Nat) (tseq : Nat) : Statement (.dispatchedComplete k tseq) := by
  intro _ f h; cases h

theorem arrayFormStart (k : Nat) : Statement (.arrayFormStart k) := by
  intro _ f h; cases h

theorem gmmaJoin (k : Nat) : Statement (.gmmaJoin k) := by
  intro _ f h; cases h

theorem gmmaJoinTimeout (k : Nat) : Statement (.gmmaJoinTimeout k) := by
  intro _ f h; cases h

theorem impreciseFaultDelivery (k : Nat) (c : Fin 4) : Statement (.impreciseFaultDelivery k c) := by
  intro _ f h; cases h

theorem engineErrorDelivery (k : Nat) (c : Fin 4) : Statement (.engineErrorDelivery k c) := by
  intro _ f h; cases h

theorem commandBegin (k : Nat) (ch : Fin 8) : Statement (.commandBegin k ch) := by
  intro _ f h; cases h

theorem chainFenceRelease (k : Nat) (ch : Fin 8) : Statement (.chainFenceRelease k ch) := by
  intro _ f h; cases h

theorem copy (k : Nat) (ch : Fin 8) : Statement (.copy k ch) := by
  intro _ f h; cases h

theorem copyt (k : Nat) (ch : Fin 8) : Statement (.copyt k ch) := by
  intro _ f h; cases h

theorem gath (k : Nat) (ch : Fin 8) : Statement (.gath k ch) := by
  intro _ f h; cases h

theorem scat (k : Nat) (ch : Fin 8) : Statement (.scat k ch) := by
  intro _ f h; cases h

theorem fill (k : Nat) (ch : Fin 8) : Statement (.fill k ch) := by
  intro _ f h; cases h

theorem cmdSignal (k : Nat) (ch : Fin 8) : Statement (.cmdSignal k ch) := by
  intro _ f h; cases h

theorem stash (k : Nat) (ch : Fin 8) : Statement (.stash k ch) := by
  intro _ f h; cases h

theorem unstash (k : Nat) (ch : Fin 8) : Statement (.unstash k ch) := by
  intro _ f h; cases h

theorem nmuSgd (k : Nat) (ch : Fin 8) : Statement (.nmuSgd k ch) := by
  intro _ f h; cases h

theorem nmuAdamw (k : Nat) (ch : Fin 8) : Statement (.nmuAdamw k ch) := by
  intro _ f h; cases h

theorem nmuScale (k : Nat) (ch : Fin 8) : Statement (.nmuScale k ch) := by
  intro _ f h; cases h

theorem collMatch (id : Nat) : Statement (.collMatch id) := by
  intro _ f h; cases h

theorem collAg (id : Nat) : Statement (.collAg id) := by
  intro _ f h; cases h

theorem collShardArrival (k : Nat) (q : Nat) : Statement (.collShardArrival k q) := by
  intro _ f h; cases h

theorem collRs (id : Nat) : Statement (.collRs id) := by
  intro _ f h; cases h

theorem collAr (id : Nat) : Statement (.collAr id) := by
  intro _ f h; cases h

theorem collBc (id : Nat) : Statement (.collBc id) := by
  intro _ f h; cases h

theorem collXor (id : Nat) : Statement (.collXor id) := by
  intro _ f h; cases h

theorem tensorDefine (k : Nat) (ch : Fin 8) : Statement (.tensorDefine k ch) := by
  intro _ f h; cases h

theorem promiseIssue (k : Nat) (ch : Fin 8) : Statement (.promiseIssue k ch) := by
  intro _ f h; cases h

theorem promiseRedeem (k : Nat) (ch : Fin 8) : Statement (.promiseRedeem k ch) := by
  intro _ f h; cases h

theorem promiseExpire (k : Nat) (ch : Fin 8) : Statement (.promiseExpire k ch) := by
  intro _ f h; cases h

theorem dieLoss (pkg : Nat) (die : Fin 8) : Statement (.dieLoss pkg die) := by
  intro _ f h; cases h

theorem rowFailure (pkg : Nat) (die : Fin 8) (row : Fin 17) : Statement (.rowFailure pkg die row) := by
  intro _ f h; cases h

theorem hbmChannelRetire (pkg : Nat) (stack : Fin 8) (channel : Fin 32) : Statement (.hbmChannelRetire pkg stack channel) := by
  intro _ f h; cases h

theorem correctedErrorThreshold (pkg : Nat) (unit : Nat) : Statement (.correctedErrorThreshold pkg unit) := by
  intro _ f h; cases h

theorem linkRetrain (pkg : Nat) (link : Fin 16) : Statement (.linkRetrain pkg link) := by
  intro _ f h; cases h

theorem permitAudit (pkg : Nat) (die : Fin 8) (mismatch : Bool) : Statement (.permitAudit pkg die mismatch) := by
  intro _ f h; cases h

theorem firmwareReplacement (pkg : Nat) (unit : Nat) (image : SignedImage) : Statement (.firmwareReplacement pkg unit image) := by
  intro _ f h; cases h

theorem hbmRecalibration (pkg : Nat) (stack : Fin 8) (channel : Fin 32) : Statement (.hbmRecalibration pkg stack channel) := by
  intro _ f h; cases h

theorem boot (pkg : Nat) (image : List Byte) (sign : Signature) : Statement (.boot pkg image sign) := by
  intro _ f h; cases h

theorem seroanStateAccess (gang : Nat) (k : Nat) (part : SavedPart) (dw : Nat) (write : Option Word) : Statement (.seroanStateAccess gang k part dw write) := by
  intro _ f h; cases h

theorem seroanBreakpoint (gang : Nat) (addr : Word) (set : Bool) : Statement (.seroanBreakpoint gang addr set) := by
  intro _ f h; cases h

theorem acceptanceAnswer (k : Nat) (n : Nat) : Statement (.acceptanceAnswer k n) := by
  intro _ f h; cases h

theorem xinvAcknowledged (k : Nat) (c : Fin 4) : Statement (.xinvAcknowledged k c) := by
  intro _ f h; cases h

theorem unassignedOpcode (w : Slot) : Statement (.unassignedOpcode w) := by
  intro hw f h; cases h
  rw [build_unassigned _ hw, slot_ofSlot]

theorem streamNop : Statement (.streamNop) := by
  intro _ f h; cases h

theorem streamLaunch : Statement (.streamLaunch) := by
  intro _ f h; cases h

theorem waits : Statement (.waits) := by
  intro _ f h; cases h

theorem waitsSatisfied : Statement (.waitsSatisfied) := by
  intro _ f h; cases h

theorem streamSignal : Statement (.streamSignal) := by
  intro _ f h; cases h

theorem gstamp : Statement (.gstamp) := by
  intro _ f h; cases h

theorem csctlClr : Statement (.csctlClr) := by
  intro _ f h; cases h

theorem launchAccept : Statement (.launchAccept) := by
  intro _ f h; cases h

theorem gangComplete : Statement (.gangComplete) := by
  intro _ f h; cases h

theorem superstepCommit : Statement (.superstepCommit) := by
  intro _ f h; cases h

theorem seedComplete : Statement (.seedComplete) := by
  intro _ f h; cases h

theorem pairedCopyStart : Statement (.pairedCopyStart) := by
  intro _ f h; cases h

theorem pairedMessageCompare : Statement (.pairedMessageCompare) := by
  intro _ f h; cases h

theorem pairedMismatchTimeout : Statement (.pairedMismatchTimeout) := by
  intro _ f h; cases h

theorem wideUnitStart : Statement (.wideUnitStart) := by
  intro _ f h; cases h

theorem vsfQueueExit : Statement (.vsfQueueExit) := by
  intro _ f h; cases h

theorem gangSwitchStop : Statement (.gangSwitchStop) := by
  intro _ f h; cases h

theorem gangResume : Statement (.gangResume) := by
  intro _ f h; cases h

theorem stopTimeout : Statement (.stopTimeout) := by
  intro _ f h; cases h

theorem poisonConsumed : Statement (.poisonConsumed) := by
  intro _ f h; cases h

theorem packageLoss : Statement (.packageLoss) := by
  intro _ f h; cases h

theorem powerThermalLimit : Statement (.powerThermalLimit) := by
  intro _ f h; cases h

theorem internalMachineCheck : Statement (.internalMachineCheck) := by
  intro _ f h; cases h

theorem attestation : Statement (.attestation) := by
  intro _ f h; cases h

theorem seroanAttach : Statement (.seroanAttach) := by
  intro _ f h; cases h

theorem seroanResume : Statement (.seroanResume) := by
  intro _ f h; cases h

end Sys2Proof.Laws.Built
end

