-- ==== Sys2Proof/Laws/Scalar.lean ====
section
/-! SUPPORT. What a guarded instruction does, sources and results of the integer types, and destinations outside a phase. -/
namespace Sys2Proof.Machine
open Sys2Proof.Num

/-- R58: an instruction whose guard holds, outside a phase, has its effect. -/
theorem guarded_runs {s : State} {g : Guard} (h : Runs s g) (i : Instr) (body : Res State) :
    guarded s i g body = finish s body := by
  simp [guarded, h.1, h.2]

/-- R58: an instruction whose guard is false, outside a phase, does nothing. -/
theorem guarded_false {s : State} {g : Guard} (hg : s.guard g = false) (hp : s.inPhase = false) (i : Instr) (body : Res State) :
    guarded s i g body = .next s := by
  simp [guarded, hg, hp, finish]

@[simp] theorem finish_ok (s t : State) : finish s (.ok t) = .next t := rfl
@[simp] theorem finish_pure (s t : State) : finish s (pure t) = .next t := rfl
@[simp] theorem finish_raise (s : State) (c : Nat) (a b : Word) : finish s (raise c a b) = .next (takeTrap s ⟨c, a, b, none⟩) := rfl

/-- The type of a scalar integer form that has an integer type. -/
theorem intTy_of_isInt {t : Ty} (h : t.isInt = true) : intTy t = t := by simp [intTy, h]

/-- The type that a scalar integer form works in is an integer type. -/
theorem isInt_intTy (t : Ty) : (intTy t).isInt = true := by cases t <;> rfl

/-- R95: reading an integer source. -/
theorem int_eq_of_isInt (s : State) {t : Ty} (ht : t.isInt = true) (o : Opnd) : s.int t o = tyVal t (s.src o) := by
  simp only [State.int, State.pat, intTy_of_isInt ht, intVal, tyVal, BitVec.toNat_setWidth]
  cases t <;> simp_all [Ty.isInt, Ty.signed, Ty.bits, Bits.sx, BitVec.toInt, BitVec.toNat_setWidth] <;> omega

/-- R95: reading a source in the type a scalar integer form works in. -/
theorem int_eq (s : State) (t : Ty) (o : Opnd) : s.int t o = tyVal (intTy t) (s.src o) := by
  rw [← int_eq_of_isInt s (isInt_intTy t)]; cases t <;> rfl

/-- R95: writing an exact integer result of an integer type. -/
theorem putWord_wrap_of_isInt {t : Ty} (ht : t.isInt = true) (v : Int) : putWord t (Bits.wrap t.bits v) = tyPut t v := by
  simp only [putWord, intTy_of_isInt ht, tyPut, Vec.extend, ht, if_true, Bits.wrap, intVal, Bits.word]
  cases t <;> simp_all [Ty.isInt, Ty.signed, Ty.bits, Bits.sx, BitVec.signExtend, BitVec.toInt_ofInt, Int.bmod] <;>
    apply BitVec.eq_of_toNat_eq <;> simp <;> omega

/-- R95: writing an exact integer result. -/
theorem putWord_wrap (t : Ty) (v : Int) : putWord t (Bits.wrap (intTy t).bits v) = tyPut (intTy t) v := by
  rw [← putWord_wrap_of_isInt (isInt_intTy t)]; cases t <;> rfl

/-- R95: two results that agree modulo 2^N are put alike. -/
theorem tyPut_congr {t : Ty} {a b : Int} (h : a % (2 ^ t.bits : Nat) = b % (2 ^ t.bits : Nat)) : tyPut t a = tyPut t b := by
  have : BitVec.ofInt t.bits a = BitVec.ofInt t.bits b := by
    apply BitVec.eq_of_toInt_eq; simp only [BitVec.toInt_ofInt, Int.bmod, h]
  simp [tyPut, this]

/-- R60, R95: a destination outside a phase. -/
theorem dst_written {s : State} (hp : s.inPhase = false) (d : Opnd) (v : Word) : s.dst d v = .ok (s.written d v) := by
  have h : s.core.phase = none := by simpa [State.inPhase] using hp
  cases d <;> simp [State.dst, State.written, State.laneWrite, h]

/-- R95: what a scalar form with an exact result does outside a phase. -/
theorem putInt_result {s : State} (hp : s.inPhase = false) (t : Ty) (d : Opnd) (v : Int) (fl : Flg) :
    putInt s t d v fl = .ok (s.result d (tyPut (intTy t) v) fl) := by
  simp only [putInt, putPat, dst_written hp, putWord_wrap, State.result]; rfl

/-- R95: what a scalar form with a pattern as its result does outside a phase. -/
theorem putPat_result {s : State} (hp : s.inPhase = false) (t : Ty) (d : Opnd) (n : Nat) (fl : Flg) :
    putPat s t d n fl = .ok (s.result d (tyPut (intTy t) n) fl) := by
  have h2 : putWord t (Bits.wrap (intTy t).bits n) = putWord t n := by
    simp only [putWord, Bits.wrap]; congr 1; norm_cast; simp
  simp only [putPat, dst_written hp, State.result, ← putWord_wrap, h2]; rfl

/-- R109: ADD, SUB and MUL outside a phase. -/
theorem putArith_result {s : State} (hp : s.inPhase = false) {t : Ty} (ht : t.isInt = true) (sat : Bool) (d : Opnd) (v : Int) :
    putArith s t sat d v =
      .ok (s.result d (tyPut t (if sat then (clip t v).1 else v)) (if sat then (clip t v).2 else 0)) := by
  have h1 := putWord_wrap t v
  have h2 := putWord_wrap t (clip t v).1
  rw [intTy_of_isInt ht] at h1 h2
  cases sat <;> simp only [putArith, intResult, dst_written hp, State.result, h1, h2, if_true, if_false, Bool.false_eq_true] <;> rfl

/-- R61, R95: a value of an integer type lies in its range. -/
theorem tyVal_range {t : Ty} (ht : t.isInt = true) (w : Word) : intMin t ≤ tyVal t w ∧ tyVal t w ≤ intMax t := by
  have := BitVec.isLt (w.setWidth t.bits)
  simp only [intMin, intMax, tyVal, BitVec.toInt]
  cases t <;> simp [Ty.isInt, Ty.signed, Ty.bits] at ht this ⊢ <;> omega

end Sys2Proof.Machine
end

