-- ==== Sys2Proof/Tests/Slice0.lean ====
section
/-! SUPPORT. Tests: ill-formed terms that each check refuses, words of the spec's worked examples, results worked out from the spec's
rules, and for every statement with hypotheses states and operands that meet them. -/
open Sys2Proof Sys2Proof.Machine
namespace Sys2Proof.Tests

-- One declaration after another: evaluated in parallel, these small theorems take more memory than a check allows.
set_option Elab.async false

/-! ### Small states -/

def always : Guard := ⟨false, 0⟩

/-- The near window (R117). -/
def near : Word := 0xFFFFF00000000000

/-- A memory operand at an offset from s5, which holds the near window. -/
def at5 (disp : BitVec 40) : Mem := ⟨5, none, 0, disp⟩

/-- A gang of core 0 at supervisor level with one live context and four scratchpad units, changed by the functions given; the
package's system map lists the package. -/
def mk (cf : Ctx → Ctx) (kf : Core → Core) (gf : Gang → Gang) : State :=
  ctrlSet (((State.reset.setGang 1 (gf placeGang)).setCore 0 (kf { Core.reset with gang := 1, split := 4 })).setCtx 0
    (cf { Ctx.reset with live := true, s := Ctx.reset.s.set 5 near })) (blockPa 0 .package 0x800) 0x1000

def base : State := mk id id id

/-- The same with s registers n and m set. -/
def two (n m : Fin 32) (x y : Word) : State := mk (fun c => { c with s := (c.s.set n x).set m y }) id id

/-- The same with bytes in its scratchpad at an offset. -/
def pad (s : State) (off : Nat) (bs : List Byte) : State := { s with mem := s.mem.writeBytes (mkPa 0 1 off) bs }

/-- The same at user level. -/
def user : State := mk id id (fun g => { g with sup := false })

/-- A core that is in phase cycle 5 of a communication phase. -/
def phased (f : Phase → Phase) : State :=
  mk id (fun c => { c with phase := some (f ⟨1, 0, 5, [], [], [], [], [], [], [], [], [], 0, BitVec.ofNat 64 Topo.dmapReset, 0⟩) }) id

/-- A core whose matrix claim context 0 holds. -/
def claimed (f : Core → Core) : State := mk id (fun c => f { c with claim := some 0, claimAsid := some 0 }) id

def nexts (o : Out) (p : State → Bool) : Bool :=
  match o with
  | .next t => p t
  | _ => false

def oks {α : Type} (r : Res α) (p : α → Bool) : Bool :=
  match r with
  | .ok x => p x
  | .error _ => false

theorem granted_of {s : State} {i : Instr} {ea : Word} {al n : Nat} {m : Mode} {w : Bool}
    (h : oks (grant s i ea al n m w) (fun r => !r.refused && r.s.ctx.pair.isNone) = true) : ∃ r, Granted s i ea al n m w r := by
  unfold oks at h
  split at h
  · rename_i r hr
    simp only [Bool.and_eq_true, Bool.not_eq_true', Option.isNone_iff_eq_none] at h
    exact ⟨r, hr, h.1, h.2⟩
  · simp at h

/-! ### Ill-formed terms (R59, R60, R62, R69, R70) -/

theorem test_illformed_type : wellFormed (.add always .f32 false (.s 1) (.s 2) (.s 3)) = false := by decide
theorem test_illformed_operand : wellFormed (.add always .i64 false (.imm 1) (.s 2) (.s 3)) = false := by decide
theorem test_illformed_size : wellFormed (.ld always .x (.s 1) (at5 0)) = false := by decide
theorem test_illformed_ext : wellFormed (.ext always .n64 (.s 1) (.s 2) (.const 63 1)) = false := by decide
theorem test_illformed_ext_operand : wellFormed (.ext always .n64 (.s 1) (.s 2) (.regs .none (.s 1))) = false := by decide
theorem test_illformed_phase : wellFormed (.phase always 2) = false := by decide
theorem test_illformed_loop : wellFormed (.loop always 0 ⟨0, 0⟩) = false := by decide
theorem test_illformed_plog : wellFormed (.plog always .and 1 2 none) = false := by decide
theorem test_illformed_plog_not : wellFormed (.plog always .not 1 2 (some 3)) = false := by decide
theorem test_illformed_amo : wellFormed (.amo always .f32 .and none (.s 1) (at5 0)) = false := by decide
theorem test_illformed_vadd_sat : wellFormed (.vadd always .i32 .rne false 1 2 (.v 3)) = false := by decide
theorem test_illformed_vcmp_tot : wellFormed (.vcmp always .i32 .lt true 1 2 (.v 3)) = false := by decide
theorem test_illformed_vred : wellFormed (.vred always .f32 .asr false (.s 1) 2 .xor) = false := by decide
theorem test_illformed_xmit : wellFormed (.xmit always (.near 0 .east) .none 0) = false := by decide
theorem test_illformed_xrcv : wellFormed (.xrcv always 1 (.near 0 .east) 0 0) = false := by decide
theorem test_illformed_cfence : wellFormed (.cfence always 0) = false := by decide
theorem test_illformed_capp : wellFormed (.capp always none 1 (.imm 8) false) = false := by decide
theorem test_illformed_tqry : wellFormed (.tqry always .ver 1 (.imm 31)) = false := by decide
theorem test_illformed_mfs : wellFormed (.mfs always 1 0x18) = false := by decide
theorem test_illformed_pcnt : wellFormed (.pcnt always 1 9 false) = false := by decide
theorem test_illformed_unassigned : wellFormed (.unassignedOpcode (0x01 <<< 88)) = false := by decide
theorem test_wellformed_add : wellFormed (.add always .i64 false (.s 1) (.s 2) (.s 3)) = true := by decide

/-! ### Words of the worked examples (chapters 2, 3, 6, 8, 9, 10, 11, 12, 13, 14, 15, 16, 18, 19 and 20) -/

/-- The instruction that a word stands for outside a phase. -/
def reads (w : Slot) (i : Instr) : Bool :=
  match decode false false w with
  | .ok j => j = i
  | .error _ => false

/-- The same in a line of a phase. -/
def readsPhase (w : Slot) (i : Instr) : Bool :=
  match decode false true w with
  | .ok j => j = i
  | .error _ => false

theorem test_word_addi : reads 0x19000300FFFF000000000005 (.addi always .i64 (.s 3) (.s 0) 5) = true := by decide
theorem test_word_addi_negative : reads 0x19000403FFFF0FFFFFFFFFFE (.addi always .i64 (.s 4) (.s 3) (-2)) = true := by decide
theorem test_word_add : reads 0x0100070706FF000000000000 (.add always .i64 false (.s 7) (.s 7) (.s 6)) = true := by decide
theorem test_word_sub : reads 0x02000606A1FF000000000000 (.sub always .i64 false (.s 6) (.s 6) (.imm 1)) = true := by decide
theorem test_word_cmp : reads 0x11006106A0FF400000000000 (.cmp always .i64 .gt 1 (.s 6) (.imm 0)) = true := by decide
theorem test_word_ext : reads 0x17011514FFFF1000000001C0 (.ext always .n64 (.s 21) (.s 20) (.const 0 7)) = true := by decide
theorem test_word_lea : reads 0x1C0F1D000EFF0C0000000002 (.lea always 29 ⟨0, some 14, 12, 2⟩) = true := by decide
theorem test_word_br : reads 0x201FFFFFFFFF0FFFFFFFFFFA (.br ⟨false, 1⟩ ⟨-1, 2⟩) = true := by decide
theorem test_word_br_not : reads 0x209FFFFFFFFF00000000001B (.br ⟨true, 1⟩ ⟨3, 3⟩) = true := by decide
theorem test_word_ld : reads 0x400319172FFF200000000028 (.ld always .n32 (.s 25) ⟨23, none, 0, 40⟩) = false := by decide
theorem test_word_ld_disp : reads 0x40031917FFFF200000000028 (.ld always .n32 (.s 25) ⟨23, none, 0, 40⟩) = true := by decide
theorem test_word_ld_index : reads 0x40011C1A0CFF330000000018 (.ld always .n64 (.s 28) ⟨26, some 12, 3, 0x18⟩) = true := by decide
theorem test_word_amo : reads 0x5009FF14FF04600000000000 (.amo always .f32 .max none (.s 4) ⟨20, none, 0, 0⟩) = true := by decide
theorem test_word_acc : reads 0x52080509FFFF800000000010 (.acc always .f64 true 5 ⟨9, none, 0, 16⟩) = true := by decide
theorem test_word_fld : reads 0x580F0917FF19000000000000 (.fld always 9 (some 25) ⟨23, none, 0, 0⟩) = true := by decide
theorem test_word_bar : reads 0x600FFFFFFFFF500000000000 (.bar always 5) = true := by decide
theorem test_word_waite : reads 0x6701FF1B0CFF500000000000 (.waite always .n64 .ge none 27 (.s 12) 0) = true := by decide
theorem test_word_vshape : reads 0x700FFFFFFFFF000000009102 (.vshape always (.imm 0x9102)) = true := by decide
theorem test_word_vrep : reads 0x710FFFFFFFFF000000002001 (.vrep always 1 0 2) = true := by decide
theorem test_word_vfma : reads 0x790928200528000000000000 (.vfma always .f32 .asr false 8 0 (.s 5) (.v 8)) = true := by decide
theorem test_word_vcmp : reads 0x82032524A3FF200000000000 (.vcmp always .n32 .lt false 5 4 (.imm 3)) = true := by decide
theorem test_word_vscat : reads 0x9209200424FF200000000000 (.vscat always .f32 2 0 4 4) = true := by decide
theorem test_word_tld : reads 0xA20F42A0A0A0000000000000 (.tld always false 2 (.imm 0) (.imm 0) (.imm 0)) = true := by decide
theorem test_word_mma : reads 0xA70B504243FF000000000000 (.mma always .bf16 .asr 0 2 3) = true := by decide
theorem test_word_gmma : reads 0xA80B504041FF000000000000 (.gmma always .bf16 .asr 0 0 1 0) = true := by decide
theorem test_word_adrain : reads 0xAB090850FFFF00003F800000 (.adrain always .f32 .none (.s 8) 0 none none 0x3F800000 false .asr) = true := by decide
theorem test_word_bcmp : reads 0xB009582020FF7000000021C7 (.bcmp always .f32 .gti 0 0 0 7 7 .nlast) = true := by decide
theorem test_word_bcmp_lti : reads 0xB009582020FF6000000021C7 (.bcmp always .f32 .lti 0 0 0 7 7 .nlast) = true := by decide
theorem test_word_bpopr : reads 0xB10F2458FFFF000000000000 (.bpopr always 4 0) = true := by decide
theorem test_word_phase : reads 0xC00FFFFFFFFF300000000000 (.phase always 3) = true := by decide
theorem test_word_xmit : readsPhase 0xC11F8103FFFF000000000000 (.xmit ⟨false, 1⟩ (.near 0 .east) (.s 3) 0) = true := by decide
theorem test_word_xmit_lane : readsPhase 0xC11F8D03FFFF000000000003 (.xmit ⟨false, 1⟩ (.far 1 true) (.s 3) 3) = true := by decide
theorem test_word_xsel : readsPhase 0xC32F8183FFFF000000010001 (.xsel ⟨false, 2⟩ (.near 0 .east) (.link (.near 0 .west)) 1 1) = true := by decide
theorem test_word_xrcv : readsPhase 0xC23F0483FFFF000000020002 (.xrcv ⟨false, 3⟩ 4 (.near 0 .west) 2 2) = true := by decide
theorem test_word_add_link : readsPhase 0x0140058F03FF000000000000 (.add ⟨false, 4⟩ .i64 false (.s 5) (.link (.far 1 false)) (.s 3)) = true := by decide
theorem test_word_link_outside : reads 0x0140058F03FF000000000000 (.add ⟨false, 4⟩ .i64 false (.s 5) (.link (.far 1 false)) (.s 3)) = false := by decide
theorem test_word_capp : reads 0xD00F0504A0FF000000000000 (.capp always (some 5) 4 (.imm 0) false) = true := by decide
theorem test_word_cwait : reads 0xD10FFFA007FF000000000000 (.cwait always (.imm 0) (.s 7) 0) = true := by decide
theorem test_word_cfence : reads 0xD30FFFFFFFFF000000000030 (.cfence always 0x30) = true := by decide
theorem test_word_cstat : reads 0xD40F09A0FFFF100000000000 (.cstat always true 9 (.imm 0)) = true := by decide
theorem test_word_pissue : reads 0xE20FFF04FFA4000000000000 (.pissue always false false none (.imm 4) ⟨4, none, 0, 0⟩) = true := by decide
theorem test_word_predeem : reads 0xE30F0604FFFF000000000000 (.predeem always false false false (some 6) ⟨4, none, 0, 0⟩) = true := by decide
theorem test_word_trap : reads 0xF00FFFFFFFFF000000000007 (.trap always 7) = true := by decide
theorem test_word_rft : reads 0xF10FFFFFFFFF000000000000 (.rft always) = true := by decide
theorem test_word_mfs : reads 0xF20F04FFFFFF000000000031 (.mfs always 4 0x31) = true := by decide
theorem test_word_halt : reads 0xF80FFFFFFFFF000000000000 (.halt always) = true := by decide

/-! Words written out field by field from the encoding tables of the spec (R58 to R64), for the forms without a worked example -/

/-- Every word stands for the instruction beside it. -/
def readAll (sup ph : Bool) (l : List (Slot × Instr)) : Bool :=
  l.all (fun x => match decode sup ph x.1 with
    | .ok j => j = x.2
    | .error _ => false)

/-- R107. -/
theorem test_words_scalar : readAll false false [
    (0x000000000000000000000000, .nop),
    (0x0300070605FF100000000000, .mul always .i64 true (.s 7) (.s 6) (.s 5)),
    (0x0401070605FF000000000000, .mulh always .n64 (.s 7) (.s 6) (.s 5)),
    (0x05020706A5FF000000000000, .div always .i32 (.s 7) (.s 6) (.imm 5)),
    (0x06030706BFFF000000000000, .rem always .n32 (.s 7) (.s 6) (.imm (-1))),
    (0x070F070605FF000000000000, .and always .x (.s 7) (.s 6) (.s 5)),
    (0x0804070605FF000000000000, .or always .i16 (.s 7) (.s 6) (.s 5)),
    (0x0905070605FF000000000000, .xor always .n16 (.s 7) (.s 6) (.s 5)),
    (0x0AA6070605FF000000000000, .andn ⟨true, 2⟩ .i8 (.s 7) (.s 6) (.s 5)),
    (0x0B07070605FF000000000000, .shl always .n8 (.s 7) (.s 6) (.s 5)),
    (0x0C0F070605FF000000000000, .shr always .x (.s 7) (.s 6) (.s 5)),
    (0x0D00070605FF000000000000, .sha always .i64 (.s 7) (.s 6) (.s 5)),
    (0x0E031F1E1DFF000000000000, .rot always .n32 (.s 31) (.s 30) (.s 29)),
    (0x0F08070605FF000000000000, .min always .f64 (.s 7) (.s 6) (.s 5)),
    (0x1009070605FF000000000000, .max always .f32 (.s 7) (.s 6) (.s 5)),
    (0x120F0706A163000000000000, .sel always (.s 7) (.s 6) (.imm 1) 3)] = true := by decide +kernel
/-- R107. -/
theorem test_words_bits : readAll false false [
    (0x13000706FFFF000000000000, .clz always .i64 (.s 7) (.s 6)),
    (0x140F0706FFFF000000000000, .ctz always .x (.s 7) (.s 6)),
    (0x15030706FFFF000000000000, .popc always .n32 (.s 7) (.s 6)),
    (0x16070706FFFF000000000000, .brev always .n8 (.s 7) (.s 6)),
    (0x170007060504000000000000, .ext always .i64 (.s 7) (.s 6) (.regs (.s 5) (.s 4))),
    (0x1801070605FF1000000003C8, .ins always .n64 (.s 7) (.s 6) (.s 5) 8 15),
    (0x1B0F0706FFFF000000001234, .movh always (.s 7) (some 6) 0x01234),
    (0x1D0F6307FFFF000000000000, .mov always (.p 3) (.s 7)),
    (0x1E0F616263FF500000000000, .plog always .nor 1 2 (some 3)),
    (0x1F00FF060504000000000000, .chk always .i64 (.s 6) (.s 5) (.s 4))] = true := by decide +kernel
/-- R112. -/
theorem test_words_control : readAll false false [
    (0x210FFF07FFFF000000000000, .brx always 7),
    (0x220FFFFFFFFF000000000029, .call always ⟨5, 1⟩),
    (0x230FFF07FFFF000000000000, .callx always 7),
    (0x240FFFFFFFFF000000000000, .ret always),
    (0x250FFF07FFFF0FFFFFFFFFFA, .loop always 7 ⟨-1, 2⟩),
    (0x260FFFFFFFFF000000000000, .yield always),
    (0x270FFFA0FFFF300000000000, .follow always .west (.imm 0)),
    (0x280FFFFFFFFF000000000000, .detach always),
    (0x290FFFA5FFFF000000000000, .lead always (.imm 5))] = true := by decide +kernel
/-- R124. -/
theorem test_words_memory : readAll false false [
    (0x410319170CFF24FFFFFFFFF8, .st always .n32 (.s 25) ⟨23, some 12, 4, -8⟩),
    (0x420F2105FF06100000000000, .ldv always 1 ⟨5, none, 0, 0⟩ (some 6)),
    (0x430F3F05FFFF000000000000, .stv always 31 ⟨5, none, 0, 0⟩ none),
    (0x44010405FFFF300000000000, .ldl always .n64 4 ⟨5, none, 0, 0⟩),
    (0x450FFF05FFFF100000000000, .pref always true ⟨5, none, 0, 0⟩),
    (0x460FFF05FFFF100000000000, .wbl always true ⟨5, none, 0, 0⟩),
    (0x470FFF05FF06100000000000, .disc always true 6 ⟨5, none, 0, 0⟩),
    (0x480F0405FFFF200000000000, .xlat always .exec 4 ⟨5, none, 0, 0⟩),
    (0x51010405FF06000000000000, .cas always .n64 4 (.s 6) ⟨5, none, 0, 0⟩),
    (0x53092105FFFF000000000000, .accv always .f32 false 1 ⟨5, none, 0, 0⟩),
    (0x540FFFFFFFFF100000000000, .rflush always .local),
    (0x550F04FFFFFF000000000000, .rstat always 4),
    (0x56080405FFFF000000000000, .xrd always 4 ⟨5, none, 0, 0⟩),
    (0x570FFF05FFA1000000000000, .xclr always (.imm 1) ⟨5, none, 0, 0⟩),
    (0x590F0405FFFF000000000000, .fst always 4 ⟨5, none, 0, 0⟩),
    (0x5A0FFF05FFFF000000000000, .frst always ⟨5, none, 0, 0⟩)] = true := by decide +kernel
/-- R184. -/
theorem test_words_tasks : readAll false false [
    (0x610FFFFFFFFF000000000000, .sstep always),
    (0x620FFF05FFFF000000000000, .spawn always ⟨5, none, 0, 0⟩),
    (0x630FFFFFFFFF000000000000, .done always),
    (0x640F0405FFFF000000000000, .join always (some 4) ⟨5, none, 0, 0⟩),
    (0x650FFF04A9FF0000000003E8, .qput always 4 (.imm 9) 1000),
    (0x660F0409FFFF0000000003E8, .qget always 4 9 1000),
    (0x680FFFFFFFFF200000000000, .fence always .other),
    (0x690F0405FF06000000000000, .launch always 4 (some 6) ⟨5, none, 0, 0⟩),
    (0x6A0F04FFFFFF000000000000, .gtime always 4)] = true := by decide +kernel
/-- R210. -/
theorem test_words_vector : readAll false false [
    (0x720F2122FFFF000000000000, .vmov always 1 2),
    (0x73092122A3FF000000000000, .vbcast always .f32 1 (.v 2) (.imm 3)),
    (0x74030721A0FF000000000000, .vext always .n32 7 1 (.imm 0)),
    (0x75002107A2FF000000000000, .vins always .i64 1 (.s 7) (.imm 2)),
    (0x7606212223FF800000000000, .vadd always .i8 .asr true 1 2 (.v 3)),
    (0x78082122A2FF000000000000, .vmul always .f64 .asr false 1 2 (.imm 2)),
    (0x7A0921222324000000000000, .vfms always .f32 .asr false 1 2 (.v 3) (.v 4)),
    (0x7B0A21220624000000000000, .vfnma always .f16 .asr false 1 2 (.s 6) (.v 4)),
    (0x7C08212223FF000000000000, .vdiv always .f64 .asr 1 2 (.v 3)),
    (0x7D092122FFFF000000000000, .vsqrt always .f32 .asr 1 2),
    (0x7E00212223FF000000000000, .vmin always .i64 1 2 (.v 3)),
    (0x7F09212223FF000000000000, .vmax always .f32 1 2 (.v 3)),
    (0x80022122FFFF800000000000, .vabs always .i32 true 1 2),
    (0x81092122FFFF000000000000, .vneg always .f32 false 1 2),
    (0x83092122A124000000000000, .vsel always .f32 1 (.v 2) (.imm 1) 4),
    (0x7709212223FF500000000000, .vsub always .f32 .rtz false 1 2 (.v 3))] = true := by decide +kernel
/-- R210. -/
theorem test_words_vector_bits : readAll false false [
    (0x840F212223FF000000000000, .vand always .x 1 2 (.v 3)),
    (0x8501212223FF000000000000, .vor always .n64 1 2 (.v 3)),
    (0x8602212223FF000000000000, .vxor always .i32 1 2 (.v 3)),
    (0x87042122A3FF000000000000, .vshl always .i16 1 2 (.imm 3)),
    (0x88052122A3FF000000000000, .vshr always .n16 1 2 (.imm 3)),
    (0x89062122A3FF000000000000, .vsha always .i8 1 2 (.imm 3)),
    (0x8A022122FFFF000000000009, .vcvt always .i32 .asr false 1 2 .f32),
    (0x8B0E2122FFFF000000000009, .vpack always 1 2 .f32),
    (0x8C092122FFFF000000000000, .vunpk always .f32 .asr 1 2),
    (0x8D090722FFFF000000000002, .vred always .f32 .asr false (.s 7) 2 .max),
    (0x8E002122FFFF000000000001, .vscan always .i64 .asr false 1 2 .min),
    (0x8F09212223FF000000000000, .vperm always .f32 1 2 3),
    (0x90092122A106000000000000, .vslide always .f32 1 2 (.imm 1) (some 6)),
    (0x9109210522FF400000000000, .vgath always .f32 4 1 5 2),
    (0x93092122FFFF000000000003, .vsf always .f32 .asr 1 2 .rsqrt),
    (0x940B212223FF000000000000, .vmacw always .bf16 .asr false 1 2 (.v 3)),
    (0x9504212223FF800000000000, .vaddw always .i16 .asr true 1 2 (.v 3)),
    (0x96092122FFFF000000000000, .vclass always .f32 1 2),
    (0x97092122FFFF800000000000, .vround always .f32 .asr true 1 2),
    (0x98092122FFFF000000000000, .vtrn always .f32 1 2),
    (0x990921222324000000000000, .vdot always .f32 .asr 1 2 3 (some 4))] = true := by decide +kernel
/-- R239, R254. -/
theorem test_words_matrix : readAll false false [
    (0xA00FFFFFFFFF000000000000, .mclaim always),
    (0xA10FFFFFFFFF000000000000, .mrls always),
    (0xA30F42A1A2A3100000000000, .tst always true 2 (.imm 1) (.imm 2) (.imm 3)),
    (0xA40F43FFFFFF000000000000, .tzero always 3),
    (0xA50F4344FFFF000000000000, .tmov always 3 4),
    (0xA6094344FF51000000000000, .tcvt always .f32 .asr 3 4 (some 1)),
    (0xA909504243FF000000000000, .mmas always .f32 .asr 0 2 3),
    (0xAA0F53FFFFFF000000000000, .azero always 3),
    (0xAC0F0751FFFF000000000000, .astat always 7 1),
    (0xAD0F52FFFFFF000000000000, .aclr always 2),
    (0xB20F2459FFFF000000000000, .bpopc always 4 1),
    (0xB30F2459FFFF000000000000, .bfirst always 4 1),
    (0xB40F595AFFFF100000000000, .bclos always true 1 2),
    (0xB50F595A5BFF000000000000, .bcomp always 1 2 3),
    (0xB60F595AFFFF000000000000, .btrn always 1 2),
    (0xB70F595A5BFF300000000000, .blog always .andn 1 2 (some 3)),
    (0xB80F5905FFFF000000000000, .bld always 1 ⟨5, none, 0, 0⟩),
    (0xB90F5905FFFF000000000000, .bst always 1 ⟨5, none, 0, 0⟩),
    (0xBA0F59FFFFFF000000000000, .bzero always 1),
    (0xBB0F59FFFFFF000000000000, .beye always 1)] = true := by decide +kernel
/-- R295, R304, R332. -/
theorem test_words_system : readAll false false [
    (0xD20F04A7FFFF000000000000, .cseq always 4 (.imm 7)),
    (0xE00F0405FFA7900000000000, .tdef always true true (some 4) (.imm 7) ⟨5, none, 0, 0⟩),
    (0xE10F0609FFFF000000000000, .tqry always .ver 6 (.s 9)),
    (0xE40FFF05FFFF800000000000, .pexpire always false true none ⟨5, none, 0, 0⟩),
    (0xE50F0405FFFF000000000000, .pstat always 4 ⟨5, none, 0, 0⟩),
    (0xF30FFF04FFFF000000000031, .mts always 4 0x31),
    (0xF40F04A3FFFF500000000000, .rdring always 5 4 (.imm 3)),
    (0xF50FFFFFFFFF000000000000, .snap always),
    (0xF70FFF04FFFF000000000000, .seed always 4),
    (0xF90FFFFFFFFF000000000007, .dbrk always 7),
    (0xFA0FFF05FFFF000000000000, .save always ⟨5, none, 0, 0⟩),
    (0xFC0F04FFFFFF000000000105, .pcnt always 4 5 true)] = true := by decide +kernel
/-- R272, in a line of a communication phase. -/
theorem test_words_phase : readAll false true [
    (0xC40FFFFFFFFF000000030007, .xidle always 7 3),
    (0xC50FFFFFFFFF000000000000, .pend always)] = true := by decide +kernel
/-- R332, R323, at supervisor level. -/
theorem test_words_supervisor : readAll true false [
    (0xF60FFF05FFFF100000000000, .xinv always true ⟨5, none, 0, 0⟩),
    (0xFB0F040506FF200000000000, .gswitch always .cancel (some 4) 5 6)] = true := by decide +kernel

/-! ### Witnesses: encoding, steps, traps -/

theorem test_witness_DecodeEncode :
    ∃ w, encode (.ins always .n64 (.s 31) (.imm 15) (.s 0) 63 0) = some w ∧ WellFormed (.ins always .n64 (.s 31) (.imm 15) (.s 0) 63 0) :=
  ⟨_, rfl, fun f h => by cases h; decide⟩

theorem test_witness_DecodeRefusals_unassigned :
    assigned (Fields.ofSlot (0x2A <<< 88)).op = false ∧ assigned (Fields.ofSlot (0xFF <<< 88)).op = false := by decide

theorem test_witness_DecodeRefusals_supervisor :
    ∃ a b c d, encode (.mfs always 1 0x800) = some a ∧ WellFormed (.mfs always 1 0x800) ∧
      encode (.mts always 1 0x802) = some b ∧ WellFormed (.mts always 1 0x802) ∧
      encode (.xinv always true (at5 0)) = some c ∧ WellFormed (.xinv always true (at5 0)) ∧
      encode (.gswitch always .cancel none 1 2) = some d ∧ WellFormed (.gswitch always .cancel none 1 2) :=
  ⟨_, _, _, _, rfl, fun f h => by cases h; decide, rfl, fun f h => by cases h; decide, rfl, fun f h => by cases h; decide,
    rfl, fun f h => by cases h; decide⟩

/-- ADD.i64 s7, s7, s6 placed where the step fetches. -/
def placed : State := State.reset.withFetchWord 96 0x0100070706FF000000000000

/-- The hypotheses of StepRunsDecoded at a state, as a Bool. -/
def stepHyps (s : State) (k : Nat) : Bool :=
  let s1 := tick (groupIssues exec) { s with steps := none }
  let run := (s1.getCore k).running.val
  let n := if (s1.getCore k).idling then (run + 1) % 4 else run
  let s0 := if (s1.getCore k).idling then switchTo s1 k n else s1
  let key := 4 * k + n
  let c := s0.getCtx key
  let at_ : State := { s0 with cur := key, grp := { Group.idle with first := c.pc, next := c.pc } }
  s.agenda.isEmpty && decide (s1.now % 8 ≠ 0) && decide (turnOrder s1 = [k]) && (s1.getCore k).phase.isNone &&
  (!(s1.getCore k).idling || !capturing (s1.getCtx (4 * k + run))) && (mget? key s0.halves).isNone &&
  awake s0 key && !captureFull c && (pendingTrap at_ key).isNone && decide (lfsMode c = 0) &&
  match enterLine at_ with
  | .error _ => false
  | .ok (s1, l) =>
    let j := c.pc.toNat % 8
    firstSlot (Bits.fld (lineWord l) 7 5) j && !pairAt (Bits.fld (lineWord l) 7 5) j && !s1.inPhase && s1.ctx.capture.isNone &&
    match decode s1.sup false (slotAt l j) with
    | .error _ => false
    | .ok i => (shapeTrap { s1 with grp := { s1.grp with slot := j } } i).isNone && decide (sMask (Fields.ofSlot (slotOf i)) &&& ~~~s1.ctx.full &&& ~~~1#32 = 0) &&
        !arrayHolds s1.core (s1.cur % 4) (Fields.ofSlot (slotOf i)) && !atBreakpoint s1 c.pc [(j, i)]

/-- The same in context 1, on a core that idles with context 0 as its last one. -/
def placedNext : State :=
  let s := (placed.setCtx 1 (placed.getCtx 0)).setCtx 0 { placed.getCtx 0 with live := false }
  s.setCore 0 { s.getCore 0 with idling := true }

theorem test_witness_StepRunsDecoded : stepHyps placed 0 = true ∧ (placed.getCore 0).idling = false := by decide +kernel

theorem test_witness_StepRunsDecoded_idle : stepHyps placedNext 0 = true ∧ (placedNext.getCore 0).idling = true := by decide +kernel

/-- R96: the search starts after the last running context, which comes last. -/
theorem test_step_rotates : nexts (step placedNext) (fun t => (t.getCore 0).running == 1 && (t.getCtx 1).pc == 0x1001) = true := by decide +kernel

/-- A placed instruction is fetched and run by the next step (R51, R53, R109). -/
theorem test_step_runs_placed : nexts (step placed) (fun t => (t.getCtx 0).pc == 0x1001 && (t.getCtx 0).s[7] == 0) = true := by
  decide +kernel

/-- An idle reset machine: the step passes a cycle (R17). -/
theorem test_step_idle : nexts (step State.reset) (fun t => t.now == 1 && t.gangs.isEmpty) = true := by decide +kernel

theorem test_witness_StepOrder_agenda :
    let s : State := { State.reset with agenda := [.event ⟨0, .csctlClr⟩] }
    s.agenda = [.event ⟨0, .csctlClr⟩] ∧
    nexts (exec .csctlClr { s with agenda := [], subject := 0, grp := Group.idle }) (fun t => t.grp.todo.isEmpty) = true ∧
    (issueCore exec placed 0).isSome = true ∧ (issueCore exec State.reset 0).isNone = true := by decide +kernel

/-- A granted store that may make no access (log 3). -/
theorem test_witness_StepOrder_limit :
    let s : State := { base with steps := some 0 }
    Runs s always ∧ (∃ r, Granted s (.st always .n64 (.s 1) (at5 0)) (s.ea (at5 0)) 8 8 .write true r ∧ r.s.steps = some 0 ∧ r.s.ctx.sent = []) := by
  refine ⟨by unfold Runs; decide +kernel, ?_⟩
  have h : oks (grant { base with steps := some 0 } (.st always .n64 (.s 1) (at5 0)) (State.ea { base with steps := some 0 } (at5 0)) 8 8 .write true)
      (fun r => !r.refused && r.s.ctx.pair.isNone && decide (r.s.steps = some 0) && r.s.ctx.sent.isEmpty) = true := by decide +kernel
  unfold oks at h
  split at h
  · rename_i r hr
    simp only [Bool.and_eq_true, Bool.not_eq_true', Option.isNone_iff_eq_none, decide_eq_true_eq, List.isEmpty_iff] at h
    exact ⟨r, ⟨hr, h.1.1.1, h.1.1.2⟩, h.1.2, h.2⟩
  · simp at h

theorem test_step_limit : nexts (step { placed with agenda := [.limit 2, .core 0] }) (fun t => decide (t.steps = some 2) && (t.getCtx 0).pc == 0x1000) = true := by
  decide +kernel

/-- A pair of ADDI s7 and ADDI s6 that both read what stood before it. -/
def paired : State := { base with grp := { base.grp with todo := [(0, .addi always .i64 (.s 7) (.s 6) 1), (1, .addi always .i64 (.s 6) (.s 7) 2)] } }

theorem test_witness_StepOrder_pair :
    let i : Instr := .addi always .i64 (.s 7) (.s 6) 1
    let h : Instr := .addi always .i64 (.s 6) (.s 7) 2
    let b : State := { paired with grp := { paired.grp with view := some paired.ctx, todo := [] } }
    paired.grp.todo = [(0, i), (1, h)] ∧ lateness i ≤ lateness h ∧
    nexts (exec i { b with grp := { b.grp with slot := 0 } }) (fun r => !r.grp.trapped && !r.grp.stalled &&
      nexts (exec h { b with grp := { b.grp with slot := 1 } }) (fun q => !q.grp.trapped && !q.grp.stalled)) = true := by decide +kernel

/-- A pair whose second slot is a load takes its effects in the other order. -/
theorem test_witness_StepOrder_pair_other :
    let i : Instr := .addi always .i64 (.s 6) (.s 7) 2
    let h : Instr := .ld always .n64 (.s 7) (at5 0)
    let b : State := { base with grp := { base.grp with view := some base.ctx, todo := [] } }
    lateness h < lateness i ∧
    nexts (exec h { b with grp := { b.grp with slot := 1 } }) (fun r => !r.grp.trapped && !r.grp.stalled &&
      nexts (exec i { r with grp := { r.grp with slot := 0 } }) (fun q => !q.grp.trapped && !q.grp.stalled)) = true ∧
    nexts (exec i { b with grp := { b.grp with slot := 0 } }) (fun r => !r.grp.trapped && !r.grp.stalled) = true := by decide +kernel

/-- A pair of which one slot traps: CHK outside its bound. -/
theorem test_witness_StepOrder_traps :
    let i : Instr := .chk always .i64 (.imm 2) (.imm 0) (.imm 2)
    let h : Instr := .addi always .i64 (.s 6) (.s 7) 2
    let b : State := { base with grp := { base.grp with view := some base.ctx, todo := [] } }
    nexts (exec i { b with grp := { b.grp with slot := 0 } }) (fun r => r.grp.trapped) = true ∧
    nexts (exec h { b with grp := { b.grp with slot := 0 } }) (fun r => !r.grp.trapped) = true ∧
    nexts (exec i { b with grp := { b.grp with slot := 1 } }) (fun r => r.grp.trapped) = true := by decide +kernel

/-- R56: both instructions of a pair read the registers as they stood before it. -/
theorem test_pair_reads_before : nexts (runTodo exec paired) (fun t => t.ctx.s[7] == 1 && t.ctx.s[6] == 2) = true := by decide +kernel

theorem test_witness_StepKeepsMemoryCanonical : placed.mem.wf = true ∧ nexts (step placed) (fun _ => true) = true := by decide +kernel

theorem test_witness_ResetRegisters : (511 : Nat) < 512 ∧ (4095 : Nat) < 4096 ∧ (127 : Nat) < 128 := by decide

/-- The plain hypotheses of TrapEntry. -/
def entryHyps (s : State) (key : Nat) : Bool :=
  (s.getCtx key).capture.isNone && (s.getCore (key / 4)).phase.isNone && decide ((s.getCtx key).lfs.toNat % 4 < 2) &&
    !(s.getGang (s.getCore (key / 4)).gang).attached

theorem test_witness_TrapEntry_attached :
    let s := mk id id (fun g => { g with attached := true })
    (s.getCtx 0).capture = none ∧ (s.getCore 0).phase = none ∧ (s.getCtx 0).lfs.toNat % 4 < 2 ∧ (s.getGang (s.getCore 0).gang).attached = true := by
  decide +kernel

theorem test_witness_TrapEntry_double :
    let s := mk (fun c => { c with tcause := 1 <<< 63 }) id id
    entryHyps s 0 = true ∧ (s.getCtx 0).tcause.getLsbD 63 = true := by decide +kernel

theorem test_witness_TrapEntry_unhandled :
    entryHyps base 0 = true ∧ (base.getCtx 0).tcause.getLsbD 63 = false ∧ (base.getCtx 0).trapvec = 0 := by decide +kernel

theorem test_witness_TrapEntry_bad_vector :
    let s := mk (fun c => { c with trapvec := 5 }) id id
    entryHyps s 0 = true ∧ (s.getCtx 0).tcause.getLsbD 63 = false ∧ (s.getCtx 0).trapvec ≠ 0 ∧ (targetCause s 0 5 true).isSome := by
  decide +kernel

/-- The placed state with a handler at its own line. -/
def handled : State := placed.upd (fun c => { c with trapvec := 0x1000 })

theorem test_witness_TrapEntry_handler :
    let s1 := handled.setCtx 0 { handled.getCtx 0 with wait := none, lineBuf := none, sent := [], behind := none }
    entryHyps handled 0 = true ∧ (handled.getCtx 0).tcause.getLsbD 63 = false ∧ targetCause s1 0 0x1000 true = none ∧
      reachable s1 0 0x1000 = true := by decide +kernel

/-- A handler in a page that is not mapped. -/
theorem test_witness_TrapEntry_unreachable :
    let s := mk (fun c => { c with trapvec := 0x1000 }) id id
    entryHyps s 0 = true ∧ (s.getCtx 0).tcause.getLsbD 63 = false ∧ (s.getCtx 0).trapvec ≠ 0 ∧ reachable s 0 0x1000 = false := by
  decide +kernel

/-- R329, R333: TRAP 7 with a handler, as the worked example of chapter 19: the cause with ACT, the code in TINFOA, the PC at TRAPVEC. -/
theorem test_trap_entry : nexts (exec (.trap always 7) handled) (fun t =>
    t.ctx.tcause == 0x800000000000004A && t.ctx.tinfoa == 7 && t.ctx.pc == 0x1000 && t.ctx.live) = true := by decide +kernel

/-- R329: a trap without a handler ends the context. -/
theorem test_trap_unhandled : nexts (exec (.trap always 7) base) (fun t => !t.ctx.live) = true := by decide +kernel

theorem test_witness_TrapEntry_forms : Runs handled always ∧ handled.ctx.wait = none ∧ handled.ctx.behind = none := by
  unfold Runs; decide +kernel

/-- A context in its handler, its TPC the entry line. -/
def inTrap : State := placed.upd (fun c => { c with tcause := 0x800000000000004A, tpc := 0x1000 })

theorem test_witness_TrapReturn_returns :
    Runs inTrap always ∧ inTrap.ctx.tcause.getLsbD 63 = true ∧
      oks (lookAhead inTrap 0 inTrap.ctx.tpc) (fun u => (targetCause u 0 inTrap.ctx.tpc false).isNone) = true := by
  unfold Runs; decide +kernel

theorem test_witness_TrapReturn_inactive : Runs base always ∧ base.ctx.tcause.getLsbD 63 = false := by
  unfold Runs; decide +kernel

theorem test_witness_TrapReturn_bad_pc :
    let s := mk (fun c => { c with tcause := 1 <<< 63, tpc := 5 }) id id
    Runs s always ∧ s.ctx.tcause.getLsbD 63 = true ∧ oks (lookAhead s 0 s.ctx.tpc) (fun u => (targetCause u 0 s.ctx.tpc false).isSome) = true := by
  unfold Runs; decide +kernel

theorem test_witness_TrapReturn_next :
    let e : RingEntry := { RingEntry.free with state := 3, tseq := 1 }
    let s := mk (fun c => { c with tcause := 1 <<< 63 }) (fun k => { k with ring := [(1, e)] }) id
    let t := mk (fun c => { c with tcause := 1 <<< 63, errors := [⟨0x51, 0, 0, 0⟩] }) id id
    Runs s always ∧ Runs t always ∧ s.ctx.live = true ∧ s.ctx.capture = none ∧ s.ctx.wait = none ∧ s.ctx.packet = none ∧ s.ctx.sent = [] ∧ mget? 0 s.halves = none ∧ s.ctx.refusals = [] ∧ s.ctx.walking = none ∧
      (oldestFault s.core 0).isSome ∧ (oldestFault t.core 0) = none ∧ t.ctx.errors ≠ [] := by
  unfold Runs; decide +kernel

/-- R330: RFT goes to TPC and clears ACT. -/
theorem test_rft : nexts (exec (.rft always) inTrap) (fun t => t.ctx.pc == 0x1000 && t.ctx.tcause == 0x4A) = true := by decide +kernel

/-- R330: RFT with ACT = 0 raises 0x4B. -/
theorem test_rft_inactive : nexts (exec (.rft always) handled) (fun t => t.ctx.tcause == 0x800000000000004B) = true := by decide +kernel

/-- R330: a TPC whose line cannot be read stops RFT with its trap still held. -/
theorem test_witness_TrapReturn_unread :
    let s := inTrap.setLine (0x40001000 / 64) { inTrap.getLine (0x40001000 / 64) with poison := true }
    Runs s always ∧ s.ctx.tcause.getLsbD 63 = true ∧ oks (lookAhead s 0 s.ctx.tpc) (fun _ => true) = false := by
  unfold Runs; decide +kernel

theorem test_witness_FalseGuard :
    let i : Instr := .vadd ⟨true, 0⟩ .f32 .rne false 31 2 (.v 3)
    let bad := mk (fun c => { c with vsh := 0x9102 }) id id
    (∃ w, encode i = some w ∧ base.guard (Guard.ofFields (Fields.ofSlot w).g) = false) ∧ base.inPhase = false ∧ shapeTrap base i = none ∧
      (shapeTrap bad i).isSome = true ∧ bad.inPhase = false :=
  ⟨⟨_, rfl, by decide +kernel⟩, by decide +kernel, by decide +kernel, by decide +kernel, by decide +kernel⟩

/-! ### Scalar forms -/

theorem test_witness_ScalarArithmetic :
    let s := two 1 2 0x8000000000000000 0xFFFFFFFFFFFFFFFF
    Runs s always ∧ tyVal .i64 (s.src (.s 2)) = -1 ∧ tyVal .i64 (s.src (.s 1)) = Num.intMin .i64 ∧ tyVal .i64 (s.src (.s 0)) = 0 ∧
      ¬ (tyVal .i64 (s.src (.imm 1)) = -1 ∧ tyVal .i64 (s.src (.s 1)) = Num.intMin .i64) := by
  unfold Runs; decide +kernel

theorem test_witness_ScalarLogic : Runs base always := by unfold Runs; decide +kernel

theorem test_witness_ScalarFields : Runs base always ∧ (63 : BitVec 6).toNat + (0 : BitVec 6).toNat < 64 ∧ Ty.n8.isInt = true := by
  unfold Runs; decide +kernel

theorem test_witness_ScalarCompare :
    let s := two 1 2 5 6
    let q := two 1 2 0x7FF4000000000000 0
    Runs s always ∧ Runs q always ∧ (tyVal .i64 (s.src (.s 1)) ≤ tyVal .i64 (s.src (.s 1)) ∧ tyVal .i64 (s.src (.s 1)) < tyVal .i64 (s.src (.s 2))) ∧
      ¬ (tyVal .i64 (s.src (.s 1)) ≤ tyVal .i64 (s.src (.s 2)) ∧ tyVal .i64 (s.src (.s 2)) < tyVal .i64 (s.src (.s 2))) ∧
      2 ^ 63 - 2 ^ 52 < (q.rs 1).toNat % 2 ^ 64 % 2 ^ 63 ∧ ¬ 2 ^ 63 - 2 ^ 52 < (s.rs 1).toNat % 2 ^ 64 % 2 ^ 63 ∧ ¬ 2 ^ 63 - 2 ^ 52 < (s.rs 2).toNat % 2 ^ 64 % 2 ^ 63 := by
  unfold Runs; decide +kernel

/-- R61, R110: an immediate of a floating comparison is its exact integer. -/
theorem test_max_immediate : nexts (exec (.max always .f64 (.s 3) (.s 1) (.imm 3)) (two 1 2 0x3FF0000000000000 0)) (fun t => t.ctx.s[3] == 0x4008000000000000) = true ∧
    (Num.ofInteger (Num.fmtOf .f32) .rne (-16)).1 = 0xC1800000 := by decide +kernel

theorem test_witness_RegisterFrame : base.grp.view = none := by decide +kernel

/-- R109: ADD wraps, and .sat clips with SA. -/
theorem test_add_wraps : nexts (exec (.add always .i8 false (.s 3) (.s 1) (.s 1)) (two 1 2 0x7F 0)) (fun t => t.ctx.s[3] == 0xFFFFFFFFFFFFFFFE) = true := by decide +kernel
theorem test_add_sat : nexts (exec (.add always .i8 true (.s 3) (.s 1) (.s 1)) (two 1 2 0x7F 0)) (fun t => t.ctx.s[3] == 0x7F && t.ctx.asr == 0x2000) = true := by decide +kernel
/-- R109: DIV by zero gives 0 and DZ, which is bit 1 of the flags (R79). -/
theorem test_div_zero : nexts (exec (.div always .i64 (.s 3) (.s 1) (.s 0)) (two 1 2 7 0)) (fun t => t.ctx.s[3] == 0 && t.ctx.asr == 0x200) = true := by decide +kernel
/-- R109: REM takes the dividend's sign. -/
theorem test_rem_sign : nexts (exec (.rem always .i64 (.s 3) (.s 1) (.imm 3)) (two 1 2 0xFFFFFFFFFFFFFFF9 0)) (fun t => t.ctx.s[3] == 0xFFFFFFFFFFFFFFFF) = true := by decide +kernel
/-- R109: MULH of two n64. -/
theorem test_mulh : nexts (exec (.mulh always .n64 (.s 3) (.s 1) (.s 1)) (two 1 2 0xFFFFFFFFFFFFFFFF 0)) (fun t => t.ctx.s[3] == 0xFFFFFFFFFFFFFFFE) = true := by decide +kernel
/-- R95: ROT of the low 8 bits. -/
theorem test_rot : nexts (exec (.rot always .n8 (.s 3) (.s 1) (.imm 1)) (two 1 2 0x181 0)) (fun t => t.ctx.s[3] == 0x03) = true := by decide +kernel
/-- R109: SHA keeps the sign. -/
theorem test_sha : nexts (exec (.sha always .i16 (.s 3) (.s 1) (.imm 15)) (two 1 2 0x8000 0)) (fun t => t.ctx.s[3] == 0xFFFFFFFFFFFFFFFF) = true := by decide +kernel
/-- R109: CLZ and CTZ of zero give the width. -/
theorem test_clz_zero : nexts (exec (.clz always .n32 (.s 3) (.s 0)) base) (fun t => t.ctx.s[3] == 32) = true := by decide +kernel
theorem test_ctz : nexts (exec (.ctz always .n32 (.s 3) (.imm 8)) base) (fun t => t.ctx.s[3] == 3) = true := by decide +kernel
/-- R109: the worked field of chapter 20: EXT.n64 of 8 bits from bit 0. -/
theorem test_ext : nexts (exec (.ext always .n64 (.s 3) (.s 1) (.const 0 7)) (two 1 2 0x1234 0)) (fun t => t.ctx.s[3] == 0x34) = true := by decide +kernel
theorem test_ins : nexts (exec (.ins always .n64 (.s 3) (.s 1) (.imm 15) 4 3) (two 1 2 0x1204 0)) (fun t => t.ctx.s[3] == 0x12F4) = true := by decide +kernel
/-- R109: MOVH puts 20 bits above the low 44 of A. -/
theorem test_movh : nexts (exec (.movh always (.s 3) (some 1) 0xABCDE) (two 1 2 0xFFFFF00000000001 0)) (fun t => t.ctx.s[3] == 0xABCDE00000000001) = true := by decide +kernel
/-- R110: a comparison with a NaN is false, and ne is true. -/
theorem test_cmp_nan : nexts (exec (.cmp always .f64 .ne 1 (.s 1) (.s 1)) (two 1 2 0x7FF8000000000000 0)) (fun t => t.ctx.p == 3) = true := by decide +kernel
/-- R75, R79: a signalling NaN is quieted and sets NV, which is bit 0 of the flags. -/
theorem test_max_snan : nexts (exec (.max always .f32 (.s 3) (.s 1) (.s 0)) (two 1 2 0x7F800001 0)) (fun t => t.ctx.s[3] == 0x7FC00001 && t.ctx.asr == 0x100) = true := by decide +kernel
/-- R110: MIN of −0 and +0 is −0. -/
theorem test_min_zero : nexts (exec (.min always .f32 (.s 3) (.s 1) (.s 0)) (two 1 2 0x80000000 0)) (fun t => t.ctx.s[3] == 0x80000000) = true := by decide +kernel
/-- R93: s0 discards writes. -/
theorem test_s0 : nexts (exec (.movi always .i64 (.s 0) 5) base) (fun t => t.ctx.s[0] == 0) = true := by decide +kernel
/-- R111: CHK traps on its upper bound with 0x1F. -/
theorem test_chk : nexts (exec (.chk always .i64 (.imm 2) (.imm 0) (.imm 2)) handled) (fun t => t.ctx.tcause == 0x800000000000001F && t.ctx.tinfoa == 2) = true := by decide +kernel
theorem test_plog : nexts (exec (.plog always .nor 2 1 (some 3)) base) (fun t => t.ctx.p == 5) = true := by decide +kernel

/-! ### Control -/

/-- The placed state at the group it fetches. -/
def atLine (f : Ctx → Ctx) : State :=
  { placed.upd f with grp := { Group.idle with first := 0x1000, next := 0x1001 } }

theorem test_witness_Branches :
    let s := atLine (fun c => { c with s := (c.s.set 4 0x1000).set 30 0x1000 })
    let passes (a : Word) (btm : Bool) : Bool := oks (lookAhead s 0 a) (fun u => (targetCause u 0 a btm).isNone)
    Runs s always ∧ passes (s.target ⟨0, 0⟩) true = true ∧ passes (s.rs 4) true = true ∧ passes (s.rs 30) false = true ∧
      Runs base always ∧ (two 4 6 1 0).rs 4 = 1 ∧ s.rs 4 ≠ 1 := by
  unfold Runs; decide +kernel

theorem test_witness_BranchTargets_refused :
    let s := two 4 30 5 7
    let fails (s : State) (a : Word) (btm : Bool) (c : Nat) : Bool := oks (lookAhead s 0 a) (fun u => decide (targetCause u 0 a btm = some c))
    Runs s always ∧ fails s (s.rs 4) true 0x0B = true ∧ fails s (s.rs 30) false 0x0B = true ∧ fails (atLine id) ((atLine id).target ⟨0, 1⟩) true 0x06 = true ∧
      fails placed 0x1001 true 0x06 = true ∧ s.rs 4 ≠ 1 := by
  unfold Runs; decide +kernel

/-- A line whose word has PT 1 (slots 0 and 1 are a pair) and BTM 1, for BranchTargets. -/
theorem test_witness_BranchTargets_lines :
    let l (w : Nat) : Line := BitVec.ofNat 512 (w * 2 ^ 480)
    let s (w : Nat) : State := mk (fun c => { c with lineBuf := some (0, l w) }) id id
    (4 : Nat) % 8 < 5 ∧ peekLine (s 0x21) 0 1 = some (l 0x21) ∧ firstSlot (Bits.fld (lineWord (l 0x21)) 7 5) 1 = false ∧
      firstSlot (Bits.fld (lineWord (l 0x01)) 7 5) 4 = true ∧ Bits.bit (lineWord (l 0x01)) 4 = false ∧ peekLine (s 0x01) 0 4 = some (l 0x01) ∧
      Bits.bit (lineWord (l 0x10)) 4 = true ∧ firstSlot (Bits.fld (lineWord (l 0x10)) 7 5) 4 = true ∧ peekLine (s 0x10) 0 4 = some (l 0x10) := by
  decide +kernel

/-- Lines of targets: one that is held, one that is fetched, and one that is fetched poisoned. -/
theorem test_witness_BranchTargets_lookAhead :
    let held := mk (fun c => { c with lineBuf := some (0, 5) }) id id
    let bad := placed.setLine (0x40001000 / 64) { placed.getLine (0x40001000 / 64) with poison := true }
    let fetch (s : State) : Bool := oks (fetchAt s 0 0x1000) (fun r => match r.2 with
      | some pa => poisoned (homeRead r.1 .ctx pa) pa
      | none => false)
    heldLine held 0 4 = some 5 ∧ oks (lookAhead placed 0 0x1000) (fun u => u.mem == placed.mem) = true ∧ codeAddrOk 0x1000 = true ∧
      heldLine placed 0 0x1000 = none ∧ (placed.getCore 0).phase = none ∧ oks (fetchAt placed 0 0x1000) (fun r => r.2.isSome) = true ∧
      fetch placed = false ∧ fetch bad = true := by
  decide +kernel

/-- R113: LOOP decrements and branches until its register reaches 1. -/
theorem test_loop : nexts (exec (.loop always 4 ⟨0, 0⟩) (atLine (fun c => { c with s := c.s.set 4 2 })))
    (fun t => t.ctx.s[4] == 1 && t.ctx.pc == 0x1000) = true := by decide +kernel
theorem test_loop_done : nexts (exec (.loop always 4 ⟨0, 0⟩) (two 4 6 1 0)) (fun t => t.ctx.s[4] == 0 && t.grp.target.isNone) = true := by decide +kernel

theorem test_witness_LeadFollow_forms :
    let f := mk (fun c => { c with lfs := 2 }) id id
    let led := mk (fun c => { c with lfs := 1 }) id id
    let det := atLine (fun c => { c with lfs := 2 })
    let near1 := base.setCtx 4 { Ctx.reset with live := true, lfs := mkLfs 8 0 0 1 }
    Runs base always ∧ Runs led always ∧ Runs f always ∧ base.grp.view = none ∧ lfsMode base.ctx = 0 ∧ 1 ≤ (base.src (.imm 1)).toNat ∧
      (base.src (.imm 15)).toNat ≤ 15 ∧ (base.getCtx 1).live = false ∧ (base.getCtx 2).live = false ∧ (base.getCtx 3).live = false ∧
      lfsMode led.ctx = 1 ∧ (led.src (.s 0)).toNat = 0 ∧ Runs near1 always ∧ followRefused near1 .east (near1.src (.imm 15)).toNat = false ∧ followRefused near1 .east 0 = false ∧
      oks (lookAhead det 0 det.here) (fun u => (targetCause u 0 det.here true).isNone && decide (2 ≤ lfsMode u.ctx)) = true ∧
      oks (lookAhead (atLine id) 0 (atLine id).here) (fun u => (targetCause u 0 (atLine id).here true).isNone && decide (lfsMode u.ctx < 2)) = true ∧ followRefused base .east 15 = true ∧ Runs (mk (fun c => { c with lfs := 3 }) id id) always ∧ oks (lookAhead base 0 5) (fun u => (targetCause u 0 5 true).isSome) = true := by
  unfold Runs; decide +kernel

/-- A follower whose buffer holds the items given. -/
def following (lfs pc : Word) (buf : List Forward) : State := mk (fun c => { c with lfs := lfs, pc := pc }) (fun k => { k with buffer := buf }) id

def readies (p : Prep) : Bool :=
  match p with
  | .group _ => true
  | _ => false

theorem test_witness_LeadFollow_stream :
    let a := following 2 0 [.attach 0x1000]
    let b := following 2 0 [.stop 0x1000]
    let c := following 3 0x2000 [.group 0x1000 0x1001 [(0, .nop)] none]
    let t : State := { c with cur := 0, grp := { Group.idle with first := 0x1000, next := 0x1001 } }
    followerOf a 0 = some 0 ∧ runsOn a 0 = true ∧ lfsMode (a.getCtx 0) = 2 ∧ followerOf b 0 = some 0 ∧ runsOn b 0 = true ∧
      followerOf c 0 = some 0 ∧ lfsMode (c.getCtx 0) = 3 ∧ runsOn c 0 = true ∧ (c.getCore 0).running.val = 0 ∧ (c.getCore 0).phase = none ∧
      awake c 0 = true ∧ captureFull (c.getCtx 0) = false ∧ pendingTrap t 0 = none ∧
      readies (readyGroup t 0x1000 0x1001 [(0, .nop)] (some none)) = true ∧ streamLost (following 3 0x2000 []) 0 = true ∧
      followerOf (following 3 0x2000 []) 0 = some 0 := by
  decide +kernel

theorem test_witness_LeadFollow_way :
    let s0 : State := { following 3 0x1000 [.attach 0] with grp := { Group.idle with went := some (some 0x1000) } }
    s0.grp.went = some (some 0x1000) ∧ lfsMode (s0.getCtx s0.cur) = 3 ∧ lfsFwd (s0.getCtx s0.cur) = 0 ∧
      { s0 with grp := { s0.grp with target := some 0x1000 } }.grp.target = some 0x1000 ∧ s0.grp.target ≠ some 0x1000 := by decide +kernel

/-! ### Memory -/

/-- The placed state with s5 the virtual address of device memory, and a page of control space above it. -/
def dev (f : Ctx → Ctx) : State :=
  let s := placed.upd (fun c => f { c with s := c.s.set 5 0x2000 })
  { s with mem := s.mem.writeLE (placeTable + 8) 8 (2 ^ 45 + 0x3F) }

/-- The same with an address space that no access table admits. -/
def foreign : State :=
  let s := dev id
  s.updGang (fun g => { g with asid := 5 })

theorem test_witness_AccessChecks_address :
    nearOff (2 ^ 57) = none ∧ (2 : Nat) ^ 57 ≤ (BitVec.ofNat 64 (2 ^ 57)).toNat ∧ (nearOff (near.toNat + 1)).isSome ∧ (near.toNat + 1) % 2 ≠ 0 ∧
      (match xlate base 0 1 0 .read with | .error e => e.1 == 0x10 | .ok _ => false) = true ∧
      (match xlate base 0 1 near.toNat .read with | .ok x => x.pa == mkPa 0 1 0 | .error _ => false) = true := by decide +kernel

/-- R118: entries at each level: not valid, a leaf at level 0, misplaced, or in its place; a table below level 3, or in its place, where a walk of one
level ends at the next. -/
theorem test_witness_AccessChecks_walk :
    let m (v : Nat) : Memory := Memory.writeLE [] 0x1000 8 v
    let r (v : Nat) (level : Nat) : Except Nat (Nat × Nat) := walk (m v) 0 1 level 0x1000
    (r 0 2, r 3 0, r (3 + 2 ^ 16) 2, r (0x40000000 + 3) 1) = (.error 2, .error 0, .error 2, .ok (1, 0x40000003)) ∧
      (r 1 3, r 0x101 0, r 1 0) = (.error 3, .error 0, .error 1) ∧ walk (Memory.writeLE (m 0x2001) 0x2000 8 0x40000003) 0 2 0 0x1000 = .ok (1, 0x40000003) := by
  decide +kernel

theorem test_witness_AccessChecks_translation :
    let e : TlbEntry := ⟨0, 1, 0, 0x40000003⟩
    let s := dev id
    let c := s.setCore 0 { s.getCore 0 with tlb := [e] }
    nearOff 0x2000 = none ∧ (0x2000 : Nat) < 2 ^ 57 ∧ tlbHit (base.getCore 0) 0 0x2000 = none ∧ walk base.mem 0x2000 4 0 0 = .error 0 ∧
      oks (walkStep s 0 0x2000) (fun _ => true) = true ∧ needsWalk s 0 1 0x2000 = true ∧ needsWalk c 0 1 0x2000 = false ∧ tlbHit (s.getCore 0) 0 0x2000 = none ∧ walk s.mem 0x2000 4 0 placeRoot = .ok (1, placePage + 0x3F) ∧
      (match xlate s 0 1 0x2000 .read with | .ok x => x.pa == 0x40002000 && x.fill.isSome | .error _ => false) = true ∧
      tlbHit (c.getCore 0) 0 0x2000 = some e ∧ e.pte.toNat.testBit 2 = false ∧ (s.getCore 0).tlb.length ≤ 64 :=
  by decide +kernel

/-- The entries that the walk for the placed page reads, both readable. -/
theorem test_witness_AccessChecks_walk_reads : ∀ a ∈ walkReads (dev id).mem 0x2000 4 0 placeRoot, WalkReadable (dev id) 0 a := by
  have h : walkReads (dev id).mem 0x2000 4 0 placeRoot = [placeRoot, placeTable] := by decide +kernel
  have l : ((dev id).getCore 0).leases = [] := by decide +kernel
  rw [h]
  simp only [List.mem_cons, List.not_mem_nil, or_false, WalkReadable, Sound, l]
  rintro a (rfl | rfl) <;>
    exact ⟨by decide +kernel, by decide +kernel, ⟨by decide +kernel, by decide +kernel⟩, by decide +kernel, fun x hx => by cases hx⟩

theorem test_witness_AccessChecks_control :
    oks (checkMode (dev id) (.amo always .i64 .add none (.imm 1) (at5 0)) 0x40000000 8 .rmw) (fun x => paReg x.2 == 2) = true := by decide +kernel

theorem test_witness_AccessChecks_pad :
    base.pkg < 4096 ∧ nearOff (near.toNat + 65535) = some 65535 ∧ 65535 < padSize base base.coreKey ∧ (near.toNat + 65535) % 1 = 0 ∧
      (∀ k ∈ base.gang.kept, overlaps 0 1 k.pa k.bytes.length = false) ∧ overlapping base.core (mkPa 0 1 65535) 1 = none ∧
      nearOff (near.toNat + 65536) = some 65536 ∧ padSize base base.coreKey ≤ 65536 ∧
      paReg (mkPa 0 1 65535) = 1 ∧ padCore (mkPa 0 1 65535) = base.coreKey := by decide +kernel

theorem test_witness_Loads :
    Runs base always ∧ Runs (dev id) always ∧ Runs foreign always ∧ (∃ r, Granted base (.ld always .i64 (.s 3) (at5 8)) (base.ea (at5 8)) 8 8 .read true r) ∧
      oks (grant base (.ld always .i64 (.s 3) (at5 8)) (base.ea (at5 8)) 8 8 .read true)
        (fun r => !r.s.inPhase && !(loadBytes r.s r.pa 8).1.inPhase) = true ∧
      oks (grant foreign (.ld always .i64 (.s 3) (at5 0)) (foreign.ea (at5 0)) 8 8 .read true) (fun r => r.refused) = true ∧
      (∃ r, Granted (dev id) (.ldl always .i64 3 (at5 0)) ((dev id).ea (at5 0)) 8 8 .read false r) ∧
      oks (grant (dev id) (.ldl always .i64 3 (at5 0)) ((dev id).ea (at5 0)) 8 8 .read false) (fun r =>
        let x := loadAtHome r.s r.pa 8
        !r.s.inPhase && !(discardLine x.1 r.pa).inPhase && offCore x.1 r.pa && r.s.mem.wf && decide (r.s.gang.shadow = 0) && !x.1.gang.dchk) = true ∧
      (let s := (dev id).setLine 0x1000080 { LineMeta.reset with dirty := some 7 }
      oks (grant (s.updGang (fun g => { g with dchk := true })) (.ldl always .i64 3 (at5 0)) (s.ea (at5 0)) 8 8 .read false) (fun r =>
        offCore r.s r.pa && (r.s.getLine 0x1000080).dirty.isSome && r.s.gang.dchk && decide ((r.s.getGang 0).shadow = 0)) = true) := by
  refine ⟨?_, ?_, ?_, granted_of ?_, ?_, ?_, granted_of ?_, ?_, ?_⟩ <;> (try unfold Runs) <;> decide +kernel

/-- R129, R163: LDL of a dirty line answers its value, and the line's bytes return to the backing value. -/
theorem test_ldl : nexts (exec (.ldl always .i64 3 (at5 0)) (({ dev id with mem := (dev id).mem.writeLE 0x40002000 8 9 }).setLine 0x1000080 { LineMeta.reset with dirty := some 7 }))
    (fun t => t.core.answers == [⟨0, 3, 9, 0⟩] && t.mem.readLE 0x40002000 64 == 7 && (t.getLine 0x1000080).dirty.isNone) = true := by decide +kernel
/-- R127: LD.i16 of the own scratchpad, sign-extended. -/
theorem test_ld : nexts (exec (.ld always .i16 (.s 3) (at5 2)) (pad base 2 [0xFE, 0xFF])) (fun t => t.ctx.s[3] == 0xFFFFFFFFFFFFFFFE) = true := by decide +kernel
/-- R94: a load from device memory leaves its register empty and answers later. -/
theorem test_ld_remote : nexts (exec (.ld always .i64 (.s 3) (at5 0)) (dev id)) (fun t => !t.ctx.full.getLsbD 3 && t.core.answers.length == 1) = true := by decide +kernel
/-- R123: a misaligned address raises 0x13 with TINFOA the address. -/
theorem test_ld_misaligned : nexts (exec (.ld always .i64 (.s 3) (at5 4)) (handled.upd (fun c => { c with s := c.s.set 5 near })))
    (fun t => t.ctx.tcause == 0x8000000000000013 && t.ctx.tinfoa == near + 4) = true := by decide +kernel

theorem test_witness_Stores_whole :
    oks (grant base (.st always .n32 (.s 3) (at5 4)) (base.ea (at5 4)) 4 4 .write false) (fun r => r.s.ctx.sent.isEmpty && r.s.steps.isNone) = true := by
  decide +kernel

theorem test_witness_Stores :
    (∃ r, Granted base (.st always .n32 (.s 3) (at5 4)) (base.ea (at5 4)) 4 4 .write false r) ∧
      oks (grant foreign (.st always .i64 (.s 3) (at5 0)) (foreign.ea (at5 0)) 8 8 .write true) (fun r => r.refused) = true ∧
      base.gangId ≠ 0 ∧ leavesGang base.gang (mkPa 1 0 0) = true ∧ leavesGang base.gang (mkPa 0 2 0) = true ∧ leavesGang base.gang (mkPa 0 1 0) = false ∧
      base.mem.wf = true ∧ base.gang.shadow = 0 ∧ faultRec base 1 1 = none := by
  refine ⟨granted_of ?_, ?_⟩ <;> decide +kernel

/-- R127: ST.n16 stores the low two bytes. -/
theorem test_st : nexts (exec (.st always .n16 (.s 3) (at5 6)) (two 3 5 0x1234ABCD near)) (fun t => t.mem.readLE (mkPa 0 1 0) 16 == 0xABCD000000000000) = true := by decide +kernel

theorem test_witness_RowForms :
    let wide := mk (fun c => { c with vsh := 0x9102, s := c.s.set 4 128 }) id id
    let odd := two 4 5 65 near
    Runs base always ∧ Runs wide always ∧ Runs odd always ∧ 32 < (31 : Fin 32).val + (Vec.Shape.ofWord wide.view.vsh.toNat).rows ∧
      (31 : Fin 32).val + (Vec.Shape.ofWord odd.view.vsh.toNat).rows ≤ 32 ∧ (odd.rs 4).toNat % 64 ≠ 0 ∧
      (Vec.Shape.ofWord wide.view.vsh.toNat).rows = 2 ∧ (wide.rs 4).toNat % 64 = 0 ∧
      (∀ i, i < 2 → nearOff (wide.ea (at5 64) + BitVec.ofNat 64 i * wide.rs 4).toNat = some (64 + 128 * i) ∧ (64 + 128 * i) % 64 = 0 ∧
        64 + 128 * i < padSize wide wide.coreKey) ∧
      wide.pkg < 4096 ∧ wide.gang.kept = [] ∧ wide.core.scoreboard = [] ∧ wide.ctx.pair = none ∧ Whole wide := by
  unfold Runs Whole; decide +kernel

/-- R128: STV of one row stores the 64 bytes of the register. -/
theorem test_stv : nexts (exec (.stv always 2 (at5 64) none) (mk (fun c => { c with v := c.v.set 2 7 }) id id))
    (fun t => t.mem.readLE (mkPa 0 1 64) 64 == 7) = true := by decide +kernel

/-- The placed state with a line of device memory that the core has stored to, dirty. -/
def storedLine : State :=
  ((dev id).setLine 0x1000080 { LineMeta.reset with dirty := some 7 }).setCore 0 { (dev id).getCore 0 with stored := [0x1000080] }

theorem test_witness_LineForms_written :
    oks (checkEA storedLine (storedLine.ea (at5 0)) 1 .read) (fun x => offCore x.1 x.2 && decide (x.2 / 64 ∈ x.1.core.stored) &&
      (x.1.getLine (x.2 / 64)).dirty.isSome) = true ∧ Runs storedLine always := by unfold Runs; decide +kernel

/-- R130: WBL of a line that the L1 does not hold is a NOP. -/
theorem test_wbl_absent : nexts (exec (.wbl always false (at5 0)) (storedLine.setCore 0 { storedLine.getCore 0 with stored := [] }))
    (fun t => (t.getLine 0x1000080).dirty == some 7) = true := by decide +kernel

theorem test_witness_LineForms :
    let s := two 4 5 128 near
    Runs s always ∧ oks (checkEA s (s.ea (at5 0)) 1 .read) (fun _ => true) = true ∧ nearOff (s.ea (at5 65408)).toNat = some 65408 ∧
      (s.rs 4).toNat % 64 = 0 ∧ 65408 + (s.rs 4).toNat ≤ padSize s s.coreKey ∧ 0 < (s.rs 4).toNat ∧
      (match checkEA s (s.ea ⟨0, none, 0, 0⟩) 1 .exec with | .error (.after _ t) => t.cause == 0x10 | _ => false) = true ∧
      (let s := two 4 6 (2 ^ 60) near
       match checkEA s (s.ea ⟨4, none, 0, 0⟩) 1 .exec with | .error (.trap t) => t.cause == 0x14 | _ => false) = true ∧
      nearOff (s.ea (at5 65535)).toNat = some 65535 ∧ 65535 < padSize s s.coreKey ∧ s.pkg < 4096 := by
  unfold Runs; decide +kernel

/-- A walk that reads an entry in a command's destination waits, and so does XLAT. -/
theorem test_witness_LineForms_waits :
    let s := (dev id).setCore 0 { (dev id).getCore 0 with scoreboard := [⟨[(placeTable, 64)], 0, 1⟩] }
    Runs s always ∧ (match checkEA s (s.ea (at5 0)) 1 .read with | .error (.wait _) => true | _ => false) = true := by
  unfold Runs; decide +kernel

/-- R131: DISC marks the lines of its range. -/
theorem test_disc : nexts (exec (.disc always false 4 (at5 64)) (two 4 5 128 near)) (fun t => t.core.discardBits == [1, 2]) = true := by decide +kernel
/-- R132: XLAT of a page that is not mapped writes the cause with bit 63. -/
theorem test_xlat : nexts (exec (.xlat always .read 3 ⟨0, none, 0, 0⟩) base) (fun t => t.ctx.s[3] == 0x8000000000000010) = true := by decide +kernel

theorem test_witness_Atomics :
    (∃ r, Granted base (.amo always .i32 .add none (.imm 1) (at5 4)) (base.ea (at5 4)) 4 4 .rmw false r) ∧
    (∃ r, Granted base (.cas always .i64 3 (.imm 1) (at5 8)) (base.ea (at5 8)) 8 8 .rmw false r) ∧
    (∃ r, Granted (dev id) (.xrd always 3 (at5 0)) ((dev id).ea (at5 0)) 16 16 .read false r) ∧
    (∃ r, Granted (dev id) (.xclr always (.imm 1) (at5 0)) ((dev id).ea (at5 0)) 16 16 .rmw false r) ∧
    oks (checkMode (dev id) (.xrd always 3 (at5 0)) ((dev id).ea (at5 0)) 16 .read) (fun x => paReg x.2 == 0) = true ∧
    oks (checkMode (dev id) (.xclr always (.imm 1) (at5 0)) ((dev id).ea (at5 0)) 16 .rmw) (fun x => paReg x.2 == 0) = true ∧ Runs (dev id) always ∧ Runs base always ∧
    oks (checkMode base (.xrd always 3 (at5 0)) (base.ea (at5 0)) 16 .read) (fun x => paReg x.2 != 0) = true ∧
    (match checkMode base (.xclr always (.imm 1) (at5 65536)) (base.ea (at5 65536)) 16 .rmw with | .error (.after _ t) => t.cause == 0x15 | _ => false) = true := by
  refine ⟨granted_of ?_, granted_of ?_, granted_of ?_, granted_of ?_, ?_, ?_, ?_, ?_, ?_, ?_⟩ <;> (try unfold Runs) <;> decide +kernel

/-- R133: AMO add wraps in its width and gives the old value. -/
theorem test_amo_add : nexts (exec (.amo always .n8 .add (some 3) (.imm 2) (at5 0)) (pad base 0 [0xFF, 0x11]))
    (fun t => t.ctx.s[3] == 0xFF && t.mem.readLE (mkPa 0 1 0) 2 == 0x1101) = true := by decide +kernel
/-- R133: CAS stores when the old value is that of D. -/
theorem test_cas : nexts (exec (.cas always .n8 3 (.imm 2) (at5 0)) (pad (two 3 5 0x1FF near) 0 [0xFF]))
    (fun t => t.ctx.s[3] == 0xFF && t.mem.read (mkPa 0 1 0) == 2) = true := by decide +kernel
/-- R136: XCLR writes a zero cell with its scale byte. -/
theorem test_xclr : nexts (exec (.xclr always (.imm 5) (at5 0)) (dev id)) (fun t => t.mem.readLE 0x40002000 16 == 5 * 2 ^ 120) = true := by decide +kernel

theorem test_witness_NoStoreForms :
    nexts (exec (.ld always .i64 (.s 3) (at5 0)) base) (fun t => !t.grp.trapped) = true ∧ base.grp.trapped = false := by decide +kernel

theorem test_witness_Accumulates :
    let held := mk id (fun k => { k with residual := [⟨0x1000080, false, .i32, 1, 1, 0, none⟩] }) id
    Runs (dev id) always ∧ Runs base always ∧ Runs held always ∧
    oks (checkMode (dev id) (.acc always .f32 true 3 (at5 0)) ((dev id).ea (at5 0)) 16 .rmw) (fun x => paReg x.2 == 0 &&
      (overlapping x.1.core x.2 16).isNone && x.1.ctx.pair.isNone && x.1.ctx.sent.isEmpty && x.1.steps.isNone && x.1.core.residual.isEmpty) = true ∧
    oks (checkMode base (.accv always .i32 false 3 (at5 64)) (base.ea (at5 64)) 64 .rmw) (fun x => paReg x.2 == 1 &&
      (overlapping x.1.core x.2 64).isNone && x.1.ctx.pair.isNone && x.1.ctx.sent.isEmpty && x.1.steps.isNone && x.1.core.residual.isEmpty) = true ∧
    (let j := (dev id).setCore 0 { (dev id).getCore 0 with residual := [⟨0x1000080, false, .f32, 1, 1, 0, none⟩] }
     Runs j always ∧ oks (checkMode j (.acc always .f32 false 3 (at5 0)) (j.ea (at5 0)) 4 .rmw) (fun x =>
      x.1.core.residual.find? (fun e => e.line = x.2 / 64) == some ⟨0x1000080, false, .f32, 1, 1, 0, none⟩) = true ∧
      oks (checkMode j (.acc always .i32 false 3 (at5 0)) (j.ea (at5 0)) 4 .rmw) (fun x =>
      x.1.core.residual.find? (fun e => e.line = x.2 / 64) == some ⟨0x1000080, false, .f32, 1, 1, 0, none⟩) = true) ∧ held.ctx.wait = none ∧
    base.core.residual = [] ∧ (∀ a ∈ base.accs, a.src / 4 ≠ base.coreKey) ∧ held.core.residual ≠ [] ∧ (∀ e ∈ held.core.residual, e.sending = none) := by
  unfold Runs; decide +kernel

/-- Four insistent accumulates of core 0 to a line, unanswered. -/
def four (s : State) (line : Nat) : State := { s with accs := [0, 1, 2, 3].map (fun n => ⟨0, 1, line, false, .i32, 1, 5, true, 0, none, .sent, 0, 0, n⟩) }

/-- An entry of another type that waits to be sent, and one that would have to (R139, R141). -/
theorem test_witness_Accumulates_waiting :
    let j (q : Option (Nat × Nat)) : State := (dev id).setCore 0 { (dev id).getCore 0 with residual := [⟨0x1000080, false, .f32, 1, 1, 0, q⟩] }
    let ok (s : State) (full sends : Bool) : Bool :=
      oks (checkMode s (.acc always .i32 false 3 (at5 0)) (s.ea (at5 0)) 4 .rmw) (fun x =>
        insistentFull x.1 0 0x1000080 == full && x.1.core.residual.any (fun e => decide (e.line = x.2 / 64) && e.sending.isSome == sends))
    ok (j none) false false = true ∧ ok (four (j none) 0x1000080) true false = true ∧ ok (j (some (0, 1))) false true = true := by decide +kernel

/-- An accumulate of core 0 under way, in a state. -/
def acc1 (s : State) (line : Nat) (ins : Bool) (st : AccState) : State :=
  { s with accs := [⟨0, 1, line, false, .i32, 1, 5, ins, 0, none, st, 0, 0, 0⟩] }

theorem test_witness_AccumulateSteps_arrival :
    let l := 0x1000080
    let s := acc1 (dev id) l true .sent
    let f := (acc1 (dev id) l false .sent).setSlice (sliceOf s (s.getGang 1) (l * 64)) ⟨0, 64, [(0, 8)], []⟩
    (s.getGang 1).st = .running ∧ targetAllows s 0 1 (s.getGang 1).asid (l * 64) true true = true ∧ poisoned (homeRead s .ctx (l * 64)) (l * 64) = false ∧
      s.mem.wf = true ∧ (s.getGang 1).shadow = 0 ∧ paReg (l * 64) = 0 ∧
      (s.accs[0]?).isSome ∧ (f.accs[0]?).isSome ∧ targetAllows f 0 1 (f.getGang 1).asid (l * 64) true true = true ∧
      (let slice := sliceOf f (f.getGang 1) (l * 64)
       let q := ctrlRaw f (blockPa (slice / 512) (.slice (slice % 512)) 0x100)
       q ≠ 0 ∧ q.toNat ≤ mget 0 0 ((rollWindow f slice).getSlice slice).counts) := by decide +kernel

/-- A line of device memory with a residual entry of one element. -/
def entry1 (born : Nat) (ty : Ty) : Residual := ⟨0x1000080, false, ty, 1, 3, born, none⟩

theorem test_witness_AccumulateSteps_answers :
    let s := acc1 base 0x1000080 false (.accepted 7)
    let r := acc1 base 0x1000080 false .refused
    let j := acc1 (mk id (fun k => { k with residual := [entry1 0 .i32] }) id) 0x1000080 false .refused
    let a := { mk id (fun k => { k with residual := [entry1 0 .i32] }) id with now := 65536 }
    runsOn s 0 = true ∧ (∀ n, n < 4 → (s.getCtx n).wait = none) ∧ (∀ e ∈ (s.getCore 0).residual, e.sending = none) ∧ (∀ e ∈ (r.getCore 0).residual, e.sending = none) ∧ (r.getCore 0).residual.length < 32 ∧
      (r.getCore 0).residual.find? (fun e => e.line = 0x1000080) = none ∧
      (j.getCore 0).residual.find? (fun e => e.line = 0x1000080) = some (entry1 0 .i32) ∧
      (∀ e ∈ (j.getCore 0).residual, e.sending = none) ∧ insistentFull j 0 0x1000080 = false ∧
      (a.getCore 0).residual.find? (fun e => e.sending.isNone && decide (e.born + 65536 ≤ a.now)) = some (entry1 0 .i32) ∧ runsOn a 0 = true ∧
      insistentFull a 0 0x1000080 = false ∧ insistentFull (four a 0x1000080) 0 0x1000080 = true ∧
      ({ base with now := 64 }.getSlice 0).start + ({ base with now := 64 }.getSlice 0).len ≤ 64 := by decide +kernel

/-- An entry whose send has waited for an answer, and the answer. -/
theorem test_witness_AccumulateSteps_starts :
    let e : Residual := { entry1 0 .i32 with sending := some (0, 4) }
    let f := four (mk id (fun k => { k with residual := [e] }) id) 0x1000080
    let s := { f with accs := f.accs.map (fun m => if m.seq = 0 then { m with st := .accepted 7 } else m) }
    (s.accs[0]?).map (·.st) = some (.accepted 7) ∧ runsOn s 0 = true ∧ (∀ n, n < 4 → (s.getCtx n).wait = none) ∧ (s.getCore 0).residual.Nodup ∧
      (s.getCore 0).residual = [e] ∧ insistentFull { s with accs := s.accs.eraseIdx 0 } 0 0x1000080 = false := by decide +kernel

/-- R139, R142: the entry leaves the tile when its send starts, as an answer comes. -/
theorem test_insistent_starts :
    let e : Residual := { entry1 0 .i32 with sending := some (0, 4) }
    let f := four (mk id (fun k => { k with residual := [e] }) id) 0x1000080
    nexts (exec (.insistentAck 0 0) { f with accs := f.accs.map (fun m => if m.seq = 0 then { m with st := .accepted 7 } else m) })
      (fun t => (t.getCore 0).residual.isEmpty && t.accs.map (·.seq) == [1, 2, 3, 4]) = true := by decide +kernel

/-- R137: an accepted accumulate of i32 adds its element and no other. -/
theorem test_accumulate : nexts (exec (.accumulateArrival 0) (acc1 (dev id) 0x1000080 true .sent)) (fun t => t.mem.readLE 0x40002000 64 == 5) = true := by decide +kernel

/-- A future at 16 with two deferred reads, the first in its list at 160, the second at 128. -/
def deferred : State :=
  pad (pad base 16 (Bits.bytesLE 16 (((mkPa 0 1 160) / 32) * 2 ^ 69))) 160 (Bits.bytesLE 32 (0x1000 + mkPa 0 1 128 * 2 ^ 128 + 9 * 2 ^ 192))

theorem test_witness_Futures :
    let full := pad base 16 (Bits.bytesLE 16 (9 + 2 ^ 64))
    let i : Instr := .fld always 9 none (at5 16)
    (∃ r, Granted base i (base.ea (at5 16)) 16 16 .read false r) ∧ (∃ r, Granted full (.fst always 3 (at5 16)) (full.ea (at5 16)) 16 16 .rmw false r) ∧
    (∃ r, Granted deferred (.frst always (at5 16)) (deferred.ea (at5 16)) 16 16 .rmw false r) ∧
    Runs base always ∧ Runs full always ∧ Runs deferred always ∧ oks (checkMode base i (base.ea (at5 16)) 16 .read) (fun x => x.1 == base) = true ∧
    oks (checkMode full i (full.ea (at5 16)) 16 .read) (fun x => x.1 == full) = true ∧ Whole base ∧ full.ctx.walking = none ∧
    futureFull (full.mem.readLE (mkPa 0 1 16) 16) = true ∧ futureFull (deferred.mem.readLE (mkPa 0 1 16) 16) = false ∧
    futureFull (base.mem.readLE (mkPa 0 1 16) 16) = false ∧ futureHead (base.mem.readLE (mkPa 0 1 16) 16) = 0 := by
  refine ⟨granted_of ?_, granted_of ?_, granted_of ?_, ?_⟩ <;> (try unfold Runs Whole) <;> decide +kernel

theorem test_witness_Futures_record :
    let s := two 5 1 near (near + 128)
    let c : Instr := .fld always 9 (some 1) (at5 16)
    Runs s always ∧ oks (checkMode s c (s.ea (at5 16)) 16 .rmw) (fun x => oks (checkMode x.1 c (s.rs 1) 32 .write) (fun y => paReg y.2 == 1 &&
      oks (grant y.1 c (s.ea (at5 16)) 16 16 .rmw false) (fun r => !r.refused && r.s.ctx.pair.isNone && !futureFull (r.s.mem.readLE r.pa 16) &&
        (overlapping r.s.core y.2 32).isNone && r.s.ctx.sent.isEmpty && r.s.steps.isNone &&
        targetAllows r.s 0 1 0 y.2 false true && !poisoned r.s y.2 && r.s.mem.wf && decide (r.s.gang.shadow = 0) && decide (r.pa + 16 ≤ y.2)))) = true := by
  unfold Runs; decide +kernel

theorem test_witness_Futures_waiters :
    oks (grant deferred (.fst always 3 (at5 16)) (deferred.ea (at5 16)) 16 16 .rmw false) (fun r => !r.refused && r.s.ctx.walking.isNone &&
      let f := r.s.mem.readLE r.pa 16
      let b := r.s.mem.readLE (futureHead f + 16) 8
      let filled := homeStep r.s r.pa (Bits.bytesLE 16 (2 ^ 64))
      let q (u : State) (c : Cont) : State := enqueue u (u.getCore 0).gang (queueKey 1 0) c.prio ⟨0, some c, u.now, filled.ctx.pts⟩
      let sound (a : Nat) : Bool := !poisoned r.s a && !(ctrlRaw r.s (blockPa (paPkg a) (.base (Topo.stackOf (paOff a))) 0xA00)).getLsbD 0
      sound (futureHead f) && sound b && r.s.ctx.sent.isEmpty && r.s.steps.isNone &&
      futureHead f == mkPa 0 1 160 && b == mkPa 0 1 128 && r.s.mem.readLE (b + 16) 8 == 0 && !queueFull filled 1 (queueKey 1 0) &&
        !queueFull (q filled ⟨0, 0, 0x1000, 0, 9, 0⟩) 1 (queueKey 1 0)) = true := by decide +kernel

/-- R135: FST with two waiters queues their continuations, the list's first one first. -/
theorem test_fst_waiters : nexts (exec (.fst always 3 (at5 16)) deferred)
    (fun t => (getQueue t 1 (queueKey 1 0))[0].map (fun e => e.cont.map (·.code)) == [some 0x1000, some 0]) = true := by decide +kernel

/-- R135: FST fills an empty future. -/
theorem test_fst : nexts (exec (.fst always 3 (at5 16)) (two 3 5 9 near)) (fun t => t.mem.readLE (mkPa 0 1 16) 16 == 9 + 2 ^ 64) = true := by decide +kernel
/-- R134: FLD of a full future answers its value. -/
theorem test_fld : nexts (exec (.fld always 9 none (at5 16)) (pad base 16 (Bits.bytesLE 16 (9 + 2 ^ 64)))) (fun t => t.ctx.s[9] == 9) = true := by decide +kernel

/-- R119, R337: a walk that fails is counted, and the trap is taken with its cause. -/
theorem test_failed_walk : nexts (exec (.ld always .i64 (.s 3) ⟨0, none, 0, 0⟩) base) (fun t => t.core.walk == base.core.walk + 1) = true := by decide +kernel

/-! ### Vector forms -/

/-- Two rows of sixteen elements. -/
def wide : State := mk (fun c => { c with vsh := 0x9102 }) id id

theorem test_witness_VectorForms :
    vectorGroups (Vec.Shape.ofWord base.view.vsh.toNat) (.vadd always .i32 .asr false 31 31 (.v 31)) = some (always, [(31, 1), (31, 1), (31, 1)]) ∧
      Runs base always ∧ DispatchReady base ∧ base.core.seq.length < 16 ∧
      vectorGroups (Vec.Shape.ofWord wide.view.vsh.toNat) (.vmov always 31 0) = some (always, [(31, 2), (0, 2)]) ∧ 32 < (31 : Fin 32).val + 2 ∧
      wide.ctx.capture = none := by
  unfold Runs DispatchReady; decide +kernel

theorem test_witness_VectorElements :
    let c := capOf (entryFor base .nop 1) 0
    15 < c.sh.rows * c.sh.n 32 ∧ 0 < c.sh.n 32 ∧ (31 : Fin 32).val + c.shift + c.sh.rows ≤ 32 ∧ Ty.i32.isInt = true ∧
      15 < c.sh.rows * c.sh.n (Vec.wideOf .i16).bits ∧ 0 < c.sh.n (Vec.wideOf .i16).bits ∧ 0 < c.sh.rows ∧ c.sh.rows ≤ 8 ∧
      (∀ x ∈ vecWrites c.sh (.vmov always 31 0), 30 < x.1.val + c.shift ∨ x.1.val + c.shift + x.2 ≤ 30) := by decide +kernel

theorem test_witness_VectorControl :
    Runs base always ∧ DispatchReady base ∧ base.core.seq.length < 16 ∧ Vec.legalVsh (0x9108 : BitVec 28).toNat = true ∧
      Vec.legalVsh (0x9109 : BitVec 28).toNat = false ∧ Vec.legalVsh (base.rs 0).toNat = false := by
  unfold Runs DispatchReady; decide +kernel

/-- One row of one f64, s1 the address of the elements. -/
def single (a : Word) : State := mk (fun c => { c with vsh := 0x8011, s := c.s.set 1 a }) id id

theorem test_witness_GatherScatter :
    let s := single near
    let c := capOf (entryFor s (.vgath always .f64 0 31 1 31) 1) 0
    Runs s always ∧ DispatchReady s ∧ s.core.seq.length < 16 ∧ (31 : Fin 32).val + c.sh.rows ≤ 32 ∧ c.sh.rows * c.sh.n 64 = 1 ∧ s.ctx.pair = none ∧
      s.ctx.live = true ∧ s.view.capture = none ∧ elemAddrs c .f64 0 s.view.v 31 = [near] ∧ Runs (single 0) always ∧ DispatchReady (single 0) ∧
      oks (checkEA s near 8 .read) (fun x => paReg x.2 == 1 && padCore x.2 == 0 && x.1.gang.kept.isEmpty && x.1.core.scoreboard.isEmpty && x.1.ctx.sent.isEmpty && x.1.steps.isNone) = true ∧
      oks (checkEA s near 8 .write) (fun x => paReg x.2 == 1 && padCore x.2 == 0 && x.1.gang.kept.isEmpty && x.1.core.scoreboard.isEmpty && x.1.ctx.sent.isEmpty && x.1.steps.isNone) = true ∧
      elemAddrs (capOf (entryFor (single 0) (.vgath always .f64 0 31 1 31) 1) 0) .f64 0 (single 0).view.v 31 = [0] ∧
      (match checkEA (single 0) 0 8 .read with | .error (.after _ t) => t.cause == 0x10 | _ => false) = true ∧
      elemAddrs (capOf (entryFor (single 4) (.vgath always .f64 0 31 1 31) 1) 0) .f64 0 (single 4).view.v 31 = [4] ∧
      (match checkEA (single 4) 4 8 .read with | .error (.trap t) => t.cause == 0x13 | _ => false) = true := by
  unfold Runs DispatchReady; decide +kernel

/-- R216: VADD of i8 wraps in each element. -/
theorem test_vadd : nexts (exec (.vadd always .i8 .asr false 3 1 (.v 2)) (mk (fun c => { c with v := (c.v.set 1 0x01FF).set 2 0x0201 }) id id))
    (fun t => t.ctx.v[3] == 0x0300) = true := by decide +kernel
/-- Chapter 9: RN(1.5 · 2 + 0.25) = 3.25 in every element of v8. -/
theorem test_vfma : nexts (exec (.vfma always .f32 .asr false 8 0 (.s 6) (.v 8)) (mk (fun c => { c with
    s := c.s.set 6 0x40000000, v := (c.v.set 0 0x3FC00000).set 8 0x3E800000 }) id id)) (fun t => t.ctx.v[8].toNat % 2 ^ 32 == 0x40500000) = true := by
  decide +kernel
/-- R71, R202: a group past v31 raises 0x08. -/
theorem test_vector_group : nexts (exec (.vmov always 31 0) (handled.upd (fun c => { c with vsh := 0x9102 }))) (fun t => t.ctx.tcause == 0x8000000000000008) = true := by
  decide +kernel
/-- R213: VSHAPE refuses a shape of no rows with 0x22. -/
theorem test_vshape : nexts (exec (.vshape always (.imm 0x9100)) handled) (fun t => t.ctx.tcause == 0x8000000000000022) = true := by decide +kernel

/-- A ring entry of a form of context 0. -/
def formEntry (i : Instr) (q state stage : Nat) : RingEntry := { RingEntry.free with insn := slotOf i, tseq := q, state := state, stage := stage }

/-- Core 0's one form is captured; core 3's second form is the oldest one that is not, after a captured one. -/
theorem test_witness_DispatchedSteps_start :
    let v : Instr := .vmov always 1 2
    let held (forms : List Nat) : Ctx := { Ctx.reset with live := true, capture := some ⟨0, 0, forms⟩ }
    let a := mk id (fun c => { c with seq := [1], ring := [(1, formEntry v 1 1 0)] }) id
    let b := { a with cores := [(0, a.getCore 0), (3, { Core.reset with gang := 1, seq := [2, 4], ring := [(4, formEntry v 4 1 0)] })],
                      ctxs := [(0, held [1]), (14, held [2])] }
    a.subject = 0 ∧ (a.getCore 0).seq = [1] ∧ (∀ n, n < 4 → (a.getCtx n).capture = none) ∧ ((a.getQuad 0).last.val + 1 + 0) % 4 = 0 ∧
      (a.getCore 0).phase = none ∧ waitsFor (a.getCore 0) 1 = false ∧ waitsFor (b.getCore 3) 4 = false ∧ b.subject = 0 ∧ ((b.getQuad 0).last.val + 1 + 3) % 4 = 3 ∧
      (∀ i, i < 3 → ∀ x ∈ (b.getCore i).seq, ((b.getCtx (4 * i)).capture.map (·.forms)) = some [x]) ∧
      (b.getCore 3).phase = none ∧ (b.getCore 3).seq = [2, 4] ∧ ((b.getCtx 14).capture.map (·.forms)) = some [2] ∧
      (∀ n, n < 4 → n ≠ 2 → (b.getCtx (12 + n)).capture = none) := by decide +kernel

theorem test_witness_DispatchedSteps_complete :
    let e := { formEntry (.vext always .n32 7 1 (.imm 0)) 63 1 1 with dest := some 7, result := 9 }
    let s := (mk (fun c => c.setEmpty 7) (fun c => { c with ring := [(63, e)] }) id).setQuad 0 ⟨3, [(0, 63)], 0, 0⟩
    let x := (s.getCore 0).entry 63
    (s.getCore 0).phase = none ∧ x.state = 1 ∧ x.stage = 1 ∧ x.tseq = 63 ∧ x.dest = some 7 ∧ (s.getCtx 0).full.getLsbD 7 = false ∧ waitsFor (s.getCore 0) 63 = false ∧ (s.getQuad s.subject).vsfq = [(0, 63)] := by
  decide +kernel

theorem test_witness_DispatchedSteps_vrep :
    let cap : Capture := ⟨0, 0, [1]⟩
    let s := mk (fun c => { c with capture := some cap }) (fun c => { c with tseq := 1, ring := [(1, formEntry (.vmov always 1 2) 1 1 0)] }) id
    (s.getCtx 0).capture = some cap ∧ cap.rep / 256 % 16 < cap.forms.length ∧
      ((runPasses cap { s with cur := 0, grp := Group.idle } (passList cap)).toOption.map (·.cur)) = some 0 := by decide +kernel

theorem test_witness_DispatchedSteps_array :
    let f : ArrayForm := ⟨.azero always 1, 1, Core.reset.tsh, 0, none, none, 0, 0⟩
    let s := mk id (fun c => { c with arrayQ := [f], ring := [(1, formEntry (.azero always 1) 1 1 0)] }) id
    (s.getCore 0).arrayQ = [f] ∧ headGmma (s.getCore 0) = none ∧
      oks (finishArray f (runArray (openScript { s with cur := 0, grp := Group.idle } (arrayScript 0)) f ((s.getCore 0).entry 1))) (fun _ => true) = true := by decide +kernel

theorem test_witness_DispatchedSteps_deliver :
    let e := { formEntry .nop 5 3 0 with cause := 0x21 }
    let s := mk id (fun c => { c with ring := [(5, e)] }) id
    let t := mk (fun c => { c with errors := [⟨0x51, 0, 0, 7⟩] }) id id
    awake s 0 = true ∧ begun (s.getCtx 0) = false ∧ begun (t.getCtx 0) = false ∧ deliverable s 0 = true ∧ oldestFault (s.getCore 0) 0 = some e ∧ awake t 0 = true ∧ deliverable t 0 = true ∧
      oldestFault (t.getCore 0) 0 = none ∧ (t.getCtx 0).errors = [⟨0x51, 0, 0, 7⟩] := by decide +kernel

/-! ### Matrix and prism forms -/

/-- The shapes t2 and t3 of the worked example of chapter 11, and a structured shape in t4. -/
def shaped : State := claimed (fun c => { c with tsh := ((c.tsh.set 2 0xBFDF).set 3 0xB7FF).set 4 0x100000000000B7DF })

theorem test_witness_MatrixClaim :
    let c := claimed id
    let w := (claimed (fun c => { c with releasing := true })).setCtx 3 { Ctx.reset with live := true, wait := some .claim }
    Runs base always ∧ base.grp.waited ≠ some .released ∧ { base with grp := { base.grp with waited := some .released } }.grp.waited = some .released ∧
      c.ctx.wait = none ∧ (base.core.entry (nextTseq base.core.tseq)).state = 0 ∧ base.core.claim = none ∧ Runs c always ∧ holdsClaim c = true ∧
      matrixBusy c.core = false ∧ claimWaiter c 0 0 = none ∧ holdsClaim base = false ∧ (w.getCore 0).claim = some 0 ∧ (w.getCore 0).releasing = true ∧
      matrixBusy (w.getCore 0) = false ∧ claimWaiter w 0 0 = some 3 := by
  unfold Runs; decide +kernel

/-- Cores 0 to 3 of one gang, each with a GMMA at its head. -/
def joining (n : Nat) : State :=
  let f : ArrayForm := ⟨.gmma always .bf16 .asr 0 2 3 0, 1, shaped.core.tsh, 0, none, none, 1, 0⟩
  let c : Core := { shaped.core with arrayQ := [f], gmma := 1, ring := [(1, formEntry f.instr 1 1 0)] }
  { shaped with
    cores := (List.range n).map (fun k => (k, c))
    gangs := [(1, { placeGang with cores := [0, 1, 2, 3], wlimit := 10, ran := 10 })] }

theorem test_witness_GroupProducts_issue :
    let four : State := { shaped with cores := (List.range 4).map (fun k => (k, shaped.core)) }
    Runs four always ∧ ArrayReady four ∧ shapeOk four.core.tsh (.gmma always .bf16 .asr 0 2 3 0) = true ∧ four.ctx.live = true ∧
      (∀ k ∈ gmmaGroup four.coreKey 0, (four.getCore k).gang = four.gangId) ∧
      Runs shaped always ∧ ArrayReady shaped ∧ (shaped.getCore 3).gang ≠ shaped.gangId ∧ (3 ∈ gmmaGroup shaped.coreKey 0) := by
  unfold Runs ArrayReady; decide +kernel

theorem test_witness_GroupProducts_join :
    let s := joining 4
    gmmaGroup 3 (gmmaSpan s 3 1 4 0) = [0, 1, 2, 3] ∧ (headGmma (s.getCore 0)).map (·.instr) = some (.gmma always .bf16 .asr 0 2 3 0) ∧
      (∀ y ∈ [0, 1, 2, 3], (nthGmma s 1 y).map gmmaKey = (headGmma (s.getCore 0)).map gmmaKey) := by decide +kernel

/-- Core 3 brings a GMMA of another rounding mode. -/
theorem test_witness_GroupProducts_differ :
    let j := joining 4
    let s := j.setCore 3 { j.getCore 3 with arrayQ := [⟨.gmma always .bf16 .rtz 0 2 3 0, 1, shaped.core.tsh, 0, none, none, 1, 0⟩] }
    let s := [0, 4, 8, 12].foldl (fun s n => s.setCtx n { Ctx.reset with live := true }) s
    gmmaGroup 0 (gmmaSpan s 0 1 4 0) = [0, 1, 2, 3] ∧ (nthGmma s 1 3).map gmmaKey ≠ (headGmma (s.getCore 0)).map gmmaKey ∧
      (∀ x ∈ [0, 1, 2, 3], (s.getCore x).releasing = false ∧ (s.getCtx (4 * x)).live = true ∧ ((s.getCore x).entry 1).orphan = false) ∧
      nexts (exec (.gmmaJoin 0) s) (fun t => [0, 1, 2, 3].all (fun x => ((t.getCore x).entry 1).cause == 0x35)) = true := by decide +kernel

theorem test_witness_GroupProducts_timeout :
    let s := joining 3
    (headGmma (s.getCore 0)).bind (gmmaMissed s 0) = none ∧ (headGmma (s.getCore 0)).map (·.since) = some 0 ∧
      (s.getGang 1).wlimit ≠ 0 ∧ 0 + (s.getGang 1).wlimit ≤ (s.getGang 1).ran ∧ (s.getCtx 0).live = true ∧ ((s.getCore 0).entry 1).orphan = false := by
  decide +kernel

/-- Accumulator 0 holds 1 in every cell, and no product adds to it: t2 and t3 are 32 × 32, t4 is structured of logical K 32, and all are zero. -/
theorem test_witness_MatrixForms_sums :
    let s := claimed (fun c => { c with
      tsh := ((c.tsh.set 2 0xB7DF).set 3 0xB7DF).set 4 0x100000000000B3DF, accs := c.accs.set 0 (BitVec.ofNat _ (0x3F800000 * ((2 ^ 32768 - 1) / (2 ^ 32 - 1)))) })
    let c := s.core
    let acc := Num.unpack Num.f32 (Mat.cell false (accPair c 0).1 (accPair c 0).2 1023)
    shapeOk c.tsh (.mma always .bf16 .asr 0 2 3) = true ∧ shapeOk c.tsh (.mmas always .bf16 .asr 0 4 3) = true ∧
      (shapeAt c.tsh 2).effCols ≤ Mat.blockLen .bf16 ∧ Mat.logicalK (shapeAt c.tsh 4) ≤ Mat.blockLen .bf16 ∧ acc = .fin false 8388608 (-23) ∧ acc.isFin = true ∧
      (Mat.effVal (shapeAt c.tsh 2) c.tiles[2].toNat 31 0).isFin = true ∧ (Mat.effVal (shapeAt c.tsh 3) c.tiles[3].toNat 0 31).isFin = true ∧
      (Mat.effVal (shapeAt c.tsh 2) c.tiles[2].toNat 31 0).rat = 0 := by decide +kernel

theorem test_witness_MatrixForms :
    Runs shaped always ∧ ArrayReady shaped ∧ shapeOk shaped.core.tsh (.mma always .bf16 .asr 7 2 3) = true ∧
      shapeOk shaped.core.tsh (.mmas always .bf16 .asr 0 4 3) = true ∧ shapeOk shaped.core.tsh (.tcvt always .f32 .asr 0 0 none) = true := by
  unfold Runs ArrayReady; decide +kernel

/-- R248: the product of the worked example of chapter 11 is not taken twice: MMA leaves the tiles. -/
theorem test_azero : nexts (exec (.azero always 3) (claimed (fun c => { c with accs := c.accs.set 3 5 }))) (fun t => t.core.accs[3] == 0) = true := by decide +kernel

/-- Tensor 0 is 1 × 2 of bf16 at near + 256, with what it holds; t5 has its shape (R299, R229). -/
def tensored : State :=
  let s := (shaped.updGang (fun g => { g with tensors := near })).updCore (fun c => { c with tsh := c.tsh.set 5 0xB040 })
  pad (pad s 0 (Bits.bytesLE 32 (near.toNat + 0x100 + 2 ^ 64 + 2 * 2 ^ 88 + 0xB * 2 ^ 112 + 64 * 2 ^ 128))) 0x100 [0x80, 0x3F, 0x00, 0x40]

/-- R242: TLD reads the block of its tensor. -/
theorem test_tld : nexts (exec (.tld always false 5 (.imm 0) (.imm 0) (.imm 0)) tensored) (fun t => t.core.tiles[5].toNat % 2 ^ 32 == 0x40003F80) = true := by
  decide +kernel

/-- The hypotheses of nearTensor at a state, for a tensor whose entry stands at an offset e0. -/
theorem nearTensor_of {s : State} {tid : Word} {T : Tensor} {b0 r0 c0 nr nc : Nat} (e0 : Nat)
    (h : tid.toNat < 4096 ∧ nearOff (tensorAddr s.gang.tensors tid.toNat).toNat = some e0 ∧ nearReady s e0 32 32 ∧ T = Tensor.ofNat (s.numAt (s.padAt e0) 32) ∧
      T.ty ∈ [8, 9, 10, 11] ∧ T.layout = false ∧ T.rows ≠ 0 ∧ T.cols ≠ 0 ∧ r0 + nr ≤ T.rows ∧ c0 + nc ≤ T.cols ∧ nearOff T.base.toNat = some b0 ∧
      b0 % ((Ty.ofCode (BitVec.ofNat 4 T.ty)).bits / 8) = 0 ∧ T.stride % ((Ty.ofCode (BitVec.ofNat 4 T.ty)).bits / 8) = 0 ∧
      nearReady s b0 ((Ty.ofCode (BitVec.ofNat 4 T.ty)).bits / 8) ((r0 + nr) * T.stride + T.cols * ((Ty.ofCode (BitVec.ofNat 4 T.ty)).bits / 8))) :
    nearTensor s tid T b0 r0 c0 nr nc := by
  obtain ⟨h1, h2, h3, h4, h⟩ := h
  exact ⟨h1, ⟨e0, h2, h3, h4⟩, h⟩

theorem test_witness_MatrixTransfers :
    let sh := shapeAt tensored.core.tsh 5
    let T : Tensor := Tensor.ofNat (tensored.numAt (tensored.padAt 0) 32)
    Runs tensored always ∧ ArrayReady tensored ∧ sh.ty.code.toNat = T.ty ∧ nearTensor tensored ((tensored.src (.imm 0))) T 256 0 0 sh.rows sh.cols ∧
      sh.bytes ≤ 4096 ∧ tensored.mem.wf = true ∧ tensored.gang.shadow = 0 ∧ (gangPkgs tensored.gang).contains tensored.pkg = true ∧ T.cols * (sh.ty.bits / 8) ≤ T.stride := by
  refine ⟨?_, ?_, ?_, nearTensor_of 0 ?_, ?_, ?_, ?_, ?_, ?_⟩ <;> (try unfold Runs) <;> (try unfold ArrayReady) <;> (try unfold nearReady) <;> decide +kernel

/-- R242, R299: TST writes the block of its tensor. -/
theorem test_tst : nexts (exec (.tst always false 5 (.imm 0) (.imm 0) (.imm 0)) (tensored.updCore (fun c => { c with tiles := c.tiles.set 5 0xABCD1234 })))
    (fun t => t.mem.readLE (mkPa 0 1 0x100) 4 == 0xABCD1234) = true := by decide +kernel

/-- Tensor 0 is 32 × 32 of f32 at near + 4096, and s4 the drain descriptor of its first block. -/
def drained : State :=
  let s := (shaped.updGang (fun g => { g with tensors := near })).updCore (fun c => { c with accs := c.accs.set 0 (BitVec.ofNat _ 0x3F800000) })
  pad s 0 (Bits.bytesLE 32 (near.toNat + 0x1000 + 32 * 2 ^ 64 + 32 * 2 ^ 88 + 9 * 2 ^ 112 + 128 * 2 ^ 128))

theorem test_witness_MatrixTransfers_drain :
    let i (d : Opnd) : Instr := .adrain always .f32 .none d 0 none none 0x3F800000 false .asr
    let T : Tensor := Tensor.ofNat (drained.numAt (drained.padAt 0) 32)
    shapeOk drained.core.tsh (i (.t 0)) = true ∧ (shapeAt drained.core.tsh 0).ty.isFlt = true ∧ (shapeAt drained.core.tsh 0).bytes ≤ 4096 ∧
      shapeOk drained.core.tsh (i (.s 4)) = true ∧ (drained.rs 4).toNat / 2 ^ 60 = 0 ∧ nearTensor drained 0 T 4096 0 0 32 32 ∧
      T.cols * ((Ty.ofCode (BitVec.ofNat 4 T.ty)).bits / 8) ≤ T.stride ∧ drained.mem.wf = true ∧ drained.gang.shadow = 0 ∧
      (gangPkgs drained.gang).contains drained.pkg = true := by
  refine ⟨?_, ?_, ?_, ?_, ?_, nearTensor_of 0 ?_, ?_, ?_, ?_, ?_⟩ <;> (try unfold nearReady) <;> decide +kernel

/-- R249: ADRAIN of 1 times σ = 2 rounds to 2. -/
theorem test_adrain : nexts (exec (.adrain always .f32 .none (.t 0) 0 none none 0x40000000 false .asr) drained) (fun t => t.core.tiles[0].toNat % 2 ^ 32 == 0x40000000) = true := by
  decide +kernel

/-- R242: the same tensors with the entries that fail: TID 4,096, an entry past the scratchpad, no rows, bounds, and a base that is not near. -/
theorem test_witness_MatrixTransfers_fails :
    let far := tensored.updGang (fun g => { g with tensors := near + 0x10000 })
    let off := pad tensored 0 (Bits.bytesLE 32 (0x2000 + 2 ^ 64 + 2 * 2 ^ 88 + 0xB * 2 ^ 112 + 64 * 2 ^ 128))
    let T (s : State) : Tensor := Tensor.ofNat (s.numAt (s.padAt 0) 32)
    let i : Instr := .tld always false 5 (.imm 0) (.imm 1) (.imm 0)
    shapeOk tensored.core.tsh i = true ∧ tensored.ctx.live = true ∧ nearOff (tensorAddr far.gang.tensors 0).toNat = some 0x10000 ∧ padSize far far.coreKey ≤ 0x10000 ∧
      far.pkg < 4096 ∧ nearReady tensored 0 32 32 ∧ (T (tensored.updGang (fun g => { g with tensors := near + 32 }))).rows ≠ 0 ∧
      (Tensor.ofNat (tensored.numAt (tensored.padAt 32) 32)).rows = 0 ∧ ¬ (tensored.src (.imm 1)).toNat + 1 ≤ (T tensored).rows ∧ nearReady off 0 32 32 ∧
      (T off).layout = false ∧ 0 + 1 ≤ (T off).rows ∧ 0 + 2 ≤ (T off).cols ∧ (T off).ty = 11 ∧ nearOff (T off).base.toNat = none := by
  unfold nearReady; decide +kernel

theorem test_witness_MatrixTransfers_descriptor :
    let s := shaped.upd (fun c => { c with s := c.s.set 4 (1 <<< 60) })
    Runs s always ∧ ArrayReady s ∧ s.ctx.live = true ∧ shapeOk s.core.tsh (.adrain always .f32 .none (.s 4) 0 none none 0x3F800000 false .asr) = true ∧
      (s.rs 4).toNat / 2 ^ 60 ≠ 0 := by unfold Runs ArrayReady; decide +kernel

/-- The transfers are made whole (log 3). -/
theorem test_witness_Undivided : Undivided tensored ∧ Undivided drained ∧ Undivided shaped ∧ Undivided (claimed id) := by unfold Undivided; decide +kernel

theorem test_witness_PrismForms : Runs (claimed id) always ∧ ArrayReady (claimed id) := by unfold Runs ArrayReady; decide +kernel

/-- R260: BTRN puts bit (i, j) at (j, i). -/
theorem test_btrn : nexts (exec (.btrn always 1 0) (claimed (fun c => { c with bits := c.bits.set 0 (1 <<< 3) }))) (fun t => t.core.bits[1] == 1 <<< 192) = true := by
  decide +kernel
/-- R257, chapter 12: under NANLAST with GTI, of (1.5, NaN, −0, +0, 1.5) the rows are 0xC, 0x1D, 0, 4 and 0xD. -/
theorem test_bcmp : nexts (exec (.bcmp always .f32 .gti 0 0 0 4 4 .nlast) (mk (fun c => { c with
    v := c.v.set 0 (BitVec.ofNat 512 (0x3FC00000 + 0x7FC00000 * 2 ^ 32 + 0x80000000 * 2 ^ 64 + 0x3FC00000 * 2 ^ 128)) })
      (fun c => { c with claim := some 0, claimAsid := some 0 }) id))
    (fun t => t.core.bits[0].toNat % 2 ^ 320 == 0xC + 0x1D * 2 ^ 64 + 4 * 2 ^ 192 + 0xD * 2 ^ 256) = true := by decide +kernel
/-- R258, chapter 12: the row counts 2, 4, 0, 1 and 3. -/
theorem test_bpopr : nexts (exec (.bpopr always 4 0) (claimed (fun c => { c with
    bits := c.bits.set 0 (BitVec.ofNat 4096 (0xC + 0x1D * 2 ^ 64 + 4 * 2 ^ 192 + 0xD * 2 ^ 256)) })))
    (fun t => t.ctx.v[4].toNat % 2 ^ 160 == 2 + 4 * 2 ^ 32 + 2 ^ 96 + 3 * 2 ^ 128) = true := by decide +kernel

theorem test_witness_RelationForms :
    let s := claimed id
    Runs s always ∧ ArrayReady s ∧ s.grp.view = none ∧ (28 : Fin 32).val + Bits.ceilDiv ((63 : BitVec 6).toNat + 1) (512 / Ty.f32.bits) ≤ 32 ∧
      (31 : Fin 32).val + Bits.ceilDiv ((0 : BitVec 6).toNat + 1) (512 / Ty.f32.bits) ≤ 32 ∧ (28 : Fin 32).val + 4 ≤ 32 ∧ 28 < (29 : Fin 32).val := by
  unfold Runs ArrayReady; decide +kernel

theorem test_witness_BitTileTransfers :
    let s := claimed id
    Runs s always ∧ ArrayReady s ∧ nearOff (s.ea (at5 65024)).toNat = some 65024 ∧ 65024 % 64 = 0 ∧ 65024 + 512 ≤ padSize s s.coreKey ∧
      s.core.scoreboard = [] ∧ s.gang.kept = [] ∧ s.pkg < 4096 ∧ s.mem.wf = true ∧ s.gang.shadow = 0 ∧ (gangPkgs s.gang).contains s.pkg = true ∧
      nearOff (s.ea ⟨0, none, 0, 0⟩).toNat = none ∧ s.ctx.live = true := by
  unfold Runs ArrayReady; decide +kernel

/-! ### Barriers, tasks, queues, waits and launches -/

/-- The base state with context 0 waiting. -/
def waiting (w : Wait) : State := { mk (fun c => { c with wait := some w }) id id with subject := 1 }

theorem test_witness_Barriers_forms :
    Runs base always ∧ base.core.residual = [] ∧ (∀ m ∈ base.accs, m.src / 4 ≠ base.coreKey) ∧ base.ctx.wait = none ∧ (5 : Fin 8).val ≤ level0 base.gang ∧
      level0 base.gang < (6 : Fin 8).val ∧ (∀ m ∈ base.accs, m.src ≠ base.cur) ∧ base.ctx.behind = none := by
  unfold Runs; decide +kernel

/-- Context 0 waits at the barrier, context 1 still flushes for it, and context 2 runs. -/
theorem test_witness_Barriers_complete :
    let s := ((waiting (.bar 3)).setCtx 1 { Ctx.reset with live := true, wait := some (.flush .all (.bar 3) 0) }).setCtx 2 { Ctx.reset with live := true }
    let g := s.getGang (s.getCore 0).gang
    let e := waiting (.seed 7)
    g.st = .running ∧ gangUnit g 3 0 = [0] ∧ barWaiters s [0] 3 = [0] ∧ (s.getCtx 0).behind = none ∧ (s.getCtx 2).live = true ∧
      joinArrival (.bar 3) (s.getCtx 2) = s.getCtx 2 ∧ (s.getCtx 2).wait = none ∧ (s.getCtx 1).wait = some (.flush .all (.bar 3) 0) ∧ (e.getGang 1).st = .running ∧ (e.getGang 1).cores = [0] ∧
      (e.getGang 1).consumed = none ∧ seedWaiters e 1 = [(0, 7)] ∧ chainsIdle e 1 = true ∧ (e.getCtx 0).behind = none ∧
      paReg (0x1000080 * 64) = 0 ∧ (gangPkgs (e.getGang 1)).contains (paPkg (0x1000080 * 64)) = true := by decide +kernel

/-- The same, with no dirty line. -/
theorem test_witness_Barriers_clean (l : Nat) : ((waiting (.seed 7)).getLine l).dirty = none := rfl

/-- R167, R339: SEED writes a dirty line back, and the shadow log holds its backing value. -/
theorem test_seed_writes_back :
    nexts (exec .seedComplete { (waiting (.seed 7)).setLine 0x1000080 ⟨0, 0, some 5, 1, false⟩ with subject := 1 }) (fun t =>
      (t.getLine 0x1000080).dirty.isNone && (t.getGang 1).seed == 7 && ((mget? 0x1000080 (t.getGang 1).log).map (·.2)) == some (some 5)) = true := by decide +kernel

theorem test_witness_SuperstepCommit :
    let s := waiting .sstep
    (s.getGang 1).st = .running ∧ (s.getGang 1).cores = [0] ∧ (s.getGang 1).consumed = none ∧ gangInPhase s 1 = false ∧ sweepHeld s 1 = false ∧
      sstepWaiters s 1 = [0] ∧ canStop s 1 = true ∧ s.steps = none ∧ mget? (commitScript 1) s.scripts = none ∧ (s.getGang 1).owed = none ∧ s.subject = 1 := by
  decide +kernel

/-- A commit that stands between two of its accesses, which none has made (log 3). -/
theorem test_witness_SuperstepCommit_goes_on :
    let s := (waiting .sstep).setGang 1 { (waiting .sstep).getGang 1 with st := .committing }
    (s.getGang 1).st = .committing ∧ s.steps = none ∧ mget? (commitScript 1) s.scripts = none ∧ (s.getGang 1).owed = none := by
  decide +kernel

/-- R187: SSN counts a commit. -/
theorem test_commit : nexts (exec .superstepCommit (waiting .sstep)) (fun t => (t.getGang 1).ssn == 1 && (t.getCtx 0).wait.isNone) = true := by decide +kernel
/-- R96: HALT ends the context. -/
theorem test_halt : nexts (exec (.halt always) base) (fun t => !t.ctx.live) = true := by decide +kernel

/-- A task packet of 32 bytes with a right CRC: header bits, code, frame and join (R177). -/
def packet (head : Nat) (code frame : Word) (join : Nat) : List Byte :=
  let bs (c : Nat) := Bits.bytesLE 4 head ++ Bits.bytesLE 4 c ++ Bits.bytesLE 8 code.toNat ++ Bits.bytesLE 8 frame.toNat ++ Bits.bytesLE 8 join
  bs (Crc.crc32 (bs 0))

/-- LEN 2 and TARGET core. -/
def goodHead : Nat := 2 + 0x10000

/-- Everything that SPAWN reads, with what `f` asks of the packet's bytes and its queue's state. -/
def spawnHyps (s : State) (f : State → List Byte → Bool) : Bool :=
  let i : Instr := .spawn always (at5 32)
  let ea := s.ea (at5 32)
  oks (grant s i ea 16 16 .read false) (fun r =>
    let x0 := loadStep r.s (r.pa / 64 * 64) 64
    let s1 := x0.1
    let l0 : Line := BitVec.ofNat 512 (Bits.ofBytesLE x0.2.1)
    let n := 16 * (l0.toNat / 2 ^ (8 * (r.pa % 64)) % 256)
    !r.refused && r.s.ctx.pair.isNone && r.s.ctx.sent.isEmpty && r.s.steps.isNone && (overlapping r.s.core r.pa (min n (64 - r.pa % 64))).isNone &&
    oks (readLines i s1 (if n = 0 then [] else laterLines ea n)) (fun x =>
      !x.2.2 && x.1.ctx.pair.isNone && x.1.ctx.sent.isEmpty && x.1.steps.isNone && f x.1 (packetBytes (r.pa % 64) (max n 16) (l0 :: x.2.1))))

theorem test_witness_Tasks_spawn :
    let ok := pad base 32 (packet goodHead 0x1000 9 0)
    let join := pad base 32 (packet goodHead 0x1000 9 1)
    Runs ok always ∧ spawnHyps ok (fun s bs => packetFault bs == none && (Pkt.ofHead (Bits.ofBytesLE (bs.take 32))).join == 0 && !queueFull s 1 (queueKey 1 0)) = true ∧
      spawnHyps join (fun _ bs => packetFault bs == none && (Pkt.ofHead (Bits.ofBytesLE (bs.take 32))).join == 1) = true ∧
      spawnHyps base (fun _ bs => packetFault bs == some 0x44) = true ∧
      spawnHyps (pad ok 40 [1, 2, 3]) (fun _ bs => packetFault bs == some 0x42) = true := by
  unfold Runs; decide +kernel

/-- A queue at its bound of 65,536 entries (R179). -/
def crowded (s : State) (l : List TqEntry) : State := s.setGang 1 { placeGang with queues := [(queueKey 1 0, #v[l, [], [], []])] }

theorem full_of_crowded (s : State) (l : List TqEntry) (h : 65536 ≤ l.length) : queueFull (crowded s l) 1 (queueKey 1 0) = true := by
  have g : getQueue (crowded s l) 1 (queueKey 1 0) = #v[l, [], [], []] := by
    unfold getQueue crowded State.getGang State.setGang
    dsimp only
    rw [mget_mset_same]
    rfl
  unfold queueFull
  rw [g]
  simpa [queueSize] using h

theorem test_witness_Tasks_full :
    let s := crowded (pad base 32 (packet goodHead 0x1000 9 0)) (List.replicate 65536 ⟨0, none, 0, 0⟩)
    spawnHyps s (fun _ bs => packetFault bs == none && (Pkt.ofHead (Bits.ofBytesLE (bs.take 32))).join == 0) = true ∧
      queueFull s 1 (queueKey 1 0) = true :=
  ⟨by decide +kernel, full_of_crowded _ _ (by rw [List.length_replicate])⟩

/-- The placed state with a task packet in its scratchpad and entries of the core's own queue. -/
def queued (bs : List Byte) (l : List TqEntry) : State :=
  let s := { placed with now := 70000 }
  (pad (s.upd (fun c => { c with s := c.s.set 5 near })) 64 bs).updGang (fun g => { g with queues := [(queueKey 1 0, #v[l, [], [], []])] })

/-- What the dispatcher finds for the head of a queue: for the bytes of a packet, what `f` says of it and of the state that is ready. -/
def popHyps (s : State) (f : State → List Byte → Bool) : Bool :=
  mayPop s 0 1 && match nextTask s 0 with
  | some (q, p, e, rest) => q == queueKey 1 0 && p == 0 && match e.cont with
    | some x => (targetCause ((setFifo s 1 q p (standNow s.now rest)).setCtx 1 { s.getCtx 1 with lineBuf := none, pts := max (s.getCtx 1).pts e.stamp }) 1 x.code true).isNone
    | none => match readPacket { s with cur := 1 } e.handle with
      | .bytes u bs =>
        let v := setFifo { u with cur := s.cur } 1 q p (standNow s.now rest)
        f (v.setCtx 1 { v.getCtx 1 with lineBuf := none, pts := max (v.getCtx 1).pts e.stamp }) bs
      | _ => false
  | none => false

theorem test_witness_Tasks_pop :
    let e : TqEntry := ⟨near + 64, none, 5, 3⟩
    popHyps (queued (packet goodHead 0x1000 9 0) [e]) (fun v bs => (packetFault bs).isNone && !(Pkt.ofHead (Bits.ofBytesLE (bs.take 32))).pair &&
        (targetCause v 1 (Pkt.ofHead (Bits.ofBytesLE (bs.take 32))).code true).isNone) = true ∧
      popHyps (queued [2] [e]) (fun _ bs => packetFault bs == some 0x42) = true ∧
      popHyps (queued [] [⟨0, some ⟨0, 2, 0x1000, 9, 7, 11⟩, 5, 3⟩]) (fun _ _ => false) = true := by decide +kernel

theorem test_witness_Tasks_aging :
    let e : TqEntry := ⟨near + 64, none, 70000 - 65536, 3⟩
    let s := queued [] [e]
    fifoAt (getQueue s 1 (queueKey 1 0)) (0 : Fin 4).val = [e] ∧ e.time + 65536 ≤ s.now ∧ (s.getGang 1).st = .running ∧ (2 : Fin 4).val < 3 := by
  decide +kernel

/-- R181: a popped task starts at its code with its frame and its handle. -/
theorem test_task_pop : nexts (exec (.taskPop 0 1) (queued (packet goodHead 0x1000 9 0) [⟨near + 64, none, 5, 3⟩]))
    (fun t => (t.getCtx 1).pc == 0x1000 && (t.getCtx 1).s[1] == 9 && (t.getCtx 1).s[2] == near + 64) = true := by decide +kernel

/-- A context that runs a task whose one successor is the packet at near + 64. -/
def successor (join : Nat) : State :=
  (queued (packet goodHead 0x1000 9 join) []).upd (fun c => { c with packet := some ⟨near, 0, [near + 64], 0⟩ })

def made (d : Dec) (p : State → Word → Bool) : Bool :=
  match d with
  | .made t n _ => p t n
  | _ => false

theorem test_witness_JoinCounters_forms :
    let s := successor 2
    Runs base always ∧ base.ctx.packet = none ∧ Runs s always ∧ s.ctx.packet = some ⟨near, 0, [near + 64], 0⟩ ∧
      s.ctx.pair = none ∧ oks (checkHandles s [near + 64]) (fun s1 =>
        oks (doneLoop { s1 with grp := { s1.grp with msg := s1.grp.msg } } [near + 64] 0) (fun _ => true)) = true ∧
      made (decrement s (s.ea (at5 64)) 0) (fun _ n => n == 1) = true ∧
      (match decrement (successor 0) ((successor 0).ea (at5 64)) 0 with | .cause _ t => t.cause == 0x46 | _ => false) = true := by
  unfold Runs; decide +kernel

theorem test_witness_JoinCounters_decrement :
    let f (n : Nat) : State := pad (base.setGang 1 { base.gang with queues := [] }) 65504 (packet goodHead 0x1000 9 n)
    nearOff (near.toNat + 65504) = some 65504 ∧ 65504 % 16 = 0 ∧ 65504 % 4096 ≠ 4080 ∧ 65504 + 32 ≤ padSize base base.coreKey ∧ base.pkg < 4096 ∧
      base.gang.kept = [] ∧ base.core.scoreboard = [] ∧ base.ctx.pair = none ∧ base.ctx.sent = [] ∧ base.steps = none ∧ (f 1).mem.wf = true ∧ base.gang.shadow = 0 ∧
      (gangPkgs base.gang).contains base.pkg = true ∧ (f 0).mem.readLE (mkPa 0 1 65504 + 24) 4 = 0 ∧ (f 1).mem.readLE (mkPa 0 1 65504 + 24) 4 = 1 ∧
      (f 2).mem.readLE (mkPa 0 1 65504 + 24) 4 = 2 ∧ queueFull (f 1) (f 1).gangId (handleQueue (f 1) ((f 1).mem.readLE (mkPa 0 1 65504) 16)).1 = false := by
  decide +kernel

/-- A queue at its bound beside a packet in the own scratchpad that can be decremented. -/
def waitingPacket : State := crowded (pad base 64 (packet goodHead 0x1000 9 2)) (List.replicate 65536 ⟨0, none, 0, 0⟩)

theorem test_witness_JoinCounters_waits :
    (nearReady waitingPacket 64 16 32 ∧ nearOff (near.toNat + 64) = some 64 ∧ waitingPacket.ctx.pair = none ∧ Whole waitingPacket) ∧
      (waitingPacket.mem.wf = true ∧ waitingPacket.gang.shadow = 0 ∧ (gangPkgs waitingPacket.gang).contains waitingPacket.pkg = true ∧ waitingPacket.gangId = 1) ∧
      (handleQueue waitingPacket (waitingPacket.mem.readLE (mkPa 0 1 64) 16)).1 = queueKey 1 0 ∧ queueFull waitingPacket 1 (queueKey 1 0) = true := by
  refine ⟨?_, ?_, by decide +kernel, full_of_crowded _ _ List.length_replicate.ge⟩
  · unfold nearReady Whole
    constructorm* _ ∧ _ <;> decide +kernel
  · constructorm* _ ∧ _ <;> decide +kernel

theorem test_witness_JoinCounters_resume :
    let w : Cont := ⟨0, 2, 0x1000, 9, 7, 11⟩
    let s := (waiting .slot).setCtx 0 { (waiting .slot).getCtx 0 with walking := some ([w], 3) }
    ((waiting .slot).getCtx 0).wait = some .slot ∧ ((waiting .slot).getCtx 0).walking = none ∧ runsOn (waiting .slot) 0 = true ∧
      (s.getCtx 0).walking = some ([w], 3) ∧ (walkList 3 s [w]).2.isEmpty = true := by decide +kernel

/-- R189: the decrement of the last successor's counter from 1 puts its handle on its queue. -/
theorem test_done : nexts (exec (.done always) (successor 1)) (fun t => !t.ctx.live &&
    (fifoAt (getQueue t 1 (queueKey 1 0)) 0).map (·.handle) == [near + 64]) = true := by decide +kernel
/-- R94, R190: JOIN of a packet in the own scratchpad stores the new counter and answers it at once. -/
theorem test_join : nexts (exec (.join always (some 3) (at5 64)) (successor 5)) (fun t => t.ctx.s[3] == 4 && t.ctx.full.getLsbD 3 && t.mem.readLE (mkPa 0 1 88) 4 == 4) = true := by
  decide +kernel

/-! Queues -/

/-- A queue of 8 entries at near + 256 whose descriptor is at near + 128 with the head and tail given; s4 holds its address. -/
def ring8 (head tail : Nat) : State :=
  pad (two 4 5 (near + 128) near) 128 (Bits.bytesLE 8 (near.toNat + 256) ++ Bits.bytesLE 8 3 ++ Bits.bytesLE 8 head ++ Bits.bytesLE 8 tail)

/-- The hypotheses of a QPUT or QGET form. -/
def queueHyps (s : State) (i : Instr) (blocked : Bool) (m : Mode) (idx : Desc → Nat) (at_ : Nat) : Bool :=
  oks (grant s i (s.rs 4) 64 64 .rmw false) (fun r => !r.refused && r.s.ctx.pair.isNone && match descAt r.s.mem r.pa with
    | none => false
    | some q => q.count == at_ && (blocked || oks (entryGrant r.s i (q.entry (idx q)) m (s.rs 4)) (fun e => !e.refused && e.s.ctx.pair.isNone && e.s.ctx.sent.isEmpty && e.s.steps.isNone) && r.s.grp.waited.isNone))

theorem test_witness_Queues_forms :
    let put : Instr := .qput always 4 (.s 3) 0
    let get : Instr := .qget always 3 4 0
    Runs (ring8 0 0) always ∧ queueHyps (ring8 0 7) put false .write (·.tail) 7 = true ∧ queueHyps (ring8 1 9) put true .write (·.tail) 8 = true ∧
      queueHyps (ring8 6 7) get false .read (·.head) 1 = true ∧ queueHyps (ring8 7 7) get true .read (·.head) 0 = true := by
  unfold Runs; decide +kernel

/-- R191: QPUT stores the value at TAIL. -/
theorem test_qput : nexts (exec (.qput always 4 (.imm 9) 0) (ring8 0 2)) (fun t => t.mem.readLE (mkPa 0 1 288) 8 == 9 && t.mem.readLE (mkPa 0 1 152) 8 == 3) = true := by
  decide +kernel
/-- R191: QGET takes the value at HEAD. -/
theorem test_qget : nexts (exec (.qget always 3 4 0) (pad (ring8 9 10) 272 [7])) (fun t => t.ctx.s[3] == 7 && t.mem.readLE (mkPa 0 1 144) 8 == 10) = true := by
  decide +kernel

theorem test_witness_Queues_waite :
    let s := two 4 5 near 0
    (∃ r, Granted s (.waite always .i64 .ge none 4 (.imm 0) 0) (s.rs 4) 8 8 .read false r) ∧
      oks (grant s (.waite always .i64 .ge none 4 (.imm 0) 0) (s.rs 4) 8 8 .read false) (fun r => r.s.grp.waited.isNone && r.s.ctx.sent.isEmpty && r.s.steps.isNone &&
        intCond .ge (tyVal .i64 (BitVec.ofNat 64 (r.s.mem.readLE r.pa 8))) (tyVal .i64 (r.s.src (.imm 0))) &&
        !intCond .gt (tyVal .i64 (BitVec.ofNat 64 (r.s.mem.readLE r.pa 8))) (tyVal .i64 (r.s.src (.imm 0)))) = true ∧ Runs s always ∧ Ty.i64.isInt = true := by
  refine ⟨granted_of ?_, ?_⟩ <;> (try unfold Runs) <;> decide +kernel

/-- A word of device memory whose leased copy is older than what memory holds: the copy does not compare true, the home does. -/
theorem test_witness_Queues_waite_copy :
    let s := (dev (fun c => { c with s := c.s.set 4 0x2000 })).setCore 0 { (dev id).getCore 0 with leases := [(0x1000080, ⟨0, 0, 9⟩)] }
    let t : State := { s with mem := s.mem.writeLE 0x40002000 8 5 }
    oks (grant t (.waite always .i64 .eq none 4 (.imm 5) 0) (t.rs 4) 8 8 .read false) (fun r => !r.refused && r.s.ctx.pair.isNone &&
      (usableCopy r.s 0 r.pa).isSome && decide (r.s.mem.readLE r.pa 8 = 5)) = true := by decide +kernel

/-- R192: WAITE of a word that does not compare waits. -/
theorem test_waite : nexts (exec (.waite always .n32 .lt none 4 (.imm 0) 0) (two 4 5 near 0)) (fun t => t.ctx.wait.isSome) = true := by decide +kernel

/-- A WAITE for a word above 5 at the base of the scratchpad. -/
def watch5 : Watch := ⟨near, mkPa 0 1 0, 4, .i64, .gt, 5, none⟩

theorem test_witness_Queues_steps :
    let q := waiting (.timed (.queue near) (some 0) false)
    let w : State := { waiting (.timed (.word watch5) (some 0) false) with reports := [⟨0, 3, none⟩] }
    let h : State := { waiting (.timed (.word watch5) (some 0) false) with reports := [⟨0, 6, some 9⟩] }
    let c := waiting (.timed (.chain 7) (some 0) false)
    runsOn q 0 = true ∧ (q.getCtx 0).wait = some (.timed (.queue near) (some 0) false) ∧ runsOn w 0 = true ∧
      (w.getCtx 0).wait = some (.timed (.word watch5) (some 0) false) ∧ w.reports.find? (fun r => r.key = 0) = some ⟨0, 3, none⟩ ∧
      h.reports.find? (fun r => r.key = 0) = some ⟨0, 6, some 9⟩ ∧ hasHit (.queue near) = false ∧ hasHit (.word watch5) = false ∧ hasHit (.chain 7) = false ∧ wordPa q 0 near = some (mkPa 0 1 0) ∧
      (c.getCtx 0).wait = some (.timed (.chain 7) (some 0) false) ∧ runsOn c 0 = true ∧ 0 ≤ (c.getGang (c.getCore 0).gang).ran := by decide +kernel

/-- R192: a store that changes the word is reported and ends the wait, even where a later one undoes it. -/
theorem test_waite_report :
    let s := { waiting (.timed (.word watch5) none false) with cur := 1 }
    let t := storeAt (storeAt s (mkPa 0 1 0) [6]) (mkPa 0 1 0) [0]
    t.reports.map (·.value) = [6] ∧ nexts (exec (.waiteReport 0 0) t) (fun u => (u.getCtx 0).wait ==
      some (.timed (.word { watch5 with last := 6, hit := some 6 }) none true)) = true := by decide +kernel

/-- R193: an expired WAITE raises 0x41. -/
theorem test_wait_limit : nexts (exec (.waitLimitExpiry 0 0) (handled.upd (fun c => { c with wait := some (.timed (.word watch5) (some 0) false) })))
    (fun t => (t.getCtx 0).tcause == 0x8000000000000041 && (t.getCtx 0).tinfoa == near) = true := by decide +kernel

/-! Launches -/

/-- A launch record of one core whose entry is the placed line (R171), with the right CRC. -/
def launchRec (entry : Word) : List Byte :=
  let bs := Bits.bytesLE 8 entry.toNat ++ Bits.bytesLE 8 9 ++ Bits.bytesLE 8 0x109 ++ List.replicate 88 0 ++ Bits.bytesLE 8 4 ++ List.replicate 132 0
  bs ++ Bits.bytesLE 4 (Crc.crc32 bs)

/-- A machine with the placed line and a launch that front end 0 has submitted. -/
def submitted (entry : Word) : State :=
  { placed with
    mem := placed.mem.writeBytes 0x50000000 (launchRec entry), roots := [(0, BitVec.ofNat 64 placeRoot)]
    launches := [⟨0, [0x50000000, 0x50000040, 0x50000080, 0x500000C0], some 0, none, none, 0, false, none, none⟩] }

theorem test_witness_Launches_accept :
    let f (entry : Word) (p : State → List Byte → Launch → Bool) : Bool :=
      let s := submitted entry
      match s.launches[s.subject]? with
      | none => false
      | some l =>
        let t := readRecord s l
        let bs := l.record.flatMap (fun pa => t.mem.bytes pa 64)
        launchTurn s s.subject l && l.record.all (fun pa => feAllowed t (LaunchRec.of bs).asid pa true false) && p t bs l
    f 0x1000 (fun t bs l => l.record.all (fun pa => !poisoned t pa) && !launchRefused t l bs &&
        placeGangAt t l.pkg ((declared (LaunchRec.of bs).levels).headD 0) (if (LaunchRec.of bs).resv = 0 then none else
          reservation t l.pkg (LaunchRec.of bs).resv (LaunchRec.of bs).asid) == some [1]) = true ∧
      f 0x1001 (fun t bs l => launchRefused t l bs) = true := by decide +kernel

/-- R175: an accepted gang's entry context starts at ENTRY with s1 its FRAME. -/
theorem test_launch_accept : nexts (exec .launchAccept (submitted 0x1000)) (fun t => (t.getCtx 4).live && (t.getCtx 4).pc == 0x1000 && (t.getCtx 4).s[1] == 9 &&
    (t.getCore 1).gang == 2 && t.launches.isEmpty) = true := by decide +kernel

theorem test_witness_Launches_form :
    let i : Instr := .launch always 3 (some 4) (at5 0)
    let s := two 4 5 (near + 512) near
    Runs s always ∧ s.gang.lperm = true ∧ (mk id id (fun g => { g with lperm := false })).gang.lperm = false ∧
      Runs (mk id id (fun g => { g with lperm := false })) always ∧
      oks (recordLines i near s [near, near + 64, near + 128, near + 192]) (fun x => oks (checkMode x.1 i (x.1.rs 4) 8 .write) (fun y =>
        y.1.ctx.pair.isNone && paReg y.2 != 2 && y.1.ctx.sent.isEmpty && y.1.steps.isNone)) = true := by
  unfold Runs; decide +kernel

/-- R348: LAUNCH is held for the gang's next commit. -/
theorem test_launch : nexts (exec (.launch always 3 none (at5 0)) base) (fun t => t.launches.map (·.held) == [some 1] && !t.ctx.full.getLsbD 3) = true := by
  decide +kernel

theorem test_witness_Launches_complete :
    let s : State := { mk (fun c => { c with live := false }) id id with subject := 1 }
    s.subject ≠ 0 ∧ (s.getGang 1).st = .running ∧ gangExists s 1 = true ∧ gangBusy s 1 = false := by decide +kernel

/-! ### Communication phases -/

/-- The placed line as a phase's line: a gang whose level 0 is in phase mode. -/
def phasic (f : Ctx → Ctx) (word : Nat) : State :=
  let s := State.reset.withFetchWord 96 word
  (s.upd f).updGang (fun g => { g with levels := [0x105 + 0x40] })

theorem test_witness_PhaseBoundaries_phase :
    let s : State := { phasic id 0xC00FFFFFFFFF500000000000 with grp := { Group.idle with first := 0x1000, next := 0x1001 } }
    let next := (s.grp.first &&& ~~~0x3F#64) + 64
    Runs s always ∧ phaseLevel s.gang (5 : Fin 8).val = true ∧ (∀ n, n < 4 → n ≠ s.ctxNo.val → atPhase (s.getCtx (4 * s.coreKey + n)) = false) ∧
      lfsMode s.ctx = 0 ∧ runTooLong s next = false ∧
      oks (loadRun (absorbDiscards (absorbAnswers (s.goto next) s.cur (barrierReach 5) true) s.cur (barrierReach 5)) s.cur 512 next) (fun _ => true) = true ∧ s.core.residual = [] ∧ s.accs = [] ∧ s.ctx.wait = none := by
  unfold Runs; decide +kernel

/-- R60, R270: a run of one line with PH = 1. -/
theorem test_witness_PhaseBoundaries_run :
    let s := placed.upd (fun c => { c with pc := 0x1000 })
    let t : State := { s with mem := s.mem.writeLE 0x4000103D 1 1 }
    oks (loadRun t 0 512 0x1000) (fun x => x.2.map (·.1) == [0x1000]) = true ∧ oks (loadRun s 0 512 0x1000) (fun x => x.2.isEmpty) = true := by
  decide +kernel

theorem test_witness_PhaseBoundaries_forms :
    let s := phased id
    s.guard always = true ∧ (s.core.phase.map (·.pcc)) = some (5 : BitVec 16).toNat ∧ (s.core.phase.map (·.passes)) = some [] ∧
      (s.core.phase.map (·.ctx)) = some s.ctxNo := by decide +kernel

theorem test_witness_PhaseBoundaries_complete :
    let s := waiting (.phase 5 [(0x1000, 7)])
    let p := (phased (fun p => { p with pcc := 65536 }))
    (s.getGang (s.getCore 0).gang).st = .running ∧ gangUnit (s.getGang (s.getCore 0).gang) (5 : Fin 8).val 0 = [0] ∧ (s.getGang (s.getCore 0).gang).outAt = none ∧
      phaseArrivals s [0] (5 : Fin 8).val = [(0, [(0x1000, 7)])] ∧ ((p.getCore 0).phase.map (·.pcc)) = some 65536 := by decide +kernel

/-- R270: the released core begins phase cycle 0 with its lines. -/
theorem test_phase_begin : nexts (exec (.phaseBarrierComplete 0 5) (waiting (.phase 5 [(0x1000, 7)])))
    (fun t => (t.getCore 0).phase.map (fun p => (p.pcc, p.run)) == some (0, [(0x1000, 7)]) && (t.getCtx 0).wait.isNone) = true := by decide +kernel
theorem test_witness_PhaseBoundaries_end :
    let s : State := { phased id with grp := { Group.idle with pend := true } }
    ((s.getCore (s.cur / 4)).phase.map (·.passes)) = some [] ∧ s.grp.pend = true ∧ s.grp.stalled = false ∧ s.grp.trapped = false ∧ s.grp.went = none ∧
      lfsMode (s.getCtx s.cur) = 0 := by decide +kernel

/-- R276: PEND goes on at the next line, and its group ends the phase. -/
theorem test_pend : nexts (exec (.pend always) { phased id with grp := { Group.idle with first := 0x1003 } }) (fun t => t.ctx.pc == 0x1040 &&
    ((conclude exec t [(3, .pend always)] t).any (fun u => u.core.phase.isNone && u.ctx.pc == 0x1040))) = true := by
  decide +kernel

theorem test_witness_PhaseForms_lanes :
    let s := phased id
    let w := phased (fun p => { p with written := [(.near 0 .east, some (5, 0))] })
    let full := phased (fun p => { p with latches := [(.near 0 .west, ⟨9, 3, true⟩)] })
    s.guard always = true ∧ (s.core.phase.map (·.pcc)) = some (5 : BitVec 16).toNat ∧ (s.core.phase.map (·.written.any (fun x => x.1 = .near 0 .east))) = some false ∧
      (s.core.phase.any (fun p => (laneSend s s.coreKey p (.near 0 .east) (s.src (.imm 3)) (BitVec.ofNat 16 p.pcc)).isSome &&
        (laneTarget p.dmap.toNat (s.coreKey % 4096) (.near 0 .north)).isNone && !p.written.any (fun x => x.1 = .near 0 .north))) = true ∧
      (s.core.phase.map (·.pcc)) ≠ some (6 : BitVec 16).toNat ∧ (w.core.phase.map (·.written.any (fun x => x.1 = .near 0 .east))) = some true ∧
      (full.latch (.near 0 .west)).pres = true ∧ (full.latch (.near 0 .west)).sent.toNat + (2 : BitVec 8).toNat = (5 : BitVec 16).toNat ∧
      (full.latch (.near 0 .west)).sent.toNat + (255 : BitVec 8).toNat ≠ (5 : BitVec 16).toNat ∧ (s.latch (.near 0 .west)).pres = false := by decide +kernel

theorem test_witness_PhaseForms_load :
    let s := phased id
    let i : Instr := .ld always .i64 (.s 3) (at5 8)
    s.guard always = true ∧ s.core.phase.isSome = true ∧
      ∃ r, Granted s i (s.ea (at5 8)) 8 8 .read true r ∧ paReg r.pa = 1 ∧ padCore r.pa = r.s.coreKey ∧ r.s = s := by
  refine ⟨by decide +kernel, by decide +kernel, ?_⟩
  have h : oks (grant (phased id) (.ld always .i64 (.s 3) (at5 8)) ((phased id).ea (at5 8)) 8 8 .read true) (fun r =>
      !r.refused && r.s.ctx.pair.isNone && paReg r.pa == 1 && padCore r.pa == r.s.coreKey && decide (r.s = phased id)) = true := by decide +kernel
  unfold oks at h
  split at h
  · rename_i r hr
    simp only [Bool.and_eq_true, Bool.not_eq_true', Option.isNone_iff_eq_none, beq_iff_eq, decide_eq_true_eq] at h
    exact ⟨r, ⟨hr, h.1.1.1.1, h.1.1.1.2⟩, h.1.1.2, h.1.2, h.2⟩
  · simp at h

/-- R274: XRCV of a value sent 2 cycles before. -/
theorem test_xrcv : nexts (exec (.xrcv always 4 (.near 0 .west) 5 2) (phased (fun p => { p with latches := [(.near 0 .west, ⟨9, 3, true⟩)] })))
    (fun t => t.ctx.s[4] == 9) = true := by decide +kernel
/-- R274: an XMIT in another cycle raises 0x6A. -/
theorem test_xmit_stamp : nexts (exec (.xmit always (.near 0 .east) (.imm 3) 6) (phased id))
    (fun t => t.grp.trapped) = true := by decide +kernel

/-! ### Engines and promises -/

/-- A record of 64 bytes. -/
def words (l : List Word) : List Byte := (l ++ List.replicate (8 - l.length) 0).flatMap (fun (w : Word) => Bits.bytesLE 8 w.toNat)

theorem test_witness_EngineForms_forms :
    let s := mk id (fun c => { c with chains := c.chains.set 7 { Chain.reset with acnt := 3, ccnt := 2 } }) id
    Runs s always ∧ (s.core.entry (nextTseq s.core.tseq)).state = 0 ∧ s.ctx.pair = none ∧ Whole s ∧ 7 < (s.src (.imm 8)).toNat ∧
      (s.src (.imm 7)).toNat = (7 : Fin 8).val ∧ (s.src (.imm 2)).toNat ≤ (s.getChain s.coreKey 7).ccnt ∧
      (s.src (.imm 3)).toNat ≤ (s.getChain s.coreKey 7).acnt ∧ (s.getChain s.coreKey 7).ccnt < (s.src (.imm 3)).toNat ∧
      (s.getChain s.coreKey 7).acnt < (s.src (.imm 4)).toNat := by
  unfold Runs Whole; decide +kernel

/-- Core 0 with a record in its scratchpad at near + 4096, whose address s4 holds. -/
def recorded (l : List Word) : State := pad (two 4 5 (near + 4096) near) 4096 (words l)

theorem test_witness_EngineForms_append :
    let i : Instr := .capp always (some 3) 4 (.imm 0) false
    let f (s : State) (p : Grant → List Word → Bool) : Bool :=
      oks (grantAs s i (s.rs 4) 64 16 .write .rmw false) (fun r => !r.refused && r.s.ctx.pair.isNone && p r (wordsOf (r.s.mem.bytes r.pa 64)))
    let good := recorded [1, 0, near, near + 256, 64]
    f good (fun r b => oks (linkBefore r.s i (r.s.getChain r.s.coreKey 0)) (fun x => x.2.isNone && x.1.ctx.pair.isNone && x.1.ctx.sent.isEmpty && x.1.steps.isNone) && kindOk 0 (dw b 0 % 256) && Bits.fld (dw b 0) 19 16 == 0 && r.s.core.scoreboard.length == 0 && !seedHolds r.s &&
        (r.s.core.entry (nextTseq r.s.core.tseq)).state == 0 && (r.s.getChain r.s.coreKey 0).fifo.isEmpty && r.s.mem.wf && r.s.gang.shadow == 0 &&
        (sbRange b 1).isSome && oks (copytBytes r.s b) (fun x => x.2 == 1)) = true ∧
      f (recorded [3]) (fun _ b => !kindOk 0 (dw b 0 % 256)) = true ∧ f (recorded [0x10001]) (fun _ b => Bits.fld (dw b 0) 19 16 == 1) = true ∧
      (match grantAs (two 4 5 (near + 32) near) i (near + 32) 64 16 .write .rmw false with | .error (.trap x) => x.cause == 0x13 | _ => false) = true := by
  decide +kernel

/-- R296: CAPP appends its record, stores STATE 1 and gives its number. -/
theorem test_capp : nexts (exec (.capp always (some 3) 4 (.imm 0) false) (recorded [1, 0, near, near + 256, 64]))
    (fun t => t.ctx.s[3] == 1 && t.mem.readLE (mkPa 0 1 4096) 4 == 0x10001 && t.core.scoreboard.length == 1) = true := by decide +kernel
/-- R292, R296: CSTAT with .clr answers the fault word and clears it. -/
theorem test_cstat : nexts (exec (.cstat always true 9 (.imm 0)) (mk id (fun c => { c with chains := c.chains.set 0 { Chain.reset with fault := 5 } }) id))
    (fun t => t.ctx.s[9] == 5 && (t.getChain 0 0).fault == 0) = true := by decide +kernel

theorem test_witness_PromiseForms :
    let s := mk id id (fun g => { g with tensors := near })
    let f (i : Instr) (n : Nat) (m : Mode) : Bool := oks (checkMode s i (s.ea (at5 4096)) n m) (fun x => paReg x.2 != 2 && x.1.ctx.sent.isEmpty && x.1.steps.isNone && decide (x.1.core.scoreboard.length < 16) && !seedHolds x.1)
    Runs s always ∧ s.ctx.pair = none ∧ (s.core.entry (nextTseq s.core.tseq)).state = 0 ∧
      f (.tdef always false false none (.imm 3) (at5 4096)) 32 .read = true ∧ f (.pissue always false false none (.imm 3) (at5 4096)) 64 .write = true ∧
      f (.predeem always false false false none (at5 4096)) 64 .write = true ∧ f (.pexpire always false false none (at5 4096)) 64 .write = true ∧
      4096 ≤ ((two 4 5 4096 near).rs 4).toNat ∧ (s.src (.imm 3)).toNat < 4096 ∧
      (∃ r, Granted s (.tqry always .ver 3 (.imm 3)) (tensorAddr s.gang.tensors 3) 32 32 .read false r) ∧
      (∃ r, Granted s (.pstat always 3 (at5 4096)) (s.ea (at5 4096)) 64 64 .read false r) := by
  refine ⟨?_, ?_, ?_, ?_, ?_, ?_, ?_, ?_, ?_, granted_of ?_, granted_of ?_⟩ <;> (try unfold Runs) <;> decide +kernel

/-- R304: TQRY of the columns of TID 0. -/
theorem test_tqry : nexts (exec (.tqry always .cols 3 (.imm 0)) tensored) (fun t => t.ctx.s[3] == 2) = true := by decide +kernel
/-- R304: PSTAT answers the record's state and its two counts. -/
theorem test_pstat : nexts (exec (.pstat always 3 (at5 0)) (pad base 0 ([2] ++ List.replicate 35 0 ++ [7, 0, 9, 0]))) (fun t => t.ctx.s[3] == 0x0009000700000002) = true := by
  decide +kernel

/-! Commands -/

def eoks {α : Type} (r : Eng α) (p : α → Bool) : Bool :=
  match r with
  | .ok x => p x
  | .error _ => false

/-- The record that chains perform here: at near + 4096, number 1, of context 0. -/
def item1 : ChainItem := .record (near + 4096) 1 0 0

/-- A piece of the command of a chain of core 0 as it begins (log 3), and an update's line and the piece after it. -/
def opened (s : State) (ch : Fin 8) : State := openScript s (engScript 0 ch)
def alone (s : State) : State := { s with script := none }
def back (s : State) (ch : Fin 8) : State := { s with script := some (engScript 0 ch, 0) }

/-- Core 0 with a chain that performs a command of the body given. -/
def engine (ch : Fin 8) (body : List Word) : State :=
  mk id (fun c => { c with chains := c.chains.set ch { Chain.reset with fifo := [item1], acnt := 1, run := some ⟨item1, body ++ List.replicate (8 - body.length) 0, []⟩ } })
    (fun g => { g with tensors := near, stash := near + 8192 })

/-- The command of a chain of core 0 carries these words on (R285). -/
def carrying (s : State) (ch : Fin 8) (x : List Word) : State :=
  s.setChain 0 ch { s.getChain 0 ch with run := (s.getChain 0 ch).run.map (fun r => { r with aux := x }) }

/-- The same at its beginning: the record is in memory. -/
def appended (ch : Fin 8) (body : List Word) : State :=
  pad (mk id (fun c => { c with chains := c.chains.set ch { Chain.reset with fifo := [item1], acnt := 1 } }) id) 4096 (words body)

theorem test_witness_CommandSteps_begin :
    let f (s : State) (p : List Word → Bool) : Bool :=
      eoks (engRead (opened (s.setChain 0 0 { s.getChain 0 0 with ets := max (s.getChain 0 0).ets 0 }) 0) 0 0 (near + 4096) 64 64) (fun x => p (wordsOf x.2))
    let s := appended 0 [1, 0, near, near + 256, 64]
    (s.getChain 0 0).run = none ∧ (s.getGang (s.getCore 0).gang).st = .running ∧ (s.getChain 0 0).fifo = [item1] ∧ f s (bodyOk 0) = true ∧
      f (appended 0 [0x201, 0, near, near + 256, 64]) (fun b => !bodyOk 0 b) = true := by decide +kernel

theorem test_witness_CommandSteps_fence :
    let p : ChainItem := .promise (.pexpire always false false none (at5 0)) near 0 0 1 0 0
    let q : Chain := { Chain.reset with fifo := [p] }
    let s := mk id (fun c => { c with chains := ((c.chains.set 0 { Chain.reset with fifo := [.fence 0x81] }).set 7 { Chain.reset with fifo := [.fence 0x81, item1] }).set 4 q }) id
    headFence (s.getChain 0 0) = some 0x81 ∧ (∀ h : Fin 8, (0x81 : BitVec 8).getLsbD h.val = true → headFence (s.getChain 0 h) = some 0x81) ∧
      (s.getChain 0 4).run = none ∧ (s.getChain 0 4).fifo = [p] := by decide +kernel

theorem test_witness_CommandSteps_copy :
    let k (s : State) (ch : Fin 8) (n : Nat) : Bool := (runningKind s 0 ch n).isSome
    let c := engine 0 [1, 0, near, near + 256, 64]
    let f := engine 0 [5, 0, near, 64, 7]
    k c 0 1 = true ∧ k f 0 5 = true ∧ k (engine 0 [1]) 0 1 = true ∧ k (engine 0 [5]) 0 5 = true ∧ k (engine 0 [1, 0, near, near + 8, 64]) 0 1 = true ∧
      near.toNat < (near + 8).toNat + 64 ∧ (near + 8).toNat < near.toNat + 64 ∧ ¬ (near.toNat < (near + 256).toNat + 64 ∧ (near + 256).toNat < near.toNat + 64) ∧
      eoks (engRead (opened c 0) 0 0 near 64 1) (fun x => eoks (engWrite x.1 0 0 (near + 256) x.2) (fun _ => true)) = true ∧
      eoks (engWrite (opened f 0) 0 0 near ((List.range 64).map (fun j => ((7 : Word) >>> (8 * (j % 8))).setWidth 8))) (fun _ => true) = true ∧
      k (engine 7 [6, 0, near, 9]) 7 6 = true ∧ eoks (engAddr (opened (engine 7 [6, 0, near, 9]) 7) 0 7 near 8 8 .write) (fun x => eoks (engStore x.1 0 7 x.2 [(0, Bits.bytesLE 8 9)]) (fun _ => true)) = true := by decide +kernel

/-- R286: COPY moves bytes and completes. -/
theorem test_copy : nexts (exec (.copy 0 0) (pad (engine 0 [1, 0, near, near + 256, 3]) 0 [1, 2, 3]))
    (fun t => t.mem.readLE (mkPa 0 1 256) 4 == 0x030201 && (t.getChain 0 0).ccnt == 1) = true := by decide +kernel
/-- R286: FILL repeats its pattern. -/
theorem test_fill : nexts (exec (.fill 0 0) (engine 0 [5, 0, near + 4, 9, 0x0807060504030201])) (fun t => t.mem.readLE (mkPa 0 1 12) 2 == 1) = true := by
  decide +kernel

/-- Tensor 0 as in `tensored`. -/
def engTensored (ch : Fin 8) (body : List Word) : State :=
  pad (pad (engine ch body) 0 (Bits.bytesLE 32 (near.toNat + 0x100 + 2 ^ 64 + 2 * 2 ^ 88 + 0xB * 2 ^ 112 + 64 * 2 ^ 128))) 0x100 [0x80, 0x3F, 0x00, 0x40]

theorem test_witness_CommandSteps_copyt :
    let s := engTensored 0 [2, 0, 2 ^ 36, near + 512, 2, 1]
    (runningKind s 0 0 2).isSome = true ∧ (s.getChain 0 0).piece = 0 ∧ (runningKind (engine 0 [2]) 0 0 2).isSome = true ∧
      eoks (engTensor (opened s 0) 0 0 0) (fun x => !x.2.layout && x.2.ty != 14 && x.2.ty != 15 && x.2.elemBytes == 2 && decide (0 < x.2.rows) && decide (1 < x.2.cols) &&
        (x.1.getChain 0 0).piece == 0 &&
        eoks (engRead (carrying x.1 0 (wordsOf (Bits.bytesLE 32 x.2.word))) 0 0 (x.2.base + BitVec.ofNat 64 (0 * x.2.stride + 1 * 2)) 2 1) (fun y => eoks (engWrite y.1 0 0 (near + 512) y.2) (fun _ => true))) = true := by
  decide +kernel

theorem test_witness_CommandSteps_gather :
    let f (kind : Word) (go : State → Word → Bool) : Bool :=
      let s := pad (engine 7 [kind, 0, near + 8, near, 1 + 3 * 2 ^ 32, near + 512]) 0 [0xFF, 0xFF, 0xFF, 0xFF]
      (runningKind s 0 7 kind.toNat).isSome && (s.getChain 0 7).piece == 0 && eoks (engAddr (opened s 7) 0 7 near 4 4 .read) (fun p => eoks (engLoad p.1 0 7 near p.2 4) (fun x =>
        go x.1 (near + 8 + ((BitVec.ofNat 32 (Bits.ofBytesLE x.2)).signExtend 64 <<< 3))))
    (0 : Nat) ≤ 1 ∧
      f 3 (fun s a => a == near + 8 + 0xFFFFFFFFFFFFFFF8#64 && eoks (engAddr s 0 7 a 8 8 .read) (fun q => eoks (engLoad q.1 0 7 a q.2 8) (fun x => eoks (engWrite x.1 0 7 (near + 512) x.2) (fun _ => true)))) = true ∧
      f 4 (fun s a => eoks (engRead s 0 7 (near + 512) 8 1) (fun x => eoks (engAddr x.1 0 7 a 8 8 .write) (fun q => eoks (engStore q.1 0 7 q.2 [(0, x.2)]) (fun _ => true)))) = true := by decide +kernel

/-- A stash ring of 256 bytes at near + 8192 + 64 with the head and tail given, and an entry's header at its base. -/
def stashed (body : List Word) (head tail : Nat) (hdr : List Word) : State :=
  pad (pad (engine 0 body) 8192 (words [near + 8192 + 64, 256, BitVec.ofNat 64 head, BitVec.ofNat 64 tail])) (8192 + 64) (words hdr)

/-- What STASH and UNSTASH carry on: the ring, its descriptor and the length of the entry. -/
def ringWords (x : Ring) (a : Word) (len : Nat) : List Word :=
  [x.base, BitVec.ofNat 64 x.size, BitVec.ofNat 64 x.head, BitVec.ofNat 64 x.tail, a, BitVec.ofNat 64 len]

theorem test_witness_CommandSteps_stash :
    let put := stashed [7, 0, near, 8, 5] 0 0 []
    let full := stashed [7, 0, near, 8, 5] 0 192 []
    let run (s : State) : Running := ((s.getChain 0 0).run).getD ⟨item1, [], []⟩
    (runningKind put 0 0 7).isSome = true ∧ (runningKind full 0 0 7).isSome = true ∧
      (put.getChain 0 0).piece = 0 ∧
      eoks (stashRing (opened put 0) 0 0 (run put)) (fun x => decide (128 ≤ x.2.2.size) &&
        eoks (engWrites 0 0 1 x.1 (ringRuns x.2.2 x.2.2.tail 64) (Bits.bytesLE 8 5 ++ Bits.bytesLE 8 8 ++ Bits.bytesLE 48 0)) (fun h =>
        eoks (engRead (carrying h 0 (ringWords x.2.2 x.2.1 8)) 0 0 near 8 1) (fun y =>
        eoks (engWrites 0 0 1 y.1 (ringRuns x.2.2 (x.2.2.tail + 64) 8) y.2) (fun z => eoks (ringUpdate z 0 0 x.2.1 24 128) (fun _ => true))))) = true ∧
      eoks (stashRing (opened full 0) 0 0 (run full)) (fun x => x.2.2.size - (BitVec.ofNat 64 x.2.2.tail - BitVec.ofNat 64 x.2.2.head).toNat == 64 &&
        eoks (engWrites 0 0 1 x.1 (ringRuns x.2.2 192 64) (Bits.bytesLE 8 5 ++ Bits.bytesLE 8 0 ++ Bits.bytesLE 48 1)) (fun z => eoks (ringUpdate z 0 0 x.2.1 24 64) (fun _ => true))) = true := by
  decide +kernel

theorem test_witness_CommandSteps_unstash :
    let f (hdr : List Word) (go : State → Word → Ring → List Word → Bool) : Bool :=
      let s := stashed [8, 0, near, 8, 5] 0 128 hdr
      let r : Running := ((s.getChain 0 0).run).getD ⟨item1, [], []⟩
      (runningKind s 0 0 8).isSome && eoks (stashRing (opened s 0) 0 0 r) (fun x => x.2.2.head != x.2.2.tail && eoks (engReads 0 0 1 x.1 (ringRuns x.2.2 x.2.2.head 64) []) (fun y =>
        go y.1 x.2.1 x.2.2 (wordsOf y.2)))
    (0 : Nat) ≤ 1 ∧
      f [5, 0, 1] (fun s a _ h => h.getD 0 0 == 5 && Bits.bit (dw h 2) 0 && eoks (ringUpdate s 0 0 a 16 64) (fun _ => true)) = true ∧
      f [5, 8, 0] (fun s a x h => h.getD 0 0 == 5 && dw h 1 == 8 && !Bits.bit (dw h 2) 0 && eoks (engReads 0 0 1 (carrying s 0 (ringWords x a 8)) (ringRuns x (x.head + 64) 8) []) (fun y =>
        eoks (engWrite y.1 0 0 near y.2) (fun z => eoks (ringUpdate z 0 0 a 16 128) (fun _ => true)))) = true := by decide +kernel

/-- R288: STASH writes the header and moves TAIL. -/
theorem test_stash : nexts (exec (.stash 0 0) (stashed [7, 0, near, 8, 5] 0 0 [])) (fun t => t.mem.readLE (mkPa 0 1 8256) 16 == 5 + 8 * 2 ^ 64 &&
    t.mem.readLE (mkPa 0 1 8216) 8 == 128) = true := by decide +kernel

/-- R288: the descriptor's TAIL as memory holds it at the end counts on. -/
theorem test_witness_CommandSteps_ring :
    let s := stashed [7, 0, near, 8, 5] 0 0 []
    s.steps = none ∧ s.script = none ∧ s.mem.wf = true ∧ (s.getGang (s.getCore 0).gang).shadow = 0 ∧
      eoks (engAddr s 0 0 (near + 8192) 64 64 .read) (fun x => eoks (engAddr x.1 0 0 (near + 8192) 64 64 .write) (fun y => y.2 % 64 == 0)) = true ∧
      eoks (ringUpdate s 0 0 (near + 8192) 24 128) (fun t => t.mem.readLE (mkPa 0 1 8216) 8 == 128) = true := by decide +kernel

/-- Nothing of a piece has been done (log 3). -/
theorem test_witness_Unbroken :
    Unbroken (engine 0 [1]) (engScript 0 0) ∧ Unbroken (appended 0 [1]) (engScript 0 0) ∧ Unbroken (stashed [7] 0 0 []) (engScript 0 0) := by
  unfold Unbroken; decide +kernel

/-! Updates -/

/-- Tensors 0 to 3, of one f32 each, in device memory at 0x2000, and the parameters of AdamW at 0x3000. -/
def updating (ch : Fin 8) (body : List Word) : State :=
  let s := placed
  let entry (n : Nat) : List Byte := Bits.bytesLE 32 (0x2000 + 64 * n + 2 ^ 64 + 2 ^ 88 + 9 * 2 ^ 112 + 4 * 2 ^ 128)
  let s := s.setGang 1 { s.getGang 1 with tensors := near }
  let s := s.setCore 0 { s.getCore 0 with
    chains := Core.reset.chains.set ch { Chain.reset with fifo := [item1], acnt := 1, run := some ⟨item1, body ++ List.replicate (8 - body.length) 0, []⟩ } }
  let one : List Byte := [0, 0, 0x80, 0x3F]
  let s := pad s 0 (entry 0 ++ entry 1 ++ entry 2 ++ entry 3)
  let m := (((s.mem.writeBytes 0x40002000 one).writeBytes 0x40002040 one).writeBytes 0x40002080 one).writeBytes 0x400020C0 one
  { s with mem := m.writeBytes 0x40003000 ((List.range 9).flatMap (fun _ => one)) }

theorem test_witness_UpdateSteps_sgd :
    let s := updating 4 [0x10, 0, 0x1000, 0x3F8000003F800000]
    (runningKind s 0 4 0x10).any (fun r => r.aux.isEmpty && dw r.body 4 == 0 && !tensorHeld s 0 4 r) = true ∧ (s.getChain 0 4).piece = 0 ∧ (s.steps = none ∧ mget? (engScript 0 4) s.scripts = none) ∧ eoks (updateTensors (opened s 4) 0 4 [8, 9] [0, 1]) (fun x => match x.2 with
      | [w, g] => decide (0 < w.count) && decide (w.count ≤ w.perLine) && eoks (elemWritable (alone x.1) 0 4 w 0 1) (fun z =>
        eoks (elemRead z 0 4 w 0 1) (fun a => eoks (elemRead a.1 0 4 g 0 1) (fun b => (Num.unpack w.fmt (a.2.getD 0 0)).isFin && (Num.unpack w.fmt (b.2.getD 0 0)).isFin &&
          eoks (elemWrite b.1 0 4 w 0 [0x3F800000]) (fun c =>
          eoks (bumpVersion (back c 4) 0 4 0) (fun _ => true)))))
      | _ => false) = true := by decide +kernel

theorem test_witness_UpdateSteps_scale :
    let s := updating 5 [0x12, 0, 0, 0x40000000]
    (runningKind s 0 5 0x12).any (fun r => !tensorHeld s 0 5 r) = true ∧ eoks (updateTensors (opened s 5) 0 5 [8, 9] [0]) (fun x => match x.2 with
      | [w] => eoks (elemWritable (alone x.1) 0 5 w 0 1) (fun z => eoks (elemRead z 0 5 w 0 1) (fun a => eoks (elemWrite a.1 0 5 w 0 [0x40000000]) (fun _ => true)))
      | _ => false) = true := by decide +kernel

theorem test_witness_UpdateSteps_adamw :
    let s := updating 4 [0x11, 0, 0x003002001000, 0x3000]
    (runningKind s 0 4 0x11).any (fun r => !tensorHeld s 0 4 r) = true ∧ eoks (updateTensors (opened s 4) 0 4 [9] [0, 1, 2, 3]) (fun x => match x.2 with
      | [w, g, m, v] => eoks (engAddr x.1 0 4 0x3000 64 64 .read) (fun pa => eoks (engLoad pa.1 0 4 0x3000 pa.2 64) (fun y =>
        eoks (elemWritable (alone y.1) 0 4 w 0 1) (fun y1 => eoks (elemWritable y1 0 4 m 0 1) (fun y2 => eoks (elemWritable y2 0 4 v 0 1) (fun y3 =>
        eoks (elemRead y3 0 4 w 0 1) (fun a => eoks (elemRead a.1 0 4 g 0 1) (fun b => eoks (elemRead b.1 0 4 m 0 1) (fun c => eoks (elemRead c.1 0 4 v 0 1) (fun d =>
          let o := Num.unpack Num.f32 0x3F800000
          (adamElem o o o o o o o o o o o o o).2 == false && a.2 == [0x3F800000] && d.2 == [0x3F800000] &&
          eoks (elemWrite d.1 0 4 w 0 [0]) (fun e => eoks (elemWrite e 0 4 m 0 [0]) (fun f => eoks (elemWrite f 0 4 v 0 [0]) (fun h => eoks (bumpVersion (back h 4) 0 4 0) (fun _ => true)))))))))))))
      | _ => false) = true := by decide +kernel

/-- R289: SGD with η = fade = 1 of W = g = 1 leaves 0 and counts in VERSION. -/
theorem test_nmu_sgd : nexts (exec (.nmuSgd 0 4) (updating 4 [0x10, 0, 0x1000, 0x3F8000003F800000]))
    (fun t => t.mem.readLE 0x40002000 4 == 0 && t.mem.readLE (mkPa 0 1 24) 4 == 1) = true := by decide +kernel
/-- R289: an update waits for one of the same tensor that has done some of its pieces, and not for one of another tensor. -/
theorem test_update_order :
    let s (tid : Word) := (updating 4 [0x10, 0, 0x1000, 0x3F8000003F800000]).setChain 0 5 { Chain.reset with
      fifo := [item1], acnt := 1, piece := 1, run := some ⟨item1, [0x12, 0, tid, 0, 0, 0, 0, 0], [0]⟩ }
    nexts (exec (.nmuSgd 0 4) (s 0)) (fun t => t.mem.readLE 0x40002000 4 == 0x3F800000 && (t.getChain 0 4).run.isSome) = true ∧
      nexts (exec (.nmuSgd 0 4) (s 2)) (fun t => t.mem.readLE 0x40002000 4 == 0) = true := by decide +kernel
/-- R289: SCALE by 2. -/
theorem test_nmu_scale : nexts (exec (.nmuScale 0 5) (updating 5 [0x12, 0, 0, 0x40000000])) (fun t => t.mem.readLE 0x40002000 4 == 0x40000000) = true := by
  decide +kernel

/-! Collectives -/

/-- Cores 0 and 1 of a gang whose chains 6 perform collectives of the bodies given; their scratchpads hold the group list at 512. -/
def collective (b0 b1 : List Word) : State :=
  let c (b : List Word) : Core := { Core.reset with
    gang := 1, split := 4
    chains := Core.reset.chains.set 6 { Chain.reset with fifo := [item1], acnt := 1, run := some ⟨item1, b, []⟩ } }
  let s : State := { base with cores := [(0, c b0), (1, c b1)], gangs := [(1, { placeGang with cores := [0, 1] })] }
  { s with mem := (s.mem.writeBytes (mkPa 0 1 512) (Bits.bytesLE 8 (2 ^ 32))).writeBytes (mkPa 0 1 (2 ^ 18 + 512)) (Bits.bytesLE 8 (2 ^ 32)) }

/-- The body of a collective of two ranks with shards of 64 bytes of i64, root 0, number 0. -/
def collBodyOf (kind : Word) : List Word := [kind, 0, near + 4096, near + 8192, 64 + 2 * 2 ^ 40, near + 512, 0, near + 1024]

theorem test_witness_CollectiveSteps_match :
    let b := collBodyOf 0x20
    let f (b1 : List Word) (list : List Nat) : Bool :=
      let s := collective b b1
      starters s (2 ^ 32) == [(0, ⟨item1, b, []⟩), (1, ⟨item1, b1, []⟩)] && (mget? (2 ^ 32) s.colls).isNone && ranks b == 2 && rootRank b == 0 &&
        eoks (groupList (openScript s (collScript (2 ^ 32))) 0 b) (fun x => x.2 == [0, 1] && eoks (groupList x.1 1 b1) (fun y => y.2 == list))
    f b [0, 1] = true ∧ Unbroken (collective b b) (collScript (2 ^ 32)) ∧ f (b.set 5 near) [0, 0] = true ∧ 2 ≤ rootRank ((collBodyOf 0x23).set 4 (64 + 2 * 2 ^ 40 + 2 * 2 ^ 48)) ∧ f (b.set 4 (128 + 2 * 2 ^ 40)) [0, 1] = true := by
  unfold Unbroken; decide +kernel

/-- The same matched, with the shards that have arrived. -/
def matchedAt (kind : Word) (a0 a1 : List Nat) : State :=
  let b := collBodyOf kind
  { collective b b with colls := [(2 ^ 32, [⟨0, b, a0, false⟩, ⟨1, b, a1, false⟩])] }

theorem test_witness_CollectiveSteps_gather :
    let b := collBodyOf 0x20
    let m (k : Nat) (l : List Nat) : Member := ⟨k, b, l, false⟩
    let s := matchedAt 0x20 [] []
    let t := matchedAt 0x20 [0] [1]
    matched s (2 ^ 32) 0x20 = some [m 0 [], m 1 []] ∧
      eoks (landShard (openScript s (collScript (2 ^ 32))) [m 0 [], m 1 []] (m 0 []) 0) (fun u => eoks (landShard u [m 0 [], m 1 []] (m 1 []) 1) (fun _ => true)) = true ∧
      matched t (2 ^ 32) 0x20 = some [m 0 [0], m 1 [1]] ∧ (collRunning t 0).map (collOf t 0) = some (2 ^ 32) ∧
      Unbroken s (collScript (2 ^ 32)) ∧ Unbroken t (collScript (2 ^ 32)) ∧ (∀ j, j < 64 → mget? (arrivalScript 0 j) t.scripts = none) ∧
      eoks (landShard (openScript t (arrivalScript 0 1)) [m 0 [0], m 1 [1]] (m 0 [0]) 1) (fun _ => true) = true := by
  unfold Unbroken; decide +kernel

/-- The words that an arrival at rank 0 writes, in their order. -/
theorem test_witness_CollectiveSteps_words :
    let b := collBodyOf 0x20
    let m0 : Member := ⟨0, b, [0], false⟩
    let c : Coll := [m0, ⟨1, b, [1], false⟩]
    eoks (sendBytes (matchedAt 0x20 [0] [1]) c 1 0 64) (fun x => eoks (engWrite (receive x.1 c [1] m0) 0 collChain (b.getD 3 0 + 64) x.2.1) (fun s2 => x.2.2.isNone &&
      let word (u : State) (a : Word) (v : Nat) (go : State → Bool) : Bool :=
        eoks (engAddr u 0 collChain a 8 8 .write) (fun p => eoks (engStore p.1 0 collChain p.2 [(0, Bits.bytesLE 8 v)]) go)
      word s2 (near + 1024 + 24) 1 (fun s3 => word s3 (near + 1024 + 8) 2 (fun s4 => word s4 (near + 1024 + 32) 2 (fun _ => true))))) = true := by decide +kernel

theorem test_witness_CollectiveSteps_rest :
    let f (kind : Word) (go : State → Coll → Bool) : Bool :=
      let s := matchedAt kind [] []
      let b := collBodyOf kind
      let c : Coll := [⟨0, b, [], false⟩, ⟨1, b, [], false⟩]
      matched s (2 ^ 32) kind.toNat == some c && shardSize b == 64 && go (openScript s (collScript (2 ^ 32))) c
    let put (c : Coll) (k : Nat) (from_ : List Nat) (bs : List Byte) (u : State) (go : State → Bool) : Bool :=
      eoks (engWrite (receive u c from_ ((c)[k]?.getD ⟨0, [], [], false⟩)) k collChain (near + 8192) bs) go
    f 0x21 (fun s c => eoks (reduceShard s c 0 64 .i64) (fun x => x.2.2.isNone && put c 0 [0, 1] x.2.1 x.1 (fun _ => true))) = true ∧
      f 0x22 (fun s c => eoks (reduceShard s c 0 64 .i64) (fun x => x.2.2.isNone && put c 0 [0, 1] x.2.1 x.1 (fun u => put c 1 [0, 1] x.2.1 u (fun _ => true)))) = true ∧
      f 0x23 (fun s c => eoks (sendBytes s c 0 0 64) (fun x => x.2.2.isNone && put c 0 [0] x.2.1 x.1 (fun u => put c 1 [0] x.2.1 u (fun _ => true)))) = true ∧
      f 0x24 (fun s c => eoks (sendBytes s c 1 0 64) (fun x => x.2.2.isNone && x.2.1.length == 64 && put c 0 [1] x.2.1 x.1 (fun _ => true))) = true ∧
      f 0x21 (fun s c => eoks (sendBytes s c 0 64 64) (fun x => eoks (sendBytes x.1 c 1 64 64) (fun y => eoks (reduceShard s c 1 64 .i64) (fun z =>
        x.2.2.isNone && y.2.2.isNone && x.2.1.length == y.2.1.length && z.1 == y.1 && z.2.1 == addShards .i64 x.2.1 y.2.1)))) = true ∧ Ty.i64.isInt = true ∧ 8 ≤ Ty.i64.bits ∧ 7 < (List.replicate 64 (0 : Byte)).length / 8 := by decide +kernel

/-- R291: the last step of a reduce-scatter of i64 gives rank 1 the sum of its shard. -/
theorem test_coll_rs : nexts (exec (.collRs (2 ^ 32)) (let s := matchedAt 0x21 [0] [0]
    { s with mem := (s.mem.writeBytes (mkPa 0 1 (4096 + 64)) [3]).writeBytes (mkPa 0 1 (2 ^ 18 + 4096 + 64)) [4] }))
    (fun t => t.mem.readLE (mkPa 0 1 (2 ^ 18 + 8192)) 8 == 7 && (t.getChain 1 6).ccnt == 1 && t.colls.isEmpty) = true := by decide +kernel

/-! Promises -/

/-- Chain 4 of `updating` with a promise command for the record at near + 4096, which holds x. -/
def promised (i : Instr) (c : Word) (x : Nat) : State :=
  let s := updating 4 []
  let s := s.setCore 0 { s.getCore 0 with split := 12 }
  let item : ChainItem := .promise i (near + 4096) c 0 1 0 0
  let s := s.setChain 0 4 { s.getChain 0 4 with fifo := [item], run := some ⟨item, [], []⟩ }
  pad s 4096 (Bits.bytesLE 64 x)

/-- A record for tensors 0 to 3 with η = fade = 1. -/
def record (state policy : Nat) : Nat :=
  state + 4 * policy + 2 ^ 20 + 2 * 2 ^ 32 + 3 * 2 ^ 44 + 0x3F800000 * 2 ^ 128 + 0x3F800000 * 2 ^ 160

theorem test_witness_PromiseSteps_define :
    let i : Instr := .tdef always false false none (.imm 7) (at5 4096)
    let s := promised i 7 (0x2000 + 2 ^ 64 + 2 ^ 88 + 9 * 2 ^ 112 + 4 * 2 ^ 128)
    let g := s.getGang (s.getCore 0).gang
    let img := s.numAt (mkPa 0 1 4096) 32
    (performing s 0 4).any (fun r => !tensorHeld s 0 4 r) = true ∧ nearOff (near + 4096).toNat = some 4096 ∧ 4096 + 32 ≤ padSize s 0 ∧ nearOff (tensorAddr g.tensors 7).toNat = some 224 ∧
      nearOff (headAddr g.tensors 7).toNat = some 131128 ∧ 131128 % 8 = 0 ∧ 131128 + 8 ≤ padSize s 0 ∧ g.kept = [] ∧ (gangPkgs g).contains 0 = true ∧
      g.shadow = 0 ∧ s.mem.wf = true ∧ img / 2 ^ 227 = 0 ∧ img / 2 ^ 176 % 2 ^ 16 = 0 ∧ img / 2 ^ 172 % 16 = 0 ∧ img / 2 ^ 112 % 16 ≠ 15 ∧
      s.numAt (mkPa 0 1 131128) 8 = 0 := by decide +kernel

/-- The record that chain 4 performs a promise command for. -/
def pcmd : PCmd := ⟨0, 4, near + 4096⟩

/-- One element read and written by chain 4. -/
def reads1 (s : State) (t : Tensor) (p : State → Nat → Bool) : Bool := eoks (elemRead s 0 4 t 0 1) (fun x => x.2.length == 1 && p x.1 (x.2.getD 0 0))
def writes1 (s : State) (t : Tensor) (v : Nat) (p : State → Bool) : Bool := eoks (elemWrite s 0 4 t 0 [v]) p

/-- The record is clean and names tensors of one element. -/
def openRec (i : Instr) (x : Nat) (p : State → Nat → PTensors → Bool) : Bool :=
  let s := promised i 0 x
  (performing s 0 4).any (fun r => !tensorHeld s 0 4 r) && eoks (recRead (opened s 4) pcmd pcmd.ea) (fun x => recClean x.2 && recPolicy x.2 != 3 && eoks (promiseTensors x.1 pcmd x.2) (fun y =>
    y.2.w.count == 1 && y.2.f.count == 1 && y.2.p.count == 1 && y.2.g.count == 1 && p y.1 x.2 y.2))

theorem test_witness_PromiseSteps_issue :
    openRec (.pissue always false false none (.imm 0) (at5 4096)) (record 0 0) (fun s x t => recState x != 1 && eoks (listOf s pcmd (recTidW x)) (fun l => l.2.isEmpty &&
      reads1 l.1 t.f (fun s _ => reads1 (alone s) t.p (fun s _ => writes1 s t.g 0x3F800000 (fun s => reads1 (alone (back s 4)) t.w (fun s _ => writes1 s t.w 0 (fun s =>
        eoks (bumpVersion (back s 4) 0 4 (recTidW x)) (fun s => eoks (engTensor s 0 4 (recTidW x)) (fun w => eoks (wordRead w.1 pcmd (headOf w.1 pcmd (recTidW x))) (fun h =>
          eoks (recWrite h.1 pcmd pcmd.ea 1) (fun s => eoks (wordWrite s pcmd (headOf s pcmd (recTidW x)) pcmd.ea) (fun _ => true))))))))))) ) = true := by decide +kernel

/-- The record at 4096 heads the open list of tensor 0. -/
def listed1 (s : State) : State := pad s 131072 (Bits.bytesLE 8 (near.toNat + 4096))

theorem test_witness_PromiseSteps_redeem :
    let x := record 1 0 + 0x61626364 * 2 ^ 224
    let f (i : Instr) (x : Nat) (p : State → Nat → PTensors → Bool) : Bool := openRec i x p
    f (.predeem always false false false none (at5 4096)) x (fun s x t => decide ((t.w.version + 2 ^ 32 - x / 2 ^ 64 % 2 ^ 32) % 2 ^ 32 ≤ 65535) &&
      reads1 (alone s) t.g (fun s _ => reads1 s { t.w with base := BitVec.ofNat 64 (x / 2 ^ 320) } (fun s _ => reads1 s t.w (fun s _ => writes1 s t.w 0 (fun s =>
        eoks (unlink (listed1 (back s 4)) pcmd x) (fun s => eoks (recWrite s pcmd pcmd.ea 2) (fun _ => true)) &&
        reads1 (back s 4) t.f (fun s v => decide (Crc.crc32 (Bits.bytesLE t.f.elemBytes v) ≠ x / 2 ^ 224 % 2 ^ 32) && reads1 (alone s) t.p (fun s _ => writes1 s t.p 0 (fun s =>
          eoks (unlink (listed1 (back s 4)) pcmd x) (fun _ => true))))))))) = true ∧
      f (.predeem always false true false none (at5 4096)) (x + 2 ^ 64) (fun _ x t => decide (65535 < (t.w.version + 2 ^ 32 - x / 2 ^ 64 % 2 ^ 32) % 2 ^ 32)) = true ∧
      Crc.crc32 (Bits.bytesLE 4 0x3F800000) < 2 ^ 32 := by decide +kernel

theorem test_witness_PromiseSteps_states :
    let j : Instr := .predeem always false true false none (at5 4096)
    let k : Instr := .pexpire always false false none (at5 4096)
    let i : Instr := .pissue always false false none (.imm 0) (at5 4096)
    let reads (s : State) (st pol : Nat) : Bool := (performing s 0 4).any (fun r => !tensorHeld s 0 4 r) && eoks (recRead (opened s 4) pcmd pcmd.ea) (fun x => recState x.2 == st && recClean x.2 && recPolicy x.2 == pol)
    reads (promised i 0 (record 1 0)) 1 0 = true ∧ reads (promised j 0 (record 0 0)) 0 0 = true ∧ reads (promised j 0 (record 2 0)) 2 0 = true ∧
      reads (promised j 0 (record 3 0)) 3 0 = true ∧ reads (promised k 0 (record 2 0)) 2 0 = true ∧ reads (promised k 0 (record 3 0)) 3 0 = true ∧
      [0, 2].all (fun pol => reads (promised k 0 (record 1 pol)) 1 pol && eoks (recRead (opened (promised k 0 (record 1 pol)) 4) pcmd pcmd.ea) (fun x =>
        eoks (unlink (listed1 x.1) pcmd x.2) (fun s => eoks (recWrite s pcmd pcmd.ea 3) (fun _ => true)))) = true ∧
      openRec k (record 1 1) (fun s x t => reads1 (alone s) t.g (fun s _ => reads1 s t.w (fun s _ => writes1 s t.w 0 (fun s => eoks (unlink (listed1 (back s 4)) pcmd x) (fun _ => true))))) = true := by
  decide +kernel

/-- The record at 4096 stands behind one at 8192 in the open list of tensor 0, and nothing of the command has been done. -/
theorem test_witness_PromiseSteps_list :
    let k : Instr := .pexpire always false false none (at5 4096)
    let s := pad (pad (promised k 0 (record 1 0)) 131072 (Bits.bytesLE 8 (near.toNat + 8192))) 8192 (Bits.bytesLE 64 (record 1 0 + (near.toNat + 4096) * 2 ^ 384))
    Unbroken s (engScript 0 4) ∧ eoks (wordRead s pcmd (headOf s pcmd 0)) (fun x => x.2 == near + 8192 && x.2 != pcmd.ea &&
      eoks (recRead x.1 pcmd x.2) (fun y => recNext y.2 == pcmd.ea)) = true ∧
      eoks (wordRead (listed1 s) pcmd (headOf (listed1 s) pcmd 0)) (fun x => x.2 == pcmd.ea && eoks (wordWrite x.1 pcmd (headOf x.1 pcmd 0) 0) (fun _ => true)) = true := by
  unfold Unbroken; decide +kernel

/-- R310: a record that cannot be read, behind the one removed, is none of the removal's concern. -/
theorem test_promise_unlink :
    nexts (exec (.promiseExpire 0 4) (listed1 (promised (.pexpire always false false none (at5 4096)) 0 (record 1 0 + 0x12345640 * 2 ^ 384))))
      (fun t => t.mem.readLE (mkPa 0 1 4096) 1 % 4 == 3 && t.mem.readLE (mkPa 0 1 131072) 8 == 0x12345640) = true := by decide +kernel

/-- R309: issuing opens the record and steps W: 1 · 1 − 1 · (1 · 1) = 0. -/
theorem test_promise_issue : nexts (exec (.promiseIssue 0 4) (promised (.pissue always false false none (.imm 0) (at5 4096)) 0 (record 0 0)))
    (fun t => t.mem.readLE (mkPa 0 1 4096) 1 % 4 == 1 && t.mem.readLE 0x40002000 4 == 0 && (t.getGang 1).openBits == [0]) = true := by decide +kernel
/-- R313: an expiry of policy 0 leaves STATE 3. -/
theorem test_promise_expire : nexts (exec (.promiseExpire 0 4) (promised (.pexpire always false false none (at5 4096)) 0 (record 1 0)))
    (fun t => t.mem.readLE (mkPa 0 1 4096) 1 % 4 == 3) = true := by decide +kernel

/-! ### System forms and the other units -/

theorem test_witness_SpecialRegisters :
    let busy := mk id (fun c => { c with seq := [1], ring := [(1, formEntry (.vmov always 1 2) 1 1 0)] }) id
    Runs base always ∧ Runs busy always ∧ vecBusy base.core (base.cur % 4) = false ∧ vecBusy busy.core (busy.cur % 4) = true ∧ base.sup = true ∧ user.sup = false ∧
      Runs user always ∧ (0x802 : BitVec 12).toNat = 0x802 ∧ Vec.legalVsh (0x9101 : Word).toNat = true ∧ Vec.legalVsh (near : Word).toNat = false ∧
      (claimed id).core.claim = some (claimed id).ctxNo ∧ (claimed id).core.releasing = false ∧ Runs (claimed id) always ∧ Mat.legalTsh (0xBFDF : Word).toNat = true ∧
      Mat.legalTsh (near : Word).toNat = false ∧ base.core.claim ≠ some base.ctxNo := by
  unfold Runs; decide +kernel

/-- R335: MTS of ASR keeps the bits it has. -/
theorem test_mts_asr : nexts (exec (.mts always 3 0x002) (two 3 4 (-1) 0)) (fun t => t.ctx.asr == 0x3F03) = true := by decide +kernel
/-- R327: the supervisor's registers are not there at user level. -/
theorem test_mfs_user : nexts (exec (.mfs always 3 0x800) user) (fun t => t.grp.trapped) = true := by decide +kernel

theorem test_witness_SystemForms :
    Runs base always ∧ Runs user always ∧ user.sup = false ∧ base.sup = true ∧ base.ctx.pair = none ∧ Whole base ∧ nearOff (base.ea (at5 0)).toNat = some 0 ∧
      nearOff (2 ^ 57) = none ∧ 2 ^ 57 ≤ ((two 4 5 0 (2 ^ 57)).ea (at5 0)).toNat ∧ nearOff ((two 4 5 0 (2 ^ 57)).ea (at5 0)).toNat = none ∧
      Runs (two 4 5 0 (2 ^ 57)) always ∧ (two 4 5 0 (2 ^ 57)).sup = true ∧
      base.pkg < 4096 ∧ nearOff (base.ea (at5 65152)).toNat = some 65152 ∧ 65152 % 64 = 0 ∧ 65152 + 384 ≤ padSize base base.coreKey ∧ base.core.scoreboard = [] ∧
      base.gang.shadow = 0 ∧ base.pkg ∈ gangPkgs base.gang ∧ base.mem.wf = true := by
  unfold Runs Whole; decide +kernel

theorem test_witness_SystemForms_switch :
    let s := two 3 4 1 9
    let out (f : Gang → Gang) : State := s.updGang f
    Runs s always ∧ Whole s ∧ s.sup = true ∧ s.ctx.pair = none ∧ (s.rs 3).toNat = 1 ∧ gangExists s 1 = true ∧ gangExists base (base.rs 3).toNat = false ∧
      (s.getGang 1).cls ≠ 1 ∧ (s.getGang 1).st = .running ∧ ((out (fun g => { g with cls := 1 })).getGang 1).cls = 1 ∧
      ((out (fun g => { g with outAt := some 5 })).getGang 1).outAt ≠ none ∧ (s.getGang 1).outAt = none ∧ (s.getGang 1).inAt = none ∧
      (let t := (out (fun g => { g with cores := [1] })).setGang 2 { placeGang with id := 2, st := .switchedOut, cores := [1] }
       let b := (out id).setGang 2 { placeGang with id := 2, st := .switchedOut, cores := [0] }
       (t.getGang 2).st = .switchedOut ∧ (∀ k ∈ (t.getGang 2).cores, (t.getCore (movedTo (t.getGang 2).moved k)).gang = 0) ∧
         (∀ y ∈ t.gangs, y.1 ≠ 2 → y.2.st ≠ .switchedOut) ∧ (b.getGang 2).st = .switchedOut ∧
         (b.getCore (movedTo (b.getGang 2).moved 0)).gang = 1 ∧ (b.getGang 1).outAt = none) := by
  unfold Runs Whole; decide +kernel

/-- The base state with a shadow area whose block of core 0 in slot 0 has its scratchpad at near + 256, wherever it stands in a block. -/
def snapped : State := base.updGang (fun g => { g with shadow := near + 256 - BitVec.ofNat 64 (blockPart 4 0) - 0x1000 })

theorem test_witness_SystemForms_shadow :
    let x := snapped.getGang 1
    let va : Word := x.shadow + BitVec.ofNat 64 (0x1000 + (0 * x.cores.length + x.cores.idxOf 0) * coreBlockBytes x.split) +
      BitVec.ofNat 64 (blockPart x.split 0 + 64 * 0)
    Runs snapped always ∧ 0 ∉ (snapped.getCore 0).discardBits ∧ snapped.mem.wf = true ∧
      ∀ (m : Memory) (j : Nat), j < 64 → gangPa { snapped with mem := m } 1 (va + BitVec.ofNat 64 j) = some (mkPa 0 1 256 + j) := by
  refine ⟨by unfold Runs; decide +kernel, by decide +kernel, by decide +kernel, fun m j hj => ?_⟩
  have e : near + 256 - BitVec.ofNat 64 (blockPart 4 0) - 0x1000 + 0x1000 + BitVec.ofNat 64 (blockPart 4 0) = near + 256 := by
    bv_omega
  have h : ∀ j, j < 64 → gangPa snapped 1 (near + 256 + BitVec.ofNat 64 j) = some (mkPa 0 1 256 + j) ∧
      (nearOff (near + 256 + BitVec.ofNat 64 j).toNat).isSome = true := by decide +kernel
  obtain ⟨b, hb⟩ := Option.isSome_iff_exists.mp (h j hj).2
  show gangPa { snapped with mem := m } 1 (near + 256 - BitVec.ofNat 64 (blockPart 4 0) - 0x1000 + 0x1000 +
    BitVec.ofNat 64 (blockPart 4 0) + BitVec.ofNat 64 j) = _
  rw [e, ← (h j hj).1]
  unfold gangPa xlate xlateWith
  rw [hb]
  rfl

/-- R338: SAVE stores s5 at byte 40 of the image. -/
theorem test_save : nexts (exec (.save always (at5 64)) base) (fun t => t.mem.readLE (mkPa 0 1 104) 8 == near.toNat) = true := by decide +kernel
/-- R342: a reserved partition cannot be switched out on request: refusal 2. -/
theorem test_gswitch : nexts (exec (.gswitch always .out (some 6) 3 4) ((two 3 4 1 9).updGang (fun g => { g with cls := 1 })))
    (fun t => t.core.answers.map (·.value) == [0x8000000000000002]) = true := by decide +kernel

/-! Streams -/

/-- A packet of one unit with its CRC (R170). -/
def streamPacket (kind : Nat) (a w fn : Nat) : List Byte :=
  let bs (c : Nat) := Bits.bytesLE 4 (kind + 256) ++ Bits.bytesLE 4 c ++ Bits.bytesLE 8 a ++ Bits.bytesLE 8 w ++ Bits.bytesLE 8 fn
  bs (Crc.crc32 (bs 0))

/-- Front end 0, enabled, with a packet at its head and a word of device memory at 0x50002000; `stat` is its status. -/
def streaming (bs : List Byte) (word : Nat) (stat : Word) : State :=
  let at_ (r : Nat) : Nat := blockPa 0 (.front 0) r
  let s := ctrlSet (ctrlSet (ctrlSet (ctrlSet (ctrlSet State.reset (blockPa 0 .package 0x800) 0x1000) (at_ 0x00) 0x50001000) (at_ 0x18) 32) (at_ 0x20) 1) (at_ 0x28) stat
  { s with mem := (s.mem.writeBytes 0x50001000 bs).writeBytes 0x50002000 (Bits.bytesLE 8 word) }

theorem test_witness_StreamSteps_writes :
    paReg 0 ≠ 2 ∧ ctrlMask (blockOf (paOff (mkPa 0 2 8))).1 (blockOf (paOff (mkPa 0 2 8))).2 = none ∧ (4095 : Nat) < 4096 ∧ (511 : Nat) < 512 ∧ (127 : Nat) < 128 ∧
      (63 : Nat) < 64 ∧
      (let s := streaming [] 0 0
       (ctrlRaw s (blockPa 0 (.front 0) 0x20)).getLsbD 0 = true ∧ (ctrlRaw s (blockPa 0 (.front 0) 0x28)).getLsbD 0 = false ∧
         (ctrlRaw s (blockPa 0 (.front 1) 0x20)).getLsbD 0 = false) ∧ (2 : Word).getLsbD 1 = true ∧ (5 : Word).getLsbD 1 = false ∧
      feReg (streaming [] 0 0) 0 0x08 ≤ 24 ∧
      tableAllows (ctrlSet State.reset (blockPa 4095 (.slice 511) 0x9F8) 0xFFFF000000000007) 4095 (.slice 511) 0xFFFF false true = true ∧
      tableAllows State.reset 4095 (.slice 511) 0xFFFF false true = false ∧
      tableAllows (ctrlSet State.reset (blockPa 4095 (.base 7) 0x9F8) 0xFFFF000000000007) 4095 (.base 7) 0xFFFF false true = true ∧
      tableAllows State.reset 4095 (.base 7) 0xFFFF false true = false ∧
      tableAllows (ctrlSet State.reset (blockPa 4095 (.core 4095) 0x9F8) 0xFFFF000000000007) 4095 (.core 4095) 0xFFFF false true = true := by decide +kernel

theorem test_witness_StreamSteps_packets :
    let f (kind fn : Nat) (stat : Word) (p : State → List Byte → Bool) : Bool :=
      let s := streaming (streamPacket kind (if kind = 0 then 0 else 0x50002000) (if kind = 2 || kind = 3 then 5 else 0) fn) 5 stat
      s.subject == 0 && s.mem.wf && (Bits.bit (feReg s 0 0x28) 1 == (stat == 2)) && match readStream s 0 with
      | .packet t bs => fieldAt bs 0 1 == kind && p t bs
      | _ => false
    let ok (t : State) (kind : Nat) : Bool := feAllowed t (feMaster t 0) 0x50002000 (kind == 2) (kind != 2) && !poisoned (homeRead t .other 0x50002000) 0x50002000
    f 0 0 0 (fun _ _ => true) = true ∧ f 1 0 0 (fun _ _ => true) = true ∧ f 2 0 0 (fun t _ => ok t 2) = true ∧ f 2 1 2 (fun t _ => ok t 2) = true ∧
      f 2 2 0 (fun t _ => ok t 2) = true ∧ f 3 0 0 (fun t _ => ok t 3) = true ∧ f 3 1 0 (fun t _ => ok t 3) = true ∧ f 4 0 0 (fun t _ => ok t 4) = true := by
  decide +kernel

theorem test_witness_StreamSteps_bad :
    let f (kind : Nat) (bs : List Byte) (c : Nat) (stat : Word) : Bool :=
      match readStream (streaming bs 5 stat) 0 with
      | .bad _ x => x == c && feKind (streaming bs 5 stat) 0 == kind
      | _ => false
    f 0 ([0, 1, 1] ++ List.replicate 29 0) 0x42 0 = true ∧ f 9 (streamPacket 9 0 0 0) 0x47 0 = true ∧ f 1 (streamPacket 1 8 0 0) 0x47 0 = true ∧
      f 2 (streamPacket 2 4 0 0) 0x47 0 = true ∧ f 2 (streamPacket 2 4 0 0) 0x47 2 = true ∧ f 3 (streamPacket 3 0 0 9) 0x47 0 = true ∧
      f 4 (streamPacket 4 0 1 0) 0x47 0 = true ∧
      (match readStream { streaming (streamPacket 0 0 0 0) 0 0 with feAsid := [(0, 5)] } 0 with | .bad _ x => x == 0x12 | _ => false) = true := by decide +kernel

/-- R170: an atomic add of a SIGNAL packet. -/
theorem test_stream_signal : nexts (exec .streamSignal (streaming (streamPacket 3 0x50002000 5 1) 6 0))
    (fun t => t.mem.readLE 0x50002000 8 == 11 && feReg t 0 0x10 == 32) = true := by decide +kernel
/-- R170: a WAITS whose comparison is false waits. -/
theorem test_waits : nexts (exec .waits (streaming (streamPacket 2 0x50002000 5 2) 5 0)) (fun t => feReg t 0 0x28 == 2 && feReg t 0 0x10 == 0) = true := by
  decide +kernel

/-! Recovery and service -/

theorem test_witness_RecoverySteps_parts :
    gangsWith State.reset (fun k => k / 4096 = 0) = [] ∧ (0 * 32 + 5 : Nat) ∉ (State.reset.getPkg 0).failedRows ∧
      (let a : State := { base with now := 2 ^ 20 }
       let c : State := { base.updGang (fun g => { g with st := .switchedOut }) with now := 2 ^ 20 }
       let t (s : State) : State := s.setPkg 0 { s.getPkg 0 with audits := mset 0 s.now (s.getPkg 0).audits }
       base.now < mget 0 0 (base.getPkg 0).audits + 2 ^ (base.getCore 0).audit ∧ mget 0 0 (a.getPkg 0).audits + 2 ^ (a.getCore 0).audit ≤ a.now ∧
         gangsWith (t a) (fun k => k / 512 = 0 * 8 + 0) = [1] ∧ (a.getGang 1).st = .running ∧
         gangsWith (t c) (fun k => k / 512 = 0 * 8 + 0) = [1] ∧ (c.getGang 1).st ≠ .running ∧ (c.getGang 1).owed = none) ∧
      (let s := State.reset.setPkg 0 { State.reset.getPkg 0 with failedRows := [5] }
       (0 : Fin 8).val * 32 + (5 : Fin 17).val ∈ (s.getPkg 0).failedRows ∧ (0 : Fin 8).val * 32 + (16 : Fin 17).val ∉ (s.getPkg 0).failedRows ∧
         (∃ f ∈ (s.getPkg 0).failedRows, f / 32 = (0 : Fin 8).val)) ∧ State.reset.subject = 0 := by decide +kernel

theorem test_witness_RecoverySteps_reserve : Config.reserveUsable = true → reserveFor State.reset 0 0 ≠ none := by
  intro h
  unfold reserveFor
  rw [if_pos h]
  decide +kernel

theorem test_witness_RecoverySteps_poison :
    let s : State := { base.updGang (fun g => { g with consumed := some (9, 0), log := [(9, (7, none))] }) with subject := 1 }
    let u := s.updGang (fun g => { g with unprot := true })
    (s.getGang 1).consumed = some (9, 0) ∧ (s.getGang 1).st = .running ∧ (s.getGang 1).unprot = false ∧ shadowBad s 1 = false ∧ (mget? 9 (s.getGang 1).log).isSome = true ∧
      (u.getGang 1).consumed = some (9, 0) ∧ (u.getGang 1).st = .running ∧ (u.getGang 1).unprot = true := by decide +kernel

theorem test_witness_RecoverySteps_images :
    let s : State := base.updGang (fun g => { g with slot0 := [coreImage base 0], saved := [coreImage base 0] })
    ((s.getGang 1).slot0.map (·.key)).Nodup ∧ (∀ i ∈ (s.getGang 1).slot0, i.ctxs.length = 4) ∧ (s.getGang 1).slot0 ≠ [] ∧
      ((s.getGang 1).saved.map (·.key)).Nodup ∧ (([(5, (7, none)), (6, (8, none))] : SMap (Line × Option Line)).map Prod.fst).Nodup ∧ s.mem.wf = true := by
  decide +kernel

theorem test_witness_RecoverySteps_switch :
    let f (g : Gang → Gang) (now : Nat) : State := { base.updGang g with subject := 1, now := now }
    let out := f (fun g => { g with outAt := some 5 }) 6
    let late := f (fun g => { g with outAt := some 5 }) (5 + 2 ^ 20)
    let in_ : State := { (f (fun g => { g with st := .switchedOut, inAt := some 5, saved := [coreImage base 0] }) 6) with cores := [] }
    let owed : State := { (f (fun g => { g with st := .switchedOut, inAt := some 5, saved := [coreImage base 0], owed := some (some 0x7B) }) 6) with cores := [] }
    gangExists out 1 = true ∧ (out.getGang 1).outAt = some 5 ∧ (out.getGang 1).st = .running ∧ 5 ≤ out.now ∧ (out.getGang 1).consumed = none ∧
      gangInPhase out 1 = false ∧ seedRunning out (out.getGang 1) = false ∧ canStop out 1 = true ∧ 5 + 2 ^ 20 ≤ late.now ∧ (late.getGang 1).outAt = some 5 ∧ (late.getGang 1).st = .running ∧
      (in_.getGang 1).inAt = some 5 ∧ (in_.getGang 1).st = .switchedOut ∧ 5 ≤ in_.now ∧ (∀ k ∈ (in_.getGang 1).cores, (in_.getCore (movedTo (in_.getGang 1).moved k)).gang = 0) ∧
      (in_.getGang 1).owed = none ∧ (owed.getGang 1).owed = some (some 0x7B) ∧ (owed.getGang 1).moved = [] ∧ (owed.getGang 1).st = .switchedOut ∧
      (∀ k ∈ (owed.getGang 1).cores, (owed.getCore (movedTo (owed.getGang 1).moved k)).gang = 0) ∧
      ((in_.getGang 1).saved.map (·.key)).Nodup ∧ (∀ i ∈ (in_.getGang 1).saved, i.ctxs.length = 4) ∧ (in_.getGang 1).saved ≠ [] := by decide +kernel

/-- The state of `dev` with a shadow area at 0x3000, whose fault record has counted n events. -/
def shadowed (n : Nat) : State :=
  let s := (dev id).updGang (fun g => { g with shadow := 0x3000 })
  { s with mem := s.mem.writeLE 0x40003010 8 n }

theorem test_witness_RecoverySteps_record :
    faultRec (shadowed 0) 1 2 = some 0x40003010 ∧ (shadowed 0).mem.wf = true ∧ (shadowed 0).numAt 0x40003010 8 = 0 ∧
      faultRec (shadowed 1) 1 2 = some 0x40003010 ∧ (shadowed 1).mem.wf = true ∧ (shadowed 1).numAt 0x40003010 8 ≠ 0 := by decide +kernel

/-- A key and a signature of the empty image, made outside the model for the curve and hash of R354. -/
def emptyKey : Nat × Nat :=
  (0x126db4fa9f31d07e3a607524ea6bb7b44a04c5ba5eb1de6835ca54a146940289b2ed98b0bc8b140cf5cfa491b066222803037a1933d3b150ae7f82f801d228bfda7,
   0x1634d48cda9dd665402be1c475f2e105aa4beb44837c0447876597decadd3ea89d650ec8cb2bd465719631ac74aa9383fc356454b21131a5c81656104249436a1e8)
def emptySig : Nat × Nat :=
  (0x10033e0f84d5fbbee2f7c550a14359b6001f588390142d5c57720fd2a4874db3a70bab77810f6f947e1ffc6c6d91d648df3f6c9314b969e8277c705e82e06e62894,
   0x10033e0f84d5fbbee2f7c550a14359b6001f588390142d5c57720fd2a4874db3a70bab77810f6f947e1ffc6c6d91d648df3f6c9314b969e8277c705e82e06e62894)

theorem test_verify : Crypto.verify emptyKey [] emptySig = true := by decide +kernel

/-- An image whose key the root vouches for is taken with a right signature, and refused with a wrong one. -/
theorem test_witness_RecoverySteps_image :
    (Config.rootKey emptyKey = true → Crypto.imageOk [] ⟨emptyKey, emptySig⟩ = true) ∧ Crypto.imageOk [] ⟨emptyKey, (0, 0)⟩ = false := by
  refine ⟨fun h => ?_, ?_⟩
  · simp only [Crypto.imageOk, h, test_verify, Bool.and_self]
  · have h : Crypto.verify emptyKey [] (0, 0) = false := by decide +kernel
    simp only [Crypto.imageOk, h, Bool.and_false]

/-- `base` with gang 1 under the service and switched out, its core saved. -/
def served (st : GangState) (cls : Nat) : State :=
  { base.updGang (fun g => { g with attached := true, st := st, cls := cls, saved := [coreImage base 0] }) with subject := 1 }

theorem test_witness_RecoverySteps_service :
    let at_ (n : Nat) (c : Nat) : State := { State.reset.setPkg 0 { State.reset.getPkg 0 with recal := [(c, 5)] } with now := n }
    let failed := State.reset.setPkg 0 { State.reset.getPkg 0 with bootReport := some 1 }
    let a := served .switchedOut 0
    (∃ c ∈ ((at_ 6 40).getPkg 0).recal, (at_ 6 40).now < c.2 + 2048 ∨ (c.1 / 32 = (0 : Fin 8).val ∧ (at_ 6 40).now < c.2 + 65536)) ∧
      (∃ c ∈ ((at_ 65540 0).getPkg 0).recal, (at_ 65540 0).now < c.2 + 2048 ∨ (c.1 / 32 = (0 : Fin 8).val ∧ (at_ 65540 0).now < c.2 + 65536)) ∧
      (∀ c ∈ ((at_ 2053 32).getPkg 0).recal, c.2 + 2048 ≤ (at_ 2053 32).now ∧ (c.1 / 32 = (0 : Fin 8).val → c.2 + 65536 ≤ (at_ 2053 32).now)) ∧
      (State.reset.getPkg 0).bootReport = none ∧ (State.reset.getPkg 0).boot < 3 ∧ (failed.getPkg 0).bootReport = some 1 ∧
      gangExists a 1 = true ∧ a.subject = 1 ∧ (a.getGang 1).attached = true ∧ (a.getGang 1).st = .switchedOut ∧
      (∀ k ∈ (a.getGang 1).cores, occupiedAt { a with cores := [] } 1 a.now (movedTo (a.getGang 1).moved k) = false) ∧
      (a.getGang 1).saved.find? (fun i => i.key = 0) = some (coreImage base 0) ∧ (coreImage base 0).ctxs[0]? = some (base.getCtx 0) ∧
      gangExists (served .running 0) 1 = true ∧ ((served .running 0).getGang 1).st = .running ∧ ((served .running 0).getGang 1).cls ≠ 1 ∧
      ((served .running 1).getGang 1).cls = 1 ∧ (base.getGang 1).attached = false := by decide +kernel

/-- R356: the service writes a register of a stopped gang. -/
theorem test_seroan : nexts (exec (.seroanStateAccess 1 0 (.context 0) 7 (some 9)) (served .switchedOut 0))
    (fun t => ((t.getGang 1).saved.head?.bind (fun i => i.ctxs.head?)).any (fun c => c.s[7] == 9)) = true := by decide +kernel
/-- R342, R343: a switch saves the gang and frees its cores. -/
theorem test_switch_stop : nexts (exec .gangSwitchStop { base.updGang (fun g => { g with outAt := some 5 }) with subject := 1, now := 6 })
    (fun t => (t.getCore 0).gang == 0 && (t.getGang 1).saved.map (·.key) == [0]) = true := by decide +kernel

/-! Contexts -/

theorem test_witness_ContextSteps_quantum :
    let s := mk (fun c => { c with quantum := 16384 }) id id
    let t := s.setCtx 3 { Ctx.reset with live := true }
    (s.getCore 0).phase = none ∧ (s.getCtx (4 * 0 + (s.getCore 0).running.val)).capture = none ∧ (base.getCtx 0).quantum < (base.getCore 0).quant ∧
      (t.getCore 0).quant ≤ (t.getCtx 0).quantum ∧ ready (fun _ => true) t (4 * 0 + (0 + 1 + (2 : Fin 4).val) % 4) = true ∧
      (∀ i, i < (2 : Fin 4).val → ready (fun _ => true) t (4 * 0 + (0 + 1 + i) % 4) = false) ∧ ready (fun _ => true) s (4 * 0 + (0 + 1 + (3 : Fin 4).val) % 4) = true ∧
      (∀ i, i < (3 : Fin 4).val → ready (fun _ => true) s (4 * 0 + (0 + 1 + i) % 4) = false) := by decide +kernel

theorem test_witness_ContextSteps_answer :
    let s := mk (fun c => c.setEmpty 31) (fun k => { k with answers := [⟨0, 31, 9, 1⟩] }) id
    (s.getCore 0).answers[0]? = some ⟨0, 31, 9, 1⟩ ∧ (s.getCtx (4 * 0 + (0 : Fin 4).val)).full.getLsbD (31 : Fin 32).val = false ∧ (31 : Fin 32) ≠ 0 ∧
      ((s.setLine 7 { s.getLine 7 with dirty := some 3 }).getLine 7).dirty ≠ none ∧
      (let u := s.setLine 7 { s.getLine 7 with dirty := some 3, writer := 1 }
       (u.getLine 7).dirty = some 3 ∧ (u.getLine 7).writer ≠ 0 ∧ (u.getGang 1).st = .running ∧ (u.getGang 1).shadow = 0 ∧ mget? 7 (u.getGang 1).log = none ∧
         ((s.setLine 7 { s.getLine 7 with dirty := some 3 }).getLine 7).writer = 0) ∧ (s.getLine 7).dirty = none := by decide +kernel

/-- R94: a late answer fills its register. -/
theorem test_answer : nexts (exec (.remoteAnswer 0 0) (mk (fun c => c.setEmpty 31) (fun k => { k with answers := [⟨0, 31, 9, 1⟩] }) id))
    (fun t => (t.getCtx 0).s[31] == 9 && (t.getCtx 0).full.getLsbD 31 && (t.getCtx 0).asr == 0x100) = true := by decide +kernel

/-- A paired task of context 0 with the second copy and messages given; core 8 of the gang, far enough away, is idle. -/
def twinned (second : Option Nat) (m1 m2 : Option PairMsg) : State :=
  let c (w : Option Wait) : Ctx := { Ctx.reset with live := true, pair := some 0, wait := w, packet := some ⟨near, 0, [], 0⟩ }
  let s : State := { base with
    now := 70000, cores := [(0, base.getCore 0), (24, base.getCore 0)], gangs := [(1, { placeGang with cores := [0, 24] })]
    ctxs := [(0, c (some .partner)), (96, if second.isSome then c none else Ctx.reset)] }
  { s with pairs := [(0, ⟨1, 0, second, ⟨near, 0, [], 0⟩, 0, queueKey 1 0, m1, m2, 0, 0, false, none⟩)] }

theorem test_witness_ContextSteps_pairs :
    let s := twinned none none none
    let p : Pair := ⟨1, 0, none, ⟨near, 0, [], 0⟩, 0, queueKey 1 0, none, none, 0, 0, false, none⟩
    let a := twinned (some 96) (some ⟨0, 5, 4000⟩) none
    mget? s.subject s.pairs = some p ∧ (s.getGang p.gang).st = .running ∧ (s.getCtx p.first).pair = some s.subject ∧
      partnerCore s (s.getGang p.gang) (p.first / 4) = some 24 ∧ (List.range 4).find? (fun n => !(s.getCtx (4 * 24 + n)).live) = some 0 ∧ 4 * 24 + 0 ≠ p.first ∧
      mget? a.subject a.pairs = some { p with second := some 96, msg1 := some ⟨0, 5, 4000⟩ } ∧ 4000 + 65536 ≤ a.now ∧ (a.getGang 1).st = .running ∧
      (a.getCtx p.first).pair = some a.subject ∧ p.packet.prio < 4 ∧ (96 : Nat) ≠ p.first ∧ (a.getCtx 96).pair = some a.subject := by decide +kernel

theorem test_witness_ContextSteps_messages :
    let f (h : BitVec 32) : State := twinned (some 96) (some ⟨0, 5, 4000⟩) (some ⟨0, h, 4000⟩)
    let p (h : BitVec 32) : Pair := ⟨1, 0, some 96, ⟨near, 0, [], 0⟩, 0, queueKey 1 0, some ⟨0, 5, 4000⟩, some ⟨0, h, 4000⟩, 0, 0, false, none⟩
    mget? 0 (f 5).pairs = some (p 5) ∧ mget? 0 (f 6).pairs = some (p 6) ∧ (f 5).subject = 0 ∧ ((f 5).getGang 1).st = .running := by decide +kernel

/-- R183: messages that differ give the first copy 0x74. -/
theorem test_pair_mismatch : nexts (exec .pairedMessageCompare (twinned (some 96) (some ⟨0, 5, 4000⟩) (some ⟨0, 6, 4000⟩)))
    (fun t => !(t.getCtx 96).live && t.pairs.isEmpty && (fifoAt (getQueue t 1 (queueKey 1 0)) 0).map (·.handle) == [near]) = true := by decide +kernel

end Sys2Proof.Tests
end

section
/-! PROOFS. What reset leaves in contexts, cores, packages and control space. -/
namespace Sys2Proof.Machine

/-- R324: the registers of a slice stand in the block of the slice. -/
theorem blockOf_slice (p i r : Nat) (hi : i < 512) (hr : r < 4096) : blockOf (paOff (blockPa p (.slice i) r)) = (.slice i, r) := by
  have hoff : paOff (blockPa p (.slice i) r) = 4096 * i + r := by simp only [paOff, blockPa, mkPa]; omega
  have hblock : (4096 * i + r) / 2 ^ 32 = 0 := by omega
  have hreg : (4096 * i + r) % 2 ^ 32 = 4096 * i + r := by omega
  have hlt : 4096 * i + r < 512 * 4096 := by omega
  simp only [hoff, blockOf, hblock, hreg, hlt, if_true]
  congr 2 <;> omega

/-- R324: the registers of a front end stand in the block of the front end. -/
theorem blockOf_front (p n r : Nat) (hn : n < 128) (hr : r < 64) : blockOf (paOff (blockPa p (.front n) r)) = (.front n, r) := by
  have hoff : paOff (blockPa p (.front n) r) = 2 * 2 ^ 32 + 64 * n + r := by simp only [paOff, blockPa, mkPa]; omega
  have hblock : (2 * 2 ^ 32 + 64 * n + r) / 2 ^ 32 = 2 := by omega
  have hreg : (2 * 2 ^ 32 + 64 * n + r) % 2 ^ 32 = 64 * n + r := by omega
  have hlt : 64 * n + r < 128 * 64 := by omega
  simp only [hoff, blockOf, hblock, hreg, hlt, if_true]
  congr 2 <;> omega

/-- R138: Q and W of a slice after reset. -/
theorem ctrlRaw_reset_slice (p i : Nat) (hi : i < 512) :
    ctrlRaw State.reset (blockPa p (.slice i) 0x100) = 8 ∧ ctrlRaw State.reset (blockPa p (.slice i) 0x108) = 64 := by
  constructor <;> rw [ctrlRaw, blockOf_slice p i _ hi (by decide)] <;> simp [mget, mget?, State.reset]

/-- R169: RINGLEN of a front end after reset. -/
theorem ctrlRaw_reset_ringlen (p n : Nat) (hn : n < 128) : ctrlRaw State.reset (blockPa p (.front n) 0x08) = 12 := by
  rw [ctrlRaw, blockOf_front p n _ hn (by decide)]
  simp [mget, mget?, State.reset]

/-- R229: every TSH after reset. -/
theorem tsh_reset (n : Fin 8) : Core.reset.tsh[n] = 0x97DF := by simp [Core.reset]

end Sys2Proof.Machine

open Sys2Proof Sys2Proof.Machine

/-- Settles O8: unlisted contexts, cores and packages read as their reset values, and unwritten control registers as the reset
value of their block. -/
theorem resetRegisters : Obligations.ResetRegisters := by
  unfold Obligations.ResetRegisters
  refine ⟨fun _ => ⟨rfl, rfl, rfl, rfl, rfl⟩, fun _ => ⟨rfl, rfl, tsh_reset⟩, fun _ => ⟨rfl, rfl⟩, ?_, ?_, rfl, rfl⟩
  · exact fun p i hi _ => ctrlRaw_reset_slice p i hi
  · exact fun p n hn _ => ctrlRaw_reset_ringlen p n hn
end

section
/-! PROOFS. Sparse maps written twice or mapped, and folds over lists. -/
namespace Sys2Proof.Machine

/-- The second write at a key replaces the first. -/
theorem mset_mset {α : Type} (k : Nat) (x y : α) (m : SMap α) : mset k y (mset k x m) = mset k y m := by
  induction m with
  | nil => simp [mset]
  | cons e m ih =>
    rcases e with ⟨j, z⟩
    by_cases h1 : k < j
    · simp [mset, h1]
    · by_cases h2 : k = j
      · simp [mset, h2]
      · simp [mset, h1, h2, ih]

/-- A map whose values are all changed alike, by a change that leaves the default. -/
theorem mget_map {α : Type} (d : α) (f : α → α) (hd : f d = d) (k : Nat) (m : SMap α) :
    mget d k (m.map (fun e => (e.1, f e.2))) = f (mget d k m) := by
  induction m with
  | nil => exact hd.symm
  | cons e m ih =>
    rcases e with ⟨j, z⟩
    by_cases h : j = k
    · simp [mget, mget?, h]
    · simpa [mget, mget?, h] using ih

@[simp] theorem State.setGang_setGang (s : State) (g : Nat) (x y : Gang) : (s.setGang g x).setGang g y = s.setGang g y := by
  simp [State.setGang, mset_mset]

/-- What every step of a fold keeps, the fold keeps. -/
theorem foldl_keeps {α σ β : Type} (p : σ → β) (f : σ → α → σ) (hf : ∀ s x, p (f s x) = p s) (xs : List α) (s : σ) :
    p (xs.foldl f s) = p s := by
  induction xs generalizing s with
  | nil => rfl
  | cons x xs ih => rw [List.foldl_cons, ih, hf]

/-- What holds at first and every step keeps, holds after a fold. -/
theorem foldl_induct {α σ : Type} {f : σ → α → σ} {P : σ → Prop} {xs : List α} (hf : ∀ s, ∀ x ∈ xs, P s → P (f s x)) {s : σ} (h : P s) :
    P (xs.foldl f s) := by
  induction xs generalizing s with
  | nil => exact h
  | cons x xs ih => exact ih (fun t y hy => hf t y (List.mem_cons_of_mem _ hy)) (hf s x List.mem_cons_self h)

/-- What a fold has established at one element, the steps of elements with other keys keep. `before` holds until that element's step. -/
theorem foldl_at {α σ : Type} (key : α → Nat) (f : σ → α → σ) (before after : σ → Prop) {xs : List α} {i : α} (hi : i ∈ xs)
    (hn : (xs.map key).Nodup) (hstep : ∀ s, before s → after (f s i)) (hb : ∀ s, ∀ x ∈ xs, key x ≠ key i → before s → before (f s x))
    (ha : ∀ s, ∀ x ∈ xs, key x ≠ key i → after s → after (f s x)) {s : σ} (h : before s) : after (xs.foldl f s) := by
  induction xs generalizing s with
  | nil => simp at hi
  | cons x xs ih =>
    rw [List.map_cons, List.nodup_cons] at hn
    obtain ⟨hx, hn⟩ := hn
    rcases List.mem_cons.mp hi with rfl | hi
    · have rest : ∀ y ∈ xs, key y ≠ key i := fun y hy e => hx (e ▸ List.mem_map_of_mem hy)
      exact foldl_induct (fun t y hy => ha t y (List.mem_cons_of_mem _ hy) (rest y hy)) (hstep s h)
    · have hxi : key x ≠ key i := fun e => hx (e ▸ List.mem_map_of_mem hi)
      exact ih hi hn (fun t y hy => hb t y (List.mem_cons_of_mem _ hy)) (fun t y hy => ha t y (List.mem_cons_of_mem _ hy))
        (hb s x List.mem_cons_self hxi h)

end Sys2Proof.Machine
end

section
/-! PROOFS. Lost dies, failed rows, retired channels and audits (R14, R15, R17, R349, R352). -/
namespace Sys2Proof.Machine

/-! ### Which gangs use a package or a die -/

/-- Where no gang has a core in a set of cores, none has one in a part of it. -/
theorem gangsWith_nil_of_imp {s : State} {p q : Nat → Bool} (h : gangsWith s p = []) (hq : ∀ k, q k = true → p k = true) :
    gangsWith s q = [] := by
  simp only [gangsWith, List.map_eq_nil_iff, List.filter_eq_nil_iff, Bool.and_eq_true, List.any_eq_true] at h ⊢
  rintro x hx ⟨he, k, hk, hqk⟩
  exact h x hx ⟨he, k, hk, hq k hqk⟩

/-- R18: where no gang uses the cores, none is rolled back. -/
theorem rollbackAll_unused {s : State} {p : Nat → Bool} (h : gangsWith s p = []) (cause : Option Nat) : rollbackAll s p cause = s := by
  simp [rollbackAll, h]

/-- R350: where one gang uses the cores and runs, it is rolled back. -/
theorem rollbackAll_running {s : State} {p : Nat → Bool} {g : Nat} (h : gangsWith s p = [g]) (hr : (s.getGang g).st = .running)
    (cause : Option Nat) : rollbackAll s p cause = rollback s g cause (firstKey s g) none := by
  simp [rollbackAll, h, hr]

/-- R18: where one gang uses the cores and does not run, it owes the rollback. -/
theorem rollbackAll_owed {s : State} {p : Nat → Bool} {g : Nat} (h : gangsWith s p = [g]) (hr : (s.getGang g).st ≠ .running)
    (ho : (s.getGang g).owed = none) (cause : Option Nat) :
    rollbackAll s p cause = s.setGang g { s.getGang g with owed := some cause } := by
  simp [rollbackAll, h, hr, ho]

/-! ### A lost die -/

/-- R15: a reserve that is taken may be used, and its site is free. -/
theorem reserveFor_some {s : State} {pkg die u : Nat} (h : reserveFor s pkg die = some u) :
    Config.reserveUsable = true ∧ Topo.computing (s.getPkg pkg).dmap.toNat (Topo.site (s.getPkg pkg).dmap.toNat die).1 u = false := by
  unfold reserveFor at h
  split at h
  · obtain ⟨-, hu⟩ := Option.filter_eq_some_iff.mp h
    exact ⟨‹_›, by simpa using hu⟩
  · cases h

/-- A package no gang uses. -/
def PackageUnused (s : State) (pkg : Nat) : Prop := gangsWith s (fun k => k / 4096 = pkg) = []

/-- R18: a change of a package that no gang uses rolls none back. -/
theorem rollbackAll_setPkg {s : State} {pkg : Nat} (h : PackageUnused s pkg) (x : Package) (cause : Option Nat) :
    rollbackAll (s.setPkg pkg x) (fun k => k / 4096 = pkg) cause = s.setPkg pkg x := rollbackAll_unused (s := s.setPkg pkg x) h cause

/-- R14, R15: a die without a reserve is lost without effect where no gang uses the package. -/
theorem loseDie_without_reserve {s : State} {pkg : Nat} (h : PackageUnused s pkg) (die : Fin 8) (hr : reserveFor s pkg die.val = none)
    (cause : Option Nat) : loseDie s pkg die.val cause = s := by
  have hd : gangsWith s (fun k => k / 512 = pkg * 8 + die.val) = [] :=
    gangsWith_nil_of_imp h (fun k hk => by simp only [decide_eq_true_eq] at hk ⊢; omega)
  simp [loseDie, hr, hd]

/-- R15, R17: a die with a reserve moves there; no gang is rolled back where none uses the package. -/
theorem loseDie_with_reserve {s : State} {pkg : Nat} (h : PackageUnused s pkg) {die u : Nat} (hr : reserveFor s pkg die = some u)
    (cause : Option Nat) : loseDie s pkg die cause = s.setPkg pkg { s.getPkg pkg with
      dmap := BitVec.ofNat 64 (remapDie (s.getPkg pkg).dmap.toNat die u)
      srow := BitVec.ofNat 64 (Bits.setFld (s.getPkg pkg).srow.toNat 5 (5 * die) 16)
      failedRows := (s.getPkg pkg).failedRows.filter (fun f => f / 32 ≠ die) } := by
  simp only [loseDie, hr]
  exact rollbackAll_setPkg h _ cause

/-! ### A failed row, a retired channel, a lost package -/

/-- R14: a row that has failed before changes nothing. -/
theorem rowFailure_known {s : State} {pkg : Nat} {die : Fin 8} {row : Fin 17}
    (h : die.val * 32 + row.val ∈ (s.getPkg pkg).failedRows) : exec (.rowFailure pkg die row) s = .next s := by
  change execRowFailure pkg die row s = _
  simp [execRowFailure, h]

/-- R14: a second failed row of a die loses the die. -/
theorem rowFailure_second {s : State} {pkg : Nat} {die : Fin 8} {row : Fin 17} (h : die.val * 32 + row.val ∉ (s.getPkg pkg).failedRows)
    (h2 : ∃ f ∈ (s.getPkg pkg).failedRows, f / 32 = die.val) :
    exec (.rowFailure pkg die row) s = .next (loseDie s pkg die.val (some 0x73)) := by
  change execRowFailure pkg die row s = _
  simp [execRowFailure, h, h2]

/-- R14: the first failed row of a die becomes its disabled row. -/
theorem rowFailure_first {s : State} {pkg : Nat} (hs : PackageUnused s pkg) {die : Fin 8} {row : Fin 17}
    (h : ∀ f ∈ (s.getPkg pkg).failedRows, f / 32 ≠ die.val) :
    exec (.rowFailure pkg die row) s = .next (s.setPkg pkg { s.getPkg pkg with
      srow := BitVec.ofNat 64 (Bits.setFld (s.getPkg pkg).srow.toNat 5 (5 * die.val) row.val)
      failedRows := insertNat (die.val * 32 + row.val) (s.getPkg pkg).failedRows }) := by
  have hnew : die.val * 32 + row.val ∉ (s.getPkg pkg).failedRows := fun hm => h _ hm (by omega)
  have hfirst : ¬ ∃ f ∈ (s.getPkg pkg).failedRows, f / 32 = die.val := fun ⟨f, hf, e⟩ => h f hf e
  change execRowFailure pkg die row s = _
  simp only [execRowFailure, List.contains_iff_mem, hnew, List.any_eq_true, decide_eq_true_eq, hfirst, if_false]
  rw [rollbackAll_setPkg hs, ite_self]

/-- R349: a retired channel is listed. -/
theorem hbmChannelRetire_unused {s : State} {pkg : Nat} (hs : PackageUnused s pkg) (stack : Fin 8) (ch : Fin 32) :
    exec (.hbmChannelRetire pkg stack ch) s =
      .next (s.setPkg pkg { s.getPkg pkg with retired := insertNat (stack.val * 32 + ch.val) (s.getPkg pkg).retired }) :=
  congrArg Host.Outcome.next (rollbackAll_setPkg hs _ _)

/-- A package that is lost takes the launches on it with it. -/
def packageLost (s : State) (pkg : Nat) : State :=
  { s.setPkg pkg { s.getPkg pkg with lost := true } with launches := s.launches.filter (fun l => l.pkg ≠ pkg) }

/-- R349: a lost package that no gang uses loses its launches. -/
theorem packageLoss_unused {s : State} (hs : PackageUnused s s.subject) :
    exec .packageLoss s = .next (packageLost s s.subject) :=
  congrArg (fun gs : List Nat => Host.Outcome.next (gs.foldl (fun t g => losePackage t s.subject g) (packageLost s s.subject))) hs

/-- R349: a package that no gang uses is only slowed. -/
theorem powerThermalLimit_unused {s : State} (hs : PackageUnused s s.subject) :
    exec .powerThermalLimit s = .next (s.setPkg s.subject { s.getPkg s.subject with slowed := true }) :=
  congrArg (fun gs : List Nat => Host.Outcome.next (gs.foldl (fun t g => machineCheck t g 0x7E (firstKey t g))
    (s.setPkg s.subject { s.getPkg s.subject with slowed := true }))) hs

/-! ### Audits -/

/-- R352: the cycle from which the next audit of a die is due. -/
def auditFrom (s : State) (pkg die : Nat) : Nat :=
  mget 0 die (s.getPkg pkg).audits + 2 ^ (s.getCore (pkg * 4096 + die * 512)).audit

/-- The state in which a die's audit of this cycle is noted. -/
def audited (s : State) (pkg die : Nat) : State :=
  s.setPkg pkg { s.getPkg pkg with audits := mset die s.now (s.getPkg pkg).audits }

/-- R352: an audit that is not due changes nothing. -/
theorem permitAudit_early {s : State} {pkg : Nat} {die : Fin 8} (h : s.now < auditFrom s pkg die.val) (mismatch : Bool) :
    exec (.permitAudit pkg die mismatch) s = .next s := by
  change execPermitAudit pkg die mismatch s = _
  have hd : auditDue s pkg die.val = false := decide_eq_false (Nat.not_le.mpr h)
  simp [execPermitAudit, hd]

/-- R352: an audit that is due is noted; a mismatch rolls back the gangs of the die. -/
theorem permitAudit_due {s : State} {pkg : Nat} {die : Fin 8} (h : auditFrom s pkg die.val ≤ s.now) (mismatch : Bool) :
    exec (.permitAudit pkg die mismatch) s = .next (if mismatch
      then rollbackAll (audited s pkg die.val) (fun k => k / 512 = pkg * 8 + die.val) (some 0x7B) else audited s pkg die.val) := by
  change execPermitAudit pkg die mismatch s = _
  have hd : auditDue s pkg die.val = true := decide_eq_true h
  cases mismatch <;> simp only [execPermitAudit, hd] <;> rfl

end Sys2Proof.Machine
end

section
/-! PROOFS. Operations that reach no further than memory, lines and reports. -/
namespace Sys2Proof.Machine

/-- A state that differs at most in memory, in the lines at their homes and in the reports on their way. -/
def HomesOnly (s t : State) : Prop := ∃ m l r, t = { s with mem := m, lines := l, reports := r }

namespace HomesOnly

theorem refl (s : State) : HomesOnly s s := ⟨_, _, _, rfl⟩

theorem trans {s t u : State} : HomesOnly s t → HomesOnly t u → HomesOnly s u := by
  rintro ⟨_, _, _, rfl⟩ ⟨m, l, r, rfl⟩
  exact ⟨m, l, r, rfl⟩

theorem foldl {α : Type} {f : State → α → State} (hf : ∀ s x, HomesOnly s (f s x)) (xs : List α) (s : State) :
    HomesOnly s (xs.foldl f s) := by
  induction xs generalizing s with
  | nil => exact refl s
  | cons x xs ih => exact (hf s x).trans (ih _)

variable {s t : State}

theorem gangs (h : HomesOnly s t) : t.gangs = s.gangs := by obtain ⟨_, _, _, rfl⟩ := h; rfl
theorem cores (h : HomesOnly s t) : t.cores = s.cores := by obtain ⟨_, _, _, rfl⟩ := h; rfl
theorem ctxs (h : HomesOnly s t) : t.ctxs = s.ctxs := by obtain ⟨_, _, _, rfl⟩ := h; rfl
theorem accs (h : HomesOnly s t) : t.accs = s.accs := by obtain ⟨_, _, _, rfl⟩ := h; rfl
theorem getGang (h : HomesOnly s t) (g : Nat) : t.getGang g = s.getGang g := by simp only [State.getGang, h.gangs]
theorem getCore (h : HomesOnly s t) (k : Nat) : t.getCore k = s.getCore k := by simp only [State.getCore, h.cores]
theorem getCtx (h : HomesOnly s t) (k : Nat) : t.getCtx k = s.getCtx k := by simp only [State.getCtx, h.ctxs]

end HomesOnly

/-- R351: an event goes to the fault record in memory. -/
theorem recordFault_homes (s : State) (g c key : Nat) (tpc a b : Word) : HomesOnly s (recordFault s g c key tpc a b) := by
  unfold recordFault
  split
  · exact .refl s
  · exact ⟨_, _, _, rfl⟩

/-- R350: the log goes to memory and the lines. -/
theorem writeLogBack_homes (s : State) (log : SMap (Line × Option Line)) : HomesOnly s (writeLogBack s log) :=
  .foldl (fun _ _ => ⟨_, _, _, rfl⟩) log s

/-- R131, R167: a scratchpad goes to memory and the lines. -/
theorem restorePad_homes (s : State) (r : Restore) (img : CoreImage) : HomesOnly s (restorePad s r img) := by
  unfold restorePad
  exact .trans (.trans ⟨_, _, _, rfl⟩ (.foldl (fun _ _ => ⟨_, _, _, rfl⟩) _ _)) (.foldl (fun _ _ => ⟨_, _, _, rfl⟩) _ _)

/-- R192: a home that rereads a watched word sends a report and leases the line. -/
theorem rereadWatch_homes (s : State) (key : Nat) : HomesOnly s (rereadWatch s key) := by
  unfold rereadWatch
  split
  · extract_lets mine v m ts
    split
    · exact .refl s
    · split <;> exact ⟨_, _, _, rfl⟩
  · exact .refl s

theorem rereadWatches_homes (s : State) (g : Nat) : HomesOnly s (rereadWatches s g) := .foldl rereadWatch_homes _ s

/-- R192: the reports of a write lease the line. -/
theorem reportWrite_homes (s : State) (old : Memory) (pa n : Nat) : HomesOnly s (reportWrite s old pa n) := by
  unfold reportWrite
  extract_lets news m
  split <;> exact ⟨_, _, _, rfl⟩

end Sys2Proof.Machine
end

section
/-! PROOFS. Restoring cores (R131, R167, R193, R344, R350). -/
namespace Sys2Proof.Machine

/-! ### One core -/

/-- R167: what a context is restored to, given the one it replaces. -/
def restoredCtx (r : Restore) (c old : Ctx) : Ctx :=
  { c with pts := if r.back then max c.pts old.pts else c.pts, wait := c.wait.bind (shiftWait r.shift) }

/-- The contexts of an image written back to their core. -/
def restoreCtxs (s : State) (r : Restore) (k : Nat) (cs : List Ctx) : State :=
  cs.zipIdx.foldl (fun s c => restoreCtx s r (4 * k + c.2) c.1) s

theorem restoreCtxs_accs (s : State) (r : Restore) (k : Nat) (cs : List Ctx) : (restoreCtxs s r k cs).accs = s.accs :=
  foldl_keeps State.accs (fun s (c : Ctx × Nat) => restoreCtx s r (4 * k + c.2) c.1) (fun _ _ => rfl) _ s

theorem restoreCtxs_getCore (s : State) (r : Restore) (k : Nat) (cs : List Ctx) (j : Nat) :
    (restoreCtxs s r k cs).getCore j = s.getCore j :=
  foldl_keeps (State.getCore · j) (fun s (c : Ctx × Nat) => restoreCtx s r (4 * k + c.2) c.1) (fun _ _ => rfl) _ s

/-- R167: contexts written back at successive keys, the first at number n: each reads as restored, and no other key is touched. -/
theorem restoreCtxs_getCtx_from (r : Restore) (k n : Nat) (cs : List Ctx) (s : State) (key : Nat) :
    ((cs.zipIdx n).foldl (fun s c => restoreCtx s r (4 * k + c.2) c.1) s).getCtx key =
      if 4 * k + n ≤ key then (cs[key - (4 * k + n)]?).elim (s.getCtx key) (fun c => restoredCtx r c (s.getCtx key)) else s.getCtx key := by
  induction cs generalizing n s with
  | nil => simp
  | cons c cs ih =>
    rw [List.zipIdx_cons, List.foldl_cons, ih]
    by_cases he : key = 4 * k + n
    · subst he
      simp [restoreCtx, restoredCtx]
    · have hs : (restoreCtx s r (4 * k + n) c).getCtx key = s.getCtx key := State.getCtx_setCtx_ne _ _ _ _ he
      rw [hs]
      by_cases hlt : 4 * k + n ≤ key
      · obtain ⟨d, rfl⟩ : ∃ d, key = 4 * k + n + 1 + d := ⟨key - (4 * k + n + 1), by omega⟩
        have h1 : 4 * k + n + 1 + d - (4 * k + n) = d + 1 := by omega
        have h2 : 4 * k + n + 1 + d - (4 * k + (n + 1)) = d := by omega
        have h3 : 4 * k + (n + 1) ≤ 4 * k + n + 1 + d := by omega
        simp only [hlt, h1, h2, h3, if_true, List.getElem?_cons_succ]
      · have h3 : ¬ 4 * k + (n + 1) ≤ key := by omega
        simp only [hlt, h3, if_false]

/-- Two cores whose matrix sides and claims are the same. -/
structure SameMatrix (c d : Core) : Prop where
  tiles : d.tiles = c.tiles
  accs : d.accs = c.accs
  tsh : d.tsh = c.tsh
  bits : d.bits = c.bits
  claim : d.claim = c.claim

theorem SameMatrix.refl (c : Core) : SameMatrix c c := ⟨rfl, rfl, rfl, rfl, rfl⟩

theorem SameMatrix.trans {c d e : Core} (h : SameMatrix c d) (k : SameMatrix d e) : SameMatrix c e :=
  ⟨k.tiles.trans h.tiles, k.accs.trans h.accs, k.tsh.trans h.tsh, k.bits.trans h.bits, k.claim.trans h.claim⟩

/-- R344: a core restored from an image has its matrix side, its claim and its residual tile, whose entries are as old as at the stop. -/
structure RestoredCore (r : Restore) (i : CoreImage) (c : Core) : Prop where
  matrix : SameMatrix i.core c
  residual : c.residual = i.core.residual.map (fun e => { e with born := e.born + r.passed })

/-- R344: restoring a core sets the core and its wide unit, then its contexts, then its scratchpad. -/
theorem restoreCore_split (s : State) (r : Restore) (i : CoreImage) : ∃ c q, RestoredCore r i c ∧
    HomesOnly (restoreCtxs ((s.setCore i.key c).setQuad (i.key / 4) q) r i.key i.ctxs) (restoreCore s r i) := by
  refine ⟨_, _, ?_, restorePad_homes _ r i⟩
  exact ⟨⟨rfl, rfl, rfl, rfl, rfl⟩, rfl⟩

@[simp] theorem restoreCore_accs (s : State) (r : Restore) (i : CoreImage) : (restoreCore s r i).accs = s.accs := by
  obtain ⟨c, q, -, h⟩ := restoreCore_split s r i
  rw [h.accs, restoreCtxs_accs]
  rfl

theorem restoreCore_getCore_other (s : State) (r : Restore) (i : CoreImage) {k : Nat} (hk : k ≠ i.key) :
    (restoreCore s r i).getCore k = s.getCore k := by
  obtain ⟨c, q, -, h⟩ := restoreCore_split s r i
  rw [h.getCore, restoreCtxs_getCore, State.setQuad_getCore, State.getCore_setCore_ne _ _ _ _ hk]

theorem restoreCore_getCore_own (s : State) (r : Restore) (i : CoreImage) :
    RestoredCore r i ((restoreCore s r i).getCore i.key) := by
  obtain ⟨c, q, hc, h⟩ := restoreCore_split s r i
  rwa [h.getCore, restoreCtxs_getCore, State.setQuad_getCore, State.getCore_setCore_same]

/-- R167: the contexts after a core is restored. -/
theorem restoreCore_getCtx (s : State) (r : Restore) (i : CoreImage) (key : Nat) :
    (restoreCore s r i).getCtx key = if 4 * i.key ≤ key then
      (i.ctxs[key - 4 * i.key]?).elim (s.getCtx key) (fun c => restoredCtx r c (s.getCtx key)) else s.getCtx key := by
  obtain ⟨c, q, -, h⟩ := restoreCore_split s r i
  rw [h.getCtx, restoreCtxs, restoreCtxs_getCtx_from]
  rfl

/-- A context of the image, restored. -/
theorem restoreCore_getCtx_own (s : State) (r : Restore) {i : CoreImage} {n : Nat} {c : Ctx} (h : i.ctxs[n]? = some c) :
    (restoreCore s r i).getCtx (4 * i.key + n) = restoredCtx r c (s.getCtx (4 * i.key + n)) := by
  rw [restoreCore_getCtx, if_pos (Nat.le_add_right _ _), Nat.add_sub_cancel_left, h]
  rfl

/-- An image of four contexts leaves the contexts of other cores. -/
theorem restoreCore_getCtx_other (s : State) (r : Restore) {i : CoreImage} (h4 : i.ctxs.length = 4) {key : Nat} (h : key / 4 ≠ i.key) :
    (restoreCore s r i).getCtx key = s.getCtx key := by
  rw [restoreCore_getCtx]
  split
  · rw [List.getElem?_eq_none (by omega)]
    rfl
  · rfl

/-! ### The cores of a gang -/

/-- Every image restored in turn. -/
def restoreCores (s : State) (r : Restore) (imgs : List CoreImage) : State := imgs.foldl (fun s i => restoreCore s r i) s

@[simp] theorem restoreCores_accs (s : State) (r : Restore) (imgs : List CoreImage) : (restoreCores s r imgs).accs = s.accs :=
  foldl_keeps State.accs (fun s i => restoreCore s r i) (fun _ _ => restoreCore_accs _ _ _) imgs s

/-- R344, R350: with one image for each core, every core of an image is restored from it. -/
theorem restoreCores_getCore (s : State) (r : Restore) {imgs : List CoreImage} (hn : (imgs.map (·.key)).Nodup) {i : CoreImage}
    (hi : i ∈ imgs) : RestoredCore r i ((restoreCores s r imgs).getCore i.key) := by
  refine foldl_at CoreImage.key _ (fun _ => True) (fun t : State => RestoredCore r i (t.getCore i.key)) hi hn ?_ ?_ ?_ trivial
  · exact fun t _ => restoreCore_getCore_own t r i
  · exact fun _ _ _ _ _ => trivial
  · intro t j _ hj h
    rwa [restoreCore_getCore_other t r j (Ne.symm hj)]

/-- R167: with one image of four contexts for each core, every context of an image is restored from it. -/
theorem restoreCores_getCtx (s : State) (r : Restore) {imgs : List CoreImage} (hn : (imgs.map (·.key)).Nodup)
    (h4 : ∀ i ∈ imgs, i.ctxs.length = 4) {i : CoreImage} (hi : i ∈ imgs) {n : Nat} {c : Ctx} (hc : i.ctxs[n]? = some c) :
    (restoreCores s r imgs).getCtx (4 * i.key + n) = restoredCtx r c (s.getCtx (4 * i.key + n)) := by
  have hn4 : n < 4 := by
    obtain ⟨hlt, -⟩ := List.getElem?_eq_some_iff.mp hc
    rwa [h4 i hi] at hlt
  have other (t : State) (j : CoreImage) (hm : j ∈ imgs) (hj : j.key ≠ i.key) :
      (restoreCore t r j).getCtx (4 * i.key + n) = t.getCtx (4 * i.key + n) :=
    restoreCore_getCtx_other t r (h4 j hm) (by omega)
  refine foldl_at CoreImage.key _ (fun t : State => t.getCtx (4 * i.key + n) = s.getCtx (4 * i.key + n))
    (fun t : State => t.getCtx (4 * i.key + n) = restoredCtx r c (s.getCtx (4 * i.key + n))) hi hn ?_ ?_ ?_ rfl
  · intro t ht
    rw [restoreCore_getCtx_own t r hc, ht]
  · intro t j hm hj ht
    rw [other t j hm hj, ht]
  · intro t j hm hj ht
    rw [other t j hm hj, ht]

/-! ### A rollback (R350) -/

/-- R346: the slot of a gang's last commit. -/
def committedSlot (x : Gang) : List CoreImage := if x.ssn % 2 = 0 then x.slot0 else x.slot1

/-- R350: the gang after its rollback. -/
def rolledBack (x : Gang) : Gang :=
  { x with kept := [], ejected := [], log := [], openBits := x.slotOpen, queues := x.slotQueues, roll := x.roll + 1, consumed := none }

/-- A core whose translations are those given, and that holds no residual entry, no copy and no phase. -/
def clearedCore (c : Core) (tlb : List TlbEntry) : Core := { c with tlb := tlb, residual := [], leases := [], phase := none }

theorem clearedCore_matrix (c : Core) (tlb : List TlbEntry) : SameMatrix c (clearedCore c tlb) := ⟨rfl, rfl, rfl, rfl, rfl⟩

/-- Cores cleared in turn, then their entries in the queues of the wide units dropped. -/
def clearCores (s : State) (tlbs : List (Nat × List TlbEntry)) (ks : List Nat) : State :=
  ks.foldl (fun s k => { s with quads := s.quads.map (fun q => (q.1, { q.2 with vsfq := q.2.vsfq.filter (fun v => v.1 ≠ k) })) })
    (tlbs.foldl (fun s t => s.setCore t.1 (clearedCore (s.getCore t.1) t.2)) s)

@[simp] theorem clearCores_accs (s : State) (tlbs : List (Nat × List TlbEntry)) (ks : List Nat) : (clearCores s tlbs ks).accs = s.accs :=
  (foldl_keeps State.accs _ (fun _ _ => by rfl) ks _).trans (foldl_keeps State.accs _ (fun _ _ => by rfl) tlbs s)

@[simp] theorem clearCores_ctxs (s : State) (tlbs : List (Nat × List TlbEntry)) (ks : List Nat) : (clearCores s tlbs ks).ctxs = s.ctxs :=
  (foldl_keeps State.ctxs _ (fun _ _ => by rfl) ks _).trans (foldl_keeps State.ctxs _ (fun _ _ => by rfl) tlbs s)

/-- Clearing cores leaves every matrix side. -/
theorem clearCores_matrix (s : State) (tlbs : List (Nat × List TlbEntry)) (ks : List Nat) (k : Nat) :
    SameMatrix (s.getCore k) ((clearCores s tlbs ks).getCore k) := by
  have hq : (clearCores s tlbs ks).getCore k =
      (tlbs.foldl (fun s t => s.setCore t.1 (clearedCore (s.getCore t.1) t.2)) s).getCore k :=
    foldl_keeps (State.getCore · k) _ (fun _ _ => by rfl) ks _
  rw [hq]
  refine foldl_induct (P := fun t : State => SameMatrix (s.getCore k) (t.getCore k)) (fun t x _ h => ?_) (.refl _)
  by_cases e : k = x.1
  · rw [e] at h ⊢
    rw [State.getCore_setCore_same]
    exact h.trans (clearedCore_matrix _ _)
  · rwa [State.getCore_setCore_ne _ _ _ _ e]

/-- R350: the cores of a gang restored from the slot of its last commit, with nothing in their caches. -/
def coresBack (s : State) (g : Nat) : State :=
  let x := s.getGang g
  let shift := x.ran - x.slotRan
  clearCores (restoreCores (writeLogBack (dropWork s g) x.log) ⟨shift, shift, true⟩ (committedSlot x))
    (x.cores.map (fun k => (k, (s.getCore k).tlb))) x.cores

/-- A core without its copies of the lines of some packages. -/
def dropLeases (ps : List Nat) (c : Core) : Core := { c with leases := c.leases.filter (fun l => !ps.contains (paPkg (l.1 * 64))) }

/-- R350: a rollback restores the cores, sets the gang, and adds what was under way at the commit. -/
theorem restoreGang_split (s : State) (g : Nat) : ∃ colls pairs,
    let x := s.getGang g
    let t := coresBack s g
    HomesOnly { t.setGang g (rolledBack x) with
      cores := t.cores.map (fun c => (c.1, dropLeases (gangPkgs x) c.2)), accs := t.accs ++ x.slotAccs, colls := colls, pairs := pairs }
      (restoreGang s g) :=
  ⟨_, _, .trans ⟨_, _, _, rfl⟩ (rereadWatches_homes _ g)⟩

/-- R350: the gang after a rollback. -/
theorem restoreGang_getGang (s : State) (g : Nat) : (restoreGang s g).getGang g = rolledBack (s.getGang g) := by
  obtain ⟨_, _, h⟩ := restoreGang_split s g
  rw [h.getGang]
  exact State.getGang_setGang_same _ _ _

/-- R350: the accumulates under way after a rollback. -/
theorem restoreGang_accs (s : State) (g : Nat) :
    (restoreGang s g).accs = s.accs.filter (fun m => m.gang ≠ g) ++ (s.getGang g).slotAccs := by
  obtain ⟨_, _, h⟩ := restoreGang_split s g
  rw [h.accs]
  simp only [coresBack, clearCores_accs, restoreCores_accs, (writeLogBack_homes _ _).accs]
  rfl

/-- R350: the matrix side of a core after a rollback is the image's. -/
theorem restoreGang_matrix (s : State) (g : Nat) (hn : ((committedSlot (s.getGang g)).map (·.key)).Nodup) {i : CoreImage}
    (hi : i ∈ committedSlot (s.getGang g)) : SameMatrix i.core ((restoreGang s g).getCore i.key) := by
  obtain ⟨_, _, h⟩ := restoreGang_split s g
  have hl : (restoreGang s g).getCore i.key = dropLeases (gangPkgs (s.getGang g)) ((coresBack s g).getCore i.key) := by
    rw [h.getCore]
    exact mget_map Core.reset _ rfl i.key (coresBack s g).cores
  rw [hl]
  exact ((restoreCores_getCore _ _ hn hi).matrix.trans (clearCores_matrix _ _ _ _)).trans ⟨rfl, rfl, rfl, rfl, rfl⟩

/-- R167, R350: a context after a rollback is the image's, and no timestamp falls. -/
theorem restoreGang_getCtx (s : State) (g : Nat) (hn : ((committedSlot (s.getGang g)).map (·.key)).Nodup)
    (h4 : ∀ i ∈ committedSlot (s.getGang g), i.ctxs.length = 4) {i : CoreImage} (hi : i ∈ committedSlot (s.getGang g)) {n : Nat} {c : Ctx}
    (hc : i.ctxs[n]? = some c) : ∃ shift, (restoreGang s g).getCtx (4 * i.key + n) =
      restoredCtx ⟨shift, shift, true⟩ c (s.getCtx (4 * i.key + n)) := by
  obtain ⟨_, _, h⟩ := restoreGang_split s g
  refine ⟨(s.getGang g).ran - (s.getGang g).slotRan, (h.getCtx _).trans ?_⟩
  have hb : (coresBack s g).getCtx (4 * i.key + n) = _ :=
    (congrArg (mget Ctx.reset (4 * i.key + n)) (clearCores_ctxs _ _ _)).trans (restoreCores_getCtx _ _ hn h4 hi hc)
  rw [(writeLogBack_homes _ _).getCtx] at hb
  exact hb

/-! ### A resume (R344) -/

/-- R344: the gang after its resume. -/
def resumed (x : Gang) : Gang := { x with st := .running, inAt := none, saved := [], ejected := [], heldReports := [] }

/-- R344: an accumulate that was ejected, as old as when the gang stopped. -/
def laterAcc (passed : Nat) (m : AccMsg) : AccMsg := { m with born := m.born.map (fun b => b + passed) }

/-- R344: a resume restores the cores, sets the gang, and lets the ejected packets go on. -/
theorem resumeGang_split (s : State) (g : Nat) : ∃ pairs,
    let x := s.getGang g
    let t := restoreCores s ⟨0, s.now - x.leftAt, false⟩ x.saved
    HomesOnly { t.setGang g (resumed x) with accs := t.accs ++ x.ejected.map (laterAcc (s.now - x.leftAt)), pairs := pairs }
      (resumeGang s g) :=
  ⟨_, .trans ⟨_, _, _, rfl⟩ (rereadWatches_homes _ g)⟩

theorem resumeGang_getGang (s : State) (g : Nat) : (resumeGang s g).getGang g = resumed (s.getGang g) := by
  obtain ⟨_, h⟩ := resumeGang_split s g
  rw [h.getGang]
  exact State.getGang_setGang_same _ _ _

theorem resumeGang_accs (s : State) (g : Nat) :
    (resumeGang s g).accs = s.accs ++ (s.getGang g).ejected.map (laterAcc (s.now - (s.getGang g).leftAt)) := by
  obtain ⟨_, h⟩ := resumeGang_split s g
  rw [h.accs]
  simp only [restoreCores_accs]

theorem resumeGang_residual (s : State) (g : Nat) (hn : ((s.getGang g).saved.map (·.key)).Nodup) {i : CoreImage}
    (hi : i ∈ (s.getGang g).saved) : ((resumeGang s g).getCore i.key).residual =
      i.core.residual.map (fun e => { e with born := e.born + (s.now - (s.getGang g).leftAt) }) := by
  obtain ⟨_, h⟩ := resumeGang_split s g
  rw [h.getCore]
  exact (restoreCores_getCore _ _ hn hi).residual

/-- R344: a context after a resume is the saved one. -/
theorem resumeGang_getCtx (s : State) (g : Nat) (hn : ((s.getGang g).saved.map (·.key)).Nodup)
    (h4 : ∀ i ∈ (s.getGang g).saved, i.ctxs.length = 4) {i : CoreImage} (hi : i ∈ (s.getGang g).saved) {n : Nat} {c : Ctx}
    (hc : i.ctxs[n]? = some c) : (resumeGang s g).getCtx (4 * i.key + n) =
      restoredCtx ⟨0, s.now - (s.getGang g).leftAt, false⟩ c (s.getCtx (4 * i.key + n)) := by
  obtain ⟨_, h⟩ := resumeGang_split s g
  rw [h.getCtx]
  exact restoreCores_getCtx _ _ hn h4 hi hc

end Sys2Proof.Machine
end

section
/-! PROOFS. Words in memory, the fault record and the shadow log written back (R350, R351). -/
namespace Sys2Proof.Machine

/-! ### Reading numbers back -/

theorem Bits.ofBytesLE_bytesLE (n x : Nat) : Bits.ofBytesLE (Bits.bytesLE n x) = x % 256 ^ n := by
  induction n generalizing x with
  | zero => simp [Bits.bytesLE, Bits.ofBytesLE, Nat.mod_one]
  | succ n ih =>
    have hb : (BitVec.ofNat 8 x).toNat = x % 256 := BitVec.toNat_ofNat x 8
    rw [Bits.bytesLE, Bits.ofBytesLE, ih, hb, Nat.pow_succ, Nat.mul_comm (256 ^ n), Nat.mod_mul]

/-- A vector of n bytes is below 256 to the n. -/
theorem toNat_lt_bytes {n : Nat} (x : BitVec (8 * n)) : x.toNat < 256 ^ n := x.isLt.trans_eq (pow_mul 2 8 n)

/-- Bytes that read alike are the same list. -/
theorem Memory.bytes_congr {m m' : Memory} {a n : Nat} (h : ∀ c, a ≤ c → c < a + n → m'.read c = m.read c) : m'.bytes a n = m.bytes a n := by
  induction n generalizing a with
  | zero => rfl
  | succ n ih =>
    rw [Memory.bytes, Memory.bytes, h a (Nat.le_refl a) (by omega), ih (fun c h1 h2 => h c (by omega) (by omega))]

/-- A number written reads back, as many of its bytes as were written. -/
theorem Memory.readLE_writeLE {m : Memory} (w : m.wf) (a n x : Nat) : (m.writeLE a n x).readLE a n = x % 256 ^ n := by
  have h := Memory.bytes_writeBytes w a (Bits.bytesLE n x)
  rw [Bits.length_bytesLE] at h
  rw [Memory.readLE, Memory.writeLE, h, Bits.ofBytesLE_bytesLE]

/-! ### Successive doublewords -/

/-- Doublewords written one after the other. -/
def Memory.writeWords (m : Memory) (p : Nat) : List Nat → Memory
  | [] => m
  | w :: ws => Memory.writeWords (m.writeLE p 8 w) (p + 8) ws

/-- Bytes outside the doublewords read as before. -/
theorem Memory.read_writeWords_out (m : Memory) (p a : Nat) (ws : List Nat) (h : a < p ∨ p + 8 * ws.length ≤ a) :
    (m.writeWords p ws).read a = m.read a := by
  induction ws generalizing m p with
  | nil => rfl
  | cons w ws ih =>
    rw [List.length_cons] at h
    rw [Memory.writeWords, ih _ _ (by omega), Memory.writeLE, Memory.read_writeBytes_out _ _ _ _ (by rw [Bits.length_bytesLE]; omega)]

/-- Each doubleword reads back. -/
theorem Memory.readLE_writeWords {m : Memory} (w : m.wf) (p j : Nat) (ws : List Nat) (h : j < ws.length) :
    (m.writeWords p ws).readLE (p + 8 * j) 8 = ws[j] % 2 ^ 64 := by
  induction ws generalizing m p j with
  | nil => cases h
  | cons x ws ih =>
    cases j with
    | zero =>
      have hout : (Memory.writeWords m p (x :: ws)).bytes p 8 = (m.writeLE p 8 x).bytes p 8 :=
        Memory.bytes_congr (fun c _ h2 => Memory.read_writeWords_out _ _ _ _ (Or.inl (by omega)))
      simp only [Nat.mul_zero, Nat.add_zero, Memory.readLE, hout, List.getElem_cons_zero]
      exact Memory.readLE_writeLE w p 8 x
    | succ j =>
      have hp : p + 8 * (j + 1) = p + 8 + 8 * j := by omega
      rw [hp, Memory.writeWords, ih (Memory.wf_writeLE w _ _ _) _ _ (by simpa using h)]
      rfl

/-! ### The fault record -/

/-- R351: the doublewords that an event writes in a fault record which has counted n: the count, and after the first event its details. -/
def faultWords (n cause key : Nat) (tpc a b : Word) (now : Nat) : List Nat :=
  (n + 1) :: if n = 0 then [cause + 256 * (key % 4) + 1024 * (key / 4 % 4096), tpc.toNat, a.toNat, b.toNat, now] else []

/-- R351: what an event writes. -/
theorem recordFault_mem {s : State} {g p : Nat} (h : faultRec s g 2 = some p) (cause key : Nat) (tpc a b : Word) :
    (recordFault s g cause key tpc a b).mem = s.mem.writeWords p (faultWords (s.numAt p 8) cause key tpc a b s.now) := by
  by_cases hn : Bits.ofBytesLE (s.mem.bytes p 8) = 0 <;>
    simp only [recordFault, h, faultWords, State.numAt, Memory.readLE, hn, if_true, if_false] <;> rfl

/-- R351: an event that is not the first changes the count only. -/
theorem recordFault_later {s : State} {g p : Nat} (h : faultRec s g 2 = some p) (hn : s.numAt p 8 ≠ 0) (cause key : Nat) (tpc a b : Word) :
    SameMemoryBut s (recordFault s g cause key tpc a b) p 8 := by
  intro c hc
  rw [recordFault_mem h, faultWords, if_neg hn, Memory.read_writeWords_out _ _ _ _ hc]

/-- R351: an event reaches no further than its doublewords of the record. -/
theorem recordFault_outside {s : State} {g p : Nat} (h : faultRec s g 2 = some p) (cause key : Nat) (tpc a b : Word) :
    SameMemoryBut s (recordFault s g cause key tpc a b) p 48 := by
  by_cases hn : s.numAt p 8 = 0
  · intro c hc
    rw [recordFault_mem h, faultWords, if_pos hn, Memory.read_writeWords_out _ _ _ _ hc]
  · exact fun c hc => recordFault_later h hn cause key tpc a b c (by omega)

/-- R351: doubleword j of the record after an event that writes it. -/
theorem recordFault_word {s : State} (w : s.mem.wf) {g p : Nat} (h : faultRec s g 2 = some p) (cause key : Nat) (tpc a b : Word) (j : Nat)
    (hj : j < (faultWords (s.numAt p 8) cause key tpc a b s.now).length) : (recordFault s g cause key tpc a b).numAt (p + 8 * j) 8 =
      (faultWords (s.numAt p 8) cause key tpc a b s.now)[j] % 2 ^ 64 := by
  change (recordFault s g cause key tpc a b).mem.readLE _ 8 = _
  rw [recordFault_mem h, Memory.readLE_writeWords w]

/-- R351: every event counts. -/
theorem recordFault_counts {s : State} (w : s.mem.wf) {g p : Nat} (h : faultRec s g 2 = some p) (cause key : Nat) (tpc a b : Word) :
    (recordFault s g cause key tpc a b).numAt p 8 = (s.numAt p 8 + 1) % 2 ^ 64 :=
  recordFault_word w h cause key tpc a b 0 (by simp [faultWords])

/-- R351: the first event leaves its details. -/
theorem recordFault_first {s : State} (w : s.mem.wf) {g p : Nat} (h : faultRec s g 2 = some p) (hn : s.numAt p 8 = 0) (cause key : Nat)
    (tpc a b : Word) :
    let t := recordFault s g cause key tpc a b
    t.numAt (p + 8) 8 = (cause + 256 * (key % 4) + 1024 * (key / 4 % 4096)) % 2 ^ 64 ∧ t.numAt (p + 16) 8 = tpc.toNat ∧
      t.numAt (p + 24) 8 = a.toNat ∧ t.numAt (p + 32) 8 = b.toNat ∧ t.numAt (p + 40) 8 = s.now % 2 ^ 64 := by
  have word := recordFault_word w h cause key tpc a b
  simp only [faultWords, hn, if_true] at word
  exact ⟨word 1 (by simp), (word 2 (by simp)).trans (Nat.mod_eq_of_lt tpc.isLt), (word 3 (by simp)).trans (Nat.mod_eq_of_lt a.isLt),
    (word 4 (by simp)).trans (Nat.mod_eq_of_lt b.isLt), word 5 (by simp)⟩

/-! ### The shadow log -/

/-- R350 step 3: one entry of the log written back. -/
def writeEntryBack (s : State) (e : Nat × (Line × Option Line)) : State :=
  let t := s.setLine e.1 { s.getLine e.1 with dirty := e.2.2, poison := false }
  { t with mem := t.mem.writeBytes (e.1 * 64) (Bits.bytesLE 64 e.2.1.toNat) }

theorem writeLogBack_eq (s : State) (log : SMap (Line × Option Line)) : writeLogBack s log = log.foldl writeEntryBack s := rfl

theorem writeEntryBack_read_other (s : State) (e : Nat × (Line × Option Line)) {a : Nat} (h : a / 64 ≠ e.1) :
    (writeEntryBack s e).mem.read a = s.mem.read a :=
  Memory.read_writeBytes_out _ _ _ _ (by rw [Bits.length_bytesLE]; omega)

/-- A line of another entry keeps its bytes and its backing value. -/
theorem writeEntryBack_other (s : State) (e : Nat × (Line × Option Line)) {l : Nat} (h : e.1 ≠ l) :
    (writeEntryBack s e).numAt (l * 64) 64 = s.numAt (l * 64) 64 ∧ (writeEntryBack s e).getLine l = s.getLine l := by
  refine ⟨congrArg Bits.ofBytesLE (Memory.bytes_congr fun c h1 h2 => writeEntryBack_read_other s e (by omega)), ?_⟩
  exact State.getLine_setLine_ne _ _ _ _ (Ne.symm h)

/-- The line of an entry has the entry's value and backing value. -/
theorem writeEntryBack_own {s : State} (w : s.mem.wf) (e : Nat × (Line × Option Line)) :
    (writeEntryBack s e).numAt (e.1 * 64) 64 = e.2.1.toNat ∧ ((writeEntryBack s e).getLine e.1).dirty = e.2.2 := by
  refine ⟨(Memory.readLE_writeLE w _ _ _).trans (Nat.mod_eq_of_lt ?_), congrArg LineMeta.dirty (State.getLine_setLine_same _ _ _)⟩
  exact toNat_lt_bytes (n := 64) e.2.1

/-- R350: with one entry for each line, every logged line has its value and its backing value again. -/
theorem writeLogBack_logged {s : State} (w : s.mem.wf) {log : SMap (Line × Option Line)} (hn : (log.map Prod.fst).Nodup)
    {e : Nat × (Line × Option Line)} (he : e ∈ log) :
    (writeLogBack s log).numAt (e.1 * 64) 64 = e.2.1.toNat ∧ ((writeLogBack s log).getLine e.1).dirty = e.2.2 := by
  rw [writeLogBack_eq]
  refine foldl_at Prod.fst writeEntryBack (fun t => t.mem.wf = true)
    (fun t => t.numAt (e.1 * 64) 64 = e.2.1.toNat ∧ (t.getLine e.1).dirty = e.2.2) he hn ?_ ?_ ?_ w
  · exact fun t ht => writeEntryBack_own ht e
  · exact fun t x _ _ ht => Memory.wf_writeBytes ht _ _
  · intro t x _ hx ht
    obtain ⟨hnum, hline⟩ := writeEntryBack_other t x hx
    rwa [hnum, hline]

/-- R350: a byte of no logged line reads as before. -/
theorem writeLogBack_unlogged (s : State) {log : SMap (Line × Option Line)} {a : Nat} (h : ∀ e ∈ log, a / 64 ≠ e.1) :
    (writeLogBack s log).mem.read a = s.mem.read a := by
  rw [writeLogBack_eq]
  exact foldl_induct (P := fun t : State => t.mem.read a = s.mem.read a)
    (fun t e he ht => (writeEntryBack_read_other t e (h e he)).trans ht) rfl

end Sys2Proof.Machine
end

section
/-! PROOFS. Gangs that are ended, rolled back, switched out and called in again (R342 to R344, R349, R357). -/
namespace Sys2Proof.Machine

/-! ### Ending a gang -/

/-- R148, R340: bytes put for no gang log nothing; what they change besides memory and lines is which lines SNAP has yet to copy. -/
theorem putBytes_none_split (s : State) (pa : Nat) (bs : List Byte) : ∃ ls,
    HomesOnly (if paReg pa = 1 then s.setCore (padCore pa) { s.getCore (padCore pa) with snapLines := ls } else s) (putBytes s 0 pa bs) := by
  have hl : logLine s 0 (pa / 64) = s := by simp [logLine]
  refine ⟨insertNat (pa / 64) (s.getCore (padCore pa)).snapLines, ?_⟩
  unfold putBytes
  dsimp only
  rw [hl]
  refine .trans ?_ (.trans ⟨_, _, _, rfl⟩ (reportWrite_homes _ _ _ _))
  by_cases h0 : paReg pa = 0
  · rw [if_pos h0, if_neg (by omega), if_neg (by omega)]
    exact ⟨_, _, _, rfl⟩
  · simp only [h0, if_false]
    exact .refl _

theorem putBytes_none_gangs (s : State) (pa : Nat) (bs : List Byte) : (putBytes s 0 pa bs).gangs = s.gangs := by
  obtain ⟨ls, h⟩ := putBytes_none_split s pa bs
  rw [h.gangs]
  split <;> rfl

/-- Bytes put for no gang leave every core in its gang. -/
theorem putBytes_none_gang (s : State) (pa : Nat) (bs : List Byte) (k : Nat) : ((putBytes s 0 pa bs).getCore k).gang = (s.getCore k).gang := by
  obtain ⟨ls, h⟩ := putBytes_none_split s pa bs
  rw [h.getCore]
  split
  · by_cases e : k = padCore pa
    · rw [e, State.getCore_setCore_same]
    · rw [State.getCore_setCore_ne _ _ _ _ e]
  · rfl

/-- R138: a slice's window leaves gangs and cores. -/
theorem rollWindow_gangs_cores (s : State) (i : Nat) : (rollWindow s i).gangs = s.gangs ∧ (rollWindow s i).cores = s.cores := by
  unfold rollWindow
  extract_lets x b w
  split <;> exact ⟨rfl, rfl⟩

/-- R324: a write of a control register leaves gangs and cores. -/
theorem ctrlWrite_gangs_cores (s : State) (pa : Nat) (v : Word) : (ctrlWrite s pa v).gangs = s.gangs ∧ (ctrlWrite s pa v).cores = s.cores := by
  unfold ctrlWrite
  split
  split
  · exact ⟨rfl, rfl⟩
  · split
    · exact ⟨rfl, rfl⟩
    · exact rollWindow_gangs_cores s _
    · exact ⟨rfl, rfl⟩
    · split <;> exact ⟨rfl, rfl⟩
    · split <;> exact ⟨rfl, rfl⟩
    · exact ⟨rfl, rfl⟩
    · exact ⟨rfl, rfl⟩

/-- R175: a completion word leaves the gangs and which core is whose. -/
theorem storeCompletion_frame (s : State) (g : Nat) (v : Option Word) :
    (storeCompletion s g v).gangs = s.gangs ∧ ∀ k, ((storeCompletion s g v).getCore k).gang = (s.getCore k).gang := by
  rcases h : (s.getGang g).completion with _ | ⟨pa, w⟩
  · simp only [storeCompletion, h, and_self, implies_true]
  · simp only [storeCompletion, h]
    split
    · split
      · obtain ⟨hg, hc⟩ := ctrlWrite_gangs_cores s pa (v.getD w)
        exact ⟨hg, fun k => by simp only [State.getCore, hc]⟩
      · split
        · exact ⟨rfl, fun _ => rfl⟩
        · exact ⟨putBytes_none_gangs _ _ _, putBytes_none_gang _ _ _⟩
    · exact ⟨rfl, fun _ => rfl⟩

/-- R206: faulted entries that go to the fault record leave the contexts. -/
theorem flushFaults_ctxs (s : State) (key : Nat) : (flushFaults s key).ctxs = s.ctxs := by
  unfold flushFaults
  refine foldl_keeps State.ctxs _ (fun t e => ?_) _ s
  split
  · exact (recordFault_homes _ _ _ _ _ _ _).ctxs
  · rfl

theorem flushImage_homes (s : State) (g : Nat) (i : CoreImage) : HomesOnly s (flushImage s g i) := by
  unfold flushImage
  refine .foldl (fun t n => .foldl (fun u e => ?_) _ t) _ s
  split
  · exact recordFault_homes _ _ _ _ _ _ _
  · exact .refl u

theorem flushGang_ctxs (s : State) (g : Nat) : (flushGang s g).ctxs = s.ctxs := by
  unfold flushGang
  refine (foldl_keeps State.ctxs _ (fun t k => ?_) _ _).trans (HomesOnly.foldl (fun t i => flushImage_homes t g i) _ s).ctxs
  split
  · exact foldl_keeps State.ctxs _ (fun _ _ => flushFaults_ctxs _ _) _ t
  · rfl

theorem dropWork_ctxs (s : State) (g : Nat) : (dropWork s g).ctxs = s.ctxs := rfl

/-- The cores freed leave contexts, gangs and accumulates. -/
theorem freeCores_frame (s : State) (g : Nat) :
    (freeCores s g).ctxs = s.ctxs ∧ (freeCores s g).gangs = s.gangs ∧ (freeCores s g).accs = s.accs := by
  unfold freeCores
  exact ⟨(foldl_keeps State.ctxs _ (fun _ _ => by rfl) _ _).trans rfl, (foldl_keeps State.gangs _ (fun _ _ => by rfl) _ _).trans rfl,
    (foldl_keeps State.accs _ (fun _ _ => by rfl) _ _).trans rfl⟩

/-- Contexts changed one after the other. -/
def mapCtxs (s : State) (f : Ctx → Ctx) (keys : List Nat) : State := keys.foldl (fun s k => s.setCtx k (f (s.getCtx k))) s

theorem mapCtxs_frame (s : State) (f : Ctx → Ctx) (keys : List Nat) :
    (mapCtxs s f keys).gangs = s.gangs ∧ (mapCtxs s f keys).cores = s.cores ∧ (mapCtxs s f keys).accs = s.accs := by
  unfold mapCtxs
  exact ⟨foldl_keeps State.gangs _ (fun _ _ => by rfl) _ _, foldl_keeps State.cores _ (fun _ _ => by rfl) _ _,
    foldl_keeps State.accs _ (fun _ _ => by rfl) _ _⟩

/-- Of contexts made not live, each reads so in the end. -/
theorem mapCtxs_not_live {f : Ctx → Ctx} (hf : ∀ c, (f c).live = false) {keys : List Nat} {key : Nat} (h : key ∈ keys) (s : State) :
    ((mapCtxs s f keys).getCtx key).live = false := by
  have gone (xs : List Nat) (t : State) (ht : (t.getCtx key).live = false) : ((mapCtxs t f xs).getCtx key).live = false := by
    refine foldl_induct (P := fun t : State => (t.getCtx key).live = false) (fun t k _ ht => ?_) ht
    by_cases e : key = k
    · rw [e, State.getCtx_setCtx_same, hf]
    · rwa [State.getCtx_setCtx_ne _ _ _ _ e]
  obtain ⟨xs, ys, rfl⟩ := List.append_of_mem h
  rw [mapCtxs, List.foldl_append, List.foldl_cons]
  exact gone ys _ (by rw [State.getCtx_setCtx_same, hf])

/-- R349: a context of a gang that is ended. -/
def endedCtx (c : Ctx) : Ctx :=
  { c with live := false, wait := none, packet := none, capture := none, pair := none, errors := [], refusals := [], lfs := 0
           walking := none, behind := none, sent := [] }

/-- The context keys of the cores of a gang that it still has. -/
def heldKeys (s : State) (g : Nat) : List Nat :=
  ((s.getGang g).cores.filter (fun k => (s.getCore k).gang = g)).flatMap (fun k => [4 * k, 4 * k + 1, 4 * k + 2, 4 * k + 3])

theorem mem_heldKeys {s : State} {g k n : Nat} (hk : k ∈ (s.getGang g).cores) (hg : (s.getCore k).gang = g) (hn : n < 4) :
    4 * k + n ∈ heldKeys s g := by
  refine List.mem_flatMap.mpr ⟨k, List.mem_filter.mpr ⟨hk, by simpa using hg⟩, ?_⟩
  simp only [List.mem_cons, List.not_mem_nil, or_false]
  omega

/-- R349: an ended gang is ended. -/
theorem endGang_st (s : State) (g cause : Nat) : ((endGang s g cause).getGang g).st = .ended :=
  congrArg Gang.st (State.getGang_setGang_same _ g _)

/-- R349: the contexts of an ended gang: what follows their end changes none. -/
theorem endGang_ctxs (s : State) (g cause : Nat) :
    let t := storeCompletion s g (some (BitVec.ofNat 64 (2 ^ 63 + cause)))
    (endGang s g cause).ctxs = (mapCtxs t endedCtx (heldKeys t g)).ctxs := by
  intro t
  let u := mapCtxs t endedCtx (heldKeys t g)
  let v := freeCores (dropWork (flushGang u g) g) g
  have h : endGang s g cause = v.setGang g (retired (v.getGang g) .ended) := rfl
  rw [h, State.setGang_ctxs, (freeCores_frame _ g).1, dropWork_ctxs, flushGang_ctxs]

/-- R349: the contexts of the cores of an ended gang are not live. -/
theorem endGang_not_live (s : State) (g cause : Nat) {k n : Nat} (hk : k ∈ (s.getGang g).cores) (hg : (s.getCore k).gang = g) (hn : n < 4) :
    ((endGang s g cause).getCtx (4 * k + n)).live = false := by
  obtain ⟨hgangs, hcore⟩ := storeCompletion_frame s g (some (BitVec.ofNat 64 (2 ^ 63 + cause)))
  rw [State.getCtx, endGang_ctxs]
  refine mapCtxs_not_live (fun _ => rfl) (mem_heldKeys ?_ ?_ hn) _
  · rwa [State.getGang, hgangs]
  · rw [hcore, hg]

/-! ### Machine checks and consumed poison -/

/-- R351: a machine check leaves the gangs and the cores. -/
theorem machineCheck_frame (s : State) (g cause key : Nat) :
    (machineCheck s g cause key).gangs = s.gangs ∧ (machineCheck s g cause key).cores = s.cores := by
  have h := recordFault_homes s g cause key (s.getCtx key).pc (Config.freeWord s.free) (Config.freeWord (s.free + 1))
  exact ⟨h.gangs, h.cores⟩

/-- R349: what a machine check that ends a gang leaves of it. -/
def Ended (s t : State) (g : Nat) : Prop :=
  (t.getGang g).st = .ended ∧ ∀ k ∈ (s.getGang g).cores, (s.getCore k).gang = g → ∀ n, n < 4 → (t.getCtx (4 * k + n)).live = false

theorem endByCheck_ended (s : State) (g cause : Nat) : Ended s (endByCheck s g cause) g := by
  obtain ⟨hg, hc⟩ := machineCheck_frame s g cause (firstKey s g)
  refine ⟨endGang_st _ _ _, fun k hk hkg n hn => endGang_not_live _ _ _ ?_ ?_ hn⟩
  · rwa [State.getGang, hg]
  · rwa [State.getCore, hc]

/-- R349: an internal machine check ends the subject gang. -/
theorem internalMachineCheck_ends {s : State} (h : gangExists s s.subject = true) :
    ∃ t, exec .internalMachineCheck s = .next t ∧ Ended s t s.subject := by
  refine ⟨_, ?_, endByCheck_ended s s.subject 0x7F⟩
  change execInternalMachineCheck s = _
  rw [execInternalMachineCheck, if_pos h]

/-- R349: a gang that has not stopped within 2^20 cycles of its switch time is ended. -/
theorem stopTimeout_ends {s : State} {time : Nat} (ho : (s.getGang s.subject).outAt = some time) (hr : (s.getGang s.subject).st = .running)
    (ht : time + 2 ^ 20 ≤ s.now) : ∃ t, exec .stopTimeout s = .next t ∧ Ended s t s.subject := by
  refine ⟨_, ?_, endByCheck_ended s s.subject 0x7A⟩
  change execStopTimeout s = _
  simp only [execStopTimeout, ho, hr, ht, decide_true, Bool.and_self, if_true]

/-- R357: poison consumed by a running gang asks for its rollback. -/
theorem poisonConsumed_eq {s : State} {line key : Nat} (hc : (s.getGang s.subject).consumed = some (line, key))
    (hr : (s.getGang s.subject).st = .running) :
    exec .poisonConsumed s = .next (rollback s s.subject (some 0x70) key (some line)) := by
  change execPoisonConsumed s = _
  simp only [execPoisonConsumed, hc, hr, ne_eq, not_true_eq_false, if_false]

/-- R350: a rollback of a protected gang restores it and records its cause. -/
theorem rollback_possible {s : State} {g line : Nat} (hu : (s.getGang g).unprot = false) (hb : shadowBad s g = false)
    (hl : (mget? line (s.getGang g).log).isSome) (cause key : Nat) :
    rollback s g (some cause) key (some line) = machineCheck (restoreGang s g) g cause key := by
  have hn : (mget? line (s.getGang g).log).isNone = false := by simpa using hl
  simp only [rollback, hu, hb, hn, Option.any_some, Bool.or_self, Bool.false_eq_true, if_false]

/-- R357: a rollback that is impossible ends the gang. -/
theorem rollback_impossible {s : State} {g line : Nat}
    (h : (s.getGang g).unprot = true ∨ shadowBad s g = true ∨ mget? line (s.getGang g).log = none) (cause : Option Nat) (key : Nat) :
    rollback s g cause key (some line) = endGang (machineCheck s g 0x72 key) g 0x72 := by
  have hc : ((s.getGang g).unprot || shadowBad s g || (some line).any (fun l => (mget? l (s.getGang g).log).isNone)) = true := by
    simpa [or_assoc] using h
  exact if_pos hc

/-! ### A switch (R342, R343) -/

/-- R343: the saved state of a stopped gang, with its packets out of flight. -/
def savedOut (s : State) (g : Nat) : State :=
  let y := s.getGang g
  { s.setGang g { y with
      st := .switchedOut, outAt := none, saved := y.cores.map (coreImage s), ejected := s.accs.filter (fun m => m.gang = g)
      heldReports := s.reports.filter (fun r => heldBy s g r.key), leftAt := s.now } with
    accs := s.accs.filter (fun m => m.gang ≠ g)
    reports := s.reports.filter (fun r => !heldBy s g r.key) }

/-- A context that has left its core. -/
def leftCtx (c : Ctx) : Ctx := { c with live := false, wait := none }

/-- R343: the state after a stopped gang has left its cores. -/
def leave (s : State) (g : Nat) : State := freeCores (mapCtxs (savedOut s g) leftCtx (gangKeys (s.getGang g))) g

/-- R343: T of a gang has come and it can stop. -/
theorem gangSwitchStop_eq {s : State} {time : Nat} (ho : (s.getGang s.subject).outAt = some time)
    (hr : (s.getGang s.subject).st = .running) (ht : time ≤ s.now) (hc : (s.getGang s.subject).consumed = none)
    (hp : gangInPhase s s.subject = false) (hs : seedRunning s (s.getGang s.subject) = false) (hstop : canStop s s.subject = true) :
    exec .gangSwitchStop s = .next (leave (stopGang s s.subject) s.subject) := by
  change execGangSwitchStop s = _
  have hgo : ¬ (decide ((s.getGang s.subject).st ≠ .running) || decide (s.now < time) || (s.getGang s.subject).consumed.isSome ||
      gangInPhase s s.subject || seedRunning s (s.getGang s.subject) || !canStop s s.subject) = true := by
    simp [hr, ht, hc, hp, hs, hstop]
  simp only [execGangSwitchStop, ho]
  rw [if_neg hgo]
  rfl

/-- A core that is not of a gang stays so when another core, or it, is set to one that is not. -/
theorem setCore_gang_ne {s : State} {g k j : Nat} {c : Core} (h : (s.getCore k).gang ≠ g) (hc : c.gang ≠ g) :
    ((s.setCore j c).getCore k).gang ≠ g := by
  by_cases e : k = j
  · rwa [e, State.getCore_setCore_same]
  · rwa [State.getCore_setCore_ne _ _ _ _ e]

/-- The cores that a gang had and gives up belong to it no longer. -/
theorem freeCores_gang (s : State) {g : Nat} (h0 : g ≠ 0) {k : Nat} (hk : k ∈ (s.getGang g).cores) : ((freeCores s g).getCore k).gang ≠ g := by
  unfold freeCores
  extract_lets ks s1
  by_cases hkg : (s.getCore k).gang = g
  · have hmem : k ∈ ks := List.mem_filter.mpr ⟨hk, by simpa using hkg⟩
    obtain ⟨xs, ys, hxy⟩ := List.append_of_mem hmem
    rw [hxy, List.foldl_append, List.foldl_cons]
    refine foldl_induct (P := fun t : State => (t.getCore k).gang ≠ g) (fun t j _ ht => ?_) ?_
    · exact setCore_gang_ne ht (Ne.symm h0)
    · rw [State.getCore_setCore_same]
      exact Ne.symm h0
  · exact foldl_induct (P := fun t : State => (t.getCore k).gang ≠ g) (fun t j _ ht => setCore_gang_ne ht (Ne.symm h0)) hkg

/-- R343: a gang that has left its cores. -/
theorem leave_frame (s : State) (g : Nat) :
    (leave s g).gangs = (savedOut s g).gangs ∧ (leave s g).accs = s.accs.filter (fun m => m.gang ≠ g) := by
  obtain ⟨hg, -, ha⟩ := mapCtxs_frame (savedOut s g) leftCtx (gangKeys (s.getGang g))
  obtain ⟨-, hg2, ha2⟩ := freeCores_frame (mapCtxs (savedOut s g) leftCtx (gangKeys (s.getGang g))) g
  exact ⟨hg2.trans hg, ha2.trans ha⟩

theorem leave_getGang (s : State) (g : Nat) : (leave s g).getGang g = (savedOut s g).getGang g := by
  rw [State.getGang, (leave_frame s g).1, State.getGang]

theorem savedOut_getGang (s : State) (g : Nat) : (savedOut s g).getGang g = { s.getGang g with
    st := .switchedOut, outAt := none, saved := (s.getGang g).cores.map (coreImage s), ejected := s.accs.filter (fun m => m.gang = g)
    heldReports := s.reports.filter (fun r => heldBy s g r.key), leftAt := s.now } :=
  State.getGang_setGang_same s g _

/-- R343: a gang that has left holds none of its cores. -/
theorem leave_gang (s : State) {g : Nat} (h0 : g ≠ 0) {k : Nat} (hk : k ∈ (s.getGang g).cores) : ((leave s g).getCore k).gang ≠ g := by
  refine freeCores_gang _ h0 ?_
  rw [State.getGang, (mapCtxs_frame _ _ _).1]
  change k ∈ ((savedOut s g).getGang g).cores
  rwa [savedOut_getGang]

/-! ### A resume (R344) -/

/-- R344: T of a switched-out gang has come and its cores are free. -/
theorem gangResume_eq {s : State} {time : Nat} (hi : (s.getGang s.subject).inAt = some time)
    (hst : (s.getGang s.subject).st = .switchedOut) (ht : time ≤ s.now)
    (hf : ∀ k ∈ (s.getGang s.subject).cores, (s.getCore (movedTo (s.getGang s.subject).moved k)).gang = 0) :
    exec .gangResume s = .next (settleOwed (resumeGang s s.subject) s.subject) := by
  change execGangResume s = _
  have hfree : ((s.getGang s.subject).cores.map (movedTo (s.getGang s.subject).moved)).any (fun k => (s.getCore k).gang ≠ 0) = false := by
    simpa using hf
  have hgo : ¬ (decide ((s.getGang s.subject).st ≠ .switchedOut) || decide (s.now < time) ||
      ((s.getGang s.subject).cores.map (movedTo (s.getGang s.subject).moved)).any (fun k => (s.getCore k).gang ≠ 0)) = true := by
    simp only [hfree, hst, ne_eq, not_true_eq_false, decide_false, Nat.not_lt.mpr ht, Bool.or_self, Bool.false_eq_true, not_false_eq_true]
  simp only [execGangResume, hi]
  rw [if_neg hgo]

/-- R18: a gang that owes no rollback takes none. -/
theorem settleOwed_none {s : State} {g : Nat} (h : (s.getGang g).owed = none) : settleOwed s g = s := by
  simp only [settleOwed, h]

/-- R18: a gang that owes a rollback, and has lost no package, takes it. -/
theorem settleOwed_some {s : State} {g : Nat} {cause : Option Nat} (h : (s.getGang g).owed = some cause) (hm : (s.getGang g).moved = []) :
    settleOwed s g = rollback (s.setGang g { s.getGang g with owed := none, moved := [] }) g cause (firstKey s g) none := by
  simp only [settleOwed, h, hm, List.foldl_nil]

end Sys2Proof.Machine
end

section
/-! PROOFS. The service cores: logged events, calibration, boot and attestation (R349, R351, R353 to R355). -/
namespace Sys2Proof.Machine

/-- R353: a calibration, by its channel and cycle, that keeps a stack from one now. -/
def recalBlocks (s : State) (stack : Nat) (c : Nat × Nat) : Prop :=
  s.now < c.2 + 2048 ∨ (c.1 / 32 = stack ∧ s.now < c.2 + 65536)

theorem any_recalBlocks (s : State) (stack : Nat) (cs : SMap Nat) :
    cs.any (fun c => s.now < c.2 + recalTime || (c.1 / 32 = stack && s.now < c.2 + recalGap)) = true ↔ ∃ c ∈ cs, recalBlocks s stack c := by
  simp only [List.any_eq_true, Bool.or_eq_true, Bool.and_eq_true, decide_eq_true_eq]
  rfl

/-- R353: a channel is not calibrated while another is, or shortly after one of its stack. -/
theorem hbmRecalibration_blocked {s : State} {pkg : Nat} {stack : Fin 8} (h : ∃ c ∈ (s.getPkg pkg).recal, recalBlocks s stack.val c)
    (ch : Fin 32) : exec (.hbmRecalibration pkg stack ch) s = .next s :=
  if_pos ((any_recalBlocks s stack.val _).mpr h)

/-- R353: a channel is calibrated where nothing keeps it from that. -/
theorem hbmRecalibration_starts {s : State} {pkg : Nat} {stack : Fin 8} (h : ¬ ∃ c ∈ (s.getPkg pkg).recal, recalBlocks s stack.val c)
    (ch : Fin 32) : exec (.hbmRecalibration pkg stack ch) s =
      .next (s.setPkg pkg { s.getPkg pkg with recal := mset (stack.val * 32 + ch.val) s.now (s.getPkg pkg).recal }) :=
  if_neg (fun ha => h ((any_recalBlocks s stack.val _).mp ha))

/-- R353: an image that passes its check is replaced, and one that fails it is not. -/
theorem firmwareReplacement_eq (s : State) (pkg unit : Nat) (image : List Byte) (sign : Signature) :
    exec (.firmwareReplacement pkg unit ⟨image, sign⟩) s = .next (if Crypto.imageOk image sign
      then logEvent (s.setPkg pkg { s.getPkg pkg with digests := (s.getPkg pkg).digests.set (min unit 1) (Crypto.digest image) }) 0x7C
        (pkg * 2 ^ 32 + unit)
      else s) := by
  change execFirmwareReplacement pkg unit ⟨image, sign⟩ s = _
  unfold execFirmwareReplacement
  split <;> rfl

/-- R354: a boot that has not stopped verifies its next image. -/
theorem boot_next {s : State} {pkg : Nat} (hr : (s.getPkg pkg).bootReport = none) (hb : (s.getPkg pkg).boot < 3) (image : List Byte)
    (sign : Signature) : exec (.boot pkg image sign) s = .next (s.setPkg pkg (if Crypto.imageOk image sign
      then { s.getPkg pkg with boot := (s.getPkg pkg).boot + 1, digests := (s.getPkg pkg).digests ++ [Crypto.digest image] }
      else { s.getPkg pkg with bootReport := some (s.getPkg pkg).boot })) := by
  change execBoot pkg image sign s = _
  simp only [execBoot, hr, Nat.not_le.mpr hb, if_false]
  split <;> rfl

/-- R354: a boot that has stopped stays stopped. -/
theorem boot_stopped {s : State} {pkg stage : Nat} (hr : (s.getPkg pkg).bootReport = some stage) (image : List Byte) (sign : Signature) :
    exec (.boot pkg image sign) s = .fault (.bootStopped stage) := by
  change execBoot pkg image sign s = _
  simp only [execBoot, hr]

end Sys2Proof.Machine
end

section
/-! PROOFS. The Seroan service: a gang stopped, resumed and given breakpoints (R333, R342, R356). -/
namespace Sys2Proof.Machine

/-- A gang that exists still does after a change that keeps whether it runs. -/
theorem gangExists_setGang {s : State} {g : Nat} (h : gangExists s g = true) {x : Gang} (hx : x.st = (s.getGang g).st) :
    gangExists (s.setGang g x) g = true := by
  unfold gangExists at h ⊢
  split at h
  · rename_i y hy
    have hst : x.st = y.st := by rw [hx, State.getGang, mget, hy]; rfl
    simpa only [State.setGang, mget?_mset_same, hst] using h
  · cases h

/-- R342: a switch out of a running gang is noted. -/
theorem switchRequest_out {s : State} {g : Nat} (h : gangExists s g = true) (hc : (s.getGang g).cls ≠ 1)
    (hr : (s.getGang g).st.runs = true) (t : Nat) :
    (switchRequest s .out g t).1 = s.setGang g { s.getGang g with outAt := some (max t s.now) } := by
  simp [switchRequest, h, hc, hr]

/-- R342: a switch out of a gang that may not be switched, or does not run, is refused. -/
theorem switchRequest_out_refused {s : State} {g : Nat} (h : (s.getGang g).st.runs = false ∨ (s.getGang g).cls = 1) (t : Nat) :
    (switchRequest s .out g t).1 = s := by
  unfold switchRequest
  extract_lets x
  split
  · rfl
  · dsimp only
    split
    · rfl
    · split
      · rfl
      · rename_i hc hr
        simp [x, hc] at h hr
        simp [h] at hr

/-- R342: a switched-out gang whose cores are not occupied is called in. -/
theorem switchRequest_in {s : State} {g : Nat} (h : gangExists s g = true) (hst : (s.getGang g).st = .switchedOut) {t : Nat}
    (ho : ∀ k ∈ (s.getGang g).cores, occupiedAt s g t (movedTo (s.getGang g).moved k) = false) :
    (switchRequest s .in_ g t).1 = s.setGang g { s.getGang g with inAt := some (max t s.now) } := by
  have ha : ((s.getGang g).cores.map (movedTo (s.getGang g).moved)).any (occupiedAt s g t) = false := by simpa using ho
  simp [switchRequest, h, hst, ha]

/-- The subject gang attached. -/
def attachedState (s : State) : State := s.setGang s.subject { s.getGang s.subject with attached := true }

theorem seroanAttach_eq {s : State} (h : gangExists s s.subject = true) :
    exec .seroanAttach s = .next (switchRequest (attachedState s) .out s.subject s.now).1 := by
  change execSeroanAttach s = _
  rw [execSeroanAttach, h]
  rfl

theorem attachedState_getGang (s : State) : (attachedState s).getGang s.subject = { s.getGang s.subject with attached := true } :=
  State.getGang_setGang_same _ _ _

theorem gangExists_attached {s : State} (h : gangExists s s.subject = true) : gangExists (attachedState s) s.subject = true :=
  gangExists_setGang (x := { s.getGang s.subject with attached := true }) h rfl

/-- R356: attaching stops a gang that runs and may be switched. -/
theorem seroanAttach_stops {s : State} (h : gangExists s s.subject = true) (hr : (s.getGang s.subject).st.runs = true)
    (hc : (s.getGang s.subject).cls ≠ 1) : exec .seroanAttach s =
      .next (s.setGang s.subject { s.getGang s.subject with attached := true, outAt := some s.now }) := by
  have hg := attachedState_getGang s
  rw [seroanAttach_eq h, switchRequest_out (gangExists_attached h) (by rwa [hg]) (by rwa [hg]), hg, attachedState,
    State.setGang_setGang, State.setGang_now, Nat.max_self]

/-- R356: attaching another gang stops nothing. -/
theorem seroanAttach_only {s : State} (h : gangExists s s.subject = true)
    (hn : (s.getGang s.subject).st.runs = false ∨ (s.getGang s.subject).cls = 1) : exec .seroanAttach s = .next (attachedState s) := by
  rw [seroanAttach_eq h, switchRequest_out_refused (by rwa [attachedState_getGang])]

/-- R356: an attached gang that has stopped is called in. -/
theorem seroanResume_calls {s : State} (h : gangExists s s.subject = true) (ha : (s.getGang s.subject).attached = true)
    (hst : (s.getGang s.subject).st = .switchedOut)
    (ho : ∀ k ∈ (s.getGang s.subject).cores, occupiedAt s s.subject s.now (movedTo (s.getGang s.subject).moved k) = false) :
    exec .seroanResume s = .next (s.setGang s.subject { s.getGang s.subject with inAt := some s.now }) := by
  change execSeroanResume s = _
  rw [execSeroanResume, if_pos ha, switchRequest_in h hst ho, Nat.max_self]

/-- R333: a breakpoint of an attached gang is set or cleared. -/
theorem seroanBreakpoint_eq {s : State} {g : Nat} (h : gangExists s g = true) (ha : (s.getGang g).attached = true) (addr : Word) (set : Bool) :
    exec (.seroanBreakpoint g addr set) s = .next (s.setGang g { s.getGang g with
      brks := (s.getGang g).brks.filter (fun a => a != addr) ++ if set then [addr] else [] }) := by
  change execSeroanBreakpoint g addr set s = _
  cases set <;> simp [execSeroanBreakpoint, h, ha]

/-- R333: setting a breakpoint adds its address. -/
theorem seroanBreakpoint_set {s : State} {g : Nat} (h : gangExists s g = true) (ha : (s.getGang g).attached = true) (addr : Word) :
    ∃ t, exec (.seroanBreakpoint g addr true) s = .next t ∧ t = s.setGang g (t.getGang g) ∧
      ∀ a, a ∈ (t.getGang g).brks ↔ a = addr ∨ a ∈ (s.getGang g).brks := by
  refine ⟨_, seroanBreakpoint_eq h ha addr true, by rw [State.getGang_setGang_same], fun a => ?_⟩
  rw [State.getGang_setGang_same]
  by_cases e : a = addr <;> simp [e]

/-- R333: clearing a breakpoint takes its address away. -/
theorem seroanBreakpoint_clear {s : State} {g : Nat} (h : gangExists s g = true) (ha : (s.getGang g).attached = true) (addr : Word) :
    ∃ t, exec (.seroanBreakpoint g addr false) s = .next t ∧ t = s.setGang g (t.getGang g) ∧
      ∀ a, a ∈ (t.getGang g).brks ↔ a ≠ addr ∧ a ∈ (s.getGang g).brks := by
  refine ⟨_, seroanBreakpoint_eq h ha addr false, by rw [State.getGang_setGang_same], fun a => ?_⟩
  rw [State.getGang_setGang_same]
  simp [and_comm]

end Sys2Proof.Machine
end

section
/-! PROOFS. The saved state of a stopped gang, read and written by the Seroan service (R338, R343, R356). -/
namespace Sys2Proof.Machine

/-! ### Doublewords of an image -/

/-- Doubleword n of the bytes of some words is the n-th word. -/
theorem dwAt_words (ws : List Word) (rest : List Byte) {n : Nat} (h : n < ws.length) :
    dwAt (ws.flatMap (fun w => Bits.bytesLE 8 w.toNat) ++ rest) n = ws[n] := by
  induction ws generalizing n with
  | nil => cases h
  | cons w ws ih =>
    have hlen := Bits.length_bytesLE 8 w.toNat
    rw [List.flatMap_cons, List.append_assoc]
    cases n with
    | zero =>
      rw [dwAt, Nat.mul_zero, List.drop_zero, List.take_left' hlen, Bits.ofBytesLE_bytesLE]
      exact BitVec.eq_of_toNat_eq (by simp [Nat.mod_eq_of_lt w.isLt])
    | succ n =>
      have hd : 8 * (n + 1) = (Bits.bytesLE 8 w.toNat).length + 8 * n := by omega
      have h' : n < ws.length := by simpa using h
      rw [dwAt, hd, List.drop_length_add_append]
      exact ih h'

/-- R338: the doublewords of a context image. -/
def contextWords (c : Ctx) (pc : Word) : List Word :=
  (List.range 32).map (fun n => c.s.toArray.getD n 0) ++
    [c.full.zeroExtend 64, pc, c.p.zeroExtend 64, c.asr, c.vsh, c.lfs, BitVec.ofNat 64 (c.quantum % 2 ^ 24),
      c.tcause, c.tpc, c.tinfoa, c.tinfob, c.tseq, c.trapvec]

theorem contextImage_words (c : Ctx) (pc : Word) :
    contextImage c pc = (contextWords c pc).flatMap (fun w => Bits.bytesLE 8 w.toNat) ++ List.replicate 24 0 := by
  simp only [contextImage, contextWords, List.flatMap_append, List.flatMap_map]

/-- R338: the registers of a context image are its first doublewords. -/
theorem dwAt_contextImage_s (c : Ctx) (pc : Word) {n : Nat} (h : n < 32) : dwAt (contextImage c pc) n = c.s[n] := by
  have hl : n < (contextWords c pc).length := by simp [contextWords]; omega
  rw [contextImage_words, dwAt_words _ _ hl]
  simp [contextWords, h]

/-- R338: the PC, ASR and VSH in a context image. -/
theorem dwAt_contextImage_special (c : Ctx) (pc : Word) :
    dwAt (contextImage c pc) 33 = pc ∧ dwAt (contextImage c pc) 35 = c.asr ∧ dwAt (contextImage c pc) 36 = c.vsh := by
  rw [contextImage_words]
  exact ⟨dwAt_words _ _ (by simp [contextWords]), dwAt_words _ _ (by simp [contextWords]), dwAt_words _ _ (by simp [contextWords])⟩

/-! ### Parts of a block -/

/-- R343: the two parts of a context in a block. -/
def contextParts (x : Ctx × Nat) : List (Nat × List Byte) :=
  [(8 + x.2, contextImage x.1 x.1.pc), (12 + x.2, x.1.v.toList.flatMap (fun l => Bits.bytesLE 64 l.toNat))]

/-- R343: among contexts numbered from n, part 8 + c of a block is the image of context c. -/
theorem find_contextParts (cs : List Ctx) {n c : Nat} (hn : n ≤ c) (hc : c < 4) {y : Ctx} (h : cs[c - n]? = some y) :
    ((cs.zipIdx n).flatMap contextParts).find? (fun p => p.1 = 8 + c) = some (8 + c, contextImage y y.pc) := by
  induction cs generalizing n with
  | nil => simp at h
  | cons x cs ih =>
    rw [List.zipIdx_cons, List.flatMap_cons]
    by_cases e : n = c
    · subst e
      simp only [Nat.sub_self, List.getElem?_cons_zero, Option.some.injEq] at h
      simp [contextParts, h]
    · have hd : c - n = c - (n + 1) + 1 := by omega
      rw [hd, List.getElem?_cons_succ] at h
      have hskip : (contextParts (x, n)).find? (fun p => p.1 = 8 + c) = none := by
        simp [contextParts]; omega
      rw [List.find?_append, hskip, Option.none_or]
      exact ih (by omega) h

/-- R343: part 8 + c of a block is the image of context c. -/
theorem blockParts_context (left : Nat) (i : CoreImage) {c : Fin 4} {y : Ctx} (h : i.ctxs[c.val]? = some y) :
    (blockParts left i).find? (fun p => p.1 = 8 + c.val) = some (8 + c.val, contextImage y y.pc) := by
  have hf := find_contextParts i.ctxs (Nat.zero_le c.val) c.isLt h
  unfold blockParts
  rw [List.find?_append, List.find?_eq_none.mpr, Option.none_or]
  · exact hf
  · intro p hp
    simp only [List.mem_cons, List.not_mem_nil, or_false] at hp
    rcases hp with rfl | rfl | rfl | rfl | rfl | rfl | rfl <;> simp <;> omega

/-- R356: what the service reads in a saved context. -/
theorem savedRead_context (x : Gang) (i : CoreImage) {c : Fin 4} {y : Ctx} (h : i.ctxs[c.val]? = some y) (n : Nat) :
    savedRead x i (.context c) n = dwAt (contextImage y y.pc) n := by
  simp only [savedRead, blockParts_context x.leftAt i h, Option.elim_some]

/-- R356: what the service reads in the saved TSH registers. -/
theorem savedRead_tsh (x : Gang) (i : CoreImage) {n : Nat} (h : n < 8) : savedRead x i .tsh n = i.core.tsh[n] := by
  have hp : savedRead x i .tsh n = dwAt (i.core.tsh.toList.flatMap (fun w => Bits.bytesLE 8 w.toNat) ++ []) n := by
    rw [List.append_nil]; rfl
  rw [hp, dwAt_words _ _ (by simpa using h)]
  simp

/-! ### The service's access -/

/-- R356: the service reaches the saved state of no gang that runs, and of none that it has not attached. -/
theorem seroanStateAccess_closed {s : State} {g : Nat} (h : (s.getGang g).st ≠ .switchedOut ∨ (s.getGang g).attached = false) (k dw : Nat)
    (part : SavedPart) (w : Option Word) : exec (.seroanStateAccess g k part dw w) s = .next s := by
  change execSeroanStateAccess g k part dw w s = _
  refine if_pos ?_
  rcases h with h | h <;> simp [h]

section
variable {s : State} {g k : Nat} {i : CoreImage} (hst : (s.getGang g).st = .switchedOut) (ha : (s.getGang g).attached = true)
  (hi : (s.getGang g).saved.find? (fun i => i.key = k) = some i)
include hst ha hi

/-- R356: the service reads a doubleword of the saved state. -/
theorem seroanStateAccess_read (part : SavedPart) (dw : Nat) : exec (.seroanStateAccess g k part dw none) s =
    .next (s.setGang g { s.getGang g with answer := some (savedRead (s.getGang g) i part dw) }) := by
  change execSeroanStateAccess g k part dw none s = _
  simp [execSeroanStateAccess, hst, ha, hi]

/-- R356: the service writes a doubleword of the saved state. -/
theorem seroanStateAccess_write (part : SavedPart) (dw : Nat) (v : Word) : exec (.seroanStateAccess g k part dw (some v)) s =
    .next (s.setGang g (savedPut (s.getGang g) k part dw v)) := by
  change execSeroanStateAccess g k part dw (some v) s = _
  simp [execSeroanStateAccess, hst, ha, hi]

end

/-- R356: a write to a part other than the queues changes the core's block. -/
theorem savedPut_block (x : Gang) (k : Nat) {part : SavedPart} (h : part ≠ .queues) (n : Nat) (v : Word) :
    savedPut x k part n v = { x with saved := x.saved.map (fun j => if j.key = k then savedWrite x j part n v else j) } := by
  cases part <;> first | rfl | exact absurd rfl h

/-- R338: writing a register of a context. -/
theorem putContext_s (c : Ctx) {n : Nat} (h1 : 1 ≤ n) (h : n < 32) (v : Word) : putContext c n v = { c with s := c.s.set n v } := by
  rw [putContext, dif_pos h, if_neg (by omega)]

/-- R356: a write to a saved context changes that context only. -/
theorem savedWrite_context (x : Gang) (i : CoreImage) {c : Fin 4} {y : Ctx} (h : i.ctxs[c.val]? = some y) (n : Nat) (v : Word) :
    (savedWrite x i (.context c) n v).ctxs[c.val]? = some (putContext y n v) ∧ (savedWrite x i (.context c) n v).core = i.core := by
  refine ⟨?_, rfl⟩
  simp only [savedWrite, List.getElem?_modify_eq, h, Option.map_eq_map, Option.map_some]

/-- R356: a write to a saved TSH register keeps its reserved bits zero and changes no context. -/
theorem savedWrite_tsh (x : Gang) (i : CoreImage) {n : Nat} (h : n < 8) (v : Word) :
    (savedWrite x i .tsh n v).core = { i.core with tsh := i.core.tsh.set n (v &&& tshMask) } ∧ (savedWrite x i .tsh n v).ctxs = i.ctxs := by
  simp only [savedWrite, h, dite_true, and_self]

end Sys2Proof.Machine
end

section
/-! PROOFS. The steps of recovery and of the service cores. -/
open Sys2Proof Sys2Proof.Machine

/-- Settles O59: each step by the lemma that says what it does. What a rollback and a resume restore comes from the fold over the images, one
for each core; the fault record and the log from the laws of memory. -/
theorem recoverySteps : Obligations.RecoverySteps := by
  unfold Obligations.RecoverySteps
  refine ⟨⟨?packages, ?audit, ?poison, ?rollback, ?log, ?events, ?record⟩, ?logged, ?recal, ?boot, fun _ => rfl, ?seroan⟩
  case packages =>
    intro s pkg die hs x r lost
    have hlost (cause : Option Nat) : loseDie s pkg die.val cause = lost s := by
      cases hr : reserveFor s pkg die.val with
      | none => simp only [loseDie_without_reserve hs die hr, lost, hr]
      | some u => simp only [loseDie_with_reserve hs hr, lost, hr]; rfl
    refine ⟨fun u hu => reserveFor_some hu, congrArg Host.Outcome.next (hlost none), fun row => ⟨rowFailure_known, fun h h2 => ?_,
      rowFailure_first hs⟩, hbmChannelRetire_unused hs, fun hsub => ?_⟩
    · rw [rowFailure_second h h2, hlost]
    · subst hsub
      exact ⟨packageLoss_unused hs, powerThermalLimit_unused hs⟩
  case audit =>
    intro s pkg die at_ t
    refine ⟨permitAudit_early, fun hdue => ⟨permitAudit_due hdue false, fun g hg => ⟨fun hr => ?_, fun hr ho => ?_⟩⟩⟩
    · exact (permitAudit_due hdue true).trans (congrArg _ (rollbackAll_running hg hr _))
    · exact (permitAudit_due hdue true).trans (congrArg _ (rollbackAll_owed hg hr ho _))
  case poison =>
    intro s line key g x hc hr
    refine ⟨fun hu hb hl => ?_, fun h => ⟨_, ?_, endGang_st (machineCheck s g 0x72 key) g 0x72⟩⟩
    · rw [poisonConsumed_eq hc hr, rollback_possible hu hb hl]
    · rw [poisonConsumed_eq hc hr, rollback_impossible h]
  case rollback =>
    intro s g x t slot
    refine ⟨restoreGang_getGang s g, restoreGang_accs s g, fun hn h4 i hi => ?_⟩
    have hm := restoreGang_matrix s g hn hi
    refine ⟨hm.tiles, hm.accs, hm.tsh, hm.bits, hm.claim, fun n c hc => ?_⟩
    obtain ⟨shift, hctx⟩ := restoreGang_getCtx s g hn h4 hi hc
    simp only [t, hctx]
    exact ⟨rfl, rfl, rfl, rfl, rfl, rfl, Nat.le_max_left _ _, Nat.le_max_right _ _⟩
  case log => exact fun s log hn w => ⟨fun e he => writeLogBack_logged w hn he, fun a => writeLogBack_unlogged s⟩
  case events =>
    intro s g x ends
    refine ⟨internalMachineCheck_ends, fun time => stopTimeout_ends, ?_, ?_⟩
    · intro time ho hr ht hc hp hseed hstop h0 y
      obtain ⟨-, haccs⟩ := leave_frame y g
      have hgang := (leave_getGang y g).trans (savedOut_getGang y g)
      refine ⟨leave y g, gangSwitchStop_eq ho hr ht hc hp hseed hstop, ?_, ?_, ?_, ?_, ?_, haccs, fun k => leave_gang y h0⟩ <;> rw [hgang]
    · intro time hin hst ht hf passed r
      have hgang := resumeGang_getGang s g
      have hexec := gangResume_eq hin hst ht hf
      refine ⟨fun ho => ?_, fun cause ho hm => ?_, by rw [hgang]; rfl, by rw [hgang]; rfl, by rw [hgang]; rfl, resumeGang_accs s g,
        fun hn h4 i hi => ⟨resumeGang_residual s g hn hi, fun n c hc => ?_⟩⟩
      · rw [hexec, settleOwed_none (by rw [hgang]; exact ho)]
      · rw [hexec, settleOwed_some (by rw [hgang]; exact ho) (by rw [hgang]; exact hm)]
      · simp only [r, resumeGang_getCtx s g hn h4 hi hc]
        exact ⟨rfl, rfl, rfl, rfl, rfl, rfl⟩
  case record =>
    intro s g c key tpc a b p hp w n t
    exact ⟨recordFault_outside hp c key tpc a b, recordFault_counts w hp c key tpc a b,
      fun hn => recordFault_first w hp hn c key tpc a b, fun hn => recordFault_later hp hn c key tpc a b⟩
  case logged =>
    intro s pkg unit link image sign x logged
    refine ⟨rfl, rfl, fun hok => ?_, fun hbad => ?_⟩
    · rw [firmwareReplacement_eq, if_pos hok]; rfl
    · rw [firmwareReplacement_eq, hbad]; rfl
  case recal =>
    intro s pkg stack ch x i
    refine ⟨fun h => hbmRecalibration_blocked h ch, fun h => hbmRecalibration_starts ?_ ch⟩
    rintro ⟨c, hc, hb⟩
    obtain ⟨h1, h2⟩ := h c hc
    rcases hb with hb | ⟨hstack, hb⟩
    · omega
    · have := h2 hstack
      omega
  case boot =>
    intro s pkg image sign x
    refine ⟨fun hr hb => ⟨fun hok => ?_, fun hbad => ?_⟩, fun stage hr => boot_stopped hr image sign⟩
    · rw [boot_next hr hb, if_pos hok]
    · rw [boot_next hr hb, hbad]; rfl
  case seroan =>
    intro s g hex x attached
    refine ⟨?_, ?_, ?_, fun addr ha => ⟨seroanBreakpoint_set hex ha addr, seroanBreakpoint_clear hex ha addr⟩, ?_⟩
    · rintro rfl hr hc
      exact seroanAttach_stops hex hr hc
    · rintro rfl hn
      exact seroanAttach_only hex hn
    · rintro rfl ha hst ho
      exact seroanResume_calls hex ha hst ho
    · intro k dw part w e
      refine ⟨fun h => seroanStateAccess_closed h k dw part w, fun hst ha i hi => ⟨?_, ?_, ?_⟩⟩
      · rintro rfl
        refine ⟨_, seroanStateAccess_read hst ha hi part dw, ?_, ?_, ?_⟩
        · rintro c n y rfl rfl - hy h
          rw [savedRead_context _ _ hy, dwAt_contextImage_s _ _ h]
        · rintro c y rfl hy
          obtain ⟨hpc, hasr, hvsh⟩ := dwAt_contextImage_special y y.pc
          rw [savedRead_context _ _ hy]
          exact ⟨fun e => e ▸ hpc, fun e => e ▸ hasr, fun e => e ▸ hvsh⟩
        · rintro h rfl
          exact savedRead_tsh x i h
      · rintro v rfl rfl
        exact ⟨_, seroanStateAccess_write hst ha hi .queues dw v⟩
      · rintro v rfl hq
        refine ⟨fun j => savedWrite x j part dw v, ?_, ?_, ?_, ?_⟩
        · exact (seroanStateAccess_write hst ha hi part dw v).trans (by rw [savedPut_block _ _ hq])
        · rintro c n rfl rfl h1 h y hy
          obtain ⟨hctx, hcore⟩ := savedWrite_context x i hy dw v
          exact ⟨hctx.trans (by rw [putContext_s _ h1 h]), hcore⟩
        · rintro c y rfl rfl hy
          exact (savedWrite_context x i hy 36 v).1
        · rintro h rfl
          exact savedWrite_tsh x i h v
end

section
/-! PROOFS. The encoding: the word of a well-formed instruction decodes to it, and what the decoder refuses. -/
namespace Sys2Proof.Laws

/-- R58: the word of an instruction is made of its fields. -/
theorem encode_eq_slot (i : Instr) : encode i = i.fields.map Fields.slot := by
  cases i
  case unassignedOpcode w => exact congrArg some (slot_ofSlot w).symm
  all_goals rfl

/-- R58: the fields of an instruction's word are the instruction's. -/
theorem fields_of_encode {i : Instr} {w : Slot} (h : encode i = some w) : i.fields = some (Fields.ofSlot w) := by
  rw [encode_eq_slot, Option.map_eq_some_iff] at h
  obtain ⟨f, hf, rfl⟩ := h
  rw [hf, ofSlot_slot]

/-- R58: the fields of every well-formed instruction build it. -/
theorem built : ∀ i : Instr, Built.Statement i
  | .nop => Built.nop | .add .. => Built.add _ _ _ _ _ _ | .sub .. => Built.sub _ _ _ _ _ _ | .mul .. => Built.mul _ _ _ _ _ _
  | .mulh .. => Built.mulh _ _ _ _ _ | .div .. => Built.div _ _ _ _ _ | .rem .. => Built.rem _ _ _ _ _ | .and .. => Built.and _ _ _ _ _
  | .or .. => Built.or _ _ _ _ _ | .xor .. => Built.xor _ _ _ _ _ | .andn .. => Built.andn _ _ _ _ _ | .shl .. => Built.shl _ _ _ _ _
  | .shr .. => Built.shr _ _ _ _ _ | .sha .. => Built.sha _ _ _ _ _ | .rot .. => Built.rot _ _ _ _ _ | .min .. => Built.min _ _ _ _ _
  | .max .. => Built.max _ _ _ _ _ | .cmp .. => Built.cmp _ _ _ _ _ _ | .sel .. => Built.sel _ _ _ _ _ | .clz .. => Built.clz _ _ _ _
  | .ctz .. => Built.ctz _ _ _ _ | .popc .. => Built.popc _ _ _ _ | .brev .. => Built.brev _ _ _ _ | .ext .. => Built.ext _ _ _ _ _
  | .ins .. => Built.ins _ _ _ _ _ _ _ | .addi .. => Built.addi _ _ _ _ _ | .movi .. => Built.movi _ _ _ _ | .movh .. => Built.movh _ _ _ _
  | .lea .. => Built.lea _ _ _ | .mov .. => Built.mov _ _ _ | .plog .. => Built.plog _ _ _ _ _ | .chk .. => Built.chk _ _ _ _ _
  | .br .. => Built.br _ _ | .brx .. => Built.brx _ _ | .call .. => Built.call _ _ | .callx .. => Built.callx _ _ | .ret .. => Built.ret _
  | .loop .. => Built.loop _ _ _ | .yield .. => Built.yield _ | .follow .. => Built.follow _ _ _ | .detach .. => Built.detach _
  | .lead .. => Built.lead _ _ | .ld .. => Built.ld _ _ _ _ | .st .. => Built.st _ _ _ _ | .ldv .. => Built.ldv _ _ _ _
  | .stv .. => Built.stv _ _ _ _ | .ldl .. => Built.ldl _ _ _ _ | .pref .. => Built.pref _ _ _ | .wbl .. => Built.wbl _ _ _
  | .disc .. => Built.disc _ _ _ _ | .xlat .. => Built.xlat _ _ _ _ | .amo .. => Built.amo _ _ _ _ _ _ | .cas .. => Built.cas _ _ _ _ _
  | .acc .. => Built.acc _ _ _ _ _ | .accv .. => Built.accv _ _ _ _ _ | .rflush .. => Built.rflush _ _ | .rstat .. => Built.rstat _ _
  | .xrd .. => Built.xrd _ _ _ | .xclr .. => Built.xclr _ _ _ | .fld .. => Built.fld _ _ _ _ | .fst .. => Built.fst _ _ _
  | .frst .. => Built.frst _ _ | .bar .. => Built.bar _ _ | .sstep .. => Built.sstep _ | .spawn .. => Built.spawn _ _
  | .done .. => Built.done _ | .join .. => Built.join _ _ _ | .qput .. => Built.qput _ _ _ _ | .qget .. => Built.qget _ _ _ _
  | .waite .. => Built.waite _ _ _ _ _ _ _ | .fence .. => Built.fence _ _ | .launch .. => Built.launch _ _ _ _
  | .gtime .. => Built.gtime _ _ | .vshape .. => Built.vshape _ _ | .vrep .. => Built.vrep _ _ _ _ | .vmov .. => Built.vmov _ _ _
  | .vbcast .. => Built.vbcast _ _ _ _ _ | .vext .. => Built.vext _ _ _ _ _ | .vins .. => Built.vins _ _ _ _ _
  | .vadd .. => Built.vadd _ _ _ _ _ _ _ | .vsub .. => Built.vsub _ _ _ _ _ _ _ | .vmul .. => Built.vmul _ _ _ _ _ _ _
  | .vfma .. => Built.vfma _ _ _ _ _ _ _ _ | .vfms .. => Built.vfms _ _ _ _ _ _ _ _ | .vfnma .. => Built.vfnma _ _ _ _ _ _ _ _
  | .vdiv .. => Built.vdiv _ _ _ _ _ _ | .vsqrt .. => Built.vsqrt _ _ _ _ _ | .vmin .. => Built.vmin _ _ _ _ _
  | .vmax .. => Built.vmax _ _ _ _ _ | .vabs .. => Built.vabs _ _ _ _ _ | .vneg .. => Built.vneg _ _ _ _ _
  | .vcmp .. => Built.vcmp _ _ _ _ _ _ _ | .vsel .. => Built.vsel _ _ _ _ _ _ | .vand .. => Built.vand _ _ _ _ _
  | .vor .. => Built.vor _ _ _ _ _ | .vxor .. => Built.vxor _ _ _ _ _ | .vshl .. => Built.vshl _ _ _ _ _ | .vshr .. => Built.vshr _ _ _ _ _
  | .vsha .. => Built.vsha _ _ _ _ _ | .vcvt .. => Built.vcvt _ _ _ _ _ _ _ | .vpack .. => Built.vpack _ _ _ _
  | .vunpk .. => Built.vunpk _ _ _ _ _ | .vred .. => Built.vred _ _ _ _ _ _ _ | .vscan .. => Built.vscan _ _ _ _ _ _ _
  | .vperm .. => Built.vperm _ _ _ _ _ | .vslide .. => Built.vslide _ _ _ _ _ _ | .vgath .. => Built.vgath _ _ _ _ _ _
  | .vscat .. => Built.vscat _ _ _ _ _ _ | .vsf .. => Built.vsf _ _ _ _ _ _ | .vmacw .. => Built.vmacw _ _ _ _ _ _ _
  | .vaddw .. => Built.vaddw _ _ _ _ _ _ _ | .vclass .. => Built.vclass _ _ _ _ | .vround .. => Built.vround _ _ _ _ _ _
  | .vtrn .. => Built.vtrn _ _ _ _ | .vdot .. => Built.vdot _ _ _ _ _ _ _ | .mclaim .. => Built.mclaim _ | .mrls .. => Built.mrls _
  | .tld .. => Built.tld _ _ _ _ _ _ | .tst .. => Built.tst _ _ _ _ _ _ | .tzero .. => Built.tzero _ _ | .tmov .. => Built.tmov _ _ _
  | .tcvt .. => Built.tcvt _ _ _ _ _ _ | .mma .. => Built.mma _ _ _ _ _ _ | .gmma .. => Built.gmma _ _ _ _ _ _ _
  | .mmas .. => Built.mmas _ _ _ _ _ _ | .azero .. => Built.azero _ _ | .adrain .. => Built.adrain _ _ _ _ _ _ _ _ _ _
  | .astat .. => Built.astat _ _ _ | .aclr .. => Built.aclr _ _ | .bcmp .. => Built.bcmp _ _ _ _ _ _ _ _ _ | .bpopr .. => Built.bpopr _ _ _
  | .bpopc .. => Built.bpopc _ _ _ | .bfirst .. => Built.bfirst _ _ _ | .bclos .. => Built.bclos _ _ _ _ | .bcomp .. => Built.bcomp _ _ _ _
  | .btrn .. => Built.btrn _ _ _ | .blog .. => Built.blog _ _ _ _ _ | .bld .. => Built.bld _ _ _ | .bst .. => Built.bst _ _ _
  | .bzero .. => Built.bzero _ _ | .beye .. => Built.beye _ _ | .phase .. => Built.phase _ _ | .xmit .. => Built.xmit _ _ _ _
  | .xrcv .. => Built.xrcv _ _ _ _ _ | .xsel .. => Built.xsel _ _ _ _ _ | .xidle .. => Built.xidle _ _ _ | .pend .. => Built.pend _
  | .capp .. => Built.capp _ _ _ _ _ | .cwait .. => Built.cwait _ _ _ _ | .cseq .. => Built.cseq _ _ _ | .cfence .. => Built.cfence _ _
  | .cstat .. => Built.cstat _ _ _ _ | .tdef .. => Built.tdef _ _ _ _ _ _ | .tqry .. => Built.tqry _ _ _ _
  | .pissue .. => Built.pissue _ _ _ _ _ _ | .predeem .. => Built.predeem _ _ _ _ _ _ | .pexpire .. => Built.pexpire _ _ _ _ _
  | .pstat .. => Built.pstat _ _ _ | .trap .. => Built.trap _ _ | .rft .. => Built.rft _ | .mfs .. => Built.mfs _ _ _
  | .mts .. => Built.mts _ _ _ | .rdring .. => Built.rdring _ _ _ _ | .snap .. => Built.snap _ | .xinv .. => Built.xinv _ _ _
  | .seed .. => Built.seed _ _ | .halt .. => Built.halt _ | .dbrk .. => Built.dbrk _ _ | .save .. => Built.save _ _
  | .gswitch .. => Built.gswitch _ _ _ _ _ | .pcnt .. => Built.pcnt _ _ _ _ | .controlRegisterWrite .. => Built.controlRegisterWrite _ _
  | .einjArm .. => Built.einjArm _ _ _ | .quantumExpiry .. => Built.quantumExpiry _ | .remoteAnswer .. => Built.remoteAnswer _ _
  | .writeBack .. => Built.writeBack _ | .accumulateArrival .. => Built.accumulateArrival _
  | .accumulateWindowEnd .. => Built.accumulateWindowEnd _ | .refusalReturn .. => Built.refusalReturn _ _
  | .insistentAck .. => Built.insistentAck _ _ | .residualAgeExpiry .. => Built.residualAgeExpiry _
  | .barrierComplete .. => Built.barrierComplete _ _ | .phaseBarrierComplete .. => Built.phaseBarrierComplete _ _
  | .pccLimit .. => Built.pccLimit _ | .taskPop .. => Built.taskPop _ _ | .taskAging .. => Built.taskAging _ _ _
  | .queueSlotResume .. => Built.queueSlotResume _ _ | .waitLimitExpiry .. => Built.waitLimitExpiry _ _
  | .waiteReport .. => Built.waiteReport _ _ | .queueRetry .. => Built.queueRetry _ _ | .claimHandover .. => Built.claimHandover _
  | .followerMarker .. => Built.followerMarker _ | .forwardedGroup .. => Built.forwardedGroup _ | .vrepPass .. => Built.vrepPass _ _
  | .dispatchedComplete .. => Built.dispatchedComplete _ _ | .arrayFormStart .. => Built.arrayFormStart _
  | .gmmaJoin .. => Built.gmmaJoin _ | .gmmaJoinTimeout .. => Built.gmmaJoinTimeout _
  | .impreciseFaultDelivery .. => Built.impreciseFaultDelivery _ _ | .engineErrorDelivery .. => Built.engineErrorDelivery _ _
  | .commandBegin .. => Built.commandBegin _ _ | .chainFenceRelease .. => Built.chainFenceRelease _ _ | .copy .. => Built.copy _ _
  | .copyt .. => Built.copyt _ _ | .gath .. => Built.gath _ _ | .scat .. => Built.scat _ _ | .fill .. => Built.fill _ _
  | .cmdSignal .. => Built.cmdSignal _ _ | .stash .. => Built.stash _ _ | .unstash .. => Built.unstash _ _ | .nmuSgd .. => Built.nmuSgd _ _
  | .nmuAdamw .. => Built.nmuAdamw _ _ | .nmuScale .. => Built.nmuScale _ _ | .collMatch .. => Built.collMatch _
  | .collAg .. => Built.collAg _ | .collShardArrival .. => Built.collShardArrival _ _ | .collRs .. => Built.collRs _
  | .collAr .. => Built.collAr _ | .collBc .. => Built.collBc _ | .collXor .. => Built.collXor _
  | .tensorDefine .. => Built.tensorDefine _ _ | .promiseIssue .. => Built.promiseIssue _ _ | .promiseRedeem .. => Built.promiseRedeem _ _
  | .promiseExpire .. => Built.promiseExpire _ _ | .dieLoss .. => Built.dieLoss _ _ | .rowFailure .. => Built.rowFailure _ _ _
  | .hbmChannelRetire .. => Built.hbmChannelRetire _ _ _ | .correctedErrorThreshold .. => Built.correctedErrorThreshold _ _
  | .linkRetrain .. => Built.linkRetrain _ _ | .permitAudit .. => Built.permitAudit _ _ _
  | .firmwareReplacement .. => Built.firmwareReplacement _ _ _ | .hbmRecalibration .. => Built.hbmRecalibration _ _ _
  | .boot .. => Built.boot _ _ _ | .seroanStateAccess .. => Built.seroanStateAccess _ _ _ _ _
  | .seroanBreakpoint .. => Built.seroanBreakpoint _ _ _ | .acceptanceAnswer .. => Built.acceptanceAnswer _ _
  | .xinvAcknowledged .. => Built.xinvAcknowledged _ _ | .unassignedOpcode .. => Built.unassignedOpcode _ | .streamNop => Built.streamNop
  | .streamLaunch => Built.streamLaunch | .waits => Built.waits | .waitsSatisfied => Built.waitsSatisfied
  | .streamSignal => Built.streamSignal | .gstamp => Built.gstamp | .csctlClr => Built.csctlClr | .launchAccept => Built.launchAccept
  | .gangComplete => Built.gangComplete | .superstepCommit => Built.superstepCommit | .seedComplete => Built.seedComplete
  | .pairedCopyStart => Built.pairedCopyStart | .pairedMessageCompare => Built.pairedMessageCompare
  | .pairedMismatchTimeout => Built.pairedMismatchTimeout | .wideUnitStart => Built.wideUnitStart | .vsfQueueExit => Built.vsfQueueExit
  | .gangSwitchStop => Built.gangSwitchStop | .gangResume => Built.gangResume | .stopTimeout => Built.stopTimeout
  | .poisonConsumed => Built.poisonConsumed | .packageLoss => Built.packageLoss | .powerThermalLimit => Built.powerThermalLimit
  | .internalMachineCheck => Built.internalMachineCheck | .attestation => Built.attestation | .seroanAttach => Built.seroanAttach
  | .seroanResume => Built.seroanResume

/-- R67: the fields of an unassigned major opcode fail the first check. -/
theorem check_unassigned {f : Fields} (h : assigned f.op = false) (sup : Bool) : check sup f = some 1 := by
  obtain ⟨hop, hform⟩ : f.op ≠ 0 ∧ form f.op.toNat = none := by simpa [assigned] using h
  rw [check, if_neg hop, hform]

/-- R103, R327: at user level the number of a special register is not checked, so that fewer fields hold a reserved value. -/
theorem extra02_user {f : Fields} (h : extra02 true f = true) : extra02 false f = true := by
  unfold extra02 at h ⊢
  extract_lets at h ⊢
  split at h
  case h_37 | h_38 => split at h <;> simp_all
  all_goals simp_all

/-- R70: fields that pass the checks at supervisor level pass them at user level. -/
theorem check_user {f : Fields} (h : check true f = none) : check false f = none := by
  unfold check at h ⊢
  by_cases hop : f.op = 0
  · simpa only [if_pos hop] using h
  · rw [if_neg hop] at h ⊢
    cases hform : form f.op.toNat with
    | none => simp [hform] at h
    | some r =>
      simp only [hform] at h ⊢
      have h02 : extra02 true f = true := by by_contra h02; simp [Bool.eq_false_iff.mpr h02] at h
      simpa only [h02, extra02_user h02] using h

/-- R69, R323: a supervisor form that passes the checks is refused at user level. -/
theorem decode_supervisor {w : Slot} (hc : check true (Fields.ofSlot w) = none) (hs : needsSup (Fields.ofSlot w) = true) :
    decode false true w = .error .supervisor := by
  simp [decode, check_user hc, hs]

/-- A value alone in IMM44, as a number. -/
theorem immOf_one_toNat (n : BitVec 12) : (immOf [(0, n.toNat)]).toNat % 4096 = n.toNat := by
  have := n.isLt
  simp [immOf]; omega

/-- R69: the fields of a well-formed instruction pass the checks, but for those of an unassigned opcode, which raise 0x01. -/
theorem check_of_wellFormed {i : Instr} {f : Fields} (h : WellFormed i) (hi : i.fields = some f) :
    check true f = none ∨ i = .unassignedOpcode f.slot ∧ check true f = some 1 := by
  cases i
  case unassignedOpcode w =>
    obtain rfl := Option.some.inj hi
    exact .inr ⟨by rw [slot_ofSlot], check_unassigned h true⟩
  all_goals exact .inl (h f hi)

end Sys2Proof.Laws
end

section
open Sys2Proof Sys2Proof.Laws

/-- Settles O1: the fields of a well-formed instruction pass the checks and build it; in a line of a phase and at supervisor level nothing else
can refuse them. -/
theorem decodeEncode : Obligations.DecodeEncode := by
  unfold Obligations.DecodeEncode
  intro i w hi hw
  have hf := fields_of_encode hw
  unfold decode
  rcases check_of_wellFormed hi hf with hc | ⟨rfl, hc⟩
  · simp [hc, built i hi _ hf]
  · simp [hc, slot_ofSlot]

/-- Settles O2: the worked examples by evaluation of the decoder. -/
theorem decodeWords : Obligations.DecodeWords := by
  unfold Obligations.DecodeWords
  decide +kernel

/-- Settles O3: an unassigned opcode fails the first check; a supervisor form passes every check at either level, and is named by `needsSup`. -/
theorem decodeRefusals : Obligations.DecodeRefusals := by
  unfold Obligations.DecodeRefusals
  refine ⟨fun sup ph w s h => ⟨by simp [decode, check_unassigned h sup], rfl⟩, fun i w hi hw hform => ⟨?_, rfl⟩⟩
  have hf := fields_of_encode hw
  obtain hc | ⟨rfl, -⟩ := check_of_wellFormed hi hf
  · refine decode_supervisor hc ?_
    generalize Fields.ofSlot w = f at hf
    split at hform
    case h_5 => exact hform.elim
    all_goals cases hf
    case h_1 => rfl
    case h_2 => rfl
    case h_3 g d n => simpa [needsSup, immOf_one_toNat] using hform
    case h_4 g a n => simpa [needsSup, immOf_one_toNat] using hform
  · exact hform.elim
end

section
/-! PROOFS. The control forms: what a branch does whose target passes its check, and what one does whose target fails it. -/
namespace Sys2Proof.Machine

section
variable {s u : State} {g : Guard} (hr : Runs s g)
include hr

/-- R113: what each branch does under its guard, by its branch to the target. -/
theorem exec_br (tg : Target) : exec (.br g tg) s = finish s (branchTo s (s.target tg) true) := guarded_runs hr _ _

theorem exec_brx (r : Fin 32) : exec (.brx g r) s = finish s (branchTo s (s.rs r) true) := guarded_runs hr _ _

theorem exec_call (tg : Target) :
    exec (.call g tg) s = finish s ((branchTo s (s.target tg) true).map (fun t => t.putS 30 s.grp.next)) :=
  (guarded_runs hr _ _).trans (by cases branchTo s (s.target tg) true <;> rfl)

theorem exec_callx (r : Fin 32) :
    exec (.callx g r) s = finish s ((branchTo s (s.rs r) true).map (fun t => t.putS 30 s.grp.next)) :=
  (guarded_runs hr _ _).trans (by cases branchTo s (s.rs r) true <;> rfl)

theorem exec_ret : exec (.ret g) s = finish s (branchTo s (s.rs 30) false) := guarded_runs hr _ _

/-- R113: LOOP whose counter becomes zero goes on. -/
theorem exec_loop_last {r : Fin 32} (h : s.rs r = 1) (tg : Target) : exec (.loop g r tg) s = .next (s.putS r 0) :=
  (guarded_runs hr _ _).trans (by simp [h])

/-- R113: LOOP whose counter stays above zero branches. -/
theorem exec_loop {r : Fin 32} (h : s.rs r ≠ 1) (tg : Target) :
    exec (.loop g r tg) s = finish s ((branchTo s (s.target tg) true).map (fun t => t.putS r (s.rs r - 1))) := by
  have hn : s.rs r - 1 ≠ 0 := fun e => h (by simpa using sub_eq_zero.mp e)
  refine (guarded_runs hr _ _).trans ?_
  rw [if_neg hn]
  cases branchTo s (s.target tg) true <;> rfl

theorem exec_yield : exec (.yield g) s = .next { s with grp := { s.grp with yielded := true } } := guarded_runs hr _ _

end

/-- R57: a malformed code address raises 0x0B, and no line is read for it. -/
theorem targetCause_malformed {a : Word} (h : codeAddrOk a = false) (s : State) (key : Nat) (btm : Bool) :
    targetCause s key a btm = some 0x0B := by simp [targetCause, h]

theorem lookAhead_malformed {a : Word} (h : codeAddrOk a = false) (s : State) (key : Nat) : lookAhead s key a = .ok s := by
  simp [lookAhead, h]

/-- R51: a code address is well formed when its slot is below 5 and bits 5:3 are zero. -/
theorem codeAddrOk_iff (a : Word) : codeAddrOk a = true ↔ a.toNat % 8 < 5 ∧ a.toNat / 8 % 8 = 0 := by
  simp [codeAddrOk, Bits.fld, Nat.shiftRight_eq_div_pow, and_comm]

/-- R57, R51: the cause of a well-formed target whose line is there, by the slot's place in its group and its BTM bit. -/
theorem targetCause_eq {s : State} {key : Nat} {a : Word} {l : Line} (hok : codeAddrOk a = true) (hl : peekLine s key a = some l) (btm : Bool) :
    targetCause s key a btm =
      if firstSlot (Bits.fld (lineWord l) 7 5) (a.toNat % 8) = false then some (if btm then 0x06 else 0x0B)
      else if btm && !Bits.bit (lineWord l) (a.toNat % 8) then some 0x06 else none := by
  simp [targetCause, hok, hl]

/-- R53, R57: no line is read for a target in a line that the context holds. -/
theorem lookAhead_held {s : State} {key : Nat} {a : Word} {l : Line} (h : heldLine s key a = some l) :
    lookAhead s key a = .ok s ∧ peekLine s key a = some l := by simp [lookAhead, peekLine, h]

/-- R57, R119, R357: the look at a target's line that has to be read is a load of the context at the line's home, which consumes poison. -/
theorem lookAhead_fetch {s t : State} {key pa : Nat} {a : Word} (hok : codeAddrOk a = true) (hh : heldLine s key a = none)
    (hp : (s.getCore (key / 4)).phase = none) (hf : fetchAt s key a = .ok (t, some pa)) :
    lookAhead s key a =
      if poisoned (homeRead t .ctx pa) pa then consumeAt (homeRead t .ctx pa) key pa else .ok (homeRead t .ctx pa) := by
  simp [lookAhead, hok, hh, hp, hf]

/-- R358: a read at the home changes no core. -/
@[simp] theorem homeRead_cores (s : State) (who : Reader) (pa : Nat) : (homeRead s who pa).cores = s.cores := by
  simp [homeRead, apply_ite State.cores, ctrlSet]

@[simp] theorem homeRead_getCore (s : State) (who : Reader) (pa k : Nat) : (homeRead s who pa).getCore k = s.getCore k := by
  simp [State.getCore]

end Sys2Proof.Machine

open Sys2Proof Sys2Proof.Machine

/-- Settles O17: each branch is its branch to the target, which succeeds where the target passes. -/
theorem branches : Obligations.Branches := by
  unfold Obligations.Branches
  intro g tg r s u hr passes
  have goes {a : Word} {btm : Bool} (h : passes a btm) : branchTo s a btm = .ok (u.goto a) := branchTo_goto h.1 h.2
  refine ⟨fun h => ⟨?_, ?_⟩, fun h => ⟨?_, ?_⟩, fun h => ?_, fun h => exec_loop_last hr h tg, fun h1 h => ?_, exec_yield hr⟩
  · rw [exec_br hr, goes h, finish_ok]
  · rw [exec_call hr, goes h]; rfl
  · rw [exec_brx hr, goes h, finish_ok]
  · rw [exec_callx hr, goes h]; rfl
  · rw [exec_ret hr, goes h, finish_ok]
  · rw [exec_loop hr h1, goes h]; rfl

/-- Settles O18: a branch to a target that fails traps before it writes. What a target must be is read off its line; the look at the line keeps
memory and ends at the line's home. -/
theorem branchTargets : Obligations.BranchTargets := by
  unfold Obligations.BranchTargets
  refine ⟨?_, fun s key a l => ⟨fun h => ?_, fun h5 h0 hl => ?_, lookAhead_held, fun u hu => (lookAhead_keeps s key a).ok hu, ?_⟩⟩
  · intro g tg r s u c hr fails traps
    have raises {a : Word} {btm : Bool} (h : fails a btm) : branchTo s a btm = raiseFrom u c a 0 := branchTo_raise h.1 h.2
    refine ⟨fun h => ⟨?_, ?_, fun h1 => ?_⟩, fun h => ⟨?_, ?_⟩, fun h => ?_⟩
    · rw [exec_br hr, raises h]; rfl
    · rw [exec_call hr, raises h]; rfl
    · rw [exec_loop hr h1, raises h]; rfl
    · rw [exec_brx hr, raises h]; rfl
    · rw [exec_callx hr, raises h]; rfl
    · rw [exec_ret hr, raises h]; rfl
  · have hbad : codeAddrOk a = false := by
      rw [Bool.eq_false_iff, Ne, codeAddrOk_iff]; omega
    exact ⟨lookAhead_malformed hbad s key, targetCause_malformed hbad s key⟩
  · have hc := targetCause_eq ((codeAddrOk_iff a).mpr ⟨h5, h0⟩) hl
    refine ⟨fun hf => ?_, fun hf hb => ?_, fun hf hb => ?_⟩
    · simp [hc, hf]
    · simp [hc, hf, hb]
    · simp [hc, hf, hb]
  · intro t pa hok hh hp hf
    rw [lookAhead_fetch hok hh hp hf]
    refine ⟨fun h => by simp [h], fun h => ?_⟩
    rw [if_pos h]
    refine ⟨_, rfl, ?_, ?_, ?_⟩
    · simp
    · simp
    · exact (homeRead_mem t .ctx pa).trans ((fetchAt_keeps s key a).ok hf)
end

section
/-! PROOFS. Every form of the stream under its guard, and NOP. -/
namespace Sys2Proof.Machine
open Sys2Proof.Laws

/-- R69, R202, R218: the opcodes of forms that name v registers. -/
def namesGroups (op : Nat) : Bool :=
  decide (op = 0x42 ∨ op = 0x43 ∨ 0x72 ≤ op ∧ op ≤ 0x99 ∨ 0xB0 ≤ op ∧ op ≤ 0xB3)

theorem vGroups_none {f : Fields} (hop : namesGroups f.op.toNat = false) (sh : Vec.Shape) : vGroups f sh = ([], []) := by
  simp only [namesGroups, decide_eq_false_iff_not] at hop
  have hv : ¬ (f.op.toNat = 0x42 ∨ f.op.toNat = 0x43 ∨ 0x72 ≤ f.op.toNat ∧ f.op.toNat ≤ 0x99) := by omega
  have hcmp : f.op.toNat ≠ 0xB0 := by omega
  have hpop : ¬ (0xB1 ≤ f.op.toNat ∧ f.op.toNat ≤ 0xB3) := by omega
  simp only [← or_assoc] at hv
  simp [vGroups, hv, hcmp, hpop]

/-- R202: a form that names no v registers has no check of decode that depends on VSH. -/
theorem shapeTrap_none {i : Instr} {f : Fields} (hi : i.fields = some f) (hop : namesGroups f.op.toNat = false) (s : State) :
    shapeTrap s i = none := by
  have hslot : Fields.ofSlot (slotOf i) = f := by simp [slotOf, encode_eq_slot, hi, ofSlot_slot]
  have hcause : shapeCause s.view s.view.vsh f = none := by
    simp only [namesGroups, decide_eq_false_iff_not] at hop
    have h8B : f.op.toNat ≠ 0x8B := by omega
    have h8C : f.op.toNat ≠ 0x8C := by omega
    have h98 : f.op.toNat ≠ 0x98 := by omega
    have hgs := vGroups_none (f := f) (by simpa only [namesGroups, decide_eq_false_iff_not] using hop)
    simp [shapeCause, hgs, h8B, h8C, h98]
  simp [shapeTrap, hslot, hcause]

/-- A form under its guard that names no v registers has the checks of decode that depend on VSH before it as well: there are none. -/
theorem guardedShape_of_guarded {i : Instr} {f : Fields} {g : Guard} {body : Res State} {s : State} (hi : i.fields = some f)
    (hop : namesGroups f.op.toNat = false) (h : exec i s = guarded s i g body) : exec i s = guardedShape s i g body := by
  rw [h, guardedShape, shapeTrap_none hi hop]

/-- R58, R202: every form of the stream, NOP and the unassigned opcodes aside, has a guard in its word, behind the checks of decode that depend on VSH. -/
def Guarded (i : Instr) (f : Fields) : Prop := ∃ g : Guard, f.g = g.code ∧ ∀ s, ∃ body, exec i s = guardedShape s i g body

theorem guarded_form {i : Instr} {f : Fields} (hi : i.fields = some f) (hnop : i ≠ .nop) (hun : ∀ w, i ≠ .unassignedOpcode w) :
    Guarded i f := by
  cases i
  case nop => exact absurd rfl hnop
  case unassignedOpcode w => exact absurd rfl (hun w)
  case ldv | stv | vmov | vbcast | vext | vins | vadd | vsub | vmul | vfma | vfms | vfnma | vdiv | vsqrt | vmin | vmax | vabs | vneg | vcmp | vsel
    | vand | vor | vxor | vshl | vshr | vsha | vcvt | vpack | vunpk | vred | vscan | vperm | vslide | vgath | vscat | vsf | vmacw | vaddw | vclass
    | vround | vtrn | vdot | bcmp | bpopr | bpopc | bfirst | bclos | bcomp | btrn | blog | bld | bst | bzero | beye =>
    obtain rfl := Option.some.inj hi
    exact ⟨_, rfl, fun s => ⟨_, rfl⟩⟩
  all_goals
    cases hi <;>
    exact ⟨_, rfl, fun s => ⟨_, guardedShape_of_guarded rfl rfl rfl⟩⟩

theorem guardedShape_trap {s : State} {i : Instr} {t : TrapInfo} (h : shapeTrap s i = some t) (g : Guard) (body : Res State) :
    guardedShape s i g body = .next (takeTrap s t) := by
  rw [guardedShape, h]; rfl

theorem guardedShape_none {s : State} {i : Instr} (h : shapeTrap s i = none) (g : Guard) (body : Res State) :
    guardedShape s i g body = guarded s i g body := by
  rw [guardedShape, h]

end Sys2Proof.Machine

open Sys2Proof Sys2Proof.Machine Sys2Proof.Laws

/-- Settles O11: every form of the stream stands behind its guard, and NOP has no check of decode that depends on VSH. -/
theorem falseGuard : Obligations.FalseGuard := by
  unfold Obligations.FalseGuard
  refine ⟨fun s => rfl, fun i w s hi hun hp => ?_⟩
  have hf := fields_of_encode hi
  by_cases hnop : i = .nop
  · subst hnop
    refine ⟨fun _ _ => rfl, fun t ht => ?_⟩
    rw [shapeTrap_none (f := ⟨0, 0, 0, 0, 0, 0, 0, 0, 0⟩) rfl rfl] at ht
    exact absurd ht nofun
  obtain ⟨g, hg, hexec⟩ := guarded_form hf hnop hun
  obtain ⟨body, hbody⟩ := hexec s
  refine ⟨fun hs hfalse => ?_, fun t ht => ?_⟩
  · rw [hg, guard_of_code] at hfalse
    rw [hbody, guardedShape_none hs, guarded_false hfalse hp]
  · rw [hbody, guardedShape_trap ht]
end

section
/-! PROOFS. The agenda, a store that may make no access, and the pair. -/
namespace Sys2Proof.Machine

/-! ### What the checks of an access leave of a phase (R119, R127) -/

/-- The acting context and the phases of the cores are as before. -/
def SameTurn (s t : State) : Prop := t.cur = s.cur ∧ ∀ k, (t.getCore k).phase = (s.getCore k).phase

theorem SameTurn.refl (s : State) : SameTurn s s := ⟨rfl, fun _ => rfl⟩

theorem SameTurn.trans {s t u : State} (h : SameTurn s t) (h' : SameTurn t u) : SameTurn s u :=
  ⟨h'.1.trans h.1, fun k => (h'.2 k).trans (h.2 k)⟩

theorem SameTurn.inPhase {s t : State} (h : SameTurn s t) : t.inPhase = s.inPhase := by
  obtain ⟨hcur, hphase⟩ := h
  simp only [State.inPhase, State.core, State.coreKey, hcur, hphase]

theorem sameTurn_setCore {s : State} {k : Nat} {c : Core} (h : c.phase = (s.getCore k).phase) : SameTurn s (s.setCore k c) := by
  refine ⟨rfl, fun j => ?_⟩
  by_cases hj : j = k
  · rw [hj, State.getCore_setCore_same, h]
  · rw [State.getCore_setCore_ne _ _ _ _ hj]

theorem homeRead_sameTurn (s : State) (who : Reader) (pa : Nat) : SameTurn s (homeRead s who pa) :=
  ⟨by simp [homeRead, apply_ite State.cur, ctrlSet], fun k => by rw [homeRead_getCore]⟩

theorem homeLoad_sameTurn (s : State) (key pa : Nat) : SameTurn s (homeLoad s key pa) := by
  unfold homeLoad
  extract_lets k l r c t
  have ht : SameTurn s t := ⟨rfl, fun _ => rfl⟩
  split
  · exact ht
  · exact ht.trans (sameTurn_setCore rfl)

theorem loadFor_sameTurn (s : State) (key pa n : Nat) : SameTurn s (loadFor s key pa n).1 := by
  unfold loadFor
  split
  · exact homeLoad_sameTurn s key pa
  · extract_lets t
    have ht : SameTurn s t := ⟨rfl, fun _ => rfl⟩
    split
    · exact ht
    · exact ht.trans (homeLoad_sameTurn t key pa)

theorem walkLoad_sameTurn {key a e : Nat} {s t : State} (h : walkLoad key s a = .ok (t, e)) : SameTurn s t := by
  unfold walkLoad at h
  split at h
  · simp at h
  · dsimp only at h
    split at h
    · simp [consumeAt] at h
    · cases h
      exact (homeRead_sameTurn _ .ctx _).trans (loadFor_sameTurn _ _ _ _)

theorem walkBy_sameTurn {key va : Nat} {s t : State} {fuel level base : Nat} {found : Except Nat (Nat × Nat)}
    (h : walkBy (walkLoad key) va s fuel level base = .ok (t, found)) : SameTurn s t := by
  induction fuel generalizing s level base with
  | zero => cases h; exact SameTurn.refl _
  | succ n ih =>
    unfold walkBy at h
    split at h
    · simp at h
    · have hread := walkLoad_sameTurn ‹_›
      split at h
      · cases h; exact hread
      · exact hread.trans (ih h)
      · cases h; exact hread

theorem walkStep_sameTurn {s t : State} {key va : Nat} {found : Except Nat (Nat × Nat)} (h : walkStep s key va = .ok (t, found)) :
    SameTurn s t := by
  unfold walkStep at h
  dsimp only at h
  split at h
  · have hcount : SameTurn s (countWalk s (key / 4)) := sameTurn_setCore rfl
    exact hcount.trans (walkBy_sameTurn h)
  · cases h; exact SameTurn.refl s

theorem fillTlb_sameTurn (s : State) (k : Nat) (x : Xlat) : SameTurn s (fillTlb s k x) := by
  unfold fillTlb
  split
  · exact SameTurn.refl s
  · exact sameTurn_setCore rfl

theorem checkEA_sameTurn {s t : State} {ea : Word} {al pa : Nat} {k : Kind} (h : checkEA s ea al k = .ok (t, pa)) : SameTurn s t := by
  obtain ⟨-, -, u, found, x, hwalk, -, rfl, -⟩ := checkEA_ok_iff.mp h
  exact (walkStep_sameTurn hwalk).trans (fillTlb_sameTurn _ _ _)

/-- R123, R127: a store that is granted has left the acting context and the phases as they were. -/
theorem grant_write_sameTurn {s : State} {i : Instr} {ea : Word} {al n : Nat} {w : Bool} {r : Grant}
    (h : grant s i ea al n .write w = .ok r) (hr : r.refused = false) : SameTurn s r.s := by
  obtain ⟨u, hcheck, -, -, -, -, hok⟩ := grantAs_ok h
  rw [hok hr, if_neg (by simp)]
  unfold checkMode at hcheck
  split at hcheck
  · simp [raisePhase, raise] at hcheck
  · exact checkEA_sameTurn hcheck

/-! ### An access that the agenda's limit leaves for a later step (log 3) -/

theorem performOnce_paused {s : State} (hp : s.inPhase = false) (hn : s.steps = some 0) (perform : State → State × (Option Word × List Line)) :
    performOnce s perform = stall s .paused := by
  simp [performOnce, hp, hn]

theorem exchangeAt_paused {s : State} (hp : s.inPhase = false) (hn : s.steps = some 0) (hpair : s.ctx.pair = none) (hs : s.ctx.sent = [])
    (kind pa : Nat) (data : List Byte) (perform : State → State × (Option Word × List Line)) :
    exchangeAt s kind pa data perform = stall s .paused := by
  have hperform := performOnce_paused hp hn perform
  have hfirst : repeated s = none := by simp [repeated, hs]
  simp only [exchangeAt, exchange, hfirst, message_solo hpair, hperform, ite_self]

theorem accessMessage_paused {s : State} (hp : s.inPhase = false) (hn : s.steps = some 0) (hpair : s.ctx.pair = none) (hs : s.ctx.sent = [])
    (kind pa : Nat) (data : List Byte) (perform : State → State × (Option Word × List Line)) (take : State → Option Word × List Line → State) :
    accessMessage s kind pa data perform take = stall s .paused := by
  rw [accessMessage, exchangeAt_paused hp hn hpair hs]
  rfl

/-- A context that waits stays at its group. -/
theorem finish_stall (s t : State) (w : Wait) : ∃ u, finish s (stall t w) = .next u ∧ u.grp.stalled = true ∧
    u.ctx = { t.ctx with wait := some w, pc := s.grp.first } ∧ u.mem = t.mem := by
  refine ⟨_, rfl, rfl, ?_, rfl⟩
  show ((t.upd fun c => { c with wait := some w }).upd fun c => { c with pc := s.grp.first }).ctx = _
  rw [State.ctx_upd, State.ctx_upd]

/-- R127: a granted ST that may make no access in this step waits before it. -/
theorem exec_st_paused {g : Guard} {t : Ty} {d : Opnd} {m : Mem} {s : State} {r : Grant} (hr : Runs s g)
    (hg : Granted s (.st g t d m) (s.ea m) (t.bits / 8) (t.bits / 8) .write (decide (t.bits / 8 = 8)) r)
    (hn : r.s.steps = some 0) (hs : r.s.ctx.sent = []) : exec (.st g t d m) s = finish s (stall r.s .paused) := by
  obtain ⟨hgrant, hok, hpair⟩ := hg
  have hp : r.s.inPhase = false := (grant_write_sameTurn hgrant hok).inPhase.trans hr.2
  refine (guarded_runs hr _ _).trans (congrArg (finish s) ?_)
  rw [hgrant]
  refine (if_neg (by simp [hok])).trans ?_
  exact accessMessage_paused hp hn hpair hs _ _ _ _ _

/-! ### The pair (R56) -/

/-- R56: the state on which each instruction of a pair is first tried: the registers are seen as they stand before it. -/
def pairBase (s : State) : State := { s with grp := { s.grp with view := some s.ctx, todo := [] } }

/-- The instruction of a slot, run on a state. -/
def runSlot (ex : Instr → State → Out) (n : Nat) (x : Instr) (s : State) : Out := ex x { s with grp := { s.grp with slot := n } }

section
variable {ex : Instr → State → Out} {s r q t : State} {i h : Instr} {j m : Nat} (htodo : s.grp.todo = [(j, i), (m, h)])
include htodo

/-- R56: where the first slot's instruction traps alone, that is what the pair does. -/
theorem runTodo_first_traps (hi : runSlot ex j i (pairBase s) = .next r) (ht : r.grp.trapped = true) : runTodo ex s = .next r := by
  unfold runSlot pairBase at hi
  simp only [runTodo, htodo, hi, List.find?, ht]

/-- R56: where the second slot's instruction alone traps, that is what the pair does. -/
theorem runTodo_second_traps (hi : runSlot ex j i (pairBase s) = .next r) (hr : r.grp.trapped = false)
    (hh : runSlot ex m h (pairBase s) = .next q) (hq : q.grp.trapped = true) : runTodo ex s = .next q := by
  unfold runSlot pairBase at hi hh
  simp only [runTodo, htodo, hi, hh, List.find?, hr, hq]

/-- R56: where neither traps nor waits alone, the earlier in the order of effects runs first and the other on what it has left. -/
theorem runTodo_clean (hi : runSlot ex j i (pairBase s) = .next r) (hr : r.grp.trapped = false) (hr' : r.grp.stalled = false)
    (hh : runSlot ex m h (pairBase s) = .next q) (hq : q.grp.trapped = false) (hq' : q.grp.stalled = false)
    (ht : t.grp.trapped = false) (ht' : t.grp.stalled = false) :
    (lateness i ≤ lateness h → runSlot ex m h r = .next t → runTodo ex s = .next t) ∧
    (lateness h < lateness i → runSlot ex j i q = .next t → runTodo ex s = .next t) := by
  unfold runSlot pairBase at hi hh
  unfold runSlot
  constructor
  · intro hl hrun
    simp only [hr, hr'] at hrun
    simp only [runTodo, htodo, hi, hh, List.find?, hr, hq, hr', hq', if_neg (Nat.not_lt.mpr hl), hrun, ht, ht', Bool.false_and]
    simp [ht']
  · intro hl hrun
    simp only [hq, hq'] at hrun
    simp only [runTodo, htodo, hi, hh, List.find?, hr, hq, hr', hq', if_pos hl, hrun, ht, ht', Bool.false_and]
    simp [ht']

end

end Sys2Proof.Machine
end

section
open Sys2Proof Sys2Proof.Machine

/-- Settles O5: the agenda is the first thing that a step looks at, a store that may make no access waits before it, and each clause about a pair is a case of `runTodo`. -/
theorem stepOrder : Obligations.StepOrder := by
  unfold Obligations.StepOrder
  refine ⟨fun s h rest t ha he => ?_, fun s k rest ha => ?_, fun s n rest ha => ?_, fun g t d m s r hr hg hn hs => ?_,
    fun s j m i h htodo => ⟨?_, ?_, ?_, ?_⟩⟩
  · simp only [step, stepWith, ha, he]
  · refine ⟨fun u hu => ?_, fun f hf => ?_, fun hnone => ?_⟩
    · simp only [step, stepWith, ha, hu, Option.getD_some]
    · simp only [step, stepWith, ha, hf, Option.getD_some]
    · simp only [step, stepWith, ha, hnone, Option.getD_none]
  · simp only [step, stepWith, ha]
  · obtain ⟨u, hu, hstalled, hctx, hmem⟩ := finish_stall s r.s .paused
    exact ⟨u, (exec_st_paused hr hg hn hs).trans hu, hstalled, by rw [hctx], by rw [hctx], hmem⟩
  · rintro r q t hl hi ⟨hr, hr'⟩ hh ⟨hq, hq'⟩ ht ⟨hc, hc'⟩
    exact (runTodo_clean (ex := exec) htodo hi hr hr' hh hq hq' hc hc').1 hl ht
  · rintro r q t hl hh ⟨hr, hr'⟩ hi ⟨hq, hq'⟩ ht ⟨hc, hc'⟩
    exact (runTodo_clean (ex := exec) htodo hi hq hq' hh hr hr' hc hc').2 hl ht
  · exact fun r hi ht => runTodo_first_traps (ex := exec) htodo hi ht
  · exact fun r q hi hr hh hq => runTodo_second_traps (ex := exec) htodo hi hr hh hq

end

section
/-! PROOFS. Trap entry and the return from a trap. -/
namespace Sys2Proof.Machine

/-! ### The two parts of trap entry (R329) -/

/-- R102, R277, R329: the state in which a trap of a context is entered: its capture is dropped, and its phase ended. -/
def unwound (s : State) (key : Nat) : State :=
  let s := dropCapture s key
  if (s.getCore (key / 4)).phase.any (fun p => p.ctx.val = key % 4) then endPhase s (key / 4) else s

/-- R102, R329: the context as a trap finds it: it waits for nothing, holds no line and no access, and does not follow. -/
def Ctx.stopped (c : Ctx) : Ctx :=
  { c with wait := none, lfs := if c.lfs.toNat % 4 ≥ 2 then 0 else c.lfs, lineBuf := none, sent := [], behind := none }

/-- The state with a context as a trap finds it. -/
def stopCtx (s : State) (key : Nat) : State := { s with halves := mdel key s.halves }.setCtx key (s.getCtx key).stopped

/-- R329: what trap entry does with a context `c` that stands stopped at `tpc`. -/
def takeEntry (s : State) (key : Nat) (c : Ctx) (tpc : Word) (t : TrapInfo) (imp : Bool) (tseq : Nat) : State :=
  let g := (s.getCore (key / 4)).gang
  let x := s.getGang g
  if t.cause = 0x0F && x.attached then
    { (s.setCtx key { c with pc := tpc, stepBrk := if t.b.getLsbD 0 then some tpc else c.stepBrk }).setGang g
        { x with outAt := some (x.outAt.elim s.now (min s.now)) } with agenda := s.agenda ++ [.event ⟨g, .gangSwitchStop⟩] }
  else if c.tcause.getLsbD 63 then endContext (recordFault s g 0x7D key tpc t.a t.b) key
  else if c.trapvec = 0 then endContext (recordFault s g t.cause key tpc t.a t.b) key
  else if (targetCause s key c.trapvec true).isSome || !reachable s key c.trapvec then
    endContext (recordFault s g 0x7D key tpc t.a t.b) key
  else
    s.setCtx key { c with
      tcause := BitVec.ofNat 64 (2 ^ 63 + 256 * Bits.b2n imp + t.cause), tpc := tpc, tinfoa := t.a, tinfob := t.b,
      tseq := BitVec.ofNat 64 tseq, pc := c.trapvec }

theorem enterTrap_eq (s : State) (key : Nat) (t : TrapInfo) (imp : Bool) (tseq : Nat) :
    enterTrap s key t imp tseq = takeEntry (stopCtx (unwound s key) key) key ((unwound s key).getCtx key).stopped
      (t.tpc.getD ((s.getCtx key).capture.elim (s.getCtx key).pc Capture.start)) t imp tseq := by
  unfold enterTrap
  extract_lets k c here tpc s0 s1 c1 c2 s2 g
  have hs : unwound s key = s1 := rfl
  have hhere : (s.getCtx key).capture.elim (s.getCtx key).pc Capture.start = here := by
    cases hcap : (s.getCtx key).capture <;> simp only [here, c, hcap, Option.elim]
  rw [hs, hhere]
  clear_value s1 here
  rfl

/-- A context without a capture and outside a phase is as a trap finds it. -/
theorem unwound_plain {s : State} {key : Nat} (hcap : (s.getCtx key).capture = none) (hphase : (s.getCore (key / 4)).phase = none) :
    unwound s key = s := by
  simp [unwound, dropCapture, hcap, hphase]

/-- R102: a context that does not follow keeps its forwarding. -/
theorem stopped_plain {c : Ctx} (hlfs : c.lfs.toNat % 4 < 2) : c.stopped = { c with wait := none, lineBuf := none, sent := [], behind := none } := by
  rw [Ctx.stopped, if_neg (by omega)]

theorem enterTrap_plain {s : State} {key : Nat} (hcap : (s.getCtx key).capture = none) (hphase : (s.getCore (key / 4)).phase = none)
    (t : TrapInfo) (imp : Bool) (tseq : Nat) :
    enterTrap s key t imp tseq =
      takeEntry (stopCtx s key) key (s.getCtx key).stopped (t.tpc.getD (s.getCtx key).pc) t imp tseq := by
  rw [enterTrap_eq, unwound_plain hcap hphase, hcap, Option.elim]

section
variable {s : State} {key g : Nat} {c : Ctx} {tpc : Word} {t : TrapInfo} {imp : Bool} {tseq : Nat} (hg : (s.getCore (key / 4)).gang = g)
include hg

/-- R333: cause 0x0F in an attached gang stops the gang at the trap's address. -/
theorem takeEntry_attached (h : t.cause = 0x0F) (ha : (s.getGang g).attached = true) :
    let u := takeEntry s key c tpc t imp tseq
    u.getCtx key = { c with pc := tpc, stepBrk := if t.b.getLsbD 0 then some tpc else c.stepBrk } ∧
    (u.getGang g).outAt = some ((s.getGang g).outAt.elim s.now (min s.now)) ∧ .event ⟨g, .gangSwitchStop⟩ ∈ u.agenda ∧ u.mem = s.mem := by
  subst hg
  simp only [takeEntry, h, ha, decide_true, Bool.and_self, if_true]
  refine ⟨State.getCtx_setCtx_same _ _ _, ?_, by simp, rfl⟩
  exact congrArg Gang.outAt (State.getGang_setGang_same _ _ _)

omit hg in
theorem not_attached (h : t.cause = 0x0F → (s.getGang g).attached = false) : (t.cause = 0x0F && (s.getGang g).attached) = false := by
  by_cases hc : t.cause = 0x0F
  · simp [h hc]
  · simp [hc]

variable (hplain : t.cause = 0x0F → (s.getGang g).attached = false)
include hplain

theorem takeEntry_double (h : c.tcause.getLsbD 63 = true) :
    takeEntry s key c tpc t imp tseq = endContext (recordFault s g 0x7D key tpc t.a t.b) key := by
  simp only [takeEntry, hg, not_attached hplain, h, Bool.false_eq_true, if_true, if_false]

theorem takeEntry_unhandled (h : c.tcause.getLsbD 63 = false) (hv : c.trapvec = 0) :
    takeEntry s key c tpc t imp tseq = endContext (recordFault s g t.cause key tpc t.a t.b) key := by
  simp only [takeEntry, hg, not_attached hplain, h, hv, Bool.false_eq_true, if_true, if_false]

theorem takeEntry_badVector (h : c.tcause.getLsbD 63 = false) (hv : c.trapvec ≠ 0)
    (hbad : (targetCause s key c.trapvec true).isSome ∨ reachable s key c.trapvec = false) :
    takeEntry s key c tpc t imp tseq = endContext (recordFault s g 0x7D key tpc t.a t.b) key := by
  have hbad' : ((targetCause s key c.trapvec true).isSome || !reachable s key c.trapvec) = true := by simpa using hbad
  simp only [takeEntry, hg, not_attached hplain, h, hv, hbad', Bool.false_eq_true, if_true, if_false]

theorem takeEntry_handler (h : c.tcause.getLsbD 63 = false) (hv : c.trapvec ≠ 0) (hgood : targetCause s key c.trapvec true = none)
    (hreach : reachable s key c.trapvec = true) :
    takeEntry s key c tpc t imp tseq = s.setCtx key { c with
      tcause := BitVec.ofNat 64 (2 ^ 63 + (if imp then 256 else 0) + t.cause), tpc := tpc, tinfoa := t.a, tinfob := t.b,
      tseq := BitVec.ofNat 64 tseq, pc := c.trapvec } := by
  have hb : 256 * Bits.b2n imp = if imp then 256 else 0 := by cases imp <;> rfl
  simp only [takeEntry, hg, not_attached hplain, h, hv, hgood, hreach, hb, Option.isSome_none, Bool.not_true, Bool.or_self, Bool.false_eq_true, if_false]

end

/-! ### What trap entry leaves (R333) -/

theorem dropPair_ctxs_cur (s : State) (pid : Nat) : (dropPair s pid).ctxs = s.ctxs ∧ (dropPair s pid).cur = s.cur := by
  unfold dropPair
  split
  · exact ⟨rfl, rfl⟩
  · dsimp only
    split <;> exact ⟨rfl, rfl⟩

theorem recordFault_cur (s : State) (g c key : Nat) (tpc a b : Word) : (recordFault s g c key tpc a b).cur = s.cur := by
  obtain ⟨m, l, r, h⟩ := recordFault_homes s g c key tpc a b
  rw [h]

theorem flushFaults_cur (s : State) (key : Nat) : (flushFaults s key).cur = s.cur := by
  refine foldl_keeps State.cur _ (fun t e => ?_) _ s
  split
  · exact recordFault_cur _ _ _ _ _ _ _
  · rfl

theorem passClaim_cur (s : State) (k : Nat) : (passClaim s k).cur = s.cur := by
  unfold passClaim
  dsimp only
  split
  · rfl
  · split
    · rfl
    · split <;> split <;> rfl

/-- R234: a claim that is passed on leaves what a context's group still waits for. -/
theorem passClaim_behind (s : State) (k key : Nat) : ((passClaim s k).getCtx key).behind = (s.getCtx key).behind := by
  unfold passClaim
  extract_lets c
  split
  · rfl
  · next h _ =>
    split
    · rfl
    · extract_lets x t
      have ht : (t.getCtx key).behind = (s.getCtx key).behind := by
        simp only [t]
        split
        · by_cases hkey : key = 4 * k + h.val
          · rw [hkey, State.getCtx_setCtx_same]
          · rw [State.getCtx_setCtx_ne _ _ _ _ hkey]
        · rfl
      split <;> exact ht

/-- R96: a context that ends is held by no flush or fence. -/
theorem endContext_behind_cur (s : State) (key : Nat) : ((endContext s key).getCtx key).behind = none ∧ (endContext s key).cur = s.cur := by
  unfold endContext
  extract_lets pid x t u c v
  have ht : (t.getCtx key).behind = none ∧ t.cur = s.cur := ⟨by simp only [t, State.getCtx_setCtx_same], rfl⟩
  have hdrop : u.ctxs = t.ctxs ∧ u.cur = t.cur := by
    simp only [u]
    generalize pid = q
    cases q
    · exact ⟨rfl, rfl⟩
    · exact dropPair_ctxs_cur t _
  have hu : (u.getCtx key).behind = none ∧ u.cur = s.cur := by
    rw [State.getCtx, hdrop.1, hdrop.2]
    exact ht
  have hv : (v.getCtx key).behind = none ∧ v.cur = s.cur := by
    simp only [v]
    split <;> exact hu
  rw [passClaim_behind, passClaim_cur]
  have hflush : (disown (flushFaults v key) key).ctxs = v.ctxs := flushFaults_ctxs v key
  refine ⟨?_, (flushFaults_cur v key).trans hv.2⟩
  rw [State.getCtx, hflush]
  exact hv.1

theorem takeEntry_behind_cur {c : Ctx} (h : c.behind = none) (s : State) (key : Nat) (tpc : Word) (t : TrapInfo) (imp : Bool) (tseq : Nat) :
    ((takeEntry s key c tpc t imp tseq).getCtx key).behind = none ∧ (takeEntry s key c tpc t imp tseq).cur = s.cur := by
  unfold takeEntry
  dsimp only
  have hend (cause : Nat) (g : Nat) : ((endContext (recordFault s g cause key tpc t.a t.b) key).getCtx key).behind = none ∧
      (endContext (recordFault s g cause key tpc t.a t.b) key).cur = s.cur := by
    obtain ⟨hb, hc⟩ := endContext_behind_cur (recordFault s g cause key tpc t.a t.b) key
    exact ⟨hb, hc.trans (recordFault_cur _ _ _ _ _ _ _)⟩
  split
  · exact ⟨(congrArg Ctx.behind (State.getCtx_setCtx_same s key _)).trans h, rfl⟩
  · split
    · exact hend _ _
    · split
      · exact hend _ _
      · split
        · exact hend _ _
        · exact ⟨(congrArg Ctx.behind (State.getCtx_setCtx_same s key _)).trans h, rfl⟩

theorem dropCapture_cur (s : State) (key : Nat) : (dropCapture s key).cur = s.cur := by
  have hrefill (core : Core) (t : State) (q : Nat) : (refill t key (mget RingEntry.free (q % 64) core.ring)).cur = t.cur := by
    unfold refill
    split <;> rfl
  unfold dropCapture
  split
  · rfl
  · next cap _ => exact foldl_keeps State.cur _ (hrefill _) cap.forms s

theorem endPhase_cur (s : State) (k : Nat) : (endPhase s k).cur = s.cur := by
  unfold endPhase
  extract_lets c
  split
  · rfl
  · refine (foldl_keeps State.cur _ (fun t x => ?_) _ _).trans ?_ <;> rfl

theorem unwound_cur (s : State) (key : Nat) : (unwound s key).cur = s.cur := by
  unfold unwound
  dsimp only
  split
  · rw [endPhase_cur, dropCapture_cur]
  · exact dropCapture_cur s key

/-- R329: trap entry leaves the acting context in turn, and no flush or fence holds the context that enters. -/
theorem enterTrap_behind_cur (s : State) (key : Nat) (t : TrapInfo) (imp : Bool) (tseq : Nat) :
    ((enterTrap s key t imp tseq).getCtx key).behind = none ∧ (enterTrap s key t imp tseq).cur = s.cur := by
  rw [enterTrap_eq]
  obtain ⟨hb, hc⟩ := takeEntry_behind_cur (c := ((unwound s key).getCtx key).stopped) rfl (stopCtx (unwound s key) key) key
    (t.tpc.getD ((s.getCtx key).capture.elim (s.getCtx key).pc Capture.start)) t imp tseq
  exact ⟨hb, hc.trans (unwound_cur s key)⟩

/-- What no flush or fence holds, is held by none after it. -/
theorem held_none {c : Ctx} (h : c.behind = none) :
    { c with wait := if c.wait.isNone && c.live then none else c.wait, behind := none } = c := by
  have hwait : (if c.wait.isNone && c.live then none else c.wait) = c.wait := by
    cases c.wait <;> simp
  rw [hwait, ← h]

/-- R333: a trap after its group by a context whose group waits for nothing is its entry. -/
theorem trapAfter_getCtx {s : State} (hw : s.ctx.wait = none) (hb : s.ctx.behind = none) (t : TrapInfo) (k : Nat) :
    (trapAfter s t).getCtx k = (enterTrap s s.cur t false 0).getCtx k := by
  obtain ⟨hbehind, hcur⟩ := enterTrap_behind_cur s s.cur t false 0
  unfold trapAfter
  extract_lets u v
  have hu : u.ctx.behind = none := by rw [State.ctx, hcur]; exact hbehind
  show v.getCtx k = u.getCtx k
  by_cases hk : k = u.cur
  · rw [hk]
    refine (State.ctx_upd u _).trans ?_
    rw [hw, hb]
    exact held_none hu
  · exact State.getCtx_upd_ne _ _ _ hk

end Sys2Proof.Machine
end

section
open Sys2Proof Sys2Proof.Machine

/-- Settles O9: outside a phase, without a capture, trap entry takes the context as it stands; each clause is a branch of what it then does. -/
theorem trapEntry : Obligations.TrapEntry := by
  unfold Obligations.TrapEntry
  refine ⟨fun s key t imp tseq => ?_, fun s t => ⟨rfl, fun k => rfl⟩, fun g code s hr hw hb => ?_⟩
  · intro k c g tpc c1 s1 hcap hphase hlfs
    have hc1 : (s.getCtx key).stopped = c1 := stopped_plain hlfs
    have hs1 : stopCtx s key = s1 := by rw [stopCtx, hc1]
    have hg : (s1.getCore (key / 4)).gang = g := rfl
    have hentry : enterTrap s key t imp tseq = takeEntry s1 key c1 tpc t imp tseq := by
      rw [enterTrap_plain hcap hphase, hc1, hs1]
    rw [hentry]
    refine ⟨fun hcause ha => ⟨_, rfl, takeEntry_attached hg hcause ha⟩, fun hplain => ⟨?_, ?_, ?_, ?_⟩⟩
    · exact fun hdouble => takeEntry_double hg hplain hdouble
    · exact fun hact hvec => takeEntry_unhandled hg hplain hact hvec
    · exact fun hact hvec hbad => takeEntry_badVector hg hplain hact hvec hbad
    · exact fun hact hvec hgood hreach => takeEntry_handler hg hplain hact hvec hgood hreach
  · refine ⟨⟨_, guarded_runs hr _ _, rfl, rfl, rfl, fun k => ?_⟩, ⟨_, guarded_runs hr _ _, rfl, rfl, rfl, fun k => ?_⟩⟩
    · exact trapAfter_getCtx hw hb _ k
    · exact trapAfter_getCtx hw hb _ k

end

section
/-! PROOFS. The return from a trap. -/
namespace Sys2Proof.Machine

/-- R330: what RFT does to the state in which it has read the line of TPC: the ring entry of the trap is freed, ACT is 0, and a return from
an instruction breakpoint issues its group once without breakpoint checks. `c` is the context as RFT finds it. -/
def unTrap (c : Ctx) (s : State) : State :=
  let s := if c.tcause.getLsbD 8 && c.tseq ≠ 0 then freeRing s s.coreKey (c.tseq.toNat % 65536) else s
  s.upd (fun x => { x with
    tcause := x.tcause &&& ~~~(1#64 <<< 63)
    stepBrk := if c.tcause.toNat % 256 = 0x0F && c.tinfob.getLsbD 0 then some c.tpc else x.stepBrk })

section
variable {s s0 : State} (hact : s.ctx.tcause.getLsbD 63 = true)
include hact

theorem returnTrap_stops {e : Stop} (hlook : lookAhead s s.cur s.ctx.tpc = .error e) : returnTrap s = .error e := by
  simp only [returnTrap, hact, hlook, Bool.not_true, Bool.false_eq_true, if_false]

variable (hlook : lookAhead s s.cur s.ctx.tpc = .ok s0)
include hlook

theorem returnTrap_goto (h : targetCause (unTrap s.ctx s0) (unTrap s.ctx s0).cur s.ctx.tpc false = none) :
    returnTrap s = .ok ((unTrap s.ctx s0).goto s.ctx.tpc) := by
  unfold unTrap at h ⊢
  simp only [returnTrap, hact, hlook, Bool.not_true, Bool.false_eq_true, if_false, h]

theorem returnTrap_traps {x : Nat} (h : targetCause (unTrap s.ctx s0) (unTrap s.ctx s0).cur s.ctx.tpc false = some x) :
    let u := unTrap s.ctx s0
    returnTrap s = .ok { enterTrap (u.upd (fun p => { p with pc := u.grp.first })) u.cur (unsaid u ⟨0x0B, s.ctx.tpc, 0, none⟩) false 0 with
      grp := { u.grp with trapped := true }, free := u.free + 2 } := by
  unfold unTrap at h ⊢
  simp only [returnTrap, hact, hlook, Bool.not_true, Bool.false_eq_true, if_false, h]

end

@[simp] theorem goto_ctx (s : State) (a : Word) : (s.goto a).ctx = { s.ctx with pc := a, lineBuf := none } :=
  State.ctx_upd s (fun c => { c with pc := a, lineBuf := none })

/-- R330: after the return ACT is 0. -/
theorem unTrap_act (c : Ctx) (s : State) : (unTrap c s).ctx.tcause.getLsbD 63 = false := by
  simp [unTrap]

/-- R330, R333: after the return from an instruction breakpoint the group at TPC is not checked for one. -/
theorem unTrap_stepBrk {c : Ctx} (h : c.tcause.toNat % 256 = 0x0F ∧ c.tinfob.getLsbD 0 = true) (s : State) :
    (unTrap c s).ctx.stepBrk = some c.tpc := by
  obtain ⟨h1, h2⟩ := h
  simp only [unTrap, h1, h2, decide_true, Bool.and_self, if_true, State.ctx_upd]

/-- A context that waits for nothing and has done nothing of a group stands before its next one. -/
theorem not_begun {c : Ctx} (hwait : c.wait = none) (hwalk : c.walking = none) (hsent : c.sent = [])
    (hpacket : ∀ p, c.packet = some p → p.done = 0) : begun c = false := by
  have hany : c.packet.any (fun p => p.done ≠ 0) = false := by
    cases h : c.packet with
    | none => rfl
    | some p => simp [hpacket p h]
  simp only [begun, hwait, hwalk, hsent, hany]
  rfl

/-- R206: a live context outside a trap, a capture and a phase takes its faults and errors. -/
theorem deliverable_of {s : State} {key : Nat} (hlive : (s.getCtx key).live = true) (hact : (s.getCtx key).tcause.getLsbD 63 = false)
    (hcap : (s.getCtx key).capture = none) (hphase : (s.getCore (key / 4)).phase = none) : deliverable s key = true := by
  simp only [deliverable, hlive, hact, hcap, hphase]
  rfl

/-- R206, R292: what a context with no refusal takes at its next group: a faulted entry first, then an engine error. -/
theorem pendingTrap_of {s : State} {key : Nat} (hgroup : atGroup s key = true) (href : (s.getCtx key).refusals = [])
    (hdel : deliverable s key = true) (h : (oldestFault (s.getCore (key / 4)) (key % 4)).isSome ∨ (s.getCtx key).errors ≠ []) :
    ∃ u, pendingTrap s key = some u ∧ (u = deliverFault s key ∨ u = deliverError s key) := by
  have hdue : refusalDue s key = false := by simp only [refusalDue, href]
  by_cases hfault : (oldestFault (s.getCore (key / 4)) (key % 4)).isSome = true
  · exact ⟨_, by simp only [pendingTrap, hgroup, hdue, hdel, hfault]; rfl, .inl rfl⟩
  · have herr : (s.getCtx key).errors.isEmpty = false := by simpa using h.resolve_left hfault
    rw [Bool.not_eq_true] at hfault
    exact ⟨_, by simp only [pendingTrap, hgroup, hdue, hdel, hfault, herr]; rfl, .inr rfl⟩

end Sys2Proof.Machine
end

section
open Sys2Proof Sys2Proof.Machine

/-- Settles O10: each clause is a branch of the return, and what a context takes at its next group is seen where it stands. -/
theorem trapReturn : Obligations.TrapReturn := by
  unfold Obligations.TrapReturn
  intro g s hr c enters
  have hexec : exec (.rft g) s = finish s (returnTrap s) := guarded_runs hr _ _
  refine ⟨fun hact => ?_, fun e hact hlook => ?_, fun s0 hact hlook => ?_⟩
  · rw [hexec, returnTrap_inactive hact]
    exact ⟨_, _, _, rfl, rfl, fun k => rfl⟩
  · rw [hexec, returnTrap_stops hact hlook]
  · intro s1 brk s2 t
    have hs2 : unTrap c s0 = s2 := by
      simp only [unTrap, s2, s1, brk, Bool.and_eq_true, decide_eq_true_eq]
    refine ⟨fun hgood => ⟨?_, fun hbrk is => ?_⟩, fun hbad => ?_, fun hlive hcap hphase href hwait hwalk hsent hpacket hhalf hdue => ?_⟩
    · rw [hexec, returnTrap_goto hact hlook (by rw [hs2]; exact hgood), hs2]
      rfl
    · have hstep : t.ctx.stepBrk = some c.tpc := by
        rw [goto_ctx, ← hs2]
        exact unTrap_stepBrk hbrk s0
      simp [atBreakpoint, hstep]
    · obtain ⟨x, hx⟩ := Option.isSome_iff_exists.mp hbad
      rw [hexec, returnTrap_traps hact hlook (by rw [hs2]; exact hx), hs2]
      exact ⟨_, _, rfl, rfl, fun k => rfl⟩
    · have hact' : t.ctx.tcause.getLsbD 63 = false := by
        rw [goto_ctx, ← hs2]
        exact unTrap_act c s0
      have hgroup : atGroup t t.cur = true := by
        have hbegun : begun (t.getCtx t.cur) = false := not_begun hwait hwalk hsent hpacket
        rw [atGroup, hhalf, hbegun]
        rfl
      exact pendingTrap_of hgroup href (deliverable_of hlive hact' hcap hphase) hdue

end

section
/-! PROOFS. A step of the running context runs the instruction that its line decodes to. -/
namespace Sys2Proof.Machine

/-- R54, R70: a slot that is no pair's is a group of its own. -/
theorem decodeGroup_single {sup ph : Bool} {l : Line} {j : Nat} {i : Instr} (hpair : pairAt (Bits.fld (lineWord l) 7 5) j = false)
    (hdec : decode sup ph (slotAt l j) = .ok i) : decodeGroup sup ph l j = .ok [(j, i)] := by
  unfold decodeGroup
  dsimp only
  rw [hdec]
  split
  · next h => cases h
  · next h => cases h; rfl
  · next i1 _ h => cases h; rw [hpair]; rfl

/-- The state in which a group of one instruction executes (R51, R94). -/
def issuedOne (s : State) (a : Word) (j : Nat) (i : Instr) : State :=
  { s.upd (fun x => { x with pc := nextAddr a j, wait := none, stepBrk := if x.stepBrk = some a then none else x.stepBrk }) with
    grp := { Group.idle with todo := [(j, i)], all := [(j, i)], waited := s.ctx.wait, first := a, next := nextAddr a j } }

/-- R94, R204, R242, R333: a group of one instruction whose registers are full and that nothing holds issues. -/
theorem readyGroup_single {s : State} {a : Word} {j : Nat} {i : Instr} (hph : s.inPhase = false)
    (hshape : shapeTrap { s with grp := { s.grp with slot := j } } i = none)
    (hfull : sMask (Fields.ofSlot (slotOf i)) &&& ~~~s.ctx.full &&& ~~~1#32 = 0)
    (harray : arrayHolds s.core (s.cur % 4) (Fields.ofSlot (slotOf i)) = false) (hcap : s.ctx.capture = none)
    (hbrk : atBreakpoint s a [(j, i)] = false) :
    readyGroup s a (nextAddr a j) [(j, i)] none = .group (issuedOne s a j i) := by
  unfold readyGroup
  extract_lets c fields masks u g issue v at_
  have hmasks : masks &&& ~~~c.full &&& ~~~1#32 = 0 := by
    have hone : masks = sMask (Fields.ofSlot (slotOf i)) := BitVec.zero_or
    rw [hone]
    exact hfull
  have hany : ([(j, i)] : List (Nat × Instr)).any (fun x => arrayHolds s.core (s.cur % 4) (fields x)) = false := by
    simp only [fields, List.any_cons, List.any_nil, harray, Bool.or_self]
  have hshape' : ([(j, i)] : List (Nat × Instr)).findSome? (fun x => shapeTrap (at_ x) x.2) = none := by
    have hat : shapeTrap (at_ (j, i)) i = none := hshape
    simp only [List.findSome?, hat]
  split
  · rfl
  · rw [hshape', hph, hany, hbrk]
    have hcap' : c.capture = none := hcap
    simp only [hcap', hmasks, Option.isSome_none, ne_eq, not_true_eq_false, decide_false, Bool.or_self, Bool.false_eq_true, if_false]
    rfl

/-- R52, R54, R70: the group that a context fetches at a slot of its own is the instruction there. -/
theorem fetchGroup_single {s s1 : State} {l : Line} {i : Instr} (hline : enterLine s = .ok (s1, l))
    (hfirst : firstSlot (Bits.fld (lineWord l) 7 5) (s.ctx.pc.toNat % 8) = true)
    (hpair : pairAt (Bits.fld (lineWord l) 7 5) (s.ctx.pc.toNat % 8) = false)
    (hdec : decode s1.sup s1.inPhase (slotAt l (s.ctx.pc.toNat % 8)) = .ok i) :
    fetchGroup s = readyGroup s1 s.ctx.pc (nextAddr s.ctx.pc (s.ctx.pc.toNat % 8)) [(s.ctx.pc.toNat % 8, i)] none := by
  simp only [fetchGroup, hline, hfirst, decodeGroup_single hpair hdec, Bool.not_true, Bool.false_eq_true, if_false]
  rfl

/-- The state with a context acting before its next group. -/
def actAt (s : State) (key : Nat) : State :=
  { s with cur := key, grp := { Group.idle with first := (s.getCtx key).pc, next := (s.getCtx key).pc } }

/-- R96, R101: an awake context that takes nothing before its next group, and neither follows nor leads, fetches it. -/
theorem prepare_fetch {s : State} {key : Nat} (hawake : awake s key = true) (hfull : captureFull (s.getCtx key) = false)
    (hpend : pendingTrap (actAt s key) key = none) (hhalf : mget? key s.halves = none) (hlfs : lfsMode (s.getCtx key) = 0) :
    prepare s key = fetchGroup (actAt s key) := by
  have hlfs' : lfsMode (actAt s key).ctx = 0 := hlfs
  unfold actAt at hpend hlfs' ⊢
  simp only [prepare, hawake, hfull, hpend, hhalf, hlfs']
  rfl

section
variable {ex : Instr → State → Out} {s : State}

/-- A context whose group is one instruction runs it, and what follows the group concludes. -/
theorem issueCtx_single {key j : Nat} {a : Word} {i : Instr} {s1 : State} (h : prepare s key = .group (issuedOne s1 a j i)) :
    let t := issuedOne s1 a j i
    let o := ex i { t with grp := { t.grp with slot := j, todo := [] } }
    (∀ r u, o = .next r → conclude ex t [(j, i)] r = some u → issueCtx ex s key = some (.next u)) ∧
      (∀ f, o = .fault f → issueCtx ex s key = some (.fault f)) := by
  have hrun (t : State) (ht : t.grp.todo = [(j, i)]) : runTodo ex t = ex i { t with grp := { t.grp with slot := j, todo := [] } } := by
    simp only [runTodo, ht]
  intro t o
  have hrun' : runTodo ex t = o := hrun t rfl
  refine ⟨fun r u ho hu => ?_, fun f ho => ?_⟩
  · have hu' : conclude ex t t.grp.all r = some u := hu
    simp only [issueCtx, h]
    rw [hrun', ho]
    dsimp only
    rw [hu']
    rfl
  · simp only [issueCtx, h]
    rw [hrun', ho]

/-- R96: the context in turn of a core outside a phase: the running one, or after an idle cycle the next in rotation. -/
theorem issueCore_turn {k : Nat} {o : Out} (hphase : (s.getCore k).phase = none)
    (hcap : (s.getCore k).idling = true → capturing (s.getCtx (4 * k + (s.getCore k).running.val)) = false) :
    let run := (s.getCore k).running.val
    let n := if (s.getCore k).idling then (run + 1) % 4 else run
    let s0 := if (s.getCore k).idling then switchTo s k n else s
    issueCtx ex s0 (4 * k + n) = some o → issueCore ex s k = some o := by
  intro run n s0 h
  unfold issueCore
  extract_lets c r others
  rw [hphase]
  dsimp only
  cases hidle : (s.getCore k).idling with
  | false =>
    simp only [s0, n, hidle, Bool.false_eq_true, if_false] at h
    split
    · exact h
    · rw [if_neg (by simp), show issueCtx ex s r = some o from h]
      rfl
  | true =>
    simp only [s0, n, hidle, if_true] at h
    rw [if_neg (by simp [r, c, hcap hidle]), if_pos rfl]
    simp only [others, List.map_cons, List.findSome?_cons, c]
    rw [h]

end

/-- R94, R149: with nothing on the agenda and no unit's step due, the first core in turn that can issue is the step. -/
theorem step_of_issueCore {s : State} {k : Nat} {rest : List Nat} {o : Out} (hagenda : s.agenda = [])
    (hnow : (tick (groupIssues exec) { s with steps := none }).now % 8 ≠ 0)
    (hturn : turnOrder (tick (groupIssues exec) { s with steps := none }) = k :: rest)
    (h : issueCore exec (tick (groupIssues exec) { s with steps := none }) k = some o) : step s = o := by
  unfold step stepWith
  simp only [hagenda] at hnow hturn h ⊢
  simp only [hnow, if_false, hturn, List.findSome?_cons, h]

end Sys2Proof.Machine
end

section
open Sys2Proof Sys2Proof.Machine

/-- Settles O4: the step is the first core's, the core's is its context's in turn, and that context's group is the decoded instruction. -/
theorem stepRunsDecoded : Obligations.StepRunsDecoded := by
  unfold Obligations.StepRunsDecoded
  intro s k rest s1 l i s' run idle n s0 key c at_ j w hagenda hnow hturn hphase hcap hawake hfull hpend hhalf hlfs hline hfirst hpair hdec hph
    hshape hmask harray hcapture hbrk t o
  have hdec' : decode s1.sup s1.inPhase (slotAt l (at_.ctx.pc.toNat % 8)) = .ok i := by rw [hph]; exact hdec
  have hprepare : prepare s0 key = .group t :=
    (prepare_fetch hawake hfull hpend hhalf hlfs).trans
      ((fetchGroup_single hline hfirst hpair hdec').trans (readyGroup_single hph hshape hmask harray hcapture hbrk))
  obtain ⟨hnext, hfault⟩ := issueCtx_single (ex := exec) hprepare
  refine ⟨fun r u ho hu => ?_, fun f ho => ?_⟩
  · exact step_of_issueCore hagenda hnow hturn (issueCore_turn hphase hcap (hnext r u ho hu))
  · exact step_of_issueCore hagenda hnow hturn (issueCore_turn hphase hcap (hfault f ho))

end

section
/-! PROOFS. Arrival at a barrier, its completion, and that of SEED. -/
namespace Sys2Proof.Machine

/-! ### What a context's fetch leaves of the other contexts (R119, R270) -/

/-- Every context but one is as before. -/
def Others (key : Nat) (s t : State) : Prop := ∀ j, j ≠ key → t.getCtx j = s.getCtx j

theorem Others.refl (key : Nat) (s : State) : Others key s s := fun _ _ => rfl

theorem Others.trans {key : Nat} {s t u : State} (h : Others key s t) (h' : Others key t u) : Others key s u :=
  fun j hj => (h' j hj).trans (h j hj)

theorem others_of_ctxs {key : Nat} {s t : State} (h : t.ctxs = s.ctxs) : Others key s t := fun j _ => by rw [State.getCtx, h, State.getCtx]

theorem others_setCtx (key : Nat) (s : State) (c : Ctx) : Others key s (s.setCtx key c) := fun _ hj => State.getCtx_setCtx_ne _ _ _ _ hj

/-- The other contexts are as before where a result goes on, and in what a wait leaves. -/
def OthersKept {α : Type} (key : Nat) (s : State) (f : α → State) : Res α → Prop
  | .ok a => Others key s (f a)
  | .error (.wait t) => Others key s t
  | .error _ => True

theorem OthersKept.after {α : Type} {key : Nat} {s t : State} {f : α → State} {r : Res α} (h : Others key s t) (h' : OthersKept key t f r) :
    OthersKept key s f r := by
  match r with
  | .ok _ | .error (.wait _) => exact h.trans h'
  | .error (.trap _) | .error (.after _ _) => trivial

theorem OthersKept.stop {α β : Type} {key : Nat} {s : State} {f : α → State} {g : β → State} {r : Res α} {e : Stop} (h : OthersKept key s f r)
    (he : r = .error e) : OthersKept key s g (.error e : Res β) := by
  subst he
  cases e <;> exact h

theorem OthersKept.ok {α : Type} {key : Nat} {s : State} {f : α → State} {r : Res α} {a : α} (h : OthersKept key s f r) (ha : r = .ok a) :
    Others key s (f a) := by
  rwa [ha] at h

theorem homeRead_ctxs (s : State) (who : Reader) (pa : Nat) : (homeRead s who pa).ctxs = s.ctxs := by
  simp [homeRead, apply_ite State.ctxs, ctrlSet]

theorem fillTlb_ctxs (s : State) (k : Nat) (x : Xlat) : (fillTlb s k x).ctxs = s.ctxs := by
  unfold fillTlb
  split <;> rfl

theorem consumeAt_others {α : Type} (s : State) (f : α → State) (key pa : Nat) : OthersKept key s f (consumeAt s key pa) :=
  others_setCtx key _ _

theorem homeLoad_others (s : State) (key pa : Nat) : Others key s (homeLoad s key pa) := by
  unfold homeLoad
  extract_lets k l r c t
  have ht : Others key s t := others_setCtx key r.1 _
  split <;> exact ht

theorem loadFor_others (s : State) (key pa n : Nat) : Others key s (loadFor s key pa n).1 := by
  unfold loadFor
  split
  · exact homeLoad_others s key pa
  · extract_lets t
    split
    · exact others_setCtx key t _
    · exact homeLoad_others t key pa

theorem walkLoad_others (key : Nat) (s : State) (a : Nat) : OthersKept key s Prod.fst (walkLoad key s a) := by
  unfold walkLoad
  split
  · exact others_setCtx key s _
  · extract_lets t r
    have ht : Others key s t := others_of_ctxs (homeRead_ctxs s .ctx a)
    split
    · exact ht.trans (consumeAt_others (α := State × Nat) t Prod.fst key a)
    · exact ht.trans (loadFor_others t key a 8)

theorem walkBy_others (key va : Nat) (s : State) (fuel level base : Nat) :
    OthersKept key s Prod.fst (walkBy (walkLoad key) va s fuel level base) := by
  induction fuel generalizing s level base with
  | zero => exact Others.refl key s
  | succ n ih =>
    have hread := walkLoad_others key s (base + 8 * levelIndex va level)
    unfold walkBy
    split
    · exact hread.stop ‹_›
    · have ht := hread.ok ‹_›
      split
      · exact ht
      · exact .after ht (ih _ _ _)
      · exact ht

theorem fetchAt_others (s : State) (key : Nat) (a : Word) : OthersKept key s Prod.fst (fetchAt s key a) := by
  have hwalk : OthersKept key s Prod.fst (walkStep s key (a.toNat / 64 * 64)) := by
    unfold walkStep
    dsimp only
    split
    · exact walkBy_others key _ (countWalk s (key / 4)) _ _ _
    · exact Others.refl key s
  unfold fetchAt
  split
  · exact hwalk.stop ‹_›
  · have ht := hwalk.ok ‹_›
    dsimp only
    split
    · exact ht.trans (others_of_ctxs (fillTlb_ctxs _ _ _))
    · exact ht

theorem loadRun_others (key : Nat) (s : State) (fuel : Nat) (a : Word) : OthersKept key s Prod.fst (loadRun s key fuel a) := by
  induction fuel generalizing s a with
  | zero => exact Others.refl key s
  | succ n ih =>
    have hfetch := fetchAt_others s key a
    unfold loadRun
    split
    · exact hfetch.stop ‹_›
    · exact hfetch.ok ‹_›
    · next t pa h =>
      have hread : Others key s (homeRead t .ctx pa) := (hfetch.ok h).trans (others_of_ctxs (homeRead_ctxs t .ctx pa))
      have hrest := OthersKept.after hread (ih (homeRead t .ctx pa) (a + 64))
      dsimp only
      split
      · exact .after hread (consumeAt_others _ _ key pa)
      · split
        · exact hread
        · split
          · exact hrest.stop ‹_›
          · next h =>
            have hrun := hrest.ok h
            exact hrun

/-- R270: a context that waits at PHASE and loads its run leaves the others. -/
theorem loadPhase_others (s : State) (key : Nat) (r : Reach) (sc : Fin 8) : Others key s (loadPhase s key r sc) := by
  have hrun := loadRun_others key s 512 ((s.getCtx key).pc &&& ~~~0x3F#64)
  unfold loadPhase
  split
  · exact (hrun.ok ‹_›).trans (others_setCtx key _ _)
  · next t h =>
    have ht : Others key s t := hrun.stop (g := id) h
    split
    · exact ht
    · exact ht.trans (others_setCtx key _ _)
  · exact Others.refl key s

/-- R270: loading a run leaves memory. -/
theorem loadPhase_mem (s : State) (key : Nat) (r : Reach) (sc : Fin 8) : (loadPhase s key r sc).mem = s.mem := by
  have hrun := loadRun_keeps s key 512 ((s.getCtx key).pc &&& ~~~0x3F#64)
  unfold loadPhase
  split
  · exact hrun.ok ‹_›
  · have hm : Keeps s.mem Prod.fst (.error (.wait _) : Res (State × List (Word × Line))) := hrun.stop ‹_›
    split <;> exact hm
  · rfl

/-! ### Arrival (R143, R162, R164, R165) -/

/-- R143: with no accumulate of the core under way and no residual entry being sent, a flush is done. -/
theorem flushDone_of {s : State} {k : Nat} (hres : (s.getCore k).residual = []) (hacc : ∀ m ∈ s.accs, m.src / 4 ≠ k) (bound : Nat) :
    flushDone s k bound = true := by
  have hany : s.accs.any (fun m => decide (m.src / 4 = k) && decide (m.seq < bound)) = false := by
    simp only [List.any_eq_false, Bool.and_eq_true, decide_eq_true_eq, not_and]
    exact fun m hm he => absurd he (hacc m hm)
  simp only [flushDone, hres, List.any_nil]
  rw [hany]
  rfl

/-- R164: absorbing answers and discards changes only the timestamp of a context, and what it has absorbed. -/
theorem absorb_ctx (s : State) (key : Nat) (r : Reach) (whole : Bool) :
    ((absorbDiscards (absorbAnswers s key r whole) key r).getCtx key).s = (s.getCtx key).s ∧
    ((absorbDiscards (absorbAnswers s key r whole) key r).getCtx key).behind = (s.getCtx key).behind ∧
    ((absorbDiscards (absorbAnswers s key r whole) key r).getCtx key).answers =
      (s.getCtx key).answers.filter (fun a => !covers r (key / 4 / 4096) a.1) := by
  simp [absorbDiscards, absorbAnswers]

/-- R143, R165: where a flush has nothing to wait for, the context waits for what follows. -/
theorem endFlush_ctx (s : State) (key : Nat) (r : Reach) {after : After} (hphase : ∀ sc, after ≠ .phase sc) (hflush : after ≠ .rflush) :
    ((endFlush s key r after).getCtx key).wait = afterFlush [] after ∧ ((endFlush s key r after).getCtx key).s = (s.getCtx key).s := by
  have hs := (absorb_ctx s key r true).1
  have hend : endFlush s key r after = (absorbDiscards (absorbAnswers s key r true) key r).setCtx key
      { (absorbDiscards (absorbAnswers s key r true) key r).getCtx key with wait := afterFlush [] after } := by
    unfold endFlush
    dsimp only
    rw [if_neg hflush]
    cases after with
    | phase sc => exact absurd rfl (hphase sc)
    | rflush | bar | sstep | seed | joined => rfl
  rw [hend, State.getCtx_setCtx_same]
  exact ⟨rfl, hs⟩

/-- R165: where nothing is left to flush, the acting context waits at once for what follows. -/
theorem startFlush_arrives {s : State} (hres : s.core.residual = []) (hacc : ∀ m ∈ s.accs, m.src / 4 ≠ s.coreKey) (hwait : s.ctx.wait = none)
    (r : Reach) (after : After) : startFlush s r after = endFlush s s.cur r after := by
  have hsend : sendResidual s (s.cur / 4) r s.cur = s := by
    have hres' : (s.getCore (s.cur / 4)).residual = [] := hres
    simp only [sendResidual, hres', List.filter_nil, List.foldl_nil]
  have hdone := flushDone_of (k := s.cur / 4) hres hacc (s.getCore (s.cur / 4)).accNo
  simp only [startFlush, hwait, Option.isNone_none, if_true, beginFlush, hsend, hdone]

theorem endFlush_cur (s : State) (r : Reach) {after : After} (hphase : ∀ sc, after ≠ .phase sc) :
    (endFlush s s.cur r after).cur = s.cur := by
  unfold endFlush
  cases after with
  | phase sc => exact absurd rfl (hphase sc)
  | rflush | bar | sstep | seed | joined => rfl

/-- R165, R187, R339: an arrival with nothing to flush: the acting context waits at its barrier, with its registers and memory as before. -/
theorem startFlush_waits {s : State} (hres : s.core.residual = []) (hacc : ∀ m ∈ s.accs, m.src / 4 ≠ s.coreKey) (hwait : s.ctx.wait = none)
    (r : Reach) {after : After} (hphase : ∀ sc, after ≠ .phase sc) (hflush : after ≠ .rflush) :
    (startFlush s r after).ctx.wait = afterFlush [] after ∧ (startFlush s r after).mem = s.mem ∧ (startFlush s r after).ctx.s = s.ctx.s := by
  rw [startFlush_arrives hres hacc hwait, State.ctx, endFlush_cur s r hphase]
  obtain ⟨hw, hs⟩ := endFlush_ctx s s.cur r hphase hflush
  exact ⟨hw, endFlush_mem _ _ _ _, hs⟩

/-- R162, R164, R194: a fence without an accumulate of its context under way is done. -/
theorem fence_passes {s : State} (hacc : ∀ m ∈ s.accs, m.src ≠ s.cur) (hbehind : s.ctx.behind = none) (r : Reach) (bound : Nat) :
    let t := tryFlush (s.upd (fun c => { c with wait := some (.fence r bound) })) s.cur
    t.ctx.wait = none ∧ t.ctx.s = s.ctx.s ∧ ∀ x ∈ t.ctx.answers, x ∈ s.ctx.answers ∧ covers r (s.coreKey / 4096) x.1 = false := by
  set u := s.upd (fun c => { c with wait := some (.fence r bound) }) with hu
  have huctx : u.getCtx s.cur = { s.ctx with wait := some (.fence r bound) } := State.ctx_upd s _
  have hdone : fenceDone u s.cur r bound = true := by
    have haccs : u.accs = s.accs := rfl
    simp only [fenceDone, haccs, Bool.not_eq_true', List.any_eq_false]
    intro m hm
    simp [hacc m hm]
  set v := absorbDiscards (absorbAnswers u s.cur r false) s.cur r with hv
  obtain ⟨hs, hb, hans⟩ := absorb_ctx u s.cur r false
  rw [← hv, huctx] at hs hb hans
  have hnext : nextFlush (v.setCtx s.cur { v.getCtx s.cur with wait := none }) s.cur = v.setCtx s.cur { v.getCtx s.cur with wait := none } := by
    unfold nextFlush
    simp only [State.getCtx_setCtx_same, hb, hbehind]
  have ht : tryFlush u s.cur = v.setCtx s.cur { v.getCtx s.cur with wait := none } := by
    unfold tryFlush
    simp only [huctx, hdone, if_true]
    rw [← hv, hnext]
  have hctx : (tryFlush u s.cur).ctx = { v.getCtx s.cur with wait := none } := by
    rw [ht]
    exact State.getCtx_setCtx_same v s.cur _
  simp only [hctx, hs, hans, true_and]
  intro x hx
  obtain ⟨hin, hcov⟩ := List.mem_filter.mp hx
  exact ⟨hin, (Bool.not_eq_true' _).mp hcov⟩

end Sys2Proof.Machine
end

section
/-! PROOFS. The completion of a barrier (R53, R165, R186). -/
namespace Sys2Proof.Machine

/-! ### What a pass over contexts makes of one of them -/

section
variable {f : State → Nat → State} (hothers : ∀ s k, Others k s (f s k)) {keys : List Nat} {j : Nat}
include hothers

/-- A pass leaves a context that it does not come to. -/
theorem foldl_off (hj : j ∉ keys) (s : State) : (keys.foldl f s).getCtx j = s.getCtx j := by
  induction keys generalizing s with
  | nil => rfl
  | cons k keys ih =>
    rw [List.mem_cons, not_or] at hj
    rw [List.foldl_cons, ih hj.2, hothers s k j hj.1]

/-- A pass that comes to a context changes it as its step does, where a second step changes it no further. -/
theorem foldl_on {φ : Ctx → Ctx} {good : Ctx → Prop} (hstep : ∀ s, good (s.getCtx j) → (f s j).getCtx j = φ (s.getCtx j))
    (hgood : ∀ c, good c → good (φ c)) (hidem : ∀ c, good c → φ (φ c) = φ c) (hj : j ∈ keys) {s : State} (h : good (s.getCtx j)) :
    (keys.foldl f s).getCtx j = φ (s.getCtx j) := by
  induction keys generalizing s with
  | nil => simp at hj
  | cons k keys ih =>
    rw [List.foldl_cons]
    by_cases hk : j = k
    · subst hk
      have hfirst := hstep s h
      by_cases hin : j ∈ keys
      · rw [ih hin (by rw [hfirst]; exact hgood _ h), hfirst, hidem _ h]
      · rw [foldl_off hothers hin, hfirst]
    · have hsame := hothers s k j hk
      rw [ih ((List.mem_cons.mp hj).resolve_left hk) (by rw [hsame]; exact h), hsame]

end

/-! ### The passes (R53, R165, R186) -/

/-- R165: the greatest of the timestamps of contexts. -/
def topPts (s : State) (keys : List Nat) : Nat := keys.foldl (fun t k => max t (s.getCtx k).pts) 0

theorem foldl_max_ge (s : State) (keys : List Nat) (n : Nat) : n ≤ keys.foldl (fun t k => max t (s.getCtx k).pts) n := by
  induction keys generalizing n with
  | nil => exact le_refl n
  | cons k keys ih => exact (le_max_left _ _).trans (ih _)

theorem pts_le_foldl_max {s : State} {keys : List Nat} {j : Nat} (hj : j ∈ keys) (n : Nat) :
    (s.getCtx j).pts ≤ keys.foldl (fun t k => max t (s.getCtx k).pts) n := by
  induction keys generalizing n with
  | nil => simp at hj
  | cons k keys ih =>
    rcases List.mem_cons.mp hj with rfl | hj
    · exact (le_max_right _ _).trans (foldl_max_ge s keys _)
    · exact ih hj _

theorem pts_le_topPts {s : State} {keys : List Nat} {j : Nat} (hj : j ∈ keys) : (s.getCtx j).pts ≤ topPts s keys := pts_le_foldl_max hj 0

theorem joinPts_off {s : State} {keys : List Nat} {j : Nat} (hj : j ∉ keys) : (joinPts s keys).getCtx j = s.getCtx j :=
  foldl_off (f := fun u k => u.setCtx k { u.getCtx k with pts := topPts s keys }) (fun _ _ => others_setCtx _ _ _) hj s

theorem joinPts_on {s : State} {keys : List Nat} {j : Nat} (hj : j ∈ keys) :
    (joinPts s keys).getCtx j = { s.getCtx j with pts := topPts s keys } :=
  foldl_on (f := fun u k => u.setCtx k { u.getCtx k with pts := topPts s keys }) (fun _ _ => others_setCtx _ _ _)
    (φ := fun c => { c with pts := topPts s keys }) (good := fun _ => True)
    (fun u _ => State.getCtx_setCtx_same u j _) (fun _ _ => trivial) (fun _ _ => rfl) hj trivial

section
variable {a b : After} {c : Ctx} {r : Reach} {n : Nat}

theorem joinArrival_flush (h : c.wait = some (.flush r b n)) :
    joinArrival a c = if b = a then { c with wait := some (.flush r .joined n) } else c := by
  simp only [joinArrival, h]

theorem joinArrival_behind (hw : ∀ r b n, c.wait ≠ some (.flush r b n)) (hb : c.behind = some (r, b)) :
    joinArrival a c = if b = a then { c with behind := some (r, .joined) } else c := by
  unfold joinArrival
  split
  · exact absurd ‹_› (hw _ _ _)
  · next h _ => cases hb.symm.trans h; rfl
  · next h => exact absurd hb (h r b)

theorem joinArrival_neither (hw : ∀ r b n, c.wait ≠ some (.flush r b n)) (hb : c.behind = none) : joinArrival a c = c := by
  unfold joinArrival
  split
  · exact absurd ‹_› (hw _ _ _)
  · next h _ => cases hb.symm.trans h
  · rfl

/-- R186: a context that has joined an arrival joins it no further. -/
theorem joinArrival_idem (h : a ≠ .joined) (c : Ctx) : joinArrival a (joinArrival a c) = joinArrival a c := by
  by_cases hw : ∃ r b n, c.wait = some (.flush r b n)
  · obtain ⟨r, b, n, hw⟩ := hw
    rw [joinArrival_flush hw]
    split
    · rw [joinArrival_flush (r := r) (b := .joined) (n := n) rfl, if_neg h.symm]
    · rw [joinArrival_flush hw, if_neg ‹_›]
  · have hw' : ∀ r b n, c.wait ≠ some (.flush r b n) := fun r b n e => hw ⟨r, b, n, e⟩
    cases hb : c.behind with
    | none => rw [joinArrival_neither hw' hb, joinArrival_neither hw' hb]
    | some x =>
      obtain ⟨r, b⟩ := x
      rw [joinArrival_behind hw' hb]
      split
      · rw [joinArrival_behind (c := { c with behind := some (r, .joined) }) hw' rfl, if_neg h.symm]
      · rw [joinArrival_behind hw' hb, if_neg ‹_›]

end

theorem joinAll_off {s : State} (a : After) {keys : List Nat} {j : Nat} (hj : j ∉ keys) : (joinAll s a keys).getCtx j = s.getCtx j :=
  foldl_off (f := fun u k => u.setCtx k (joinArrival a (u.getCtx k))) (fun _ _ => others_setCtx _ _ _) hj s

theorem joinAll_on {s : State} {a : After} (ha : a ≠ .joined) {keys : List Nat} {j : Nat} (hj : j ∈ keys) :
    (joinAll s a keys).getCtx j = joinArrival a (s.getCtx j) :=
  foldl_on (f := fun u k => u.setCtx k (joinArrival a (u.getCtx k))) (fun _ _ => others_setCtx _ _ _)
    (φ := joinArrival a) (good := fun _ => True)
    (fun u _ => State.getCtx_setCtx_same u j _) (fun _ _ => trivial) (fun c _ => joinArrival_idem ha c) hj trivial

/-- A context waits at PHASE with a loaded run. -/
def AtPhase (c : Ctx) : Prop := ∃ sc run, c.wait = some (.phase sc run)

/-- The step of a fetch afresh. -/
def refetchOne (s : State) (key : Nat) : State :=
  if !(s.getCtx key).live then s
  else
    let s := s.setCtx key { s.getCtx key with lineBuf := none }
    match (s.getCtx key).wait with
    | some (.phase sc _) => loadPhase s key (barrierReach sc.val) sc
    | _ => s

theorem refetch_eq (s : State) (ks : List Nat) : refetch s ks = (ctxsOf ks).foldl refetchOne s := rfl

theorem refetchOne_others (s : State) (key : Nat) : Others key s (refetchOne s key) := by
  unfold refetchOne
  split
  · exact Others.refl key s
  · have hset := others_setCtx key s { s.getCtx key with lineBuf := none }
    dsimp only
    split
    · exact hset.trans (loadPhase_others _ _ _ _)
    · exact hset

theorem refetchOne_mem (s : State) (key : Nat) : (refetchOne s key).mem = s.mem := by
  unfold refetchOne
  split
  · rfl
  · dsimp only
    split
    · exact loadPhase_mem _ _ _ _
    · rfl

/-- R53: a live context that does not wait at PHASE fetches its line afresh. -/
theorem refetchOne_ctx {s : State} {key : Nat} (hlive : (s.getCtx key).live = true) (hwait : ¬ AtPhase (s.getCtx key)) :
    (refetchOne s key).getCtx key = { s.getCtx key with lineBuf := none } := by
  unfold refetchOne
  rw [if_neg (by simp [hlive])]
  dsimp only
  split
  · next sc run h =>
    rw [State.getCtx_setCtx_same] at h
    exact absurd ⟨sc, run, h⟩ hwait
  · exact State.getCtx_setCtx_same _ _ _

theorem refetch_mem (s : State) (ks : List Nat) : (refetch s ks).mem = s.mem := by
  rw [refetch_eq, mem_foldl _ refetchOne_mem]

theorem refetch_off {s : State} {ks : List Nat} {j : Nat} (hj : j ∉ ctxsOf ks) : (refetch s ks).getCtx j = s.getCtx j := by
  rw [refetch_eq, foldl_off refetchOne_others hj s]

theorem refetch_on {s : State} {ks : List Nat} {j : Nat} (hj : j ∈ ctxsOf ks) (hlive : (s.getCtx j).live = true) (hwait : ¬ AtPhase (s.getCtx j)) :
    (refetch s ks).getCtx j = { s.getCtx j with lineBuf := none } :=
  foldl_on refetchOne_others (φ := fun c => { c with lineBuf := none }) (good := fun c => c.live = true ∧ ¬ AtPhase c)
    (fun _ h => refetchOne_ctx h.1 h.2) (fun _ h => h) (fun _ _ => rfl) hj ⟨hlive, hwait⟩

/-- A context whose wait ends, with no flush behind it, goes on. -/
theorem nextFlush_none {s : State} {key : Nat} (h : (s.getCtx key).behind = none) : nextFlush s key = s := by
  unfold nextFlush
  dsimp only
  split
  · next hb => cases h.symm.trans hb
  · rfl

/-- R186: contexts that go on with no flush behind them. -/
theorem releaseWaits_eq {keys : List Nat} {s : State} (h : ∀ k ∈ keys, (s.getCtx k).behind = none) :
    releaseWaits s keys = keys.foldl (fun s k => s.setCtx k { s.getCtx k with wait := none }) s := by
  induction keys generalizing s with
  | nil => rfl
  | cons k keys ih =>
    have hfirst : nextFlush (s.setCtx k { s.getCtx k with wait := none }) k = s.setCtx k { s.getCtx k with wait := none } :=
      nextFlush_none (by rw [State.getCtx_setCtx_same]; exact h k List.mem_cons_self)
    have hrest : ∀ j ∈ keys, ((s.setCtx k { s.getCtx k with wait := none }).getCtx j).behind = none := by
      intro j hj
      by_cases hjk : j = k
      · rw [hjk, State.getCtx_setCtx_same]; exact h k List.mem_cons_self
      · rw [State.getCtx_setCtx_ne _ _ _ _ hjk]; exact h j (List.mem_cons_of_mem _ hj)
    have hih := ih hrest
    unfold releaseWaits at hih ⊢
    rw [List.foldl_cons, List.foldl_cons, hfirst, hih]

theorem releaseWaits_off {keys : List Nat} {s : State} (h : ∀ k ∈ keys, (s.getCtx k).behind = none) {j : Nat} (hj : j ∉ keys) :
    (releaseWaits s keys).getCtx j = s.getCtx j := by
  rw [releaseWaits_eq h]
  exact foldl_off (fun _ _ => others_setCtx _ _ _) hj s

theorem releaseWaits_on {keys : List Nat} {s : State} (h : ∀ k ∈ keys, (s.getCtx k).behind = none) {j : Nat} (hj : j ∈ keys) :
    (releaseWaits s keys).getCtx j = { s.getCtx j with wait := none } := by
  rw [releaseWaits_eq h]
  exact foldl_on (f := fun u k => u.setCtx k { u.getCtx k with wait := none }) (fun _ _ => others_setCtx _ _ _)
    (φ := fun c => { c with wait := none }) (good := fun _ => True)
    (fun u _ => State.getCtx_setCtx_same u j _) (fun _ _ => trivial) (fun _ _ => rfl) hj trivial

theorem releaseWaits_mem (s : State) (keys : List Nat) : (releaseWaits s keys).mem = s.mem :=
  mem_foldl _ (fun _ _ => by rw [nextFlush_mem]; rfl) _ _

/-! ### The contexts of a unit -/

theorem mem_ctxsOf {ks : List Nat} {key : Nat} : key ∈ ctxsOf ks ↔ key / 4 ∈ ks := by
  simp only [ctxsOf, List.mem_flatMap, List.map_cons, List.map_nil, List.mem_cons, List.not_mem_nil, or_false]
  constructor
  · rintro ⟨k, hk, hkey⟩
    have : key / 4 = k := by omega
    rwa [this]
  · exact fun h => ⟨key / 4, h, by omega⟩

theorem mem_barWaiters {s : State} {ks : List Nat} {scope : Fin 8} {key : Nat} :
    key ∈ barWaiters s ks scope ↔ key / 4 ∈ ks ∧ (s.getCtx key).live = true ∧ (s.getCtx key).wait = some (.bar scope) := by
  rw [← mem_ctxsOf]
  simp only [barWaiters, ctxsOf, List.mem_flatMap, List.mem_filter, Bool.and_eq_true, beq_iff_eq]
  constructor
  · rintro ⟨k, hk, hkey, hl, hw⟩
    exact ⟨⟨k, hk, hkey⟩, hl, hw⟩
  · rintro ⟨⟨k, hk, hkey⟩, hl, hw⟩
    exact ⟨k, hk, hkey, hl, hw⟩

theorem mem_joiners {s : State} {a : After} {ks : List Nat} {key : Nat} :
    key ∈ joiners s a ks ↔ key / 4 ∈ ks ∧ (s.getCtx key).live = true ∧ joinArrival a (s.getCtx key) ≠ s.getCtx key := by
  simp only [joiners, List.mem_filter, mem_ctxsOf, Bool.and_eq_true, bne_iff_ne]

/-! ### What completion makes of each context -/

section
variable {s : State} {ks : List Nat} {scope : Fin 8}

/-- R165, R186: the state in which the contexts of a unit have joined at a barrier. -/
def joined (s : State) (ks : List Nat) (scope : Fin 8) : State :=
  joinAll (joinPts s (barWaiters s ks scope ++ joiners s (.bar scope) ks)) (.bar scope) (joiners s (.bar scope) ks)

theorem joined_off {j : Nat} (hw : j ∉ barWaiters s ks scope) (hj : j ∉ joiners s (.bar scope) ks) : (joined s ks scope).getCtx j = s.getCtx j := by
  rw [joined, joinAll_off _ hj, joinPts_off (fun h => (List.mem_append.mp h).elim hw hj)]

theorem waiter_joinArrival {j : Nat} (hw : j ∈ barWaiters s ks scope) (hb : (s.getCtx j).behind = none) (a : After) :
    joinArrival a (s.getCtx j) = s.getCtx j := by
  obtain ⟨-, -, hwait⟩ := mem_barWaiters.mp hw
  exact joinArrival_neither (fun _ _ _ h => by cases hwait.symm.trans h) hb

theorem joined_waiter {j : Nat} (hw : j ∈ barWaiters s ks scope) (hb : (s.getCtx j).behind = none) :
    (joined s ks scope).getCtx j =
      { s.getCtx j with pts := topPts s (barWaiters s ks scope ++ joiners s (.bar scope) ks) } := by
  have hj : j ∉ joiners s (.bar scope) ks := fun h => (mem_joiners.mp h).2.2 (waiter_joinArrival hw hb _)
  rw [joined, joinAll_off _ hj, joinPts_on (List.mem_append_left _ hw)]

theorem flush_mem_joiners {j : Nat} (hin : j / 4 ∈ ks) (hlive : (s.getCtx j).live = true) {r : Reach} {b : Nat}
    (hwait : (s.getCtx j).wait = some (.flush r (.bar scope) b)) : j ∈ joiners s (.bar scope) ks := by
  refine mem_joiners.mpr ⟨hin, hlive, fun h => ?_⟩
  rw [joinArrival_flush hwait, if_pos rfl] at h
  cases hwait.symm.trans (congrArg Ctx.wait h).symm

theorem joined_flush {j : Nat} (hin : j / 4 ∈ ks) (hlive : (s.getCtx j).live = true) {r : Reach} {b : Nat}
    (hwait : (s.getCtx j).wait = some (.flush r (.bar scope) b)) :
    (joined s ks scope).getCtx j =
      { s.getCtx j with pts := topPts s (barWaiters s ks scope ++ joiners s (.bar scope) ks), wait := some (.flush r .joined b) } := by
  have hj := flush_mem_joiners hin hlive hwait
  rw [joined, joinAll_on (a := .bar scope) (by simp) hj, joinPts_on (List.mem_append_right _ hj)]
  have hjoin := joinArrival_flush (a := .bar scope)
    (c := { s.getCtx j with pts := topPts s (barWaiters s ks scope ++ joiners s (.bar scope) ks) }) hwait
  rw [hjoin, if_pos rfl]

theorem joined_mem : (joined s ks scope).mem = s.mem := by
  unfold joined joinAll joinPts
  refine (mem_foldl _ (fun t key => ?_) _ _).trans (mem_foldl _ (fun t key => ?_) _ _) <;> rfl

/-- R53, R165: completion with its passes. -/
def completed (s : State) (ks : List Nat) (scope : Fin 8) : State :=
  releaseWaits (refetch (joined s ks scope) ks) (barWaiters s ks scope)

theorem completed_mem : (completed s ks scope).mem = s.mem := by
  rw [completed, releaseWaits_mem, refetch_mem, joined_mem]

theorem exec_barrierComplete {k : Nat} (hrun : (s.getGang (s.getCore k).gang).st = .running)
    (hks : gangUnit (s.getGang (s.getCore k).gang) scope.val k ≠ [])
    (hall : ∀ c ∈ gangUnit (s.getGang (s.getCore k).gang) scope.val k,
      ∃ key ∈ barWaiters s (gangUnit (s.getGang (s.getCore k).gang) scope.val k) scope, key / 4 = c) :
    exec (.barrierComplete k scope) s = .next (completed s (gangUnit (s.getGang (s.getCore k).gang) scope.val k) scope) := by
  show execBarrierComplete k scope s = _
  unfold execBarrierComplete
  extract_lets g ks keys joining t
  have hcond : ¬ (decide (g.st ≠ .running) || ks.isEmpty || ks.any (fun c => !keys.any (fun key => decide (key / 4 = c)))) = true := by
    have hempty : ks.isEmpty = false := by simpa using hks
    have hany : ks.any (fun c => !keys.any (fun key => decide (key / 4 = c))) = false := by
      rw [List.any_eq_false]
      intro c hc
      obtain ⟨key, hkey, hcore⟩ := hall c hc
      simpa using ⟨key, hkey, hcore⟩
    have hst : g.st = .running := hrun
    simp [hst, hempty, hany]
  rw [if_neg hcond]
  rfl

variable (hb : ∀ key ∈ barWaiters s ks scope, (s.getCtx key).behind = none)
include hb

theorem refetched_waiter {j : Nat} (hw : j ∈ barWaiters s ks scope) :
    (refetch (joined s ks scope) ks).getCtx j =
      { s.getCtx j with pts := topPts s (barWaiters s ks scope ++ joiners s (.bar scope) ks), lineBuf := none } := by
  obtain ⟨hin, hlive, hwait⟩ := mem_barWaiters.mp hw
  have hctx := joined_waiter hw (hb j hw)
  have hphase : ¬ AtPhase ((joined s ks scope).getCtx j) := by
    rw [hctx]
    rintro ⟨sc, run, h⟩
    cases hwait.symm.trans h
  rw [refetch_on (mem_ctxsOf.mpr hin) (by rw [hctx]; exact hlive) hphase, hctx]

theorem refetched_behind : ∀ key ∈ barWaiters s ks scope, ((refetch (joined s ks scope) ks).getCtx key).behind = none := by
  intro key hkey
  rw [refetched_waiter hb hkey]
  exact hb key hkey

/-- R53, R165: a context that has waited at the barrier goes on with the joined timestamp, and fetches afresh. -/
theorem completed_waiter {j : Nat} (hw : j ∈ barWaiters s ks scope) :
    (completed s ks scope).getCtx j =
      { s.getCtx j with pts := topPts s (barWaiters s ks scope ++ joiners s (.bar scope) ks), lineBuf := none, wait := none } := by
  rw [completed, releaseWaits_on (refetched_behind hb) hw, refetched_waiter hb hw]

theorem completed_off {j : Nat} (hw : j ∉ barWaiters s ks scope) :
    (completed s ks scope).getCtx j = (refetch (joined s ks scope) ks).getCtx j := by
  rw [completed, releaseWaits_off (refetched_behind hb) hw]

/-- R53: no context of another core changes. -/
theorem completed_other {j : Nat} (hj : j / 4 ∉ ks) : (completed s ks scope).getCtx j = s.getCtx j := by
  have hw : j ∉ barWaiters s ks scope := fun h => hj (mem_barWaiters.mp h).1
  rw [completed_off hb hw, refetch_off (fun h => hj (mem_ctxsOf.mp h)), joined_off hw (fun h => hj (mem_joiners.mp h).1)]

/-- R53: a live context of the unit that is not concerned fetches its line afresh. -/
theorem completed_bystander {j : Nat} (hin : j / 4 ∈ ks) (hw : j ∉ barWaiters s ks scope) (hlive : (s.getCtx j).live = true)
    (hjoin : joinArrival (.bar scope) (s.getCtx j) = s.getCtx j) (hphase : ¬ AtPhase (s.getCtx j)) :
    (completed s ks scope).getCtx j = { s.getCtx j with lineBuf := none } := by
  have hctx : (joined s ks scope).getCtx j = s.getCtx j := joined_off hw (fun h => (mem_joiners.mp h).2.2 hjoin)
  rw [completed_off hb hw, refetch_on (mem_ctxsOf.mpr hin) (by rw [hctx]; exact hlive) (by rw [hctx]; exact hphase), hctx]

/-- R186: a context that has issued the same BAR and still flushes joins with it. -/
theorem completed_flush {j : Nat} (hin : j / 4 ∈ ks) (hw : j ∉ barWaiters s ks scope) (hlive : (s.getCtx j).live = true) {r : Reach} {b : Nat}
    (hwait : (s.getCtx j).wait = some (.flush r (.bar scope) b)) :
    ((completed s ks scope).getCtx j).wait = some (.flush r .joined b) ∧ (s.getCtx j).pts ≤ ((completed s ks scope).getCtx j).pts := by
  have hctx := joined_flush hin hlive hwait
  have hphase : ¬ AtPhase ((joined s ks scope).getCtx j) := by
    rw [hctx]
    rintro ⟨sc, run, h⟩
    cases h
  have hj := flush_mem_joiners hin hlive hwait
  rw [completed_off hb hw, refetch_on (mem_ctxsOf.mpr hin) (by rw [hctx]; exact hlive) hphase, hctx]
  exact ⟨rfl, pts_le_topPts (List.mem_append_right _ hj)⟩

end

end Sys2Proof.Machine
end

section
/-! PROOFS. The completion of SEED (R339). -/
namespace Sys2Proof.Machine

/-! ### Lists and maps -/

/-- What the step of one element establishes and every step keeps, holds after a fold that comes to it. -/
theorem foldl_after {α σ : Type} {f : σ → α → σ} {P : σ → Prop} {xs : List α} {x : α} (hx : x ∈ xs) (hstep : ∀ s, P (f s x))
    (hkeep : ∀ s y, P s → P (f s y)) (s : σ) : P (xs.foldl f s) := by
  induction xs generalizing s with
  | nil => simp at hx
  | cons y xs ih =>
    rw [List.foldl_cons]
    rcases List.mem_cons.mp hx with rfl | hx
    · exact foldl_induct (fun t z _ => hkeep t z) (hstep s)
    · exact ih hx _

theorem mem_of_mget? {α : Type} {k : Nat} {x : α} {m : SMap α} (h : mget? k m = some x) : (k, x) ∈ m := by
  induction m with
  | nil => simp [mget?] at h
  | cons e m ih =>
    obtain ⟨j, y⟩ := e
    by_cases hj : j = k
    · simp only [mget?, hj, if_true, Option.some.injEq] at h
      simp [hj, h]
    · simp only [mget?, hj, if_false] at h
      exact List.mem_cons_of_mem _ (ih h)

/-- A map from which a key has been taken has no value there. -/
theorem mget?_filter_out {α : Type} {p : Nat → Bool} {k : Nat} (h : p k = false) (m : SMap α) : mget? k (m.filter (fun e => p e.1)) = none := by
  induction m with
  | nil => rfl
  | cons e m ih =>
    obtain ⟨j, y⟩ := e
    by_cases hp : p j = true
    · have hj : j ≠ k := fun e => by rw [e, h] at hp; cases hp
      rw [List.filter_cons_of_pos (by exact hp)]
      simp only [mget?, hj, if_false]
      exact ih
    · rw [List.filter_cons_of_neg (by exact hp)]
      exact ih

/-! ### Changes of contexts alone -/

/-- Nothing but the contexts has changed. -/
def CtxsOnly (s t : State) : Prop := ∃ c, t = { s with ctxs := c }

theorem CtxsOnly.foldl {α : Type} {f : State → α → State} (hf : ∀ s x, CtxsOnly s (f s x)) (xs : List α) (s : State) :
    CtxsOnly s (xs.foldl f s) := by
  induction xs generalizing s with
  | nil => exact ⟨_, rfl⟩
  | cons x xs ih =>
    obtain ⟨c, hc⟩ := hf s x
    obtain ⟨d, hd⟩ := ih (f s x)
    exact ⟨d, by rw [List.foldl_cons, hd, hc]⟩

theorem CtxsOnly.trans {s t u : State} : CtxsOnly s t → CtxsOnly t u → CtxsOnly s u := by
  rintro ⟨_, rfl⟩ ⟨c, rfl⟩
  exact ⟨c, rfl⟩

theorem joinPts_ctxsOnly (s : State) (keys : List Nat) : CtxsOnly s (joinPts s keys) :=
  CtxsOnly.foldl (f := fun u k => u.setCtx k { u.getCtx k with pts := topPts s keys }) (fun _ _ => ⟨_, rfl⟩) keys s

theorem releaseWaits_ctxsOnly {s : State} {keys : List Nat} (h : ∀ k ∈ keys, (s.getCtx k).behind = none) : CtxsOnly s (releaseWaits s keys) := by
  rw [releaseWaits_eq h]
  exact CtxsOnly.foldl (fun _ _ => ⟨_, rfl⟩) keys s

/-! ### Writing a line back (R154, R347) -/

theorem logLine_lines_ctxs (s : State) (g l : Nat) : (logLine s g l).lines = s.lines ∧ (logLine s g l).ctxs = s.ctxs := by
  unfold logLine
  dsimp only
  split
  · exact ⟨rfl, rfl⟩
  · split
    · split <;> exact ⟨rfl, rfl⟩
    · exact ⟨rfl, rfl⟩

theorem writeBackLine_ctxs (s : State) (l : Nat) : (writeBackLine s l).ctxs = s.ctxs := by
  unfold writeBackLine
  dsimp only
  split
  · rfl
  · exact (logLine_lines_ctxs s _ l).2

/-- A line that is not dirty has nothing to write back. -/
theorem writeBackLine_clean {s : State} {l : Nat} (h : (s.getLine l).dirty = none) : writeBackLine s l = s := by
  unfold writeBackLine
  simp only [h, Option.isNone_none, if_true]

/-- R154: a line that has been written back is not dirty. -/
theorem writeBackLine_same (s : State) (l : Nat) : ((writeBackLine s l).getLine l).dirty = none := by
  by_cases h : (s.getLine l).dirty = none
  · rw [writeBackLine_clean h, h]
  · unfold writeBackLine
    dsimp only
    rw [if_neg (by simpa using h)]
    show (State.getLine (State.setLine _ l _) l).dirty = none
    simp [State.getLine, State.setLine, mget_mset_same]

theorem writeBackLine_ne (s : State) {l j : Nat} (h : j ≠ l) : (writeBackLine s l).getLine j = s.getLine j := by
  unfold writeBackLine
  dsimp only
  split
  · rfl
  · show mget LineMeta.reset j (mset l _ (logLine s _ l).lines) = _
    rw [mget_mset_ne _ _ _ _ _ h, (logLine_lines_ctxs s _ l).1]
    rfl

/-- A line that is not dirty stays so when another is written back. -/
theorem writeBackLine_stays {s : State} {j : Nat} (h : (s.getLine j).dirty = none) (l : Nat) : ((writeBackLine s l).getLine j).dirty = none := by
  by_cases hj : j = l
  · rw [hj]; exact writeBackLine_same s l
  · rw [writeBackLine_ne s hj, h]

/-- No gang has a shadow area (R346). -/
def NoShadow (s : State) : Prop := ∀ y, (s.getGang y).shadow = 0

theorem setGang_noShadow {s : State} (h : NoShadow s) {g : Nat} {x : Gang} (hx : x.shadow = 0) : NoShadow (s.setGang g x) := by
  intro y
  by_cases hy : y = g
  · rw [hy, State.getGang_setGang_same, hx]
  · rw [State.getGang_setGang_ne _ _ _ _ hy, h y]

/-- R347: without shadow areas nothing is logged in memory. -/
theorem logLine_noShadow {s : State} (h : NoShadow s) (g l : Nat) : (logLine s g l).mem = s.mem ∧ NoShadow (logLine s g l) := by
  have hrec (dw : Nat) : faultRec s g dw = none := by simp [faultRec, h g]
  unfold logLine
  dsimp only
  split
  · exact ⟨rfl, h⟩
  · simp only [hrec]
    exact ⟨rfl, setGang_noShadow h (h g)⟩

theorem writeBackLine_noShadow {s : State} (h : NoShadow s) (l : Nat) : (writeBackLine s l).mem = s.mem ∧ NoShadow (writeBackLine s l) := by
  unfold writeBackLine
  dsimp only
  split
  · exact ⟨rfl, h⟩
  · exact logLine_noShadow h _ l

/-- R339: a line of a gang's packages. -/
def homedAt (x : Gang) (l : Nat) : Bool := paReg (l * 64) = 0 && (gangPkgs x).contains (paPkg (l * 64))

/-- The dirty lines of a gang's packages, written back. -/
def writtenBack (s : State) (x : Gang) : State :=
  (s.lines.filter (fun l => homedAt x l.1 && l.2.dirty.isSome)).foldl (fun s l => writeBackLine s l.1) s

/-- No core holds a copy of a line of a gang's packages, or holds one dirty. -/
def copiesDropped (s : State) (x : Gang) : State :=
  { s with cores := s.cores.map (fun (c : Nat × Core) => (c.1, { c.2 with
      leases := c.2.leases.filter (fun l => !homedAt x l.1), stored := c.2.stored.filter (fun l => !homedAt x l) })) }

theorem writtenBack_ctxs (s : State) (x : Gang) : (writtenBack s x).ctxs = s.ctxs := by
  refine foldl_keeps State.ctxs _ (fun t l => ?_) _ s
  exact writeBackLine_ctxs t l.1

theorem writtenBack_clean {x : Gang} {l : Nat} (hl : homedAt x l = true) (s : State) : ((writtenBack s x).getLine l).dirty = none := by
  by_cases h : (s.getLine l).dirty = none
  · exact foldl_induct (P := fun t : State => (t.getLine l).dirty = none) (fun t y _ ht => writeBackLine_stays ht y.1) h
  · have hsome : (s.getLine l).dirty.isSome = true := by rw [Option.isSome_iff_ne_none]; exact h
    obtain ⟨m, hm⟩ : ∃ m, mget? l s.lines = some m := by
      cases hq : mget? l s.lines with
      | some m => exact ⟨m, rfl⟩
      | none => exact absurd (by simp [State.getLine, mget, hq, LineMeta.reset]) h
    have hget : s.getLine l = m := by simp [State.getLine, mget, hm]
    have hin : (l, m) ∈ s.lines.filter (fun l => homedAt x l.1 && l.2.dirty.isSome) := by
      rw [List.mem_filter]
      exact ⟨mem_of_mget? hm, by rw [hl, ← hget, hsome]; rfl⟩
    exact foldl_after (P := fun t : State => (t.getLine l).dirty = none) hin (fun t => writeBackLine_same t l)
      (fun t y ht => writeBackLine_stays ht y.1) s

/-- R347: what writing the lines back does to memory is to log them. -/
theorem writtenBack_mem {s : State} {x : Gang} (h : NoShadow s ∨ ∀ l, homedAt x l = true → (s.getLine l).dirty = none) :
    (writtenBack s x).mem = s.mem := by
  rcases h with h | h
  · refine (foldl_induct (P := fun t : State => t.mem = s.mem ∧ NoShadow t) (fun t y _ ht => ?_) ⟨rfl, h⟩).1
    obtain ⟨hm, hs⟩ := writeBackLine_noShadow ht.2 y.1
    exact ⟨hm.trans ht.1, hs⟩
  · refine congrArg State.mem (foldl_induct (P := fun t : State => t = s) (fun t y hy ht => ?_) rfl)
    have hhome : homedAt x y.1 = true := by
      have := (List.mem_filter.mp hy).2
      simp only [Bool.and_eq_true] at this
      exact this.1
    rw [ht]
    exact writeBackLine_clean (h y.1 hhome)

/-- R339: no core holds a lease copy of a line of the gang's packages. -/
theorem copiesDropped_leases {x : Gang} {l : Nat} (hl : homedAt x l = true) (s : State) (k : Nat) :
    mget? l ((copiesDropped s x).getCore k).leases = none := by
  have hcore : (copiesDropped s x).getCore k = { s.getCore k with
      leases := (s.getCore k).leases.filter (fun l => !homedAt x l.1), stored := (s.getCore k).stored.filter (fun l => !homedAt x l) } :=
    mget_map Core.reset (fun c => { c with
      leases := c.leases.filter (fun l => !homedAt x l.1), stored := c.stored.filter (fun l => !homedAt x l) }) rfl k s.cores
  rw [hcore]
  exact mget?_filter_out (p := fun l => !homedAt x l) (by simp [hl]) _

/-- R339: SEED has completed with a value. -/
def seeded (s : State) (g : Nat) (seed : Nat) : State :=
  let keys := (seedWaiters s g).map (·.1)
  let t := copiesDropped (writtenBack (releaseWaits (joinPts s keys) keys) (s.getGang g)) (s.getGang g)
  t.setGang g { t.getGang g with seed := seed }

theorem exec_seedComplete {s : State} {v : Word} (hrun : (s.getGang s.subject).st = .running) (hcores : (s.getGang s.subject).cores ≠ [])
    (hpoison : (s.getGang s.subject).consumed = none) (hall : ∀ k ∈ (s.getGang s.subject).cores, ∃ w ∈ seedWaiters s s.subject, w.1 / 4 = k)
    (hsame : ∀ w ∈ seedWaiters s s.subject, w.2.toNat % 2 ^ 38 = v.toNat % 2 ^ 38) (hidle : chainsIdle s s.subject = true) :
    exec .seedComplete s = .next (seeded s s.subject (v.toNat % 2 ^ 38)) := by
  show execSeedComplete s = _
  unfold execSeedComplete
  extract_lets g x ws seed
  have hseed : seed = v.toNat % 2 ^ 38 := by
    obtain ⟨k, ks, hk⟩ := List.exists_cons_of_ne_nil hcores
    obtain ⟨w, hw, -⟩ := hall k (by rw [hk]; exact List.mem_cons_self)
    obtain ⟨y, ys, hy⟩ := List.exists_cons_of_ne_nil (List.ne_nil_of_mem hw)
    have hhead : ws.headD (0, 0) = y := by simp only [ws, g, hy, List.headD_cons]
    simp only [seed, hhead]
    exact hsame y (by rw [hy]; exact List.mem_cons_self)
  have harrived : x.cores.any (fun k => !ws.any (fun w => decide (w.1 / 4 = k))) = false := by
    rw [List.any_eq_false]
    intro k hk
    obtain ⟨w, hw, hcore⟩ := hall k hk
    simpa using ⟨w.1, ⟨w.2, hw⟩, hcore⟩
  have hready : ¬ (decide (x.st ≠ .running) || x.cores.isEmpty || x.consumed.isSome ||
      x.cores.any (fun k => !ws.any (fun w => decide (w.1 / 4 = k)))) = true := by
    have hst : x.st = .running := hrun
    have hempty : x.cores.isEmpty = false := by simpa using hcores
    have hnone : x.consumed = none := hpoison
    rw [harrived]
    simp [hst, hempty, hnone]
  have hagree : ¬ ws.any (fun w => decide (w.2.toNat % 2 ^ 38 ≠ seed)) = true := by
    simp only [List.any_eq_true, decide_eq_true_eq, not_exists, not_and, not_not]
    exact fun w hw => (hsame w hw).trans hseed.symm
  have hidle' : ¬ (!chainsIdle s g) = true := by
    rw [show chainsIdle s g = true from hidle]
    simp
  rw [if_neg hready, if_neg hagree, if_neg hidle', ← hseed]
  rfl

section
variable {s : State} (hb : ∀ w ∈ seedWaiters s s.subject, (s.getCtx w.1).behind = none)
include hb

theorem seeders_behind : ∀ k ∈ (seedWaiters s s.subject).map (·.1),
    ((joinPts s ((seedWaiters s s.subject).map (·.1))).getCtx k).behind = none := by
  intro k hk
  obtain ⟨w, hw, rfl⟩ := List.mem_map.mp hk
  rw [joinPts_on hk]
  exact hb w hw

theorem released_ctxsOnly (keys : List Nat) (hkeys : keys = (seedWaiters s s.subject).map (·.1)) :
    CtxsOnly s (releaseWaits (joinPts s keys) keys) := by
  subst hkeys
  exact (joinPts_ctxsOnly s _).trans (releaseWaits_ctxsOnly (seeders_behind hb))

/-- R339: every waiting context goes on. -/
theorem seeded_waits {w : Nat × Word} (hw : w ∈ seedWaiters s s.subject) (seed : Nat) : ((seeded s s.subject seed).getCtx w.1).wait = none := by
  have hkey : w.1 ∈ (seedWaiters s s.subject).map (·.1) := List.mem_map_of_mem hw
  have hctxs : (seeded s s.subject seed).ctxs =
      (releaseWaits (joinPts s ((seedWaiters s s.subject).map (·.1))) ((seedWaiters s s.subject).map (·.1))).ctxs :=
    writtenBack_ctxs _ _
  rw [State.getCtx, hctxs]
  exact congrArg Ctx.wait (releaseWaits_on (seeders_behind hb) hkey)

/-- R339: what SEED does to memory is to log the lines it writes back. -/
theorem seeded_mem (seed : Nat) (h : NoShadow s ∨ ∀ l, homedAt (s.getGang s.subject) l = true → (s.getLine l).dirty = none) :
    (seeded s s.subject seed).mem = s.mem := by
  obtain ⟨c, hc⟩ := released_ctxsOnly hb _ rfl
  show (writtenBack _ _).mem = _
  rw [hc]
  exact writtenBack_mem (s := { s with ctxs := c }) h

end

/-- R339: after SEED no line of the gang's packages is dirty, and no core holds a copy of one. -/
theorem seeded_lines {s : State} {l : Nat} (hl : homedAt (s.getGang s.subject) l = true) (seed : Nat) :
    ((seeded s s.subject seed).getLine l).dirty = none ∧ ∀ k, mget? l ((seeded s s.subject seed).getCore k).leases = none :=
  ⟨writtenBack_clean hl _, copiesDropped_leases hl _⟩

end Sys2Proof.Machine
end

section
open Sys2Proof Sys2Proof.Machine

/-- Settles O42: arrivals with nothing to flush, the passes of a barrier's completion, and those of SEED's. -/
theorem barriers : Obligations.Barriers := by
  unfold Obligations.Barriers
  refine ⟨fun g scope r a s hr => ⟨fun hres hacc hwait => ⟨fun hscope => ?_, ?_, ?_⟩, fun hwide => ?_, fun hacc hbehind => ?_⟩,
    fun s k scope => ?_, fun s v => ?_⟩
  · exact ⟨_, (guarded_runs hr _ _).trans (congrArg (finish s) (if_neg (Nat.not_lt.mpr hscope))),
      startFlush_waits hres hacc hwait _ nofun nofun⟩
  · exact ⟨_, guarded_runs hr _ _, startFlush_waits hres hacc hwait _ nofun nofun⟩
  · exact ⟨_, guarded_runs hr _ _, startFlush_waits hres hacc hwait _ nofun nofun⟩
  · exact ⟨_, _, (guarded_runs hr _ _).trans (congrArg (finish s) (if_pos hwide))⟩
  · obtain ⟨hw, hs, hans⟩ := fence_passes hacc hbehind r s.core.accNo
    exact ⟨_, guarded_runs hr _ _, hw, tryFlush_mem _ _, hs, hans⟩
  · intro g ks keys hrun hks hall hb
    refine ⟨completed s ks scope, exec_barrierComplete hrun hks hall, completed_mem, fun key hkey => ?_, fun key hkey => completed_other hb hkey,
      fun key hin hkey hlive => ⟨fun hjoin hphase => ?_, fun r b hflush => completed_flush hb hin hkey hlive hflush⟩⟩
    · rw [completed_waiter hb hkey]
      refine ⟨rfl, rfl, pts_le_topPts (List.mem_append_left _ hkey), fun j hj => ?_⟩
      rw [completed_waiter hb hj]
    · exact completed_bystander hb hin hkey hlive hjoin (fun ⟨sc, run, h⟩ => hphase sc run h)
  · intro g x ws homed hrun hcores hpoison hall hsame hidle hb
    have hhomed (l : Nat) : homedAt x l = true ↔ homed l := by
      simp only [homedAt, homed, Bool.and_eq_true, decide_eq_true_eq]
    refine ⟨seeded s s.subject (v.toNat % 2 ^ 38), exec_seedComplete hrun hcores hpoison hall hsame hidle, ?_, fun h => ?_,
      fun w hw => seeded_waits hb hw _, fun l hl => seeded_lines ((hhomed l).mpr hl) _⟩
    · exact congrArg Gang.seed (State.getGang_setGang_same _ _ _)
    · exact seeded_mem hb _ (h.imp id (fun h l hl => h l ((hhomed l).mp hl)))

end

section
/-! PROOFS. The dispatch of a vector form on v registers (R198, R202, R205). -/
namespace Sys2Proof.Machine
open Sys2Proof.Laws

/-! ### The groups that a form's word names (R60, R202) -/

/-- R202: the group that a specifier names, if it is a v register. -/
def specGroup (x : BitVec 8) (n : Nat) : List (Nat × Nat) := if clsOf x == .v then [(x.toNat % 32, n)] else []

theorem vGroups_vector {f : Fields} (h : 0x72 ≤ f.op.toNat ∧ f.op.toNat ≤ 0x99) (sh : Vec.Shape) :
    vGroups f sh =
      (specGroup f.d (if f.op.toNat = 0x8B ∨ f.op.toNat = 0x8D ∨ f.op.toNat = 0x99 then 1
          else if f.op.toNat = 0x98 then sh.n (Ty.ofCode f.t).bits else sh.rows),
        specGroup f.a (if f.op.toNat = 0x8C then 1 else sh.rows) ++ specGroup f.b sh.rows ++
          specGroup f.c (if f.op.toNat = 0x99 then 1 else sh.rows)) := by
  obtain ⟨h1, h2⟩ := h
  simp [vGroups, specGroup, h1, h2, or_assoc]

@[simp] theorem specGroup_vSpec (r : Fin 32) (n : Nat) : specGroup (vSpec r) n = [(r.val, n)] := by
  have hcls : (clsOf (vSpec r) == .v) = true := by revert r; decide
  have hnum : (vSpec r).toNat % 32 = r.val := by revert r; decide
  rw [specGroup, hcls, hnum]
  rfl

theorem specGroup_none {x : BitVec 8} (h : clsOf x ≠ .v) (n : Nat) : specGroup x n = [] := by
  rw [specGroup, if_neg (by simpa using h)]

@[simp] theorem specGroup_sSpec (r : Fin 32) (n : Nat) : specGroup (sSpec r) n = [] :=
  specGroup_none (by revert r; decide) n

@[simp] theorem specGroup_absent (n : Nat) : specGroup 255#8 n = [] := specGroup_none (by decide) n

@[simp] theorem specGroup_optS (r : Option (Fin 32)) (n : Nat) : specGroup (optS r) n = [] := by
  cases r with
  | none => exact specGroup_absent n
  | some r => exact specGroup_sSpec r n

@[simp] theorem specGroup_optV (r : Option (Fin 32)) (n : Nat) : specGroup (optV r) n = r.toList.map (fun r => (r.val, n)) := by
  cases r with
  | none => exact specGroup_absent n
  | some r => exact specGroup_vSpec r n

/-- R60: an operand's specifier is of class v where the operand is a v register. -/
theorem clsOf_spec_eq_v {o : Opnd} : clsOf o.spec = .v ↔ vOpnds [o] ≠ [] := by
  cases o with
  | s n => revert n; decide
  | v n => revert n; decide
  | t n => revert n; decide
  | a n => revert n; decide
  | b n => revert n; decide
  | p n => revert n; decide
  | link l => cases l with
    | near l d => revert l; cases d <;> decide
    | far l e => revert l e; decide
  | imm i => revert i; decide
  | none => decide

@[simp] theorem specGroup_spec (o : Opnd) (n : Nat) : specGroup o.spec n = (vOpnds [o]).map (fun r => (r.val, n)) := by
  by_cases h : clsOf o.spec = .v
  · cases o with
    | v r => exact specGroup_vSpec r n
    | s r | t r | a r | b r | p r | link r | imm r | none => exact absurd rfl (clsOf_spec_eq_v.mp h)
  · rw [specGroup_none h, not_ne_iff.mp (mt clsOf_spec_eq_v.mpr h), List.map_nil]

/-- R60, R70: the operands of a word that passes the checks are of the classes that its form accepts. -/
theorem classOk_of_check {f : Fields} {r : Form} (h : check true f = none) (hop : f.op ≠ 0) (hform : form f.op.toNat = some r) :
    r.d.classOk f.d = true ∧ r.a.classOk f.a = true ∧ r.b.classOk f.b = true ∧ r.c.classOk f.c = true := by
  rw [check, if_neg hop, hform] at h
  dsimp only at h
  split at h
  · cases h
  · split at h
    · cases h
    · split at h
      · cases h
      · next hcls =>
        simp only [Bool.not_eq_true', Bool.not_eq_false, Bool.and_eq_true] at hcls
        obtain ⟨⟨⟨⟨hd, ha⟩, hb⟩, hc⟩, -⟩ := hcls
        exact ⟨hd, ha, hb, hc⟩

/-- An operand of a class other than v names no v register. -/
theorem vOpnds_none {cs : List Cls} {o : Opnd} (h : (Pos.uses cs).classOk o.spec = true) (hv : Cls.v ∉ cs) : vOpnds [o] = [] := by
  by_contra hne
  have hcls : clsOf o.spec ∈ cs := by simpa [Pos.classOk] using h
  rw [clsOf_spec_eq_v.mpr hne] at hcls
  exact hv hcls

theorem vOpnds_pair (a b : Opnd) : vOpnds [a, b] = vOpnds [a] ++ vOpnds [b] := by
  simp [vOpnds, List.filterMap_cons]
  cases a <;> rfl

/-- R202, R210: the groups of a vector form, by their numbers. -/
def numbered (gs : List (Fin 32 × Nat)) : List (Nat × Nat) := gs.map (fun x => (x.1.val, x.2))

/-- R202: the word of a well-formed vector form names the groups of the form. -/
theorem mem_vGroups {i : Instr} {f : Fields} {g : Guard} {gs : List (Fin 32 × Nat)} {sh : Vec.Shape} (hw : WellFormed i) (hf : i.fields = some f)
    (h : vectorGroups sh i = some (g, gs)) (y : Nat × Nat) : y ∈ (vGroups f sh).1 ++ (vGroups f sh).2 ↔ y ∈ numbered gs := by
  cases i
  case vmov | vadd | vsub | vmul | vdiv | vsqrt | vmin | vmax | vabs | vneg | vcmp | vand | vor | vxor | vshl | vshr | vsha | vcvt | vscan | vperm |
      vsf | vmacw | vaddw | vclass | vround =>
    cases hf
    cases h
    rw [vGroups_vector ⟨by simp, by simp⟩]
    simp [numbered]
  case vfma | vfms | vfnma =>
    cases hf
    cases h
    rw [vGroups_vector ⟨by simp, by simp⟩]
    simp [numbered, vOpnds_pair]
  case vsel =>
    cases hf
    cases h
    rw [vGroups_vector ⟨by simp, by simp⟩]
    simp only [numbered, vOpnds_pair]
    simp
    exact or_congr_right (by rw [← or_assoc, or_comm])
  case vpack =>
    cases hf
    simp only [vectorGroups, Option.ite_none_right_eq_some, Option.some.injEq, Prod.mk.injEq] at h
    obtain ⟨-, rfl, rfl⟩ := h
    rw [vGroups_vector ⟨by simp, by simp⟩]
    simp [numbered, or_comm]
  case vunpk =>
    cases hf
    simp only [vectorGroups, Option.ite_none_right_eq_some, Option.some.injEq, Prod.mk.injEq] at h
    obtain ⟨-, rfl, rfl⟩ := h
    rw [vGroups_vector ⟨by simp, by simp⟩]
    simp [numbered]
  case vtrn =>
    cases hf
    simp only [vectorGroups, Option.ite_none_right_eq_some, Option.some.injEq, Prod.mk.injEq] at h
    obtain ⟨-, rfl, rfl⟩ := h
    rw [vGroups_vector ⟨by simp, by simp⟩]
    simp [numbered, or_comm]
  case vdot =>
    cases hf
    cases h
    rw [vGroups_vector ⟨by simp, by simp⟩]
    simp [numbered]
    tauto
  case vred =>
    cases hf
    cases h
    rw [vGroups_vector ⟨by simp, by simp⟩]
    simp [numbered, or_comm]
  case vbcast =>
    obtain ⟨-, -, hb, -⟩ := classOk_of_check (hw _ rfl) (by simp) rfl
    cases hf
    cases h
    rw [vGroups_vector ⟨by simp, by simp⟩]
    simp [numbered, vOpnds_none hb (by decide)]
  case vext =>
    obtain ⟨-, -, hb, -⟩ := classOk_of_check (hw _ rfl) (by simp) rfl
    cases hf
    cases h
    rw [vGroups_vector ⟨by simp, by simp⟩]
    simp [numbered, vOpnds_none hb (by decide)]
  case vins =>
    obtain ⟨-, ha, hb, -⟩ := classOk_of_check (hw _ rfl) (by simp) rfl
    cases hf
    cases h
    rw [vGroups_vector ⟨by simp, by simp⟩]
    simp [numbered, vOpnds_none ha (by decide), vOpnds_none hb (by decide)]
  case vslide =>
    obtain ⟨-, -, hb, -⟩ := classOk_of_check (hw _ rfl) (by simp) rfl
    cases hf
    cases h
    rw [vGroups_vector ⟨by simp, by simp⟩]
    simp [numbered, vOpnds_none hb (by decide)]
  all_goals cases h

/-- R218, R220: a vector form that names groups under a shape accepts the shape. -/
theorem shape_accepted {i : Instr} {f : Fields} {g : Guard} {gs : List (Fin 32 × Nat)} {sh : Vec.Shape} (hf : i.fields = some f)
    (h : vectorGroups sh i = some (g, gs)) :
    (f.op.toNat = 0x8B → Vec.packShapeOk sh (Ty.ofCode (f.imm.setWidth 4)).bits = true) ∧
    (f.op.toNat = 0x8C → Vec.packShapeOk sh (Ty.ofCode f.t).bits = true) ∧ (f.op.toNat = 0x98 → sh.n (Ty.ofCode f.t).bits ≤ 8) := by
  cases i
  case vpack g d a src =>
    cases hf
    simp only [vectorGroups, Option.ite_none_right_eq_some] at h
    have hsrc : (immOf [(0, src.code.toNat)]).setWidth 4 = src.code := by cases src <;> rfl
    refine ⟨fun _ => ?_, by simp, by simp⟩
    show Vec.packShapeOk sh (Ty.ofCode ((immOf [(0, src.code.toNat)]).setWidth 4)).bits = true
    rw [hsrc, ty_of_code]
    exact h.1
  case vunpk g t rc d a =>
    cases hf
    simp only [vectorGroups, Option.ite_none_right_eq_some] at h
    refine ⟨by simp, fun _ => ?_, by simp⟩
    rw [ty_of_code]
    exact h.1
  case vtrn g t d a =>
    cases hf
    simp only [vectorGroups, Option.ite_none_right_eq_some] at h
    refine ⟨by simp, by simp, fun _ => ?_⟩
    rw [ty_of_code]
    exact h.1
  case vmov | vadd | vsub | vmul | vdiv | vsqrt | vmin | vmax | vabs | vneg | vcmp | vand | vor | vxor | vshl | vshr | vsha | vcvt | vscan | vperm |
      vsf | vmacw | vaddw | vclass | vround | vfma | vfms | vfnma | vsel | vdot | vred | vbcast | vext | vins | vslide =>
    cases hf
    simp
  all_goals cases h

/-- R202: the only cause of decode of a vector form that accepts the shape is a group that passes v31. -/
theorem shapeCause_vector {i : Instr} {f : Fields} {g : Guard} {gs : List (Fin 32 × Nat)} {c : Ctx} (hw : WellFormed i) (hf : i.fields = some f)
    (h : vectorGroups (Vec.Shape.ofWord c.vsh.toNat) i = some (g, gs)) (hcap : c.capture = none) :
    shapeCause c c.vsh f = if ∃ x ∈ gs, 32 < x.1.val + x.2 then some 0x08 else none := by
  obtain ⟨hpack, hunpk, htrn⟩ := shape_accepted hf h
  unfold shapeCause
  extract_lets op sh shift groups
  have hshift : shift = 0 := by
    simp only [shift, hcap, Option.elim]
    split <;> rfl
  have hany : ((groups.1 ++ groups.2).any (fun x => decide (32 < x.1 + shift + x.2)) = true) ↔ ∃ x ∈ gs, 32 < x.1.val + x.2 := by
    simp only [List.any_eq_true, decide_eq_true_eq, hshift, add_zero, groups]
    constructor
    · rintro ⟨y, hy, hpast⟩
      obtain ⟨x, hx, rfl⟩ := List.mem_map.mp ((mem_vGroups hw hf h y).mp hy)
      exact ⟨x, hx, hpast⟩
    · rintro ⟨x, hx, hpast⟩
      exact ⟨(x.1.val, x.2), (mem_vGroups hw hf h _).mpr (List.mem_map_of_mem hx), hpast⟩
  have hok : ¬ ((decide (op = 0x8B) && !Vec.packShapeOk sh (Ty.ofCode (f.imm.setWidth 4)).bits) ||
      (decide (op = 0x8C) && !Vec.packShapeOk sh (Ty.ofCode f.t).bits) || (decide (op = 0x98) && decide (8 < sh.n (Ty.ofCode f.t).bits))) = true := by
    simp only [Bool.or_eq_true, Bool.and_eq_true, decide_eq_true_eq, Bool.not_eq_true', not_or, not_and, Bool.not_eq_false, Nat.not_lt]
    exact ⟨⟨hpack, hunpk⟩, htrn⟩
  by_cases hpast : ∃ x ∈ gs, 32 < x.1.val + x.2
  · rw [if_pos (hany.mpr hpast), if_pos hpast]
  · rw [if_neg (fun e => hpast (hany.mp e)), if_neg hok, if_neg hpast]

theorem shapeTrap_vector {s : State} {i : Instr} {g : Guard} {gs : List (Fin 32 × Nat)} (hw : WellFormed i)
    (h : vectorGroups (Vec.Shape.ofWord s.view.vsh.toNat) i = some (g, gs)) (hcap : s.view.capture = none) :
    shapeTrap s i = if ∃ x ∈ gs, 32 < x.1.val + x.2 then some ⟨0x08, (slotInfo s i).1, (slotInfo s i).2, none⟩ else none := by
  obtain ⟨f, hf⟩ : ∃ f, i.fields = some f := by
    cases i
    case vpack | vunpk | vtrn => exact ⟨_, rfl⟩
    all_goals cases h <;> exact ⟨_, rfl⟩
  have hslot : Fields.ofSlot (slotOf i) = f := by
    rw [slotOf, encode_eq_slot, hf]
    exact ofSlot_slot f
  rw [shapeTrap, hslot, shapeCause_vector hw hf h hcap]
  split <;> rfl

/-! ### The dispatch (R198, R205) -/

/-- R198: a form that names groups is a vector form under its guard. -/
theorem exec_vecForm {i : Instr} {g : Guard} {gs : List (Fin 32 × Nat)} {sh : Vec.Shape} (h : vectorGroups sh i = some (g, gs)) (s : State) :
    exec i s = guardedShape s i g (dispatchVec s i) := by
  cases i
  case vpack | vunpk | vtrn =>
    simp only [vectorGroups, Option.ite_none_right_eq_some, Option.some.injEq, Prod.mk.injEq] at h
    obtain ⟨-, rfl, -⟩ := h
    rfl
  all_goals cases h <;> rfl

/-- R205: a form is entered under the next TSEQ where its ring entry is free. -/
theorem ringSlot_free {s : State} (h : (s.core.entry (nextTseq s.core.tseq)).state = 0) (i : Instr) :
    ringSlot s i = .ok (nextTseq s.core.tseq) := by
  simp [ringSlot, h]

/-- The acting context with the s destination of a form empty. -/
def emptyDest (s : State) (i : Instr) : State :=
  match vecDest i with
  | some d => s.upd (fun c => c.setEmpty d)
  | none => s

/-- The state after a form has been performed and entered in the ring under `q`, with its entry. -/
def entered (s : State) (i : Instr) (q : Nat) (e : RingEntry) : State :=
  (enterRing (emptyDest s i) q e).updCore (fun c => { c with seq := c.seq ++ [q] })

/-- R198, R204: a vector form that names groups is no gather or scatter: it is performed on the v registers. -/
theorem performVec_vector {i : Instr} {g : Guard} {gs : List (Fin 32 × Nat)} {sh : Vec.Shape} (h : vectorGroups sh i = some (g, gs))
    (s : State) (e : RingEntry) : performVec s i e 0 =
      .ok (s.upd (fun x => { x with v := mergeV s.view.v (Vec.run i (capOf e 0) s.view.v).v x.v }))
        (Vec.run i (capOf e 0) s.view.v).res (Vec.run i (capOf e 0) s.view.v).fl := by
  unfold performVec
  split
  · cases h
  · cases h
  · rfl

/-- R198, R205: a vector form that may be dispatched is performed and entered. -/
theorem dispatchVec_vector {i : Instr} {g : Guard} {gs : List (Fin 32 × Nat)} {sh : Vec.Shape} {s : State}
    (h : vectorGroups sh i = some (g, gs)) (hready : DispatchReady s) (hseq : s.core.seq.length < 16) :
    let q := nextTseq s.core.tseq
    let o := Vec.run i (capOf (entryFor s i q) 0) s.view.v
    dispatchVec s i = .ok (entered (s.upd (fun x => { x with v := mergeV s.view.v o.v x.v })) i q
      { entryFor s i q with flags := o.fl, dest := vecDest i, result := o.res.getD 0 }) := by
  obtain ⟨hcap, hfree⟩ := hready
  intro q o
  unfold dispatchVec
  rw [ringSlot_free hfree, seqFree, if_neg (Nat.not_le.mpr hseq), hcap]
  show enterPerformed i q (entryFor s i q) (performVec s i (entryFor s i q) 0) = _
  rw [performVec_vector h]
  unfold enterPerformed entered emptyDest
  rfl

section
variable (s : State) (i : Instr) (q : Nat) (e : RingEntry)

theorem emptyDest_core : (emptyDest s i).core = s.core ∧ (emptyDest s i).coreKey = s.coreKey := by
  unfold emptyDest
  split <;> exact ⟨rfl, rfl⟩

theorem entered_core : (entered s i q e).core = { s.core with tseq := q, ring := mset (q % 64) e s.core.ring, seq := s.core.seq ++ [q] } := by
  have hcore := (emptyDest_core s i).1
  rw [entered, State.core_updCore, enterRing, State.core_updCore, hcore]

theorem entered_entry : (entered s i q e).core.entry q = e := by
  rw [entered_core]
  exact mget_mset_same _ _ _ _

theorem entered_mem : (entered s i q e).mem = s.mem := by
  show (emptyDest s i).mem = _
  unfold emptyDest
  split <;> rfl

/-- R94: an s destination that is made empty changes no register's value. -/
theorem setEmpty_rest (c : Ctx) (d : Fin 32) : (c.setEmpty d).v = c.v ∧ (c.setEmpty d).p = c.p ∧ (c.setEmpty d).s = c.s := by
  unfold Ctx.setEmpty
  split <;> exact ⟨rfl, rfl, rfl⟩

theorem setEmpty_full (c : Ctx) {d : Fin 32} (hd : d ≠ 0) : (c.setEmpty d).full.getLsbD d.val = false := by
  simp [Ctx.setEmpty, hd]

theorem emptyDest_ctx : (emptyDest s i).ctx.v = s.ctx.v ∧ (emptyDest s i).ctx.p = s.ctx.p ∧ (emptyDest s i).ctx.s = s.ctx.s := by
  unfold emptyDest
  split
  · rw [State.ctx_upd]
    exact setEmpty_rest s.ctx _
  · exact ⟨rfl, rfl, rfl⟩

theorem emptyDest_full {d : Fin 32} (h : vecDest i = some d) (hd : d ≠ 0) : (emptyDest s i).ctx.full.getLsbD d.val = false := by
  simp only [emptyDest, h, State.ctx_upd]
  exact setEmpty_full s.ctx hd

theorem entered_getCtx_ne {k : Nat} (hk : k ≠ s.cur) : (entered s i q e).getCtx k = s.getCtx k := by
  show (emptyDest s i).getCtx k = _
  unfold emptyDest
  split
  · exact State.getCtx_upd_ne s _ k hk
  · rfl

end

end Sys2Proof.Machine
end

section
open Sys2Proof Sys2Proof.Machine

/-- Settles O30: the checks of decode come to the groups that the form names, and its dispatch performs it and enters it in the ring. -/
theorem vectorForms : Obligations.VectorForms := by
  unfold Obligations.VectorForms
  refine ⟨fun s i g gs hw hcap hgs hr hfit hready hseq => ?_, fun s i g gs hw hcap hgs hpast => ?_⟩
  · intro q o
    have hnone : ¬ ∃ x ∈ gs, 32 < x.1.val + x.2 := fun ⟨x, hx, hlt⟩ => Nat.not_lt.mpr (hfit x hx) hlt
    have htrap : shapeTrap s i = none := by rw [shapeTrap_vector hw hgs hcap, if_neg hnone]
    have hexec := (exec_vecForm hgs s).trans ((guardedShape_none htrap g _).trans (guarded_runs hr i _))
    rw [dispatchVec_vector hgs hready hseq] at hexec
    set u := s.upd (fun x => { x with v := mergeV s.view.v o.v x.v }) with hu
    obtain ⟨hv, hp, hs⟩ := emptyDest_ctx u i
    have huctx : u.ctx = { s.ctx with v := mergeV s.view.v o.v s.ctx.v } := State.ctx_upd s _
    have hentry := entered_entry u i q { entryFor s i q with flags := o.fl, dest := vecDest i, result := o.res.getD 0 }
    refine ⟨_, hexec, ⟨by rw [entered_core], ?_, ?_, ?_, ?_, ?_⟩, ?_, by rw [entered_core]; rfl, ?_, ?_, ?_,
      fun d hd hd0 => emptyDest_full u i hd hd0, fun a => ?_, ?_, ?_, fun k hk => ?_⟩
    iterate 5 exact (congrArg _ hentry).trans rfl
    · exact hv.trans (congrArg Ctx.v huctx)
    iterate 3 exact congrArg _ hentry
    · rw [entered_mem, hu]
      rfl
    · exact hp.trans (by rw [huctx])
    · exact hs.trans (by rw [huctx])
    · rw [entered_getCtx_ne u i q _ hk, hu, State.getCtx_upd_ne s _ k hk]
  · rw [exec_vecForm hgs s, guardedShape_trap (by rw [shapeTrap_vector hw hgs hcap, if_pos hpast])]

end

section
/-! PROOFS. The elements of the v registers (R200, R202). -/
namespace Sys2Proof.Vec

/-! ### A field of a number -/

/-- The parts of a number whose field has been replaced: below, in and above the field. -/
theorem setFld_parts (x n lo v : Nat) :
    Bits.setFld x n lo v % 2 ^ lo = x % 2 ^ lo ∧ Bits.setFld x n lo v / 2 ^ lo = 2 ^ n * (x / 2 ^ lo / 2 ^ n) + v % 2 ^ n := by
  have hx : x = 2 ^ lo * (2 ^ n * (x / 2 ^ lo / 2 ^ n) + x / 2 ^ lo % 2 ^ n) + x % 2 ^ lo := by
    rw [Nat.div_add_mod, Nat.div_add_mod]
  have hset : Bits.setFld x n lo v = x % 2 ^ lo + 2 ^ lo * (2 ^ n * (x / 2 ^ lo / 2 ^ n) + v % 2 ^ n) := by
    unfold Bits.setFld
    rw [Nat.shiftRight_eq_div_pow]
    generalize x / 2 ^ lo / 2 ^ n = h at *
    generalize x / 2 ^ lo % 2 ^ n = mid at *
    generalize x % 2 ^ lo = low at *
    rw [hx, mul_add, mul_add, mul_comm mid, mul_comm (v % 2 ^ n)]
    omega
  have hlow : x % 2 ^ lo < 2 ^ lo := Nat.mod_lt _ (Nat.two_pow_pos lo)
  rw [hset]
  exact ⟨by rw [Nat.add_mul_mod_self_left, Nat.mod_mod], by rw [Nat.add_mul_div_left _ _ (Nat.two_pow_pos lo), Nat.div_eq_of_lt hlow, zero_add]⟩

/-- The bits of a number whose field has been replaced. -/
theorem testBit_setFld (x n lo v i : Nat) :
    (Bits.setFld x n lo v).testBit i = if lo ≤ i ∧ i < lo + n then v.testBit (i - lo) else x.testBit i := by
  obtain ⟨hlow, hhigh⟩ := setFld_parts x n lo v
  by_cases hi : i < lo
  · have h := congrArg (Nat.testBit · i) hlow
    simp only [Nat.testBit_mod_two_pow, hi, decide_true, Bool.true_and] at h
    rw [if_neg (by omega), h]
  · obtain ⟨j, rfl⟩ := Nat.exists_eq_add_of_le (Nat.not_lt.mp hi)
    have h := congrArg (Nat.testBit · j) hhigh
    simp only [Nat.testBit_div_two_pow] at h
    rw [add_comm, h, Nat.testBit_two_pow_mul_add _ (Nat.mod_lt _ (Nat.two_pow_pos n))]
    by_cases hj : j < n
    · rw [if_pos hj, if_pos (by omega), Nat.testBit_mod_two_pow, decide_eq_true hj, Bool.true_and, Nat.add_sub_cancel]
    · rw [if_neg hj, if_neg (by omega), Nat.testBit_div_two_pow, Nat.testBit_div_two_pow]
      congr 1
      omega

/-! ### Registers and elements -/

theorem reg_setReg (v : Vector Line 32) (r j : Nat) (x : Line) : reg (setReg v r x) j = if j = r ∧ r < 32 then x else reg v j := by
  unfold reg setReg
  simp only [Vector.toArray_setIfInBounds, Array.getD_eq_getD_getElem?, Array.getElem?_setIfInBounds, Vector.size_toArray]
  by_cases h : r = j
  · subst h
    by_cases hr : r < 32 <;> simp [hr]
  · simp [h, Ne.symm h]

theorem reg_setReg_ne {v : Vector Line 32} {r j : Nat} (h : j ≠ r) (x : Line) : reg (setReg v r x) j = reg v j := by
  rw [reg_setReg, if_neg (fun e => h e.1)]

theorem reg_setReg_same {v : Vector Line 32} {r : Nat} (h : r < 32) (x : Line) : reg (setReg v r x) r = x := by
  rw [reg_setReg, if_pos ⟨rfl, h⟩]

theorem testBit_getE (w n : Nat) (v : Vector Line 32) (r k i : Nat) :
    (getE w n v r k).testBit i = (decide (i < w) && (reg v (r + k / n)).toNat.testBit (w * (k % n) + i)) := by
  rw [getE, Nat.testBit_mod_two_pow, Nat.testBit_shiftRight]

theorem getE_lt (w n : Nat) (v : Vector Line 32) (r k : Nat) : getE w n v r k < 2 ^ w := Nat.mod_lt _ (Nat.two_pow_pos w)

section
variable {w n r : Nat} {v : Vector Line 32}

/-- R202: an element that has been written holds what was written, to its width. -/
theorem getE_setE_same {k : Nat} (hn : 0 < n) (hw : n * w ≤ 512) (hr : r + k / n < 32) (x : Nat) :
    getE w n (setE w n v r k x) r k = x % 2 ^ w := by
  apply Nat.eq_of_testBit_eq
  intro i
  have hmod : k % n < n := Nat.mod_lt _ hn
  have hfit : w * (k % n) + w ≤ 512 := by
    calc w * (k % n) + w = w * (k % n + 1) := by ring
      _ ≤ w * n := Nat.mul_le_mul_left w hmod
      _ ≤ 512 := by rw [mul_comm]; exact hw
  rw [testBit_getE, setE, reg_setReg_same hr, Nat.testBit_mod_two_pow, BitVec.toNat_ofNat, Nat.testBit_mod_two_pow, testBit_setFld]
  by_cases hi : i < w
  · rw [if_pos (by omega), decide_eq_true (show w * (k % n) + i < 512 by omega), Nat.add_sub_cancel_left, Bool.true_and]
  · simp [hi]

/-- R202: writing an element leaves the others. -/
theorem getE_setE_ne {j k : Nat} (h : j ≠ k) (x : Nat) : getE w n (setE w n v r j x) r k = getE w n v r k := by
  apply Nat.eq_of_testBit_eq
  intro i
  rw [testBit_getE, testBit_getE, setE, reg_setReg]
  split
  · next hreg =>
    have hdiv : k / n = j / n := by omega
    have hmod : k % n ≠ j % n := fun e => h (by rw [← Nat.div_add_mod j n, ← Nat.div_add_mod k n, hdiv, e])
    by_cases hi : i < w
    · have hout : ¬ (w * (j % n) ≤ w * (k % n) + i ∧ w * (k % n) + i < w * (j % n) + w) := by
        rintro ⟨h1, h2⟩
        rcases Nat.lt_or_gt_of_ne hmod with hlt | hlt
        · have : w * (k % n + 1) ≤ w * (j % n) := Nat.mul_le_mul_left w hlt
          rw [mul_add] at this
          omega
        · have : w * (j % n + 1) ≤ w * (k % n) := Nat.mul_le_mul_left w hlt
          rw [mul_add] at this
          omega
      rw [BitVec.toNat_ofNat, Nat.testBit_mod_two_pow, testBit_setFld, if_neg hout, hdiv]
      by_cases hbit : w * (k % n) + i < 512
      · rw [decide_eq_true hbit, Bool.true_and]
      · have hzero : (reg v (r + j / n)).toNat.testBit (w * (k % n) + i) = false :=
          Nat.testBit_lt_two_pow (lt_of_lt_of_le (reg v (r + j / n)).isLt (Nat.pow_le_pow_right (by decide) (Nat.not_lt.mp hbit)))
        rw [decide_eq_false hbit, Bool.false_and, hzero]
    · simp [hi]
  · rfl

/-! ### A group computed element by element -/

theorem mapGroup_succ (m d : Nat) (f : Nat → Nat × Num.Flg) :
    (mapGroup w n (m + 1) v d f).v = setE w n (mapGroup w n m v d f).v d m (f m).1 := by
  unfold mapGroup
  rw [List.range_succ, List.foldl_append]
  rfl

/-- R202: element k of a group that has been computed. -/
theorem getE_mapGroup {m k : Nat} (hk : k < m) (hn : 0 < n) (hw : n * w ≤ 512) (hr : r + k / n < 32) (f : Nat → Nat × Num.Flg) :
    getE w n (mapGroup w n m v r f).v r k = (f k).1 % 2 ^ w := by
  induction m with
  | zero => omega
  | succ m ih =>
    rw [mapGroup_succ]
    by_cases h : m = k
    · subst h
      exact getE_setE_same hn hw hr _
    · rw [getE_setE_ne h]
      exact ih (by omega)

/-- R202: computing a group leaves the registers outside it. -/
theorem reg_mapGroup {m j : Nat} (h : ∀ k, k < m → j ≠ r + k / n) (f : Nat → Nat × Num.Flg) :
    reg (mapGroup w n m v r f).v j = reg v j := by
  induction m with
  | zero => rfl
  | succ m ih =>
    rw [mapGroup_succ, setE, reg_setReg_ne (h m (Nat.lt_succ_self m)), ih (fun k hk => h k (Nat.lt_succ_of_lt hk))]

end

/-- R202: the elements of a register fit in it. -/
theorem Shape.n_mul_le (sh : Shape) (w : Nat) : sh.n w * w ≤ 512 :=
  (Nat.mul_le_mul_right w (min_le_right _ _)).trans (Nat.div_mul_le_self 512 w)

end Sys2Proof.Vec
end

section
/-! PROOFS. Integers in elements (R61, R72, R108). -/
namespace Sys2Proof.Num

/-- R72: a wrapped integer is the pattern of the word it makes. -/
theorem wrap_eq_ofInt (n : Nat) (v : Int) : Bits.wrap n v = (BitVec.ofInt n v).toNat := by
  simp [Bits.wrap, BitVec.toNat_ofInt]

theorem wrap_lt (n : Nat) (v : Int) : Bits.wrap n v < 2 ^ n := by
  rw [wrap_eq_ofInt]
  exact (BitVec.ofInt n v).isLt

/-- R72: integers that agree modulo 2^n wrap alike. -/
theorem wrap_of_modEq {n u : Nat} {v : Int} (h : v ≡ (u : Int) [ZMOD ((2 ^ n : Nat) : Int)]) : Bits.wrap n v = u % 2 ^ n := by
  unfold Bits.wrap
  rw [h, ← Int.natCast_mod, Int.toNat_natCast]

theorem wrap_natCast (n u : Nat) : Bits.wrap n (u : Int) = u % 2 ^ n := wrap_of_modEq rfl

/-- R61: the value of a pattern in two's complement is that of its word. -/
theorem sx_eq_toInt {n : Nat} (hn : 0 < n) (x : Nat) : Bits.sx n x = (BitVec.ofNat n x).toInt := by
  obtain ⟨m, rfl⟩ := Nat.exists_eq_succ_of_ne_zero hn.ne'
  have hpow : 2 ^ (m + 1) = 2 * 2 ^ m := by rw [pow_succ, mul_comm]
  rw [BitVec.toInt_eq_toNat_cond, BitVec.toNat_ofNat]
  unfold Bits.sx
  simp only [Nat.succ_eq_add_one, Nat.add_sub_cancel]
  by_cases h : x % 2 ^ (m + 1) < 2 ^ m
  · rw [if_pos h, if_pos (by omega)]
  · rw [if_neg h, if_neg (by omega)]

theorem bits_pos (t : Ty) : 0 < t.bits := by cases t <;> decide

/-- R61: the integer that a pattern of a type's width holds. -/
def intOf (t : Ty) (q : Nat) : Int := if t.signed then (BitVec.ofNat t.bits q).toInt else q

theorem intVal_eq {t : Ty} {q : Nat} (h : q < 2 ^ t.bits) : intVal t q = intOf t q := by
  unfold intVal intOf
  rw [sx_eq_toInt (bits_pos t), Nat.mod_eq_of_lt h]

/-- R61: a pattern and its integer agree modulo 2^w. -/
theorem intVal_modEq (t : Ty) (q : Nat) : intVal t q ≡ (q : Int) [ZMOD ((2 ^ t.bits : Nat) : Int)] := by
  unfold intVal
  split
  · rw [sx_eq_toInt (bits_pos t), BitVec.toInt_eq_toNat_bmod, BitVec.toNat_ofNat]
    exact Int.bmod_emod.trans (by rw [Int.natCast_mod, Int.emod_emod])
  · rw [Int.natCast_mod]
    exact Int.mod_modEq _ _

/-- R72: an integer in a type's range is read back from its pattern. -/
theorem intOf_wrap {t : Ty} {z : Int} (h1 : intMin t ≤ z) (h2 : z ≤ intMax t) : intOf t (Bits.wrap t.bits z) = z := by
  unfold intMin at h1
  unfold intMax at h2
  unfold intOf
  by_cases hs : t.signed = true
  · rw [if_pos hs] at h1 h2 ⊢
    obtain ⟨m, hm⟩ := Nat.exists_eq_succ_of_ne_zero (bits_pos t).ne'
    rw [hm] at h1 h2 ⊢
    rw [wrap_eq_ofInt, BitVec.ofNat_toNat, BitVec.setWidth_eq, BitVec.toInt_ofInt]
    simp only [Nat.succ_eq_add_one, Nat.add_sub_cancel] at h1 h2
    have hpow : 2 ^ (m + 1) = 2 * 2 ^ m := by rw [pow_succ, mul_comm]
    apply Int.bmod_eq_of_le
    · omega
    · omega
  · rw [if_neg hs] at h1 h2 ⊢
    unfold Bits.wrap
    rw [Int.emod_eq_of_lt h1 (by omega), Int.toNat_of_nonneg h1]

/-- R72: clipping to a type's range. -/
theorem clip_eq (t : Ty) (v : Int) : (clip t v).1 = max (intMin t) (min (intMax t) v) := by
  have hrange : intMin t ≤ intMax t := by
    unfold intMin intMax
    have := Nat.two_pow_pos (t.bits - 1)
    have := Nat.two_pow_pos t.bits
    split <;> omega
  unfold clip
  split
  · simp only; omega
  · split
    · simp only; omega
    · simp only; omega

/-- R72: what a saturated result holds. -/
theorem intOf_sat (t : Ty) (v : Int) : intOf t (intResult t true v).1 = max (intMin t) (min (intMax t) v) := by
  have hrange : intMin t ≤ intMax t := by
    unfold intMin intMax
    have := Nat.two_pow_pos (t.bits - 1)
    have := Nat.two_pow_pos t.bits
    split <;> omega
  have hres : (intResult t true v).1 = Bits.wrap t.bits (clip t v).1 := rfl
  rw [hres, clip_eq, intOf_wrap (le_max_left _ _) (max_le hrange (min_le_left _ _))]

theorem intResult_lt (t : Ty) (sat : Bool) (v : Int) : (intResult t sat v).1 < 2 ^ t.bits := by
  unfold intResult
  split <;> exact wrap_lt _ _

/-- R108: a condition of the order of two integers. -/
theorem condHolds_compare (cc : Cond) (x y : Int) : condHolds cc (compare x y) = Machine.intCond cc x y := by
  rcases lt_trichotomy x y with h | h | h
  · rw [compare_lt_iff_lt.mpr h]
    cases cc <;> simp [condHolds, Machine.intCond, h, h.le, h.ne, h.not_ge, h.asymm]
  · rw [compare_eq_iff_eq.mpr h]
    cases cc <;> simp [condHolds, Machine.intCond, h]
  · rw [compare_gt_iff_gt.mpr h]
    cases cc <;> simp [condHolds, Machine.intCond, h, h.le, h.ne', h.not_ge, h.asymm]

end Sys2Proof.Num
end

section
/-! PROOFS. The elements that vector forms compute (R212 to R216, R220, R223). -/
namespace Sys2Proof.Num

/-- R72: the negative of a number modulo 2^n. -/
theorem neg_modEq (n p : Nat) : -(p : Int) ≡ ((2 ^ n - p % 2 ^ n : Nat) : Int) [ZMOD ((2 ^ n : Nat) : Int)] := by
  rw [Nat.cast_sub (Nat.mod_lt p (Nat.two_pow_pos n)).le, Int.natCast_mod]
  refine (Int.ModEq.neg (Int.mod_modEq _ _).symm).trans (Int.modEq_iff_dvd.mpr ⟨1, by ring⟩)

theorem wrap_intVal {t : Ty} {q : Nat} (h : q < 2 ^ t.bits) : Bits.wrap t.bits (intVal t q) = q := by
  rw [wrap_of_modEq (intVal_modEq t q), Nat.mod_eq_of_lt h]

/-- R213: an arithmetic shift in two's complement. -/
theorem wrap_sx_div {n x : Nat} (hn : 0 < n) (s : Nat) :
    Bits.wrap n (Bits.sx n x / (2 ^ s : Nat)) = ((BitVec.ofNat n x).sshiftRight s).toNat := by
  rw [wrap_eq_ofInt, sx_eq_toInt hn, BitVec.sshiftRight, Int.shiftRight_eq_div_pow]

theorem isInt_of_isFlt {t : Ty} (h : t.isFlt = true) : t.isInt = false := by
  have h8 : 8 ≤ t.code.toNat := by
    unfold Ty.isFlt at h
    simp only [Bool.and_eq_true, decide_eq_true_eq] at h
    exact h.1
  exact decide_eq_false (Nat.not_lt.mpr h8)

end Sys2Proof.Num

namespace Sys2Proof.Vec
open Sys2Proof.Num

/-- R202: element k of the group that a v field names, for elements of `w` bits. -/
def elem (c : Cap) (w : Nat) (v : Vector Line 32) (r : Fin 32) (k : Nat) : Nat := getE w (c.sh.n w) v (c.at r) k

theorem elem_lt (c : Cap) (w : Nat) (v : Vector Line 32) (r : Fin 32) (k : Nat) : elem c w v r k < 2 ^ w := getE_lt _ _ _ _ _

/-- R202: k is an active element of the group at d, which lies in v0 to v31. -/
structure Active (c : Cap) (w : Nat) (d : Fin 32) (k : Nat) : Prop where
  lt : k < c.sh.rows * c.sh.n w
  pos : 0 < c.sh.n w
  fits : d.val + c.shift + c.sh.rows ≤ 32

/-- R202: an active element lies in one of the group's registers. -/
theorem Active.row {c : Cap} {w : Nat} {d : Fin 32} {k : Nat} (h : Active c w d k) : k / c.sh.n w < c.sh.rows :=
  Nat.div_lt_of_lt_mul (by rw [mul_comm]; exact h.lt)

/-- R202: an active element of a group that has been computed. -/
theorem elem_mapGroup {c : Cap} {w : Nat} {d : Fin 32} {k : Nat} (h : Active c w d k) (v : Vector Line 32) (f : Nat → Nat × Flg) :
    elem c w (mapGroup w (c.sh.n w) (c.sh.rows * c.sh.n w) v (c.at d) f).v d k = (f k).1 % 2 ^ w := by
  have hr : c.at d + k / c.sh.n w < 32 := by
    have hrow := h.row
    have hfits := h.fits
    have hat : c.at d = d.val + c.shift := rfl
    omega
  exact getE_mapGroup h.lt h.pos (c.sh.n_mul_le w) hr f

/-! ### Moves -/

/-- R213: m registers from `a` on, copied to `d` on. -/
def moveRegs (v : Vector Line 32) (d a m : Nat) : Out :=
  (List.range m).foldl (fun o r => ⟨setReg o.v (d + r) (reg v (a + r)), none, 0⟩) ⟨v, none, 0⟩

theorem reg_moveRegs (v : Vector Line 32) (d a m j : Nat) :
    reg (moveRegs v d a m).v j = if d ≤ j ∧ j < d + m ∧ j < 32 then reg v (a + (j - d)) else reg v j := by
  induction m with
  | zero => rw [if_neg (by omega)]; rfl
  | succ m ih =>
    have hstep : (moveRegs v d a (m + 1)).v = setReg (moveRegs v d a m).v (d + m) (reg v (a + m)) := by
      unfold moveRegs
      rw [List.range_succ, List.foldl_append]
      rfl
    rw [hstep, reg_setReg, ih]
    by_cases h : j = d + m ∧ d + m < 32
    · obtain ⟨rfl, hlt⟩ := h
      rw [if_pos ⟨rfl, hlt⟩, if_pos (by omega), Nat.add_sub_cancel_left]
    · rw [if_neg h]
      by_cases hj : d ≤ j ∧ j < d + m ∧ j < 32
      · rw [if_pos hj, if_pos (by omega)]
      · rw [if_neg hj, if_neg (by omega)]

/-- R213: VMOV copies every element. -/
theorem elem_vmov {c : Cap} {w : Nat} {d : Fin 32} {k : Nat} (h : Active c w d k) (g : Guard) (a : Fin 32) (v : Vector Line 32) :
    elem c w (run (.vmov g d a) c v).v d k = elem c w v a k := by
  have hrow := h.row
  have hfits := h.fits
  have hmove : run (.vmov g d a) c v = moveRegs v (c.at d) (c.at a) c.sh.rows := rfl
  have hat : c.at d = d.val + c.shift := rfl
  have hin : c.at d ≤ c.at d + k / c.sh.n w ∧ c.at d + k / c.sh.n w < c.at d + c.sh.rows ∧ c.at d + k / c.sh.n w < 32 := by
    generalize k / c.sh.n w = row at *
    omega
  rw [elem, elem, getE, getE, hmove, reg_moveRegs, if_pos hin, Nat.add_sub_cancel_left]

/-! ### What each form is -/

section
variable (g : Guard) (t : Ty) (rc : Rc) (d a b e : Fin 32) (o q : Opnd) (c : Cap) (v : Vector Line 32)

theorem run_vand : run (.vand g t d a o) c v = pats c t v d a o (· &&& ·) := rfl

theorem run_vor : run (.vor g t d a o) c v = pats c t v d a o (· ||| ·) := rfl

theorem run_vxor : run (.vxor g t d a o) c v = pats c t v d a o (· ^^^ ·) := rfl

theorem run_vshl : run (.vshl g t d a o) c v = pats c t v d a o (fun x y => x <<< (y % t.bits)) := rfl

theorem run_vshr : run (.vshr g t d a o) c v = pats c t v d a o (fun x y => x >>> (y % t.bits)) := rfl

theorem run_vsha : run (.vsha g t d a o) c v =
    pats c t v d a o (fun x y => Bits.wrap t.bits (Bits.sx t.bits x / (2 ^ (y % t.bits) : Nat))) := rfl

theorem run_vsel : run (.vsel g t d (.v a) (.v b) e) c v =
    mapGroup t.bits (c.sh.n t.bits) (c.sh.rows * c.sh.n t.bits) v (c.at d)
      (fun k => (if elem c t.bits v e k ≠ 0 then elem c t.bits v a k else elem c t.bits v b k, 0)) := rfl

theorem run_vperm : run (.vperm g t d a b) c v =
    mapGroup t.bits (c.sh.n t.bits) (c.sh.rows * c.sh.n t.bits) v (c.at d)
      (fun k => (elem c t.bits v a (elem c t.bits v b k % (c.sh.rows * c.sh.n t.bits)), 0)) := rfl

theorem run_vadd (sat : Bool) : run (.vadd g t rc sat d a o) c v =
    arith c t rc sat v d a o .none (fun x y _ => x + y) (fun rm x y _ => addV rm x y) := rfl

theorem run_vsub (sat : Bool) : run (.vsub g t rc sat d a o) c v =
    arith c t rc sat v d a o .none (fun x y _ => x - y) (fun rm x y _ => subV rm x y) := rfl

theorem run_vmul (sat : Bool) : run (.vmul g t rc sat d a o) c v =
    arith c t rc sat v d a o .none (fun x y _ => x * y) (fun _ x y _ => mulV x y) := rfl

theorem run_vfma (sat : Bool) : run (.vfma g t rc sat d a o q) c v =
    arith c t rc sat v d a o q (fun x y z => x * y + z) (fun rm x y z => fmaV rm x y z) := rfl

theorem run_vfms (sat : Bool) : run (.vfms g t rc sat d a o q) c v =
    arith c t rc sat v d a o q (fun x y z => x * y - z) (fun rm x y z => fmaV rm x y z.flip) := rfl

theorem run_vfnma (sat : Bool) : run (.vfnma g t rc sat d a o q) c v =
    arith c t rc sat v d a o q (fun x y z => -(x * y) + z) (fun rm x y z => fmaV rm x.flip y z) := rfl

theorem run_vdiv : run (.vdiv g t rc d a o) c v =
    arith c t rc false v d a o .none (fun x _ _ => x) (fun _ x y _ => divV x y) := rfl

theorem run_vsqrt : run (.vsqrt g t rc d a) c v =
    arith c t rc false v d a .none .none (fun x _ _ => x) (fun _ x _ _ => sqrtV x) := rfl

theorem run_vmin : run (.vmin g t d a o) c v =
    arith c t .asr false v d a o .none (fun x y _ => if y < x then y else x) (fun _ x y _ => minmaxV false x y) := rfl

theorem run_vmax : run (.vmax g t d a o) c v =
    arith c t .asr false v d a o .none (fun x y _ => if x < y then y else x) (fun _ x y _ => minmaxV true x y) := rfl

theorem run_vsf (fn : SfFn) : run (.vsf g t rc d a fn) c v =
    arith c t rc false v d a .none .none (fun x _ _ => x) (fun _ x _ _ => sfV fn x) := rfl

theorem run_vclass : run (.vclass g t d a) c v =
    pats c t v d a .none (fun x _ => classOf (fmtOf t) (unpack (fmtOf t) x)) := rfl

theorem run_vabs (sat : Bool) : run (.vabs g t sat d a) c v =
    if t.isInt then arith c t .asr sat v d a .none .none (fun x _ _ => x.natAbs) (fun _ x _ _ => (x, 0))
    else pats c t v d a .none (fun x _ => x % 2 ^ (t.bits - 1)) := rfl

theorem run_vneg (sat : Bool) : run (.vneg g t sat d a) c v =
    if t.isInt then arith c t .asr sat v d a .none .none (fun x _ _ => -x) (fun _ x _ _ => (x, 0))
    else pats c t v d a .none (fun x _ => x ^^^ 2 ^ (t.bits - 1)) := rfl

end

/-! ### Forms on bit patterns -/

section
variable {c : Cap} {t : Ty} {d : Fin 32} {k : Nat} (h : Active c t.bits d k) (v : Vector Line 32) (a b e : Fin 32) (g : Guard) (rc : Rc)
include h

theorem elem_pats (o : Opnd) (f : Nat → Nat → Nat) :
    elem c t.bits (pats c t v d a o f).v d k = f (elem c t.bits v a k) (srcPat c t.bits (c.sh.n t.bits) v o c.b k) % 2 ^ t.bits :=
  (elem_mapGroup h v _).trans (Nat.mod_mod _ _)

/-- R214: the logic forms. -/
theorem elem_logic :
    elem c t.bits (run (.vand g t d a (.v b)) c v).v d k = elem c t.bits v a k &&& elem c t.bits v b k ∧
    elem c t.bits (run (.vor g t d a (.v b)) c v).v d k = elem c t.bits v a k ||| elem c t.bits v b k ∧
    elem c t.bits (run (.vxor g t d a (.v b)) c v).v d k = elem c t.bits v a k ^^^ elem c t.bits v b k := by
  have ha := elem_lt c t.bits v a k
  have hb := elem_lt c t.bits v b k
  rw [run_vand, run_vor, run_vxor, elem_pats h, elem_pats h, elem_pats h]
  exact ⟨Nat.mod_eq_of_lt (Nat.and_lt_two_pow _ hb), Nat.mod_eq_of_lt (Nat.or_lt_two_pow ha hb), Nat.mod_eq_of_lt (Nat.xor_lt_two_pow ha hb)⟩

/-- R214: the shifts, by the low bits of the count. -/
theorem elem_shifts :
    elem c t.bits (run (.vshl g t d a (.v b)) c v).v d k = elem c t.bits v a k * 2 ^ (elem c t.bits v b k % t.bits) % 2 ^ t.bits ∧
    elem c t.bits (run (.vshr g t d a (.v b)) c v).v d k = elem c t.bits v a k / 2 ^ (elem c t.bits v b k % t.bits) ∧
    elem c t.bits (run (.vsha g t d a (.v b)) c v).v d k =
      ((BitVec.ofNat t.bits (elem c t.bits v a k)).sshiftRight (elem c t.bits v b k % t.bits)).toNat := by
  rw [run_vshl, run_vshr, run_vsha, elem_pats h, elem_pats h, elem_pats h]
  refine ⟨by rw [Nat.shiftLeft_eq]; rfl, ?_, ?_⟩
  · rw [Nat.shiftRight_eq_div_pow]
    exact Nat.mod_eq_of_lt (lt_of_le_of_lt (Nat.div_le_self _ _) (elem_lt c t.bits v a k))
  · rw [wrap_sx_div (bits_pos t)]
    exact Nat.mod_eq_of_lt (BitVec.isLt _)

/-- R216, R220: the selections. That every pattern but zero selects A is the model's choice (log 29). -/
theorem elem_selections :
    elem c t.bits (run (.vsel g t d (.v a) (.v b) e) c v).v d k =
      (if elem c t.bits v e k ≠ 0 then elem c t.bits v a k else elem c t.bits v b k) ∧
    elem c t.bits (run (.vperm g t d a b) c v).v d k = elem c t.bits v a (elem c t.bits v b k % (c.sh.rows * c.sh.n t.bits)) := by
  rw [run_vsel, run_vperm, elem_mapGroup h, elem_mapGroup h]
  exact ⟨Nat.mod_eq_of_lt (by dsimp only; split; exacts [elem_lt _ _ _ _ _, elem_lt _ _ _ _ _]), Nat.mod_eq_of_lt (elem_lt _ _ _ _ _)⟩

/-! ### Integer forms -/

/-- R212: an arithmetic form on integers wraps or saturates its result. -/
theorem elem_arith_int (hi : t.isInt = true) (sat : Bool) (o q : Opnd) (fi : Int → Int → Int → Int) (ff : Rm → Val → Val → Val → Val × Flg) :
    elem c t.bits (arith c t rc sat v d a o q fi ff).v d k =
      (intResult t sat (fi (intVal t (elem c t.bits v a k)) (srcInt c t (c.sh.n t.bits) v o c.b k)
        (srcInt c t (c.sh.n t.bits) v q c.c k))).1 := by
  unfold arith
  rw [elem_mapGroup h, if_pos hi, Nat.mod_eq_of_lt (intResult_lt _ _ _)]
  rfl

/-- R212, R213: the wrapping sums and products of integers. -/
theorem elem_int_wrapped (hi : t.isInt = true) :
    let x := elem c t.bits v a k
    let y := elem c t.bits v b k
    let z := elem c t.bits v e k
    elem c t.bits (run (.vadd g t rc false d a (.v b)) c v).v d k = (x + y) % 2 ^ t.bits ∧
    elem c t.bits (run (.vsub g t rc false d a (.v b)) c v).v d k = (x + (2 ^ t.bits - y)) % 2 ^ t.bits ∧
    elem c t.bits (run (.vmul g t rc false d a (.v b)) c v).v d k = (x * y) % 2 ^ t.bits ∧
    elem c t.bits (run (.vfma g t rc false d a (.v b) (.v e)) c v).v d k = (x * y + z) % 2 ^ t.bits ∧
    elem c t.bits (run (.vfms g t rc false d a (.v b) (.v e)) c v).v d k = (x * y + (2 ^ t.bits - z)) % 2 ^ t.bits ∧
    elem c t.bits (run (.vfnma g t rc false d a (.v b) (.v e)) c v).v d k = (z + (2 ^ t.bits - x * y % 2 ^ t.bits)) % 2 ^ t.bits := by
  intro x y z
  have hx := intVal_modEq t x
  have hy := intVal_modEq t y
  have hz := intVal_modEq t z
  have hny := hy.neg.trans (neg_modEq t.bits y)
  have hnz := hz.neg.trans (neg_modEq t.bits z)
  rw [Nat.mod_eq_of_lt (elem_lt c t.bits v b k)] at hny
  rw [Nat.mod_eq_of_lt (elem_lt c t.bits v e k)] at hnz
  have hxy : intVal t x * intVal t y ≡ ((x * y : Nat) : Int) [ZMOD ((2 ^ t.bits : Nat) : Int)] := by
    rw [Nat.cast_mul]
    exact hx.mul hy
  rw [run_vadd, run_vsub, run_vmul, run_vfma, run_vfms, run_vfnma]
  iterate 6 rw [elem_arith_int h v a rc hi]
  refine ⟨wrap_of_modEq ?_, wrap_of_modEq ?_, wrap_of_modEq hxy, wrap_of_modEq ?_, wrap_of_modEq ?_, wrap_of_modEq ?_⟩
  · rw [Nat.cast_add]
    exact hx.add hy
  · rw [Nat.cast_add]
    exact hx.add hny
  · rw [Nat.cast_add]
    exact hxy.add hz
  · rw [Nat.cast_add]
    exact hxy.add hnz
  · rw [Nat.cast_add, add_comm (z : Int)]
    exact (hxy.neg.trans (neg_modEq t.bits (x * y))).add hz

/-- R72, R213: the saturating sums. -/
theorem intOf_elem_saturated (hi : t.isInt = true) :
    intOf t (elem c t.bits (run (.vadd g t rc true d a (.v b)) c v).v d k) =
      max (intMin t) (min (intMax t) (intOf t (elem c t.bits v a k) + intOf t (elem c t.bits v b k))) ∧
    intOf t (elem c t.bits (run (.vsub g t rc true d a (.v b)) c v).v d k) =
      max (intMin t) (min (intMax t) (intOf t (elem c t.bits v a k) - intOf t (elem c t.bits v b k))) := by
  rw [← intVal_eq (elem_lt c t.bits v a k), ← intVal_eq (elem_lt c t.bits v b k)]
  rw [run_vadd, run_vsub, elem_arith_int h v a rc hi, elem_arith_int h v a rc hi]
  exact ⟨intOf_sat t _, intOf_sat t _⟩

/-- R214: minimum and maximum of integers choose one of the two patterns. -/
theorem elem_int_minmax (hi : t.isInt = true) :
    let x := elem c t.bits v a k
    let y := elem c t.bits v b k
    elem c t.bits (run (.vmin g t d a (.v b)) c v).v d k = (if intOf t y < intOf t x then y else x) ∧
    elem c t.bits (run (.vmax g t d a (.v b)) c v).v d k = (if intOf t x < intOf t y then y else x) := by
  intro x y
  have hx := elem_lt c t.bits v a k
  have hy := elem_lt c t.bits v b k
  rw [← intVal_eq hx, ← intVal_eq hy]
  have hsrc : srcInt c t (c.sh.n t.bits) v (.v b) c.b k = intVal t y := rfl
  rw [run_vmin, run_vmax, elem_arith_int h v a .asr hi, elem_arith_int h v a .asr hi, hsrc]
  constructor
  · exact (apply_ite (Bits.wrap t.bits) _ _ _).trans (by rw [wrap_intVal hx, wrap_intVal hy])
  · exact (apply_ite (Bits.wrap t.bits) _ _ _).trans (by rw [wrap_intVal hx, wrap_intVal hy])

/-- R213: absolute value and negation of integers. -/
theorem elem_int_sign (hi : t.isInt = true) :
    elem c t.bits (run (.vabs g t false d a) c v).v d k = (intOf t (elem c t.bits v a k)).natAbs % 2 ^ t.bits ∧
    elem c t.bits (run (.vneg g t false d a) c v).v d k = (2 ^ t.bits - elem c t.bits v a k) % 2 ^ t.bits := by
  have hx := elem_lt c t.bits v a k
  refine ⟨?_, ?_⟩
  · rw [run_vabs, if_pos hi, elem_arith_int h v a .asr hi, ← intVal_eq hx]
    exact wrap_natCast _ _
  · rw [run_vneg, if_pos hi, elem_arith_int h v a .asr hi]
    have hneg := (intVal_modEq t (elem c t.bits v a k)).neg.trans (neg_modEq t.bits (elem c t.bits v a k))
    rw [Nat.mod_eq_of_lt hx] at hneg
    exact wrap_of_modEq hneg

/-- R110, R216: a comparison of integers writes all ones or zero. -/
theorem elem_int_vcmp (hi : t.isInt = true) (cc : Cond) :
    elem c t.bits (run (.vcmp g t cc false d a (.v b)) c v).v d k =
      (if Machine.intCond cc (intOf t (elem c t.bits v a k)) (intOf t (elem c t.bits v b k)) then 2 ^ t.bits - 1 else 0) := by
  refine (elem_mapGroup h v _).trans ?_
  have hall : 2 ^ t.bits - 1 < 2 ^ t.bits := Nat.sub_lt (Nat.two_pow_pos _) Nat.one_pos
  dsimp only
  rw [if_pos hi, condHolds_compare, ← intVal_eq (elem_lt c t.bits v a k), ← intVal_eq (elem_lt c t.bits v b k)]
  exact Nat.mod_eq_of_lt (by split; exacts [hall, Nat.two_pow_pos _])

/-! ### Floating forms -/

/-- R212: an arithmetic form on floats rounds its result once. -/
theorem elem_arith_flt (hf : t.isFlt = true) (sat : Bool) (o q : Opnd) (fi : Int → Int → Int → Int) (ff : Rm → Val → Val → Val → Val × Flg) :
    elem c t.bits (arith c t rc sat v d a o q fi ff).v d k =
      (packR (fmtOf t) (rmOf rc c.rm) (ff (rmOf rc c.rm) (unpack (fmtOf t) (elem c t.bits v a k))
        (srcVal c t (c.sh.n t.bits) v o c.b k) (srcVal c t (c.sh.n t.bits) v q c.c k))).1 % 2 ^ t.bits := by
  unfold arith
  rw [elem_mapGroup h, if_neg (by rw [isInt_of_isFlt hf]; exact Bool.false_ne_true)]
  rfl

/-- R212, R213: the forms whose result is the exact one, rounded once. -/
theorem elem_flt_rounded (hf : t.isFlt = true) :
    let f := fmtOf t
    let rm := rmOf rc c.rm
    let r (q : Val × Flg) : Nat := (packR f rm q).1 % 2 ^ t.bits
    let X := unpack f (elem c t.bits v a k)
    let Y := unpack f (elem c t.bits v b k)
    let Z := unpack f (elem c t.bits v e k)
    elem c t.bits (run (.vadd g t rc false d a (.v b)) c v).v d k = r (addV rm X Y) ∧
    elem c t.bits (run (.vsub g t rc false d a (.v b)) c v).v d k = r (subV rm X Y) ∧
    elem c t.bits (run (.vmul g t rc false d a (.v b)) c v).v d k = r (mulV X Y) ∧
    elem c t.bits (run (.vdiv g t rc d a (.v b)) c v).v d k = r (divV X Y) ∧
    elem c t.bits (run (.vsqrt g t rc d a) c v).v d k = r (sqrtV X) ∧
    elem c t.bits (run (.vfma g t rc false d a (.v b) (.v e)) c v).v d k = r (fmaV rm X Y Z) ∧
    elem c t.bits (run (.vfms g t rc false d a (.v b) (.v e)) c v).v d k = r (fmaV rm X Y Z.flip) ∧
    elem c t.bits (run (.vfnma g t rc false d a (.v b) (.v e)) c v).v d k = r (fmaV rm X.flip Y Z) := by
  intro f rm r X Y Z
  rw [run_vadd, run_vsub, run_vmul, run_vdiv, run_vsqrt, run_vfma, run_vfms, run_vfnma]
  iterate 8 rw [elem_arith_flt h v a rc hf]
  exact ⟨rfl, rfl, rfl, rfl, rfl, rfl, rfl, rfl⟩

/-- R213: absolute value and negation of floats act on the sign bit. -/
theorem elem_flt_sign (hf : t.isFlt = true) :
    elem c t.bits (run (.vabs g t false d a) c v).v d k = elem c t.bits v a k % 2 ^ (t.bits - 1) ∧
    elem c t.bits (run (.vneg g t false d a) c v).v d k = elem c t.bits v a k ^^^ 2 ^ (t.bits - 1) := by
  have hni : ¬ t.isInt = true := by rw [isInt_of_isFlt hf]; exact Bool.false_ne_true
  have hsign : 2 ^ (t.bits - 1) < 2 ^ t.bits := Nat.pow_lt_pow_right (by decide) (Nat.sub_lt (bits_pos t) Nat.one_pos)
  refine ⟨?_, ?_⟩
  · rw [run_vabs, if_neg hni, elem_pats h]
    exact Nat.mod_eq_of_lt ((Nat.mod_lt _ (Nat.two_pow_pos _)).trans hsign)
  · rw [run_vneg, if_neg hni, elem_pats h]
    exact Nat.mod_eq_of_lt (Nat.xor_lt_two_pow (elem_lt c t.bits v a k) hsign)

end

/-! ### Widening forms -/

/-- R223: a widening form on integers. -/
theorem elem_widen_int {c : Cap} {t : Ty} {d : Fin 32} {k : Nat} (h : Active c (wideOf t).bits d k) (hi : t.isInt = true) (v : Vector Line 32)
    (a b : Fin 32) (rc : Rc) (mac : Bool) :
    elem c (wideOf t).bits (widen c t rc false mac v d a (.v b)).v d k =
      let n := c.sh.n (wideOf t).bits
      let y := srcInt c t n v (.v b) c.b k
      (BitVec.ofInt (wideOf t).bits (if mac then srcInt c (wideOf t) n v (.v d) 0 k + srcInt c t n v (.v a) 0 k * y
        else srcInt c (wideOf t) n v (.v a) 0 k + y)).toNat := by
  unfold widen
  rw [elem_mapGroup h, if_pos hi, Nat.mod_eq_of_lt (intResult_lt _ _ _)]
  exact wrap_eq_ofInt _ _

end Sys2Proof.Vec
end

section
/-! PROOFS. The registers that vector forms leave (R202), and O31. -/
namespace Sys2Proof.Vec
open Sys2Proof.Num

theorem eight_le_perReg (t : Ty) : 8 ≤ 512 / t.bits := by cases t <;> decide

theorem reg_setE_ne {w n : Nat} {v : Vector Line 32} {r j k : Nat} (h : j ≠ r + k / n) (x : Nat) : reg (setE w n v r k x) j = reg v j :=
  reg_setReg_ne h _

/-- R202: register r is outside the `size` registers from the v field d on. -/
def Outside (c : Cap) (d : Fin 32) (size r : Nat) : Prop := r < d.val + c.shift ∨ d.val + c.shift + size ≤ r

theorem Outside.ne {c : Cap} {d : Fin 32} {size r j : Nat} (h : Outside c d size r) (hj : j < size) : r ≠ c.at d + j := by
  have hat : c.at d = d.val + c.shift := rfl
  unfold Outside at h
  omega

section
variable {c : Cap} {d : Fin 32} {r : Nat} (v : Vector Line 32)

/-- R202: a form that computes a group leaves the registers outside it. -/
theorem reg_group (h : Outside c d c.sh.rows r) (w n : Nat) (f : Nat → Nat × Flg) :
    reg (mapGroup w n (c.sh.rows * n) v (c.at d) f).v r = reg v r :=
  reg_mapGroup (fun _ hk => h.ne (Nat.div_lt_of_lt_mul ((mul_comm c.sh.rows n) ▸ hk))) f

theorem reg_arith (h : Outside c d c.sh.rows r) (t : Ty) (rc : Rc) (sat : Bool) (a : Fin 32) (o q : Opnd) (fi : Int → Int → Int → Int)
    (ff : Rm → Val → Val → Val → Val × Flg) : reg (arith c t rc sat v d a o q fi ff).v r = reg v r :=
  reg_group v h _ _ _

theorem reg_pats (h : Outside c d c.sh.rows r) (t : Ty) (a : Fin 32) (o : Opnd) (f : Nat → Nat → Nat) :
    reg (pats c t v d a o f).v r = reg v r :=
  reg_group v h _ _ _

/-- R213: VINS writes one element of its group. -/
theorem reg_vins (h : Outside c d c.sh.rows r) (hrows : 0 < c.sh.rows) (g : Guard) (t : Ty) (a b : Opnd) :
    reg (run (.vins g t d a b) c v).v r = reg v r := by
  refine reg_setE_ne (h.ne ?_) _
  change (idxVal b c.b % (c.sh.rows * c.sh.n t.bits : Nat)).toNat / c.sh.n t.bits < c.sh.rows
  rcases Nat.eq_zero_or_pos (c.sh.n t.bits) with hn | hn
  · rw [hn, Nat.div_zero]
    exact hrows
  · have hm : (0 : Int) < (c.sh.rows * c.sh.n t.bits : Nat) := Int.natCast_pos.mpr (Nat.mul_pos hrows hn)
    have hlt := Int.emod_lt_of_pos (idxVal b c.b) hm
    have hnn := Int.emod_nonneg (idxVal b c.b) hm.ne'
    exact (Nat.div_lt_iff_lt_mul hn).mpr ((Int.toNat_lt hnn).mpr hlt)

/-- R219: VRED to a v register writes its first element. -/
theorem reg_vred (g : Guard) (t : Ty) (rc : Rc) (sat : Bool) (o : Opnd) (a : Fin 32) (fn : RedFn) (h : ∀ dd, o = .v dd → Outside c dd 1 r) :
    reg (run (.vred g t rc sat o a fn) c v).v r = reg v r := by
  cases o with
  | v dd => exact reg_setE_ne ((h dd rfl).ne (by rw [Nat.zero_div]; exact Nat.one_pos)) _
  | _ => rfl

/-- R224: VDOT writes the first elements of one register. -/
theorem reg_vdot (h : Outside c d 1 r) (hrows : c.sh.rows ≤ 8) (t : Ty) (rc : Rc) (a b : Fin 32) (q : Option (Fin 32)) :
    reg (vdot c t rc v d a b q).v r = reg v r := by
  refine reg_mapGroup (fun k hk => h.ne ?_) _
  rw [Nat.div_eq_of_lt (hk.trans_le (hrows.trans (eight_le_perReg _)))]
  exact Nat.one_pos

/-- R220: VTRN writes a register for each column. -/
theorem reg_vtrn (t : Ty) (h : Outside c d (c.sh.n t.bits) r) (hrows : c.sh.rows ≤ 8) (a : Fin 32) :
    reg (vtrn c t v d a).v r = reg v r := by
  unfold vtrn
  refine List.foldlRecOn (motive := fun o : Out => reg o.v r = reg v r) _ _ rfl (fun o ho j hj => ?_)
  refine Eq.trans (reg_mapGroup (fun k hk => ?_) _) ho
  rw [Nat.div_eq_of_lt (hk.trans_le (hrows.trans (eight_le_perReg t))), Nat.add_zero]
  exact h.ne (List.mem_range.mp hj)

end

/-- R202: a vector form leaves each register outside the groups that it writes. -/
theorem reg_run_outside (c : Cap) (i : Instr) (v : Vector Line 32) (r : Nat) (h0 : 0 < c.sh.rows) (h8 : c.sh.rows ≤ 8)
    (h : ∀ x ∈ Machine.vecWrites c.sh i, Outside c x.1 x.2 r) : reg (run i c v).v r = reg v r := by
  cases i with
  | vmov g d a =>
    have hout : Outside c d c.sh.rows r := h _ (List.mem_singleton_self _)
    have hmove : run (.vmov g d a) c v = moveRegs v (c.at d) (c.at a) c.sh.rows := rfl
    have hat : c.at d = d.val + c.shift := rfl
    rw [hmove, reg_moveRegs, if_neg (by unfold Outside at hout; omega)]
  | vbcast g t d o b => exact reg_group v (h _ (List.mem_singleton_self _)) _ _ _
  | vins g t d o b => exact reg_vins v (h _ (List.mem_singleton_self _)) h0 g t o b
  | vadd g t rc sat d a b => rw [run_vadd]; exact reg_arith v (h _ (List.mem_singleton_self _)) _ _ _ _ _ _ _ _
  | vsub g t rc sat d a b => rw [run_vsub]; exact reg_arith v (h _ (List.mem_singleton_self _)) _ _ _ _ _ _ _ _
  | vmul g t rc sat d a b => rw [run_vmul]; exact reg_arith v (h _ (List.mem_singleton_self _)) _ _ _ _ _ _ _ _
  | vfma g t rc sat d a b e => rw [run_vfma]; exact reg_arith v (h _ (List.mem_singleton_self _)) _ _ _ _ _ _ _ _
  | vfms g t rc sat d a b e => rw [run_vfms]; exact reg_arith v (h _ (List.mem_singleton_self _)) _ _ _ _ _ _ _ _
  | vfnma g t rc sat d a b e => rw [run_vfnma]; exact reg_arith v (h _ (List.mem_singleton_self _)) _ _ _ _ _ _ _ _
  | vdiv g t rc d a b => rw [run_vdiv]; exact reg_arith v (h _ (List.mem_singleton_self _)) _ _ _ _ _ _ _ _
  | vsqrt g t rc d a => rw [run_vsqrt]; exact reg_arith v (h _ (List.mem_singleton_self _)) _ _ _ _ _ _ _ _
  | vmin g t d a b => rw [run_vmin]; exact reg_arith v (h _ (List.mem_singleton_self _)) _ _ _ _ _ _ _ _
  | vmax g t d a b => rw [run_vmax]; exact reg_arith v (h _ (List.mem_singleton_self _)) _ _ _ _ _ _ _ _
  | vsf g t rc d a fn => rw [run_vsf]; exact reg_arith v (h _ (List.mem_singleton_self _)) _ _ _ _ _ _ _ _
  | vabs g t sat d a =>
    rw [run_vabs]
    split
    · exact reg_arith v (h _ (List.mem_singleton_self _)) _ _ _ _ _ _ _ _
    · exact reg_pats v (h _ (List.mem_singleton_self _)) _ _ _ _
  | vneg g t sat d a =>
    rw [run_vneg]
    split
    · exact reg_arith v (h _ (List.mem_singleton_self _)) _ _ _ _ _ _ _ _
    · exact reg_pats v (h _ (List.mem_singleton_self _)) _ _ _ _
  | vcmp g t cc tot d a b => exact reg_group v (h _ (List.mem_singleton_self _)) _ _ _
  | vsel g t d a b e => exact reg_group v (h _ (List.mem_singleton_self _)) _ _ _
  | vand g t d a b => rw [run_vand]; exact reg_pats v (h _ (List.mem_singleton_self _)) _ _ _ _
  | vor g t d a b => rw [run_vor]; exact reg_pats v (h _ (List.mem_singleton_self _)) _ _ _ _
  | vxor g t d a b => rw [run_vxor]; exact reg_pats v (h _ (List.mem_singleton_self _)) _ _ _ _
  | vshl g t d a b => rw [run_vshl]; exact reg_pats v (h _ (List.mem_singleton_self _)) _ _ _ _
  | vshr g t d a b => rw [run_vshr]; exact reg_pats v (h _ (List.mem_singleton_self _)) _ _ _ _
  | vsha g t d a b => rw [run_vsha]; exact reg_pats v (h _ (List.mem_singleton_self _)) _ _ _ _
  | vclass g t d a => rw [run_vclass]; exact reg_pats v (h _ (List.mem_singleton_self _)) _ _ _ _
  | vcvt g t rc sat d a src => exact reg_group v (h _ (List.mem_singleton_self _)) _ _ _
  | vpack g d a src => exact reg_setReg_ne (Outside.ne (h _ (List.mem_singleton_self _)) Nat.one_pos) _
  | vunpk g t rc d a => exact reg_group v (h _ (List.mem_singleton_self _)) _ _ _
  | vred g t rc sat o a fn => exact reg_vred v g t rc sat o a fn (fun dd hd => h (dd, 1) (by subst hd; exact List.mem_singleton_self _))
  | vscan g t rc sat d a fn => exact reg_group v (h _ (List.mem_singleton_self _)) _ _ _
  | vperm g t d a b => exact reg_group v (h _ (List.mem_singleton_self _)) _ _ _
  | vslide g t d a b e => exact reg_group v (h _ (List.mem_singleton_self _)) _ _ _
  | vmacw g t rc sat d a b => exact reg_group v (h _ (List.mem_singleton_self _)) _ _ _
  | vaddw g t rc sat d a b => exact reg_group v (h _ (List.mem_singleton_self _)) _ _ _
  | vround g t rc ex d a => exact reg_group v (h _ (List.mem_singleton_self _)) _ _ _
  | vtrn g t d a => exact reg_vtrn v t (h _ (List.mem_singleton_self _)) h8 a
  | vdot g t rc d a b q => exact reg_vdot v (h _ (List.mem_singleton_self _)) h8 t rc a b q
  | _ => rfl

end Sys2Proof.Vec
end

section
open Sys2Proof Sys2Proof.Machine

/-- Settles O31: a group is computed element by element, each element from the captured ones, and in its own registers only. -/
theorem vectorElements : Obligations.VectorElements := by
  unfold Obligations.VectorElements
  refine ⟨fun c g rc cc t v d a b e k => ?_, fun c g rc t v d a b k => ?_, fun c i v r h0 h8 _ h => Vec.reg_run_outside c i v r h0 h8 h⟩
  · intro w n m x y z int at_ hk hn hd
    have hact : Vec.Active c t.bits d k := ⟨hk, hn, hd⟩
    obtain ⟨hand, hor, hxor⟩ := Vec.elem_logic hact v a b g
    obtain ⟨hshl, hshr, hsha⟩ := Vec.elem_shifts hact v a b g
    obtain ⟨hsel, hperm⟩ := Vec.elem_selections hact v a b e g
    refine ⟨Vec.elem_vmov hact g a v, hand, hor, hxor, hshl, hshr, hsha, hsel, hperm, fun hi => ?_, fun hf => ?_⟩
    · obtain ⟨hadd, hsub, hmul, hfma, hfms, hfnma⟩ := Vec.elem_int_wrapped hact v a b e g rc hi
      obtain ⟨hsadd, hssub⟩ := Vec.intOf_elem_saturated hact v a b g rc hi
      obtain ⟨hmin, hmax⟩ := Vec.elem_int_minmax hact v a b g hi
      obtain ⟨habs, hneg⟩ := Vec.elem_int_sign hact v a g hi
      exact ⟨hadd, hsub, hmul, hfma, hfms, hfnma, hsadd, hssub, hmin, hmax, habs, hneg, Vec.elem_int_vcmp hact v a b g hi cc⟩
    · obtain ⟨hadd, hsub, hmul, hdiv, hsqrt, hfma, hfms, hfnma⟩ := Vec.elem_flt_rounded hact v a b e g rc hf
      obtain ⟨habs, hneg⟩ := Vec.elem_flt_sign hact v a g hf
      exact ⟨hadd, hsub, hmul, hdiv, hsqrt, hfma, hfms, hfnma, habs, hneg⟩
  · intro wide n int at_ hk hn hd hi
    have hact : Vec.Active c wide.bits d k := ⟨hk, hn, hd⟩
    exact ⟨Vec.elem_widen_int hact hi v a b rc true, Vec.elem_widen_int hact hi v a b rc false⟩

end

section
/-! PROOFS. The special registers, the ring's doublewords and the counters (R103 to R106, R327, R335 to R337). -/
namespace Sys2Proof.Machine

/-! ### The number of a special register (R103, R327) -/

theorem specialCause_low (s : State) {num : Nat} (h : specialLow num = true) : specialCause s num = none := by
  have hlt : num < 0x800 := by simp [specialLow] at h; omega
  simp [specialCause, hlt, h]

theorem specialCause_sup {s : State} (hsup : s.sup = true) {num : Nat} (h : specialSup num = true) : specialCause s num = none := by
  have hge : ¬ num < 0x800 := by simp [specialSup] at h; omega
  simp [specialCause, hge, hsup, h]

/-- R103, R327: every number from 0x800 is the supervisor's. -/
theorem specialCause_user {s : State} (hsup : s.sup = false) {num : Nat} (h : 0x800 ≤ num) : specialCause s num = some 0x0E := by
  simp [specialCause, hsup, Nat.not_lt.mpr h]

theorem specialCause_unnamed {s : State} {num : Nat} (hlow : specialLow num = false) (hsup : specialSup num = false)
    (h : 0x800 ≤ num → s.sup = true) : specialCause s num = some 0x02 := by
  by_cases hn : num < 0x800
  · simp [specialCause, hn, hlow]
  · simp [specialCause, hn, hsup, h (Nat.le_of_not_lt hn)]

/-! ### The forms on special registers (R81, R335) -/

/-- R81: outside its wait for the vector forms of its context, a form on a register that it may use has its effect. -/
theorem specialForm_effect {s : State} {num : Nat} (hc : specialCause s num = none)
    (hb : num = 0x002 → vecBusy s.core (s.cur % 4) = false) (i : Instr) (body : Res State) : specialForm s i num body = body := by
  by_cases h2 : num = 0x002
  · simp [specialForm, hc, hb h2]
  · simp [specialForm, hc, h2]

theorem specialForm_raise {s : State} {num c : Nat} (hc : specialCause s num = some c) (i : Instr) (body : Res State) :
    specialForm s i num body = raiseSlot s i c := by
  simp [specialForm, hc]

theorem specialForm_busy {s : State} (hp : s.inPhase = false) (hb : vecBusy s.core (s.cur % 4) = true) (i : Instr) (body : Res State) :
    specialForm s i 0x002 body = stall s .retry := by
  simp [specialForm, specialCause_low s (num := 0x002) rfl, hb, stallOr, hp]

section
variable {s : State} {g : Guard} (hr : Runs s g)
include hr

/-- R335: MFS of a register that is not ASR, whose value is v. -/
theorem exec_mfs {n : BitVec 12} {num : Nat} {v : Word} (hc : specialCause s num = none) (h2 : num ≠ 0x002) (hv : specialValue s num = v)
    (d : Fin 32) (hn : n.toNat = num) : exec (.mfs g d n) s = .next (s.putS d v) := by
  subst hn
  exact (guarded_runs hr _ _).trans (by rw [specialForm_effect hc (fun h => absurd h h2), hv, finish_ok])

theorem exec_mfs_asr {n : BitVec 12} (hb : vecBusy s.core (s.cur % 4) = false) (d : Fin 32) (hn : n.toNat = 0x002) :
    exec (.mfs g d n) s = .next (s.putS d s.view.asr) := by
  refine (guarded_runs hr _ _).trans ?_
  rw [hn, specialForm_effect (specialCause_low s rfl) (fun _ => hb)]
  rfl

theorem exec_mfs_busy {n : BitVec 12} (hb : vecBusy s.core (s.cur % 4) = true) (d : Fin 32) (hn : n.toNat = 0x002) :
    exec (.mfs g d n) s = finish s (stall s .retry) :=
  (guarded_runs hr _ _).trans (by rw [hn, specialForm_busy hr.2 hb])

theorem exec_mfs_raise {n : BitVec 12} {c : Nat} (hc : specialCause s n.toNat = some c) (d : Fin 32) :
    exec (.mfs g d n) s = .next (takeTrap s ⟨c, (slotInfo s (.mfs g d n)).1, (slotInfo s (.mfs g d n)).2, none⟩) :=
  (guarded_runs hr _ _).trans (by rw [specialForm_raise hc]; rfl)

/-- R335: MTS of a register that is not ASR is what its write answers. -/
theorem exec_mts {n : BitVec 12} {num : Nat} {a : Fin 32} {w : Res State} (hc : specialCause s num = none) (h2 : num ≠ 0x002)
    (hw : specialWrite s (.mts g a n) num (s.rs a) = w) (hn : n.toNat = num) : exec (.mts g a n) s = finish s w := by
  subst hn
  exact (guarded_runs hr _ _).trans (by rw [specialForm_effect hc (fun h => absurd h h2), hw])

theorem exec_mts_asr {n : BitVec 12} (hb : vecBusy s.core (s.cur % 4) = false) (a : Fin 32) (hn : n.toNat = 0x002) :
    exec (.mts g a n) s = .next (s.upd (fun c => { c with asr := s.rs a &&& 0x3F03 })) := by
  refine (guarded_runs hr _ _).trans ?_
  rw [hn, specialForm_effect (specialCause_low s rfl) (fun _ => hb)]
  rfl

theorem exec_mts_busy {n : BitVec 12} (hb : vecBusy s.core (s.cur % 4) = true) (a : Fin 32) (hn : n.toNat = 0x002) :
    exec (.mts g a n) s = finish s (stall s .retry) :=
  (guarded_runs hr _ _).trans (by rw [hn, specialForm_busy hr.2 hb])

end

/-! ### Registers that stand in a row, and those that check what they take -/

theorem specialValue_lvl (s : State) (j : Fin 8) : specialValue s (0x008 + j.val) = s.view.lvl[j] := by
  fin_cases j <;> rfl

theorem specialValue_tsh (s : State) (j : Fin 8) : specialValue s (0x010 + j.val) = s.core.tsh[j] := by
  fin_cases j <;> rfl

theorem specialLow_lvl (j : Fin 8) : specialLow (0x008 + j.val) = true := by revert j; decide

theorem specialLow_tsh (j : Fin 8) : specialLow (0x010 + j.val) = true := by revert j; decide

theorem specialWrite_vsh {v : Word} (h : Vec.legalVsh v.toNat = true) (s : State) (i : Instr) :
    specialWrite s i 0x003 v = .ok (s.upd (fun c => { c with vsh := v })) := by
  simp [specialWrite, h]

theorem specialWrite_vsh_illegal {v : Word} (h : Vec.legalVsh v.toNat = false) (s : State) (i : Instr) :
    specialWrite s i 0x003 v = raise 0x22 v (slotInfo s i).2 := by
  simp [specialWrite, h]

/-- R229, R230: what a write of TSH j answers, by the claim and the shape. -/
theorem specialWrite_tsh (s : State) (i : Instr) (j : Fin 8) (v : Word) :
    specialWrite s i (0x010 + j.val) v =
      if !(s.core.claim == some s.ctxNo && !s.core.releasing) then raiseOpen s 0x30
      else if !Mat.legalTsh v.toNat then raiseOpen s 0x32
      else .ok (s.updCore (fun k => { k with tsh := k.tsh.set j v })) := by
  fin_cases j <;> rfl

/-- A trap whose information is open has its cause, and some TINFOA and TINFOB. -/
theorem finish_raiseOpen (s : State) (c : Nat) : ∃ x y, finish s (raiseOpen s c) = .next (takeTrap s ⟨c, x, y, none⟩) := ⟨_, _, rfl⟩

/-- R103, R335: a write of a read-only register leaves it. -/
theorem specialWrite_readOnly {num : Nat}
    (h : num ≤ 0x001 ∨ (0x004 ≤ num ∧ num ≤ 0x00F) ∨ num = 0x020 ∨ num = 0x021 ∨ num = 0x023 ∨ num = 0x024 ∨ num = 0x040)
    (s : State) (i : Instr) (v : Word) : specialWrite s i num v = .ok s := by
  have hrow : (0x010 ≤ num && num ≤ 0x017) = false := by simp; omega
  unfold specialWrite
  rw [if_neg (by simp [hrow])]
  split
  case h_12 => rfl
  all_goals omega

/-! ### The doublewords of a ring entry (R205, R336) -/

/-- R205, R336: the eight doublewords of a ring entry, by its fields. -/
def ringDword (e : RingEntry) (dw : Fin 8) : Word :=
  match dw with
  | 0 => e.insn.setWidth 64
  | 1 => BitVec.ofNat 64 (e.insn.toNat / 2 ^ 64 + e.tseq % 2 ^ 16 * 2 ^ 32 + e.ctx.val * 2 ^ 48 + e.pass % 2 ^ 8 * 2 ^ 50 + e.state % 4 * 2 ^ 58)
  | 2 => e.pc
  | 3 => e.opa
  | 4 => e.opb
  | 5 => e.opc
  | 6 => BitVec.ofNat 64 (e.vshc.toNat + e.rm.toNat * 2 ^ 28)
  | 7 => BitVec.ofNat 64 (e.rep.toNat + (if e.repv then 2 ^ 15 else 0))

/-- R205: the fields stand in the entry's word at their places. -/
theorem ofNat_ringWord (e : RingEntry) (dw : Fin 8) : BitVec.ofNat 64 (ringWord e >>> (64 * dw.val)) = ringDword e dw := by
  have hinsn := e.insn.isLt
  have hctx := e.ctx.isLt
  have hpc := e.pc.isLt
  have hopa := e.opa.isLt
  have hopb := e.opb.isLt
  have hopc := e.opc.isLt
  have hvshc := e.vshc.isLt
  have hrm := e.rm.isLt
  have hrep := e.rep.isLt
  have hrepv : Bits.b2n e.repv * 2 ^ 15 = if e.repv then 2 ^ 15 else 0 := by cases e.repv <;> rfl
  apply BitVec.eq_of_toNat_eq
  fin_cases dw <;>
    simp only [ringDword, ringWord, BitVec.toNat_ofNat, BitVec.toNat_setWidth, Nat.shiftRight_eq_div_pow] <;> norm_num at * <;> omega

section
variable {s : State} {g : Guard} (hr : Runs s g)
include hr

/-- R336: RDRING gives the doubleword of the entry. -/
theorem exec_rdring (dw : Fin 8) (d : Fin 32) (a : Opnd) :
    exec (.rdring g dw d a) s = .next (s.putS d (ringDword (s.core.entry (s.src a).toNat) dw)) := by
  refine (guarded_runs hr _ _).trans ?_
  rw [ofNat_ringWord, finish_ok]

/-- R337: PCNT gives the counter, and clears it with .clr. -/
theorem exec_pcnt {ctr : BitVec 8} {num : Nat} (h9 : num < 9) (d : Fin 32) (clr : Bool) (hn : ctr.toNat = num) :
    exec (.pcnt g d ctr clr) s =
      .next (if clr then clearCounter (s.putS d (counter s num)) num else s.putS d (counter s num)) := by
  subst hn
  refine (guarded_runs hr _ _).trans ?_
  rw [if_neg (Nat.not_le.mpr h9)]
  rfl

theorem exec_pcnt_raise {ctr : BitVec 8} (h9 : 9 ≤ ctr.toNat) (d : Fin 32) (clr : Bool) :
    exec (.pcnt g d ctr clr) s =
      .next (takeTrap s ⟨0x02, (slotInfo s (.pcnt g d ctr clr)).1, (slotInfo s (.pcnt g d ctr clr)).2, none⟩) := by
  refine (guarded_runs hr _ _).trans ?_
  rw [if_pos h9]
  rfl

end

end Sys2Proof.Machine

open Sys2Proof Sys2Proof.Machine

/-- Settles O56: a register's number passes its checks, its value and its write are the tables', a ring entry is eight doublewords, and each counter
has its own clear. -/
theorem specialRegisters : Obligations.SpecialRegisters := by
  unfold Obligations.SpecialRegisters
  refine ⟨fun g d n s hr => ?_, fun g a n s hr => ?_, fun g dw d a s hr => ?_, fun g d ctr clr s hr => ?_⟩
  · intro i reads
    have low {num : Nat} {v : Word} (hl : specialLow num = true) (h2 : num ≠ 0x002) (hv : specialValue s num = v) : reads num v :=
      exec_mfs hr (specialCause_low s hl) h2 hv d
    have sup (hs : s.sup = true) {num : Nat} {v : Word} (hl : specialSup num = true) (h2 : num ≠ 0x002) (hv : specialValue s num = v) :
        reads num v := exec_mfs hr (specialCause_sup hs hl) h2 hv d
    refine ⟨fun hn hb => ?_, low rfl (by decide) rfl, low rfl (by decide) rfl, fun hb => exec_mfs_asr hr hb d, low rfl (by decide) rfl,
      low rfl (by decide) rfl, low rfl (by decide) rfl, low rfl (by decide) rfl, low rfl (by decide) rfl, fun j => ⟨?_, ?_⟩,
      low rfl (by decide) rfl, low rfl (by decide) rfl, low rfl (by decide) rfl, low rfl (by decide) rfl, low rfl (by decide) rfl,
      low rfl (by decide) rfl, low rfl (by decide) rfl, low rfl (by decide) rfl, low rfl (by decide) rfl, low rfl (by decide) rfl,
      low rfl (by decide) rfl, low rfl (by decide) rfl, fun hs => ⟨?_, ?_, ?_⟩, fun h8 hs => ?_, fun hn => ?_⟩
    · obtain ⟨t, ht, hstalled, hctx, -⟩ := finish_stall s s .retry
      exact ⟨t, (exec_mfs_busy hr hb d hn).trans ht, hctx, hstalled⟩
    · exact low (specialLow_lvl j) (by omega) (specialValue_lvl s j)
    · exact low (specialLow_tsh j) (by omega) (specialValue_tsh s j)
    · exact sup hs rfl (by decide) rfl
    · exact sup hs rfl (by decide) rfl
    · exact sup hs rfl (by decide) rfl
    · exact exec_mfs_raise hr (specialCause_user hs h8) d
    · refine exec_mfs_raise hr (specialCause_unnamed ?_ ?_ fun h8 => ?_) d
      · simp [specialLow]; omega
      · simp [specialSup]; omega
      · obtain h | h | h | h | ⟨-, hs⟩ := hn
        case inr.inr.inr.inr => exact hs
        all_goals omega
  · intro i v writes
    have low {num : Nat} {t : State} (hl : specialLow num = true) (h2 : num ≠ 0x002) (hw : specialWrite s i num v = .ok t) : writes num t :=
      exec_mts hr (specialCause_low s hl) h2 hw
    have sup (hs : s.sup = true) {num : Nat} {t : State} (hl : specialSup num = true) (h2 : num ≠ 0x002)
        (hw : specialWrite s i num v = .ok t) : writes num t := exec_mts hr (specialCause_sup hs hl) h2 hw
    refine ⟨fun hn hb => ?_, fun hb => exec_mts_asr hr hb a, fun hv => low rfl (by decide) (specialWrite_vsh hv s i), fun hv => ?_,
      fun j => ⟨fun hc hrel hv => ?_, fun hc => ?_, fun hc hrel hv => ?_⟩, low rfl (by decide) rfl, low rfl (by decide) rfl,
      low rfl (by decide) rfl, low rfl (by decide) rfl, low rfl (by decide) rfl, low rfl (by decide) rfl, low rfl (by decide) rfl,
      fun hs => ⟨?_, ?_, ?_⟩, fun hn => ?_⟩
    · obtain ⟨t, ht, hstalled, hctx, -⟩ := finish_stall s s .retry
      exact ⟨t, (exec_mts_busy hr hb a hn).trans ht, hctx, hstalled⟩
    · exact exec_mts hr (specialCause_low s rfl) (by decide) (specialWrite_vsh_illegal hv s i)
    · exact low (specialLow_tsh j) (by omega) (by simp [specialWrite_tsh, hc, hrel, hv])
    · intro hn
      rw [exec_mts hr (specialCause_low s (specialLow_tsh j)) (by omega) (w := raiseOpen s 0x30) (by simp [specialWrite_tsh, hc]) hn]
      exact finish_raiseOpen s 0x30
    · intro hn
      rw [exec_mts hr (specialCause_low s (specialLow_tsh j)) (by omega) (w := raiseOpen s 0x32) (by simp [specialWrite_tsh, hc, hrel, v, hv]) hn]
      exact finish_raiseOpen s 0x32
    · exact sup hs rfl (by decide) rfl
    · exact sup hs rfl (by decide) rfl
    · exact sup hs rfl (by decide) rfl
    · exact low (by simp [specialLow]; omega) (by omega) (specialWrite_readOnly hn s i v) rfl
  · intro e gives
    have word {j : Fin 8} {v : Word} (hv : ringDword e j = v) : gives j.val v := by
      intro hj
      rw [exec_rdring hr, Fin.ext hj, hv]
    exact ⟨word (j := 0) rfl, word (j := 1) rfl, word (j := 2) rfl, word (j := 3) rfl, word (j := 4) rfl, word (j := 5) rfl,
      word (j := 6) rfl, word (j := 7) rfl⟩
  · intro i counts
    have each {num : Nat} (h9 : num < 9) (hn : ctr.toNat = num) := exec_pcnt hr h9 d clr hn
    exact ⟨each (by decide), each (by decide), each (by decide), each (by decide), each (by decide), each (by decide), each (by decide),
      each (by decide), each (by decide), fun h9 => exec_pcnt_raise hr h9 d clr⟩

end

section
/-! PROOFS. Atomics, and the forms on exact cells (R88, R133, R136, R152). -/
namespace Sys2Proof.Machine

/-! ### Who acts while a line is written at its home (R152, R192, R347) -/

theorem logLine_cur (s : State) (g l : Nat) : (logLine s g l).cur = s.cur := by
  unfold logLine
  extract_lets gang log
  split
  · rfl
  · split
    · split <;> rfl
    · rfl

theorem reportWrite_cur (s : State) (old : Memory) (pa n : Nat) : (reportWrite s old pa n).cur = s.cur := by
  obtain ⟨m, l, r, h⟩ := reportWrite_homes s old pa n
  rw [h]

theorem putBytes_cur (s : State) (g pa : Nat) (bs : List Byte) : (putBytes s g pa bs).cur = s.cur := by
  unfold putBytes
  extract_lets l s1 m s2 c s3
  have h2 : s2.cur = s1.cur := by simp only [s2]; split <;> rfl
  have h3 : s3.cur = s2.cur := by simp only [s3]; split <;> rfl
  rw [reportWrite_cur]
  exact h3.trans (h2.trans (logLine_cur s g l))

/-- R152: what core an address is away from does not change with a store of the acting context. -/
theorem offCore_homeStep (s : State) (pa : Nat) (bs : List Byte) (a : Nat) : offCore (homeStep s pa bs) a = offCore s a := by
  have hcur : (homeStep s pa bs).cur = s.cur := putBytes_cur _ _ _ _
  simp only [offCore, State.coreKey, hcur]

/-! ### Atomics (R133) -/

/-- R133, R152: a granted atomic makes one read-modify-write at the home and answers the old value. -/
theorem atomicForm_granted {s : State} {i : Instr} {t : Ty} {m : Mem} {r : Grant}
    (hg : Granted s i (s.ea m) (t.bits / 8) (t.bits / 8) .rmw false r) (hw : Whole r.s) (d : Option (Fin 32)) (data : List Byte)
    (new : Nat → Nat) :
    let old := r.s.numAt r.pa (t.bits / 8)
    let y := homeStep r.s r.pa (Bits.bytesLE (t.bits / 8) (new old))
    atomicForm s i t d m data new = .ok (d.elim y fun q => answerS y q (Vec.extend t old) 0 (offCore r.s r.pa)) := by
  obtain ⟨hgrant, hin, hpair⟩ := hg
  obtain ⟨hsent, hsteps⟩ := hw
  intro old y
  have hbody : atomicForm s i t d m data new = accessMessage r.s 4 r.pa data
      (fun s =>
        let (s, old) := rmwStep s r.pa (t.bits / 8) (fun bs => Bits.bytesLE (t.bits / 8) (new (Bits.ofBytesLE bs)))
        (s, (some (Vec.extend t (Bits.ofBytesLE old)), [])))
      (fun s a => match d with
        | some q => answerS s q (a.1.getD 0) 0 (offCore s r.pa)
        | none => s) := by
    refine (congrArg (fun x => x >>= _) hgrant).trans ?_
    exact if_neg (by simp [hin])
  rw [hbody, accessMessage_solo hpair hsent hsteps]
  cases d with
  | none => rfl
  | some q => exact congrArg (fun b => Except.ok (answerS y q (Vec.extend t old) 0 b)) (offCore_homeStep _ _ _ _)

/-- R61: the operand of an integer atomic is the low bits of its source. -/
theorem atomPat_int {t : Ty} (ht : t.isInt = true) (s : State) (c : Opnd) : atomPat s t c = ((s.src c).setWidth t.bits).toNat := by
  have hflt : t.isFlt = false := by revert ht; cases t <;> decide
  rw [BitVec.toNat_setWidth]
  cases c
  case imm i => simp [atomPat, hflt, State.src]
  all_goals rfl

/-- R133: the new value of an atomic of an integer type. -/
def intAtomic (t : Ty) (fn : AmoFn) (old x : Nat) : Nat :=
  match fn with
  | .swap => x
  | .add => (old + x) % 2 ^ t.bits
  | .and => old &&& x
  | .or => old ||| x
  | .xor => old ^^^ x
  | .min => if Num.intVal t x < Num.intVal t old then x else old
  | .max => if Num.intVal t old < Num.intVal t x then x else old

theorem amoFn_eq (t : Ty) (fn : AmoFn) (old x : Nat) :
    amoFn t fn old x = if t.isInt then intAtomic t fn old x else amoFn t fn old x := by
  split
  case isTrue ht => cases fn <;> simp [amoFn, intAtomic, elemAdd, ht]
  case isFalse => rfl

/-! ### Exact cells (R136) -/

theorem checkCell_ok {s : State} {i : Instr} {ea : Word} {al : Nat} {m : Mode} {x : State × Nat} (h : checkMode s i ea al m = .ok x)
    (exact : Bool) : checkCell s i ea al m exact = .ok x := by
  simp [checkCell, h, onTrap]

/-- R136: an exact address in region 1 beyond its scratchpad. -/
theorem checkCell_beyond {s s1 : State} {i : Instr} {ea : Word} {al : Nat} {m : Mode} {t : TrapInfo}
    (h : checkMode s i ea al m = .error (.after s1 t)) (hc : t.cause = 0x15) :
    checkCell s i ea al m true = raiseFrom s1 0x16 ea 0 := by
  simp [checkCell, h, onTrap, hc, raiseFrom]

theorem cellSpace_device {pa : Nat} (h : paReg pa = 0) {α : Type} (s : State) (ea : Word) (exact : Bool) (r : Res α) :
    cellSpace s ea pa exact r = r := by
  simp [cellSpace, h]

theorem cellSpace_elsewhere {pa : Nat} (h : paReg pa ≠ 0) {α : Type} (s : State) (ea : Word) (r : Res α) :
    cellSpace s ea pa true r = raiseFrom s 0x16 ea 0 := by
  simp [cellSpace, h]

section
variable {s : State} {g : Guard} (hr : Runs s g)
include hr

/-- R133, R152: AMO that is granted. -/
theorem exec_amo_granted {t : Ty} {fn : AmoFn} {d : Option (Fin 32)} {c : Opnd} {m : Mem} {r : Grant}
    (hg : Granted s (.amo g t fn d c m) (s.ea m) (t.bits / 8) (t.bits / 8) .rmw false r) (hw : Whole r.s) :
    let old := r.s.numAt r.pa (t.bits / 8)
    let x := atomPat s t c
    let y := homeStep r.s r.pa (Bits.bytesLE (t.bits / 8) (if t.isInt then intAtomic t fn old x else amoFn t fn old x))
    exec (.amo g t fn d c m) s = .next (d.elim y fun q => answerS y q (Vec.extend t old) 0 (offCore r.s r.pa)) := by
  intro old x y
  refine (guarded_runs hr _ _).trans ?_
  rw [atomicForm_granted hg hw, amoFn_eq, finish_ok]

/-- R133, R152: CAS that is granted. -/
theorem exec_cas_granted {t : Ty} {e : Fin 32} {c : Opnd} {m : Mem} {r : Grant}
    (hg : Granted s (.cas g t e c m) (s.ea m) (t.bits / 8) (t.bits / 8) .rmw false r) (hw : Whole r.s) :
    let old := r.s.numAt r.pa (t.bits / 8)
    let new := if old = (s.rs e).toNat % 2 ^ t.bits then atomPat s t c else old
    exec (.cas g t e c m) s = .next
      (answerS (homeStep r.s r.pa (Bits.bytesLE (t.bits / 8) new)) e (Vec.extend t old) 0 (offCore r.s r.pa)) := by
  intro old new
  refine (guarded_runs hr _ _).trans ?_
  rw [atomicForm_granted hg hw]
  rfl

/-- R88, R136: XRD of a granted cell in device memory. -/
theorem exec_xrd_granted {d : Fin 32} {m : Mem} {s1 : State} {pa : Nat} {r : Grant}
    (hc : checkMode s (.xrd g d m) (s.ea m) 16 .read = .ok (s1, pa)) (hpa : paReg pa = 0)
    (hg : Granted s (.xrd g d m) (s.ea m) 16 16 .read false r) :
    let x := loadBytes r.s r.pa 16
    let v := Num.cellRead (Bits.ofBytesLE x.2.1)
    exec (.xrd g d m) s = .next (answerS x.1 d (BitVec.ofNat 64 v.1) v.2 x.2.2) := by
  obtain ⟨hgrant, hin, hpair⟩ := hg
  refine (guarded_runs hr _ _).trans ?_
  rw [← finish_ok s]
  refine congrArg (finish s) ?_
  rw [checkCell_ok hc]
  refine (cellSpace_device hpa _ _ _ _).trans ?_
  rw [hgrant]
  refine (if_neg (by simp [hin])).trans ?_
  rw [loadMessage, hpair]
  rfl

/-- R136: XCLR of a granted cell in device memory. -/
theorem exec_xclr_granted {c : Opnd} {m : Mem} {s1 : State} {pa : Nat} {r : Grant}
    (hc : checkMode s (.xclr g c m) (s.ea m) 16 .rmw = .ok (s1, pa)) (hpa : paReg pa = 0)
    (hg : Granted s (.xclr g c m) (s.ea m) 16 16 .rmw false r) (hw : Whole r.s) :
    exec (.xclr g c m) s = .next (homeStep r.s r.pa (Bits.bytesLE 16 ((s.src c).toNat % 256 * 2 ^ 120))) := by
  obtain ⟨hgrant, hin, hpair⟩ := hg
  refine (guarded_runs hr _ _).trans ?_
  rw [← finish_ok s]
  refine congrArg (finish s) ?_
  rw [checkCell_ok hc]
  refine (cellSpace_device hpa _ _ _ _).trans ?_
  rw [hgrant]
  refine (if_neg (by simp [hin])).trans ?_
  rw [accessMessage_solo hpair hw.1 hw.2]
  rfl

/-- R136: the check of its cell is the first thing that XRD and XCLR do; where it fails they raise its cause. -/
theorem exec_cell_refused {i : Instr} {mode : Mode} {d : Fin 32} {c : Opnd} {m : Mem} {s1 : State}
    (hi : (i = .xrd g d m ∧ mode = .read) ∨ (i = .xclr g c m ∧ mode = .rmw))
    (h : checkCell s i (s.ea m) 16 mode true = raiseFrom s1 0x16 (s.ea m) 0 ∨
      ∃ pa, checkCell s i (s.ea m) 16 mode true = .ok (s1, pa) ∧ paReg pa ≠ 0) :
    exec i s = .next (takeTrap s1 ⟨0x16, s.ea m, 0, none⟩) := by
  rcases hi with ⟨rfl, rfl⟩ | ⟨rfl, rfl⟩ <;> refine (guarded_runs hr _ _).trans ?_ <;> rcases h with h | ⟨pa, h, hpa⟩ <;> rw [h]
  · rfl
  · exact congrArg (finish s) (cellSpace_elsewhere hpa _ _ _)
  · rfl
  · exact congrArg (finish s) (cellSpace_elsewhere hpa _ _ _)

end

end Sys2Proof.Machine

open Sys2Proof Sys2Proof.Machine

/-- Settles O25: an atomic is one read-modify-write whose new value is its function of the old one; a cell is looked up, and elsewhere refused, before
anything else is done with it. -/
theorem atomics : Obligations.Atomics := by
  unfold Obligations.Atomics
  refine ⟨fun g t fn d e c m s r hr => ?_, fun g d c m s s1 pa r hr => ⟨exec_xrd_granted hr, exec_xclr_granted hr, fun i mode hi => ⟨?_, ?_⟩⟩⟩
  · intro n x old
    have hx : x = atomPat s t c := by
      by_cases ht : t.isInt = true
      · exact (if_pos ht).trans (atomPat_int ht s c).symm
      · exact if_neg ht
    refine ⟨fun hg hw => ?_, fun hg hw => ?_⟩
    · refine (exec_amo_granted hr hg hw).trans ?_
      rw [← hx]
      cases d <;> rfl
    · refine (exec_cas_granted hr hg hw).trans ?_
      rw [← hx, ← BitVec.toNat_setWidth]
  · exact fun t h hc => exec_cell_refused hr hi (.inl (checkCell_beyond h hc))
  · exact fun h hpa => exec_cell_refused hr hi (.inr ⟨pa, checkCell_ok h true, hpa⟩)

end

section
/-! PROOFS. Exact sums of finite values, and the block of a product rounded once (R74, R89, R90). -/
namespace Sys2Proof.Num

/-! ### Finite values (R73) -/

theorem Val.isNaN_of_isFin {v : Val} (h : v.isFin = true) : v.isNaN = false := by
  match v, h with
  | .fin .., _ => rfl

theorem Val.isSNaN_of_isFin {v : Val} (h : v.isFin = true) : v.isSNaN = false := by
  match v, h with
  | .fin .., _ => rfl

theorem Val.isInf_of_isFin {v : Val} (h : v.isFin = true) : v.isInf = false := by
  match v, h with
  | .fin .., _ => rfl

theorem isFin_ofInt (z : Bool) (v e : Int) : (ofInt z v e).isFin = true := by unfold ofInt; split <;> rfl

theorem rat_ofInt (z : Bool) (v e : Int) : (ofInt z v e).rat = v * 2 ^ e := by
  unfold ofInt
  split
  case isTrue h => simp [Val.rat, h]
  case isFalse h =>
    have hsign : ((if decide (v < 0) = true then -1 else 1) * (v.natAbs : ℚ)) = v := by
      simp only [decide_eq_true_eq, Nat.cast_natAbs]
      split
      case isTrue hv => rw [abs_of_neg hv]; push_cast; ring
      case isFalse hv => rw [abs_of_nonneg (not_lt.mp hv), one_mul]
    simp only [Val.rat, hsign]

/-- R74: the product of finite values is exact. -/
theorem prod_of_isFin {a b : Val} (ha : a.isFin = true) (hb : b.isFin = true) :
    ∃ p, prod a b = some p ∧ p.isFin = true ∧ p.rat = a.rat * b.rat := by
  obtain _ | _ | ⟨na, ma, ea⟩ := a
  case fin =>
    obtain _ | _ | ⟨nb, mb, eb⟩ := b
    case fin =>
      refine ⟨.fin (na != nb) (ma * mb) (ea + eb), rfl, rfl, ?_⟩
      have hpow : (2 : ℚ) ^ (ea + eb) = 2 ^ ea * 2 ^ eb := zpow_add₀ two_ne_zero ea eb
      simp only [Val.rat, hpow]
      cases na <;> cases nb <;> simp <;> ring
    all_goals cases hb
  all_goals cases ha

/-! ### Exact sums (R74, R90) -/

/-- A number times a power of two, over a smaller exponent. -/
theorem mul_two_zpow_of_le (v : ℚ) {e x : Int} (h : e ≤ x) : v * 2 ^ x = v * 2 ^ (x - e).toNat * 2 ^ e := by
  rw [mul_assoc, ← zpow_natCast (2 : ℚ), Int.toNat_of_nonneg (sub_nonneg.mpr h), ← zpow_add₀ two_ne_zero, sub_add_cancel]

theorem addFin_rat {ts : List Val} (h : ∀ t ∈ ts, t.isFin = true) : ((addFin ts).1 : ℚ) * 2 ^ (addFin ts).2 = (ts.map Val.rat).sum := by
  induction ts with
  | nil => simp [addFin]
  | cons t ts ih =>
    have hrest := ih fun u hu => h u (List.mem_cons_of_mem t hu)
    obtain _ | _ | ⟨n, m, e⟩ := t
    case fin =>
      generalize hv : (if n then -(m : Int) else m) = v
      have hval : (Val.fin n m e).rat = (v : ℚ) * 2 ^ e := by
        rw [← hv]
        cases n <;> simp [Val.rat]
      rw [List.map_cons, List.sum_cons, ← hrest, hval]
      simp only [addFin, hv]
      split
      case isTrue hm =>
        have hzero : v = 0 := by rw [← hv, hm]; cases n <;> rfl
        simp [hzero]
      case isFalse =>
        split
        case isTrue hs => simp [hs]
        case isFalse =>
          split
          case isTrue hle =>
            rw [mul_two_zpow_of_le _ hle]
            push_cast
            ring
          case isFalse hlt =>
            rw [mul_two_zpow_of_le (v : ℚ) (not_le.mp hlt).le]
            push_cast
            ring
    all_goals cases h _ (List.mem_cons_self ..)

/-- R74: the sum of finite terms is exact. -/
theorem sumTerms_of_isFin (rm : Rm) {ts : List Val} (h : ∀ t ∈ ts, t.isFin = true) :
    ∃ v, sumTerms rm ts = (v, false) ∧ v.isFin = true ∧ v.rat = (ts.map Val.rat).sum := by
  have hpos : ts.any (fun t => t.isInf && !t.neg) = false :=
    List.any_eq_false.mpr fun t ht => by simp [Val.isInf_of_isFin (h t ht)]
  have hneg : ts.any (fun t => t.isInf && t.neg) = false :=
    List.any_eq_false.mpr fun t ht => by simp [Val.isInf_of_isFin (h t ht)]
  simp only [sumTerms, hpos, hneg, Bool.and_self, Bool.false_eq_true, if_false]
  exact ⟨_, rfl, isFin_ofInt _ _ _, (rat_ofInt _ _ _).trans (addFin_rat h)⟩

/-- R90: the products of finite operands. -/
theorem map_prod_of_isFin {ps : List (Val × Val)} (h : ∀ p ∈ ps, p.1.isFin = true ∧ p.2.isFin = true) :
    ∃ vs : List Val, ps.map (fun p => prod p.1 p.2) = vs.map some ∧ (∀ v ∈ vs, v.isFin = true) ∧
      vs.map Val.rat = ps.map (fun p => p.1.rat * p.2.rat) := by
  induction ps with
  | nil => exact ⟨[], rfl, by simp, rfl⟩
  | cons p ps ih =>
    obtain ⟨v, hv, hfin, hrat⟩ := prod_of_isFin (h p (List.mem_cons_self ..)).1 (h p (List.mem_cons_self ..)).2
    obtain ⟨vs, hvs, hfins, hrats⟩ := ih fun q hq => h q (List.mem_cons_of_mem p hq)
    refine ⟨v :: vs, ?_, List.forall_mem_cons.mpr ⟨hfin, hfins⟩, ?_⟩
    · simp only [List.map_cons, hv, hvs]
    · simp only [List.map_cons, hrat, hrats]

/-- R90: the sum of the products of finite operands is exact, and sets no flag. -/
theorem sumProducts_of_isFin (rm : Rm) {ps : List (Val × Val)} (h : ∀ p ∈ ps, p.1.isFin = true ∧ p.2.isFin = true) :
    ∃ v, sumProducts rm ps [] = (v, 0) ∧ v.isFin = true ∧ v.rat = (ps.map fun p => p.1.rat * p.2.rat).sum := by
  obtain ⟨vs, hvs, hfins, hrats⟩ := map_prod_of_isFin h
  obtain ⟨v, hv, hfin, hrat⟩ := sumTerms_of_isFin rm hfins
  have hops : ∀ o ∈ ps.flatMap (fun p => [p.1, p.2]), o.isFin = true := by
    intro o ho
    obtain ⟨p, hp, ho⟩ := List.mem_flatMap.mp ho
    rcases List.mem_pair.mp ho with rfl | rfl
    exacts [(h p hp).1, (h p hp).2]
  have hclean : ps.filter (fun p => !p.1.isNaN && !p.2.isNaN) = ps :=
    List.filter_eq_self.mpr fun p hp => by simp [Val.isNaN_of_isFin (h p hp).1, Val.isNaN_of_isFin (h p hp).2]
  have hnone : (vs.map some).any Option.isNone = false := by simp
  have hterms : (vs.map some).filterMap id = vs := by simp
  have hquiet : (ps.flatMap (fun p => [p.1, p.2])).any Val.isSNaN = false :=
    List.any_eq_false.mpr fun o ho => by simp [Val.isSNaN_of_isFin (hops o ho)]
  have hfirst : firstNaN (ps.flatMap fun p => [p.1, p.2]) = none := by
    rw [firstNaN, List.find?_eq_none.mpr fun o ho => by simp [Val.isNaN_of_isFin (hops o ho)]]
    rfl
  refine ⟨v, ?_, hfin, by rw [hrat, hrats]⟩
  simp only [sumProducts, hclean, hvs, hnone, hterms, List.append_nil, List.filter_nil, hv, hquiet, hfirst]
  rfl

/-- R89: a block of finite products onto a finite cell is their exact sum, rounded once. -/
theorem mmaBlock_of_isFin (f : FFmt) (rm : Rm) {acc : Nat} {ps : List (Val × Val)} (hacc : (unpack f acc).isFin = true)
    (h : ∀ p ∈ ps, p.1.isFin = true ∧ p.2.isFin = true) :
    ∃ v, mmaBlock f rm acc ps = pack f rm v ∧ v.isFin = true ∧
      v.rat = (unpack f acc).rat + (ps.map fun p => p.1.rat * p.2.rat).sum := by
  obtain ⟨s, hs, hsfin, hsrat⟩ := sumProducts_of_isFin rm h
  have hboth : ∀ t ∈ [unpack f acc, s], t.isFin = true := by simp [hacc, hsfin]
  obtain ⟨v, hv, hfin, hrat⟩ := sumTerms_of_isFin rm hboth
  have hflags (x : Flg) : x ||| (0 ||| 0) = x := by simp
  refine ⟨v, ?_, hfin, by rw [hrat, ← hsrat]; simp⟩
  simp only [mmaBlock, hs, Val.isNaN_of_isFin hacc, Val.isNaN_of_isFin hsfin, hv, packR, flagIf, Bool.false_eq_true, if_false,
    hflags]

end Sys2Proof.Num
end

section
/-! PROOFS. The cells of an accumulator after a product, and its status byte (R89, R232, R233, R246, R248). -/
namespace Sys2Proof.Mat
open Sys2Proof.Num

/-! ### Fields of a concatenation (R229, R232) -/

theorem catBits_lt (b : Nat) (xs : List Nat) : catBits b xs < 2 ^ (b * xs.length) := by
  induction xs with
  | nil => exact Nat.one_pos
  | cons x xs ih =>
    have hx : x % 2 ^ b < 2 ^ b := Nat.mod_lt _ (Nat.two_pow_pos b)
    calc catBits b (x :: xs) < 2 ^ b + 2 ^ b * catBits b xs := Nat.add_lt_add_right hx _
      _ = 2 ^ b * (catBits b xs + 1) := by ring
      _ ≤ 2 ^ b * 2 ^ (b * xs.length) := Nat.mul_le_mul_left _ ih
      _ = 2 ^ (b * (x :: xs).length) := by rw [← pow_add, List.length_cons, mul_add, mul_one, add_comm b]

/-- Field k of a concatenation is its k-th entry. -/
theorem catBits_field (b : Nat) (xs : List Nat) (k : Nat) : catBits b xs / 2 ^ (b * k) % 2 ^ b = xs.getD k 0 % 2 ^ b := by
  induction xs generalizing k with
  | nil => simp [catBits]
  | cons x xs ih =>
    have hx : x % 2 ^ b < 2 ^ b := Nat.mod_lt _ (Nat.two_pow_pos b)
    cases k with
    | zero => simp [catBits, Nat.add_mul_mod_self_left]
    | succ k =>
      have htail : catBits b (x :: xs) / 2 ^ b = catBits b xs := by
        rw [catBits, Nat.add_mul_div_left _ _ (Nat.two_pow_pos b), Nat.div_eq_of_lt hx, zero_add]
      rw [mul_add, mul_one, add_comm (b * k), pow_add, ← Nat.div_div_eq_div_mul, htail, ih, List.getD_cons_succ]

/-- A field within the low n bits is a field of the number modulo 2^n. -/
theorem mod_two_pow_field {n m b : Nat} (h : m + b ≤ n) (x : Nat) : x % 2 ^ n / 2 ^ m % 2 ^ b = x / 2 ^ m % 2 ^ b := by
  apply Nat.eq_of_testBit_eq
  intro i
  simp only [Nat.testBit_mod_two_pow, Nat.testBit_div_two_pow]
  by_cases hi : i < b
  · simp [hi, show i + m < n by omega]
  · simp [hi]

/-- Cell x of the accumulators that hold 1,024 cell patterns. -/
theorem cell_ofCells (wide : Bool) (hi : Nat) (cs : List Nat) (x : Nat) :
    cell wide (ofCells wide hi cs).1 (ofCells wide hi cs).2 x = cs.getD x 0 % 2 ^ (if wide then 64 else 32) := by
  have hlow := catBits_field 32 cs x
  have hhigh := catBits_field 32 (cs.map (· / 2 ^ 32)) x
  have hget : (cs.map (· / 2 ^ 32)).getD x 0 = cs.getD x 0 / 2 ^ 32 := List.getD_map cs 0 (· / 2 ^ 32)
  cases wide
  · simp only [cell, ofCells, Nat.shiftRight_eq_div_pow, Bool.false_eq_true, if_false, hlow]
  · simp only [cell, ofCells, Nat.shiftRight_eq_div_pow, if_true, hlow, hhigh, hget]
    omega

/-! ### The cells of a product (R89) -/

/-- R89: a cell after a product: its pattern, and the flags of its blocks. -/
def cellAfter (ty : Ty) (rm : Rm) (lo hi K : Nat) (a : Nat → Nat → Option Val) (b : Nat → Nat → Val) (x : Nat) : Nat × Flg :=
  let wide := ty = .f64
  let L := blockLen ty
  (List.range (Bits.ceilDiv K L)).foldl (fun (st : Nat × Flg) q =>
    let r := mmaBlock (if wide then f64 else f32) rm st.1 ((List.range (min K ((q + 1) * L) - q * L)).filterMap (fun k =>
      (a (x / 32) (q * L + k)).map (fun y => (y, b (q * L + k) (x % 32)))))
    (r.1, st.2 ||| r.2)) (cell wide lo hi x, 0)

theorem product_eq (ty : Ty) (rm : Rm) (lo hi K : Nat) (a : Nat → Nat → Option Val) (b : Nat → Nat → Val) :
    product ty rm lo hi K a b =
      let rs := (List.range 1024).map (cellAfter ty rm lo hi K a b)
      (ofCells (ty = .f64) hi (rs.map Prod.fst), rs.foldl (fun g r => g ||| r.2) 0) := rfl

/-- R89: K products that make one block. -/
theorem cellAfter_block {ty : Ty} {K : Nat} (h1 : 1 ≤ K) (hK : K ≤ blockLen ty) (rm : Rm) (lo hi : Nat) (a : Nat → Nat → Option Val)
    (b : Nat → Nat → Val) (x : Nat) :
    cellAfter ty rm lo hi K a b x = mmaBlock (if ty = .f64 then f64 else f32) rm (cell (ty = .f64) lo hi x)
      ((List.range K).filterMap fun k => (a (x / 32) k).map fun y => (y, b k (x % 32))) := by
  have hone : Bits.ceilDiv K (blockLen ty) = 1 := by
    unfold Bits.ceilDiv
    exact Nat.div_eq_of_lt_le (by omega) (by omega)
  have hflags (f : Flg) : 0 ||| f = f := by simp
  simp only [cellAfter, hone, List.range_one, List.foldl_cons, List.foldl_nil, Nat.zero_mul, Nat.zero_add, Nat.one_mul, Nat.sub_zero,
    Nat.min_eq_left hK, hflags]

/-! ### Status bytes (R233) -/

theorem statusOf_or (f g : Flg) : BitVec.ofNat 8 (statusOf (f ||| g)) = BitVec.ofNat 8 (statusOf f) ||| BitVec.ofNat 8 (statusOf g) := by
  have hbit (m : Flg) : decide ((f ||| g) &&& m ≠ 0) = (decide (f &&& m ≠ 0) || decide (g &&& m ≠ 0)) := by
    rw [BitVec.and_comm, BitVec.and_or_distrib_left, BitVec.and_comm m f, BitVec.and_comm m g]
    simp [BitVec.or_eq_zero_iff]
  have hnib : ∀ a b c d a' b' c' d' : Bool,
      BitVec.ofNat 8 (Bits.b2n (a || a') + 2 * Bits.b2n (b || b') + 4 * Bits.b2n (c || c') + 8 * Bits.b2n (d || d')) =
        BitVec.ofNat 8 (Bits.b2n a + 2 * Bits.b2n b + 4 * Bits.b2n c + 8 * Bits.b2n d) |||
          BitVec.ofNat 8 (Bits.b2n a' + 2 * Bits.b2n b' + 4 * Bits.b2n c' + 8 * Bits.b2n d') := by decide
  unfold statusOf
  rw [hbit, hbit, hbit, hbit, hnib]

/-- Flags already in a running union stay in it. -/
theorem or_foldl_of_or_eq {g f : Flg} (h : g ||| f = f) (rs : List (Nat × Flg)) :
    g ||| rs.foldl (fun g r => g ||| r.2) f = rs.foldl (fun g r => g ||| r.2) f := by
  induction rs generalizing f with
  | nil => exact h
  | cons r rs ih => exact ih (by rw [← BitVec.or_assoc, h])

/-- R233: the flags of every cell are in the flags of the product. -/
theorem or_foldl_of_mem {rs : List (Nat × Flg)} {r : Nat × Flg} (h : r ∈ rs) (f : Flg) :
    r.2 ||| rs.foldl (fun g r => g ||| r.2) f = rs.foldl (fun g r => g ||| r.2) f := by
  induction rs generalizing f with
  | nil => cases h
  | cons x xs ih =>
    rcases List.mem_cons.mp h with rfl | h
    · exact or_foldl_of_or_eq (by rw [BitVec.or_comm, BitVec.or_assoc, BitVec.or_self]) xs
    · exact ih h _

/-- R248: the products of a row whose kept operands are A and B. -/
theorem filterMap_kept (kept : Nat → Bool) (A B : Nat → Val) (ks : List Nat) :
    (ks.filterMap fun k => (if kept k then some (A k) else none).map fun y => (y, B k)) = (ks.filter kept).map fun k => (A k, B k) := by
  induction ks with
  | nil => rfl
  | cons k ks ih =>
    by_cases hk : kept k = true
    · simp only [List.filterMap_cons, List.filter_cons, hk, if_true, Option.map_some, List.map_cons, ih]
    · simp only [List.filterMap_cons, List.filter_cons, hk, Bool.false_eq_true, if_false, Option.map_none, ih]

theorem sum_kept (kept : Nat → Bool) (A B : Nat → Val) (K : Nat) :
    (((List.range K).filter kept).map fun k => (A k).rat * (B k).rat).sum =
      ∑ k ∈ (Finset.range K).filter (fun k => kept k = true), (A k).rat * (B k).rat := by
  induction K with
  | zero => rfl
  | succ K ih =>
    rw [List.range_succ, List.filter_append, List.map_append, List.sum_append, ih, Finset.range_add_one, Finset.filter_insert]
    by_cases hk : kept K = true
    · rw [if_pos hk, Finset.sum_insert (by simp), add_comm]
      simp [hk]
    · rw [if_neg hk]
      simp [hk]

/-- R89: the block of a row of finite kept operands onto a finite cell. -/
theorem mmaBlock_kept (f : FFmt) (rm : Rm) {acc K : Nat} {kept : Nat → Bool} {A B : Nat → Val} (hacc : (unpack f acc).isFin = true)
    (hfin : ∀ k, k < K → kept k = true → (A k).isFin = true ∧ (B k).isFin = true) :
    ∃ v, mmaBlock f rm acc ((List.range K).filterMap fun k => (if kept k then some (A k) else none).map fun y => (y, B k)) = pack f rm v ∧
      v.isFin = true ∧
      v.rat = (unpack f acc).rat + ∑ k ∈ (Finset.range K).filter (fun k => kept k = true), (A k).rat * (B k).rat := by
  have hps : ∀ p ∈ ((List.range K).filter kept).map (fun k => (A k, B k)), p.1.isFin = true ∧ p.2.isFin = true := by
    intro p hp
    obtain ⟨k, hk, rfl⟩ := List.mem_map.mp hp
    obtain ⟨hlt, hkept⟩ := List.mem_filter.mp hk
    exact hfin k (List.mem_range.mp hlt) hkept
  obtain ⟨v, hv, hvfin, hrat⟩ := mmaBlock_of_isFin f rm hacc hps
  rw [List.map_map] at hrat
  exact ⟨v, by rw [filterMap_kept, hv], hvfin, hrat.trans (congrArg _ (sum_kept kept A B K))⟩

/-- R89, R232, R233: a cell of a product of K that make one block, whose kept operands and old value are finite: their exact sum, rounded once, with
its flags among the product's. -/
theorem product_cell {ty : Ty} {K : Nat} (h1 : 1 ≤ K) (hK : K ≤ blockLen ty) (rm : Rm) {lo hi : Nat} (kept : Nat → Nat → Bool)
    (A B : Nat → Nat → Val) {i j : Nat} (hi32 : i < 32) (hj32 : j < 32)
    (hacc : (unpack (if ty = .f64 then f64 else f32) (cell (ty = .f64) lo hi (32 * i + j))).isFin = true)
    (hfin : ∀ k, k < K → kept i k = true → (A i k).isFin = true ∧ (B k j).isFin = true) :
    let f := if ty = .f64 then f64 else f32
    let p := product ty rm lo hi K (fun i k => if kept i k then some (A i k) else none) B
    ∃ v : Val, v.isFin = true ∧
      v.rat = (unpack f (cell (ty = .f64) lo hi (32 * i + j))).rat +
        ∑ k ∈ (Finset.range K).filter (fun k => kept i k = true), (A i k).rat * (B k j).rat ∧
      cell (ty = .f64) p.1.1 p.1.2 (32 * i + j) = (pack f rm v).1 % 2 ^ f.width ∧ (pack f rm v).2 ||| p.2 = p.2 := by
  intro f p
  obtain ⟨v, hv, hvfin, hrat⟩ := mmaBlock_kept f rm (B := fun k => B k j) hacc hfin
  generalize hx : 32 * i + j = x at *
  have hrow : x / 32 = i := by omega
  have hcol : x % 32 = j := by omega
  have hlt : x < 1024 := by omega
  have hcell : cellAfter ty rm lo hi K (fun i k => if kept i k then some (A i k) else none) B x = pack f rm v := by
    rw [cellAfter_block h1 hK, hrow, hcol]
    exact hv
  have hwidth : f.width = if decide (ty = .f64) then 64 else 32 := by
    by_cases ht : ty = .f64 <;> simp [f, ht] <;> rfl
  have hp : p = _ := product_eq ty rm lo hi K _ B
  generalize cellAfter ty rm lo hi K (fun i k => if kept i k then some (A i k) else none) B = cells at hcell hp
  refine ⟨v, hvfin, hrat, ?_, ?_⟩
  · rw [hp, hwidth, ← hcell]
    refine (cell_ofCells _ hi _ x).trans ?_
    simp [hlt]
  · have hmem : cells x ∈ (List.range 1024).map cells := List.mem_map_of_mem (List.mem_range.mpr hlt)
    rw [hp, ← hcell]
    generalize (List.range 1024).map cells = rs at hmem ⊢
    exact or_foldl_of_mem hmem 0

end Sys2Proof.Mat
end

section
/-! PROOFS. The dispatch of a matrix form that is performed at once (R205, R233, R236, R241). -/
namespace Sys2Proof.Machine
open Sys2Proof.Laws

/-- R205, R236: a form of the acting context has been entered under the next TSEQ and performed: what stands in the array is the core k's, with the
shapes of its issue, and the entry holds its destination and result. -/
structure Performed (s : State) (i : Instr) (dest : Option (Fin 32)) (tsh : Vector Word 8 → Vector Word 8) (k : Core) (res : Word) (u : State) :
    Prop where
  dispatched : Dispatched s u i 1
  tiles : u.core.tiles = k.tiles
  accs : u.core.accs = k.accs
  status : u.core.status = k.status
  shapes : u.core.tsh = tsh k.tsh
  entry : (u.core.entry (nextTseq s.core.tseq)).dest = dest ∧ (u.core.entry (nextTseq s.core.tseq)).result = res
  empty : ∀ r, dest = some r → r ≠ 0 → u.ctx.full.getLsbD r.val = false

/-- R205: the ring entry with which a matrix form is dispatched. -/
def arrayEntry (s : State) (i : Instr) (dest : Option (Fin 32)) : RingEntry :=
  { entryFor s i (nextTseq s.core.tseq) with dest := dest }

theorem enterArray_core (s : State) (q : Nat) (e : RingEntry) (tsh : Vector Word 8 → Vector Word 8) :
    (enterArray s q e tsh).core = { s.core with tseq := q, ring := mset (q % 64) e s.core.ring, tsh := tsh s.core.tsh } := by
  unfold enterArray enterRing
  rw [State.core_updCore, State.core_updCore]
  cases e.dest <;> rfl

theorem enterArray_full (s : State) (q : Nat) (e : RingEntry) (tsh : Vector Word 8 → Vector Word 8) {r : Fin 32} (h : e.dest = some r)
    (hr : r ≠ 0) : (enterArray s q e tsh).ctx.full.getLsbD r.val = false := by
  unfold enterArray
  rw [h]
  show (s.upd fun c => c.setEmpty r).ctx.full.getLsbD r.val = false
  rw [State.ctx_upd]
  exact setEmpty_full s.ctx hr

/-- R205: a form that has been performed keeps its ring entry until it completes. -/
theorem finishArray_ok (f : ArrayForm) (t : State) (res : Option Word) (fl : Num.Flg) :
    ∃ u, finishArray f (.ok t res fl) = .ok u ∧ u.ctx = t.ctx ∧ u.core = { t.core with
      ring := mset (f.tseq % 64) { t.core.entry f.tseq with result := res.getD 0, stage := 1 } t.core.ring
      phase := t.core.phase.map (fun p => { p with arrayDue := p.arrayDue ++ [(f.tseq, arrayTime f)] }) } :=
  ⟨_, rfl, rfl, State.core_updCore _ _⟩

/-- R205, R236: what a form leaves that has been entered and performed. -/
theorem finishArray_performed (s t : State) (i : Instr) (dest : Option (Fin 32)) {f : ArrayForm} (hf : f.tseq = nextTseq s.core.tseq)
    (tsh : Vector Word 8 → Vector Word 8) (res : Option Word) (fl : Num.Flg) :
    ∃ u, finishArray f (.ok (enterArray t (nextTseq s.core.tseq) (arrayEntry s i dest) tsh) res fl) = .ok u ∧
      Performed s i dest tsh t.core (res.getD 0) u := by
  obtain ⟨u, hu, hctx, hcore⟩ := finishArray_ok f (enterArray t (nextTseq s.core.tseq) (arrayEntry s i dest) tsh) res fl
  have hin := enterArray_core t (nextTseq s.core.tseq) (arrayEntry s i dest) tsh
  have hentered : (enterArray t (nextTseq s.core.tseq) (arrayEntry s i dest) tsh).core.entry (nextTseq s.core.tseq) = arrayEntry s i dest := by
    rw [hin]
    exact mget_mset_same _ _ _ _
  rw [hf, hentered] at hcore
  have hentry : u.core.entry (nextTseq s.core.tseq) = { arrayEntry s i dest with result := res.getD 0, stage := 1 } := by
    rw [hcore]
    exact mget_mset_same _ _ _ _
  refine ⟨u, hu, ⟨?_, ?_, ?_, ?_, ?_, ?_, ?_⟩⟩
  · have htseq : u.core.tseq = nextTseq s.core.tseq := by rw [hcore, hin]
    dsimp only [Dispatched]
    rw [hentry]
    exact ⟨htseq, rfl, rfl, rfl, rfl, rfl⟩
  · rw [hcore, hin]
  · rw [hcore, hin]
  · rw [hcore, hin]
  · rw [hcore, hin]
  · rw [hentry]
    exact ⟨rfl, rfl⟩
  · intro r hr hr0
    rw [hctx]
    exact enterArray_full t _ (arrayEntry s i dest) tsh hr hr0

/-- R236: a matrix form that transfers nothing, with no form before it in the queue, is performed at its dispatch. -/
theorem arrayIssue_performed {s t : State} {i : Instr} {dest : Option (Fin 32)} {res : Option Word}
    {run : State → ArrayForm → RingEntry → Perf} (hqueue : s.core.arrayQ = []) (hfree : (s.core.entry (nextTseq s.core.tseq)).state = 0)
    (hform : transferForm (Fields.ofSlot (slotOf i)).op.toNat (Fields.ofSlot (slotOf i)).d.toNat = false) (word : Word)
    (tsh : Vector Word 8 → Vector Word 8)
    (hrun : ∀ f, f.instr = i → f.tsh = s.core.tsh → run { s with steps := none } f (arrayEntry s i dest) = .ok t res 0) :
    ∃ u, arrayIssue run s i word dest tsh = .ok u ∧ Performed s i dest tsh t.core (res.getD 0) u := by
  unfold arrayIssue
  rw [ringSlot_free hfree]
  have hinsn : (arrayEntry s i dest).insn = slotOf i := rfl
  dsimp only [bind, Except.bind, arrayEntry] at hrun hinsn ⊢
  rw [if_neg (by rw [hinsn, hqueue, hform]; simp), hrun]
  · exact finishArray_performed s t i dest rfl tsh res 0
  · rfl
  · rfl

/-- R234, R236, R241: a matrix form of the claim's holder whose shapes pass. -/
theorem matrixForm_performed {s t : State} {g : Guard} {i : Instr} {dest : Option (Fin 32)} {res : Option Word} {f : Fields}
    (hr : Runs s g) (ha : ArrayReady s) (hshape : shapeOk s.core.tsh i = true) (hi : i.fields = some f)
    (hform : transferForm f.op.toNat f.d.toNat = false) (word : Word) (tsh : Vector Word 8 → Vector Word 8)
    (hrun : ∀ f, f.instr = i → f.tsh = s.core.tsh → runMatrix { s with steps := none } f (arrayEntry s i dest) = .ok t res 0) :
    ∃ u, matrixForm s i g word dest tsh = .next u ∧ Performed s i dest tsh t.core (res.getD 0) u := by
  obtain ⟨hclaim, hqueue, hfree⟩ := ha
  have hslot : Fields.ofSlot (slotOf i) = f := by simp [slotOf, encode_eq_slot, hi, ofSlot_slot]
  obtain ⟨u, hu, hperf⟩ := arrayIssue_performed hqueue hfree (by rwa [hslot]) word tsh hrun
  refine ⟨u, ?_, hperf⟩
  rw [matrixForm, guarded_runs hr, hclaim, hshape, hu]
  rfl

/-- R236: the same, for a form that answers nothing and changes the core alone. -/
theorem matrixForm_updates {s : State} {g : Guard} {i : Instr} {f : Fields} {h : Core → Core} (hr : Runs s g) (ha : ArrayReady s)
    (hshape : shapeOk s.core.tsh i = true) (hi : i.fields = some f) (hform : transferForm f.op.toNat f.d.toNat = false)
    (tsh : Vector Word 8 → Vector Word 8)
    (hrun : ∀ f, f.instr = i → f.tsh = s.core.tsh →
      runMatrix { s with steps := none } f (arrayEntry s i none) = .ok (State.updCore { s with steps := none } h) none 0) :
    ∃ u, matrixForm s i g 0 none tsh = .next u ∧ Performed s i none tsh (h s.core) 0 u := by
  obtain ⟨u, hu, hperf⟩ := matrixForm_performed hr ha hshape hi hform 0 tsh hrun
  rw [State.core_updCore] at hperf
  exact ⟨u, hu, hperf⟩

end Sys2Proof.Machine
end

section
/-! PROOFS. Tiles, accumulators and status bytes after a matrix form (R83, R229, R232, R233, R245). -/
namespace Sys2Proof.Mat
open Sys2Proof.Num

/-! ### The size of an accumulator (R232) -/

/-- R232: 1,024 cells fill an accumulator, or a pair of them. -/
theorem ofCells_lt (wide : Bool) (hi : Nat) {cs : List Nat} (h : cs.length = 1024) :
    (ofCells wide hi cs).1 < 2 ^ 32768 ∧ (wide = true → (ofCells wide hi cs).2 < 2 ^ 32768) := by
  have hbits : 32 * 1024 = 32768 := rfl
  have hlow := catBits_lt 32 cs
  have hhigh := catBits_lt 32 (cs.map (· / 2 ^ 32))
  rw [h, hbits] at hlow
  rw [List.length_map, h, hbits] at hhigh
  cases wide
  · exact ⟨hlow, nofun⟩
  · exact ⟨hlow, fun _ => hhigh⟩

theorem product_lt (ty : Ty) (rm : Rm) (lo hi K : Nat) (a : Nat → Nat → Option Val) (b : Nat → Nat → Val) :
    (product ty rm lo hi K a b).1.1 < 2 ^ 32768 ∧ (ty = .f64 → (product ty rm lo hi K a b).1.2 < 2 ^ 32768) := by
  have hcells := ofCells_lt (ty = .f64) hi (cs := ((List.range 1024).map (cellAfter ty rm lo hi K a b)).map Prod.fst) (by simp)
  rw [decide_eq_true_eq] at hcells
  rw [product_eq]
  exact hcells

/-! ### Elements of a tile that has been built (R83, R229) -/

theorem rowBytes_flt {ty : Ty} (h : ty.isFlt = true) (w cols : Nat) : 8 * rowBytes ty w cols = ty.bits * cols := by
  have hb : ty ≠ .bfp := by rintro rfl; exact absurd h (by decide)
  have h8 : 8 * (ty.bits / 8) = ty.bits := by cases ty <;> rfl
  rw [rowBytes, if_neg hb, mul_comm cols, ← mul_assoc, h8]

/-- R83: element j of a stored row of an IEEE type is its value, rounded once. -/
theorem storeRow_elem {ty : Ty} (h : ty.isFlt = true) (w : Nat) (sc : Int) (rm : Rm) (f : Nat → Val) {cols j : Nat} (hj : j < cols) :
    (storeRow ty w sc rm ((List.range cols).map f)).1 / 2 ^ (ty.bits * j) % 2 ^ ty.bits = (convert (fmtOf ty) rm (f j)).1 % 2 ^ ty.bits := by
  have hb : ty ≠ .bfp := by rintro rfl; exact absurd h (by decide)
  rw [storeRow, if_neg hb]
  refine (catBits_field _ _ j).trans ?_
  simp [hj]

/-- R229, R245: element (i, j) of a tile of an IEEE type. -/
theorem buildTile_elem {s : TShape} (h : s.ty.isFlt = true) (rm : Rm) (f : Nat → Nat → Val) {i j : Nat} (hi : i < s.rows) (hj : j < s.cols) :
    (buildTile s rm f).1 / 2 ^ (s.ty.bits * (i * s.cols + j)) % 2 ^ s.ty.bits = (convert (fmtOf s.ty) rm (f i j)).1 % 2 ^ s.ty.bits := by
  have hrow := rowBytes_flt h s.w s.cols
  have hin : s.ty.bits * j + s.ty.bits ≤ s.ty.bits * s.cols := by
    rw [← Nat.mul_succ]
    exact Nat.mul_le_mul_left _ hj
  have hpos : s.ty.bits * (i * s.cols + j) = s.ty.bits * s.cols * i + s.ty.bits * j := by ring
  have hfield : (buildTile s rm f).1 / 2 ^ (s.ty.bits * s.cols * i) % 2 ^ (s.ty.bits * s.cols) =
      (storeRow s.ty s.w s.scale rm ((List.range s.cols).map (f i))).1 % 2 ^ (s.ty.bits * s.cols) := by
    unfold buildTile
    rw [hrow]
    refine (catBits_field _ _ i).trans ?_
    simp [hi]
  rw [hpos, pow_add, ← Nat.div_div_eq_div_mul, ← mod_two_pow_field hin, hfield, mod_two_pow_field hin, storeRow_elem h _ _ _ _ hj]

end Sys2Proof.Mat

namespace Sys2Proof.Machine
open Sys2Proof.Num Sys2Proof.Mat

/-! ### Replaced tiles (R229) -/

theorem set_self {α : Type} (v : Vector α 8) (d : Fin 8) (x : α) : (v.set d x)[d] = x := by simp

theorem set_of_ne {α : Type} (v : Vector α 8) {d e : Fin 8} (h : e ≠ d) (x : α) : (v.set d x)[e] = v[e] := by
  have hne : (d : Nat) ≠ e := fun he => h (Fin.ext he.symm)
  simp [hne]

/-- The low bytes of a tile of which they have been replaced. -/
theorem fillTile_mod {bytes : Nat} (h : bytes ≤ 4096) (old : Tile) (x : Nat) :
    (fillTile old bytes x).toNat % 2 ^ (8 * bytes) = x % 2 ^ (8 * bytes) := by
  have hdvd : 2 ^ (8 * bytes) ∣ 2 ^ 32768 := pow_dvd_pow 2 (by omega)
  rw [fillTile, BitVec.toNat_ofNat, Nat.mod_mod_of_dvd _ hdvd, mul_comm, Nat.mul_add_mod, Nat.mod_mod]

/-- R244: a tile's bytes read zero after TZERO, whatever their number. -/
theorem fillTile_zero (old : Tile) (bytes : Nat) : (fillTile old bytes 0).toNat % 2 ^ (8 * bytes) = 0 := by
  by_cases h : bytes ≤ 4096
  · rw [fillTile_mod h, Nat.zero_mod]
  · have hlt : old.toNat < 2 ^ (8 * bytes) := old.isLt.trans_le (Nat.pow_le_pow_right (by decide) (by omega))
    rw [fillTile, Nat.div_eq_of_lt hlt]
    simp

/-- R245: the destination of TCVT has the rows and columns of its source and the type of the form. -/
theorem tcvtTsh_ty (t : Ty) (d a : Word) : (TShape.ofWord (tcvtTsh t d a).toNat).ty = t := by
  have hfield : BitVec.ofNat 4 (Bits.fld (tcvtTsh t d a).toNat 15 12) = (tcvtTsh t d a).extractLsb' 12 4 := by
    apply BitVec.eq_of_toNat_eq
    simp [Bits.fld]
  have hcode : (tcvtTsh t d a).extractLsb' 12 4 = t.code := by
    have hd : BitVec.extractLsb' 12 4 (0x0FF70000 : Word) = 0 := rfl
    have ha : BitVec.extractLsb' 12 4 (0xFFFFFFFF00080FFF : Word) = 0 := rfl
    have ht : BitVec.extractLsb' 12 4 (BitVec.ofNat 64 (t.code.toNat * 4096)) = t.code := by cases t <;> rfl
    rw [tcvtTsh, BitVec.extractLsb'_or, BitVec.extractLsb'_or, BitVec.extractLsb'_and, BitVec.extractLsb'_and, hd, ha, ht]
    simp
  show Ty.ofCode _ = t
  rw [hfield, hcode, ty_of_code]

/-! ### Products (R89, R233, R246, R248) -/

/-- R233: flags that a status byte has taken are in it. -/
theorem statusOf_taken {f g : Flg} (h : f ||| g = g) (x : BitVec 8) :
    x ||| BitVec.ofNat 8 (statusOf g) ||| BitVec.ofNat 8 (statusOf f) = x ||| BitVec.ofNat 8 (statusOf g) := by
  rw [BitVec.or_assoc, BitVec.or_comm (BitVec.ofNat 8 (statusOf g)), ← statusOf_or, h]

/-- R232: a cell of the accumulators that a form has written. -/
theorem cell_setAcc {t : Ty} {d : Fin 8} (hd : t = .f64 → d.val % 2 = 0) (c : Core) {x : Nat × Nat} (h1 : x.1 < 2 ^ 32768)
    (h2 : t = .f64 → x.2 < 2 ^ 32768) (k : Nat) :
    cell (t = .f64) (accPair (setAcc c t d x) d).1 (accPair (setAcc c t d x) d).2 k = cell (t = .f64) x.1 x.2 k := by
  have hlow : (accPair (setAcc c t d x) d).1 = x.1 := by
    have hget : (setAcc c t d x).accs[d] = BitVec.ofNat 32768 x.1 := by
      unfold setAcc
      split <;> simp
    rw [accPair, hget, BitVec.toNat_ofNat, Nat.mod_eq_of_lt h1]
  by_cases ht : t = .f64
  · have hhigh : (accPair (setAcc c t d x) d).2 = x.2 := by
      have hnext : d.val + 1 < 8 := by have := hd ht; omega
      have hget : (setAcc c t d x).accs.toArray.getD (d.val + 1) 0 = BitVec.ofNat 32768 x.2 := by
        simp [setAcc, ht, hnext]
      rw [accPair, hget, BitVec.toNat_ofNat, Nat.mod_eq_of_lt (h2 ht)]
    rw [hlow, hhigh]
  · simp only [cell, ht, decide_false, Bool.false_eq_true, if_false, hlow]

theorem addProduct_status (c : Core) (t : Ty) (d : Fin 8) (r : (Nat × Nat) × Flg) :
    (addProduct c t d r).status[d] = c.status[d] ||| BitVec.ofNat 8 (statusOf r.2) ∧
    ∀ e, e ≠ d → (addProduct c t d r).status[e] = c.status[e] :=
  ⟨set_self _ _ _, fun _ h => set_of_ne _ h _⟩

/-- R89, R248: a core after a product of K whose row i has the operands A of the k that it keeps. -/
def afterProduct (c : Core) (t : Ty) (d : Fin 8) (rm : Rm) (K : Nat) (kept : Nat → Nat → Bool) (A B : Nat → Nat → Val) : Core :=
  addProduct c t d (product t rm (accPair c d).1 (accPair c d).2 K (fun i k => if kept i k then some (A i k) else none) B)

/-- R246: MMA keeps every k. -/
theorem addProduct_mma (c : Core) (t : Ty) (d : Fin 8) (rm : Rm) (sa sb : TShape) (ta tb : Nat) :
    addProduct c t d (Mat.mma t rm sa sb ta tb (accPair c d).1 (accPair c d).2) =
      afterProduct c t d rm sa.effCols (fun _ _ => true) (effVal sa ta) (effVal sb tb) := rfl

/-- R248: MMAS keeps the k of its row. -/
theorem addProduct_mmas (c : Core) (t : Ty) (d : Fin 8) (rm : Rm) (sa sb : TShape) (ta tb : Nat) :
    addProduct c t d (Mat.mmas t rm sa sb ta tb (accPair c d).1 (accPair c d).2) =
      afterProduct c t d rm (logicalK sa) (keeps sa.seed sa.dens) (fun i k => effVal sa ta i (keptCol sa.dens k)) (effVal sb tb) := rfl

/-- R89, R233: where the kept operands and the cell are finite and make one block, a product leaves in the cell their exact sum rounded once, and
the flags of that rounding in the status byte. -/
theorem afterProduct_rounded {t : Ty} {f : FFmt} (hf : f = if t = .f64 then f64 else f32) {d : Fin 8} (hd : t = .f64 → d.val % 2 = 0) {K : Nat}
    (h1 : 1 ≤ K) (hK : K ≤ blockLen t) (c : Core) (rm : Rm) (kept : Nat → Nat → Bool) (A B : Nat → Nat → Val) {i j : Nat} (hi : i < 32)
    (hj : j < 32) (hacc : (unpack f (cell (t = .f64) (accPair c d).1 (accPair c d).2 (32 * i + j))).isFin = true)
    (hfin : ∀ k, k < K → kept i k = true → (A i k).isFin = true ∧ (B k j).isFin = true) :
    let y := afterProduct c t d rm K kept A B
    ∃ n m e, (Val.fin n m e).rat = (unpack f (cell (t = .f64) (accPair c d).1 (accPair c d).2 (32 * i + j))).rat +
        ∑ k ∈ (Finset.range K).filter (fun k => kept i k = true), (A i k).rat * (B k j).rat ∧
      cell (t = .f64) (accPair y d).1 (accPair y d).2 (32 * i + j) = (pack f rm (.fin n m e)).1 % 2 ^ f.width ∧
      y.status[d] ||| BitVec.ofNat 8 (statusOf (pack f rm (.fin n m e)).2) = y.status[d] := by
  subst hf
  intro y
  obtain ⟨v, hv, hrat, hcell, hflags⟩ := product_cell h1 hK rm kept A B hi hj hacc hfin
  obtain ⟨hlow, hhigh⟩ := product_lt t rm (accPair c d).1 (accPair c d).2 K (fun i k => if kept i k then some (A i k) else none) B
  obtain _ | _ | ⟨n, m, e⟩ := v
  case fin =>
    refine ⟨n, m, e, hrat, (cell_setAcc hd c hlow hhigh _).trans hcell, ?_⟩
    have hstatus : y.status[d] = _ := (addProduct_status c t d _).1
    rw [hstatus]
    exact statusOf_taken hflags _
  all_goals cases hv

/-- R241: a product's K is at least 1, and it names an even accumulator for f64. -/
theorem productOk_bounds {t : Ty} {d : Fin 8} {a b : TShape} {k : Nat} (h : productOk t d a b k = true) :
    1 ≤ k ∧ (t = .f64 → d.val % 2 = 0) := by
  simp only [productOk, Bool.and_eq_true, Bool.or_eq_true, decide_eq_true_eq] at h
  obtain ⟨⟨⟨⟨-, h1⟩, -⟩, hd⟩, -⟩ := h
  exact ⟨h1, fun ht => hd.resolve_left fun hn => hn ht⟩

end Sys2Proof.Machine
end

section
/-! PROOFS. What each matrix form on tiles and accumulators leaves (R244 to R246, R248), and O37. -/
namespace Sys2Proof.Machine
open Sys2Proof.Num Sys2Proof.Mat

section
variable {s : State} {g : Guard} (hr : Runs s g) (ha : ArrayReady s)
include hr ha

theorem exec_tzero (d : Fin 8) : ∃ u, exec (.tzero g d) s = .next u ∧ Performed s (.tzero g d) none id
    { s.core with tiles := s.core.tiles.set d (fillTile s.core.tiles[d] (shapeAt s.core.tsh d).bytes 0) } 0 u :=
  matrixForm_updates (h := fun k => { k with tiles := k.tiles.set d (fillTile s.core.tiles[d] (shapeAt s.core.tsh d).bytes 0) })
    hr ha rfl rfl rfl id (fun f hi ht => by unfold runMatrix; rw [hi, ht]; rfl)

theorem exec_tmov (d a : Fin 8) : ∃ u, exec (.tmov g d a) s = .next u ∧ Performed s (.tmov g d a) none (fun x => x.set d x[a])
    { s.core with tiles := s.core.tiles.set d s.core.tiles[a] } 0 u :=
  matrixForm_updates (h := fun k => { k with tiles := k.tiles.set d s.core.tiles[a] }) hr ha rfl rfl rfl _
    (fun _ hi _ => by unfold runMatrix; rw [hi]; rfl)

theorem exec_azero (d : Fin 8) : ∃ u, exec (.azero g d) s = .next u ∧ Performed s (.azero g d) none id
    { s.core with accs := s.core.accs.set d 0 } 0 u :=
  matrixForm_updates (h := fun k => { k with accs := k.accs.set d 0 }) hr ha rfl rfl rfl id
    (fun _ hi _ => by unfold runMatrix; rw [hi])

theorem exec_aclr (d : Fin 8) : ∃ u, exec (.aclr g d) s = .next u ∧ Performed s (.aclr g d) none id
    { s.core with status := s.core.status.set d 0 } 0 u :=
  matrixForm_updates (h := fun k => { k with status := k.status.set d 0 }) hr ha rfl rfl rfl id
    (fun _ hi _ => by unfold runMatrix; rw [hi])

theorem exec_astat (r : Fin 32) (a : Fin 8) : ∃ u, exec (.astat g r a) s = .next u ∧ Performed s (.astat g r a) (some r) id
    s.core (s.core.status[a].setWidth 64) u :=
  matrixForm_performed (t := { s with steps := none }) (res := some (s.core.status[a].setWidth 64)) hr ha rfl rfl rfl 0 id
    (fun _ hi _ => by unfold runMatrix; rw [hi]; rfl)

section
variable (t : Ty) (rc : Rc) (d a b : Fin 8)

/-- R245: TCVT. -/
theorem exec_tcvt (cc : Option (Fin 8)) (hshape : shapeOk s.core.tsh (.tcvt g t rc d a cc) = true) :
    let rm := Vec.rmOf rc (Rm.ofCode (s.view.asr.extractLsb' 0 2).toNat)
    let y := TShape.ofWord (tcvtTsh t s.core.tsh[d] s.core.tsh[a]).toNat
    let r := Mat.tcvt (shapeAt s.core.tsh a) y rm s.core.tiles[a].toNat
    let k := { s.core with tiles := s.core.tiles.set d (fillTile s.core.tiles[d] y.bytes r.1) }
    ∃ u, exec (.tcvt g t rc d a cc) s = .next u ∧
      Performed s (.tcvt g t rc d a cc) none (fun x => x.set d (tcvtTsh t x[d] x[a])) (cc.elim k fun n => orStatus k n r.2) 0 u := by
  intro rm y r k
  refine matrixForm_updates (h := fun _ => cc.elim k fun n => orStatus k n r.2) hr ha hshape rfl rfl _ fun f hi ht => ?_
  unfold runMatrix
  rw [hi, ht]
  cases cc <;> rfl

/-- R246: MMA. -/
theorem exec_mma (hshape : shapeOk s.core.tsh (.mma g t rc d a b) = true) :
    let rm := Vec.rmOf rc (Rm.ofCode (s.view.asr.extractLsb' 0 2).toNat)
    let p := Mat.mma t rm (shapeAt s.core.tsh a) (shapeAt s.core.tsh b) s.core.tiles[a].toNat s.core.tiles[b].toNat
      (accPair s.core d).1 (accPair s.core d).2
    ∃ u, exec (.mma g t rc d a b) s = .next u ∧ Performed s (.mma g t rc d a b) none id (addProduct s.core t d p) 0 u := by
  intro rm p
  refine matrixForm_updates (h := fun k => addProduct k t d p) hr ha hshape rfl rfl id fun f hi ht => ?_
  unfold runMatrix
  rw [hi, ht]
  rfl

/-- R248: MMAS. -/
theorem exec_mmas (hshape : shapeOk s.core.tsh (.mmas g t rc d a b) = true) :
    let rm := Vec.rmOf rc (Rm.ofCode (s.view.asr.extractLsb' 0 2).toNat)
    let p := Mat.mmas t rm (shapeAt s.core.tsh a) (shapeAt s.core.tsh b) s.core.tiles[a].toNat s.core.tiles[b].toNat
      (accPair s.core d).1 (accPair s.core d).2
    ∃ u, exec (.mmas g t rc d a b) s = .next u ∧ Performed s (.mmas g t rc d a b) none id (addProduct s.core t d p) 0 u := by
  intro rm p
  refine matrixForm_updates (h := fun k => addProduct k t d p) hr ha hshape rfl rfl id fun f hi ht => ?_
  unfold runMatrix
  rw [hi, ht]
  rfl

end

end

/-- R241: the shapes of MMA and MMAS are those of a product. -/
theorem shapeOk_mma {tsh : Vector Word 8} {g : Guard} {t : Ty} {rc : Rc} {d a b : Fin 8} (h : shapeOk tsh (.mma g t rc d a b) = true) :
    1 ≤ (shapeAt tsh a).effCols ∧ (t = .f64 → d.val % 2 = 0) :=
  productOk_bounds (Bool.and_eq_true_iff.mp h).2

theorem shapeOk_mmas {tsh : Vector Word 8} {g : Guard} {t : Ty} {rc : Rc} {d a b : Fin 8} (h : shapeOk tsh (.mmas g t rc d a b) = true) :
    1 ≤ logicalK (shapeAt tsh a) ∧ (t = .f64 → d.val % 2 = 0) :=
  productOk_bounds (Bool.and_eq_true_iff.mp h).2

/-- R245: the shape that TCVT is given fits a tile. -/
theorem shapeOk_tcvt {tsh : Vector Word 8} {g : Guard} {t : Ty} {rc : Rc} {d a : Fin 8} {cc : Option (Fin 8)}
    (h : shapeOk tsh (.tcvt g t rc d a cc) = true) : (TShape.ofWord (tcvtTsh t tsh[d] tsh[a]).toNat).bytes ≤ 4096 := by
  simp only [shapeOk, Bool.and_eq_true, decide_eq_true_eq] at h
  exact h.1

/-- R229, R245: element (i, j) of a tile that TCVT has filled. -/
theorem tcvt_elem {y : TShape} (hflt : y.ty.isFlt = true) (hfit : y.bytes ≤ 4096) (src : TShape) (rm : Rm) (old : Tile) (x : Nat) {i j : Nat}
    (hi : i < y.rows) (hj : j < y.cols) :
    (fillTile old y.bytes (Mat.tcvt src y rm x).1).toNat / 2 ^ (y.ty.bits * (i * y.cols + j)) % 2 ^ y.ty.bits =
      (convert (fmtOf y.ty) rm (tileVal src x i j)).1 % 2 ^ y.ty.bits := by
  have hin : y.ty.bits * (i * y.cols + j) + y.ty.bits ≤ 8 * y.bytes := by
    have hlt : i * y.cols + j + 1 ≤ y.rows * y.cols := by nlinarith
    calc y.ty.bits * (i * y.cols + j) + y.ty.bits = y.ty.bits * (i * y.cols + j + 1) := by ring
      _ ≤ y.ty.bits * (y.rows * y.cols) := Nat.mul_le_mul_left _ hlt
      _ = y.rows * (8 * rowBytes y.ty y.w y.cols) := by rw [rowBytes_flt hflt]; ring
      _ = 8 * y.bytes := by rw [TShape.bytes]; ring
  rw [← mod_two_pow_field hin, fillTile_mod hfit, mod_two_pow_field hin]
  exact buildTile_elem hflt rm _ hi hj

end Sys2Proof.Machine

open Sys2Proof Sys2Proof.Machine

/-- Settles O37: every form is performed at its dispatch; a tile is built element by element, and a product cell by cell, each cell of one block being
the exact sum rounded once. -/
theorem matrixForms : Obligations.MatrixForms := by
  unfold Obligations.MatrixForms
  intro g t rc d a b r s hr ha rm c sa wide ff cellOf rounded sums
  let B : Nat → Nat → Num.Val := Mat.effVal (shapeAt c.tsh b) c.tiles[b].toNat
  have hsums {x : Core} {K : Nat} {kept : Nat → Nat → Bool} {A : Nat → Nat → Num.Val} (hd : t = .f64 → d.val % 2 = 0) (h1 : 1 ≤ K)
      (haccs : x.accs = (afterProduct c t d rm K kept A B).accs) (hstatus : x.status = (afterProduct c t d rm K kept A B).status) :
      sums x K kept A := by
    intro hK i j hi hj _ acc q hacc hfin _
    obtain ⟨n, m, e, hrat, hcell, hflags⟩ := afterProduct_rounded (f := ff) (by simp [ff, wide]) hd h1 hK c rm kept A B hi hj hacc hfin
    refine ⟨n, m, e, hrat, ?_, ?_⟩
    · simp only [cellOf, accPair, haccs]
      exact hcell
    · rw [hstatus]
      exact hflags
  refine ⟨?_, ?_, fun cc hshape => ?_, fun hshape => ?_, fun hshape => ?_, ?_, ?_, ?_⟩
  · obtain ⟨u, hu, hp⟩ := exec_tzero hr ha d
    refine ⟨u, hu, hp.dispatched, hp.shapes, ?_, fun e he => ?_⟩ <;> rw [hp.tiles]
    · rw [set_self]
      exact fillTile_zero _ _
    · exact set_of_ne _ he _
  · obtain ⟨u, hu, hp⟩ := exec_tmov hr ha d a
    refine ⟨u, hu, ?_, ?_, fun e he => ⟨?_, ?_⟩⟩
    · rw [hp.tiles]; exact set_self _ _ _
    · rw [hp.shapes]; exact set_self _ _ _
    · rw [hp.tiles]; exact set_of_ne _ he _
    · rw [hp.shapes]; exact set_of_ne _ he _
  · intro y
    obtain ⟨u, hu, hp⟩ := exec_tcvt hr ha t rc d a cc hshape
    have htiles : u.core.tiles = c.tiles.set d (fillTile c.tiles[d] y.bytes (Mat.tcvt sa y rm c.tiles[a].toNat).1) := by
      rw [hp.tiles]
      cases cc <;> rfl
    have htsh : u.core.tsh = c.tsh.set d (tcvtTsh t c.tsh[d] c.tsh[a]) := by
      rw [hp.shapes]
      cases cc <;> rfl
    have hty : y.ty = t := tcvtTsh_ty t _ _
    refine ⟨u, hu, ?_, ?_, fun hflt i j hi hj => ?_, fun e he => ?_⟩
    · rw [htsh, set_self]
    · rw [htiles, set_self]
    · rw [htiles, set_self, ← hty]
      exact tcvt_elem (by rwa [hty]) (shapeOk_tcvt hshape) sa rm _ _ hi hj
    · rw [htiles, set_of_ne _ he]
  · obtain ⟨u, hu, hp⟩ := exec_mma hr ha t rc d a b hshape
    obtain ⟨h1, hd⟩ := shapeOk_mma hshape
    rw [addProduct_mma] at hp
    obtain ⟨hown, hothers⟩ := addProduct_status c t d _
    refine ⟨u, hu, hp.tiles, hp.accs, hsums hd h1 hp.accs hp.status, ?_, fun e he => ?_⟩ <;> rw [hp.status]
    · rw [afterProduct, hown, ← BitVec.or_assoc, BitVec.or_self]
    · exact hothers e he
  · obtain ⟨u, hu, hp⟩ := exec_mmas hr ha t rc d a b hshape
    obtain ⟨h1, hd⟩ := shapeOk_mmas hshape
    rw [addProduct_mmas] at hp
    obtain ⟨hown, hothers⟩ := addProduct_status c t d _
    refine ⟨u, hu, hp.tiles, hp.accs, hsums hd h1 hp.accs hp.status, ?_, fun e he => ?_⟩ <;> rw [hp.status]
    · rw [afterProduct, hown, ← BitVec.or_assoc, BitVec.or_self]
    · exact hothers e he
  · obtain ⟨u, hu, hp⟩ := exec_azero hr ha d
    refine ⟨u, hu, ?_, hp.status, fun e he => ?_⟩ <;> rw [hp.accs]
    · exact set_self _ _ _
    · exact set_of_ne _ he _
  · obtain ⟨u, hu, hp⟩ := exec_astat hr ha r a
    exact ⟨u, hu, hp.dispatched, hp.entry.1, hp.entry.2, hp.empty r rfl⟩
  · obtain ⟨u, hu, hp⟩ := exec_aclr hr ha d
    refine ⟨u, hu, ?_, hp.accs, fun e he => ?_⟩ <;> rw [hp.status]
    · exact set_self _ _ _
    · exact set_of_ne _ he _

end

section
/-! PROOFS. The scalar integer forms: what each puts to its destination under its guard (R95, R109). -/
namespace Sys2Proof.Machine
open Sys2Proof.Num

/-- R72: the bounds of an integer type: unsigned from 0, signed one further below zero than above. -/
theorem intMin_eq (t : Ty) : 0 ≤ intMax t ∧ (intMin t = 0 ∨ intMin t = -intMax t - 1) := by
  have h1 := Nat.two_pow_pos (t.bits - 1)
  have h2 := Nat.two_pow_pos t.bits
  unfold intMin intMax
  split <;> omega

/-- R109: the quotient of two numbers of a type leaves its range only for the least number by −1. -/
theorem tdiv_le_intMax {t : Ty} {x y : Int} (hx : intMin t ≤ x ∧ x ≤ intMax t) (h : ¬ (y = -1 ∧ x = intMin t)) (hy : intMin t ≤ y) :
    x.tdiv y ≤ intMax t := by
  obtain ⟨hpos, hmin⟩ := intMin_eq t
  by_cases hsmall : y.natAbs ≤ 1
  · obtain rfl | rfl | rfl : y = -1 ∨ y = 0 ∨ y = 1 := by omega
    · rw [Int.tdiv_neg, Int.tdiv_one]; omega
    · rwa [Int.tdiv_zero]
    · rw [Int.tdiv_one]; exact hx.2
  · have hhalf : (x.tdiv y).natAbs ≤ x.natAbs / 2 := by
      rw [Int.natAbs_tdiv]
      exact Nat.div_le_div_left (by omega) (by decide)
    omega

/-- R72: a clipped value stands at the bound it passes, and SA says whether that changed it. -/
theorem clip_snd (t : Ty) (v : Int) : (clip t v).2 = if (clip t v).1 = v then 0 else SA := by
  unfold clip
  split
  · rw [if_neg (by dsimp only; omega)]
  · split
    · rw [if_neg (by dsimp only; omega)]
    · rw [if_pos rfl]

theorem clip_fst (t : Ty) (v : Int) : (clip t v).1 = if v < intMin t then intMin t else if intMax t < v then intMax t else v := by
  unfold clip
  split
  · rfl
  · split <;> rfl

/-- R109: the least number by −1 negates to itself modulo 2^N. -/
theorem tyPut_neg_intMin {t : Ty} (ht : t.isInt = true) (hneg : intMin t ≠ 0) : tyPut t (-intMin t) = tyPut t (intMin t) := by
  apply tyPut_congr
  have hs : t.signed = true := by
    by_contra h
    exact hneg (by simp [intMin, h])
  revert ht hs
  cases t <;> decide

section
variable {s : State} {g : Guard} (hr : Runs s g) {t : Ty} (ht : t.isInt = true) (d a b : Opnd)
include hr ht

/-- R109: ADD, SUB and MUL: the exact result, clipped with .sat. -/
theorem exec_add (sat : Bool) : exec (.add g t sat d a b) s = finish s (putArith s t sat d (tyVal t (s.src a) + tyVal t (s.src b))) := by
  simp only [← int_eq_of_isInt s ht]
  exact guarded_runs hr _ _

theorem exec_sub (sat : Bool) : exec (.sub g t sat d a b) s = finish s (putArith s t sat d (tyVal t (s.src a) - tyVal t (s.src b))) := by
  simp only [← int_eq_of_isInt s ht]
  exact guarded_runs hr _ _

theorem exec_mul (sat : Bool) : exec (.mul g t sat d a b) s = finish s (putArith s t sat d (tyVal t (s.src a) * tyVal t (s.src b))) := by
  simp only [← int_eq_of_isInt s ht]
  exact guarded_runs hr _ _

/-- R95: an exact result of an integer type is put to the destination. -/
theorem finish_putInt (v : Int) (fl : Flg) : finish s (putInt s t d v fl) = .next (s.result d (tyPut t v) fl) := by
  rw [putInt_result hr.2, intTy_of_isInt ht, finish_ok]

/-- R109: an exact result put wrapped. -/
theorem finish_putArith_wrap (v : Int) : finish s (putArith s t false d v) = .next (s.result d (tyPut t v) 0) := by
  rw [putArith_result hr.2 ht, finish_ok]; rfl

/-- R72, R109: an exact result put saturated. -/
theorem finish_putArith_sat (v : Int) : finish s (putArith s t true d v) = .next (s.result d (tyPut t (clip t v).1) (clip t v).2) := by
  rw [putArith_result hr.2 ht, finish_ok]; rfl

theorem exec_mulh : exec (.mulh g t d a b) s =
    .next (s.result d (tyPut t ((tyVal t (s.src a) * tyVal t (s.src b)) / (2 ^ t.bits : Nat))) 0) := by
  rw [← finish_putInt hr ht, ← int_eq_of_isInt s ht, ← int_eq_of_isInt s ht]
  exact guarded_runs hr _ _

theorem exec_div : exec (.div g t d a b) s =
    .next (if tyVal t (s.src b) = 0 then s.result d (tyPut t 0) DZ
      else s.result d (tyPut t ((tyVal t (s.src a)).tdiv (tyVal t (s.src b))))
        (flagIf (intMax t < (tyVal t (s.src a)).tdiv (tyVal t (s.src b))) OF)) := by
  refine (guarded_runs hr _ _).trans ?_
  simp only [int_eq_of_isInt s ht]
  split <;> rw [finish_putInt hr ht]

/-- R109: the least number by −1 is out of range: it wraps to itself with OF. -/
theorem exec_div_over (hb : tyVal t (s.src b) = -1) (ha : tyVal t (s.src a) = intMin t) :
    exec (.div g t d a b) s = .next (s.result d (tyPut t (tyVal t (s.src a))) OF) := by
  obtain ⟨hpos, hbound⟩ := intMin_eq t
  have hrange := tyVal_range ht (s.src b)
  have hgt : intMax t < -intMin t := by omega
  rw [exec_div hr ht, hb, ha, if_neg (by decide), Int.tdiv_neg, Int.tdiv_one, tyPut_neg_intMin ht (by omega), decide_eq_true hgt]
  rfl

/-- R109: any other quotient is in range. -/
theorem exec_div_in_range (hb : tyVal t (s.src b) ≠ 0) (h : ¬ (tyVal t (s.src b) = -1 ∧ tyVal t (s.src a) = intMin t)) :
    exec (.div g t d a b) s = .next (s.result d (tyPut t ((tyVal t (s.src a)).tdiv (tyVal t (s.src b)))) 0) := by
  have hle := tdiv_le_intMax (tyVal_range ht (s.src a)) h (tyVal_range ht (s.src b)).1
  rw [exec_div hr ht, if_neg hb, decide_eq_false (Int.not_lt.mpr hle)]
  rfl

theorem exec_rem : exec (.rem g t d a b) s =
    .next (if tyVal t (s.src b) = 0 then s.result d (tyPut t (tyVal t (s.src a))) DZ
      else s.result d (tyPut t ((tyVal t (s.src a)).tmod (tyVal t (s.src b)))) 0) := by
  refine (guarded_runs hr _ _).trans ?_
  simp only [int_eq_of_isInt s ht]
  split <;> rw [finish_putInt hr ht]

end

end Sys2Proof.Machine

open Sys2Proof Sys2Proof.Machine

/-- Settles O12: each form puts its exact result; the one quotient outside the range is the least number by −1. -/
theorem scalarArithmetic : Obligations.ScalarArithmetic := by
  unfold Obligations.ScalarArithmetic
  intro g t d a b s hr ht x y sat fl
  have hsat (v : Int) : sat v = (Num.clip t v).1 := (clip_fst t v).symm
  have hfl (v : Int) : fl v = (Num.clip t v).2 := by rw [clip_snd, ← hsat]
  simp only [hsat, hfl, exec_add hr ht, exec_sub hr ht, exec_mul hr ht, finish_putArith_wrap hr ht, finish_putArith_sat hr ht, exec_mulh hr ht]
  refine ⟨rfl, rfl, rfl, rfl, rfl, rfl, rfl, fun h => ?_, fun _ hover => exec_div_over hr ht d a b hover.1 hover.2,
    exec_div_in_range hr ht d a b, fun h => ?_, fun h => ?_⟩
  · rw [exec_div hr ht, if_pos h]
  · rw [exec_rem hr ht, if_pos h]
  · rw [exec_rem hr ht, if_neg h, Int.tmod_def]
end

section
/-! PROOFS. What a scalar write leaves as it was (R93, R95). -/
namespace Sys2Proof.Machine

/-- R93: a bit of a mask of the one bit n. -/
theorem getLsbD_one_shiftLeft (w n m : Nat) (hm : m < w) : (1#w <<< n).getLsbD m = decide (m = n) := by
  rw [BitVec.getLsbD_shiftLeft, BitVec.getLsbD_one]
  simp only [decide_eq_true hm, Bool.true_and]
  by_cases h : m = n
  · simp [h]; omega
  · by_cases hlt : m < n
    · simp [h, hlt]
    · simp [h, hlt]; omega

/-- R93: the full bits after an s register is written. -/
theorem Ctx.full_putS_same (c : Ctx) {n : Fin 32} (hn : n ≠ 0) (x : Word) : (c.putS n x).full.getLsbD n.val = true := by
  simp [Ctx.putS, hn]

theorem Ctx.full_putS_ne (c : Ctx) {n m : Fin 32} (h : m ≠ n) (x : Word) : (c.putS n x).full.getLsbD m.val = c.full.getLsbD m.val := by
  unfold Ctx.putS
  split
  · rfl
  · rw [BitVec.getLsbD_or, getLsbD_one_shiftLeft 32 n m m.isLt, decide_eq_false (Fin.val_ne_of_ne h), Bool.or_false]

/-- R93: the predicates after one is written. -/
theorem Ctx.p_putP_same (c : Ctx) {n : Fin 8} (hn : n ≠ 0) (b : Bool) : (c.putP n b).p.getLsbD n.val = b := by
  cases b <;> simp [Ctx.putP, hn]

theorem Ctx.p_putP_ne (c : Ctx) {n m : Fin 8} (h : m ≠ n) (b : Bool) : (c.putP n b).p.getLsbD m.val = c.p.getLsbD m.val := by
  unfold Ctx.putP
  split
  · rfl
  · have hbit := (getLsbD_one_shiftLeft 8 n m m.isLt).trans (decide_eq_false (Fin.val_ne_of_ne h))
    cases b with
    | true => rw [if_pos rfl, BitVec.getLsbD_or, hbit, Bool.or_false]
    | false => rw [if_neg Bool.false_ne_true, BitVec.getLsbD_and, BitVec.getLsbD_not, hbit, Bool.not_false, decide_eq_true m.isLt, Bool.and_true, Bool.and_true]

section
variable {s : State} (hv : s.grp.view = none)
include hv

/-- R56, R93: without a pair the group reads the context's own registers. -/
theorem rs_of_view (n : Fin 32) : s.rs n = if n = 0 then 0 else s.ctx.s[n] := by simp [State.rs, State.view, hv]

theorem rp_of_view (n : Fin 8) : s.rp n = if n = 0 then true else s.ctx.p.getLsbD n := by simp [State.rp, State.view, hv]

/-- R93: what a group reads after an s register is written. -/
theorem rs_putS (n m : Fin 32) (x : Word) : (s.putS n x).rs m = if m = 0 then 0 else (s.ctx.putS n x).s[m] := by
  rw [rs_of_view (s := s.putS n x) hv, State.ctx_putS]

theorem rp_putP (n m : Fin 8) (b : Bool) : (s.putP n b).rp m = if m = 0 then true else (s.ctx.putP n b).p.getLsbD m := by
  rw [rp_of_view (s := s.putP n b) hv, State.ctx_putP]

end

/-- R93, R111: the acting context after a destination takes a value. -/
theorem ctx_written (s : State) (d : Opnd) (v : Word) : (s.written d v).ctx =
    match d with | .s n => s.ctx.putS n v | .p n => s.ctx.putP n (v ≠ 0) | _ => s.ctx := by
  cases d with
  | s n => exact State.ctx_putS _ _ _
  | p n => exact State.ctx_putP _ _ _
  | _ => rfl

theorem ctx_result (s : State) (d : Opnd) (v : Word) (fl : Num.Flg) :
    (s.result d v fl).ctx = { (s.written d v).ctx with asr := asrOr (s.written d v).ctx.asr fl } := State.ctx_flag _ _

/-- R93: a written value reaches only the registers, their full bits and the predicates. -/
theorem written_registers (s : State) (d : Opnd) (v : Word) :
    let c := (s.written d v).ctx
    c = { s.ctx with s := c.s, full := c.full, p := c.p } := by
  dsimp only
  rw [ctx_written]
  split
  · unfold Ctx.putS
    split <;> rfl
  · unfold Ctx.putP
    split <;> rfl
  · rfl

/-- R93: a context other than the acting one. -/
theorem getCtx_written_ne (s : State) (d : Opnd) (v : Word) {k : Nat} (h : k ≠ s.cur) : (s.written d v).getCtx k = s.getCtx k := by
  unfold State.written
  split
  · exact State.getCtx_upd_ne _ _ _ h
  · exact State.getCtx_upd_ne _ _ _ h
  · rfl

end Sys2Proof.Machine

open Sys2Proof Sys2Proof.Machine

/-- Settles O16: a written value reaches one register of the acting context, and the flags ASR only. -/
theorem registerFrame : Obligations.RegisterFrame := by
  unfold Obligations.RegisterFrame
  refine ⟨fun s hv => ⟨rfl, rfl, fun x => by simp, fun b => by simp, fun n x hn => ⟨?_, ?_⟩, fun n m x hm => ⟨?_, ?_⟩, fun n b hn => ?_,
    fun n m b hm => ?_⟩, fun s d v fl => ⟨?_, ⟨fun k hk => ?_, ?_⟩, ?_, ?_, ?_, ?_, ?_, fun n hn => ?_, fun n hn => ?_⟩⟩
  · rw [rs_putS hv, if_neg hn, Ctx.putS_same _ _ _ hn]
  · rw [State.ctx_putS, Ctx.full_putS_same _ hn]
  · rw [rs_putS hv, rs_of_view hv, Ctx.putS_ne _ _ _ _ hm.symm]
  · rw [State.ctx_putS, Ctx.full_putS_ne _ hm]
  · rw [rp_putP hv, if_neg hn]
    exact Ctx.p_putP_same _ hn b
  · rw [rp_putP hv, rp_of_view hv]
    congr 1
    exact Ctx.p_putP_ne _ hm b
  · cases d <;> rfl
  · exact (State.getCtx_upd_ne _ _ _ (by cases d <;> exact hk)).trans (getCtx_written_ne s d v hk)
  · cases d <;> rfl
  · intro a
    cases d <;> rfl
  · rw [ctx_result, written_registers]
    rfl
  · cases d <;> rfl
  · rw [ctx_result, written_registers]
  · rw [ctx_result, written_registers]
    rfl
  · rw [ctx_result, ctx_written]
    cases d with
    | s m => exact Ctx.putS_ne _ _ _ _ (fun h => hn (by rw [h]))
    | p m => exact congrArg (·[n]) (Ctx.putP_s _ _ _)
    | _ => rfl
  · rw [ctx_result, ctx_written]
    cases d with
    | p m => exact Ctx.p_putP_ne _ (fun h => hn (by rw [h])) _
    | s m => exact congrArg (·.getLsbD n.val) (Ctx.putS_p _ _ _)
    | _ => rfl
end

section
/-! PROOFS. A follower between the messages of a pair (R101, R183). -/
namespace Sys2Proof.Machine

/-- The forwarded pair at the head of the follower's buffer. -/
def forwardedPair : List (Nat × Instr) := [(0, .nop), (1, .nop)]

/-- R183: a follower that stands between the two messages of that pair: the second form is still to be done, and the pair is still at the
head of its buffer. -/
def betweenMessages : State :=
  { State.reset with
    cores := [(0, { Core.reset with gang := 1, buffer := [.group 0x1000 0x1002 forwardedPair none] })]
    gangs := [(1, { Gang.blank with st := .running })]
    ctxs := [(0, { Ctx.reset with live := true, lfs := 3 })]
    halves := [(0, { Group.idle with todo := [(1, .nop)], all := forwardedPair, first := 0x1000, next := 0x1002, went := some none })] }

/-- The same, at the group that the buffer holds. -/
def atForwardedPair : State := { betweenMessages with cur := 0, grp := { Group.idle with first := 0x1000, next := 0x1002 } }

/-- The forms that a step leaves to be done. -/
def formsLeft : Host.Outcome State Fault Refusal → List (Nat × Instr)
  | .next t => t.grp.todo
  | _ => []

/-- R101: the whole pair is ready to issue from the buffer. -/
theorem readyGroup_forwardedPair : ∃ r, readyGroup atForwardedPair 0x1000 0x1002 forwardedPair (some none) = .group r := by
  have hready : (match readyGroup atForwardedPair 0x1000 0x1002 forwardedPair (some none) with | .group _ => true | _ => false) = true := by
    decide +kernel
  split at hready
  case h_1 r hr => exact ⟨r, hr⟩
  case h_2 => contradiction

/-- R183: the step brings the follower to the second message, not to the group at the head of its buffer. -/
theorem forwardedGroup_betweenMessages : formsLeft (exec (.forwardedGroup 0) betweenMessages) = [(1, .nop)] := by decide +kernel

end Sys2Proof.Machine

open Sys2Proof Sys2Proof.Machine

/-- Refutes O19: a follower between the two messages of a forwarded pair still has the pair at the head of its buffer, but is brought to the
second message (R183): the statement lacks the premise that the context stands at a group. -/
theorem not_leadFollow : ¬ Obligations.LeadFollow := by
  unfold Obligations.LeadFollow
  rintro ⟨-, hstream, -⟩
  obtain ⟨-, -, -, hgroup⟩ := hstream 0 0 betweenMessages (by decide +kernel) (by decide +kernel)
  obtain ⟨r, hr⟩ := readyGroup_forwardedPair
  obtain ⟨hstep, htodo, -⟩ := hgroup 0x1000 0x1002 forwardedPair none [] (by decide +kernel) (by decide +kernel) (by decide +kernel) (by decide +kernel)
    (by decide +kernel) (by decide +kernel) r (by decide +kernel) hr
  have hhalf := forwardedGroup_betweenMessages
  rw [hstep] at hhalf
  exact absurd (htodo.symm.trans hhalf) (by decide)
end

section
/-! PROOFS. What the end of a context leaves of the contexts (R96, R206, R234). -/
namespace Sys2Proof.Machine

/-- R96: a context that has ended. -/
def Ctx.ended (c : Ctx) : Ctx :=
  { c with live := false, wait := none, packet := none, capture := none, lfs := 0, pair := none, errors := [], refusals := [], walking := none,
           behind := none, sent := [] }

/-- R234: a claim that is passed on changes no context but one that waits for its own release. -/
theorem passClaim_getCtx (s : State) (k key : Nat) :
    (passClaim s k).getCtx key = s.getCtx key ∨
      (s.getCtx key).wait = some .release ∧ (passClaim s k).getCtx key = { s.getCtx key with wait := some .released } := by
  unfold passClaim
  extract_lets c
  split
  · exact .inl rfl
  · next h _ =>
    split
    · exact .inl rfl
    · extract_lets x t
      have ht : t.getCtx key = s.getCtx key ∨ (s.getCtx key).wait = some .release ∧ t.getCtx key = { s.getCtx key with wait := some .released } := by
        simp only [t]
        split
        case isTrue hwait =>
          by_cases hkey : key = 4 * k + h.val
          · rw [hkey, State.getCtx_setCtx_same]
            exact .inr ⟨hwait, rfl⟩
          · rw [State.getCtx_setCtx_ne _ _ _ _ hkey]
            exact .inl rfl
        case isFalse => exact .inl rfl
      split <;> exact ht

/-- R96: before the claim is passed on, the end of a context has changed that context only. -/
theorem endContext_eq (s : State) (key : Nat) :
    ∃ t, endContext s key = passClaim t (key / 4) ∧ t.ctxs = (s.setCtx key (s.getCtx key).ended).ctxs := by
  unfold endContext
  extract_lets pid x t u c v
  have hu : u.ctxs = t.ctxs := by
    simp only [u]
    cases pid with
    | none => rfl
    | some p => exact (dropPair_ctxs_cur t p).1
  have hv : v.ctxs = u.ctxs := by
    simp only [v]
    split <;> rfl
  exact ⟨_, rfl, (flushFaults_ctxs v key).trans (hv.trans hu)⟩

/-- R96: the context that ends. -/
theorem endContext_same (s : State) (key : Nat) : (endContext s key).getCtx key = (s.getCtx key).ended := by
  obtain ⟨t, hend, hctxs⟩ := endContext_eq s key
  have ht : t.getCtx key = (s.getCtx key).ended := by
    rw [State.getCtx, hctxs]
    exact State.getCtx_setCtx_same _ _ _
  rw [hend]
  rcases passClaim_getCtx t (key / 4) key with h | ⟨hwait, -⟩
  · rw [h, ht]
  · rw [ht] at hwait
    cases hwait

/-- R96, R234: of another context, the end of one can change only what it waits for. -/
theorem endContext_ne (s : State) {key j : Nat} (h : j ≠ key) : ∃ w, (endContext s key).getCtx j = { s.getCtx j with wait := w } := by
  obtain ⟨t, hend, hctxs⟩ := endContext_eq s key
  have ht : t.getCtx j = s.getCtx j := by
    rw [State.getCtx, hctxs]
    exact State.getCtx_setCtx_ne _ _ _ _ h
  rw [hend, ← ht]
  rcases passClaim_getCtx t (key / 4) j with h' | ⟨-, h'⟩
  · exact ⟨_, h'⟩
  · exact ⟨_, h'⟩

end Sys2Proof.Machine
end

section
/-! PROOFS. Steps of contexts (R94, R96, R154, R183). -/
namespace Sys2Proof.Machine

/-- R96: the rotation takes the first context that is ready. -/
theorem rotation_find {r : Nat} {p : Nat → Bool} {j : Fin 4} (hj : p ((r + 1 + j.val) % 4) = true) (hi : ∀ i, i < j.val → p ((r + 1 + i) % 4) = false) :
    ([1, 2, 3, 4].map (fun j => (r + j) % 4)).find? p = some ((r + 1 + j.val) % 4) := by
  simp only [List.map_cons, List.map_nil, List.find?_cons, List.find?_nil]
  match j with
  | 0 => simp only [show p ((r + 1) % 4) = true from hj]; rfl
  | 1 => simp only [show p ((r + 1) % 4) = false from hi 0 (by decide), show p ((r + 2) % 4) = true from hj]; rfl
  | 2 =>
    simp only [show p ((r + 1) % 4) = false from hi 0 (by decide), show p ((r + 2) % 4) = false from hi 1 (by decide),
      show p ((r + 3) % 4) = true from hj]
    rfl
  | 3 =>
    simp only [show p ((r + 1) % 4) = false from hi 0 (by decide), show p ((r + 2) % 4) = false from hi 1 (by decide),
      show p ((r + 3) % 4) = false from hi 2 (by decide), show p ((r + 4) % 4) = true from hj]
    rfl

/-- R96: the context that the rotation comes to runs, and its count is 0. -/
theorem selectCtx_rotation {s : State} {k : Nat} {j : Fin 4} {issues : State → Bool}
    (hj : ready issues s (4 * k + ((s.getCore k).running.val + 1 + j.val) % 4) = true)
    (hi : ∀ i, i < j.val → ready issues s (4 * k + ((s.getCore k).running.val + 1 + i) % 4) = false) :
    selectCtx issues s k = switchTo s k (((s.getCore k).running.val + 1 + j.val) % 4) := by
  unfold selectCtx
  rw [rotation_find (p := fun n => ready issues s (4 * k + n)) hj hi]

section
variable {s : State} {k : Nat} (hphase : (s.getCore k).phase = none) (hcapture : (s.getCtx (4 * k + (s.getCore k).running.val)).capture = none)
include hphase hcapture

/-- R96, R204: the quantum of a context outside a phase and a capture. -/
theorem exec_quantumExpiry : exec (.quantumExpiry k) s =
    .next (if (s.getCore k).quant ≤ (s.getCtx (4 * k + (s.getCore k).running.val)).quantum then selectCtx (fun _ => true) s k else s) := by
  show execQuantumExpiry k s = _
  unfold execQuantumExpiry
  simp only [hphase, hcapture, Option.isNone_none, Bool.true_and, decide_eq_true_eq]
  split <;> rfl

end

/-- R94: an answer that arrives at an empty register. -/
theorem exec_remoteAnswer {s : State} {k i : Nat} {a : Answer} (ha : (s.getCore k).answers[i]? = some a)
    (hempty : (s.getCtx (4 * k + a.ctx.val)).full.getLsbD a.dest.val = false) :
    ∃ t, exec (.remoteAnswer k i) s = .next t ∧ t.cores = (s.setCore k { s.getCore k with answers := (s.getCore k).answers.eraseIdx i }).cores ∧
      t.getCtx (4 * k + a.ctx.val) =
        Ctx.putS { s.getCtx (4 * k + a.ctx.val) with asr := asrOr (s.getCtx (4 * k + a.ctx.val)).asr a.flags } a.dest a.value ∧
      t.mem = s.mem ∧ ∀ j, j ≠ 4 * k + a.ctx.val → t.getCtx j = s.getCtx j := by
  have hstep : exec (.remoteAnswer k i) s = execRemoteAnswer k i s := rfl
  unfold execRemoteAnswer at hstep
  simp only [ha] at hstep
  set u := s.setCore k { s.getCore k with answers := (s.getCore k).answers.eraseIdx i } with hu
  have hflag : (u.flagAt (4 * k + a.ctx.val) a.flags).getCtx (4 * k + a.ctx.val) =
      { s.getCtx (4 * k + a.ctx.val) with asr := asrOr (s.getCtx (4 * k + a.ctx.val)).asr a.flags } := State.getCtx_setCtx_same _ _ _
  refine ⟨_, hstep, ?_, ?_, ?_, fun j hj => ?_⟩ <;> unfold lateAnswer <;> simp only [hflag, hempty, Bool.false_eq_true, if_false]
  · rfl
  · exact State.getCtx_setCtx_same _ _ _
  · rfl
  · exact (State.getCtx_setCtx_ne _ _ _ _ hj).trans (State.getCtx_setCtx_ne _ _ _ _ hj)

/-- R347: a line that is logged changes no core. -/
theorem logLine_cores (s : State) (g l : Nat) : (logLine s g l).cores = s.cores := by
  unfold logLine
  dsimp only
  split
  · rfl
  · split
    · split <;> rfl
    · rfl

/-- R346: without a shadow area there is no log in memory. -/
theorem faultRec_none {s : State} {g : Nat} (h : (s.getGang g).shadow = 0) (dw : Nat) : faultRec s g dw = none := by
  simp [faultRec, h]

/-- R347: without a shadow area a line is logged outside memory. -/
theorem logLine_mem {s : State} {g : Nat} (h : g = 0 ∨ (s.getGang g).shadow = 0) (l : Nat) : (logLine s g l).mem = s.mem := by
  unfold logLine
  dsimp only
  rcases h with rfl | h
  · rfl
  · split
    · rfl
    · simp only [faultRec_none h]
      rfl

/-- R347: the first line that a running gang logs keeps the value and the backing value it had. -/
theorem logLine_log {s : State} {g l : Nat} (hg : g ≠ 0) (hrun : (s.getGang g).st = .running) (h : (s.getGang g).shadow = 0)
    (hnew : mget? l (s.getGang g).log = none) :
    mget? l ((logLine s g l).getGang g).log = some (lineVal s l, (s.getLine l).dirty) := by
  unfold logLine
  dsimp only
  rw [faultRec_none h, hnew, if_neg (by simp [hg, hrun])]
  show mget? l (State.getGang (State.setGang _ g _) g).log = _
  rw [State.getGang_setGang_same, mget?_mset_same]

/-- R154: the write-back of a dirty line. -/
theorem writeBackLine_dirty {s : State} {l : Nat} {b : Line} (h : (s.getLine l).dirty = some b) :
    writeBackLine s l = cleanL1 ((logLine s (s.getLine l).writer l).setLine l { s.getLine l with dirty := none }) l := by
  unfold writeBackLine
  simp [h]

/-- R183: the context in which the second copy of a paired task starts. -/
def Ctx.secondCopy (c one : Ctx) (p : Pair) (pid : Nat) : Ctx :=
  { freshTask c one.pc (one.s.toArray.getD 1 0) p.packet.handle with
    packet := some p.packet, prio := p.packet.prio, pair := some pid, pts := max c.pts p.stamp }

/-- R183: the second copy of a paired task starts in a context, and the first goes on. -/
def bothCopies (s : State) (p : Pair) (key : Nat) : State :=
  (s.setCtx key ((s.getCtx key).secondCopy (s.getCtx p.first) p s.subject)).setCtx p.first { s.getCtx p.first with wait := none }

/-- R154: no L1 holds a clean line dirty. -/
theorem getCore_cleanL1 (s : State) (l k : Nat) :
    (cleanL1 s l).getCore k = { s.getCore k with stored := (s.getCore k).stored.filter (fun y => y != l) } :=
  mget_map Core.reset (fun c => { c with stored := c.stored.filter (fun y => y != l) }) rfl k s.cores

/-- R154, R167: a dirty line is written back. -/
theorem exec_writeBack {s : State} {l : Nat} {b : Line} (h : (s.getLine l).dirty = some b) :
    exec (.writeBack l) s = .next (writeBackLine s l) := by
  show execWriteBack l s = _
  unfold execWriteBack
  simp only [h, Option.isSome_some, if_true]

section
variable {s : State} {p : Pair} (hp : mget? s.subject s.pairs = some p) (hrun : (s.getGang p.gang).st = .running)
include hp hrun

/-- R183: the second copy of a paired task starts in the first context of the partner core that is not live, with the code and the frame
of the first copy. -/
theorem exec_pairedCopyStart {j n : Nat} (hsecond : p.second = none) (hpair : (s.getCtx p.first).pair = some s.subject)
    (hcore : partnerCore s (s.getGang p.gang) (p.first / 4) = some j)
    (hn : (List.range 4).find? (fun n => !(s.getCtx (4 * j + n)).live) = some n) :
    exec .pairedCopyStart s = .next { bothCopies s p (4 * j + n) with pairs := mset s.subject { p with second := some (4 * j + n) } s.pairs } := by
  show execPairedCopyStart s = _
  unfold execPairedCopyStart
  simp only [hp]
  rw [if_neg (by simp [hsecond, hrun, hpair])]
  simp only [hcore, hn]
  rfl

/-- R183: messages of one ordinal are compared once. -/
theorem exec_pairedMessageCompare {a b : PairMsg} (ha : p.msg1 = some a) (hb : p.msg2 = some b) (hord : a.ordinal = b.ordinal)
    (hagreed : p.agreed = false) (hanswer : p.answer = none) :
    exec .pairedMessageCompare s = .next (if a.hash = b.hash then
      { s.setCtx p.first { s.getCtx p.first with wait := none } with pairs := mset s.subject { p with agreed := true } s.pairs }
      else mismatch s s.subject p) := by
  show execPairedMessageCompare s = _
  unfold execPairedMessageCompare
  simp only [hp, ha, hb, hord, hagreed, hanswer, hrun, Option.isSome_none, ne_eq, not_true, decide_false, Bool.or_false, Bool.false_eq_true, if_false]
  split <;> rfl

/-- R183: a message that stands alone for 65,536 cycles. -/
theorem exec_pairedMismatchTimeout {a : PairMsg} (ha : p.msg1 = some a) (hb : p.msg2 = none) (hlate : a.time + 65536 ≤ s.now)
    (hagreed : p.agreed = false) (hanswer : p.answer = none) : exec .pairedMismatchTimeout s = .next (mismatch s s.subject p) := by
  show execPairedMismatchTimeout s = _
  unfold execPairedMismatchTimeout
  simp [hp, ha, hb, hagreed, hanswer, hrun, hlate]

end

/-- R183: what a mismatch leaves before the trap of the first copy: the second copy has ended, and the packet is queued again. -/
def mismatched (s : State) (pid : Nat) (p : Pair) : State :=
  let s := { s with pairs := mdel pid s.pairs }
  let s := match p.second with
    | some key => if (s.getCtx key).pair == some pid then endContext s key else s
    | none => s
  enqueue s p.gang p.queue p.packet.prio ⟨p.packet.handle, none, s.now, max p.stamp (s.getCtx p.first).pts⟩

/-- R183: the end of the second copy can change only what the first one waits for. -/
theorem mismatched_first {s : State} {pid : Nat} {p : Pair} (h : p.second ≠ some p.first) :
    ∃ w, (mismatched s pid p).getCtx p.first = { s.getCtx p.first with wait := w } := by
  unfold mismatched
  extract_lets t u
  show ∃ w, u.getCtx p.first = _
  simp only [u]
  split
  · next key hkey =>
    split
    · exact endContext_ne t (fun e => h (by rw [hkey, e]))
    · exact ⟨_, rfl⟩
  · exact ⟨_, rfl⟩

theorem mismatched_second {s : State} {pid : Nat} {p : Pair} {key : Nat} (hkey : p.second = some key) (hpair : (s.getCtx key).pair = some pid) :
    ((mismatched s pid p).getCtx key).live = false := by
  unfold mismatched
  extract_lets t u
  have hu : u = endContext t key := by
    simp only [u, hkey]
    exact if_pos (by rw [beq_iff_eq]; exact hpair)
  show (u.getCtx key).live = false
  rw [hu, endContext_same]
  rfl

/-- R178: an entry that is appended stands in the FIFO of its priority. -/
theorem mem_enqueue (s : State) (g q : Nat) {prio : Nat} (hprio : prio < 4) (e : TqEntry) :
    e ∈ (getQueue (enqueue s g q prio e) g q).toArray.getD prio [] := by
  simp [enqueue, getQueue, mget_mset_same, Nat.mod_eq_of_lt hprio, hprio, Array.getD, Vector.setIfInBounds]

theorem mismatch_eq {s : State} {pid : Nat} {p : Pair} (hpair : (s.getCtx p.first).pair = some pid) (h : p.second ≠ some p.first) :
    mismatch s pid p = enterTrap ((mismatched s pid p).setCtx p.first { (mismatched s pid p).getCtx p.first with packet := none, pair := none })
      p.first ⟨0x74, p.packet.handle, BitVec.ofNat 64 p.ord1, none⟩ false 0 := by
  obtain ⟨w, hw⟩ := mismatched_first (s := s) (pid := pid) h
  have hpair' : (((mismatched s pid p).getCtx p.first).pair == some pid) = true := by
    rw [hw, beq_iff_eq]
    exact hpair
  exact if_pos hpair'

end Sys2Proof.Machine

open Sys2Proof Sys2Proof.Machine

/-- Settles O60: each step by what it does to the contexts; a mismatch ends the second copy, which leaves the first one's registers and packet. -/
theorem contextSteps : Obligations.ContextSteps := by
  unfold Obligations.ContextSteps
  refine ⟨fun s k j hphase hcapture => ⟨fun hlt => ?_, fun hle hj hi => ?_⟩, fun s k i a ha hempty hdest => ?_,
    fun s line => ⟨fun hclean => ?_, fun b hdirty => ?_⟩, fun s k c => rfl, fun s p hp hrun =>
      ⟨fun j n hsecond hpair hcore hn hne => ?_, fun a b ha hb hord hagreed hanswer => ?_, fun a ha hb hlate hagreed hanswer => ?_,
        fun hpair hsecond => ?_⟩⟩
  · rw [exec_quantumExpiry hphase hcapture, if_neg (by omega)]
  · rw [exec_quantumExpiry hphase hcapture, if_pos hle, selectCtx_rotation hj hi]
    refine ⟨_, rfl, ?_, ?_, fun key hkey => ?_, rfl⟩ <;> unfold switchTo
    · rw [State.getCore_setCore_same]
      exact Nat.mod_mod _ _
    · exact State.getCtx_setCtx_same _ _ _
    · exact State.getCtx_setCtx_ne _ _ _ _ hkey
  · obtain ⟨t, ht, hcores, hctx, hmem, hothers⟩ := exec_remoteAnswer ha hempty
    refine ⟨t, ht, ?_, ?_, ?_, ?_, hmem, hothers⟩
    · rw [State.getCore, hcores]
      exact congrArg Core.answers (State.getCore_setCore_same _ _ _)
    · rw [hctx, Ctx.putS, if_neg hdest]
    · rw [hctx, Ctx.full_putS_same _ hdest]
    · rw [hctx, Ctx.putS_asr]
      rfl
  · show execWriteBack line s = _
    unfold execWriteBack
    rw [hclean]
    rfl
  · rw [exec_writeBack hdirty, writeBackLine_dirty hdirty]
    refine ⟨_, rfl, ?_, ?_, fun l hl => ?_, fun k => ?_, fun hmem a => ?_, fun hg hrun hshadow hnew => ?_⟩
    · exact State.getLine_setLine_same _ _ _
    · exact (logLine_lines_ctxs s _ _).2
    · rw [← writeBackLine_dirty hdirty, writeBackLine_ne s hl]
    · rw [getCore_cleanL1]
      have hcore : ((logLine s (s.getLine line).writer line).setLine line { s.getLine line with dirty := none }).getCore k = s.getCore k := by
        show mget Core.reset k (logLine s (s.getLine line).writer line).cores = _
        rw [logLine_cores]
        rfl
      rw [hcore]
    · exact congrArg (Memory.read · a) (logLine_mem hmem line)
    · rw [← hdirty]
      exact logLine_log hg hrun hshadow hnew
  · rw [exec_pairedCopyStart hp hrun hsecond hpair hcore hn]
    have hfirst : (bothCopies s p (4 * j + n)).getCtx p.first = { s.getCtx p.first with wait := none } := State.getCtx_setCtx_same _ _ _
    refine ⟨_, rfl, hfirst, mget?_mset_same _ _ _, ?_⟩
    intro two
    have htwo : two = (s.getCtx (4 * j + n)).secondCopy (s.getCtx p.first) p s.subject :=
      (State.getCtx_setCtx_ne (s.setCtx _ _) _ _ { s.getCtx p.first with wait := none } hne).trans (State.getCtx_setCtx_same s _ _)
    rw [htwo]
    exact ⟨rfl, rfl, by simp [Ctx.secondCopy, freshTask], by simp [Ctx.secondCopy, freshTask], rfl, rfl, le_max_right _ _⟩
  · rw [exec_pairedMessageCompare hp hrun ha hb hord hagreed hanswer]
    exact ⟨fun h => by rw [if_pos h], fun h => by rw [if_neg h]⟩
  · exact exec_pairedMismatchTimeout hp hrun ha hb hlate hagreed hanswer
  · obtain ⟨w, hw⟩ := mismatched_first (s := s) (pid := s.subject) hsecond
    refine ⟨_, mismatch_eq hpair hsecond, ?_, ?_, fun hprio => ⟨_, mem_enqueue _ _ _ hprio _, rfl, rfl⟩, fun key hkey hne hpair2 => ?_⟩
    · rw [State.getCtx_setCtx_same]
    · rw [State.getCtx_setCtx_same, hw]
    · rw [State.getCtx_setCtx_ne _ _ _ _ hne]
      exact mismatched_second hkey hpair2
end

section
/-! PROOFS. Bytes of memory as numbers (R4). -/
namespace Sys2Proof.Machine

theorem Memory.length_bytes (m : Memory) (a n : Nat) : (m.bytes a n).length = n := by
  induction n generalizing a with
  | zero => rfl
  | succ n ih => rw [Memory.bytes, List.length_cons, ih]

/-- Bytes that follow one another. -/
theorem Memory.bytes_add (m : Memory) (a i n : Nat) : m.bytes a (i + n) = m.bytes a i ++ m.bytes (a + i) n := by
  induction i generalizing a with
  | zero => simp [Memory.bytes]
  | succ i ih => rw [Nat.succ_add, Memory.bytes, Memory.bytes, ih, List.cons_append, Nat.add_assoc, Nat.add_comm 1 i]

/-- R4: the bytes of their own little-endian value. -/
theorem Bits.bytesLE_ofBytesLE (bs : List Byte) : Bits.bytesLE bs.length (Bits.ofBytesLE bs) = bs := by
  induction bs with
  | nil => rfl
  | cons b bs ih =>
    have hdiv : (b.toNat + 256 * Bits.ofBytesLE bs) / 256 = Bits.ofBytesLE bs := by omega
    have hmod : BitVec.ofNat 8 (b.toNat + 256 * Bits.ofBytesLE bs) = b := BitVec.eq_of_toNat_eq (by rw [BitVec.toNat_ofNat]; omega)
    rw [List.length_cons, Bits.ofBytesLE, Bits.bytesLE, hdiv, hmod, ih]

theorem Bits.ofBytesLE_lt (bs : List Byte) : Bits.ofBytesLE bs < 256 ^ bs.length := by
  induction bs with
  | nil => decide
  | cons b bs ih =>
    rw [List.length_cons, Nat.pow_succ, Bits.ofBytesLE]
    omega

theorem Memory.readLE_lt (m : Memory) (a n : Nat) : m.readLE a n < 256 ^ n := by
  have h := Bits.ofBytesLE_lt (m.bytes a n)
  rwa [Memory.length_bytes] at h

theorem Memory.bytesLE_readLE (m : Memory) (a n : Nat) : Bits.bytesLE n (m.readLE a n) = m.bytes a n := by
  have h := Bits.bytesLE_ofBytesLE (m.bytes a n)
  rwa [Memory.length_bytes] at h

/-- Bytes within a longer run of bytes. -/
theorem Memory.take_drop_bytes (m : Memory) (a i n w : Nat) (h : i + n ≤ w) : ((m.bytes a w).drop i).take n = m.bytes (a + i) n := by
  obtain ⟨j, rfl⟩ := Nat.exists_eq_add_of_le h
  rw [Nat.add_assoc, Memory.bytes_add, List.drop_left' (Memory.length_bytes m a i), Memory.bytes_add, List.take_left' (Memory.length_bytes m _ n)]

/-- The 64 bytes of a line. -/
theorem lineVal_toNat (s : State) (l : Nat) : (lineVal s l).toNat = s.mem.readLE (l * 64) 64 := by
  have hbound : (256 : Nat) ^ 64 = 2 ^ 512 := (Nat.pow_mul 2 8 64).symm
  rw [lineVal, BitVec.toNat_ofNat, ← hbound]
  exact Nat.mod_eq_of_lt (Memory.readLE_lt s.mem _ 64)

/-- R151: bytes within a line's value are those of memory. -/
theorem lineVal_bytes (s : State) (a n : Nat) (h : a % 64 + n ≤ 64) :
    ((Bits.bytesLE 64 (lineVal s (a / 64)).toNat).drop (a % 64)).take n = s.mem.bytes a n := by
  rw [lineVal_toNat, Memory.bytesLE_readLE, Memory.take_drop_bytes _ _ _ _ _ h]
  congr 1
  omega

end Sys2Proof.Machine
end

section
/-! PROOFS. The walk of a table that its entries' homes hold (R118, R119, R151). -/
namespace Sys2Proof.Machine

/-- R358: a read of a line with no EINJ armed at its stack changes nothing. -/
theorem homeRead_unarmed {s : State} {pa : Nat} (h : (ctrlRaw s (blockPa (paPkg pa) (.base (Topo.stackOf (paOff pa))) 0xA00)).getLsbD 0 = false)
    (who : Reader) : homeRead s who pa = s := by
  unfold homeRead
  dsimp only
  rw [h, Bool.and_false, Bool.false_and, Bool.false_and]
  rfl

/-- R119, R151: what a walker's load keeps: memory, the count of walks, and the entries it may read. -/
structure WalkKeeps (k : Nat) (s t : State) : Prop where
  mem : t.mem = s.mem
  count : (t.getCore k).walk = (s.getCore k).walk
  readable : ∀ a, WalkReadable s k a → WalkReadable t k a

theorem WalkKeeps.refl (k : Nat) (s : State) : WalkKeeps k s s := ⟨rfl, rfl, fun _ h => h⟩

theorem WalkKeeps.trans {k : Nat} {s t u : State} (h : WalkKeeps k s t) (h' : WalkKeeps k t u) : WalkKeeps k s u :=
  ⟨h'.mem.trans h.mem, h'.count.trans h.count, fun a ha => h'.readable a (h.readable a ha)⟩

theorem lineVal_congr {s t : State} (h : t.mem = s.mem) (l : Nat) : lineVal t l = lineVal s l := by
  unfold lineVal
  rw [h]

/-- R324: a control register whose stored words stay. -/
theorem ctrlRaw_congr {s t : State} (h : t.ctrl = s.ctrl) (pa : Nat) : ctrlRaw t pa = ctrlRaw s pa := by
  unfold ctrlRaw
  rw [h]

/-- R119: entries stay readable where memory, the control registers, the poison of lines and the commands in flight stay, and new lease copies
are what memory holds. -/
theorem walkReadable_congr {s t : State} {k a : Nat} (hmem : t.mem = s.mem) (hctrl : t.ctrl = s.ctrl)
    (hpoison : ∀ l, (t.getLine l).poison = (s.getLine l).poison) (hboard : (t.getCore k).scoreboard = (s.getCore k).scoreboard)
    (hlease : ∀ l x, mget? l (t.getCore k).leases = some x → mget? l (s.getCore k).leases = some x ∨ x.value = lineVal s l)
    (h : WalkReadable s k a) : WalkReadable t k a := by
  obtain ⟨halign, hreg, ⟨hpois, harmed⟩, hover, hcopies⟩ := h
  refine ⟨halign, hreg, ⟨?_, ?_⟩, ?_, fun x hx => ?_⟩
  · rw [poisoned, hpoison]
    exact hpois
  · rw [ctrlRaw_congr hctrl]
    exact harmed
  · rw [overlapping, hboard]
    exact hover
  · rw [lineVal_congr hmem]
    rcases hlease _ _ hx with h' | h'
    · exact hcopies x h'
    · exact h'

/-- R119: what a walk needs stays where cores, memory, control registers and poison stay. -/
theorem walkKeeps_of_cores {s t : State} {k : Nat} (hcores : t.cores = s.cores) (hmem : t.mem = s.mem) (hctrl : t.ctrl = s.ctrl)
    (hpoison : ∀ l, (t.getLine l).poison = (s.getLine l).poison) : WalkKeeps k s t := by
  have hcore : t.getCore k = s.getCore k := by rw [State.getCore, hcores, State.getCore]
  exact ⟨hmem, by rw [hcore], fun a => walkReadable_congr hmem hctrl hpoison (by rw [hcore]) (fun _ _ h => .inl (by rwa [hcore] at h))⟩

/-- R151: a load at the home moves the line's read timestamp only. -/
theorem loadHome_poison (s : State) (l ts j : Nat) : ((loadHome s l ts).1.getLine j).poison = (s.getLine j).poison := by
  by_cases h : j = l
  · rw [h, (loadHome_line s l ts).2]
  · exact congrArg LineMeta.poison (State.getLine_setLine_ne _ _ _ _ h)

/-- R151: a load at the home keeps what a walk needs. -/
theorem homeLoad_walkKeeps (s : State) (key pa k : Nat) : WalkKeeps k s (homeLoad s key pa) := by
  unfold homeLoad
  extract_lets j l r c t
  have hlines (i : Nat) : (t.getLine i).poison = (s.getLine i).poison := loadHome_poison s l _ i
  split
  · exact walkKeeps_of_cores rfl rfl rfl hlines
  · have hcore : (t.setCore j { t.getCore j with leases := mset l ⟨lineVal t l, (t.getLine l).wts, (t.getLine l).rts⟩ (t.getCore j).leases }).getCore k =
        if k = j then { s.getCore k with leases := mset l ⟨lineVal t l, (t.getLine l).wts, (t.getLine l).rts⟩ (s.getCore k).leases } else s.getCore k := by
      split
      · next h => rw [h]; exact State.getCore_setCore_same _ _ _
      · next h => exact State.getCore_setCore_ne _ _ _ _ h
    refine ⟨rfl, ?_, fun a => walkReadable_congr rfl rfl hlines ?_ (fun i x => ?_)⟩ <;> rw [hcore] <;> split
    · rfl
    · rfl
    · rfl
    · rfl
    · intro h
      by_cases hi : i = l
      · rw [hi, mget?_mset_same] at h
        have hval : lineVal t l = lineVal s l := lineVal_congr rfl l
        exact .inr (by rw [← Option.some.inj h, hi, hval])
      · rw [mget?_mset_ne _ _ _ _ hi] at h
        exact .inl h
    · exact .inl

/-- R151: a copy that may serve a load is the lease of its line. -/
theorem usableCopy_lease {s : State} {key pa : Nat} {x : Lease} (h : usableCopy s key pa = some x) :
    mget? (pa / 64) (s.getCore (key / 4)).leases = some x := by
  unfold usableCopy at h
  split at h
  · next y hy =>
    split at h
    · rw [hy, h]
    · cases h
  · cases h

/-- R151: a load of a readable entry gives what memory holds, from the home or from a lease copy. -/
theorem loadFor_readable {key : Nat} {s : State} {a : Nat} (h : WalkReadable s (key / 4) a) :
    (loadFor s key a 8).2.1 = s.mem.bytes a 8 ∧ WalkKeeps (key / 4) s (loadFor s key a 8).1 := by
  obtain ⟨halign, hreg, -, -, hcopies⟩ := h
  unfold loadFor
  split
  · exact ⟨if_neg hreg, homeLoad_walkKeeps s key a _⟩
  · next x hx =>
    extract_lets t
    have ht : WalkKeeps (key / 4) s t := walkKeeps_of_cores rfl rfl rfl (fun _ => rfl)
    split
    · dsimp only
      rw [hcopies x (usableCopy_lease hx)]
      exact ⟨lineVal_bytes s a 8 (by omega), walkKeeps_of_cores rfl rfl rfl (fun _ => rfl)⟩
    · exact ⟨if_neg hreg, ht.trans (homeLoad_walkKeeps t key a _)⟩

/-- R119, R357: the walker reads a readable entry. -/
theorem walkLoad_readable {key : Nat} {s : State} {a : Nat} (h : WalkReadable s (key / 4) a) :
    ∃ t, walkLoad key s a = .ok (t, s.mem.readLE a 8) ∧ WalkKeeps (key / 4) s t := by
  obtain ⟨hbytes, hkeeps⟩ := loadFor_readable h
  obtain ⟨-, -, ⟨hpois, harmed⟩, hover, -⟩ := h
  refine ⟨_, ?_, hkeeps⟩
  unfold walkLoad
  simp only [hover, homeRead_unarmed harmed, hpois, Bool.false_eq_true, if_false, hbytes]
  rfl

/-- R118, R119: a walk whose entries are readable finds what memory holds. -/
theorem walkBy_readable {key va : Nat} {m : Memory} (fuel level base : Nat) {s : State} (hmem : s.mem = m)
    (h : ∀ a ∈ walkReads m va fuel level base, WalkReadable s (key / 4) a) :
    ∃ t, walkBy (walkLoad key) va s fuel level base = .ok (t, walk m va fuel level base) ∧ WalkKeeps (key / 4) s t := by
  induction fuel generalizing s level base with
  | zero => exact ⟨s, rfl, WalkKeeps.refl _ s⟩
  | succ fuel ih =>
    obtain ⟨t, hload, hkeeps⟩ := walkLoad_readable (h _ List.mem_cons_self)
    rw [hmem] at hload
    simp only [walkBy, hload, walk]
    rcases hentry : tableEntry level (m.readLE (base + 8 * levelIndex va level) 8) with _ | _ | next
    · exact ⟨t, rfl, hkeeps⟩
    · exact ⟨t, rfl, hkeeps⟩
    · have hrest : ∀ a ∈ walkReads m va fuel (level + 1) next, WalkReadable t (key / 4) a := fun a ha =>
        hkeeps.readable a (h a (List.mem_cons_of_mem _ (by simpa only [hentry] using ha)))
      obtain ⟨u, hwalk, hkeeps'⟩ := ih (level + 1) next (hkeeps.mem.trans hmem) hrest
      exact ⟨u, hwalk, hkeeps.trans hkeeps'⟩

theorem walkStep_readable {s : State} {key va : Nat} (hneeds : needsWalk s (key / 4) (s.getCore (key / 4)).gang va = true)
    (h : ∀ a ∈ walkReads s.mem va 4 0 (s.getCore (key / 4)).root.toNat, WalkReadable s (key / 4) a) :
    ∃ t, walkStep s key va = .ok (t, walk s.mem va 4 0 (s.getCore (key / 4)).root.toNat) ∧ t.mem = s.mem ∧
      (t.getCore (key / 4)).walk = (s.getCore (key / 4)).walk + 1 := by
  have hcount : (countWalk s (key / 4)).getCore (key / 4) = { s.getCore (key / 4) with walk := (s.getCore (key / 4)).walk + 1 } :=
    State.getCore_setCore_same _ _ _
  have hread : ∀ a ∈ walkReads s.mem va 4 0 (s.getCore (key / 4)).root.toNat, WalkReadable (countWalk s (key / 4)) (key / 4) a := fun a ha =>
    walkReadable_congr (s := s) rfl rfl (fun _ => rfl) (by rw [hcount]) (fun _ _ hx => .inl (by rwa [hcount] at hx)) (h a ha)
  obtain ⟨t, hwalk, hmem, hcounted, -⟩ := walkBy_readable (s := countWalk s (key / 4)) 4 0 (s.getCore (key / 4)).root.toNat rfl hread
  refine ⟨t, ?_, hmem, hcounted.trans (by rw [hcount])⟩
  unfold walkStep
  rw [if_pos hneeds]
  exact hwalk

end Sys2Proof.Machine
end

section
/-! PROOFS. Translation: the near window, the walk's levels, and what a leaf lets in (R115 to R120, R123). -/
namespace Sys2Proof.Machine

/-- R116, R123: the bounds of a physical address that a translation gives. -/
def inBounds (s : State) (k g pa : Nat) (f : Option TlbEntry) (near : Bool) : Except (Nat × Nat) Xlat :=
  if 3 ≤ paReg pa || (!near && !listed s (k / 4096) (paPkg pa)) || (paReg pa = 0 && Config.deviceBytes ≤ paOff pa) ||
      (paReg pa = 2 && !(s.getGang g).sup) then .error (0x16, 0)
  else if paReg pa = 1 && (4096 ≤ paOff pa / 2 ^ 18 || padSize s (coreKeyOf (paPkg pa) (paOff pa / 2 ^ 18)) ≤ paOff pa % 2 ^ 18) then .error (0x15, 0)
  else .ok ⟨pa, f⟩

/-- R119: the translation that is cached, or the walk's. -/
def cachedOr (s : State) (k g va : Nat) (miss : Except Nat (Nat × Nat)) : Except Nat (Nat × Nat × Bool) :=
  match tlbHit (s.getCore k) (s.getGang g).asid va with
  | some e => .ok (e.level, e.pte.toNat, false)
  | none => miss.map (fun x => (x.1, x.2, true))

/-- R118, R323: what a leaf permits, and whether it is of supervisor level only. -/
def leafPermits (kind : Kind) (pte : Nat) : Bool :=
  match kind with
  | .read => Bits.bit pte 2
  | .write => Bits.bit pte 3
  | .exec => Bits.bit pte 4

theorem xlateWith_eq (s : State) (k g va : Nat) (kind : Kind) (miss : Except Nat (Nat × Nat)) :
    xlateWith s k g va kind miss = match nearOff va with
      | some b => if kind = .exec then .error (0x0D, 0) else inBounds s k g (mkPa (k / 4096) 1 (k % 4096 * 2 ^ 18 + b)) none true
      | none =>
        if 2 ^ 57 ≤ va then .error (0x14, 0)
        else
          match cachedOr s k g va miss with
          | .error level => .error (0x10, level)
          | .ok (level, pte, walked) =>
            if !leafPermits kind pte || (!(s.getGang g).sup && !Bits.bit pte 5) then
              if kind = .exec then .error (0x0D, 0)
              else .error (0x11, Bits.b2n (kind = .write) + 2 * Bits.b2n (!(s.getGang g).sup && !Bits.bit pte 5))
            else inBounds s k g (Bits.fld pte 59 8 * 256 + va % 2 ^ pageShift level)
              (if walked then some ⟨(s.getGang g).asid, level, va / 2 ^ pageShift level, BitVec.ofNat 64 pte⟩ else none) false := rfl

/-- R123: an address that is in bounds is the one given. -/
theorem inBounds_pa {s : State} {k g pa : Nat} {f : Option TlbEntry} {near : Bool} {y : Xlat} (h : inBounds s k g pa f near = .ok y) : y.pa = pa := by
  unfold inBounds at h
  split at h
  · cases h
  · split at h
    · cases h
    · cases h
      rfl

/-- R117: an address in the near window. -/
theorem nearOff_eq_some {va b : Nat} (h : nearOff va = some b) : va = nearBase + b ∧ b < 0x40000 := by
  unfold nearOff at h
  split at h
  · next hin =>
    simp only [Bool.and_eq_true, decide_eq_true_eq] at hin
    have hb := Option.some.inj h
    omega
  · cases h

section
variable (s : State) {b : Nat} (hb : b < 0x40000)
include hb

/-- R115, R116: where an address of the own scratchpad points. -/
theorem paReg_padAt : paReg (s.padAt b) = 1 := by
  unfold State.padAt mkPa paReg
  omega

theorem paOff_padAt : paOff (s.padAt b) = s.coreKey % 4096 * 2 ^ 18 + b := by
  unfold State.padAt mkPa paOff
  omega

theorem paPkg_padAt (hpkg : s.pkg < 4096) : paPkg (s.padAt b) = s.pkg := by
  unfold State.padAt mkPa paPkg
  omega

theorem padCore_padAt (hpkg : s.pkg < 4096) : padCore (s.padAt b) = s.coreKey := by
  have hcore : (s.coreKey % 4096 * 2 ^ 18 + b) / 2 ^ 18 = s.coreKey % 4096 := by omega
  rw [padCore, paPkg_padAt s hb hpkg, paOff_padAt s hb, hcore]
  unfold coreKeyOf State.pkg
  omega

/-- R116, R120: an address of the own scratchpad is in bounds up to the split. -/
theorem inBounds_padAt (hpkg : s.pkg < 4096) (g : Nat) :
    inBounds s s.coreKey g (s.padAt b) none true = if b < padSize s s.coreKey then .ok ⟨s.padAt b, none⟩ else .error (0x15, 0) := by
  have hreg := paReg_padAt s hb
  have hcore : paOff (s.padAt b) / 2 ^ 18 = s.coreKey % 4096 := by rw [paOff_padAt s hb]; omega
  have hoff : paOff (s.padAt b) % 2 ^ 18 = b := by rw [paOff_padAt s hb]; omega
  have hkey : coreKeyOf (paPkg (s.padAt b)) (s.coreKey % 4096) = s.coreKey := by rw [← hcore]; exact padCore_padAt s hb hpkg
  have hlow : ¬ 4096 ≤ s.coreKey % 4096 := by omega
  unfold inBounds
  rw [if_neg (by simp [hreg]), hcore, hoff, hkey]
  by_cases hin : b < padSize s s.coreKey
  · rw [if_pos hin, if_neg (by simp [hreg, hlow, hin])]
  · rw [if_neg hin, if_pos (by simpa [hreg, hlow] using hin)]

end

/-- R119: an address in no need of the walker. -/
theorem walkStep_unneeded {s : State} {key va : Nat} (h : needsWalk s (key / 4) (s.getCore (key / 4)).gang va = false) :
    walkStep s key va = .ok (s, .error 0) := by
  unfold walkStep
  exact if_neg (by rw [h]; decide)

section
variable {s : State} (hpkg : s.pkg < 4096) {ea : Word} {b : Nat} (hnear : nearOff ea.toNat = some b) {align : Nat} (halign : ea.toNat % align = 0)
include hpkg hnear halign

/-- R117, R120, R123: an aligned address of the near window passes its checks up to the split, without a walk. -/
theorem checkEA_near {kind : Kind} (hkind : kind ≠ .exec) :
    checkEA s ea align kind = if b < padSize s s.coreKey then .ok (s, s.padAt b) else .error (.after s ⟨0x15, ea, 0, none⟩) := by
  obtain ⟨-, hb⟩ := nearOff_eq_some hnear
  have hneeds : needsWalk s (s.cur / 4) (s.getCore (s.cur / 4)).gang ea.toNat = false := by simp [needsWalk, hnear]
  have hwalk : walkStep s s.cur ea.toNat = .ok (s, .error 0) := walkStep_unneeded hneeds
  have hxlate : xlateWith s s.coreKey s.gangId ea.toNat kind (.error 0) =
      if b < padSize s s.coreKey then .ok ⟨s.padAt b, none⟩ else .error (0x15, 0) := by
    rw [xlateWith_eq, hnear]
    dsimp only
    rw [if_neg hkind]
    exact inBounds_padAt s hb hpkg s.gangId
  unfold checkEA
  rw [if_neg (by simp [hnear]), if_neg (by simpa using halign), hwalk]
  dsimp only
  rw [hxlate]
  by_cases hin : b < padSize s s.coreKey
  · rw [if_pos hin, if_pos hin]
    rfl
  · rw [if_neg hin, if_neg hin]
    rfl

theorem checkMode_near (i : Instr) (m : Mode) :
    checkMode s i ea align m = if b < padSize s s.coreKey then .ok (s, s.padAt b) else .error (.after s ⟨0x15, ea, 0, none⟩) := by
  have hread := checkEA_near hpkg hnear halign (kind := .read) (by decide)
  have hwrite := checkEA_near hpkg hnear halign (kind := .write) (by decide)
  unfold checkMode
  rw [if_neg (by simp [hnear])]
  cases m with
  | read => exact hread
  | write => exact hwrite
  | rmw =>
    dsimp only
    rw [hwrite]
    by_cases hin : b < padSize s s.coreKey
    · rw [if_pos hin] at hread ⊢
      exact hread
    · rw [if_neg hin]

end

/-- R358, R357: the scratchpad has no EINJ and no poison. -/
theorem homeRead_of_paReg {pa : Nat} (h : paReg pa ≠ 0) (s : State) (who : Reader) : homeRead s who pa = s := by
  unfold homeRead
  dsimp only
  rw [decide_eq_false h]
  rfl

theorem poisoned_of_paReg {pa : Nat} (h : paReg pa ≠ 0) (s : State) : poisoned s pa = false := by
  unfold poisoned
  rw [decide_eq_false h]
  rfl

/-- R122: a core reaches its own scratchpad without its port. -/
theorem targetAllows_own {s : State} {pa k : Nat} (hreg : paReg pa = 1) (hcore : padCore pa = k) (g asid : Nat) (rd wr : Bool) :
    targetAllows s k g asid pa rd wr = true := by
  unfold targetAllows
  rw [hreg]
  simp [hcore]

/-- R348: no kept store covers the bytes. -/
theorem coveredByKept_false {g : Gang} {pa n : Nat} (h : ∀ k ∈ g.kept, overlaps pa n k.pa k.bytes.length = false) : coveredByKept g pa n = false := by
  simpa [coveredByKept] using h

/-- R123: an access of the own scratchpad is granted where it is. -/
theorem grant_near {s : State} (hpkg : s.pkg < 4096) {ea : Word} {b : Nat} (hnear : nearOff ea.toNat = some b) {align n : Nat}
    (halign : ea.toNat % align = 0) (hsize : b < padSize s s.coreKey) (hkept : coveredByKept s.gang (s.padAt b) n = false)
    (hboard : overlapping s.core (s.padAt b) n = none) (i : Instr) (m : Mode) (word : Bool) :
    grant s i ea align n m word = .ok ⟨s, s.padAt b, false⟩ := by
  obtain ⟨-, hb⟩ := nearOff_eq_some hnear
  have hreg := paReg_padAt s hb
  have hcheck := checkMode_near hpkg hnear halign i m
  rw [if_pos hsize] at hcheck
  have hown := targetAllows_own (s := s) hreg (padCore_padAt s hb hpkg) s.gangId s.gang.asid (m ≠ .write) (m ≠ .read)
  have hhome : homeRead s .ctx (s.padAt b) = s := homeRead_of_paReg (by omega) s .ctx
  have hpois : poisoned s (s.padAt b) = false := poisoned_of_paReg (by omega) s
  unfold grant grantAs
  rw [hcheck]
  simp only [hreg, hkept, hboard, hown, hhome, hpois, ite_self]
  simp

theorem grant_near_outside {s : State} (hpkg : s.pkg < 4096) {ea : Word} {b : Nat} (hnear : nearOff ea.toNat = some b) {align : Nat}
    (halign : ea.toNat % align = 0) (hsize : padSize s s.coreKey ≤ b) (n : Nat) (i : Instr) (m : Mode) (word : Bool) :
    grant s i ea align n m word = .error (.after s ⟨0x15, ea, 0, none⟩) := by
  have hcheck := checkMode_near hpkg hnear halign i m
  rw [if_neg (by omega)] at hcheck
  unfold grant grantAs
  rw [hcheck]

/-- R324: control space takes 8-byte LD and ST only. -/
theorem grant_control {s u : State} {i : Instr} {ea : Word} {align pa : Nat} {m : Mode} (hcheck : checkMode s i ea align m = .ok (u, pa))
    (hreg : paReg pa = 2) (n : Nat) : grant s i ea align n m false = .error (.after u ⟨0x1A, ea, 0, none⟩) := by
  unfold grant grantAs
  rw [hcheck]
  dsimp only
  rw [if_pos (by simp [hreg])]
  rfl

/-! ### Own-scratchpad loads -/

/-- R120, R151: no lease copy serves a load of the own scratchpad. -/
theorem usableCopy_own {s : State} {key pa : Nat} (hreg : paReg pa = 1) (hcore : padCore pa = key / 4) : usableCopy s key pa = none := by
  have huncopied : uncopied s (key / 4) pa = true := by simp [uncopied, hreg, hcore]
  unfold usableCopy
  rw [huncopied]
  split <;> rfl

/-- R151: a load at the home moves only the timestamp of its context. -/
theorem homeLoad_ctx_s (s : State) (pa : Nat) : (homeLoad s s.cur pa).ctx.s = s.ctx.s := by
  have hcur : (homeLoad s s.cur pa).cur = s.cur := (homeLoad_sameTurn s s.cur pa).1
  rw [State.ctx, hcur]
  unfold homeLoad
  extract_lets k l r c t
  have ht : t.getCtx s.cur = { r.1.getCtx s.cur with pts := r.2 } := State.getCtx_setCtx_same _ _ _
  have hs : (t.getCtx s.cur).s = s.ctx.s := by rw [ht]; rfl
  split
  · exact hs
  · exact hs

/-- R94, R151: a load of the own scratchpad is made at the home, at once. -/
theorem loadBytes_own {s : State} {pa : Nat} (hreg : paReg pa = 1) (hcore : padCore pa = s.coreKey) (n : Nat) :
    loadBytes s pa n = (homeLoad s s.cur pa, s.mem.bytes pa n, false) := by
  have hvalue : valueAt s pa n = s.mem.bytes pa n := if_neg (by omega)
  have hoff : offCore s pa = false := by simp [offCore, hreg, hcore]
  unfold loadBytes loadStep loadFor
  rw [usableCopy_own hreg hcore]
  dsimp only
  rw [hvalue, hoff]
  rfl

end Sys2Proof.Machine
end

section
/-! PROOFS. The levels of a walk and the permissions of its leaf (R118, R119, R123). -/
namespace Sys2Proof.Machine

theorem bit_eq_testBit (x i : Nat) : Bits.bit x i = x.testBit i := by
  rw [Bits.bit, Nat.testBit_eq_decide_div_mod_eq, Nat.shiftRight_eq_div_pow]
  rfl

/-- A field of a word as its bits. -/
theorem fld_toNat {w : Nat} (x : BitVec w) (hi lo : Nat) : Bits.fld x.toNat hi lo = (x.extractLsb' lo (hi + 1 - lo)).toNat := by
  rw [Bits.fld, BitVec.extractLsb'_toNat]

/-- R118: the index of a level. -/
theorem levelIndex_eq (va : Nat) {level : Nat} (h : level < 4) :
    levelIndex va level = [va / 2 ^ 39 % 2 ^ 18, va / 2 ^ 30 % 512, va / 2 ^ 21 % 512, va / 2 ^ 16 % 32].getD level 0 := by
  have hfld (hi lo : Nat) : Bits.fld va hi lo = va / 2 ^ lo % 2 ^ (hi + 1 - lo) := by rw [Bits.fld, Nat.shiftRight_eq_div_pow]
  match level, h with
  | 0, _ => exact hfld 56 39
  | 1, _ => exact hfld 38 30
  | 2, _ => exact hfld 29 21
  | 3, _ => exact hfld 20 16

/-- R118: the page of a leaf at a level below 0. -/
theorem pageShift_eq {level : Nat} (h : level < 4) (h0 : level ≠ 0) : 2 ^ pageShift level = [1, 2 ^ 30, 2 ^ 21, 2 ^ 16].getD level 1 := by
  match level, h with
  | 0, _ => contradiction
  | 1, _ => rfl
  | 2, _ => rfl
  | 3, _ => rfl

/-- R118: an entry that is not valid or has a reserved bit set. -/
def badEntry (e : BitVec 64) : Prop := e.getLsbD 0 = false ∨ e.extractLsb' 60 4 ≠ 0 ∨ e.extractLsb' 6 2 ≠ 0

/-- R118: the address in an entry. -/
def pteTarget (e : BitVec 64) : Nat := (e.extractLsb' 8 52).toNat * 256

/-- R118: what an entry names, by its bits. -/
theorem tableEntry_toNat (level : Nat) (e : BitVec 64) : tableEntry level e.toNat =
    if !e.getLsbD 0 || e.extractLsb' 60 4 ≠ 0 || e.extractLsb' 6 2 ≠ 0 then none
    else if e.getLsbD 1 then if level = 0 || pteTarget e % 2 ^ pageShift level ≠ 0 then none else some none
    else if level = 3 || pteTarget e % (if level = 2 then 256 else 4096) ≠ 0 then none else some (some (pteTarget e)) := by
  have hbit (i : Nat) : Bits.bit e.toNat i = e.getLsbD i := by rw [bit_eq_testBit, BitVec.testBit_toNat]
  have hzero {n : Nat} (x : BitVec n) : x.toNat ≠ 0 ↔ x ≠ 0 := by
    rw [ne_eq, ne_eq, ← BitVec.toNat_inj]
    simp
  have hfld : Bits.fld e.toNat 59 8 * 256 = pteTarget e := congrArg (· * 256) (fld_toNat e 59 8)
  have hhigh : Bits.fld e.toNat 63 60 = (e.extractLsb' 60 4).toNat := fld_toNat e 63 60
  have hlow : Bits.fld e.toNat 7 6 = (e.extractLsb' 6 2).toNat := fld_toNat e 7 6
  unfold tableEntry
  simp only [hbit, hfld, hhigh, hlow, hzero]

section
variable {level : Nat} {e : BitVec 64}

theorem tableEntry_bad (h : badEntry e) : tableEntry level e.toNat = none := by
  rw [tableEntry_toNat, if_pos (by simpa [badEntry, or_assoc] using h)]

theorem tableEntry_leaf (h : ¬ badEntry e) (hleaf : e.getLsbD 1 = true) :
    tableEntry level e.toNat = if level = 0 ∨ pteTarget e % 2 ^ pageShift level ≠ 0 then none else some none := by
  rw [tableEntry_toNat, if_neg (by simpa [badEntry, and_assoc] using h), if_pos hleaf]
  simp only [Bool.or_eq_true, decide_eq_true_eq]

theorem tableEntry_table (h : ¬ badEntry e) (htable : e.getLsbD 1 = false) :
    tableEntry level e.toNat = if level = 3 ∨ pteTarget e % (if level = 2 then 256 else 4096) ≠ 0 then none else some (some (pteTarget e)) := by
  rw [tableEntry_toNat, if_neg (by simpa [badEntry, and_assoc] using h), if_neg (by rw [htable]; decide)]
  simp only [Bool.or_eq_true, decide_eq_true_eq]

end

/-- R118: one level of the walk. -/
theorem walk_succ (m : Memory) (va fuel level base : Nat) {e : BitVec 64} (he : m.readLE (base + 8 * levelIndex va level) 8 = e.toNat) :
    walk m va (fuel + 1) level base = match tableEntry level e.toNat with
      | none => .error level
      | some (some next) => walk m va fuel (level + 1) next
      | some none => .ok (level, e.toNat) := by
  rw [walk, he] <;> rfl

section
variable {s : State} {k g va : Nat} {kind : Kind} (hnear : nearOff va = none) (hva : va < 2 ^ 57)
include hnear hva

/-- R118, R123: a walk that failed. -/
theorem xlateWith_failed {miss : Except Nat (Nat × Nat)} {level : Nat} (h : cachedOr s k g va miss = .error level) :
    xlateWith s k g va kind miss = .error (0x10, level) := by
  rw [xlateWith_eq, hnear]
  dsimp only
  rw [if_neg (by omega), h]

section
variable {miss : Except Nat (Nat × Nat)} {level pte : Nat} {walked : Bool} (hfound : cachedOr s k g va miss = .ok (level, pte, walked))
include hfound

/-- R123: a leaf without the permission, or of supervisor level only. -/
theorem xlateWith_denied (h : leafPermits kind pte = false ∨ (!(s.getGang g).sup && !pte.testBit 5) = true) :
    xlateWith s k g va kind miss = .error (if kind = .exec then (0x0D, 0) else
      (0x11, (if kind = .write then 1 else 0) + (if !(s.getGang g).sup && !pte.testBit 5 then 2 else 0))) := by
  have hcause : Bits.b2n (kind = .write) + 2 * Bits.b2n (!(s.getGang g).sup && !pte.testBit 5) =
      (if kind = .write then 1 else 0) + (if !(s.getGang g).sup && !pte.testBit 5 then 2 else 0) := by
    cases kind <;> cases (!(s.getGang g).sup && !pte.testBit 5) <;> rfl
  rw [xlateWith_eq, hnear]
  dsimp only
  rw [if_neg (by omega), hfound]
  dsimp only
  rw [bit_eq_testBit, if_pos (by simpa using h), hcause]
  split <;> rfl

/-- R118: the address of a leaf that lets the access in. -/
theorem xlateWith_pa {y : Xlat} (hperm : leafPermits kind pte = true) (hlow : (!(s.getGang g).sup && !pte.testBit 5) = false)
    (hy : xlateWith s k g va kind miss = .ok y) : y.pa = Bits.fld pte 59 8 * 256 + va % 2 ^ pageShift level := by
  rw [xlateWith_eq, hnear] at hy
  dsimp only at hy
  rw [if_neg (by omega), hfound] at hy
  dsimp only at hy
  rw [bit_eq_testBit, if_neg (by simp [hperm, hlow])] at hy
  exact inBounds_pa hy

end

end

/-- R116, R325: what a system map lists stands in control space. -/
theorem listed_congr {s t : State} (h : t.ctrl = s.ctrl) (own p : Nat) : listed t own p = listed s own p := by
  unfold listed sysMap
  simp only [ctrlRaw_congr h]

theorem inBounds_congr {s t : State} (hctrl : t.ctrl = s.ctrl) (hcores : t.cores = s.cores) (hgangs : t.gangs = s.gangs) (k g pa : Nat)
    (f : Option TlbEntry) (near : Bool) : inBounds t k g pa f near = inBounds s k g pa f near := by
  unfold inBounds padSize State.getCore State.getGang
  rw [listed_congr hctrl, hcores, hgangs]

/-- R119: a cached translation needs no walk, whatever memory holds. -/
theorem xlate_of_hit {s : State} {k g va : Nat} {kind : Kind} {e : TlbEntry} (hnear : nearOff va = none)
    (h : tlbHit (s.getCore k) (s.getGang g).asid va = some e) (m : Memory) : xlate { s with mem := m } k g va kind = xlate s k g va kind := by
  have hcached (s' : State) (hs : tlbHit (s'.getCore k) (s'.getGang g).asid va = some e) (miss : Except Nat (Nat × Nat)) :
      cachedOr s' k g va miss = .ok (e.level, e.pte.toNat, false) := by
    unfold cachedOr
    rw [hs]
  unfold xlate
  rw [xlateWith_eq, xlateWith_eq, hnear]
  dsimp only
  rw [hcached s h, hcached { s with mem := m } h]
  dsimp only
  have hgang : State.getGang { s with mem := m } g = s.getGang g := rfl
  rw [hgang, inBounds_congr (t := { s with mem := m }) (s := s) rfl rfl rfl]

/-- R119: a new translation is cached, and at most 64 are kept. -/
theorem fillTlb_some {s : State} {k : Nat} {x : Xlat} {e : TlbEntry} (hx : x.fill = some e) (hlen : (s.getCore k).tlb.length ≤ 64) :
    e ∈ ((fillTlb s k x).getCore k).tlb ∧ ((fillTlb s k x).getCore k).tlb.length ≤ 64 := by
  have hcore : ((fillTlb s k x).getCore k).tlb =
      (if (s.getCore k).tlb.length < 64 then (s.getCore k).tlb else (s.getCore k).tlb.drop 1) ++ [e] := by
    unfold fillTlb
    rw [hx]
    exact congrArg Core.tlb (State.getCore_setCore_same _ _ _)
  rw [hcore]
  refine ⟨by simp, ?_⟩
  rw [List.length_append, List.length_singleton]
  split
  · omega
  · rw [List.length_drop]
    omega

/-- R117: an address in the near window or below 2^57 is canonical. -/
theorem inReach {va : Nat} (h : (nearOff va).isSome ∨ va < 2 ^ 57) : ¬ ((nearOff va).isNone && decide (2 ^ 57 ≤ va)) = true := by
  rw [Bool.and_eq_true, decide_eq_true_eq]
  rintro ⟨hnone, hhigh⟩
  rcases h with h | h
  · rw [Option.isNone_iff_eq_none.mp hnone] at h
    cases h
  · omega

end Sys2Proof.Machine

open Sys2Proof Sys2Proof.Machine

/-- Settles O20: the checks of an access by the branches of the translation; a walk of readable entries by induction over its levels. -/
theorem accessChecks : Obligations.AccessChecks := by
  unfold Obligations.AccessChecks
  refine ⟨fun s ea align kind hal => ⟨fun hnear hhigh => ?_, fun hreach hmis => ?_, fun hreach halign => ⟨fun e he => ?_, fun s1 found hwalk => ⟨fun c b hr => ?_, fun x hr => ?_⟩⟩⟩,
    fun s key va => ⟨walkStep_unneeded, walkStep_readable⟩, fun m va level base fuel hlevel => ?_,
    fun s k g va kind hnear hva => ⟨fun level hmiss hwalk => ?_, fun level pte hfound => ?_, fun e m hhit => xlate_of_hit hnear hhit m⟩,
    fun s k x e hx hlen => ⟨(fillTlb_some hx hlen).1, (fillTlb_some hx hlen).2, fillTlb_mem _ _ _⟩,
    fun s s1 i ea align n pa m hcheck hreg => grant_control hcheck hreg n,
    fun s i ea b align n m word hpkg hnear hal halign => ⟨fun hsize hkept hboard => grant_near hpkg hnear halign hsize (coveredByKept_false hkept) hboard i m word,
      fun hsize => grant_near_outside hpkg hnear halign hsize n i m word⟩,
    fun s pa n hreg hcore => ?_⟩
  · unfold checkEA
    rw [if_pos (by rw [hnear, decide_eq_true hhigh]; rfl)]
  · unfold checkEA
    rw [if_neg (inReach hreach), if_pos (by simpa using hmis)]
  · unfold checkEA
    rw [if_neg (inReach hreach), if_neg (by simpa using halign), he]
  · unfold checkEA
    rw [if_neg (inReach hreach), if_neg (by simpa using halign), hwalk]
    dsimp only
    rw [hr]
    rfl
  · unfold checkEA
    rw [if_neg (inReach hreach), if_neg (by simpa using halign), hwalk]
    dsimp only
    rw [hr]
  · intro at_ e pa bad page
    have he : m.readLE (base + 8 * levelIndex va level) 8 = e.toNat := by
      rw [levelIndex_eq va hlevel, BitVec.toNat_ofNat]
      exact (Nat.mod_eq_of_lt (Memory.readLE_lt m _ 8)).symm
    have hstep := walk_succ m va fuel level base he
    refine ⟨fun hbad => ?_, fun hgood hleaf hplace => ?_, fun hgood hleaf h0 hplace => ?_, fun hgood htable hplace => ?_, fun hgood htable h3 hplace => ?_⟩
    · rw [hstep, tableEntry_bad hbad]
    · have hnone : level = 0 ∨ pteTarget e % 2 ^ pageShift level ≠ 0 := by
        by_cases h0 : level = 0
        · exact .inl h0
        · exact .inr (by rw [pageShift_eq hlevel h0]; exact hplace.resolve_left h0)
      rw [hstep, tableEntry_leaf hgood hleaf, if_pos hnone]
    · have hsome : ¬ (level = 0 ∨ pteTarget e % 2 ^ pageShift level ≠ 0) := by
        rw [pageShift_eq hlevel h0]
        exact fun h => h.elim h0 (fun h => h hplace)
      rw [hstep, tableEntry_leaf hgood hleaf, if_neg hsome]
    · change level = 3 ∨ pteTarget e % (if level = 2 then 256 else 4096) ≠ 0 at hplace
      rw [hstep, tableEntry_table hgood htable, if_pos hplace]
    · rw [hstep, tableEntry_table hgood htable, if_neg (fun h => h.elim h3 (fun h => h hplace))]
      rfl
  · have hcached : cachedOr s k g va (walk s.mem va 4 0 (s.getCore k).root.toNat) = .error level := by
      unfold cachedOr
      rw [hmiss, hwalk]
      rfl
    exact xlateWith_failed hnear hva hcached
  · obtain ⟨walked, hcached⟩ : ∃ walked, cachedOr s k g va (walk s.mem va 4 0 (s.getCore k).root.toNat) = .ok (level, pte, walked) := by
      unfold cachedOr
      rcases hfound with ⟨hmiss, hwalk⟩ | ⟨e, hhit, rfl, rfl⟩
      · rw [hmiss, hwalk]
        exact ⟨true, rfl⟩
      · rw [hhit]
        exact ⟨false, rfl⟩
    have hperm : leafPermits kind pte = pte.testBit (match kind with | .read => 2 | .write => 3 | .exec => 4) := by
      cases kind <;> exact bit_eq_testBit _ _
    refine ⟨fun h => xlateWith_denied hnear hva hcached (by rw [hperm]; exact h), fun hneeds hlow y hy => ?_⟩
    have hpa := xlateWith_pa hnear hva hcached (hperm.trans hneeds) hlow hy
    rw [hpa, Bits.fld, Nat.shiftRight_eq_div_pow]
  · rw [loadBytes_own hreg hcore]
    exact ⟨rfl, rfl, homeLoad_mem _ _ _, (homeLoad_sameTurn s s.cur pa).inPhase, fun r => by rw [homeLoad_ctx_s]⟩
end

section
/-! PROOFS. What a store at the home keeps besides memory (R152, R347). -/
namespace Sys2Proof.Machine

/-- R152, R347: a store changes no queue, no shadow address and no core's gang. -/
structure StoreKeeps (s t : State) : Prop where
  cur : t.cur = s.cur
  gangOf : ∀ k, (t.getCore k).gang = (s.getCore k).gang
  shadow : ∀ g, (t.getGang g).shadow = (s.getGang g).shadow
  queues : ∀ g, (t.getGang g).queues = (s.getGang g).queues

theorem StoreKeeps.trans {s t u : State} (h : StoreKeeps s t) (h' : StoreKeeps t u) : StoreKeeps s u :=
  ⟨h'.cur.trans h.cur, fun k => (h'.gangOf k).trans (h.gangOf k), fun g => (h'.shadow g).trans (h.shadow g),
    fun g => (h'.queues g).trans (h.queues g)⟩

/-- What stays where the contexts' number, the cores and the gangs stay. -/
theorem storeKeeps_of_eq {s t : State} (hcur : t.cur = s.cur) (hcores : t.cores = s.cores) (hgangs : t.gangs = s.gangs) : StoreKeeps s t :=
  ⟨hcur, fun k => by rw [State.getCore, hcores, State.getCore], fun g => by rw [State.getGang, hgangs, State.getGang],
    fun g => by rw [State.getGang, hgangs, State.getGang]⟩

theorem storeKeeps_setCore {s : State} {k : Nat} {c : Core} (h : c.gang = (s.getCore k).gang) : StoreKeeps s (s.setCore k c) := by
  refine ⟨rfl, fun j => ?_, fun _ => rfl, fun _ => rfl⟩
  by_cases hj : j = k
  · rw [hj, State.getCore_setCore_same, h]
  · rw [State.getCore_setCore_ne _ _ _ _ hj]

/-- What stays where one gang's shadow address and queues stay. -/
theorem storeKeeps_of_gang {s t : State} {g : Nat} {x : Gang} (hcur : t.cur = s.cur) (hcores : t.cores = s.cores)
    (hgangs : t.gangs = mset g x s.gangs) (hshadow : x.shadow = (s.getGang g).shadow) (hqueues : x.queues = (s.getGang g).queues) :
    StoreKeeps s t := by
  have hsame : t.getGang g = x := by rw [State.getGang, hgangs, mget_mset_same]
  have hne (j : Nat) (hj : j ≠ g) : t.getGang j = s.getGang j := by rw [State.getGang, hgangs, mget_mset_ne _ _ _ _ _ hj, State.getGang]
  refine ⟨hcur, fun k => by rw [State.getCore, hcores, State.getCore], fun j => ?_, fun j => ?_⟩ <;> by_cases hj : j = g
  · rw [hj, hsame, hshadow]
  · rw [hne j hj]
  · rw [hj, hsame, hqueues]
  · rw [hne j hj]

/-- R347: a gang's log is not its queues. -/
theorem logLine_storeKeeps (s : State) (g l : Nat) : StoreKeeps s (logLine s g l) := by
  unfold logLine
  extract_lets gang log
  split
  · exact storeKeeps_of_eq rfl rfl rfl
  · split
    · split
      · exact storeKeeps_of_gang (g := g) (x := { gang with unprot := true }) rfl rfl rfl rfl rfl
      · exact storeKeeps_of_gang (g := g) (x := { gang with log := log }) rfl rfl rfl rfl rfl
    · exact storeKeeps_of_gang (g := g) (x := { gang with log := log }) rfl rfl rfl rfl rfl

/-- R192: reports go to waiting contexts. -/
theorem reportWrite_storeKeeps (s : State) (old : Memory) (pa n : Nat) : StoreKeeps s (reportWrite s old pa n) := by
  obtain ⟨m, l, r, h⟩ := reportWrite_homes s old pa n
  rw [h]
  exact storeKeeps_of_eq rfl rfl rfl

theorem putBytes_storeKeeps (s : State) (g pa : Nat) (bs : List Byte) : StoreKeeps s (putBytes s g pa bs) := by
  unfold putBytes
  extract_lets l t m u c v
  have hu : StoreKeeps s u := by
    simp only [u]
    split
    · exact (logLine_storeKeeps s g l).trans (storeKeeps_of_eq rfl rfl rfl)
    · exact logLine_storeKeeps s g l
  have hv : StoreKeeps u v := by
    simp only [v]
    split
    · exact storeKeeps_setCore rfl
    · exact storeKeeps_of_eq rfl rfl rfl
  have hmem : StoreKeeps v { v with mem := v.mem.writeBytes pa bs } := storeKeeps_of_eq rfl rfl rfl
  exact ((hu.trans hv).trans hmem).trans (reportWrite_storeKeeps _ _ _ _)

theorem homeStep_storeKeeps (s : State) (pa : Nat) (bs : List Byte) : StoreKeeps s (homeStep s pa bs) := by
  have htimes : StoreKeeps s ((storeHome s (pa / 64) s.ctx.pts).1.upd (fun c => { c with pts := (storeHome s (pa / 64) s.ctx.pts).2 })) :=
    storeKeeps_of_eq rfl rfl rfl
  exact htimes.trans (putBytes_storeKeeps _ s.gangId pa bs)

namespace StoreKeeps

variable {s t : State} (h : StoreKeeps s t)
include h

theorem gangId_eq : t.gangId = s.gangId := by
  rw [State.gangId, State.core, State.coreKey, h.cur]
  exact h.gangOf _

theorem gang_shadow : t.gang.shadow = s.gang.shadow := by
  rw [State.gang, h.gangId_eq]
  exact h.shadow _

theorem getQueue_eq (g q : Nat) : getQueue t g q = getQueue s g q := by rw [getQueue, h.queues, getQueue]

end StoreKeeps

/-- R347: the acting gang's log keeps no entry in memory. -/
def Unlogged (s : State) : Prop := s.gangId = 0 ∨ s.gang.shadow = 0

theorem Unlogged.of_keeps {s t : State} (h : StoreKeeps s t) (hs : Unlogged s) : Unlogged t := by
  unfold Unlogged
  rw [h.gangId_eq, h.gang_shadow]
  exact hs

/-- R148, R347: bytes put where no line is logged in memory change themselves only. -/
theorem putBytes_mem {s : State} {g : Nat} (h : g = 0 ∨ (s.getGang g).shadow = 0) (pa : Nat) (bs : List Byte) :
    (putBytes s g pa bs).mem = s.mem.writeBytes pa bs := by
  unfold putBytes
  dsimp only
  rw [reportWrite_mem]
  have hlog := congrArg (Memory.writeBytes · pa bs) (logLine_mem h (pa / 64))
  split <;> split <;> exact hlog

/-- R152: a store whose line is not logged in memory changes its own bytes only. -/
theorem homeStep_mem {s : State} (h : Unlogged s) (pa : Nat) (bs : List Byte) : (homeStep s pa bs).mem = s.mem.writeBytes pa bs :=
  putBytes_mem (s := (storeHome s (pa / 64) s.ctx.pts).1.upd (fun c => { c with pts := (storeHome s (pa / 64) s.ctx.pts).2 })) h pa bs

end Sys2Proof.Machine
end

section
/-! PROOFS. A decrement of a packet in the own scratchpad (R189). -/
namespace Sys2Proof.Machine

/-- R189: the state after the counter c of the packet at pa has gone to c − 1 and its CRC field with it (log 28). -/
def countedDown (s : State) (pa head c : Nat) : State :=
  homeStep (homeStep s (pa + 24) (Bits.bytesLE 4 (c - 1))) (pa + 4) (Bits.bytesLE 4 (crcAfter (head % 256) (Bits.fld head 63 32) c))

theorem countedDown_storeKeeps (s : State) (pa head c : Nat) : StoreKeeps s (countedDown s pa head c) :=
  (homeStep_storeKeeps s _ _).trans (homeStep_storeKeeps _ _ _)

theorem countedDown_mem {s : State} (h : Unlogged s) (pa head c : Nat) : (countedDown s pa head c).mem =
    (s.mem.writeLE (pa + 24) 4 (c - 1)).writeLE (pa + 4) 4 (crcAfter (head % 256) (Bits.fld head 63 32) c) := by
  rw [countedDown, homeStep_mem (h.of_keeps (homeStep_storeKeeps s _ _)), homeStep_mem h]
  rfl

theorem Memory.read_writeLE_out (m : Memory) (a n x c : Nat) (h : c < a ∨ a + n ≤ c) : (m.writeLE a n x).read c = m.read c :=
  Memory.read_writeBytes_out m a c _ (by rwa [Bits.length_bytesLE])

theorem Memory.readLE_writeLE_out (m : Memory) (a n x b k : Nat) (h : b + k ≤ a ∨ a + n ≤ b) : (m.writeLE a n x).readLE b k = m.readLE b k :=
  congrArg Bits.ofBytesLE (Memory.bytes_congr fun c _ _ => Memory.read_writeLE_out m a n x c (by omega))

section
variable {s : State} (hlog : Unlogged s) (pa head : Nat)
include hlog

/-- R189: the counter, the CRC field, and every other byte. -/
theorem countedDown_counter (hwf : s.mem.wf = true) {c : Nat} (hc : c < 256 ^ 4) : (countedDown s pa head c).mem.readLE (pa + 24) 4 = c - 1 := by
  rw [countedDown_mem hlog, Memory.readLE_writeLE_out _ _ _ _ _ _ (by omega), Memory.readLE_writeLE hwf, Nat.mod_eq_of_lt (by omega)]

theorem countedDown_crc (hwf : s.mem.wf = true) (c : Nat) :
    (countedDown s pa head c).mem.readLE (pa + 4) 4 = crcAfter (head % 256) (Bits.fld head 63 32) c % 256 ^ 4 := by
  rw [countedDown_mem hlog, Memory.readLE_writeLE (Memory.wf_writeLE hwf _ _ _)]

theorem countedDown_read (c : Nat) {a : Nat} (h1 : a < pa + 4 ∨ pa + 8 ≤ a) (h2 : a < pa + 24 ∨ pa + 28 ≤ a) :
    (countedDown s pa head c).mem.read a = s.mem.read a := by
  rw [countedDown_mem hlog, Memory.read_writeLE_out _ _ _ _ _ h1, Memory.read_writeLE_out _ _ _ _ _ h2]

end

/-- R189: what a decrement of the packet at pa answers once its access has passed. -/
def decrementAt (s : State) (h : Word) (i pa : Nat) : Dec :=
  let c := s.mem.readLE (pa + 24) 4
  let head := s.mem.readLE pa 16
  let q := handleQueue s head
  if queueFull s s.gangId q.1 then .waits (s.upd (fun x => { x with wait := some .slot }))
  else if c = 0 then .cause s ⟨0x46, h, BitVec.ofNat 64 i, none⟩
  else
    let t := countedDown s pa head c
    .made (if c = 1 then enqueue t t.gangId q.1 q.2 ⟨h, none, t.now, t.ctx.pts⟩ else t) (BitVec.ofNat 64 (c - 1)) false

section
variable {s : State} {pa : Nat} (h : Word) (i : Nat)

theorem decrementAt_full (hfull : queueFull s s.gangId (handleQueue s (s.mem.readLE pa 16)).1 = true) :
    decrementAt s h i pa = .waits (s.upd (fun x => { x with wait := some .slot })) := if_pos hfull

section
variable (hfree : queueFull s s.gangId (handleQueue s (s.mem.readLE pa 16)).1 = false)
include hfree

theorem decrementAt_zero (hc : s.mem.readLE (pa + 24) 4 = 0) : decrementAt s h i pa = .cause s ⟨0x46, h, BitVec.ofNat 64 i, none⟩ := by
  unfold decrementAt
  dsimp only
  rw [hfree, if_neg Bool.false_ne_true, if_pos hc]

theorem decrementAt_made (hc : 1 < s.mem.readLE (pa + 24) 4) : decrementAt s h i pa =
    .made (countedDown s pa (s.mem.readLE pa 16) (s.mem.readLE (pa + 24) 4)) (BitVec.ofNat 64 (s.mem.readLE (pa + 24) 4 - 1)) false := by
  unfold decrementAt
  dsimp only
  rw [hfree, if_neg Bool.false_ne_true, if_neg (by omega), if_neg (by omega)]

/-- R189: the last decrement puts the handle on its queue. -/
theorem decrementAt_last (hc : s.mem.readLE (pa + 24) 4 = 1) : decrementAt s h i pa =
    .made (enqueue (countedDown s pa (s.mem.readLE pa 16) 1) s.gangId (handleQueue s (s.mem.readLE pa 16)).1 (handleQueue s (s.mem.readLE pa 16)).2
      ⟨h, none, (countedDown s pa (s.mem.readLE pa 16) 1).now, (countedDown s pa (s.mem.readLE pa 16) 1).ctx.pts⟩) 0 false := by
  have hgang := (countedDown_storeKeeps s pa (s.mem.readLE pa 16) 1).gangId_eq
  unfold decrementAt
  dsimp only
  rw [hfree, if_neg Bool.false_ne_true, if_neg (by omega), hc, if_pos rfl, hgang]
  rfl

end

end

/-- R178: an entry that is appended stands in the FIFO of its priority. -/
theorem mem_enqueue_mod (s : State) (g q prio : Nat) (e : TqEntry) :
    e ∈ (getQueue (enqueue s g q prio e) g q).toArray.getD (prio % 4) [] := by
  have hprio : enqueue s g q prio e = enqueue s g q (prio % 4) e := by rw [enqueue, enqueue, Nat.mod_mod]
  rw [hprio]
  exact mem_enqueue s g q (Nat.mod_lt _ (by decide)) e

/-- R177, R189: between two states the counter of the packet at pa has gone down by one and the CRC field with it (log 28), and no other byte
has changed. -/
def Decremented (s t : State) (pa : Nat) : Prop :=
  let c := s.mem.readLE (pa + 24) 4
  let head := s.mem.readLE pa 16
  t.mem.readLE (pa + 24) 4 = c - 1 ∧ t.mem.readLE (pa + 4) 4 = crcAfter (head % 256) (head / 2 ^ 32 % 2 ^ 32) c % 2 ^ 32 ∧
    ∀ a, a < pa + 4 ∨ pa + 8 ≤ a → a < pa + 24 ∨ pa + 28 ≤ a → t.mem.read a = s.mem.read a

theorem decremented_countedDown {s : State} (hlog : Unlogged s) (hwf : s.mem.wf = true) (pa : Nat) :
    Decremented s (countedDown s pa (s.mem.readLE pa 16) (s.mem.readLE (pa + 24) 4)) pa := by
  refine ⟨countedDown_counter hlog pa _ hwf (Memory.readLE_lt _ _ _), ?_, fun a => countedDown_read hlog pa _ _⟩
  rw [countedDown_crc hlog pa _ hwf, Bits.fld, Nat.shiftRight_eq_div_pow]
  rfl

/-- R178, R179, R189: what a decrement leaves, by the counter. -/
theorem decrementAt_leaves {s : State} (hlog : Unlogged s) (hwf : s.mem.wf = true) (h : Word) (i pa : Nat) :
    (queueFull s s.gangId (handleQueue s (s.mem.readLE pa 16)).1 = true →
      ∃ t, decrementAt s h i pa = .waits t ∧ t.ctx.wait = some .slot ∧ t.mem = s.mem) ∧
    (queueFull s s.gangId (handleQueue s (s.mem.readLE pa 16)).1 = false →
      (s.mem.readLE (pa + 24) 4 = 0 → ∃ t, decrementAt s h i pa = .cause t ⟨0x46, h, BitVec.ofNat 64 i, none⟩ ∧ t.mem = s.mem) ∧
      (1 < s.mem.readLE (pa + 24) 4 → ∃ t, decrementAt s h i pa = .made t (BitVec.ofNat 64 (s.mem.readLE (pa + 24) 4 - 1)) false ∧
        Decremented s t pa ∧ ∀ x, getQueue t s.gangId x = getQueue s s.gangId x) ∧
      (s.mem.readLE (pa + 24) 4 = 1 → ∃ t, decrementAt s h i pa = .made t 0 false ∧ Decremented s t pa ∧
        ∃ e, e.handle = h ∧ e ∈ (getQueue t s.gangId (handleQueue s (s.mem.readLE pa 16)).1).toArray.getD
          ((handleQueue s (s.mem.readLE pa 16)).2 % 4) [])) := by
  have hdown := decremented_countedDown hlog hwf pa
  refine ⟨fun hfull => ?_, fun hfree => ⟨fun h0 => ?_, fun h1 => ?_, fun h1 => ?_⟩⟩
  · exact ⟨_, decrementAt_full h i hfull, by rw [State.ctx_upd], rfl⟩
  · exact ⟨s, decrementAt_zero h i hfree h0, rfl⟩
  · exact ⟨_, decrementAt_made h i hfree h1, hdown, fun x => (countedDown_storeKeeps s pa _ _).getQueue_eq _ _⟩
  · rw [h1] at hdown
    exact ⟨_, decrementAt_last h i hfree h1, hdown, _, rfl, mem_enqueue_mod _ _ _ _ _⟩

section
variable {s : State} (hkept : s.gang.kept = []) (hboard : s.core.scoreboard = []) (hpair : s.ctx.pair = none) (hwhole : Whole s)
include hkept hboard hpair hwhole

/-- R122, R158, R189, R348: a packet of the own scratchpad that has passed its checks is decremented. -/
theorem decrement_own {h : Word} {pa jpa : Nat} (hcheck : checkEA s h 16 .write = .ok (s, pa)) (hjoin : joinPa s h pa = .ok (s, jpa))
    (hjpa : jpa = pa + 24) (hreg : paReg pa = 1) (hreg' : paReg jpa = 1) (hcore : padCore pa = s.coreKey) (hcore' : padCore jpa = s.coreKey)
    (i : Nat) : decrement s h i = decrementAt s h i pa := by
  obtain ⟨hsent, hsteps⟩ := hwhole
  have hcov : coveredByKept s.gang pa 32 = false := by simp [coveredByKept, hkept]
  have hover : overlapping s.core jpa 4 = none := by simp [overlapping, hboard]
  have hown := targetAllows_own (s := s) hreg hcore s.gangId s.gang.asid true true
  have hown' := targetAllows_own (s := s) hreg' hcore' s.gangId s.gang.asid true true
  have hhome : homeRead (homeRead s .ctx pa) .ctx jpa = s := by
    rw [homeRead_of_paReg (by omega) s, homeRead_of_paReg (by omega) s]
  have hpois : poisoned s pa = false := poisoned_of_paReg (by omega) s
  have hpois' : poisoned s jpa = false := poisoned_of_paReg (by omega) s
  have hreplay : replaying s = false := by simp [replaying, hpair]
  have hoff (t : State) (ht : t.cur = s.cur) : offCore t pa = false := by
    rw [offCore, State.coreKey, ht, hreg, hcore, State.coreKey]
    simp
  have hdown (c head : Nat) : homeStep (rmwStep s jpa 4 (fun _ => Bits.bytesLE 4 (c - 1))).1 (pa + 4)
      (Bits.bytesLE 4 (crcAfter (head % 256) (Bits.fld head 63 32) c)) = countedDown s pa head c := by rw [hjpa]; rfl
  unfold decrement
  simp only [hcheck, hjoin, bind, Except.bind, pure, Except.pure]
  rw [if_neg (by omega), hcov, if_neg Bool.false_ne_true, hover]
  dsimp only
  rw [hown, hown', hhome, hpois, hpois', if_neg (by decide), if_neg Bool.false_ne_true, if_neg Bool.false_ne_true, hreplay,
    exchangeAt_solo hpair hsent hsteps]
  simp only [Bool.not_false, Bool.and_true, decide_eq_true_eq, hdown]
  rw [hoff, hjpa]
  · rfl
  · split
    · exact (countedDown_storeKeeps s _ _ _).cur
    · exact (countedDown_storeKeeps s _ _ _).cur

/-- R123, R189: a packet of the own scratchpad within one page is decremented where it is. -/
theorem decrement_near {h : Word} {b : Nat} (hnear : nearOff h.toNat = some b) (halign : b % 16 = 0) (hpage : b % 4096 ≠ 4080)
    (hsize : b + 32 ≤ padSize s s.coreKey) (hpkg : s.pkg < 4096) (i : Nat) : decrement s h i = decrementAt s h i (s.padAt b) := by
  obtain ⟨haddr, hb⟩ := nearOff_eq_some hnear
  have haligned : h.toNat % 16 = 0 := by rw [haddr, nearBase]; omega
  have hcheck : checkEA s h 16 .write = .ok (s, s.padAt b) := (checkEA_near hpkg hnear haligned (by decide)).trans (if_pos (by omega))
  have hjoinAt : s.padAt b + 24 = s.padAt (b + 24) := by unfold State.padAt mkPa; omega
  have hpage' : ¬ s.padAt b % 4096 = 4080 := by unfold State.padAt mkPa; omega
  have hjoin : joinPa s h (s.padAt b) = .ok (s, s.padAt (b + 24)) := by
    unfold joinPa
    rw [if_neg hpage', hjoinAt]
  have hb' : b + 24 < 0x40000 := by omega
  exact decrement_own hkept hboard hpair hwhole hcheck hjoin hjoinAt.symm (paReg_padAt s hb) (paReg_padAt s hb') (padCore_padAt s hb hpkg)
    (padCore_padAt s hb' hpkg) i

end

/-! ### The forms that end a task or decrement (R189, R190, R334) -/

section
variable {s : State} {g : Guard} (hr : Runs s g)
include hr

theorem exec_done_idle (h : s.ctx.packet = none) : exec (.done g) s = .next (endContext s s.cur) := by
  show guarded s (.done g) g (match s.ctx.packet with | none => _ | some p => _) = _
  rw [guarded_runs hr, h]
  rfl

theorem exec_done {p : Packet} {s1 s2 : State} (h : s.ctx.packet = some p) (hcheck : checkHandles s p.succ = .ok s1)
    (hloop : doneLoop { s1 with grp := { s1.grp with msg := if p.done = 0 then s1.grp.msg else s1.ctx.sent.length } } (p.succ.drop p.done) p.done = .ok s2) :
    exec (.done g) s = .next (endContext s2 s2.cur) := by
  show execDone g s = _
  unfold execDone
  rw [guarded_runs hr, h]
  simp only [hcheck, bind, Except.bind, hloop]
  rfl

theorem exec_halt : exec (.halt g) s = .next (endContext s s.cur) := guarded_runs hr _ _

section
variable {d : Option (Fin 32)} {m : Mem} {s1 : State}

theorem exec_join_made {n : Word} {remote : Bool} (h : decrement s (s.ea m) 0 = .made s1 n remote) :
    exec (.join g d m) s = .next (match d with | some r => answerS s1 r n 0 remote | none => s1) := by
  show execJoin g d m s = _
  unfold execJoin
  rw [guarded_runs hr, h]
  cases d <;> rfl

theorem exec_join_cause {t : TrapInfo} (h : decrement s (s.ea m) 0 = .cause s1 t) : exec (.join g d m) s = .next (takeTrap s1 t) := by
  show execJoin g d m s = _
  unfold execJoin
  rw [guarded_runs hr, h]
  rfl

end

end

section
variable {s : State} {k : Nat} {c : Fin 4} (hrun : runsOn s k = true) (hwait : (s.getCtx (4 * k + c.val)).wait = some .slot)
include hrun hwait

/-- R179: a DONE or JOIN that waits for a queue slot tries again. -/
theorem exec_queueSlotResume_retry (h : (s.getCtx (4 * k + c.val)).walking = none) :
    exec (.queueSlotResume k c) s = .next (s.setCtx (4 * k + c.val) { s.getCtx (4 * k + c.val) with wait := none }) := by
  show execQueueSlotResume k c s = _
  unfold execQueueSlotResume
  dsimp only
  rw [hrun, hwait, h]
  rfl

/-- R179: a walk of FST whose records are all on their queues ends. -/
theorem exec_queueSlotResume_ended {rest : List Cont} {stamp : Nat} {u : State} (h : (s.getCtx (4 * k + c.val)).walking = some (rest, stamp))
    (hwalk : walkList stamp s rest = (u, [])) : exec (.queueSlotResume k c) s =
      .next (u.setCtx (4 * k + c.val) { u.getCtx (4 * k + c.val) with walking := some ([], stamp), wait := none }) := by
  show execQueueSlotResume k c s = _
  unfold execQueueSlotResume
  dsimp only
  rw [hrun, hwait, h]
  dsimp only
  rw [hwalk]
  rfl

end

end Sys2Proof.Machine

open Sys2Proof Sys2Proof.Machine

/-- Settles O45: a decrement of a packet in the own scratchpad passes its checks in place, and its two stores are disjoint words of the packet. -/
theorem joinCounters : Obligations.JoinCounters := by
  unfold Obligations.JoinCounters
  refine ⟨fun g s hr => ⟨exec_done_idle hr, fun p s1 s2 hp _ hcheck hloop => exec_done hr hp hcheck hloop, exec_halt hr, fun key => ?_⟩,
    fun g d m s hr => ⟨fun s1 n remote h => ?_, fun s1 t h => exec_join_cause hr h⟩,
    fun s h b i hnear halign hpage hsize hpkg hkept hboard hpair hwhole hwf hlog => ?_, fun s k c hrun => ?_⟩
  · rw [endContext_same]
    exact ⟨rfl, rfl, rfl⟩
  · rw [exec_join_made hr h]
    rfl
  · have hdec := decrement_near hkept hboard hpair hwhole hnear halign hpage hsize hpkg i
    rw [hdec]
    exact decrementAt_leaves (hlog.imp_right And.left) hwf h i (s.padAt b)
  · intro key hwait
    exact ⟨exec_queueSlotResume_retry hrun hwait, fun rest stamp u => exec_queueSlotResume_ended hrun hwait⟩
end

section
/-! PROOFS. A load at the home and the discard of its line (R127, R129, R151, R163). -/
namespace Sys2Proof.Machine

/-- R151: what a load at the home keeps: all but timestamps and lease copies. -/
structure LoadKeeps (s t : State) : Prop where
  mem : t.mem = s.mem
  gangs : t.gangs = s.gangs
  cur : t.cur = s.cur
  dirty : ∀ j, (t.getLine j).dirty = (s.getLine j).dirty
  writer : ∀ j, (t.getLine j).writer = (s.getLine j).writer
  core : ∀ k, (t.getCore k).gang = (s.getCore k).gang ∧ (t.getCore k).dchk = (s.getCore k).dchk
  discards : ∀ k, (t.getCtx k).discards = (s.getCtx k).discards

theorem homeLoad_loadKeeps (s : State) (key pa : Nat) : LoadKeeps s (homeLoad s key pa) := by
  unfold homeLoad
  extract_lets k l r c t
  have hline (j : Nat) : (t.getLine j).dirty = (s.getLine j).dirty ∧ (t.getLine j).writer = (s.getLine j).writer := by
    show ((r.1.getLine j).dirty = _) ∧ (r.1.getLine j).writer = _
    by_cases hj : j = l
    · rw [hj, (loadHome_line s l _).2]
      exact ⟨rfl, rfl⟩
    · have hne : r.1.getLine j = s.getLine j := State.getLine_setLine_ne _ _ _ _ hj
      rw [hne]
      exact ⟨rfl, rfl⟩
  have hctx (j : Nat) : (t.getCtx j).discards = (s.getCtx j).discards := by
    by_cases hj : j = key
    · have hkey : t.getCtx key = { r.1.getCtx key with pts := r.2 } := State.getCtx_setCtx_same _ _ _
      rw [hj, hkey]
      rfl
    · exact congrArg Ctx.discards (State.getCtx_setCtx_ne r.1 j key _ hj)
  split
  · exact ⟨rfl, rfl, rfl, fun j => (hline j).1, fun j => (hline j).2, fun _ => ⟨rfl, rfl⟩, hctx⟩
  · refine ⟨rfl, rfl, rfl, fun j => (hline j).1, fun j => (hline j).2, fun j => ?_, hctx⟩
    by_cases hj : j = k
    · rw [hj, State.getCore_setCore_same]
      exact ⟨rfl, rfl⟩
    · rw [State.getCore_setCore_ne _ _ _ _ hj]
      exact ⟨rfl, rfl⟩

namespace LoadKeeps

variable {s t : State} (h : LoadKeeps s t)
include h

theorem gangId_eq : t.gangId = s.gangId := by
  rw [State.gangId, State.core, State.coreKey, h.cur]
  exact (h.core _).1

theorem getGang_eq (g : Nat) : t.getGang g = s.getGang g := by rw [State.getGang, h.gangs, State.getGang]

theorem gang_eq : t.gang = s.gang := by rw [State.gang, h.gangId_eq, h.getGang_eq, State.gang]

theorem offCore_eq (pa : Nat) : offCore t pa = offCore s pa := by rw [offCore, State.coreKey, h.cur, offCore, State.coreKey]

end LoadKeeps

/-- R163: the state after the bytes of a dirty line have gone back to its backing value. -/
def returned (s : State) (l : Nat) : State :=
  match (s.getLine l).dirty with
  | some b =>
    let t := logLine s s.gangId l
    reportWrite { t with mem := t.mem.writeBytes (l * 64) (Bits.bytesLE 64 b.toNat) } t.mem (l * 64) 64
  | none => s

theorem returned_clean {s : State} {l : Nat} (h : (s.getLine l).dirty = none) : returned s l = s := by
  unfold returned
  rw [h]

theorem returned_mem {s : State} {l : Nat} {b : Line} (h : (s.getLine l).dirty = some b) (hlog : Unlogged s) :
    (returned s l).mem = s.mem.writeBytes (l * 64) (Bits.bytesLE 64 b.toNat) := by
  unfold returned
  rw [h]
  exact (reportWrite_mem _ _ _ _).trans (congrArg (Memory.writeBytes · _ _) (logLine_mem hlog l))

theorem returned_ctx (s : State) (l : Nat) : (returned s l).ctx = s.ctx := by
  unfold returned
  split
  · next b _ =>
    extract_lets t
    obtain ⟨m, ls, r, h⟩ := reportWrite_homes { t with mem := t.mem.writeBytes (l * 64) (Bits.bytesLE 64 b.toNat) } t.mem (l * 64) 64
    have ht : t.ctx = s.ctx := by rw [State.ctx, State.getCtx, logLine_cur, (logLine_lines_ctxs s _ l).2]; rfl
    rw [h]
    exact ht
  · rfl

section
variable {s : State} {pa : Nat} (hoff : offCore s pa = true)
include hoff

/-- R163: in discard-check mode a dirty line is written back and counted. -/
theorem discardLine_checked (hmode : s.gang.dchk = true) (hdirty : (s.getLine (pa / 64)).dirty ≠ none) :
    discardLine s pa = (writeBackLine s (pa / 64)).updCore (fun c => { c with dchk := c.dchk + 1 }) := by
  unfold discardLine
  dsimp only
  rw [hoff, hmode, Option.isSome_iff_ne_none.mpr hdirty]
  rfl

/-- R163: else the line returns to its backing value and is clean, and the context's discard set gains it. -/
theorem discardLine_returned (h : s.gang.dchk = false ∨ (s.getLine (pa / 64)).dirty = none) :
    ∃ wts rts f, discardLine s pa =
      ((cleanL1 ((returned s (pa / 64)).setLine (pa / 64) { (returned s (pa / 64)).getLine (pa / 64) with wts := wts, rts := rts, dirty := none })
        (pa / 64)).updCore f).upd (fun c => { c with discards := c.discards ++ [(pa / 64, wts)] }) := by
  have hmode : (s.gang.dchk && (s.getLine (pa / 64)).dirty.isSome) = false := by
    rcases h with h | h <;> simp [h]
  unfold discardLine
  dsimp only
  rw [hoff, hmode]
  exact ⟨_, _, _, rfl⟩

/-- R163: the line is clean. -/
theorem discardLine_clean : ((discardLine s pa).getLine (pa / 64)).dirty = none := by
  by_cases h : s.gang.dchk = false ∨ (s.getLine (pa / 64)).dirty = none
  · obtain ⟨wts, rts, f, heq⟩ := discardLine_returned hoff h
    rw [heq]
    exact congrArg LineMeta.dirty (State.getLine_setLine_same _ _ _)
  · obtain ⟨hmode, hdirty⟩ := not_or.mp h
    rw [discardLine_checked hoff (by simpa using hmode) hdirty]
    exact writeBackLine_same s _

end

/-! ### LD and LDL (R127, R129) -/

section
variable {s : State} {g : Guard} (hr : Runs s g) {t : Ty} {d : Fin 32} {m : Mem} {r : Grant}
include hr

/-- R94, R127: LD puts the bytes that its load gives, at once or when the answer arrives. -/
theorem exec_ld_granted (hgrant : Granted s (.ld g t (.s d) m) (s.ea m) (t.bits / 8) (t.bits / 8) .read (decide (t.bits / 8 = 8)) r)
    (hphase : (loadBytes r.s r.pa (t.bits / 8)).1.inPhase = false) : exec (.ld g t (.s d) m) s =
      .next (answerS (loadBytes r.s r.pa (t.bits / 8)).1 d (loadedWord t (loadBytes r.s r.pa (t.bits / 8)).2.1) 0
        (loadBytes r.s r.pa (t.bits / 8)).2.2) := by
  obtain ⟨hok, hallowed, hpair⟩ := hgrant
  have hmessage : loadMessage r.s 0 r.pa (t.bits / 8) (fun s => loadBytes s r.pa (t.bits / 8)) = .ok (loadBytes r.s r.pa (t.bits / 8)) := by
    unfold loadMessage
    rw [hpair]
  refine (guarded_runs hr _ _).trans ?_
  unfold loadForm
  simp only [Bool.true_and, hok, bind, Except.bind, hallowed, Bool.false_eq_true, if_false, hmessage, hphase]
  rfl

/-- R122, R127: a refused LD writes zero. -/
theorem exec_ld_refused (hok : grant s (.ld g t (.s d) m) (s.ea m) (t.bits / 8) (t.bits / 8) .read (decide (t.bits / 8 = 8)) = .ok r)
    (hrefused : r.refused = true) : exec (.ld g t (.s d) m) s = .next ((if offCore s r.pa then countRemote r.s else r.s).putS d 0) := by
  refine (guarded_runs hr _ _).trans ?_
  unfold loadForm
  simp only [Bool.true_and, hok, bind, Except.bind, hrefused, if_true]
  rfl

/-- R129: LDL answers the value at the home, and discards the line. -/
theorem exec_ldl_granted (hgrant : Granted s (.ldl g t d m) (s.ea m) (t.bits / 8) (t.bits / 8) .read false r)
    (hphase : (discardLine (loadAtHome r.s r.pa (t.bits / 8)).1 r.pa).inPhase = false) : exec (.ldl g t d m) s =
      .next (answerS (discardLine (loadAtHome r.s r.pa (t.bits / 8)).1 r.pa) d (loadedWord t (loadAtHome r.s r.pa (t.bits / 8)).2) 0
        (offCore r.s r.pa)) := by
  obtain ⟨hok, hallowed, hpair⟩ := hgrant
  have hmessage (load : State → State × List Byte × Bool) : loadMessage r.s 0 r.pa (t.bits / 8) load = .ok (load r.s) := by
    unfold loadMessage
    rw [hpair]
  refine (guarded_runs hr _ _).trans ?_
  unfold loadForm
  simp only [Bool.false_and, hok, bind, Except.bind, hallowed, Bool.false_eq_true, if_false, hmessage, hphase]
  rfl

end

/-! ### What the discard leaves (R163) -/

section
variable {s u : State} {pa : Nat} (hu : LoadKeeps s u) (hoff : offCore s pa = true)
include hu hoff

/-- R163: outside discard-check mode, or for a clean line. -/
theorem discardLine_discards (h : s.gang.dchk = false ∨ (s.getLine (pa / 64)).dirty = none) :
    (∃ w, (discardLine u pa).ctx.discards = s.ctx.discards ++ [(pa / 64, w)]) ∧ (discardLine u pa).mem = (returned u (pa / 64)).mem := by
  obtain ⟨wts, rts, f, heq⟩ := discardLine_returned (s := u) (by rwa [hu.offCore_eq]) (by rwa [hu.gang_eq, hu.dirty])
  have hctx : u.ctx.discards = s.ctx.discards := by rw [State.ctx, hu.cur]; exact hu.discards _
  rw [heq]
  refine ⟨⟨wts, ?_⟩, rfl⟩
  rw [State.ctx_upd, State.ctx_updCore, ← hctx, ← returned_ctx u (pa / 64)]
  rfl

/-- R163: a clean line's bytes stay. -/
theorem discardLine_keeps (h : (s.getLine (pa / 64)).dirty = none) : (discardLine u pa).mem = s.mem := by
  obtain ⟨-, hmem⟩ := discardLine_discards hu hoff (.inr h)
  rw [hmem, returned_clean (by rwa [hu.dirty]), hu.mem]

/-- R163: the bytes of a dirty line become those of its backing value. -/
theorem discardLine_returns (hmode : s.gang.dchk = false) {b : Line} (hb : (s.getLine (pa / 64)).dirty = some b) (hshadow : s.gang.shadow = 0) :
    (discardLine u pa).mem = s.mem.writeLE (pa / 64 * 64) 64 b.toNat := by
  obtain ⟨-, hmem⟩ := discardLine_discards hu hoff (.inl hmode)
  have hlog : Unlogged u := .inr (by rwa [hu.gang_eq])
  rw [hmem, returned_mem (by rw [hu.dirty, hb]) hlog, hu.mem]
  rfl

/-- R163: in that mode a dirty line is written back and counted. -/
theorem discardLine_counts (hmode : s.gang.dchk = true) (hdirty : (s.getLine (pa / 64)).dirty ≠ none)
    (hshadow : (s.getGang (s.getLine (pa / 64)).writer).shadow = 0) :
    (discardLine u pa).mem = s.mem ∧ (discardLine u pa).core.dchk = s.core.dchk + 1 := by
  have hdirty' : (u.getLine (pa / 64)).dirty ≠ none := by rwa [hu.dirty]
  obtain ⟨b, hb⟩ := Option.ne_none_iff_exists'.mp hdirty'
  have hshadow' : (u.getGang (u.getLine (pa / 64)).writer).shadow = 0 := by rwa [hu.getGang_eq, hu.writer]
  rw [discardLine_checked (by rwa [hu.offCore_eq]) (by rwa [hu.gang_eq]) hdirty', writeBackLine_dirty hb]
  refine ⟨(logLine_mem (.inr hshadow') _).trans hu.mem, ?_⟩
  rw [State.core_updCore]
  have hcur : (cleanL1 ((logLine u (u.getLine (pa / 64)).writer (pa / 64)).setLine (pa / 64) { u.getLine (pa / 64) with dirty := none }) (pa / 64)).cur =
      s.cur := (logLine_cur _ _ _).trans hu.cur
  have hcount : ((cleanL1 ((logLine u (u.getLine (pa / 64)).writer (pa / 64)).setLine (pa / 64) { u.getLine (pa / 64) with dirty := none })
      (pa / 64)).getCore (s.cur / 4)).dchk = s.core.dchk := by
    rw [getCore_cleanL1]
    show (mget Core.reset (s.cur / 4) (logLine u _ _).cores).dchk = _
    rw [logLine_cores]
    exact (hu.core _).2
  rw [State.core, State.coreKey, hcur, hcount]

end

end Sys2Proof.Machine

open Sys2Proof Sys2Proof.Machine

/-- Settles O21: a granted load answers what its home or lease copy gives; the discard puts a dirty line's backing value back, or writes it back. -/
theorem loads : Obligations.Loads := by
  unfold Obligations.Loads
  refine ⟨fun g t d m s r hr => ⟨fun hgrant _ hphase => ?_, fun hok hrefused => exec_ld_refused hr hok hrefused⟩, fun g t d m s r hr hgrant hphase => ?_⟩
  · rw [exec_ld_granted hr hgrant hphase]
    exact congrArg _ (answerS_eq _ _ _ _ _)
  · intro x y l dirty
    have hx : LoadKeeps r.s x.1 := homeLoad_loadKeeps r.s r.s.cur r.pa
    refine ⟨rfl, exec_ldl_granted hr hgrant, fun hoff => ⟨discardLine_clean (by rwa [hx.offCore_eq]), fun hreturn => ?_, fun hdirty hmode hshadow => ?_⟩⟩
    · refine ⟨(discardLine_discards hx hoff hreturn).1, fun hclean a => congrArg (Memory.read · a) (discardLine_keeps hx hoff hclean),
        fun hwf hshadow => ?_⟩
      cases hdirty : (r.s.getLine l).dirty with
      | none => exact ⟨fun a _ => congrArg (Memory.read · a) (discardLine_keeps hx hoff hdirty), fun b hb => absurd (hdirty.symm.trans hb) (by simp)⟩
      | some b =>
        have hmem := discardLine_returns hx hoff (hreturn.resolve_right (by rw [show dirty = some b from hdirty]; simp)) hdirty hshadow
        refine ⟨fun a ha => ?_, fun b' hb => ?_⟩
        · exact (congrArg (Memory.read · a) hmem).trans (Memory.read_writeLE_out _ _ _ _ _ ha)
        · obtain rfl := Option.some.inj (hdirty.symm.trans hb)
          have hbound : b.toNat < 256 ^ 64 := b.isLt.trans_eq (Nat.pow_mul 2 8 64)
          exact (congrArg (Memory.readLE · (l * 64) 64) hmem).trans ((Memory.readLE_writeLE hwf _ _ _).trans (Nat.mod_eq_of_lt hbound))
    · obtain ⟨hmem, hcount⟩ := discardLine_counts hx hoff hmode hdirty hshadow
      exact ⟨fun a => congrArg (Memory.read · a) hmem, hcount⟩
end

section
/-! PROOFS. The scalar logic, shift and bit-count forms (R95, R109). -/
namespace Sys2Proof.Machine
open Sys2Proof.Num

/-! ### Counts and the reversed pattern -/

theorem clz_spec {n x : Nat} (hx : x < 2 ^ n) : Bits.clz n x ≤ n ∧ x < 2 ^ (n - Bits.clz n x) ∧ (Bits.clz n x < n → 2 ^ (n - Bits.clz n x - 1) ≤ x) := by
  unfold Bits.clz
  rw [Nat.mod_eq_of_lt hx]
  dsimp only
  split
  · next h0 =>
    rw [h0, Nat.sub_self]
    exact ⟨le_refl n, Nat.one_pos, fun h => absurd h (lt_irrefl n)⟩
  · next h0 =>
    have hlog : x.log2 < n := (Nat.log2_lt h0).mpr hx
    have hexp : n - (n - 1 - x.log2) = x.log2 + 1 := by omega
    rw [hexp]
    exact ⟨by omega, (Nat.log2_lt h0).mp (Nat.lt_succ_self _), fun _ => Nat.log2_self_le h0⟩

/-- R109: the trailing zeros of a pattern of n bits. -/
theorem ctz_le (n x : Nat) : Bits.ctz n x ≤ n := by
  induction n generalizing x with
  | zero => exact Nat.zero_le _
  | succ n ih =>
    rw [Bits.ctz]
    split
    · exact Nat.zero_le _
    · have := ih (x / 2)
      omega

theorem two_pow_ctz_dvd {n x : Nat} (hx : x < 2 ^ n) : 2 ^ Bits.ctz n x ∣ x := by
  induction n generalizing x with
  | zero => exact Nat.one_dvd x
  | succ n ih =>
    rw [Bits.ctz]
    split
    · exact Nat.one_dvd x
    · obtain ⟨q, hq⟩ := ih (x := x / 2) (by omega)
      exact ⟨q, by rw [Nat.pow_add, Nat.pow_one, Nat.mul_assoc, ← hq]; omega⟩

theorem not_two_pow_ctz_succ_dvd {n x : Nat} (h : Bits.ctz n x < n) : ¬ 2 ^ (Bits.ctz n x + 1) ∣ x := by
  induction n generalizing x with
  | zero => exact absurd h (Nat.not_lt_zero _)
  | succ n ih =>
    rw [Bits.ctz] at h ⊢
    split at h
    · next hodd =>
      rw [if_pos hodd]
      rintro ⟨q, hq⟩
      omega
    · next heven =>
      rw [if_neg heven]
      rintro ⟨q, hq⟩
      refine ih (x := x / 2) (by omega) ⟨q, ?_⟩
      rw [Nat.add_comm 1, Nat.pow_succ, Nat.mul_comm _ 2, Nat.mul_assoc] at hq
      omega

theorem popc_eq_countP (n x : Nat) : Bits.popc n x = (List.range n).countP (fun i => x.testBit i) := by
  induction n generalizing x with
  | zero => rfl
  | succ n ih =>
    have hbit : (x.testBit 0) = decide (x % 2 = 1) := Nat.testBit_zero x
    rw [Bits.popc, ih, List.range_succ_eq_map, List.countP_cons, List.countP_map, hbit]
    have hrest : (List.range n).countP (fun i => (x / 2).testBit i) = (List.range n).countP ((fun i => x.testBit i) ∘ Nat.succ) := by
      congr 1
      funext i
      exact (Nat.testBit_succ x i).symm
    rw [hrest, Nat.add_comm]
    rcases Nat.mod_two_eq_zero_or_one x with h | h <;> simp [h]

theorem brev_lt (n x : Nat) : Bits.brev n x < 2 ^ n := by
  induction n generalizing x with
  | zero => exact Nat.one_pos
  | succ n ih =>
    have := ih (x / 2)
    rw [Bits.brev, Nat.pow_succ]
    rcases Nat.mod_two_eq_zero_or_one x with h | h <;> rw [h] <;> omega

theorem testBit_brev {n i : Nat} (x : Nat) (hi : i < n) : (Bits.brev n x).testBit i = x.testBit (n - 1 - i) := by
  induction n generalizing x with
  | zero => exact absurd hi (Nat.not_lt_zero i)
  | succ n ih =>
    rw [Bits.brev, Nat.mul_comm, Nat.testBit_two_pow_mul_add _ (brev_lt n _)]
    split
    · next h =>
      have hidx : n + 1 - 1 - i = n - 1 - i + 1 := by omega
      rw [ih _ h, hidx, Nat.testBit_succ]
    · next h =>
      obtain rfl : i = n := by omega
      simp

/-! ### Patterns as words -/

/-- R95: the N-bit pattern of a source is its low bits. -/
theorem pat_eq (s : State) (t : Ty) (o : Opnd) : s.pat t o = ((s.src o).setWidth (intTy t).bits).toNat := (BitVec.toNat_setWidth _ _).symm

theorem pat_lt (s : State) (t : Ty) (o : Opnd) : s.pat t o < 2 ^ (intTy t).bits := Nat.mod_lt _ (Nat.two_pow_pos _)

/-- R109: N divides 2^N, so the count of a shift is B modulo N. -/
theorem shiftBy_eq (s : State) (t : Ty) (b : Opnd) : shiftBy s t b = (s.src b).toNat % (intTy t).bits := by
  have hdvd : (intTy t).bits ∣ 2 ^ (intTy t).bits := by cases t <;> decide
  exact Nat.mod_mod_of_dvd _ hdvd

/-- R95: a number and what is left of it modulo 2^N are put alike. -/
theorem tyPut_wrap (t : Ty) (v : Int) : tyPut t (Bits.wrap t.bits v : Nat) = tyPut t v := by
  have hpos : (0 : Int) < (2 ^ t.bits : Nat) := by exact_mod_cast Nat.two_pow_pos t.bits
  apply tyPut_congr
  rw [Bits.wrap, Int.toNat_of_nonneg (Int.emod_nonneg v hpos.ne'), Int.emod_emod_of_dvd _ (dvd_refl _)]

theorem tyPut_natCast_congr {t : Ty} {m n : Nat} (h : m % 2 ^ t.bits = n % 2 ^ t.bits) : tyPut t m = tyPut t n :=
  tyPut_congr (by exact_mod_cast h)

/-- R109: A AND NOT B. -/
theorem xor_and_self {n : Nat} (x y : BitVec n) : x ^^^ (x &&& y) = x &&& ~~~y := by
  ext i hi
  simp only [BitVec.getElem_xor, BitVec.getElem_and, BitVec.getElem_not]
  cases x[i] <;> cases y[i] <;> rfl

/-- R109: the two parts of a rotation do not meet. -/
theorem toNat_rotateLeft_mod {n k : Nat} (x : BitVec n) (hk : k < n) :
    (x.rotateLeft k).toNat = (x.toNat * 2 ^ k + x.toNat / 2 ^ (n - k)) % 2 ^ n := by
  have hpow : 2 ^ n = 2 ^ k * 2 ^ (n - k) := by rw [← Nat.pow_add]; congr 1; omega
  have hlow : x.toNat / 2 ^ (n - k) < 2 ^ k := by
    rw [Nat.div_lt_iff_lt_mul (Nat.two_pow_pos _), ← hpow]
    exact x.isLt
  have hhigh : x.toNat * 2 ^ k % 2 ^ n = 2 ^ k * (x.toNat % 2 ^ (n - k)) := by
    rw [hpow, Nat.mul_comm x.toNat, Nat.mul_mod_mul_left]
  have hrest := Nat.mod_lt x.toNat (Nat.two_pow_pos (n - k))
  have hsum : 2 ^ k * (x.toNat % 2 ^ (n - k)) + x.toNat / 2 ^ (n - k) < 2 ^ n := by
    rw [hpow]
    calc 2 ^ k * (x.toNat % 2 ^ (n - k)) + x.toNat / 2 ^ (n - k) < 2 ^ k * (x.toNat % 2 ^ (n - k) + 1) := by rw [Nat.mul_succ]; omega
      _ ≤ 2 ^ k * 2 ^ (n - k) := Nat.mul_le_mul_left _ hrest
  rw [BitVec.toNat_rotateLeft, Nat.mod_eq_of_lt hk, Nat.shiftLeft_eq, Nat.shiftRight_eq_div_pow, hhigh,
    ← Nat.two_pow_add_eq_or_of_lt hlow, Nat.add_mod, hhigh, Nat.mod_eq_of_lt (hlow.trans_le (by rw [hpow]; exact Nat.le_mul_of_pos_right _ (Nat.two_pow_pos _))),
    Nat.mod_eq_of_lt hsum]

/-! ### The forms -/

section
variable {s : State} {g : Guard} (hr : Runs s g) (t : Ty) (d a b : Opnd)
include hr

/-- R95: a pattern result is put to the destination. -/
theorem finish_putPat (n : Nat) (fl : Flg) : finish s (putPat s t d n fl) = .next (s.result d (tyPut (intTy t) n) fl) := by
  rw [putPat_result hr.2, finish_ok]

/-- R95: what a form with a pattern result does, given the pattern modulo 2^N. -/
theorem guarded_putPat (i : Instr) {n m : Nat} (h : n % 2 ^ (intTy t).bits = m % 2 ^ (intTy t).bits) :
    guarded s i g (putPat s t d n 0) = .next (s.result d (tyPut (intTy t) m) 0) := by
  rw [guarded_runs hr, finish_putPat hr, tyPut_natCast_congr h]

theorem exec_and : exec (.and g t d a b) s = .next (s.result d
    (tyPut (intTy t) (((s.src a).setWidth (intTy t).bits &&& (s.src b).setWidth (intTy t).bits).toNat : Nat)) 0) := by
  refine guarded_putPat hr t d _ (congrArg (· % _) ?_)
  rw [BitVec.toNat_and, pat_eq, pat_eq]

theorem exec_or : exec (.or g t d a b) s = .next (s.result d
    (tyPut (intTy t) (((s.src a).setWidth (intTy t).bits ||| (s.src b).setWidth (intTy t).bits).toNat : Nat)) 0) := by
  refine guarded_putPat hr t d _ (congrArg (· % _) ?_)
  rw [BitVec.toNat_or, pat_eq, pat_eq]

theorem exec_xor : exec (.xor g t d a b) s = .next (s.result d
    (tyPut (intTy t) (((s.src a).setWidth (intTy t).bits ^^^ (s.src b).setWidth (intTy t).bits).toNat : Nat)) 0) := by
  refine guarded_putPat hr t d _ (congrArg (· % _) ?_)
  rw [BitVec.toNat_xor, pat_eq, pat_eq]

theorem exec_andn : exec (.andn g t d a b) s = .next (s.result d
    (tyPut (intTy t) (((s.src a).setWidth (intTy t).bits &&& ~~~(s.src b).setWidth (intTy t).bits).toNat : Nat)) 0) := by
  refine guarded_putPat hr t d _ (congrArg (· % _) ?_)
  rw [← xor_and_self, BitVec.toNat_xor, BitVec.toNat_and, pat_eq, pat_eq]

theorem exec_shl : exec (.shl g t d a b) s = .next (s.result d
    (tyPut (intTy t) (((s.src a).setWidth (intTy t).bits <<< ((s.src b).toNat % (intTy t).bits)).toNat : Nat)) 0) := by
  refine guarded_putPat hr t d _ ?_
  rw [BitVec.toNat_shiftLeft, Nat.shiftLeft_eq, Nat.mod_mod, pat_eq, shiftBy_eq]

theorem exec_shr : exec (.shr g t d a b) s = .next (s.result d
    (tyPut (intTy t) (((s.src a).setWidth (intTy t).bits >>> ((s.src b).toNat % (intTy t).bits)).toNat : Nat)) 0) := by
  refine guarded_putPat hr t d _ (congrArg (· % _) ?_)
  rw [BitVec.toNat_ushiftRight, Nat.shiftRight_eq_div_pow, pat_eq, shiftBy_eq]

theorem exec_sha : exec (.sha g t d a b) s = .next (s.result d
    (tyPut (intTy t) (((s.src a).setWidth (intTy t).bits).sshiftRight ((s.src b).toNat % (intTy t).bits)).toNat) 0) := by
  have hword : BitVec.ofNat (intTy t).bits (s.pat t a) = (s.src a).setWidth (intTy t).bits := by rw [pat_eq, BitVec.ofNat_toNat, BitVec.setWidth_eq]
  refine (guarded_runs hr _ _).trans ?_
  rw [putInt_result hr.2, finish_ok, ← tyPut_wrap, wrap_sx_div (bits_pos _), hword, shiftBy_eq]

theorem exec_rot : exec (.rot g t d a b) s = .next (s.result d
    (tyPut (intTy t) (((s.src a).setWidth (intTy t).bits).rotateLeft ((s.src b).toNat % (intTy t).bits)).toNat) 0) := by
  refine guarded_putPat hr t d _ ?_
  rw [toNat_rotateLeft_mod _ (Nat.mod_lt _ (bits_pos _)), Nat.mod_mod, pat_eq, shiftBy_eq]

end

end Sys2Proof.Machine

open Sys2Proof Sys2Proof.Machine

/-- Settles O13: each form's pattern is a word operation on the low N bits; the counts by induction on N. -/
theorem scalarLogic : Obligations.ScalarLogic := by
  unfold Obligations.ScalarLogic
  refine ⟨fun g t d a b s hr => ⟨exec_and hr t d a b, exec_or hr t d a b, exec_xor hr t d a b, exec_andn hr t d a b, exec_shl hr t d a b,
    exec_shr hr t d a b, exec_sha hr t d a b, exec_rot hr t d a b⟩, fun g t d a s hr => ?_⟩
  intro u x
  have hpat : s.pat t a = x := pat_eq s t a
  have hx : x < 2 ^ u.bits := ((s.src a).setWidth u.bits).isLt
  have hput (i : Instr) (n : Nat) : guarded s i g (putPat s t d n 0) = .next (s.result d (tyPut u n) 0) := guarded_putPat hr t d i rfl
  refine ⟨⟨Bits.clz u.bits x, ?_, clz_spec hx⟩, ⟨Bits.ctz u.bits x, ?_, ctz_le _ _, two_pow_ctz_dvd hx, not_two_pow_ctz_succ_dvd⟩, ?_,
    ⟨Bits.brev u.bits x, ?_, brev_lt _ _, fun i => testBit_brev x⟩⟩ <;> rw [← hpat]
  · exact hput _ _
  · exact hput _ _
  · rw [← popc_eq_countP]
    exact hput _ _
  · exact hput _ _
end

section
/-! PROOFS. Fields and immediates (R64, R109). -/
namespace Sys2Proof.Machine
open Sys2Proof.Num

/-- R64: the 44-bit immediate in two's complement. -/
theorem sx_toInt {n : Nat} (hn : 0 < n) (x : BitVec n) : Bits.sx n x.toNat = x.toInt := by
  rw [sx_eq_toInt hn, BitVec.ofNat_toNat, BitVec.setWidth_eq]

/-- R109: a field of a word. -/
theorem field_toNat (w : Word) (pos len : Nat) : w.toNat / 2 ^ pos % 2 ^ len = ((w >>> pos).setWidth len).toNat := by
  rw [BitVec.toNat_setWidth, BitVec.toNat_ushiftRight, Nat.shiftRight_eq_div_pow]

theorem tyPut_toInt {n : Nat} (x : BitVec n) : tyPut .i64 x.toInt = x.signExtend 64 := by
  show (BitVec.ofInt 64 x.toInt).signExtend 64 = _
  rw [BitVec.signExtend_eq]
  rfl

theorem tyPut_natCast (n : Nat) : tyPut .n64 n = BitVec.ofNat 64 n := by
  show (BitVec.ofInt 64 (n : Int)).setWidth 64 = _
  rw [BitVec.setWidth_eq, BitVec.ofInt_natCast]

theorem tyPut_toNat {n : Nat} (x : BitVec n) : tyPut .n64 (x.toNat : Nat) = x.setWidth 64 := by
  rw [tyPut_natCast, BitVec.ofNat_toNat]

/-- R109: the value of a field of EXT; one of no bits is 0. -/
def extValue (signed : Bool) (w : Word) (pos len : Nat) : Int :=
  let f := w.toNat / 2 ^ pos % 2 ^ len
  if len = 0 then 0 else if signed then Bits.sx len f else f

theorem extValue_signed (w : Word) (pos len : Nat) : extValue true w pos len = ((w >>> pos).setWidth len).toInt := by
  unfold extValue
  rw [field_toNat]
  cases len with
  | zero => rw [BitVec.eq_nil (BitVec.setWidth 0 (w >>> pos))]; rfl
  | succ n => exact sx_toInt (Nat.succ_pos n) _

theorem extValue_unsigned (w : Word) (pos len : Nat) : extValue false w pos len = (((w >>> pos).setWidth len).toNat : Nat) := by
  unfold extValue
  rw [field_toNat]
  cases len with
  | zero => rw [BitVec.eq_nil (BitVec.setWidth 0 (w >>> pos))]; rfl
  | succ n => rfl

/-- R109: MOVH puts twenty bits above the low 44 bits of a word. -/
theorem movh_word (imm : BitVec 20) (w : Word) :
    BitVec.ofNat 64 (imm.toNat * 2 ^ 44 + w.toNat % 2 ^ 44) = (imm.setWidth 64 <<< 44) ||| (w.setWidth 44).setWidth 64 := by
  have hlow := Nat.mod_lt w.toNat (Nat.two_pow_pos 44)
  have himm := imm.isLt
  apply BitVec.eq_of_toNat_eq
  rw [BitVec.toNat_ofNat, BitVec.toNat_or, BitVec.toNat_shiftLeft, BitVec.toNat_setWidth, BitVec.toNat_setWidth, BitVec.toNat_setWidth,
    Nat.shiftLeft_eq, Nat.mod_eq_of_lt (a := imm.toNat) (by omega), Nat.mod_eq_of_lt (a := imm.toNat * 2 ^ 44) (by omega),
    Nat.mod_eq_of_lt (a := w.toNat % 2 ^ 44) (by omega), Nat.mul_comm, ← Nat.two_pow_add_eq_or_of_lt hlow]
  omega

section
variable {s : State} {g : Guard} (hr : Runs s g) (d a b : Opnd)
include hr

/-- R109: EXT of a field, extended by the type. -/
theorem exec_ext (t : Ty) (x : ExtField) : exec (.ext g t d a x) s =
    .next (s.result d (tyPut (intTy t) (extValue t.signed (s.src a) (extField s x).1 (extField s x).2)) 0) := by
  show guarded s (.ext g t d a x) g (putInt s t d (extValue t.signed (s.src a) (extField s x).1 (extField s x).2) 0) = _
  rw [guarded_runs hr, putInt_result hr.2, finish_ok]

theorem exec_ext_signed (x : ExtField) : exec (.ext g .i64 d a x) s =
    .next (s.result d ((((s.src a) >>> (extField s x).1).setWidth (extField s x).2).signExtend 64) 0) := by
  rw [exec_ext hr, ← tyPut_toInt, ← extValue_signed]
  rfl

theorem exec_ext_unsigned (x : ExtField) : exec (.ext g .n64 d a x) s =
    .next (s.result d ((((s.src a) >>> (extField s x).1).setWidth (extField s x).2).setWidth 64) 0) := by
  rw [exec_ext hr, ← tyPut_toNat, ← extValue_unsigned]
  rfl

/-- R109: INS of a field. -/
theorem exec_ins (pos len : BitVec 6) : exec (.ins g .n64 d a b pos len) s =
    .next (s.result d (BitVec.ofNat 64 (Bits.setFld (s.src a).toNat (len.toNat + 1) pos.toNat (s.src b).toNat)) 0) := by
  refine (guarded_runs hr _ _).trans ?_
  rw [putPat_result hr.2, finish_ok]
  exact congrArg (fun w => Host.Outcome.next (s.result d w 0)) (tyPut_natCast _)

/-- R64, R109: the immediate forms. -/
theorem exec_addi {t : Ty} (ht : t.isInt = true) (imm : BitVec 44) :
    exec (.addi g t d a imm) s = .next (s.result d (tyPut t (tyVal t (s.src a) + imm.toInt)) 0) := by
  refine (guarded_runs hr _ _).trans ?_
  rw [putInt_result hr.2, finish_ok, intTy_of_isInt ht, int_eq_of_isInt s ht, sx_toInt (by decide)]

theorem exec_movi {t : Ty} (ht : t.isInt = true) (imm : BitVec 44) :
    exec (.movi g t d imm) s = .next (s.result d (tyPut t imm.toInt) 0) := by
  refine (guarded_runs hr _ _).trans ?_
  rw [putInt_result hr.2, finish_ok, intTy_of_isInt ht, sx_toInt (by decide)]

/-- R109: MOVH puts twenty bits above the low 44 bits of A. -/
theorem exec_movh (x : Option (Fin 32)) (imm : BitVec 20) : exec (.movh g d x imm) s =
    .next (s.written d ((imm.setWidth 64 <<< 44) ||| ((x.elim 0 s.rs).setWidth 44).setWidth 64)) := by
  refine (guarded_runs hr _ _).trans ?_
  rw [dst_written hr.2, finish_ok]
  rw [movh_word]

theorem exec_lea (r : Fin 32) (m : Mem) : exec (.lea g r m) s = .next (s.putS r (s.ea m)) := guarded_runs hr _ _

end

end Sys2Proof.Machine

open Sys2Proof Sys2Proof.Machine

/-- Settles O14: each field and immediate form as a word operation. -/
theorem scalarFields : Obligations.ScalarFields := by
  unfold Obligations.ScalarFields
  refine fun g t d a b s hr => ⟨fun pos len => ⟨exec_ext_signed hr d a _, exec_ext_unsigned hr d a _⟩,
    fun c => ⟨exec_ext_signed hr d a _, exec_ext_unsigned hr d a _⟩, fun pos len hfit => ⟨_, exec_ins hr d a b pos len, fun i hi => ?_⟩,
    fun imm ht => ⟨exec_addi hr d a ht imm, exec_movi hr d ht imm⟩, fun imm r => ⟨exec_movh hr d (some r) imm, ?_⟩, exec_lea hr⟩
  · rw [BitVec.getLsbD_ofNat, decide_eq_true hi, Bool.true_and, Vec.testBit_setFld, BitVec.testBit_toNat, BitVec.testBit_toNat]
    exact if_congr (by omega) rfl rfl
  · rw [exec_movh hr]
    simp
end

section
/-! PROOFS. f64 and f32 patterns (R73 to R75): the value of a pattern is ordered as the pattern, and packs to it again; a NaN packs quieted. -/
namespace Sys2Proof.Num

/-- R73: a format that does not narrow and whose greatest finite pattern stands next below that of infinity. -/
structure FFmt.Ieee (f : FFmt) : Prop where
  sat : f.sat = false
  fb_pos : 0 < f.fb
  fb_le : f.fb ≤ 52
  top : f.top + 1 = f.infPat

theorem ieee_f64 : f64.Ieee := ⟨rfl, by decide, by decide, by decide⟩
theorem ieee_f32 : f32.Ieee := ⟨rfl, by decide, by decide, by decide⟩

/-- The magnitude that a pattern without its sign has in units of the least subnormal; it goes on past the finite ones. -/
def FFmt.weight (f : FFmt) (m : Nat) : Nat := if m < 2 ^ f.fb then m else (2 ^ f.fb + m % 2 ^ f.fb) * 2 ^ (m / 2 ^ f.fb - 1)

/-- The magnitude of a value that is not a NaN, in the same units, infinity by its pattern. -/
def FFmt.units (f : FFmt) : Val → Nat
  | .nan _ _ _ => 0
  | .inf _ => f.weight f.infPat
  | .fin _ m e => m * 2 ^ (e - f.qmin).toNat

/-- The value in the same units, with its sign. -/
def FFmt.signedUnits (f : FFmt) (v : Val) : Int := if v.neg then -(f.units v : Int) else f.units v

/-- R73, R74: the value `v` is that of the pattern `z`, which is no NaN, and rounds to it without a flag. -/
structure FFmt.Encodes (f : FFmt) (z : Nat) (v : Val) : Prop where
  lt : z < 2 * f.signBit
  range : match v with
    | .fin _ _ e => f.qmin ≤ e ∧ z % f.signBit < f.infPat
    | _ => z % f.signBit = f.infPat
  notNaN : v.isNaN = false
  units : f.units v = f.weight (z % f.signBit)
  neg : v.neg = decide (f.signBit ≤ z)
  packs : pack f .rne v = (z, 0)

/-! ### The weight of a pattern -/

theorem FFmt.weight_lt_succ (f : FFmt) (m : Nat) : f.weight m < f.weight (m + 1) := by
  have hP := Nat.two_pow_pos f.fb
  unfold FFmt.weight
  generalize 2 ^ f.fb = P at *
  have hdm := Nat.div_add_mod m P
  have hr := Nat.mod_lt m hP
  by_cases hm : m < P
  · rw [if_pos hm]
    split
    · omega
    · have h1 : m + 1 = P := by omega
      simp [h1, Nat.div_self hP]
      omega
  · rw [if_neg hm, if_neg (by omega)]
    have hq : 1 ≤ m / P := (Nat.one_le_div_iff hP).2 (by omega)
    by_cases hlast : m % P + 1 = P
    · have h1 : m + 1 = P * (m / P + 1) := by rw [Nat.mul_succ]; omega
      rw [h1, Nat.mul_mod_right, Nat.mul_div_cancel_left _ hP, Nat.add_sub_cancel, Nat.add_zero]
      calc (P + m % P) * 2 ^ (m / P - 1) < (P * 2) * 2 ^ (m / P - 1) := Nat.mul_lt_mul_of_pos_right (by omega) (Nat.two_pow_pos _)
        _ = P * 2 ^ (m / P) := by rw [Nat.mul_assoc, ← pow_succ', Nat.sub_add_cancel hq]
    · obtain ⟨hdiv, hmod⟩ := (Nat.div_mod_unique hP (a := m + 1) (c := m % P + 1) (d := m / P)).2 ⟨by omega, by omega⟩
      rw [hdiv, hmod]
      exact Nat.mul_lt_mul_of_pos_right (by omega) (Nat.two_pow_pos _)

theorem FFmt.weight_strictMono (f : FFmt) : StrictMono f.weight := strictMono_nat_of_lt_succ f.weight_lt_succ

theorem FFmt.weight_zero (f : FFmt) : f.weight 0 = 0 := if_pos (Nat.two_pow_pos _)

theorem FFmt.weight_pos {f : FFmt} {m : Nat} : 0 < f.weight m ↔ 0 < m := by
  conv_lhs => rw [← f.weight_zero]
  exact f.weight_strictMono.lt_iff_lt

/-! ### The order of two values -/

theorem compare_eq_compare {a b c d : Int} (hlt : a < b ↔ c < d) (hgt : b < a ↔ d < c) : compare a b = compare c d := by
  rcases lt_trichotomy a b with h | h | h
  · rw [compare_lt_iff_lt.2 h, compare_lt_iff_lt.2 (hlt.1 h)]
  · rw [compare_eq_iff_eq.2 h, compare_eq_iff_eq.2 (by omega)]
  · rw [compare_gt_iff_gt.2 h, compare_gt_iff_gt.2 (hgt.1 h)]

theorem FFmt.infPat_pos {f : FFmt} (hf : f.Ieee) : 0 < f.infPat := by have := hf.top; omega

section
variable {f : FFmt} {z : Nat} {v : Val} (h : f.Encodes z v)
include h

theorem FFmt.Encodes.isZero (hf : f.Ieee) : v.isZero = true ↔ z % f.signBit = 0 := by
  have hu := h.units
  have hpos := f.weight_pos (m := z % f.signBit)
  have hr := h.range
  cases v with
  | nan => cases h.notNaN
  | inf =>
    have := f.infPat_pos hf
    simp only [Val.isZero] at *
    simp; omega
  | fin n m e =>
    have : 0 < m * 2 ^ (e - f.qmin).toNat ↔ 0 < m := by simp
    simp only [Val.isZero, beq_iff_eq, FFmt.units] at *
    omega

end

/-- The key of `cmpV`: the sign of a value, with the infinities outermost. -/
def Val.rank : Val → Int
  | .inf n => if n then -2 else 2
  | .fin n m _ => if m = 0 then 0 else if n then -1 else 1
  | .nan _ _ _ => 0

theorem Val.rank_inf_ne_fin (n n' : Bool) (m : Nat) (e : Int) : (Val.inf n).rank ≠ (Val.fin n' m e).rank := by
  have hfin : -1 ≤ (Val.fin n' m e).rank ∧ (Val.fin n' m e).rank ≤ 1 := by
    unfold Val.rank
    dsimp only
    split_ifs <;> decide
  cases n
  · exact (show (Val.fin n' m e).rank < 2 by omega).ne'
  · exact (show -2 < (Val.fin n' m e).rank by omega).ne

/-- R74: values of different ranks that are not both zero are in the order of their ranks. -/
theorem cmpV_of_rank_ne (zeros : Bool) {a b : Val} (h0 : (a.isZero && b.isZero) = false) (hr : a.rank ≠ b.rank) :
    cmpV zeros a b = compare a.rank b.rank := by
  unfold cmpV
  rw [h0]
  exact if_pos hr

/-- R74: finite values of one rank that are not both zero are in the order of their multiples of the lesser exponent. -/
theorem cmpV_fin (zeros : Bool) {n n' : Bool} {m m' : Nat} {e e' : Int} (h0 : ((Val.fin n m e).isZero && (Val.fin n' m' e').isZero) = false)
    (hr : (Val.fin n m e).rank = (Val.fin n' m' e').rank) : cmpV zeros (.fin n m e) (.fin n' m' e') =
      compare (if n then -((m * 2 ^ (e - min e e').toNat : Nat) : Int) else (m * 2 ^ (e - min e e').toNat : Nat))
        (if n' then -((m' * 2 ^ (e' - min e e').toNat : Nat) : Int) else (m' * 2 ^ (e' - min e e').toNat : Nat)) := by
  unfold cmpV
  rw [h0]
  exact if_neg (not_not.2 hr)

/-- Rank and units agree: the finite values lie within the infinities. -/
theorem FFmt.Encodes.rank_cases {f : FFmt} {z : Nat} {v : Val} (h : f.Encodes z v) :
    (v.rank = 2 ∧ f.signedUnits v = f.weight f.infPat) ∨ (v.rank = -2 ∧ f.signedUnits v = -(f.weight f.infPat : Int)) ∨
    (v.rank = 0 ∧ f.signedUnits v = 0) ∨ (v.rank = 1 ∧ 0 < f.signedUnits v ∧ f.signedUnits v < f.weight f.infPat) ∨
    (v.rank = -1 ∧ f.signedUnits v < 0 ∧ -(f.weight f.infPat : Int) < f.signedUnits v) := by
  have hr := h.range
  have hu := h.units
  cases v with
  | nan => cases h.notNaN
  | inf n => cases n <;> simp [Val.rank, FFmt.signedUnits, FFmt.units, Val.neg]
  | fin n m e =>
    have hlt : f.units (.fin n m e) < f.weight f.infPat := by rw [hu]; exact f.weight_strictMono hr.2
    have hpos : 0 < f.units (.fin n m e) ↔ 0 < m := by simp [FFmt.units]
    cases n <;> simp only [Val.rank, FFmt.signedUnits, Val.neg] <;> split <;> simp <;> omega

/-- Two integers scaled by the same factor compare alike. -/
theorem compare_mul_right {x y k : Int} (hk : 0 < k) : compare (x * k) (y * k) = compare x y :=
  compare_eq_compare (Int.mul_lt_mul_right hk) (Int.mul_lt_mul_right hk)

/-- A magnitude in units, by way of its multiple of any exponent between. -/
theorem FFmt.units_fin_eq (f : FFmt) (n : Bool) (m : Nat) {e x : Int} (hx : f.qmin ≤ x) (hxe : x ≤ e) :
    f.units (.fin n m e) = m * 2 ^ (e - x).toNat * 2 ^ (x - f.qmin).toNat := by
  rw [Nat.mul_assoc, ← pow_add, FFmt.units]
  congr 2
  omega

/-- R74: values that are not both zero compare as they do in units. -/
theorem cmpV_eq {f : FFmt} (hf : f.Ieee) (zeros : Bool) {x y : Nat} {a b : Val} (ha : f.Encodes x a) (hb : f.Encodes y b)
    (h0 : (a.isZero && b.isZero) = false) : cmpV zeros a b = compare (f.signedUnits a) (f.signedUnits b) := by
  have hinf := f.weight_pos.2 (f.infPat_pos hf)
  have hca := ha.rank_cases
  have hcb := hb.rank_cases
  have hra := ha.range
  have hrb := hb.range
  by_cases hrank : a.rank = b.rank
  · cases a with
    | nan => cases ha.notNaN
    | inf n =>
      cases b with
      | nan => cases hb.notNaN
      | inf n' => cases n <;> cases n' <;> simp_all [Val.rank, cmpV, Val.isZero]
      | fin n' m' e' => exact absurd hrank (Val.rank_inf_ne_fin n n' m' e')
    | fin n m e =>
      cases b with
      | nan => cases hb.notNaN
      | inf n' => exact absurd hrank.symm (Val.rank_inf_ne_fin n' n m e)
      | fin n' m' e' =>
        have hk : (0 : Int) < (2 ^ (min e e' - f.qmin).toNat : Nat) := by exact_mod_cast Nat.two_pow_pos _
        dsimp only at hra hrb
        rw [cmpV_fin zeros h0 hrank, ← compare_mul_right hk, FFmt.signedUnits, FFmt.signedUnits, f.units_fin_eq n m (by omega) (min_le_left e e'),
          f.units_fin_eq n' m' (by omega) (min_le_right e e')]
        cases n <;> cases n' <;> simp [Val.neg, Nat.cast_mul]
  · rw [cmpV_of_rank_ne zeros h0 hrank]
    refine compare_eq_compare ?_ ?_ <;> omega

/-! ### Patterns in order -/

/-- The place of a pattern in the order that has −0 below +0, and in the one that has them equal. -/
def FFmt.key (f : FFmt) (z : Nat) : Int := if f.signBit ≤ z then -((z % f.signBit : Nat) : Int) - 1 else (z % f.signBit : Nat)
def FFmt.num (f : FFmt) (z : Nat) : Int := if z % f.signBit = 0 then 0 else f.key z

/-- R73: a pattern is its sign bit and the rest. -/
theorem pattern_eq {f : FFmt} {z : Nat} (hz : z < 2 * f.signBit) : z = (if f.signBit ≤ z then f.signBit else 0) + z % f.signBit := by
  split
  · rw [Nat.mod_eq_sub_mod ‹_›, Nat.mod_eq_of_lt (by omega)]
    omega
  · rw [Nat.mod_eq_of_lt (by omega), Nat.zero_add]

section
variable {f : FFmt} (hf : f.Ieee) {x y : Nat} {a b : Val} (ha : f.Encodes x a) (hb : f.Encodes y b)

theorem FFmt.Encodes.signedUnits_eq {z : Nat} {v : Val} (h : f.Encodes z v) :
    f.signedUnits v = if f.signBit ≤ z then -(f.weight (z % f.signBit) : Int) else f.weight (z % f.signBit) := by
  simp [FFmt.signedUnits, h.neg, h.units]

include hf ha hb

theorem both_isZero : (a.isZero && b.isZero) = true ↔ x % f.signBit = 0 ∧ y % f.signBit = 0 := by
  rw [Bool.and_eq_true, ha.isZero hf, hb.isZero hf]

/-- R74: values that are not both zero are in the order of their patterns. -/
theorem cmpV_eq_compare_key (zeros : Bool) (h0 : ¬ (x % f.signBit = 0 ∧ y % f.signBit = 0)) : cmpV zeros a b = compare (f.key x) (f.key y) := by
  have hx := f.weight_pos (m := x % f.signBit)
  have hy := f.weight_pos (m := y % f.signBit)
  have hxy := f.weight_strictMono.lt_iff_lt (a := x % f.signBit) (b := y % f.signBit)
  have hyx := f.weight_strictMono.lt_iff_lt (a := y % f.signBit) (b := x % f.signBit)
  rw [cmpV_eq hf zeros ha hb (Bool.eq_false_iff.2 (mt (both_isZero hf ha hb).1 h0)), ha.signedUnits_eq, hb.signedUnits_eq]
  unfold FFmt.key
  refine compare_eq_compare ?_ ?_ <;> split <;> split <;> omega

/-- R74: MIN and MAX have −0 below +0. -/
theorem cmpV_true : cmpV true a b = compare (f.key x) (f.key y) := by
  by_cases h0 : x % f.signBit = 0 ∧ y % f.signBit = 0
  · simp only [cmpV, (both_isZero hf ha hb).2 h0, if_true, ha.neg, hb.neg, FFmt.key, h0.1, h0.2]
    by_cases hx : f.signBit ≤ x <;> by_cases hy : f.signBit ≤ y <;> simp [hx, hy] <;> rfl
  · exact cmpV_eq_compare_key hf ha hb true h0

/-- R110: CMP has the zeros equal. -/
theorem cmpV_false : cmpV false a b = compare (f.num x) (f.num y) := by
  unfold FFmt.num
  by_cases h0 : x % f.signBit = 0 ∧ y % f.signBit = 0
  · rw [if_pos h0.1, if_pos h0.2, compare_eq_iff_eq.2 rfl]
    simp only [cmpV, (both_isZero hf ha hb).2 h0, if_true]
    rfl
  · rw [cmpV_eq_compare_key hf ha hb false h0]
    unfold FFmt.key
    refine compare_eq_compare ?_ ?_ <;> split <;> split <;> split <;> split <;> omega

omit hf hb in
/-- Different patterns of values stand at different places. -/
theorem FFmt.Encodes.eq_of_key_eq (hlt : y < 2 * f.signBit) (h : f.key x = f.key y) : x = y := by
  have hx := pattern_eq ha.lt
  have hy := pattern_eq hlt
  unfold FFmt.key at h
  by_cases h1 : f.signBit ≤ x <;> by_cases h2 : f.signBit ≤ y <;> simp only [h1, h2, if_true, if_false] at h hx hy <;> omega

/-- R74: MIN and MAX give the pattern of the operand they choose. -/
theorem packR_minmaxV (mx : Bool) : packR f .rne (minmaxV mx a b) =
    (if f.key x < f.key y then (if mx then y else x) else if mx then x else y, 0) := by
  have hnone : firstNaN [a, b] = none := by simp [firstNaN, ha.notNaN, hb.notNaN]
  rw [minmaxV, hnone]
  dsimp only
  rw [cmpV_true hf ha hb]
  rcases lt_trichotomy (f.key x) (f.key y) with h | h | h
  · rw [compare_lt_iff_lt.2 h, if_pos h]
    cases mx <;> simp [packR, ha.packs, hb.packs]
  · obtain rfl := ha.eq_of_key_eq hb.lt h
    rw [compare_eq_iff_eq.2 h]
    cases mx <;> simp [packR, ha.packs, hb.packs]
  · rw [compare_gt_iff_gt.2 h, if_neg h.asymm]
    cases mx <;> simp [packR, ha.packs, hb.packs]

/-- R110: a comparison of values sets no flag. -/
theorem quietCmp_eq (cc : Cond) : Vec.quietCmp cc a b = (Machine.intCond cc (f.num x) (f.num y), 0) := by
  rw [Vec.quietCmp, ha.notNaN, hb.notNaN, cmpV_false hf ha hb, condHolds_compare]
  rfl

end

/-! ### The value of a pattern -/

/-- R73: the fraction bits and the exponent bits make up a pattern without its sign. -/
theorem FFmt.signBit_eq (f : FFmt) : f.signBit = 2 ^ f.eb * 2 ^ f.fb := by rw [FFmt.signBit, Nat.add_comm, pow_add]

theorem FFmt.infPat_add (f : FFmt) : f.infPat + 2 ^ f.fb = f.signBit := by
  rw [FFmt.infPat, f.signBit_eq, ← Nat.succ_mul, Nat.succ_eq_add_one, Nat.sub_add_cancel (Nat.two_pow_pos _)]

/-- R73: the all-ones exponent stands in the patterns from that of infinity on, whose fraction is what they exceed it by. -/
theorem infPat_le_iff (f : FFmt) (z : Nat) : (z % f.signBit / 2 ^ f.fb = 2 ^ f.eb - 1 ↔ f.infPat ≤ z % f.signBit) ∧
    (f.infPat ≤ z % f.signBit → z % f.signBit % 2 ^ f.fb = z % f.signBit - f.infPat) := by
  have hP := Nat.two_pow_pos f.fb
  have hm : z % f.signBit < 2 ^ f.eb * 2 ^ f.fb := by rw [← f.signBit_eq]; exact Nat.mod_lt _ (Nat.two_pow_pos _)
  have hlt := (Nat.div_lt_iff_lt_mul hP).2 hm
  have hle := Nat.le_div_iff_mul_le hP (x := 2 ^ f.eb - 1) (y := z % f.signBit)
  have hdm := Nat.div_add_mod' (z % f.signBit) (2 ^ f.fb)
  rw [← FFmt.infPat] at hle
  have hiff : z % f.signBit / 2 ^ f.fb = 2 ^ f.eb - 1 ↔ f.infPat ≤ z % f.signBit := by omega
  refine ⟨hiff, fun h => ?_⟩
  rw [hiff.2 h, ← FFmt.infPat] at hdm
  omega

section
variable {f : FFmt} (hf : f.Ieee) {z : Nat} (hz : z < 2 * f.signBit)
include hf hz

/-- R73: the value of a pattern by its exponent. -/
theorem unpack_eq : unpack f z =
    let neg := decide (f.signBit ≤ z)
    let m := z % f.signBit
    let ex := m / 2 ^ f.fb
    let fr := m % 2 ^ f.fb
    if ex = 2 ^ f.eb - 1 then
      if fr = 0 then .inf neg else .nan neg (fr < 2 ^ (f.fb - 1)) (fr * 2 ^ (52 - f.fb))
    else if ex = 0 then .fin neg fr f.qmin
    else .fin neg (2 ^ f.fb + fr) (f.qmin + ex - 1) := by
  have hsign : (z / f.signBit % 2 == 1) = decide (f.signBit ≤ z) := by
    have hs : 0 < f.signBit := Nat.two_pow_pos _
    have h2 : z / f.signBit < 2 := (Nat.div_lt_iff_lt_mul hs).2 hz
    have h1 : 1 ≤ z / f.signBit ↔ f.signBit ≤ z := by rw [Nat.le_div_iff_mul_le hs, Nat.one_mul]
    rw [Nat.mod_eq_of_lt h2, beq_eq_decide, decide_eq_decide, ← h1]
    omega
  simp only [unpack, hsign, hf.sat, Bool.false_and, Bool.false_eq_true, if_false, Bool.not_false, Bool.and_true, decide_eq_true_eq]

theorem unpack_of_eq (hm : z % f.signBit = f.infPat) : unpack f z = .inf (decide (f.signBit ≤ z)) := by
  obtain ⟨hiff, hfr⟩ := infPat_le_iff f z
  rw [unpack_eq hf hz]
  dsimp only
  rw [if_pos (hiff.2 hm.ge), if_pos (by rw [hfr hm.ge, hm, Nat.sub_self])]

theorem unpack_of_gt (hm : f.infPat < z % f.signBit) : unpack f z = .nan (decide (f.signBit ≤ z))
    (decide (z % f.signBit - f.infPat < 2 ^ (f.fb - 1))) ((z % f.signBit - f.infPat) * 2 ^ (52 - f.fb)) := by
  obtain ⟨hiff, hfr⟩ := infPat_le_iff f z
  rw [unpack_eq hf hz]
  dsimp only
  rw [if_pos (hiff.2 hm.le), hfr hm.le, if_neg (by omega)]

/-- R73: a subnormal number or a zero. -/
theorem unpack_of_sub (hm : z % f.signBit < f.infPat) (hsub : z % f.signBit < 2 ^ f.fb) :
    unpack f z = .fin (decide (f.signBit ≤ z)) (z % f.signBit) f.qmin := by
  rw [unpack_eq hf hz]
  dsimp only
  rw [if_neg (mt (infPat_le_iff f z).1.1 hm.not_ge), if_pos (Nat.div_eq_of_lt hsub), Nat.mod_eq_of_lt hsub]

/-- R73: a normal number. -/
theorem unpack_of_normal (hm : z % f.signBit < f.infPat) (hn : 2 ^ f.fb ≤ z % f.signBit) : unpack f z =
    .fin (decide (f.signBit ≤ z)) (2 ^ f.fb + z % f.signBit % 2 ^ f.fb) (f.qmin + (z % f.signBit / 2 ^ f.fb : Nat) - 1) := by
  rw [unpack_eq hf hz]
  dsimp only
  rw [if_neg (mt (infPat_le_iff f z).1.1 hm.not_ge), if_neg (Nat.div_pos hn (Nat.two_pow_pos _)).ne']

end

/-! ### Packing the value of a pattern -/

/-- R74: a number whose least bit is representable rounds to its own pattern without a flag. -/
theorem pack_fin {f : FFmt} (hf : f.Ieee) (n : Bool) {m : Nat} {e : Int} (hm : m ≠ 0) (he : max (e + Nat.log2 m - f.fb) f.qmin = e)
    (hlt : (e - f.qmin).toNat * 2 ^ f.fb + m < f.infPat) :
    pack f .rne (.fin n m e) = ((if n then f.signBit else 0) + ((e - f.qmin).toNat * 2 ^ f.fb + m), 0) := by
  have hr : roundAt .rne n m e e = (m, false) := by rw [roundAt, if_pos (le_refl e), Int.sub_self]; rfl
  have htop := hf.top
  simp only [pack, if_neg hm, he, hr]
  rw [if_neg (by omega), Bool.and_false]
  rfl

section
variable {f : FFmt} (hf : f.Ieee) {z : Nat} (hz : z < 2 * f.signBit)
include hf hz

/-- R73: a pattern of no NaN encodes its value. -/
theorem encodes_unpack (hm : z % f.signBit ≤ f.infPat) : f.Encodes z (unpack f z) := by
  have hpat := pattern_eq hz
  have hP := Nat.two_pow_pos f.fb
  rcases hm.lt_or_eq with hfin | hinf
  · rcases Nat.lt_or_ge (z % f.signBit) (2 ^ f.fb) with hsub | hnorm
    · rw [unpack_of_sub hf hz hfin hsub]
      refine ⟨hz, ⟨le_rfl, hfin⟩, rfl, ?_, rfl, ?_⟩
      · simp [FFmt.units, FFmt.weight, hsub]
      · by_cases h0 : z % f.signBit = 0
        · rw [h0, Nat.add_zero] at hpat
          simp only [pack, h0, if_true, decide_eq_true_eq]
          rw [← hpat]
        · have hlog := (Nat.log2_lt h0).2 hsub
          rw [pack_fin hf _ h0 (max_eq_right (by omega)) (by simpa using hfin), Int.sub_self, Int.toNat_zero, Nat.zero_mul, Nat.zero_add]
          simp only [decide_eq_true_eq]
          rw [← hpat]
    · rw [unpack_of_normal hf hz hfin hnorm]
      have hq := Nat.div_pos hnorm hP
      have hdm := Nat.div_add_mod' (z % f.signBit) (2 ^ f.fb)
      refine ⟨hz, ⟨by omega, hfin⟩, rfl, ?_, rfl, ?_⟩
      · rw [FFmt.units, FFmt.weight, if_neg (by omega)]
        congr 2
        omega
      · have hlt := Nat.mod_lt (z % f.signBit) hP
        have hlog : Nat.log2 (2 ^ f.fb + z % f.signBit % 2 ^ f.fb) = f.fb := by
          rw [Nat.log2_eq_iff (by omega), pow_succ]
          omega
        have hsum : (f.qmin + (z % f.signBit / 2 ^ f.fb : Nat) - 1 - f.qmin).toNat * 2 ^ f.fb + (2 ^ f.fb + z % f.signBit % 2 ^ f.fb) =
            z % f.signBit := by
          obtain ⟨k, hk⟩ := Nat.exists_eq_add_of_le' hq
          have hexp : (f.qmin + (z % f.signBit / 2 ^ f.fb : Nat) - 1 - f.qmin).toNat = k := by omega
          rw [hk, Nat.succ_mul] at hdm
          rw [hexp]
          omega
        rw [pack_fin hf _ (by omega) (by rw [hlog]; omega) (by rw [hsum]; exact hfin), hsum]
        simp only [decide_eq_true_eq]
        rw [← hpat]
  · rw [unpack_of_eq hf hz hinf]
    refine ⟨hz, hinf, rfl, ?_, rfl, ?_⟩
    · rw [FFmt.units, hinf]
    · simp only [pack, hf.sat, Bool.false_eq_true, if_false, decide_eq_true_eq]
      rw [← hinf, ← hpat]

end

/-! ### NaNs -/

/-- R75: quieting sets the most significant bit of the fraction. -/
theorem quiet_frac {fb x : Nat} (hpos : 0 < fb) (hle : fb ≤ 52) : (x * 2 ^ (52 - fb) ||| 2 ^ 51) / 2 ^ (52 - fb) = x ||| 2 ^ (fb - 1) := by
  have h51 : 2 ^ 51 = 2 ^ (fb - 1) * 2 ^ (52 - fb) := by rw [← pow_add]; congr 1; omega
  rw [h51, ← Nat.shiftRight_eq_div_pow, Nat.shiftRight_or_distrib, Nat.shiftRight_eq_div_pow, Nat.shiftRight_eq_div_pow,
    Nat.mul_div_cancel _ (Nat.two_pow_pos _), Nat.mul_div_cancel _ (Nat.two_pow_pos _)]

/-- A multiple of 2^`n` keeps apart from the bits below. -/
theorem mul_two_pow_add_or {n x y : Nat} (q : Nat) (hx : x < 2 ^ n) (hy : y < 2 ^ n) : (q * 2 ^ n + x) ||| y = q * 2 ^ n + (x ||| y) := by
  rw [← Nat.shiftLeft_eq, Nat.shiftLeft_add_eq_or_of_lt hx, Nat.shiftLeft_add_eq_or_of_lt (Nat.or_lt_two_pow hx hy), Nat.or_assoc]

section
variable {f : FFmt} (hf : f.Ieee) {z : Nat} (hz : z < 2 * f.signBit) (hm : f.infPat < z % f.signBit)
include hf hz hm

/-- R75: the value of a NaN pattern is a NaN, which signals when its fraction lies in the lower half. -/
theorem isNaN_unpack : (unpack f z).isNaN = true := by rw [unpack_of_gt hf hz hm]; rfl

theorem isSNaN_unpack : (unpack f z).isSNaN = decide (z % f.signBit < f.infPat + 2 ^ (f.fb - 1)) := by
  rw [unpack_of_gt hf hz hm, Val.isSNaN, decide_eq_decide]
  omega

/-- R75: a quieted NaN packs to its pattern with the quiet bit. -/
theorem pack_quiet_unpack : pack f .rne (unpack f z).quiet = (z ||| 2 ^ (f.fb - 1), 0) := by
  have hpat := pattern_eq hz
  have hlt : z % f.signBit < f.signBit := Nat.mod_lt _ (Nat.two_pow_pos _)
  have hfr : z % f.signBit - f.infPat < 2 ^ f.fb := by have := f.infPat_add; omega
  have hq : 2 ^ (f.fb - 1) < 2 ^ f.fb := Nat.pow_lt_pow_right (by decide) (by have := hf.fb_pos; omega)
  rw [unpack_of_gt hf hz hm]
  simp only [Val.quiet, pack, packNaN, hf.sat, Bool.false_eq_true, if_false, decide_eq_true_eq]
  rw [Nat.or_assoc, Nat.or_self, quiet_frac hf.fb_pos hf.fb_le]
  obtain ⟨k, hk⟩ : 2 ^ f.fb ∣ (if f.signBit ≤ z then f.signBit else 0) + f.infPat := by
    refine (Nat.dvd_add_right ?_).2 (Dvd.intro_left _ rfl)
    split
    · exact Dvd.intro_left _ f.signBit_eq.symm
    · exact dvd_zero _
  have hz' : z = k * 2 ^ f.fb + (z % f.signBit - f.infPat) := by rw [Nat.mul_comm k, ← hk]; omega
  have hor : z ||| 2 ^ (f.fb - 1) = k * 2 ^ f.fb + ((z % f.signBit - f.infPat) ||| 2 ^ (f.fb - 1)) := by
    rw [← mul_two_pow_add_or k hfr hq, ← hz']
  rw [hor, Nat.mul_comm k, ← hk, Nat.add_assoc]

end

/-! ### Immediates -/

/-- The same number over a greater exponent. -/
def Val.over (v w : Val) : Bool := match v, w with
  | .fin n m e, .fin n' m' e' => n = n' ∧ e' ≤ e ∧ (m = 0 ∧ m' = 0 ∨ m * 2 ^ (e - e').toNat = m')
  | _, _ => false

/-- A number over another exponent has the same encoding when it packs to it. -/
theorem FFmt.Encodes.of_over {f : FFmt} {z : Nat} {v w : Val} (h : f.Encodes z w) (hv : v.over w = true) (hp : pack f .rne v = (z, 0)) :
    f.Encodes z v := by
  cases v with
  | nan => exact nomatch hv
  | inf => exact nomatch hv
  | fin n m e =>
    cases w with
    | nan => exact nomatch hv
    | inf => exact nomatch hv
    | fin n' m' e' =>
      obtain ⟨rfl, he, hm⟩ := of_decide_eq_true hv
      have hr := h.range
      dsimp only at hr
      refine ⟨h.lt, ⟨hr.1.trans he, hr.2⟩, rfl, ?_, h.neg, hp⟩
      rw [← h.units]
      rcases hm with ⟨rfl, rfl⟩ | rfl
      · simp [FFmt.units]
      · exact f.units_fin_eq n m hr.1 he

/-- What an immediate must satisfy to enter as the pattern of its exact integer. -/
def FFmt.TakesInt (f : FFmt) (i : Int) : Prop :=
  let p := ofInteger f .rne i
  p.2 = 0 ∧ p.1 < 2 * f.signBit ∧ p.1 % f.signBit ≤ f.infPat ∧ (ofInt false i 0).over (unpack f p.1) = true

theorem FFmt.TakesInt.encodes {f : FFmt} (hf : f.Ieee) {i : Int} (h : f.TakesInt i) : f.Encodes (ofInteger f .rne i).1 (ofInt false i 0) := by
  obtain ⟨hfl, hlt, hle, hover⟩ := h
  exact (encodes_unpack hf hlt hle).of_over hover (Prod.ext rfl hfl)

theorem takesInt_f64 (i : BitVec 5) : f64.TakesInt i.toInt := by
  revert i
  unfold FFmt.TakesInt
  decide

theorem takesInt_f32 (i : BitVec 5) : f32.TakesInt i.toInt := by
  revert i
  unfold FFmt.TakesInt
  decide

/-! ### Operands -/

/-- R73: a pattern is a NaN, and one that signals. -/
abbrev FFmt.IsNaN (f : FFmt) (z : Nat) : Prop := f.infPat < z % f.signBit
abbrev FFmt.IsSNaN (f : FFmt) (z : Nat) : Prop := f.IsNaN z ∧ z % f.signBit < f.infPat + 2 ^ (f.fb - 1)

/-- R75: the flags of an operation that only a signalling NaN makes invalid. -/
def FFmt.nanFlags (f : FFmt) (x y : Nat) : Flg := if f.IsSNaN x ∨ f.IsSNaN y then NV else 0

/-- An operand `v` that enters as the pattern `z`. -/
structure FFmt.Reads (f : FFmt) (z : Nat) (v : Val) : Prop where
  lt : z < 2 * f.signBit
  value : ¬ f.IsNaN z → f.Encodes z v
  nan : f.IsNaN z → v = unpack f z

section
variable {f : FFmt} (hf : f.Ieee)
include hf

theorem reads_unpack {z : Nat} (hz : z < 2 * f.signBit) : f.Reads z (unpack f z) :=
  ⟨hz, fun h => encodes_unpack hf hz (Nat.not_lt.1 h), fun _ => rfl⟩

theorem FFmt.TakesInt.reads {i : Int} (h : f.TakesInt i) : f.Reads (ofInteger f .rne i).1 (ofInt false i 0) := by
  obtain ⟨-, hlt, hle, -⟩ := id h
  exact ⟨hlt, fun _ => h.encodes hf, fun hn => absurd hn hle.not_gt⟩

variable {x y : Nat} {a b : Val} (ha : f.Reads x a) (hb : f.Reads y b)
include ha

theorem FFmt.Reads.isNaN : a.isNaN = true ↔ f.IsNaN x := by
  by_cases h : f.IsNaN x
  · rw [ha.nan h, isNaN_unpack hf ha.lt h]
    simp [h]
  · simp [(ha.value h).notNaN, h]

theorem FFmt.Reads.isSNaN : a.isSNaN = true ↔ f.IsSNaN x := by
  by_cases h : f.IsNaN x
  · rw [ha.nan h, isSNaN_unpack hf ha.lt h]
    simp [FFmt.IsSNaN, h]
  · have := (ha.value h).notNaN
    cases a with
    | nan => cases this
    | inf => simp [Val.isSNaN, FFmt.IsSNaN, h]
    | fin => simp [Val.isSNaN, FFmt.IsSNaN, h]

include hb

theorem flagIf_isSNaN : flagIf (a.isSNaN || b.isSNaN) NV = f.nanFlags x y := by
  simp only [flagIf, FFmt.nanFlags, Bool.or_eq_true, ha.isSNaN hf, hb.isSNaN hf]

/-- R74, R75: MIN and MAX of a NaN operand give the first one quieted. -/
theorem packR_minmaxV_nan (mx : Bool) (h : f.IsNaN x ∨ f.IsNaN y) : packR f .rne (minmaxV mx a b) =
    ((if f.IsNaN x then x else y) ||| 2 ^ (f.fb - 1), f.nanFlags x y) := by
  have hfirst : firstNaN [a, b] = some (unpack f (if f.IsNaN x then x else y)).quiet := by
    by_cases hx : f.IsNaN x
    · simp [firstNaN, hx, (ha.isNaN hf).2 hx, ← ha.nan hx]
    · have hy := h.resolve_left hx
      simp [firstNaN, hx, (ha.isNaN hf).not.2 hx, (hb.isNaN hf).2 hy, ← hb.nan hy]
  have hpack : pack f .rne (unpack f (if f.IsNaN x then x else y)).quiet =
      ((if f.IsNaN x then x else y) ||| 2 ^ (f.fb - 1), 0) := by
    by_cases hx : f.IsNaN x
    · rw [if_pos hx, pack_quiet_unpack hf ha.lt hx]
    · rw [if_neg hx, pack_quiet_unpack hf hb.lt (h.resolve_left hx)]
  rw [minmaxV, hfirst]
  dsimp only
  rw [packR, hpack, flagIf_isSNaN hf ha hb]
  exact congrArg (Prod.mk _) BitVec.zero_or

/-- R75, R110: a comparison with a NaN holds for ne only. -/
theorem quietCmp_nan (cc : Cond) (h : f.IsNaN x ∨ f.IsNaN y) : Vec.quietCmp cc a b = (decide (cc = .ne), f.nanFlags x y) := by
  have hn : (a.isNaN || b.isNaN) = true := by rw [Bool.or_eq_true, ha.isNaN hf, hb.isNaN hf]; exact h
  rw [Vec.quietCmp, if_pos hn, flagIf_isSNaN hf ha hb, beq_eq_decide]

end

end Sys2Proof.Num
end

section
/-! PROOFS. MIN, MAX and CMP of integers and floats, with CHK, SEL, MOV and PLOG (R74, R75, R110, R111). -/
namespace Sys2Proof.Machine
open Sys2Proof.Num

section
variable {s : State} {g : Guard} (hr : Runs s g) {t : Ty} (d a b c : Opnd)
include hr

theorem exec_cmp (cc : Cond) (p : Fin 8) {r : Bool} {fl : Flg} (h : compare_ s t cc a b = (r, fl)) :
    exec (.cmp g t cc p a b) s = .next ((s.putP p r).flag fl) := by
  show guarded s _ g (let (r, fl) := compare_ s t cc a b; .ok ((s.putP p r).flag fl)) = _
  rw [guarded_runs hr, h, finish_ok]

theorem exec_min : exec (.min g t d a b) s = finish s (minMax s t false d a b) := guarded_runs hr _ _
theorem exec_max : exec (.max g t d a b) s = finish s (minMax s t true d a b) := guarded_runs hr _ _

theorem exec_sel (p : Fin 8) : exec (.sel g d a b p) s = .next (s.written d (if s.rp p then s.src a else s.src b)) := by
  show guarded s _ g _ = _
  rw [guarded_runs hr, dst_written hr.2, finish_ok]

theorem exec_mov : exec (.mov g d a) s = .next (s.written d (s.src a)) := by
  show guarded s _ g _ = _
  rw [guarded_runs hr, dst_written hr.2, finish_ok]

theorem exec_plog (fn : PlogFn) (p q : Fin 8) (r : Option (Fin 8)) :
    exec (.plog g fn p q r) s = .next (s.putP p (plogFn fn (s.rp q) (r.elim false s.rp))) := guarded_runs hr _ _

section
variable (ht : t.isInt = true)
include ht

theorem finish_minMax_int (mx : Bool) : finish s (minMax s t mx d a b) =
    .next (s.result d (tyPut t (if mx then max (tyVal t (s.src a)) (tyVal t (s.src b)) else min (tyVal t (s.src a)) (tyVal t (s.src b)))) 0) := by
  rw [minMax, if_pos ht, int_eq_of_isInt s ht, int_eq_of_isInt s ht]
  dsimp only
  rw [finish_putInt hr ht]
  congr 3
  cases mx <;> simp [min_def, max_def] <;> split <;> split <;> omega

theorem exec_cmp_int (cc : Cond) (p : Fin 8) :
    exec (.cmp g t cc p a b) s = .next ((s.putP p (intCond cc (tyVal t (s.src a)) (tyVal t (s.src b)))).flag 0) := by
  apply exec_cmp hr
  rw [compare_, if_pos ht, condHolds_compare, int_eq_of_isInt s ht, int_eq_of_isInt s ht]

omit hr in
/-- R111: the pattern that a failed check reports is the operand's value extended by the type. -/
theorem putWord_pat (o : Opnd) : putWord t (s.pat t o) = tyPut t (tyVal t (s.src o)) := by
  have hlt : s.pat t o < 2 ^ t.bits := by simpa only [intTy_of_isInt ht] using pat_lt s t o
  rw [← int_eq_of_isInt s ht, ← putWord_wrap_of_isInt ht, State.int, intTy_of_isInt ht, wrap_intVal hlt]

theorem exec_chk : exec (.chk g t a b c) s =
    if tyVal t (s.src b) ≤ tyVal t (s.src a) ∧ tyVal t (s.src a) < tyVal t (s.src c) then .next s
    else .next (takeTrap s ⟨0x1F, tyPut t (tyVal t (s.src a)), tyPut t (tyVal t (s.src c)), none⟩) := by
  show guarded s _ g _ = _
  rw [guarded_runs hr, int_eq_of_isInt s ht, int_eq_of_isInt s ht, int_eq_of_isInt s ht, putWord_pat ht, putWord_pat ht]
  split
  · exact finish_ok s s
  · exact finish_raise s _ _ _

end

end

/-! ### Floating operands (R110) -/

/-- R110: the pattern of a floating operand: a register's low bits, an immediate's exact integer. -/
def fltPat (s : State) (t : Ty) : Opnd → Nat
  | .imm i => (ofInteger (fmtOf t) .rne i.toInt).1
  | o => (s.src o).toNat % 2 ^ t.bits

/-- R73: the two formats of the scalar forms. -/
theorem fmtOf_scalar {t : Ty} (h : t = .f64 ∨ t = .f32) : (fmtOf t).Ieee ∧ t.isInt = false ∧ (∀ i : BitVec 5, (fmtOf t).TakesInt i.toInt) ∧
    2 * (fmtOf t).signBit = 2 ^ t.bits := by
  rcases h with rfl | rfl
  · exact ⟨ieee_f64, rfl, takesInt_f64, rfl⟩
  · exact ⟨ieee_f32, rfl, takesInt_f32, rfl⟩

/-- R73: the weight of the sign, the pattern of infinity and the fraction bits of the two formats. -/
theorem scalar_format {t : Ty} (h : t = .f64 ∨ t = .f32) : (fmtOf t).signBit = 2 ^ (t.bits - 1) ∧
    (fmtOf t).infPat = 2 ^ (t.bits - 1) - 2 ^ (if t = .f64 then 52 else 23) ∧ (fmtOf t).fb = if t = .f64 then 52 else 23 := by
  rcases h with rfl | rfl
  · exact ⟨rfl, rfl, rfl⟩
  · exact ⟨rfl, rfl, rfl⟩

section
variable {s : State} {t : Ty} (ht : t = .f64 ∨ t = .f32)
include ht

theorem flt_reads (o : Opnd) : (fmtOf t).Reads (fltPat s t o) (s.flt t o) := by
  obtain ⟨hf, -, himm, hbits⟩ := fmtOf_scalar ht
  have hreg (w : Word) : (fmtOf t).Reads (w.toNat % 2 ^ t.bits) (unpack (fmtOf t) (w.toNat % 2 ^ t.bits)) :=
    reads_unpack hf (by rw [hbits]; exact Nat.mod_lt _ (Nat.two_pow_pos _))
  cases o with
  | imm i =>
    show (fmtOf t).Reads _ (ofInt false (Bits.sx 5 i.toNat) 0)
    rw [sx_toInt (by decide)]
    exact (himm i).reads hf
  | _ => exact hreg _

variable {g : Guard} (hr : Runs s g) (d a b : Opnd)
include hr

/-- R110: MIN and MAX of a floating type put the packed choice. -/
theorem finish_minMax_flt (mx : Bool) {p : Nat} {fl : Flg} (h : packR (fmtOf t) .rne (minmaxV mx (s.flt t a) (s.flt t b)) = (p, fl)) :
    finish s (minMax s t mx d a b) = .next (s.result d (BitVec.ofNat 64 p) fl) := by
  obtain ⟨-, hint, -, -⟩ := fmtOf_scalar ht
  rw [minMax, hint, h]
  simp only [dst_written hr.2]
  rfl

theorem finish_minMax_of_not_nan (mx : Bool) (ha : ¬ (fmtOf t).IsNaN (fltPat s t a)) (hb : ¬ (fmtOf t).IsNaN (fltPat s t b)) :
    finish s (minMax s t mx d a b) = .next (s.result d (BitVec.ofNat 64
      (if (fmtOf t).key (fltPat s t a) < (fmtOf t).key (fltPat s t b) then (if mx then fltPat s t b else fltPat s t a)
        else if mx then fltPat s t a else fltPat s t b)) 0) :=
  finish_minMax_flt ht hr d a b mx (packR_minmaxV (fmtOf_scalar ht).1 ((flt_reads ht a).value ha) ((flt_reads ht b).value hb) mx)

theorem finish_minMax_of_nan (mx : Bool) (h : (fmtOf t).IsNaN (fltPat s t a) ∨ (fmtOf t).IsNaN (fltPat s t b)) :
    finish s (minMax s t mx d a b) = .next (s.result d (BitVec.ofNat 64
      ((if (fmtOf t).IsNaN (fltPat s t a) then fltPat s t a else fltPat s t b) ||| 2 ^ ((fmtOf t).fb - 1)))
      ((fmtOf t).nanFlags (fltPat s t a) (fltPat s t b))) :=
  finish_minMax_flt ht hr d a b mx (packR_minmaxV_nan (fmtOf_scalar ht).1 (flt_reads ht a) (flt_reads ht b) mx h)

theorem exec_cmp_flt (cc : Cond) (p : Fin 8) {r : Bool} {fl : Flg} (h : Vec.quietCmp cc (s.flt t a) (s.flt t b) = (r, fl)) :
    exec (.cmp g t cc p a b) s = .next ((s.putP p r).flag fl) := by
  obtain ⟨-, hint, -, -⟩ := fmtOf_scalar ht
  apply exec_cmp hr
  rw [compare_, hint]
  exact h

theorem exec_cmp_of_not_nan (cc : Cond) (p : Fin 8) (ha : ¬ (fmtOf t).IsNaN (fltPat s t a)) (hb : ¬ (fmtOf t).IsNaN (fltPat s t b)) :
    exec (.cmp g t cc p a b) s = .next ((s.putP p (intCond cc ((fmtOf t).num (fltPat s t a)) ((fmtOf t).num (fltPat s t b)))).flag 0) :=
  exec_cmp_flt ht hr a b cc p (quietCmp_eq (fmtOf_scalar ht).1 ((flt_reads ht a).value ha) ((flt_reads ht b).value hb) cc)

theorem exec_cmp_of_nan (cc : Cond) (p : Fin 8) (h : (fmtOf t).IsNaN (fltPat s t a) ∨ (fmtOf t).IsNaN (fltPat s t b)) :
    exec (.cmp g t cc p a b) s = .next ((s.putP p (decide (cc = .ne))).flag ((fmtOf t).nanFlags (fltPat s t a) (fltPat s t b))) :=
  exec_cmp_flt ht hr a b cc p (quietCmp_nan (fmtOf_scalar ht).1 (flt_reads ht a) (flt_reads ht b) cc h)

end

end Sys2Proof.Machine

open Sys2Proof Sys2Proof.Machine Sys2Proof.Num

/-- Settles O15: an integer form by its type's value; a floating one by the place of the operands' patterns, whose values are ordered alike
and pack to them again; a NaN is quieted. -/
theorem scalarCompare : Obligations.ScalarCompare := by
  unfold Obligations.ScalarCompare
  refine ⟨fun g t d a b c s hr => ⟨fun ht => ⟨?_, ?_, ?_, ?_, ?_⟩, exec_sel hr d a b, exec_mov hr d a, fun fn p q r => ?_, fun p q => ?_⟩,
    fun g t d a b s hr ht => ?_⟩
  · rw [exec_min hr, finish_minMax_int hr d a b ht]; rfl
  · rw [exec_max hr, finish_minMax_int hr d a b ht]; rfl
  · exact exec_cmp_int hr a b ht
  · intro h
    rw [exec_chk hr a b c ht, if_pos h]
  · intro h
    rw [exec_chk hr a b c ht, if_neg h]
  · rw [exec_plog hr, Option.elim_some]
    generalize s.rp q = x
    generalize s.rp r = y
    cases fn <;> cases x <;> cases y <;> rfl
  · exact exec_plog hr .not p q none
  · obtain ⟨hsign, hinf, hfb⟩ := scalar_format ht
    intro n fb pat x y mag inf nan sig key num fl quiet
    have hx : x = fltPat s t a := by cases a <;> rfl
    have hy : y = fltPat s t b := by cases b <;> rfl
    have hkey : key = (fmtOf t).key := by funext z; rw [FFmt.key, hsign]
    have hnum : num = (fmtOf t).num := by funext z; rw [FFmt.num, hsign, ← hkey]
    have hnan : nan = (fmtOf t).IsNaN := by funext z; rw [FFmt.IsNaN, hsign, hinf]
    have hsig : sig = (fmtOf t).IsSNaN := by funext z; rw [FFmt.IsSNaN, FFmt.IsNaN, hsign, hinf, hfb]
    have hfl : fl = (fmtOf t).nanFlags x y := if_congr (by rw [hsig]) rfl rfl
    have hquiet : quiet = fun z => BitVec.ofNat 64 (z ||| 2 ^ ((fmtOf t).fb - 1)) := by funext z; rw [hfb]
    refine ⟨fun hnx hny => ?_, fun h => ?_⟩
    · rw [hnan, hx] at hnx
      rw [hnan, hy] at hny
      rw [hkey, hnum, hx, hy]
      refine ⟨?_, ?_, fun cc p => exec_cmp_of_not_nan ht hr a b cc p hnx hny⟩
      · rw [exec_min hr, finish_minMax_of_not_nan ht hr d a b false hnx hny]
        rfl
      · rw [exec_max hr, finish_minMax_of_not_nan ht hr d a b true hnx hny]
        rfl
    · rw [hnan, hx, hy] at h
      have hput (mx : Bool) : finish s (minMax s t mx d a b) = .next (s.result d (if nan x then quiet x else quiet y) fl) := by
        rw [finish_minMax_of_nan ht hr d a b mx h, hfl, hx, hy, hquiet]
        by_cases hn : (fmtOf t).IsNaN (fltPat s t a)
        · rw [if_pos hn, if_pos (by rw [hnan]; exact hn)]
        · rw [if_neg hn, if_neg (by rw [hnan]; exact hn)]
      refine ⟨fun i hi => ?_, fun cc p => ?_⟩
      · rcases List.mem_pair.1 hi with rfl | rfl
        · rw [exec_min hr, hput]
        · rw [exec_max hr, hput]
      · rw [hfl, hx, hy]
        exact exec_cmp_of_nan ht hr a b cc p h

end

section
/-! PROOFS. The line operations and XLAT (R130 to R132). -/
namespace Sys2Proof.Machine

theorem mem_insertNat {x y : Nat} {xs : List Nat} : y ∈ insertNat x xs ↔ y = x ∨ y ∈ xs := by
  induction xs with
  | nil => simp [insertNat]
  | cons z zs ih =>
    unfold insertNat
    split
    · simp
    · split
      · next h => simp [h]
      · simp only [List.mem_cons, ih]
        tauto

theorem mem_foldl_insertNat {y : Nat} (xs ds : List Nat) : y ∈ xs.foldl (fun ds x => insertNat x ds) ds ↔ y ∈ xs ∨ y ∈ ds := by
  induction xs generalizing ds with
  | nil => simp
  | cons x xs ih =>
    rw [List.foldl_cons, ih, mem_insertNat, List.mem_cons]
    tauto

/-- R131: the discard bits after n lines from line l have been marked or cleared. -/
def discMarked (clear : Bool) (l n : Nat) (ds : List Nat) : List Nat :=
  if clear then ds.filter (fun x => !(l ≤ x && x < l + n)) else ((List.range n).map (fun j => l + j)).foldl (fun ds x => insertNat x ds) ds

theorem mem_discMarked {clear : Bool} {l n x : Nat} {ds : List Nat} :
    x ∈ discMarked clear l n ds ↔ if l ≤ x ∧ x < l + n then clear = false else x ∈ ds := by
  cases clear with
  | true =>
    simp only [discMarked, if_true, List.mem_filter, Bool.not_eq_true', Bool.and_eq_false_iff, decide_eq_false_iff_not]
    split <;> grind
  | false =>
    simp only [discMarked, Bool.false_eq_true, if_false, mem_foldl_insertNat, List.mem_map, List.mem_range]
    have hline : (∃ j, j < n ∧ l + j = x) ↔ l ≤ x ∧ x < l + n :=
      ⟨by rintro ⟨j, hj, rfl⟩; omega, fun h => ⟨x - l, by omega, by omega⟩⟩
    rw [hline]
    split <;> simp_all

section
variable {s : State} {g : Guard} (hr : Runs s g) {m : Mem}
include hr

theorem exec_pref (slice : Bool) (m : Mem) : exec (.pref g slice m) s = .next s := guarded_runs hr _ _

/-- R130: WBL of a line that the core's L1 does not hold dirty. -/
theorem exec_wbl_clean {s1 : State} {pa : Nat} (hcheck : checkEA s (s.ea m) 1 .read = .ok (s1, pa))
    (h : offCore s1 pa = false ∨ pa / 64 ∉ s1.core.stored ∨ (s1.getLine (pa / 64)).dirty = none) (inv : Bool) :
    exec (.wbl g inv m) s = .next s1 := by
  have hskip : (!offCore s1 pa || !s1.core.stored.contains (pa / 64) || (s1.getLine (pa / 64)).dirty.isNone) = true := by
    rcases h with h | h | h <;> simp [h]
  refine (guarded_runs hr _ _).trans ?_
  simp only [hcheck, bind, Except.bind]
  rw [if_pos hskip]
  rfl

/-- R130, R154: WBL of a line that the core's L1 holds dirty. -/
theorem exec_wbl_dirty {s1 : State} {pa : Nat} (hcheck : checkEA s (s.ea m) 1 .read = .ok (s1, pa))
    (hoff : offCore s1 pa = true) (hstored : pa / 64 ∈ s1.core.stored) (hdirty : (s1.getLine (pa / 64)).dirty ≠ none) (inv : Bool) :
    exec (.wbl g inv m) s = .next (if inv then (writeBackLine s1 (pa / 64)).updCore (fun c => { c with leases := mdel (pa / 64) c.leases })
      else writeBackLine s1 (pa / 64)) := by
  have hmake : ¬ (!offCore s1 pa || !s1.core.stored.contains (pa / 64) || (s1.getLine (pa / 64)).dirty.isNone) = true := by
    simp [hoff, hstored, hdirty]
  refine (guarded_runs hr _ _).trans ?_
  simp only [hcheck, bind, Except.bind]
  rw [if_neg hmake]
  rfl

/-- R131: DISC of whole lines of the own scratchpad. -/
theorem exec_disc {c : Fin 32} {b : Nat} (hnear : nearOff (s.ea m).toNat = some b) (halign : b % 64 = 0) (hwhole : (s.rs c).toNat % 64 = 0)
    (hsize : b + (s.rs c).toNat ≤ padSize s s.coreKey) (hlen : 0 < (s.rs c).toNat) (clear : Bool) :
    exec (.disc g clear c m) s =
      .next (s.updCore (fun k => { k with discardBits := discMarked clear (b / 64) ((s.rs c).toNat / 64) k.discardBits })) := by
  refine (guarded_runs hr _ _).trans ?_
  rw [if_neg (by omega), hnear]
  dsimp only
  rw [if_neg (by simp [halign, hwhole]), if_neg (by omega)]
  rfl

theorem exec_xlat (kind : XlatKind) (d : Fin 32) (m : Mem) : exec (.xlat g kind d m) s = finish s (
    match checkEA s (s.ea m) 1 (kindOf kind) with
    | .ok (s, pa) => .ok (countRemote (s.putS d (BitVec.ofNat 64 pa)))
    | .error (.trap t) => .ok (countRemote (s.putS d (BitVec.ofNat 64 (2 ^ 63 + t.cause))))
    | .error (.after s t) => .ok (countRemote (s.putS d (BitVec.ofNat 64 (2 ^ 63 + t.cause))))
    | .error e => .error e) := guarded_runs hr _ _

end

/-- R130, R154: a line written back is in no L1 dirty; lease copies stay, and memory changes by its log entry only. -/
theorem writeBackLine_core {s : State} {l : Nat} (h : (s.getLine l).dirty ≠ none) :
    (writeBackLine s l).core = { s.core with stored := s.core.stored.filter (fun y => y != l) } ∧
    (writeBackLine s l).mem = (logLine s (s.getLine l).writer l).mem := by
  obtain ⟨b, hb⟩ := Option.ne_none_iff_exists'.mp h
  rw [writeBackLine_dirty hb]
  refine ⟨?_, rfl⟩
  have hcur : (cleanL1 ((logLine s (s.getLine l).writer l).setLine l { s.getLine l with dirty := none }) l).cur = s.cur := logLine_cur _ _ _
  have hcore : ((logLine s (s.getLine l).writer l).setLine l { s.getLine l with dirty := none }).getCore (s.cur / 4) = s.core := by
    show mget Core.reset (s.cur / 4) (logLine s _ l).cores = _
    rw [logLine_cores]
    rfl
  rw [State.core, State.coreKey, hcur, getCore_cleanL1, hcore]

end Sys2Proof.Machine

open Sys2Proof Sys2Proof.Machine

/-- Settles O24: PREF and a clean line's WBL store nothing; a dirty line's WBL logs it and cleans it; DISC's lines are a run; XLAT answers what the check of one
byte answers. -/
theorem lineForms : Obligations.LineForms := by
  unfold Obligations.LineForms
  refine fun g m s hr => ⟨fun slice => exec_pref hr slice m, fun inv s1 pa hcheck => ⟨fun h => exec_wbl_clean hr hcheck h inv, fun hoff hstored hdirty => ?_⟩,
    fun clear c b hnear halign hwhole hsize hlen => ?_, fun kind d s1 pa hcheck => ?_, fun kind d t hcheck => ?_, fun kind d s1 t hcheck => ?_,
    fun kind d t hcheck => ?_, fun kind d b hkind hnear hsize hpkg => ?_⟩
  · obtain ⟨hcore, hmem⟩ := writeBackLine_core hdirty
    have hclean := writeBackLine_same s1 (pa / 64)
    have hread (a : Nat) (h : ∀ u, faultRec s1 (s1.getLine (pa / 64)).writer 1 = some u → a < u ∨ u + 8 ≤ a)
        (hlog : a ∉ logEntry s1 (s1.getLine (pa / 64)).writer (s1.getGang (s1.getLine (pa / 64)).writer).log.length) :
        (writeBackLine s1 (pa / 64)).mem.read a = s1.mem.read a :=
      (congrArg (Memory.read · a) hmem).trans (logLine_read s1 _ (pa / 64) a h hlog)
    refine ⟨_, exec_wbl_dirty hr hcheck hoff hstored hdirty inv, ?_⟩
    cases inv with
    | true =>
      simp only [if_true, State.core_updCore, hcore]
      exact ⟨hclean, by simp, trivial, hread⟩
    | false =>
      simp only [Bool.false_eq_true, if_false, hcore]
      exact ⟨hclean, by simp, trivial, hread⟩
  · refine ⟨_, exec_disc hr hnear halign hwhole hsize hlen clear, rfl, fun x => ?_⟩
    rw [State.core_updCore]
    exact mem_discMarked
  · rw [exec_xlat hr, hcheck]
    rfl
  · rw [exec_xlat hr, hcheck]
    rfl
  · rw [exec_xlat hr, hcheck]
    rfl
  · rw [exec_xlat hr, hcheck]
  · have hcheck : checkEA s (s.ea m) 1 (kindOf kind) = .ok (s, s.padAt b) :=
      (checkEA_near hpkg hnear (Nat.mod_one _) (by cases kind <;> simp_all [kindOf])).trans (if_pos hsize)
    rw [exec_xlat hr, hcheck]
    rfl
end

section
/-! PROOFS. A gang's addresses depend on its tables alone (R116 to R119, R346). -/
namespace Sys2Proof.Machine

/-- What the translation of a gang's addresses reads is the same: memory, control space, gangs, and of each core its cached translations,
its root and its split. -/
structure SameTables (s t : State) : Prop where
  mem : t.mem = s.mem
  ctrl : t.ctrl = s.ctrl
  gangs : t.gangs = s.gangs
  core : ∀ k, (t.getCore k).tlb = (s.getCore k).tlb ∧ (t.getCore k).root = (s.getCore k).root ∧ (t.getCore k).split = (s.getCore k).split

namespace SameTables

variable {s t : State} (h : SameTables s t)
include h

theorem getGang_eq (g : Nat) : t.getGang g = s.getGang g := by rw [State.getGang, h.gangs, State.getGang]

theorem setCore (k : Nat) (c : Core) : SameTables (s.setCore k c) (t.setCore k c) := by
  refine ⟨h.mem, h.ctrl, h.gangs, fun j => ?_⟩
  by_cases hj : j = k
  · rw [hj, State.getCore_setCore_same, State.getCore_setCore_same]
    exact ⟨rfl, rfl, rfl⟩
  · rw [State.getCore_setCore_ne _ _ _ _ hj, State.getCore_setCore_ne _ _ _ _ hj]
    exact h.core j

theorem inBounds_eq (k g pa : Nat) (f : Option TlbEntry) (near : Bool) : inBounds t k g pa f near = inBounds s k g pa f near := by
  unfold inBounds padSize
  rw [listed_congr h.ctrl, h.getGang_eq, (h.core _).2.2]

theorem xlateWith_eq' (k g va : Nat) (kind : Kind) (miss : Except Nat (Nat × Nat)) :
    xlateWith t k g va kind miss = xlateWith s k g va kind miss := by
  have hcached : cachedOr t k g va miss = cachedOr s k g va miss := by
    unfold cachedOr tlbHit
    rw [(h.core k).1, h.getGang_eq]
  rw [xlateWith_eq, xlateWith_eq, hcached]
  simp only [h.inBounds_eq, h.getGang_eq]

theorem xlate_eq (k g va : Nat) (kind : Kind) : xlate t k g va kind = xlate s k g va kind := by
  unfold xlate
  rw [h.mem, (h.core k).2.1, h.xlateWith_eq']

theorem rootedAt (g : Nat) : SameTables (rootedAt s g) (rootedAt t g) := by
  unfold Machine.rootedAt
  rw [h.getGang_eq]
  dsimp only
  split
  · exact h.setCore _ _
  · exact h

theorem gangPa_eq (g : Nat) (va : Word) : gangPa t g va = gangPa s g va := by
  unfold gangPa
  rw [h.getGang_eq, (h.rootedAt g).xlate_eq]

theorem faultRec_eq (g dw : Nat) : faultRec t g dw = faultRec s g dw := by
  unfold faultRec
  dsimp only
  rw [h.getGang_eq, h.gangPa_eq]

theorem logEntry_eq (g n : Nat) : logEntry t g n = logEntry s g n := by
  unfold logEntry
  simp only [h.getGang_eq, h.gangPa_eq]

end SameTables

end Sys2Proof.Machine
end

section
/-! PROOFS. What one store leaves of contexts and cores (R148, R152, R347, R348). -/
namespace Sys2Proof.Machine

/-- R347: the log is kept in memory and with the gang. -/
theorem logLine_split (s : State) (g l : Nat) : ∃ m x f, logLine s g l = { s with mem := m, gangs := x, free := f } := by
  unfold logLine
  extract_lets gang log
  split
  · exact ⟨_, _, _, rfl⟩
  · split
    · split <;> exact ⟨_, _, _, rfl⟩
    · exact ⟨_, _, _, rfl⟩

/-- R148, R340: besides memory, lines, reports and the log, bytes that are put change only which lines SNAP has yet to copy. -/
theorem putBytes_split (s : State) (g pa : Nat) (bs : List Byte) : ∃ ls m x f l r, putBytes s g pa bs =
    { (if paReg pa = 1 then s.setCore (padCore pa) { s.getCore (padCore pa) with snapLines := ls } else s) with
      mem := m, gangs := x, free := f, lines := l, reports := r } := by
  obtain ⟨m, x, f, hlog⟩ := logLine_split s g (pa / 64)
  refine ⟨insertNat (pa / 64) (s.getCore (padCore pa)).snapLines, ?_⟩
  unfold putBytes
  dsimp only
  rw [hlog]
  generalize hr : reportWrite _ _ _ _ = u
  obtain ⟨m', l', r', hu⟩ := hr ▸ reportWrite_homes _ _ _ _
  refine ⟨m', x, f, l', r', ?_⟩
  rw [hu]
  by_cases h0 : paReg pa = 0
  · rw [if_pos h0, if_neg (by omega), if_neg (by omega)]
    rfl
  · rw [if_neg h0]
    split <;> rfl

/-- Of contexts and cores, only the acting context's timestamp, the lines that cores hold dirty, and those that SNAP has yet to copy differ. -/
structure StoreFrame (s t : State) : Prop where
  cur : t.cur = s.cur
  grp : t.grp = s.grp
  steps : t.steps = s.steps
  ctx : ∃ p, t.ctx = { s.ctx with pts := p }
  others : ∀ k, k ≠ s.cur → t.getCtx k = s.getCtx k
  core : ∀ k, ∃ a b, t.getCore k = { s.getCore k with stored := a, snapLines := b }

theorem StoreFrame.refl (s : State) : StoreFrame s s := ⟨rfl, rfl, rfl, ⟨_, rfl⟩, fun _ _ => rfl, fun _ => ⟨_, _, rfl⟩⟩

theorem StoreFrame.trans {s t u : State} (h : StoreFrame s t) (h' : StoreFrame t u) : StoreFrame s u := by
  refine ⟨h'.cur.trans h.cur, h'.grp.trans h.grp, h'.steps.trans h.steps, ?_, fun k hk => ?_, fun k => ?_⟩
  · obtain ⟨p, hp⟩ := h.ctx
    obtain ⟨q, hq⟩ := h'.ctx
    exact ⟨q, by rw [hq, hp]⟩
  · rw [h'.others k (by rwa [h.cur]), h.others k hk]
  · obtain ⟨a, b, hab⟩ := h.core k
    obtain ⟨c, d, hcd⟩ := h'.core k
    exact ⟨c, d, by rw [hcd, hab]⟩

/-- A state whose contexts and cores are as before. -/
theorem storeFrame_of_eq {s t : State} (hcur : t.cur = s.cur) (hgrp : t.grp = s.grp) (hsteps : t.steps = s.steps) (hctxs : t.ctxs = s.ctxs)
    (hcores : t.cores = s.cores) : StoreFrame s t := by
  have hctx (k : Nat) : t.getCtx k = s.getCtx k := by rw [State.getCtx, hctxs, State.getCtx]
  exact ⟨hcur, hgrp, hsteps, ⟨_, by rw [State.ctx, hcur, hctx]; rfl⟩, fun k _ => hctx k, fun _ => ⟨_, _, by rw [State.getCore, hcores]; rfl⟩⟩

theorem storeFrame_setCore {s : State} {k : Nat} {a b : List Nat} :
    StoreFrame s (s.setCore k { s.getCore k with stored := a, snapLines := b }) := by
  refine ⟨rfl, rfl, rfl, ⟨_, rfl⟩, fun _ _ => rfl, fun j => ?_⟩
  by_cases hj : j = k
  · rw [hj, State.getCore_setCore_same]
    exact ⟨_, _, rfl⟩
  · rw [State.getCore_setCore_ne _ _ _ _ hj]
    exact ⟨_, _, rfl⟩

theorem putBytes_storeFrame (s : State) (g pa : Nat) (bs : List Byte) : StoreFrame s (putBytes s g pa bs) := by
  obtain ⟨ls, m, x, f, l, r, h⟩ := putBytes_split s g pa bs
  rw [h]
  refine StoreFrame.trans (t := if paReg pa = 1 then s.setCore (padCore pa) { s.getCore (padCore pa) with snapLines := ls } else s) ?_
    (storeFrame_of_eq rfl rfl rfl rfl rfl)
  split
  · exact storeFrame_setCore
  · exact .refl s

/-- R152: the state in which a store of the acting context has taken its timestamp, before its bytes are put. -/
def stamped (s : State) (pa : Nat) : State :=
  (storeHome s (pa / 64) s.ctx.pts).1.upd (fun c => { c with pts := (storeHome s (pa / 64) s.ctx.pts).2 })

theorem homeStep_eq (s : State) (pa : Nat) (bs : List Byte) : homeStep s pa bs = putBytes (stamped s pa) s.gangId pa bs := rfl

theorem stamped_ctx (s : State) (pa : Nat) : (stamped s pa).ctx = { s.ctx with pts := max s.ctx.pts ((s.getLine (pa / 64)).rts + 1) } :=
  State.ctx_upd _ _

theorem stamped_storeFrame (s : State) (pa : Nat) : StoreFrame s (stamped s pa) :=
  ⟨rfl, rfl, rfl, ⟨_, stamped_ctx s pa⟩, fun _ hk => State.getCtx_setCtx_ne _ _ _ _ hk, fun _ => ⟨_, _, rfl⟩⟩

theorem homeStep_storeFrame (s : State) (pa : Nat) (bs : List Byte) : StoreFrame s (homeStep s pa bs) :=
  (stamped_storeFrame s pa).trans (putBytes_storeFrame _ _ _ _)

/-- R130: the core's L1 holds the line of a store dirty. -/
def heldDirty (s : State) (pa : Nat) : State :=
  if paReg pa = 0 && s.core.split ≠ 12 then s.updCore (fun c => { c with stored := insertNat (pa / 64) c.stored }) else s

theorem storeStep_eq (s : State) (pa : Nat) (bs : List Byte) : storeStep s pa bs = homeStep (heldDirty s pa) pa bs := rfl

theorem heldDirty_storeFrame (s : State) (pa : Nat) : StoreFrame s (heldDirty s pa) := by
  unfold heldDirty
  split
  · exact storeFrame_setCore
  · exact .refl s

theorem storeStep_storeFrame (s : State) (pa : Nat) (bs : List Byte) : StoreFrame s (storeStep s pa bs) :=
  (heldDirty_storeFrame s pa).trans (homeStep_storeFrame _ _ _)

/-- R357: a store of a whole line clears its poison. -/
def unpoisoned (s : State) (pa n : Nat) : State :=
  if n = 64 && poisoned s pa then s.setLine (pa / 64) { s.getLine (pa / 64) with poison := false } else s

theorem unpoisoned_lines (s : State) (pa n : Nat) : ∃ l, unpoisoned s pa n = { s with lines := l } := by
  unfold unpoisoned
  split <;> exact ⟨_, rfl⟩

theorem unpoisoned_storeFrame (s : State) (pa n : Nat) : StoreFrame s (unpoisoned s pa n) := by
  obtain ⟨l, h⟩ := unpoisoned_lines s pa n
  rw [h]
  exact storeFrame_of_eq rfl rfl rfl rfl rfl

/-- R348: a store that stays in the gang is taken at once. -/
theorem storeAt_taken {s : State} {pa : Nat} (h : s.gangId = 0 ∨ leavesGang s.gang pa = false) (bs : List Byte) :
    storeAt s pa bs = storeStep (unpoisoned s pa bs.length) pa bs := by
  unfold storeAt
  dsimp only
  rw [if_neg (by rcases h with h | h <;> simp [h])]
  rfl

theorem storeAt_storeFrame (s : State) (pa : Nat) (bs : List Byte) : StoreFrame s (storeAt s pa bs) := by
  by_cases h : s.gangId = 0 ∨ leavesGang s.gang pa = false
  · rw [storeAt_taken h]
    exact (unpoisoned_storeFrame s pa _).trans (storeStep_storeFrame _ _ _)
  · obtain ⟨hg, hl⟩ := not_or.mp h
    rw [storeAt_kept bs hg (by simpa using hl)]
    exact storeFrame_of_eq rfl rfl rfl rfl rfl

/-- R152, R348: the state of a store that is taken at once, before its bytes are put. -/
def taking (s : State) (pa n : Nat) : State := stamped (heldDirty (unpoisoned s pa n) pa) pa

theorem storeAt_eq {s : State} {pa : Nat} (h : s.gangId = 0 ∨ leavesGang s.gang pa = false) (bs : List Byte) :
    storeAt s pa bs = putBytes (taking s pa bs.length) s.gangId pa bs := by
  have hgang : (heldDirty (unpoisoned s pa bs.length) pa).gangId = s.gangId := by
    obtain ⟨a, b, hcore⟩ := ((unpoisoned_storeFrame s pa bs.length).trans (heldDirty_storeFrame _ pa)).core s.coreKey
    have hcur := ((unpoisoned_storeFrame s pa bs.length).trans (heldDirty_storeFrame _ pa)).cur
    rw [State.gangId, State.core, State.coreKey, hcur]
    exact (congrArg Core.gang hcore :)
  rw [storeAt_taken h, storeStep_eq, homeStep_eq, hgang]
  rfl

theorem taking_sameTables (s : State) (pa n : Nat) : SameTables s (taking s pa n) := by
  have hframe : StoreFrame s (taking s pa n) :=
    ((unpoisoned_storeFrame s pa n).trans (heldDirty_storeFrame _ pa)).trans (stamped_storeFrame _ pa)
  have hrest : (taking s pa n).mem = s.mem ∧ (taking s pa n).ctrl = s.ctrl ∧ (taking s pa n).gangs = s.gangs := by
    obtain ⟨l, hl⟩ := unpoisoned_lines s pa n
    unfold taking heldDirty
    rw [hl]
    split <;> exact ⟨rfl, rfl, rfl⟩
  refine ⟨hrest.1, hrest.2.1, hrest.2.2, fun k => ?_⟩
  obtain ⟨a, b, h⟩ := hframe.core k
  rw [h]
  exact ⟨rfl, rfl, rfl⟩

/-- R347, R348: what a store that is taken at once leaves of memory. -/
theorem storeAt_read {s : State} {pa : Nat} (h : s.gangId = 0 ∨ leavesGang s.gang pa = false) {bs : List Byte} {a : Nat}
    (ha : a < pa ∨ pa + bs.length ≤ a) (hrec : ∀ u, faultRec s s.gangId 1 = some u → a < u ∨ u + 8 ≤ a)
    (hlog : a ∉ logEntry s s.gangId s.gang.log.length) : (storeAt s pa bs).mem.read a = s.mem.read a := by
  have htables := taking_sameTables s pa bs.length
  rw [storeAt_eq h, putBytes_read _ _ _ _ _ ha, htables.mem]
  · rwa [htables.faultRec_eq]
  · rw [htables.logEntry_eq, htables.getGang_eq]
    exact hlog

end Sys2Proof.Machine
end

section
/-! PROOFS. Stores (R127), and the load at the home after one (R151, R152). -/
namespace Sys2Proof.Machine

/-- R148: bytes put for no gang, or one whose log is not in memory, read back. -/
theorem storeStep_bytes {s : State} (hwf : s.mem.wf = true) (pa : Nat) (bs : List Byte) : (storeStep s pa bs).mem.bytes pa bs.length = bs := by
  rw [storeStep_eq, homeStep_eq]
  refine putBytes_bytes ?_ _ _ _
  unfold heldDirty
  split <;> exact hwf

theorem heldDirty_eq (s : State) (pa : Nat) : ∃ c, heldDirty s pa = { s with cores := c } := by
  unfold heldDirty
  split <;> exact ⟨_, rfl⟩

/-- R152: a store's timestamp is its context's or follows the line's last load. -/
theorem storeStep_pts (s : State) (pa : Nat) (bs : List Byte) : (storeStep s pa bs).ctx.pts = max s.ctx.pts ((s.getLine (pa / 64)).rts + 1) := by
  obtain ⟨c, hc⟩ := heldDirty_eq s pa
  obtain ⟨ls, m, x, f, l, r, hput⟩ := putBytes_split (stamped (heldDirty s pa) pa) (heldDirty s pa).gangId pa bs
  have hctx : (storeStep s pa bs).ctx = (stamped (heldDirty s pa) pa).ctx := by
    rw [storeStep_eq, homeStep_eq, hput]
    split <;> rfl
  rw [hctx, stamped_ctx, hc]
  rfl

/-- R151: a load at the home takes a timestamp that is not below its context's. -/
theorem homeLoad_pts_le (s : State) (pa : Nat) : s.ctx.pts ≤ (homeLoad s s.cur pa).ctx.pts := by
  have hcur : (homeLoad s s.cur pa).cur = s.cur := (homeLoad_sameTurn s s.cur pa).1
  rw [State.ctx, State.ctx, hcur]
  unfold homeLoad
  extract_lets k l r c t
  have ht : (t.getCtx s.cur).pts = max (s.getCtx s.cur).pts (s.getLine l).wts :=
    congrArg Ctx.pts (State.getCtx_setCtx_same r.1 s.cur { r.1.getCtx s.cur with pts := r.2 })
  have hle : (s.getCtx s.cur).pts ≤ (t.getCtx s.cur).pts := by rw [ht]; exact le_max_left _ _
  split
  · exact hle
  · exact hle

/-- R58: what an instruction whose guard holds does, where its effect goes on. -/
theorem guarded_ok {s t : State} {g : Guard} (hr : Runs s g) {i : Instr} {body : Res State} (h : body = .ok t) :
    guarded s i g body = .next t := by
  rw [guarded_runs hr, h]
  rfl

section
variable {s : State} {g : Guard} (hr : Runs s g) {t : Ty} {d : Opnd} {m : Mem} {r : Grant}
include hr

/-- R127: ST of an access that is granted. -/
theorem exec_st_granted (hgrant : Granted s (.st g t d m) (s.ea m) (t.bits / 8) (t.bits / 8) .write (decide (t.bits / 8 = 8)) r)
    (hwhole : Whole r.s) : exec (.st g t d m) s = .next (storeAt r.s r.pa (Bits.bytesLE (t.bits / 8) (s.src d).toNat)) := by
  obtain ⟨hok, hallowed, hpair⟩ := hgrant
  refine guarded_ok hr ?_
  rw [hok]
  refine (if_neg (by simp [hallowed])).trans ?_
  exact accessMessage_solo hpair hwhole.1 hwhole.2 _ _ _ _ _

/-- R122: a refused ST stores nothing. -/
theorem exec_st_refused (hok : grant s (.st g t d m) (s.ea m) (t.bits / 8) (t.bits / 8) .write (decide (t.bits / 8 = 8)) = .ok r)
    (hrefused : r.refused = true) : exec (.st g t d m) s = .next r.s := by
  refine guarded_ok hr ?_
  rw [hok]
  exact if_pos hrefused

end

end Sys2Proof.Machine

open Sys2Proof Sys2Proof.Machine

/-- Settles O22: a store that stays in the gang is its timestamp, its log entry and its bytes, and of contexts and cores it leaves all but the timestamp; a load
after it finds the bytes and a line that the store has stamped. -/
theorem stores : Obligations.Stores := by
  unfold Obligations.Stores
  refine ⟨fun g t d m s r hr => ⟨exec_st_granted hr, exec_st_refused hr⟩, fun s pa bs => ⟨fun hg hl => ?_, fun h => ?_⟩, fun s pa bs hwf _ => ?_⟩
  · rw [storeAt_kept bs hg hl]
    exact ⟨fun _ => rfl, congrArg Gang.kept (State.getGang_setGang_same _ _ _)⟩
  · obtain ⟨-, -, -, ⟨p, hctx⟩, hothers, -⟩ := storeAt_storeFrame s pa bs
    refine ⟨fun hwf => storeAt_bytes hwf bs h, fun a ha hrec hlog => storeAt_read h ha hrec hlog, hothers, ?_⟩
    rw [hctx]
    exact ⟨fun _ => rfl, rfl, rfl, rfl, rfl⟩
  · intro t
    have hpts : t.ctx.pts = max s.ctx.pts ((s.getLine (pa / 64)).rts + 1) := storeStep_pts s pa bs
    refine ⟨storeStep_bytes hwf pa bs, homeLoad_pts_le t pa, ?_, ?_⟩
    · rw [hpts]; exact le_max_left _ _
    · rw [hpts]; exact lt_max_of_lt_right (Nat.lt_succ_self _)
end

section
/-! PROOFS. The forms of a communication phase, and those that have no place in one (R126, R269, R271, R274, R278). -/
namespace Sys2Proof.Machine
open Sys2Proof.Laws

/-! ### Guards in a phase (R58, R98, R185) -/

/-- R58: the opcode of an instruction's word. -/
theorem opcode_slotOf {i : Instr} {f : Fields} (hi : i.fields = some f) : (slotOf i).toNat / 2 ^ 88 = f.op.toNat := by
  have hslot : slotOf i = f.slot := by simp [slotOf, encode_eq_slot, hi]
  have hop : f.slot.extractLsb' 88 8 = f.op := congrArg Fields.op (ofSlot_slot f)
  have hlt : f.slot.toNat / 2 ^ 88 < 2 ^ 8 := by have := f.slot.isLt; omega
  rw [hslot, ← hop, BitVec.extractLsb'_toNat, Nat.shiftRight_eq_div_pow, Nat.mod_eq_of_lt hlt]

section
variable {s : State} {g : Guard} (hg : s.guard g = true) {i : Instr} {f : Fields} (hi : i.fields = some f)
include hg hi

/-- R58: an instruction that may stand in a phase has its effect there. -/
theorem guarded_inPhase (hop : (barredAtDecode f.op.toNat || barred f.op.toNat) = false) (body : Res State) :
    guarded s i g body = finish s body := by
  obtain ⟨hdecode, hbarred⟩ := Bool.or_eq_false_iff.mp hop
  unfold guarded
  simp only [opcode_slotOf hi, hdecode, hbarred, hg, Bool.and_false, Bool.false_eq_true, if_false, Bool.not_true]

/-- R278: a form that has no place in a phase raises 0x6B with subcode 2. -/
theorem guarded_barred {p : Phase} (hp : s.core.phase = some p) (hop : barred f.op.toNat = true) (hprism : (decide (0xB0 ≤ f.op.toNat) && decide (f.op.toNat ≤ 0xBB)) = false)
    (body : Res State) : ∃ x y, guarded s i g body = .next (takeTrap s ⟨0x6B, x, y, none⟩) ∧ y.toNat % 256 = 2 := by
  have hin : s.inPhase = true := by simp [State.inPhase, hp]
  have hraise : raisePhase (α := State) s i 2 =
      raise 0x6B (slotInfo s i).1 (BitVec.ofNat 64 (2 + s.core.phase.elim 0 (·.pcc) % 65536 * 2 ^ 32)) := by
    unfold raisePhase
    simp only [opcode_slotOf hi, hprism, Bool.false_eq_true, if_false]
  refine ⟨(slotInfo s i).1, BitVec.ofNat 64 (2 + s.core.phase.elim 0 (·.pcc) % 65536 * 2 ^ 32), ?_, ?_⟩
  · unfold guarded
    simp only [opcode_slotOf hi, hop, hin, hg, Bool.true_and, Bool.not_true, Bool.false_eq_true, if_true, if_false, ite_self, hraise]
    rfl
  · rw [BitVec.toNat_ofNat]
    omega

end

/-! ### Lanes (R269, R274, R278) -/

/-- R278: cause 0x6A with its subcode. -/
theorem finish_raiseLane (s : State) (pcc : Nat) (stamp : Nat × Nat) (spec : BitVec 8) {sub : Nat} (hsub : sub < 256) (l : Latch) :
    ∃ x y, finish s (raiseLane pcc stamp spec sub l) = .next (takeTrap s ⟨0x6A, x, y, none⟩) ∧ y.toNat % 256 = sub := by
  refine ⟨_, _, rfl, ?_⟩
  rw [BitVec.toNat_ofNat]
  omega

/-- R269: a value sent on a lane changes the receiver's phase only. -/
theorem laneSend_frame {s t : State} {k : Nat} {p : Phase} {l : Link} {v : Word} {sent : BitVec 16} (h : laneSend s k p l v sent = some t) :
    t.mem = s.mem ∧ t.ctx = s.ctx := by
  unfold laneSend at h
  split at h
  · cases h
  · dsimp only at h
    split at h
    · split at h <;> cases h <;> exact ⟨rfl, rfl⟩
    · cases h
      exact ⟨rfl, rfl⟩

theorem laneSend_nowhere {s : State} {k : Nat} {p : Phase} {l : Link} (h : laneTarget p.dmap.toNat (k % 4096) l = none) (v : Word)
    (sent : BitVec 16) : laneSend s k p l v sent = none := by
  unfold laneSend
  rw [h]

section
variable {s : State} {g : Guard} (hg : s.guard g = true) {p : Phase} (hp : s.core.phase = some p) {l : Link} {stamp : BitVec 16}
include hg hp

theorem exec_xmit (a : Opnd) : exec (.xmit g l a stamp) s = finish s (do
    checkStamp p stamp.toNat 0 l.spec (openLatch s)
    s.laneWrite l (s.src a) (some (stamp.toNat, 0))) := by
  refine (guarded_inPhase hg (i := .xmit g l a stamp) rfl rfl _).trans ?_
  simp only [hp]

theorem exec_xrcv (d : Fin 32) (count : BitVec 8) : exec (.xrcv g d l stamp count) s = finish s (do
    checkStamp p stamp.toNat count.toNat l.spec (s.latch l)
    if !(s.latch l).pres || (s.latch l).sent.toNat + count.toNat ≠ stamp.toNat then raiseLane p.pcc (stamp.toNat, count.toNat) l.spec 2 (s.latch l)
    else return s.putS d (s.latch l).value) := by
  refine (guarded_inPhase hg (i := .xrcv g d l stamp count) rfl rfl _).trans ?_
  simp only [hp]

/-- R274: an X form at another cycle than its stamp. -/
theorem xForms_mistimed (h : p.pcc ≠ stamp.toNat) (a : Opnd) (d : Fin 32) (count : BitVec 8) :
    (∃ x y, exec (.xrcv g d l stamp count) s = .next (takeTrap s ⟨0x6A, x, y, none⟩) ∧ y.toNat % 256 = 1) ∧
    ∃ x y, exec (.xmit g l a stamp) s = .next (takeTrap s ⟨0x6A, x, y, none⟩) ∧ y.toNat % 256 = 1 := by
  rw [exec_xrcv hg hp, exec_xmit hg hp]
  unfold checkStamp
  rw [if_pos h, if_pos h]
  exact ⟨finish_raiseLane s _ _ _ (by decide) _, finish_raiseLane s _ _ _ (by decide) _⟩

section
variable (h : p.pcc = stamp.toNat)
include h

/-- R274: XMIT at its stamp writes its lane. -/
theorem exec_xmit_timely (a : Opnd) : exec (.xmit g l a stamp) s = finish s (s.laneWrite l (s.src a) (some (stamp.toNat, 0))) := by
  rw [exec_xmit hg hp]
  unfold checkStamp
  rw [if_neg (by simpa using h)]
  rfl

/-- R274: XRCV at its stamp takes its latch. -/
theorem exec_xrcv_timely (d : Fin 32) (count : BitVec 8) : exec (.xrcv g d l stamp count) s = finish s (
    if !(s.latch l).pres || (s.latch l).sent.toNat + count.toNat ≠ stamp.toNat then raiseLane p.pcc (stamp.toNat, count.toNat) l.spec 2 (s.latch l)
    else return s.putS d (s.latch l).value) := by
  rw [exec_xrcv hg hp]
  unfold checkStamp
  rw [if_neg (by simpa using h)]
  rfl

/-- R269: a lane that has been written in this cycle. -/
theorem exec_xmit_twice (hw : ∃ x ∈ p.written, x.1 = l) (a : Opnd) :
    ∃ x y, exec (.xmit g l a stamp) s = .next (takeTrap s ⟨0x6A, x, y, none⟩) ∧ y.toNat % 256 = 3 := by
  obtain ⟨w, hfind⟩ : ∃ w, p.written.find? (fun x => x.1 == l) = some w := by
    rw [← Option.isSome_iff_exists, List.find?_isSome]
    simpa using hw
  rw [exec_xmit_timely hg hp h]
  simp only [State.laneWrite, hp, hfind]
  exact finish_raiseLane s _ _ _ (by decide) _

section
variable (hw : ∀ x ∈ p.written, x.1 ≠ l)
include hw

theorem exec_xmit_unwritten (a : Opnd) : exec (.xmit g l a stamp) s = finish s (
    match laneSend s s.coreKey p l (s.src a) (BitVec.ofNat 16 p.pcc) with
    | none => raiseLane p.pcc (stamp.toNat, 0) l.spec 4 (openLatch s)
    | some s => .ok (s.updCore (fun c => { c with phase := c.phase.map (fun q => { q with written := (l, some (stamp.toNat, 0)) :: q.written }) }))) := by
  have hfind : p.written.find? (fun x => x.1 == l) = none := by
    rw [List.find?_eq_none]
    simpa using hw
  rw [exec_xmit_timely hg hp h]
  simp only [State.laneWrite, hp, hfind]
  rfl

end

end

end

/-! ### A load in a phase (R126, R271) -/

/-- R271: a load in a phase empties its register and is due from the third cycle after its own. -/
theorem answerPhase_due {s : State} {p : Phase} (hp : s.core.phase = some p) (d : Fin 32) (v : Word) :
    (d ≠ 0 → (answerPhase s d v).ctx.full.getLsbD d.val = false) ∧
    (answerPhase s d v).core.phase = some { p with loads := p.loads ++ [(d, v, p.pcc + 3)] } := by
  have hphase : (answerPhase s d v).core.phase = s.core.phase.map (fun p => { p with loads := p.loads ++ [(d, v, p.pcc + 3)] }) :=
    congrArg Core.phase (State.core_updCore (s.upd (fun c => c.setEmpty d)) _)
  refine ⟨fun hd => ?_, by rw [hphase, hp]; rfl⟩
  have hctx : (answerPhase s d v).ctx = s.ctx.setEmpty d := State.ctx_upd s (fun c => c.setEmpty d)
  rw [hctx, setEmpty_full _ hd]

/-- R126: LD of the own scratchpad in a phase. -/
theorem exec_ld_inPhase {s : State} {g : Guard} (hg : s.guard g = true) {p : Phase} (hp : s.core.phase = some p) {t : Ty} {d : Fin 32} {m : Mem}
    {r : Grant} (hgrant : Granted s (.ld g t (.s d) m) (s.ea m) (t.bits / 8) (t.bits / 8) .read (decide (t.bits / 8 = 8)) r)
    (hreg : paReg r.pa = 1) (hcore : padCore r.pa = r.s.coreKey) (hs : r.s = s) :
    exec (.ld g t (.s d) m) s = .next (answerPhase (homeLoad s s.cur r.pa) d (loadedWord t (s.mem.bytes r.pa (t.bits / 8)))) := by
  obtain ⟨hok, hallowed, hpair⟩ := hgrant
  have hbytes : loadBytes r.s r.pa (t.bits / 8) = (homeLoad s s.cur r.pa, s.mem.bytes r.pa (t.bits / 8), false) := by
    rw [loadBytes_own hreg hcore, hs]
  have hmessage : loadMessage r.s 0 r.pa (t.bits / 8) (fun s => loadBytes s r.pa (t.bits / 8)) =
      .ok (homeLoad s s.cur r.pa, s.mem.bytes r.pa (t.bits / 8), false) := by
    unfold loadMessage
    rw [hpair]
    dsimp only
    rw [hbytes]
  have hphase : (homeLoad s s.cur r.pa).inPhase = true := by
    rw [(homeLoad_sameTurn s s.cur r.pa).inPhase]
    simp [State.inPhase, hp]
  refine (guarded_inPhase hg (i := .ld g t (.s d) m) rfl rfl _).trans ?_
  unfold loadForm
  simp only [Bool.true_and, hok, bind, Except.bind, hallowed, Bool.false_eq_true, if_false, hmessage, hphase, if_true]
  rfl

end Sys2Proof.Machine

open Sys2Proof Sys2Proof.Machine

/-- Settles O49: an X form checks its stamp, then its lane or latch; a load in a phase is due later; what a phase bars is barred by opcode. -/
theorem phaseForms : Obligations.PhaseForms := by
  unfold Obligations.PhaseForms
  refine ⟨fun g l a d stamp count s p hg hp => ⟨fun h hw s1 hsend => ?_, fun h hpres hsent => ?_, fun h => xForms_mistimed hg hp h a d count,
    fun h hw => exec_xmit_twice hg hp h hw a, fun h hw hlane => ?_, fun h hlatch => ?_⟩, fun g t d m s p r hg hp => ⟨fun hgrant hreg hcore hs => ?_, ?_,
    fun fn c => ?_, ?_⟩⟩
  · obtain ⟨hmem, hctx⟩ := laneSend_frame hsend
    refine ⟨s1.updCore (fun c => { c with phase := c.phase.map (fun q => { q with written := (l, some (stamp.toNat, 0)) :: q.written }) }), ?_,
      fun a => congrArg (Memory.read · a) hmem, congrArg Ctx.s hctx, rfl⟩
    rw [exec_xmit_unwritten hg hp h hw, hsend]
    rfl
  · rw [exec_xrcv_timely hg hp h, if_neg (by simp [hpres, hsent])]
    rfl
  · rw [exec_xmit_unwritten hg hp h hw, laneSend_nowhere hlane]
    exact finish_raiseLane s _ _ _ (by decide) _
  · rw [exec_xrcv_timely hg hp h, if_pos (by simpa using hlatch)]
    exact finish_raiseLane s _ _ _ (by decide) _
  · have hcur : (homeLoad s s.cur r.pa).cur = s.cur := (homeLoad_sameTurn s s.cur r.pa).1
    have hphase : (homeLoad s s.cur r.pa).core.phase = some p := by
      rw [State.core, State.coreKey, hcur, (homeLoad_sameTurn s s.cur r.pa).2]
      exact hp
    obtain ⟨hempty, hdue⟩ := answerPhase_due hphase d (loadedWord t (s.mem.bytes r.pa (t.bits / 8)))
    refine ⟨_, exec_ld_inPhase hg hp hgrant hreg hcore hs, hempty, ?_, ?_⟩
    · rw [answerPhase_mem, homeLoad_mem]
    · rw [hdue]
      rfl
  · exact guarded_barred hg (i := .mclaim g) rfl hp rfl rfl _
  · exact guarded_barred hg (i := .amo g t fn (some d) c m) rfl hp rfl rfl _
  · exact guarded_barred hg (i := .halt g) rfl hp rfl rfl _
end

section
/-! PROOFS. LDV and STV of rows in the own scratchpad (R71, R128). -/
namespace Sys2Proof.Machine
open Sys2Proof.Laws

/-! ### The group that the word names (R69, R128) -/

/-- R128: the group of registers of a form of rows passes v31, or not. -/
theorem shapeTrap_rows {s : State} {i : Instr} {g : Guard} {d : Fin 32} {m : Mem} {str : Option (Fin 32)} (hi : i = .ldv g d m str ∨ i = .stv g d m str) :
    shapeTrap s i = if 32 < d.val + (Vec.Shape.ofWord s.view.vsh.toNat).rows then some ⟨0x08, (slotInfo s i).1, (slotInfo s i).2, none⟩ else none := by
  obtain ⟨f, hf, hop, hd, ha, hb, hc⟩ : ∃ f, i.fields = some f ∧ (f.op.toNat = 0x42 ∨ f.op.toNat = 0x43) ∧ f.d = vSpec d ∧ f.a = m.aSpec ∧
      f.b = m.bSpec ∧ f.c = optS str := by
    rcases hi with rfl | rfl
    · exact ⟨_, rfl, .inl rfl, rfl, rfl, rfl, rfl⟩
    · exact ⟨_, rfl, .inr rfl, rfl, rfl, rfl, rfl⟩
  have hslot : Fields.ofSlot (slotOf i) = f := by simp [slotOf, encode_eq_slot, hf, ofSlot_slot]
  have hgroups (sh : Vec.Shape) : vGroups f sh = ([(d.val, sh.rows)], []) := by
    have hlow : f.op.toNat < 0x72 := by omega
    have hv : (f.op.toNat = 0x42 ∨ f.op.toNat = 0x43) ∨ 0x72 ≤ f.op.toNat ∧ f.op.toNat ≤ 0x99 := .inl hop
    unfold vGroups
    simp only [Bool.or_eq_true, decide_eq_true_eq, Bool.and_eq_true, if_pos hv]
    show (specGroup f.d _, specGroup f.a _ ++ specGroup f.b _ ++ specGroup f.c _) = _
    rw [hd, ha, hb, hc, Mem.aSpec, Mem.bSpec, if_neg (by omega), if_neg (by omega)]
    simp
  unfold shapeTrap shapeCause
  simp only [hslot, hgroups]
  have hplain : f.op.toNat ≠ 0x8B ∧ f.op.toNat ≠ 0x8C ∧ f.op.toNat ≠ 0x98 ∧ ¬ 0x72 ≤ f.op.toNat := by omega
  obtain ⟨h1, h2, h3, h4⟩ := hplain
  simp only [h1, h2, h3, h4, decide_false, Bool.false_and, Bool.or_self, Bool.false_eq_true, if_false, List.append_nil, List.any_cons, List.any_nil,
    Bool.or_false, decide_eq_true_eq, Nat.add_zero]
  split <;> rfl

/-! ### Accesses of rows (R123, R128, R150) -/

/-- R123: an access of the own scratchpad is granted; a write asks nothing of kept stores. -/
theorem grant_near_mode {s : State} (hpkg : s.pkg < 4096) {ea : Word} {b : Nat} (hnear : nearOff ea.toNat = some b) {align n : Nat}
    (halign : ea.toNat % align = 0) (hsize : b < padSize s s.coreKey) {m : Mode} (hkept : m ≠ .write → coveredByKept s.gang (s.padAt b) n = false)
    (hboard : overlapping s.core (s.padAt b) n = none) (i : Instr) (word : Bool) : grant s i ea align n m word = .ok ⟨s, s.padAt b, false⟩ := by
  obtain ⟨-, hb⟩ := nearOff_eq_some hnear
  have hreg := paReg_padAt s hb
  have hcheck := checkMode_near hpkg hnear halign i m
  rw [if_pos hsize] at hcheck
  have hcovered : (decide (m ≠ .write) && coveredByKept s.gang (s.padAt b) n) = false := by
    by_cases hm : m = .write
    · simp [hm]
    · simp [hkept hm]
  have hown := targetAllows_own (s := s) hreg (padCore_padAt s hb hpkg) s.gangId s.gang.asid (m ≠ .write) (m ≠ .read)
  have hhome : homeRead s .ctx (s.padAt b) = s := homeRead_of_paReg (by omega) s .ctx
  have hpois : poisoned s (s.padAt b) = false := poisoned_of_paReg (by omega) s
  unfold grant grantAs
  rw [hcheck]
  simp only [hreg, hcovered, hboard, hown, hhome, hpois, ite_self]
  simp

theorem checkRows_passed {i : Instr} {m : Mode} {s : State} {ea : Nat → Word} {pa : Nat → Nat} (xs : List Nat)
    (h : ∀ x ∈ xs, checkMode s i (ea x) 64 m = .ok (s, pa x) ∧ paReg (pa x) ≠ 2) :
    checkRows i m s (xs.map ea) = .ok (s, xs.map (fun x => (ea x, pa x))) := by
  induction xs with
  | nil => rfl
  | cons x xs ih =>
    obtain ⟨hx, hreg⟩ := h x List.mem_cons_self
    have hrest := ih (fun y hy => h y (List.mem_cons_of_mem _ hy))
    simp only [List.map_cons, checkRows, hx, bind, Except.bind, hreg, if_false, hrest]
    rfl

theorem rowsReady_granted {i : Instr} {m : Mode} {s : State} {ea : Nat → Word} {pa : Nat → Nat} (xs : List Nat)
    (h : ∀ x ∈ xs, grant s i (ea x) 64 64 m false = .ok ⟨s, pa x, false⟩) : rowsReady i m s (xs.map (fun x => (ea x, pa x))) = .ok () := by
  induction xs with
  | nil => rfl
  | cons x xs ih =>
    have hrest := ih (fun y hy => h y (List.mem_cons_of_mem _ hy))
    simp only [List.map_cons, rowsReady, h x List.mem_cons_self, bind, Except.bind, Bool.false_eq_true, if_false, hrest]

/-- R128, R150: rows k to k + n − 1, each granted where the last has left the state, are accessed in order; P says what every row may rely on. -/
theorem overRows_granted {i : Instr} {m : Mode} {kind : Nat} {data : Nat → List Byte} {f : State → Nat → Nat → State × (Option Word × List Line)}
    {ea : Nat → Word} {pa : Nat → Nat} {rows : Nat} {P : State → Prop} {step : State → Nat → State} {answer : Nat → Option Word × List Line}
    (hP : ∀ t x, x < rows → P t → repeated t = none ∧ grant t i (ea x) 64 64 m false = .ok ⟨t, pa x, false⟩ ∧
      exchangeAt t kind (pa x) (data x) (fun t => f t (pa x) x) = .ok (step t x, answer x) ∧ P (step t x))
    (n k : Nat) (hk : k + n ≤ rows) {s : State} (hs : P s) :
    overRows i m kind data f s ((List.range' k n).map (fun x => (ea x, pa x))) k =
      .ok ((List.range' k n).foldl step s, (List.range' k n).map (fun x => some (answer x))) ∧ P ((List.range' k n).foldl step s) := by
  induction n generalizing k s with
  | zero => exact ⟨rfl, hs⟩
  | succ n ih =>
    obtain ⟨hfirst, hgrant, hexchange, hnext⟩ := hP s k (by omega) hs
    obtain ⟨hrest, hlast⟩ := ih (k + 1) (by omega) hnext
    refine ⟨?_, hlast⟩
    simp only [List.range'_succ, List.map_cons, List.foldl_cons, overRows, hfirst, hgrant, bind, Except.bind, Bool.false_eq_true, if_false,
      hexchange, hrest]
    rfl

/-- Registers from d + k up take the values of a list in order. -/
theorem reg_foldl_setReg {α : Type} (val : α → Line) {d : Nat} (xs : List α) (k : Nat) (hd : d + k + xs.length ≤ 32) (v : Vector Line 32) (r : Nat) :
    Vec.reg ((xs.zipIdx k).foldl (fun v x => Vec.setReg v (d + x.2) (val x.1)) v) r =
      if d + k ≤ r then (xs[r - (d + k)]?).elim (Vec.reg v r) val else Vec.reg v r := by
  induction xs generalizing k v with
  | nil => simp
  | cons x xs ih =>
    rw [List.length_cons] at hd
    rw [List.zipIdx_cons, List.foldl_cons, ih (k + 1) (by omega), Vec.reg_setReg]
    rcases Nat.lt_trichotomy r (d + k) with h | rfl | h
    · rw [if_neg (by omega), if_neg (by omega), if_neg (by omega)]
    · rw [if_neg (by omega), if_pos ⟨rfl, by omega⟩, if_pos le_rfl, Nat.sub_self]
      rfl
    · obtain ⟨j, rfl⟩ : ∃ j, r = d + k + 1 + j := ⟨r - (d + k + 1), by omega⟩
      have h1 : d + k + 1 + j - (d + (k + 1)) = j := by omega
      have h2 : d + k + 1 + j - (d + k) = j + 1 := by omega
      rw [if_pos (by omega), if_neg (by omega), if_pos (by omega), h1, h2]
      rfl

/-! ### Rows of the own scratchpad -/

/-- R71, R128: rows whose group stays in v0 to v31, with a stride of whole lines, each on a line of the own scratchpad. -/
structure OwnRows (s : State) (m : Mem) (str : Option (Fin 32)) (b : Nat → Nat) (rows : Nat) : Prop where
  stride : (str.elim 64 s.rs).toNat % 64 = 0
  near : ∀ i, i < rows → nearOff (s.ea m + BitVec.ofNat 64 i * str.elim 64 s.rs).toNat = some (b i) ∧ b i % 64 = 0 ∧ b i < padSize s s.coreKey
  pkg : s.pkg < 4096
  board : s.core.scoreboard = []

/-- R64, R128: the address of row i. -/
def rowEa (s : State) (m : Mem) (str : Option (Fin 32)) (i : Nat) : Word := s.ea m + BitVec.ofNat 64 i * str.elim 64 s.rs

namespace OwnRows

variable {s : State} {m : Mem} {str : Option (Fin 32)} {b : Nat → Nat} {rows : Nat} (h : OwnRows s m str b rows)
include h

theorem aligned {i : Nat} (hi : i < rows) : (rowEa s m str i).toNat % 64 = 0 := by
  obtain ⟨hnear, halign, -⟩ := h.near i hi
  have haddr := (nearOff_eq_some hnear).1
  rw [rowEa, haddr, nearBase]
  omega

theorem addrs (n : Nat) : rowAddrs s m str n = .ok ((List.range' 0 n).map (rowEa s m str)) := by
  unfold rowAddrs
  dsimp only
  rw [if_neg (by simpa using h.stride), List.range_eq_range']
  rfl

/-- R123, R128: every row passes its checks. -/
theorem checked (i : Instr) (mode : Mode) :
    checkRows i mode s ((List.range' 0 rows).map (rowEa s m str)) = .ok (s, (List.range' 0 rows).map (fun x => (rowEa s m str x, s.padAt (b x)))) := by
  refine checkRows_passed _ (fun x hx => ?_)
  have hlt : x < rows := by simpa using (List.mem_range'.mp hx)
  obtain ⟨hnear, -, hsize⟩ := h.near x hlt
  have hreg := paReg_padAt s (nearOff_eq_some hnear).2
  exact ⟨(checkMode_near h.pkg hnear (h.aligned hlt) i mode).trans (if_pos hsize), by omega⟩

/-- R123: each row is granted where only timestamps and what SNAP and L1s hold have changed; a load asks that no kept store covers it. -/
theorem granted {t : State} (hcur : t.cur = s.cur) (hboard : t.core.scoreboard = []) (hsplit : t.core.split = s.core.split) {mode : Mode}
    (hkept : mode ≠ .write → t.gang.kept = []) {x : Nat} (hx : x < rows) (i : Instr) :
    grant t i (rowEa s m str x) 64 64 mode false = .ok ⟨t, s.padAt (b x), false⟩ := by
  obtain ⟨hnear, -, hsize⟩ := h.near x hx
  have hkey : t.coreKey = s.coreKey := by rw [State.coreKey, hcur, State.coreKey]
  have hpkg : t.pkg = s.pkg := by rw [State.pkg, hkey, State.pkg]
  have hpad : padSize t t.coreKey = padSize s s.coreKey := congrArg (16384 * ·) hsplit
  have hat : t.padAt (b x) = s.padAt (b x) := by rw [State.padAt, hkey, hpkg, State.padAt]
  rw [← hat]
  exact grant_near_mode (hpkg ▸ h.pkg) hnear (h.aligned hx) (hpad ▸ hsize) (fun hm => by simp [coveredByKept, hkept hm]) (by simp [overlapping, hboard])
    i false

end OwnRows

/-- R151: only the acting context's timestamp and the lines' have changed. -/
structure LoadsOnly (s t : State) : Prop where
  mem : t.mem = s.mem
  cur : t.cur = s.cur
  steps : t.steps = s.steps
  cores : t.cores = s.cores
  gangs : t.gangs = s.gangs
  ctx : ∃ p, t.ctx = { s.ctx with pts := p }

theorem LoadsOnly.refl (s : State) : LoadsOnly s s := ⟨rfl, rfl, rfl, rfl, rfl, _, rfl⟩

theorem LoadsOnly.trans {s t u : State} (h : LoadsOnly s t) (h' : LoadsOnly t u) : LoadsOnly s u := by
  obtain ⟨p, hp⟩ := h.ctx
  obtain ⟨q, hq⟩ := h'.ctx
  exact ⟨h'.mem.trans h.mem, h'.cur.trans h.cur, h'.steps.trans h.steps, h'.cores.trans h.cores, h'.gangs.trans h.gangs, q, by rw [hq, hp]⟩

/-- R151: a load of the own scratchpad leaves no lease copy. -/
theorem homeLoad_own {s : State} {pa : Nat} (hreg : paReg pa = 1) (hcore : padCore pa = s.coreKey) : LoadsOnly s (homeLoad s s.cur pa) := by
  unfold homeLoad
  extract_lets k l r c t
  have ht : LoadsOnly s t := ⟨rfl, rfl, rfl, rfl, rfl, _, State.getCtx_setCtx_same _ _ _⟩
  have huncopied : uncopied t k pa = true := by
    have hkey : padCore pa = k := hcore
    simp [uncopied, hreg, hkey]
  rw [if_pos huncopied]
  exact ht

/-- R128: the v registers from d up after the rows of LDV. -/
def rowsTaken (answers : List (Option (Option Word × List Line))) (d : Nat) (v : Vector Line 32) : Vector Line 32 :=
  answers.zipIdx.foldl (fun v x => Vec.setReg v (d + x.2) (x.1.elim 0 (fun a => a.2.headD 0))) v

/-- R128: the state in which LDV has loaded its rows. -/
def loadedRows (u : State) (answers : List (Option (Option Word × List Line))) (d : Nat) (due : Core → Core) : State :=
  (u.upd (fun c => { c with v := rowsTaken answers d c.v })).updCore due

theorem loadedRows_ctx (u : State) (answers : List (Option (Option Word × List Line))) (d : Nat) (due : Core → Core) :
    (loadedRows u answers d due).ctx = { u.ctx with v := rowsTaken answers d u.ctx.v } := by
  rw [loadedRows, State.ctx_updCore, State.ctx_upd]

/-- R128: what the load of row i in the own scratchpad answers. -/
def rowAnswer (s : State) (b : Nat → Nat) (i : Nat) : Option Word × List Line := (some 0, [BitVec.ofNat 512 (s.numAt (s.padAt (b i)) 64)])

theorem reg_rowsTaken {d n : Nat} (hd : d + n ≤ 32) (answer : Nat → Option Word × List Line) (v : Vector Line 32) (r : Nat) :
    Vec.reg (rowsTaken ((List.range' 0 n).map (fun x => some (answer x))) d v) r =
      if d ≤ r ∧ r < d + n then (answer (r - d)).2.headD 0 else Vec.reg v r := by
  have hlen : d + 0 + ((List.range' 0 n).map (fun x => some (answer x))).length ≤ 32 := by simpa using hd
  refine (reg_foldl_setReg (fun a => a.elim 0 (fun a => a.2.headD 0)) _ 0 hlen v r).trans ?_
  by_cases hlow : d ≤ r
  · by_cases hhigh : r < d + n
    · rw [if_pos (by omega), if_pos ⟨hlow, hhigh⟩, List.getElem?_map, List.getElem?_range' (by omega)]
      simp
    · rw [if_pos (by omega), if_neg (by omega), List.getElem?_eq_none (by simp; omega)]
      rfl
  · rw [if_neg (by omega), if_neg (by omega)]

section
variable {s : State} {g : Guard} {d : Fin 32} {m : Mem} {str : Option (Fin 32)}

/-- R71, R128: a group that passes v31. -/
theorem exec_rows_past {i : Instr} (hi : i = .ldv g d m str ∨ i = .stv g d m str) (h : 32 < d.val + (Vec.Shape.ofWord s.view.vsh.toNat).rows) :
    exec i s = .next (takeTrap s ⟨0x08, (slotInfo s i).1, (slotInfo s i).2, none⟩) := by
  have htrap := shapeTrap_rows (s := s) hi
  rw [if_pos h] at htrap
  rcases hi with rfl | rfl <;> exact guardedShape_trap htrap _ _

variable (hr : Runs s g)
include hr

theorem phaseFree_runs (i : Instr) (use : List Nat × List Nat) : phaseFree s i (memLate s use) = .ok () := by
  have hphase : s.core.phase = none := by simpa [State.inPhase] using hr.2
  have hlate : memLate s use = false := by
    unfold memLate
    dsimp only
    rw [hphase]
    rfl
  rw [hlate]
  rfl

variable (hfits : d.val + (Vec.Shape.ofWord s.view.vsh.toNat).rows ≤ 32)
include hfits

theorem guardedShape_rows {i : Instr} (hi : i = .ldv g d m str ∨ i = .stv g d m str) (body : Res State) :
    guardedShape s i g body = finish s body := by
  have hshape := shapeTrap_rows (s := s) hi
  rw [if_neg (by omega)] at hshape
  rw [guardedShape_none hshape, guarded_runs hr]

/-- R128: a step that is no multiple of 64. -/
theorem exec_rows_misaligned {i : Instr} (hi : i = .ldv g d m str ∨ i = .stv g d m str) (h : (str.elim 64 s.rs).toNat % 64 ≠ 0) :
    exec i s = .next (takeTrap s ⟨0x13, s.ea m, 0, none⟩) := by
  have haddrs (n : Nat) : rowAddrs s m str n = raise 0x13 (s.ea m) 0 := if_pos h
  have hready := phaseFree_runs hr
  rcases hi with rfl | rfl
  · refine (guardedShape_rows hr hfits (.inl rfl) _).trans ?_
    simp only [hready, haddrs, bind, Except.bind]
    rfl
  · refine (guardedShape_rows hr hfits (.inr rfl) _).trans ?_
    simp only [hready, haddrs, bind, Except.bind]
    rfl

variable {b : Nat → Nat} (h : OwnRows s m str b (Vec.Shape.ofWord s.view.vsh.toNat).rows) (hpair : s.ctx.pair = none) (hwhole : Whole s)
include h hpair hwhole

/-- R128: STV stores its rows in order. -/
theorem exec_stv_own : exec (.stv g d m str) s = .next ((List.range (Vec.Shape.ofWord s.view.vsh.toNat).rows).foldl (fun t i =>
    storeAt t (s.padAt (b i)) (Bits.bytesLE 64 (Vec.reg s.view.v (d.val + i)).toNat)) s) := by
  have hready := rowsReady_granted (ea := rowEa s m str) (pa := fun x => s.padAt (b x)) (List.range' 0 (Vec.Shape.ofWord s.view.vsh.toNat).rows)
    (fun x hx => h.granted rfl h.board rfl (mode := .write) (fun hm => absurd rfl hm) (by simpa using List.mem_range'.mp hx) (.stv g d m str))
  obtain ⟨hrun, -⟩ := overRows_granted (i := .stv g d m str) (m := .write) (kind := 3)
    (data := fun r => Bits.bytesLE 64 (Vec.reg s.view.v (d.val + r)).toNat)
    (f := fun t pa r => (storeAt t pa (Bits.bytesLE 64 (Vec.reg t.view.v (d.val + r)).toNat), (none, [])))
    (ea := rowEa s m str) (pa := fun x => s.padAt (b x)) (P := StoreFrame s)
    (step := fun t i => storeAt t (s.padAt (b i)) (Bits.bytesLE 64 (Vec.reg s.view.v (d.val + i)).toNat)) (answer := fun _ => (none, []))
    (fun t x hx ht => by
      obtain ⟨p, hctx⟩ := ht.ctx
      obtain ⟨a, a', hcore⟩ := ht.core s.coreKey
      have htcore : t.core = { s.core with stored := a, snapLines := a' } := by rw [State.core, State.coreKey, ht.cur]; exact hcore
      have hview : t.view.v = s.view.v := by
        rw [State.view, State.view, ht.grp, hctx]
        cases s.grp.view <;> rfl
      have hsent : t.ctx.sent = [] := by rw [hctx]; exact hwhole.1
      refine ⟨by simp [repeated, hsent], h.granted ht.cur (by rw [htcore]; exact h.board) (by rw [htcore]) (fun hm => absurd rfl hm) hx _, ?_,
        ht.trans (storeAt_storeFrame _ _ _)⟩
      rw [exchangeAt_solo (by rw [hctx]; exact hpair) hsent (ht.steps.trans hwhole.2), hview])
    (Vec.Shape.ofWord s.view.vsh.toNat).rows 0 (by omega) (StoreFrame.refl s)
  refine (guardedShape_rows hr hfits (.inr rfl) _).trans ?_
  simp only [phaseFree_runs hr, h.addrs, bind, Except.bind, h.checked, hwhole.1, List.length_nil, Nat.zero_sub, List.drop_zero, hready, hrun]
  rw [List.range_eq_range']
  rfl

/-- R128: LDV loads its rows in order. -/
theorem exec_ldv_own (hkept : s.gang.kept = []) : ∃ t, exec (.ldv g d m str) s = .next t ∧ t.mem = s.mem ∧ t.ctx.s = s.ctx.s ∧
    ∀ r, Vec.reg t.ctx.v r = if d.val ≤ r ∧ r < d.val + (Vec.Shape.ofWord s.view.vsh.toNat).rows then
      BitVec.ofNat 512 (s.numAt (s.padAt (b (r - d.val))) 64) else Vec.reg s.ctx.v r := by
  have hready := rowsReady_granted (ea := rowEa s m str) (pa := fun x => s.padAt (b x)) (List.range' 0 (Vec.Shape.ofWord s.view.vsh.toNat).rows)
    (fun x hx => h.granted rfl h.board rfl (mode := .read) (fun _ => hkept) (by simpa using List.mem_range'.mp hx) (.ldv g d m str))
  obtain ⟨hrun, hkeeps⟩ := overRows_granted (i := .ldv g d m str) (m := .read) (kind := 2) (data := fun _ => [])
    (f := fun t pa _ => ((loadBytes t pa 64).1, (some (BitVec.ofNat 64 (Bits.b2n (loadBytes t pa 64).2.2)),
      [BitVec.ofNat 512 (Bits.ofBytesLE (loadBytes t pa 64).2.1)])))
    (ea := rowEa s m str) (pa := fun x => s.padAt (b x)) (P := LoadsOnly s)
    (step := fun t i => homeLoad t t.cur (s.padAt (b i))) (answer := rowAnswer s b)
    (fun t x hx ht => by
      obtain ⟨p, hctx⟩ := ht.ctx
      obtain ⟨hnear, -, -⟩ := h.near x hx
      have hlt := (nearOff_eq_some hnear).2
      have hkey : t.coreKey = s.coreKey := by rw [State.coreKey, ht.cur, State.coreKey]
      have htcore : t.core = s.core := by rw [State.core, State.getCore, ht.cores, hkey, State.core, State.getCore]
      have htgang : t.gang = s.gang := by rw [State.gang, State.gangId, htcore, State.getGang, ht.gangs, State.gang, State.gangId, State.getGang]
      have hreg := paReg_padAt s hlt
      have hown : padCore (s.padAt (b x)) = t.coreKey := by rw [padCore_padAt s hlt h.pkg, hkey]
      have hsent : t.ctx.sent = [] := by rw [hctx]; exact hwhole.1
      refine ⟨by simp [repeated, hsent], h.granted ht.cur (by rw [htcore]; exact h.board) (by rw [htcore]) (fun _ => by rw [htgang]; exact hkept) hx _,
        ?_, ht.trans (homeLoad_own hreg hown)⟩
      rw [exchangeAt_solo (by rw [hctx]; exact hpair) hsent (ht.steps.trans hwhole.2), loadBytes_own hreg hown, ht.mem]
      rfl)
    (Vec.Shape.ofWord s.view.vsh.toNat).rows 0 (by omega) (LoadsOnly.refl s)
  generalize (List.range' 0 (Vec.Shape.ofWord s.view.vsh.toNat).rows).foldl (fun t i => homeLoad t t.cur (s.padAt (b i))) s = u at hrun hkeeps
  obtain ⟨remote, due, hexec⟩ : ∃ (remote : Bool) (due : Core → Core), exec (.ldv g d m str) s =
      .next (if remote then countRemote (loadedRows u ((List.range' 0 (Vec.Shape.ofWord s.view.vsh.toNat).rows).map (fun x => some (rowAnswer s b x))) d.val due)
        else loadedRows u ((List.range' 0 (Vec.Shape.ofWord s.view.vsh.toNat).rows).map (fun x => some (rowAnswer s b x))) d.val due) := by
    refine ⟨?_, ?_, (guardedShape_rows hr hfits (.inl rfl) _).trans ?run⟩
    case run =>
      simp only [phaseFree_runs hr, h.addrs, bind, Except.bind, h.checked, hwhole.1, List.length_nil, Nat.zero_sub, List.drop_zero, hready, hrun]
      rfl
  refine ⟨_, hexec, ?_⟩
  generalize hw : loadedRows u _ d.val due = w
  obtain ⟨p, hctx⟩ := hkeeps.ctx
  have hmem : w.mem = s.mem := by rw [← hw]; exact hkeeps.mem
  have hrest : w.ctx.s = s.ctx.s ∧ w.ctx.v =
      rowsTaken ((List.range' 0 (Vec.Shape.ofWord s.view.vsh.toNat).rows).map (fun x => some (rowAnswer s b x))) d.val s.ctx.v := by
    rw [← hw, loadedRows_ctx, hctx]
    exact ⟨rfl, rfl⟩
  have hreg (r : Nat) := (congrArg (Vec.reg · r) hrest.2).trans (reg_rowsTaken hfits (rowAnswer s b) s.ctx.v r)
  cases remote with
  | false => exact ⟨hmem, hrest.1, hreg⟩
  | true =>
    have hcount : (countRemote w).ctx = { w.ctx with rref := w.ctx.rref + 1 } := State.ctx_upd w (fun c => { c with rref := c.rref + 1 })
    simp only [if_true, hcount]
    exact ⟨hmem, hrest.1, hreg⟩

end

end Sys2Proof.Machine

open Sys2Proof Sys2Proof.Machine

/-- Settles O23: the word names one group; rows of the own scratchpad are granted one after another, whatever the earlier ones have done. -/
theorem rowForms : Obligations.RowForms := by
  unfold Obligations.RowForms
  intro g d m str s hr rows step
  refine ⟨fun hpast => ⟨exec_rows_past (.inl rfl) hpast, exec_rows_past (.inr rfl) hpast⟩,
    fun hfits hstep => ⟨exec_rows_misaligned hr hfits (.inl rfl) hstep, exec_rows_misaligned hr hfits (.inr rfl) hstep⟩,
    fun hfits hstep b hnear hpkg hkept hboard hpair hwhole => ?_⟩
  have hrows : OwnRows s m str b rows := ⟨hstep, hnear, hpkg, hboard⟩
  intro pa
  obtain ⟨t, hexec, hmem, hs, hv⟩ := exec_ldv_own hr hfits hrows hpair hwhole hkept
  refine ⟨exec_stv_own hr hfits hrows hpair hwhole, t, hexec, hmem, fun i hi => ?_, fun r _ hout => ?_, fun x => by rw [hs]⟩
  · rw [hv, if_pos ⟨Nat.le_add_right _ _, by omega⟩, Nat.add_sub_cancel_left]
    rfl
  · rw [hv, if_neg (by omega)]
end

section
/-! PROOFS. What the checks of an access leave of contexts, cores and gangs (R119, R123, R151). -/
namespace Sys2Proof.Machine

/-- Only timestamps, cached translations, lease copies, counts of walks, lines and control space differ. -/
structure CheckFrame (s t : State) : Prop where
  mem : t.mem = s.mem
  cur : t.cur = s.cur
  grp : t.grp = s.grp
  gangs : t.gangs = s.gangs
  ctx : ∃ p, t.ctx = { s.ctx with pts := p }
  core : ∀ k, ∃ x y z, t.getCore k = { s.getCore k with tlb := x, leases := y, walk := z }

theorem CheckFrame.refl (s : State) : CheckFrame s s := ⟨rfl, rfl, rfl, rfl, ⟨_, rfl⟩, fun _ => ⟨_, _, _, rfl⟩⟩

theorem CheckFrame.trans {s t u : State} (h : CheckFrame s t) (h' : CheckFrame t u) : CheckFrame s u := by
  refine ⟨h'.mem.trans h.mem, h'.cur.trans h.cur, h'.grp.trans h.grp, h'.gangs.trans h.gangs, ?_, fun k => ?_⟩
  · obtain ⟨p, hp⟩ := h.ctx
    obtain ⟨q, hq⟩ := h'.ctx
    exact ⟨q, by rw [hq, hp]⟩
  · obtain ⟨x, y, z, hk⟩ := h.core k
    obtain ⟨x', y', z', hk'⟩ := h'.core k
    exact ⟨x', y', z', by rw [hk', hk]⟩

/-- A state whose contexts, cores and gangs are as before. -/
theorem checkFrame_of_eq {s t : State} (hmem : t.mem = s.mem) (hcur : t.cur = s.cur) (hgrp : t.grp = s.grp) (hgangs : t.gangs = s.gangs)
    (hctxs : t.ctxs = s.ctxs) (hcores : t.cores = s.cores) : CheckFrame s t :=
  ⟨hmem, hcur, hgrp, hgangs, ⟨_, by rw [State.ctx, State.getCtx, hcur, hctxs]; rfl⟩, fun _ => ⟨_, _, _, by rw [State.getCore, hcores]; rfl⟩⟩

theorem checkFrame_setCore {s : State} {k : Nat} {x : List TlbEntry} {y : SMap Lease} {z : Word} :
    CheckFrame s (s.setCore k { s.getCore k with tlb := x, leases := y, walk := z }) := by
  refine ⟨rfl, rfl, rfl, rfl, ⟨_, rfl⟩, fun j => ?_⟩
  by_cases hj : j = k
  · rw [hj, State.getCore_setCore_same]
    exact ⟨_, _, _, rfl⟩
  · rw [State.getCore_setCore_ne _ _ _ _ hj]
    exact ⟨_, _, _, rfl⟩

theorem checkFrame_setPts {s : State} {p : Nat} : CheckFrame s (s.setCtx s.cur { s.getCtx s.cur with pts := p }) :=
  ⟨rfl, rfl, rfl, rfl, ⟨p, State.getCtx_setCtx_same _ _ _⟩, fun _ => ⟨_, _, _, rfl⟩⟩

/-- R358: a read at the home changes at most the line and the register of its stack. -/
theorem homeRead_split (s : State) (who : Reader) (pa : Nat) : ∃ l c, homeRead s who pa = { s with lines := l, ctrl := c } := by
  unfold homeRead
  extract_lets reg e admits
  split <;> exact ⟨_, _, rfl⟩

theorem homeRead_checkFrame (s : State) (who : Reader) (pa : Nat) : CheckFrame s (homeRead s who pa) := by
  obtain ⟨l, c, h⟩ := homeRead_split s who pa
  rw [h]
  exact checkFrame_of_eq rfl rfl rfl rfl rfl rfl

theorem homeLoad_checkFrame (s : State) (pa : Nat) : CheckFrame s (homeLoad s s.cur pa) := by
  unfold homeLoad
  extract_lets k l r c t
  have hlines : CheckFrame s r.1 := checkFrame_of_eq rfl rfl rfl rfl rfl rfl
  have ht : CheckFrame s t := hlines.trans checkFrame_setPts
  split
  · exact ht
  · exact ht.trans checkFrame_setCore

theorem loadFor_checkFrame (s : State) (pa n : Nat) : CheckFrame s (loadFor s s.cur pa n).1 := by
  unfold loadFor
  split
  · exact homeLoad_checkFrame s pa
  · extract_lets t
    have ht : CheckFrame s t := checkFrame_of_eq rfl rfl rfl rfl rfl rfl
    split
    · exact ht.trans checkFrame_setPts
    · exact ht.trans (homeLoad_checkFrame t pa)

theorem walkLoad_checkFrame {a e : Nat} {s t : State} (h : walkLoad s.cur s a = .ok (t, e)) : CheckFrame s t := by
  have hread := homeRead_checkFrame s .ctx a
  unfold walkLoad at h
  split at h
  · cases h
  · dsimp only at h
    split at h
    · cases h
    · cases h
      have hload := loadFor_checkFrame (homeRead s .ctx a) a 8
      rw [hread.cur] at hload
      exact hread.trans hload

theorem walkBy_checkFrame {key va : Nat} {s t : State} {fuel level base : Nat} {found : Except Nat (Nat × Nat)} (hkey : s.cur = key)
    (h : walkBy (walkLoad key) va s fuel level base = .ok (t, found)) : CheckFrame s t := by
  induction fuel generalizing s level base with
  | zero => cases h; exact .refl _
  | succ n ih =>
    unfold walkBy at h
    split at h
    · cases h
    · next u e hload =>
      have hread : CheckFrame s u := walkLoad_checkFrame (by rw [hkey]; exact hload)
      split at h
      · cases h; exact hread
      · exact hread.trans (ih (hread.cur.trans hkey) h)
      · cases h; exact hread

theorem walkStep_checkFrame {s t : State} {va : Nat} {found : Except Nat (Nat × Nat)} (h : walkStep s s.cur va = .ok (t, found)) : CheckFrame s t := by
  unfold walkStep at h
  dsimp only at h
  split at h
  · have hcount : CheckFrame s (countWalk s (s.cur / 4)) := checkFrame_setCore
    exact hcount.trans (walkBy_checkFrame rfl h)
  · cases h; exact .refl s

theorem fillTlb_checkFrame (s : State) (k : Nat) (x : Xlat) : CheckFrame s (fillTlb s k x) := by
  unfold fillTlb
  split
  · exact .refl s
  · exact checkFrame_setCore

theorem checkEA_checkFrame {s t : State} {ea : Word} {al pa : Nat} {k : Kind} (h : checkEA s ea al k = .ok (t, pa)) : CheckFrame s t := by
  obtain ⟨-, -, u, found, x, hwalk, -, rfl, -⟩ := checkEA_ok_iff.mp h
  exact (walkStep_checkFrame hwalk).trans (fillTlb_checkFrame _ _ _)

theorem checkMode_checkFrame {s t : State} {i : Instr} {ea : Word} {al pa : Nat} {m : Mode} (h : checkMode s i ea al m = .ok (t, pa)) :
    CheckFrame s t := by
  unfold checkMode at h
  split at h
  · cases h
  · cases m with
    | read => exact checkEA_checkFrame h
    | write => exact checkEA_checkFrame h
    | rmw =>
      dsimp only at h
      split at h
      · next hwrite => exact (checkEA_checkFrame hwrite).trans (checkEA_checkFrame h)
      · cases h

/-- R123: an access that is granted has left contexts, cores and gangs as its checks do. -/
theorem grant_checkFrame {s : State} {i : Instr} {ea : Word} {al n : Nat} {m : Mode} {w : Bool} {r : Grant}
    (h : grant s i ea al n m w = .ok r) (hr : r.refused = false) : CheckFrame s r.s := by
  obtain ⟨u, hcheck, -, -, -, -, hok⟩ := grantAs_ok h
  rw [hok hr]
  split
  · exact (checkMode_checkFrame hcheck).trans (homeRead_checkFrame _ _ _)
  · exact checkMode_checkFrame hcheck

namespace CheckFrame

variable {s t : State} (h : CheckFrame s t)
include h

theorem coreKey_eq : t.coreKey = s.coreKey := by rw [State.coreKey, h.cur, State.coreKey]

theorem pkg_eq : t.pkg = s.pkg := by rw [State.pkg, h.coreKey_eq, State.pkg]

/-- R93: the registers that the group reads. -/
theorem rs_eq (n : Fin 32) : t.rs n = s.rs n := by
  obtain ⟨p, hp⟩ := h.ctx
  rw [State.rs, State.rs, State.view, State.view, h.grp, hp]
  cases s.grp.view <;> rfl

end CheckFrame

end Sys2Proof.Machine
end

section
/-! PROOFS. Futures and their deferred-read records (R134, R135). -/
namespace Sys2Proof.Machine

/-! ### The end of a context without a fault record in memory (R206, R346) -/

theorem recordFault_none {s : State} {g : Nat} (h : (s.getGang g).shadow = 0) (cause key : Nat) (tpc a b : Word) :
    recordFault s g cause key tpc a b = s := by
  rw [recordFault, faultRec_none h]

theorem flushFaults_mem {s : State} {key : Nat} (h : (s.getGang (s.getCore (key / 4)).gang).shadow = 0) : (flushFaults s key).mem = s.mem := by
  unfold flushFaults
  dsimp only
  refine (foldl_induct (P := fun t : State => t.mem = s.mem ∧ t.gangs = s.gangs) (fun t e _ ht => ?_) ⟨rfl, rfl⟩).1
  split
  · have hshadow : (t.getGang (s.getCore (key / 4)).gang).shadow = 0 := by rw [State.getGang, ht.2]; exact h
    rw [recordFault_none hshadow]
    exact ht
  · exact ht

/-- R206: the faults of a context that ends go to no memory where the gang has no fault record there. -/
theorem endContext_mem {s : State} {key : Nat} (h : (s.getGang (s.getCore (key / 4)).gang).shadow = 0) : (endContext s key).mem = s.mem := by
  unfold endContext
  extract_lets pid x t u c v
  have hu : u.mem = s.mem ∧ u.gangs = s.gangs ∧ u.cores = s.cores := by
    simp only [u]
    cases pid with
    | none => exact ⟨rfl, rfl, rfl⟩
    | some p =>
      dsimp only
      unfold dropPair
      split
      · exact ⟨rfl, rfl, rfl⟩
      · dsimp only
        split <;> exact ⟨rfl, rfl, rfl⟩
  have hcore : c.gang = (s.getCore (key / 4)).gang := by
    show (u.getCore (key / 4)).gang = _
    rw [State.getCore, hu.2.2, State.getCore]
  have hv : v.mem = s.mem ∧ v.gangs = s.gangs ∧ (v.getCore (key / 4)).gang = (s.getCore (key / 4)).gang := by
    simp only [v]
    split
    · exact ⟨hu.1, hu.2.1, by rw [State.getCore_setCore_same]; exact hcore⟩
    · exact ⟨hu.1, hu.2.1, hcore⟩
  have hshadow : (v.getGang (v.getCore (key / 4)).gang).shadow = 0 := by rw [hv.2.2, State.getGang, hv.2.1]; exact h
  rw [passClaim_mem]
  exact (flushFaults_mem hshadow).trans hv.1

/-! ### FLD (R135) -/

theorem dropEmptyCopy_eq (s : State) (pa : Nat) : ∃ y, dropEmptyCopy s pa = s.updCore (fun c => { c with leases := y }) ∨ dropEmptyCopy s pa = s := by
  unfold dropEmptyCopy
  split
  · split
    · exact ⟨[], .inr rfl⟩
    · exact ⟨_, .inl rfl⟩
  · exact ⟨[], .inr rfl⟩

/-- R135, R151: a lease copy that is dropped leaves the bytes of the own scratchpad. -/
theorem loadBytes_dropEmptyCopy {s : State} {pa : Nat} (hreg : paReg pa = 1) (hcore : padCore pa = s.coreKey) (n : Nat) :
    (loadBytes (dropEmptyCopy s pa) pa n).2 = (s.mem.bytes pa n, false) := by
  obtain ⟨y, h | h⟩ := dropEmptyCopy_eq s pa
  · rw [h, loadBytes_own (s := s.updCore _) hreg hcore]
    rfl
  · rw [h, loadBytes_own hreg hcore]

section
variable {s : State} {g : Guard} (hr : Runs s g) {d : Fin 32} {m : Mem} {s1 : State} {pa : Nat} {r : Grant}
include hr

section
variable (hcheck : checkMode s (.fld g d none m) (s.ea m) 16 .read = .ok (s1, pa))
  (hgrant : Granted s1 (.fld g d none m) (s.ea m) 16 16 .read false r)
include hcheck hgrant

/-- R135: FLD of a full future. -/
theorem exec_fld_full (hfull : futureFull (r.s.mem.readLE r.pa 16) = true) :
    let x := loadBytes (dropEmptyCopy r.s r.pa) r.pa 16
    let v : Word := BitVec.ofNat 64 (Bits.ofBytesLE x.2.1 % 2 ^ 64)
    exec (.fld g d none m) s = .next (if x.2.2 then countRemote (x.1.putS d v) else x.1.putS d v) := by
  obtain ⟨hok, hallowed, hpair⟩ := hgrant
  have hmessage (load : State → State × List Byte × Bool) : loadMessage r.s 8 r.pa 16 load = .ok (load r.s) := by
    unfold loadMessage
    rw [hpair]
  refine guarded_ok hr ?_
  simp only [Option.isSome_none, Bool.false_eq_true, if_false, hcheck, bind, Except.bind, hok, hallowed, hfull, if_true, hmessage]
  rfl

/-- R135: FLD of an empty future without a record. -/
theorem exec_fld_empty (hempty : futureFull (r.s.mem.readLE r.pa 16) = false) :
    exec (.fld g d none m) s = .next (takeTrap r.s ⟨0x17, s.ea m, 0, none⟩) := by
  obtain ⟨hok, hallowed, -⟩ := hgrant
  refine (guarded_runs hr _ _).trans ?_
  simp only [Option.isSome_none, Bool.false_eq_true, if_false, hcheck, bind, Except.bind, hok, hallowed, hempty]
  rfl

end

/-- R134, R135: the record is stored, and becomes the future's head. -/
def recorded (s : State) (pa a : Nat) (d : Fin 32) : State :=
  homeStep (storeStep s a (recordBytes s (futureHead (s.mem.readLE pa 16)) d)) pa
    (Bits.bytesLE 16 (s.mem.readLE pa 16 % 2 ^ 64 + a / 32 * 2 ^ 69))

/-- R135: FLD of an empty future with a record. -/
theorem exec_fld_record {c : Fin 32} {s2 : State} {a : Nat} (hcheck : checkMode s (.fld g d (some c) m) (s.ea m) 16 .rmw = .ok (s1, pa))
    (hrecord : checkMode s1 (.fld g d (some c) m) (s.rs c) 32 .write = .ok (s2, a)) (hreg : paReg a ≠ 2)
    (hgrant : Granted s2 (.fld g d (some c) m) (s.ea m) 16 16 .rmw false r) (hempty : futureFull (r.s.mem.readLE r.pa 16) = false)
    (hallows : targetAllows r.s r.s.coreKey r.s.gangId r.s.gang.asid a false true = true) (hsound : poisoned r.s a = false)
    (hfree : overlapping r.s.core a 32 = none) (hwhole : Whole r.s) :
    exec (.fld g d (some c) m) s = .next (endContext (recorded r.s r.pa a d) r.s.cur) := by
  obtain ⟨hok, hallowed, hpair⟩ := hgrant
  have hrecord' : checkMode s1 (.fld g d (some c) m) (s1.rs c) 32 .write = .ok (s2, a) := by
    rw [(checkMode_checkFrame hcheck).rs_eq]
    exact hrecord
  have hcur : (recorded r.s r.pa a d).cur = r.s.cur := ((storeStep_storeFrame _ _ _).trans (homeStep_storeFrame _ _ _)).cur
  refine guarded_ok hr ?_
  simp only [Option.isSome_some, if_true, hcheck, bind, Except.bind, hrecord', hreg, if_false, hok, hallowed, hempty, Bool.false_eq_true, hfree, hallows,
    Bool.not_true, hsound, accessMessage_solo hpair hwhole.1 hwhole.2]
  show Except.ok (endContext (recorded r.s r.pa a d) (recorded r.s r.pa a d).cur) = _
  rw [hcur]

end

/-- R134: a record takes 32 bytes. -/
theorem length_recordBytes (s : State) (next : Nat) (d : Fin 32) : (recordBytes s next d).length = 32 := by
  simp [recordBytes, Bits.length_bytesLE]

/-- R134: what a record holds where the checks of its accesses have come in between. -/
theorem recordBytes_checked {s t : State} (h : CheckFrame s t) (next : Nat) (d : Fin 32) : recordBytes t next d =
    Bits.bytesLE 8 s.grp.next.toNat ++ Bits.bytesLE 8 (s.rs 1).toNat ++ Bits.bytesLE 8 next ++
      [BitVec.ofNat 8 d.val, BitVec.ofNat 8 ((s.ctx.packet.map (·.prio)).getD s.ctx.prio % 4)] ++ Bits.bytesLE 2 (s.coreKey % 4096) ++
      Bits.bytesLE 2 s.pkg ++ [0, 0] := by
  have hprio : recordPrio t.ctx = (s.ctx.packet.map (·.prio)).getD s.ctx.prio := by
    obtain ⟨p, hp⟩ := h.ctx
    rw [hp]
    unfold recordPrio
    dsimp only
    cases s.ctx.packet <;> rfl
  rw [recordBytes, h.grp, h.rs_eq, h.coreKey_eq, h.pkg_eq, hprio]

theorem heldDirty_storeKeeps (s : State) (pa : Nat) : StoreKeeps s (heldDirty s pa) := by
  unfold heldDirty
  split
  · exact storeKeeps_setCore rfl
  · exact storeKeeps_of_eq rfl rfl rfl

theorem storeStep_storeKeeps (s : State) (pa : Nat) (bs : List Byte) : StoreKeeps s (storeStep s pa bs) :=
  (heldDirty_storeKeeps s pa).trans (homeStep_storeKeeps _ _ _)

/-- R152: a store whose line is not logged in memory changes its own bytes only. -/
theorem storeStep_mem {s : State} (h : Unlogged s) (pa : Nat) (bs : List Byte) : (storeStep s pa bs).mem = s.mem.writeBytes pa bs := by
  obtain ⟨c, hc⟩ := heldDirty_eq s pa
  rw [storeStep_eq, homeStep_mem (h.of_keeps (heldDirty_storeKeeps s pa)), hc]

section
variable {s : State} (hlog : Unlogged s) (pa a : Nat) (d : Fin 32)

theorem recorded_storeKeeps : StoreKeeps s (recorded s pa a d) := (storeStep_storeKeeps s _ _).trans (homeStep_storeKeeps _ _ _)

include hlog

theorem recorded_mem : (recorded s pa a d).mem = (s.mem.writeBytes a (recordBytes s (futureHead (s.mem.readLE pa 16)) d)).writeLE pa 16
    (s.mem.readLE pa 16 % 2 ^ 64 + a / 32 * 2 ^ 69) := by
  rw [recorded, homeStep_mem (hlog.of_keeps (storeStep_storeKeeps s _ _)), storeStep_mem hlog]
  rfl

theorem recorded_read {x : Nat} (h1 : x < pa ∨ pa + 16 ≤ x) (h2 : x < a ∨ a + 32 ≤ x) : (recorded s pa a d).mem.read x = s.mem.read x := by
  rw [recorded_mem hlog, Memory.read_writeLE_out _ _ _ _ _ h1, Memory.read_writeBytes_out _ _ _ _ (by rwa [length_recordBytes])]

theorem recorded_future (hwf : s.mem.wf = true) :
    (recorded s pa a d).mem.readLE pa 16 = s.mem.readLE pa 16 % 2 ^ 64 + a / 32 % 2 ^ 59 * 2 ^ 69 := by
  rw [recorded_mem hlog, Memory.readLE_writeLE (Memory.wf_writeBytes hwf _ _)]
  omega

theorem recorded_record (hwf : s.mem.wf = true) (hdisjoint : a + 32 ≤ pa ∨ pa + 16 ≤ a) :
    (recorded s pa a d).mem.bytes a 32 = recordBytes s (s.mem.readLE pa 16 / 2 ^ 69 * 32) d := by
  have hhead : futureHead (s.mem.readLE pa 16) = s.mem.readLE pa 16 / 2 ^ 69 * 32 := by
    have hlt := Memory.readLE_lt s.mem pa 16
    rw [futureHead, Bits.fld, Nat.shiftRight_eq_div_pow]
    omega
  have hbytes := Memory.bytes_writeBytes hwf a (recordBytes s (s.mem.readLE pa 16 / 2 ^ 69 * 32) d)
  rw [length_recordBytes] at hbytes
  rw [recorded_mem hlog, hhead]
  exact (Memory.bytes_congr fun c h1 h2 => Memory.read_writeLE_out _ _ _ _ _ (by omega)).trans hbytes

end

/-! ### FST and FRST (R135) -/

theorem awaitWalk_done {s : State} (h : s.ctx.walking = none) : awaitWalk s = .ok s := by
  rw [awaitWalk, h]

theorem not_replaying {s : State} (h : s.ctx.pair = none) : replaying s = false := by
  simp [replaying, h]

/-- R135: a future filled. -/
def filledFuture (s : State) (pa : Nat) (v : Word) : State := homeStep s pa (Bits.bytesLE 16 (v.toNat + 2 ^ 64))

/-- R135: a continuation queued at its record's core. -/
def queuedCont (u : State) (stamp : Nat) (c : Cont) : State :=
  enqueue u (u.getCore c.core).gang (queueKey 1 c.core) c.prio ⟨0, some c, u.now, stamp⟩

/-- R135, R179: the queue of a continuation has a slot. -/
def contRoom (u : State) (c : Cont) : Prop := queueFull u (u.getCore c.core).gang (queueKey 1 c.core) = false

theorem walkList_cons {u : State} {stamp : Nat} {c : Cont} (h : contRoom u c) (rest : List Cont) :
    walkList stamp u (c :: rest) = walkList stamp (queuedCont u stamp c) rest := by
  rw [walkList, if_neg (by rw [h]; decide)]
  rfl

theorem fillFuture_walked {s t : State} {pa : Nat} {v : Word} {list : List Cont}
    (h : walkList (filledFuture s pa v).ctx.pts (filledFuture s pa v) list = (t, [])) : fillFuture s pa v list = t := by
  show (if (walkList (filledFuture s pa v).ctx.pts (filledFuture s pa v) list).2.isEmpty then
    (walkList (filledFuture s pa v).ctx.pts (filledFuture s pa v) list).1 else _) = t
  rw [h]
  rfl

theorem recordList_end (s : State) (v : Word) (fuel : Nat) : recordList s v fuel 0 = .ok (s, []) := by
  cases fuel <;> rfl

/-- R134, R357, R358: a record that is read where it stands. -/
theorem recordList_cons {s : State} {v : Word} {fuel a : Nat} (ha : a ≠ 0) (h : Sound s a) {cs : List Cont}
    (hrest : recordList s v fuel (s.mem.readLE (a + 16) 8) = .ok (s, cs)) :
    recordList s v (fuel + 1) a = .ok (s, recordCont s.mem v a :: cs) := by
  obtain ⟨hpois, harmed⟩ := h
  rw [recordList, if_neg ha]
  dsimp only
  rw [homeRead_unarmed harmed, if_neg (by rw [hpois]; decide), hrest]

/-- Bytes that are not all zero are listed. -/
theorem Memory.length_pos_of_readLE {m : Memory} {a n : Nat} (h : m.readLE a n ≠ 0) : 0 < m.length := by
  rw [List.length_pos_iff]
  rintro rfl
  refine h ?_
  unfold Memory.readLE
  clear h
  induction n generalizing a with
  | zero => rfl
  | succ n ih =>
    rw [Memory.bytes, Bits.ofBytesLE, ih]
    rfl

theorem filledFuture_walking {s : State} {g : Guard} {d : Fin 32} {m : Mem} {r : Grant} (hwalk : s.ctx.walking = none)
    (hgrant : Granted s (.fst g d m) (s.ea m) 16 16 .rmw false r) : (filledFuture r.s r.pa (s.rs d)).ctx.walking = none := by
  obtain ⟨hok, hallowed, -⟩ := hgrant
  obtain ⟨p, hp⟩ := (grant_checkFrame hok hallowed).ctx
  obtain ⟨q, hq⟩ := (homeStep_storeFrame r.s r.pa (Bits.bytesLE 16 ((s.rs d).toNat + 2 ^ 64))).ctx
  rw [filledFuture, hq, hp]
  exact hwalk

section
variable {s : State} {g : Guard} (hr : Runs s g) {d : Fin 32} {m : Mem} {r : Grant}
include hr

section
variable (hwalk : s.ctx.walking = none) (hgrant : Granted s (.fst g d m) (s.ea m) 16 16 .rmw false r)
include hwalk hgrant

/-- R135: FST of a full future. -/
theorem exec_fst_full (hfull : futureFull (r.s.mem.readLE r.pa 16) = true) :
    exec (.fst g d m) s = .next (takeTrap r.s ⟨0x17, s.ea m, 0, none⟩) := by
  obtain ⟨hok, hallowed, hpair⟩ := hgrant
  refine (guarded_runs hr _ _).trans ?_
  simp only [hwalk, Option.isSome_none, Bool.false_eq_true, if_false, bind, Except.bind, hok, hallowed, hfull, not_replaying hpair, Bool.not_false,
    Bool.and_true, if_true]
  rfl

/-- R135: FST of an empty future whose records can all be queued. -/
theorem exec_fst_empty (hwhole : Whole r.s) (hempty : futureFull (r.s.mem.readLE r.pa 16) = false) {list : List Cont} {t : State}
    (hlist : recordList r.s (s.rs d) (r.s.mem.length + 1) (futureHead (r.s.mem.readLE r.pa 16)) = .ok (r.s, list))
    (hqueue : walkList (filledFuture r.s r.pa (s.rs d)).ctx.pts (filledFuture r.s r.pa (s.rs d)) list = (t, []))
    (ht : t.ctx.walking = none) : exec (.fst g d m) s = .next t := by
  obtain ⟨hok, hallowed, hpair⟩ := hgrant
  refine guarded_ok hr ?_
  simp only [hwalk, Option.isSome_none, Bool.false_eq_true, if_false, bind, Except.bind, hok, hallowed, hempty, not_replaying hpair, Bool.not_false,
    Bool.and_true, hlist, accessMessage_solo hpair hwhole.1 hwhole.2, fillFuture_walked hqueue, awaitWalk_done ht]

end

section
variable (hgrant : Granted s (.frst g m) (s.ea m) 16 16 .rmw false r)
include hgrant

/-- R135: FRST of a full future. -/
theorem exec_frst_full (hwhole : Whole r.s) (hfull : futureFull (r.s.mem.readLE r.pa 16) = true) :
    exec (.frst g m) s = .next (homeStep r.s r.pa (Bits.bytesLE 16 0)) := by
  obtain ⟨hok, hallowed, hpair⟩ := hgrant
  refine guarded_ok hr ?_
  simp only [Bool.false_eq_true, if_false, bind, Except.bind, hok, hallowed, hfull, Bool.not_true, Bool.false_and,
    accessMessage_solo hpair hwhole.1 hwhole.2, if_true]
  rfl

/-- R135: FRST of a future with waiters. -/
theorem exec_frst_waiters (hempty : futureFull (r.s.mem.readLE r.pa 16) = false) (hhead : futureHead (r.s.mem.readLE r.pa 16) ≠ 0) :
    exec (.frst g m) s = .next (takeTrap r.s ⟨0x18, s.ea m, 0, none⟩) := by
  obtain ⟨hok, hallowed, -⟩ := hgrant
  refine (guarded_runs hr _ _).trans ?_
  simp only [Bool.false_eq_true, if_false, bind, Except.bind, hok, hallowed, hempty, Bool.not_false, Bool.true_and, decide_eq_true_eq, ne_eq, hhead,
    not_false_eq_true, if_true]
  rfl

end

end

end Sys2Proof.Machine

open Sys2Proof Sys2Proof.Machine

/-- Settles O29: FLD loads a full future or links its record before the head; FST fills the future and queues the list's continuations one by one; FRST resets. -/
theorem futures : Obligations.Futures := by
  unfold Obligations.Futures
  refine fun g d m s s1 pa r hr => ⟨fun hcheck hgrant => ⟨fun hfull => ⟨exec_fld_full hr hcheck hgrant hfull, fun hreg hcore => ?_⟩,
    exec_fld_empty hr hcheck hgrant⟩, fun c s2 a hcheck hrecord hreg hgrant hempty hallows hsound hfree hwhole => ?_,
    fun hwalk hgrant hwhole => ⟨fun hempty hhead => ?_, fun b hempty hhead hb hb0 hend hsound hsound' hroom hroom' => ?_, exec_fst_full hr hwalk hgrant⟩,
    fun hgrant hwhole => ⟨exec_frst_full hr hgrant hwhole, exec_frst_waiters hr hgrant⟩⟩
  · have hx := loadBytes_dropEmptyCopy hreg hcore 16
    rw [hx]
    exact ⟨rfl, rfl⟩
  · have hframe : CheckFrame s r.s :=
      ((checkMode_checkFrame hcheck).trans (checkMode_checkFrame hrecord)).trans (grant_checkFrame hgrant.1 hgrant.2.1)
    refine ⟨_, exec_fld_record hr hcheck hrecord hreg hgrant hempty hallows hsound hfree hwhole, ?_, fun hwf hshadow hdisjoint => ?_⟩
    · rw [endContext_same]
      rfl
    · have hlog : Unlogged r.s := .inr hshadow
      have hkeeps := recorded_storeKeeps (s := r.s) r.pa a d
      have hmem : (endContext (recorded r.s r.pa a d) r.s.cur).mem = (recorded r.s r.pa a d).mem :=
        endContext_mem (by rw [hkeeps.gangOf, hkeeps.shadow]; exact hshadow)
      intro f
      rw [hmem, ← recordBytes_checked hframe, ← hframe.mem]
      exact ⟨recorded_future hlog r.pa a d hwf, recorded_record hlog r.pa a d hwf hdisjoint, fun x h1 h2 => recorded_read hlog r.pa a d h1 h2⟩
  · refine exec_fst_empty hr hwalk hgrant hwhole hempty (list := []) ?_ rfl (filledFuture_walking hwalk hgrant)
    rw [hhead]
    exact recordList_end _ _ _
  · replace hb : r.s.mem.readLE (futureHead (r.s.mem.readLE r.pa 16) + 16) 8 = b := hb
    replace hend : r.s.mem.readLE (b + 16) 8 = 0 := hend
    obtain ⟨k, hk⟩ : ∃ k, r.s.mem.length = k + 1 :=
      Nat.exists_eq_succ_of_ne_zero (Nat.pos_iff_ne_zero.mp (Memory.length_pos_of_readLE (by rw [hb]; exact hb0)))
    have hlast : recordList r.s (s.rs d) (k + 1) b = .ok (r.s, [recordCont r.s.mem (s.rs d) b]) :=
      recordList_cons hb0 hsound' (by rw [hend]; exact recordList_end _ _ _)
    refine exec_fst_empty hr hwalk hgrant hwhole hempty
      (list := [recordCont r.s.mem (s.rs d) (futureHead (r.s.mem.readLE r.pa 16)), recordCont r.s.mem (s.rs d) b]) ?_ ?_ ?_
    · rw [hk]
      exact recordList_cons hhead hsound (by rw [hb]; exact hlast)
    · have hfirst : contRoom (filledFuture r.s r.pa (s.rs d)) (recordCont r.s.mem (s.rs d) (futureHead (r.s.mem.readLE r.pa 16))) := hroom
      have hsecond : contRoom (queuedCont (filledFuture r.s r.pa (s.rs d)) (filledFuture r.s r.pa (s.rs d)).ctx.pts
        (recordCont r.s.mem (s.rs d) (futureHead (r.s.mem.readLE r.pa 16)))) (recordCont r.s.mem (s.rs d) b) := hroom'
      exact (walkList_cons hfirst _).trans ((walkList_cons hsecond _).trans rfl)
    · exact filledFuture_walking hwalk hgrant
end

section
/-! PROOFS. Where the registers of a block stand, and what a write to one does (R138, R169, R324 to R326, R358). -/
namespace Sys2Proof.Machine

/-- R324: an offset inside a block of control space. -/
def InBlock : Block → Nat → Prop
  | .slice i, r => i < 512 ∧ r < 4096
  | .base j, r => j < 8 ∧ r < 4096
  | .front n, r => n < 128 ∧ r < 64
  | .core c, r => c < 4096 ∧ r < 4096
  | .package, r => r < 0xA00
  | .none, _ => False

/-- R324: the number of a block's register in the package's region 2. -/
def regOff : Block → Nat → Nat
  | .slice i, r => 4096 * i + r
  | .base j, r => 2 ^ 32 + 4096 * j + r
  | .front n, r => 2 * 2 ^ 32 + 64 * n + r
  | .core c, r => 3 * 2 ^ 32 + 4096 * c + r
  | .package, r => 4 * 2 ^ 32 + r
  | .none, r => 15 * 2 ^ 32 + r

theorem blockPa_eq (pkg : Nat) (b : Block) (r : Nat) : blockPa pkg b r = mkPa pkg 2 (regOff b r) := by
  cases b <;> rfl

theorem regOff_lt {b : Block} {r : Nat} (h : InBlock b r) : regOff b r < 2 ^ 44 := by
  cases b <;> simp only [InBlock, regOff] at h ⊢ <;> omega

theorem blockOf_regOff {b : Block} {r : Nat} (h : InBlock b r) : blockOf (regOff b r) = (b, r) := by
  have split (k n d : Nat) (hn : n < 2 ^ 32) (hd : d = k * 2 ^ 32 + n) : d / 2 ^ 32 = k ∧ d % 2 ^ 32 = n := by omega
  cases b with
  | none => exact h.elim
  | slice i =>
    obtain ⟨hi, hr⟩ := h
    obtain ⟨hk, hn⟩ := split 0 (4096 * i + r) (regOff (.slice i) r) (by omega) (by simp only [regOff]; omega)
    simp only [blockOf, hk, hn]
    rw [if_pos (by omega)]
    congr 2 <;> omega
  | base j =>
    obtain ⟨hj, hr⟩ := h
    obtain ⟨hk, hn⟩ := split 1 (4096 * j + r) (regOff (.base j) r) (by omega) (by simp only [regOff]; omega)
    simp only [blockOf, hk, hn]
    rw [if_pos (by omega)]
    congr 2 <;> omega
  | front n =>
    obtain ⟨hj, hr⟩ := h
    obtain ⟨hk, hn⟩ := split 2 (64 * n + r) (regOff (.front n) r) (by omega) (by simp only [regOff]; omega)
    simp only [blockOf, hk, hn]
    rw [if_pos (by omega)]
    congr 2 <;> omega
  | core c =>
    obtain ⟨hj, hr⟩ := h
    obtain ⟨hk, hn⟩ := split 3 (4096 * c + r) (regOff (.core c) r) (by omega) (by simp only [regOff]; omega)
    simp only [blockOf, hk, hn]
    rw [if_pos (by omega)]
    congr 2 <;> omega
  | package =>
    replace h : r < 0xA00 := h
    obtain ⟨hk, hn⟩ := split 4 r (regOff .package r) (by omega) (by simp only [regOff])
    simp only [blockOf, hk, hn]
    rw [if_pos h]

theorem blockOf_blockPa {b : Block} {r : Nat} (h : InBlock b r) (pkg : Nat) : blockOf (paOff (blockPa pkg b r)) = (b, r) := by
  have hlt := regOff_lt h
  have hoff : paOff (blockPa pkg b r) = regOff b r := by
    rw [blockPa_eq]
    simp only [paOff, mkPa]
    omega
  rw [hoff, blockOf_regOff h]

theorem paReg_blockPa {b : Block} {r : Nat} (h : InBlock b r) (pkg : Nat) : paReg (blockPa pkg b r) = 2 := by
  have hlt := regOff_lt h
  rw [blockPa_eq]
  simp only [paReg, mkPa]
  omega

theorem paPkg_blockPa {b : Block} {r pkg : Nat} (h : InBlock b r) (hpkg : pkg < 4096) : paPkg (blockPa pkg b r) = pkg := by
  have hlt := regOff_lt h
  rw [blockPa_eq]
  simp only [paPkg, mkPa]
  omega

/-- R326: whether the host port may write the registers of a block; no table guards those of front ends and of the package. -/
def hostWrites (s : State) (pkg : Nat) : Block → Bool
  | .slice i => tableAllows s pkg (.slice i) 0xFFFF false true
  | .base j => tableAllows s pkg (.base j) 0xFFFF false true
  | .core c => tableAllows s pkg (.core c) 0xFFFF false true
  | _ => true

theorem targetAllows_blockPa {b : Block} {r pkg : Nat} (h : InBlock b r) (hpkg : pkg < 4096) (s : State) :
    targetAllows s 0 0 0xFFFF (blockPa pkg b r) false true = hostWrites s pkg b := by
  unfold targetAllows
  rw [paReg_blockPa h, paPkg_blockPa h hpkg, blockOf_blockPa h]
  cases b <;> rfl

theorem exec_controlRegisterWrite {b : Block} {r pkg : Nat} (h : InBlock b r) (hpkg : pkg < 4096) (s : State) (v : Word) :
    exec (.controlRegisterWrite (blockPa pkg b r) v) s =
      .next (if hostWrites s pkg b = true then ctrlWrite s (blockPa pkg b r) v else s) := by
  show execControlRegisterWrite _ _ _ = _
  unfold execControlRegisterWrite
  rw [targetAllows_blockPa h hpkg, paReg_blockPa h]
  cases hostWrites s pkg b <;> simp

theorem exec_einjArm {pkg : Nat} (hpkg : pkg < 4096) (die : Fin 8) (s : State) (v : Word) :
    exec (.einjArm pkg die v) s =
      .next (if hostWrites s pkg (.base die.val) = true then ctrlWrite s (blockPa pkg (.base die.val) 0xA00) v else s) := by
  have hin : InBlock (.base die.val) 0xA00 := ⟨die.isLt, by decide⟩
  show execEinjArm _ _ _ _ = _
  unfold execEinjArm
  dsimp only
  rw [targetAllows_blockPa hin hpkg]
  cases hostWrites s pkg (.base die.val) <;> simp

/-- R324: a write to an unlisted offset changes nothing. -/
theorem ctrlWrite_unlisted {s : State} {pa : Nat} (h : ctrlMask (blockOf (paOff pa)).1 (blockOf (paOff pa)).2 = none) (v : Word) :
    ctrlWrite s pa v = s := by
  unfold ctrlWrite
  dsimp only
  rw [h]

section
variable (s : State) {pa : Nat} (v : Word)

/-- R138: Q, and W of an accumulate window. -/
theorem ctrlWrite_quota {i : Nat} (h : blockOf (paOff pa) = (.slice i, 0x100)) :
    ctrlWrite s pa v = ctrlSet s pa (BitVec.ofNat 64 (min v.toNat 255)) := by
  unfold ctrlWrite
  rw [h]
  rfl

theorem ctrlWrite_window {i : Nat} (h : blockOf (paOff pa) = (.slice i, 0x108)) :
    ctrlWrite s pa v = ctrlSet (rollWindow s (paPkg pa * 512 + i)) pa (BitVec.ofNat 64 (max 16 (min v.toNat 65535))) := by
  unfold ctrlWrite
  rw [h]
  rfl

/-- R324: a register whose write stores the bits of its mask and does nothing else. -/
theorem ctrlWrite_masked {b : Block} {r m : Nat} (h : blockOf (paOff pa) = (b, r)) (hmask : ctrlMask b r = some m) (hslice : ∀ i, b ≠ .slice i)
    (hfront : ∀ n, b = .front n → r = 0x00 ∨ r = 0x18) : ctrlWrite s pa v = ctrlSet s pa (v &&& BitVec.ofNat 64 m) := by
  unfold ctrlWrite
  rw [h]
  dsimp only
  rw [hmask]
  cases b with
  | slice i => exact absurd rfl (hslice i)
  | front n => rcases hfront n rfl with rfl | rfl <;> rfl
  | base _ | core _ | package | none => rfl

/-- R169: a front end runs. -/
def feRuns (s : State) (pkg n : Nat) : Bool :=
  (ctrlRaw s (blockPa pkg (.front n) 0x20)).getLsbD 0 && !(ctrlRaw s (blockPa pkg (.front n) 0x28)).getLsbD 0

/-- R169: RINGLEN, CSHEAD, CSCTL and CSSTAT of a front end. -/
theorem ctrlWrite_ringLen {n : Nat} (h : blockOf (paOff pa) = (.front n, 0x08)) :
    ctrlWrite s pa v = ctrlSet s pa (BitVec.ofNat 64 (max 12 (min v.toNat 24))) := by
  unfold ctrlWrite
  rw [h]
  rfl

theorem ctrlWrite_csHead {n : Nat} (h : blockOf (paOff pa) = (.front n, 0x10)) :
    ctrlWrite s pa v = if feRuns s (paPkg pa) n then s else ctrlSet s pa (v &&& 0xFFFFFFFFFFFFFFE0) := by
  unfold ctrlWrite
  rw [h]
  simp [ctrlMask, feRuns]

theorem ctrlWrite_csCtl {n : Nat} (h : blockOf (paOff pa) = (.front n, 0x20)) :
    ctrlWrite s pa v = ctrlSet (if v.getLsbD 1 then clearStop s (paPkg pa) n else s) pa (v &&& 1) := by
  unfold ctrlWrite
  rw [h]
  rfl

theorem ctrlWrite_csStat {n : Nat} (h : blockOf (paOff pa) = (.front n, 0x28)) : ctrlWrite s pa v = s := by
  unfold ctrlWrite
  rw [h]
  rfl

end

/-- R325, R326: the masks of an access table, of the package block's entries and of the system map. -/
theorem ctrlMask_core {c i : Nat} (hi : i < 64) : ctrlMask (.core c) (0x800 + 8 * i) = some 0xFFFF000000000007 := by
  have hrange : 0x800 + 8 * i < 0xA00 ∧ (0x800 + 8 * i) % 8 = 0 := by omega
  simp [ctrlMask, hrange]

theorem ctrlMask_package {i : Nat} (hi : i < 64) : ctrlMask .package (0x100 + 16 * i) = some 0xFFFF0003FFFFFFFF ∧
    ctrlMask .package (0x108 + 16 * i) = some 0xFFFFFFFFFFFFFFFF ∧ ctrlMask .package (0x800 + 8 * i) = some 0x3FFF := by
  have hlow : (0x100 + 16 * i) % 16 = 0 ∧ (0x108 + 16 * i) % 16 = 8 ∧ (0x800 + 8 * i) % 8 = 0 := by omega
  have hlt : 0x100 + 16 * i < 0x500 ∧ 0x108 + 16 * i < 0x500 ∧ ¬ 0x800 + 8 * i < 0x500 ∧ 0x800 + 8 * i < 0xA00 := by omega
  obtain ⟨h1, h2, h3⟩ := hlow
  obtain ⟨h4, h5, h6, h7⟩ := hlt
  have h8 : 0x100 ≤ 0x108 + 16 * i := by omega
  refine ⟨?_, ?_, ?_⟩
  · have : ¬ 256 + 16 * i = 8 := by omega
    simp [ctrlMask, h1, h4, this]
  · simp [ctrlMask, h2, h5, h8]
  · have : ¬ 2048 + 8 * i = 8 := by omega
    simp [ctrlMask, h3, h6, h7, this]

end Sys2Proof.Machine
end

section
/-! PROOFS. The registers of front ends and the packets that they read (R169, R170). -/
namespace Sys2Proof.Machine

theorem ctrlRaw_ctrlSet_same (s : State) (pa : Nat) (v : Word) : ctrlRaw (ctrlSet s pa v) pa = v := mget_mset_same _ _ _ _

theorem ctrlRaw_ctrlSet_ne (s : State) {p pa : Nat} (v : Word) (h : p ≠ pa) : ctrlRaw (ctrlSet s pa v) p = ctrlRaw s p := by
  unfold ctrlRaw ctrlSet
  dsimp only
  rw [mget_mset_ne _ _ _ _ _ h]

theorem frontPa_ne (p : Nat) {n off off' : Nat} (h : off ≠ off') : blockPa p (.front n) off ≠ blockPa p (.front n) off' := by
  simp only [blockPa, mkPa]
  omega

theorem feReg_feSet_same (s : State) (id off v : Nat) : feReg (feSet s id off v) id off = v % 2 ^ 64 := by
  rw [feReg, feSet, ctrlRaw_ctrlSet_same, BitVec.toNat_ofNat]

theorem feReg_feSet_ne (s : State) (id v : Nat) {off off' : Nat} (h : off' ≠ off) : feReg (feSet s id off v) id off' = feReg s id off' := by
  rw [feReg, feSet, ctrlRaw_ctrlSet_ne s _ (frontPa_ne _ h), feReg]

theorem feAdvance_head {s : State} {id : Nat} (n : Nat) (h : feReg s id 0x08 ≤ 24) :
    feReg (feAdvance s id n) id 0x10 = (feHead s id + 32 * n) % feSize s id := by
  have hsize : feSize s id ≤ 2 ^ 24 := Nat.pow_le_pow_right (by decide) h
  have hpos : 0 < feSize s id := Nat.two_pow_pos _
  have hlt := Nat.mod_lt (feHead s id + 32 * n) hpos
  rw [feAdvance, feReg_feSet_ne _ _ _ (by decide), feReg_feSet_same]
  exact Nat.mod_eq_of_lt (by omega)

theorem feAdvance_waiting (s : State) (id n : Nat) : Bits.bit (feReg (feAdvance s id n) id 0x28) 1 = false := by
  rw [feAdvance, feReg_feSet_same]
  simp only [Bits.bit, beq_eq_false_iff_ne]
  omega

theorem feStop_stat (s : State) (id : Nat) {n : Nat} (h : n < 256) : feReg (feStop s id n) id 0x28 = n * 256 + 1 := by
  rw [feStop, feReg_feSet_same]
  omega

@[simp] theorem feLoads_mem (s : State) (id : Nat) (lines : List Nat) : (feLoads s id lines).mem = s.mem := by
  unfold feLoads
  refine foldl_keeps State.mem _ (fun t l => ?_) lines s
  exact homeRead_mem t .other (l * 64)

/-- R152: the bytes of a front end's store, which no gang logs. -/
theorem feStore_mem (s : State) (id pa : Nat) (bs : List Byte) : (feStore s id pa bs).mem = s.mem.writeBytes pa bs :=
  putBytes_mem (.inl rfl) pa bs

/-! ### Reading a packet -/

/-- R169: the length byte at CSHEAD. -/
def feLen (s : State) (id : Nat) : Nat := (s.mem.read (feReg s id 0x00 + (feHead s id + 1) % feSize s id)).toNat

/-- R169, R170: how many bytes a front end reads at CSHEAD: one unit where the length is wrong. -/
def feCount (s : State) (id : Nat) : Nat := 32 * (if feLen s id = 0 || 8 < feLen s id then 1 else feLen s id)

/-- R169: the lines of the packet at CSHEAD. -/
def feLines (s : State) (id : Nat) : List Nat := ((ringAddrs s id (feCount s id)).map (· / 64)).eraseDups

/-- R169: the bytes of the packet at CSHEAD. -/
def feBytes (s : State) (id : Nat) : List Byte := (ringAddrs s id (feCount s id)).map (feLoads s id (feLines s id)).mem.read

theorem readStream_eq (s : State) (id : Nat) : readStream s id =
    if !feReady s id then .idle
    else if (feLines s id).any (fun l => !feAllowed s (feMaster s id) (l * 64) true false) then .bad s 0x12
    else if (feLines s id).any (fun l => poisoned (feLoads s id (feLines s id)) (l * 64)) then .bad (feLoads s id (feLines s id)) 0x42
    else if feLen s id = 0 || 8 < feLen s id then .bad (feLoads s id (feLines s id)) 0x47
    else match streamFault (feLoads s id (feLines s id)) id (feBytes s id) with
      | some c => .bad (feLoads s id (feLines s id)) c
      | none => .packet (feLoads s id (feLines s id)) (feBytes s id) := rfl

theorem readStream_packet {s t : State} {id : Nat} {bs : List Byte} (h : readStream s id = .packet t bs) :
    t = feLoads s id (feLines s id) ∧ bs = feBytes s id ∧ 1 ≤ feLen s id ∧ feLen s id ≤ 8 ∧ streamFault t id bs = none := by
  rw [readStream_eq] at h
  split at h
  · cases h
  split at h
  · cases h
  split at h
  · cases h
  split at h
  · cases h
  next hlen =>
    simp only [Bool.or_eq_true, decide_eq_true_eq, not_or] at hlen
    split at h
    · cases h
    next hfault =>
      obtain ⟨rfl, rfl⟩ := StreamRead.packet.inj h
      exact ⟨rfl, rfl, by omega, by omega, hfault⟩

/-- R170: why a packet's bytes stop a front end. -/
theorem streamFault_cause {t : State} {id c : Nat} {bs : List Byte} (h : streamFault t id bs = some c) : c = 0x42 ∨ c = 0x47 := by
  unfold streamFault at h
  split at h
  · exact .inl (Option.some.inj h).symm
  split at h
  · exact .inr (Option.some.inj h).symm
  split at h
  · exact .inr (Option.some.inj h).symm
  · cases h

theorem readStream_bad {s t : State} {id c : Nat} (h : readStream s id = .bad t c) : (c = 0x12 ∨ c = 0x42 ∨ c = 0x47) ∧ t.mem = s.mem := by
  rw [readStream_eq] at h
  split at h
  · cases h
  split at h
  · obtain ⟨rfl, rfl⟩ := StreamRead.bad.inj h
    exact ⟨.inl rfl, rfl⟩
  split at h
  · obtain ⟨rfl, rfl⟩ := StreamRead.bad.inj h
    exact ⟨.inr (.inl rfl), feLoads_mem _ _ _⟩
  split at h
  · obtain ⟨rfl, rfl⟩ := StreamRead.bad.inj h
    exact ⟨.inr (.inr rfl), feLoads_mem _ _ _⟩
  split at h
  next hfault =>
    obtain ⟨rfl, rfl⟩ := StreamRead.bad.inj h
    exact ⟨.inr (streamFault_cause hfault), feLoads_mem _ _ _⟩
  · cases h

theorem bodyEnd_some {k n : Nat} (h : bodyEnd k = some n) : k ≤ 4 := by
  by_contra hk
  obtain ⟨m, rfl⟩ := Nat.exists_eq_add_of_le' (Nat.lt_of_not_le hk)
  simp [bodyEnd] at h

/-- R170: what a packet without fault satisfies. -/
theorem streamFault_none {t : State} {id : Nat} {bs : List Byte} (h : streamFault t id bs = none) :
    Crc.crc32 (bs.take 4 ++ [0, 0, 0, 0] ++ bs.drop 8) = fieldAt bs 4 4 ∧ fieldAt bs 0 1 ≤ 4 ∧ fieldAt bs 2 2 = 0 ∧
      streamBodyOk t id (fieldAt bs 0 1) bs = true := by
  unfold streamFault at h
  split at h
  · cases h
  next hcrc =>
    split at h
    · cases h
    next n hn =>
      split at h
      · cases h
      next hbody =>
        simp only [Bool.or_eq_true, decide_eq_true_eq, Bool.not_eq_true', not_or, Bool.not_eq_true, Bool.not_eq_false] at hbody
        obtain ⟨⟨⟨-, hzero⟩, -⟩, hok⟩ := hbody
        refine ⟨not_not.mp hcrc, ?_, not_not.mp hzero, by simpa using hok⟩
        exact bodyEnd_some hn

theorem fieldAt_one {bs : List Byte} {k : Nat} (h : k < bs.length) : fieldAt bs k 1 = (bs[k]).toNat := by
  unfold fieldAt
  rw [List.take_one_drop_eq_of_lt_length h]
  simp [Bits.ofBytesLE]

section
variable {s : State} {id : Nat}

theorem length_feBytes (h1 : 1 ≤ feLen s id) (h2 : feLen s id ≤ 8) : (feBytes s id).length = 32 * feLen s id := by
  have hlen : ¬ (feLen s id = 0 ∨ 8 < feLen s id) := by omega
  simp [feBytes, ringAddrs, feCount, hlen]

theorem feBytes_at {k : Nat} (h : k < (feBytes s id).length) :
    (feBytes s id)[k] = s.mem.read (feReg s id 0x00 + (feHead s id + k) % feSize s id) := by
  simp [feBytes, ringAddrs]

/-- R169: a packet's second byte is its length. -/
theorem fieldAt_length (h1 : 1 ≤ feLen s id) (h2 : feLen s id ≤ 8) : fieldAt (feBytes s id) 1 1 = feLen s id := by
  have hlt : 1 < (feBytes s id).length := by
    rw [length_feBytes h1 h2]
    omega
  unfold feLen
  exact (fieldAt_one hlt).trans (congrArg BitVec.toNat (feBytes_at hlt))

/-- R170: a packet's first byte is the kind that its front end looks for. -/
theorem fieldAt_kind (h1 : 1 ≤ feLen s id) (h2 : feLen s id ≤ 8) : fieldAt (feBytes s id) 0 1 = feKind s id := by
  have hhead : (feHead s id + 0) % feSize s id = feHead s id := by
    unfold feHead
    rw [Nat.add_zero, Nat.mod_mod]
  rw [fieldAt_one (by rw [length_feBytes h1 h2]; omega), feBytes_at, hhead, feKind]

end

/-! ### The steps of packets -/

section
variable {s t : State} {mine : Nat → Bool} {effect : State → Nat → List Byte → State}

theorem streamStep_packet {bs : List Byte} (h : readStream s s.subject = .packet t bs) (hmine : mine (fieldAt bs 0 1) = true) :
    streamStep s mine effect = .next (effect t s.subject bs) := by
  obtain ⟨-, hbs, h1, h2, -⟩ := readStream_packet h
  rw [hbs, fieldAt_kind h1 h2] at hmine
  unfold streamStep
  dsimp only
  rw [hmine, h]
  rfl

theorem streamStep_bad {c : Nat} (h : readStream s s.subject = .bad t c) (hmine : mine (feKind s s.subject) = true) :
    streamStep s mine effect = .next (feStop t s.subject c) := by
  unfold streamStep
  dsimp only
  rw [hmine, h]
  rfl

end

section
variable {s t : State} {bs : List Byte} (h : readStream s s.subject = .packet t bs)
include h

theorem exec_streamNop (hkind : fieldAt bs 0 1 = 0) : exec .streamNop s = .next (feAdvance t s.subject (bs.length / 32)) := by
  show execStreamNop s = _
  rw [execStreamNop, streamStep_packet h (by rw [hkind]; decide)]
  rfl

/-- R170: the launch that a packet submits. -/
def feLaunch (t : State) (id : Nat) (bs : List Byte) : Launch :=
  let a := fieldAt bs 8 8
  { pkg := id / 128, record := [a, a + 64, a + 128, a + 192], fe := some id, src := none, twin := none, gang := 0
    sup := (ctrlRaw t (blockPa (id / 128) .package (8 * (id % 128 / 64)))).getLsbD (id % 128 % 64)
    completion := if fieldAt bs 16 8 = 0 then none else some (fieldAt bs 16 8, BitVec.ofNat 64 (fieldAt bs 24 8)), held := none }

theorem exec_streamLaunch (hkind : fieldAt bs 0 1 = 1) :
    exec .streamLaunch s = .next { t with launches := t.launches ++ [feLaunch t s.subject bs] } := by
  show execStreamLaunch s = _
  rw [execStreamLaunch, streamStep_packet h (by rw [hkind]; decide)]
  rfl

end

theorem exec_waits_eq (s : State) : exec (if Bits.bit (feReg s s.subject 0x28) 1 then .waitsSatisfied else .waits) s =
    streamStep s (· = 2) waitsRead := by
  cases h : Bits.bit (feReg s s.subject 0x28) 1
  · show execWaits s = _
    rw [execWaits, h, if_neg Bool.false_ne_true]
  · show execWaitsSatisfied s = _
    rw [execWaitsSatisfied, h, if_pos rfl]

/-- R170: the comparison of WAITS, with a condition that its check lets pass. -/
theorem waitsHolds_iff {fn w x : Nat} (h : fn ≤ 2) :
    waitsHolds fn w x = true ↔ (fn = 0 ∧ w ≤ x) ∨ (fn = 1 ∧ x = w) ∨ (fn = 2 ∧ x ≠ w) := by
  obtain rfl | rfl | rfl : fn = 0 ∨ fn = 1 ∨ fn = 2 := by omega
  all_goals simp [waitsHolds]

section
variable {s : State} {id : Nat} {bs : List Byte}

/-- R170: the state in which a WAITS has read its semaphore. -/
def waitsSeen (s : State) (bs : List Byte) : State := homeRead s .other (fieldAt bs 8 8)

theorem waitsRead_refused (h : feAllowed s (feMaster s id) (fieldAt bs 8 8) true false = false) : waitsRead s id bs = feStop s id 0x12 := by
  unfold waitsRead
  dsimp only
  rw [h]
  rfl

theorem waitsRead_allowed (h : feAllowed s (feMaster s id) (fieldAt bs 8 8) true false = true) : waitsRead s id bs =
    if !poisoned (waitsSeen s bs) (fieldAt bs 8 8) && waitsHolds (fieldAt bs 24 1) (fieldAt bs 16 8) ((waitsSeen s bs).mem.readLE (fieldAt bs 8 8) 8) then
      feAdvance (feLoads (waitsSeen s bs) id [fieldAt bs 8 8 / 64]) id (bs.length / 32)
    else feSet (waitsSeen s bs) id 0x28 (feReg (waitsSeen s bs) id 0x28 ||| 2) := by
  unfold waitsRead
  dsimp only
  rw [h, if_neg (by decide)]
  rfl

theorem waitsRead_holds (h : feAllowed s (feMaster s id) (fieldAt bs 8 8) true false = true) (hp : poisoned (waitsSeen s bs) (fieldAt bs 8 8) = false)
    (hw : waitsHolds (fieldAt bs 24 1) (fieldAt bs 16 8) ((waitsSeen s bs).mem.readLE (fieldAt bs 8 8) 8) = true) :
    waitsRead s id bs = feAdvance (feLoads (waitsSeen s bs) id [fieldAt bs 8 8 / 64]) id (bs.length / 32) := by
  rw [waitsRead_allowed h, hp, hw]
  rfl

theorem waitsRead_waits (h : feAllowed s (feMaster s id) (fieldAt bs 8 8) true false = true) (hp : poisoned (waitsSeen s bs) (fieldAt bs 8 8) = true ∨
    ¬ waitsHolds (fieldAt bs 24 1) (fieldAt bs 16 8) ((waitsSeen s bs).mem.readLE (fieldAt bs 8 8) 8) = true) :
    waitsRead s id bs = feSet (waitsSeen s bs) id 0x28 (feReg (waitsSeen s bs) id 0x28 ||| 2) := by
  rw [waitsRead_allowed h, if_neg]
  simpa [imp_iff_or_not, or_comm] using hp

end

/-- R170: what SIGNAL and GSTAMP store, once their access is allowed. -/
def feStored (s : State) (id pa v : Nat) (len : Nat) : State :=
  feAdvance (if poisoned s pa then s else feStore s id pa (Bits.bytesLE 8 v)) id len

theorem feStored_unpoisoned {s : State} {id pa v len : Nat} (hp : poisoned s pa = false) (hwf : s.mem.wf = true) :
    ∃ r, feStored s id pa v len = feAdvance r id len ∧ r.numAt pa 8 = v % 2 ^ 64 ∧ SameMemoryBut s r pa 8 := by
  have hlen : (Bits.bytesLE 8 v).length = 8 := Bits.length_bytesLE 8 v
  refine ⟨feStore s id pa (Bits.bytesLE 8 v), ?_, ?_, fun a ha => ?_⟩
  · rw [feStored, if_neg (by rw [hp]; decide)]
  · show Memory.readLE _ pa 8 = _
    rw [feStore_mem]
    exact Memory.readLE_writeLE hwf pa 8 v
  · rw [feStore_mem]
    exact Memory.read_writeBytes_out _ _ _ _ (by rwa [hlen])

theorem feStored_poisoned {s : State} {id pa v len : Nat} (hp : poisoned s pa = true) : feStored s id pa v len = feAdvance s id len := by
  rw [feStored, if_pos hp]

section
variable {s t : State} {bs : List Byte} (h : readStream s s.subject = .packet t bs)
include h

/-- R170: the state in which a SIGNAL has read what it adds to, and the doubleword that it stores. -/
def signalSeen (t : State) (bs : List Byte) : State := if fieldAt bs 24 1 = 1 then homeRead t .other (fieldAt bs 8 8) else t
def signalValue (t : State) (bs : List Byte) : Nat :=
  if fieldAt bs 24 1 = 1 then ((signalSeen t bs).mem.readLE (fieldAt bs 8 8) 8 + fieldAt bs 16 8) % 2 ^ 64 else fieldAt bs 16 8

theorem exec_streamSignal_eq (hkind : fieldAt bs 0 1 = 3) : exec .streamSignal s = .next
    (if !feAllowed t (feMaster t s.subject) (fieldAt bs 8 8) (fieldAt bs 24 1 = 1) true then feStop t s.subject 0x12
    else feStored (signalSeen t bs) s.subject (fieldAt bs 8 8) (signalValue t bs) (bs.length / 32)) := by
  show execStreamSignal s = _
  rw [execStreamSignal, streamStep_packet h (by rw [hkind]; decide)]
  rfl

theorem exec_gstamp_eq (hkind : fieldAt bs 0 1 = 4) : exec .gstamp s = .next
    (if !feAllowed t (feMaster t s.subject) (fieldAt bs 8 8) false true then feStop t s.subject 0x12
    else feStored t s.subject (fieldAt bs 8 8) t.now (bs.length / 32)) := by
  show execGstamp s = _
  rw [execGstamp, streamStep_packet h (by rw [hkind]; decide)]
  rfl

end

/-! ### The clauses on packets -/

section
variable {s t : State} {c : Nat} (h : readStream s s.subject = .bad t c)
include h

/-- R170: the step of a kind stops its front end at a bad packet. -/
theorem exec_stream_bad :
    (feKind s s.subject = 0 ∨ 4 < feKind s s.subject → exec .streamNop s = .next (feStop t s.subject c)) ∧
    (feKind s s.subject = 1 → exec .streamLaunch s = .next (feStop t s.subject c)) ∧
    (feKind s s.subject = 2 → exec (if Bits.bit (feReg s s.subject 0x28) 1 then .waitsSatisfied else .waits) s = .next (feStop t s.subject c)) ∧
    (feKind s s.subject = 3 → exec .streamSignal s = .next (feStop t s.subject c)) ∧
    (feKind s s.subject = 4 → exec .gstamp s = .next (feStop t s.subject c)) := by
  refine ⟨fun hk => ?_, fun hk => ?_, fun hk => ?_, fun hk => ?_, fun hk => ?_⟩
  · show execStreamNop s = _
    rw [execStreamNop, streamStep_bad h (by simpa using hk)]
  · show execStreamLaunch s = _
    rw [execStreamLaunch, streamStep_bad h (by simpa using hk)]
  · rw [exec_waits_eq, streamStep_bad h (by simpa using hk)]
  · show execStreamSignal s = _
    rw [execStreamSignal, streamStep_bad h (by simpa using hk)]
  · show execGstamp s = _
    rw [execGstamp, streamStep_bad h (by simpa using hk)]

end

section
variable {s t : State} {bs : List Byte} (h : readStream s s.subject = .packet t bs)
include h

/-- R170: a WAITS packet, `u` being the state in which its semaphore has been read. -/
theorem exec_waits_packet (hkind : fieldAt bs 0 1 = 2) {rd : Bool} (hrd : rd = true) {u : State} (hu : u = homeRead t .other (fieldAt bs 8 8)) :
    let e : Instr := if Bits.bit (feReg s s.subject 0x28) 1 then .waitsSatisfied else .waits
    let w := fieldAt bs 16 8
    let x := u.mem.readLE (fieldAt bs 8 8) 8
    let holds := (fieldAt bs 24 1 = 0 ∧ w ≤ x) ∨ (fieldAt bs 24 1 = 1 ∧ x = w) ∨ (fieldAt bs 24 1 = 2 ∧ x ≠ w)
    let allowed := feAllowed t (feMaster t s.subject) (fieldAt bs 8 8) rd false
    (allowed = false → exec e s = .next (feStop t s.subject 0x12)) ∧
    (allowed = true → poisoned u (fieldAt bs 8 8) = false → holds →
      exec e s = .next (feAdvance (feLoads u s.subject [fieldAt bs 8 8 / 64]) s.subject (bs.length / 32))) ∧
    (allowed = true → poisoned u (fieldAt bs 8 8) = true ∨ ¬ holds →
      exec e s = .next (feSet u s.subject 0x28 (feReg u s.subject 0x28 ||| 2))) := by
  subst hrd hu
  intro e w x holds allowed
  obtain ⟨-, -, -, -, hfault⟩ := readStream_packet h
  obtain ⟨-, -, -, hok⟩ := streamFault_none hfault
  have hfn : fieldAt bs 24 1 ≤ 2 := by
    rw [hkind] at hok
    simp only [streamBodyOk, Bool.and_eq_true, decide_eq_true_eq] at hok
    exact hok.2
  have hx : exec e s = .next (waitsRead t s.subject bs) := (exec_waits_eq s).trans (streamStep_packet h (by simpa using hkind))
  have hholds : waitsHolds (fieldAt bs 24 1) w x = true ↔ holds := waitsHolds_iff hfn
  rw [hx]
  exact ⟨fun ha => congrArg _ (waitsRead_refused ha), fun ha hp hw => congrArg _ (waitsRead_holds ha hp (hholds.mpr hw)),
    fun ha hp => congrArg _ (waitsRead_waits ha (hp.imp_right (fun hn hw => hn (hholds.mp hw))))⟩

end

/-- R152, R170: a packet that stores `v`, `u` being the state in which it has read what it adds to. -/
theorem exec_stores_packet {s t u : State} {e : Instr} {id pa v len : Nat} {rd : Bool} (hx : exec e s = .next
      (if !feAllowed t (feMaster t id) pa rd true then feStop t id 0x12 else feStored u id pa v len)) (hmem : u.mem = s.mem) :
    (feAllowed t (feMaster t id) pa rd true = false → exec e s = .next (feStop t id 0x12)) ∧
    (feAllowed t (feMaster t id) pa rd true = true → poisoned u pa = true → exec e s = .next (feAdvance u id len)) ∧
    (feAllowed t (feMaster t id) pa rd true = true → poisoned u pa = false → s.mem.wf = true →
      ∃ r, exec e s = .next (feAdvance r id len) ∧ r.numAt pa 8 = v % 2 ^ 64 ∧ SameMemoryBut s r pa 8) := by
  rw [hx]
  refine ⟨fun ha => ?_, fun ha hp => ?_, fun ha hp hwf => ?_⟩
  · rw [if_pos (by rw [ha]; rfl)]
  · rw [if_neg (by rw [ha]; decide), feStored_poisoned hp]
  · obtain ⟨r, hr, hnum, hbut⟩ := feStored_unpoisoned (id := id) (v := v) (len := len) hp (by rwa [hmem])
    refine ⟨r, ?_, hnum, fun a ha' => (hbut a ha').trans (by rw [hmem])⟩
    rw [if_neg (by rw [ha]; decide), hr]

theorem signalSeen_mem (t : State) (bs : List Byte) : (signalSeen t bs).mem = t.mem := by
  unfold signalSeen
  split
  · exact homeRead_mem _ _ _
  · rfl

/-- R324, R326: a register that the host port may write. -/
theorem exec_controlRegisterWrite_let {b : Block} {r pkg : Nat} {s : State} {v : Word} (h : InBlock b r) (hpkg : pkg < 4096)
    (hlet : hostWrites s pkg b = true) :
    exec (.controlRegisterWrite (blockPa pkg b r) v) s = .next (ctrlWrite s (blockPa pkg b r) v) := by
  rw [exec_controlRegisterWrite h hpkg, if_pos hlet]

section
variable {s : State} {pkg : Nat} {v : Word} (hpkg : pkg < 4096)
include hpkg

theorem host_masked {b : Block} {r m : Nat} (h : InBlock b r) (hlet : hostWrites s pkg b = true) (hmask : ctrlMask b r = some m)
    (hslice : ∀ i, b ≠ .slice i) (hfront : ∀ n, b = .front n → r = 0x00 ∨ r = 0x18) :
    exec (.controlRegisterWrite (blockPa pkg b r) v) s = .next (ctrlSet s (blockPa pkg b r) (v &&& BitVec.ofNat 64 m)) := by
  rw [exec_controlRegisterWrite_let h hpkg hlet, ctrlWrite_masked s v (blockOf_blockPa h pkg) hmask hslice hfront]

/-- R138: the host port's writes to Q and W. -/
theorem host_slice {i : Nat} (hi : i < 512) (hlet : hostWrites s pkg (.slice i) = true) :
    exec (.controlRegisterWrite (blockPa pkg (.slice i) 0x100) v) s =
      .next (ctrlSet s (blockPa pkg (.slice i) 0x100) (BitVec.ofNat 64 (min v.toNat 255))) ∧
    exec (.controlRegisterWrite (blockPa pkg (.slice i) 0x108) v) s =
      .next (ctrlSet (rollWindow s (pkg * 512 + i)) (blockPa pkg (.slice i) 0x108) (BitVec.ofNat 64 (max 16 (min v.toNat 65535)))) := by
  have hin (r : Nat) (hr : r < 4096) : InBlock (.slice i) r := ⟨hi, hr⟩
  constructor
  · rw [exec_controlRegisterWrite_let (hin 0x100 (by decide)) hpkg hlet, ctrlWrite_quota s v (blockOf_blockPa (hin _ (by decide)) pkg)]
  · rw [exec_controlRegisterWrite_let (hin 0x108 (by decide)) hpkg hlet, ctrlWrite_window s v (blockOf_blockPa (hin _ (by decide)) pkg),
      paPkg_blockPa (hin _ (by decide)) hpkg]

/-- R169: the host port's writes to the registers of a front end. -/
theorem host_front {n : Nat} (hn : n < 128) :
    let pa := blockPa pkg (.front n)
    let hostWrite (r : Nat) : Out := exec (.controlRegisterWrite (pa r) v) s
    hostWrite 0x00 = .next (ctrlSet s (pa 0x00) (v &&& 0xFFFFFFFFFFFFFFE0)) ∧
    hostWrite 0x08 = .next (ctrlSet s (pa 0x08) (BitVec.ofNat 64 (max 12 (min v.toNat 24)))) ∧
    hostWrite 0x18 = .next (ctrlSet s (pa 0x18) (v &&& 0xFFFFFFFFFFFFFFE0)) ∧
    (feRuns s pkg n = false → hostWrite 0x10 = .next (ctrlSet s (pa 0x10) (v &&& 0xFFFFFFFFFFFFFFE0))) ∧
    (feRuns s pkg n = true → hostWrite 0x10 = .next s) ∧
    (v.getLsbD 1 = false → hostWrite 0x20 = .next (ctrlSet s (pa 0x20) (v &&& 1))) ∧
    (v.getLsbD 1 = true → hostWrite 0x20 = .next (ctrlSet (clearStop s pkg n) (pa 0x20) (v &&& 1))) ∧
    hostWrite 0x28 = .next s := by
  intro pa hostWrite
  have hin (r : Nat) (hr : r < 64) : InBlock (.front n) r := ⟨hn, hr⟩
  have hwrite (r : Nat) (hr : r < 64) : hostWrite r = .next (ctrlWrite s (pa r) v) := exec_controlRegisterWrite_let (hin r hr) hpkg rfl
  have hblock (r : Nat) (hr : r < 64) : blockOf (paOff (pa r)) = (.front n, r) := blockOf_blockPa (hin r hr) pkg
  have hpa (r : Nat) (hr : r < 64) : paPkg (pa r) = pkg := paPkg_blockPa (hin r hr) hpkg
  refine ⟨host_masked hpkg (hin _ (by decide)) rfl rfl (by simp) (fun _ _ => .inl rfl), ?_,
    host_masked hpkg (hin _ (by decide)) rfl rfl (by simp) (fun _ _ => .inr rfl), fun hstill => ?_, fun hruns => ?_, fun hclr => ?_, fun hclr => ?_, ?_⟩
  · rw [hwrite 0x08 (by decide), ctrlWrite_ringLen s v (hblock _ (by decide))]
  · rw [hwrite 0x10 (by decide), ctrlWrite_csHead s v (hblock _ (by decide)), hpa _ (by decide), hstill, if_neg Bool.false_ne_true]
  · rw [hwrite 0x10 (by decide), ctrlWrite_csHead s v (hblock _ (by decide)), hpa _ (by decide), hruns, if_pos rfl]
  · rw [hwrite 0x20 (by decide), ctrlWrite_csCtl s v (hblock _ (by decide)), hclr, if_neg Bool.false_ne_true]
  · rw [hwrite 0x20 (by decide), ctrlWrite_csCtl s v (hblock _ (by decide)), hpa _ (by decide), hclr, if_pos rfl]
  · rw [hwrite 0x28 (by decide), ctrlWrite_csStat s v (hblock _ (by decide))]

/-- R325, R326: the host port's writes to access tables, to the package block's entries and to the system map. -/
theorem host_core {c i : Nat} (hc : c < 4096) (hi : i < 64) (hlet : hostWrites s pkg (.core c) = true) :
    exec (.controlRegisterWrite (blockPa pkg (.core c) (0x800 + 8 * i)) v) s =
      .next (ctrlSet s (blockPa pkg (.core c) (0x800 + 8 * i)) (v &&& 0xFFFF000000000007)) :=
  host_masked hpkg (⟨hc, by omega⟩ : c < 4096 ∧ 0x800 + 8 * i < 4096) hlet (ctrlMask_core hi) (by simp) (by simp)

theorem host_package {i : Nat} (hi : i < 64) :
    let pa := blockPa pkg .package
    let hostWrite (r : Nat) : Out := exec (.controlRegisterWrite (pa r) v) s
    hostWrite (0x100 + 16 * i) = .next (ctrlSet s (pa (0x100 + 16 * i)) (v &&& 0xFFFF0003FFFFFFFF)) ∧
    hostWrite (0x108 + 16 * i) = .next (ctrlSet s (pa (0x108 + 16 * i)) v) ∧
    hostWrite (0x800 + 8 * i) = .next (ctrlSet s (pa (0x800 + 8 * i)) (v &&& 0x3FFF)) := by
  intro pa hostWrite
  obtain ⟨hpage, hsize, hmap⟩ := ctrlMask_package hi
  have hin (r : Nat) (hr : r < 0xA00) : InBlock .package r := hr
  have hall : v &&& BitVec.ofNat 64 0xFFFFFFFFFFFFFFFF = v := BitVec.and_allOnes
  refine ⟨host_masked hpkg (hin _ (by omega)) rfl hpage (by simp) (by simp), ?_, host_masked hpkg (hin _ (by omega)) rfl hmap (by simp) (by simp)⟩
  have h := host_masked (s := s) (v := v) hpkg (hin _ (by omega)) rfl hsize (by simp) (by simp)
  rwa [hall] at h

end

end Sys2Proof.Machine
end

section
/-! PROOFS. Control registers and command streams: the statement. -/
open Sys2Proof Sys2Proof.Machine

/-- Settles O58: a write is the one of its block's register, and a packet is the step of its kind once `readStream` has let it pass. -/
theorem streamSteps : Obligations.StreamSteps := by
  unfold Obligations.StreamSteps
  refine ⟨fun s pa v => ⟨fun h => ?_, fun h => ?_⟩, fun s pkg v hpkg => ⟨fun i hi => ⟨host_slice hpkg hi, fun hbar r hr => ?_⟩, fun n hn => host_front hpkg hn,
    fun i hi => ⟨fun c hc hlet => host_core hpkg hc hi hlet, host_package hpkg hi⟩, fun die => ⟨fun hlet => ?_, fun hbar => ?_⟩⟩,
    fun s => rfl, fun s t bs h => ?_, fun s t c h => ?_,
    fun s id n hring => ⟨feAdvance_head n hring, feAdvance_waiting s id n, feStop_stat s id, feReg_feSet_ne s id _ (by decide)⟩⟩
  · show execControlRegisterWrite pa v s = _
    rw [execControlRegisterWrite, if_neg (by simp [h])]
  · show execControlRegisterWrite pa v s = _
    rw [execControlRegisterWrite, ctrlWrite_unlisted h, ite_self]
  · have hin : InBlock (.slice i) r := ⟨hi, hr⟩
    have hbarred : ¬ hostWrites s pkg (.slice i) = true := Bool.eq_false_iff.mp hbar
    exact (exec_controlRegisterWrite hin hpkg s v).trans (by rw [if_neg hbarred])
  · have hin : InBlock (.base die.val) 0xA00 := ⟨die.isLt, by decide⟩
    replace hlet : hostWrites s pkg (.base die.val) = true := hlet
    have hwrite := ctrlWrite_masked s v (blockOf_blockPa hin pkg) rfl (by simp) (by simp)
    exact (exec_einjArm hpkg die s v).trans (congrArg _ ((if_pos hlet).trans hwrite))
  · have hbarred : ¬ hostWrites s pkg (.base die.val) = true := Bool.eq_false_iff.mp hbar
    exact (exec_einjArm hpkg die s v).trans (by rw [if_neg hbarred])
  · obtain ⟨ht, hbs, h1, h2, hfault⟩ := readStream_packet h
    obtain ⟨hcrc, hkind, hzero, hok⟩ := streamFault_none hfault
    have hlen : bs.length = 32 * fieldAt bs 1 1 := by rw [hbs, length_feBytes h1 h2, fieldAt_length h1 h2]
    have hfield : fieldAt bs 1 1 = feLen s s.subject := by rw [hbs, fieldAt_length h1 h2]
    have hmem : t.mem = s.mem := by rw [ht, feLoads_mem]
    refine ⟨hcrc, hkind, hzero, hmem, hlen, by omega, by omega, exec_streamNop h, fun hk => ⟨_, exec_streamLaunch h hk, rfl, rfl, rfl, rfl, rfl, rfl, rfl⟩,
      fun hk => ?_, fun hk => ?_⟩
    · exact exec_waits_packet h hk (by rw [hk]; rfl) (if_pos (.inl hk))
    · rcases hk with hk | hk
      · have hsignal := exec_stores_packet (exec_streamSignal_eq h hk) ((signalSeen_mem t bs).trans hmem)
        simpa only [hk, signalSeen, signalValue, if_true, true_and, false_or, decide_true, Bool.and_true, Nat.reduceEqDiff,
          decide_false, Bool.false_or, if_false] using hsignal
      · have hstamp := exec_stores_packet (exec_gstamp_eq h hk) hmem
        simpa only [hk, Nat.reduceEqDiff, if_false, if_true, false_and, or_self, decide_false, Bool.and_false, Bool.or_self] using hstamp
  · obtain ⟨hcause, hmem⟩ := readStream_bad h
    exact ⟨hcause, hmem, exec_stream_bad h⟩
end

section
/-! PROOFS. SNAP and the lines that it copies (R131, R340, R346). -/
namespace Sys2Proof.Machine

/-- R346: a list of writes, each where the translation of a byte of the gang's shadow area leads, is one write of memory. -/
theorem shadowPut_placed {s : State} {g a : Nat} {va : Word} (bs : List Byte) (k : Nat) {m : Memory}
    (hm : ∀ b, b < a ∨ a + (k + bs.length) ≤ b → m.read b = s.mem.read b)
    (h : ∀ (m : Memory) (j : Nat), (∀ b, b < a ∨ a + (k + bs.length) ≤ b → m.read b = s.mem.read b) → j < k + bs.length →
      gangPa { s with mem := m } g (va + BitVec.ofNat 64 j) = some (a + j)) :
    (bs.zipIdx k).foldl (fun s b => match gangPa s g (va + BitVec.ofNat 64 b.2) with
      | some pa => { s with mem := s.mem.write pa b.1 }
      | none => s) { s with mem := m } = { s with mem := m.writeBytes (a + k) bs } := by
  induction bs generalizing k m with
  | nil => rfl
  | cons x xs ih =>
    have hlen : k + (x :: xs).length = k + 1 + xs.length := by rw [List.length_cons]; omega
    rw [hlen] at hm h
    rw [List.zipIdx_cons, List.foldl_cons, h m k hm (by omega)]
    refine ih (k + 1) (fun b hb => ?_) h
    rw [Memory.read_write_ne _ _ _ _ (by omega), hm b hb]

theorem shadowLine_marked {s : State} {g slot k l : Nat} (h : l ∈ (s.getCore k).discardBits) : shadowLine s g slot k l = s := by
  unfold shadowLine
  dsimp only
  rw [if_pos (List.contains_iff_mem.mpr h)]

/-- R346: where a line of a core's scratchpad stands in the gang's shadow area. -/
def shadowLineVa (s : State) (g slot k l : Nat) : Word :=
  blockVa (s.getGang g) slot k + BitVec.ofNat 64 (blockPart (s.getGang g).split 0 + 64 * l)

theorem shadowLine_placed {s : State} {g slot k l a : Nat} (h : l ∉ (s.getCore k).discardBits)
    (hplace : ∀ (m : Memory) (j : Nat), (∀ b, b < a ∨ a + 64 ≤ b → m.read b = s.mem.read b) → j < 64 →
      gangPa { s with mem := m } g (shadowLineVa s g slot k l + BitVec.ofNat 64 j) = some (a + j)) :
    (shadowLine s g slot k l).mem = s.mem.writeBytes a (s.mem.bytes (padBase k + 64 * l) 64) := by
  have hlen : 0 + (s.mem.bytes (padBase k + 64 * l) 64).length = 64 := by rw [Memory.length_bytes]
  unfold shadowLine
  dsimp only
  rw [if_neg (by rw [List.contains_iff_mem]; exact h)]
  exact congrArg State.mem (shadowPut_placed (s := s) (m := s.mem) _ 0 (fun _ _ => rfl) (by rw [hlen]; exact hplace))

/-- What SNAP reads besides memory. -/
def SameButMem (s t : State) : Prop := t = { s with mem := t.mem }

theorem SameButMem.write {s t : State} (h : SameButMem s t) (m : Memory) : SameButMem s { t with mem := m } := by
  show { t with mem := m } = { s with mem := m }
  rw [h]

/-- R131, R346: the copy of a line changes memory alone. -/
theorem shadowLine_rest (s : State) (g slot k l : Nat) : SameButMem s (shadowLine s g slot k l) := by
  unfold shadowLine
  dsimp only
  split
  · rfl
  · unfold shadowPut
    refine foldl_induct (P := SameButMem s) (fun t b _ ht => ?_) rfl
    split
    · exact ht.write _
    · exact ht

theorem SameButMem.trans {s t u : State} (h : SameButMem s t) (h' : SameButMem t u) : SameButMem s u := by
  unfold SameButMem at *
  rw [h', h]

/-- Two folds whose steps agree wherever what holds at first and is kept holds are the same. -/
theorem foldl_congr_of {α σ : Type} {f f' : σ → α → σ} {P : σ → Prop} (xs : List α) (hf : ∀ s x, P s → f s x = f' s x ∧ P (f' s x)) {s : σ}
    (h : P s) : xs.foldl f s = xs.foldl f' s := by
  induction xs generalizing s with
  | nil => rfl
  | cons x xs ih =>
    obtain ⟨heq, hnext⟩ := hf s x h
    rw [List.foldl_cons, List.foldl_cons, heq, ih hnext]

/-- R340: the slot, the block and the lines of a SNAP do not change while it copies. -/
theorem snapCopies_eq (s : State) (ls : List Nat) :
    ls.foldl (fun t l => shadowLine t t.gangId ((t.gang.ssn + 1) % 2) s.coreKey (l - padBase s.coreKey / 64)) s =
      ls.foldl (fun t l => shadowLine t s.gangId ((s.gang.ssn + 1) % 2) s.coreKey (l - padBase s.coreKey / 64)) s := by
  refine foldl_congr_of (P := SameButMem s) ls (fun t l ht => ⟨?_, ht.trans (shadowLine_rest t _ _ _ _)⟩) rfl
  have hgang : t.gangId = s.gangId ∧ t.gang = s.gang := by
    rw [ht]
    exact ⟨rfl, rfl⟩
  rw [hgang.1, hgang.2]

theorem exec_snap_copies {s : State} {g : Guard} (hr : Runs s g) (h : s.gang.shadow ≠ 0) : exec (.snap g) s =
    .next ((s.core.snapLines.foldl (fun t l => shadowLine t s.gangId ((s.gang.ssn + 1) % 2) s.coreKey (l - padBase s.coreKey / 64)) s).updCore
      (fun c => { c with snapLines := [] })) := by
  refine guarded_ok hr ?_
  dsimp only
  rw [if_neg h]
  exact congrArg (fun t : State => Except.ok (t.updCore (fun c => { c with snapLines := [] }))) (snapCopies_eq s _)

theorem exec_snap_none {s : State} {g : Guard} (hr : Runs s g) (h : s.gang.shadow = 0) : exec (.snap g) s =
    .next (s.updCore (fun c => { c with snapLines := [] })) := by
  refine guarded_ok hr ?_
  dsimp only
  rw [if_pos h]

end Sys2Proof.Machine
end

section
/-! PROOFS. XINV (R341) and GSWITCH (R342). -/
namespace Sys2Proof.Machine

/-- R341: whether a translation is one that XINV removes. -/
def dropsEntry (s : State) (all : Bool) (ea : Word) (e : TlbEntry) : Bool :=
  e.asid == s.gang.asid && (all || e.vpn == ea.toNat / 2 ^ pageShift e.level)

section
variable {s : State} {g : Guard} {all : Bool} {m : Mem} (hr : Runs s g)
include hr

theorem exec_xinv_user (h : s.sup = false) : exec (.xinv g all m) s =
    .next (takeTrap s ⟨0x0E, (slotInfo s (.xinv g all m)).1, (slotInfo s (.xinv g all m)).2, none⟩) := by
  refine (guarded_runs hr _ _).trans ?_
  dsimp only
  rw [h]
  rfl

theorem exec_xinv_noncanonical (h : s.sup = true) (hall : all = false) (hnear : nearOff (s.ea m).toNat = none) (hea : 2 ^ 57 ≤ (s.ea m).toNat) :
    exec (.xinv g all m) s = .next (takeTrap s ⟨0x14, s.ea m, 0, none⟩) := by
  refine (guarded_runs hr _ _).trans ?_
  have hcond : (!all && (nearOff (s.ea m).toNat).isNone && decide (2 ^ 57 ≤ (s.ea m).toNat)) = true := by
    rw [hall, hnear, decide_eq_true hea]
    rfl
  dsimp only
  rw [h, hcond]
  rfl

theorem exec_xinv_drops (h : s.sup = true) (hpair : s.ctx.pair = none) (hwhole : Whole s)
    (hea : all = true ∨ (nearOff (s.ea m).toNat).isSome ∨ (s.ea m).toNat < 2 ^ 57) : exec (.xinv g all m) s =
      .next ((dropTranslations s s.gang (dropsEntry s all (s.ea m))).upd (fun c => { c with xinv := true })) := by
  refine (guarded_runs hr _ _).trans ?_
  have hcond : (!all && (nearOff (s.ea m).toNat).isNone && decide (2 ^ 57 ≤ (s.ea m).toNat)) = false := by
    rcases hea with hall | hnear | hlow
    · simp [hall]
    · simp [Option.isNone_iff_eq_none, Option.isSome_iff_ne_none.mp hnear]
    · rw [decide_eq_false (Nat.not_le.mpr hlow), Bool.and_false]
  dsimp only
  rw [h, hcond, if_neg (by decide), if_neg (by decide), asMessage_solo hpair hwhole.1 hwhole.2]
  rfl

end

theorem mget_map_key {α : Type} {d : α} {f : Nat → α → α} {k : Nat} (hd : f k d = d) (m : SMap α) :
    mget d k (m.map (fun e => (e.1, f e.1 e.2))) = f k (mget d k m) := by
  induction m with
  | nil => exact hd.symm
  | cons e m ih =>
    obtain ⟨j, z⟩ := e
    unfold mget at ih ⊢
    rw [List.map_cons, mget?, mget?]
    dsimp only
    split
    next h => rw [h]; rfl
    next => exact ih

/-- R341: a core of the gang's packages loses the translations, another keeps its own. -/
theorem getCore_dropTranslations (s : State) (x : Gang) (drop : TlbEntry → Bool) (k : Nat) :
    (dropTranslations s x drop).getCore k =
      if k / 4096 ∈ gangPkgs x then { s.getCore k with tlb := (s.getCore k).tlb.filter (fun e => !drop e) } else s.getCore k := by
  have hreset : (if (gangPkgs x).contains (k / 4096) then { Core.reset with tlb := Core.reset.tlb.filter (fun e => !drop e) } else Core.reset) =
      Core.reset := ite_self _
  refine (mget_map_key (f := fun j c => if (gangPkgs x).contains (j / 4096) then { c with tlb := c.tlb.filter (fun e => !drop e) } else c)
    hreset s.cores).trans ?_
  simp only [List.contains_iff_mem]
  rfl

/-! ### GSWITCH -/

/-- R342: what GSWITCH does with its answer. -/
def gswitchAnswer (d : Option (Fin 32)) (t : State) (v : Word) : State :=
  match d with
  | some r => sendAnswer t r v 0
  | none => t

section
variable {s : State} {g : Guard} {fn : GswFn} {d : Option (Fin 32)} {a b : Fin 32} (hr : Runs s g)
include hr

theorem exec_gswitch_user (h : s.sup = false) : exec (.gswitch g fn d a b) s =
    .next (takeTrap s ⟨0x0E, (slotInfo s (.gswitch g fn d a b)).1, (slotInfo s (.gswitch g fn d a b)).2, none⟩) := by
  refine (guarded_runs hr _ _).trans ?_
  dsimp only
  rw [h]
  rfl

theorem exec_gswitch_eq (h : s.sup = true) (hpair : s.ctx.pair = none) (hwhole : Whole s) {t : State} {v : Word}
    (hrequest : switchRequest s fn (s.rs a).toNat (s.rs b).toNat = (t, v)) :
    exec (.gswitch g fn d a b) s = .next (gswitchAnswer d t v) := by
  refine (guarded_runs hr _ _).trans ?_
  dsimp only
  rw [h, if_neg (by decide), asMessage_solo hpair hwhole.1 hwhole.2]
  dsimp only
  rw [hrequest]
  cases d <;> rfl

end

/-- R342: a core is occupied at a time. -/
theorem occupiedAt_iff (s : State) (n time k : Nat) : occupiedAt s n time k = true ↔
    ((s.getCore k).gang ≠ 0 ∧ ¬ ∃ u, (s.getGang (s.getCore k).gang).outAt = some u ∧ u ≤ max time s.now) ∨
      ∃ y ∈ s.gangs, y.1 ≠ n ∧ y.2.st = .switchedOut ∧ (∃ u, y.2.inAt = some u ∧ u ≤ max time s.now) ∧ k ∈ y.2.cores.map (movedTo y.2.moved) := by
  have hsoon (o : Option Nat) : o.any (fun u => decide (u ≤ max time s.now)) = true ↔ ∃ u, o = some u ∧ u ≤ max time s.now := by
    cases o <;> simp
  unfold occupiedAt
  simp only [Bool.or_eq_true, Bool.and_eq_true, decide_eq_true_eq, Bool.not_eq_true', ← Bool.not_eq_true, hsoon, List.any_eq_true, beq_iff_eq,
    List.contains_iff_mem, and_assoc]

/-- R342: a gang that does not exist is refused whatever is asked. -/
theorem switchRequest_gone {s : State} {n : Nat} (h : gangExists s n = false) (fn : GswFn) (time : Nat) :
    switchRequest s fn n time = (s, switchRefusal 1) := by
  unfold switchRequest
  dsimp only
  rw [h, Bool.not_false, if_pos rfl]

section
variable {s : State} {n time : Nat} (h : gangExists s n = true)
include h

theorem switchRequest_out_eq :
    ((s.getGang n).cls = 1 → switchRequest s .out n time = (s, switchRefusal 2)) ∧
    ((s.getGang n).cls ≠ 1 → (s.getGang n).st.runs = false → switchRequest s .out n time = (s, switchRefusal 3)) ∧
    ((s.getGang n).cls ≠ 1 → (s.getGang n).st.runs = true →
      switchRequest s .out n time = (s.setGang n { s.getGang n with outAt := some (max time s.now) }, 0)) := by
  refine ⟨fun hc => ?_, fun hc hst => ?_, fun hc hst => ?_⟩
  · simp [switchRequest, h, hc]
  · simp [switchRequest, h, hc, hst]
  · simp [switchRequest, h, hc, hst]

theorem switchRequest_in_eq :
    ((s.getGang n).st = .switchedOut → (∃ k ∈ (s.getGang n).cores, occupiedAt s n time (movedTo (s.getGang n).moved k) = true) →
      switchRequest s .in_ n time = (s, switchRefusal 4)) ∧
    ((s.getGang n).st = .switchedOut → (∀ k ∈ (s.getGang n).cores, ¬ occupiedAt s n time (movedTo (s.getGang n).moved k) = true) →
      switchRequest s .in_ n time = (s.setGang n { s.getGang n with inAt := some (max time s.now) }, 0)) ∧
    ((s.getGang n).st ≠ .switchedOut → switchRequest s .in_ n time = (s, switchRefusal 5)) := by
  refine ⟨fun hst hbusy => ?_, fun hst hfree => ?_, fun hst => ?_⟩
  · have hany : ((s.getGang n).cores.map (movedTo (s.getGang n).moved)).any (occupiedAt s n time) = true := by simpa using hbusy
    simp [switchRequest, h, hst, hany]
  · have hany : ((s.getGang n).cores.map (movedTo (s.getGang n).moved)).any (occupiedAt s n time) = false := by simpa using hfree
    simp [switchRequest, h, hst, hany]
  · simp [switchRequest, h, hst]

theorem switchRequest_cancel_eq :
    ((s.getGang n).outAt = none → (s.getGang n).inAt = none → switchRequest s .cancel n time = (s, switchRefusal 6)) ∧
    ((s.getGang n).outAt ≠ none ∨ (s.getGang n).inAt ≠ none →
      switchRequest s .cancel n time = (s.setGang n { s.getGang n with outAt := none, inAt := none }, 0)) := by
  refine ⟨fun hout hin => ?_, fun hreq => ?_⟩
  · simp [switchRequest, h, hout, hin]
  · have hcond : ((s.getGang n).outAt.isNone && (s.getGang n).inAt.isNone) = false := by
      rcases hreq with hq | hq
      · rw [Option.isNone_eq_false_iff.mpr (Option.isSome_iff_ne_none.mpr hq), Bool.false_and]
      · rw [Option.isNone_eq_false_iff.mpr (Option.isSome_iff_ne_none.mpr hq), Bool.and_false]
    simp [switchRequest, h, hcond]

end

/-! ### SAVE (R338) -/

/-- R347: the log of a gang leaves the cores of every gang. -/
theorem logLine_gangCores (s : State) (g l k : Nat) : ((logLine s g l).getGang k).cores = (s.getGang k).cores := by
  have hset (x : Gang) (hx : x.cores = (s.getGang g).cores) : ((s.setGang g x).getGang k).cores = (s.getGang k).cores := by
    by_cases hk : k = g
    · rw [hk, State.getGang_setGang_same, hx]
    · rw [State.getGang_setGang_ne _ _ _ _ hk]
  unfold logLine
  dsimp only
  split
  · rfl
  · split
    · split
      · exact hset { s.getGang g with unprot := true } rfl
      · exact hset { s.getGang g with log := _ } rfl
    · exact hset { s.getGang g with log := _ } rfl

theorem putBytes_gangs (s : State) (g pa : Nat) (bs : List Byte) : (putBytes s g pa bs).gangs = (logLine s g (pa / 64)).gangs := by
  unfold putBytes
  dsimp only
  generalize hr : reportWrite _ _ _ _ = u
  obtain ⟨m, l, r, hu⟩ := hr ▸ reportWrite_homes _ _ _ _
  rw [hu]
  dsimp only
  split <;> split <;> rfl

theorem heldDirty_gangs (s : State) (pa : Nat) : (heldDirty s pa).gangs = s.gangs := by
  unfold heldDirty
  split <;> rfl

theorem storeStep_gangCores (s : State) (pa : Nat) (bs : List Byte) (k : Nat) :
    ((storeStep s pa bs).getGang k).cores = (s.getGang k).cores := by
  have hgang : (stamped (heldDirty s pa) pa).getGang k = s.getGang k := congrArg (mget Gang.blank k) (heldDirty_gangs s pa)
  rw [storeStep_eq, homeStep_eq, State.getGang, putBytes_gangs, ← hgang]
  exact logLine_gangCores _ _ _ k

/-- R150: an access of a group that is not limited is performed; where its group may be left, its answer is kept. -/
def performed (s : State) (u : State) (a : Option Word × List Line) : State :=
  if s.inPhase || (s.ctx.sent.isEmpty && s.ctx.pair.isNone) then u else noteSent u a

theorem performed_mem (s u : State) (a : Option Word × List Line) : (performed s u a).mem = u.mem := by
  unfold performed
  split <;> rfl

theorem performOnce_performed {s : State} (h : s.steps = none) (perform : State → State × (Option Word × List Line)) :
    performOnce s perform = .ok (performed s (perform s).1 (perform s).2, (perform s).2) := by
  have hsame : { s with steps := s.steps.map (· - 1) } = s := by
    rw [h]
    exact congrArg (fun x => { s with steps := x }) h.symm
  unfold performOnce performed
  rw [hsame, h]
  dsimp only
  simp only [Option.isNone_none, Bool.true_and]
  split
  · rfl
  · simp

/-- What a fold computes of a state is the fold of what its steps compute of it, wherever what holds at first and is kept holds. -/
theorem foldl_hom_of {α σ τ : Type} {f : σ → α → σ} {f' : τ → α → τ} {P : σ → Prop} (p : σ → τ) (xs : List α)
    (hf : ∀ s, ∀ x ∈ xs, P s → p (f s x) = f' (p s) x ∧ P (f s x)) {s : σ} (h : P s) : p (xs.foldl f s) = xs.foldl f' (p s) := by
  induction xs generalizing s with
  | nil => rfl
  | cons x xs ih =>
    obtain ⟨heq, hnext⟩ := hf s x List.mem_cons_self h
    rw [List.foldl_cons, List.foldl_cons, ih (fun t y hy => hf t y (List.mem_cons_of_mem _ hy)) hnext, heq]

theorem Memory.writeBytes_append (m : Memory) (a : Nat) (xs ys : List Byte) :
    m.writeBytes a (xs ++ ys) = (m.writeBytes a xs).writeBytes (a + xs.length) ys := by
  induction xs generalizing m a with
  | nil => rfl
  | cons x xs ih =>
    have hlen : a + (x :: xs).length = a + 1 + xs.length := by rw [List.length_cons]; omega
    rw [List.cons_append, Memory.writeBytes, ih, hlen, Memory.writeBytes]

/-- Rows of 64 bytes written in order are one write. -/
theorem Memory.writeBytes_rows (bs : List Byte) (a n k : Nat) (h : 64 * (k + n) ≤ bs.length) (m : Memory) :
    (List.range' k n).foldl (fun m r => m.writeBytes (a + 64 * r) ((bs.drop (64 * r)).take 64)) m =
      m.writeBytes (a + 64 * k) ((bs.drop (64 * k)).take (64 * n)) := by
  induction n generalizing k m with
  | zero => rw [Nat.mul_zero, List.take_zero]; rfl
  | succ n ih =>
    have hlen : ((bs.drop (64 * k)).take 64).length = 64 := by rw [List.length_take, List.length_drop]; omega
    have hsplit : (bs.drop (64 * k)).take (64 * (n + 1)) = (bs.drop (64 * k)).take 64 ++ (bs.drop (64 * (k + 1))).take (64 * n) := by
      rw [show 64 * (n + 1) = 64 + 64 * n by omega, List.take_add, List.drop_drop, show 64 * k + 64 = 64 * (k + 1) by omega]
    rw [List.range'_succ, List.foldl_cons, ih (k + 1) (by omega), hsplit, Memory.writeBytes_append, hlen,
      show a + 64 * k + 64 = a + 64 * (k + 1) by omega]

/-- What the rows of a SAVE leave for the next one. -/
structure SaveFrame (s t : State) : Prop where
  cur : t.cur = s.cur
  steps : t.steps = none
  msg : t.ctx.sent.length ≤ t.grp.msg
  core : ∃ a b, t.core = { s.core with stored := a, snapLines := b }
  cores : ∀ k, (t.getGang k).cores = (s.getGang k).cores
  shadow : ∀ k, (t.getGang k).shadow = (s.getGang k).shadow

theorem SaveFrame.refl {s : State} (h : Whole s) : SaveFrame s s :=
  ⟨rfl, h.2, by rw [h.1]; exact Nat.zero_le _, ⟨_, _, rfl⟩, fun _ => rfl, fun _ => rfl⟩

/-- R338, R348: a store of the acting context into its own scratchpad stays in its gang. -/
def OwnStays (s : State) : Prop := s.gangId = 0 ∨ (s.gang.shadow = 0 ∧ s.pkg ∈ gangPkgs s.gang)

section
variable {s t : State} (h : SaveFrame s t)
include h

theorem SaveFrame.gangId_eq : t.gangId = s.gangId := by
  obtain ⟨a, b, hcore⟩ := h.core
  rw [State.gangId, hcore]
  rfl

theorem SaveFrame.coreKey_eq : t.coreKey = s.coreKey := by rw [State.coreKey, h.cur, State.coreKey]

theorem SaveFrame.ownStays (hs : OwnStays s) : OwnStays t := by
  have hgang : t.gang.shadow = s.gang.shadow ∧ gangPkgs t.gang = gangPkgs s.gang := by
    unfold State.gang gangPkgs
    rw [h.gangId_eq, h.shadow, h.cores]
    exact ⟨rfl, rfl⟩
  have hpkg : t.pkg = s.pkg := by rw [State.pkg, h.coreKey_eq, State.pkg]
  unfold OwnStays
  rw [h.gangId_eq, hgang.1, hgang.2, hpkg]
  exact hs

theorem SaveFrame.trans {u : State} (h' : SaveFrame t u) : SaveFrame s u := by
  refine ⟨h'.cur.trans h.cur, h'.steps, h'.msg, ?_, fun k => (h'.cores k).trans (h.cores k), fun k => (h'.shadow k).trans (h.shadow k)⟩
  obtain ⟨a, b, hab⟩ := h.core
  obtain ⟨c, d, hcd⟩ := h'.core
  exact ⟨c, d, by rw [hcd, hab]⟩

end

/-- R152, R348: a store of the acting context into its own scratchpad. -/
theorem storeAt_own {s : State} (hs : OwnStays s) {pa : Nat} (hreg : paReg pa = 1) (hpkg : paPkg pa = s.pkg) (bs : List Byte) :
    storeAt s pa bs = storeStep s pa bs := by
  have hstays : s.gangId = 0 ∨ leavesGang s.gang pa = false := by
    refine hs.imp_right (fun hin => ?_)
    rw [leavesGang, hpkg, decide_eq_false (by omega), List.contains_iff_mem.mpr hin.2]
    rfl
  have hsound : unpoisoned s pa bs.length = s := by
    rw [unpoisoned, poisoned_of_paReg (by omega) s, Bool.and_false, if_neg Bool.false_ne_true]
  rw [storeAt_taken hstays, hsound]

theorem storeStep_saveFrame {s : State} (hsteps : s.steps = none) (hmsg : s.ctx.sent.length ≤ s.grp.msg) (pa : Nat) (bs : List Byte) :
    SaveFrame s (storeStep s pa bs) := by
  have hframe := storeStep_storeFrame s pa bs
  obtain ⟨p, hctx⟩ := hframe.ctx
  obtain ⟨a, b, hcore⟩ := hframe.core s.coreKey
  refine ⟨hframe.cur, hframe.steps.trans hsteps, ?_, ⟨a, b, ?_⟩, storeStep_gangCores s pa bs, (storeStep_storeKeeps s pa bs).shadow⟩
  · rw [hctx, hframe.grp]
    exact hmsg
  · rw [State.core, State.coreKey, hframe.cur]
    exact hcore

theorem noteSent_saveFrame {s : State} (hsteps : s.steps = none) (hmsg : s.ctx.sent.length ≤ s.grp.msg) (a : Option Word × List Line) :
    SaveFrame s (noteSent s a) := by
  have hctx : (noteSent s a).ctx = { s.ctx with sent := s.ctx.sent ++ [a] } := State.ctx_upd s (fun c => { c with sent := c.sent ++ [a] })
  refine ⟨rfl, hsteps, ?_, ⟨_, _, rfl⟩, fun _ => rfl, fun _ => rfl⟩
  rw [hctx]
  simpa [noteSent] using hmsg

/-- R152, R338: a row of a SAVE has been stored. -/
def savedRow (b : Nat) (img : List Byte) (s : State) (r : Nat) : State :=
  performed s (storeStep s (s.padAt (b + 64 * r)) ((img.drop (64 * r)).take 64)) (none, [])

theorem savedRow_saveFrame {s : State} (hsteps : s.steps = none) (hmsg : s.ctx.sent.length ≤ s.grp.msg) (b : Nat) (img : List Byte) (r : Nat) :
    SaveFrame s (savedRow b img s r) := by
  have hstore := storeStep_saveFrame hsteps hmsg (s.padAt (b + 64 * r)) ((img.drop (64 * r)).take 64)
  unfold savedRow performed
  split
  · exact hstore
  · exact hstore.trans (noteSent_saveFrame hstore.steps hstore.msg _)

theorem savedRow_mem {s : State} (hs : OwnStays s) (b : Nat) (img : List Byte) (r : Nat) :
    (savedRow b img s r).mem = s.mem.writeBytes (s.padAt (b + 64 * r)) ((img.drop (64 * r)).take 64) := by
  rw [savedRow, performed_mem, storeStep_mem (hs.imp_right And.left)]

/-! ### The image -/

theorem length_imageNow (s : State) : (imageNow s).length = 384 := by
  rw [imageNow, contextImage_words]
  simp [List.length_flatMap, Bits.length_bytesLE, contextWords, Function.comp_def]

theorem imageNow_eq (s : State) : imageNow s = (List.finRange 32).flatMap (fun n => Bits.bytesLE 8 (s.rs n).toNat) ++
    ([s.view.full.setWidth 64, s.grp.next, s.view.p.setWidth 64, s.view.asr, s.view.vsh, s.view.lfs, BitVec.ofNat 64 (s.view.quantum % 2 ^ 24),
      s.view.tcause, s.view.tpc, s.view.tinfoa, s.view.tinfob, s.view.tseq, s.view.trapvec] : List Word).flatMap (fun w => Bits.bytesLE 8 w.toNat) ++
      List.replicate 24 0 := by
  have hregs : (List.range 32).flatMap (fun n => Bits.bytesLE 8 ((s.view.s.set 0 0).toArray.getD n 0).toNat) =
      (List.finRange 32).flatMap (fun n => Bits.bytesLE 8 (s.rs n).toNat) := by
    rw [← List.map_coe_finRange_eq_range, List.flatMap_map]
    refine congrArg (fun f => List.flatMap f _) (funext fun n => congrArg (fun w : Word => Bits.bytesLE 8 w.toNat) ?_)
    unfold State.rs
    by_cases hn : n = 0
    · simp [hn]
    · have hval : 0 ≠ n.val := fun h => hn (Fin.ext h.symm)
      simp [hn, hval]
  unfold imageNow contextImage
  rw [hregs]

/-! ### The rows -/

section
variable {s : State} {g : Guard} {m : Mem} {b : Nat}

theorem saveRows_own (hpkg : s.pkg < 4096) (hnear : nearOff (s.ea m).toNat = some b) (halign : b % 64 = 0) (hsize : b + 384 ≤ padSize s s.coreKey)
    (hpad : b + 384 ≤ 0x40000) (hboard : s.core.scoreboard = []) : OwnRows s m none (fun r => b + 64 * r) 6 := by
  obtain ⟨hea, -⟩ := nearOff_eq_some hnear
  refine ⟨(by decide : (64 : Word).toNat % 64 = 0), fun r hr => ⟨?_, by omega, by omega⟩, hpkg, hboard⟩
  have haddr : (s.ea m + BitVec.ofNat 64 r * (none : Option (Fin 32)).elim 64 s.rs).toNat = nearBase + (b + 64 * r) := by
    show (s.ea m + BitVec.ofNat 64 r * 64).toNat = _
    rw [BitVec.toNat_add, BitVec.toNat_mul, BitVec.toNat_ofNat, hea, nearBase]
    show (_ + r % 2 ^ 64 * 64 % 2 ^ 64) % 2 ^ 64 = _
    omega
  have hlow : nearBase ≤ nearBase + (b + 64 * r) := Nat.le_add_right _ _
  have hhigh : nearBase + (b + 64 * r) < nearBase + 0x40000 := by omega
  rw [haddr, nearOff, decide_eq_true hlow, decide_eq_true hhigh, Bool.and_self, if_pos rfl, Nat.add_sub_cancel_left]

theorem exec_save_own (hr : Runs s g) (h : OwnRows s m none (fun r => b + 64 * r) 6) (hs : OwnStays s) (hwhole : Whole s) :
    exec (.save g m) s = .next ((List.range' 0 6).foldl (savedRow b (imageNow s)) s) := by
  have hready := rowsReady_granted (ea := rowEa s m none) (pa := fun x => s.padAt (b + 64 * x)) (List.range' 0 6)
    (fun x hx => h.granted rfl h.board rfl (mode := .write) (fun hm => absurd rfl hm) (by simpa using List.mem_range'.mp hx) (.save g m))
  obtain ⟨hrun, -⟩ := overRows_granted (i := .save g m) (m := .write) (kind := 24) (data := fun r => ((imageNow s).drop (64 * r)).take 64)
    (f := fun t pa r => (storeAt t pa (((imageNow s).drop (64 * r)).take 64), (none, [])))
    (ea := rowEa s m none) (pa := fun x => s.padAt (b + 64 * x)) (P := SaveFrame s)
    (step := savedRow b (imageNow s)) (answer := fun _ => (none, []))
    (fun t x hx ht => by
      obtain ⟨a, a', hcore⟩ := ht.core
      obtain ⟨hnear, -, -⟩ := h.near x hx
      have hlt := (nearOff_eq_some hnear).2
      have hkey := ht.coreKey_eq
      have hpkg : t.pkg = s.pkg := by rw [State.pkg, hkey, State.pkg]
      have hat : s.padAt (b + 64 * x) = t.padAt (b + 64 * x) := by rw [State.padAt, State.padAt, hkey, hpkg]
      have hreg := paReg_padAt s hlt
      have hown : padCore (s.padAt (b + 64 * x)) = t.coreKey := by rw [padCore_padAt s hlt h.pkg, hkey]
      have hfirst : repeated t = none := List.getElem?_eq_none ht.msg
      refine ⟨hfirst, h.granted ht.cur (by rw [hcore]; exact h.board) (by rw [hcore]) (fun hm => absurd rfl hm) hx _, ?_,
        ht.trans (savedRow_saveFrame ht.steps ht.msg _ _ _)⟩
      rw [exchangeAt, hreg, hown, hfirst, performOnce_performed ht.steps, storeAt_own (ht.ownStays hs) hreg ((paPkg_padAt s hlt h.pkg).trans hpkg.symm),
        savedRow, hat]
      simp)
    6 0 (by omega) (SaveFrame.refl hwhole)
  refine guarded_ok hr ?_
  have haddrs : (List.range 6).map (fun j => s.ea m + BitVec.ofNat 64 (64 * j)) = (List.range' 0 6).map (rowEa s m none) := by
    rw [List.range_eq_range']
    refine List.map_congr_left (fun j _ => ?_)
    show _ = s.ea m + BitVec.ofNat 64 j * BitVec.ofNat 64 64
    rw [← BitVec.ofNat_mul, Nat.mul_comm]
  simp only [haddrs, bind, Except.bind, h.checked, hready, hrun]
  rfl

/-- R338: the bytes of memory after the rows of a SAVE. -/
theorem savedRows_mem (hs : OwnStays s) (hwhole : Whole s) : ((List.range' 0 6).foldl (savedRow b (imageNow s)) s).mem =
    s.mem.writeBytes (s.padAt b) (imageNow s) := by
  have hrows : ((List.range' 0 6).foldl (savedRow b (imageNow s)) s).mem =
      (List.range' 0 6).foldl (fun m r => m.writeBytes (s.padAt b + 64 * r) (((imageNow s).drop (64 * r)).take 64)) s.mem := by
    refine foldl_hom_of (P := SaveFrame s) State.mem _ (fun t r _ ht => ⟨?_, ht.trans (savedRow_saveFrame ht.steps ht.msg _ _ _)⟩) (SaveFrame.refl hwhole)
    have hkey := ht.coreKey_eq
    have hpkg : t.pkg = s.pkg := by rw [State.pkg, hkey, State.pkg]
    have hat : t.padAt (b + 64 * r) = s.padAt b + 64 * r := by
      rw [State.padAt, State.padAt, hkey, hpkg, mkPa, mkPa]
      omega
    rw [savedRow_mem (ht.ownStays hs), hat]
  have hlen := length_imageNow s
  rw [hrows, Memory.writeBytes_rows _ _ 6 0 (by rw [hlen]), Nat.mul_zero, Nat.add_zero, List.drop_zero, List.take_of_length_le (by rw [hlen])]

end

end Sys2Proof.Machine
end

section
/-! PROOFS. The system forms: the statement. -/
open Sys2Proof Sys2Proof.Machine

/-- Settles O57: SNAP's copy is one write of the line, XINV and GSWITCH are one message of an unpaired context, and the six rows of SAVE are granted
one after another. -/
theorem systemForms : Obligations.SystemForms := by
  unfold Obligations.SystemForms
  refine ⟨fun g s hr => ⟨exec_snap_none hr, exec_snap_copies hr⟩,
    fun s g slot k l a => ⟨shadowLine_marked, fun hl hwf hplace => ?_⟩,
    fun g all m s hr => ⟨exec_xinv_user hr, exec_xinv_noncanonical hr, fun hsup hpair hwhole hea => ⟨_, exec_xinv_drops hr hsup hpair hwhole hea, ?_⟩⟩,
    fun g m s b hr hpkg hnear halign hsize hpad hboard hstays hwf hwhole => ?_,
    fun g fn d a b s hr => ⟨exec_gswitch_user hr, fun hsup hpair hwhole => ⟨fun hgone => ?_, fun hex => ⟨fun hfn => ?_, fun hfn => ?_, fun hfn => ?_⟩⟩⟩⟩
  · have hlen := Memory.length_bytes s.mem (padBase k + 64 * l) 64
    have hbytes := Memory.bytes_writeBytes hwf a (s.mem.bytes (padBase k + 64 * l) 64)
    rw [hlen] at hbytes
    rw [SameMemoryBut, shadowLine_placed hl hplace]
    exact ⟨hbytes, fun x hx => Memory.read_writeBytes_out _ _ _ _ (by rwa [hlen])⟩
  · refine ⟨State.ctx_upd _ _, fun _ => rfl, fun k hk => State.getCtx_setCtx_ne _ _ _ _ hk, fun k => ?_⟩
    exact getCore_dropTranslations s s.gang (dropsEntry s all (s.ea m)) k
  · have hlen := length_imageNow s
    have hmem := savedRows_mem (b := b) hstays hwhole
    refine ⟨_, exec_save_own hr (saveRows_own hpkg hnear halign hsize hpad hboard) hstays hwhole, fun x hx => ?_, ?_⟩
    · rw [hmem]
      exact Memory.read_writeBytes_out _ _ _ _ (by rwa [hlen])
    · have hbytes := Memory.bytes_writeBytes hwf (s.padAt b) (imageNow s)
      rw [hlen] at hbytes
      rw [hmem]
      exact hbytes.trans (imageNow_eq s)
  · exact exec_gswitch_eq hr hsup hpair hwhole (switchRequest_gone hgone fn _)
  · subst hfn
    obtain ⟨h2, h3, hok⟩ := switchRequest_out_eq (time := (s.rs b).toNat) hex
    exact ⟨fun hc => exec_gswitch_eq hr hsup hpair hwhole (h2 hc), fun hc hst => exec_gswitch_eq hr hsup hpair hwhole (h3 hc hst),
      fun hc hst => exec_gswitch_eq hr hsup hpair hwhole (hok hc hst)⟩
  · subst hfn
    obtain ⟨h4, hok, h5⟩ := switchRequest_in_eq (time := (s.rs b).toNat) hex
    refine ⟨fun hst hbusy => exec_gswitch_eq hr hsup hpair hwhole (h4 hst ?_), fun hst hfree => exec_gswitch_eq hr hsup hpair hwhole (hok hst ?_),
      fun hst => exec_gswitch_eq hr hsup hpair hwhole (h5 hst)⟩
    · obtain ⟨k, hk, hbusy⟩ := hbusy
      exact ⟨k, hk, (occupiedAt_iff _ _ _ _).mpr hbusy⟩
    · exact fun k hk hocc => hfree k hk ((occupiedAt_iff _ _ _ _).mp hocc)
  · subst hfn
    obtain ⟨h6, hok⟩ := switchRequest_cancel_eq (time := (s.rs b).toNat) hex
    exact ⟨fun hout hin => exec_gswitch_eq hr hsup hpair hwhole (h6 hout hin), fun hreq => exec_gswitch_eq hr hsup hpair hwhole (hok hreq)⟩
end

section
/-! PROOFS. Which accesses and answers leave memory (R94, R123, R127, R150, R183). -/
namespace Sys2Proof.Machine

/-! ### How the parts of a meaning keep memory -/

section
variable {α β : Type} {m : Memory} {f : α → State}

theorem Keeps.bind {g : β → State} {r : Res α} {k : α → Res β} (h : Keeps m f r) (hk : ∀ a, (f a).mem = m → Keeps m g (k a)) :
    Keeps m g (r >>= k) := by
  cases r with
  | ok a => exact hk a h
  | error e => cases e <;> exact h

theorem Keeps.ite {p : Prop} [Decidable p] {x y : Res α} (hx : Keeps m f x) (hy : Keeps m f y) : Keeps m f (if p then x else y) := by
  split
  · exact hx
  · exact hy

theorem keeps_ok {a : α} (h : (f a).mem = m) : Keeps m f (.ok a) := h
theorem keeps_trap (t : TrapInfo) : Keeps m f (.error (.trap t)) := trivial
theorem keeps_raise (c : Nat) (a b : Word) : Keeps m f (raise c a b) := trivial
theorem keeps_raisePhase (s : State) (i : Instr) (sub : Nat) : Keeps m f (raisePhase s i sub) := trivial
theorem keeps_raiseSlot (s : State) (i : Instr) (c : Nat) : Keeps m f (raiseSlot s i c) := trivial
theorem keeps_raiseFrom {s : State} (h : s.mem = m) (c : Nat) (a b : Word) : Keeps m f (raiseFrom s c a b) := h
theorem keeps_stall {s : State} (h : s.mem = m) (w : Wait) : Keeps m f (stall s w) := h

theorem keeps_stallOr {s : State} (h : s.mem = m) (i : Instr) (w : Wait) : Keeps m f (stallOr s i w) :=
  .ite (keeps_raisePhase s i 1) (keeps_stall h w)

theorem Keeps.onTrap {r : Res α} (h : Keeps m f r) (t : TrapInfo → TrapInfo) : Keeps m f (onTrap t r) := by
  cases r with
  | ok a => exact h
  | error e => cases e <;> exact h

end

/-- R67: a meaning that keeps memory, and does not trap, leaves it. -/
theorem finish_leaves {s t : State} {r : Res State} (h : Keeps s.mem id r) (hx : finish s r = .next t) (htrap : t.grp.trapped = false) :
    t.mem = s.mem := by
  cases r with
  | ok u =>
    obtain rfl := Host.Outcome.next.inj hx
    exact h
  | error e =>
    cases e with
    | trap c =>
      obtain rfl := Host.Outcome.next.inj hx
      exact Bool.noConfusion htrap
    | after u c =>
      obtain rfl := Host.Outcome.next.inj hx
      exact Bool.noConfusion htrap
    | wait u =>
      obtain rfl := Host.Outcome.next.inj hx
      exact h

theorem guarded_leaves {s t : State} {i : Instr} {g : Guard} {body : Res State} (h : Keeps s.mem id body) (hx : guarded s i g body = .next t)
    (htrap : t.grp.trapped = false) : t.mem = s.mem :=
  finish_leaves (.ite (keeps_raisePhase s i 2) (.ite (keeps_ok rfl) (.ite (keeps_raisePhase s i 2) h))) hx htrap

theorem guardedShape_leaves {s t : State} {i : Instr} {g : Guard} {body : Res State} (h : Keeps s.mem id body) (hx : guardedShape s i g body = .next t)
    (htrap : t.grp.trapped = false) : t.mem = s.mem := by
  unfold guardedShape at hx
  split at hx
  · exact finish_leaves (keeps_trap _) hx htrap
  · exact guarded_leaves h hx htrap

/-! ### Checks and grants -/

section
variable {m : Memory} {s : State} (hs : s.mem = m)
include hs

theorem checkEA_leaves (ea : Word) (align : Nat) (k : Kind) : Keeps m Prod.fst (checkEA s ea align k) := hs ▸ checkEA_keeps s ea align k

theorem checkMode_leaves (i : Instr) (ea : Word) (align : Nat) (mode : Mode) : Keeps m Prod.fst (checkMode s i ea align mode) := by
  unfold checkMode
  split
  · exact keeps_raisePhase s i 2
  cases mode with
  | read => exact checkEA_leaves hs ea align .read
  | write => exact checkEA_leaves hs ea align .write
  | rmw =>
    have hwrite := checkEA_leaves hs ea align .write
    dsimp only
    split
    next h => exact checkEA_leaves (hwrite.ok h) ea align .read
    next h => exact hwrite.stop h

theorem grant_leaves (i : Instr) (ea : Word) (align n : Nat) (mode : Mode) (word : Bool) :
    Keeps m Grant.s (grant s i ea align n mode word) := by
  have hcheck := checkMode_leaves hs i ea align mode
  unfold grant grantAs
  split
  · exact hcheck.stop ‹_›
  · next s1 pa hchecked =>
    have h1 : s1.mem = m := hcheck.ok hchecked
    dsimp only
    refine .ite (keeps_raiseFrom h1 _ _ _) (.ite (keeps_raiseFrom h1 _ _ _) ?_)
    split
    · exact keeps_stallOr h1 i _
    · refine .ite h1 ?_
      have hread : (if mode ≠ .write then homeRead s1 .ctx pa else s1).mem = m := by
        split
        · exact (homeRead_mem _ _ _).trans h1
        · exact h1
      generalize (if mode ≠ .write then homeRead s1 .ctx pa else s1) = u at hread
      exact .ite (hread ▸ consumeAt_keeps u Grant.s u.cur pa) hread

/-! ### Messages -/

theorem performOnce_leaves {perform : State → State × (Option Word × List Line)} (h : ∀ t, t.mem = m → (perform t).1.mem = m) :
    Keeps m Prod.fst (performOnce s perform) :=
  .ite (h s hs) (.ite (keeps_stall hs _) (h { s with steps := s.steps.map (· - 1) } hs))

theorem message_leaves (hash : BitVec 32) : Keeps m (fun _ => s) (message s hash) := by
  unfold message
  split
  · exact hs
  · split
    · exact hs
    · split
      · exact .ite hs hs
      · split
        · exact hs
        · exact hs

theorem exchange_leaves (kind addr : Nat) (data : List Byte) {perform : State → State × (Option Word × List Line)}
    (h : ∀ t, t.mem = m → (perform t).1.mem = m) : Keeps m Prod.fst (exchange s kind addr data perform) := by
  have hmsg := message_leaves hs (messageHash kind addr data)
  unfold exchange
  split
  · exact hs
  · split
    · exact hmsg.stop ‹_›
    · exact performOnce_leaves hs h
    · exact (forwarded_mem _ _ _).trans (h s hs)
    · exact (taken_mem _ _).trans hs

theorem exchangeAt_leaves (kind pa : Nat) (data : List Byte) {perform : State → State × (Option Word × List Line)}
    (h : ∀ t, t.mem = m → (perform t).1.mem = m) : Keeps m Prod.fst (exchangeAt s kind pa data perform) := by
  unfold exchangeAt
  split
  · split
    · exact hs
    · exact performOnce_leaves hs h
  · exact exchange_leaves hs kind pa data h

theorem asMessage_leaves (kind addr : Nat) (data : List Byte) {perform : State → State × (Option Word × List Line)}
    {take : State → Option Word × List Line → State} (h : ∀ t, t.mem = m → (perform t).1.mem = m) (htake : ∀ t a, t.mem = m → (take t a).mem = m) :
    Keeps m id (asMessage s kind addr data perform take) := by
  have hex := exchange_leaves hs kind addr data h
  unfold asMessage
  split
  · exact hex.stop ‹_›
  · exact htake _ _ (hex.ok ‹_›)

theorem accessMessage_leaves (kind pa : Nat) (data : List Byte) {perform : State → State × (Option Word × List Line)}
    {take : State → Option Word × List Line → State} (h : ∀ t, t.mem = m → (perform t).1.mem = m) (htake : ∀ t a, t.mem = m → (take t a).mem = m) :
    Keeps m id (accessMessage s kind pa data perform take) := by
  have hex := exchangeAt_leaves hs kind pa data h
  unfold accessMessage
  split
  · exact hex.stop ‹_›
  · exact htake _ _ (hex.ok ‹_›)

theorem loadMessage_leaves (kind pa n : Nat) : Keeps m Prod.fst (loadMessage s kind pa n (fun s => loadBytes s pa n)) := by
  unfold loadMessage
  split
  · exact (loadBytes_mem s pa n).trans hs
  · have hex := exchangeAt_leaves hs kind pa [] (perform := fun s => let r := loadBytes s pa n
      (r.1, (some (BitVec.ofNat 64 (Bits.b2n r.2.2)), [BitVec.ofNat 512 (Bits.ofBytesLE r.2.1)]))) (fun t ht => (loadBytes_mem t pa n).trans ht)
    split
    · exact hex.stop ‹_›
    · exact hex.ok ‹_›

/-! ### Destinations and the ring -/

theorem dst_leaves (o : Opnd) (v : Word) : Keeps m id (s.dst o v) := by
  unfold State.dst
  split
  · exact hs
  · exact hs
  · unfold State.laneWrite
    split
    · exact hs
    · dsimp only
      split
      · trivial
      · split
        · trivial
        · next hsend => exact (laneSend_frame hsend).1.trans hs
  · exact hs

theorem dispatchNow_leaves (i : Instr) : Keeps m id (dispatchNow s i) := by
  have hslot : Keeps m (fun _ => s) (ringSlot s i) :=
    .ite (keeps_stallOr hs i _) (.ite (.ite (keeps_raise _ _ _) (keeps_stallOr hs i _)) hs)
  unfold dispatchNow
  split
  · exact hslot.stop ‹_›
  · exact hs

theorem answerS_leaves (d : Fin 32) (v : Word) (fl : BitVec 6) (remote : Bool) : (answerS s d v fl remote).mem = m :=
  (answerS_mem s d v fl remote).trans hs

/-! ### Bodies that several forms share -/

theorem loadForm_leaves (i : Instr) (ty : Ty) (d : Opnd) (mem : Mem) (word : Bool) : Keeps m id (loadForm s i ty d mem loadBytes word) := by
  unfold loadForm
  refine (grant_leaves hs i (s.ea mem) _ _ .read _).bind (fun g hg => ?_)
  split
  · refine dst_leaves ?_ d 0
    split
    · exact hg
    · exact hg
  · refine (loadMessage_leaves hg 0 g.pa (ty.bits / 8)).bind (fun ⟨u, bs, remote⟩ hu => ?_)
    replace hu : u.mem = m := hu
    dsimp only
    split
    · split
      · exact keeps_ok hu
      · exact keeps_ok (answerS_leaves hu _ _ _ _)
    · exact dst_leaves hu d _

theorem queryLoad_leaves (i : Instr) (d : Fin 32) (ea : Word) (n : Nat) (f : Nat → Nat) : Keeps m id (queryLoad s i d ea n f) := by
  unfold queryLoad
  refine (grant_leaves hs i ea n n .read false).bind (fun g hg => ?_)
  split
  · refine keeps_ok (f := id) ?_
    show State.mem (if offCore g.s g.pa = true then countRemote g.s else g.s) = m
    split
    · exact hg
    · exact hg
  · refine (loadMessage_leaves hg 0 g.pa n).bind (fun ⟨u, bs, remote⟩ hu => ?_)
    exact keeps_ok (answerS_leaves hu _ _ _ _)

theorem promiseForm_leaves (i : Instr) (c5 : Bool) (d : Option (Fin 32)) (c : Opnd) (mem : Mem) (n : Nat) (mode : Mode) :
    Keeps m id (promiseForm s i c5 d c mem n mode) := by
  unfold promiseForm
  refine (checkMode_leaves hs i (s.ea mem) n mode).bind (fun ⟨u, pa⟩ hu => ?_)
  replace hu : u.mem = m := hu
  dsimp only
  split
  · exact keeps_raiseFrom hu _ _ _
  split
  · exact keeps_stall hu _
  · refine (dispatchNow_leaves hu i).bind (fun _ _ => ?_)
    refine (asMessage_leaves hu 22 pa _ (fun t ht => ht) (fun t a ht => ?_)).bind (fun t ht => dispatchNow_leaves ht i)
    cases d <;> exact ht

/-! ### Rows -/

theorem checkRows_leaves (i : Instr) (mode : Mode) (eas : List Word) : Keeps m Prod.fst (checkRows i mode s eas) := by
  induction eas generalizing s with
  | nil => exact keeps_ok hs
  | cons ea eas ih =>
    refine (checkMode_leaves hs i ea 64 mode).bind (fun ⟨u, pa⟩ hu => ?_)
    replace hu : u.mem = m := hu
    dsimp only
    split
    · exact keeps_raiseFrom hu _ _ _
    · exact (ih hu).bind (fun _ ht => keeps_ok ht)

theorem rowsReady_leaves (i : Instr) (mode : Mode) (rows : List (Word × Nat)) : Keeps m (fun _ => s) (rowsReady i mode s rows) := by
  induction rows with
  | nil => exact keeps_ok hs
  | cons row rows ih =>
    refine (grant_leaves hs i row.1 64 64 mode false).bind (fun g hg => ?_)
    split
    · exact keeps_ok hs
    · exact ih

theorem overRows_leaves (i : Instr) (mode : Mode) (kind : Nat) (data : Nat → List Byte) {f : State → Nat → Nat → State × (Option Word × List Line)}
    (hf : ∀ t pa r, t.mem = m → (f t pa r).1.mem = m) (rows : List (Word × Nat)) (r : Nat) :
    Keeps m Prod.fst (overRows i mode kind data f s rows r) := by
  induction rows generalizing s r with
  | nil => exact keeps_ok hs
  | cons row rows ih =>
    unfold overRows
    split
    · exact (ih (s := { s with grp := { s.grp with msg := s.grp.msg + 1 } }) hs (r + 1)).bind (fun _ ht => keeps_ok ht)
    · refine (grant_leaves hs i row.1 64 64 mode false).bind (fun g hg => ?_)
      split
      · exact keeps_ok hg
      · refine (exchangeAt_leaves hg kind g.pa (data r) (fun t ht => hf t g.pa r ht)).bind (fun ⟨u, a⟩ hu => ?_)
        exact (ih hu (r + 1)).bind (fun _ ht => keeps_ok ht)

end

/-! ### The forms -/

/-- R154, R347: a line written back where no gang logs in memory changes no byte. -/
theorem writeBackLine_leaves {u : State} (hshadow : ∀ g, (u.getGang g).shadow = 0) (l : Nat) : (writeBackLine u l).mem = u.mem := by
  unfold writeBackLine
  dsimp only
  split
  · rfl
  · exact logLine_mem (.inr (hshadow _)) l

/-- R261: a chain number that is none raises 0x52. -/
theorem chainOf_leaves {m : Memory} {s : State} (hs : s.mem = m) (o : Opnd) : Keeps m (fun _ => s) (chainOf s o) := by
  unfold chainOf
  dsimp only
  split
  · exact keeps_ok hs
  · exact keeps_raise _ _ _

/-- R79: a form on a special register traps, waits for the vector unit, or has its effect. -/
theorem specialForm_leaves {s : State} {i : Instr} {num : Nat} {body : Res State} (h : Keeps s.mem id body) : Keeps s.mem id (specialForm s i num body) := by
  unfold specialForm
  split
  · exact keeps_raiseSlot _ _ _
  · exact .ite (keeps_stallOr rfl _ _) h

theorem specialWrite_leaves (s : State) (i : Instr) (num : Nat) (v : Word) : Keeps s.mem id (specialWrite s i num v) := by
  unfold specialWrite
  split
  · exact .ite (keeps_trap _) (.ite (keeps_trap _) (keeps_ok rfl))
  · split
    case h_2 => exact .ite (keeps_raise _ _ _) (keeps_ok rfl)
    case h_3 =>
      refine keeps_ok ?_
      split <;> rfl
    all_goals exact keeps_ok rfl

section
variable {s t : State} {g : Guard} (htrap : t.grp.trapped = false)
include htrap

theorem exec_ld_leaves {ty : Ty} {d : Opnd} {m : Mem} (hx : exec (.ld g ty d m) s = .next t) : t.mem = s.mem :=
  guarded_leaves (loadForm_leaves rfl _ _ _ _ _) hx htrap

theorem exec_ldv_leaves {d : Fin 32} {m : Mem} {str : Option (Fin 32)} (hx : exec (.ldv g d m str) s = .next t) : t.mem = s.mem := by
  refine guardedShape_leaves ?_ hx htrap
  have hphase (use : List Nat × List Nat) : Keeps s.mem (fun _ => s) (phaseFree s (.ldv g d m str) (memLate s use)) :=
    .ite (keeps_raisePhase _ _ _) (keeps_ok rfl)
  have haddrs (n : Nat) : Keeps s.mem (fun _ => s) (rowAddrs s m str n) := .ite (keeps_raise _ _ _) (keeps_ok rfl)
  refine (hphase _).bind (fun _ _ => (haddrs _).bind (fun eas _ => (checkRows_leaves rfl _ .read eas).bind (fun ⟨u, ps⟩ hu => ?_)))
  refine (rowsReady_leaves hu _ .read _).bind (fun _ _ => ?_)
  refine (overRows_leaves hu _ .read 2 _ (fun w pa r hw => (loadBytes_mem w pa 64).trans hw) ps 0).bind (fun ⟨w, rows⟩ hw => ?_)
  refine keeps_ok (f := id) ?_
  show State.mem (if _ then _ else _) = _
  split
  · exact hw
  · exact hw

theorem exec_xlat_leaves {kind : XlatKind} {d : Fin 32} {m : Mem} (hx : exec (.xlat g kind d m) s = .next t) : t.mem = s.mem := by
  have hcheck := checkEA_keeps s (s.ea m) 1 (kindOf kind)
  refine guarded_leaves ?_ hx htrap
  split
  · next h => exact hcheck.ok h
  · exact keeps_ok rfl
  · next h =>
    rw [h] at hcheck
    exact hcheck
  · next h => exact hcheck.stop h

theorem exec_xrd_leaves {d : Fin 32} {m : Mem} (hx : exec (.xrd g d m) s = .next t) : t.mem = s.mem := by
  refine guarded_leaves ?_ hx htrap
  refine ((checkMode_leaves rfl (.xrd g d m) (s.ea m) 16 .read).onTrap _).bind (fun ⟨u, pa⟩ hu => ?_)
  refine .ite (keeps_raiseFrom hu _ _ _) ?_
  refine (grant_leaves rfl (.xrd g d m) (s.ea m) 16 16 .read false).bind (fun r hr => ?_)
  split
  · exact keeps_ok hr
  · refine (loadMessage_leaves hr 6 r.pa 16).bind (fun ⟨w, bs, remote⟩ hw => ?_)
    exact keeps_ok (answerS_leaves hw _ _ _ _)

theorem exec_waite_leaves {ty : Ty} {cc : Cond} {d : Option (Fin 32)} {a : Fin 32} {b : Opnd} {lim : BitVec 24}
    (hx : exec (.waite g ty cc d a b lim) s = .next t) : t.mem = s.mem := by
  refine guarded_leaves ?_ hx htrap
  refine (grant_leaves rfl (.waite g ty cc d a b lim) (s.rs a) 8 8 .read false).bind (fun r hr => ?_)
  split
  · refine keeps_ok (f := id) ((answerZero_mem _ d).trans ?_)
    split
    · exact hr
    · exact hr
  · dsimp only
    split
    · exact hr
    · refine accessMessage_leaves hr 15 r.pa [] (fun u hu => ?_) (fun u x hu => ?_)
      · split
        · exact hu
        · split
          · exact (loadStep_mem u r.pa 8).trans hu
          · exact (loadAtHome_mem u r.pa 8).trans hu
      · split
        · exact answerS_leaves hu _ _ _ _
        · exact hu

theorem exec_tqry_leaves {fn : TqryFn} {d : Fin 32} {a : Opnd} (hx : exec (.tqry g fn d a) s = .next t) : t.mem = s.mem := by
  refine guarded_leaves ?_ hx htrap
  dsimp only
  split
  · exact keeps_raise _ _ _
  · refine (dispatchNow_leaves rfl _).bind (fun _ _ => ?_)
    have hquery : Keeps s.mem id (if fn = .head then queryLoad s (.tqry g fn d a) d (headAddr s.gang.tensors (s.src a).toNat) 8 (tqryField fn)
        else queryLoad s (.tqry g fn d a) d (tensorAddr s.gang.tensors (s.src a).toNat) 32 (tqryField fn)) :=
      .ite (queryLoad_leaves rfl _ _ _ _ _) (queryLoad_leaves rfl _ _ _ _ _)
    exact hquery.bind (fun u hu => dispatchNow_leaves hu _)

theorem exec_pstat_leaves {d : Fin 32} {m : Mem} (hx : exec (.pstat g d m) s = .next t) : t.mem = s.mem :=
  guarded_leaves ((dispatchNow_leaves rfl _).bind (fun _ _ => (queryLoad_leaves rfl _ _ _ _ _).bind (fun _ hu => dispatchNow_leaves hu _))) hx htrap

theorem exec_cwait_leaves {a b : Opnd} {lim : BitVec 24} (hx : exec (.cwait g a b lim) s = .next t) : t.mem = s.mem := by
  refine guarded_leaves ((chainOf_leaves rfl a).bind (fun ch _ => ?_)) hx htrap
  dsimp only
  split
  · exact keeps_raise _ _ _
  split
  · exact keeps_stall rfl _
  · exact (dispatchNow_leaves rfl _).bind (fun _ hu => keeps_ok hu)

theorem exec_cseq_leaves {d : Fin 32} {a : Opnd} (hx : exec (.cseq g d a) s = .next t) : t.mem = s.mem := by
  refine guarded_leaves ?_ hx htrap
  exact (chainOf_leaves rfl a).bind (fun _ _ => (dispatchNow_leaves rfl _).bind (fun _ hu => keeps_ok hu))

theorem exec_cfence_leaves {mask : BitVec 8} (hx : exec (.cfence g mask) s = .next t) : t.mem = s.mem := by
  refine guarded_leaves ((dispatchNow_leaves rfl _).bind (fun _ _ => ?_)) hx htrap
  refine (asMessage_leaves rfl 21 mask.toNat [] (fun u hu => ?_) (fun _ _ hu => hu)).bind (fun u hu => dispatchNow_leaves hu _)
  refine (mem_foldl _ (fun v ch => ?_) (chainsOf mask) u).trans hu
  rfl

theorem exec_cstat_leaves {clear : Bool} {d : Fin 32} {a : Opnd} (hx : exec (.cstat g clear d a) s = .next t) : t.mem = s.mem := by
  refine guarded_leaves ((chainOf_leaves rfl a).bind (fun ch _ => (dispatchNow_leaves rfl _).bind (fun u hu => keeps_ok ?_))) hx htrap
  cases clear <;> exact hu

theorem exec_mfs_leaves {d : Fin 32} {num : BitVec 12} (hx : exec (.mfs g d num) s = .next t) : t.mem = s.mem := by
  refine guarded_leaves ?_ hx htrap
  exact specialForm_leaves (keeps_ok rfl)

theorem exec_mts_leaves {a : Fin 32} {num : BitVec 12} (hx : exec (.mts g a num) s = .next t) : t.mem = s.mem :=
  guarded_leaves (specialForm_leaves (specialWrite_leaves _ _ _ _)) hx htrap

theorem exec_disc_leaves {clear : Bool} {c : Fin 32} {m : Mem} (hx : exec (.disc g clear c m) s = .next t) : t.mem = s.mem := by
  refine guarded_leaves (.ite (keeps_ok rfl) ?_) hx htrap
  split
  · exact keeps_raise _ _ _
  · exact .ite (keeps_raise _ _ _) (.ite (keeps_raise _ _ _) (keeps_ok rfl))

theorem exec_pcnt_leaves {d : Fin 32} {ctr : BitVec 8} {clear : Bool} (hx : exec (.pcnt g d ctr clear) s = .next t) : t.mem = s.mem := by
  refine guarded_leaves (.ite (keeps_raiseSlot _ _ _) (keeps_ok ?_)) hx htrap
  have hclear (u : State) (n : Nat) : (clearCounter u n).mem = u.mem := by
    unfold clearCounter
    split <;> rfl
  cases clear
  · rfl
  · exact hclear _ _

theorem exec_xinv_leaves {all : Bool} {m : Mem} (hx : exec (.xinv g all m) s = .next t) : t.mem = s.mem := by
  refine guarded_leaves ?_ hx htrap
  exact .ite (keeps_raiseSlot _ _ _) (.ite (keeps_raise _ _ _) (asMessage_leaves rfl 23 _ [] (fun _ hu => hu) (fun _ _ hu => hu)))

theorem exec_wbl_leaves {inv : Bool} {m : Mem} (hshadow : ∀ g, (s.getGang g).shadow = 0) (hx : exec (.wbl g inv m) s = .next t) :
    t.mem = s.mem := by
  have hcheck := checkEA_keeps s (s.ea m) 1 .read
  refine guarded_leaves ?_ hx htrap
  cases hc : checkEA s (s.ea m) 1 .read with
  | error e => exact hcheck.stop hc
  | ok r =>
    obtain ⟨u, pa⟩ := r
    have hframe := checkEA_checkFrame hc
    have hwritten : (writeBackLine u (pa / 64)).mem = s.mem :=
      (writeBackLine_leaves (fun g => by rw [State.getGang, hframe.gangs]; exact hshadow g) _).trans hframe.mem
    refine .ite (keeps_ok hframe.mem) (keeps_ok ?_)
    cases inv <;> exact hwritten

theorem exec_snap_leaves (hshadow : s.gang.shadow = 0) (hx : exec (.snap g) s = .next t) : t.mem = s.mem := by
  refine guarded_leaves ?_ hx htrap
  dsimp only
  rw [if_pos hshadow]
  exact keeps_ok rfl

end

end Sys2Proof.Machine
end

section
/-! PROOFS. The forms that store nothing: the statement. -/
open Sys2Proof Sys2Proof.Machine

/-- Settles O26: every part of such a form keeps memory where it goes on, where it waits and where it traps with a changed state. -/
theorem noStoreForms : Obligations.NoStoreForms := by
  unfold Obligations.NoStoreForms
  intro s t i hi hx htrap _
  have hmem : t.mem = s.mem := by
    cases i
    case ld => exact exec_ld_leaves htrap hx
    case ldv => exact exec_ldv_leaves htrap hx
    case xlat => exact exec_xlat_leaves htrap hx
    case xrd => exact exec_xrd_leaves htrap hx
    case waite => exact exec_waite_leaves htrap hx
    case tqry => exact exec_tqry_leaves htrap hx
    case pstat => exact exec_pstat_leaves htrap hx
    case cwait => exact exec_cwait_leaves htrap hx
    case cseq => exact exec_cseq_leaves htrap hx
    case cfence => exact exec_cfence_leaves htrap hx
    case cstat => exact exec_cstat_leaves htrap hx
    case mfs => exact exec_mfs_leaves htrap hx
    case mts => exact exec_mts_leaves htrap hx
    case disc => exact exec_disc_leaves htrap hx
    case pcnt => exact exec_pcnt_leaves htrap hx
    case xinv => exact exec_xinv_leaves htrap hx
    case wbl => exact exec_wbl_leaves htrap hi hx
    case snap => exact exec_snap_leaves htrap hi hx
    case pref | rstat | gtime | rdring =>
      refine guarded_leaves ?_ hx htrap
      exact keeps_ok rfl
    case tdef | pissue | predeem | pexpire => exact guarded_leaves (promiseForm_leaves rfl _ _ _ _ _ _ _) hx htrap
    all_goals exact hi.elim
  intro a
  rw [hmem]
end

section
/-! PROOFS. An insistent send whose home moves while its core is written (R121, R139, R142). -/
namespace Sys2Proof.Machine

/-- A live entry of line 1 whose AGE has reached 65,536 at GTIME 65,536. -/
def agedEntry : Residual := ⟨1, false, .i32, 1, 0, 0, none⟩

/-- An insistent accumulate of core 0 to line 1, for a gang of seed 0. -/
def insistentToLine1 : AccMsg := ⟨0, 3, 1, false, .i32, 1, 0, true, 15, none, .sent, 0, 0, 0⟩

/-- R121: core 0 is listed after core 1, and its gang has its own cores in another package, so that a line of package 0 is placed by the gang of
the first core listed: by seed 1. Four insistent accumulates of core 0 are unanswered at the home by seed 0. -/
def coresOutOfOrder : State :=
  { State.reset with
    now := 65536
    cores := [(1, { Core.reset with gang := 2 }), (0, { Core.reset with gang := 1, residual := [agedEntry] })]
    gangs := [(1, { Gang.blank with st := .running, cores := [4096] }), (2, { Gang.blank with st := .running, cores := [1], seed := 1 })]
    accs := List.replicate 4 insistentToLine1 }

/-- The accumulates that are under way after a step. -/
def accsLeft : Out → List AccMsg
  | .next t => t.accs
  | _ => []

/-- R139: none of the four is unanswered at the entry's home. -/
theorem insistentFull_coresOutOfOrder : insistentFull coresOutOfOrder 0 1 = false := by decide +kernel

/-- R142: taking a number writes core 0, which then is listed first: the entry's home is the one by seed 0, and its send waits. -/
theorem residualAgeExpiry_coresOutOfOrder : accsLeft (exec (.residualAgeExpiry 0) coresOutOfOrder) = coresOutOfOrder.accs := by decide +kernel

end Sys2Proof.Machine

open Sys2Proof Sys2Proof.Machine

/-- Refutes O28, in its clause on an aged entry: the home of a line can depend on the order in which the state lists its cores (R121), and a write of a
core restores that order, so where the cores are listed out of order the entry's home moves to one where four are unanswered, and its send waits. The
statement lacks the premise that the cores stand in the order of their numbers. -/
theorem not_accumulateSteps : ¬ Obligations.AccumulateSteps := by
  unfold Obligations.AccumulateSteps
  rintro ⟨-, -, -, hexpiry, -⟩
  obtain ⟨hsends, -⟩ := hexpiry 0 agedEntry coresOutOfOrder (by decide +kernel) (by decide +kernel)
  obtain ⟨t, m, hstep, -, hsent, -⟩ := hsends insistentFull_coresOutOfOrder
  have hleft := residualAgeExpiry_coresOutOfOrder
  rw [hstep] at hleft
  have hsame : coresOutOfOrder.accs ++ [m] = coresOutOfOrder.accs := hsent.symm.trans hleft
  simp at hsame
end

section
/-! PROOFS. Results and outcomes that keep the canonical form of memory, and how they are put together (log 2). -/
namespace Sys2Proof.Machine

/-! ### Results -/

/-- Memory is canonical in the state that `f` finds in a result; of what stops it, `q` holds. -/
def Canonical {ε α : Type} (q : ε → Prop) (f : α → State) : Except ε α → Prop
  | .ok a => (f a).mem.wf
  | .error e => q e

/-- The state in which an engine's access stops has a canonical memory. -/
def EngStop.Wf (e : EngStop) : Prop := e.s.mem.wf

/-- Memory is canonical in the state that one pass of a form leaves. -/
def Perf.Wf : Perf → Prop
  | .ok s _ _ => s.mem.wf
  | .fault s _ _ _ => s.mem.wf
  | .stop e => e.Wf

/-- The next state of an outcome, where there is one, has a canonical memory. -/
def NextWf : Host.Outcome State Fault Refusal → Prop
  | .next t => t.mem.wf
  | _ => True

section
variable {ε α β : Type} {q : ε → Prop} {f : α → State} {g : β → State}

theorem Canonical.ok {r : Except ε α} {a : α} (h : Canonical q f r) (e : r = .ok a) : (f a).mem.wf := by
  rwa [e] at h

theorem Canonical.error {r : Except ε α} {x : ε} (h : Canonical q f r) (e : r = .error x) : q x := by
  rwa [e] at h

theorem canonical_pure {a : α} (h : (f a).mem.wf) : Canonical q f (pure a : Except ε α) := h

theorem Canonical.bind {r : Except ε α} {k : α → Except ε β} (h : Canonical q f r) (hk : ∀ a, (f a).mem.wf → Canonical q g (k a)) :
    Canonical q g (r >>= k) := by
  cases r with
  | ok a => exact hk a h
  | error e => exact h

/-- A check that gives no state goes before what is done in the state at hand. -/
theorem Canonical.unit {s : State} {r : Except ε Unit} {k : Unit → Except ε β} (h : Canonical q (fun _ => s) r)
    (hk : Canonical q g (k ())) : Canonical q g (r >>= k) :=
  h.bind fun _ _ => hk

theorem Canonical.map {r : Except ε α} {k : α → β} (h : Canonical q f r) (hk : ∀ a, (f a).mem.wf → (g (k a)).mem.wf) :
    Canonical q g (r.map k) := by
  cases r with
  | ok a => exact hk a h
  | error e => exact h

theorem Canonical.ite {p : Prop} [Decidable p] {x y : Except ε α} (hx : Canonical q f x) (hy : Canonical q f y) :
    Canonical q f (if p then x else y) := by
  split
  · exact hx
  · exact hy

/-- A fold of steps that each keep the canonical form keeps it. -/
theorem Canonical.foldlM {γ : Type} {step : α → γ → Except ε α} (h : ∀ a x, (f a).mem.wf → Canonical q f (step a x)) (xs : List γ) {a : α}
    (w : (f a).mem.wf) : Canonical q f (xs.foldlM step a) := by
  induction xs generalizing a with
  | nil => exact w
  | cons x xs ih => exact (h a x w).bind fun b hb => ih hb

/-- R118: a walk keeps the canonical form where each of its reads does. -/
theorem Canonical.walkBy {read : State → Nat → Except ε (State × Nat)} (h : ∀ s a, s.mem.wf → Canonical q Prod.fst (read s a)) (va : Nat)
    {s : State} (w : s.mem.wf) (fuel level base : Nat) : Canonical q Prod.fst (walkBy read va s fuel level base) := by
  induction fuel generalizing s level base with
  | zero => exact w
  | succ n ih =>
    have hread := h s (base + 8 * levelIndex va level) w
    unfold Machine.walkBy
    split
    next he => exact hread.error he
    next he =>
      have hw := hread.ok he
      split
      · exact hw
      · exact ih hw _ _
      · exact hw

end

/-- A result that leaves memory keeps its canonical form. -/
theorem Keeps.canonical {α : Type} {m : Memory} {f : α → State} {r : Res α} (h : Keeps m f r) (w : m.wf) : Canonical Stop.Wf f r := by
  cases r with
  | ok a => exact Eq.mpr (congrArg (fun x => Memory.wf x = true) h) w
  | error e =>
    cases e with
    | trap t => trivial
    | after s t => exact Eq.mpr (congrArg (fun x => Memory.wf x = true) h) w
    | wait s => exact Eq.mpr (congrArg (fun x => Memory.wf x = true) h) w

/-! ### Stops and outcomes -/

section
variable {α : Type} {f : α → State}

theorem canonical_raise (c : Nat) (a b : Word) : Canonical Stop.Wf f (raise c a b) := trivial
theorem canonical_raisePhase (s : State) (i : Instr) (sub : Nat) : Canonical Stop.Wf f (raisePhase s i sub) := trivial
theorem canonical_raiseSlot (s : State) (i : Instr) (c : Nat) : Canonical Stop.Wf f (raiseSlot s i c) := trivial
theorem canonical_raiseLane (pcc : Nat) (st : Nat × Nat) (x : BitVec 8) (sub : Nat) (l : Latch) : Canonical Stop.Wf f (raiseLane pcc st x sub l) :=
  trivial
theorem canonical_phaseSlot (s : State) (x : Slot) (sub : Nat) : Canonical Stop.Wf f (phaseSlot s x sub) := trivial
theorem canonical_raiseFrom {s : State} (w : s.mem.wf) (c : Nat) (a b : Word) : Canonical Stop.Wf f (raiseFrom s c a b) := w
theorem canonical_raiseOpen (s : State) (c : Nat) : Canonical Stop.Wf f (raiseOpen s c) := trivial
theorem canonical_raiseOpenFrom {s : State} (w : s.mem.wf) (c : Nat) : Canonical Stop.Wf f (raiseOpenFrom s c) := w
theorem canonical_stall {s : State} (w : s.mem.wf) (x : Wait) : Canonical Stop.Wf f (stall s x) := w

theorem canonical_stallOr {s : State} (w : s.mem.wf) (i : Instr) (x : Wait) : Canonical Stop.Wf f (stallOr s i x) :=
  .ite (canonical_raisePhase s i 1) (canonical_stall w x)

theorem canonical_consumeAt {s : State} (w : s.mem.wf) (key pa : Nat) : Canonical Stop.Wf f (consumeAt s key pa) := w
theorem canonical_consume {s : State} (w : s.mem.wf) (pa : Nat) : Canonical Stop.Wf f (consume s pa) := w

theorem Canonical.onTrap {r : Res α} (h : Canonical Stop.Wf f r) (t : TrapInfo → TrapInfo) : Canonical Stop.Wf f (onTrap t r) := by
  cases r with
  | ok a => exact h
  | error e => cases e <;> exact h

end

theorem finish_nextWf {s : State} {r : Res State} (w : s.mem.wf) (h : Canonical Stop.Wf id r) : NextWf (finish s r) := by
  cases r with
  | ok t => exact h
  | error e =>
    cases e with
    | trap t => exact takeTrap_wf w t
    | after u t => exact takeTrap_wf h t
    | wait u => exact h

/-- R58: a form under its guard keeps the canonical form where its body does. -/
theorem guarded_nextWf {s : State} (w : s.mem.wf) {body : Res State} (h : Canonical Stop.Wf id body) (i : Instr) (g : Guard) :
    NextWf (guarded s i g body) :=
  finish_nextWf w (.ite (canonical_raisePhase s i 2) (.ite w (.ite (canonical_raisePhase s i 2) h)))

theorem guardedShape_nextWf {s : State} (w : s.mem.wf) {body : Res State} (h : Canonical Stop.Wf id body) (i : Instr) (g : Guard) :
    NextWf (guardedShape s i g body) := by
  unfold guardedShape
  split
  · exact takeTrap_wf w _
  · exact guarded_nextWf w h i g

/-! ### Walks, checks and grants (R119, R123, R150) -/

section
variable {s : State} (w : s.mem.wf)
include w

theorem walkStep_wf (key va : Nat) : Canonical Stop.Wf Prod.fst (walkStep s key va) := (walkStep_keeps s key va).canonical w
theorem fetchAt_wf (key : Nat) (a : Word) : Canonical Stop.Wf Prod.fst (fetchAt s key a) := (fetchAt_keeps s key a).canonical w
theorem lookAhead_wf (key : Nat) (a : Word) : Canonical Stop.Wf id (lookAhead s key a) := (lookAhead_keeps s key a).canonical w
theorem loadRun_wf (key fuel : Nat) (a : Word) : Canonical Stop.Wf Prod.fst (loadRun s key fuel a) := (loadRun_keeps s key fuel a).canonical w
theorem checkEA_wf (ea : Word) (align : Nat) (k : Kind) : Canonical Stop.Wf Prod.fst (checkEA s ea align k) :=
  (checkEA_keeps s ea align k).canonical w

theorem checkMode_wf (i : Instr) (ea : Word) (align : Nat) (m : Mode) : Canonical Stop.Wf Prod.fst (checkMode s i ea align m) :=
  (checkMode_leaves rfl i ea align m).canonical w

theorem grantAs_wf (i : Instr) (ea : Word) (align n : Nat) (c m : Mode) (word : Bool) :
    Canonical Stop.Wf Grant.s (grantAs s i ea align n c m word) := by
  have hcheck := checkMode_wf w i ea align c
  unfold grantAs
  split
  next he => exact hcheck.error he
  next u pa he =>
    have hu : u.mem.wf := hcheck.ok he
    dsimp only
    refine .ite (canonical_raiseFrom hu ..) (.ite (canonical_raiseFrom hu ..) ?_)
    split
    · exact canonical_stallOr hu i _
    · have hread : (if m ≠ .write then homeRead u .ctx pa else u).mem.wf := by
        split
        · rwa [homeRead_mem]
        · exact hu
      exact .ite hu (.ite (canonical_consume hread pa) hread)

theorem grant_wf (i : Instr) (ea : Word) (align n : Nat) (m : Mode) (word : Bool) : Canonical Stop.Wf Grant.s (grant s i ea align n m word) :=
  grantAs_wf w i ea align n m m word

/-- R57: a branch keeps the canonical form. -/
theorem branchTo_wf (a : Word) (btm : Bool) : Canonical Stop.Wf id (branchTo s a btm) := by
  have hlook := lookAhead_wf w s.cur a
  unfold branchTo
  split
  next he => exact hlook.error he
  next he =>
    split
    · exact canonical_raiseFrom (hlook.ok he) ..
    · show (State.goto _ a).mem.wf
      rw [goto_mem]
      exact hlook.ok he

/-! ### Messages (R149, R183) -/

section
variable {perform : State → State × (Option Word × List Line)} (hp : ∀ t, t.mem.wf → (perform t).1.mem.wf)
include hp

theorem performOnce_wf : Canonical Stop.Wf Prod.fst (performOnce s perform) :=
  .ite (hp s w) (.ite (canonical_stall w _) (hp { s with steps := s.steps.map (· - 1) } w))

theorem exchange_wf (kind addr : Nat) (data : List Byte) : Canonical Stop.Wf Prod.fst (exchange s kind addr data perform) := by
  have hmsg := (message_leaves (s := s) rfl (messageHash kind addr data)).canonical w
  unfold exchange
  split
  · exact w
  · split
    next he => exact hmsg.error he
    · exact performOnce_wf w hp
    · show (forwarded _ _ _).mem.wf
      rw [forwarded_mem]
      exact hp s w
    · show (taken s _).mem.wf
      rwa [taken_mem]

theorem exchangeAt_wf (kind pa : Nat) (data : List Byte) : Canonical Stop.Wf Prod.fst (exchangeAt s kind pa data perform) := by
  unfold exchangeAt
  split
  · split
    · exact w
    · exact performOnce_wf w hp
  · exact exchange_wf w hp kind pa data

theorem asMessage_done_wf (kind addr : Nat) (data : List Byte) :
    Canonical Stop.Wf id (asMessage s kind addr data perform (fun t _ => t)) := by
  have h := exchange_wf w hp kind addr data
  unfold asMessage
  split
  next he => exact h.error he
  next he => exact h.ok he

theorem accessMessage_done_wf (kind pa : Nat) (data : List Byte) :
    Canonical Stop.Wf id (accessMessage s kind pa data perform (fun t _ => t)) := by
  have h := exchangeAt_wf w hp kind pa data
  unfold accessMessage
  split
  next he => exact h.error he
  next he => exact h.ok he

variable {take : State → Option Word × List Line → State} (ht : ∀ t a, t.mem.wf → (take t a).mem.wf)
include ht

theorem asMessage_wf (kind addr : Nat) (data : List Byte) : Canonical Stop.Wf id (asMessage s kind addr data perform take) := by
  have h := exchange_wf w hp kind addr data
  unfold asMessage
  split
  next he => exact h.error he
  next he => exact ht _ _ (h.ok he)

theorem accessMessage_wf (kind pa : Nat) (data : List Byte) : Canonical Stop.Wf id (accessMessage s kind pa data perform take) := by
  have h := exchangeAt_wf w hp kind pa data
  unfold accessMessage
  split
  next he => exact h.error he
  next he => exact ht _ _ (h.ok he)

end
end

end Sys2Proof.Machine
end

section
/-! PROOFS. Groups, their lines and the phase cycle keep the canonical form of memory (R52, R70, R96, R100, R271). -/
namespace Sys2Proof.Machine

/-! ### Operations that leave memory -/

@[simp] theorem rootedAt_mem (s : State) (g : Nat) : (rootedAt s g).mem = s.mem := by
  grind [rootedAt, State.setCore_mem]

@[simp] theorem cleanL1_mem (s : State) (l : Nat) : (cleanL1 s l).mem = s.mem := rfl
@[simp] theorem goOver_mem (s : State) : (goOver s).mem = s.mem := rfl
@[simp] theorem spend_mem (s : State) : (spend s).mem = s.mem := rfl
@[simp] theorem openScript_mem (s : State) (key : Nat) : (openScript s key).mem = s.mem := rfl
@[simp] theorem closeScript_mem (s : State) (done : Bool) : (closeScript s done).mem = s.mem := rfl
@[simp] theorem disown_mem (s : State) (key : Nat) : (disown s key).mem = s.mem := rfl
@[simp] theorem State.flagAt_mem (s : State) (key : Nat) (fl : Num.Flg) : (s.flagAt key fl).mem = s.mem := rfl
@[simp] theorem noteSent_mem (s : State) (a : Option Word × List Line) : (noteSent s a).mem = s.mem := rfl

@[simp] theorem noteSeen_mem (s : State) (x : Seen) : (noteSeen s x).mem = s.mem := by
  unfold noteSeen
  split <;> rfl

@[simp] theorem lateAnswer_mem (s : State) (key : Nat) (d : Fin 32) (v : Word) : (lateAnswer s key d v).mem = s.mem := by
  grind [lateAnswer, State.setCtx_mem]

@[simp] theorem completeEntry_mem (s : State) (k q : Nat) : (completeEntry s k q).mem = s.mem := by
  grind [completeEntry, State.setCore_mem, State.flagAt_mem, lateAnswer_mem]

@[simp] theorem forwardTo_mem (s : State) (k fwd : Nat) (f : Forward) : (forwardTo s k fwd f).mem = s.mem :=
  mem_foldl _ (fun s n => by split <;> rfl) _ s

@[simp] theorem detach_mem (s : State) (key : Nat) : (detach s key).mem = s.mem := rfl
@[simp] theorem switchTo_mem (s : State) (k n : Nat) : (switchTo s k n).mem = s.mem := rfl
@[simp] theorem tick_mem (issues : State → Bool) (s : State) : (tick issues s).mem = s.mem := rfl

@[simp] theorem selectCtx_mem (issues : State → Bool) (s : State) (k : Nat) : (selectCtx issues s k).mem = s.mem := by
  unfold selectCtx
  split <;> rfl

@[simp] theorem sendWaiting_mem (s : State) (k : Nat) : (sendWaiting s k).mem = s.mem := by
  grind [sendWaiting, mem_foldl, startSend_mem]

/-! ### The phase cycle (R199, R271) -/

@[simp] theorem unitCycle_mem (s : State) (q episode cycle : Nat) : (unitCycle s q episode cycle).mem = s.mem := by
  grind [unitCycle, State.setCore_mem, State.setQuad_mem]

@[simp] theorem arrayCycle_mem (s : State) (k cycle : Nat) : (arrayCycle s k cycle).mem = s.mem := by
  grind [arrayCycle, State.setCore_mem]

@[simp] theorem completeDue_mem (s : State) (k pcc : Nat) : (completeDue s k pcc).mem = s.mem := by
  grind [completeDue, mem_foldl, completeEntry_mem, State.setCore_mem]

@[simp] theorem nextCycle_mem (s : State) (k : Nat) : (nextCycle s k).mem = s.mem := by
  grind [nextCycle, unitCycle_mem, arrayCycle_mem, State.setCore_mem]

@[simp] theorem startCycle_mem (s : State) (k : Nat) : (startCycle s k).mem = s.mem := by
  grind [startCycle, mem_foldl, completeDue_mem, State.setCore_mem, State.setCtx_mem]

section
variable {s : State} (w : s.mem.wf)
include w

theorem laneSend_wf {k : Nat} {p : Phase} {l : Link} {v : Word} {sent : BitVec 16} {t : State} (h : laneSend s k p l v sent = some t) :
    t.mem.wf := by
  grind [laneSend, State.setCore_mem]

/-- R271: values that arrive pass through, or one of them meets another. -/
theorem passOn_wf (k : Nat) : Canonical Stop.Wf id (passOn s k) := by
  unfold passOn
  split
  · exact w
  next p _ =>
    generalize p.inflight.filter _ = xs
    refine List.foldlRecOn (motive := Canonical Stop.Wf id) xs _ w fun r hr x _ => ?_
    refine List.foldlRecOn (motive := Canonical Stop.Wf id) p.passes _ hr fun r hr q _ => ?_
    split
    · split
      next e => exact hr
      next u =>
        split
        · trivial
        · split
          · trivial
          next h => exact laneSend_wf hr h
    · exact hr

/-! ### Destinations (R60, R95) -/

theorem State.laneWrite_wf (l : Link) (v : Word) (stamp : Option (Nat × Nat)) : Canonical Stop.Wf id (s.laneWrite l v stamp) := by
  unfold State.laneWrite
  split
  · exact w
  · dsimp only
    split
    · trivial
    · split
      · trivial
      next h => exact (laneSend_wf w h :)

theorem State.dst_wf (o : Opnd) (v : Word) : Canonical Stop.Wf id (s.dst o v) := by
  unfold State.dst
  split
  · exact w
  · exact w
  · exact State.laneWrite_wf w _ v none
  · exact w

/-! ### Faults that reach a context, and the line of a group -/

theorem trapAfter_wf (t : TrapInfo) : (trapAfter s t).mem.wf := enterTrap_wf w s.cur t false 0

theorem deliverFault_wf (key : Nat) : (deliverFault s key).mem.wf := by
  grind [deliverFault, State.setCore_mem, enterTrap_wf, freeRing_mem]

theorem deliverError_wf (key : Nat) : (deliverError s key).mem.wf := by
  grind [deliverError, enterTrap_wf, State.setCtx_mem]

theorem deliverRefusal_wf (key : Nat) : (deliverRefusal s key).mem.wf := by
  grind [deliverRefusal, enterTrap_wf, State.setCtx_mem]

theorem pendingTrap_wf {key : Nat} {t : State} (h : pendingTrap s key = some t) : t.mem.wf := by
  grind [pendingTrap, deliverRefusal_wf, deliverFault_wf, deliverError_wf]

theorem returnTrap_wf : Canonical Stop.Wf id (returnTrap s) := by
  grind [returnTrap, Canonical, canonical_raise, lookAhead_wf, freeRing_mem, State.upd_mem, enterTrap_wf, goto_mem]

theorem readLine_wf (a : Word) : Canonical Stop.Wf Prod.fst (readLine s a) := by
  refine (walkStep_wf w s.cur _).bind fun ⟨u, found⟩ hu => ?_
  grind [Canonical, Stop.Wf, canonical_raiseFrom, canonical_consume, fillTlb_mem, homeRead_mem]

theorem enterLine_wf : Canonical Stop.Wf Prod.fst (enterLine s) := by
  unfold enterLine
  extract_lets c a la held enter
  have hread := readLine_wf w a
  have henter : ∀ u l, u.mem.wf → Canonical Stop.Wf Prod.fst (enter u l) := fun u l hu => by
    simp only [enter]
    split
    · trivial
    · exact hu
  clear_value held enter
  split
  · exact w
  · refine .ite trivial ?_
    split
    · split
      next he => exact henter _ _ (hread.ok he)
      next he => exact hread.error he
    · split
      · exact henter s _ w
      · split
        next he =>
          split
          · trivial
          next he' => exact (henter _ _ (hread.ok he)).error he'
        next he => exact hread.error he

end

/-- What a context brings to its next group has a canonical memory. -/
def Prep.Wf : Prep → Prop
  | .blocked => True
  | .done t => t.mem.wf
  | .group t => t.mem.wf

section
variable {s : State} (w : s.mem.wf)
include w

theorem trapAt_wf (r : Res Unit) : (trapAt s r).Wf := by
  unfold trapAt
  split
  · exact takeTrap_wf w _
  · trivial

theorem readyGroup_wf (a next : Word) (is : List (Nat × Instr)) (went : Option (Option Word)) : (readyGroup s a next is went).Wf := by
  grind [readyGroup, Prep.Wf, trapAt_wf, takeTrap_wf, State.upd_mem]

theorem fetchGroup_wf : (fetchGroup s).Wf := by
  have hline := enterLine_wf w
  grind [fetchGroup, Prep.Wf, Canonical, Stop.Wf, takeTrap_wf, readyGroup_wf]

theorem prepare_wf (key : Nat) : (prepare s key).Wf := by
  unfold prepare
  extract_lets g u
  have hu : u.mem.wf := w
  clear_value u
  split
  · trivial
  · split
    next t hp => exact (pendingTrap_wf hu hp :)
    · exact hu
    · grind [Prep.Wf, readyGroup_wf, fetchGroup_wf]

end

theorem followGroup_mem (s0 : State) (is : List (Nat × Instr)) (s : State) : (followGroup s0 is s).mem = s.mem := by
  grind [followGroup, forwardTo_mem, State.setCore_mem, detach_mem]

end Sys2Proof.Machine
end

section
/-! PROOFS. Scalar forms, accesses, accumulates, futures, tasks, queues and waits keep the canonical form of memory (R107 to R196). -/
namespace Sys2Proof.Machine

@[simp] theorem raisePts_mem (s : State) (n : Nat) : (raisePts s n).mem = s.mem := rfl

@[simp] theorem dropEmptyCopy_mem (s : State) (pa : Nat) : (dropEmptyCopy s pa).mem = s.mem := by
  grind [dropEmptyCopy, State.updCore_mem]

@[simp] theorem walkList_mem (stamp : Nat) (s : State) (cs : List Cont) : (walkList stamp s cs).1.mem = s.mem := by
  induction cs generalizing s with
  | nil => rfl
  | cons c rest ih => grind [walkList, enqueue_mem]

theorem countRemote_ite_mem (p : Prop) [Decidable p] (s : State) : (if p then countRemote s else s).mem = s.mem := by
  split <;> rfl

section
variable {s : State} (w : s.mem.wf)
include w

/-! ### Scalar forms (R109, R110) -/

theorem putArith_wf (t : Ty) (sat : Bool) (d : Opnd) (v : Int) : Canonical Stop.Wf id (putArith s t sat d v) :=
  (State.dst_wf w d _).bind fun _ h => h

theorem putPat_wf (t : Ty) (d : Opnd) (p : Nat) (fl : Num.Flg) : Canonical Stop.Wf id (putPat s t d p fl) :=
  (State.dst_wf w d _).bind fun _ h => h

theorem putInt_wf (t : Ty) (d : Opnd) (v : Int) (fl : Num.Flg) : Canonical Stop.Wf id (putInt s t d v fl) := putPat_wf w t d _ fl

theorem minMax_wf (t : Ty) (mx : Bool) (d a b : Opnd) : Canonical Stop.Wf id (minMax s t mx d a b) :=
  .ite (putInt_wf w t d _ 0) ((State.dst_wf w d _).bind fun _ h => h)

/-! ### Loads and stores (R127 to R129) -/

theorem loadMessage_wf {load : State → State × List Byte × Bool} (hl : ∀ t, t.mem.wf → (load t).1.mem.wf) (kind pa n : Nat) :
    Canonical Stop.Wf Prod.fst (loadMessage s kind pa n load) := by
  unfold loadMessage
  split
  · exact hl s w
  · split
    next he => exact (exchangeAt_wf w (fun t ht => by exact hl t ht) kind pa []).error he
    next he => exact (exchangeAt_wf w (fun t ht => by exact hl t ht) kind pa []).ok he

theorem loadForm_wf {load : State → Nat → Nat → State × List Byte × Bool} (hl : ∀ t pa n, t.mem.wf → (load t pa n).1.mem.wf) (i : Instr) (t : Ty)
    (d : Opnd) (m : Mem) (word : Bool) : Canonical Stop.Wf id (loadForm s i t d m load word) := by
  refine (grant_wf w i _ _ _ .read _).bind fun g hg => .ite (State.dst_wf ?_ d 0) ?_
  · rwa [countRemote_ite_mem]
  · refine (loadMessage_wf hg (fun t ht => hl t _ _ ht) _ _ _).bind fun ⟨u, bs, remote⟩ hu => ?_
    grind [Canonical, canonical_pure, State.dst_wf, answerPhase_mem, answerS_mem]

theorem loadBytes_wf (pa n : Nat) : (loadBytes s pa n).1.mem.wf := by rwa [loadBytes_mem]

theorem phaseFree_wf (i : Instr) (late : Bool) : Canonical Stop.Wf (fun _ => s) (phaseFree s i late) := .ite (canonical_raisePhase s i 1) w

theorem rowAddrs_wf (m : Mem) (str : Option (Fin 32)) (rows : Nat) : Canonical Stop.Wf (fun _ => s) (rowAddrs s m str rows) :=
  .ite (canonical_raise _ _ _) w

theorem rowsReady_wf (i : Instr) (m : Mode) (rows : List (Word × Nat)) : Canonical Stop.Wf (fun _ => s) (rowsReady i m s rows) := by
  induction rows with
  | nil => exact w
  | cons x rest ih => exact (grant_wf w i _ _ _ m _).bind fun g hg => .ite w ih

theorem checkRows_wf (i : Instr) (m : Mode) (eas : List Word) : Canonical Stop.Wf Prod.fst (checkRows i m s eas) := by
  induction eas generalizing s with
  | nil => exact w
  | cons ea rest ih =>
    exact (checkMode_wf w i ea 64 m).bind fun ⟨u, pa⟩ hu => .ite (canonical_raiseFrom hu ..) ((ih hu).bind fun ⟨v, ps⟩ h => h)

theorem overRows_wf {data : Nat → List Byte} {f : State → Nat → Nat → State × (Option Word × List Line)}
    (hf : ∀ t pa r, t.mem.wf → (f t pa r).1.mem.wf) (i : Instr) (m : Mode) (kind : Nat) (rows : List (Word × Nat)) (r : Nat) :
    Canonical Stop.Wf Prod.fst (overRows i m kind data f s rows r) := by
  induction rows generalizing s r with
  | nil => exact w
  | cons x rest ih =>
    unfold overRows
    split
    · refine (ih ?_ _).bind fun ⟨v, as⟩ h => h
      exact w
    · refine (grant_wf w i _ _ _ m _).bind fun g hg => ?_
      split
      · exact hg
      · refine (exchangeAt_wf hg (fun t ht => hf t _ _ ht) _ _ _).bind fun ⟨u, a⟩ hu => ?_
        exact (ih hu _).bind fun ⟨v, as⟩ h => h

theorem atomicForm_wf (i : Instr) (t : Ty) (d : Option (Fin 32)) (m : Mem) (data : List Byte) (new : Nat → Nat) :
    Canonical Stop.Wf id (atomicForm s i t d m data new) := by
  refine (grant_wf w i _ _ _ .rmw _).bind fun g hg => ?_
  grind [Canonical, canonical_pure, accessMessage_wf, rmwStep_wf, answerZero_mem, countRemote_mem, answerS_mem]

/-! ### Accumulates and exact cells (R136, R137) -/

theorem checkCell_wf (i : Instr) (ea : Word) (align : Nat) (m : Mode) (exact : Bool) :
    Canonical Stop.Wf Prod.fst (checkCell s i ea align m exact) :=
  (checkMode_wf w i ea align m).onTrap _

theorem accForm_wf (i : Instr) (t : Ty) (exact : Bool) (m : Mem) (n : Nat) (line : Nat → Nat) :
    Canonical Stop.Wf id (accForm s i t exact m n line) := by
  refine (checkCell_wf w i _ n .rmw exact).bind fun u hu => .ite (canonical_raiseFrom hu ..) (.ite (canonical_raiseFrom hu ..) ?_)
  exact accessMessage_wf hu (fun t ht => by rwa [issueAcc_mem]) (fun t _ ht => ht) _ _ _

/-! ### Futures (R134, R135) -/

theorem suspend_wf : (suspend s).mem.wf := endContext_wf w s.cur

theorem recordList_wf (v : Word) (fuel a : Nat) : Canonical Stop.Wf Prod.fst (recordList s v fuel a) := by
  induction fuel generalizing s a with
  | zero => exact w
  | succ fuel ih =>
    have hread : (homeRead s .ctx a).mem.wf := by rwa [homeRead_mem]
    grind [recordList, Canonical, canonical_consume]

theorem fillFuture_wf (pa : Nat) (v : Word) (list : List Cont) : (fillFuture s pa v list).mem.wf := by
  have hfill := rmwStep_wf w pa 16 (fun _ => Bits.bytesLE 16 (v.toNat + 2 ^ 64))
  grind [fillFuture, walkList_mem, State.upd_mem]

theorem awaitWalk_wf : Canonical Stop.Wf id (awaitWalk s) := by
  grind [awaitWalk, Canonical, canonical_stall, State.upd_mem]

/-! ### Task packets and join counters (R177, R188 to R190) -/

theorem loadLine_wf (pa : Nat) : Canonical Stop.Wf Prod.fst (loadLine s pa) := by
  grind [loadLine, Canonical, exchangeAt_wf, loadStep_mem]

theorem readLines_wf (i : Instr) (xs : List (Word × Nat)) : Canonical Stop.Wf Prod.fst (readLines i s xs) := by
  induction xs generalizing s with
  | nil => exact w
  | cons x rest ih =>
    refine (grant_wf w i _ _ _ .read _).bind fun g hg => .ite hg ?_
    exact (loadLine_wf hg _).bind fun u hu => (ih hu).bind fun _ h => h

theorem readWhole_wf (i : Instr) (ea : Word) : Canonical Stop.Wf Prod.fst (readWhole s i ea) := by
  refine (grant_wf w i _ _ _ .read _).bind fun g hg => .ite hg ?_
  refine (loadLine_wf hg _).bind fun ⟨u, first⟩ hu => ?_
  dsimp only
  split
  · exact canonical_stallOr hg i _
  · exact (readLines_wf hu i _).bind fun _ h => h

theorem joinPa_wf (h : Word) (pa : Nat) : Canonical Stop.Wf Prod.fst (joinPa s h pa) := .ite (checkEA_wf w _ 4 .write) w

theorem checkHandles_wf (hs : List Word) : Canonical Stop.Wf id (checkHandles s hs) := by
  induction hs generalizing s with
  | nil => exact w
  | cons h rest ih => exact (checkEA_wf w h 16 .write).bind fun u hu => (joinPa_wf hu h u.2).bind fun _ h => ih h

end

/-- Memory is canonical in the state that a decrement leaves. -/
def Dec.Wf : Dec → Prop
  | .made s _ _ => s.mem.wf
  | .cause s _ => s.mem.wf
  | .waits s => s.mem.wf

section
variable {s : State} (w : s.mem.wf)
include w

theorem decrement_wf (h : Word) (i : Nat) : (decrement s h i).Wf := by
  have hjoin : Canonical Stop.Wf (fun x : State × Nat × Nat => x.1) (do
      let (s, pa) ← checkEA s h 16 .write
      let (s, jpa) ← joinPa s h pa
      return (s, pa, jpa) : Res (State × Nat × Nat)) :=
    (checkEA_wf w h 16 .write).bind fun ⟨u, pa⟩ hu => (joinPa_wf hu h pa).bind fun ⟨v, jpa⟩ hv => hv
  unfold decrement
  split
  · trivial
  next he => exact hjoin.error he
  next he => exact hjoin.error he
  next u pa jpa he =>
    have hu : u.mem.wf := hjoin.ok he
    have hread : (homeRead (homeRead u .ctx pa) .ctx jpa).mem.wf := by rwa [homeRead_mem, homeRead_mem]
    extract_lets stop v
    have hstop : ∀ r, Canonical Stop.Wf (fun _ => u) r → (stop r).Wf := fun r hr => by
      grind [Canonical, Stop.Wf, Dec.Wf]
    change v.mem.wf at hread
    clear_value stop v
    split
    · exact hu
    · split
      · exact hu
      · split
        · exact hstop _ (canonical_stall hu _)
        · split
          · exact hu
          · split
            · exact hstop _ (canonical_consume hread pa)
            · split
              · exact hstop _ (canonical_consume hread jpa)
              · grind [Dec.Wf, canonical_stall, rmwStep_wf, homeStep_wf, enqueue_mem, exchangeAt_wf, Canonical, Stop.Wf]

theorem doneLoop_wf (hs : List Word) (i : Nat) : Canonical Stop.Wf id (doneLoop s hs i) := by
  induction hs generalizing s i with
  | nil => exact w
  | cons h rest ih =>
    have hdec := decrement_wf w h i
    grind [doneLoop, Dec.Wf, Canonical, Stop.Wf, State.upd_mem]

/-! ### Queues (R191) -/

theorem entryGrant_wf (i : Instr) (ea : Word) (m : Mode) (desc : Word) : Canonical Stop.Wf Grant.s (entryGrant s i ea m desc) :=
  (grant_wf w i ea 16 16 m false).onTrap _

theorem queueForm_wf (i : Instr) (desc : Word) (put : Option Word) (d : Fin 32) (lim : Nat) :
    Canonical Stop.Wf id (queueForm s i desc put d lim) := by
  refine (grant_wf w i desc 64 64 .rmw false).bind fun g hg => ?_
  have hentry := fun ea m => entryGrant_wf hg i ea m desc
  cases put with
  | some v =>
    refine .ite hg ?_
    dsimp only
    split
    · exact hg
    · refine .ite (canonical_stall hg _) ((hentry _ _).bind fun e he => ?_)
      grind [canonical_pure, accessMessage_done_wf, raisePts_mem, homeStep_wf, rmwStep_wf]
  | none =>
    refine .ite ((congrArg Memory.wf (countRemote_ite_mem _ g.s)).trans hg) ?_
    dsimp only
    split
    · exact hg
    · refine .ite (canonical_stall hg _) ((hentry _ _).bind fun e he => ?_)
      grind [Canonical, canonical_pure, accessMessage_wf, raisePts_mem, loadAtHome_mem, rmwStep_wf, answerS_mem, countRemote_mem, State.putS_mem]

theorem recordLines_wf (i : Instr) (ea : Word) (as : List Word) : Canonical Stop.Wf Prod.fst (recordLines i ea s as) := by
  induction as generalizing s with
  | nil => exact w
  | cons a rest ih =>
    refine ((checkMode_wf w i a 64 .read).onTrap _).bind fun u hu => ?_
    exact .ite (canonical_raiseFrom hu ..) (.ite (canonical_raiseFrom hu ..) ((ih hu).bind fun _ h => h))

end

end Sys2Proof.Machine
end

section
/-! PROOFS. The scalar forms, accesses, tasks, queues and waits keep the canonical form of memory (R107 to R196). -/
namespace Sys2Proof.Machine

theorem execNop_wf {s : State} (w : s.mem.wf) : NextWf (execNop s) := by grind [execNop, NextWf]

theorem execAdd_wf {s : State} (w : s.mem.wf) (g : Guard) (t : Ty) (sat : Bool) (d a b : Opnd) : NextWf (execAdd g t sat d a b s) :=
  guarded_nextWf w (putArith_wf w ..) _ g

theorem execSub_wf {s : State} (w : s.mem.wf) (g : Guard) (t : Ty) (sat : Bool) (d a b : Opnd) : NextWf (execSub g t sat d a b s) :=
  guarded_nextWf w (putArith_wf w ..) _ g

theorem execMul_wf {s : State} (w : s.mem.wf) (g : Guard) (t : Ty) (sat : Bool) (d a b : Opnd) : NextWf (execMul g t sat d a b s) :=
  guarded_nextWf w (putArith_wf w ..) _ g

theorem execMulh_wf {s : State} (w : s.mem.wf) (g : Guard) (t : Ty) (d a b : Opnd) : NextWf (execMulh g t d a b s) :=
  guarded_nextWf w (putInt_wf w ..) _ g

theorem execDiv_wf {s : State} (w : s.mem.wf) (g : Guard) (t : Ty) (d a b : Opnd) : NextWf (execDiv g t d a b s) :=
  guarded_nextWf w (by grind [putInt_wf]) _ g

theorem execRem_wf {s : State} (w : s.mem.wf) (g : Guard) (t : Ty) (d a b : Opnd) : NextWf (execRem g t d a b s) :=
  guarded_nextWf w (by grind [putInt_wf]) _ g

theorem execAnd_wf {s : State} (w : s.mem.wf) (g : Guard) (t : Ty) (d a b : Opnd) : NextWf (execAnd g t d a b s) :=
  guarded_nextWf w (putPat_wf w ..) _ g

theorem execOr_wf {s : State} (w : s.mem.wf) (g : Guard) (t : Ty) (d a b : Opnd) : NextWf (execOr g t d a b s) :=
  guarded_nextWf w (putPat_wf w ..) _ g

theorem execXor_wf {s : State} (w : s.mem.wf) (g : Guard) (t : Ty) (d a b : Opnd) : NextWf (execXor g t d a b s) :=
  guarded_nextWf w (putPat_wf w ..) _ g

theorem execAndn_wf {s : State} (w : s.mem.wf) (g : Guard) (t : Ty) (d a b : Opnd) : NextWf (execAndn g t d a b s) :=
  guarded_nextWf w (putPat_wf w ..) _ g

theorem execShl_wf {s : State} (w : s.mem.wf) (g : Guard) (t : Ty) (d a b : Opnd) : NextWf (execShl g t d a b s) :=
  guarded_nextWf w (putPat_wf w ..) _ g

theorem execShr_wf {s : State} (w : s.mem.wf) (g : Guard) (t : Ty) (d a b : Opnd) : NextWf (execShr g t d a b s) :=
  guarded_nextWf w (putPat_wf w ..) _ g

theorem execSha_wf {s : State} (w : s.mem.wf) (g : Guard) (t : Ty) (d a b : Opnd) : NextWf (execSha g t d a b s) :=
  guarded_nextWf w (putInt_wf w ..) _ g

theorem execRot_wf {s : State} (w : s.mem.wf) (g : Guard) (t : Ty) (d a b : Opnd) : NextWf (execRot g t d a b s) :=
  guarded_nextWf w (putPat_wf w ..) _ g

theorem execMin_wf {s : State} (w : s.mem.wf) (g : Guard) (t : Ty) (d a b : Opnd) : NextWf (execMin g t d a b s) :=
  guarded_nextWf w (minMax_wf w ..) _ g

theorem execMax_wf {s : State} (w : s.mem.wf) (g : Guard) (t : Ty) (d a b : Opnd) : NextWf (execMax g t d a b s) :=
  guarded_nextWf w (minMax_wf w ..) _ g

theorem execCmp_wf {s : State} (w : s.mem.wf) (g : Guard) (t : Ty) (cc : Cond) (d : Fin 8) (a b : Opnd) : NextWf (execCmp g t cc d a b s) :=
  guarded_nextWf w (by grind [Canonical, State.flag_mem, State.putP_mem]) _ g

theorem execSel_wf {s : State} (w : s.mem.wf) (g : Guard) (d a b : Opnd) (c : Fin 8) : NextWf (execSel g d a b c s) :=
  guarded_nextWf w (State.dst_wf w ..) _ g

theorem execClz_wf {s : State} (w : s.mem.wf) (g : Guard) (t : Ty) (d a : Opnd) : NextWf (execClz g t d a s) := guarded_nextWf w (putPat_wf w ..) _ g

theorem execCtz_wf {s : State} (w : s.mem.wf) (g : Guard) (t : Ty) (d a : Opnd) : NextWf (execCtz g t d a s) := guarded_nextWf w (putPat_wf w ..) _ g

theorem execPopc_wf {s : State} (w : s.mem.wf) (g : Guard) (t : Ty) (d a : Opnd) : NextWf (execPopc g t d a s) :=
  guarded_nextWf w (putPat_wf w ..) _ g

theorem execBrev_wf {s : State} (w : s.mem.wf) (g : Guard) (t : Ty) (d a : Opnd) : NextWf (execBrev g t d a s) :=
  guarded_nextWf w (putPat_wf w ..) _ g

theorem execExt_wf {s : State} (w : s.mem.wf) (g : Guard) (t : Ty) (d a : Opnd) (x : ExtField) : NextWf (execExt g t d a x s) :=
  guarded_nextWf w (putInt_wf w ..) _ g

theorem execIns_wf {s : State} (w : s.mem.wf) (g : Guard) (t : Ty) (d a b : Opnd) (pos len : BitVec 6) : NextWf (execIns g t d a b pos len s) :=
  guarded_nextWf w (putPat_wf w ..) _ g

theorem execAddi_wf {s : State} (w : s.mem.wf) (g : Guard) (t : Ty) (d a : Opnd) (imm : BitVec 44) : NextWf (execAddi g t d a imm s) :=
  guarded_nextWf w (putInt_wf w ..) _ g

theorem execMovi_wf {s : State} (w : s.mem.wf) (g : Guard) (t : Ty) (d : Opnd) (imm : BitVec 44) : NextWf (execMovi g t d imm s) :=
  guarded_nextWf w (putInt_wf w ..) _ g

theorem execMovh_wf {s : State} (w : s.mem.wf) (g : Guard) (d : Opnd) (a : Option (Fin 32)) (imm : BitVec 20) : NextWf (execMovh g d a imm s) :=
  guarded_nextWf w (State.dst_wf w ..) _ g

theorem execLea_wf {s : State} (w : s.mem.wf) (g : Guard) (d : Fin 32) (m : Mem) : NextWf (execLea g d m s) :=
  guarded_nextWf w (by grind [Canonical, State.putS_mem]) _ g

theorem execMov_wf {s : State} (w : s.mem.wf) (g : Guard) (d a : Opnd) : NextWf (execMov g d a s) := guarded_nextWf w (State.dst_wf w ..) _ g

theorem execPlog_wf {s : State} (w : s.mem.wf) (g : Guard) (fn : PlogFn) (d a : Fin 8) (b : Option (Fin 8)) : NextWf (execPlog g fn d a b s) :=
  guarded_nextWf w (by grind [Canonical, State.putP_mem]) _ g

theorem execChk_wf {s : State} (w : s.mem.wf) (g : Guard) (t : Ty) (a b c : Opnd) : NextWf (execChk g t a b c s) :=
  guarded_nextWf w (by grind [Canonical, canonical_raise]) _ g

theorem execBr_wf {s : State} (w : s.mem.wf) (g : Guard) (tg : Target) : NextWf (execBr g tg s) := guarded_nextWf w (branchTo_wf w ..) _ g

theorem execBrx_wf {s : State} (w : s.mem.wf) (g : Guard) (a : Fin 32) : NextWf (execBrx g a s) := guarded_nextWf w (branchTo_wf w ..) _ g

theorem execCall_wf {s : State} (w : s.mem.wf) (g : Guard) (tg : Target) : NextWf (execCall g tg s) :=
  guarded_nextWf w (by grind [Canonical.bind, canonical_pure, branchTo_wf, State.putS_mem]) _ g

theorem execCallx_wf {s : State} (w : s.mem.wf) (g : Guard) (a : Fin 32) : NextWf (execCallx g a s) :=
  guarded_nextWf w (by grind [Canonical.bind, canonical_pure, branchTo_wf, State.putS_mem]) _ g

theorem execRet_wf {s : State} (w : s.mem.wf) (g : Guard) : NextWf (execRet g s) := guarded_nextWf w (branchTo_wf w ..) _ g

theorem execLoop_wf {s : State} (w : s.mem.wf) (g : Guard) (a : Fin 32) (tg : Target) : NextWf (execLoop g a tg s) :=
  guarded_nextWf w (by grind [Canonical, Canonical.bind, canonical_pure, State.putS_mem, branchTo_wf]) _ g

theorem execYield_wf {s : State} (w : s.mem.wf) (g : Guard) : NextWf (execYield g s) := guarded_nextWf w (by grind [Canonical]) _ g

theorem execFollow_wf {s : State} (w : s.mem.wf) (g : Guard) (dir : Dir) (a : Opnd) : NextWf (execFollow g dir a s) :=
  guarded_nextWf w (by grind [Canonical, canonical_raiseOpen, State.upd_mem, State.updCore_mem]) _ g

theorem execDetach_wf {s : State} (w : s.mem.wf) (g : Guard) : NextWf (execDetach g s) := by
  refine guarded_nextWf w ((lookAhead_wf w _ _).bind fun t ht => ?_) _ g
  grind [Canonical, canonical_raiseFrom, canonical_pure, detach_mem]

theorem execLead_wf {s : State} (w : s.mem.wf) (g : Guard) (a : Opnd) : NextWf (execLead g a s) :=
  guarded_nextWf w (by grind [Canonical, canonical_raiseOpen, forwardTo_mem, State.upd_mem]) _ g

theorem execLd_wf {s : State} (w : s.mem.wf) (g : Guard) (t : Ty) (d : Opnd) (m : Mem) : NextWf (execLd g t d m s) :=
  guarded_nextWf w (by grind [loadForm_wf, loadBytes_mem]) _ g

theorem execSt_wf {s : State} (w : s.mem.wf) (g : Guard) (t : Ty) (d : Opnd) (m : Mem) : NextWf (execSt g t d m s) :=
  guarded_nextWf w (by grind [Canonical.bind, canonical_pure, accessMessage_done_wf, grant_wf, storeAt_wf]) _ g

theorem execLdv_wf {s : State} (w : s.mem.wf) (g : Guard) (d : Fin 32) (m : Mem) (str : Option (Fin 32)) : NextWf (execLdv g d m str s) := by
  refine guardedShape_nextWf w ?_ _ g
  refine Canonical.unit (s := s) (phaseFree_wf w _ _) ?_
  refine (rowAddrs_wf w m str _).bind fun eas _ => (checkRows_wf w _ .read eas).bind fun ⟨u, ps⟩ hu => ?_
  refine Canonical.unit (s := u) (rowsReady_wf hu _ .read _) ?_
  refine (overRows_wf hu (fun t pa _ ht => loadBytes_wf ht pa 64) _ .read 2 ps 0).bind fun ⟨v, rows⟩ hv => ?_
  grind [canonical_pure, countRemote_mem, State.updCore_mem, State.upd_mem]

theorem execStv_wf {s : State} (w : s.mem.wf) (g : Guard) (d : Fin 32) (m : Mem) (str : Option (Fin 32)) : NextWf (execStv g d m str s) := by
  refine guardedShape_nextWf w ?_ _ g
  refine Canonical.unit (s := s) (phaseFree_wf w _ _) ?_
  refine (rowAddrs_wf w m str _).bind fun eas _ => (checkRows_wf w _ .write eas).bind fun ⟨u, ps⟩ hu => ?_
  refine Canonical.unit (s := u) (rowsReady_wf hu _ .write _) ?_
  exact (overRows_wf hu (fun t pa _ ht => storeAt_wf ht pa _) _ .write 3 ps 0).bind fun ⟨v, rows⟩ hv => hv

theorem execLdl_wf {s : State} (w : s.mem.wf) (g : Guard) (t : Ty) (d : Fin 32) (m : Mem) : NextWf (execLdl g t d m s) :=
  guarded_nextWf w (by grind [loadForm_wf, loadAtHome_mem, discardLine_wf]) _ g

theorem execPref_wf {s : State} (w : s.mem.wf) (g : Guard) (slice : Bool) (m : Mem) : NextWf (execPref g slice m s) :=
  guarded_nextWf w (by grind [Canonical]) _ g

theorem execWbl_wf {s : State} (w : s.mem.wf) (g : Guard) (inv : Bool) (m : Mem) : NextWf (execWbl g inv m s) :=
  guarded_nextWf w (by grind [Canonical.bind, canonical_pure, checkEA_wf, writeBackLine_wf, State.updCore_mem]) _ g

theorem execDisc_wf {s : State} (w : s.mem.wf) (g : Guard) (clear : Bool) (c : Fin 32) (m : Mem) : NextWf (execDisc g clear c m s) :=
  guarded_nextWf w (by grind [Canonical, canonical_raise, State.updCore_mem]) _ g

theorem execXlat_wf {s : State} (w : s.mem.wf) (g : Guard) (kind : XlatKind) (d : Fin 32) (m : Mem) : NextWf (execXlat g kind d m s) :=
  guarded_nextWf w (by grind [Canonical, Stop.Wf, checkEA_wf, countRemote_mem, State.putS_mem]) _ g

theorem execAmo_wf {s : State} (w : s.mem.wf) (g : Guard) (t : Ty) (fn : AmoFn) (d : Option (Fin 32)) (c : Opnd) (m : Mem) :
    NextWf (execAmo g t fn d c m s) :=
  guarded_nextWf w (atomicForm_wf w ..) _ g

theorem execCas_wf {s : State} (w : s.mem.wf) (g : Guard) (t : Ty) (d : Fin 32) (c : Opnd) (m : Mem) : NextWf (execCas g t d c m s) :=
  guarded_nextWf w (atomicForm_wf w ..) _ g

theorem execAcc_wf {s : State} (w : s.mem.wf) (g : Guard) (t : Ty) (exact : Bool) (d : Fin 32) (m : Mem) : NextWf (execAcc g t exact d m s) :=
  guarded_nextWf w (accForm_wf w ..) _ g

theorem execAccv_wf {s : State} (w : s.mem.wf) (g : Guard) (t : Ty) (exact : Bool) (d : Fin 32) (m : Mem) : NextWf (execAccv g t exact d m s) :=
  guarded_nextWf w (accForm_wf w ..) _ g

theorem execRflush_wf {s : State} (w : s.mem.wf) (g : Guard) (r : Reach) : NextWf (execRflush g r s) :=
  guarded_nextWf w (by grind [Canonical, startFlush_mem]) _ g

theorem execRstat_wf {s : State} (w : s.mem.wf) (g : Guard) (d : Fin 32) : NextWf (execRstat g d s) :=
  guarded_nextWf w (by grind [Canonical, countRemote_mem, State.putS_mem]) _ g

theorem execXrd_wf {s : State} (w : s.mem.wf) (g : Guard) (d : Fin 32) (m : Mem) : NextWf (execXrd g d m s) := by
  refine guarded_nextWf w ((checkCell_wf w _ _ 16 .read true).bind fun ⟨u, pa⟩ hu => ?_) _ g
  refine .ite (canonical_raiseFrom hu ..) ((grant_wf w _ _ _ _ .read _).bind fun r hr => ?_)
  refine .ite (hr : ((countRemote r.s).putS d 0).mem.wf) ?_
  refine (loadMessage_wf hr (fun t ht => loadBytes_wf ht r.pa 16) 6 r.pa 16).bind fun ⟨v, bs, remote⟩ hv => ?_
  grind [canonical_pure, answerS_mem]

theorem execXclr_wf {s : State} (w : s.mem.wf) (g : Guard) (c : Opnd) (m : Mem) : NextWf (execXclr g c m s) := by
  refine guarded_nextWf w ((checkCell_wf w _ _ 16 .rmw true).bind fun ⟨u, pa⟩ hu => ?_) _ g
  refine .ite (canonical_raiseFrom hu ..) ((grant_wf w _ _ _ _ .rmw _).bind fun r hr => .ite hr ?_)
  grind [accessMessage_done_wf, rmwStep_wf]

theorem execFld_wf {s : State} (w : s.mem.wf) (g : Guard) (d : Fin 32) (c : Option (Fin 32)) (m : Mem) : NextWf (execFld g d c m s) := by
  refine guarded_nextWf w ((checkMode_wf w _ _ 16 _).bind fun ⟨u, _⟩ hu => ?_) _ g
  refine Canonical.bind (f := Prod.fst) ?_ fun ⟨v, rec?⟩ hv => (grant_wf hv _ _ _ _ _ _).bind fun r hr => ?_
  · cases c with
    | none => exact hu
    | some r => exact (checkMode_wf hu _ _ 32 .write).bind fun ⟨v, pa⟩ hv => .ite (canonical_raiseFrom hv ..) hv
  · refine .ite ((congrArg Memory.wf (countRemote_ite_mem _ r.s)).trans hr) (.ite ?_ ?_)
    · refine (loadMessage_wf hr (fun t ht => loadBytes_wf (by rwa [dropEmptyCopy_mem]) _ _) 8 r.pa 16).bind fun ⟨t, bs, remote⟩ ht => ?_
      grind [canonical_pure, answerS_mem, countRemote_mem, State.putS_mem]
    · cases rec? with
      | none => exact canonical_raiseFrom hr ..
      | some x =>
        have hstore := fun (t : State) (ht : t.mem.wf) => storeStep_wf ht x.2
        grind [canonical_pure, canonical_stallOr, canonical_consume, refuse_mem, countRemote_mem, State.putS_mem, accessMessage_wf, rmwStep_wf,
          suspend_wf]

theorem execFst_wf {s : State} (w : s.mem.wf) (g : Guard) (d : Fin 32) (m : Mem) : NextWf (execFst g d m s) := by
  refine guarded_nextWf w (.ite (awaitWalk_wf w) ((grant_wf w _ _ _ _ .rmw _).bind fun r hr => ?_)) _ g
  refine .ite hr (.ite (canonical_raiseFrom hr ..) ?_)
  refine (recordList_wf hr _ _ _).bind fun ⟨u, list⟩ hu => ?_
  exact (accessMessage_done_wf hu (fun t ht => fillFuture_wf ht _ _ _) _ _ _).bind fun t ht => awaitWalk_wf ht

theorem execFrst_wf {s : State} (w : s.mem.wf) (g : Guard) (m : Mem) : NextWf (execFrst g m s) := by
  refine guarded_nextWf w ((grant_wf w _ _ _ _ .rmw _).bind fun r hr => ?_) _ g
  refine .ite hr (.ite (canonical_raiseFrom hr ..) ?_)
  exact accessMessage_done_wf hr (fun t ht => rmwStep_wf ht _ _ _) _ _ _

theorem execBar_wf {s : State} (w : s.mem.wf) (g : Guard) (scope : Fin 8) : NextWf (execBar g scope s) :=
  guarded_nextWf w (by grind [Canonical, canonical_raiseOpen, startFlush_mem]) _ g

theorem execSstep_wf {s : State} (w : s.mem.wf) (g : Guard) : NextWf (execSstep g s) := guarded_nextWf w (by grind [Canonical, startFlush_mem]) _ g

theorem execSpawn_wf {s : State} (w : s.mem.wf) (g : Guard) (m : Mem) : NextWf (execSpawn g m s) := by
  refine guarded_nextWf w ((readWhole_wf w _ _).bind fun ⟨u, bs, refused⟩ hu => ?_) _ g
  grind [Canonical, canonical_pure, canonical_raiseFrom, asMessage_done_wf, enqueue_mem]

theorem execDone_wf {s : State} (w : s.mem.wf) (g : Guard) : NextWf (execDone g s) :=
  guarded_nextWf w (by grind [Canonical, Canonical.bind, canonical_pure, endContext_wf, checkHandles_wf, doneLoop_wf]) _ g

theorem execJoin_wf {s : State} (w : s.mem.wf) (g : Guard) (d : Option (Fin 32)) (m : Mem) : NextWf (execJoin g d m s) := by
  have hdec := decrement_wf w (s.ea m) 0
  exact guarded_nextWf w (by grind [Dec.Wf, Canonical, Stop.Wf, answerS_mem]) _ g

theorem execQput_wf {s : State} (w : s.mem.wf) (g : Guard) (a : Fin 32) (b : Opnd) (lim : BitVec 24) : NextWf (execQput g a b lim s) :=
  guarded_nextWf w (queueForm_wf w ..) _ g

theorem execQget_wf {s : State} (w : s.mem.wf) (g : Guard) (d a : Fin 32) (lim : BitVec 24) : NextWf (execQget g d a lim s) :=
  guarded_nextWf w (queueForm_wf w ..) _ g

theorem execWaite_wf {s : State} (w : s.mem.wf) (g : Guard) (t : Ty) (cc : Cond) (d : Option (Fin 32)) (a : Fin 32) (b : Opnd) (lim :
    BitVec 24) : NextWf (execWaite g t cc d a b lim s) :=
  guarded_nextWf w (by grind [Canonical.bind, canonical_pure, canonical_stall, grant_wf, answerZero_mem, countRemote_mem, loadStep_mem,
    accessMessage_wf, loadAtHome_mem, answerS_mem]) _ g

theorem execFence_wf {s : State} (w : s.mem.wf) (g : Guard) (r : Reach) : NextWf (execFence g r s) :=
  guarded_nextWf w (by grind [Canonical, tryFlush_mem, State.upd_mem]) _ g

theorem execLaunch_wf {s : State} (w : s.mem.wf) (g : Guard) (d : Fin 32) (c : Option (Fin 32)) (m : Mem) : NextWf (execLaunch g d c m s) := by
  refine guarded_nextWf w (.ite (canonical_raiseOpen s _) ((recordLines_wf w _ _ _).bind fun ⟨u, lines⟩ hu => ?_)) _ g
  refine Canonical.bind (f := Prod.fst) ?_ fun ⟨v, word⟩ hv => ?_
  · cases c with
    | none => exact hu
    | some r => exact (checkMode_wf hu _ _ 8 .write).bind fun ⟨v, pa⟩ hv => .ite (canonical_raiseFrom hv ..) hv
  · exact asMessage_wf hv (fun t ht => by exact ht) (fun t a ht => by exact ht) _ _ _

theorem execGtime_wf {s : State} (w : s.mem.wf) (g : Guard) (d : Fin 32) : NextWf (execGtime g d s) :=
  guarded_nextWf w (by grind [Canonical, State.putS_mem]) _ g

end Sys2Proof.Machine
end

section
/-! PROOFS. The dispatch ring, the vector forms and tile accesses keep the canonical form of memory (R198 to R225, R242, R299). -/
namespace Sys2Proof.Machine

theorem ringSlot_wf {s : State} (w : s.mem.wf) (i : Instr) : Canonical Stop.Wf (fun _ => s) (ringSlot s i) := by
  grind [ringSlot, Canonical, canonical_stallOr, canonical_raise]

@[simp] theorem enterRing_mem (s : State) (q : Nat) (e : RingEntry) : (enterRing s q e).mem = s.mem := rfl

theorem dispatchNow_wf {s : State} (w : s.mem.wf) (i : Instr) : Canonical Stop.Wf id (dispatchNow s i) := by
  grind [dispatchNow, Canonical, ringSlot_wf, enterRing_mem]

theorem seqFree_wf {s : State} (w : s.mem.wf) (i : Instr) : Canonical Stop.Wf (fun _ => s) (seqFree s i) :=
  .ite (canonical_stallOr w i _) w

theorem recordEntry_wf {s : State} (w : s.mem.wf) (k q : Nat) : (recordEntry s k q).mem.wf :=
  by simp [recordEntry, w, recordFault_wf, State.setCore_mem]

theorem faultEntry_wf {s : State} (w : s.mem.wf) (key q pass cause : Nat) (a b : Word) : (faultEntry s key q pass cause a b).mem.wf :=
  by grind [faultEntry, refill_mem, State.setCore_mem, passClaim_mem, recordEntry_wf]

theorem elemFault_wf {s : State} (w : s.mem.wf) (cause : Nat) (ea : Word) (k : Nat) : (elemFault s cause ea k).Wf := by grind [elemFault, Perf.Wf]

theorem checkElems_wf {s : State} (w : s.mem.wf) (m : Mode) (n : Nat) (eas : List Word) (k : Nat) :
    Canonical Perf.Wf Prod.fst (checkElems m n s eas k) := by
  induction eas generalizing s k with
  | nil => exact w
  | cons ea rest ih =>
    have hcheck := checkEA_wf w ea n (if m = .write then .write else .read)
    grind [checkElems, Canonical, Stop.Wf, Perf.Wf, elemFault_wf]

theorem eachElem_wf {s : State} (w : s.mem.wf) (kind : Nat) (m : Mode) (data : Nat → List Byte)
    {f : State → Nat → Nat → State × (Option Word × List Line)} (hf : ∀ t pa k, t.mem.wf → (f t pa k).1.mem.wf) (pas : List Nat) (k : Nat) :
    Canonical Stop.Wf Prod.fst (eachElem kind m data f s pas k) := by
  induction pas generalizing s k with
  | nil => exact w
  | cons pa rest ih =>
    unfold eachElem
    refine .ite w ?_
    extract_lets u
    have hu : u.mem.wf := by grind [homeRead_mem]
    clear_value u
    refine .ite (canonical_consume hu pa) ?_
    have hmsg := exchangeAt_wf hu (fun t ht => hf t pa k ht) kind pa (data k)
    grind [Canonical]

theorem gather_wf {s : State} (w : s.mem.wf) (c : Vec.Cap) (t : Ty) (sh : Fin 16) (d b : Fin 32) (load : Bool) : (gather s c t sh d b load).Wf := by
  unfold gather
  extract_lets n m v eas mode data
  have hcheck := checkElems_wf w mode (n / 8) eas 0
  clear_value eas data
  split
  next he => exact hcheck.error he
  next u pas he =>
    have hu : u.mem.wf := hcheck.ok he
    split
    · exact hu
    · split
      next he => exact (eachElem_wf hu _ _ _ (fun t pa k ht => by grind [loadBytes_mem, storeAt_wf]) _ _).error he
      next v as refused he =>
        have hv : v.mem.wf := (eachElem_wf hu _ _ _ (fun t pa k ht => by grind [loadBytes_mem, storeAt_wf]) _ _).ok he
        grind [Perf.Wf, State.upd_mem, elemFault_wf]

theorem performVec_wf {s : State} (w : s.mem.wf) (i : Instr) (e : RingEntry) (shift : Nat) : (performVec s i e shift).Wf := by
  unfold performVec
  split
  · exact gather_wf w _ _ _ _ _ _
  · exact gather_wf w _ _ _ _ _ _
  · exact w

theorem enterPerformed_wf {p : Perf} (h : p.Wf) (i : Instr) (q : Nat) (e : RingEntry) : Canonical Stop.Wf id (enterPerformed i q e p) := by
  cases p with
  | ok s res fl => grind [enterPerformed, Canonical, Perf.Wf, enterRing_mem, State.updCore_mem, State.upd_mem]
  | fault s cause a b => grind [enterPerformed, Canonical, Perf.Wf, enterRing_mem, faultEntry_wf]
  | stop x => exact h

@[simp] theorem captureForm_mem (s : State) (i : Instr) (cap : Capture) (q : Nat) (e : RingEntry) : (captureForm s i cap q e).mem = s.mem :=
  by grind [captureForm, State.upd_mem, State.updCore_mem, enterRing_mem]

theorem dispatchVec_wf {s : State} (w : s.mem.wf) (i : Instr) : Canonical Stop.Wf id (dispatchVec s i) := by
  refine (ringSlot_wf w i).bind fun q _ => (seqFree_wf w i).bind fun _ _ => ?_
  grind [Canonical, canonical_pure, captureForm_mem, enterPerformed_wf, performVec_wf]

theorem vecForm_nextWf {s : State} (w : s.mem.wf) (i : Instr) (g : Guard) : NextWf (vecForm s i g) :=
  guardedShape_nextWf w (dispatchVec_wf w i) i g

theorem execVshape_wf {s : State} (w : s.mem.wf) (g : Guard) (src : VshSrc) : NextWf (execVshape g src s) := by
  refine guarded_nextWf w (.ite (canonical_raise _ _ _) ?_) _ g
  exact (seqFree_wf w _).bind fun _ _ => (dispatchNow_wf w _).bind fun u hu => hu

theorem execVrep_wf {s : State} (w : s.mem.wf) (g : Guard) (count : BitVec 8) (span : BitVec 4) (stride : BitVec 3) :
    NextWf (execVrep g count span stride s) := by
  refine guarded_nextWf w ?_ _ g
  exact (seqFree_wf w _).bind fun _ _ => (dispatchNow_wf w _).bind fun u hu => hu

@[simp] theorem freeForms_mem (s : State) (key : Nat) (done qs : List Nat) : (freeForms s key done qs).mem = s.mem :=
  by grind [freeForms, completeEntry_mem, refill_mem, State.setCore_mem, mem_foldl]

theorem faultPass_wf {s : State} (w : s.mem.wf) (cap : Capture) (p q cause : Nat) (a b : Word) : (faultPass s cap p q cause a b).mem.wf :=
  by simp [faultPass, w, freeForms_mem, faultEntry_wf]

theorem runPasses_wf {s : State} (w : s.mem.wf) (cap : Capture) (xs : List (Nat × Nat × Nat)) :
    Canonical (fun t => t.mem.wf) id (runPasses cap s xs) := by
  induction xs generalizing s with
  | nil => exact w
  | cons x rest ih =>
    have hpass := performVec_wf w (ringInstr (s.core.entry x.2.1)) (s.core.entry x.2.1) x.2.2
    grind [runPasses, Canonical, Perf.Wf, Stop.Wf, faultPass_wf, State.updCore_mem]

theorem execVrepPass_wf {s : State} (w : s.mem.wf) (k : Nat) (c : Fin 4) : NextWf (execVrepPass k c s) := by
  have hrun := fun cap => runPasses_wf (s := { s with cur := 4 * k + c.val, grp := Group.idle }) w cap (passList cap)
  grind [execVrepPass, NextWf, Canonical, State.upd_mem, State.updCore_mem]

theorem execWideUnitStart_wf {s : State} (w : s.mem.wf) : NextWf (execWideUnitStart s) :=
  by grind [execWideUnitStart, NextWf, State.setCore_mem, State.setQuad_mem]

theorem execDispatchedComplete_wf {s : State} (w : s.mem.wf) (k tseq : Nat) : NextWf (execDispatchedComplete k tseq s) :=
  by grind [execDispatchedComplete, NextWf, passClaim_mem, completeEntry_mem]

theorem execVsfQueueExit_wf {s : State} (w : s.mem.wf) : NextWf (execVsfQueueExit s) :=
  by grind [execVsfQueueExit, NextWf, completeEntry_mem, State.setQuad_mem]

theorem pieceFault_wf {s : State} (w : s.mem.wf) (cause under : Nat) (ea : Word) : (pieceFault s cause under ea).Wf := by grind [pieceFault, Perf.Wf]

theorem checkPieces_wf {s : State} (w : s.mem.wf) (cause : Nat) (m : Mode) (align : Nat) (xs : List (Word × Nat)) :
    Canonical Perf.Wf Prod.fst (checkPieces cause m align s xs) := by
  induction xs generalizing s with
  | nil => exact w
  | cons x rest ih =>
    have hcheck := checkEA_wf w x.1 align (if m = .write then .write else .read)
    grind [checkPieces, Canonical, Stop.Wf, Perf.Wf, pieceFault_wf]

theorem piecesReady_wf {s : State} (w : s.mem.wf) (m : Mode) (ps : List Piece) : Canonical Stop.Wf id (piecesReady m s ps) := by
  induction ps generalizing s with
  | nil => exact w
  | cons p rest ih => grind [piecesReady, Canonical, canonical_stall, canonical_consume, homeRead_mem]

theorem pieceOnce_wf {s : State} (w : s.mem.wf) (cause : Nat) (p : Piece) (rd wr : Bool) {act : State → State × List Byte}
    (ha : ∀ t, t.mem.wf → (act t).1.mem.wf) : Canonical Perf.Wf Prod.fst (pieceOnce s cause p rd wr act) := by
  have hact := ha (spend s) w
  grind [pieceOnce, Canonical, Perf.Wf, EngStop.Wf, Stop.Wf, goOver_mem, pieceFault_wf, noteSeen_mem, State.upd_mem]

theorem readPieces_wf {s : State} (w : s.mem.wf) (cause : Nat) (ps : List Piece) (acc : List Byte) :
    Canonical Perf.Wf Prod.fst (readPieces cause s ps acc) := by
  induction ps generalizing s acc with
  | nil => exact w
  | cons p rest ih =>
    unfold readPieces
    have honce := pieceOnce_wf w cause p true false
      (act := fun t => ((loadBytes t p.pa (p.len + p.gap + p.more)).1, (loadBytes t p.pa (p.len + p.gap + p.more)).2.1))
      (fun t ht => loadBytes_wf ht _ _)
    split
    next he => exact honce.error he
    next he => exact ih (honce.ok he) _

theorem storePiece_wf {s : State} (w : s.mem.wf) (p : Piece) (bs : List Byte) : (storePiece s p bs).mem.wf :=
  by grind [storePiece, storeAt_wf, State.updGang_mem, putBytes_wf]

theorem writePieces_wf {s : State} (w : s.mem.wf) (cause : Nat) (ps : List Piece) (bs : List Byte) :
    Canonical Perf.Wf id (writePieces cause s ps bs) := by
  induction ps generalizing s bs with
  | nil => exact w
  | cons p rest ih =>
    unfold writePieces
    have honce := pieceOnce_wf w cause p false true (act := fun t => (storePiece t p bs, [])) (fun t ht => storePiece_wf ht p bs)
    split
    next he => exact honce.error he
    next he => exact ih (honce.ok he) _

end Sys2Proof.Machine
end

section
/-! PROOFS. Chains and the copy-class commands keep the canonical form of memory (R156, R284 to R288, R292). -/
namespace Sys2Proof.Machine

@[simp] theorem State.setChain_mem (s : State) (k : Nat) (ch : Fin 8) (x : Chain) : (State.setChain s k ch x).mem = s.mem := rfl

theorem engOnce_wf {s : State} (w : s.mem.wf) {act : State → Eng (State × List Byte)} (h : Canonical EngStop.Wf Prod.fst (act s)) :
    Canonical EngStop.Wf Prod.fst (engOnce s act) := by
  grind [engOnce, Canonical, EngStop.Wf, goOver_mem, noteSeen_mem]

theorem engAlone_wf {s : State} (w : s.mem.wf) {α : Type} {act : State → Eng (State × α)}
    (h : ∀ t, t.mem.wf → Canonical EngStop.Wf Prod.fst (act t)) : Canonical EngStop.Wf Prod.fst (engAlone s act) := by
  have hact := h { s with steps := none, script := none } w
  unfold engAlone
  cases he : act { s with steps := none, script := none } with
  | ok a => exact (hact.ok he :)
  | error e => exact (hact.error he :)

theorem engDo_wf {s : State} (w : s.mem.wf) {f : State → State} (h : (f s).mem.wf) : Canonical EngStop.Wf id (engDo s f) :=
  (engOnce_wf w (act := fun s => .ok (f s, [])) h).map fun _ hu => hu

theorem loadOf_wf {s : State} (w : s.mem.wf) (k : Nat) (ch : Fin 8) (va : Word) (pa n : Nat) :
    Canonical EngStop.Wf Prod.fst (loadOf s k ch va pa n) :=
  by grind [loadOf, Canonical, EngStop.Wf, homeRead_mem, spend_mem, loadHome_mem, State.setChain_mem]

theorem engWalk_wf {s : State} (w : s.mem.wf) (k : Nat) (ch : Fin 8) (va : Word) : Canonical EngStop.Wf Prod.fst (engWalk s k ch va) := by
  refine .ite (.walkBy (fun t a ht => (loadOf_wf ht k ch va a 8).map fun _ hu => hu) _ ?_ _ _ _) w
  rwa [countWalk_mem]

theorem engCheck_wf {s : State} (w : s.mem.wf) (k : Nat) (ch : Fin 8) (va : Word) (n align : Nat) (kind : Kind) :
    Canonical EngStop.Wf Prod.fst (engCheck s k ch va n align kind) := by
  grind [engCheck, Canonical, EngStop.Wf, fillTlb_mem, engWalk_wf]

theorem engAddr_wf {s : State} (w : s.mem.wf) (k : Nat) (ch : Fin 8) (va : Word) (n align : Nat) (kind : Kind) :
    Canonical EngStop.Wf Prod.fst (engAddr s k ch va n align kind) :=
  Canonical.map (f := Prod.fst) (engOnce_wf w ((engCheck_wf w k ch va n align kind).map fun _ hu => hu)) fun _ hu => hu

theorem engLoad_wf {s : State} (w : s.mem.wf) (k : Nat) (ch : Fin 8) (va : Word) (pa n : Nat) :
    Canonical EngStop.Wf Prod.fst (engLoad s k ch va pa n) :=
  engOnce_wf w (loadOf_wf w k ch va pa n)

theorem homeStoreOf_wf {s : State} (w : s.mem.wf) (k : Nat) (ch : Fin 8) (pa : Nat) (writes : List (Nat × List Byte)) :
    (homeStoreOf s k ch pa writes).mem.wf :=
  by grind [homeStoreOf, State.setLine_mem, storeHome_mem, State.setChain_mem, putBytes_wf, wf_foldl]

theorem storeOf_wf {s : State} (w : s.mem.wf) (k : Nat) (ch : Fin 8) (pa : Nat) (writes : List (Nat × List Byte)) :
    (storeOf s k ch pa writes).mem.wf :=
  by grind [storeOf, State.setGang_mem, homeStoreOf_wf]

theorem engStore_wf {s : State} (w : s.mem.wf) (k : Nat) (ch : Fin 8) (pa : Nat) (writes : List (Nat × List Byte)) :
    Canonical EngStop.Wf id (engStore s k ch pa writes) :=
  engDo_wf w (storeOf_wf (s := spend s) w k ch pa writes)

theorem engUpdate_wf {s : State} (w : s.mem.wf) (k : Nat) (ch : Fin 8) (va : Word) (pa : Nat) (f : List Byte → List (Nat × List Byte)) (n : Nat) :
    Canonical EngStop.Wf id (engUpdate s k ch va pa f n) := by
  have hread : (homeRead (spend s) (readerOf ch) pa).mem.wf := by rwa [homeRead_mem]
  refine Canonical.map (f := Prod.fst) (engOnce_wf w ?_) fun _ hu => hu
  exact .ite hread (homeStoreOf_wf hread k ch pa _)

theorem engReads_wf {s : State} (w : s.mem.wf) (k : Nat) (ch : Fin 8) (align : Nat) (xs : List (Word × Nat)) (acc : List Byte) :
    Canonical EngStop.Wf Prod.fst (engReads k ch align s xs acc) := by
  induction xs generalizing s acc with
  | nil => exact w
  | cons x rest ih => exact (engAddr_wf w k ch _ _ _ _).bind fun u hu => (engLoad_wf hu k ch _ _ _).bind fun v hv => ih hv _

theorem engReadsTo_wf {s : State} (w : s.mem.wf) (k : Nat) (ch : Fin 8) (xs : List (Word × Nat)) (acc : List Byte) :
    (engReadsTo k ch s xs acc).1.mem.wf ∧ ∀ e ∈ (engReadsTo k ch s xs acc).2.2, e.Wf := by
  induction xs generalizing s acc with
  | nil => simp [engReadsTo, w]
  | cons x rest ih =>
    have hread := engReads_wf w k ch 1 [x] []
    grind [engReadsTo, Canonical, EngStop.Wf]

theorem engWrites_wf {s : State} (w : s.mem.wf) (k : Nat) (ch : Fin 8) (align : Nat) (xs : List (Word × Nat)) (bs : List Byte) :
    Canonical EngStop.Wf id (engWrites k ch align s xs bs) := by
  induction xs generalizing s bs with
  | nil => exact w
  | cons x rest ih => grind [engWrites, Canonical, engAddr_wf, engStore_wf]

theorem engRead_wf {s : State} (w : s.mem.wf) (k : Nat) (ch : Fin 8) (va : Word) (n align : Nat) :
    Canonical EngStop.Wf Prod.fst (engRead s k ch va n align) :=
  .ite w (engReads_wf w k ch 1 _ _)

theorem engWrite_wf {s : State} (w : s.mem.wf) (k : Nat) (ch : Fin 8) (va : Word) (bs : List Byte) :
    Canonical EngStop.Wf id (engWrite s k ch va bs) :=
  engWrites_wf w k ch 1 _ _

theorem engMove_wf {s : State} (w : s.mem.wf) (k : Nat) (ch : Fin 8) (src dst : List (Word × Nat)) :
    Canonical EngStop.Wf id (engMove s k ch src dst) := by
  obtain ⟨hread, hstop⟩ := engReadsTo_wf w k ch src []
  grind [engMove, Canonical, EngStop.Wf, engWrites_wf]

@[simp] theorem postError_mem (s : State) (k : Nat) (ch : Fin 8) (r : Running) (cause under : Nat) : (postError s k ch r cause under).mem = s.mem :=
  by grind [postError, State.setChain_mem, State.setCtx_mem]

@[simp] theorem wakeChain_mem (s : State) (k : Nat) (ch : Fin 8) (seq : Nat) : (wakeChain s k ch seq).mem = s.mem :=
  by grind [wakeChain, State.setCore_mem, State.setCtx_mem, mem_foldl]

theorem completeCmd_wf {s : State} (w : s.mem.wf) (k : Nat) (ch : Fin 8) (r : Running) (st cause under : Nat) (results : List (Nat × List Byte)) :
    (completeCmd s k ch r st cause under results).mem.wf := by
  unfold completeCmd
  extract_lets u
  have hu : u.mem.wf := by
    have hcheck := fun a => engCheck_wf w k ch a 1 1 .write
    grind [Canonical, EngStop.Wf, storeOf_wf]
  clear_value u
  grind [wakeChain_mem, postError_mem, State.setChain_mem]

theorem engEnd_wf {s : State} (w : s.mem.wf) (k : Nat) (ch : Fin 8) (r : Running) (st cause : Nat) (results : List (Nat × List Byte)) :
    Canonical EngStop.Wf id (engEnd s k ch r st cause results) :=
  .ite w (completeCmd_wf w k ch r st cause 0 results)

theorem engStep_wf {s : State} (w : s.mem.wf) (key : Nat) {body : State → Eng State} {fail : EngStop → State}
    (hb : ∀ t, t.mem.wf → Canonical EngStop.Wf id (body t)) (hf : ∀ e, e.Wf → (fail e).mem.wf) : (engStep s key body fail).mem.wf := by
  have hbody := hb (openScript s key) w
  grind [engStep, Canonical, EngStop.Wf, closeScript_mem]

theorem stopCmd_wf {e : EngStop} (h : e.Wf) (k : Nat) (ch : Fin 8) (r : Running) (lines nans : Nat) : (stopCmd e k ch r lines nans).mem.wf :=
  completeCmd_wf h k ch r 4 _ _ _

theorem execCommandBegin_wf {s : State} (w : s.mem.wf) (k : Nat) (ch : Fin 8) : NextWf (execCommandBegin k ch s) := by
  unfold execCommandBegin
  dsimp only
  split
  · exact w
  · split
    · exact w
    · split
      · exact w
      · exact w
      · refine engStep_wf (s := State.setChain _ _ _ _) w _ (fun t ht => ?_) fun e he => stopCmd_wf he _ _ _ _ _
        refine (engRead_wf ht k ch _ _ _).bind fun ⟨u, bs⟩ hu => ?_
        have haddr := fun a => engAddr_wf hu k ch a 1 1 .write
        dsimp only
        split
        next he =>
          exact (engStore_wf ((haddr _).ok he) k ch _ _).bind fun v hv => .ite (canonical_pure hv) (engEnd_wf hv k ch _ _ _ _)
        next he =>
          have hv := (haddr _).error he
          exact .ite hv (.ite (canonical_pure hv) (engEnd_wf hv k ch _ _ _ _))

theorem execChainFenceRelease_wf {s : State} (w : s.mem.wf) (k : Nat) (ch : Fin 8) : NextWf (execChainFenceRelease k ch s) :=
  by grind [execChainFenceRelease, NextWf, State.setChain_mem, wf_foldl]

theorem copytBytes_wf {s : State} (w : s.mem.wf) (b : List Word) : Canonical Stop.Wf Prod.fst (copytBytes s b) := by
  grind [copytBytes, Canonical, walkStep_wf, homeRead_mem, fillTlb_mem, canonical_consume, exchangeAt_wf, loadAtHome_mem]

@[simp] theorem appendItem_mem (s : State) (k : Nat) (ch : Fin 8) (item : ChainItem) : (appendItem s k ch item).mem = s.mem := rfl

theorem linkBefore_wf {s : State} (w : s.mem.wf) (i : Instr) (c : Chain) : Canonical Stop.Wf Prod.fst (linkBefore s i c) := by
  unfold linkBefore
  split
  next t _ _ _ _ =>
    have hwalk := walkStep_wf w s.cur t.toNat
    split
    next he => exact hwalk.error he
    next u found he =>
      have hu : u.mem.wf := hwalk.ok he
      grind [Canonical, fillTlb_mem, canonical_stallOr, canonical_consume]
  · exact w

theorem chainOf_wf {s : State} (w : s.mem.wf) (o : Opnd) : Canonical Stop.Wf (fun _ => s) (chainOf s o) := by
  grind [chainOf, Canonical, canonical_raise]

theorem execCapp_wf {s : State} (w : s.mem.wf) (g : Guard) (d : Option (Fin 32)) (a : Fin 32) (b : Opnd) (nsb : Bool) :
    NextWf (execCapp g d a b nsb s) := by
  refine guarded_nextWf w ((chainOf_wf w b).bind fun ch _ => ?_) _ g
  refine ((grantAs_wf w _ _ _ _ _ _ _).onTrap _).bind fun r hr => .ite ?_ ?_
  · exact canonical_pure (by rwa [id, answerZero_mem])
  · extract_lets body state ranged append
    have happend : ∀ x, x.1.mem.wf → Canonical Stop.Wf id (append x) := fun ⟨u, n⟩ hu => by
      refine (linkBefore_wf hu _ _).bind fun ⟨v, link⟩ hv => (dispatchNow_wf hv _).bind fun _ _ => ?_
      refine (asMessage_wf hv (fun t ht => ?_) (fun t a ht => ?_) _ _ _).bind fun x hx => dispatchNow_wf hx _
      · extract_lets k c st y z e last
        have hy : y.mem.wf := storePiece_wf ht ..
        have hz : z.mem.wf := by
          cases link with
          | none => exact hy
          | some a => exact storeAt_wf hy ..
        have he : e.mem.wf := by rwa [appendItem_mem]
        clear_value e
        simp only [last]
        split <;> exact he
      · grind [State.putS_mem]
    clear_value append body
    refine .ite (canonical_raiseOpenFrom hr _) (.ite (canonical_stall hr _) ?_)
    split
    · exact (copytBytes_wf hr _).bind happend
    · exact happend _ hr

@[simp] theorem seeChain_mem (s : State) (c : Chain) : (seeChain s c).mem = s.mem := rfl

theorem execCwait_wf {s : State} (w : s.mem.wf) (g : Guard) (a b : Opnd) (lim : BitVec 24) : NextWf (execCwait g a b lim s) := by
  refine guarded_nextWf w ((chainOf_wf w a).bind fun ch _ => .ite (canonical_raise _ _ _) (.ite (canonical_stall w _) ?_)) _ g
  exact (dispatchNow_wf w _).bind fun u hu => hu

theorem execCseq_wf {s : State} (w : s.mem.wf) (g : Guard) (d : Fin 32) (a : Opnd) : NextWf (execCseq g d a s) := by
  refine guarded_nextWf w ((chainOf_wf w a).bind fun ch _ => (dispatchNow_wf w _).bind fun u hu => ?_) _ g
  exact hu

theorem execCfence_wf {s : State} (w : s.mem.wf) (g : Guard) (mask : BitVec 8) : NextWf (execCfence g mask s) := by
  refine guarded_nextWf w ((dispatchNow_wf w _).bind fun _ _ => ?_) _ g
  refine (asMessage_done_wf w (fun t ht => ?_) _ _ _).bind fun u hu => dispatchNow_wf hu _
  refine wf_foldl _ (fun v ch hv => ?_) _ ht
  exact hv

theorem execCstat_wf {s : State} (w : s.mem.wf) (g : Guard) (clear : Bool) (d : Fin 32) (a : Opnd) : NextWf (execCstat g clear d a s) := by
  refine guarded_nextWf w ((chainOf_wf w a).bind fun ch _ => (dispatchNow_wf w _).bind fun u hu => ?_) _ g
  grind [canonical_pure, State.setChain_mem, State.putS_mem]

theorem canonical_engFail {α : Type} {f : α → State} {s : State} (w : s.mem.wf) (cause : Nat) :
    Canonical EngStop.Wf f (engFail s cause) := w

theorem stopCopy_wf {e : EngStop} (h : e.Wf) (k : Nat) (ch : Fin 8) (r : Running) (lines : Option Nat) : (stopCopy e k ch r lines).mem.wf := by
  cases lines with
  | none => exact stopCmd_wf (e := { e with s := { e.s with free := e.s.free + 1 } }) h ..
  | some n => exact stopCmd_wf h ..

theorem performStep_wf {s : State} (w : s.mem.wf) {body : State → Running → Eng State}
    (hb : ∀ t r, t.mem.wf → Canonical EngStop.Wf id (body t r)) (k : Nat) (ch : Fin 8) (kind : Nat) (lines : Running → EngStop → Option Nat) :
    NextWf (performStep s k ch kind body lines) := by
  unfold performStep
  split
  · exact w
  · exact engStep_wf w _ (fun t ht => hb t _ ht) fun e he => stopCopy_wf he ..

@[simp] theorem carryOn_mem (s : State) (k : Nat) (ch : Fin 8) (r : Running) (aux : List Word) : (carryOn s k ch r aux).mem = s.mem := rfl

theorem pieceDone_wf {s : State} (w : s.mem.wf) (k : Nat) (ch : Fin 8) (r : Running) (more : Bool) :
    Canonical EngStop.Wf id (pieceDone s k ch r more) :=
  .ite w (engEnd_wf w k ch r _ _ _)

theorem execCopy_wf {s : State} (w : s.mem.wf) (k : Nat) (ch : Fin 8) : NextWf (execCopy k ch s) := by
  refine performStep_wf w (fun t r ht => .ite (engEnd_wf ht k ch r _ _ _) (.ite (canonical_engFail ht _) ?_)) k ch _ _
  exact (engMove_wf ht k ch _ _).bind fun u hu => pieceDone_wf hu k ch r _

theorem execFill_wf {s : State} (w : s.mem.wf) (k : Nat) (ch : Fin 8) : NextWf (execFill k ch s) := by
  refine performStep_wf w (fun t r ht => .ite (engEnd_wf ht k ch r _ _ _) ?_) k ch _ _
  exact (engWrite_wf ht k ch _ _).bind fun u hu => pieceDone_wf hu k ch r _

theorem execCmdSignal_wf {s : State} (w : s.mem.wf) (k : Nat) (ch : Fin 8) : NextWf (execCmdSignal k ch s) := by
  refine performStep_wf w (fun t r ht => (engAddr_wf ht k ch _ _ _ _).bind fun u hu => ?_) k ch _ _
  exact (engStore_wf hu k ch _ _).bind fun v hv => engEnd_wf hv k ch r _ _ _

theorem engTensor_wf {s : State} (w : s.mem.wf) (k : Nat) (ch : Fin 8) (tid : Nat) : Canonical EngStop.Wf Prod.fst (engTensor s k ch tid) :=
  (engAddr_wf w k ch _ _ _ _).bind fun _ hu => (engLoad_wf hu k ch _ _ _).bind fun _ hv => .ite (canonical_engFail hv _) hv

theorem copytTensor_wf {s : State} (w : s.mem.wf) (k : Nat) (ch : Fin 8) (r : Running) : Canonical EngStop.Wf Prod.fst (copytTensor s k ch r) :=
  .ite w ((engTensor_wf w k ch _).bind fun _ hu => .ite (canonical_engFail hu _) (.ite (canonical_engFail hu _) (.ite (canonical_engFail hu _) hu)))

theorem readElems_wf {s : State} (w : s.mem.wf) (k : Nat) (ch : Fin 8) (at_ : Nat → Nat → Word) (key : Nat → Nat → Nat) (b : Nat)
    (xs : List (Nat × Nat)) (acc : SMap (List Byte)) :
    (readElems k ch at_ key b s xs acc).1.mem.wf ∧ ∀ e ∈ (readElems k ch at_ key b s xs acc).2.2, e.Wf := by
  induction xs generalizing s acc with
  | nil => simp [readElems, w]
  | cons x rest ih =>
    have hread := engRead_wf w k ch (at_ x.1 x.2) b 1
    grind [readElems, Canonical, EngStop.Wf]

theorem execCopyt_wf {s : State} (w : s.mem.wf) (k : Nat) (ch : Fin 8) : NextWf (execCopyt k ch s) := by
  refine performStep_wf w (fun t r ht => .ite (engEnd_wf ht k ch r _ _ _) ?_) k ch _ _
  refine (copytTensor_wf ht k ch r).bind fun ⟨u, x⟩ hu => ?_
  dsimp -zeta only
  extract_lets v b off m cols has order
  have hv : v.mem.wf := hu
  clear_value v
  have hread := fun at_ key => (readElems_wf hv k ch at_ key b order []).1
  refine .ite (hread _ _) (Canonical.bind (f := id) (.foldlM (fun a c ha => engWrite_wf ha k ch _ _) _ (hread _ _)) fun z hz => ?_)
  split
  · exact hz
  · exact pieceDone_wf hz k ch r _

theorem elemRun_wf {s : State} (w : s.mem.wf) (k : Nat) (ch : Fin 8) (va : Word) (z : Nat) (kind : Kind) :
    Canonical EngStop.Wf Prod.fst (elemRun s k ch va z kind) :=
  engAddr_wf w k ch va _ _ kind

theorem gatherPiece_wf {s : State} (w : s.mem.wf) (k : Nat) (ch : Fin 8) (r : Running) {one : State → Word → Word → Nat → Eng State}
    (h : ∀ t a p z, t.mem.wf → Canonical EngStop.Wf id (one t a p z)) : Canonical EngStop.Wf id (gatherPiece s k ch r one) := by
  refine Canonical.bind (f := id) (.foldlM (fun t j ht => ?_) _ w) fun u hu => pieceDone_wf hu k ch r _
  exact (engAddr_wf ht k ch _ _ _ _).bind fun u hu => (engLoad_wf hu k ch _ _ _).bind fun v hv => h _ _ _ _ hv

theorem execGath_wf {s : State} (w : s.mem.wf) (k : Nat) (ch : Fin 8) : NextWf (execGath k ch s) := by
  refine performStep_wf w (fun t r ht => gatherPiece_wf ht k ch r fun t a p z ht => ?_) k ch _ _
  exact (elemRun_wf ht k ch a z _).bind fun u hu => (engLoad_wf hu k ch a _ _).bind fun v hv => engWrite_wf hv k ch p _

theorem execScat_wf {s : State} (w : s.mem.wf) (k : Nat) (ch : Fin 8) : NextWf (execScat k ch s) := by
  refine performStep_wf w (fun t r ht => gatherPiece_wf ht k ch r fun t a p z ht => ?_) k ch _ _
  exact (engRead_wf ht k ch p _ _).bind fun u hu => (elemRun_wf hu k ch a z _).bind fun v hv => engStore_wf hv k ch _ _

theorem stashRing_wf {s : State} (w : s.mem.wf) (k : Nat) (ch : Fin 8) (r : Running) : Canonical EngStop.Wf Prod.fst (stashRing s k ch r) :=
  (engAddr_wf w k ch _ _ _ _).bind fun _ hu => (engLoad_wf hu k ch _ _ _).bind fun _ hv => .ite (canonical_engFail hv _) hv

theorem ringUpdate_wf {s : State} (w : s.mem.wf) (k : Nat) (ch : Fin 8) (a : Word) (off n : Nat) :
    Canonical EngStop.Wf id (ringUpdate s k ch a off n) :=
  (engAddr_wf w k ch _ _ _ _).bind fun _ hu => (engAddr_wf hu k ch _ _ _ _).bind fun _ hv => engUpdate_wf hv k ch _ _ _ _

theorem execStash_wf {s : State} (w : s.mem.wf) (k : Nat) (ch : Fin 8) : NextWf (execStash k ch s) := by
  refine performStep_wf w (fun t r ht => ?_) k ch _ _
  extract_lets n tag off need m data
  have hdata : ∀ t a g, t.mem.wf → Canonical EngStop.Wf id (data t a g) := fun t a g ht => by
    refine (engMove_wf ht k ch _ _).bind fun u hu => .ite (pieceDone_wf hu k ch r _) ?_
    exact (ringUpdate_wf hu k ch a _ _).bind fun v hv => engEnd_wf hv k ch r _ _ _
  clear_value data
  refine .ite (hdata _ _ _ ht) ((stashRing_wf ht k ch r).bind fun ⟨u, a, g⟩ hu => .ite ?_ (.ite ?_ hu))
  · exact (engWrites_wf hu k ch _ _ _).bind fun v hv => hdata _ _ _ hv
  · exact (engWrites_wf hu k ch _ _ _).bind fun v hv => (ringUpdate_wf hv k ch _ _ _).bind fun x hx => engEnd_wf hx k ch r _ _ _

theorem execUnstash_wf {s : State} (w : s.mem.wf) (k : Nat) (ch : Fin 8) : NextWf (execUnstash k ch s) := by
  refine performStep_wf w (fun t r ht => ?_) k ch _ _
  extract_lets off data
  have hdata : ∀ t a g len, t.mem.wf → Canonical EngStop.Wf id (data t a g len) := fun t a g len ht => by
    refine (engMove_wf ht k ch _ _).bind fun u hu => .ite (pieceDone_wf hu k ch r _) ?_
    exact (ringUpdate_wf hu k ch a _ _).bind fun v hv => engEnd_wf hv k ch r _ _ _
  clear_value data
  refine .ite (hdata _ _ _ _ ht) ((stashRing_wf ht k ch r).bind fun ⟨u, a, g⟩ hu => .ite hu ?_)
  refine (engReads_wf hu k ch _ _ _).bind fun ⟨v, hd⟩ hv => .ite hv (.ite ?_ (hdata _ _ _ _ hv))
  exact (ringUpdate_wf hv k ch _ _ _).bind fun x hx => engEnd_wf hx k ch r _ _ _

end Sys2Proof.Machine
end

section
/-! PROOFS. Near-memory updates, collectives, the forms of a phase and core blocks keep the canonical form of memory (R268 to R278, R289 to R291, R338). -/
namespace Sys2Proof.Machine

theorem elemRead_wf {s : State} (w : s.mem.wf) (k : Nat) (ch : Fin 8) (t : Tensor) (lo n : Nat) :
    Canonical EngStop.Wf Prod.fst (elemRead s k ch t lo n) :=
  by grind [elemRead, Canonical.bind, canonical_pure, engReads_wf]

theorem elemWrite_wf {s : State} (w : s.mem.wf) (k : Nat) (ch : Fin 8) (t : Tensor) (lo : Nat) (ps : List Nat) :
    Canonical EngStop.Wf id (elemWrite s k ch t lo ps) :=
  by grind [elemWrite, engWrites_wf]

theorem elemWritable_wf {s : State} (w : s.mem.wf) (k : Nat) (ch : Fin 8) (t : Tensor) (lo n : Nat) :
    Canonical EngStop.Wf id (elemWritable s k ch t lo n) := by
  refine Canonical.foldlM (f := id) (fun u x hu => ?_) _ w
  exact (engAddr_wf hu k ch _ _ _ _).map fun _ hv => hv

theorem poisonElems_wf {s : State} (w : s.mem.wf) (k : Nat) (ch : Fin 8) (t : Tensor) (lo n : Nat) : (poisonElems s k ch t lo n).mem.wf := by
  refine wf_foldl _ (fun u x hu => ?_) _ w
  have hcheck := engCheck_wf hu k ch x.1 x.2 1 .read
  grind [Canonical, State.setLine_mem]

theorem bumpVersion_wf {s : State} (w : s.mem.wf) (k : Nat) (ch : Fin 8) (tid : Nat) : Canonical EngStop.Wf id (bumpVersion s k ch tid) :=
  by grind [bumpVersion, Canonical.bind, engAddr_wf, engUpdate_wf]

/-- A step of a line keeps the canonical form of memory. -/
def LineWf (f : LineStep) : Prop := ∀ s lo n, s.mem.wf → Canonical EngStop.Wf Prod.fst (f s lo n)

theorem lineLoop_wf {f : LineStep} (hf : LineWf f) (per total : Nat) {d : Done} (w : d.s.mem.wf) (xs : List Nat) :
    (lineLoop per total f d xs).s.mem.wf := by
  induction xs generalizing d with
  | nil => exact w
  | cons q rest ih =>
    have hline := hf d.s (q * per) (min ((q + 1) * per) total - q * per) w
    grind [lineLoop, Canonical, EngStop.Wf]

theorem guardLine_wf {f : LineStep} (hf : LineWf f) (k : Nat) (ch : Fin 8) (t : Tensor) : LineWf (guardLine k ch t f) := by
  intro s lo n w
  refine Canonical.map (f := Prod.fst) (engOnce_wf w (engAlone_wf w fun u hu => ?_)) fun _ hv => hv
  have hline := hf u lo n hu
  grind [Canonical, EngStop.Wf, poisonElems_wf]

theorem updateDone_wf {d : Done} (w : d.s.mem.wf) (k : Nat) (ch : Fin 8) (r : Running) (version : Option Nat) :
    Canonical EngStop.Wf id (updateDone k ch r version d) := by
  have hcount : ∀ tid, Canonical EngStop.Wf id (bumpVersion d.s k ch tid) := bumpVersion_wf w k ch
  unfold updateDone
  extract_lets counted
  have hcounted : Canonical EngStop.Wf Prod.fst counted := by grind [Canonical, EngStop.Wf]
  clear_value counted
  grind [Canonical, EngStop.Wf, engEnd_wf, completeCmd_wf]

theorem updateCmd_wf {s : State} (w : s.mem.wf) {plan : State → Running → Eng (State × List Tensor × List Word)}
    {line : Running → List Tensor → List Word → LineStep} (hp : ∀ t r, t.mem.wf → Canonical EngStop.Wf Prod.fst (plan t r))
    (hl : ∀ r ts ps, LineWf (line r ts ps)) (k : Nat) (ch : Fin 8) (kind n : Nat) (version : Bool) :
    NextWf (updateCmd k ch kind n s version plan line) := by
  unfold updateCmd
  split
  · exact w
  next r _ =>
    split
    · exact w
    · refine engStep_wf w _ (fun t ht => ?_) fun e he => completeCmd_wf he ..
      extract_lets pieces
      have hpieces : ∀ x, x.1.mem.wf → Canonical EngStop.Wf id (pieces x) := fun ⟨u, r⟩ hu => by
        simp -zeta only [pieces]
        extract_lets ts x lines piece d
        have hd : d.s.mem.wf := lineLoop_wf (guardLine_wf (hl _ _ _) k ch _) _ _ hu _
        clear_value d
        exact .ite hd (.ite (pieceDone_wf (s := carryOn _ _ _ _ _) hd k ch r _) (updateDone_wf hd k ch r _))
      clear_value pieces
      exact .ite (hpieces _ ht) ((hp t r ht).bind fun _ hu => hpieces _ hu)

theorem updateTensors_wf {s : State} (w : s.mem.wf) (k : Nat) (ch : Fin 8) (types tids : List Nat) :
    Canonical EngStop.Wf Prod.fst (updateTensors s k ch types tids) := by
  refine Canonical.bind (f := Prod.fst) (.foldlM (fun acc tid hu => ?_) _ w) fun u hu => .ite hu (canonical_engFail hu _)
  exact (engTensor_wf hu k ch _).bind fun _ hv => hv

theorem execNmuSgd_wf {s : State} (w : s.mem.wf) (k : Nat) (ch : Fin 8) : NextWf (execNmuSgd k ch s) := by
  refine updateCmd_wf w (fun t r ht => (updateTensors_wf ht k ch _ _).bind fun _ hu => ?_) (fun r ts ps t lo n ht => ?_) k ch _ _ _
  · exact hu
  · refine (elemWritable_wf ht k ch _ _ _).bind fun u hu => (elemRead_wf hu k ch _ _ _).bind fun v hv => ?_
    exact (elemRead_wf hv k ch _ _ _).bind fun x hx => (elemWrite_wf hx k ch _ _ _).bind fun _ hy => hy

theorem execNmuScale_wf {s : State} (w : s.mem.wf) (k : Nat) (ch : Fin 8) : NextWf (execNmuScale k ch s) := by
  refine updateCmd_wf w (fun t r ht => (updateTensors_wf ht k ch _ _).bind fun _ hu => ?_) (fun r ts ps t lo n ht => ?_) k ch _ _ _
  · exact hu
  · refine (elemWritable_wf ht k ch _ _ _).bind fun u hu => (elemRead_wf hu k ch _ _ _).bind fun v hv => ?_
    exact (elemWrite_wf hv k ch _ _ _).bind fun _ hy => hy

theorem execNmuAdamw_wf {s : State} (w : s.mem.wf) (k : Nat) (ch : Fin 8) : NextWf (execNmuAdamw k ch s) := by
  refine updateCmd_wf w (fun t r ht => (updateTensors_wf ht k ch _ _).bind fun _ hu => ?_) (fun r ts ps t lo n ht => ?_) k ch _ _ _
  · exact (engAddr_wf hu k ch _ _ _ _).bind fun _ hv => (engLoad_wf hv k ch _ _ _).bind fun _ hx => hx
  · refine (elemWritable_wf ht k ch _ _ _).bind fun _ ht => (elemWritable_wf ht k ch _ _ _).bind fun _ ht => ?_
    refine (elemWritable_wf ht k ch _ _ _).bind fun _ ht => (elemRead_wf ht k ch _ _ _).bind fun _ ht => ?_
    refine (elemRead_wf ht k ch _ _ _).bind fun _ ht => (elemRead_wf ht k ch _ _ _).bind fun _ ht => ?_
    refine (elemRead_wf ht k ch _ _ _).bind fun _ ht => (elemWrite_wf ht k ch _ _ _).bind fun _ ht => ?_
    exact (elemWrite_wf ht k ch _ _ _).bind fun _ ht => (elemWrite_wf ht k ch _ _ _).bind fun _ ht => ht

theorem groupList_wf {s : State} (w : s.mem.wf) (k : Nat) (b : List Word) : Canonical EngStop.Wf Prod.fst (groupList s k b) :=
  by grind [groupList, Canonical.bind, canonical_pure, engRead_wf]

theorem groupLists_wf {s : State} (w : s.mem.wf) (ps : List (Nat × Running)) : Canonical EngStop.Wf Prod.fst (groupLists s ps) := by
  refine .foldlM (fun acc p ha => ?_) ps w
  have hlist := groupList_wf ha p.1 p.2.body
  grind [Canonical, EngStop.Wf]

theorem execCollMatch_wf {s : State} (w : s.mem.wf) (id : Nat) : NextWf (execCollMatch id s) := by
  unfold execCollMatch
  split
  · exact w
  · refine engStep_wf w _ (fun t ht => (groupLists_wf ht _).bind fun ⟨u, lists, failed⟩ hu => ?_) fun e he => he
    refine .ite (.ite hu (wf_foldl _ (fun v x hv => ?_) _ hu)) (.ite (.ite hu (wf_foldl _ (fun v p hv => ?_) _ hu)) hu)
    · exact stopCopy_wf (e := { x.1 with s := v }) hv ..
    · exact completeCmd_wf hv ..

theorem sendBytes_wf {s : State} (w : s.mem.wf) (c : Coll) (q off n : Nat) : Canonical EngStop.Wf Prod.fst (sendBytes s c q off n) := by
  have hread := fun m xs => engReadsTo_wf w m collChain xs []
  grind [sendBytes, Canonical, EngStop.Wf]

theorem joinSends_wf (f : List Byte → List Byte → List Byte) {next : State → Nat → ReadTo}
    (hn : ∀ t q, t.mem.wf → Canonical EngStop.Wf Prod.fst (next t q)) (ranks : List Nat) {first : State × List Byte × Option EngStop}
    (w : first.1.mem.wf) : Canonical EngStop.Wf Prod.fst (joinSends f next ranks first) := by
  refine .foldlM (fun acc q ha => ?_) ranks w
  exact (hn _ q ha).bind fun _ hu => hu

theorem stopMember_wf {s : State} (w : s.mem.wf) (m : Member) (e : EngStop) : (stopMember s m e).mem.wf := by
  unfold stopMember
  split
  · exact stopCopy_wf (e := { e with s := s }) w ..
  · exact w

theorem endMember_wf {s : State} (w : s.mem.wf) (m : Member) : (endMember s m).mem.wf := by grind [endMember, completeCmd_wf]

@[simp] theorem receive_mem (s : State) (c : Coll) (senders : List Nat) (m : Member) : (receive s c senders m).mem = s.mem := rfl

theorem settle_wf {s : State} (w : s.mem.wf) (c : Coll) (fails : List (Nat × EngStop)) : (settle s c fails).1.mem.wf := by
  refine List.foldlRecOn (motive := fun acc : State × Coll => acc.1.mem.wf) fails _ w fun acc ha x _ => ?_
  grind [stopMember_wf]

theorem landAt_wf {s : State} (w : s.mem.wf) (c : Coll) (senders : List Nat) (bs : List Byte) (stop : Option EngStop) (places : List (Nat × Nat)) :
    Canonical EngStop.Wf Prod.fst (landAt s c senders bs stop places) := by
  refine .foldlM (fun acc x ha => ?_) places w
  have hwrite := fun m va => engWrite_wf (s := receive acc.1 c senders m) (by rwa [receive_mem]) m.core collChain va bs
  grind [Canonical, EngStop.Wf]

theorem performColl_wf {s : State} (w : s.mem.wf) (id kind : Nat) (units : Coll → Nat) (senders : Coll → List Nat)
    {form : State → Coll → Nat → ReadTo} (hf : ∀ t c u, t.mem.wf → Canonical EngStop.Wf Prod.fst (form t c u))
    (receivers : Coll → Nat → List (Nat × Nat)) : NextWf (performColl id kind s units senders form receivers) := by
  unfold performColl
  split
  · exact w
  · refine engStep_wf w _ (fun t ht => (hf t _ _ ht).bind fun ⟨u, bs, stop⟩ hu => ?_) fun e he => he
    refine (landAt_wf hu _ _ _ _ _).bind fun ⟨v, fails⟩ hv => .ite hv ?_
    have hsettle := settle_wf hv ‹Coll› fails
    refine .ite hsettle (wf_foldl _ (fun x m hx => ?_) _ hsettle)
    grind [endMember_wf]

theorem reduceShard_wf {s : State} (w : s.mem.wf) (c : Coll) (r n : Nat) (ty : Ty) : Canonical EngStop.Wf Prod.fst (reduceShard s c r n ty) :=
  (sendBytes_wf w c 0 _ n).bind fun _ hu => joinSends_wf _ (fun _ _ ht => sendBytes_wf ht c _ _ n) _ hu

theorem execCollRs_wf {s : State} (w : s.mem.wf) (id : Nat) : NextWf (execCollRs id s) :=
  performColl_wf w id _ _ _ (fun _ _ _ ht => reduceShard_wf ht _ _ _ _) _

theorem execCollAr_wf {s : State} (w : s.mem.wf) (id : Nat) : NextWf (execCollAr id s) :=
  performColl_wf w id _ _ _ (fun _ _ _ ht => reduceShard_wf ht _ _ _ _) _

theorem execCollBc_wf {s : State} (w : s.mem.wf) (id : Nat) : NextWf (execCollBc id s) :=
  performColl_wf w id _ _ _ (fun _ _ _ ht => sendBytes_wf ht _ _ _ _) _

theorem execCollXor_wf {s : State} (w : s.mem.wf) (id : Nat) : NextWf (execCollXor id s) :=
  performColl_wf w id _ _ _ (fun _ _ _ ht => joinSends_wf _ (fun _ _ hu => sendBytes_wf hu _ _ _ _) _ ht) _

theorem landShard_wf {s : State} (w : s.mem.wf) (c : Coll) (m : Member) (q : Nat) : Canonical EngStop.Wf id (landShard s c m q) := by
  unfold landShard
  extract_lets n p o flags put
  have hput : ∀ t off v, t.mem.wf → Canonical EngStop.Wf id (put t off v) := fun t off v ht =>
    (engAddr_wf ht _ _ _ _ _ _).bind fun _ hu => engStore_wf hu _ _ _ _
  clear_value put
  refine (sendBytes_wf w c q 0 n).bind fun ⟨u, bs,
    stop⟩ hu => (engWrite_wf (s := receive u c [q] m) (by rwa [receive_mem]) _ _ _ _).bind fun v hv => ?_
  cases stop with
  | some e => exact hv
  | none => exact (hput _ _ _ hv).bind fun _ hx => (hput _ _ _ hx).bind fun _ hy => hput _ _ _ hy

theorem arrive_wf {s : State} (w : s.mem.wf) (c : Coll) (r q : Nat) : Canonical EngStop.Wf Prod.fst (arrive s c r q) := by
  have hland := fun m => landShard_wf w c m q
  grind [arrive, Canonical, EngStop.Wf]

theorem gathered_wf {s : State} (w : s.mem.wf) (id : Nat) (c : Coll) : (gathered s id c).mem.wf := by grind [gathered, endMember_wf, wf_foldl]

theorem execCollAg_wf {s : State} (w : s.mem.wf) (id : Nat) : NextWf (execCollAg id s) := by
  unfold execCollAg
  split
  · exact w
  next c _ =>
    split
    · exact w
    · refine engStep_wf w _ (fun t ht => Canonical.bind (f := Prod.fst) (.foldlM (fun acc r ha => ?_) _ ht) fun ⟨u, fails⟩ hu => ?_) fun e he => he
      · exact (arrive_wf ha c r r).bind fun _ hv => hv
      · exact .ite hu (gathered_wf (settle_wf hu c fails) _ _)

theorem execCollShardArrival_wf {s : State} (w : s.mem.wf) (k q : Nat) : NextWf (execCollShardArrival k q s) := by
  unfold execCollShardArrival
  split
  · exact w
  · dsimp only
    split
    · exact w
    next c _ =>
      split
      · exact w
      · split
        · exact w
        · refine engStep_wf w _ (fun t ht => (arrive_wf ht c _ q).bind fun ⟨u, fails⟩ hu => ?_) fun e he => he
          exact .ite hu (gathered_wf (settle_wf hu c fails) _ _)

@[simp] theorem dropScripts_mem (s : State) (g : Nat) : (dropScripts s g).mem = s.mem := rfl

theorem execPhase_wf {s : State} (w : s.mem.wf) (g : Guard) (scope : Fin 8) : NextWf (execPhase g scope s) := by
  refine guarded_nextWf w ?_ _ g
  grind [Canonical, canonical_raisePhase, raisePhaseEntry, canonical_raise, startFlush_mem, goto_mem]

theorem checkStamp_wf {s : State} (w : s.mem.wf) (p : Phase) (stamp count : Nat) (x : BitVec 8) (l : Latch) :
    Canonical Stop.Wf (fun _ => s) (checkStamp p stamp count x l) :=
  .ite (canonical_raiseLane _ _ _ _ _) w

theorem xForm_wf {s : State} (w : s.mem.wf) {body : Phase → Res State} (hb : ∀ p, Canonical Stop.Wf id (body p)) (i : Instr) (g : Guard) :
    NextWf (xForm s i g body) := by
  refine guarded_nextWf w ?_ i g
  split
  · exact canonical_raiseSlot s i _
  · exact hb _

theorem execXmit_wf {s : State} (w : s.mem.wf) (g : Guard) (d : Link) (a : Opnd) (stamp : BitVec 16) : NextWf (execXmit g d a stamp s) :=
  xForm_wf w (fun _ => (checkStamp_wf w _ _ _ _ _).bind fun _ _ => State.laneWrite_wf w _ _ _) _ g

theorem execXrcv_wf {s : State} (w : s.mem.wf) (g : Guard) (d : Fin 32) (a : Link) (stamp : BitVec 16) (count : BitVec 8) :
    NextWf (execXrcv g d a stamp count s) :=
  xForm_wf w (fun p => by exact (checkStamp_wf w _ _ _ _ _).bind fun _ _ => .ite (canonical_raiseLane _ _ _ _ _) w) _ g

theorem execXsel_wf {s : State} (w : s.mem.wf) (g : Guard) (d : Link) (a : Opnd) (stamp : BitVec 16) (count : BitVec 8) :
    NextWf (execXsel g d a stamp count s) :=
  xForm_wf w (fun p => by exact (checkStamp_wf w _ _ _ _ _).bind fun _ _ => w) _ g

theorem execXidle_wf {s : State} (w : s.mem.wf) (g : Guard) (stamp : BitVec 16) (count : BitVec 8) : NextWf (execXidle g stamp count s) :=
  xForm_wf w (fun p => by exact (checkStamp_wf w _ _ _ _ _).bind fun _ _ => w) _ g

theorem execPend_wf {s : State} (w : s.mem.wf) (g : Guard) : NextWf (execPend g s) :=
  xForm_wf w (fun p => by exact w) _ g

@[simp] theorem joinPts_mem (s : State) (keys : List Nat) : (joinPts s keys).mem = s.mem := by grind [joinPts, State.setCtx_mem, mem_foldl]

@[simp] theorem beginPhase_mem (s : State) (episode key : Nat) (run : List (Word × Line)) : (beginPhase s episode key run).mem = s.mem := rfl

theorem execPhaseBarrierComplete_wf {s : State} (w : s.mem.wf) (k : Nat) (scope : Fin 8) : NextWf (execPhaseBarrierComplete k scope s) :=
  by grind [execPhaseBarrierComplete, NextWf, State.setQuad_mem, joinPts_mem, beginPhase_mem, wf_foldl]

theorem execPccLimit_wf {s : State} (w : s.mem.wf) (k : Nat) : NextWf (execPccLimit k s) := by grind [execPccLimit, NextWf, takeTrap_wf]

theorem shadowPut_wf {s : State} (w : s.mem.wf) (g : Nat) (va : Word) (bs : List Byte) : (shadowPut s g va bs).mem.wf := by
  refine wf_foldl _ (fun u b hu => ?_) _ w
  split
  · exact Memory.wf_write hu _ _
  · exact hu

theorem shadowLine_wf {s : State} (w : s.mem.wf) (g slot k l : Nat) : (shadowLine s g slot k l).mem.wf := by
  unfold shadowLine
  dsimp only
  split
  · exact w
  · exact shadowPut_wf w ..

theorem wf_free {s : State} (w : s.mem.wf) (n : Nat) : ({ s with free := n } : State).mem.wf := w

theorem shadowBlock_wf {s : State} (w : s.mem.wf) (g slot : Nat) (i : CoreImage) : (shadowBlock s g slot i).mem.wf := by
  unfold shadowBlock
  extract_lets x at_ u v rest
  have hu : u.mem.wf := wf_foldl _ (fun u l hu => shadowLine_wf hu ..) _ w
  have hv : v.mem.wf := wf_foldl _ (fun u p hu => shadowPut_wf hu ..) _ hu
  exact wf_free (shadowPut_wf hv g (at_ 16) rest) _

theorem writeSlot_wf {s : State} (w : s.mem.wf) (g slot : Nat) (imgs : List CoreImage) : (writeSlot s g slot imgs).mem.wf := by
  unfold writeSlot
  dsimp only
  split
  · exact w
  · refine wf_foldl _ (fun u l hu => ?_) _ (wf_foldl _ (fun u i hu => shadowBlock_wf hu ..) _ w)
    exact hu

end Sys2Proof.Machine
end

section
/-! PROOFS. The matrix forms and the array queue keep the canonical form of memory (R228 to R251). -/
namespace Sys2Proof.Machine

theorem readEntry_wf {s : State} (w : s.mem.wf) (ps : List Piece) : Canonical Perf.Wf Prod.fst (readEntry s ps) :=
  by grind [readEntry, Canonical, Perf.Wf, readPieces_wf, exchangeAt_wf, loadBytes_mem]

theorem tensorFor_wf {s : State} (w : s.mem.wf) (tid : Word) (ok : Tensor → Bool) : Canonical Perf.Wf Prod.fst (tensorFor s tid ok) := by
  have hcheck := checkPieces_wf w 0x37 .read 32 [(tensorAddr s.gang.tensors tid.toNat, 32)]
  unfold tensorFor
  dsimp only
  split
  · exact w
  · split
    next he => exact hcheck.error he
    next u ps he =>
      have hready := piecesReady_wf (hcheck.ok he) .read ps
      split
      next he => exact hready.error he
      next v he =>
        have hentry := readEntry_wf (hready.ok he) ps
        grind [Canonical, Perf.Wf]

theorem rowPieces_wf {s : State} (w : s.mem.wf) (m : Mode) (align : Nat) (rows : List (List (Word × Nat))) (acc : List Piece) :
    Canonical Perf.Wf Prod.fst (rowPieces m align s rows acc) := by
  induction rows generalizing s acc with
  | nil => exact w
  | cons row rest ih =>
    have hcheck := checkPieces_wf w 0x37 m align (row.flatMap fun x => cutLines (x.2 / 64 + 2) x.1 x.2)
    grind [rowPieces, Canonical]

theorem blockPieces_wf {s : State} (w : s.mem.wf) (t : Tensor) (m : Mode) (r0 c0 nr nc : Nat) :
    Canonical Perf.Wf Prod.fst (blockPieces s t m r0 c0 nr nc) := by
  have hrows := rowPieces_wf w m t.align (blockSegments t r0 c0 nr nc) []
  unfold blockPieces
  split
  next he => exact hrows.error he
  next u ps he =>
    have hready := piecesReady_wf (hrows.ok he) m ps
    split
    next he => exact hready.error he
    next he => exact hready.ok he

theorem tileTransfer_wf {s : State} (w : s.mem.wf) (f : ArrayForm) (e : RingEntry) (store tr : Bool) (d : Fin 8) (a b c : Opnd) :
    (tileTransfer s f e store tr d a b c).Wf := by
  unfold tileTransfer
  extract_lets sh r0 c0 nr nc n usable
  have htensor := tensorFor_wf w (opWord a e.opa) usable
  split
  next he => exact htensor.error he
  next u t he =>
    have hblock := blockPieces_wf (htensor.ok he) t (if store then .write else .read) r0 c0 nr nc
    split
    next he => exact hblock.error he
    next v ps he =>
      have hv : v.mem.wf := hblock.ok he
      have hwrite := writePieces_wf hv 0x37 ps
      have hread := readPieces_wf hv 0x37 ps []
      clear_value sh
      grind [Canonical, Perf.Wf, State.updCore_mem]

theorem drain_wf {s : State} (w : s.mem.wf) (f : ArrayForm) (e : RingEntry) (t : Ty) (fn : EpiFn) (d : Opnd) (a : Fin 8) (b c : Option (Fin 8))
    (scale : BitVec 32) (brow : Bool) (rc : Rc) : (drain s f e t fn d a b c scale brow rc).Wf := by
  unfold drain
  extract_lets rm
  split
  · exact w
  · split
    · exact w
    · have htensor := tensorFor_wf w
      split
      next he => exact (htensor _ _).error he
      next u te he =>
        have hblock := blockPieces_wf ((htensor _ _).ok he) te .write
        split
        next he => exact (hblock _ _ _ _).error he
        next v ps he =>
          have hwrite := writePieces_wf ((hblock _ _ _ _).ok he) 0x37 ps
          extract_lets ty r
          split
          next he => exact (hwrite _).error he
          next he => exact ((hwrite _).ok he :)

theorem runMatrix_wf {s : State} (w : s.mem.wf) (f : ArrayForm) (e : RingEntry) : (runMatrix s f e).Wf := by
  unfold runMatrix
  dsimp only
  split
  · exact tileTransfer_wf w ..
  · exact tileTransfer_wf w ..
  · exact w
  · exact w
  · exact w
  · exact w
  · exact w
  · exact w
  · exact drain_wf w ..
  · exact w
  · exact w
  · exact w

theorem finishArray_wf {p : Perf} (h : p.Wf) (f : ArrayForm) : Canonical Stop.Wf id (finishArray f p) := by
  cases p with
  | ok s res fl => exact h
  | fault s cause a b => grind [finishArray, Canonical, Perf.Wf, faultEntry_wf]
  | stop x => exact h

@[simp] theorem enterArray_mem (s : State) (q : Nat) (e : RingEntry) (tsh : Vector Word 8 → Vector Word 8) : (enterArray s q e tsh).mem = s.mem :=
  by unfold enterArray; split <;> simp

@[simp] theorem queueArray_mem (s : State) (f : ArrayForm) : (queueArray s f).mem = s.mem := rfl

theorem arrayIssue_wf {s : State} (w : s.mem.wf) {run : State → ArrayForm → RingEntry → Perf} (hr : ∀ t f e, t.mem.wf → (run t f e).Wf)
    (i : Instr) (word : Word) (dest : Option (Fin 32)) (tsh : Vector Word 8 → Vector Word 8) :
    Canonical Stop.Wf id (arrayIssue run s i word dest tsh) := by
  refine (ringSlot_wf w i).bind fun q _ => ?_
  extract_lets _ e fs vs f waits
  have hrun := hr { s with steps := none } f e w
  clear_value e fs vs f waits
  refine .ite (.ite (canonical_stallOr w i _) ?_) ?_
  · exact canonical_pure (by rwa [id, queueArray_mem, enterArray_mem])
  · grind [Canonical, canonical_pure, Perf.Wf, Stop.Wf, finishArray_wf, queueArray_mem, enterArray_mem, State.upd_mem]

theorem matrixForm_nextWf {s : State} (w : s.mem.wf) (i : Instr) (g : Guard) (word : Word) (dest : Option (Fin 32))
    (tsh : Vector Word 8 → Vector Word 8) : NextWf (matrixForm s i g word dest tsh) :=
  guarded_nextWf w (.ite (canonical_raiseOpen s _) (.ite (canonical_raiseOpen s _) (arrayIssue_wf w (fun _ f e ht => runMatrix_wf ht f e) ..))) i g

theorem execMclaim_wf {s : State} (w : s.mem.wf) (g : Guard) : NextWf (execMclaim g s) :=
  guarded_nextWf w (by grind [Canonical.bind, canonical_pure, canonical_stall, dispatchNow_wf, takeClaim_mem]) _ g

theorem execMrls_wf {s : State} (w : s.mem.wf) (g : Guard) : NextWf (execMrls g s) := by
  refine guarded_nextWf w (.ite (canonical_pure w) (.ite (canonical_raiseOpen s _) ((dispatchNow_wf w _).bind fun t ht => ?_))) _ g
  extract_lets u
  have hu : u.mem.wf := ht
  clear_value u
  refine .ite (canonical_stallOr hu _ _) (canonical_pure ?_)
  rwa [id, passClaim_mem]

theorem execGmma_wf {s : State} (w : s.mem.wf) (g : Guard) (t : Ty) (rc : Rc) (d a b : Fin 8) (grp : BitVec 2) :
    NextWf (execGmma g t rc d a b grp s) := by
  refine guarded_nextWf w (.ite (canonical_raiseOpen s _) (.ite (canonical_raiseOpen s _) ((ringSlot_wf w _).bind fun q _ => ?_))) _ g
  extract_lets n u
  have hu : u.mem.wf := w
  clear_value u
  grind [canonical_pure, faultEntry_wf, State.updCore_mem]

@[simp] theorem popArray_mem (s : State) (k : Nat) : (popArray s k).mem = s.mem := rfl

theorem failGmma_wf {s : State} (w : s.mem.wf) (k cause : Nat) : (failGmma s k cause).mem.wf :=
  by grind [failGmma, State.setCore_mem, faultEntry_wf, popArray_mem]

@[simp] theorem joinGmma_mem (s : State) (k ta : Nat) (sa : Mat.TShape) : (joinGmma s k ta sa).mem = s.mem :=
  by grind [joinGmma, popArray_mem, State.setCore_mem]

theorem execGmmaJoin_wf {s : State} (w : s.mem.wf) (k : Nat) : NextWf (execGmmaJoin k s) := by
  unfold execGmmaJoin
  split
  · exact w
  · dsimp only
    split
    · refine wf_foldl _ (fun t y ht => ?_) _ w
      grind [failGmma_wf]
    · split
      · exact w
      · split
        · exact w
        · split
          · refine wf_foldl _ (fun t y ht => ?_) _ w
            rwa [joinGmma_mem]
          · exact w

theorem execGmmaJoinTimeout_wf {s : State} (w : s.mem.wf) (k : Nat) : NextWf (execGmmaJoinTimeout k s) :=
  by grind [execGmmaJoinTimeout, NextWf, failGmma_wf]

end Sys2Proof.Machine
end

section
/-! PROOFS. Tensors, promises and the system forms keep the canonical form of memory (R103 to R106, R299 to R317, R327 to R342). -/
namespace Sys2Proof.Machine

theorem recRead_wf {s : State} (w : s.mem.wf) (p : PCmd) (ea : Word) : Canonical EngStop.Wf Prod.fst (recRead s p ea) :=
  by grind [recRead, Canonical.bind, canonical_pure, engAddr_wf, engLoad_wf]

theorem recWrite_wf {s : State} (w : s.mem.wf) (p : PCmd) (ea : Word) (x : Nat) : Canonical EngStop.Wf id (recWrite s p ea x) :=
  by grind [recWrite, Canonical.bind, engAddr_wf, engStore_wf]

theorem wordRead_wf {s : State} (w : s.mem.wf) (p : PCmd) (va : Word) : Canonical EngStop.Wf Prod.fst (wordRead s p va) :=
  by grind [wordRead, Canonical.bind, canonical_pure, engAddr_wf, engLoad_wf]

theorem wordWrite_wf {s : State} (w : s.mem.wf) (p : PCmd) (va v : Word) : Canonical EngStop.Wf id (wordWrite s p va v) :=
  by grind [wordWrite, Canonical.bind, engAddr_wf, engStore_wf]

@[simp] theorem setOpen_mem (s : State) (p : PCmd) (tid : Nat) (b : Bool) : (setOpen s p tid b).mem = s.mem := rfl

theorem openList_wf {s : State} (w : s.mem.wf) (p : PCmd) (fuel : Nat) (a : Word) (acc : List (Word × Nat)) :
    Canonical EngStop.Wf Prod.fst (openList p fuel s a acc) := by
  induction fuel generalizing s a acc with
  | zero => exact w
  | succ fuel ih =>
    have hread := recRead_wf w p a
    grind [openList, Canonical]

theorem listOf_wf {s : State} (w : s.mem.wf) (p : PCmd) (tid : Nat) : Canonical EngStop.Wf Prod.fst (listOf s p tid) :=
  (wordRead_wf w p _).bind fun _ hu => openList_wf hu p _ _ _

theorem openListTo_wf {s : State} (w : s.mem.wf) (p : PCmd) (fuel : Nat) (a : Word) (acc : List (Word × Nat)) :
    (openListTo p fuel s a acc).1.mem.wf := by
  induction fuel generalizing s a acc with
  | zero => exact w
  | succ fuel ih =>
    have hread := recRead_wf w p a
    grind [openListTo, Canonical, EngStop.Wf]

theorem unlinkFrom_wf {s : State} (w : s.mem.wf) (p : PCmd) (next : Word) (fuel : Nat) (a : Word) (gone : List Word) :
    Canonical EngStop.Wf id (unlinkFrom p next fuel s a gone) := by
  induction fuel generalizing s a gone with
  | zero => exact w
  | succ fuel ih =>
    have hread := recRead_wf w p a
    grind [unlinkFrom, Canonical, wordWrite_wf]

theorem unlink_wf {s : State} (w : s.mem.wf) (p : PCmd) (x : Nat) : Canonical EngStop.Wf id (unlink s p x) := by
  refine (wordRead_wf w p _).bind fun ⟨u, first⟩ hu => .ite ?_ (unlinkFrom_wf hu p _ _ _ _)
  refine (wordWrite_wf hu p _ _).bind fun v hv => ?_
  grind [canonical_pure, setOpen_mem]

theorem promiseTensors_wf {s : State} (w : s.mem.wf) (p : PCmd) (x : Nat) : Canonical EngStop.Wf Prod.fst (promiseTensors s p x) := by
  refine (engTensor_wf w _ _ _).bind fun _ hu => (engTensor_wf hu _ _ _).bind fun _ hu => ?_
  refine (engTensor_wf hu _ _ _).bind fun _ hu => (engTensor_wf hu _ _ _).bind fun _ hu => ?_
  exact .ite (canonical_engFail hu _) (.ite (canonical_engFail hu _) (canonical_pure hu))

/-- Memory is canonical in the states that a pass over lines, and its stop, leave. -/
def PassWf (r : Pass1 × Option EngStop) : Prop := r.1.s.mem.wf ∧ ∀ e ∈ r.2, e.Wf

theorem linePass_wf {f : State → Nat → Nat → Eng (State × List Nat × List Nat)}
    (hf : ∀ s lo n, s.mem.wf → Canonical EngStop.Wf Prod.fst (f s lo n)) (p : PCmd) (t : Tensor) {d : Pass1} (w : d.s.mem.wf) (xs : List Nat) :
    PassWf (linePass p t f d xs) := by
  induction xs generalizing d with
  | nil => exact ⟨w, by simp [linePass]⟩
  | cons q rest ih =>
    unfold linePass
    extract_lets lo n
    have hline : Canonical EngStop.Wf Prod.fst (engOnce d.s (engAlone · (fun s => do
        let (s, new, keep) ← f s lo n
        let s ← elemWrite s p.k p.ch t lo new
        return (s, BitVec.ofNat 8 (countNaN t.fmt new) :: keep.flatMap (Bits.bytesLE 8))))) :=
      engOnce_wf w (engAlone_wf w fun u hu => (hf u lo n hu).bind fun v hv => (elemWrite_wf hv _ _ t lo _).bind fun x hx => hx)
    split
    next he => exact ⟨hline.error he, by simpa using hline.error he⟩
    next he => exact ih (hline.ok he)

theorem poisonEnd_wf {e : EngStop} (h : e.Wf) (p : PCmd) (x state flags : Nat) (open_ : Bool) :
    Canonical EngStop.Wf PEnd.s (poisonEnd p e x state flags open_) := by
  have hdone : ∀ u y, u.mem.wf → Canonical EngStop.Wf PEnd.s (match recWrite u p p.ea y with
      | .ok s => .ok ⟨s, 0x56, e.under⟩
      | .error e2 => if e2.paused then .error e2 else .ok ⟨e2.s, 0x56, e.under⟩ : Eng PEnd) := fun u y hu => by
    have hwrite := recWrite_wf hu p p.ea y
    grind [Canonical, EngStop.Wf]
  refine .ite h (.ite h ?_)
  have hunlink := unlink_wf h p x
  split
  · split
    next he => exact hdone _ _ (hunlink.ok he)
    next he =>
      split
      · exact hunlink.error he
      · exact hdone _ _ (hunlink.error he)
  · exact hdone _ _ h

theorem orPoison_wf {α : Type} {f : α → State} {r : Eng α} (h : Canonical EngStop.Wf f r) {next : α → Eng PEnd}
    (hn : ∀ a, (f a).mem.wf → Canonical EngStop.Wf PEnd.s (next a)) (p : PCmd) (x state flags : Nat) (open_ : Bool) :
    Canonical EngStop.Wf PEnd.s (orPoison p x state flags open_ r next) := by
  cases r with
  | ok a => exact hn a h
  | error e => exact poisonEnd_wf h ..

theorem endOf_wf {r : Eng PEnd} (h : Canonical EngStop.Wf PEnd.s r) : (endOf r).s.mem.wf := by
  cases r with
  | ok a => exact h
  | error e => exact h

theorem issuePasses_wf {s : State} (w : s.mem.wf) (p : PCmd) (x : Nat) (t : PTensors) (fv : List Nat) : PassWf (issuePasses s p x t fv) := by
  unfold issuePasses
  extract_lets fm n gpass
  have hg : PassWf gpass := by
    refine linePass_wf (fun u lo m hu => ?_) p t.g w _
    exact (elemRead_wf hu _ _ _ _ _).bind fun _ hv => hv
  clear_value gpass
  split
  next he => exact ⟨hg.1, by simpa using hg.2 _ he⟩
  next r _ _ _ =>
    have hr : PassWf r := by
      refine linePass_wf (fun u lo m hu => ?_) p t.w (d := ⟨gpass.1.s, [], false, false⟩) hg.1 _
      exact (elemRead_wf hu _ _ _ _ _).bind fun _ hv => hv
    exact hr

theorem issueEffect_wf {s : State} (w : s.mem.wf) (p : PCmd) (e ssn seq ctx : Nat) :
    Canonical EngStop.Wf PEnd.s (issueEffect s p e ssn seq ctx) := by
  refine (recRead_wf w p p.ea).bind fun ⟨u, x⟩ hu => .ite (canonical_engFail hu _) ?_
  refine orPoison_wf (promiseTensors_wf hu p x) (fun ⟨u, t⟩ hu => ?_) ..
  refine orPoison_wf (listOf_wf hu p _) (fun ⟨u, l⟩ hu => .ite (canonical_engFail hu _) ?_) ..
  refine orPoison_wf (elemRead_wf hu p.k p.ch t.f 0 t.f.count) (fun ⟨u, fv⟩ hu => ?_) ..
  have hpass := issuePasses_wf hu p x t fv
  dsimp -zeta only
  generalize issuePasses u p x t fv = r at *
  obtain ⟨hd, hstop⟩ := hpass
  have hbump : ∀ v, v.mem.wf → Canonical EngStop.Wf id (bumpVersion v p.k p.ch (recTidW x)) := fun v hv => bumpVersion_wf hv ..
  extract_lets flags finish crc y
  split
  next e he =>
    have he : e.Wf := hstop e he
    have hfinish : ∀ e, e.Wf → Canonical EngStop.Wf PEnd.s (finish e) := fun e he => poisonEnd_wf he ..
    clear_value finish
    refine .ite ?_ (hfinish e he)
    have hb := hbump e.s he
    split
    next hk => exact hfinish _ (hb.ok hk)
    next hk =>
      split
      · exact hb.error hk
      · exact hfinish _ (hb.error hk :)
  · refine orPoison_wf (f := Prod.fst) ?_ (fun ⟨y, z⟩ hy => ?_) ..
    · refine (hbump _ hd).bind fun _ hy => (engTensor_wf hy _ _ _).bind fun _ hy => (wordRead_wf hy p _).bind fun _ hy => hy
    · refine (recWrite_wf hy p p.ea _).bind fun _ hy => (wordWrite_wf hy p _ _).bind fun _ hy => ?_
      exact canonical_pure (by rwa [setOpen_mem])

theorem kover_wf {s : State} (w : s.mem.wf) (p : PCmd) (x flags state : Nat) : Canonical EngStop.Wf PEnd.s (kover s p x flags state) := by
  refine orPoison_wf (unlink_wf w p x) (fun u hu => ?_) ..
  exact (recWrite_wf hu p p.ea _).bind fun v hv => hv

theorem trainPass_wf {s : State} (w : s.mem.wf) (p : PCmd) (x : Nat) (t : PTensors) (fv ds : List Nat) : PassWf (trainPass s p x t fv ds) := by
  refine linePass_wf (fun u lo m hu => ?_) p t.p w _
  exact (elemRead_wf hu _ _ _ _ _).bind fun _ hv => hv

/-- A property that holds with any function in the place of one holds with that one; the kernel then does not unfold it. -/
theorem of_forall {β : Sort*} {P : β → Prop} (a : β) (h : ∀ b, P b) : P a := h a

theorem redeemEffect_wf {s : State} (w : s.mem.wf) (p : PCmd) (ntr : Bool) : Canonical EngStop.Wf PEnd.s (redeemEffect s p ntr) := by
  unfold redeemEffect
  induction agesOf using of_forall with | h ages
  refine (recRead_wf w p p.ea).bind fun ⟨u, x⟩ hu => ?_
  refine .ite (canonical_engFail hu _) (.ite (canonical_engFail hu _) (.ite (canonical_engFail hu _) ?_))
  refine orPoison_wf (promiseTensors_wf hu p x) (fun vt hv => ?_) ..
  split
  next v t =>
    split
    · exact kover_wf hv ..
    next k _ =>
      extract_lets fm flagsOf
      split
      next c h _ =>
        extract_lets finish
        split
        next d stop hd =>
          have hpass : PassWf (d, stop) := by
            rw [← hd]
            refine linePass_wf (fun a lo m ha => ?_) p t.w (d := ⟨v, [], false, false⟩) hv _
            refine (elemRead_wf ha _ _ _ _ _).bind fun _ hb => (elemRead_wf hb _ _ _ _ _).bind fun _ hc => ?_
            exact (elemRead_wf hc _ _ _ _ _).bind fun _ hd => hd
          obtain ⟨hwf, hstop⟩ := hpass
          split
          · exact poisonEnd_wf (hstop _ rfl) ..
          · have hfinish : ∀ u flags cause, u.mem.wf → Canonical EngStop.Wf PEnd.s (finish u flags cause) := fun u flags cause hu => by
              refine orPoison_wf (unlink_wf hu p x) (fun v hv => ?_) ..
              exact (recWrite_wf hv p p.ea _).bind fun z hz => hz
            clear_value finish
            refine .ite (hfinish _ _ _ hwf) (orPoison_wf (elemRead_wf hwf p.k p.ch t.f 0 t.f.count) (fun ⟨y, fv⟩ hy => .ite (hfinish _ _ _ hy) ?_) ..)
            have htrain := trainPass_wf hy p x t fv d.out
            split
            next d2 stop2 hd2 =>
              rw [hd2] at htrain
              obtain ⟨hwf2, hstop2⟩ := htrain
              split
              · exact poisonEnd_wf (hstop2 _ rfl) ..
              · exact hfinish _ _ _ hwf2

theorem expireEffect_wf {s : State} (w : s.mem.wf) (p : PCmd) (x : Nat) (swept : Bool) :
    Canonical EngStop.Wf PEnd.s (expireEffect s p x swept) := by
  unfold expireEffect
  induction agesOf using of_forall with | h ages
  extract_lets flags close
  have hclose : ∀ u y flags cause, u.mem.wf → Canonical EngStop.Wf PEnd.s (close u y flags cause) := fun u y flags cause hu => by
    refine orPoison_wf (unlink_wf hu p x) (fun v hv => ?_) ..
    exact (recWrite_wf hv p p.ea _).bind fun z hz => hz
  clear_value close
  refine .ite (hclose _ _ _ _ w) (.ite (hclose _ _ _ _ w) (orPoison_wf (promiseTensors_wf w p x) (fun ut hu => ?_) ..))
  split
  next u t =>
    split
    · exact kover_wf hu ..
    next k _ =>
      extract_lets fm
      split
      split
      next d stop hd =>
        have hpass : PassWf (d, stop) := by
          rw [← hd]
          refine linePass_wf (fun a lo m ha => ?_) p t.w (d := ⟨u, [], false, false⟩) hu _
          exact (elemRead_wf ha _ _ _ _ _).bind fun _ hb => (elemRead_wf hb _ _ _ _ _).bind fun _ hc => hc
        obtain ⟨hwf, hstop⟩ := hpass
        extract_lets nan
        split
        · exact poisonEnd_wf (hstop _ rfl) ..
        · exact hclose _ _ _ _ hwf

theorem pexpireEffect_wf {s : State} (w : s.mem.wf) (p : PCmd) : Canonical EngStop.Wf PEnd.s (pexpireEffect s p) := by
  refine (recRead_wf w p p.ea).bind fun ⟨u, x⟩ hu => .ite (.ite (canonical_pure hu) (canonical_engFail hu _)) ?_
  exact .ite (canonical_pure hu) (expireEffect_wf hu p x false)

theorem defineEffect_wf {s : State} (w : s.mem.wf) (p : PCmd) (t : Word) : Canonical EngStop.Wf PEnd.s (defineEffect s p t) := by
  refine .ite (canonical_engFail w _) ((engAddr_wf w _ _ _ _ _ _).bind fun _ hu => (engLoad_wf hu _ _ _ _ _).bind fun _ hu => ?_)
  refine (wordRead_wf hu p _).bind fun _ hu => .ite (canonical_engFail hu _) ((engAddr_wf hu _ _ _ _ _ _).bind fun _ hu => ?_)
  exact (engStore_wf hu _ _ _ _).bind fun _ hu => canonical_pure hu

/-- An effect of a promise command keeps the canonical form of memory. -/
def EffectWf (f : State → PCmd → Word → Nat → Nat → Nat → Eng PEnd) : Prop :=
  ∀ s p c ssn seq ctx, s.mem.wf → Canonical EngStop.Wf PEnd.s (f s p c ssn seq ctx)

theorem promiseCmd_wf {s : State} (w : s.mem.wf) {effect : Instr → Option (State → PCmd → Word → Nat → Nat → Nat → Eng PEnd)}
    (he : ∀ i, ∀ f ∈ effect i, EffectWf f) (k : Nat) (ch : Fin 8) : NextWf (promiseCmd s k ch effect) := by
  unfold promiseCmd
  split
  next r _ =>
    split
    next i ea c ssn seq ctx stamp _ =>
      split
      · exact w
      · split
        · exact w
        next f hf =>
          refine engStep_wf w _ (fun t ht => (he i f hf t _ c ssn seq ctx.val ht).bind fun d hd => ?_) fun e h => completeCmd_wf h ..
          exact .ite hd (completeCmd_wf hd ..)
    · exact w
  · exact w

theorem execTensorDefine_wf {s : State} (w : s.mem.wf) (k : Nat) (ch : Fin 8) : NextWf (execTensorDefine k ch s) := by
  refine promiseCmd_wf w (fun i f hf => ?_) k ch
  cases i <;> cases hf
  exact fun u p c _ _ _ hu => defineEffect_wf hu p c

theorem execPromiseIssue_wf {s : State} (w : s.mem.wf) (k : Nat) (ch : Fin 8) : NextWf (execPromiseIssue k ch s) := by
  refine promiseCmd_wf w (fun i f hf => ?_) k ch
  cases i <;> cases hf
  exact fun u p c ssn seq ctx hu => issueEffect_wf hu p _ ssn seq ctx

theorem execPromiseRedeem_wf {s : State} (w : s.mem.wf) (k : Nat) (ch : Fin 8) : NextWf (execPromiseRedeem k ch s) := by
  refine promiseCmd_wf w (fun i f hf => ?_) k ch
  cases i <;> cases hf
  exact fun u p _ _ _ _ hu => redeemEffect_wf hu p _

theorem execPromiseExpire_wf {s : State} (w : s.mem.wf) (k : Nat) (ch : Fin 8) : NextWf (execPromiseExpire k ch s) := by
  refine promiseCmd_wf w (fun i f hf => ?_) k ch
  cases i <;> cases hf
  exact fun u p _ _ _ _ hu => pexpireEffect_wf hu p

@[simp] theorem sweepCause_mem (s : State) (g by_ x : Nat) (ea : Word) (cause under stamp : Nat) :
    (sweepCause s g by_ x ea cause under stamp).mem = s.mem :=
  by grind [sweepCause, State.setChain_mem, State.setCtx_mem]

theorem sweepList_wf {s : State} (w : s.mem.wf) (g k : Nat) (ch : Fin 8) (ssn : Nat) (l : List (Word × Nat)) :
    (sweepList s g k ch ssn l).mem.wf := by
  refine wf_foldl _ (fun u y hu => ?_) _ w
  have hread := recRead_wf hu ⟨k, ch, y.1⟩ y.1
  have hend := fun (v : State) (x : Nat) (hv : v.mem.wf) => endOf_wf (expireEffect_wf hv ⟨k, ch, y.1⟩ x true)
  grind [Canonical, EngStop.Wf, sweepCause_mem]

theorem sweepBit_wf {s : State} (w : s.mem.wf) (g ssn stamp bit : Nat) : (sweepBit s g ssn stamp bit).mem.wf := by
  unfold sweepBit
  extract_lets k ch p ets _ u v
  have hv : v.mem.wf := by
    have hread := wordRead_wf (s := u) w p (headOf u p (bit % 4096))
    simp only [v]
    split
    next he => exact sweepList_wf (openListTo_wf (hread.ok he) p _ _ _) ..
    next he => exact hread.error he
  clear_value v
  exact hv

theorem sweep_wf {s : State} (w : s.mem.wf) (g ssn stamp : Nat) : Canonical EngStop.Wf id (sweep s g ssn stamp) := by
  refine (engOnce_wf w (canonical_pure w)).bind fun ⟨u, bits⟩ hu => .foldlM (fun v j hv => ?_) _ hu
  refine Canonical.map (f := Prod.fst) (engOnce_wf hv (engAlone_wf hv fun t ht => ?_)) fun _ hz => hz
  exact sweepBit_wf ht ..

theorem promiseForm_wf {s : State} (w : s.mem.wf) (i : Instr) (c5 : Bool) (d : Option (Fin 32)) (c : Opnd) (m : Mem) (n : Nat) (mode : Mode) :
    Canonical Stop.Wf id (promiseForm s i c5 d c m n mode) := by
  refine (checkMode_wf w i _ n mode).bind fun ⟨u, pa⟩ hu => .ite (canonical_raiseFrom hu ..) (.ite (canonical_stall hu _) ?_)
  refine (dispatchNow_wf hu i).bind fun _ _ => (asMessage_wf hu (fun t ht => ?_) (fun t a ht => ?_) _ _ _).bind fun x hx => dispatchNow_wf hx i
  · rwa [appendItem_mem]
  · grind [State.putS_mem]

theorem execTdef_wf {s : State} (w : s.mem.wf) (g : Guard) (c5 quiet : Bool) (d : Option (Fin 32)) (c : Opnd) (m : Mem) :
    NextWf (execTdef g c5 quiet d c m s) :=
  guarded_nextWf w (promiseForm_wf w ..) _ g

theorem execPissue_wf {s : State} (w : s.mem.wf) (g : Guard) (c5 quiet : Bool) (d : Option (Fin 32)) (c : Opnd) (m : Mem) :
    NextWf (execPissue g c5 quiet d c m s) :=
  guarded_nextWf w (promiseForm_wf w ..) _ g

theorem execPredeem_wf {s : State} (w : s.mem.wf) (g : Guard) (c5 ntr quiet : Bool) (d : Option (Fin 32)) (m : Mem) :
    NextWf (execPredeem g c5 ntr quiet d m s) :=
  guarded_nextWf w (promiseForm_wf w ..) _ g

theorem execPexpire_wf {s : State} (w : s.mem.wf) (g : Guard) (c5 quiet : Bool) (d : Option (Fin 32)) (m : Mem) :
    NextWf (execPexpire g c5 quiet d m s) :=
  guarded_nextWf w (promiseForm_wf w ..) _ g

theorem queryLoad_wf {s : State} (w : s.mem.wf) (i : Instr) (d : Fin 32) (ea : Word) (n : Nat) (f : Nat → Nat) :
    Canonical Stop.Wf id (queryLoad s i d ea n f) :=
  by grind [queryLoad, Canonical.bind, canonical_pure, grant_wf, State.putS_mem, countRemote_mem, loadMessage_wf, loadBytes_mem, answerS_mem]

theorem execTqry_wf {s : State} (w : s.mem.wf) (g : Guard) (fn : TqryFn) (d : Fin 32) (a : Opnd) : NextWf (execTqry g fn d a s) :=
  guarded_nextWf w (by grind [Canonical.bind, canonical_raise, dispatchNow_wf, queryLoad_wf]) _ g

theorem execPstat_wf {s : State} (w : s.mem.wf) (g : Guard) (d : Fin 32) (m : Mem) : NextWf (execPstat g d m s) :=
  guarded_nextWf w (by grind [Canonical.bind, dispatchNow_wf, queryLoad_wf]) _ g

theorem execTrap_wf {s : State} (w : s.mem.wf) (g : Guard) (code : BitVec 16) : NextWf (execTrap g code s) :=
  guarded_nextWf w (by grind [Canonical, trapAfter_wf]) _ g

theorem execDbrk_wf {s : State} (w : s.mem.wf) (g : Guard) (code : BitVec 16) : NextWf (execDbrk g code s) :=
  guarded_nextWf w (by grind [Canonical, trapAfter_wf]) _ g

theorem execRft_wf {s : State} (w : s.mem.wf) (g : Guard) : NextWf (execRft g s) := guarded_nextWf w (returnTrap_wf w ..) _ g

theorem execHalt_wf {s : State} (w : s.mem.wf) (g : Guard) : NextWf (execHalt g s) := guarded_nextWf w (by grind [Canonical, endContext_wf]) _ g

theorem specialForm_wf {s : State} (w : s.mem.wf) {body : Res State} (hb : Canonical Stop.Wf id body) (i : Instr) (num : Nat) :
    Canonical Stop.Wf id (specialForm s i num body) := by
  unfold specialForm
  split
  · exact canonical_raiseSlot s i _
  · exact .ite (canonical_stallOr w i _) hb

theorem execMfs_wf {s : State} (w : s.mem.wf) (g : Guard) (d : Fin 32) (num : BitVec 12) : NextWf (execMfs g d num s) :=
  guarded_nextWf w (specialForm_wf w (canonical_pure (by rwa [id, State.putS_mem])) _ _) _ g

theorem specialWrite_wf {s : State} (w : s.mem.wf) (i : Instr) (num : Nat) (v : Word) : Canonical Stop.Wf id (specialWrite s i num v) := by
  refine .ite (.ite (canonical_raiseOpen s _) (.ite (canonical_raiseOpen s _) w)) ?_
  split
  · exact w
  · exact .ite (canonical_raise _ _ _) w
  · exact canonical_pure (by grind [State.updCore_mem])
  · exact w
  · exact w
  · exact w
  · exact w
  · exact w
  · exact w
  · exact w
  · exact w
  · exact w

theorem execMts_wf {s : State} (w : s.mem.wf) (g : Guard) (a : Fin 32) (num : BitVec 12) : NextWf (execMts g a num s) :=
  guarded_nextWf w (specialForm_wf w (specialWrite_wf w ..) _ _) _ g

theorem execRdring_wf {s : State} (w : s.mem.wf) (g : Guard) (dw : Fin 8) (d : Fin 32) (a : Opnd) : NextWf (execRdring g dw d a s) :=
  guarded_nextWf w (by grind [Canonical, State.putS_mem]) _ g

@[simp] theorem clearCounter_mem (s : State) (n : Nat) : (clearCounter s n).mem = s.mem := by unfold clearCounter; split <;> simp

theorem execPcnt_wf {s : State} (w : s.mem.wf) (g : Guard) (d : Fin 32) (ctr : BitVec 8) (clear : Bool) : NextWf (execPcnt g d ctr clear s) := by
  refine guarded_nextWf w (.ite (canonical_raiseSlot s _ _) (canonical_pure ?_)) _ g
  grind [clearCounter_mem, State.putS_mem]

theorem execSave_wf {s : State} (w : s.mem.wf) (g : Guard) (m : Mem) : NextWf (execSave g m s) := by
  refine guarded_nextWf w ((checkRows_wf w _ .write _).bind fun ⟨u, ps⟩ hu => ?_) _ g
  refine Canonical.unit (s := u) (rowsReady_wf hu _ .write ps) ?_
  exact (overRows_wf hu (fun t pa r ht => storeAt_wf ht pa _) _ .write 24 ps 0).bind fun ⟨v, rows⟩ hv => hv

theorem execSnap_wf {s : State} (w : s.mem.wf) (g : Guard) : NextWf (execSnap g s) := by
  refine guarded_nextWf w (canonical_pure ?_) _ g
  grind [wf_foldl, shadowLine_wf, State.updCore_mem]

theorem execSeed_wf {s : State} (w : s.mem.wf) (g : Guard) (a : Fin 32) : NextWf (execSeed g a s) :=
  guarded_nextWf w (by grind [Canonical, startFlush_mem]) _ g

@[simp] theorem dropTranslations_mem (s : State) (g : Gang) (drop : TlbEntry → Bool) : (dropTranslations s g drop).mem = s.mem := rfl

theorem execXinv_wf {s : State} (w : s.mem.wf) (g : Guard) (all : Bool) (m : Mem) : NextWf (execXinv g all m s) := by
  refine guarded_nextWf w (.ite (canonical_raiseSlot s _ _) (.ite (canonical_raise _ _ _) ?_)) _ g
  exact asMessage_wf w (fun t ht => by rwa [dropTranslations_mem]) (fun t a ht => by rwa [State.upd_mem]) _ _ _

@[simp] theorem switchRequest_mem (s : State) (fn : GswFn) (g t : Nat) : (switchRequest s fn g t).1.mem = s.mem := by
  cases fn <;> grind [switchRequest, State.setGang_mem]

theorem execGswitch_wf {s : State} (w : s.mem.wf) (g : Guard) (fn : GswFn) (d : Option (Fin 32)) (a b : Fin 32) :
    NextWf (execGswitch g fn d a b s) := by
  refine guarded_nextWf w (.ite (canonical_raiseSlot s _ _) ?_) _ g
  refine asMessage_wf w (fun t ht => ?_) (fun t a ht => ?_) _ _ _
  · rwa [switchRequest_mem]
  · grind [sendAnswer_mem]

end Sys2Proof.Machine
end

section
/-! PROOFS. The steps of the cores' units and of the homes, and the prism forms, keep the canonical form of memory (R127, R238, R252 to R264). -/
namespace Sys2Proof.Machine

theorem execUnassignedOpcode_wf {s : State} (w : s.mem.wf) (x : Slot) : NextWf (execUnassignedOpcode x s) :=
  finish_nextWf w (canonical_raiseSlot s _ _)

theorem execQuantumExpiry_wf {s : State} (w : s.mem.wf) (k : Nat) : NextWf (execQuantumExpiry k s) :=
  by grind [execQuantumExpiry, NextWf, selectCtx_mem]

theorem execRemoteAnswer_wf {s : State} (w : s.mem.wf) (k i : Nat) : NextWf (execRemoteAnswer k i s) :=
  by grind [execRemoteAnswer, NextWf, State.setCore_mem, lateAnswer_mem, State.flagAt_mem]

theorem execWriteBack_wf {s : State} (w : s.mem.wf) (line : Nat) : NextWf (execWriteBack line s) := by grind [execWriteBack, NextWf, writeBackLine_wf]

theorem execXinvAcknowledged_wf {s : State} (w : s.mem.wf) (k : Nat) (c : Fin 4) : NextWf (execXinvAcknowledged k c s) :=
  by grind [execXinvAcknowledged, NextWf, State.setCtx_mem]

theorem acceptAcc_wf {s : State} (w : s.mem.wf) (m : AccMsg) : (acceptAcc s m).1.mem.wf := by simp [acceptAcc, w, State.setLine_mem, putBytes_wf]

@[simp] theorem putAcc_mem (s : State) (i : Nat) (m : AccMsg) : (putAcc s i m).mem = s.mem := rfl

@[simp] theorem dropAcc_mem (s : State) (i : Nat) : (dropAcc s i).mem = s.mem := rfl

theorem execAccumulateArrival_wf {s : State} (w : s.mem.wf) (i : Nat) : NextWf (execAccumulateArrival i s) :=
  by grind [execAccumulateArrival, NextWf, dropAcc_mem, tryFlushes_mem, sendWaiting_mem, refuseAt_mem, rollWindow_mem, State.setSlice_mem,
    putAcc_mem, homeRead_mem, State.setGang_mem, acceptAcc_wf]

theorem execAccumulateWindowEnd_wf {s : State} (w : s.mem.wf) (slice : Nat) : NextWf (execAccumulateWindowEnd slice s) :=
  by grind [execAccumulateWindowEnd, NextWf, rollWindow_mem]

@[simp] theorem acceptAnswer_mem (s : State) (k i : Nat) (insistent : Bool) : (acceptAnswer s k i insistent).mem = s.mem :=
  by grind [acceptAnswer, State.setCtx_mem, dropAcc_mem, tryFlushes_mem, sendWaiting_mem, State.setCore_mem]

theorem execAcceptanceAnswer_wf {s : State} (w : s.mem.wf) (k i : Nat) : NextWf (execAcceptanceAnswer k i s) :=
  by grind [execAcceptanceAnswer, NextWf, acceptAnswer_mem]

theorem execInsistentAck_wf {s : State} (w : s.mem.wf) (k i : Nat) : NextWf (execInsistentAck k i s) :=
  by grind [execInsistentAck, NextWf, acceptAnswer_mem]

@[simp] theorem sendNow_mem (s : State) (k : Nat) (e : Residual) (src : Nat) : (sendNow s k e src).mem = s.mem := by unfold sendNow; split <;> simp

@[simp] theorem intoResidual_mem (s : State) (k : Nat) (m : AccMsg) : (intoResidual s k m).1.mem = s.mem :=
  by grind [intoResidual, State.setCore_mem, sendNow_mem]

theorem execRefusalReturn_wf {s : State} (w : s.mem.wf) (k i : Nat) : NextWf (execRefusalReturn k i s) :=
  by grind [execRefusalReturn, NextWf, dropAcc_mem, State.setCore_mem, intoResidual_mem, sendAs_mem, tryFlushes_mem]

theorem execResidualAgeExpiry_wf {s : State} (w : s.mem.wf) (k : Nat) : NextWf (execResidualAgeExpiry k s) :=
  by grind [execResidualAgeExpiry, NextWf, sendInsistent_mem, wf_foldl]

@[simp] theorem joinAll_mem (s : State) (a : After) (keys : List Nat) : (joinAll s a keys).mem = s.mem :=
  by grind [joinAll, State.setCtx_mem, mem_foldl]

theorem execBarrierComplete_wf {s : State} (w : s.mem.wf) (k : Nat) (scope : Fin 8) : NextWf (execBarrierComplete k scope s) :=
  by grind [execBarrierComplete, NextWf, joinAll_mem, joinPts_mem, releaseWaits_mem, refetch_mem]

@[simp] theorem setFifo_mem (s : State) (g q p : Nat) (l : List TqEntry) : (setFifo s g q p l).mem = s.mem := rfl

theorem popFault_wf {s : State} (w : s.mem.wf) (key cause : Nat) (a b : Word) : (popFault s key cause a b).mem.wf :=
  by simp [popFault, w, enterTrap_wf, State.setCtx_mem]

theorem startTask_wf {s : State} (w : s.mem.wf) (key : Nat) (code frame handle shown : Word) (packet : Option Packet) (prio stamp : Nat) :
    (startTask s key code frame handle shown packet prio stamp).mem.wf :=
  by grind [startTask, State.setCtx_mem, popFault_wf]

theorem startCont_wf {s : State} (w : s.mem.wf) (key : Nat) (c : Cont) (stamp : Nat) : (startCont s key c stamp).mem.wf :=
  by grind [startCont, State.setCtx_mem, popFault_wf]

/-- Memory is canonical in the state that the dispatcher's read of a packet leaves. -/
def PopRead.Wf : PopRead → Prop
  | .bytes s _ => s.mem.wf
  | .cause s _ => s.mem.wf
  | .held s => s.mem.wf

theorem readPacket_wf {s : State} (w : s.mem.wf) (handle : Word) : (readPacket s handle).Wf := by
  have hread := readWhole_wf (s := s.updCore fun c => { c with phase := none }) w .nop handle
  unfold readPacket
  extract_lets back
  split
  next he => exact (hread.ok he :)
  next he => exact (hread.ok he :)
  next he => exact w
  next he => exact (hread.error he :)
  next he => exact (hread.error he :)

theorem execTaskPop_wf {s : State} (w : s.mem.wf) (k : Nat) (c : Fin 4) : NextWf (execTaskPop k c s) := by
  unfold execTaskPop
  split
  · exact w
  · split
    · exact w
    next q p e rest _ =>
      extract_lets g key popped
      have hpopped : ∀ t, t.mem.wf → (popped t).mem.wf := fun t ht => by
        simp only [popped]
        rwa [setFifo_mem]
      clear_value popped
      have hread := readPacket_wf (s := { s with cur := key }) w e.handle
      split
      · exact startCont_wf (hpopped s w) ..
      · split
        next he => grind [PopRead.Wf, NextWf, State.setCtx_mem]
        next t cause he =>
          rw [he] at hread
          exact popFault_wf (hpopped { t with cur := s.cur } hread) ..
        next t bs he =>
          rw [he] at hread
          have ht : (popped { t with cur := s.cur }).mem.wf := hpopped _ hread
          dsimp only
          split
          · exact popFault_wf ht ..
          · have hstart := startTask_wf ht
            grind [NextWf, State.setCtx_mem]

theorem execTaskAging_wf {s : State} (w : s.mem.wf) (gang queue : Nat) (prio : Fin 4) : NextWf (execTaskAging gang queue prio s) :=
  by grind [execTaskAging, NextWf, setFifo_mem]

theorem execQueueSlotResume_wf {s : State} (w : s.mem.wf) (k : Nat) (c : Fin 4) : NextWf (execQueueSlotResume k c s) :=
  by grind [execQueueSlotResume, NextWf, State.setCtx_mem, walkList_mem]

theorem execWaitLimitExpiry_wf {s : State} (w : s.mem.wf) (k : Nat) (c : Fin 4) : NextWf (execWaitLimitExpiry k c s) :=
  by grind [execWaitLimitExpiry, NextWf, enterTrap_wf]

theorem execWaiteReport_wf {s : State} (w : s.mem.wf) (k : Nat) (c : Fin 4) : NextWf (execWaiteReport k c s) :=
  by grind [execWaiteReport, NextWf, State.setCtx_mem]

theorem execQueueRetry_wf {s : State} (w : s.mem.wf) (k : Nat) (c : Fin 4) : NextWf (execQueueRetry k c s) :=
  by grind [execQueueRetry, NextWf, State.setCtx_mem]

theorem execClaimHandover_wf {s : State} (w : s.mem.wf) (k : Nat) : NextWf (execClaimHandover k s) :=
  by grind [execClaimHandover, NextWf, passClaim_mem, takeClaim_mem, State.setCtx_mem]

theorem execFollowerMarker_wf {s : State} (w : s.mem.wf) (k : Nat) : NextWf (execFollowerMarker k s) :=
  by grind [execFollowerMarker, NextWf, detach_mem, State.setCore_mem, forwardTo_mem, State.setCtx_mem]

theorem execForwardedGroup_wf {s : State} (w : s.mem.wf) (k : Nat) : NextWf (execForwardedGroup k s) := by
  have hprep := prepare_wf w (4 * k + (s.getCore k).running.val)
  grind [execForwardedGroup, NextWf, Prep.Wf]

theorem execImpreciseFaultDelivery_wf {s : State} (w : s.mem.wf) (k : Nat) (c : Fin 4) : NextWf (execImpreciseFaultDelivery k c s) :=
  by grind [execImpreciseFaultDelivery, NextWf, deliverFault_wf]

theorem execEngineErrorDelivery_wf {s : State} (w : s.mem.wf) (k : Nat) (c : Fin 4) : NextWf (execEngineErrorDelivery k c s) :=
  by grind [execEngineErrorDelivery, NextWf, deliverError_wf]

theorem execPairedCopyStart_wf {s : State} (w : s.mem.wf) : NextWf (execPairedCopyStart s) := by grind [execPairedCopyStart, NextWf, State.setCtx_mem]

theorem mismatch_wf {s : State} (w : s.mem.wf) (pid : Nat) (p : Pair) : (mismatch s pid p).mem.wf :=
  by grind [mismatch, endContext_wf, enqueue_mem, enterTrap_wf, State.setCtx_mem]

theorem execPairedMessageCompare_wf {s : State} (w : s.mem.wf) : NextWf (execPairedMessageCompare s) :=
  by grind [execPairedMessageCompare, NextWf, State.setCtx_mem, mismatch_wf]

theorem execPairedMismatchTimeout_wf {s : State} (w : s.mem.wf) : NextWf (execPairedMismatchTimeout s) :=
  by grind [execPairedMismatchTimeout, NextWf, mismatch_wf]

@[simp] theorem putBits_mem (s : State) (n : Fin 8) (x : Nat) : (putBits s n x).mem = s.mem := rfl

@[simp] theorem putCounts_mem (s : State) (d : Fin 32) (f : Nat → Nat) : (putCounts s d f).mem = s.mem := rfl

theorem bitTransfer_wf {s : State} (w : s.mem.wf) (ea : Word) (d : Fin 8) (store : Bool) : (bitTransfer s ea d store).Wf := by
  unfold bitTransfer
  split
  · exact w
  · extract_lets m
    have hcheck := checkPieces_wf w 0x38 m 64 (cutLines 10 ea 512)
    split
    next he => exact hcheck.error he
    next u ps he =>
      have hready := piecesReady_wf (hcheck.ok he) m ps
      split
      next he => exact hready.error he
      next v he =>
        have hv : v.mem.wf := hready.ok he
        have hwrite := writePieces_wf hv 0x38 ps (Bits.bytesLE 512 (bitTile v d))
        have hread := readPieces_wf hv 0x38 ps []
        split
        · split
          next he => exact hwrite.error he
          next he => exact hwrite.ok he
        · split
          next he => exact hread.error he
          next he => exact (hread.ok he :)

theorem runPrism_wf {s : State} (w : s.mem.wf) (f : ArrayForm) : (runPrism s f).Wf := by
  unfold runPrism
  split
  · exact w
  · exact w
  · exact w
  · exact w
  · exact w
  · exact w
  · exact w
  · exact w
  · exact bitTransfer_wf w ..
  · exact bitTransfer_wf w ..
  · exact w
  · exact w
  · exact w

theorem runArray_wf {s : State} (w : s.mem.wf) (f : ArrayForm) (e : RingEntry) : (runArray s f e).Wf := by
  unfold runArray
  split
  · exact runPrism_wf w f
  · exact runMatrix_wf w f e

theorem prismForm_nextWf {s : State} (w : s.mem.wf) (i : Instr) (g : Guard) (word : Word) : NextWf (prismForm s i g word) :=
  guardedShape_nextWf w (.ite (canonical_raiseSlot s _ _) (arrayIssue_wf w (fun _ f e ht => runArray_wf ht f e) ..)) i g

theorem execArrayFormStart_wf {s : State} (w : s.mem.wf) (k : Nat) : NextWf (execArrayFormStart k s) := by
  unfold execArrayFormStart
  extract_lets c
  split
  · exact w
  next f rest _ =>
    split
    · exact w
    · extract_lets e key t
      have ht : t.mem.wf := w
      have hrun := finishArray_wf (runArray_wf ht f e) f
      split
      next he => grind [NextWf, Canonical, closeScript_mem, popArray_mem]
      next he => grind [NextWf, Canonical, Stop.Wf, closeScript_mem, State.setCtx_mem, State.setCore_mem]
      · exact w

end Sys2Proof.Machine
end

section
/-! PROOFS. Command streams, launches and the end of a gang keep the canonical form of memory (R169 to R176, R195, R324 to R326, R347). -/
namespace Sys2Proof.Machine

theorem execControlRegisterWrite_wf {s : State} (w : s.mem.wf) (pa : Nat) (v : Word) : NextWf (execControlRegisterWrite pa v s) :=
  by grind [execControlRegisterWrite, NextWf, ctrlWrite_mem]

theorem execEinjArm_wf {s : State} (w : s.mem.wf) (pkg : Nat) (die : Fin 8) (v : Word) : NextWf (execEinjArm pkg die v s) := by
  unfold execEinjArm
  dsimp only
  split
  · show (ctrlWrite s _ v).mem.wf
    rwa [ctrlWrite_mem]
  · exact w

@[simp] theorem feSet_mem (s : State) (id off v : Nat) : (feSet s id off v).mem = s.mem := rfl

theorem execCsctlClr_wf {s : State} (w : s.mem.wf) : NextWf (execCsctlClr s) := by grind [execCsctlClr, NextWf, clearStop_mem]

@[simp] theorem feStop_mem (s : State) (id cause : Nat) : (feStop s id cause).mem = s.mem := rfl

@[simp] theorem feAdvance_mem (s : State) (id len : Nat) : (feAdvance s id len).mem = s.mem := rfl

theorem feStore_wf {s : State} (w : s.mem.wf) (id pa : Nat) (bs : List Byte) : (feStore s id pa bs).mem.wf := by
  rw [feStore_mem]
  exact Memory.wf_writeBytes w pa bs

/-- Memory is canonical in the state that a front end's read of a packet leaves. -/
def StreamRead.Wf : StreamRead → Prop
  | .idle => True
  | .bad s _ => s.mem.wf
  | .packet s _ => s.mem.wf

theorem readStream_wf {s : State} (w : s.mem.wf) (id : Nat) : (readStream s id).Wf := by
  unfold readStream
  split
  · trivial
  · extract_lets len addrs lines t
    have ht : t.mem.wf := by
      simp only [t]
      rwa [feLoads_mem]
    clear_value t addrs
    split
    · exact w
    · split
      · exact ht
      · split
        · exact ht
        · split
          · exact ht
          · exact ht

theorem streamStep_wf {s : State} (w : s.mem.wf) (mine : Nat → Bool) {effect : State → Nat → List Byte → State}
    (he : ∀ t id bs, t.mem.wf → (effect t id bs).mem.wf) : NextWf (streamStep s mine effect) := by
  have hread := readStream_wf w s.subject
  unfold streamStep
  dsimp only
  split
  · exact w
  · split
    next => exact w
    next h =>
      rw [h] at hread
      show (feStop _ _ _).mem.wf
      rwa [feStop_mem]
    next h =>
      rw [h] at hread
      exact he _ _ _ hread

theorem execStreamNop_wf {s : State} (w : s.mem.wf) : NextWf (execStreamNop s) :=
  streamStep_wf w _ fun t id bs ht => by rwa [feAdvance_mem]

theorem execStreamLaunch_wf {s : State} (w : s.mem.wf) : NextWf (execStreamLaunch s) :=
  streamStep_wf w _ fun _ _ _ ht => ht

@[simp] theorem waitsRead_mem (s : State) (id : Nat) (bs : List Byte) : (waitsRead s id bs).mem = s.mem :=
  by grind [waitsRead, feStop_mem, homeRead_mem, feAdvance_mem, feLoads_mem, feSet_mem]

theorem execWaits_wf {s : State} (w : s.mem.wf) : NextWf (execWaits s) := by
  unfold execWaits
  split
  · exact w
  · exact streamStep_wf w _ fun t id bs ht => by rwa [waitsRead_mem]

theorem execWaitsSatisfied_wf {s : State} (w : s.mem.wf) : NextWf (execWaitsSatisfied s) := by
  unfold execWaitsSatisfied
  split
  · exact streamStep_wf w _ fun t id bs ht => by rwa [waitsRead_mem]
  · exact w

theorem execStreamSignal_wf {s : State} (w : s.mem.wf) : NextWf (execStreamSignal s) :=
  streamStep_wf w _ fun t id bs ht => by grind [feStop_mem, feAdvance_mem, homeRead_mem, feStore_wf]

theorem execGstamp_wf {s : State} (w : s.mem.wf) : NextWf (execGstamp s) :=
  streamStep_wf w _ fun t id bs ht => by grind [feStop_mem, feAdvance_mem, feStore_wf]

@[simp] theorem prepareCore_mem (s : State) (r : LaunchRec) (id : Nat) (entries : List (Nat × List Nat)) (k : Nat × List Nat) :
    (prepareCore s r id entries k).mem = s.mem :=
  rfl

@[simp] theorem freshLines_mem (s : State) (id : Nat) (ks : List Nat) : (freshLines s id ks).mem = s.mem := rfl

theorem acceptGang_wf {s : State} (w : s.mem.wf) (r : LaunchRec) (id : Nat) (sup : Bool) (bases : List Nat) (completion :
    Option (Nat × Word)) : (acceptGang s r id sup bases completion).mem.wf :=
  by grind [acceptGang, State.setGang_mem, freshLines_mem, prepareCore_mem, writeSlot_wf, wf_foldl]

@[simp] theorem launchAnswer_mem (s : State) (gang key : Nat) (d : Fin 32) (v : Word) : (launchAnswer s gang key d v).mem = s.mem :=
  by simp [launchAnswer]

@[simp] theorem launchAnswers_mem (s : State) (l : Launch) (v : Word) : (launchAnswers s l v).mem = s.mem :=
  by grind [launchAnswers, launchAnswer_mem, mem_foldl]

@[simp] theorem refuseLaunch_mem (s : State) (i : Nat) (l : Launch) (cause : Nat) : (refuseLaunch s i l cause).mem = s.mem :=
  by unfold refuseLaunch; split <;> simp

theorem acceptLaunch_wf {s : State} (w : s.mem.wf) (i : Nat) (l : Launch) (r : LaunchRec) (id : Nat) (bases : List Nat) :
    (acceptLaunch s i l r id bases).mem.wf :=
  by grind [acceptLaunch, acceptGang_wf, feAdvance_mem, launchAnswers_mem]

@[simp] theorem readRecord_mem (s : State) (l : Launch) : (readRecord s l).mem = s.mem :=
  by grind [readRecord, feLoads_mem, loadHome_mem, homeRead_mem, State.setCtx_mem, mem_foldl]

theorem execLaunchAccept_wf {s : State} (w : s.mem.wf) : NextWf (execLaunchAccept s) :=
  by grind [execLaunchAccept, NextWf, readRecord_mem, refuseLaunch_mem, acceptLaunch_wf]

theorem storeCompletion_wf {s : State} (w : s.mem.wf) (g : Nat) (v : Option Word) : (storeCompletion s g v).mem.wf :=
  by grind [storeCompletion, storeHome_mem, ctrlWrite_mem, putBytes_wf]

theorem flushImage_wf {s : State} (w : s.mem.wf) (g : Nat) (i : CoreImage) : (flushImage s g i).mem.wf :=
  by grind [flushImage, recordFault_wf, wf_foldl]

theorem flushGang_wf {s : State} (w : s.mem.wf) (g : Nat) : (flushGang s g).mem.wf := by grind [flushGang, flushImage_wf, flushFaults_wf, wf_foldl]

@[simp] theorem freeCores_mem (s : State) (g : Nat) : (freeCores s g).mem = s.mem := by grind [freeCores, State.setCore_mem, mem_foldl]

theorem releaseKept_wf {s : State} (w : s.mem.wf) (g n : Nat) : Canonical EngStop.Wf id (releaseKept g n s) := by
  induction n generalizing s with
  | zero => exact w
  | succ n ih =>
    unfold releaseKept
    dsimp only
    split
    · exact ih w
    · refine .ite w (ih ?_)
      exact releaseStore_wf (by rwa [spend_mem, State.setGang_mem]) _

theorem releaseAll_wf {s : State} (w : s.mem.wf) (g : Nat) : (releaseAll s g).mem.wf := by
  have hkept := releaseKept_wf (s := { s with steps := none }) w g (s.getGang g).kept.length
  grind [releaseAll, Canonical, EngStop.Wf]

@[simp] theorem dropWork_mem (s : State) (g : Nat) : (dropWork s g).mem = s.mem := rfl

theorem execGangComplete_wf {s : State} (w : s.mem.wf) : NextWf (execGangComplete s) := by
  unfold execGangComplete
  dsimp only
  split
  · exact w
  · have hstore := storeCompletion_wf (releaseAll_wf w s.subject) s.subject none
    show (State.setGang _ _ _).mem.wf
    rw [State.setGang_mem, freeCores_mem, dropWork_mem]
    exact flushGang_wf hstore _

theorem endGang_wf {s : State} (w : s.mem.wf) (g cause : Nat) : (endGang s g cause).mem.wf :=
  by grind [endGang, storeCompletion_wf, State.setCtx_mem, freeCores_mem, dropWork_mem, flushGang_wf, State.setGang_mem, wf_foldl]

end Sys2Proof.Machine
end

section
/-! PROOFS. Commits, rollbacks, lost packages, gang switches and the service cores keep the canonical form of memory (R187, R339 to R357). -/
namespace Sys2Proof.Machine

theorem dueTrap_wf {s : State} (w : s.mem.wf) (key : Nat) : (dueTrap s key).mem.wf := by
  unfold dueTrap
  dsimp only
  split
  · cases h : pendingTrap { s with cur := key } key with
    | none => exact w
    | some t => exact pendingTrap_wf (s := { s with cur := key }) w h
  · exact w

@[simp] theorem closeCapture_mem (s : State) (key : Nat) : (closeCapture s key).mem = s.mem := by unfold closeCapture; split <;> simp

@[simp] theorem endFollowing_mem (s : State) (key : Nat) : (endFollowing s key).mem = s.mem := by unfold endFollowing; split <;> simp

theorem drainArray_wf (fuel : Nat) {s : State} (w : s.mem.wf) (k : Nat) : (drainArray fuel s k).mem.wf := by
  induction fuel generalizing s with
  | zero => exact w
  | succ fuel ih =>
    have hstart := execArrayFormStart_wf w k
    unfold drainArray
    split
    next h =>
      rw [h] at hstart
      split
      · exact ih hstart
      · exact w
    · exact w

@[simp] theorem drainRing_mem (s : State) (k : Nat) : (drainRing s k).mem = s.mem :=
  by grind [drainRing, completeEntry_mem, State.setCore_mem, passClaim_mem, mem_foldl]

theorem stopCore_wf {s : State} (w : s.mem.wf) (k : Nat) : (stopCore s k).mem.wf := by
  have hdue := wf_foldl (fun t key => dueTrap t key) (fun t key ht => dueTrap_wf ht key) [4 * k, 4 * k + 1, 4 * k + 2, 4 * k + 3] w
  unfold stopCore
  simp only [sendResidual_mem, drainRing_mem]
  refine drainArray_wf 64 ?_ k
  rwa [mem_foldl _ endFollowing_mem, mem_foldl _ closeCapture_mem]

theorem stopGang_wf {s : State} (w : s.mem.wf) (g : Nat) : (stopGang s g).mem.wf :=
  wf_foldl _ (fun _ k ht => stopCore_wf ht k) _ w

theorem writeImages_wf {s : State} (w : s.mem.wf) (g : Nat) : (writeImages s g).mem.wf := by simp [writeImages, w, writeSlot_wf, State.setGang_mem]

@[simp] theorem restartLog_mem (s : State) (g : Nat) : (restartLog s g).mem = s.mem := rfl

theorem beginCommit_wf {s : State} (w : s.mem.wf) (g : Nat) : (beginCommit s g).mem.wf := by
  unfold beginCommit
  extract_lets x keys joining joined stopped noted imaged
  have hstop : stopped.mem.wf := stopGang_wf (by simpa [joined, releaseWaits_mem] using w) g
  rw [State.setGang_mem]
  refine writeImages_wf ?_ g
  simp only [noted]
  rwa [mem_foldl _ (fun t k => State.setCore_mem t k _)]

theorem execSeedComplete_wf {s : State} (w : s.mem.wf) : NextWf (execSeedComplete s) :=
  by grind [execSeedComplete, NextWf, enterTrap_wf, releaseWaits_mem, joinPts_mem, writeBackLine_wf, State.setGang_mem, wf_foldl]

@[simp] theorem restoreCtx_mem (s : State) (r : Restore) (key : Nat) (c : Ctx) : (restoreCtx s r key c).mem = s.mem := rfl

theorem restoreCore_wf {s : State} (w : s.mem.wf) (r : Restore) (img : CoreImage) : (restoreCore s r img).mem.wf :=
  by grind [restoreCore, State.setCore_mem, State.setQuad_mem, restorePad_wf, restoreCtx_mem, wf_foldl]

theorem machineCheck_wf {s : State} (w : s.mem.wf) (g cause key : Nat) : (machineCheck s g cause key).mem.wf :=
  by simp [machineCheck, w, recordFault_wf]

theorem endByCheck_wf {s : State} (w : s.mem.wf) (g cause : Nat) : (endByCheck s g cause).mem.wf :=
  by simp [endByCheck, w, endGang_wf, machineCheck_wf]

@[simp] theorem rereadWatch_mem (s : State) (key : Nat) : (rereadWatch s key).mem = s.mem := by grind [rereadWatch, State.setLine_mem]

@[simp] theorem rereadWatches_mem (s : State) (g : Nat) : (rereadWatches s g).mem = s.mem := by grind [rereadWatches, rereadWatch_mem, mem_foldl]

theorem restoreGang_wf {s : State} (w : s.mem.wf) (g : Nat) : (restoreGang s g).mem.wf :=
  by grind [restoreGang, writeLogBack_wf, dropWork_mem, restoreCore_wf, State.setCore_mem, State.setGang_mem, rereadWatches_mem, wf_foldl]

theorem rollback_wf {s : State} (w : s.mem.wf) (g : Nat) (cause : Option Nat) (key : Nat) (line : Option Nat) :
    (rollback s g cause key line).mem.wf := by
  unfold rollback
  dsimp only
  split
  · exact endGang_wf (machineCheck_wf w g 0x72 key) g 0x72
  · cases cause with
    | none => exact restoreGang_wf w g
    | some c => exact machineCheck_wf (restoreGang_wf w g) g c key

theorem rollbackAll_wf {s : State} (w : s.mem.wf) (p : Nat → Bool) (cause : Option Nat) : (rollbackAll s p cause).mem.wf := by
  refine wf_foldl _ (fun t g ht => ?_) _ w
  dsimp only
  split
  · exact rollback_wf ht g cause _ none
  · rwa [State.setGang_mem]

theorem execPoisonConsumed_wf {s : State} (w : s.mem.wf) : NextWf (execPoisonConsumed s) := by
  unfold execPoisonConsumed
  split
  · exact w
  · split
    · exact w
    · exact rollback_wf w _ _ _ _

theorem execStopTimeout_wf {s : State} (w : s.mem.wf) : NextWf (execStopTimeout s) := by grind [execStopTimeout, NextWf, endByCheck_wf]

theorem execInternalMachineCheck_wf {s : State} (w : s.mem.wf) : NextWf (execInternalMachineCheck s) :=
  by grind [execInternalMachineCheck, NextWf, endByCheck_wf]

theorem execPowerThermalLimit_wf {s : State} (w : s.mem.wf) : NextWf (execPowerThermalLimit s) :=
  by grind [execPowerThermalLimit, NextWf, State.setPkg_mem, machineCheck_wf, wf_foldl]

theorem execPermitAudit_wf {s : State} (w : s.mem.wf) (pkg : Nat) (die : Fin 8) (mismatch : Bool) : NextWf (execPermitAudit pkg die mismatch s) := by
  unfold execPermitAudit
  dsimp only
  split
  · exact w
  · split
    · exact rollbackAll_wf (s := s.setPkg pkg _) w _ _
    · exact w

theorem execHbmChannelRetire_wf {s : State} (w : s.mem.wf) (pkg : Nat) (stack : Fin 8) (channel : Fin 32) :
    NextWf (execHbmChannelRetire pkg stack channel s) :=
  rollbackAll_wf (s := s.setPkg pkg _) w _ _

theorem loseDie_wf {s : State} (w : s.mem.wf) (pkg die : Nat) (cause : Option Nat) : (loseDie s pkg die cause).mem.wf := by
  unfold loseDie
  dsimp only
  split
  · exact wf_foldl _ (fun _ g ht => endByCheck_wf ht g 0x71) _ w
  · exact rollbackAll_wf (s := s.setPkg pkg _) w _ _

theorem execDieLoss_wf {s : State} (w : s.mem.wf) (pkg : Nat) (die : Fin 8) : NextWf (execDieLoss pkg die s) :=
  loseDie_wf w pkg die.val none

theorem execRowFailure_wf {s : State} (w : s.mem.wf) (pkg : Nat) (die : Fin 8) (row : Fin 17) : NextWf (execRowFailure pkg die row s) := by
  unfold execRowFailure
  dsimp only
  split
  · exact w
  · split
    · exact loseDie_wf w pkg die.val _
    · show State.mem (ite _ _ _) |>.wf
      split
      · exact w
      · exact rollbackAll_wf (s := s.setPkg pkg _) w _ _

theorem nextWf_foldl {α : Type} (f : State → α → State) (hf : ∀ s x, NextWf (.next s) → NextWf (.next (f s x))) (xs : List α) {s : State}
    (w : NextWf (.next s)) : NextWf (.next (xs.foldl f s)) :=
  wf_foldl f hf xs w

theorem foldl_ctrlSet_mem (p : State → Nat → Bool) (pa : Nat → Nat) (v : State → Nat → Word) (xs : List Nat) (s : State) :
    (xs.foldl (fun s i => if p s i then ctrlSet s (pa i) (v s i) else s) s).mem = s.mem := by
  refine mem_foldl _ (fun t i => ?_) xs s
  split
  · rw [ctrlSet_mem]
  · rfl

theorem takeStandby_eq (s : State) (pkg q : Nat) : takeStandby s pkg q = (List.range 64).foldl (fun s i =>
    if (ctrlRaw s (blockPa pkg .package (0x800 + 8 * i))).getLsbD 12 && (ctrlRaw s (blockPa pkg .package (0x800 + 8 * i))).toNat % 4096 = q
    then ctrlSet s (blockPa pkg .package (0x800 + 8 * i)) (ctrlRaw s (blockPa pkg .package (0x800 + 8 * i)) &&& ~~~0x2000#64) else s) s := rfl

@[simp] theorem takeStandby_mem (s : State) (pkg q : Nat) : (takeStandby s pkg q).mem = s.mem := by
  rw [takeStandby_eq, foldl_ctrlSet_mem]

theorem takeStandby_nextWf {s : State} (w : NextWf (.next s)) (pkg q : Nat) : NextWf (.next (takeStandby s pkg q)) := by
  have h := takeStandby_mem s pkg q
  generalize takeStandby s pkg q = t at h ⊢
  show t.mem.wf
  rw [h]
  exact w

theorem replacePackage_wf {s : State} (w : s.mem.wf) (g p q : Nat) : (replacePackage s g p q).mem.wf :=
  by grind [replacePackage, State.setCore_mem, prepareCore_mem, State.setGang_mem, enterTrap_wf, wf_foldl]

/-- The body is put in through an equation between the two functions: compared as values, the kernel would run the search for a standby. -/
theorem losePackage_nextWf {s : State} (w : NextWf (.next s)) (p g : Nat) : NextWf (.next (losePackage s p g)) := by
  have hbody : losePackage = losePackage := rfl
  conv at hbody => rhs; delta losePackage
  rw [hbody]
  beta_reduce
  extract_lets own
  split
  · exact endByCheck_wf w g 0x77
  next q _ =>
    extract_lets t x
    have ht : NextWf (.next t) := nextWf_foldl (fun s m => takeStandby s m q) (fun _ m hu => takeStandby_nextWf hu m q) _ w
    clear_value t
    split
    · exact ht
    next r _ =>
      have hr : NextWf (.next r) := rollback_wf ht g (some 0x76) (firstKey t g) none
      split
      · exact replacePackage_wf hr g p q
      · exact hr

theorem execPackageLoss_wf {s : State} (w : s.mem.wf) : NextWf (execPackageLoss s) := by
  unfold execPackageLoss
  exact nextWf_foldl (fun t g => losePackage t s.subject g) (fun _ g hu => losePackage_nextWf hu s.subject g) _ w

theorem execGangSwitchStop_wf {s : State} (w : s.mem.wf) : NextWf (execGangSwitchStop s) := by
  unfold execGangSwitchStop
  dsimp only
  split
  · exact w
  · split
    · exact w
    · show (freeCores _ _).mem.wf
      rw [freeCores_mem, mem_foldl _ (fun t key => State.setCtx_mem t key _)]
      exact stopGang_wf w s.subject

theorem resumeGang_wf {s : State} (w : s.mem.wf) (g : Nat) : (resumeGang s g).mem.wf :=
  by grind [resumeGang, restoreCore_wf, State.setGang_mem, rereadWatches_mem, wf_foldl]

theorem settleOwed_wf {s : State} (w : s.mem.wf) (g : Nat) : (settleOwed s g).mem.wf := by
  unfold settleOwed
  dsimp only
  split
  · exact w
  · refine wf_foldl _ (fun t m ht => ?_) _ (rollback_wf (s := s.setGang g _) w g _ _ none)
    split
    · exact replacePackage_wf ht g m.1 m.2
    · exact ht

theorem execGangResume_wf {s : State} (w : s.mem.wf) : NextWf (execGangResume s) := by
  unfold execGangResume
  dsimp only
  split
  · exact w
  · split
    · exact w
    · exact settleOwed_wf (resumeGang_wf w s.subject) s.subject

theorem endCommit_wf {s : State} (w : s.mem.wf) (g : Nat) : (endCommit s g).mem.wf :=
  settleOwed_wf (by rwa [refetch_mem, restartLog_mem, State.setGang_mem]) g

theorem goOnCommit_wf {s : State} (w : s.mem.wf) (g : Nat) : (goOnCommit s g).mem.wf := by
  refine engStep_wf w _ (fun t ht => ?_) (fun e he => he)
  refine (releaseKept_wf ht g _).bind fun u hu => ?_
  exact (sweep_wf hu g _ _).bind fun v hv => canonical_pure (endCommit_wf hv g)

theorem execSuperstepCommit_wf {s : State} (w : s.mem.wf) : NextWf (execSuperstepCommit s) := by
  unfold execSuperstepCommit
  dsimp only
  split
  · exact goOnCommit_wf w s.subject
  · split
    · exact goOnCommit_wf (beginCommit_wf w s.subject) s.subject
    · exact w

@[simp] theorem logEvent_mem (s : State) (cause unit : Nat) : (logEvent s cause unit).mem = s.mem := rfl

theorem execCorrectedErrorThreshold_wf {s : State} (w : s.mem.wf) (pkg unit : Nat) : NextWf (execCorrectedErrorThreshold pkg unit s) :=
  by grind [execCorrectedErrorThreshold, NextWf, logEvent_mem]

theorem execLinkRetrain_wf {s : State} (w : s.mem.wf) (pkg : Nat) (link : Fin 16) : NextWf (execLinkRetrain pkg link s) :=
  by grind [execLinkRetrain, NextWf, logEvent_mem]

theorem execFirmwareReplacement_wf {s : State} (w : s.mem.wf) (pkg unit : Nat) (image : SignedImage) :
    NextWf (execFirmwareReplacement pkg unit image s) :=
  by grind [execFirmwareReplacement, NextWf, logEvent_mem, State.setPkg_mem]

theorem execHbmRecalibration_wf {s : State} (w : s.mem.wf) (pkg : Nat) (stack : Fin 8) (channel : Fin 32) :
    NextWf (execHbmRecalibration pkg stack channel s) :=
  by grind [execHbmRecalibration, NextWf, State.setPkg_mem]

theorem execBoot_wf {s : State} (w : s.mem.wf) (pkg : Nat) (image : List Byte) (sign : Signature) : NextWf (execBoot pkg image sign s) :=
  by grind [execBoot, NextWf, State.setPkg_mem]

theorem execAttestation_wf {s : State} (w : s.mem.wf) : NextWf (execAttestation s) := by grind [execAttestation, NextWf, State.setPkg_mem]

theorem execSeroanAttach_wf {s : State} (w : s.mem.wf) : NextWf (execSeroanAttach s) :=
  by grind [execSeroanAttach, NextWf, State.setGang_mem, switchRequest_mem]

theorem execSeroanResume_wf {s : State} (w : s.mem.wf) : NextWf (execSeroanResume s) := by grind [execSeroanResume, NextWf, switchRequest_mem]

theorem execSeroanBreakpoint_wf {s : State} (w : s.mem.wf) (gang : Nat) (addr : Word) (set : Bool) : NextWf (execSeroanBreakpoint gang addr set s) :=
  by grind [execSeroanBreakpoint, NextWf, State.setGang_mem]

theorem execSeroanStateAccess_wf {s : State} (w : s.mem.wf) (gang k : Nat) (part : SavedPart) (dw : Nat) (write : Option Word) :
    NextWf (execSeroanStateAccess gang k part dw write s) :=
  by grind [execSeroanStateAccess, NextWf, State.setGang_mem]

end Sys2Proof.Machine
end

section
/-! PROOFS. One step of the machine keeps the canonical form of memory when its instructions do (R56, R96, R149, R271). -/
namespace Sys2Proof.Machine

section
variable {ex : Instr → State → Host.Outcome State Fault Refusal} (hex : ∀ i s, s.mem.wf → NextWf (ex i s))
include hex

theorem runTodo_wf {s : State} (w : s.mem.wf) : NextWf (runTodo ex s) := by
  unfold runTodo
  split
  · exact w
  · exact hex _ _ w
  · extract_lets _ base run is alone both
    have hbase : base.mem.wf := w
    have hrun (x : Nat × Instr) {t : State} (ht : t.mem.wf) : NextWf (run x t) := hex x.2 _ ht
    have hboth (a b : Nat × Instr) : NextWf (both a b) := by
      have ha := hrun a hbase
      simp only [both]
      split
      next r hr =>
        rw [hr] at ha
        have hb := hrun b (t := r) ha
        split
        next t ht =>
          rw [ht] at hb
          split
          · exact takeTrap_wf hbase _
          · split
            · exact hb
            · exact hb
        · exact hb
      · exact ha
    have halone : ∀ o ∈ alone, NextWf o := by
      simp only [alone, List.mem_cons, List.not_mem_nil, or_false]
      rintro o (rfl | rfl)
      · exact hrun _ hbase
      · exact hrun _ hbase
    clear_value base run is alone both
    split
    next h => exact halone _ (List.mem_of_find?_eq_some h)
    next h => exact halone _ (List.mem_of_find?_eq_some h)
    · split
      split
      next o h =>
        have hmem := List.mem_of_find?_eq_some h
        simp only [List.mem_cons, List.not_mem_nil, or_false] at hmem
        obtain rfl | rfl := hmem
        · exact hboth _ _
        · exact hboth _ _
      · exact finish_nextWf hbase (canonical_stallOr hbase _ _)

omit hex in
theorem conclude_wf {s0 s t : State} (w0 : s0.mem.wf) {is : List (Nat × Instr)} (w : s.mem.wf) (h : conclude ex s0 is s = some t) :
    t.mem.wf := by
  unfold conclude at h
  extract_lets key k clear n c s1 at h
  have hs1 : s1.mem.wf := by
    simp only [s1]
    rwa [followGroup_mem, State.setCtx_mem]
  have hclear {u : State} (hu : u.mem.wf) : (clear u).mem.wf := hu
  have hpass := passOn_wf hs1 k
  clear_value key k clear s1
  split at h
  · split at h
    · cases h
    · cases h
      split
      · rw [selectCtx_mem]
        exact hclear w
      · exact hclear w
  · split at h
    · cases h
      refine hclear ?_
      split
      · exact w
      · rwa [nextCycle_mem]
    · split at h
      next => cases h; exact hclear (takeTrap_wf w0 _)
      next hp => cases h; exact hclear (takeTrap_wf (hpass.error hp) _)
      next hp => cases h; exact hclear (hpass.error hp)
      next s2 hp =>
        have h2 : s2.mem.wf := hpass.ok hp
        split at h
        · cases h
          refine hclear ?_
          rwa [nextCycle_mem]
        · extract_lets u _ switch at h
          have hu : u.mem.wf := by
            simp only [u]
            split
            · exact h2
            · rwa [unitCycle_mem, endPhase_mem, arrayCycle_mem]
          clear_value switch u
          cases h
          split
          · rw [selectCtx_mem]
            exact hclear hu
          · exact hclear hu

theorem issueCtx_wf {s : State} (w : s.mem.wf) (key : Nat) {o : Host.Outcome State Fault Refusal} (h : issueCtx ex s key = some o) : NextWf o := by
  have hprep := prepare_wf w key
  unfold issueCtx at h
  split at h
  · cases h
  next t ht =>
    cases h
    rw [ht] at hprep
    exact hprep
  next t ht =>
    rw [ht] at hprep
    have hrun := runTodo_wf hex (s := t) hprep
    split at h
    next r hr =>
      rw [hr] at hrun
      obtain ⟨u, hu, rfl⟩ := Option.map_eq_some_iff.1 h
      exact conclude_wf hprep hrun hu
    · cases h
      exact hrun

theorem issuePhase_wf {s : State} (w : s.mem.wf) (k : Nat) (p : Phase) {o : Host.Outcome State Fault Refusal} (h : issuePhase ex s k p = some o) :
    NextWf o := by
  unfold issuePhase at h
  extract_lets key behind t _ at h
  split at h
  · cases h
  · have ht : t.mem.wf := by rwa [startCycle_mem]
    clear_value t
    split at h
    · cases h
      exact hex _ _ ht
    · split at h
      · have hpass := passOn_wf ht k
        split at h
        next u hu =>
          cases h
          show (nextCycle u k).mem.wf
          rw [nextCycle_mem]
          exact hpass.ok hu
        next => cases h; exact takeTrap_wf (s := { t with cur := key, grp := _ }) ht _
        next hu => cases h; exact takeTrap_wf (hpass.error hu) _
        next hu => cases h; exact hpass.error hu
      · exact issueCtx_wf hex ht _ h

theorem issueCore_wf {s : State} (w : s.mem.wf) (k : Nat) {o : Host.Outcome State Fault Refusal} (h : issueCore ex s k = some o) : NextWf o := by
  unfold issueCore at h
  dsimp only at h
  have hothers (js : List Nat) (h : js.findSome? (fun n => issueCtx ex (switchTo s k n) (4 * k + n)) = some o) : NextWf o := by
    obtain ⟨n, -, hn⟩ := List.exists_of_findSome?_eq_some h
    exact issueCtx_wf hex (by rwa [switchTo_mem]) _ hn
  split at h
  · exact issuePhase_wf hex w k _ h
  · split at h
    · exact issueCtx_wf hex w _ h
    · split at h
      · exact hothers _ h
      · rcases Option.or_eq_some_iff.1 h with h | ⟨-, h⟩
        · exact issueCtx_wf hex w _ h
        · exact hothers _ h

theorem stepWith_wf {s : State} (w : s.mem.wf) (pick : State → Option Happening) : NextWf (stepWith ex pick s) := by
  unfold stepWith
  extract_lets perform unlimited t early
  have hperform (h : Happening) {t : State} (ht : t.mem.wf) : NextWf (perform h t) := by
    have he := hex h.event { t with subject := h.subject, grp := Group.idle } ht
    simp only [perform]
    split
    next hu => rw [hu] at he; exact he
    · exact he
  have hunlimited {o : Host.Outcome State Fault Refusal} (ho : NextWf o) : NextWf (unlimited o) := by
    simp only [unlimited]
    split
    · exact ho
    · exact ho
  clear_value perform unlimited early
  split
  · exact hunlimited (hperform _ w)
  next k rest _ =>
    refine hunlimited ?_
    cases h : issueCore ex { s with agenda := rest } k with
    | none => exact w
    | some o => exact issueCore_wf hex (s := { s with agenda := rest }) w k h
  · exact w
  · have ht : t.mem.wf := by rwa [show t.mem = s.mem from tick_mem _ _]
    clear_value t
    split
    · exact hperform _ ht
    · split
      next o h =>
        obtain ⟨k, -, hk⟩ := List.exists_of_findSome?_eq_some h
        exact issueCore_wf hex ht k hk
      · split
        · exact hperform _ ht
        · exact ht

end

end Sys2Proof.Machine
end

section
/-! PROOFS. Every instruction keeps the canonical form of memory (log 2). -/
namespace Sys2Proof.Machine

theorem exec_nextWf {s : State} (w : s.mem.wf) (i : Instr) : NextWf (exec i s) := by
  cases i with
  | nop => exact execNop_wf w ..
  | add => exact execAdd_wf w ..
  | sub => exact execSub_wf w ..
  | mul => exact execMul_wf w ..
  | mulh => exact execMulh_wf w ..
  | div => exact execDiv_wf w ..
  | rem => exact execRem_wf w ..
  | and => exact execAnd_wf w ..
  | or => exact execOr_wf w ..
  | xor => exact execXor_wf w ..
  | andn => exact execAndn_wf w ..
  | shl => exact execShl_wf w ..
  | shr => exact execShr_wf w ..
  | sha => exact execSha_wf w ..
  | rot => exact execRot_wf w ..
  | min => exact execMin_wf w ..
  | max => exact execMax_wf w ..
  | cmp => exact execCmp_wf w ..
  | sel => exact execSel_wf w ..
  | clz => exact execClz_wf w ..
  | ctz => exact execCtz_wf w ..
  | popc => exact execPopc_wf w ..
  | brev => exact execBrev_wf w ..
  | ext => exact execExt_wf w ..
  | ins => exact execIns_wf w ..
  | addi => exact execAddi_wf w ..
  | movi => exact execMovi_wf w ..
  | movh => exact execMovh_wf w ..
  | lea => exact execLea_wf w ..
  | mov => exact execMov_wf w ..
  | plog => exact execPlog_wf w ..
  | chk => exact execChk_wf w ..
  | br => exact execBr_wf w ..
  | brx => exact execBrx_wf w ..
  | call => exact execCall_wf w ..
  | callx => exact execCallx_wf w ..
  | ret => exact execRet_wf w ..
  | loop => exact execLoop_wf w ..
  | yield => exact execYield_wf w ..
  | follow => exact execFollow_wf w ..
  | detach => exact execDetach_wf w ..
  | lead => exact execLead_wf w ..
  | ld => exact execLd_wf w ..
  | st => exact execSt_wf w ..
  | ldv => exact execLdv_wf w ..
  | stv => exact execStv_wf w ..
  | ldl => exact execLdl_wf w ..
  | pref => exact execPref_wf w ..
  | wbl => exact execWbl_wf w ..
  | disc => exact execDisc_wf w ..
  | xlat => exact execXlat_wf w ..
  | amo => exact execAmo_wf w ..
  | cas => exact execCas_wf w ..
  | acc => exact execAcc_wf w ..
  | accv => exact execAccv_wf w ..
  | rflush => exact execRflush_wf w ..
  | rstat => exact execRstat_wf w ..
  | xrd => exact execXrd_wf w ..
  | xclr => exact execXclr_wf w ..
  | fld => exact execFld_wf w ..
  | fst => exact execFst_wf w ..
  | frst => exact execFrst_wf w ..
  | bar => exact execBar_wf w ..
  | sstep => exact execSstep_wf w ..
  | spawn => exact execSpawn_wf w ..
  | done => exact execDone_wf w ..
  | join => exact execJoin_wf w ..
  | qput => exact execQput_wf w ..
  | qget => exact execQget_wf w ..
  | waite => exact execWaite_wf w ..
  | fence => exact execFence_wf w ..
  | launch => exact execLaunch_wf w ..
  | gtime => exact execGtime_wf w ..
  | vshape => exact execVshape_wf w ..
  | vrep => exact execVrep_wf w ..
  | mclaim => exact execMclaim_wf w ..
  | mrls => exact execMrls_wf w ..
  | gmma => exact execGmma_wf w ..
  | phase => exact execPhase_wf w ..
  | xmit => exact execXmit_wf w ..
  | xrcv => exact execXrcv_wf w ..
  | xsel => exact execXsel_wf w ..
  | xidle => exact execXidle_wf w ..
  | pend => exact execPend_wf w ..
  | capp => exact execCapp_wf w ..
  | cwait => exact execCwait_wf w ..
  | cseq => exact execCseq_wf w ..
  | cfence => exact execCfence_wf w ..
  | cstat => exact execCstat_wf w ..
  | tdef => exact execTdef_wf w ..
  | tqry => exact execTqry_wf w ..
  | pissue => exact execPissue_wf w ..
  | predeem => exact execPredeem_wf w ..
  | pexpire => exact execPexpire_wf w ..
  | pstat => exact execPstat_wf w ..
  | trap => exact execTrap_wf w ..
  | rft => exact execRft_wf w ..
  | mfs => exact execMfs_wf w ..
  | mts => exact execMts_wf w ..
  | rdring => exact execRdring_wf w ..
  | snap => exact execSnap_wf w ..
  | xinv => exact execXinv_wf w ..
  | seed => exact execSeed_wf w ..
  | halt => exact execHalt_wf w ..
  | dbrk => exact execDbrk_wf w ..
  | save => exact execSave_wf w ..
  | gswitch => exact execGswitch_wf w ..
  | pcnt => exact execPcnt_wf w ..
  | controlRegisterWrite => exact execControlRegisterWrite_wf w ..
  | einjArm => exact execEinjArm_wf w ..
  | quantumExpiry => exact execQuantumExpiry_wf w ..
  | remoteAnswer => exact execRemoteAnswer_wf w ..
  | writeBack => exact execWriteBack_wf w ..
  | accumulateArrival => exact execAccumulateArrival_wf w ..
  | accumulateWindowEnd => exact execAccumulateWindowEnd_wf w ..
  | refusalReturn => exact execRefusalReturn_wf w ..
  | insistentAck => exact execInsistentAck_wf w ..
  | residualAgeExpiry => exact execResidualAgeExpiry_wf w ..
  | barrierComplete => exact execBarrierComplete_wf w ..
  | phaseBarrierComplete => exact execPhaseBarrierComplete_wf w ..
  | pccLimit => exact execPccLimit_wf w ..
  | taskPop => exact execTaskPop_wf w ..
  | taskAging => exact execTaskAging_wf w ..
  | queueSlotResume => exact execQueueSlotResume_wf w ..
  | waitLimitExpiry => exact execWaitLimitExpiry_wf w ..
  | waiteReport => exact execWaiteReport_wf w ..
  | queueRetry => exact execQueueRetry_wf w ..
  | claimHandover => exact execClaimHandover_wf w ..
  | followerMarker => exact execFollowerMarker_wf w ..
  | forwardedGroup => exact execForwardedGroup_wf w ..
  | vrepPass => exact execVrepPass_wf w ..
  | dispatchedComplete => exact execDispatchedComplete_wf w ..
  | arrayFormStart => exact execArrayFormStart_wf w ..
  | gmmaJoin => exact execGmmaJoin_wf w ..
  | gmmaJoinTimeout => exact execGmmaJoinTimeout_wf w ..
  | impreciseFaultDelivery => exact execImpreciseFaultDelivery_wf w ..
  | engineErrorDelivery => exact execEngineErrorDelivery_wf w ..
  | commandBegin => exact execCommandBegin_wf w ..
  | chainFenceRelease => exact execChainFenceRelease_wf w ..
  | copy => exact execCopy_wf w ..
  | copyt => exact execCopyt_wf w ..
  | gath => exact execGath_wf w ..
  | scat => exact execScat_wf w ..
  | fill => exact execFill_wf w ..
  | cmdSignal => exact execCmdSignal_wf w ..
  | stash => exact execStash_wf w ..
  | unstash => exact execUnstash_wf w ..
  | nmuSgd => exact execNmuSgd_wf w ..
  | nmuAdamw => exact execNmuAdamw_wf w ..
  | nmuScale => exact execNmuScale_wf w ..
  | collMatch => exact execCollMatch_wf w ..
  | collAg => exact execCollAg_wf w ..
  | collShardArrival => exact execCollShardArrival_wf w ..
  | collRs => exact execCollRs_wf w ..
  | collAr => exact execCollAr_wf w ..
  | collBc => exact execCollBc_wf w ..
  | collXor => exact execCollXor_wf w ..
  | tensorDefine => exact execTensorDefine_wf w ..
  | promiseIssue => exact execPromiseIssue_wf w ..
  | promiseRedeem => exact execPromiseRedeem_wf w ..
  | promiseExpire => exact execPromiseExpire_wf w ..
  | dieLoss => exact execDieLoss_wf w ..
  | rowFailure => exact execRowFailure_wf w ..
  | hbmChannelRetire => exact execHbmChannelRetire_wf w ..
  | correctedErrorThreshold => exact execCorrectedErrorThreshold_wf w ..
  | linkRetrain => exact execLinkRetrain_wf w ..
  | permitAudit => exact execPermitAudit_wf w ..
  | firmwareReplacement => exact execFirmwareReplacement_wf w ..
  | hbmRecalibration => exact execHbmRecalibration_wf w ..
  | boot => exact execBoot_wf w ..
  | seroanStateAccess => exact execSeroanStateAccess_wf w ..
  | seroanBreakpoint => exact execSeroanBreakpoint_wf w ..
  | acceptanceAnswer => exact execAcceptanceAnswer_wf w ..
  | xinvAcknowledged => exact execXinvAcknowledged_wf w ..
  | unassignedOpcode => exact execUnassignedOpcode_wf w ..
  | streamNop => exact execStreamNop_wf w ..
  | streamLaunch => exact execStreamLaunch_wf w ..
  | waits => exact execWaits_wf w ..
  | waitsSatisfied => exact execWaitsSatisfied_wf w ..
  | streamSignal => exact execStreamSignal_wf w ..
  | gstamp => exact execGstamp_wf w ..
  | csctlClr => exact execCsctlClr_wf w ..
  | launchAccept => exact execLaunchAccept_wf w ..
  | gangComplete => exact execGangComplete_wf w ..
  | superstepCommit => exact execSuperstepCommit_wf w ..
  | seedComplete => exact execSeedComplete_wf w ..
  | pairedCopyStart => exact execPairedCopyStart_wf w ..
  | pairedMessageCompare => exact execPairedMessageCompare_wf w ..
  | pairedMismatchTimeout => exact execPairedMismatchTimeout_wf w ..
  | wideUnitStart => exact execWideUnitStart_wf w ..
  | vsfQueueExit => exact execVsfQueueExit_wf w ..
  | gangSwitchStop => exact execGangSwitchStop_wf w ..
  | gangResume => exact execGangResume_wf w ..
  | stopTimeout => exact execStopTimeout_wf w ..
  | poisonConsumed => exact execPoisonConsumed_wf w ..
  | packageLoss => exact execPackageLoss_wf w ..
  | powerThermalLimit => exact execPowerThermalLimit_wf w ..
  | internalMachineCheck => exact execInternalMachineCheck_wf w ..
  | attestation => exact execAttestation_wf w ..
  | seroanAttach => exact execSeroanAttach_wf w ..
  | seroanResume => exact execSeroanResume_wf w ..
  | vmov | vbcast | vext | vins | vadd | vsub | vmul | vfma | vfms | vfnma | vdiv | vsqrt | vmin | vmax | vabs | vneg | vcmp | vsel | vand
  | vor | vxor | vshl | vshr | vsha | vcvt | vpack | vunpk | vred | vscan | vperm | vslide | vgath | vscat | vsf | vmacw | vaddw | vclass
  | vround | vtrn | vdot => exact vecForm_nextWf w ..
  | tld | tst | tzero | tmov | tcvt | mma | mmas | azero | adrain | astat | aclr => exact matrixForm_nextWf w ..
  | bcmp | bpopr | bpopc | bfirst | bclos | bcomp | btrn | blog | bld | bst | bzero | beye => exact prismForm_nextWf w ..

end Sys2Proof.Machine
end

section
/-! PROOFS. Memory in its canonical form: at reset, and over every step. -/
open Sys2Proof Sys2Proof.Machine

/-- Settles O7: no byte is written at reset. -/
theorem resetMemoryCanonical : Obligations.ResetMemoryCanonical := ⟨rfl, fun _ => rfl⟩

/-- Settles O6: memory changes through operations that keep its canonical form, in every instruction and every step around one. -/
theorem stepKeepsMemoryCanonical : Obligations.StepKeepsMemoryCanonical := by
  intro s t w h
  have hstep : NextWf (step s) := stepWith_wf (fun i _ hs => exec_nextWf hs i) w pickStep
  rw [h] at hstep
  exact hstep
end

section
/-! PROOFS. Chains, chain operands and forms that are complete at issue (R157, R159, R205, R281, R292, R293, R296). -/
namespace Sys2Proof.Machine

/-! ### Chains (R281) -/

section
variable (s : State) (k : Nat) (ch : Fin 8) (x : Chain)

@[simp] theorem State.getCore_setChain_same :
    (s.setChain k ch x).getCore k = { s.getCore k with chains := (s.getCore k).chains.set ch x } := State.getCore_setCore_same _ _ _

theorem State.getCore_setChain_ne {j : Nat} (h : j ≠ k) : (s.setChain k ch x).getCore j = s.getCore j := State.getCore_setCore_ne _ _ _ _ h

@[simp] theorem State.getChain_setChain_same : (s.setChain k ch x).getChain k ch = x := by
  rw [State.getChain, State.getCore_setChain_same]
  simp

theorem State.getChain_setChain_ne {h : Fin 8} (hne : h ≠ ch) : (s.setChain k ch x).getChain k h = s.getChain k h := by
  rw [State.getChain, State.getCore_setChain_same]
  have hval : (ch : Nat) ≠ h := fun e => hne (Fin.ext e.symm)
  simp [State.getChain, hval]

@[simp] theorem State.getCtx_setChain (j : Nat) : (s.setChain k ch x).getCtx j = s.getCtx j := rfl

/-- A core that keeps its chains keeps each of them. -/
theorem State.getChain_congr {s t : State} {k : Nat} (h : (t.getCore k).chains = (s.getCore k).chains) (ch : Fin 8) :
    t.getChain k ch = s.getChain k ch := by
  rw [State.getChain, h, State.getChain]

end

/-! ### Chain operands (R293) -/

/-- R293: an operand that names a chain. -/
theorem chainOf_chain {s : State} {a : Opnd} {ch : Fin 8} (h : (s.src a).toNat = ch.val) : chainOf s a = .ok ch := by
  have hlt : (s.src a).toNat < 8 := h ▸ ch.isLt
  unfold chainOf
  dsimp only
  rw [dif_pos hlt]
  exact congrArg Except.ok (Fin.ext h)

/-- R293: an operand above 7. -/
theorem chainOf_none {s : State} {a : Opnd} (h : 7 < (s.src a).toNat) : chainOf s a = raise 0x52 (Config.freeWord s.free) 1 := by
  unfold chainOf
  dsimp only
  rw [dif_neg (by omega)]

/-! ### Forms that are complete at issue (R205) -/

/-- R205: the state with a form entered under the next TSEQ whose entry is free again. -/
def issued (s : State) (i : Instr) : State := enterRing s (nextTseq s.core.tseq) { entryFor s i (nextTseq s.core.tseq) with state := 0 }

theorem dispatchNow_free {s : State} (h : (s.core.entry (nextTseq s.core.tseq)).state = 0) (i : Instr) : dispatchNow s i = .ok (issued s i) := by
  rw [dispatchNow, ringSlot_free h]
  rfl

section
variable (s : State) (i : Instr)

theorem issued_core : (issued s i).core = { s.core with
    tseq := nextTseq s.core.tseq
    ring := mset (nextTseq s.core.tseq % 64) { entryFor s i (nextTseq s.core.tseq) with state := 0 } s.core.ring } := State.core_updCore _ _

@[simp] theorem issued_ctx : (issued s i).ctx = s.ctx := rfl
@[simp] theorem issued_mem : (issued s i).mem = s.mem := rfl
@[simp] theorem issued_coreKey : (issued s i).coreKey = s.coreKey := rfl

theorem issued_getChain (ch : Fin 8) : (issued s i).getChain s.coreKey ch = s.getChain s.coreKey ch :=
  State.getChain_congr (congrArg Core.chains (issued_core s i) :) ch

/-- R205: the form has its TSEQ in any later state whose core has kept the ring. -/
theorem dispatched_of {t : State} (htseq : t.core.tseq = (issued s i).core.tseq) (hring : t.core.ring = (issued s i).core.ring) :
    Dispatched s t i 0 := by
  have hentry : t.core.entry (nextTseq s.core.tseq) = { entryFor s i (nextTseq s.core.tseq) with state := 0 } := by
    rw [Core.entry, hring, issued_core]
    exact mget_mset_same _ _ _ _
  rw [issued_core] at htseq
  dsimp only [Dispatched]
  rw [hentry]
  exact ⟨htseq, rfl, rfl, rfl, rfl, rfl⟩

theorem issued_dispatched : Dispatched s (issued s i) i 0 := dispatched_of s i rfl rfl

end

/-- R205: what is dispatched from a state is dispatched from any other of the same TSEQ, context and group. -/
theorem Dispatched.congr {s s' t : State} {i : Instr} {n : Nat} (h : Dispatched s' t i n) (htseq : s'.core.tseq = s.core.tseq) (hcur : s'.cur = s.cur)
    (hgrp : s'.grp = s.grp) : Dispatched s t i n := by
  have hctx : s'.ctxNo = s.ctxNo := by unfold State.ctxNo; simp only [hcur]
  unfold Dispatched at h ⊢
  rwa [htseq, hctx, hgrp] at h

/-! ### CSEQ, CSTAT and CWAIT (R157, R193, R292, R296) -/

section
variable {s : State} {g : Guard} (hr : Runs s g) {a b : Opnd}
include hr

section
variable (h : 7 < (s.src a).toNat) (d : Fin 32)
include h

theorem exec_cseq_above : exec (.cseq g d a) s = .next (takeTrap s ⟨0x52, Config.freeWord s.free, 1, none⟩) := by
  refine (guarded_runs hr _ _).trans ?_
  rw [chainOf_none h]
  rfl

theorem exec_cstat_above (clear : Bool) : exec (.cstat g clear d a) s = .next (takeTrap s ⟨0x52, Config.freeWord s.free, 1, none⟩) := by
  refine (guarded_runs hr _ _).trans ?_
  rw [chainOf_none h]
  rfl

omit d in
theorem exec_cwait_above (lim : BitVec 24) : exec (.cwait g a b lim) s = .next (takeTrap s ⟨0x52, Config.freeWord s.free, 1, none⟩) := by
  refine (guarded_runs hr _ _).trans ?_
  rw [chainOf_none h]
  rfl

omit d in
theorem exec_capp_above (o : Option (Fin 32)) (e : Fin 32) (nsb : Bool) :
    exec (.capp g o e a nsb) s = .next (takeTrap s ⟨0x52, Config.freeWord s.free, 1, none⟩) := by
  refine (guarded_runs hr _ _).trans ?_
  rw [chainOf_none h]
  rfl

end

section
variable {ch : Fin 8} (h : (s.src a).toNat = ch.val) (hfree : (s.core.entry (nextTseq s.core.tseq)).state = 0) (d : Fin 32)
include h hfree

theorem exec_cseq_chain : exec (.cseq g d a) s = .next ((seeChain (issued s (.cseq g d a)) (s.getChain s.coreKey ch)).putS d
    (BitVec.ofNat 64 (s.getChain s.coreKey ch).ccnt)) := by
  refine guarded_ok hr ?_
  rw [chainOf_chain h, dispatchNow_free hfree]
  rfl

/-- R292: the chain's fault word is cleared, or kept. -/
def faultCleared (s : State) (ch : Fin 8) (clear : Bool) : State :=
  if clear then s.setChain s.coreKey ch { s.getChain s.coreKey ch with fault := 0 } else s

theorem exec_cstat_chain (clear : Bool) : exec (.cstat g clear d a) s =
    .next ((faultCleared (issued s (.cstat g clear d a)) ch clear).putS d (s.getChain s.coreKey ch).fault) := by
  refine guarded_ok hr ?_
  rw [chainOf_chain h, dispatchNow_free hfree]
  unfold faultCleared
  rw [issued_coreKey, issued_getChain]
  rfl

omit d in
theorem exec_cwait_done (lim : BitVec 24) (hacnt : (s.src b).toNat ≤ (s.getChain s.coreKey ch).acnt)
    (hccnt : (s.src b).toNat ≤ (s.getChain s.coreKey ch).ccnt) :
    exec (.cwait g a b lim) s = .next (seeChain (issued s (.cwait g a b lim)) (s.getChain s.coreKey ch)) := by
  refine guarded_ok hr ?_
  rw [chainOf_chain h]
  refine (if_neg (Nat.not_lt.mpr hacnt)).trans ((if_neg (Nat.not_lt.mpr hccnt)).trans ?_)
  rw [dispatchNow_free hfree]
  rfl

omit d hfree in
theorem exec_cwait_waits (lim : BitVec 24) (hacnt : (s.src b).toNat ≤ (s.getChain s.coreKey ch).acnt)
    (hccnt : (s.getChain s.coreKey ch).ccnt < (s.src b).toNat) : exec (.cwait g a b lim) s =
      finish s (stall s (.timed (.chain ch.val) (limitFor s (fun t => t == .chain ch.val) lim.toNat) false)) := by
  refine (guarded_runs hr _ _).trans (congrArg (finish s) ?_)
  rw [chainOf_chain h]
  exact (if_neg (Nat.not_lt.mpr hacnt)).trans (if_pos hccnt)

omit d hfree in
theorem exec_cwait_never (lim : BitVec 24) (hacnt : (s.getChain s.coreKey ch).acnt < (s.src b).toNat) :
    exec (.cwait g a b lim) s = .next (takeTrap s ⟨0x52, Config.freeWord s.free, 2, none⟩) := by
  refine (guarded_runs hr _ _).trans ?_
  rw [chainOf_chain h]
  exact congrArg (finish s) (if_pos hacnt)

end
end

/-- R193: the limit of a wait that begins. -/
theorem limitFor_begins {s : State} (h : s.grp.waited = none) (same : Timed → Bool) (lim : BitVec 24) : limitFor s same lim.toNat =
    if lim ≠ 0 then some (s.gang.ran + lim.toNat) else if s.gang.wlimit = 0 then none else some (s.gang.ran + s.gang.wlimit) := by
  have hzero : lim.toNat = 0 ↔ lim = 0 := by rw [← BitVec.toNat_inj]; rfl
  unfold limitFor
  rw [h]
  dsimp only
  by_cases hlim : lim = 0
  · rw [if_pos (hzero.mpr hlim), if_neg (not_not.mpr hlim)]
  · have hnat : lim.toNat ≠ 0 := fun e => hlim (hzero.mp e)
    rw [if_neg hnat, if_neg hnat, if_pos hlim]

/-- R157: the timestamp of a context that has read a completed sequence number. -/
theorem seeChain_pts (s : State) (c : Chain) : (seeChain s c).ctx.pts = max s.ctx.pts c.cts := by rw [seeChain, State.ctx_upd]

theorem faultCleared_core (s : State) (ch : Fin 8) (clear : Bool) :
    (faultCleared s ch clear).core.tseq = s.core.tseq ∧ (faultCleared s ch clear).core.ring = s.core.ring := by
  unfold faultCleared
  split
  · have hcore := State.getCore_setChain_same s s.coreKey ch { s.getChain s.coreKey ch with fault := 0 }
    exact ⟨(congrArg Core.tseq hcore :), (congrArg Core.ring hcore :)⟩
  · exact ⟨rfl, rfl⟩

theorem faultCleared_fault (s : State) (ch : Fin 8) (clear : Bool) :
    ((faultCleared s ch clear).getChain s.coreKey ch).fault = if clear then 0 else (s.getChain s.coreKey ch).fault := by
  unfold faultCleared
  cases clear with
  | false => rfl
  | true => exact congrArg Chain.fault (State.getChain_setChain_same _ _ _ _)

theorem faultCleared_mem (s : State) (ch : Fin 8) (clear : Bool) : (faultCleared s ch clear).mem = s.mem := by
  unfold faultCleared
  split <;> rfl

/-! ### CFENCE (R159) -/

/-- R159: the state after a fence entry has been put on the chains of a list. -/
def fenced (mask : BitVec 8) (chs : List (Fin 8)) (s : State) : State :=
  chs.foldl (fun s ch => s.setChain s.coreKey ch { s.getChain s.coreKey ch with fifo := (s.getChain s.coreKey ch).fifo ++ [.fence mask] }) s

section
variable (mask : BitVec 8)

/-- R159: besides chains nothing changes. -/
theorem fenced_frame (chs : List (Fin 8)) (s : State) : ∃ x, (fenced mask chs s).core = { s.core with chains := x } ∧
    (fenced mask chs s).cur = s.cur ∧ (fenced mask chs s).mem = s.mem ∧ (fenced mask chs s).grp = s.grp := by
  induction chs generalizing s with
  | nil => exact ⟨_, rfl, rfl, rfl, rfl⟩
  | cons ch chs ih =>
    obtain ⟨x, hcore, hcur, hmem, hgrp⟩ := ih (s.setChain s.coreKey ch
      { s.getChain s.coreKey ch with fifo := (s.getChain s.coreKey ch).fifo ++ [.fence mask] })
    have hfirst := State.getCore_setChain_same s s.coreKey ch
      { s.getChain s.coreKey ch with fifo := (s.getChain s.coreKey ch).fifo ++ [.fence mask] }
    refine ⟨x, hcore.trans ?_, hcur, hmem, hgrp⟩
    rw [State.core]
    refine (congrArg (fun c : Core => { c with chains := x }) hfirst).trans ?_
    rfl

/-- R159: each chain of the list has one fence entry more. -/
theorem fenced_fifo {chs : List (Fin 8)} (hnodup : chs.Nodup) (s : State) (ch : Fin 8) : ((fenced mask chs s).getChain s.coreKey ch).fifo =
    (s.getChain s.coreKey ch).fifo ++ if ch ∈ chs then [.fence mask] else [] := by
  induction chs generalizing s with
  | nil => simp [fenced]
  | cons h chs ih =>
    obtain ⟨hout, hrest⟩ := List.nodup_cons.mp hnodup
    refine (ih hrest _).trans ?_
    by_cases he : ch = h
    · rw [he, if_neg hout, if_pos List.mem_cons_self, List.append_nil]
      exact congrArg Chain.fifo (State.getChain_setChain_same _ _ _ _)
    · have hmem : ch ∈ h :: chs ↔ ch ∈ chs := by simp [he]
      simp only [hmem]
      exact congrArg (fun c : Chain => c.fifo ++ if ch ∈ chs then [.fence mask] else []) (State.getChain_setChain_ne _ _ _ _ he)

theorem mem_chainsOf (ch : Fin 8) : ch ∈ chainsOf mask ↔ mask.getLsbD ch.val = true := by
  have hall : ch ∈ ([0, 1, 2, 3, 4, 5, 6, 7] : List (Fin 8)) := by fin_cases ch <;> decide
  simp only [chainsOf, List.mem_filter, hall, true_and]

theorem chainsOf_nodup : (chainsOf mask).Nodup := List.Nodup.filter _ (by decide)

end

section
variable {s : State} {g : Guard} (hr : Runs s g) (hfree : (s.core.entry (nextTseq s.core.tseq)).state = 0) (hpair : s.ctx.pair = none)
  (hwhole : Whole s) (mask : BitVec 8)
include hr hfree hpair hwhole

theorem exec_cfence_whole : exec (.cfence g mask) s = .next (issued (fenced mask (chainsOf mask) s) (.cfence g mask)) := by
  obtain ⟨x, hcore, hcur, -, -⟩ := fenced_frame mask (chainsOf mask) s
  refine guarded_ok hr ?_
  rw [dispatchNow_free hfree, asMessage_solo hpair hwhole.1 hwhole.2]
  refine dispatchNow_free (s := fenced mask (chainsOf mask) s) ?_ _
  rw [hcore]
  exact hfree

end

end Sys2Proof.Machine
end

section
/-! PROOFS. CAPP: the record's access, its tensor and link, and the append (R281, R294, R296). -/
namespace Sys2Proof.Machine

/-! ### What comes before the append -/

/-- Memory, gangs and the acting context are as before, and every core is of the same gang. -/
structure SameGangs (s t : State) : Prop where
  mem : t.mem = s.mem
  cur : t.cur = s.cur
  gangs : t.gangs = s.gangs
  gangOf : ∀ k, (t.getCore k).gang = (s.getCore k).gang

namespace SameGangs

theorem refl (s : State) : SameGangs s s := ⟨rfl, rfl, rfl, fun _ => rfl⟩

variable {s t u : State} (h : SameGangs s t)
include h

theorem trans (h' : SameGangs t u) : SameGangs s u :=
  ⟨h'.mem.trans h.mem, h'.cur.trans h.cur, h'.gangs.trans h.gangs, fun k => (h'.gangOf k).trans (h.gangOf k)⟩

theorem gangId_eq : t.gangId = s.gangId := by
  rw [State.gangId, State.core, State.coreKey, h.cur]
  exact h.gangOf _

theorem gang_eq : t.gang = s.gang := by rw [State.gang, h.gangId_eq, State.getGang, h.gangs, State.gang, State.getGang]

end SameGangs

theorem CheckFrame.sameGangs {s t : State} (h : CheckFrame s t) : SameGangs s t := by
  refine ⟨h.mem, h.cur, h.gangs, fun k => ?_⟩
  obtain ⟨x, y, z, hcore⟩ := h.core k
  rw [hcore]

theorem CheckFrame.pair {s t : State} (h : CheckFrame s t) : t.ctx.pair = s.ctx.pair := by
  obtain ⟨p, hctx⟩ := h.ctx
  rw [hctx]

theorem CheckFrame.getChain_eq {s t : State} (h : CheckFrame s t) (k : Nat) (ch : Fin 8) : t.getChain k ch = s.getChain k ch := by
  obtain ⟨x, y, z, hcore⟩ := h.core k
  exact State.getChain_congr (by rw [hcore]) ch

/-- R123: an access that passes has left memory and gangs. -/
theorem grantAs_sameGangs {s : State} {i : Instr} {ea : Word} {al n : Nat} {c m : Mode} {w : Bool} {r : Grant}
    (h : grantAs s i ea al n c m w = .ok r) (hr : r.refused = false) : SameGangs s r.s := by
  obtain ⟨u, hcheck, -, -, -, -, hok⟩ := grantAs_ok h
  have hframe := checkMode_checkFrame hcheck
  rw [hok hr]
  split
  · exact (hframe.trans (homeRead_checkFrame _ _ _)).sameGangs
  · exact hframe.sameGangs

theorem noteSent_sameGangs (s : State) (a : Option Word × List Line) : SameGangs s (noteSent s a) := ⟨rfl, rfl, rfl, fun _ => rfl⟩

/-- R149, R183: so has an access of a context that is no paired copy, if its performance does. -/
theorem exchangeAt_sameGangs {s t : State} (hpair : s.ctx.pair = none) {kind pa : Nat} {data : List Byte}
    {perform : State → State × (Option Word × List Line)} (hperform : ∀ u, SameGangs u (perform u).1) {a : Option Word × List Line}
    (h : exchangeAt s kind pa data perform = .ok (t, a)) : SameGangs s t := by
  have honce (h : performOnce s perform = .ok (t, a)) : SameGangs s t := by
    unfold performOnce at h
    split at h
    · obtain rfl : (perform s).1 = t := congrArg Prod.fst (Except.ok.inj h)
      exact hperform s
    · split at h
      · cases h
      · cases h
        have hstep : SameGangs s { s with steps := s.steps.map (· - 1) } := ⟨rfl, rfl, rfl, fun _ => rfl⟩
        exact (hstep.trans (hperform _)).trans (noteSent_sameGangs _ _)
  have hrepeated {b : Option Word × List Line} (h : (.ok ({ s with grp := { s.grp with msg := s.grp.msg + 1 } }, b) : Res _) = .ok (t, a)) :
      SameGangs s t := by
    cases h
    exact ⟨rfl, rfl, rfl, fun _ => rfl⟩
  unfold exchangeAt exchange at h
  rw [message_solo hpair] at h
  split at h
  · split at h
    · exact hrepeated h
    · exact honce h
  · split at h
    · exact hrepeated h
    · exact honce h

theorem loadAtHome_sameGangs (s : State) (pa n : Nat) : SameGangs s (loadAtHome s pa n).1 := (homeLoad_checkFrame s pa).sameGangs

/-- R294: the read of a COPYT's tensor. -/
theorem copytBytes_sameGangs {s t : State} (hpair : s.ctx.pair = none) {b : List Word} {w : Nat} (h : copytBytes s b = .ok (t, w)) :
    SameGangs s t := by
  unfold copytBytes at h
  dsimp only at h
  split at h
  · cases h
    exact .refl s
  · split at h
    · cases h
    next u found hwalk =>
      have hu : CheckFrame s u := walkStep_checkFrame hwalk
      split at h
      · cases h
        exact hu.sameGangs
      next x _ =>
        have hx : CheckFrame s (homeRead (fillTlb u u.coreKey x) .ctx x.pa) :=
          hu.trans ((fillTlb_checkFrame u _ x).trans (homeRead_checkFrame _ _ _))
        split at h
        · cases h
        · split at h
          · cases h
          next hexchange =>
            cases h
            exact hx.sameGangs.trans (exchangeAt_sameGangs (hx.pair.trans hpair) (fun u => loadAtHome_sameGangs u x.pa 32) hexchange)

/-- R296: the walk to the record before. -/
theorem linkBefore_checkFrame {s t : State} {i : Instr} {c : Chain} {link : Option Nat} (h : linkBefore s i c = .ok (t, link)) :
    CheckFrame s t := by
  unfold linkBefore at h
  split at h
  · split at h
    · cases h
    next u found hwalk =>
      have hu : CheckFrame s u := walkStep_checkFrame hwalk
      split at h
      · cases h
        exact hu
      next x _ =>
        dsimp only at h
        split at h
        · unfold stallOr at h
          split at h
          · cases h
          · cases h
        · split at h
          · cases h
          · cases h
            exact hu.trans (fillTlb_checkFrame u _ x)
  · cases h
    exact .refl s

/-- R296: the first record of a chain is linked from none. -/
theorem linkBefore_first (s : State) (i : Instr) {c : Chain} (h : c.fifo = []) : linkBefore s i c = .ok (s, none) := by
  unfold linkBefore
  rw [h]
  rfl

/-! ### The record's stores -/

theorem storePiece_storeFrame (s : State) (p : Piece) (bs : List Byte) : StoreFrame s (storePiece s p bs) := by
  have hfirst := storeAt_storeFrame s p.pa (bs.take p.len)
  unfold storePiece
  dsimp only
  split
  · exact hfirst
  · split
    · exact hfirst.trans (storeFrame_of_eq rfl rfl rfl rfl rfl)
    · exact hfirst.trans (putBytes_storeFrame _ _ _ _)

namespace StoreFrame

variable {s t : State} (h : StoreFrame s t)
include h

theorem coreKey_eq : t.coreKey = s.coreKey := by rw [State.coreKey, h.cur, State.coreKey]

theorem ctxNo_eq : t.ctxNo = s.ctxNo := by unfold State.ctxNo; simp only [h.cur]

theorem getChain_eq (k : Nat) (ch : Fin 8) : t.getChain k ch = s.getChain k ch := by
  obtain ⟨a, b, hcore⟩ := h.core k
  exact State.getChain_congr (by rw [hcore]) ch

theorem core_eq : ∃ a b, t.core = { s.core with stored := a, snapLines := b } := by
  rw [State.core, h.coreKey_eq]
  exact h.core _

end StoreFrame

/-- R296: the state after CAPP's stores: STATE and NEXT of the record at pa, and the link in the record before. -/
def recordStored (s : State) (ea : Word) (pa : Nat) (link : Option Nat) : State :=
  let t := storePiece s ⟨ea, pa + 2, 1, 5, 8⟩
    (Bits.bytesLE 1 (Bits.setFld (Bits.ofBytesLE (s.mem.bytes (pa + 2) 1)) 4 0 1) ++ Bits.bytesLE 8 0)
  link.elim t (fun a => storeAt t a (Bits.bytesLE 8 ea.toNat))

theorem recordStored_storeFrame (s : State) (ea : Word) (pa : Nat) (link : Option Nat) : StoreFrame s (recordStored s ea pa link) := by
  have hpiece := storePiece_storeFrame s ⟨ea, pa + 2, 1, 5, 8⟩
    (Bits.bytesLE 1 (Bits.setFld (Bits.ofBytesLE (s.mem.bytes (pa + 2) 1)) 4 0 1) ++ Bits.bytesLE 8 0)
  unfold recordStored
  cases link with
  | none => exact hpiece
  | some a => exact hpiece.trans (storeAt_storeFrame _ _ _)

/-! ### The append (R281, R294) -/

/-- R294: the scoreboard entry of an appended command, if its kind takes one. -/
def rangeTaken (s : State) (k : Nat) (ch : Fin 8) (seq : Nat) (range : Option (Word × Nat)) : State :=
  match range with
  | none => s
  | some (va, n) => s.updCore (fun x => { x with scoreboard := x.scoreboard ++ [⟨rangePas s k (n / 65536 + 2) va n, ch, seq⟩] })

/-- R296: the state after CAPP's message. -/
def appendedTo (s : State) (ch : Fin 8) (ea : Word) (pa : Nat) (link : Option Nat) (range : Option (Word × Nat)) : State :=
  let seq := (s.getChain s.coreKey ch).acnt + 1
  let t := recordStored s ea pa link
  rangeTaken (appendItem t s.coreKey ch (.record ea seq t.ctxNo t.ctx.pts)) s.coreKey ch seq range

section
variable (s : State) (k : Nat) (ch : Fin 8) (seq : Nat) (range : Option (Word × Nat))

theorem rangeTaken_core : ∃ sb, (rangeTaken s k ch seq range).core = { s.core with scoreboard := sb } ∧
    sb.length = s.core.scoreboard.length + (if range.isSome then 1 else 0) := by
  unfold rangeTaken
  cases range with
  | none => exact ⟨_, rfl, rfl⟩
  | some x => exact ⟨_, State.core_updCore _ _, by simp⟩

theorem rangeTaken_cur : (rangeTaken s k ch seq range).cur = s.cur := by unfold rangeTaken; split <;> rfl

theorem rangeTaken_mem : (rangeTaken s k ch seq range).mem = s.mem := by unfold rangeTaken; split <;> rfl

theorem rangeTaken_getChain (h : Fin 8) : (rangeTaken s k ch seq range).getChain s.coreKey h = s.getChain s.coreKey h := by
  obtain ⟨sb, hcore, -⟩ := rangeTaken_core s k ch seq range
  rw [State.core, State.coreKey, rangeTaken_cur] at hcore
  exact State.getChain_congr (congrArg Core.chains hcore :) h

end

theorem appendItem_core (s : State) (ch : Fin 8) (item : ChainItem) :
    ∃ x, (appendItem s s.coreKey ch item).core = { s.core with chains := x } := ⟨_, State.getCore_setChain_same _ _ _ _⟩

/-- R281, R294, R296: the append: the chain has the record at its end, the scoreboard its range, and the ring is as it was. -/
structure Appended (s t : State) (ch : Fin 8) (ea : Word) (taken : Bool) : Prop where
  cur : t.cur = s.cur
  ring : t.core.tseq = s.core.tseq ∧ t.core.ring = s.core.ring
  scoreboard : t.core.scoreboard.length = s.core.scoreboard.length + (if taken then 1 else 0)
  acnt : (t.getChain s.coreKey ch).acnt = (s.getChain s.coreKey ch).acnt + 1
  tail : (t.getChain s.coreKey ch).tail = ea
  fifo : ∃ stamp, (t.getChain s.coreKey ch).fifo =
    (s.getChain s.coreKey ch).fifo ++ [.record ea ((s.getChain s.coreKey ch).acnt + 1) s.ctxNo stamp]

theorem appendedTo_appended (s : State) (ch : Fin 8) (ea : Word) (pa : Nat) (link : Option Nat) (range : Option (Word × Nat)) :
    Appended s (appendedTo s ch ea pa link range) ch ea range.isSome := by
  have hstored := recordStored_storeFrame s ea pa link
  unfold appendedTo
  dsimp only
  generalize recordStored s ea pa link = u at hstored
  have hkey := hstored.coreKey_eq
  obtain ⟨a, b, hcore⟩ := hstored.core_eq
  generalize hitem : ChainItem.record ea ((s.getChain s.coreKey ch).acnt + 1) u.ctxNo u.ctx.pts = item
  obtain ⟨x, happend⟩ := appendItem_core u ch item
  have hlast : (appendItem u u.coreKey ch item).getChain u.coreKey ch = _ := State.getChain_setChain_same _ _ _ _
  have hcur : (appendItem u u.coreKey ch item).cur = s.cur := hstored.cur
  rw [hkey, hstored.getChain_eq] at hlast
  rw [hkey] at happend hcur
  generalize appendItem u s.coreKey ch item = v at happend hlast hcur
  obtain ⟨sb, hboard, hlength⟩ := rangeTaken_core v s.coreKey ch ((s.getChain s.coreKey ch).acnt + 1) range
  have hchain := rangeTaken_getChain v s.coreKey ch ((s.getChain s.coreKey ch).acnt + 1) range ch
  have hkeyv : v.coreKey = s.coreKey := by rw [State.coreKey, hcur, State.coreKey]
  rw [hkeyv, hlast] at hchain
  rw [happend, hcore] at hlength hboard
  refine ⟨(rangeTaken_cur v _ _ _ _).trans hcur, ?_, ?_, ?_, ?_, ?_⟩
  · rw [hboard]
    exact ⟨rfl, rfl⟩
  · rw [hboard]
    exact hlength
  · rw [hchain, ← hitem]
    rfl
  · rw [hchain, ← hitem]
    rfl
  · rw [hchain, ← hitem, hstored.ctxNo_eq]
    exact ⟨_, rfl⟩

theorem appendedTo_mem (s : State) (ch : Fin 8) (ea : Word) (pa : Nat) (link : Option Nat) (range : Option (Word × Nat)) :
    (appendedTo s ch ea pa link range).mem = (recordStored s ea pa link).mem := rangeTaken_mem _ _ _ _ _

end Sys2Proof.Machine
end

section
/-! PROOFS. CAPP: the record's doublewords after the append, and what the form does (R281, R293, R294, R296). -/
namespace Sys2Proof.Machine

/-! ### Memory after the append -/

/-- R123, R296: a translation keeps an address's place in its line. -/
theorem xlateWith_aligned {s : State} {k g va : Nat} {kind : Kind} {miss : Except Nat (Nat × Nat)} {y : Xlat} (hva : va % 64 = 0)
    (h : xlateWith s k g va kind miss = .ok y) : y.pa % 64 = 0 := by
  rw [xlateWith_eq] at h
  split at h
  next b hnear =>
    obtain ⟨hsum, -⟩ := nearOff_eq_some hnear
    split at h
    · cases h
    · rw [inBounds_pa h]
      simp only [nearBase, mkPa] at hsum ⊢
      omega
  · split at h
    · cases h
    · split at h
      · cases h
      next level pte walked _ =>
        split at h
        · split at h
          · cases h
          · cases h
        · have hpage : va % 2 ^ pageShift level % 64 = 0 := by
            rcases Nat.le_total 6 (pageShift level) with hle | hle
            · rw [Nat.mod_mod_of_dvd va (Nat.pow_dvd_pow 2 hle : 2 ^ 6 ∣ 2 ^ pageShift level)]
              exact hva
            · have hdvd : 2 ^ pageShift level ∣ va := (Nat.pow_dvd_pow 2 hle : 2 ^ pageShift level ∣ 2 ^ 6).trans (Nat.dvd_of_mod_eq_zero hva)
              rw [Nat.mod_eq_zero_of_dvd hdvd]
          rw [inBounds_pa h]
          omega

theorem grantAs_write_aligned {s : State} {i : Instr} {ea : Word} {n : Nat} {m : Mode} {w : Bool} {r : Grant}
    (h : grantAs s i ea 64 n .write m w = .ok r) : r.pa % 64 = 0 := by
  obtain ⟨u, hcheck, -⟩ := grantAs_ok h
  unfold checkMode at hcheck
  split at hcheck
  · cases hcheck
  · obtain ⟨-, halign, v, found, x, -, hx, -, hpa⟩ := checkEA_ok_iff.mp hcheck
    rw [hpa]
    exact xlateWith_aligned halign hx

/-- R348: addresses within a line leave the gang together. -/
theorem leavesGang_line {g : Gang} {pa i : Nat} (hpa : pa % 64 = 0) (hi : i < 64) : leavesGang g (pa + i) = leavesGang g pa := by
  have hreg : paReg (pa + i) = paReg pa := by unfold paReg; omega
  have hpkg : paPkg (pa + i) = paPkg pa := by unfold paPkg; omega
  rw [leavesGang, hreg, hpkg, leavesGang]

/-- R347, R348: the acting gang takes a store at once, and logs it outside memory. -/
def Plain (s : State) (pa : Nat) : Prop := s.gangId = 0 ∨ (s.gang.shadow = 0 ∧ leavesGang s.gang pa = false)

theorem Plain.congr {s t : State} {pa : Nat} (h : Plain s pa) (hid : t.gangId = s.gangId) (hgang : t.gang = s.gang) : Plain t pa := by
  unfold Plain
  rw [hid, hgang]
  exact h

theorem storeAt_mem {s : State} {pa : Nat} (h : Plain s pa) (bs : List Byte) : (storeAt s pa bs).mem = s.mem.writeBytes pa bs := by
  have htables := taking_sameTables s pa bs.length
  rw [storeAt_eq (h.imp_right And.right), putBytes_mem, htables.mem]
  rw [htables.getGang_eq]
  exact h.imp_right And.left

theorem storeAt_gang {s : State} {pa : Nat} (h : Plain s pa) (bs : List Byte) :
    (storeAt s pa bs).gangId = s.gangId ∧ ((storeAt s pa bs).getGang s.gangId).shadow = (s.getGang s.gangId).shadow := by
  obtain ⟨a, b, hcore⟩ := (storeAt_storeFrame s pa bs).core_eq
  refine ⟨(congrArg Core.gang hcore :), ?_⟩
  rw [storeAt_eq (h.imp_right And.right), (putBytes_storeKeeps _ _ _ _).shadow, (taking_sameTables s pa bs.length).getGang_eq]

/-- R152, R296: a piece in two runs is written where its address says. -/
theorem storePiece_mem {s : State} {p : Piece} (h : Plain s p.pa) {bs rest : List Byte} (hlen : bs.length = p.len) (hmore : rest.length = p.more)
    (hnone : p.more ≠ 0) :
    (storePiece s p (bs ++ rest)).mem = (s.mem.writeBytes p.pa bs).writeBytes (p.pa + p.len + p.gap) rest := by
  obtain ⟨hid, hshadow⟩ := storeAt_gang h bs
  have htake : (bs ++ rest).take p.len = bs := List.take_left' hlen
  have hdrop : ((bs ++ rest).drop p.len).take p.more = rest := by rw [List.drop_left' hlen, List.take_of_length_le hmore.le]
  have hstay : ¬ (s.gangId ≠ 0 && leavesGang s.gang p.pa) = true := by rcases h with h | ⟨-, h⟩ <;> simp [h]
  unfold storePiece
  dsimp only
  rw [if_neg hnone, if_neg (by simpa using hstay), htake, hdrop, putBytes_mem, storeAt_mem h]
  rw [hid, hshadow]
  exact h.imp_right And.left

section
variable {s : State} {pa : Nat} (hplain : Plain s pa) (halign : pa % 64 = 0) (ea : Word)
include hplain halign

/-- R282, R296: STATE and NEXT of a record that no record links. -/
theorem recordStored_mem : (recordStored s ea pa none).mem =
    (s.mem.writeLE (pa + 2) 1 (Bits.setFld (s.mem.readLE (pa + 2) 1) 4 0 1)).writeLE (pa + 8) 8 0 := by
  refine storePiece_mem (p := ⟨ea, pa + 2, 1, 5, 8⟩) ?_ (Bits.length_bytesLE _ _) (Bits.length_bytesLE _ _) (Nat.succ_ne_zero 7)
  unfold Plain
  rw [leavesGang_line halign (by decide)]
  exact hplain

theorem recordStored_read {a : Nat} (h : a < pa ∨ pa + 16 ≤ a) : (recordStored s ea pa none).mem.read a = s.mem.read a := by
  rw [recordStored_mem hplain halign, Memory.read_writeLE_out _ _ _ _ _ (by omega), Memory.read_writeLE_out _ _ _ _ _ (by omega)]

variable (w : s.mem.wf = true)
include w

theorem recordStored_next : (recordStored s ea pa none).numAt (pa + 8) 8 = 0 := by
  have h := Memory.readLE_writeLE (Memory.wf_writeLE w (pa + 2) 1 (Bits.setFld (s.mem.readLE (pa + 2) 1) 4 0 1)) (pa + 8) 8 0
  rw [← recordStored_mem hplain halign ea] at h
  exact h

theorem recordStored_state : (recordStored s ea pa none).numAt pa 8 = Bits.setFld (s.numAt pa 8) 4 16 1 := by
  have hsplit (m : Memory) : m.readLE pa 8 = m.readLE pa 2 + 2 ^ 16 * (m.readLE (pa + 2) 1 + 2 ^ 8 * m.readLE (pa + 3) 5) := by
    simp only [Memory.readLE, Memory.bytes, Bits.ofBytesLE, Nat.add_assoc, Nat.reduceAdd]
    omega
  have hlow : (recordStored s ea pa none).mem.readLE pa 2 = s.mem.readLE pa 2 := by
    rw [recordStored_mem hplain halign, Memory.readLE_writeLE_out _ _ _ _ _ _ (by omega), Memory.readLE_writeLE_out _ _ _ _ _ _ (by omega)]
  have hhigh : (recordStored s ea pa none).mem.readLE (pa + 3) 5 = s.mem.readLE (pa + 3) 5 := by
    rw [recordStored_mem hplain halign, Memory.readLE_writeLE_out _ _ _ _ _ _ (by omega), Memory.readLE_writeLE_out _ _ _ _ _ _ (by omega)]
  have hbyte : (recordStored s ea pa none).mem.readLE (pa + 2) 1 = Bits.setFld (s.mem.readLE (pa + 2) 1) 4 0 1 % 256 ^ 1 := by
    rw [recordStored_mem hplain halign, Memory.readLE_writeLE_out _ _ _ _ _ _ (by omega), Memory.readLE_writeLE w]
  have hlt := Memory.readLE_lt s.mem pa 2
  have hlt1 := Memory.readLE_lt s.mem (pa + 2) 1
  unfold State.numAt
  change (recordStored s ea pa none).mem.readLE pa 8 = Bits.setFld (s.mem.readLE pa 8) 4 16 1
  rw [hsplit, hsplit, hlow, hhigh, hbyte]
  simp only [Bits.setFld, Nat.shiftRight_eq_div_pow]
  omega

end

/-! ### The form -/

/-- R205, R296: a form that sends a message and is complete at issue. -/
theorem message_dispatched {s t : State} (hpair : s.ctx.pair = none) (hwhole : Whole s) (hfree : (s.core.entry (nextTseq s.core.tseq)).state = 0)
    {i : Instr} {kind addr : Nat} {data : List Byte} {perform : State → State × (Option Word × List Line)}
    {take : State → Option Word × List Line → State} (ht : take (perform s).1 (perform s).2 = t)
    (hafter : (t.core.entry (nextTseq t.core.tseq)).state = 0) :
    (do let _ ← dispatchNow s i; let t ← asMessage s kind addr data perform take; dispatchNow t i : Res State) = .ok (issued t i) := by
  rw [dispatchNow_free hfree, asMessage_solo hpair hwhole.1 hwhole.2, ht]
  exact dispatchNow_free hafter i

/-- R183: a context that is no paired copy takes no answer again. -/
theorem replaying_solo {s : State} (h : s.ctx.pair = none) : replaying s = false := by
  unfold replaying
  rw [h]
  rfl

/-- R93: D takes a value, if the form has one. -/
def putOpt (s : State) (d : Option (Fin 32)) (v : Word) : State :=
  match d with
  | some r => s.putS r v
  | none => s

theorem putOpt_frame (s : State) (d : Option (Fin 32)) (v : Word) :
    (putOpt s d v).core = s.core ∧ (putOpt s d v).cur = s.cur ∧ (putOpt s d v).mem = s.mem ∧
      ∀ k ch, (putOpt s d v).getChain k ch = s.getChain k ch := by
  cases d <;> exact ⟨rfl, rfl, rfl, fun _ _ => rfl⟩

theorem putOpt_s (s : State) {q : Fin 32} (hq : q ≠ 0) (v : Word) : (putOpt s (some q) v).ctx.s[q] = v := by
  rw [putOpt, State.ctx_putS]
  exact Ctx.putS_same _ _ _ hq

section
variable {s : State} {g : Guard} (hr : Runs s g) {a : Opnd} {ch : Fin 8} (hch : (s.src a).toNat = ch.val) {o : Option (Fin 32)} {e : Fin 32}
  {nsb : Bool}
include hr hch

/-- R293: a misaligned record. -/
theorem exec_capp_misaligned {x : TrapInfo} (h : grantAs s (.capp g o e a nsb) (s.rs e) 64 16 .write .rmw false = .error (.trap x))
    (hx : x.cause = 0x13) : exec (.capp g o e a nsb) s = .next (takeTrap s { x with cause := 0x51 }) := by
  refine (guarded_runs hr _ _).trans ?_
  rw [chainOf_chain hch, h]
  show finish s (.error (.trap (if x.cause = 0x13 then { x with cause := 0x51 } else x))) = _
  rw [if_pos hx]
  rfl

variable {r : Grant} (hgrant : grantAs s (.capp g o e a nsb) (s.rs e) 64 16 .write .rmw false = .ok r) (hok : r.refused = false)
include hgrant hok

/-- R293: a record of a wrong kind or state. -/
theorem exec_capp_wrong (hpair : r.s.ctx.pair = none) (h : kindOk ch (dw (wordsOf (r.s.mem.bytes r.pa 64)) 0 % 256) = false ∨
      Bits.fld (dw (wordsOf (r.s.mem.bytes r.pa 64)) 0) 19 16 = 1 ∨ Bits.fld (dw (wordsOf (r.s.mem.bytes r.pa 64)) 0) 19 16 = 2) :
    exec (.capp g o e a nsb) s = .next (takeTrap r.s (openInfo r.s 0x51)) := by
  refine (guarded_runs hr _ _).trans ?_
  rw [chainOf_chain hch, hgrant]
  refine congrArg (finish s) ((if_neg (by simp [hok])).trans (if_pos ?_))
  rw [replaying_solo hpair, Bool.not_false, Bool.and_true]
  simpa [or_assoc] using h

/-- R296: a record that passes is stored, linked and appended, and its form complete. -/
theorem exec_capp_appends (hkind : kindOk ch (dw (wordsOf (r.s.mem.bytes r.pa 64)) 0 % 256) = true)
    (hstate1 : Bits.fld (dw (wordsOf (r.s.mem.bytes r.pa 64)) 0) 19 16 ≠ 1)
    (hstate2 : Bits.fld (dw (wordsOf (r.s.mem.bytes r.pa 64)) 0) 19 16 ≠ 2)
    {ranged : Bool} (hranged : ranged = (!nsb && (sbRange (wordsOf (r.s.mem.bytes r.pa 64)) 1).isSome))
    (hboard : ranged = false ∨ r.s.core.scoreboard.length < 16) (hseed : seedHolds r.s = false) {x u : State} {w : Nat} {link : Option Nat}
    (hbytes : (if ranged then copytBytes r.s (wordsOf (r.s.mem.bytes r.pa 64)) else .ok (r.s, 1)) = .ok (x, w))
    (hlink : linkBefore x (.capp g o e a nsb) (x.getChain x.coreKey ch) = .ok (u, link)) (hupair : u.ctx.pair = none) (hwhole : Whole u)
    (hfree : (u.core.entry (nextTseq u.core.tseq)).state = 0) : exec (.capp g o e a nsb) s =
      .next (issued (putOpt (appendedTo u ch (s.rs e) r.pa link (if ranged then sbRange (wordsOf (r.s.mem.bytes r.pa 64)) w else none)) o
        (BitVec.ofNat 64 ((u.getChain u.coreKey ch).acnt + 1))) (.capp g o e a nsb)) := by
  refine guarded_ok hr ?_
  rw [chainOf_chain hch, hgrant]
  refine (if_neg (by simp [hok])).trans ((if_neg (by simp [hkind, hstate1, hstate2])).trans ((if_neg ?_).trans ?_))
  · rw [← hranged, hseed, Bool.or_false, Bool.and_eq_true, decide_eq_true_eq]
    rcases hboard with h | h
    · simp [h]
    · exact fun hfull => absurd hfull.2 (by omega)
  · have happended := appendedTo_appended u ch (s.rs e) r.pa link (if ranged then sbRange (wordsOf (r.s.mem.bytes r.pa 64)) w else none)
    have hafter {t : State} (ht : t.core =
        (appendedTo u ch (s.rs e) r.pa link (if ranged then sbRange (wordsOf (r.s.mem.bytes r.pa 64)) w else none)).core) :
        (t.core.entry (nextTseq t.core.tseq)).state = 0 := by
      rw [ht, Core.entry, happended.ring.1, happended.ring.2]
      exact hfree
    rw [← hranged]
    cases ranged with
    | true =>
      rw [if_pos rfl] at hbytes
      rw [if_pos rfl, hbytes]
      dsimp only [bind, Except.bind]
      rw [hlink]
      dsimp only
      refine message_dispatched hupair hwhole hfree ?_ (hafter (putOpt_frame _ _ _).1)
      generalize (if true = true then sbRange (wordsOf (r.s.mem.bytes r.pa 64)) w else none) = range
      unfold putOpt appendedTo rangeTaken recordStored
      cases o <;> cases range <;> rfl
    | false =>
      rw [if_neg Bool.false_ne_true] at hbytes
      obtain ⟨rfl, rfl⟩ := Prod.mk.inj (Except.ok.inj hbytes)
      rw [if_neg Bool.false_ne_true]
      dsimp only [bind, Except.bind, pure, Except.pure]
      rw [hlink]
      dsimp only
      refine message_dispatched hupair hwhole hfree ?_ (hafter (putOpt_frame _ _ _).1)
      generalize (if false = true then sbRange (wordsOf (r.s.mem.bytes r.pa 64)) 1 else none) = range
      unfold putOpt appendedTo rangeTaken recordStored
      cases o <;> cases range <;> rfl

end

/-- The state that CAPP leaves, its append made. -/
def cappDone (u : State) (i : Instr) (ch : Fin 8) (o : Option (Fin 32)) (ea : Word) (pa : Nat) (link : Option Nat) (range : Option (Word × Nat)) :
    State :=
  issued (putOpt (appendedTo u ch ea pa link range) o (BitVec.ofNat 64 ((u.getChain u.coreKey ch).acnt + 1))) i

/-- R205, R281, R294, R296: the chain, the destination, the scoreboard and the ring. -/
theorem cappDone_appended (u : State) (i : Instr) (ch : Fin 8) (o : Option (Fin 32)) (ea : Word) (pa : Nat) (link : Option Nat)
    (range : Option (Word × Nat)) :
    let t := cappDone u i ch o ea pa link range
    let c := u.getChain u.coreKey ch
    (t.getChain u.coreKey ch).acnt = c.acnt + 1 ∧ (t.getChain u.coreKey ch).tail = ea ∧
    (∃ stamp, (t.getChain u.coreKey ch).fifo = c.fifo ++ [.record ea (c.acnt + 1) u.ctxNo stamp]) ∧
    (∀ q, o = some q → q ≠ 0 → t.ctx.s[q] = BitVec.ofNat 64 (c.acnt + 1)) ∧
    t.core.scoreboard.length = u.core.scoreboard.length + (if range.isSome then 1 else 0) ∧ t.core.tseq = nextTseq u.core.tseq ∧
    t.mem = (recordStored u ea pa link).mem := by
  obtain ⟨hcur, ⟨htseq, -⟩, hboard, hacnt, htail, hfifo⟩ := appendedTo_appended u ch ea pa link range
  have hmem := appendedTo_mem u ch ea pa link range
  generalize hv : BitVec.ofNat 64 ((u.getChain u.coreKey ch).acnt + 1) = v
  unfold cappDone
  rw [hv]
  generalize appendedTo u ch ea pa link range = x at hcur htseq hboard hacnt htail hfifo hmem
  obtain ⟨hpcore, hpcur, hpmem, hpchain⟩ := putOpt_frame x o v
  have hkey : (putOpt x o v).coreKey = u.coreKey := by rw [State.coreKey, hpcur, hcur, State.coreKey]
  have hchain := issued_getChain (putOpt x o v) i ch
  rw [hkey, hpchain] at hchain
  have hcore := issued_core (putOpt x o v) i
  rw [hpcore, htseq] at hcore
  intro t c
  refine ⟨?_, ?_, ?_, ?_, ?_, (congrArg Core.tseq hcore :), hpmem.trans hmem⟩
  · exact (congrArg Chain.acnt hchain).trans hacnt
  · exact (congrArg Chain.tail hchain).trans htail
  · exact hfifo.imp fun stamp h => (congrArg Chain.fifo hchain).trans h
  · rintro q rfl hq
    exact (putOpt_s x hq v).trans hv.symm
  · exact (congrArg (fun k : Core => k.scoreboard.length) hcore :).trans hboard

/-- R282, R296: the doublewords of the first record of a chain, and every other byte. -/
theorem cappDone_first {s u : State} (hsame : SameGangs s u) (w : s.mem.wf = true) {pa : Nat} (hplain : Plain s pa) (halign : pa % 64 = 0)
    (i : Instr) (ch : Fin 8) (o : Option (Fin 32)) (ea : Word) (range : Option (Word × Nat)) :
    let t := cappDone u i ch o ea pa none range
    t.numAt pa 8 = Bits.setFld (s.numAt pa 8) 4 16 1 ∧ t.numAt (pa + 8) 8 = 0 ∧ SameMemoryBut s t pa 16 := by
  obtain ⟨-, -, -, -, -, -, hmem⟩ := cappDone_appended u i ch o ea pa none range
  have hu : Plain u pa := hplain.congr hsame.gangId_eq hsame.gang_eq
  have huw : u.mem.wf = true := by rw [hsame.mem]; exact w
  have hnum (b n : Nat) : (cappDone u i ch o ea pa none range).numAt b n = (recordStored u ea pa none).numAt b n := by
    rw [State.numAt, hmem, State.numAt]
  refine ⟨?_, ?_, fun b hb => ?_⟩
  · rw [hnum, recordStored_state hu halign ea huw, State.numAt, hsame.mem, State.numAt]
  · rw [hnum]
    exact recordStored_next hu halign ea huw
  · rw [hmem, recordStored_read hu halign ea hb, hsame.mem]

end Sys2Proof.Machine

open Sys2Proof Sys2Proof.Machine

/-- Settles O50: each form is its chain's record read or changed, and the ring entry that it takes; CAPP's stores and append come after all that may
stop it. -/
theorem engineForms : Obligations.EngineForms := by
  unfold Obligations.EngineForms
  intro g d o a b e lim mask clear nsb s hr hfree hpair
  refine ⟨fun h => ⟨⟨_, exec_cseq_above hr h d⟩, ⟨_, exec_cstat_above hr h d clear⟩, ⟨_, exec_cwait_above hr h lim⟩,
    ⟨_, exec_capp_above hr h o e nsb⟩⟩,
    fun ch hch => ?_, fun hwhole => ?_⟩
  · intro c v
    refine ⟨⟨_, exec_cseq_chain hr hch hfree d, ?_, ?_, ?_, ?_⟩, ⟨_, exec_cstat_chain hr hch hfree d clear, ?_, ?_, ?_, ?_⟩,
      fun hacnt hccnt => ⟨_, exec_cwait_done hr hch hfree lim hacnt hccnt, ?_, ?_, ?_⟩,
      fun hacnt hccnt hwaited => ?_, fun hacnt => ⟨_, exec_cwait_never hr hch lim hacnt⟩,
      fun r hgrant hok hrpair => ?_, fun x hstop hx => exec_capp_misaligned hr hch hstop hx⟩
    · exact dispatched_of s _ rfl rfl
    · intro hd
      rw [State.ctx_putS]
      exact Ctx.putS_same _ _ _ hd
    · rw [State.ctx_putS, Ctx.putS_pts]
      exact seeChain_pts _ _
    · exact fun _ => rfl
    · exact dispatched_of s _ (faultCleared_core _ _ _).1 (faultCleared_core _ _ _).2
    · intro hd
      rw [State.ctx_putS]
      exact Ctx.putS_same _ _ _ hd
    · refine (faultCleared_fault (issued s (.cstat g clear d a)) ch clear).trans ?_
      rw [issued_coreKey, issued_getChain]
    · exact fun x => congrArg (Memory.read · x) (faultCleared_mem _ _ _)
    · exact dispatched_of s _ rfl rfl
    · exact seeChain_pts _ _
    · exact fun _ => rfl
    · intro limit
      obtain ⟨t, hexec, hstalled, hctx, hmem⟩ :=
        finish_stall s s (.timed (.chain ch.val) (limitFor s (fun t => t == .chain ch.val) lim.toNat) false)
      refine ⟨t, (exec_cwait_waits hr hch lim hacnt hccnt).trans hexec, ?_, hstalled, fun x => by rw [hmem]⟩
      rw [hctx, limitFor_begins hwaited]
    · intro body ranged state
      refine ⟨fun x w u link hkind h1 h2 hboard hseed hbytes hlink hupair huwhole hufree => ?_, fun hwrong => ?_⟩
      · intro range k c
        obtain ⟨hacnt, htail, hfifo, hd, hsb, htseq, -⟩ := cappDone_appended u (.capp g o e a nsb) ch o (s.rs e) r.pa link range
        refine ⟨_, exec_capp_appends hr hch hgrant hok hkind h1 h2 rfl hboard hseed hbytes hlink hupair huwhole hufree,
          hacnt, htail, hfifo, hd, hsb, htseq, fun hempty w hplain => ?_⟩
        have hgranted := grantAs_sameGangs hgrant hok
        have hlinked := linkBefore_checkFrame hlink
        have hread : SameGangs r.s x := by
          split at hbytes
          · exact copytBytes_sameGangs hrpair hbytes
          · obtain ⟨rfl, -⟩ := Prod.mk.inj (Except.ok.inj hbytes)
            exact .refl _
        have hfirst : (x.getChain x.coreKey ch).fifo = [] := by
          rw [← hlinked.getChain_eq, ← hlinked.coreKey_eq]
          exact hempty
        rw [linkBefore_first _ _ hfirst] at hlink
        obtain ⟨rfl, rfl⟩ := Prod.mk.inj (Except.ok.inj hlink)
        have hold : r.s.numAt r.pa 8 = s.numAt r.pa 8 := by rw [State.numAt, hgranted.mem, State.numAt]
        rw [hold]
        exact cappDone_first (hgranted.trans hread) w hplain (grantAs_write_aligned hgrant) _ ch o (s.rs e) range
      · exact ⟨_, _, exec_capp_wrong hr hch hgrant hok hrpair hwrong⟩
  · obtain ⟨x, hcore, hcur, hmem, hgrp⟩ := fenced_frame mask (chainsOf mask) s
    have hkey : (fenced mask (chainsOf mask) s).coreKey = s.coreKey := by rw [State.coreKey, hcur, State.coreKey]
    refine ⟨_, exec_cfence_whole hr hfree hpair hwhole mask, ?_, fun y => by rw [issued_mem, hmem], fun ch => ?_⟩
    · exact (issued_dispatched _ _).congr (by rw [hcore]) hcur hgrp
    · have hchain := issued_getChain (fenced mask (chainsOf mask) s) (.cfence g mask) ch
      rw [hkey] at hchain
      rw [hchain, fenced_fifo mask (chainsOf_nodup mask)]
      simp only [mem_chainsOf]
end
section
/-! PROOFS. What the accesses of an engine leave, where no agenda limits a step (R156, R284, R293). -/
namespace Sys2Proof.Machine

/-! ### Work that is begun, and no limit on its step -/

/-- R149: a step has no limit, and its piece of work has nothing to go over. -/
def Afresh (s : State) : Prop := s.steps = none ∧ replayed s = none

theorem Unbroken.openScript {s : State} {key : Nat} (h : Unbroken s key) : Afresh (openScript s key) := by
  obtain ⟨hsteps, hscripts⟩ := h
  refine ⟨hsteps, ?_⟩
  show (mget [] key s.scripts)[0]? = none
  rw [mget, hscripts]
  rfl

theorem afresh_of_noScript {s : State} (hsteps : s.steps = none) (hscript : s.script = none) : Afresh s :=
  ⟨hsteps, by rw [replayed, hscript]; rfl⟩

theorem Afresh.spentOut {s : State} (h : Afresh s) : spentOut s = false := by
  rw [Machine.spentOut, h.1]
  rfl

/-! ### What stays -/

/-- R156: an access of the engine of chain ch of core k moves that chain's ETS on, and leaves contexts, the other chains of the core, and the record
of the work of engines. -/
structure EngKeeps (k : Nat) (ch : Fin 8) (s t : State) : Prop where
  steps : s.steps = none → t.steps = none
  script : t.script = s.script
  scripts : t.scripts = s.scripts
  ctxs : t.ctxs = s.ctxs
  chain : ∃ e, (s.getChain k ch).ets ≤ e ∧ t.getChain k ch = { s.getChain k ch with ets := e }
  others : ∀ h, h ≠ ch → t.getChain k h = s.getChain k h

section
variable {k : Nat} {ch : Fin 8} {s t u : State}

theorem engKeeps_of_chains (hsteps : s.steps = none → t.steps = none) (hscript : t.script = s.script) (hscripts : t.scripts = s.scripts)
    (hctxs : t.ctxs = s.ctxs) (hchains : (t.getCore k).chains = (s.getCore k).chains) : EngKeeps k ch s t :=
  ⟨hsteps, hscript, hscripts, hctxs, ⟨_, le_rfl, State.getChain_congr hchains ch⟩, fun h _ => State.getChain_congr hchains h⟩

theorem EngKeeps.refl (s : State) : EngKeeps k ch s s := engKeeps_of_chains id rfl rfl rfl rfl

theorem EngKeeps.trans (h : EngKeeps k ch s t) (h' : EngKeeps k ch t u) : EngKeeps k ch s u := by
  obtain ⟨e, hle, hchain⟩ := h.chain
  obtain ⟨e', hle', hchain'⟩ := h'.chain
  rw [hchain] at hle' hchain'
  exact ⟨h'.steps ∘ h.steps, h'.script.trans h.script, h'.scripts.trans h.scripts, h'.ctxs.trans h.ctxs,
    ⟨e', hle.trans hle', hchain'⟩, fun x hx => (h'.others x hx).trans (h.others x hx)⟩

theorem EngKeeps.afresh (h : EngKeeps k ch s t) (hs : Afresh s) : Afresh t := by
  obtain ⟨hsteps, hreplayed⟩ := hs
  refine ⟨h.steps hsteps, ?_⟩
  rw [replayed, h.script, h.scripts]
  exact hreplayed

theorem EngKeeps.getCtx (h : EngKeeps k ch s t) (j : Nat) : t.getCtx j = s.getCtx j := by rw [State.getCtx, h.ctxs, State.getCtx]

theorem engKeeps_setCore (s : State) (j : Nat) {x : Core} (hx : x.chains = (s.getCore j).chains) : EngKeeps k ch s (s.setCore j x) := by
  refine engKeeps_of_chains id rfl rfl rfl ?_
  by_cases hj : k = j
  · rw [hj, State.getCore_setCore_same, hx]
  · rw [State.getCore_setCore_ne _ _ _ _ hj]

theorem engKeeps_setEts (s : State) {e : Nat} (he : (s.getChain k ch).ets ≤ e) :
    EngKeeps k ch s (s.setChain k ch { s.getChain k ch with ets := e }) :=
  ⟨id, rfl, rfl, rfl, ⟨e, he, State.getChain_setChain_same _ _ _ _⟩, fun _ hne => State.getChain_setChain_ne _ _ _ _ hne⟩

theorem engKeeps_lines (s : State) (l : SMap LineMeta) : EngKeeps k ch s { s with lines := l } := engKeeps_of_chains id rfl rfl rfl rfl

theorem spend_engKeeps (s : State) : EngKeeps k ch s (spend s) :=
  engKeeps_of_chains (fun h => by rw [spend, h]; rfl) rfl rfl rfl rfl

/-- An access of an engine that writes nothing. -/
structure EngLooks (k : Nat) (ch : Fin 8) (s t : State) : Prop where
  keeps : EngKeeps k ch s t
  same : SameGangs s t

theorem EngLooks.refl (s : State) : EngLooks k ch s s := ⟨.refl s, .refl s⟩

theorem EngLooks.trans (h : EngLooks k ch s t) (h' : EngLooks k ch t u) : EngLooks k ch s u := ⟨h.keeps.trans h'.keeps, h.same.trans h'.same⟩

theorem EngLooks.afresh (h : EngLooks k ch s t) (hs : Afresh s) : Afresh t := h.keeps.afresh hs

end

/-- What a read of an engine, or its failure, leaves; a failure has a cause. -/
def LooksTo {α : Type} (k : Nat) (ch : Fin 8) (s : State) (f : α → State) : Eng α → Prop
  | .ok a => EngLooks k ch s (f a)
  | .error e => EngLooks k ch s e.s ∧ e.cause ≠ 0

section
variable {α β : Type} {k : Nat} {ch : Fin 8} {s : State} {f : α → State} {g : β → State} {r : Eng α}

theorem LooksTo.ok (h : LooksTo k ch s f r) {a : α} (hr : r = .ok a) : EngLooks k ch s (f a) := by subst hr; exact h

theorem LooksTo.map (h : LooksTo k ch s f r) {m : α → β} (hm : ∀ a, g (m a) = f a) : LooksTo k ch s g (r.map m) := by
  cases r with
  | error e => exact h
  | ok a =>
    show EngLooks k ch s (g (m a))
    rw [hm]
    exact h

theorem LooksTo.after {t : State} (hst : EngLooks k ch s t) (h : LooksTo k ch t f r) : LooksTo k ch s f r := by
  cases r with
  | error e => exact ⟨hst.trans h.1, h.2⟩
  | ok a => exact hst.trans h

theorem LooksTo.bind (hs : Afresh s) (h : LooksTo k ch s f r) {m : α → Eng β} (hm : ∀ a, Afresh (f a) → LooksTo k ch (f a) g (m a)) :
    LooksTo k ch s g (r >>= m) := by
  cases r with
  | error e => exact h
  | ok a => exact .after h (hm a (EngLooks.afresh h hs))

end

/-! ### Reads (R151, R156, R357) -/

section
variable (s : State) (k : Nat) (ch : Fin 8)

theorem homeRead_engLooks (who : Reader) (pa : Nat) : EngLooks k ch s (homeRead s who pa) := by
  obtain ⟨l, c, h⟩ := homeRead_split s who pa
  rw [h]
  exact ⟨engKeeps_of_chains id rfl rfl rfl rfl, ⟨rfl, rfl, rfl, fun _ => rfl⟩⟩

theorem spend_engLooks : EngLooks k ch s (spend s) := ⟨spend_engKeeps s, ⟨rfl, rfl, rfl, fun _ => rfl⟩⟩

theorem setCore_engLooks (j : Nat) {x : Core} (hchains : x.chains = (s.getCore j).chains) (hgang : x.gang = (s.getCore j).gang) :
    EngLooks k ch s (s.setCore j x) := by
  refine ⟨engKeeps_setCore s j hchains, rfl, rfl, rfl, fun i => ?_⟩
  by_cases hi : i = j
  · rw [hi, State.getCore_setCore_same, hgang]
  · rw [State.getCore_setCore_ne _ _ _ _ hi]

/-- R156: the step that takes a load's timestamp. -/
def etsTaken (k : Nat) (ch : Fin 8) (r : State × Nat) : State :=
  r.1.setChain k ch { r.1.getChain k ch with ets := r.2 }

theorem etsTaken_engKeeps {r : State × Nat} {l : SMap LineMeta} (hr : r.1 = { s with lines := l }) (he : (s.getChain k ch).ets ≤ r.2) :
    EngKeeps k ch s (etsTaken k ch r) := by
  have hets : (r.1.getChain k ch).ets ≤ r.2 := by
    rw [hr]
    exact he
  exact (hr ▸ engKeeps_lines s l).trans (engKeeps_setEts _ hets)

theorem loadHome_engLooks (l : Nat) : EngLooks k ch s (etsTaken k ch (loadHome s l (s.getChain k ch).ets)) := by
  refine ⟨etsTaken_engKeeps s k ch rfl (Nat.le_max_left _ _), rfl, rfl, rfl, fun i => ?_⟩
  by_cases hi : i = k
  · rw [hi, etsTaken, State.getCore_setChain_same]
    rfl
  · exact congrArg Core.gang (State.getCore_setChain_ne _ _ _ _ hi)

theorem loadOf_looks (va : Word) (pa n : Nat) : LooksTo k ch s Prod.fst (loadOf s k ch va pa n) := by
  have hread := (spend_engLooks s k ch).trans (homeRead_engLooks _ k ch (readerOf ch) pa)
  unfold loadOf
  extract_lets u bs r
  split
  · exact ⟨hread, (Nat.succ_ne_zero 0x55 : 0x56 ≠ 0)⟩
  · exact hread.trans (loadHome_engLooks u k ch (pa / 64))

theorem walkBy_looks {read : State → Nat → Eng (State × Nat)} (hread : ∀ s a, LooksTo k ch s Prod.fst (read s a)) (va fuel level base : Nat) :
    LooksTo k ch s Prod.fst (walkBy read va s fuel level base) := by
  induction fuel generalizing s level base with
  | zero => exact .refl s
  | succ fuel ih =>
    have hfirst := hread s (base + 8 * levelIndex va level)
    unfold walkBy
    split
    next e he =>
      rw [he] at hfirst
      exact hfirst
    next t e he =>
      have ht : EngLooks k ch s t := hfirst.ok he
      split
      · exact ht
      · exact .after ht (ih t _ _)
      · exact ht

theorem engWalk_looks (va : Word) : LooksTo k ch s Prod.fst (engWalk s k ch va) := by
  unfold engWalk
  split
  · have hcount : EngLooks k ch s (countWalk s k) := setCore_engLooks s k ch k rfl rfl
    exact .after hcount (walkBy_looks _ k ch (fun t a => LooksTo.map (f := Prod.fst) (m := fun r => (r.1, Bits.ofBytesLE r.2))
      (loadOf_looks t k ch va a 8) fun _ => rfl) _ _ _ _)
  · exact EngLooks.refl s

theorem fillTlb_engLooks (j : Nat) (x : Xlat) : EngLooks k ch s (fillTlb s j x) := by
  unfold fillTlb
  split
  · exact .refl s
  · exact setCore_engLooks s k ch j rfl rfl

/-- R293: the address checks of an engine. -/
theorem engCheck_looks (va : Word) (n align : Nat) (kind : Kind) : LooksTo k ch s Prod.fst (engCheck s k ch va n align kind) := by
  have hwalk := engWalk_looks s k ch va
  have hbad {t : State} {c : Nat} (h : EngLooks k ch s t) :
      LooksTo k ch s Prod.fst (.error ⟨t, 0x54, c, va, 0⟩ : Eng (State × Nat)) := ⟨h, (Nat.succ_ne_zero 0x53 : 0x54 ≠ 0)⟩
  unfold engCheck
  extract_lets g bad
  split
  · exact hbad (.refl s)
  split
  · exact hbad (.refl s)
  split
  next e he =>
    rw [he] at hwalk
    exact hwalk
  next t found he =>
    have ht : EngLooks k ch s t := hwalk.ok he
    split
    · exact hbad ht
    next x _ =>
      have hx := ht.trans (fillTlb_engLooks t k ch k x)
      extract_lets u
      split
      · exact hbad hx
      split
      · exact hbad hx
      split
      · exact ⟨hx, (Nat.succ_ne_zero 0x54 : 0x55 ≠ 0)⟩
      · exact hx

/-! ### Stores (R152, R156, R348) -/

theorem putBytes_engKeeps (g pa : Nat) (bs : List Byte) : EngKeeps k ch s (putBytes s g pa bs) := by
  obtain ⟨ls, m, x, f, l, r, h⟩ := putBytes_split s g pa bs
  rw [h]
  refine EngKeeps.trans (t := if paReg pa = 1 then s.setCore (padCore pa) { s.getCore (padCore pa) with snapLines := ls } else s) ?_
    (engKeeps_of_chains id rfl rfl rfl rfl)
  split
  · exact engKeeps_setCore s _ rfl
  · exact .refl s

theorem foldl_engKeeps {α : Type} {f : State → α → State} (hf : ∀ s a, EngKeeps k ch s (f s a)) (xs : List α) :
    EngKeeps k ch s (xs.foldl f s) := by
  induction xs generalizing s with
  | nil => exact .refl s
  | cons a xs ih => exact (hf s a).trans (ih _)

theorem homeStoreOf_engKeeps (pa : Nat) (writes : List (Nat × List Byte)) : EngKeeps k ch s (homeStoreOf s k ch pa writes) := by
  unfold homeStoreOf
  extract_lets l whole m u r c v
  have hu : EngKeeps k ch s u := by
    simp only [u]
    split
    · exact engKeeps_lines s _
    · exact .refl s
  have hv : EngKeeps k ch u v := etsTaken_engKeeps u k ch (r := r) rfl (Nat.le_max_left _ _)
  exact (hu.trans hv).trans (foldl_engKeeps v k ch (fun t w => putBytes_engKeeps t k ch _ _ _) writes)

theorem storeOf_engKeeps (pa : Nat) (writes : List (Nat × List Byte)) : EngKeeps k ch s (storeOf s k ch pa writes) := by
  unfold storeOf
  extract_lets g
  split
  · exact engKeeps_of_chains id rfl rfl rfl rfl
  · exact homeStoreOf_engKeeps s k ch pa writes

end

/-! ### Accesses made once (R149, R156) -/

theorem noteSeen_unlimited {s : State} (h : s.steps = none) (x : Seen) : noteSeen s x = s := by rw [noteSeen, h]

theorem engOnce_eq {s : State} (h : Afresh s) (act : State → Eng (State × List Byte)) : engOnce s act =
    match act s with
    | .ok (s, bs) => .ok (noteSeen s (.done bs), bs)
    | .error e => .error { e with s := noteSeen e.s (.failed e.cause e.under e.va e.poison) } := by
  rw [engOnce, h.2]
  refine (if_neg (by rw [h.spentOut]; exact Bool.false_ne_true)).trans ?_
  cases act s <;> rfl

section
variable {s : State} (hs : Afresh s) (k : Nat) (ch : Fin 8)
include hs

theorem engOnce_looks {act : State → Eng (State × List Byte)} (h : LooksTo k ch s Prod.fst (act s)) : LooksTo k ch s Prod.fst (engOnce s act) := by
  rw [engOnce_eq hs]
  cases hact : act s with
  | error e =>
    rw [hact] at h
    obtain ⟨hlooks, hcause⟩ := h
    refine ⟨?_, hcause⟩
    rw [noteSeen_unlimited (hlooks.keeps.steps hs.1)]
    exact hlooks
  | ok a =>
    have hlooks := h.ok hact
    show EngLooks k ch s (noteSeen a.1 (.done a.2))
    rw [noteSeen_unlimited (hlooks.keeps.steps hs.1)]
    exact hlooks

theorem engAddr_looks (va : Word) (n align : Nat) (kind : Kind) : LooksTo k ch s Prod.fst (engAddr s k ch va n align kind) :=
  LooksTo.map (f := Prod.fst) (engOnce_looks hs k ch
    (LooksTo.map (f := Prod.fst) (m := fun r => (r.1, Bits.bytesLE 8 r.2)) (engCheck_looks s k ch va n align kind) fun _ => rfl)) fun _ => rfl

theorem engLoad_looks (va : Word) (pa n : Nat) : LooksTo k ch s Prod.fst (engLoad s k ch va pa n) :=
  engOnce_looks hs k ch (loadOf_looks s k ch va pa n)

theorem engLoad_length {va : Word} {pa n : Nat} {t : State} {bs : List Byte} (h : engLoad s k ch va pa n = .ok (t, bs)) : bs.length = n := by
  rw [engLoad, engOnce_eq hs] at h
  unfold loadOf at h
  dsimp only at h
  split at h
  next hload =>
    split at hload
    · cases hload
    · cases hload
      cases h
      exact Memory.length_bytes _ _ _
  · cases h

theorem engReads_looks (align : Nat) (xs : List (Word × Nat)) (acc : List Byte) : LooksTo k ch s Prod.fst (engReads k ch align s xs acc) := by
  induction xs generalizing s acc with
  | nil => exact EngLooks.refl s
  | cons x rest ih => exact (engAddr_looks hs k ch _ _ _ _).bind hs fun u hu => (engLoad_looks hu k ch _ _ _).bind hu fun v hv => ih hv _

theorem engRead_looks (va : Word) (n align : Nat) : LooksTo k ch s Prod.fst (engRead s k ch va n align) := by
  unfold engRead
  split
  · exact ⟨.refl s, (Nat.succ_ne_zero 0x53 : 0x54 ≠ 0)⟩
  · exact engReads_looks hs k ch 1 _ _

theorem engStore_eq (pa : Nat) (writes : List (Nat × List Byte)) : engStore s k ch pa writes = .ok (storeOf (spend s) k ch pa writes) := by
  have hkeeps := (spend_engKeeps (k := k) (ch := ch) s).trans (storeOf_engKeeps (spend s) k ch pa writes)
  rw [engStore, engDo, engOnce_eq hs]
  exact congrArg Except.ok (noteSeen_unlimited (hkeeps.steps hs.1) _)

theorem engStore_keeps (pa : Nat) (writes : List (Nat × List Byte)) {t : State} (h : engStore s k ch pa writes = .ok t) : EngKeeps k ch s t := by
  rw [engStore_eq hs] at h
  cases h
  exact (spend_engKeeps s).trans (storeOf_engKeeps _ k ch pa writes)

/-- R152: the state that a read-modify-write step leaves. -/
theorem engUpdate_eq {va : Word} {pa : Nat} {f : List Byte → List (Nat × List Byte)} {n : Nat} {t : State}
    (h : engUpdate s k ch va pa f n = .ok t) :
    t = homeStoreOf (homeRead (spend s) (readerOf ch) pa) k ch pa (f (s.mem.bytes pa n)) := by
  have hlooks := (spend_engLooks s k ch).trans (homeRead_engLooks _ k ch (readerOf ch) pa)
  rw [engUpdate, engOnce_eq hs] at h
  dsimp only at h
  split at h
  next hread =>
    split at hread
    · cases hread
    · cases hread
      cases h
      have hkeeps := hlooks.keeps.trans (homeStoreOf_engKeeps _ k ch pa (f (s.mem.bytes pa n)))
      rw [hlooks.same.mem]
      exact noteSeen_unlimited (hkeeps.steps hs.1) _
  · cases h

theorem engUpdate_keeps {va : Word} {pa : Nat} {f : List Byte → List (Nat × List Byte)} {n : Nat} {t : State}
    (h : engUpdate s k ch va pa f n = .ok t) : EngKeeps k ch s t := by
  rw [engUpdate_eq hs k ch h]
  exact ((spend_engLooks s k ch).trans (homeRead_engLooks _ k ch (readerOf ch) pa)).keeps.trans (homeStoreOf_engKeeps _ k ch pa _)

theorem engWrites_keeps {align : Nat} {xs : List (Word × Nat)} {bs : List Byte} {t : State} (h : engWrites k ch align s xs bs = .ok t) :
    EngKeeps k ch s t := by
  induction xs generalizing s bs with
  | nil =>
    cases h
    exact .refl _
  | cons x rest ih =>
    unfold engWrites at h
    split at h
    · cases h
    next u pa haddr =>
      have hu := ((engAddr_looks hs k ch _ _ _ _).ok haddr).keeps
      split at h
      · cases h
      next v hstore =>
        have hv := engStore_keeps (hu.afresh hs) k ch _ _ hstore
        exact (hu.trans hv).trans (ih (hv.afresh (hu.afresh hs)) h)

end

end Sys2Proof.Machine
end
section
/-! PROOFS. Moves of an engine, its steps, and the descriptors that it reads, where every access passes (R156, R284, R285, R288, R299). -/
namespace Sys2Proof.Machine

/-! ### Byte runs (R285, R288) -/

/-- The bytes of some runs. -/
def runBytes (xs : List (Word × Nat)) : Nat := (xs.map Prod.snd).sum

theorem runBytes_append (xs ys : List (Word × Nat)) : runBytes (xs ++ ys) = runBytes xs + runBytes ys := by simp [runBytes]

/-- The runs of n bytes, none of them empty. -/
def Cuts (xs : List (Word × Nat)) (n : Nat) : Prop := runBytes xs = n ∧ ∀ x ∈ xs, x.2 ≠ 0

theorem cutLines_cuts (fuel : Nat) (a : Word) {n : Nat} (h : n = 0 ∨ n + a.toNat % 64 ≤ 64 * fuel) : Cuts (cutLines fuel a n) n := by
  induction fuel generalizing a n with
  | zero =>
    obtain rfl : n = 0 := by omega
    exact ⟨rfl, fun x hx => nomatch hx⟩
  | succ fuel ih =>
    unfold cutLines
    split
    next hn =>
      rw [hn]
      exact ⟨rfl, fun x hx => nomatch hx⟩
    next hn =>
      dsimp only
      generalize hm : min n (64 - a.toNat % 64) = m
      have hrest : n - m = 0 ∨ (n - m) + (a + BitVec.ofNat 64 m).toNat % 64 ≤ 64 * fuel := by
        rw [BitVec.toNat_add, BitVec.toNat_ofNat]
        omega
      obtain ⟨hsum, hpos⟩ := ih _ hrest
      constructor
      · simp only [runBytes, List.map_cons, List.sum_cons] at hsum ⊢
        omega
      · intro x hx
        rcases List.mem_cons.mp hx with rfl | hx
        · dsimp only
          omega
        · exact hpos x hx

theorem runs_cuts (a : Word) (n : Nat) : Cuts (runs a n) n := cutLines_cuts _ a (.inr (by omega))

theorem ringRuns_cuts (g : Ring) (at_ n : Nat) : Cuts (ringRuns g at_ n) n := by
  unfold ringRuns
  extract_lets o m
  obtain ⟨hsum, hpos⟩ := runs_cuts (g.base + BitVec.ofNat 64 o) m
  have hle : m ≤ n := Nat.min_le_left _ _
  split
  next hlt =>
    obtain ⟨hsum', hpos'⟩ := runs_cuts g.base (n - m)
    refine ⟨?_, fun x hx => (List.mem_append.mp hx).elim (hpos x) (hpos' x)⟩
    rw [runBytes_append, hsum, hsum']
    omega
  next hge =>
    rw [List.append_nil]
    exact ⟨by omega, hpos⟩

/-- The runs of a move that take the bytes that it has. -/
def trimmed (xs : List (Word × Nat)) (acc : List (Word × Nat) × Nat) : List (Word × Nat) × Nat :=
  xs.foldl (fun acc x => if acc.2 = 0 then acc else (acc.1 ++ [(x.1, min x.2 acc.2)], acc.2 - min x.2 acc.2)) acc

theorem trimmed_all {xs : List (Word × Nat)} {n : Nat} (h : Cuts xs n) (acc : List (Word × Nat)) : trimmed xs (acc, n) = (acc ++ xs, 0) := by
  induction xs generalizing n acc with
  | nil =>
    obtain ⟨rfl, -⟩ := h
    rw [List.append_nil]
    rfl
  | cons x xs ih =>
    obtain ⟨hsum, hpos⟩ := h
    have hx := hpos x List.mem_cons_self
    have hsum' : x.2 + runBytes xs = n := hsum
    have hfirst : trimmed (x :: xs) (acc, n) = trimmed xs (acc ++ [x], runBytes xs) := by
      refine congrArg (trimmed xs) ((if_neg (by dsimp only; omega)).trans ?_)
      dsimp only
      rw [Nat.min_eq_left (by omega), show n - x.2 = runBytes xs by omega]
    rw [hfirst, ih ⟨rfl, fun y hy => hpos y (List.mem_cons_of_mem _ hy)⟩, List.append_assoc]
    rfl

/-! ### Moves (R284, R285) -/

section
variable {s : State} (hs : Afresh s) {k : Nat} {ch : Fin 8}
include hs

theorem engReads_cons_ok {align : Nat} {x : Word × Nat} {rest : List (Word × Nat)} {acc : List Byte} {t : State} {bs : List Byte}
    (h : engReads k ch align s (x :: rest) acc = .ok (t, bs)) :
    ∃ u new, Afresh u ∧ new.length = x.2 ∧ engReads k ch align s [x] [] = .ok (u, new) ∧
      engReads k ch align u rest (acc ++ new) = .ok (t, bs) := by
  obtain ⟨va, n⟩ := x
  have haddr := engAddr_looks hs k ch va n align .read
  cases ha : engAddr s k ch va n align .read with
  | error e =>
    simp only [engReads, ha, bind, Except.bind] at h
    cases h
  | ok a =>
    obtain ⟨u, pa⟩ := a
    have hu : Afresh u := (haddr.ok ha).afresh hs
    have hload := engLoad_looks hu k ch va pa n
    cases hl : engLoad u k ch va pa n with
    | error e =>
      simp only [engReads, ha, hl, bind, Except.bind] at h
      cases h
    | ok b =>
      obtain ⟨v, new⟩ := b
      simp only [engReads, ha, hl, bind, Except.bind] at h
      refine ⟨v, new, (hload.ok hl).afresh hu, engLoad_length hu k ch hl, ?_, h⟩
      simp only [engReads, ha, hl, bind, Except.bind, List.nil_append]

theorem engReads_length {align : Nat} {xs : List (Word × Nat)} {acc : List Byte} {t : State} {bs : List Byte}
    (h : engReads k ch align s xs acc = .ok (t, bs)) : bs.length = acc.length + runBytes xs := by
  induction xs generalizing s acc with
  | nil =>
    cases h
    rfl
  | cons x rest ih =>
    obtain ⟨u, new, hu, hlength, -, hrest⟩ := engReads_cons_ok hs h
    rw [ih hu hrest, List.length_append, hlength]
    simp only [runBytes, List.map_cons, List.sum_cons]
    omega

/-- R284: reads that all pass go as far as they should. -/
theorem engReadsTo_ok {xs : List (Word × Nat)} {acc : List Byte} {t : State} {bs : List Byte} (h : engReads k ch 1 s xs acc = .ok (t, bs)) :
    engReadsTo k ch s xs acc = (t, bs, none) := by
  induction xs generalizing s acc with
  | nil =>
    cases h
    rfl
  | cons x rest ih =>
    obtain ⟨u, new, hu, -, hfirst, hrest⟩ := engReads_cons_ok hs h
    rw [engReadsTo, hfirst]
    exact ih hu hrest

/-- R284: a move whose accesses all pass. -/
theorem engMove_ok {src dst : List (Word × Nat)} {t u : State} {bs : List Byte} {n : Nat} (hsrc : Cuts src n) (hdst : Cuts dst n)
    (hread : engReads k ch 1 s src [] = .ok (t, bs)) (hwrite : engWrites k ch 1 t dst bs = .ok u) : engMove s k ch src dst = .ok u := by
  have hlength : bs.length = n := by
    rw [engReads_length hs hread, hsrc.1]
    exact Nat.zero_add n
  have htrim : trimmed dst ([], bs.length) = (dst, 0) := by rw [hlength]; exact trimmed_all hdst []
  rw [engMove, engReadsTo_ok hs hread]
  refine (if_neg Bool.false_ne_true).trans ?_
  show (match engWrites k ch 1 t (trimmed dst ([], bs.length)).1 bs with
    | .error e => _
    | .ok s => _) = _
  rw [htrim, hwrite]

end

theorem engRead_bytes (s : State) (k : Nat) (ch : Fin 8) (va : Word) (n : Nat) : engRead s k ch va n 1 = engReads k ch 1 s (runs va n) [] := by
  rw [engRead, if_neg]
  simp [Nat.mod_one]

theorem engRead_length {s : State} (hs : Afresh s) {k : Nat} {ch : Fin 8} {va : Word} {n : Nat} {t : State} {bs : List Byte}
    (h : engRead s k ch va n 1 = .ok (t, bs)) : bs.length = n := by
  rw [engRead_bytes] at h
  rw [engReads_length hs h, (runs_cuts va n).1]
  exact Nat.zero_add n

/-! ### Steps of a command -/

section
variable {s : State} (hs : Afresh s) (k : Nat) (ch : Fin 8)
include hs

theorem engEnd_eq (r : Running) (st cause : Nat) (results : List (Nat × List Byte)) :
    engEnd s k ch r st cause results = .ok (completeCmd s k ch r st cause 0 results) := by
  rw [engEnd, hs.spentOut, if_neg Bool.false_ne_true]

theorem engTensor_looks {tid : Nat} {t : State} {x : Tensor} (h : engTensor s k ch tid = .ok (t, x)) : EngLooks k ch s t := by
  refine LooksTo.ok (f := Prod.fst) (r := engTensor s k ch tid) ?_ h
  exact (engAddr_looks hs k ch _ _ _ _).bind hs fun u hu => (engLoad_looks hu k ch _ _ _).bind hu fun v hv => by
    dsimp only
    split
    · exact ⟨.refl v.1, (Nat.succ_ne_zero 0x67 : 0x68 ≠ 0)⟩
    · exact EngLooks.refl v.1

theorem stashRing_looks {r : Running} {t : State} {x : Word × Ring} (h : stashRing s k ch r = .ok (t, x)) : EngLooks k ch s t := by
  refine LooksTo.ok (f := Prod.fst) (r := stashRing s k ch r) ?_ h
  exact (engAddr_looks hs k ch _ _ _ _).bind hs fun u hu => (engLoad_looks hu k ch _ _ _).bind hu fun v hv => by
    dsimp only
    split
    · exact ⟨.refl v.1, (Nat.succ_ne_zero 0x57 : 0x58 ≠ 0)⟩
    · exact EngLooks.refl v.1

/-- R288: the descriptor's two accesses and its update. -/
theorem ringUpdate_ok {a : Word} {off n : Nat} {t : State} (h : ringUpdate s k ch a off n = .ok t) :
    ∃ u v pa p, engAddr s k ch a 64 64 .read = .ok (u, p) ∧ engAddr u k ch a 64 64 .write = .ok (v, pa) ∧ EngLooks k ch s v ∧
    engUpdate v k ch a pa (fun bs => [(off, Bits.bytesLE 8 (Bits.ofBytesLE ((bs.drop off).take 8) + n))]) 64 = .ok t := by
  have hread := engAddr_looks hs k ch a 64 64 .read
  unfold ringUpdate at h
  cases hr : engAddr s k ch a 64 64 .read with
  | error e =>
    rw [hr] at h
    cases h
  | ok x =>
    have hu := hread.ok hr
    have hwrite := engAddr_looks (hu.afresh hs) k ch a 64 64 .write
    rw [hr] at h
    cases hw : engAddr x.1 k ch a 64 64 .write with
    | error e =>
      dsimp only [bind, Except.bind] at h
      rw [hw] at h
      cases h
    | ok y =>
      dsimp only [bind, Except.bind] at h
      rw [hw] at h
      exact ⟨x.1, y.1, y.2, x.2, rfl, hw, hu.trans (hwrite.ok hw), h⟩

theorem ringUpdate_keeps {a : Word} {off n : Nat} {t : State} (h : ringUpdate s k ch a off n = .ok t) : EngKeeps k ch s t := by
  obtain ⟨u, v, pa, p, -, -, hlooks, hupdate⟩ := ringUpdate_ok hs k ch h
  exact hlooks.keeps.trans (engUpdate_keeps (hlooks.afresh hs) k ch hupdate)

end

theorem performStep_ok {s : State} {k : Nat} {ch : Fin 8} {kind : Nat} {body : State → Running → Eng State}
    {lines : Running → EngStop → Option Nat} {r : Running} (hr : runningKind s k ch kind = some r) {t : State}
    (h : body (openScript s (engScript k ch)) r = .ok t) : performStep s k ch kind body lines = .next (closeScript t true) := by
  rw [performStep, hr]
  dsimp only
  rw [engStep, h]

end Sys2Proof.Machine
end
section
/-! PROOFS. The completion and the beginning of a command, and fence entries (R156, R158, R159, R284, R292). -/
namespace Sys2Proof.Machine

/-! ### Completion (R156, R158, R292) -/

/-- R284: the state in which a command's status is stored, where its address checks pass. -/
def statusStored (s : State) (k : Nat) (ch : Fin 8) (r : Running) (st cause : Nat) (results : List (Nat × List Byte)) : State :=
  match r.item with
  | .record a _ _ _ =>
    match engCheck s k ch a 1 1 .write with
    | .ok (s, pa) => storeOf s k ch pa ((2, [BitVec.ofNat 8 st, BitVec.ofNat 8 cause]) :: results)
    | .error e => e.s
  | _ => s

theorem statusStored_engKeeps (s : State) (k : Nat) (ch : Fin 8) (r : Running) (st cause : Nat) (results : List (Nat × List Byte)) :
    EngKeeps k ch s (statusStored s k ch r st cause results) := by
  unfold statusStored
  split
  next a _ _ _ _ =>
    have hcheck := engCheck_looks s k ch a 1 1 .write
    split
    next t pa he => exact (hcheck.ok he).keeps.trans (storeOf_engKeeps t k ch pa _)
    next e he =>
      rw [he] at hcheck
      exact hcheck.1.keeps
  · exact .refl s

/-- R156, R158, R281: the chain that a command has left. -/
def leftBy (c : Chain) (seq : Nat) : Chain :=
  { relink c (c.fifo.drop 1) with ets := c.ets + 1, cts := c.ets + 1, ccnt := seq, run := none, piece := 0 }

/-- R292: an error is recorded; no error, nothing. -/
def errorPosted (s : State) (k : Nat) (ch : Fin 8) (r : Running) (cause under : Nat) : State :=
  if cause ≠ 0 then postError s k ch r cause under else s

/-- A command's chain is relinked and its error recorded. -/
def chainLeft (s : State) (k : Nat) (ch : Fin 8) (r : Running) (cause under : Nat) : State :=
  errorPosted (s.setChain k ch (leftBy (s.getChain k ch) (itemSeq r.item))) k ch r cause under

theorem completeCmd_eq (s : State) (k : Nat) (ch : Fin 8) (r : Running) (st cause under : Nat) (results : List (Nat × List Byte)) :
    completeCmd s k ch r st cause under results =
      wakeChain (chainLeft (statusStored s k ch r st cause results) k ch r cause under) k ch (itemSeq r.item) := by
  unfold completeCmd statusStored
  obtain ⟨item, body, aux⟩ := r
  cases item with
  | record a q x stamp =>
    dsimp only
    generalize engCheck s k ch a 1 1 .write = checked
    cases checked <;> rfl
  | promise i a c ssn q x stamp => rfl
  | fence m => rfl

section
variable (s : State) (k : Nat) (ch : Fin 8)

/-- R158, R294: the scoreboard without the entry of a command. -/
def entryGone (s : State) (k : Nat) (ch : Fin 8) (seq : Nat) : State :=
  s.setCore k { s.getCore k with scoreboard := (s.getCore k).scoreboard.filter (fun e => !(e.chain == ch && e.seq == seq)) }

/-- R157, R193, R294: a context of the core looks again, if it waits on a command of the chain. -/
def wakeOne (k : Nat) (ch : Fin 8) (seq cts : Nat) (s : State) (n : Nat) : State :=
  match (s.getCtx (4 * k + n)).wait with
  | some (.overlap h q) =>
    if h = ch && q = seq then
      s.setCtx (4 * k + n) { s.getCtx (4 * k + n) with wait := none, pts := max (s.getCtx (4 * k + n)).pts cts }
    else s
  | some (.timed (.chain h) lim _) =>
    if h = ch.val then s.setCtx (4 * k + n) { s.getCtx (4 * k + n) with wait := some (.timed (.chain h) lim true) } else s
  | _ => s

theorem wakeChain_eq (seq : Nat) :
    wakeChain s k ch seq = [0, 1, 2, 3].foldl (wakeOne k ch seq (s.getChain k ch).cts) (entryGone s k ch seq) := rfl

/-- Cores are as before, and contexts have the errors that they had. -/
def SameErrors (s t : State) : Prop := t.cores = s.cores ∧ ∀ j, (t.getCtx j).errors = (s.getCtx j).errors

theorem setCtx_sameErrors (j : Nat) {x : Ctx} (h : x.errors = (s.getCtx j).errors) : SameErrors s (s.setCtx j x) := by
  refine ⟨rfl, fun i => ?_⟩
  by_cases hi : i = j
  · rw [hi, State.getCtx_setCtx_same, h]
  · rw [State.getCtx_setCtx_ne _ _ _ _ hi]

theorem wakeOne_sameErrors (seq cts n : Nat) : SameErrors s (wakeOne k ch seq cts s n) := by
  unfold wakeOne
  split
  · split
    · exact setCtx_sameErrors s _ rfl
    · exact ⟨rfl, fun _ => rfl⟩
  · split
    · exact setCtx_sameErrors s _ rfl
    · exact ⟨rfl, fun _ => rfl⟩
  · exact ⟨rfl, fun _ => rfl⟩

theorem wakeChain_sameErrors (seq : Nat) : SameErrors (entryGone s k ch seq) (wakeChain s k ch seq) := by
  rw [wakeChain_eq]
  generalize entryGone s k ch seq = t
  generalize [0, 1, 2, 3] = ns
  induction ns generalizing t with
  | nil => exact ⟨rfl, fun _ => rfl⟩
  | cons n ns ih =>
    obtain ⟨hcores, herrors⟩ := wakeOne_sameErrors t k ch seq (s.getChain k ch).cts n
    obtain ⟨hcores', herrors'⟩ := ih (wakeOne k ch seq (s.getChain k ch).cts t n)
    exact ⟨hcores'.trans hcores, fun j => (herrors' j).trans (herrors j)⟩

theorem wakeChain_core (seq : Nat) : (wakeChain s k ch seq).getCore k =
    { s.getCore k with scoreboard := (s.getCore k).scoreboard.filter (fun e => !(e.chain == ch && e.seq == seq)) } := by
  rw [State.getCore, (wakeChain_sameErrors s k ch seq).1]
  exact State.getCore_setCore_same _ _ _

theorem wakeChain_getChain (seq : Nat) (h : Fin 8) : (wakeChain s k ch seq).getChain k h = s.getChain k h :=
  State.getChain_congr (congrArg Core.chains (wakeChain_core s k ch seq) :) h

theorem wakeChain_errors (seq j : Nat) : ((wakeChain s k ch seq).getCtx j).errors = (s.getCtx j).errors :=
  (wakeChain_sameErrors s k ch seq).2 j

variable (r : Running) (cause under : Nat)

/-- R292: the error that a completion posts. -/
def errorOf (s : State) (k : Nat) (ch : Fin 8) (r : Running) (cause under : Nat) : EngErr :=
  ⟨cause, itemAddr r.item, BitVec.ofNat 64 (itemSeq r.item % 2 ^ 48 + ch.val * 2 ^ 48 + under % 256 * 2 ^ 56), (s.getChain k ch).cts⟩

/-- R292: the chain with an error in its fault word. -/
def faultNoted (s : State) (k : Nat) (ch : Fin 8) (r : Running) (cause : Nat) : State :=
  s.setChain k ch { s.getChain k ch with fault := faultWord (s.getChain k ch).fault (itemSeq r.item) cause }

theorem postError_quiet (h : itemQuiet r = true) : postError s k ch r cause under = faultNoted s k ch r cause :=
  if_pos (by rw [h]; rfl)

theorem postError_dead (h : (s.getCtx (4 * k + (itemCtx r.item).val)).live = false) :
    postError s k ch r cause under = faultNoted s k ch r cause :=
  if_pos (by rw [State.getCtx_setChain, h, Bool.not_false, Bool.or_true])

theorem postError_live (hloud : itemQuiet r = false) (hlive : (s.getCtx (4 * k + (itemCtx r.item).val)).live = true) :
    postError s k ch r cause under = (faultNoted s k ch r cause).setCtx (4 * k + (itemCtx r.item).val)
      { s.getCtx (4 * k + (itemCtx r.item).val) with
        errors := (s.getCtx (4 * k + (itemCtx r.item).val)).errors ++ [errorOf s k ch r cause under] } :=
  if_neg (by rw [State.getCtx_setChain, hloud, hlive]; exact Bool.false_ne_true)

theorem postError_getChain (h : Fin 8) : (postError s k ch r cause under).getChain k h = (faultNoted s k ch r cause).getChain k h := by
  cases hloud : itemQuiet r with
  | true => rw [postError_quiet s k ch r cause under hloud]
  | false =>
    cases hlive : (s.getCtx (4 * k + (itemCtx r.item).val)).live with
    | false => rw [postError_dead s k ch r cause under hlive]
    | true =>
      rw [postError_live s k ch r cause under hloud hlive]
      rfl

end

/-- R156, R158, R284, R292: what a completion leaves. -/
structure Completes (s t : State) (k : Nat) (ch : Fin 8) (r : Running) (cause under : Nat) : Prop where
  chain : ∃ e, (s.getChain k ch).ets < e ∧ t.getChain k ch = { relink (s.getChain k ch) ((s.getChain k ch).fifo.drop 1) with
    ets := e, cts := e, ccnt := itemSeq r.item, run := none, piece := 0
    fault := if cause = 0 then (s.getChain k ch).fault else faultWord (s.getChain k ch).fault (itemSeq r.item) cause }
  others : ∀ h, h ≠ ch → t.getChain k h = s.getChain k h
  scoreboard : ∀ x ∈ (t.getCore k).scoreboard, ¬ (x.chain = ch ∧ x.seq = itemSeq r.item)
  quiet : cause = 0 ∨ itemQuiet r = true → (t.getCtx (4 * k + (itemCtx r.item).val)).errors = (s.getCtx (4 * k + (itemCtx r.item).val)).errors
  posted : cause ≠ 0 → itemQuiet r = false → (s.getCtx (4 * k + (itemCtx r.item).val)).live = true →
    (t.getCtx (4 * k + (itemCtx r.item).val)).errors = (s.getCtx (4 * k + (itemCtx r.item).val)).errors ++ [errorOf t k ch r cause under]

section
variable {s : State} {k : Nat} {ch : Fin 8}

theorem Completes.after {t u : State} {r : Running} {cause under : Nat} (hst : EngKeeps k ch s t) (h : Completes t u k ch r cause under) :
    Completes s u k ch r cause under := by
  obtain ⟨hchain, hothers, hboard, hquiet, hposted⟩ := h
  obtain ⟨e, hle, hmoved⟩ := hst.chain
  rw [hmoved] at hchain
  rw [hst.getCtx] at hquiet hposted
  obtain ⟨e', hlt, hleft⟩ := hchain
  exact ⟨⟨e', lt_of_le_of_lt hle hlt, hleft⟩, fun h hh => (hothers h hh).trans (hst.others h hh), hboard, hquiet, hposted⟩

theorem Completes.failed {t : State} {r : Running} {cause under : Nat} (h : Completes s t k ch r cause under) (hc : cause ≠ 0) :
    (t.getChain k ch).run = none ∧ (t.getChain k ch).ccnt = itemSeq r.item ∧
      (t.getChain k ch).fault = faultWord (s.getChain k ch).fault (itemSeq r.item) cause := by
  obtain ⟨e, -, hchain⟩ := h.chain
  rw [if_neg hc] at hchain
  rw [hchain]
  exact ⟨rfl, rfl, rfl⟩

/-- R156, R281, R292: the chain and the error, before anything looks again. -/
theorem chainLeft_getChain (s : State) (k : Nat) (ch : Fin 8) (r : Running) (cause under : Nat) :
    (chainLeft s k ch r cause under).getChain k ch = { leftBy (s.getChain k ch) (itemSeq r.item) with
      fault := if cause = 0 then (s.getChain k ch).fault else faultWord (s.getChain k ch).fault (itemSeq r.item) cause } := by
  have hleft := State.getChain_setChain_same s k ch (leftBy (s.getChain k ch) (itemSeq r.item))
  unfold chainLeft errorPosted
  by_cases hc : cause = 0
  · rw [if_neg (not_not.mpr hc), if_pos hc, hleft]
    rfl
  · rw [if_pos hc, if_neg hc, postError_getChain, faultNoted, State.getChain_setChain_same, hleft]
    rfl

theorem chainLeft_getChain_ne (s : State) (k : Nat) {ch h : Fin 8} (hne : h ≠ ch) (r : Running) (cause under : Nat) :
    (chainLeft s k ch r cause under).getChain k h = s.getChain k h := by
  have hleft := State.getChain_setChain_ne s k ch (leftBy (s.getChain k ch) (itemSeq r.item)) hne
  unfold chainLeft errorPosted
  split
  · rw [postError_getChain, faultNoted, State.getChain_setChain_ne _ _ _ _ hne, hleft]
  · exact hleft

theorem chainLeft_quiet (s : State) (k : Nat) (ch : Fin 8) (r : Running) {cause : Nat} (under : Nat) (h : cause = 0 ∨ itemQuiet r = true)
    (j : Nat) :
    (chainLeft s k ch r cause under).getCtx j = s.getCtx j := by
  unfold chainLeft errorPosted
  split
  next hc =>
    rw [postError_quiet _ _ _ _ _ _ (h.resolve_left hc)]
    rfl
  · rfl

theorem chainLeft_posted (s : State) (k : Nat) (ch : Fin 8) (r : Running) {cause : Nat} (under : Nat) (hc : cause ≠ 0)
    (hloud : itemQuiet r = false)
    (hlive : (s.getCtx (4 * k + (itemCtx r.item).val)).live = true) :
    ((chainLeft s k ch r cause under).getCtx (4 * k + (itemCtx r.item).val)).errors =
      (s.getCtx (4 * k + (itemCtx r.item).val)).errors ++ [errorOf (chainLeft s k ch r cause under) k ch r cause under] := by
  have hcts : ((chainLeft s k ch r cause under).getChain k ch).cts = (s.getChain k ch).ets + 1 :=
    congrArg Chain.cts (chainLeft_getChain s k ch r cause under)
  have hleft : ((s.setChain k ch (leftBy (s.getChain k ch) (itemSeq r.item))).getChain k ch).cts = (s.getChain k ch).ets + 1 :=
    congrArg Chain.cts (State.getChain_setChain_same _ _ _ _)
  have hposted := postError_live (s.setChain k ch (leftBy (s.getChain k ch) (itemSeq r.item))) k ch r cause under hloud hlive
  rw [errorOf, hcts]
  unfold chainLeft errorPosted
  rw [if_pos hc, hposted, State.getCtx_setCtx_same, errorOf, hleft]
  rfl

theorem wakeChain_completes (s : State) (k : Nat) (ch : Fin 8) (r : Running) (cause under : Nat) :
    Completes s (wakeChain (chainLeft s k ch r cause under) k ch (itemSeq r.item)) k ch r cause under := by
  refine ⟨⟨(s.getChain k ch).ets + 1, Nat.lt_succ_self _, ?_⟩, fun h hh => ?_, fun x hx => ?_, fun hquiet => ?_, fun hc hloud hlive => ?_⟩
  · rw [wakeChain_getChain, chainLeft_getChain]
    rfl
  · rw [wakeChain_getChain, chainLeft_getChain_ne _ _ hh]
  · rw [wakeChain_core] at hx
    have hkept := (List.mem_filter.mp hx).2
    rintro ⟨hchain, hseq⟩
    simp [hchain, hseq] at hkept
  · rw [wakeChain_errors, chainLeft_quiet _ _ _ _ _ hquiet]
  · rw [wakeChain_errors, chainLeft_posted _ _ _ _ _ hc hloud hlive, errorOf, errorOf, wakeChain_getChain]

theorem completeCmd_completes (s : State) (k : Nat) (ch : Fin 8) (r : Running) (st cause under : Nat) (results : List (Nat × List Byte)) :
    Completes s (completeCmd s k ch r st cause under results) k ch r cause under := by
  rw [completeCmd_eq]
  exact .after (statusStored_engKeeps s k ch r st cause results) (wakeChain_completes _ k ch r cause under)

end

/-! ### The beginning of a command (R156, R284) -/

/-- R156: the chain takes the command's stamp. -/
def stampTaken (s : State) (k : Nat) (ch : Fin 8) (stamp : Nat) : State :=
  s.setChain k ch { s.getChain k ch with ets := max (s.getChain k ch).ets stamp }

/-- R284: STATE 2 is stored where the record may be written; else the command goes on without. -/
def beganStored (s : State) (k : Nat) (ch : Fin 8) (a : Word) : Eng State :=
  match engAddr s k ch a 1 1 .write with
  | .ok (s, pa) => engStore s k ch pa [(2, [2, 0])]
  | .error e => if e.paused then .error e else .ok e.s

/-- R284: a command of a good record runs, one of a bad record ends. -/
def recordBegun (s : State) (k : Nat) (ch : Fin 8) (r : Running) : State :=
  if bodyOk ch r.body then s.setChain k ch { s.getChain k ch with run := some r } else completeCmd s k ch r 4 0x51 0 []

section
variable {s : State} {k : Nat} {ch : Fin 8}

theorem beganStored_ok (hs : Afresh s) (a : Word) : ∃ t, beganStored s k ch a = .ok t ∧ EngKeeps k ch s t := by
  have haddr := engAddr_looks hs k ch a 1 1 .write
  unfold beganStored
  split
  next t pa he =>
    have ht := haddr.ok he
    have hstore := engStore_eq (ht.afresh hs) k ch pa [(2, [2, 0])]
    exact ⟨_, hstore, ht.keeps.trans (engStore_keeps (ht.afresh hs) k ch _ _ hstore)⟩
  next e he =>
    rw [he] at haddr
    obtain ⟨hlooks, hcause⟩ := haddr
    exact ⟨e.s, if_neg (by simpa [EngStop.paused] using hcause), hlooks.keeps⟩

/-- R284: a step of engines whose work passes. -/
theorem engStep_ok {key : Nat} {body : State → Eng State} {fail : EngStop → State} {t : State} (h : body (openScript s key) = .ok t) :
    engStep s key body fail = closeScript t true := by
  rw [engStep, h]

theorem recordBegun_eq (hs : Afresh s) (r : Running) :
    (if bodyOk ch r.body then .ok (s.setChain k ch { s.getChain k ch with run := some r }) else engEnd s k ch r 4 0x51 []) =
      (.ok (recordBegun s k ch r) : Eng State) := by
  unfold recordBegun
  split
  · rfl
  · exact engEnd_eq hs k ch r 4 0x51 []

section
variable (hrun : (s.getChain k ch).run = none) (hgang : (s.getGang (s.getCore k).gang).st = .running)
include hrun hgang

theorem begins : ¬ ((s.getChain k ch).run.isSome || decide ((s.getGang (s.getCore k).gang).st ≠ .running)) = true := by simp [hrun, hgang]

theorem exec_commandBegin_promise {i : Instr} {a c : Word} {ssn q : Nat} {x : Fin 4} {stamp : Nat} {rest : List ChainItem}
    (h : (s.getChain k ch).fifo = .promise i a c ssn q x stamp :: rest) : exec (.commandBegin k ch) s = .next ((stampTaken s k ch stamp).setChain k ch
      { (stampTaken s k ch stamp).getChain k ch with run := some ⟨.promise i a c ssn q x stamp, [], []⟩ }) := by
  refine (if_neg (begins hrun hgang)).trans ?_
  split
  next hnil => cases h.symm.trans hnil
  next item tail hcons =>
    cases h.symm.trans hcons
    rfl

theorem exec_commandBegin_record {a : Word} {q : Nat} {x : Fin 4} {stamp : Nat} {rest : List ChainItem}
    (h : (s.getChain k ch).fifo = .record a q x stamp :: rest)
    {t u : State} {bs : List Byte} (hread : engRead (openScript (stampTaken s k ch stamp) (engScript k ch)) k ch a 64 64 = .ok (t, bs))
    (hstored : beganStored t k ch a = .ok u) (hu : Afresh u) :
    exec (.commandBegin k ch) s = .next (closeScript (recordBegun u k ch ⟨.record a q x stamp, wordsOf bs, []⟩) true) := by
  refine (if_neg (begins hrun hgang)).trans ?_
  split
  next hnil => cases h.symm.trans hnil
  next item tail hcons =>
    cases h.symm.trans hcons
    have hdone := recordBegun_eq (k := k) (ch := ch) hu ⟨.record a q x stamp, wordsOf bs, []⟩
    refine congrArg Host.Outcome.next (engStep_ok (s := stampTaken s k ch stamp) ?_)
    rw [hread]
    unfold beganStored at hstored
    dsimp only [bind, Except.bind]
    cases haddr : engAddr t k ch a 1 1 .write with
    | ok x =>
      obtain ⟨v, pa⟩ := x
      rw [haddr] at hstored
      have hstore : engStore v k ch pa [(2, [2, 0])] = .ok u := hstored
      dsimp only
      rw [hstore]
      exact hdone
    | error e =>
      rw [haddr] at hstored
      have hgoes : (if e.paused then .error e else .ok e.s : Eng State) = .ok u := hstored
      dsimp only
      by_cases hpaused : e.paused = true
      · rw [if_pos hpaused] at hgoes
        cases hgoes
      · rw [if_neg hpaused] at hgoes ⊢
        cases hgoes
        exact hdone

end

/-- R156, R284: a command begins: its record read and checked, it runs or ends. -/
theorem exec_commandBegin_reads (hrun : (s.getChain k ch).run = none) (hgang : (s.getGang (s.getCore k).gang).st = .running)
    (hunbroken : Unbroken s (engScript k ch)) {a : Word} {q : Nat} {x : Fin 4} {stamp : Nat} {rest : List ChainItem}
    (h : (s.getChain k ch).fifo = .record a q x stamp :: rest) {s1 : State} {bs : List Byte}
    (hread : engRead (openScript (stampTaken s k ch stamp) (engScript k ch)) k ch a 64 64 = .ok (s1, bs)) :
    ∃ u, EngKeeps k ch s1 u ∧
      exec (.commandBegin k ch) s = .next (closeScript (recordBegun u k ch ⟨.record a q x stamp, wordsOf bs, []⟩) true) := by
  have hopen : Afresh (openScript (stampTaken s k ch stamp) (engScript k ch)) :=
    Unbroken.openScript (s := stampTaken s k ch stamp) hunbroken
  have hs1 : Afresh s1 := ((engRead_looks hopen k ch a 64 64).ok hread).afresh hopen
  obtain ⟨u, hstored, hkeeps⟩ := beganStored_ok (k := k) (ch := ch) hs1 a
  exact ⟨u, hkeeps, exec_commandBegin_record hrun hgang h hread hstored (hkeeps.afresh hs1)⟩

end

section
variable {s1 u : State} {k : Nat} {ch : Fin 8} (hkeeps : EngKeeps k ch s1 u) {r : Running}
include hkeeps

theorem recordBegun_good (h : bodyOk ch r.body = true) : ((recordBegun u k ch r).getChain k ch).run = some r ∧
    ((recordBegun u k ch r).getChain k ch).fifo = (s1.getChain k ch).fifo := by
  obtain ⟨e, -, hchain⟩ := hkeeps.chain
  have hbegun : (recordBegun u k ch r).getChain k ch = { u.getChain k ch with run := some r } := by
    unfold recordBegun
    rw [if_pos h, State.getChain_setChain_same]
  rw [hbegun, hchain]
  exact ⟨rfl, rfl⟩

theorem recordBegun_bad (h : bodyOk ch r.body = false) : ((recordBegun u k ch r).getChain k ch).run = none ∧
    ((recordBegun u k ch r).getChain k ch).ccnt = itemSeq r.item ∧
    ((recordBegun u k ch r).getChain k ch).fault = faultWord (s1.getChain k ch).fault (itemSeq r.item) 0x51 := by
  have hdone := Completes.after hkeeps (completeCmd_completes u k ch r 4 0x51 0 [])
  rw [recordBegun, if_neg (by rw [h]; exact Bool.false_ne_true)]
  exact hdone.failed (Nat.succ_ne_zero 0x50)

end

/-! ### Fence entries (R159) -/

section
variable (k : Nat) (top : Nat)

/-- R159: the chains of a list leave their fence entries, and take one timestamp. -/
def unfenced (k top : Nat) (chs : List (Fin 8)) (s : State) : State :=
  chs.foldl (fun s h => s.setChain k h { relink (s.getChain k h) ((s.getChain k h).fifo.drop 1) with ets := top }) s

theorem unfenced_mem (chs : List (Fin 8)) (s : State) : (unfenced k top chs s).mem = s.mem := by
  induction chs generalizing s with
  | nil => rfl
  | cons h chs ih => exact ih _

theorem unfenced_out {chs : List (Fin 8)} {h : Fin 8} (hout : h ∉ chs) (s : State) : (unfenced k top chs s).getChain k h = s.getChain k h := by
  induction chs generalizing s with
  | nil => rfl
  | cons c chs ih =>
    obtain ⟨hne, hrest⟩ := List.ne_and_not_mem_of_not_mem_cons hout
    exact (ih hrest _).trans (State.getChain_setChain_ne _ _ _ _ hne)

theorem unfenced_in {chs : List (Fin 8)} (hnodup : chs.Nodup) {h : Fin 8} (hin : h ∈ chs) (s : State) :
    (unfenced k top chs s).getChain k h = { relink (s.getChain k h) ((s.getChain k h).fifo.drop 1) with ets := top } := by
  induction chs generalizing s with
  | nil => cases hin
  | cons c chs ih =>
    obtain ⟨hout, hrest⟩ := List.nodup_cons.mp hnodup
    rcases List.mem_cons.mp hin with rfl | hin
    · exact (unfenced_out k top hout _).trans (State.getChain_setChain_same _ _ _ _)
    · have hne : h ≠ c := fun e => hout (e ▸ hin)
      refine (ih hrest hin _).trans ?_
      rw [State.getChain_setChain_ne _ _ _ _ hne]

/-- R159: the greatest timestamp of the chains of a list. -/
def topEts (s : State) (k : Nat) (chs : List (Fin 8)) : Nat := chs.foldl (fun t h => max t (s.getChain k h).ets) 0

theorem ets_le_topEts (s : State) {chs : List (Fin 8)} {h : Fin 8} (hin : h ∈ chs) : (s.getChain k h).ets ≤ topEts s k chs := by
  have hfold (chs : List (Fin 8)) (t : Nat) : t ≤ chs.foldl (fun t h => max t (s.getChain k h).ets) t ∧
      (h ∈ chs → (s.getChain k h).ets ≤ chs.foldl (fun t h => max t (s.getChain k h).ets) t) := by
    induction chs generalizing t with
    | nil => exact ⟨le_rfl, fun hn => nomatch hn⟩
    | cons c chs ih =>
      obtain ⟨hle, hmem⟩ := ih (max t (s.getChain k c).ets)
      refine ⟨(Nat.le_max_left _ _).trans hle, fun hc => ?_⟩
      rcases List.mem_cons.mp hc with rfl | hc
      · exact (Nat.le_max_right _ _).trans hle
      · exact hmem hc
  exact (hfold chs 0).2 hin

theorem exec_chainFenceRelease {s : State} {ch : Fin 8} {m : BitVec 8} (hhead : headFence (s.getChain k ch) = some m)
    (hall : ∀ h : Fin 8, m.getLsbD h.val = true → headFence (s.getChain k h) = some m) :
    exec (.chainFenceRelease k ch) s = .next (unfenced k (topEts s k (chainsOf m)) (chainsOf m) s) := by
  have hready : ¬ (chainsOf m).any (fun h => headFence (s.getChain k h) ≠ some m) = true := by
    simp only [List.any_eq_true, decide_eq_true_eq, not_exists, not_and, not_not]
    exact fun h hh => hall h ((mem_chainsOf m h).mp hh)
  show execChainFenceRelease k ch s = _
  unfold execChainFenceRelease
  rw [hhead]
  exact if_neg hready

end

end Sys2Proof.Machine
end
section
/-! PROOFS. The copy-class commands where every access passes (R285 to R288). -/
namespace Sys2Proof.Machine

/-! ### The descriptor's update (R288) -/

theorem homeStoreOf_mem {s : State} {k : Nat} (h : (s.getGang (s.getCore k).gang).shadow = 0) (ch : Fin 8) (pa off : Nat) {bs : List Byte}
    (hlen : bs.length ≠ 64) : (homeStoreOf s k ch pa [(off, bs)]).mem = s.mem.writeBytes (pa + off) bs := by
  have hwhole : ¬ ([(off, bs)].any (fun w => w.2.length = 64)) = true := by simpa using hlen
  have hgang : ((etsTaken k ch (storeHome s (pa / 64) (s.getChain k ch).ets)).getCore k).gang = (s.getCore k).gang := by
    rw [etsTaken, State.getCore_setChain_same]
    rfl
  unfold homeStoreOf
  dsimp only
  rw [if_neg hwhole]
  refine (putBytes_mem (s := etsTaken k ch (storeHome s (pa / 64) (s.getChain k ch).ets)) (.inr ?_) (pa + off) bs)
  exact (congrArg (fun g => (s.getGang g).shadow) hgang).trans h

theorem ringUpdate_mem {s t : State} (hs : Afresh s) {k : Nat} {ch : Fin 8} {a : Word} {off n pa : Nat} {s1 s2 : State} {x : Nat}
    (w : s.mem.wf = true) (hshadow : (s.getGang (s.getCore k).gang).shadow = 0) (hoff : off + 8 ≤ 64)
    (hread : engAddr s k ch a 64 64 .read = .ok (s1, x)) (hwrite : engAddr s1 k ch a 64 64 .write = .ok (s2, pa))
    (h : ringUpdate s k ch a off n = .ok t) :
    t.numAt (pa + off) 8 = (s.numAt (pa + off) 8 + n) % 2 ^ 64 ∧ SameMemoryBut s t (pa + off) 8 := by
  obtain ⟨u, v, pa', x', hread', hwrite', hlooks, hupdate⟩ := ringUpdate_ok hs k ch h
  obtain ⟨rfl, rfl⟩ := Prod.mk.inj (Except.ok.inj (hread.symm.trans hread'))
  obtain ⟨rfl, rfl⟩ := Prod.mk.inj (Except.ok.inj (hwrite.symm.trans hwrite'))
  have hhome := hlooks.trans ((spend_engLooks s2 k ch).trans (homeRead_engLooks _ k ch (readerOf ch) pa))
  have ht := engUpdate_eq (hlooks.afresh hs) k ch hupdate
  generalize homeRead (spend s2) (readerOf ch) pa = v at hhome ht
  have hold : Bits.ofBytesLE (((s2.mem.bytes pa 64).drop off).take 8) = s.numAt (pa + off) 8 := by
    rw [hlooks.same.mem, Memory.take_drop_bytes _ _ _ _ _ hoff, State.numAt]
  have hvshadow : (v.getGang (v.getCore k).gang).shadow = 0 := by
    rw [hhome.same.gangOf, State.getGang, hhome.same.gangs]
    exact hshadow
  have hmem : t.mem = s.mem.writeLE (pa + off) 8 (s.numAt (pa + off) 8 + n) := by
    rw [ht, hold, homeStoreOf_mem hvshadow ch pa off (by rw [Bits.length_bytesLE]; decide), hhome.same.mem]
    rfl
  refine ⟨?_, fun b hb => ?_⟩
  · rw [State.numAt, hmem]
    exact Memory.readLE_writeLE w _ _ _
  · rw [hmem, Memory.read_writeLE_out _ _ _ _ _ hb]

/-! ### A command's step -/

/-- A command ends well in the state u. -/
def cmdEnds (u : State) (k : Nat) (ch : Fin 8) (r : Running) (st : Nat) : State := closeScript (completeCmd u k ch r st 0 0 []) true

/-- R285: a piece of a command is done in the state u. -/
def cmdGoes (u : State) (k : Nat) (ch : Fin 8) (r : Running) (more : Bool) : State :=
  if more then closeScript (u.setChain k ch { u.getChain k ch with piece := (u.getChain k ch).piece + 1 }) true else cmdEnds u k ch r 3

/-- The state in which the step of a command begins. -/
def opened (s : State) (k : Nat) (ch : Fin 8) : State := openScript s (engScript k ch)

theorem runningKind_run {s : State} {k : Nat} {ch : Fin 8} {kind : Nat} {r : Running} (h : runningKind s k ch kind = some r) :
    (s.getChain k ch).run = some r := by
  obtain ⟨hperforming, -⟩ := Option.filter_eq_some_iff.mp h
  unfold performing at hperforming
  split at hperforming
  · exact hperforming
  · cases hperforming

theorem engStep_fails {s : State} {key : Nat} {body : State → Eng State} {fail : EngStop → State} {e : EngStop}
    (h : body (openScript s key) = .error e) (hstop : ¬ (e.paused || spentOut e.s) = true) :
    engStep s key body fail = closeScript (fail e) true := by
  rw [engStep, h]
  exact if_neg hstop

section
variable {s u : State} {k : Nat} {ch : Fin 8} {kind : Nat} {body : State → Running → Eng State} {lines : Running → EngStop → Option Nat}
  {r : Running} (hr : runningKind s k ch kind = some r)
include hr

theorem performStep_ends (hu : Afresh u) {st : Nat} (h : body (opened s k ch) r = engEnd u k ch r st 0 []) :
    performStep s k ch kind body lines = .next (cmdEnds u k ch r st) :=
  performStep_ok hr (h.trans (engEnd_eq hu k ch r st 0 []))

theorem performStep_goes (hu : Afresh u) {more : Bool} (h : body (opened s k ch) r = pieceDone u k ch r more) :
    performStep s k ch kind body lines = .next (cmdGoes u k ch r more) := by
  cases more with
  | true => exact performStep_ok hr h
  | false => exact performStep_ends hr hu h

/-- R284: a command fails before any access. -/
theorem performStep_fails (hs : Afresh (opened s k ch)) {cause : Nat} (hcause : cause ≠ 0)
    (h : body (opened s k ch) r = engFail (opened s k ch) cause) (hlines : ∃ n, lines r ⟨opened s k ch, cause, 0, 0, 0⟩ = some n) :
    ∃ t, performStep s k ch kind body lines = .next t ∧
      (t.getChain k ch).ccnt = itemSeq r.item ∧ (t.getChain k ch).fault = faultWord (s.getChain k ch).fault (itemSeq r.item) cause := by
  obtain ⟨n, hn⟩ := hlines
  have hstop : ¬ ((EngStop.mk (opened s k ch) cause 0 0 0).paused || spentOut (opened s k ch)) = true := by
    rw [hs.spentOut]
    simpa [EngStop.paused] using hcause
  have hrun : ((opened s k ch).getChain k ch).run.getD r = r := by
    rw [show (opened s k ch).getChain k ch = s.getChain k ch from rfl, runningKind_run hr]
    rfl
  generalize hresults : (if cause = 0x56 then [(40, Bits.bytesLE 8 (n % 2 ^ 32 + 0 * 2 ^ 32)), (48, Bits.bytesLE 8 0)] else []) = results
  obtain ⟨-, hdone⟩ := (completeCmd_completes (opened s k ch) k ch r 4 cause 0 results).failed hcause
  refine ⟨closeScript (completeCmd (opened s k ch) k ch r 4 cause 0 results) true, ?_, hdone⟩
  rw [performStep, hr]
  refine congrArg Host.Outcome.next ((engStep_fails (body := (body · r)) h hstop).trans (congrArg (closeScript · true) ?_))
  dsimp only
  rw [hrun, hn, ← hresults]
  rfl

end

theorem fld_low (x hi : Nat) : Bits.fld x hi 0 = x % 2 ^ (hi + 1) := rfl

theorem fld_eq (x hi lo : Nat) : Bits.fld x hi lo = x / 2 ^ lo % 2 ^ (hi + 1 - lo) := by rw [Bits.fld, Nat.shiftRight_eq_div_pow]

/-! ### COPY, FILL and SIGNAL (R286) -/

/-- R286: a byte of FILL's pattern. -/
theorem pattern_byte (body : List Word) (j : Nat) :
    BitVec.ofNat 8 (dw body 4 >>> (8 * (j % 8))) = ((body.getD 4 0) >>> (8 * (j % 8))).setWidth 8 := by
  apply BitVec.eq_of_toNat_eq
  simp [dw, BitVec.toNat_setWidth, BitVec.toNat_ushiftRight]

section
variable {s : State} {k : Nat} {ch : Fin 8} {r : Running} (hs : Afresh (opened s k ch))

theorem linesBefore_some (a n : Nat) (e : EngStop) : ∃ m, linesBefore a n e = some m := by
  unfold linesBefore
  split <;> exact ⟨_, rfl⟩

section
variable (hr : runningKind s k ch 1 = some r) {n : Nat} (hn : dw r.body 4 % 2 ^ 40 = n)
include hs hr hn

theorem exec_copy_none (h : n = 0) : exec (.copy k ch) s = .next (cmdEnds (opened s k ch) k ch r 3) := by
  show execCopy k ch s = _
  unfold execCopy
  refine performStep_ends hr hs ?_
  dsimp only
  rw [fld_low, hn, if_pos h]

theorem exec_copy_piece (hne : n ≠ 0)
    (hapart : ¬ ((r.body.getD 2 0).toNat < (r.body.getD 3 0).toNat + n ∧ (r.body.getD 3 0).toNat < (r.body.getD 2 0).toNat + n))
    {off m : Nat} (hoff : off = (s.getChain k ch).piece * 65536) (hm : m = min 65536 (n - off)) {t u : State} {bs : List Byte}
    (hread : engRead (opened s k ch) k ch (r.body.getD 2 0 + BitVec.ofNat 64 off) m 1 = .ok (t, bs))
    (hwrite : engWrite t k ch (r.body.getD 3 0 + BitVec.ofNat 64 off) bs = .ok u) :
    exec (.copy k ch) s = .next (cmdGoes u k ch r (decide (off + m < n))) := by
  have ht : Afresh t := ((engRead_looks hs k ch _ m 1).ok hread).afresh hs
  have hu : Afresh u := (engWrites_keeps ht k ch hwrite).afresh ht
  rw [engWrite, engRead_length hs hread] at hwrite
  rw [engRead_bytes] at hread
  have hmove := engMove_ok hs (runs_cuts _ m) (runs_cuts _ m) hread hwrite
  show execCopy k ch s = _
  unfold execCopy
  refine performStep_goes hr hu ?_
  dsimp only
  rw [fld_low, hn, if_neg hne, if_neg (by simpa using hapart)]
  rw [show ((opened s k ch).getChain k ch).piece * pieceBytes = off from hoff.symm, show min pieceBytes (n - off) = m from hm.symm, hmove]
  rfl

theorem exec_copy_overlap (hne : n ≠ 0) (h1 : (r.body.getD 2 0).toNat < (r.body.getD 3 0).toNat + n)
    (h2 : (r.body.getD 3 0).toNat < (r.body.getD 2 0).toNat + n) :
    ∃ t, exec (.copy k ch) s = .next t ∧ (t.getChain k ch).ccnt = itemSeq r.item ∧
      (t.getChain k ch).fault = faultWord (s.getChain k ch).fault (itemSeq r.item) 0x59 := by
  show ∃ t, execCopy k ch s = _ ∧ _
  unfold execCopy
  refine performStep_fails hr hs (Nat.succ_ne_zero 0x58) ?_ (linesBefore_some _ _ _)
  dsimp only
  rw [fld_low, hn, if_neg hne, if_pos (by simpa using And.intro h1 h2)]

end

section
variable (hr : runningKind s k ch 5 = some r) {n : Nat} (hn : dw r.body 3 % 2 ^ 40 = n)
include hs hr hn

theorem exec_fill_none (h : n = 0) : exec (.fill k ch) s = .next (cmdEnds (opened s k ch) k ch r 3) := by
  show execFill k ch s = _
  unfold execFill
  refine performStep_ends hr hs ?_
  dsimp only
  rw [fld_low, hn, if_pos h]

theorem exec_fill_piece (hne : n ≠ 0) {off m : Nat} (hoff : off = (s.getChain k ch).piece * 65536) (hm : m = min 65536 (n - off)) {u : State}
    (hwrite : engWrite (opened s k ch) k ch (r.body.getD 2 0 + BitVec.ofNat 64 off)
      ((List.range m).map (fun j => ((r.body.getD 4 0) >>> (8 * (j % 8))).setWidth 8)) = .ok u) :
    exec (.fill k ch) s = .next (cmdGoes u k ch r (decide (off + m < n))) := by
  have hu : Afresh u := (engWrites_keeps hs k ch hwrite).afresh hs
  show execFill k ch s = _
  unfold execFill
  refine performStep_goes hr hu ?_
  dsimp only
  rw [fld_low, hn, if_neg hne]
  rw [show ((opened s k ch).getChain k ch).piece * pieceBytes = off from hoff.symm, show min pieceBytes (n - off) = m from hm.symm]
  simp only [pattern_byte]
  rw [hwrite]
  rfl

end

include hs in
theorem exec_cmdSignal (hr : runningKind s k ch 6 = some r) {t u : State} {pa : Nat}
    (haddr : engAddr (opened s k ch) k ch (r.body.getD 2 0) 8 8 .write = .ok (t, pa))
    (hstore : engStore t k ch pa [(0, Bits.bytesLE 8 (dw r.body 3))] = .ok u) : exec (.cmdSignal k ch) s = .next (cmdEnds u k ch r 3) := by
  have ht := ((engAddr_looks hs k ch _ _ _ _).ok haddr).afresh hs
  have hu := (engStore_keeps ht k ch _ _ hstore).afresh ht
  show execCmdSignal k ch s = _
  unfold execCmdSignal
  refine performStep_ends hr hu ?_
  dsimp only
  rw [haddr]
  dsimp only [bind, Except.bind]
  rw [hstore]

end

end Sys2Proof.Machine
end
section
/-! PROOFS. Commands of one element, and the stash ring (R286 to R288). -/
namespace Sys2Proof.Machine

variable {s : State} {k : Nat} {ch : Fin 8} {r : Running} (hs : Afresh (opened s k ch))

/-- R285: what a command carries is no part of what its accesses look at. -/
theorem carryOn_afresh {t : State} (ht : Afresh t) (k : Nat) (ch : Fin 8) (r : Running) (aux : List Word) : Afresh (carryOn t k ch r aux) := ht

theorem carryOn_piece (t : State) (k : Nat) (ch : Fin 8) (r : Running) (aux : List Word) :
    ((carryOn t k ch r aux).getChain k ch).piece = (t.getChain k ch).piece := by
  rw [carryOn, State.getChain_setChain_same]

theorem eng_bind {α β : Type} (a : α) (f : α → Eng β) : ((Except.ok a : Eng α) >>= f) = f a := rfl

theorem word_add_zero (a : Word) {n : Nat} (h : n = 0) : a + BitVec.ofNat 64 n = a := by
  rw [h]
  exact BitVec.add_zero a

/-! ### GATH and SCAT (R287) -/

/-- R287: the one element of a command of one element. -/
theorem gatherPiece_one (hn : dw r.body 4 % 2 ^ 32 = 1) (hpiece : ((opened s k ch).getChain k ch).piece = 0)
    {one : State → Word → Word → Nat → Eng State} {p : Nat} {s1 s2 u : State} {ib : List Byte}
    (haddr : engAddr (opened s k ch) k ch (r.body.getD 3 0) 4 4 .read = .ok (s1, p)) (hload : engLoad s1 k ch (r.body.getD 3 0) p 4 = .ok (s2, ib))
    (hone : one s2 (r.body.getD 2 0 + ((BitVec.ofNat 32 (Bits.ofBytesLE ib)).signExtend 64 <<< (dw r.body 4 / 2 ^ 36 % 16))) (r.body.getD 5 0)
      (dw r.body 4 / 2 ^ 32 % 4) = .ok u) :
    gatherPiece (opened s k ch) k ch r one = pieceDone u k ch r false := by
  have hsize : 1 ≤ pieceBytes / 2 ^ (dw r.body 4 / 2 ^ 32 % 4) := by
    have hpow : 2 ^ (dw r.body 4 / 2 ^ 32 % 4) ≤ 2 ^ 3 := Nat.pow_le_pow_right (by decide) (by omega)
    rw [Nat.one_le_div_iff (Nat.two_pow_pos _)]
    exact hpow.trans (by decide)
  have hindex (x : Nat) : BitVec.ofInt 64 (Bits.sx 32 x) = (BitVec.ofNat 32 x).signExtend 64 := by
    rw [Sys2Proof.Num.sx_eq_toInt (by decide)]
    rfl
  unfold gatherPiece
  dsimp only
  rw [hpiece, Nat.zero_mul, fld_low, hn, fld_eq, fld_eq]
  simp only [Nat.reduceAdd, Nat.reduceSub, Nat.reducePow] at hsize hone ⊢
  generalize dw r.body 4 / 4294967296 % 4 = z at hsize hone
  rw [show min (pieceBytes / 2 ^ z) 1 = 1 from Nat.min_eq_right hsize, show List.range 1 = [0] from rfl, List.foldlM_cons]
  simp only [List.foldlM_nil, hindex, Nat.zero_add, Nat.mul_zero, Nat.zero_mul, BitVec.add_zero]
  rw [haddr]
  dsimp only [bind, Except.bind]
  rw [hload]
  dsimp only
  rw [hone]
  rfl

section
include hs
variable {p q : Nat} {s1 s2 s3 s4 s5 : State} {ib bs : List Byte} (hn : dw r.body 4 % 2 ^ 32 = 1) (hpiece : (s.getChain k ch).piece = 0)
  (haddr : engAddr (opened s k ch) k ch (r.body.getD 3 0) 4 4 .read = .ok (s1, p)) (hload : engLoad s1 k ch (r.body.getD 3 0) p 4 = .ok (s2, ib))
  {a : Word} {z : Nat} (hz : z = dw r.body 4 / 2 ^ 32 % 4)
  (ha : a = r.body.getD 2 0 + ((BitVec.ofNat 32 (Bits.ofBytesLE ib)).signExtend 64 <<< (dw r.body 4 / 2 ^ 36 % 16)))
include haddr hload

theorem indexRead_afresh : Afresh s2 := by
  have h1 := ((engAddr_looks hs k ch _ _ _ _).ok haddr).afresh hs
  exact ((engLoad_looks h1 k ch _ _ _).ok hload).afresh h1

include hn hpiece hz ha

theorem exec_gath_one (hr : runningKind s k ch 3 = some r) (hfrom : engAddr s2 k ch a (2 ^ z) (2 ^ z) .read = .ok (s3, q))
    (helem : engLoad s3 k ch a q (2 ^ z) = .ok (s4, bs)) (hto : engWrite s4 k ch (r.body.getD 5 0) bs = .ok s5) :
    exec (.gath k ch) s = .next (cmdEnds s5 k ch r 3) := by
  have h2 := indexRead_afresh hs haddr hload
  have h3 := ((engAddr_looks h2 k ch _ _ _ _).ok hfrom).afresh h2
  have h4 := ((engLoad_looks h3 k ch _ _ _).ok helem).afresh h3
  have h5 := (engWrites_keeps h4 k ch hto).afresh h4
  show execGath k ch s = _
  unfold execGath
  refine performStep_goes hr h5 (more := false) ?_
  refine gatherPiece_one hn hpiece haddr hload ?_
  rw [← ha, ← hz, elemRun, hfrom]
  dsimp only [bind, Except.bind]
  rw [helem]
  exact hto

theorem exec_scat_one (hr : runningKind s k ch 4 = some r) (hfrom : engRead s2 k ch (r.body.getD 5 0) (2 ^ z) 1 = .ok (s3, bs))
    (helem : engAddr s3 k ch a (2 ^ z) (2 ^ z) .write = .ok (s4, q)) (hto : engStore s4 k ch q [(0, bs)] = .ok s5) :
    exec (.scat k ch) s = .next (cmdEnds s5 k ch r 3) := by
  have h2 := indexRead_afresh hs haddr hload
  have h3 := ((engRead_looks h2 k ch _ _ _).ok hfrom).afresh h2
  have h4 := ((engAddr_looks h3 k ch _ _ _ _).ok helem).afresh h3
  have h5 := (engStore_keeps h4 k ch _ _ hto).afresh h4
  show execScat k ch s = _
  unfold execScat
  refine performStep_goes hr h5 (more := false) ?_
  refine gatherPiece_one hn hpiece haddr hload ?_
  rw [← ha, ← hz, hfrom]
  dsimp only [bind, Except.bind, elemRun]
  rw [helem]
  exact hto

end

/-! ### COPYT (R286) -/

theorem elemBytes_le (t : Tensor) : t.elemBytes ≤ 8 := by
  unfold Tensor.elemBytes
  generalize Ty.ofCode _ = ty
  cases ty <;> decide

include hs in
theorem exec_copyt_none (hr : runningKind s k ch 2 = some r) (h : dw r.body 4 % 2 ^ 40 = 0) :
    exec (.copyt k ch) s = .next (cmdEnds (opened s k ch) k ch r 3) := by
  show execCopyt k ch s = _
  unfold execCopyt
  refine performStep_ends hr hs ?_
  dsimp only
  rw [fld_low, if_pos h]

/-- R286: the tensor of a COPYT of one element. -/
theorem copytTensor_one (hpiece : (s.getChain k ch).piece = 0) {s1 : State} {t : Tensor}
    (htensor : engTensor (opened s k ch) k ch (dw r.body 2 % 4096) = .ok (s1, t)) (hlayout : t.layout = false) (h14 : t.ty ≠ 14) (h15 : t.ty ≠ 15)
    (hn : dw r.body 4 % 2 ^ 40 = t.elemBytes) (hne : t.elemBytes ≠ 0) (hrr : dw r.body 5 % 2 ^ 24 = 1)
    (hrow : dw r.body 2 / 2 ^ 12 % 2 ^ 24 < t.rows) (hcol : dw r.body 2 / 2 ^ 36 % 2 ^ 24 < t.cols) :
    copytTensor (opened s k ch) k ch r = .ok (s1, t) := by
  unfold copytTensor
  refine (if_neg (not_not.mpr hpiece)).trans ?_
  rw [fld_low, show dw r.body 2 % 2 ^ (11 + 1) = dw r.body 2 % 4096 from rfl, htensor]
  dsimp only [bind, Except.bind]
  rw [fld_low, hn, fld_low, hrr, Nat.one_mul, if_neg (by simp [hlayout, h14, h15]), if_neg (by simp), fld_eq, fld_eq]
  refine if_neg ?_
  rw [Nat.div_self (Nat.pos_of_ne_zero hne)]
  simp only [Bool.or_eq_true, decide_eq_true_eq]
  omega

/-- R286: one piece of a transposing copy of `total` elements, whose element of row x and column c stands at `at_ x c`. -/
def copytPiece (k : Nat) (ch : Fin 8) (r : Running) (at_ : Nat → Nat → Word) (dst : Word) (rr stride b total : Nat) (s : State) : Eng State := do
  let off := (s.getChain k ch).piece * (pieceBytes / b)
  let m := min (pieceBytes / b) (total - off)
  let cols := (List.range ((off + m - 1) / rr - off / rr + 1)).map (fun j => off / rr + j)
  let has (x c : Nat) : Bool := off ≤ c * rr + x && c * rr + x < off + m
  let order := (List.range rr).flatMap (fun x => (cols.filter (has x)).map (fun c => (x, c)))
  let (s, elems, stop) := readElems k ch at_ (fun x c => c * rr + x) b s order []
  if stop.any EngStop.paused then .error ⟨s, 0, 0, 0, 0⟩
  let s ← cols.foldlM (fun s c =>
    let xs := (List.range rr).filter (fun x => has x c && (mget? (c * rr + x) elems).isSome)
    engWrite s k ch (dst + BitVec.ofNat 64 (c * stride + xs.headD 0 * b)) (xs.flatMap (fun x => mget [] (c * rr + x) elems))) s
  match stop with
  | some e => .error { e with s := s }
  | none => pieceDone s k ch r (off + m < total)

theorem copytPiece_one {at_ : Nat → Nat → Word} {a dst : Word} {stride b : Nat} {u s2 s3 : State} {bs : List Byte}
    (hpiece : (u.getChain k ch).piece = 0) (hb : b ≠ 0) (hsize : b ≤ 8) (hat : at_ 0 0 = a)
    (hread : engRead u k ch a b 1 = .ok (s2, bs)) (hwrite : engWrite s2 k ch dst bs = .ok s3) :
    copytPiece k ch r at_ dst 1 stride b 1 u = pieceDone s3 k ch r false := by
  have hone : min (pieceBytes / b) 1 = 1 :=
    Nat.min_eq_right ((Nat.one_le_div_iff (Nat.pos_of_ne_zero hb)).mpr (hsize.trans (by decide)))
  have helems : readElems k ch at_ (fun x c => c * 1 + x) b u [(0, 0)] [] = (s2, mset 0 bs [], none) := by
    rw [readElems, hat, hread]
    rfl
  have hcols : (List.range ((0 + 1 - 1) / 1 - 0 / 1 + 1)).map (fun j => 0 / 1 + j) = [0] := rfl
  have horder : (List.range 1).flatMap (fun x => (((List.range ((0 + 1 - 1) / 1 - 0 / 1 + 1)).map (fun j => 0 / 1 + j)).filter
    (fun c => decide (0 ≤ c * 1 + x) && decide (c * 1 + x < 0 + 1))).map (fun c => (x, c))) = [(0, 0)] := rfl
  have hplace : dst + BitVec.ofNat 64 (0 * stride + 0 * b) = dst := word_add_zero dst (by omega)
  unfold copytPiece
  rw [hpiece, Nat.zero_mul]
  dsimp only
  rw [Nat.sub_zero, hone]
  rw [horder, helems, hcols]
  refine (if_neg Bool.false_ne_true).trans ?_
  show ([0].foldlM _ s2 >>= _) = _
  rw [List.foldlM_cons]
  show ((engWrite s2 k ch (dst + BitVec.ofNat 64 (0 * stride + 0 * b)) (bs ++ []) >>= _) >>= _) = _
  rw [hplace, List.append_nil, hwrite]
  rfl

include hs in
theorem exec_copyt_one (hr : runningKind s k ch 2 = some r) (hpiece : (s.getChain k ch).piece = 0) {s1 s2 s3 : State} {t : Tensor} {n : Nat}
    {bs : List Byte} (htensor : engTensor (opened s k ch) k ch (dw r.body 2 % 4096) = .ok (s1, t)) (hlayout : t.layout = false)
    (h14 : t.ty ≠ 14) (h15 : t.ty ≠ 15)
    (hn : dw r.body 4 % 2 ^ 40 = n) (hbytes : n = t.elemBytes) (hne : n ≠ 0) (hrr : dw r.body 5 % 2 ^ 24 = 1)
    (hpiece1 : (s1.getChain k ch).piece = 0)
    {row col : Nat} (hrow : dw r.body 2 / 2 ^ 12 % 2 ^ 24 = row) (hcol : dw r.body 2 / 2 ^ 36 % 2 ^ 24 = col)
    (hrows : row < t.rows) (hcols : col < t.cols)
    (hread : engRead (carryOn s1 k ch r (wordsOf (Bits.bytesLE 32 t.word))) k ch (t.base + BitVec.ofNat 64 (row * t.stride + col * n)) n 1 =
      .ok (s2, bs))
    (hwrite : engWrite s2 k ch (r.body.getD 3 0) bs = .ok s3) : exec (.copyt k ch) s = .next (cmdEnds s3 k ch r 3) := by
  subst hbytes hrow hcol
  have h1 : Afresh s1 := (engTensor_looks hs k ch htensor).afresh hs
  have hcarry := carryOn_afresh h1 k ch r (wordsOf (Bits.bytesLE 32 t.word))
  have h2 : Afresh s2 := ((engRead_looks hcarry k ch _ _ _).ok hread).afresh hcarry
  have h3 : Afresh s3 := (engWrites_keeps h2 k ch hwrite).afresh h2
  show execCopyt k ch s = _
  unfold execCopyt
  refine performStep_goes hr h3 (more := false) ?_
  dsimp only
  rw [fld_low, hn, if_neg hne, copytTensor_one hpiece htensor hlayout h14 h15 hn hne hrr hrows hcols]
  refine (eng_bind (s1, t) _).trans ?_
  refine Eq.trans (b := copytPiece k ch r
    (fun x c => t.elemAt (Bits.fld (dw r.body 2) 35 12 + x) (Bits.fld (dw r.body 2) 59 36 + c)) (r.body.getD 3 0)
    (Bits.fld (dw r.body 5) 23 0) (Bits.fld (dw r.body 5) 63 24) t.elemBytes (t.elemBytes / t.elemBytes)
    (carryOn s1 k ch r (wordsOf (Bits.bytesLE 32 t.word)))) rfl ?_
  rw [fld_low, hrr, Nat.div_self (Nat.pos_of_ne_zero hne)]
  refine copytPiece_one ?_ hne (elemBytes_le t) ?_ hread hwrite
  · rw [carryOn_piece, hpiece1]
  · rw [fld_eq, fld_eq]
    rfl

/-! ### STASH and UNSTASH (R288) -/

/-- R285, R288: the last piece of an entry, and the ring's descriptor after it. -/
theorem lastPiece_eq {u s4 s5 : State} {src dst : List (Word × Nat)} {n off need : Nat} {a : Word} (hmove : engMove u k ch src dst = .ok s4)
    (hupdate : ringUpdate s4 k ch a off need = .ok s5) :
    (do
      let s ← engMove u k ch src dst
      if 0 + n < n then pieceDone s k ch r true
      else engEnd (← ringUpdate s k ch a off need) k ch r 3 0 [] : Eng State) = engEnd s5 k ch r 3 0 [] := by
  rw [hmove]
  refine (eng_bind s4 _).trans ((if_neg (by omega)).trans ?_)
  rw [hupdate]
  rfl

section
include hs
variable {s1 s2 s3 s4 s5 : State} {a : Word} {x : Ring} {hd bs : List Byte} (hpiece : (s.getChain k ch).piece = 0)
  (hring : stashRing (opened s k ch) k ch r = .ok (s1, a, x))
include hpiece hring

section
variable (hr : runningKind s k ch 7 = some r) {n free need : Nat} (hn : dw r.body 3 = n)
  (hfree : free = x.size - (BitVec.ofNat 64 x.tail - BitVec.ofNat 64 x.head).toNat) (hneed : need = 64 + Bits.ceilDiv n 64 * 64)
include hr hn hfree hneed

theorem exec_stash_fits (hfits : need ≤ free) (hshort : n ≤ 65536)
    (hheader : engWrites k ch 1 s1 (ringRuns x x.tail 64) (stashHeader (r.body.getD 4 0) n false) = .ok s2)
    (hread : engRead (carryOn s2 k ch r (ringAux a x n)) k ch (r.body.getD 2 0) n 1 = .ok (s3, bs))
    (hwrite : engWrites k ch 1 s3 (ringRuns x (x.tail + 64) n) bs = .ok s4) (hupdate : ringUpdate s4 k ch a 24 need = .ok s5) :
    exec (.stash k ch) s = .next (cmdEnds s5 k ch r 3) := by
  have h1 : Afresh s1 := (stashRing_looks hs k ch hring).afresh hs
  have h2 : Afresh s2 := (engWrites_keeps h1 k ch hheader).afresh h1
  have hcarry := carryOn_afresh h2 k ch r (ringAux a x n)
  have h3 : Afresh s3 := ((engRead_looks hcarry k ch _ _ _).ok hread).afresh hcarry
  have h4 : Afresh s4 := (engWrites_keeps h3 k ch hwrite).afresh h3
  have h5 : Afresh s5 := (ringUpdate_keeps h4 k ch hupdate).afresh h4
  rw [engRead_bytes] at hread
  have hmove := engMove_ok hcarry (runs_cuts _ n) (ringRuns_cuts x _ n) hread hwrite
  show execStash k ch s = _
  unfold execStash
  refine performStep_ends hr h5 ?_
  dsimp only
  rw [show ((opened s k ch).getChain k ch).piece = 0 from hpiece, Nat.zero_mul, hring, hn]
  refine (if_neg (not_not.mpr rfl)).trans ?_
  refine (eng_bind (s1, a, x) _).trans ?_
  dsimp only
  rw [← hfree, ← hneed, if_pos hfits, hheader]
  refine (eng_bind s2 _).trans ?_
  rw [show min pieceBytes (n - 0) = n from Nat.min_eq_right hshort, BitVec.add_zero, Nat.add_zero]
  exact lastPiece_eq hmove hupdate

theorem exec_stash_elided (hfull : free < need) (hheld : 64 ≤ free)
    (hheader : engWrites k ch 1 s1 (ringRuns x x.tail 64) (stashHeader (r.body.getD 4 0) 0 true) = .ok s3)
    (hupdate : ringUpdate s3 k ch a 24 64 = .ok s4) : exec (.stash k ch) s = .next (cmdEnds s4 k ch r 5) := by
  have h1 : Afresh s1 := (stashRing_looks hs k ch hring).afresh hs
  have h3 : Afresh s3 := (engWrites_keeps h1 k ch hheader).afresh h1
  have h4 : Afresh s4 := (ringUpdate_keeps h3 k ch hupdate).afresh h3
  show execStash k ch s = _
  unfold execStash
  refine performStep_ends hr h4 ?_
  dsimp only
  rw [show ((opened s k ch).getChain k ch).piece = 0 from hpiece, Nat.zero_mul, hring, hn]
  refine (if_neg (not_not.mpr rfl)).trans ((eng_bind (s1, a, x) _).trans ?_)
  dsimp only
  rw [← hfree, ← hneed, if_neg (by omega), if_pos hheld, hheader]
  refine (eng_bind s3 _).trans ?_
  rw [hupdate]
  rfl

end

section
variable (hr : runningKind s k ch 8 = some r) (hsome : x.head ≠ x.tail)
  (hread : engReads k ch 1 s1 (ringRuns x x.head 64) [] = .ok (s2, hd)) {len : Nat} (hlen : dw (wordsOf hd) 1 = len)
  (htag : (wordsOf hd).getD 0 0 = r.body.getD 4 0) (hroom : len ≤ dw r.body 3)
include hr hsome hread hlen htag hroom

theorem exec_unstash_elided (helided : Bits.bit (dw (wordsOf hd) 2) 0 = true) (hupdate : ringUpdate s2 k ch a 16 64 = .ok s3) :
    exec (.unstash k ch) s = .next (cmdEnds s3 k ch r 5) := by
  have h1 : Afresh s1 := (stashRing_looks hs k ch hring).afresh hs
  have h2 : Afresh s2 := ((engReads_looks h1 k ch _ _ _).ok hread).afresh h1
  have h3 : Afresh s3 := (ringUpdate_keeps h2 k ch hupdate).afresh h2
  show execUnstash k ch s = _
  unfold execUnstash
  refine performStep_ends hr h3 ?_
  dsimp only
  rw [show ((opened s k ch).getChain k ch).piece = 0 from hpiece, Nat.zero_mul, hring]
  refine (if_neg (not_not.mpr rfl)).trans ((eng_bind (s1, a, x) _).trans ((if_neg hsome).trans ?_))
  rw [hread]
  refine (eng_bind (s2, hd) _).trans ?_
  dsimp only
  rw [htag, hlen, helided, if_neg (by simpa using hroom), if_pos rfl, hupdate]
  rfl

theorem exec_unstash_moves (hwhole : Bits.bit (dw (wordsOf hd) 2) 0 = false) (hshort : len ≤ 65536)
    (hentry : engReads k ch 1 (carryOn s2 k ch r (ringAux a x len)) (ringRuns x (x.head + 64) len) [] = .ok (s3, bs))
    (hwrite : engWrite s3 k ch (r.body.getD 2 0) bs = .ok s4)
    (hupdate : ringUpdate s4 k ch a 16 (64 + Bits.ceilDiv len 64 * 64) = .ok s5) :
    exec (.unstash k ch) s = .next (cmdEnds s5 k ch r 3) := by
  have h1 : Afresh s1 := (stashRing_looks hs k ch hring).afresh hs
  have h2 : Afresh s2 := ((engReads_looks h1 k ch _ _ _).ok hread).afresh h1
  have hcarry := carryOn_afresh h2 k ch r (ringAux a x len)
  have h3 : Afresh s3 := ((engReads_looks hcarry k ch _ _ _).ok hentry).afresh hcarry
  have h4 : Afresh s4 := (engWrites_keeps h3 k ch hwrite).afresh h3
  have h5 : Afresh s5 := (ringUpdate_keeps h4 k ch hupdate).afresh h4
  have hcount : bs.length = len := by
    rw [engReads_length hcarry hentry, (ringRuns_cuts x _ len).1]
    exact Nat.zero_add len
  rw [engWrite, hcount] at hwrite
  have hmove := engMove_ok hcarry (ringRuns_cuts x _ len) (runs_cuts _ len) hentry hwrite
  show execUnstash k ch s = _
  unfold execUnstash
  refine performStep_ends hr h5 ?_
  dsimp only
  rw [show ((opened s k ch).getChain k ch).piece = 0 from hpiece, Nat.zero_mul, hring]
  refine (if_neg (not_not.mpr rfl)).trans ((eng_bind (s1, a, x) _).trans ((if_neg hsome).trans ?_))
  rw [hread]
  refine (eng_bind (s2, hd) _).trans ?_
  dsimp only
  rw [htag, hlen, hwhole, if_neg (by simpa using hroom), if_neg Bool.false_ne_true, show min pieceBytes (len - 0) = len from Nat.min_eq_right hshort,
    BitVec.add_zero, Nat.add_zero]
  exact lastPiece_eq hmove hupdate

end

end

end Sys2Proof.Machine

open Sys2Proof Sys2Proof.Machine

/-- Settles O52: where no agenda limits a step, accesses that pass leave the chain and the record of the engines' work as they are, so that
each command's step is its accesses in order and then its completion. -/
theorem commandSteps : Obligations.CommandSteps := by
  unfold Obligations.CommandSteps
  refine ⟨fun s k ch r st cause under results => ?_,
    fun s k ch rest hrun hgang => ⟨fun a q stamp x s1 bs hfifo hunbroken hread => ?_, fun i a c ssn q x stamp hfifo => ?_⟩,
    fun s k ch m hhead hall => ?_,
    fun s t s1 s2 k ch a off n x pa hsteps hscript w hshadow hoff halign hread hwrite hupdate =>
      ringUpdate_mem (afresh_of_noScript hsteps hscript) w hshadow hoff hread hwrite hupdate,
    fun s k ch r hunbroken => ?_⟩
  · intro t c key
    have hdone : Completes s t k ch r cause under := completeCmd_completes s k ch r st cause under results
    clear_value t
    obtain ⟨⟨e, hlt, hchain⟩, hothers, hboard, hquiet, hposted⟩ := hdone
    refine ⟨?_, ?_, ?_, ?_, ?_, ?_, ?_, hboard, fun hc => ⟨?_, hquiet (.inl hc)⟩,
      fun hc => ⟨?_, fun hloud hlive => ⟨_, hposted hc hloud hlive, rfl, rfl, rfl⟩, fun hq => hquiet (.inr hq)⟩, hothers⟩
    · rw [hchain]
    · rw [hchain]
    · rw [hchain]
    · rw [hchain]
      rfl
    · rw [hchain]
    · rw [hchain]
      rfl
    · rw [hchain]
      exact hlt
    · rw [hchain]
      exact if_pos hc
    · rw [hchain]
      exact if_neg hc
  · obtain ⟨u, hkeeps, hexec⟩ := exec_commandBegin_reads hrun hgang hunbroken hfifo hread
    exact ⟨fun hok => ⟨_, hexec, recordBegun_good hkeeps hok⟩, fun hbad => ⟨_, hexec, recordBegun_bad hkeeps hbad⟩⟩
  · refine ⟨_, exec_commandBegin_promise hrun hgang hfifo, ?_, rfl⟩
    rw [State.getChain_setChain_same]
  · refine ⟨_, topEts s k (chainsOf m), exec_chainFenceRelease k hhead hall, unfenced_mem _ _ _ _, fun h => ?_⟩
    split
    next hin =>
      have hmem := (mem_chainsOf m h).mpr hin
      rw [unfenced_in k _ (chainsOf_nodup m) hmem]
      exact ⟨rfl, rfl, ets_le_topEts k s hmem⟩
    next hout => exact unfenced_out k _ (fun hmem => hout ((mem_chainsOf m h).mp hmem)) s
  · have hs : Afresh (opened s k ch) := hunbroken.openScript
    intro w d off s0 carry ends go
    refine ⟨fun hr => ⟨fun hn => exec_copy_none hs hr rfl hn, fun hne hapart s1 bs s2 hread hwrite =>
        exec_copy_piece hs hr rfl hne hapart rfl rfl hread hwrite, fun hne h1 h2 => exec_copy_overlap hs hr rfl hne h1 h2⟩,
      fun hr => ⟨fun hn => exec_fill_none hs hr rfl hn, fun hne s1 hwrite => exec_fill_piece hs hr rfl hne rfl rfl hwrite⟩,
      fun hr s1 pa s2 haddr hstore => exec_cmdSignal hs hr haddr hstore,
      fun hr => ⟨fun hn => exec_copyt_none hs hr hn, fun s1 t s2 bs s3 htensor hlayout h14 h15 hn hne hrr hpiece hpiece1 hrows hcols hread hwrite =>
        exec_copyt_one hs hr hpiece htensor hlayout h14 h15 rfl hn hne hrr hpiece1 rfl rfl hrows hcols hread hwrite⟩,
      fun p q s1 s2 s3 s4 s5 ib bs hn hpiece haddr hload =>
        ⟨fun hr => exec_gath_one hs hn hpiece haddr hload rfl rfl hr, fun hr => exec_scat_one hs hn hpiece haddr hload rfl rfl hr⟩,
      fun s1 s2 s3 s4 s5 a x hd bs hpiece hring => ⟨fun hr => ⟨fun hfits hshort hheader hread hwrite hupdate =>
          exec_stash_fits hs hpiece hring hr rfl rfl rfl hfits hshort hheader hread hwrite hupdate,
        fun hfull hheld hheader hupdate => exec_stash_elided hs hpiece hring hr rfl rfl rfl hfull hheld hheader hupdate⟩,
        fun hr hsome hread htag hroom => ⟨fun helided hupdate => exec_unstash_elided hs hpiece hring hr hsome hread rfl htag hroom helided hupdate,
          fun hwhole hshort hentry hwrite hupdate =>
            exec_unstash_moves hs hpiece hring hr hsome hread rfl htag hroom hwhole hshort hentry hwrite hupdate⟩⟩⟩
end
